-- ==== Sys2Proof/Word.lean ====
section
/-! DEFINITION. The machine's word types and their plainest arithmetic. -/

namespace Sys2Proof

/-- A 32-bit register value or instruction word (R8, R34). -/
abbrev Word := BitVec 32
/-- A 64-bit value held in a pair (R99). -/
abbrev Dword := BitVec 64
/-- A 128-bit value held in a quad (R99). -/
abbrev Qword := BitVec 128
/-- One byte of memory, the smallest addressable unit (R261). -/
abbrev Byte := BitVec 8

/-- 1 for true and 0 for false, as a number. -/
def bit (b : Bool) : Nat := if b then 1 else 0

/-- Bits [hi:lo] of a number (R7). -/
def slice (x hi lo : Nat) : Nat := x / 2 ^ lo % 2 ^ (hi + 1 - lo)

end Sys2Proof
end

