-- ==== Sys2Proof/Syntax.lean ====
section
/-! DEFINITION. The syntax: operand bundles of the word formats, operands of the event rows, and Instr with one constructor per row of the opcode table. -/

namespace Sys2Proof

/-- Two sources and a destination (format A, R34). -/
structure OpA where
  c : Bool
  u : Bool
  d : BitVec 7
  a : BitVec 7
  b : BitVec 7
  n : Bool
  lit : Option (BitVec 26)
deriving DecidableEq, Repr

/-- A unary A-format word, whose b field is 124 (R46). -/
structure OpU where
  c : Bool
  u : Bool
  d : BitVec 7
  a : BitVec 7
  n : Bool
  lit : Option (BitVec 26)
deriving DecidableEq, Repr

/-- Address arithmetic: s is the shift N (R46). -/
structure OpLea where
  c : Bool
  u : Bool
  d : BitVec 7
  a : BitVec 7
  b : BitVec 7
  s : BitVec 2
  n : Bool
  lit : Option (BitVec 26)
deriving DecidableEq, Repr

/-- Add immediate: i is the signed 11-bit immediate (R49). -/
structure OpI where
  c : Bool
  u : Bool
  d : BitVec 7
  a : BitVec 7
  i : BitVec 11
  lit : Option (BitVec 26)
deriving DecidableEq, Repr

/-- Compare: condition k and predicate p in the d field (R47). -/
structure OpCmp where
  c : Bool
  k : BitVec 3
  p : BitVec 3
  a : BitVec 7
  b : BitVec 7
  lit : Option (BitVec 26)
deriving DecidableEq, Repr

/-- Predicate logic: j negates q, k negates r (R47). -/
structure OpPl where
  c : Bool
  p : BitVec 3
  j : Bool
  q : BitVec 3
  k : Bool
  r : BitVec 3
  lit : Option (BitVec 26)
deriving DecidableEq, Repr

/-- Select: k is the predicate read (R46). -/
structure OpSel where
  c : Bool
  d : BitVec 7
  a : BitVec 7
  b : BitVec 7
  k : BitVec 3
  n : Bool
  lit : Option (BitVec 26)
deriving DecidableEq, Repr

/-- An A-format word with no U form (R45). -/
structure OpF where
  c : Bool
  d : BitVec 7
  a : BitVec 7
  b : BitVec 7
  n : Bool
  lit : Option (BitVec 26)
deriving DecidableEq, Repr

/-- frnd: r is the rounding mode of the minor (R46). -/
structure OpRnd where
  c : Bool
  u : Bool
  d : BitVec 7
  a : BitVec 7
  r : BitVec 2
  n : Bool
  lit : Option (BitVec 26)
deriving DecidableEq, Repr

/-- cvt: b conversion code, s saturation, r rounding (R48). -/
structure OpCvt where
  c : Bool
  u : Bool
  d : BitVec 7
  a : BitVec 7
  b : BitVec 7
  s : Bool
  r : BitVec 2
  n : Bool
  lit : Option (BitVec 26)
deriving DecidableEq, Repr

/-- pmask: predicate q, negated by j (R196). -/
structure OpPm where
  c : Bool
  u : Bool
  d : BitVec 7
  j : Bool
  q : BitVec 3
  n : Bool
  lit : Option (BitVec 26)
deriving DecidableEq, Repr

/-- gfirst (R196). -/
structure OpGf where
  c : Bool
  d : BitVec 7
  n : Bool
  lit : Option (BitVec 26)
deriving DecidableEq, Repr

/-- Group reduction: predicate q, negated by j, in the b field (R198). -/
structure OpGr where
  c : Bool
  u : Bool
  d : BitVec 7
  a : BitVec 7
  j : Bool
  q : BitVec 3
  n : Bool
  lit : Option (BitVec 26)
deriving DecidableEq, Repr

/-- Branch or call: predicate code p, displacement d (R35). -/
structure OpBr where
  c : Bool
  p : BitVec 4
  d : BitVec 21
  lit : Option (BitVec 26)
deriving DecidableEq, Repr

/-- A K-format word without operands (R50). -/
structure OpK where
  c : Bool
  lit : Option (BitVec 26)
deriving DecidableEq, Repr

/-- A K-format word with register code x (R50). -/
structure OpX where
  c : Bool
  x : BitVec 7
  lit : Option (BitVec 26)
deriving DecidableEq, Repr

/-- lpush: count x, end offset e (R135). -/
structure OpLp where
  c : Bool
  x : BitVec 7
  e : BitVec 11
  lit : Option (BitVec 26)
deriving DecidableEq, Repr

/-- trap or bkpt: 8-bit code k (R139). -/
structure OpCode where
  c : Bool
  k : BitVec 8
  lit : Option (BitVec 26)
deriving DecidableEq, Repr

/-- gtest: register x, predicate p (R141). -/
structure OpUxp where
  c : Bool
  u : Bool
  x : BitVec 7
  p : BitVec 3
  lit : Option (BitVec 26)
deriving DecidableEq, Repr

/-- Register code x with a U form. -/
structure OpUx where
  c : Bool
  u : Bool
  x : BitVec 7
  lit : Option (BitVec 26)
deriving DecidableEq, Repr

/-- dead: block k, mask m (R42). -/
structure OpDead where
  c : Bool
  k : BitVec 3
  m : BitVec 16
  lit : Option (BitVec 26)
deriving DecidableEq, Repr

/-- Rejoin mask j (R201). -/
structure OpJ where
  c : Bool
  j : BitVec 3
  lit : Option (BitVec 26)
deriving DecidableEq, Repr

/-- Vote: source predicate code s, predicate p (R200). -/
structure OpVote where
  c : Bool
  s : BitVec 4
  p : BitVec 3
  lit : Option (BitVec 26)
deriving DecidableEq, Repr

/-- Barrier id n (R204). -/
structure OpBar where
  c : Bool
  n : BitVec 4
  lit : Option (BitVec 26)
deriving DecidableEq, Repr

/-- smov.rd: x destination, i scalar index (R123). -/
structure OpSm where
  c : Bool
  u : Bool
  x : BitVec 7
  i : BitVec 9
  lit : Option (BitVec 26)
deriving DecidableEq, Repr

/-- smov.wr and smov.v: x source, i scalar index (R124, R125). -/
structure OpSw where
  c : Bool
  x : BitVec 7
  i : BitVec 9
  lit : Option (BitVec 26)
deriving DecidableEq, Repr

/-- sysr, sysw: x register, n system register number (R126). -/
structure OpSys where
  c : Bool
  u : Bool
  x : BitVec 7
  n : BitVec 11
  lit : Option (BitVec 26)
deriving DecidableEq, Repr

/-- fclr: flag mask f (R147). -/
structure OpFc where
  c : Bool
  f : BitVec 5
  lit : Option (BitVec 26)
deriving DecidableEq, Repr

/-- idr: selector s (R128). -/
structure OpIdr where
  c : Bool
  u : Bool
  x : BitVec 7
  s : BitVec 3
  lit : Option (BitVec 26)
deriving DecidableEq, Repr

/-- fence: kind k, scope s (R252). -/
structure OpFen where
  c : Bool
  k : BitVec 2
  s : BitVec 4
  lit : Option (BitVec 26)
deriving DecidableEq, Repr

/-- vspill, vfill: register x, slot k (R253). -/
structure OpSpl where
  c : Bool
  x : BitVec 7
  k : BitVec 6
  lit : Option (BitVec 26)
deriving DecidableEq, Repr

/-- Window code w (R257). -/
structure OpWin where
  c : Bool
  w : BitVec 3
  lit : Option (BitVec 26)
deriving DecidableEq, Repr

/-- Load: wait class w, predictor p, space s, type t (R51). -/
structure OpLd where
  c : Bool
  d : BitVec 7
  a : BitVec 7
  w : BitVec 3
  p : BitVec 2
  s : BitVec 2
  t : BitVec 3
  lit : Option (BitVec 26)
deriving DecidableEq, Repr

/-- Prefetch (R251). -/
structure OpPf where
  c : Bool
  a : BitVec 7
  w : BitVec 3
  s : BitVec 2
  t : BitVec 3
  lit : Option (BitVec 26)
deriving DecidableEq, Repr

/-- Store: data d, base a, space s, type t (R243). -/
structure OpSt where
  c : Bool
  d : BitVec 7
  a : BitVec 7
  s : BitVec 2
  t : BitVec 3
  lit : Option (BitVec 26)
deriving DecidableEq, Repr

/-- mma: f is xop 0 to 7, the element format; tile t (R316). -/
structure OpMma where
  c : Bool
  f : BitVec 3
  t : BitVec 3
  a : BitVec 7
  b : BitVec 7
  lit : Option (BitVec 26)
deriving DecidableEq, Repr

/-- mmsr: tile t, semiring s (R316). -/
structure OpMs where
  c : Bool
  t : BitVec 3
  a : BitVec 7
  b : BitVec 7
  s : BitVec 2
  lit : Option (BitVec 26)
deriving DecidableEq, Repr

/-- flkrd: counter j (R325). -/
structure OpFlk where
  c : Bool
  u : Bool
  d : BitVec 7
  j : BitVec 2
  lit : Option (BitVec 26)
deriving DecidableEq, Repr

/-- fidrd: selector k (R325). -/
structure OpFid where
  c : Bool
  u : Bool
  d : BitVec 7
  k : BitVec 3
  lit : Option (BitVec 26)
deriving DecidableEq, Repr

/-- ard: tile t, column group g, conversion v (R319). -/
structure OpArd where
  c : Bool
  t : BitVec 3
  d : BitVec 7
  g : BitVec 3
  v : BitVec 2
  lit : Option (BitVec 26)
deriving DecidableEq, Repr

/-- ast: tile t, base a, column group g, conversion v, space s (R319). -/
structure OpAst where
  c : Bool
  t : BitVec 3
  a : BitVec 7
  g : BitVec 3
  v : BitVec 2
  s : BitVec 2
  lit : Option (BitVec 26)
deriving DecidableEq, Repr

/-- Tile t (R322). -/
structure OpT where
  c : Bool
  t : BitVec 3
  lit : Option (BitVec 26)
deriving DecidableEq, Repr

/-- xkick (R326). -/
structure OpXk where
  c : Bool
  u : Bool
  x : BitVec 7
  lit : Option (BitVec 26)
deriving DecidableEq, Repr

/-- owait: class k, operand n (R327). -/
structure OpOw where
  c : Bool
  k : BitVec 2
  n : BitVec 11
  lit : Option (BitVec 26)
deriving DecidableEq, Repr

/-- bobj.init (R328). -/
structure OpBi where
  c : Bool
  u : Bool
  x : BitVec 7
  y : BitVec 7
  z : BitVec 7
  lit : Option (BitVec 26)
deriving DecidableEq, Repr

/-- bobj.arrive (R329). -/
structure OpBa where
  c : Bool
  u : Bool
  d : BitVec 7
  x : BitVec 7
  lit : Option (BitVec 26)
deriving DecidableEq, Repr

/-- bobj.wait (R330). -/
structure OpXy where
  c : Bool
  x : BitVec 7
  y : BitVec 7
  lit : Option (BitVec 26)
deriving DecidableEq, Repr

/-- mcfree (R331). -/
structure OpMc where
  c : Bool
  x : BitVec 7
  lit : Option (BitVec 26)
deriving DecidableEq, Repr

/-- tqpush: predicate p, header pair x, y, wait class w (R332). -/
structure OpTq where
  c : Bool
  u : Bool
  p : BitVec 3
  x : BitVec 7
  y : BitVec 7
  w : BitVec 3
  lit : Option (BitVec 26)
deriving DecidableEq, Repr

/-- tqtok.acq: predicate p, cell x (R333). -/
structure OpTa where
  c : Bool
  u : Bool
  p : BitVec 3
  x : BitVec 7
  lit : Option (BitVec 26)
deriving DecidableEq, Repr

/-- cbset (R334). -/
structure OpCs where
  c : Bool
  u : Bool
  lit : Option (BitVec 26)
deriving DecidableEq, Repr

/-- cbwait (R335). -/
structure OpCw where
  c : Bool
  x : BitVec 7
  y : BitVec 7
  lit : Option (BitVec 26)
deriving DecidableEq, Repr

/-- Atomic: operation o (R52), space s, type t, and the literal's operand register x and signed offset i (R51). -/
structure OpAt where
  c : Bool
  d : BitVec 7
  a : BitVec 7
  o : BitVec 5
  s : BitVec 2
  t : BitVec 3
  x : BitVec 7
  i : BitVec 19
deriving DecidableEq, Repr

/-- Reduction: an atomic without destination (R247). -/
structure OpRed where
  c : Bool
  a : BitVec 7
  o : BitVec 5
  s : BitVec 2
  t : BitVec 3
  x : BitVec 7
  i : BitVec 19
deriving DecidableEq, Repr

/-- MX matrix word: f is xop − 8, tile t, fragments a and b, scale registers x (XA) and y (XB) of the mandatory literal (R317). -/
structure OpMx where
  c : Bool
  f : BitVec 3
  t : BitVec 3
  a : BitVec 7
  b : BitVec 7
  x : BitVec 7
  y : BitVec 7
deriving DecidableEq, Repr

/-- A 64-byte command entry of a channel: the attachment it came by (0 PCIe, 1 port 0, 2 port 1), its sequence number, its die, flags and length fields and its 48-byte payload as a number, byte 0 lowest (R414). -/
structure Cmd where
  ch : Nat
  seq : Nat
  die : Nat
  flags : Nat
  length : Nat
  payload : Nat
deriving DecidableEq, Repr

/-- A command entry as it lies in a ring or a datagram, with its op (R414). -/
structure CmdEntry where
  op : Nat
  seq : Nat
  die : Nat
  flags : Nat
  length : Nat
  payload : Nat
deriving DecidableEq, Repr

/-- An access that arrives from a peer device: kind 0 read, 1 write, 2 atomic; physical address, width in bytes, data as a number, atomic operation code and key slot (R219). -/
structure PeerAcc where
  kind : Nat
  pa : Nat
  width : Nat
  data : Nat
  op : Nat
  key : Nat
deriving DecidableEq, Repr

/-- A channel datagram as a port receives it: its bytes, the first at offset 0 (R420). -/
structure Datagram where
  port : Nat
  bytes : List Nat
deriving DecidableEq, Repr

/-- What the outside finds at a start: the stage that fails (0 none) and its reason, the key of slot 0, the links that trained, and the images: their versions, and of the configuration image the upper bound of features, the DSPLIT, MIRK and WDT values, the peer links enabled, the least firmware version accepted, the channel keys of ports 1 and 2, the owner's key-encryption key, the rail floors by level, and the attachment that it names as primary (R422 to R424). -/
structure StartInfo where
  failStage : Nat
  reason : Nat
  slot0Key : Nat
  featBound : Nat
  scr : Nat
  mirk : Nat
  wdt : Nat
  linksUp : List Nat
  linksOn : List Nat
  cfgver : Nat
  fwver : Nat
  leastFw : Nat
  portKeys : List Nat
  ownerKey : Nat
  railFloors : List Nat
  primary : Nat
deriving DecidableEq, Repr

/-- R260, R431: one unit of a request of memory, by the request's number and the unit's; a unit past the last stands for all that are left. -/
structure ReqUnit where
  num : Nat
  unit : Nat
deriving DecidableEq, Repr

/-- One constructor per row of the opcode table. A word constructor's c says that the step continues after the word and its literal (R31, R37); lit is the literal word chained directly after it. An event constructor's operands name its target and the choices that the manual leaves to the outside or open. -/
inductive Instr where
  /-- R114. Adds a and b modulo 2^32 into d. -/
  | iaddI32 (o : OpA)
  /-- R114. Subtracts b from a modulo 2^32 into d. -/
  | isubI32 (o : OpA)
  /-- R114. Writes the low 32 bits of a × b to d. -/
  | imulI32 (o : OpA)
  /-- R114. Writes the high 32 bits of the signed 64-bit product to d. -/
  | imulhI32 (o : OpA)
  /-- R114. Writes the high 32 bits of the unsigned 64-bit product to d. -/
  | imulhN32 (o : OpA)
  /-- R114. Writes the exact absolute difference of signed a and b to d. -/
  | iabsdI32 (o : OpA)
  /-- R114. Adds signed a and b with signed saturation. -/
  | iaddsI32 (o : OpA)
  /-- R114. Subtracts signed b from a with signed saturation. -/
  | isubsI32 (o : OpA)
  /-- R114. Writes the smaller of signed a and b. -/
  | iminI32 (o : OpA)
  /-- R114. Writes the smaller of unsigned a and b. -/
  | iminN32 (o : OpA)
  /-- R114. Writes the larger of signed a and b. -/
  | imaxI32 (o : OpA)
  /-- R114. Writes the larger of unsigned a and b. -/
  | imaxN32 (o : OpA)
  /-- R114. Writes the absolute value of signed a modulo 2^32. -/
  | iabsI32 (o : OpU)
  /-- R114. Writes the negation of signed a modulo 2^32. -/
  | inegI32 (o : OpU)
  /-- R114. Adds unsigned a and b with unsigned saturation. -/
  | iaddsN32 (o : OpA)
  /-- R114. Subtracts unsigned b from a, saturating at 0. -/
  | isubsN32 (o : OpA)
  /-- R116. Bitwise AND of a and b. -/
  | andB32 (o : OpA)
  /-- R116. Bitwise OR of a and b. -/
  | orB32 (o : OpA)
  /-- R116. Bitwise XOR of a and b. -/
  | xorB32 (o : OpA)
  /-- R116. Writes a AND NOT b. -/
  | andnB32 (o : OpA)
  /-- R116. Writes a OR NOT b. -/
  | ornB32 (o : OpA)
  /-- R116. Writes NOT (a XOR b). -/
  | xnorB32 (o : OpA)
  /-- R116. Writes NOT a. -/
  | notB32 (o : OpU)
  /-- R116. Copies a to d. -/
  | movB32 (o : OpU)
  /-- R117. Shifts a left by b, giving 0 for counts of 32 or more. -/
  | shlB32 (o : OpA)
  /-- R117. Shifts a right by b with zero fill. -/
  | shrN32 (o : OpA)
  /-- R117. Shifts a right by b with sign fill. -/
  | shrI32 (o : OpA)
  /-- R117. Rotates a left by b[4:0]. -/
  | rolB32 (o : OpA)
  /-- R117. Counts the 1 bits of a. -/
  | popcB32 (o : OpU)
  /-- R117. Counts the leading zero bits of a. -/
  | clzB32 (o : OpU)
  /-- R117. Reverses the bit order of a. -/
  | brevB32 (o : OpU)
  /-- R117. Writes the index of the least significant 1 bit of a, or 32. -/
  | ffsB32 (o : OpU)
  /-- R115. Adds pairs a and b modulo 2^64 into pair d. -/
  | iaddI64 (o : OpA)
  /-- R115. Subtracts pair b from pair a modulo 2^64. -/
  | isubI64 (o : OpA)
  /-- R115. Writes the low 64 bits of the product of two pairs. -/
  | imulI64 (o : OpA)
  /-- R115. Shifts pair a left by b. -/
  | shlB64 (o : OpA)
  /-- R115. Shifts pair a right by b with zero fill. -/
  | shrN64 (o : OpA)
  /-- R115. Shifts pair a right by b with sign fill. -/
  | shrI64 (o : OpA)
  /-- R115. Writes the exact signed 64-bit product of two 32-bit values to pair d. -/
  | imulwI32 (o : OpA)
  /-- R115. Writes the exact unsigned 64-bit product of two 32-bit values to pair d. -/
  | imulwN32 (o : OpA)
  /-- R118. Extracts an unsigned bit field of a at the position and length in b. -/
  | bfeN32 (o : OpA)
  /-- R118. Extracts a signed bit field of a at the position and length in b. -/
  | bfeI32 (o : OpA)
  /-- R118. Inserts a into a bit field of d. -/
  | bfiB32 (o : OpA)
  /-- R118. Reverses the byte order of a. -/
  | bswapB32 (o : OpU)
  /-- R118. Sign-extends a[7:0]. -/
  | extI8 (o : OpU)
  /-- R118. Sign-extends a[15:0]. -/
  | extI16 (o : OpU)
  /-- R118. Writes a × b + d modulo 2^32. -/
  | imadI32 (o : OpA)
  /-- R118. Packs b[15:0] above a[15:0]. -/
  | packB16 (o : OpA)
  /-- R119. Writes a + (b << N) for the shift N in the minor. -/
  | leaB32 (o : OpLea)
  /-- R119. Writes pair a + (SignExt(b) << N) modulo 2^64. -/
  | leaI64 (o : OpLea)
  /-- R49. Adds an 11-bit signed immediate to a. -/
  | iaddiI32 (o : OpI)
  /-- R120. Compares signed 32-bit a and b and writes a predicate. -/
  | icmpI32 (o : OpCmp)
  /-- R120. Compares unsigned 32-bit a and b and writes a predicate. -/
  | icmpN32 (o : OpCmp)
  /-- R120. Compares signed pairs a and b and writes a predicate. -/
  | icmpI64 (o : OpCmp)
  /-- R120. Compares unsigned pairs a and b and writes a predicate. -/
  | icmpN64 (o : OpCmp)
  /-- R156. Compares f32 a and b and writes a predicate, raising NV as stated. -/
  | fcmpF32 (o : OpCmp)
  /-- R156. Compares bf16 a and b and writes a predicate. -/
  | fcmpBf16 (o : OpCmp)
  /-- R156. Compares f16 a and b and writes a predicate. -/
  | fcmpF16 (o : OpCmp)
  /-- R121. Writes the AND of two possibly negated predicates. -/
  | pand (o : OpPl)
  /-- R121. Writes the OR of two possibly negated predicates. -/
  | por (o : OpPl)
  /-- R121. Writes the XOR of two possibly negated predicates. -/
  | pxor (o : OpPl)
  /-- R122. Writes a if predicate pK is true, else b. -/
  | selB32 (o : OpSel)
  /-- R149. Adds f32 a and b, rounded to nearest even. -/
  | faddF32 (o : OpA)
  /-- R149. Subtracts f32 b from a. -/
  | fsubF32 (o : OpA)
  /-- R149. Multiplies f32 a and b. -/
  | fmulF32 (o : OpA)
  /-- R150. Writes the smaller f32 operand, passing over a NaN. -/
  | fminF32 (o : OpA)
  /-- R150. Writes the larger f32 operand, passing over a NaN. -/
  | fmaxF32 (o : OpA)
  /-- R149. Clears the sign bit of a. -/
  | fabsF32 (o : OpU)
  /-- R149. Inverts the sign bit of a. -/
  | fnegF32 (o : OpU)
  /-- R149. Writes a with the sign bit of b. -/
  | fcpysgnF32 (o : OpA)
  /-- R151. Writes a × b + d with one rounding. -/
  | ffmaF32Cd (o : OpA)
  /-- R151. Writes a × b + latch b0 of the F pipe with one rounding. -/
  | ffmaF32Cb0 (o : OpF)
  /-- R151. Writes a × b + latch b1 with one rounding. -/
  | ffmaF32Cb1 (o : OpF)
  /-- R151. Writes a × b + latch b2 with one rounding. -/
  | ffmaF32Cb2 (o : OpF)
  /-- R151. Writes a × b + latch b3 with one rounding. -/
  | ffmaF32Cb3 (o : OpF)
  /-- R152. Fused multiply-add on each of two bf16 elements. -/
  | ffmaX2bf16Cd (o : OpA)
  /-- R152. Fused multiply-add on each of two f16 elements. -/
  | ffmaX2f16Cd (o : OpA)
  /-- R153. Adds two bf16 element pairs. -/
  | faddX2bf16 (o : OpA)
  /-- R153. Multiplies two bf16 element pairs. -/
  | fmulX2bf16 (o : OpA)
  /-- R153. Adds two f16 element pairs. -/
  | faddX2f16 (o : OpA)
  /-- R153. Multiplies two f16 element pairs. -/
  | fmulX2f16 (o : OpA)
  /-- R150. Elementwise minimum of two bf16 pairs. -/
  | fminX2bf16 (o : OpA)
  /-- R150. Elementwise maximum of two bf16 pairs. -/
  | fmaxX2bf16 (o : OpA)
  /-- R150. Elementwise minimum of two f16 pairs. -/
  | fminX2f16 (o : OpA)
  /-- R150. Elementwise maximum of two f16 pairs. -/
  | fmaxX2f16 (o : OpA)
  /-- R154. Approximates 1/x within 1 ulp. -/
  | frcpF32 (o : OpU)
  /-- R154. Approximates 1/sqrt(x) within 2 ulp. -/
  | frsqF32 (o : OpU)
  /-- R154. Correctly rounded square root. -/
  | fsqrtF32 (o : OpU)
  /-- R154. Approximates 2^x. -/
  | fexp2F32 (o : OpU)
  /-- R154. Approximates log2 x. -/
  | flog2F32 (o : OpU)
  /-- R154. Approximates sin x with exact reduction. -/
  | fsinF32 (o : OpU)
  /-- R154. Approximates cos x with exact reduction. -/
  | fcosF32 (o : OpU)
  /-- R154. Approximates tanh x. -/
  | ftanhF32 (o : OpU)
  /-- R155. Rounds x to an integral value under the mode in the minor. -/
  | frndF32 (o : OpRnd)
  /-- R155. Writes x − floor(x), clamped below 1.0. -/
  | ffractF32 (o : OpU)
  /-- R155. Writes a one-hot class mask of x. -/
  | fclassF32 (o : OpU)
  /-- R155. Clamps x to [+0, 1]. -/
  | fsatF32 (o : OpU)
  /-- R155. Writes floor(log2 |x|) as an i32. -/
  | fexpoF32 (o : OpU)
  /-- R157. Converts a under the conversion code in b with the rounding and saturation of the minor. -/
  | cvt (o : OpCvt)
  /-- R158. Packs two f32 values as two bf16 elements. -/
  | cvtpX2bf16F32 (o : OpF)
  /-- R158. Packs two f32 values as two f16 elements. -/
  | cvtpX2f16F32 (o : OpF)
  /-- R158. Packs four f32 values from two pairs as e4m3, saturating. -/
  | cvtpX4e4m3F32 (o : OpF)
  /-- R158. Packs four f32 values from two pairs as e5m2, saturating. -/
  | cvtpX4e5m2F32 (o : OpF)
  /-- R158. Converts eight e4m3 elements to packed e2m1. -/
  | cvtpX8e2m1X4e4m3 (o : OpF)
  /-- R159. Quantises one element to e4m3 with the scale derived from amax. -/
  | mxqE4m3 (o : OpF)
  /-- R159. Quantises one element to e5m2 with the scale derived from amax. -/
  | mxqE5m2 (o : OpF)
  /-- R159. Quantises one element to e2m1 with the scale derived from amax. -/
  | mxqE2m1 (o : OpF)
  /-- R160. Adds the dot product of four signed bytes to i32 d. -/
  | dp4X4i8 (o : OpF)
  /-- R161. Adds the e4m3 dot product to f32 d with one rounding. -/
  | dp4X4e4m3 (o : OpF)
  /-- R161. Adds the e5m2 dot product to f32 d with one rounding. -/
  | dp4X4e5m2 (o : OpF)
  /-- R160. Adds the dot product of eight signed nibbles to i32 d. -/
  | dp8X8i4 (o : OpF)
  /-- R161. Adds the e2m1 dot product to f32 d with one rounding. -/
  | dp8X8e2m1 (o : OpF)
  /-- R161. Adds the bf16 dot product to f32 d with one rounding. -/
  | dp2X2bf16 (o : OpF)
  /-- R161. Adds the f16 dot product to f32 d with one rounding. -/
  | dp2X2f16 (o : OpF)
  /-- R162. Multiplies a by 2^(b[7:0] − 127). -/
  | fscaleF32 (o : OpF)
  /-- R197. Gives each present thread the value of the thread named by b. -/
  | xget (o : OpF)
  /-- R197. Gives each present thread the value of a lower-indexed thread. -/
  | xlow (o : OpF)
  /-- R197. Gives each present thread the value of a higher-indexed thread. -/
  | xhigh (o : OpF)
  /-- R197. Gives each present thread the value of the thread whose index the mask inverts. -/
  | xflip (o : OpF)
  /-- R197. Broadcasts one present thread's value to every present thread. -/
  | gbcast (o : OpA)
  /-- R197. Gathers a predicate over present threads into a 32-bit mask. -/
  | pmask (o : OpPm)
  /-- R197. Writes the mask of present threads whose values agree under a mask. -/
  | eqset (o : OpF)
  /-- R197. Writes 1 in the lowest present thread and 0 elsewhere. -/
  | gfirst (o : OpGf)
  /-- R198. Sums a over contributing threads modulo 2^32. -/
  | gredAddI32 (o : OpGr)
  /-- R198. Least signed a over contributing threads. -/
  | gredMinI32 (o : OpGr)
  /-- R198. Greatest signed a over contributing threads. -/
  | gredMaxI32 (o : OpGr)
  /-- R198. Bitwise AND of a over contributing threads. -/
  | gredAndB32 (o : OpGr)
  /-- R198. Bitwise OR of a over contributing threads. -/
  | gredOrB32 (o : OpGr)
  /-- R199. Sums f32 a over contributing threads in a fixed tree. -/
  | gredAddF32 (o : OpGr)
  /-- R198. Inclusive integer scan of a over contributing threads. -/
  | gscanAddI32 (o : OpGr)
  /-- R199. Inclusive f32 scan of a in a fixed tree. -/
  | gscanAddF32 (o : OpGr)
  /-- R131. Branches to a packet displacement when its predicate holds. -/
  | br (o : OpBr)
  /-- R132. Branches like br and writes LNK := P + 1 where taken. -/
  | call (o : OpBr)
  /-- R137. Has no effect and occupies no pipe. -/
  | nop (o : OpK)
  /-- R138. Waits for the thread's loads, passes a certainty point and ends the thread. -/
  | exit (o : OpK)
  /-- R134. Returns to LNK after a certainty point, or exits at 0xFFFF_FFFF. -/
  | ret (o : OpK)
  /-- R133. Branches to the packet index in x after a certainty point on it. -/
  | brx (o : OpX)
  /-- R133. Indirect call to the packet index in x, writing LNK. -/
  | callx (o : OpX)
  /-- R135. Pushes a zero-overhead loop entry, or skips the body for a zero count. -/
  | lpush (o : OpLp)
  /-- R136. Pops the top loop-stack entry without branching. -/
  | lbrk (o : OpK)
  /-- R139. Enters the trap with cause USER and the user code. -/
  | trapW (o : OpCode)
  /-- R139. Enters the trap with cause BREAK and the tag. -/
  | bkpt (o : OpCode)
  /-- R379. Returns from a trap handler to the trapping step or the step after it. -/
  | rti (o : OpK)
  /-- R140. Resolves pending guesses and sets the replay point and snapshot. -/
  | gmark (o : OpK)
  /-- R141. Copies a register's penumbra bit into a predicate without waiting. -/
  | gtest (o : OpUxp)
  /-- R142. Clears a register's penumbra and detaches its guessed load. -/
  | gaccept (o : OpUx)
  /-- R143. Waits for the true data of a guessed register and installs it. -/
  | gdemand (o : OpUx)
  /-- R42. Marks the masked registers of a 16-register block dead. -/
  | dead (o : OpDead)
  /-- R202. ORs the present threads into rejoin mask jK. -/
  | jmark (o : OpJ)
  /-- R203. Resolves guesses, arrives at rejoin mask jK and parks until release. -/
  | jwait (o : OpJ)
  /-- R202. Clears the present threads from jK and AK and runs the release check. -/
  | jclr (o : OpJ)
  /-- R200. Writes true if the source predicate is true in any present thread. -/
  | vany (o : OpVote)
  /-- R200. Writes true if the source predicate is true in every present thread. -/
  | vall (o : OpVote)
  /-- R200. Writes true if every present thread holds the same source value. -/
  | vsame (o : OpVote)
  /-- R206. Arrives at and waits on team barrier n. -/
  | barTm (o : OpBar)
  /-- R206. Arrives at and waits on cluster barrier n. -/
  | barCl (o : OpBar)
  /-- R206. Arrives at and waits on the grid barrier of a co-resident launch. -/
  | barGd (o : OpK)
  /-- R206. Arrives at team barrier n without waiting. -/
  | bararrTm (o : OpBar)
  /-- R206. Arrives at cluster barrier n without waiting. -/
  | bararrCl (o : OpBar)
  /-- R206. Waits for the thread's pending phase of team barrier n. -/
  | barwtTm (o : OpBar)
  /-- R206. Waits for the thread's pending phase of cluster barrier n. -/
  | barwtCl (o : OpBar)
  /-- R123. Reads scalar register sI into x. -/
  | smovRd (o : OpSm)
  /-- R124. Writes scalar register sI once for the group from a uniform source. -/
  | smovWr (o : OpSw)
  /-- R125. Writes sI from the v register of the lowest present thread. -/
  | smovV (o : OpSw)
  /-- R126. Reads a system register. -/
  | sysr (o : OpSys)
  /-- R126. Passes a certainty point and writes the RW fields of a system register. -/
  | sysw (o : OpSys)
  /-- R129. Writes the 64-bit timestamp to a pair. -/
  | tsr (o : OpUx)
  /-- R129. Writes the core's 64-bit cycle counter to a pair. -/
  | cyc (o : OpUx)
  /-- R147. Writes the sticky flags to a v register with penumbra FPEN. -/
  | fflg (o : OpX)
  /-- R147. Clears the sticky flags named in the mask. -/
  | fclr (o : OpFc)
  /-- R130. Holds the thread for at least x ns of timestamp. -/
  | slp (o : OpX)
  /-- R128. Writes the team, thread or cluster coordinate chosen by the selector. -/
  | idr (o : OpIdr)
  /-- R252. Passes a certainty point and orders the thread's memory accesses by kind and scope. -/
  | fence (o : OpFen)
  /-- R254. Writes a column record of register N for all 32 threads to a spill slot. -/
  | vspill (o : OpSpl)
  /-- R255. Restores register N of each present thread from a spill slot's record. -/
  | vfill (o : OpSpl)
  /-- R258. Parks the group until a larger register window can be allocated. -/
  | vgrow (o : OpWin)
  /-- R259. Discards registers at and above n and frees their granules. -/
  | vshrink (o : OpWin)
  /-- R237. Loads from a space into v registers per thread, possibly guessing at the deadline. -/
  | load (o : OpLd)
  /-- R240. Loads once for the group into s registers. -/
  | uniformLoad (o : OpLd)
  /-- R251. Brings the line holding EA into its home cache, writing no register. -/
  | prefetch (o : OpPf)
  /-- R243. Passes a certainty point and writes data to memory per thread. -/
  | store (o : OpSt)
  /-- R245. Passes a group certainty point and writes once for the group from s registers. -/
  | uniformStore (o : OpSt)
  /-- R248. Performs an indivisible read-modify-write at the home and returns the old value. -/
  | atomic (o : OpAt)
  /-- R247. Performs an atomic operation that returns nothing. -/
  | reduction (o : OpRed)
  /-- R318. Queues a plus-times update of an accumulator tile for the present rows. -/
  | mma (o : OpMma)
  /-- R317. Queues an MX-scaled tile update with scale registers in the mandatory literal. -/
  | mmaMx (o : OpMx)
  /-- R293. Queues a semiring tile update, trapping at fidelity F1 to F3. -/
  | mmsrBf16 (o : OpMs)
  /-- R325. Reads the team's flicker counter FLKj. -/
  | flkrd (o : OpFlk)
  /-- R325. Reads the fidelity level, a slice setpoint or the checked-MAC count. -/
  | fidrd (o : OpFid)
  /-- R319. Reads eight converted cells of each present row into registers. -/
  | ard (o : OpArd)
  /-- R321. Passes a certainty point and writes eight converted cells of the row to memory. -/
  | ast (o : OpAst)
  /-- R322. Maps the tile if needed and clears every cell, RG bit and fresh bit. -/
  | azero (o : OpT)
  /-- R322. Returns the tile's slot to the free list and unmaps it. -/
  | arel (o : OpT)
  /-- R326. Checks and hands a copy request record to the copy engine. -/
  | xkick (o : OpXk)
  /-- R327. Waits until the group's counter of a class holds n or less. -/
  | owait (o : OpOw)
  /-- R328. Initialises a barrier object's counts and status. -/
  | bobjInit (o : OpBi)
  /-- R329. Makes one arrival at a barrier object and returns the old phase. -/
  | bobjArrive (o : OpBa)
  /-- R330. Waits until the object's phase differs from the given parity. -/
  | bobjWait (o : OpXy)
  /-- R331. Starts closing a cluster group id bound to the team. -/
  | mcfree (o : OpMc)
  /-- R332. Enqueues a child launch on a device queue, reporting full in a predicate. -/
  | tqpush (o : OpTq)
  /-- R333. Atomically adds one token to a token cell as a release. -/
  | tqtokRel (o : OpUx)
  /-- R333. Atomically takes a token if one is present and reports it in a predicate. -/
  | tqtokAcq (o : OpTa)
  /-- R334. Acts as a release fence and sets the team's completion bitmap bit. -/
  | cbset (o : OpCs)
  /-- R335. Waits until a completion bitmap bit is set and records the producer dependency. -/
  | cbwait (o : OpCw)
  /-- R18. A waiting load's deadline ends without data and its prediction is installed with penumbra. -/
  | loadDeadline (core lid : Nat)
  /-- R20. A load's true data arrives and is installed, or confirms or refutes its guess. -/
  | loadDataArrival (core : Nat) (lid : ReqUnit)
  /-- R25. A certainty point that waited for guesses resumes and proceeds or replays. -/
  | certainty (core bid : Nat)
  /-- R174. A step held for a register write, queue room or a pipe issues once it can. -/
  | waitingStepIssue (core bid : Nat)
  /-- R174. A selector chooses the next bundle or frontier entry among its ranked candidates. -/
  | selectorChoice (core sel : Nat)
  /-- R428. The fetch of a new entry's prio from the block priority table completes or faults. -/
  | blockPriorityRead (core slot start : Nat)
  /-- R184. An entry older than 4,096 cycles is promoted. -/
  | entryPromotion (core slot start : Nat)
  /-- R185. A group's spin streak reaches 3 and the group is demoted. -/
  | groupDemotion (core slot : Nat)
  /-- R395. An ended team's live bit is cleared in another member core's copy. -/
  | liveBitClear (core cluster rank : Nat)
  /-- R189. The longest-parked swappable group is chosen and its context written out. -/
  | groupSwapOut (core : Nat)
  /-- R189. The context write completes and the group's window is freed. -/
  | swapOutComplete (core slot : Nat)
  /-- R189. A swapped group returns when a window is free and its parking condition has ended. -/
  | groupSwapIn (core slot : Nat)
  /-- R192. Background compaction moves resident windows toward lower granules. -/
  | compaction (core : Nat)
  /-- R192. Compaction ends and the waiting launch is admitted. -/
  | compactionComplete (core : Nat)
  /-- R348. A 10 µs control interval starts and the budgets are reset. -/
  | controlInterval (die : Nat)
  /-- R350. A scheduler applies team ends and admits teams in order. -/
  | schedulerDecision (tc : Nat)
  /-- R345. A group's argument words arrive in its s registers and the group starts. -/
  | argumentRead (core slot i : Nat)
  /-- R208. A completed phase's release reaches a parked bundle, which resumes. -/
  | barrierRelease (core bid : Nat)
  /-- R431. A store, ast or copy write is performed at its home and acknowledged where due. -/
  | writePerformed (core : Nat) (wid : ReqUnit)
  /-- R248. An atomic's old value or a token reply arrives and is written. -/
  | atomicResult (core lid : Nat)
  /-- R275. A flush marker reaches a die, which reports once it has one from every path. -/
  | flushMarkerArrival (core rid die path : Nat)
  /-- R275. A die's flush report arrives and the release completes when all have arrived. -/
  | flushReportArrival (core rid die : Nat)
  /-- R226. A page-table walk ends, letting the step issue or sending a fault record. -/
  | translationWalk (core wid victim : Nat)
  /-- R215. A write to DSPLIT requests a new scratchpad size. -/
  | dsplitWrite (die value : Nat)
  /-- R215. Once no window lies in leaving SRAM, the cache is written back, emptied and re-zeroed. -/
  | dsplitApply (die : Nat)
  /-- R215. The SCR change completes and BUSY clears. -/
  | dsplitBusyClear (die : Nat)
  /-- R221. A stack with only distant deadlines enters low-power mode. -/
  | stackLowPowerEntry (stack : Nat)
  /-- R221. A stack leaves low-power mode before its earliest deadline or on a nearer request. -/
  | stackWake (stack : Nat)
  /-- R336. The matrix engine takes the next word from a selector's queue. -/
  | matrixWordTake (core sel : Nat)
  /-- R318. A tile update finishes and retires, lowering the MX counter. -/
  | matrixUpdateComplete (core : Nat)
  /-- R291. The youngest waiting or parked team's slots are written out and freed. -/
  | tileEviction (core : Nat)
  /-- R291. An evicted team's tiles return together when enough slots are free. -/
  | tileReturn (core team : Nat)
  /-- R300. A 1 ms window ends and slice setpoints are raised or lowered. -/
  | railLoopWindow (core : Nat)
  /-- R305. After earlier writes are performed, the copy engine reads the record and source. -/
  | copyStart (core cid : Nat)
  /-- R306. A destination burst is performed and its bytes are counted down on the object. -/
  | copyBurst (core cid first count : Nat)
  /-- R306. A copy retires, writing its status byte and lowering the CP counter. -/
  | copyRetire (core cid : Nat)
  /-- R332. A push waiting on a full queue reaches its limit and reports full. -/
  | tqpushTimeout (core bid : Nat)
  /-- R335. A repeated bitmap read returns and the wait completes if the bit is set. -/
  | cbwaitPoll (core bid : Nat)
  /-- R130. A slp interval ends and the thread resumes. -/
  | sleepExpiry (core bid : Nat)
  /-- R341. The command processor takes a valid queue entry and copies its task header. -/
  | queueEntryTake (queue : Nat)
  /-- R340. A write to HQDBq gives the command processor the new TAIL of a host queue. -/
  | hostQueueDoorbell (queue value : Nat) (entries : List Nat)
  /-- R353. A steal request reaches a victim, which ships half its unstarted TCBs or refuses. -/
  | stealRequest (tc victim : Nat)
  /-- R353. A refused requester's 10 µs wait ends and it asks again. -/
  | stealRetry (tc : Nat)
  /-- R358. The supply falls below the threshold and clock stretching begins. -/
  | droopAlarm (tc : Nat)
  /-- R369. The STRC stretched periods end and halved issue begins. -/
  | stretchEnd (tc : Nat)
  /-- R369. The 64 periods of halved issue end. -/
  | halvedIssueEnd (tc : Nat)
  /-- R368. A junction above 115 °C stops the die's clocks and ends its launches. -/
  | thermalTrip (die temp : Nat)
  /-- R362. A member's cap request reaches the throttle group and FEFF follows. -/
  | collectiveCapRequest (member cap : Nat)
  /-- R362. A member unheard for 50 µs is held at its last request. -/
  | throttleMemberSilence (member : Nat)
  /-- R366. A fast current fall starts filler operations on idle matrix slices. -/
  | rampFill (die : Nat) (on : Bool)
  /-- R364. The power manager lengthens or shortens AWIN. -/
  | activationWindowAdjust (stack awin : Nat)
  /-- R365. A stack's temperature crosses a threshold and the refresh policy changes. -/
  | refreshDerate (stack temp : Nat)
  /-- R126. A write to a system register that has no behaviour of its own. -/
  | registerWrite (die number value : Nat)
  /-- R381. A write of GO to PREQ starts a context exchange on a core. -/
  | preqGo (die value : Nat)
  /-- R382. The saved context has been written into the shadow bank. -/
  | exchangeFillComplete (core : Nat)
  /-- R382. Both selectors reach swap points and the banks change over in 64 cycles. -/
  | exchangeSwap (core : Nat)
  /-- R382. The outgoing context is written to its team records and BUSY clears. -/
  | exchangeSpillComplete (core : Nat)
  /-- R374. A thread enters a trap after its certainty point and joins a parked sub-group. -/
  | trapEntry (core tid : Nat)
  /-- R386. A group's watchdog count reaches LIMIT and its waiting threads trap. -/
  | watchdog (core slot : Nat)
  /-- R389. Both signatures of a closed window are compared and held effects performed. -/
  | mirrorCompare (core slot thread : Nat)
  /-- R390. A matching window is not closed within 10 ms and rollback starts. -/
  | mirrorWindowTimeout (core slot thread : Nat)
  /-- R391. An uncorrectable error in a launch starts rollback. -/
  | uncorrectableError (lseq : Nat)
  /-- R404. A bridge fails after 16 retries and every launch ends. -/
  | bridgeStop (bridge : Nat)
  /-- R406. A peer link drains and sheds lanes to W2 or W1. -/
  | linkNarrow (link : Nat)
  /-- R406. A peer link drains and widens as the governor allows. -/
  | linkWiden (link : Nat)
  /-- R407. Retries fail for 100 µs, the link enters RCV and reports recovering. -/
  | linkRecovery (link : Nat)
  /-- R407. RCV lasts 50 ms, the link goes DOWN and its flits are lost. -/
  | linkDown (link : Nat)
  /-- R407. A link returns from RCV to a working width. -/
  | linkRecovered (link lanes : Nat)
  /-- R386. A recovering report from a peer arrives and starts the watchdog exclusion. -/
  | peerRecoveringReport (rank : Nat)
  /-- R219. An access from a peer device arrives and is performed at its home. -/
  | peerRequest (a : PeerAcc)
  /-- R401. An idle router power-gates after 256 cycles. -/
  | routerGate (die router : Nat)
  /-- R401. A gated router receives a wake signal. -/
  | routerWakeSignal (die router : Nat)
  /-- R401. A router becomes awake 24 cycles after its wake signal. -/
  | routerAwake (die router : Nat)
  /-- R399. An adaptive packet blocked for 32 cycles moves to the escape channel. -/
  | escapeDiversion (pid : Nat)
  /-- R399. A network packet arrives at a router and is forwarded. -/
  | packetRoute (pid choice : Nat)
  /-- R416. Command NOP, answered by ACK. -/
  | cmdNop (q : Cmd)
  /-- R416. Command that writes a system register of the named die. -/
  | regwr (q : Cmd)
  /-- R416. Command that reads a system register and answers REGVAL. -/
  | regrd (q : Cmd)
  /-- R416. Command that writes 1 to 32 bytes at a physical address at .sy. -/
  | memwr (q : Cmd)
  /-- R416. Command that reads up to 40 bytes and answers MEMDATA. -/
  | memrd (q : Cmd)
  /-- R416. Command that configures an empty queue ring. -/
  | qcfg (q : Cmd)
  /-- R417. Command that unwraps a key blob into a key slot. -/
  | keyld (q : Cmd)
  /-- R416. Command that empties a key slot. -/
  | keyclr (q : Cmd)
  /-- R417. Command that invalidates translations and answers once every core has dropped them. -/
  | tinv (q : Cmd)
  /-- R425. Command that fixes the feature offer to the accepted mask. -/
  | feat (q : Cmd)
  /-- R408. Command that joins the device to a job with a peer table. -/
  | peercfg (q : Cmd)
  /-- R409. Command that starts a collective across the job's ranks. -/
  | coll (q : Cmd)
  /-- R411. A collective's writes are performed and COLLDONE is sent. -/
  | collectiveComplete (tag : Nat) (inputs : List (List Nat)) (agree : Bool)
  /-- R416. Command that answers an unanswered fault with retry or fatal. -/
  | fans (q : Cmd)
  /-- R416. Command that ends a launch with STATUS 3. -/
  | endl (q : Cmd)
  /-- R422. Command that restarts the device as a start. -/
  | reset (q : Cmd) (start : StartInfo)
  /-- R419. A write to CTAIL makes the device fetch command entries up to it. -/
  | ctailDoorbell (value : Nat) (entries : List CmdEntry)
  /-- R415. A write to EACK frees event-ring room and lets waiting event sources proceed. -/
  | eackWrite (ch value : Nat)
  /-- R419. A write to CRBASE, CRSIZE, ERBASE or ERSIZE takes effect only when the channels are idle. -/
  | channelRingConfigWrite (offset value : Nat)
  /-- R419. A host BAR2 access is performed at its home under the attachment's key slot. -/
  | bar2Access (write : Bool) (offset width data : Nat)
  /-- R419. Vector 0 fires when the event count or the delay is reached. -/
  | msixInterrupt
  /-- R420. A channel datagram arrives and is authenticated, accepted or dropped. -/
  | channelDatagram (g : Datagram)
  /-- R414. An unacknowledged channel entry is resent after 100 µs. -/
  | entryResend (ch seq : Nat)
  /-- R422. A start runs the stages, choosing minimal mode after three failures, and sends BOOT. -/
  | deviceStart (start : StartInfo)
  /-- R402. At each cycle of a tile cluster's clock its token bucket gains max(NRMIN, NRT − MXC × E) tokens, and cores waiting for tokens inject flits in turn. -/
  | tokenBucketRefill (tc : Nat)
deriving DecidableEq, Repr

end Sys2Proof
end

