-- ==== Sys2Proof/Decode.lean ====
section
/-! DEFINITION. The decoder, from the words of a packet to an instruction, and after it the encoder (R30 to R53). -/

namespace Sys2Proof

/-- The literal that a word carries, when the next word is an L word: major 31 (R34). -/
def literalOf (w : Nat) : Option (BitVec 26) :=
  if slice w 30 26 == 31 then some (BitVec.ofNat 26 (slice w 25 0)) else none

/-- The fields of format OpA read from a word (R34). -/
def readOpA (w : Nat) (c : Bool) (lit : Option (BitVec 26)) : OpA :=
  ⟨c, slice w 25 25 == 1, BitVec.ofNat 7 (slice w 24 18), BitVec.ofNat 7 (slice w 17 11), BitVec.ofNat 7 (slice w 10 4), slice w 0 0 == 1, lit⟩

/-- The fields of format OpU read from a word (R34). -/
def readOpU (w : Nat) (c : Bool) (lit : Option (BitVec 26)) : OpU :=
  ⟨c, slice w 25 25 == 1, BitVec.ofNat 7 (slice w 24 18), BitVec.ofNat 7 (slice w 17 11), slice w 0 0 == 1, lit⟩

/-- The fields of format OpLea read from a word (R34). -/
def readOpLea (w : Nat) (c : Bool) (lit : Option (BitVec 26)) : OpLea :=
  ⟨c, slice w 25 25 == 1, BitVec.ofNat 7 (slice w 24 18), BitVec.ofNat 7 (slice w 17 11), BitVec.ofNat 7 (slice w 10 4), BitVec.ofNat 2 (slice w 2 1), slice w 0 0 == 1, lit⟩

/-- The fields of format OpI read from a word (R34). -/
def readOpI (w : Nat) (c : Bool) (lit : Option (BitVec 26)) : OpI :=
  ⟨c, slice w 25 25 == 1, BitVec.ofNat 7 (slice w 24 18), BitVec.ofNat 7 (slice w 17 11), BitVec.ofNat 11 (slice w 10 0), lit⟩

/-- The fields of format OpCmp read from a word (R34). -/
def readOpCmp (w : Nat) (c : Bool) (lit : Option (BitVec 26)) : OpCmp :=
  ⟨c, BitVec.ofNat 3 (slice w 24 22), BitVec.ofNat 3 (slice w 20 18), BitVec.ofNat 7 (slice w 17 11), BitVec.ofNat 7 (slice w 10 4), lit⟩

/-- The fields of format OpPl read from a word (R34). -/
def readOpPl (w : Nat) (c : Bool) (lit : Option (BitVec 26)) : OpPl :=
  ⟨c, BitVec.ofNat 3 (slice w 20 18), slice w 14 14 == 1, BitVec.ofNat 3 (slice w 13 11), slice w 7 7 == 1, BitVec.ofNat 3 (slice w 6 4), lit⟩

/-- The fields of format OpSel read from a word (R34). -/
def readOpSel (w : Nat) (c : Bool) (lit : Option (BitVec 26)) : OpSel :=
  ⟨c, BitVec.ofNat 7 (slice w 24 18), BitVec.ofNat 7 (slice w 17 11), BitVec.ofNat 7 (slice w 10 4), BitVec.ofNat 3 (slice w 3 1), slice w 0 0 == 1, lit⟩

/-- The fields of format OpF read from a word (R34). -/
def readOpF (w : Nat) (c : Bool) (lit : Option (BitVec 26)) : OpF :=
  ⟨c, BitVec.ofNat 7 (slice w 24 18), BitVec.ofNat 7 (slice w 17 11), BitVec.ofNat 7 (slice w 10 4), slice w 0 0 == 1, lit⟩

/-- The fields of format OpRnd read from a word (R34). -/
def readOpRnd (w : Nat) (c : Bool) (lit : Option (BitVec 26)) : OpRnd :=
  ⟨c, slice w 25 25 == 1, BitVec.ofNat 7 (slice w 24 18), BitVec.ofNat 7 (slice w 17 11), BitVec.ofNat 2 (slice w 2 1), slice w 0 0 == 1, lit⟩

/-- The fields of format OpCvt read from a word (R34). -/
def readOpCvt (w : Nat) (c : Bool) (lit : Option (BitVec 26)) : OpCvt :=
  ⟨c, slice w 25 25 == 1, BitVec.ofNat 7 (slice w 24 18), BitVec.ofNat 7 (slice w 17 11), BitVec.ofNat 7 (slice w 10 4), slice w 3 3 == 1, BitVec.ofNat 2 (slice w 2 1), slice w 0 0 == 1, lit⟩

/-- The fields of format OpPm read from a word (R34). -/
def readOpPm (w : Nat) (c : Bool) (lit : Option (BitVec 26)) : OpPm :=
  ⟨c, slice w 25 25 == 1, BitVec.ofNat 7 (slice w 24 18), slice w 14 14 == 1, BitVec.ofNat 3 (slice w 13 11), slice w 0 0 == 1, lit⟩

/-- The fields of format OpGf read from a word (R34). -/
def readOpGf (w : Nat) (c : Bool) (lit : Option (BitVec 26)) : OpGf :=
  ⟨c, BitVec.ofNat 7 (slice w 24 18), slice w 0 0 == 1, lit⟩

/-- The fields of format OpGr read from a word (R34). -/
def readOpGr (w : Nat) (c : Bool) (lit : Option (BitVec 26)) : OpGr :=
  ⟨c, slice w 25 25 == 1, BitVec.ofNat 7 (slice w 24 18), BitVec.ofNat 7 (slice w 17 11), slice w 7 7 == 1, BitVec.ofNat 3 (slice w 6 4), slice w 0 0 == 1, lit⟩

/-- The fields of format OpBr read from a word (R34). -/
def readOpBr (w : Nat) (c : Bool) (lit : Option (BitVec 26)) : OpBr :=
  ⟨c, BitVec.ofNat 4 (slice w 24 21), BitVec.ofNat 21 (slice w 20 0), lit⟩

/-- The fields of format OpK read from a word (R34). -/
def readOpK (_w : Nat) (c : Bool) (lit : Option (BitVec 26)) : OpK :=
  ⟨c, lit⟩

/-- The fields of format OpX read from a word (R34). -/
def readOpX (w : Nat) (c : Bool) (lit : Option (BitVec 26)) : OpX :=
  ⟨c, BitVec.ofNat 7 (slice w 17 11), lit⟩

/-- The fields of format OpLp read from a word (R34). -/
def readOpLp (w : Nat) (c : Bool) (lit : Option (BitVec 26)) : OpLp :=
  ⟨c, BitVec.ofNat 7 (slice w 17 11), BitVec.ofNat 11 (slice w 10 0), lit⟩

/-- The fields of format OpCode read from a word (R34). -/
def readOpCode (w : Nat) (c : Bool) (lit : Option (BitVec 26)) : OpCode :=
  ⟨c, BitVec.ofNat 8 (slice w 7 0), lit⟩

/-- The fields of format OpUxp read from a word (R34). -/
def readOpUxp (w : Nat) (c : Bool) (lit : Option (BitVec 26)) : OpUxp :=
  ⟨c, slice w 25 25 == 1, BitVec.ofNat 7 (slice w 17 11), BitVec.ofNat 3 (slice w 2 0), lit⟩

/-- The fields of format OpUx read from a word (R34). -/
def readOpUx (w : Nat) (c : Bool) (lit : Option (BitVec 26)) : OpUx :=
  ⟨c, slice w 25 25 == 1, BitVec.ofNat 7 (slice w 17 11), lit⟩

/-- The fields of format OpDead read from a word (R34). -/
def readOpDead (w : Nat) (c : Bool) (lit : Option (BitVec 26)) : OpDead :=
  ⟨c, BitVec.ofNat 3 (slice w 20 18), BitVec.ofNat 16 (slice w 15 0), lit⟩

/-- The fields of format OpJ read from a word (R34). -/
def readOpJ (w : Nat) (c : Bool) (lit : Option (BitVec 26)) : OpJ :=
  ⟨c, BitVec.ofNat 3 (slice w 2 0), lit⟩

/-- The fields of format OpVote read from a word (R34). -/
def readOpVote (w : Nat) (c : Bool) (lit : Option (BitVec 26)) : OpVote :=
  ⟨c, BitVec.ofNat 4 (slice w 7 4), BitVec.ofNat 3 (slice w 2 0), lit⟩

/-- The fields of format OpBar read from a word (R34). -/
def readOpBar (w : Nat) (c : Bool) (lit : Option (BitVec 26)) : OpBar :=
  ⟨c, BitVec.ofNat 4 (slice w 3 0), lit⟩

/-- The fields of format OpSm read from a word (R34). -/
def readOpSm (w : Nat) (c : Bool) (lit : Option (BitVec 26)) : OpSm :=
  ⟨c, slice w 25 25 == 1, BitVec.ofNat 7 (slice w 17 11), BitVec.ofNat 9 (slice w 8 0), lit⟩

/-- The fields of format OpSw read from a word (R34). -/
def readOpSw (w : Nat) (c : Bool) (lit : Option (BitVec 26)) : OpSw :=
  ⟨c, BitVec.ofNat 7 (slice w 17 11), BitVec.ofNat 9 (slice w 8 0), lit⟩

/-- The fields of format OpSys read from a word (R34). -/
def readOpSys (w : Nat) (c : Bool) (lit : Option (BitVec 26)) : OpSys :=
  ⟨c, slice w 25 25 == 1, BitVec.ofNat 7 (slice w 17 11), BitVec.ofNat 11 (slice w 10 0), lit⟩

/-- The fields of format OpFc read from a word (R34). -/
def readOpFc (w : Nat) (c : Bool) (lit : Option (BitVec 26)) : OpFc :=
  ⟨c, BitVec.ofNat 5 (slice w 4 0), lit⟩

/-- The fields of format OpIdr read from a word (R34). -/
def readOpIdr (w : Nat) (c : Bool) (lit : Option (BitVec 26)) : OpIdr :=
  ⟨c, slice w 25 25 == 1, BitVec.ofNat 7 (slice w 17 11), BitVec.ofNat 3 (slice w 2 0), lit⟩

/-- The fields of format OpFen read from a word (R34). -/
def readOpFen (w : Nat) (c : Bool) (lit : Option (BitVec 26)) : OpFen :=
  ⟨c, BitVec.ofNat 2 (slice w 5 4), BitVec.ofNat 4 (slice w 3 0), lit⟩

/-- The fields of format OpSpl read from a word (R34). -/
def readOpSpl (w : Nat) (c : Bool) (lit : Option (BitVec 26)) : OpSpl :=
  ⟨c, BitVec.ofNat 7 (slice w 17 11), BitVec.ofNat 6 (slice w 5 0), lit⟩

/-- The fields of format OpWin read from a word (R34). -/
def readOpWin (w : Nat) (c : Bool) (lit : Option (BitVec 26)) : OpWin :=
  ⟨c, BitVec.ofNat 3 (slice w 2 0), lit⟩

/-- The fields of format OpLd read from a word (R34). -/
def readOpLd (w : Nat) (c : Bool) (lit : Option (BitVec 26)) : OpLd :=
  ⟨c, BitVec.ofNat 7 (slice w 24 18), BitVec.ofNat 7 (slice w 17 11), BitVec.ofNat 3 (slice w 10 8), BitVec.ofNat 2 (slice w 7 6), BitVec.ofNat 2 (slice w 5 4), BitVec.ofNat 3 (slice w 3 1), lit⟩

/-- The fields of format OpPf read from a word (R34). -/
def readOpPf (w : Nat) (c : Bool) (lit : Option (BitVec 26)) : OpPf :=
  ⟨c, BitVec.ofNat 7 (slice w 17 11), BitVec.ofNat 3 (slice w 10 8), BitVec.ofNat 2 (slice w 5 4), BitVec.ofNat 3 (slice w 3 1), lit⟩

/-- The fields of format OpSt read from a word (R34). -/
def readOpSt (w : Nat) (c : Bool) (lit : Option (BitVec 26)) : OpSt :=
  ⟨c, BitVec.ofNat 7 (slice w 24 18), BitVec.ofNat 7 (slice w 17 11), BitVec.ofNat 2 (slice w 5 4), BitVec.ofNat 3 (slice w 3 1), lit⟩

/-- The fields of format OpMma read from a word (R34). -/
def readOpMma (w : Nat) (c : Bool) (lit : Option (BitVec 26)) : OpMma :=
  ⟨c, BitVec.ofNat 3 (slice w 23 21), BitVec.ofNat 3 (slice w 20 18), BitVec.ofNat 7 (slice w 17 11), BitVec.ofNat 7 (slice w 10 4), lit⟩

/-- The fields of format OpMs read from a word (R34). -/
def readOpMs (w : Nat) (c : Bool) (lit : Option (BitVec 26)) : OpMs :=
  ⟨c, BitVec.ofNat 3 (slice w 20 18), BitVec.ofNat 7 (slice w 17 11), BitVec.ofNat 7 (slice w 10 4), BitVec.ofNat 2 (slice w 2 1), lit⟩

/-- The fields of format OpFlk read from a word (R34). -/
def readOpFlk (w : Nat) (c : Bool) (lit : Option (BitVec 26)) : OpFlk :=
  ⟨c, slice w 25 25 == 1, BitVec.ofNat 7 (slice w 20 14), BitVec.ofNat 2 (slice w 12 11), lit⟩

/-- The fields of format OpFid read from a word (R34). -/
def readOpFid (w : Nat) (c : Bool) (lit : Option (BitVec 26)) : OpFid :=
  ⟨c, slice w 25 25 == 1, BitVec.ofNat 7 (slice w 20 14), BitVec.ofNat 3 (slice w 13 11), lit⟩

/-- The fields of format OpArd read from a word (R34). -/
def readOpArd (w : Nat) (c : Bool) (lit : Option (BitVec 26)) : OpArd :=
  ⟨c, BitVec.ofNat 3 (slice w 20 18), BitVec.ofNat 7 (slice w 17 11), BitVec.ofNat 3 (slice w 10 8), BitVec.ofNat 2 (slice w 7 6), lit⟩

/-- The fields of format OpAst read from a word (R34). -/
def readOpAst (w : Nat) (c : Bool) (lit : Option (BitVec 26)) : OpAst :=
  ⟨c, BitVec.ofNat 3 (slice w 20 18), BitVec.ofNat 7 (slice w 17 11), BitVec.ofNat 3 (slice w 10 8), BitVec.ofNat 2 (slice w 7 6), BitVec.ofNat 2 (slice w 5 4), lit⟩

/-- The fields of format OpT read from a word (R34). -/
def readOpT (w : Nat) (c : Bool) (lit : Option (BitVec 26)) : OpT :=
  ⟨c, BitVec.ofNat 3 (slice w 20 18), lit⟩

/-- The fields of format OpXk read from a word (R34). -/
def readOpXk (w : Nat) (c : Bool) (lit : Option (BitVec 26)) : OpXk :=
  ⟨c, slice w 25 25 == 1, BitVec.ofNat 7 (slice w 20 14), lit⟩

/-- The fields of format OpOw read from a word (R34). -/
def readOpOw (w : Nat) (c : Bool) (lit : Option (BitVec 26)) : OpOw :=
  ⟨c, BitVec.ofNat 2 (slice w 20 19), BitVec.ofNat 11 (slice w 10 0), lit⟩

/-- The fields of format OpBi read from a word (R34). -/
def readOpBi (w : Nat) (c : Bool) (lit : Option (BitVec 26)) : OpBi :=
  ⟨c, slice w 25 25 == 1, BitVec.ofNat 7 (slice w 20 14), BitVec.ofNat 7 (slice w 13 7), BitVec.ofNat 7 (slice w 6 0), lit⟩

/-- The fields of format OpBa read from a word (R34). -/
def readOpBa (w : Nat) (c : Bool) (lit : Option (BitVec 26)) : OpBa :=
  ⟨c, slice w 25 25 == 1, BitVec.ofNat 7 (slice w 20 14), BitVec.ofNat 7 (slice w 13 7), lit⟩

/-- The fields of format OpXy read from a word (R34). -/
def readOpXy (w : Nat) (c : Bool) (lit : Option (BitVec 26)) : OpXy :=
  ⟨c, BitVec.ofNat 7 (slice w 20 14), BitVec.ofNat 7 (slice w 13 7), lit⟩

/-- The fields of format OpMc read from a word (R34). -/
def readOpMc (w : Nat) (c : Bool) (lit : Option (BitVec 26)) : OpMc :=
  ⟨c, BitVec.ofNat 7 (slice w 20 14), lit⟩

/-- The fields of format OpTq read from a word (R34). -/
def readOpTq (w : Nat) (c : Bool) (lit : Option (BitVec 26)) : OpTq :=
  ⟨c, slice w 25 25 == 1, BitVec.ofNat 3 (slice w 20 18), BitVec.ofNat 7 (slice w 17 11), BitVec.ofNat 7 (slice w 10 4), BitVec.ofNat 3 (slice w 3 1), lit⟩

/-- The fields of format OpTa read from a word (R34). -/
def readOpTa (w : Nat) (c : Bool) (lit : Option (BitVec 26)) : OpTa :=
  ⟨c, slice w 25 25 == 1, BitVec.ofNat 3 (slice w 20 18), BitVec.ofNat 7 (slice w 17 11), lit⟩

/-- The fields of format OpCs read from a word (R34). -/
def readOpCs (w : Nat) (c : Bool) (lit : Option (BitVec 26)) : OpCs :=
  ⟨c, slice w 25 25 == 1, lit⟩

/-- The fields of format OpCw read from a word (R34). -/
def readOpCw (w : Nat) (c : Bool) (lit : Option (BitVec 26)) : OpCw :=
  ⟨c, BitVec.ofNat 7 (slice w 17 11), BitVec.ofNat 7 (slice w 10 4), lit⟩

/-- The fields of an atomic, from its word and its literal: L bits [25:19] and [18:0] (R51). -/
def readOpAt (w : Nat) (c : Bool) (l : BitVec 26) : OpAt :=
  ⟨c, BitVec.ofNat 7 (slice w 24 18), BitVec.ofNat 7 (slice w 17 11), BitVec.ofNat 5 (slice w 10 6), BitVec.ofNat 2 (slice w 5 4),
    BitVec.ofNat 3 (slice w 3 1), BitVec.ofNat 7 (slice l.toNat 25 19), BitVec.ofNat 19 (slice l.toNat 18 0)⟩

/-- The fields of a reduction, whose d field is zero (R51). -/
def readOpRed (w : Nat) (c : Bool) (l : BitVec 26) : OpRed :=
  ⟨c, BitVec.ofNat 7 (slice w 17 11), BitVec.ofNat 5 (slice w 10 6), BitVec.ofNat 2 (slice w 5 4),
    BitVec.ofNat 3 (slice w 3 1), BitVec.ofNat 7 (slice l.toNat 25 19), BitVec.ofNat 19 (slice l.toNat 18 0)⟩

/-- The fields of an MX matrix word: xop 8 to 12, and L bits [25:19] and [18:12] (R317). -/
def readOpMx (w : Nat) (c : Bool) (l : BitVec 26) : OpMx :=
  ⟨c, BitVec.ofNat 3 (slice w 24 21 - 8), BitVec.ofNat 3 (slice w 20 18), BitVec.ofNat 7 (slice w 17 11), BitVec.ofNat 7 (slice w 10 4),
    BitVec.ofNat 7 (slice l.toNat 25 19), BitVec.ofNat 7 (slice l.toNat 18 12)⟩

/-- The words of major 1 (R45 to R53). -/
def decodeMajor1 (w : Nat) (c : Bool) (lit : Option (BitVec 26)) : Option Instr :=
  if slice w 3 1 == 0 then some (.iaddI32 (readOpA w c lit)) else
  if slice w 3 1 == 1 then some (.isubI32 (readOpA w c lit)) else
  if slice w 3 1 == 2 then some (.imulI32 (readOpA w c lit)) else
  if slice w 3 1 == 3 then some (.imulhI32 (readOpA w c lit)) else
  if slice w 3 1 == 4 then some (.imulhN32 (readOpA w c lit)) else
  if slice w 3 1 == 5 then some (.iabsdI32 (readOpA w c lit)) else
  if slice w 3 1 == 6 then some (.iaddsI32 (readOpA w c lit)) else
  if slice w 3 1 == 7 then some (.isubsI32 (readOpA w c lit)) else
  none

/-- The words of major 2 (R45 to R53). -/
def decodeMajor2 (w : Nat) (c : Bool) (lit : Option (BitVec 26)) : Option Instr :=
  if slice w 3 1 == 0 then some (.iminI32 (readOpA w c lit)) else
  if slice w 3 1 == 1 then some (.iminN32 (readOpA w c lit)) else
  if slice w 3 1 == 2 then some (.imaxI32 (readOpA w c lit)) else
  if slice w 3 1 == 3 then some (.imaxN32 (readOpA w c lit)) else
  if slice w 10 1 == 996 then some (.iabsI32 (readOpU w c lit)) else
  if slice w 10 1 == 997 then some (.inegI32 (readOpU w c lit)) else
  if slice w 3 1 == 6 then some (.iaddsN32 (readOpA w c lit)) else
  if slice w 3 1 == 7 then some (.isubsN32 (readOpA w c lit)) else
  none

/-- The words of major 3 (R45 to R53). -/
def decodeMajor3 (w : Nat) (c : Bool) (lit : Option (BitVec 26)) : Option Instr :=
  if slice w 3 1 == 0 then some (.andB32 (readOpA w c lit)) else
  if slice w 3 1 == 1 then some (.orB32 (readOpA w c lit)) else
  if slice w 3 1 == 2 then some (.xorB32 (readOpA w c lit)) else
  if slice w 3 1 == 3 then some (.andnB32 (readOpA w c lit)) else
  if slice w 3 1 == 4 then some (.ornB32 (readOpA w c lit)) else
  if slice w 3 1 == 5 then some (.xnorB32 (readOpA w c lit)) else
  if slice w 10 1 == 998 then some (.notB32 (readOpU w c lit)) else
  if slice w 10 1 == 999 then some (.movB32 (readOpU w c lit)) else
  none

/-- The words of major 4 (R45 to R53). -/
def decodeMajor4 (w : Nat) (c : Bool) (lit : Option (BitVec 26)) : Option Instr :=
  if slice w 3 1 == 0 then some (.shlB32 (readOpA w c lit)) else
  if slice w 3 1 == 1 then some (.shrN32 (readOpA w c lit)) else
  if slice w 3 1 == 2 then some (.shrI32 (readOpA w c lit)) else
  if slice w 3 1 == 3 then some (.rolB32 (readOpA w c lit)) else
  if slice w 10 1 == 996 then some (.popcB32 (readOpU w c lit)) else
  if slice w 10 1 == 997 then some (.clzB32 (readOpU w c lit)) else
  if slice w 10 1 == 998 then some (.brevB32 (readOpU w c lit)) else
  if slice w 10 1 == 999 then some (.ffsB32 (readOpU w c lit)) else
  none

/-- The words of major 5 (R45 to R53). -/
def decodeMajor5 (w : Nat) (c : Bool) (lit : Option (BitVec 26)) : Option Instr :=
  if slice w 3 1 == 0 then some (.iaddI64 (readOpA w c lit)) else
  if slice w 3 1 == 1 then some (.isubI64 (readOpA w c lit)) else
  if slice w 3 1 == 2 then some (.imulI64 (readOpA w c lit)) else
  if slice w 3 1 == 3 then some (.shlB64 (readOpA w c lit)) else
  if slice w 3 1 == 4 then some (.shrN64 (readOpA w c lit)) else
  if slice w 3 1 == 5 then some (.shrI64 (readOpA w c lit)) else
  if slice w 3 1 == 6 then some (.imulwI32 (readOpA w c lit)) else
  if slice w 3 1 == 7 then some (.imulwN32 (readOpA w c lit)) else
  none

/-- The words of major 6 (R45 to R53). -/
def decodeMajor6 (w : Nat) (c : Bool) (lit : Option (BitVec 26)) : Option Instr :=
  if slice w 3 1 == 0 then some (.bfeN32 (readOpA w c lit)) else
  if slice w 3 1 == 1 then some (.bfeI32 (readOpA w c lit)) else
  if slice w 3 1 == 2 then some (.bfiB32 (readOpA w c lit)) else
  if slice w 10 1 == 995 then some (.bswapB32 (readOpU w c lit)) else
  if slice w 10 1 == 996 then some (.extI8 (readOpU w c lit)) else
  if slice w 10 1 == 997 then some (.extI16 (readOpU w c lit)) else
  if slice w 3 1 == 6 then some (.imadI32 (readOpA w c lit)) else
  if slice w 3 1 == 7 then some (.packB16 (readOpA w c lit)) else
  none

/-- The words of major 7 (R45 to R53). -/
def decodeMajor7 (w : Nat) (c : Bool) (lit : Option (BitVec 26)) : Option Instr :=
  if slice w 3 3 == 0 then some (.leaB32 (readOpLea w c lit)) else
  if slice w 3 3 == 1 then some (.leaI64 (readOpLea w c lit)) else
  none

/-- The words of major 8 (R45 to R53). -/
def decodeMajor8 (w : Nat) (c : Bool) (lit : Option (BitVec 26)) : Option Instr :=
  if true then some (.iaddiI32 (readOpI w c lit)) else
  none

/-- The words of major 9 (R45 to R53). -/
def decodeMajor9 (w : Nat) (c : Bool) (lit : Option (BitVec 26)) : Option Instr :=
  if slice w 25 25 == 0 && slice w 21 21 == 0 && slice w 3 0 == 0 then some (.icmpI32 (readOpCmp w c lit)) else
  if slice w 25 25 == 0 && slice w 21 21 == 0 && slice w 3 0 == 2 then some (.icmpN32 (readOpCmp w c lit)) else
  if slice w 25 25 == 0 && slice w 21 21 == 0 && slice w 3 0 == 4 then some (.icmpI64 (readOpCmp w c lit)) else
  if slice w 25 25 == 0 && slice w 21 21 == 0 && slice w 3 0 == 6 then some (.icmpN64 (readOpCmp w c lit)) else
  if slice w 25 25 == 0 && slice w 21 21 == 0 && slice w 3 0 == 8 then some (.fcmpF32 (readOpCmp w c lit)) else
  if slice w 25 25 == 0 && slice w 21 21 == 0 && slice w 3 0 == 10 then some (.fcmpBf16 (readOpCmp w c lit)) else
  if slice w 25 25 == 0 && slice w 21 21 == 0 && slice w 3 0 == 12 then some (.fcmpF16 (readOpCmp w c lit)) else
  if slice w 25 21 == 0 && slice w 17 15 == 0 && slice w 10 8 == 0 && slice w 3 0 == 14 then some (.pand (readOpPl w c lit)) else
  if slice w 25 21 == 2 && slice w 17 15 == 0 && slice w 10 8 == 0 && slice w 3 0 == 14 then some (.por (readOpPl w c lit)) else
  if slice w 25 21 == 4 && slice w 17 15 == 0 && slice w 10 8 == 0 && slice w 3 0 == 14 then some (.pxor (readOpPl w c lit)) else
  none

/-- The words of major 10 (R45 to R53). -/
def decodeMajor10 (w : Nat) (c : Bool) (lit : Option (BitVec 26)) : Option Instr :=
  if slice w 25 25 == 0 then some (.selB32 (readOpSel w c lit)) else
  none

/-- The words of major 11 (R45 to R53). -/
def decodeMajor11 (w : Nat) (c : Bool) (lit : Option (BitVec 26)) : Option Instr :=
  if slice w 3 1 == 0 then some (.faddF32 (readOpA w c lit)) else
  if slice w 3 1 == 1 then some (.fsubF32 (readOpA w c lit)) else
  if slice w 3 1 == 2 then some (.fmulF32 (readOpA w c lit)) else
  if slice w 3 1 == 3 then some (.fminF32 (readOpA w c lit)) else
  if slice w 3 1 == 4 then some (.fmaxF32 (readOpA w c lit)) else
  if slice w 10 1 == 997 then some (.fabsF32 (readOpU w c lit)) else
  if slice w 10 1 == 998 then some (.fnegF32 (readOpU w c lit)) else
  if slice w 3 1 == 7 then some (.fcpysgnF32 (readOpA w c lit)) else
  none

/-- The words of major 12 (R45 to R53). -/
def decodeMajor12 (w : Nat) (c : Bool) (lit : Option (BitVec 26)) : Option Instr :=
  if slice w 3 1 == 0 then some (.ffmaF32Cd (readOpA w c lit)) else
  if slice w 25 25 == 0 && slice w 3 1 == 1 then some (.ffmaF32Cb0 (readOpF w c lit)) else
  if slice w 25 25 == 0 && slice w 3 1 == 2 then some (.ffmaF32Cb1 (readOpF w c lit)) else
  if slice w 25 25 == 0 && slice w 3 1 == 3 then some (.ffmaF32Cb2 (readOpF w c lit)) else
  if slice w 25 25 == 0 && slice w 3 1 == 4 then some (.ffmaF32Cb3 (readOpF w c lit)) else
  if slice w 3 1 == 5 then some (.ffmaX2bf16Cd (readOpA w c lit)) else
  if slice w 3 1 == 6 then some (.ffmaX2f16Cd (readOpA w c lit)) else
  none

/-- The words of major 13 (R45 to R53). -/
def decodeMajor13 (w : Nat) (c : Bool) (lit : Option (BitVec 26)) : Option Instr :=
  if slice w 3 1 == 0 then some (.faddX2bf16 (readOpA w c lit)) else
  if slice w 3 1 == 1 then some (.fmulX2bf16 (readOpA w c lit)) else
  if slice w 3 1 == 2 then some (.faddX2f16 (readOpA w c lit)) else
  if slice w 3 1 == 3 then some (.fmulX2f16 (readOpA w c lit)) else
  if slice w 3 1 == 4 then some (.fminX2bf16 (readOpA w c lit)) else
  if slice w 3 1 == 5 then some (.fmaxX2bf16 (readOpA w c lit)) else
  if slice w 3 1 == 6 then some (.fminX2f16 (readOpA w c lit)) else
  if slice w 3 1 == 7 then some (.fmaxX2f16 (readOpA w c lit)) else
  none

/-- The words of major 14 (R45 to R53). -/
def decodeMajor14 (w : Nat) (c : Bool) (lit : Option (BitVec 26)) : Option Instr :=
  if slice w 10 1 == 992 then some (.frcpF32 (readOpU w c lit)) else
  if slice w 10 1 == 993 then some (.frsqF32 (readOpU w c lit)) else
  if slice w 10 1 == 994 then some (.fsqrtF32 (readOpU w c lit)) else
  if slice w 10 1 == 995 then some (.fexp2F32 (readOpU w c lit)) else
  if slice w 10 1 == 996 then some (.flog2F32 (readOpU w c lit)) else
  if slice w 10 1 == 997 then some (.fsinF32 (readOpU w c lit)) else
  if slice w 10 1 == 998 then some (.fcosF32 (readOpU w c lit)) else
  if slice w 10 1 == 999 then some (.ftanhF32 (readOpU w c lit)) else
  none

/-- The words of major 15 (R45 to R53). -/
def decodeMajor15 (w : Nat) (c : Bool) (lit : Option (BitVec 26)) : Option Instr :=
  if slice w 10 3 == 248 then some (.frndF32 (readOpRnd w c lit)) else
  if slice w 10 1 == 996 then some (.ffractF32 (readOpU w c lit)) else
  if slice w 10 1 == 997 then some (.fclassF32 (readOpU w c lit)) else
  if slice w 10 1 == 998 then some (.fsatF32 (readOpU w c lit)) else
  if slice w 10 1 == 999 then some (.fexpoF32 (readOpU w c lit)) else
  none

/-- The words of major 16 (R45 to R53). -/
def decodeMajor16 (w : Nat) (c : Bool) (lit : Option (BitVec 26)) : Option Instr :=
  if true then some (.cvt (readOpCvt w c lit)) else
  none

/-- The words of major 17 (R45 to R53). -/
def decodeMajor17 (w : Nat) (c : Bool) (lit : Option (BitVec 26)) : Option Instr :=
  if slice w 25 25 == 0 && slice w 3 1 == 0 then some (.cvtpX2bf16F32 (readOpF w c lit)) else
  if slice w 25 25 == 0 && slice w 3 1 == 1 then some (.cvtpX2f16F32 (readOpF w c lit)) else
  if slice w 25 25 == 0 && slice w 3 1 == 2 then some (.cvtpX4e4m3F32 (readOpF w c lit)) else
  if slice w 25 25 == 0 && slice w 3 1 == 3 then some (.cvtpX4e5m2F32 (readOpF w c lit)) else
  if slice w 25 25 == 0 && slice w 3 1 == 4 then some (.cvtpX8e2m1X4e4m3 (readOpF w c lit)) else
  if slice w 25 25 == 0 && slice w 3 1 == 5 then some (.mxqE4m3 (readOpF w c lit)) else
  if slice w 25 25 == 0 && slice w 3 1 == 6 then some (.mxqE5m2 (readOpF w c lit)) else
  if slice w 25 25 == 0 && slice w 3 1 == 7 then some (.mxqE2m1 (readOpF w c lit)) else
  none

/-- The words of major 18 (R45 to R53). -/
def decodeMajor18 (w : Nat) (c : Bool) (lit : Option (BitVec 26)) : Option Instr :=
  if slice w 25 25 == 0 && slice w 3 1 == 0 then some (.dp4X4i8 (readOpF w c lit)) else
  if slice w 25 25 == 0 && slice w 3 1 == 1 then some (.dp4X4e4m3 (readOpF w c lit)) else
  if slice w 25 25 == 0 && slice w 3 1 == 2 then some (.dp4X4e5m2 (readOpF w c lit)) else
  if slice w 25 25 == 0 && slice w 3 1 == 3 then some (.dp8X8i4 (readOpF w c lit)) else
  if slice w 25 25 == 0 && slice w 3 1 == 4 then some (.dp8X8e2m1 (readOpF w c lit)) else
  if slice w 25 25 == 0 && slice w 3 1 == 5 then some (.dp2X2bf16 (readOpF w c lit)) else
  if slice w 25 25 == 0 && slice w 3 1 == 6 then some (.dp2X2f16 (readOpF w c lit)) else
  if slice w 25 25 == 0 && slice w 3 1 == 7 then some (.fscaleF32 (readOpF w c lit)) else
  none

/-- The words of major 19 (R45 to R53). -/
def decodeMajor19 (w : Nat) (c : Bool) (lit : Option (BitVec 26)) : Option Instr :=
  if slice w 25 25 == 0 && slice w 3 1 == 0 then some (.xget (readOpF w c lit)) else
  if slice w 25 25 == 0 && slice w 3 1 == 1 then some (.xlow (readOpF w c lit)) else
  if slice w 25 25 == 0 && slice w 3 1 == 2 then some (.xhigh (readOpF w c lit)) else
  if slice w 25 25 == 0 && slice w 3 1 == 3 then some (.xflip (readOpF w c lit)) else
  if slice w 3 1 == 4 then some (.gbcast (readOpA w c lit)) else
  if slice w 17 15 == 0 && slice w 10 1 == 997 then some (.pmask (readOpPm w c lit)) else
  if slice w 25 25 == 0 && slice w 3 1 == 6 then some (.eqset (readOpF w c lit)) else
  if slice w 25 25 == 0 && slice w 17 1 == 127975 then some (.gfirst (readOpGf w c lit)) else
  none

/-- The words of major 20 (R45 to R53). -/
def decodeMajor20 (w : Nat) (c : Bool) (lit : Option (BitVec 26)) : Option Instr :=
  if slice w 10 8 == 0 && slice w 3 1 == 0 then some (.gredAddI32 (readOpGr w c lit)) else
  if slice w 10 8 == 0 && slice w 3 1 == 1 then some (.gredMinI32 (readOpGr w c lit)) else
  if slice w 10 8 == 0 && slice w 3 1 == 2 then some (.gredMaxI32 (readOpGr w c lit)) else
  if slice w 10 8 == 0 && slice w 3 1 == 3 then some (.gredAndB32 (readOpGr w c lit)) else
  if slice w 10 8 == 0 && slice w 3 1 == 4 then some (.gredOrB32 (readOpGr w c lit)) else
  if slice w 10 8 == 0 && slice w 3 1 == 5 then some (.gredAddF32 (readOpGr w c lit)) else
  if slice w 10 8 == 0 && slice w 3 1 == 6 then some (.gscanAddI32 (readOpGr w c lit)) else
  if slice w 10 8 == 0 && slice w 3 1 == 7 then some (.gscanAddF32 (readOpGr w c lit)) else
  none

/-- The words of major 21 (R45 to R53). -/
def decodeMajor21 (w : Nat) (c : Bool) (lit : Option (BitVec 26)) : Option Instr :=
  if slice w 25 25 == 0 then some (.br (readOpBr w c lit)) else
  none

/-- The words of major 22 (R45 to R53). -/
def decodeMajor22 (w : Nat) (c : Bool) (lit : Option (BitVec 26)) : Option Instr :=
  if slice w 25 25 == 0 then some (.call (readOpBr w c lit)) else
  none

/-- The words of major 23 (R45 to R53). -/
def decodeMajor23 (w : Nat) (c : Bool) (lit : Option (BitVec 26)) : Option Instr :=
  if slice w 25 0 == 0 then some (.nop (readOpK w c lit)) else
  if slice w 25 0 == 262144 then some (.exit (readOpK w c lit)) else
  if slice w 25 0 == 524288 then some (.ret (readOpK w c lit)) else
  if slice w 25 18 == 3 && slice w 10 0 == 0 then some (.brx (readOpX w c lit)) else
  if slice w 25 18 == 4 && slice w 10 0 == 0 then some (.callx (readOpX w c lit)) else
  if slice w 25 18 == 5 then some (.lpush (readOpLp w c lit)) else
  if slice w 25 0 == 1572864 then some (.lbrk (readOpK w c lit)) else
  if slice w 25 8 == 7168 then some (.trapW (readOpCode w c lit)) else
  if slice w 25 8 == 8192 then some (.bkpt (readOpCode w c lit)) else
  if slice w 25 0 == 2359296 then some (.rti (readOpK w c lit)) else
  if slice w 25 0 == 2621440 then some (.gmark (readOpK w c lit)) else
  if slice w 24 18 == 11 && slice w 10 3 == 0 then some (.gtest (readOpUxp w c lit)) else
  if slice w 24 18 == 12 && slice w 10 0 == 0 then some (.gaccept (readOpUx w c lit)) else
  if slice w 24 18 == 13 && slice w 10 0 == 0 then some (.gdemand (readOpUx w c lit)) else
  if slice w 25 21 == 2 && decide (slice w 20 18 ≤ 5) && slice w 17 16 == 0 then some (.dead (readOpDead w c lit)) else
  none

/-- The words of major 24 (R45 to R53). -/
def decodeMajor24 (w : Nat) (c : Bool) (lit : Option (BitVec 26)) : Option Instr :=
  if slice w 25 3 == 0 then some (.jmark (readOpJ w c lit)) else
  if slice w 25 3 == 32768 then some (.jwait (readOpJ w c lit)) else
  if slice w 25 3 == 65536 then some (.jclr (readOpJ w c lit)) else
  if slice w 25 8 == 4096 && slice w 3 3 == 0 then some (.vany (readOpVote w c lit)) else
  if slice w 25 8 == 5120 && slice w 3 3 == 0 then some (.vall (readOpVote w c lit)) else
  if slice w 25 8 == 6144 && slice w 3 3 == 0 then some (.vsame (readOpVote w c lit)) else
  if slice w 25 4 == 131072 then some (.barTm (readOpBar w c lit)) else
  if slice w 25 4 == 147456 then some (.barCl (readOpBar w c lit)) else
  if slice w 25 0 == 2621440 then some (.barGd (readOpK w c lit)) else
  if slice w 25 4 == 196608 then some (.bararrTm (readOpBar w c lit)) else
  if slice w 25 4 == 212992 then some (.bararrCl (readOpBar w c lit)) else
  if slice w 25 4 == 229376 then some (.barwtTm (readOpBar w c lit)) else
  if slice w 25 4 == 245760 then some (.barwtCl (readOpBar w c lit)) else
  none

/-- The words of major 25 (R45 to R53). -/
def decodeMajor25 (w : Nat) (c : Bool) (lit : Option (BitVec 26)) : Option Instr :=
  if slice w 24 18 == 0 && slice w 10 9 == 0 then some (.smovRd (readOpSm w c lit)) else
  if slice w 25 18 == 129 && slice w 10 9 == 0 then some (.smovWr (readOpSw w c lit)) else
  if slice w 25 18 == 2 && slice w 10 9 == 0 then some (.smovV (readOpSw w c lit)) else
  if slice w 24 18 == 4 then some (.sysr (readOpSys w c lit)) else
  if slice w 24 18 == 5 then some (.sysw (readOpSys w c lit)) else
  if slice w 24 18 == 6 && slice w 10 0 == 0 then some (.tsr (readOpUx w c lit)) else
  if slice w 24 18 == 7 && slice w 10 0 == 0 then some (.cyc (readOpUx w c lit)) else
  if slice w 25 18 == 8 && slice w 10 0 == 0 then some (.fflg (readOpX w c lit)) else
  if slice w 25 5 == 73728 then some (.fclr (readOpFc w c lit)) else
  if slice w 25 18 == 10 && slice w 10 0 == 0 then some (.slp (readOpX w c lit)) else
  if slice w 24 18 == 12 && slice w 10 3 == 0 then some (.idr (readOpIdr w c lit)) else
  if slice w 25 6 == 65536 then some (.fence (readOpFen w c lit)) else
  if slice w 25 18 == 17 && slice w 10 6 == 0 then some (.vspill (readOpSpl w c lit)) else
  if slice w 25 18 == 18 && slice w 10 6 == 0 then some (.vfill (readOpSpl w c lit)) else
  if slice w 25 3 == 622592 then some (.vgrow (readOpWin w c lit)) else
  if slice w 25 3 == 655360 then some (.vshrink (readOpWin w c lit)) else
  none

/-- The words of major 26 (R45 to R53). -/
def decodeMajor26 (w : Nat) (c : Bool) (lit : Option (BitVec 26)) : Option Instr :=
  if slice w 25 25 == 0 && slice w 0 0 == 0 then some (.load (readOpLd w c lit)) else
  if slice w 25 25 == 1 && slice w 0 0 == 0 then some (.uniformLoad (readOpLd w c lit)) else
  if slice w 25 18 == 0 && slice w 7 6 == 0 && slice w 0 0 == 1 then some (.prefetch (readOpPf w c lit)) else
  none

/-- The words of major 27 (R45 to R53). -/
def decodeMajor27 (w : Nat) (c : Bool) (lit : Option (BitVec 26)) : Option Instr :=
  if slice w 25 25 == 0 && slice w 10 6 == 0 && slice w 0 0 == 0 then some (.store (readOpSt w c lit)) else
  if slice w 25 25 == 1 && slice w 10 6 == 0 && slice w 0 0 == 0 then some (.uniformStore (readOpSt w c lit)) else
  none

/-- The words of major 28 (R45 to R53). -/
def decodeMajor28 (w : Nat) (c : Bool) (lit : Option (BitVec 26)) : Option Instr :=
  match lit with
  | none => none
  | some l =>
    if slice w 25 25 == 0 && slice w 0 0 == 0 then some (.atomic (readOpAt w c l)) else
    if slice w 25 25 == 0 && slice w 0 0 == 1 && slice w 24 18 == 0 then some (.reduction (readOpRed w c l)) else none

/-- The words of major 29 (R45 to R53). -/
def decodeMajor29 (w : Nat) (c : Bool) (lit : Option (BitVec 26)) : Option Instr :=
  if slice w 25 24 == 0 && slice w 3 0 == 0 then some (.mma (readOpMma w c lit)) else
  if slice w 25 21 == 13 && slice w 3 3 == 0 && slice w 0 0 == 0 then some (.mmsrBf16 (readOpMs w c lit)) else
  if slice w 24 21 == 14 && slice w 13 13 == 0 && slice w 10 0 == 0 then some (.flkrd (readOpFlk w c lit)) else
  if slice w 24 21 == 15 && slice w 10 0 == 0 then some (.fidrd (readOpFid w c lit)) else
  match lit with
  | none => none
  | some l =>
    if slice w 25 25 == 0 && 8 ≤ slice w 24 21 && slice w 24 21 ≤ 12 && slice w 3 0 == 0 && slice l.toNat 11 0 == 0 then
      some (.mmaMx (readOpMx w c l)) else none

/-- The words of major 30 (R45 to R53). -/
def decodeMajor30 (w : Nat) (c : Bool) (lit : Option (BitVec 26)) : Option Instr :=
  if slice w 25 21 == 0 && slice w 5 0 == 0 then some (.ard (readOpArd w c lit)) else
  if slice w 25 21 == 1 && slice w 3 0 == 0 then some (.ast (readOpAst w c lit)) else
  if slice w 25 21 == 2 && slice w 17 0 == 0 then some (.azero (readOpT w c lit)) else
  if slice w 25 21 == 3 && slice w 17 0 == 0 then some (.arel (readOpT w c lit)) else
  if slice w 24 21 == 4 && slice w 13 0 == 0 then some (.xkick (readOpXk w c lit)) else
  if slice w 25 21 == 5 && slice w 18 11 == 0 then some (.owait (readOpOw w c lit)) else
  if slice w 24 21 == 6 then some (.bobjInit (readOpBi w c lit)) else
  if slice w 24 21 == 7 && slice w 6 0 == 0 then some (.bobjArrive (readOpBa w c lit)) else
  if slice w 25 21 == 8 && slice w 6 0 == 0 then some (.bobjWait (readOpXy w c lit)) else
  if slice w 25 21 == 9 && slice w 13 0 == 0 then some (.mcfree (readOpMc w c lit)) else
  if slice w 24 21 == 10 && slice w 0 0 == 0 then some (.tqpush (readOpTq w c lit)) else
  if slice w 24 18 == 88 && slice w 10 0 == 0 then some (.tqtokRel (readOpUx w c lit)) else
  if slice w 24 21 == 11 && slice w 10 0 == 1024 then some (.tqtokAcq (readOpTa w c lit)) else
  if slice w 24 0 == 25165824 then some (.cbset (readOpCs w c lit)) else
  if slice w 25 18 == 104 && slice w 3 0 == 0 then some (.cbwait (readOpCw w c lit)) else
  none

/-- The instruction that a word spells, with the literal chained directly after it, if any; c says whether the step goes on. A word that the map does not assign is refused (R54). -/
def decodeWord (w : Nat) (c : Bool) (lit : Option (BitVec 26)) : Option Instr :=
  match slice w 30 26 with
  | 1 => decodeMajor1 w c lit
  | 2 => decodeMajor2 w c lit
  | 3 => decodeMajor3 w c lit
  | 4 => decodeMajor4 w c lit
  | 5 => decodeMajor5 w c lit
  | 6 => decodeMajor6 w c lit
  | 7 => decodeMajor7 w c lit
  | 8 => decodeMajor8 w c lit
  | 9 => decodeMajor9 w c lit
  | 10 => decodeMajor10 w c lit
  | 11 => decodeMajor11 w c lit
  | 12 => decodeMajor12 w c lit
  | 13 => decodeMajor13 w c lit
  | 14 => decodeMajor14 w c lit
  | 15 => decodeMajor15 w c lit
  | 16 => decodeMajor16 w c lit
  | 17 => decodeMajor17 w c lit
  | 18 => decodeMajor18 w c lit
  | 19 => decodeMajor19 w c lit
  | 20 => decodeMajor20 w c lit
  | 21 => decodeMajor21 w c lit
  | 22 => decodeMajor22 w c lit
  | 23 => decodeMajor23 w c lit
  | 24 => decodeMajor24 w c lit
  | 25 => decodeMajor25 w c lit
  | 26 => decodeMajor26 w c lit
  | 27 => decodeMajor27 w c lit
  | 28 => decodeMajor28 w c lit
  | 29 => decodeMajor29 w c lit
  | 30 => decodeMajor30 w c lit
  | _ => none

/-- The fields of format OpA in their places in the word, the C bit apart (R34). -/
def bitsOpA (o : OpA) : Nat :=
  bit o.u * 33554432 + o.d.toNat * 262144 + o.a.toNat * 2048 + o.b.toNat * 16 + bit o.n

/-- The fields of format OpU in their places in the word, the C bit apart (R34). -/
def bitsOpU (o : OpU) : Nat :=
  bit o.u * 33554432 + o.d.toNat * 262144 + o.a.toNat * 2048 + bit o.n

/-- The fields of format OpLea in their places in the word, the C bit apart (R34). -/
def bitsOpLea (o : OpLea) : Nat :=
  bit o.u * 33554432 + o.d.toNat * 262144 + o.a.toNat * 2048 + o.b.toNat * 16 + o.s.toNat * 2 + bit o.n

/-- The fields of format OpI in their places in the word, the C bit apart (R34). -/
def bitsOpI (o : OpI) : Nat :=
  bit o.u * 33554432 + o.d.toNat * 262144 + o.a.toNat * 2048 + o.i.toNat

/-- The fields of format OpCmp in their places in the word, the C bit apart (R34). -/
def bitsOpCmp (o : OpCmp) : Nat :=
  o.k.toNat * 4194304 + o.p.toNat * 262144 + o.a.toNat * 2048 + o.b.toNat * 16

/-- The fields of format OpPl in their places in the word, the C bit apart (R34). -/
def bitsOpPl (o : OpPl) : Nat :=
  o.p.toNat * 262144 + bit o.j * 16384 + o.q.toNat * 2048 + bit o.k * 128 + o.r.toNat * 16

/-- The fields of format OpSel in their places in the word, the C bit apart (R34). -/
def bitsOpSel (o : OpSel) : Nat :=
  o.d.toNat * 262144 + o.a.toNat * 2048 + o.b.toNat * 16 + o.k.toNat * 2 + bit o.n

/-- The fields of format OpF in their places in the word, the C bit apart (R34). -/
def bitsOpF (o : OpF) : Nat :=
  o.d.toNat * 262144 + o.a.toNat * 2048 + o.b.toNat * 16 + bit o.n

/-- The fields of format OpRnd in their places in the word, the C bit apart (R34). -/
def bitsOpRnd (o : OpRnd) : Nat :=
  bit o.u * 33554432 + o.d.toNat * 262144 + o.a.toNat * 2048 + o.r.toNat * 2 + bit o.n

/-- The fields of format OpCvt in their places in the word, the C bit apart (R34). -/
def bitsOpCvt (o : OpCvt) : Nat :=
  bit o.u * 33554432 + o.d.toNat * 262144 + o.a.toNat * 2048 + o.b.toNat * 16 + bit o.s * 8 + o.r.toNat * 2 + bit o.n

/-- The fields of format OpPm in their places in the word, the C bit apart (R34). -/
def bitsOpPm (o : OpPm) : Nat :=
  bit o.u * 33554432 + o.d.toNat * 262144 + bit o.j * 16384 + o.q.toNat * 2048 + bit o.n

/-- The fields of format OpGf in their places in the word, the C bit apart (R34). -/
def bitsOpGf (o : OpGf) : Nat :=
  o.d.toNat * 262144 + bit o.n

/-- The fields of format OpGr in their places in the word, the C bit apart (R34). -/
def bitsOpGr (o : OpGr) : Nat :=
  bit o.u * 33554432 + o.d.toNat * 262144 + o.a.toNat * 2048 + bit o.j * 128 + o.q.toNat * 16 + bit o.n

/-- The fields of format OpBr in their places in the word, the C bit apart (R34). -/
def bitsOpBr (o : OpBr) : Nat :=
  o.p.toNat * 2097152 + o.d.toNat

/-- The fields of format OpK in their places in the word, the C bit apart (R34). -/
def bitsOpK (_o : OpK) : Nat :=
  0

/-- The fields of format OpX in their places in the word, the C bit apart (R34). -/
def bitsOpX (o : OpX) : Nat :=
  o.x.toNat * 2048

/-- The fields of format OpLp in their places in the word, the C bit apart (R34). -/
def bitsOpLp (o : OpLp) : Nat :=
  o.x.toNat * 2048 + o.e.toNat

/-- The fields of format OpCode in their places in the word, the C bit apart (R34). -/
def bitsOpCode (o : OpCode) : Nat :=
  o.k.toNat

/-- The fields of format OpUxp in their places in the word, the C bit apart (R34). -/
def bitsOpUxp (o : OpUxp) : Nat :=
  bit o.u * 33554432 + o.x.toNat * 2048 + o.p.toNat

/-- The fields of format OpUx in their places in the word, the C bit apart (R34). -/
def bitsOpUx (o : OpUx) : Nat :=
  bit o.u * 33554432 + o.x.toNat * 2048

/-- The fields of format OpDead in their places in the word, the C bit apart (R34). -/
def bitsOpDead (o : OpDead) : Nat :=
  o.k.toNat * 262144 + o.m.toNat

/-- The fields of format OpJ in their places in the word, the C bit apart (R34). -/
def bitsOpJ (o : OpJ) : Nat :=
  o.j.toNat

/-- The fields of format OpVote in their places in the word, the C bit apart (R34). -/
def bitsOpVote (o : OpVote) : Nat :=
  o.s.toNat * 16 + o.p.toNat

/-- The fields of format OpBar in their places in the word, the C bit apart (R34). -/
def bitsOpBar (o : OpBar) : Nat :=
  o.n.toNat

/-- The fields of format OpSm in their places in the word, the C bit apart (R34). -/
def bitsOpSm (o : OpSm) : Nat :=
  bit o.u * 33554432 + o.x.toNat * 2048 + o.i.toNat

/-- The fields of format OpSw in their places in the word, the C bit apart (R34). -/
def bitsOpSw (o : OpSw) : Nat :=
  o.x.toNat * 2048 + o.i.toNat

/-- The fields of format OpSys in their places in the word, the C bit apart (R34). -/
def bitsOpSys (o : OpSys) : Nat :=
  bit o.u * 33554432 + o.x.toNat * 2048 + o.n.toNat

/-- The fields of format OpFc in their places in the word, the C bit apart (R34). -/
def bitsOpFc (o : OpFc) : Nat :=
  o.f.toNat

/-- The fields of format OpIdr in their places in the word, the C bit apart (R34). -/
def bitsOpIdr (o : OpIdr) : Nat :=
  bit o.u * 33554432 + o.x.toNat * 2048 + o.s.toNat

/-- The fields of format OpFen in their places in the word, the C bit apart (R34). -/
def bitsOpFen (o : OpFen) : Nat :=
  o.k.toNat * 16 + o.s.toNat

/-- The fields of format OpSpl in their places in the word, the C bit apart (R34). -/
def bitsOpSpl (o : OpSpl) : Nat :=
  o.x.toNat * 2048 + o.k.toNat

/-- The fields of format OpWin in their places in the word, the C bit apart (R34). -/
def bitsOpWin (o : OpWin) : Nat :=
  o.w.toNat

/-- The fields of format OpLd in their places in the word, the C bit apart (R34). -/
def bitsOpLd (o : OpLd) : Nat :=
  o.d.toNat * 262144 + o.a.toNat * 2048 + o.w.toNat * 256 + o.p.toNat * 64 + o.s.toNat * 16 + o.t.toNat * 2

/-- The fields of format OpPf in their places in the word, the C bit apart (R34). -/
def bitsOpPf (o : OpPf) : Nat :=
  o.a.toNat * 2048 + o.w.toNat * 256 + o.s.toNat * 16 + o.t.toNat * 2

/-- The fields of format OpSt in their places in the word, the C bit apart (R34). -/
def bitsOpSt (o : OpSt) : Nat :=
  o.d.toNat * 262144 + o.a.toNat * 2048 + o.s.toNat * 16 + o.t.toNat * 2

/-- The fields of format OpMma in their places in the word, the C bit apart (R34). -/
def bitsOpMma (o : OpMma) : Nat :=
  o.f.toNat * 2097152 + o.t.toNat * 262144 + o.a.toNat * 2048 + o.b.toNat * 16

/-- The fields of format OpMs in their places in the word, the C bit apart (R34). -/
def bitsOpMs (o : OpMs) : Nat :=
  o.t.toNat * 262144 + o.a.toNat * 2048 + o.b.toNat * 16 + o.s.toNat * 2

/-- The fields of format OpFlk in their places in the word, the C bit apart (R34). -/
def bitsOpFlk (o : OpFlk) : Nat :=
  bit o.u * 33554432 + o.d.toNat * 16384 + o.j.toNat * 2048

/-- The fields of format OpFid in their places in the word, the C bit apart (R34). -/
def bitsOpFid (o : OpFid) : Nat :=
  bit o.u * 33554432 + o.d.toNat * 16384 + o.k.toNat * 2048

/-- The fields of format OpArd in their places in the word, the C bit apart (R34). -/
def bitsOpArd (o : OpArd) : Nat :=
  o.t.toNat * 262144 + o.d.toNat * 2048 + o.g.toNat * 256 + o.v.toNat * 64

/-- The fields of format OpAst in their places in the word, the C bit apart (R34). -/
def bitsOpAst (o : OpAst) : Nat :=
  o.t.toNat * 262144 + o.a.toNat * 2048 + o.g.toNat * 256 + o.v.toNat * 64 + o.s.toNat * 16

/-- The fields of format OpT in their places in the word, the C bit apart (R34). -/
def bitsOpT (o : OpT) : Nat :=
  o.t.toNat * 262144

/-- The fields of format OpXk in their places in the word, the C bit apart (R34). -/
def bitsOpXk (o : OpXk) : Nat :=
  bit o.u * 33554432 + o.x.toNat * 16384

/-- The fields of format OpOw in their places in the word, the C bit apart (R34). -/
def bitsOpOw (o : OpOw) : Nat :=
  o.k.toNat * 524288 + o.n.toNat

/-- The fields of format OpBi in their places in the word, the C bit apart (R34). -/
def bitsOpBi (o : OpBi) : Nat :=
  bit o.u * 33554432 + o.x.toNat * 16384 + o.y.toNat * 128 + o.z.toNat

/-- The fields of format OpBa in their places in the word, the C bit apart (R34). -/
def bitsOpBa (o : OpBa) : Nat :=
  bit o.u * 33554432 + o.d.toNat * 16384 + o.x.toNat * 128

/-- The fields of format OpXy in their places in the word, the C bit apart (R34). -/
def bitsOpXy (o : OpXy) : Nat :=
  o.x.toNat * 16384 + o.y.toNat * 128

/-- The fields of format OpMc in their places in the word, the C bit apart (R34). -/
def bitsOpMc (o : OpMc) : Nat :=
  o.x.toNat * 16384

/-- The fields of format OpTq in their places in the word, the C bit apart (R34). -/
def bitsOpTq (o : OpTq) : Nat :=
  bit o.u * 33554432 + o.p.toNat * 262144 + o.x.toNat * 2048 + o.y.toNat * 16 + o.w.toNat * 2

/-- The fields of format OpTa in their places in the word, the C bit apart (R34). -/
def bitsOpTa (o : OpTa) : Nat :=
  bit o.u * 33554432 + o.p.toNat * 262144 + o.x.toNat * 2048

/-- The fields of format OpCs in their places in the word, the C bit apart (R34). -/
def bitsOpCs (o : OpCs) : Nat :=
  bit o.u * 33554432

/-- The fields of format OpCw in their places in the word, the C bit apart (R34). -/
def bitsOpCw (o : OpCw) : Nat :=
  o.x.toNat * 2048 + o.y.toNat * 16

/-- The chain bit of the word in a position of a packet: bit 31, except in position 2, where bit 31 is the seal (R30, R31). -/
def chainBit (pos w : Nat) : Bool := pos != 2 && slice w 31 31 == 1

/-- The instruction at position pos of a packet whose words from pos on are ws, and the number of words it takes: a chained L word belongs to the word before it (R12, R37). -/
def decodeAt (pos : Nat) (ws : List Nat) : Option (Instr × Nat) :=
  match ws with
  | [] => none
  | w :: rest =>
    if chainBit pos w then
      match rest with
      | [] => (decodeWord w true none).map (·, 1)
      | l :: _ =>
        match literalOf l with
        | some v => (decodeWord w (chainBit (pos + 1) l) (some v)).map (·, 2)
        | none => (decodeWord w true none).map (·, 1)
    else (decodeWord w false none).map (·, 1)

/-- The instruction that the decoder reads from the bits of an opcode-table row: the first word is bits [31:0], and the word after it, bits [63:32], is 0 above nbits. -/
def decodeTableWord (nbits w : Nat) : Option Instr :=
  let v := w % 2 ^ nbits
  (decodeAt 0 [v % 2 ^ 32, v / 2 ^ 32 % 2 ^ 32]).map (·.1)

/-- A word with its chain bit, and its literal word if it has one: the first carries C = 1 when a literal follows, and the last says whether the step goes on (R37, R62). -/
def withLiteral (w : Nat) (c : Bool) (lit : Option (BitVec 26)) : List Nat :=
  match lit with
  | none => [w + 2 ^ 31 * bit c]
  | some l => [w + 2 ^ 31, l.toNat + 31 * 2 ^ 26 + 2 ^ 31 * bit c]

/-- The words of an instruction, from the encoding tables (R34 to R53); an event has none. -/
def encode : Instr → List Nat
  | .iaddI32 o => withLiteral (0x04000000 + bitsOpA o) o.c o.lit
  | .isubI32 o => withLiteral (0x04000002 + bitsOpA o) o.c o.lit
  | .imulI32 o => withLiteral (0x04000004 + bitsOpA o) o.c o.lit
  | .imulhI32 o => withLiteral (0x04000006 + bitsOpA o) o.c o.lit
  | .imulhN32 o => withLiteral (0x04000008 + bitsOpA o) o.c o.lit
  | .iabsdI32 o => withLiteral (0x0400000A + bitsOpA o) o.c o.lit
  | .iaddsI32 o => withLiteral (0x0400000C + bitsOpA o) o.c o.lit
  | .isubsI32 o => withLiteral (0x0400000E + bitsOpA o) o.c o.lit
  | .iminI32 o => withLiteral (0x08000000 + bitsOpA o) o.c o.lit
  | .iminN32 o => withLiteral (0x08000002 + bitsOpA o) o.c o.lit
  | .imaxI32 o => withLiteral (0x08000004 + bitsOpA o) o.c o.lit
  | .imaxN32 o => withLiteral (0x08000006 + bitsOpA o) o.c o.lit
  | .iabsI32 o => withLiteral (0x080007C8 + bitsOpU o) o.c o.lit
  | .inegI32 o => withLiteral (0x080007CA + bitsOpU o) o.c o.lit
  | .iaddsN32 o => withLiteral (0x0800000C + bitsOpA o) o.c o.lit
  | .isubsN32 o => withLiteral (0x0800000E + bitsOpA o) o.c o.lit
  | .andB32 o => withLiteral (0x0C000000 + bitsOpA o) o.c o.lit
  | .orB32 o => withLiteral (0x0C000002 + bitsOpA o) o.c o.lit
  | .xorB32 o => withLiteral (0x0C000004 + bitsOpA o) o.c o.lit
  | .andnB32 o => withLiteral (0x0C000006 + bitsOpA o) o.c o.lit
  | .ornB32 o => withLiteral (0x0C000008 + bitsOpA o) o.c o.lit
  | .xnorB32 o => withLiteral (0x0C00000A + bitsOpA o) o.c o.lit
  | .notB32 o => withLiteral (0x0C0007CC + bitsOpU o) o.c o.lit
  | .movB32 o => withLiteral (0x0C0007CE + bitsOpU o) o.c o.lit
  | .shlB32 o => withLiteral (0x10000000 + bitsOpA o) o.c o.lit
  | .shrN32 o => withLiteral (0x10000002 + bitsOpA o) o.c o.lit
  | .shrI32 o => withLiteral (0x10000004 + bitsOpA o) o.c o.lit
  | .rolB32 o => withLiteral (0x10000006 + bitsOpA o) o.c o.lit
  | .popcB32 o => withLiteral (0x100007C8 + bitsOpU o) o.c o.lit
  | .clzB32 o => withLiteral (0x100007CA + bitsOpU o) o.c o.lit
  | .brevB32 o => withLiteral (0x100007CC + bitsOpU o) o.c o.lit
  | .ffsB32 o => withLiteral (0x100007CE + bitsOpU o) o.c o.lit
  | .iaddI64 o => withLiteral (0x14000000 + bitsOpA o) o.c o.lit
  | .isubI64 o => withLiteral (0x14000002 + bitsOpA o) o.c o.lit
  | .imulI64 o => withLiteral (0x14000004 + bitsOpA o) o.c o.lit
  | .shlB64 o => withLiteral (0x14000006 + bitsOpA o) o.c o.lit
  | .shrN64 o => withLiteral (0x14000008 + bitsOpA o) o.c o.lit
  | .shrI64 o => withLiteral (0x1400000A + bitsOpA o) o.c o.lit
  | .imulwI32 o => withLiteral (0x1400000C + bitsOpA o) o.c o.lit
  | .imulwN32 o => withLiteral (0x1400000E + bitsOpA o) o.c o.lit
  | .bfeN32 o => withLiteral (0x18000000 + bitsOpA o) o.c o.lit
  | .bfeI32 o => withLiteral (0x18000002 + bitsOpA o) o.c o.lit
  | .bfiB32 o => withLiteral (0x18000004 + bitsOpA o) o.c o.lit
  | .bswapB32 o => withLiteral (0x180007C6 + bitsOpU o) o.c o.lit
  | .extI8 o => withLiteral (0x180007C8 + bitsOpU o) o.c o.lit
  | .extI16 o => withLiteral (0x180007CA + bitsOpU o) o.c o.lit
  | .imadI32 o => withLiteral (0x1800000C + bitsOpA o) o.c o.lit
  | .packB16 o => withLiteral (0x1800000E + bitsOpA o) o.c o.lit
  | .leaB32 o => withLiteral (0x1C000000 + bitsOpLea o) o.c o.lit
  | .leaI64 o => withLiteral (0x1C000008 + bitsOpLea o) o.c o.lit
  | .iaddiI32 o => withLiteral (0x20000000 + bitsOpI o) o.c o.lit
  | .icmpI32 o => withLiteral (0x24000000 + bitsOpCmp o) o.c o.lit
  | .icmpN32 o => withLiteral (0x24000002 + bitsOpCmp o) o.c o.lit
  | .icmpI64 o => withLiteral (0x24000004 + bitsOpCmp o) o.c o.lit
  | .icmpN64 o => withLiteral (0x24000006 + bitsOpCmp o) o.c o.lit
  | .fcmpF32 o => withLiteral (0x24000008 + bitsOpCmp o) o.c o.lit
  | .fcmpBf16 o => withLiteral (0x2400000A + bitsOpCmp o) o.c o.lit
  | .fcmpF16 o => withLiteral (0x2400000C + bitsOpCmp o) o.c o.lit
  | .pand o => withLiteral (0x2400000E + bitsOpPl o) o.c o.lit
  | .por o => withLiteral (0x2440000E + bitsOpPl o) o.c o.lit
  | .pxor o => withLiteral (0x2480000E + bitsOpPl o) o.c o.lit
  | .selB32 o => withLiteral (0x28000000 + bitsOpSel o) o.c o.lit
  | .faddF32 o => withLiteral (0x2C000000 + bitsOpA o) o.c o.lit
  | .fsubF32 o => withLiteral (0x2C000002 + bitsOpA o) o.c o.lit
  | .fmulF32 o => withLiteral (0x2C000004 + bitsOpA o) o.c o.lit
  | .fminF32 o => withLiteral (0x2C000006 + bitsOpA o) o.c o.lit
  | .fmaxF32 o => withLiteral (0x2C000008 + bitsOpA o) o.c o.lit
  | .fabsF32 o => withLiteral (0x2C0007CA + bitsOpU o) o.c o.lit
  | .fnegF32 o => withLiteral (0x2C0007CC + bitsOpU o) o.c o.lit
  | .fcpysgnF32 o => withLiteral (0x2C00000E + bitsOpA o) o.c o.lit
  | .ffmaF32Cd o => withLiteral (0x30000000 + bitsOpA o) o.c o.lit
  | .ffmaF32Cb0 o => withLiteral (0x30000002 + bitsOpF o) o.c o.lit
  | .ffmaF32Cb1 o => withLiteral (0x30000004 + bitsOpF o) o.c o.lit
  | .ffmaF32Cb2 o => withLiteral (0x30000006 + bitsOpF o) o.c o.lit
  | .ffmaF32Cb3 o => withLiteral (0x30000008 + bitsOpF o) o.c o.lit
  | .ffmaX2bf16Cd o => withLiteral (0x3000000A + bitsOpA o) o.c o.lit
  | .ffmaX2f16Cd o => withLiteral (0x3000000C + bitsOpA o) o.c o.lit
  | .faddX2bf16 o => withLiteral (0x34000000 + bitsOpA o) o.c o.lit
  | .fmulX2bf16 o => withLiteral (0x34000002 + bitsOpA o) o.c o.lit
  | .faddX2f16 o => withLiteral (0x34000004 + bitsOpA o) o.c o.lit
  | .fmulX2f16 o => withLiteral (0x34000006 + bitsOpA o) o.c o.lit
  | .fminX2bf16 o => withLiteral (0x34000008 + bitsOpA o) o.c o.lit
  | .fmaxX2bf16 o => withLiteral (0x3400000A + bitsOpA o) o.c o.lit
  | .fminX2f16 o => withLiteral (0x3400000C + bitsOpA o) o.c o.lit
  | .fmaxX2f16 o => withLiteral (0x3400000E + bitsOpA o) o.c o.lit
  | .frcpF32 o => withLiteral (0x380007C0 + bitsOpU o) o.c o.lit
  | .frsqF32 o => withLiteral (0x380007C2 + bitsOpU o) o.c o.lit
  | .fsqrtF32 o => withLiteral (0x380007C4 + bitsOpU o) o.c o.lit
  | .fexp2F32 o => withLiteral (0x380007C6 + bitsOpU o) o.c o.lit
  | .flog2F32 o => withLiteral (0x380007C8 + bitsOpU o) o.c o.lit
  | .fsinF32 o => withLiteral (0x380007CA + bitsOpU o) o.c o.lit
  | .fcosF32 o => withLiteral (0x380007CC + bitsOpU o) o.c o.lit
  | .ftanhF32 o => withLiteral (0x380007CE + bitsOpU o) o.c o.lit
  | .frndF32 o => withLiteral (0x3C0007C0 + bitsOpRnd o) o.c o.lit
  | .ffractF32 o => withLiteral (0x3C0007C8 + bitsOpU o) o.c o.lit
  | .fclassF32 o => withLiteral (0x3C0007CA + bitsOpU o) o.c o.lit
  | .fsatF32 o => withLiteral (0x3C0007CC + bitsOpU o) o.c o.lit
  | .fexpoF32 o => withLiteral (0x3C0007CE + bitsOpU o) o.c o.lit
  | .cvt o => withLiteral (0x40000000 + bitsOpCvt o) o.c o.lit
  | .cvtpX2bf16F32 o => withLiteral (0x44000000 + bitsOpF o) o.c o.lit
  | .cvtpX2f16F32 o => withLiteral (0x44000002 + bitsOpF o) o.c o.lit
  | .cvtpX4e4m3F32 o => withLiteral (0x44000004 + bitsOpF o) o.c o.lit
  | .cvtpX4e5m2F32 o => withLiteral (0x44000006 + bitsOpF o) o.c o.lit
  | .cvtpX8e2m1X4e4m3 o => withLiteral (0x44000008 + bitsOpF o) o.c o.lit
  | .mxqE4m3 o => withLiteral (0x4400000A + bitsOpF o) o.c o.lit
  | .mxqE5m2 o => withLiteral (0x4400000C + bitsOpF o) o.c o.lit
  | .mxqE2m1 o => withLiteral (0x4400000E + bitsOpF o) o.c o.lit
  | .dp4X4i8 o => withLiteral (0x48000000 + bitsOpF o) o.c o.lit
  | .dp4X4e4m3 o => withLiteral (0x48000002 + bitsOpF o) o.c o.lit
  | .dp4X4e5m2 o => withLiteral (0x48000004 + bitsOpF o) o.c o.lit
  | .dp8X8i4 o => withLiteral (0x48000006 + bitsOpF o) o.c o.lit
  | .dp8X8e2m1 o => withLiteral (0x48000008 + bitsOpF o) o.c o.lit
  | .dp2X2bf16 o => withLiteral (0x4800000A + bitsOpF o) o.c o.lit
  | .dp2X2f16 o => withLiteral (0x4800000C + bitsOpF o) o.c o.lit
  | .fscaleF32 o => withLiteral (0x4800000E + bitsOpF o) o.c o.lit
  | .xget o => withLiteral (0x4C000000 + bitsOpF o) o.c o.lit
  | .xlow o => withLiteral (0x4C000002 + bitsOpF o) o.c o.lit
  | .xhigh o => withLiteral (0x4C000004 + bitsOpF o) o.c o.lit
  | .xflip o => withLiteral (0x4C000006 + bitsOpF o) o.c o.lit
  | .gbcast o => withLiteral (0x4C000008 + bitsOpA o) o.c o.lit
  | .pmask o => withLiteral (0x4C0007CA + bitsOpPm o) o.c o.lit
  | .eqset o => withLiteral (0x4C00000C + bitsOpF o) o.c o.lit
  | .gfirst o => withLiteral (0x4C03E7CE + bitsOpGf o) o.c o.lit
  | .gredAddI32 o => withLiteral (0x50000000 + bitsOpGr o) o.c o.lit
  | .gredMinI32 o => withLiteral (0x50000002 + bitsOpGr o) o.c o.lit
  | .gredMaxI32 o => withLiteral (0x50000004 + bitsOpGr o) o.c o.lit
  | .gredAndB32 o => withLiteral (0x50000006 + bitsOpGr o) o.c o.lit
  | .gredOrB32 o => withLiteral (0x50000008 + bitsOpGr o) o.c o.lit
  | .gredAddF32 o => withLiteral (0x5000000A + bitsOpGr o) o.c o.lit
  | .gscanAddI32 o => withLiteral (0x5000000C + bitsOpGr o) o.c o.lit
  | .gscanAddF32 o => withLiteral (0x5000000E + bitsOpGr o) o.c o.lit
  | .br o => withLiteral (0x54000000 + bitsOpBr o) o.c o.lit
  | .call o => withLiteral (0x58000000 + bitsOpBr o) o.c o.lit
  | .nop o => withLiteral (0x5C000000 + bitsOpK o) o.c o.lit
  | .exit o => withLiteral (0x5C040000 + bitsOpK o) o.c o.lit
  | .ret o => withLiteral (0x5C080000 + bitsOpK o) o.c o.lit
  | .brx o => withLiteral (0x5C0C0000 + bitsOpX o) o.c o.lit
  | .callx o => withLiteral (0x5C100000 + bitsOpX o) o.c o.lit
  | .lpush o => withLiteral (0x5C140000 + bitsOpLp o) o.c o.lit
  | .lbrk o => withLiteral (0x5C180000 + bitsOpK o) o.c o.lit
  | .trapW o => withLiteral (0x5C1C0000 + bitsOpCode o) o.c o.lit
  | .bkpt o => withLiteral (0x5C200000 + bitsOpCode o) o.c o.lit
  | .rti o => withLiteral (0x5C240000 + bitsOpK o) o.c o.lit
  | .gmark o => withLiteral (0x5C280000 + bitsOpK o) o.c o.lit
  | .gtest o => withLiteral (0x5C2C0000 + bitsOpUxp o) o.c o.lit
  | .gaccept o => withLiteral (0x5C300000 + bitsOpUx o) o.c o.lit
  | .gdemand o => withLiteral (0x5C340000 + bitsOpUx o) o.c o.lit
  | .dead o => withLiteral (0x5C400000 + bitsOpDead o) o.c o.lit
  | .jmark o => withLiteral (0x60000000 + bitsOpJ o) o.c o.lit
  | .jwait o => withLiteral (0x60040000 + bitsOpJ o) o.c o.lit
  | .jclr o => withLiteral (0x60080000 + bitsOpJ o) o.c o.lit
  | .vany o => withLiteral (0x60100000 + bitsOpVote o) o.c o.lit
  | .vall o => withLiteral (0x60140000 + bitsOpVote o) o.c o.lit
  | .vsame o => withLiteral (0x60180000 + bitsOpVote o) o.c o.lit
  | .barTm o => withLiteral (0x60200000 + bitsOpBar o) o.c o.lit
  | .barCl o => withLiteral (0x60240000 + bitsOpBar o) o.c o.lit
  | .barGd o => withLiteral (0x60280000 + bitsOpK o) o.c o.lit
  | .bararrTm o => withLiteral (0x60300000 + bitsOpBar o) o.c o.lit
  | .bararrCl o => withLiteral (0x60340000 + bitsOpBar o) o.c o.lit
  | .barwtTm o => withLiteral (0x60380000 + bitsOpBar o) o.c o.lit
  | .barwtCl o => withLiteral (0x603C0000 + bitsOpBar o) o.c o.lit
  | .smovRd o => withLiteral (0x64000000 + bitsOpSm o) o.c o.lit
  | .smovWr o => withLiteral (0x66040000 + bitsOpSw o) o.c o.lit
  | .smovV o => withLiteral (0x64080000 + bitsOpSw o) o.c o.lit
  | .sysr o => withLiteral (0x64100000 + bitsOpSys o) o.c o.lit
  | .sysw o => withLiteral (0x64140000 + bitsOpSys o) o.c o.lit
  | .tsr o => withLiteral (0x64180000 + bitsOpUx o) o.c o.lit
  | .cyc o => withLiteral (0x641C0000 + bitsOpUx o) o.c o.lit
  | .fflg o => withLiteral (0x64200000 + bitsOpX o) o.c o.lit
  | .fclr o => withLiteral (0x64240000 + bitsOpFc o) o.c o.lit
  | .slp o => withLiteral (0x64280000 + bitsOpX o) o.c o.lit
  | .idr o => withLiteral (0x64300000 + bitsOpIdr o) o.c o.lit
  | .fence o => withLiteral (0x64400000 + bitsOpFen o) o.c o.lit
  | .vspill o => withLiteral (0x64440000 + bitsOpSpl o) o.c o.lit
  | .vfill o => withLiteral (0x64480000 + bitsOpSpl o) o.c o.lit
  | .vgrow o => withLiteral (0x644C0000 + bitsOpWin o) o.c o.lit
  | .vshrink o => withLiteral (0x64500000 + bitsOpWin o) o.c o.lit
  | .load o => withLiteral (0x68000000 + bitsOpLd o) o.c o.lit
  | .uniformLoad o => withLiteral (0x6A000000 + bitsOpLd o) o.c o.lit
  | .prefetch o => withLiteral (0x68000001 + bitsOpPf o) o.c o.lit
  | .store o => withLiteral (0x6C000000 + bitsOpSt o) o.c o.lit
  | .uniformStore o => withLiteral (0x6E000000 + bitsOpSt o) o.c o.lit
  | .atomic o => withLiteral (28 * 2 ^ 26 + o.d.toNat * 2 ^ 18 + o.a.toNat * 2 ^ 11 + o.o.toNat * 2 ^ 6 + o.s.toNat * 2 ^ 4 + o.t.toNat * 2) o.c
      (some (BitVec.ofNat 26 (o.x.toNat * 2 ^ 19 + o.i.toNat)))
  | .reduction o => withLiteral (28 * 2 ^ 26 + o.a.toNat * 2 ^ 11 + o.o.toNat * 2 ^ 6 + o.s.toNat * 2 ^ 4 + o.t.toNat * 2 + 1) o.c
      (some (BitVec.ofNat 26 (o.x.toNat * 2 ^ 19 + o.i.toNat)))
  | .mma o => withLiteral (0x74000000 + bitsOpMma o) o.c o.lit
  | .mmaMx o => withLiteral (29 * 2 ^ 26 + (8 + o.f.toNat) * 2 ^ 21 + o.t.toNat * 2 ^ 18 + o.a.toNat * 2 ^ 11 + o.b.toNat * 2 ^ 4) o.c
      (some (BitVec.ofNat 26 (o.x.toNat * 2 ^ 19 + o.y.toNat * 2 ^ 12)))
  | .mmsrBf16 o => withLiteral (0x75A00000 + bitsOpMs o) o.c o.lit
  | .flkrd o => withLiteral (0x75C00000 + bitsOpFlk o) o.c o.lit
  | .fidrd o => withLiteral (0x75E00000 + bitsOpFid o) o.c o.lit
  | .ard o => withLiteral (0x78000000 + bitsOpArd o) o.c o.lit
  | .ast o => withLiteral (0x78200000 + bitsOpAst o) o.c o.lit
  | .azero o => withLiteral (0x78400000 + bitsOpT o) o.c o.lit
  | .arel o => withLiteral (0x78600000 + bitsOpT o) o.c o.lit
  | .xkick o => withLiteral (0x78800000 + bitsOpXk o) o.c o.lit
  | .owait o => withLiteral (0x78A00000 + bitsOpOw o) o.c o.lit
  | .bobjInit o => withLiteral (0x78C00000 + bitsOpBi o) o.c o.lit
  | .bobjArrive o => withLiteral (0x78E00000 + bitsOpBa o) o.c o.lit
  | .bobjWait o => withLiteral (0x79000000 + bitsOpXy o) o.c o.lit
  | .mcfree o => withLiteral (0x79200000 + bitsOpMc o) o.c o.lit
  | .tqpush o => withLiteral (0x79400000 + bitsOpTq o) o.c o.lit
  | .tqtokRel o => withLiteral (0x79600000 + bitsOpUx o) o.c o.lit
  | .tqtokAcq o => withLiteral (0x79600400 + bitsOpTa o) o.c o.lit
  | .cbset o => withLiteral (0x79800000 + bitsOpCs o) o.c o.lit
  | .cbwait o => withLiteral (0x79A00000 + bitsOpCw o) o.c o.lit
  | .loadDeadline _ _ => []
  | .loadDataArrival _ _ => []
  | .certainty _ _ => []
  | .waitingStepIssue _ _ => []
  | .selectorChoice _ _ => []
  | .blockPriorityRead _ _ _ => []
  | .entryPromotion _ _ _ => []
  | .groupDemotion _ _ => []
  | .liveBitClear _ _ _ => []
  | .groupSwapOut _ => []
  | .swapOutComplete _ _ => []
  | .groupSwapIn _ _ => []
  | .compaction _ => []
  | .compactionComplete _ => []
  | .controlInterval _ => []
  | .schedulerDecision _ => []
  | .argumentRead _ _ _ => []
  | .barrierRelease _ _ => []
  | .writePerformed _ _ => []
  | .atomicResult _ _ => []
  | .flushMarkerArrival _ _ _ _ => []
  | .flushReportArrival _ _ _ => []
  | .translationWalk _ _ _ => []
  | .dsplitWrite _ _ => []
  | .dsplitApply _ => []
  | .dsplitBusyClear _ => []
  | .stackLowPowerEntry _ => []
  | .stackWake _ => []
  | .matrixWordTake _ _ => []
  | .matrixUpdateComplete _ => []
  | .tileEviction _ => []
  | .tileReturn _ _ => []
  | .railLoopWindow _ => []
  | .copyStart _ _ => []
  | .copyBurst _ _ _ _ => []
  | .copyRetire _ _ => []
  | .tqpushTimeout _ _ => []
  | .cbwaitPoll _ _ => []
  | .sleepExpiry _ _ => []
  | .queueEntryTake _ => []
  | .hostQueueDoorbell _ _ _ => []
  | .stealRequest _ _ => []
  | .stealRetry _ => []
  | .droopAlarm _ => []
  | .stretchEnd _ => []
  | .halvedIssueEnd _ => []
  | .thermalTrip _ _ => []
  | .collectiveCapRequest _ _ => []
  | .throttleMemberSilence _ => []
  | .rampFill _ _ => []
  | .activationWindowAdjust _ _ => []
  | .refreshDerate _ _ => []
  | .registerWrite _ _ _ => []
  | .preqGo _ _ => []
  | .exchangeFillComplete _ => []
  | .exchangeSwap _ => []
  | .exchangeSpillComplete _ => []
  | .trapEntry _ _ => []
  | .watchdog _ _ => []
  | .mirrorCompare _ _ _ => []
  | .mirrorWindowTimeout _ _ _ => []
  | .uncorrectableError _ => []
  | .bridgeStop _ => []
  | .linkNarrow _ => []
  | .linkWiden _ => []
  | .linkRecovery _ => []
  | .linkDown _ => []
  | .linkRecovered _ _ => []
  | .peerRecoveringReport _ => []
  | .peerRequest _ => []
  | .routerGate _ _ => []
  | .routerWakeSignal _ _ => []
  | .routerAwake _ _ => []
  | .escapeDiversion _ => []
  | .packetRoute _ _ => []
  | .cmdNop _ => []
  | .regwr _ => []
  | .regrd _ => []
  | .memwr _ => []
  | .memrd _ => []
  | .qcfg _ => []
  | .keyld _ => []
  | .keyclr _ => []
  | .tinv _ => []
  | .feat _ => []
  | .peercfg _ => []
  | .coll _ => []
  | .collectiveComplete _ _ _ => []
  | .fans _ => []
  | .endl _ => []
  | .reset _ _ => []
  | .ctailDoorbell _ _ => []
  | .eackWrite _ _ => []
  | .channelRingConfigWrite _ _ => []
  | .bar2Access _ _ _ _ => []
  | .msixInterrupt => []
  | .channelDatagram _ => []
  | .entryResend _ _ => []
  | .deviceStart _ => []
  | .tokenBucketRefill _ => []

end Sys2Proof
end

