-- ==== Sys2Proof/Config.lean ====
section
/-! DEFINITION. What the part fixes, and the values that the manual leaves free. A free value is an opaque constant: nothing can be proved of it, so a claim holds whatever it is (notes/assumptions 4 to 8). -/

namespace Sys2Proof.Config

/-- Cores of a die (R2). -/
def coresPerDie : Nat := 160
/-- Compute dies of the device (R2). -/
def dies : Nat := 4
/-- Group slots of a core (R164). -/
def slots : Nat := 64
/-- Threads of a group (R164). -/
def lanes : Nat := 32
/-- Accumulator slots of a core (R289). -/
def accSlots : Nat := 32
/-- Register granules of a core (R187). -/
def granules : Nat := 192
/-- TSM granules of 256 bytes of a core (R188). -/
def tsmGranules : Nat := 1024
/-- Value-history entries of a core (R19). -/
def historySize : Nat := 2048
/-- Late-arrival entries of a core (R27). -/
def lateSize : Nat := 512
/-- Translation-cache entries of a core (R225). -/
def tlbSize : Nat := 2048

/-- The 512 bits of the n-th key drawn from the device's random source, for slot 0 (R417; log entry 5). -/
opaque drawnKey : Nat → Nat
/-- The owner key-encryption key of the configuration image, byte 0 lowest (R417; log entry 6). -/
opaque ownerKey : Nat
/-- The channel key of a front port in the configuration image in force at the first start, byte 0 lowest (R420, R423; log entry 6). -/
opaque channelKey : Nat → Nat
/-- Which of the packets that a launch can find at one place of its code a fetch finds, by the number of the choice (R87; log entry 52). -/
opaque fetchChoice : Nat → Nat
/-- What a byte of TSM holds when its team starts, by its location (R210; log entry 1). -/
opaque tsmByte : Nat → Byte
/-- What a byte of a peer device's memory holds at a time, by timestamp and physical address (R219; log entry 16). -/
opaque peerByte : Nat → Nat → Byte
/-- Word i of the digest of the device identity (R423; log entry 6). -/
opaque identity : Nat → Word
/-- A choice among the f32 values that the bound of a special function allows: the function's number and its operand (R154; log entry 7). -/
opaque approx : Nat → Word → Nat
/-- The low bits of an erring product at fidelity F1 to F3: the number of the product (R296; log entry 8). -/
opaque flicker : Nat → Nat
/-- Whether replacement has kept a line that was brought into a cache, by the number of the choice (R430; log entry 4). -/
opaque kept : Nat → Bool
/-- Whether a copy or a collective under way has flits in a peer link at the moment at which the link goes DOWN, by the number of the choice (R407, R411; log entry 35). -/
opaque inFlight : Nat → Bool
/-- The output of a collective that meets a DOWN link, element by element (R411; log entry 4). -/
opaque undefinedWord : Nat → Word
/-- The rail floor of a level in mV, which the configuration image sets (R300; log entry 12). -/
opaque railFloor : Nat → Nat
/-- The nominal rail in mV, a figure that the manual does not give (R300, R325; log entry 12). -/
opaque nominalRail : Nat
/-- The device's random source for mirroring: whether draw n, made with exponent K, selects a team (R387; log entry 4). -/
opaque mirrorDraw : Nat → Nat → Bool
/-- The hottest junction of a tile cluster in units of 0.125 °C, as its sensor reads at a timestamp (R361; log entry 4). -/
opaque junction : Nat → Nat → BitVec 16
/-- The energy of a launch in units of 1 µJ, which the device measures (R354; log entry 4). -/
opaque measuredEnergy : Nat → Word
/-- The physical address of the L0 table under which PSB's virtual address translates, which the manual does not name (R360, R361; log entry 17). -/
opaque statusRoot : Nat

/-- The packet at which the control firmware's own handler begins, which the manual does not name (R421; log entry 19). -/
opaque firmwareHandler : Nat

end Sys2Proof.Config
end

