-- ==== Sys2Proof/Machine/State.lean ====
section
/-! DEFINITION. The state of the machine, as plain data, and the state right after reset. -/

namespace Sys2Proof.Machine

/-- A table keyed by number. An unlisted key reads as the table's default. -/
abbrev Tab (α : Type) := List (Nat × α)

/-- Why the machine stops with a fault: nowhere. The spec gives every case an effect: a device that a failed bridge or a failed start has stopped accepts no launch, and its time passes until it is restarted (R404, R422). -/
inductive Fault where
deriving DecidableEq, Repr

/-- Why an instruction has no meaning. -/
inductive Refusal where
  /-- An instruction rejected by name: raised by Dispatch for an arm without a meaning. Safe: nothing is claimed of it. -/
  | notModelled (mnemonic : String)
deriving DecidableEq, Repr

/-- The pipes of a selector (R45). -/
inductive Pipe where
  | i | f | s | m | none
deriving DecidableEq, Repr

/-- A value with its penumbra bit: a scalar register, a latch (R8, R39). -/
structure Reg where
  val : Word
  pen : Bool
deriving DecidableEq, Repr

/-- A thread register with its penumbra bit and its dead mark (R8, R43). -/
structure VReg where
  val : Word
  pen : Bool
  dead : Bool
deriving DecidableEq, Repr

/-- A predicate with its penumbra bit (R8). -/
structure PReg where
  val : Bool
  pen : Bool
deriving DecidableEq, Repr

/-- An entry of a loop stack (R8, R135). -/
structure Loop where
  start : Word
  stop : Word
  count : BitVec 24
deriving DecidableEq, Repr

/-- The trap state registers of a thread (R373). -/
structure TrapRegs where
  cause : Word
  pc : Word
  stat : Word
  addr : Dword
  ts : Dword
  lnk : Word
  gst : Word
deriving DecidableEq, Repr

/-- What trap entry saves and rti restores (R374, R379). -/
structure Saved where
  loops : List Loop
  rpc : Word
  rpv : Bool
  rpl : Bool
deriving DecidableEq, Repr

/-- One thread (R8). Unlisted v registers read 0, live and without penumbra; unlisted predicates are false, and p0 is true. ringI and ringF are its latch rings, newest first; xfer is the target of a transfer taken in the packet under way; posted lists the dies that received posted writes since its last release; sig, sigCount and windows (each with the time it closed) are its mirror stream, compared the number of its windows that have been compared, and mates how many of its words have passed a result between a primary and its mirror (R389). acq is the number of the latest token that it has obtained (R264). -/
structure Thread where
  v : Tab VReg
  p : Tab PReg
  loops : List Loop
  lnk : Word
  rpc : Word
  rpv : Bool
  snapLoops : List Loop
  snapLnk : Word
  cg : Bool
  rf : Bool
  rpl : Bool
  flg : BitVec 5
  fpen : Bool
  trap : TrapRegs
  saved : Saved
  ringI : List Reg
  ringF : List Reg
  xfer : Option Word
  arrTm : BitVec 16
  arrCl : BitVec 16
  arrGd : Bool
  sleep : Option Nat
  posted : List Nat
  sig : Dword
  sigCount : Nat
  windows : List (Dword × Nat)
  compared : Nat
  mates : Nat
  acq : Nat
  ended : Bool
  stopped : Bool
deriving DecidableEq, Repr

/-- A thread at group start: the initial values of R8. -/
def Thread.start : Thread :=
  { v := [], p := [], loops := [], lnk := 0xFFFFFFFF, rpc := 0, rpv := false, snapLoops := [], snapLnk := 0,
    cg := false, rf := false, rpl := false, flg := 0, fpen := false,
    trap := ⟨0, 0, 0, 0, 0, 0, 0⟩, saved := ⟨[], 0, false, false⟩,
    ringI := [], ringF := [], xfer := none, arrTm := 0, arrCl := 0, arrGd := false, sleep := none,
    posted := [], sig := 0, sigCount := 0, windows := [], compared := 0, mates := 0, acq := 0, ended := false, stopped := false }

/-- A frontier entry (R168). cyc is CYC of its core at its creation (R184), and joined that at which the last thread joined it (R169, R396); ready says that its priority has been read (R428); fid is the fault its read is held at. -/
structure FEntry where
  start : Word
  prio : Nat
  wait : Word
  age : Nat
  cyc : Nat
  joined : Nat
  promoted : Bool
  ready : Bool
  fid : Option Nat
deriving DecidableEq, Repr

/-- A parked sub-group: its threads and its own frontier (R375). -/
structure Sub where
  members : Word
  frontier : List FEntry
deriving DecidableEq, Repr

/-- An operation counted by a group's outstanding-operation counter: its class (0 LD, 1 CP, 2 MX, 3 XC), a number, and whether it has finished (R267). -/
structure GOp where
  cls : Nat
  num : Nat
  done : Bool
deriving DecidableEq, Repr

/-- Where a group's window lies: in the live-value store, being written out, or swapped out (R189). -/
inductive Swap where
  | resident | leaving | out
deriving DecidableEq, Repr

/-- A tile's place: a slot of the accumulator memory, or evicted to a record of the save area (R280, R291). -/
inductive TilePlace where
  | slot (n : Nat)
  | evicted (n : Nat)
deriving DecidableEq, Repr

/-- A mapped tile: its place, its cells by 64 × row + column, and its row guess flags and fresh bits (R280, R286, R292). -/
structure Tile where
  place : TilePlace
  cells : Tab Word
  rg : Word
  fresh : Word
deriving DecidableEq, Repr

/-- One group (R164): its number in the device (the model's own), its launch, team and number; scalar registers; rejoin masks and arrival vectors (R201); frontier and spilled entries; parked sub-groups; window in registers and its first granule, if it holds one (R187); LVSMODE; operations outstanding; spin detector (R185); the time from which its watchdog count runs, the ns of it that do not count, since when it is swapped out or pre-empted, and whether the watchdog has fired since it last issued (R386); swap; faults that park it (R226); compaction; arguments still to read (R345); tile map; threads; start packet. -/
structure Group where
  uid : Nat
  lseq : Nat
  team : Nat
  gnum : Nat
  s : Tab Reg
  jm : Tab Word
  ja : Tab Word
  frontier : List FEntry
  spilled : List FEntry
  subs : Tab Sub
  nextSub : Nat
  win : Nat
  base : Option Nat
  lvs : Word
  ops : List GOp
  streak : Nat
  spinPc : Word
  spinDisp : Word
  demoted : Bool
  dog : Nat
  dogOff : Nat
  dogStop : Option Nat
  bitten : Bool
  swap : Swap
  faults : List Nat
  moving : Bool
  argsLeft : List Nat
  argFailed : Option Dword
  tiles : Tab Tile
  threads : List Thread
deriving DecidableEq, Repr

/-- Threads of one group that a bundle carries (R172, R177). -/
structure Part where
  slot : Nat
  mask : Word
deriving DecidableEq, Repr

/-- A register that a step waits for: its group slot, its thread (none for an s register), and its number; predicates count from 1000 (R15). -/
structure RegRef where
  slot : Nat
  thr : Option Nat
  reg : Nat
deriving DecidableEq, Repr

/-- What a held step waits for (R178): register writes; guesses of threads, by slot, to resolve; the data of demanded loads; a thread's loads; room, each need with its resource (0 to 3 a group's counter of that class, 4 the core's copy places, 5 the matrix queue of a selector), group slot and amount; a rejoin mask; the phase of a barrier (0 team, 1 cluster, 2 grid) that its arrival belongs to, before arriving or after; barrier objects, each with the parity that keeps a thread of a slot waiting; a bitmap bit; the end of slp; a larger window; room in device queues, with the rank of each push among the waiting ones, until a time (R332); an operation counter; translation; a fault's answer; a fence or release. -/
inductive Wait where
  | reg (rs : List RegRef)
  | certainty (ts : List (Nat × Nat))
  | demand (loads : List Nat)
  | loads
  | queue (needs : List (Nat × Nat × Nat))
  | jwait (k : Nat)
  | arrive (kind n : Nat)
  | barrier (kind n : Nat)
  | bobj (ws : List (Nat × Bool × Nat × Nat))
  | cbwait
  | slp
  | vgrow (w : Nat)
  | tqpush (ws : List (Nat × Nat)) (until' : Option Nat)
  | owait (cls n : Nat)
  | walk
  | fence (rs : List Nat)
deriving DecidableEq, Repr

/-- A trap that a word raises in a thread: cause, INFO, address, and the word's position (R372 to R374). -/
structure Trap where
  cause : Nat
  info : Nat
  addr : Dword
  pos : Nat
deriving DecidableEq, Repr

/-- A piece of an access within one page: location, bytes, home die, the key value of its page, page kind (0 RC, 1 SO, 2 UN), alias kind, snapshot bits, and whether it lies on a peer device (R209 to R219, R224, R234). -/
structure Piece where
  loc : Nat
  n : Nat
  die : Nat
  key : Option Nat
  kind : Nat
  mx : Nat
  sx : Bool
  cw : Bool
  peer : Bool
deriving DecidableEq, Repr

/-- What a request in the load list is: a load; a vfill of a register in the threads of its po; an atomic with its operation and operand; a token acquire that writes a predicate (R237, R248, R255, R333). -/
inductive ReqKind where
  | load
  | fill
  | atomic (op : Nat) (v : Nat)
  | token (p : Nat)
deriving DecidableEq, Repr

/-- A load, atomic or token request outstanding (R15, R18, R20): its group and thread (none for a uniform load), the threads in whose program order it lies (R262), packet and position, kind, destination registers (s registers when thr is none), type, address, pieces, predictor, issue time and deadline, penumbra of the address, the value of each piece read at its home so far, the guess installed, the destinations that still hold it, whether it has written its registers, whether it is detached, its counted operation, and its place among its thread's words that a mirror pair shares (R389). own is its group's uid; came holds data that have arrived while a gdemand of it waits, until that installs them (R29). -/
structure Load where
  num : Nat
  own : Nat
  slot : Nat
  thr : Option Nat
  po : Word
  pc : Word
  pos : Nat
  kind : ReqKind
  dsts : List Nat
  ty : Nat
  ea : Dword
  pieces : List Piece
  cls : Nat
  pred : Nat
  issue : Nat
  deadline : Option Nat
  pen : Bool
  got : Tab Nat
  guess : Option Nat
  holds : List Nat
  written : Bool
  detached : Bool
  op : Option Nat
  mate : Nat
  came : Option Nat
deriving DecidableEq, Repr

/-- A write issued and not yet performed at its home (R274, R431): its group and thread, the threads in whose program order it lies (R262), order number, the pieces not yet performed and their data (little-endian), the atomic operation of a reduction, whether it follows every earlier write of its threads (R332), and the operation that counts it; held says that a mirror compare must release it, and window numbers the window of its thread's stream that holds it (R389); begun says that some of its units have been performed (R87). -/
structure Write where
  num : Nat
  own : Nat
  slot : Nat
  thr : Option Nat
  po : Word
  lseq : Nat
  pieces : List Piece
  data : Nat
  rmw : Option Nat
  rel : Bool
  ty : Nat
  op : Option Nat
  held : Bool
  window : Nat
  begun : Bool
deriving DecidableEq, Repr

/-- A release under way (R275): the writes it waits for, and for each other die the paths, as bits, down which a marker has still to arrive, and whether its report has arrived. -/
structure Release where
  num : Nat
  own : Nat
  slot : Nat
  thr : Nat
  writes : List Nat
  markers : List (Nat × Nat)
  reports : List Nat
deriving DecidableEq, Repr

/-- A translation-cache entry: root, page start and size, and the leaf (R225). -/
structure TlbEntry where
  root : Nat
  va : Nat
  size : Nat
  leaf : Nat
deriving DecidableEq, Repr

/-- A walk under way or held at a fault: the time it began, root, address, the EA of the access that asked for it and its packet, access kind (R227), the group slot (255 none), thread, launch, and fault number once it has faulted, whether its answer was fatal, and for an access that faults silently (a guessed address or a prefetch) that it is one and that it has failed (R21, R226, R251). -/
structure Walk where
  num : Nat
  since : Nat
  own : Nat
  root : Nat
  va : Nat
  ea : Nat
  pc : Word
  access : Nat
  slot : Nat
  thr : Option Nat
  lseq : Nat
  fid : Option Nat
  fatal : Bool
  spec : Bool
  failed : Bool
deriving DecidableEq, Repr

/-- A value-history entry: its tag, and the last true values, newest first (R19). -/
structure Hist where
  pc : Word
  pos : Nat
  slot : Nat
  thr : Option Nat
  vals : List Nat
deriving DecidableEq, Repr

/-- A late-arrival entry (R27): own is the number of its thread's group. -/
structure Late where
  own : Nat
  thr : Option Nat
  pc : Word
  pos : Nat
  ea : Dword
  val : Nat
deriving DecidableEq, Repr

/-- A matrix-engine word in a selector's queue, with the operands it read at issue: A fragments and scales by row, B fragments and scales by thread (R282, R285). -/
inductive MOp where
  | update (sr : Option Nat) (fmt : Nat) (mx : Bool) (rows : Word) (a b : List (List Word)) (xa xb : List Word) (rg : Word)
  | ard (cv g : Nat) (rows : Word) (dsts : List Nat)
  | ast (cv g : Nat) (ts : List (Nat × List Piece))
  | azero
  | arel
deriving DecidableEq, Repr

/-- A queued matrix-engine word: its group, tile, operation and counted operations, one for an update and one for each thread of an ast. -/
structure MWord where
  own : Nat
  slot : Nat
  tile : Nat
  what : MOp
  ops : List Nat
deriving DecidableEq, Repr

/-- A copy request in flight (R302 to R309): number, group, thread, record offset and its 31 bytes, earlier writes it waits for, whether it has started, bytes not yet moved, the group id, status bits NR and ERR, and the fault that holds it; in a mirror pair the window of its thread that must have been compared, and whether it is a mirror's, which its primary's copy retires (R389). -/
structure Copy where
  num : Nat
  own : Nat
  slot : Nat
  thr : Nat
  team : Nat
  off : Nat
  bytes : Nat
  after : List Nat
  started : Bool
  left : List (Nat × Nat)
  nr : Bool
  err : Bool
  fid : Option Nat
  gate : Option Nat
  ghost : Bool
  op : Nat
deriving DecidableEq, Repr

/-- One effect of a step on a thread, or on its group where the result names no thread, taken when the step's last word has issued (R11, R13): register, predicate and latch writes; flags; transfers, links and loops; guess and trap state; rejoin and arrival bits; the mirror stream; and the mark of a word whose replay is its whole group's, with whether every present thread can replay (R245). -/
inductive Eff where
  | certain
  | unreplay
  | wv (d : Nat) (val : Word) (pen : Bool)
  | ws (d : Nat) (val : Word) (pen : Bool)
  | wp (p : Nat) (val pen : Bool)
  | push (pipe : Pipe) (val : Word) (pen : Bool)
  | flags (fl : BitVec 5) (pen : Bool)
  | clearFlags (m : BitVec 5)
  | goto (t : Word)
  | link (t : Word)
  | setCg
  | pushLoop (l : Loop)
  | popLoop
  | keepLoops (t : Word)
  | markDead (d : Nat)
  | clearPen (d : Nat)
  | clearPenS (d : Nat)
  | clearRpv
  | mark (pc : Word)
  | setLnk (val : Word)
  | setRes (val : Word)
  | setLvs (val : Word)
  | jmark (k : Nat) (m : Word)
  | jclr (k : Nat) (m : Word)
  | jarrive (k : Nat) (m : Word)
  | arrive (kind n : Nat)
  | sleep (t : Option Nat)
  | item (v : Nat)
  | closeWindow
  | mated
  | joint (all : Bool)
deriving DecidableEq, Repr

/-- One action of a step on the machine beyond its threads' own state, taken after the threads' effects, in thread order: requests, writes, matrix words and copies handed over; late-arrival entries consumed; the end or return of a thread; guesses accepted, and demanded data installed; a spin step; barrier objects, group ids, queues, tokens and bitmaps; prefetches; window changes; barrier and rejoin checks; what the bundle waits for after the step; translation faults consumed; results passed to a mirror, or taken from its primary (R389); a register that a control core writes (R421); lines that a read brings in (R216); and a wait of the step, whose other threads hand over their requests meanwhile (R305, R332). -/
inductive Act where
  | req (l : Load)
  | write (w : Write)
  | mword (sel : Nat) (m : MWord)
  | kick (c : Copy)
  | dropLate (pc : Word) (pos ea : Nat)
  | exit
  | rti (lo : Nat)
  | accept (d : Nat)
  | install (num : Nat)
  | spin (disp : Word)
  | bobjInit (loc : Nat) (y z : Nat)
  | bobjArrive (loc : Nat) (d : Option Nat)
  | mcfree (x : Nat)
  | push (queue prio flags hdr : Nat)
  | cbset
  | producer (base : Nat)
  | prefetch (p : Option Piece)
  | window (w : Nat)
  | barrier (kind n : Nat)
  | joinCheck (k : Nat)
  | park (w : Wait)
  | useWalk (num : Nat)
  | mate (key val : Nat)
  | unlog (key : Nat)
  | refuted (l : Load)
  | register (number val : Nat)
  | bring (ps : List Piece)
  | stall (w : Wait) (parked : Bool)
deriving DecidableEq, Repr

/-- What a step does in one thread: its effects in order, its actions, the trap it takes, or its replay (R13, R26). thr is none for the once-per-group effects of a U = 1 or group-wide word. -/
structure Res where
  slot : Nat
  thr : Option Nat
  effs : List Eff
  acts : List Act
  trap : Option Trap
  replay : Bool
deriving DecidableEq, Repr

/-- The three words of a fetched packet (R30). -/
structure Pkt where
  w0 : Nat
  w1 : Nat
  w2 : Nat
deriving DecidableEq, Repr

/-- An open bundle (R172, R173): its threads; the sub-group it belongs to; block start, packet and word position; first word of the step under way; priority, age and promotion; the fetched packet; what it waits for, since when, and whether it is parked (R175); whether the word at its position has issued; results of the words of the chain so far, how many each word has given by its position, and, where a word of the chain has had to wait after earlier ones had handed their accesses over (kept), the results of the words after it (R11, R262); their pipes and destinations; stage of a word that acts in stages, and the threads that have done their part; whether its held step names a latch (R179), whether a word of the chain is group-wide (R194) or runs once for its group (R111); the threads that have left the step to trap once it has issued (R111); whether the packet under way goes on in this cycle (R174), or has its next step in the following one (R279); whether its selector is to choose anew (R178); whether the step under way has been held (R29); the pushes of that step that still wait for a slot, each with its queue and rank (R332); and the threads whose mirror window the step has closed (R389). -/
structure Bundle where
  parts : List Part
  sub : Option Nat
  start : Word
  pc : Word
  pos : Nat
  stepPos : Nat
  prio : Nat
  age : Nat
  promoted : Bool
  pkt : Option Pkt
  wait : Option Wait
  waitSince : Nat
  parked : Bool
  issued : Bool
  held : List Res
  segs : List (Nat × Nat)
  post : List (Nat × List Res)
  kept : Bool
  pipes : List Pipe
  dsts : List Nat
  stage : Nat
  since : Nat
  done : List Part
  pinned : Bool
  wide : Bool
  uni : Bool
  trapped : List (Nat × Nat × Trap)
  flow : Bool
  fresh : Bool
  yield : Bool
  tried : Bool
  pushes : List (Nat × Nat)
  shut : List Part
deriving DecidableEq, Repr

/-- A thread that has left its bundle to trap and cannot enter yet (R374, R376, R380). -/
structure Pending where
  num : Nat
  own : Nat
  slot : Nat
  sub : Option Nat
  mask : Word
  traps : Tab Trap
  pos : Nat
  pc : Word
deriving DecidableEq, Repr

/-- The context that changes banks at an exchange (R382): groups, open bundles, the running bundle of each selector, free accumulator slots and matrix queues with the update under way. -/
structure Ctx where
  groups : Tab Group
  bundles : Tab Bundle
  run0 : Option Nat
  run1 : Option Nat
  accFree : List Nat
  mq0 : List MWord
  mq1 : List MWord
  engine : Option MWord
deriving DecidableEq, Repr

/-- An empty context. -/
def Ctx.empty : Ctx :=
  { groups := [], bundles := [], run0 := none, run1 := none, accFree := List.range 32, mq0 := [], mq1 := [], engine := none }

/-- The phases of an exchange (R382). -/
inductive Exchange where
  | idle | fill | swap | spill
deriving DecidableEq, Repr

/-- One core. sp lists the rail setpoints by 4 × slice + level, and win the mismatches and checked MACs of the window by the same number, quiet the quiet windows, and winAt the start of the window (R300); live the live bits by cluster and rank (R395); packetAt the CYC count in which each selector last issued a packet (R174). -/
structure Core where
  ctx : Ctx
  saved : Ctx
  shadow : Ctx
  exch : Exchange
  loads : List Load
  writes : List Write
  releases : List Release
  hist : Tab Hist
  late : List Late
  tlb : List TlbEntry
  walks : List Walk
  copies : List Copy
  pend : List Pending
  chk : Nat
  sp : Tab Nat
  win : Tab (Nat × Nat)
  quiet : Tab Nat
  winAt : Nat
  live : Tab Word
  compacting : Bool
  packetAt : Tab Nat
  next : Nat
deriving DecidableEq, Repr

/-- A core at a start of the device. -/
def Core.start : Core :=
  { ctx := Ctx.empty, saved := Ctx.empty, shadow := Ctx.empty, exch := .idle, loads := [], writes := [], releases := [],
    hist := [], late := [], tlb := [], walks := [], copies := [], pend := [], chk := 0, sp := [], win := [], quiet := [], winAt := 0,
    live := [], compacting := false, packetAt := [], next := 0 }

/-- Whether a team is plain, the primary or the mirror of a pair (R387). -/
inductive Role where
  | plain | primary | mirror
deriving DecidableEq, Repr

/-- A team (R164): launch, index, core, cluster and rank, slots, flicker counters and checked MACs (R299, R325), whether it has ended, with CYC of each member's tile cluster at its end (R395), whether its completion bit is set, mirror role and partner, the values that its partner's words have returned, by the words' keys (R389), and the place of its record in the save area (R384). -/
structure Team where
  lseq : Nat
  idx : Nat
  core : Nat
  cluster : Nat
  rank : Nat
  slots : List Nat
  flk : Tab Word
  checked : Nat
  ended : Bool
  endCyc : Tab Nat
  bitSet : Bool
  role : Role
  mate : Nat
  log : List (Nat × Nat)
  place : Nat
deriving DecidableEq, Repr

/-- A group id of a cluster: open, or closing, with its binding and the requests named with it that have not retired (R308, R331). -/
structure Gid where
  team : Nat
  kind : Nat
  sel : Nat
  closing : Bool
  reqs : List Nat
  waiters : List (Nat × Nat × Nat)
deriving DecidableEq, Repr

/-- A cluster of teams: launch, member teams by rank, open group ids (R166, R308). -/
structure Cluster where
  lseq : Nat
  teams : List Nat
  gids : Tab Gid
deriving DecidableEq, Repr

/-- The task header's fields (R343). -/
structure Hdr where
  entry : Nat
  handler : Nat
  codebase : Nat
  bptab : Nat
  ptroot : Nat
  tx : Nat
  ty : Nat
  tz : Nat
  clw : Nat
  clh : Nat
  gx : Nat
  gy : Nat
  gz : Nat
  regs : Nat
  fid : Nat
  sregs : Nat
  tsm : Nat
  wlim : List Nat
  flags : Nat
  energy : Nat
  peakamp : Nat
  rsv4c : Nat
  cbmap : Nat
  spbase : Nat
  spwin : Nat
  wbase : List Nat
  svsize : Nat
  svbase : List Nat
  args : Nat
  crec : Nat
  rsv98 : Nat
deriving DecidableEq, Repr

/-- A launch (R341 to R354, R391 to R394): its queue, entry and root, TAG, PRIO, header copy, next team to deal and where to try first, teams admitted and ended, totals, first packet time, status, replays, producers, snapshotted pages (each with the serial number of its copying, its number and its contents), unprotected, completed, the fault its record write is held at, its bitmap writes held at faults, the time of its take (R350), and for each packet of its code what its fetches have found there (R87). -/
structure Launch where
  lseq : Nat
  queue : Nat
  hdrVa : Nat
  root : Nat
  tag : Nat
  prio : Nat
  hdr : Hdr
  dealt : Nat
  admitted : Nat
  endedTeams : Nat
  turn : Nat
  flk : Tab Word
  checked : Nat
  tstart : Option Nat
  status : Nat
  badoff : Nat
  replays : Nat
  producers : List Nat
  snap : List (Nat × Nat × List Host.Cell)
  unprotected : Bool
  completed : Bool
  heldCrec : Option Nat
  bitWrites : List (Nat × Nat)
  since : Nat
  code : Tab (List Pkt)
deriving DecidableEq, Repr

/-- A queue ring (R339, R340): host says that its base is a host bus address. -/
structure Queue where
  host : Bool
  base : Nat
  cap : Nat
  root : Nat
  head : Nat
  tail : Nat
  fid : Option Nat
deriving DecidableEq, Repr

/-- A task control block waiting at a scheduler: launch, team index, arrival time, and the core held for it, if it belongs to a cluster of several teams, when it was last shipped, and whether it is mirrored (R347, R353, R387). -/
structure Tcb where
  lseq : Nat
  idx : Nat
  arrived : Nat
  core : Option Nat
  shipped : Option Nat
  mirror : Bool
deriving DecidableEq, Repr

/-- A tile cluster: its clock's CYC; registers DRT, CAP and FEFF of FCAP, EBUD, IBUD, NOCB (R360, R402); budgets EB as set for the interval, IB, ER and committed current IC (R348); TCB queue; droop state (R358); tokens, CYC at their last gain, and the cores that wait for some, in turn (R402); status record SEQ and ADM (R361); ramp fill (R366); victims asked and the end of the steal wait (R353); CYC and the timestamp at the start of the interval, and the units of its status record still to be written, each with its offset, and since when (R361). stretch and halved hold the CYC counts at which stretching and halved issue end, stretchAt that of the first stretched period, and barred a period in which an older window forbade issue when an alarm came (R369). intAlarms counts alarms by interval (R359). mark and room are the timestamp of the last advance of CYC and the part of a period then left over, in MHz × ns (R371). -/
structure Tc where
  cyc : Nat
  drt : Word
  cap : Nat
  feff : Nat
  ebud : Nat
  ibud : Nat
  nocb : Word
  eb : Nat
  ib : Nat
  er : Nat
  ic : Nat
  queue : List Tcb
  alarms : Nat
  lastAlarm : Nat
  intAlarms : Tab Nat
  stretchAt : Nat
  stretch : Nat
  halved : Nat
  barred : Option Nat
  mark : Nat
  room : Nat
  tokens : Nat
  refilled : Nat
  turns : List Nat
  seq : Nat
  adm : Nat
  fill : Bool
  steal : List Nat
  stealAt : Option Nat
  cyc0 : Nat
  at0 : Nat
  out : List (Nat × Nat)
  outAt : Nat
deriving DecidableEq, Repr

/-- A tile cluster at a start: the reset values of R360 and R402. -/
def Tc.start : Tc :=
  { cyc := 0, drt := 0x0628, cap := 1750, feff := 1750, ebud := 34375, ibud := 300, nocb := 0x00080230, eb := 34375, ib := 300, er := 34375,
    ic := 0, queue := [], alarms := 0, lastAlarm := 0, intAlarms := [], stretchAt := 0, stretch := 0, halved := 0, barred := none, mark := 0, room := 0, tokens := 256, refilled := 0, turns := [], seq := 0,
    adm := 0, fill := false, steal := [], stealAt := none, cyc0 := 0, at0 := 0, out := [], outAt := 0 }

/-- Who waits at an unanswered fault (R226, R227). -/
inductive Waiter where
  | walk (core num : Nat)
  | entry (core own start : Nat)
  | spill (core own : Nat)
  | arg (core own i : Nat)
  | copy (core num : Nat)
  | header (queue lseq : Nat)
  | crec (lseq : Nat)
  | bitmap (lseq idx : Nat)
deriving DecidableEq, Repr

/-- An unanswered fault of a die (R227). -/
structure FaultRec where
  fid : Nat
  who : Waiter
  va : Nat
deriving DecidableEq, Repr

/-- A router: gated, the CYC count at which it is awake once signalled, and that of its last flit (R401). -/
structure Router where
  gated : Bool
  waking : Option Nat
  idle : Nat
deriving DecidableEq, Repr

/-- A die: DSPLIT (R214) with the size being applied; PREQ (R381); unanswered faults and the last fault number (R227); thermal cap, stop and hottest junction (R368), and the control intervals that have begun, and those in which its schedulers have decided (R348, R350); ACTW of its stacks (R360) their low-power modes, each with the earliest deadline queued when it began, and refresh policy (R221, R365); routers (R401), and the response buffers reserved at each (R398); lines present in the memory-side cache with their dirty bit, and the remote copy store (R216, R217). -/
structure Die where
  scr : Nat
  busy : Bool
  scrNext : Option Nat
  applied : Bool
  preqCore : Nat
  preqBusy : Bool
  faults : List FaultRec
  lastFid : Nat
  thermalCap : Nat
  stopped : Bool
  temp : Word
  interval : Nat
  decided : Nat
  actMax : Tab Nat
  actWin : Tab Nat
  lowPower : Tab (Option Nat)
  policy : Tab Nat
  routers : Tab Router
  reserved : Tab Nat
  cache : Tab Bool
  copies : Tab (List Byte)
deriving DecidableEq, Repr

/-- A die at a start: the reset values of R214, R360 and R381. -/
def Die.start : Die :=
  { scr := 8, busy := false, scrNext := none, applied := false, preqCore := 0, preqBusy := false, faults := [], lastFid := 0,
    thermalCap := 1750, stopped := false, temp := 0, interval := 0, decided := 0, actMax := [], actWin := [], lowPower := [], policy := [], routers := [], reserved := [],
    cache := [], copies := [] }

/-- The states of a peer link (R406). -/
inductive LinkState where
  | w4 | w2 | w1 | rcv | down
deriving DecidableEq, Repr

/-- A packet in the on-die network (R397 to R400): die, source, the router it stands at and its destination, response or request, ordered, on the escape channel, the adaptive channel that holds it, the ring whose buffer holds it (0 row, 1 column, 2 none yet), whether a gated router has fixed its route, the CYC count since which it stands there, and its flits. -/
structure Packet where
  num : Nat
  die : Nat
  src : Nat
  here : Nat
  dest : Nat
  response : Bool
  ordered : Bool
  escape : Bool
  chan : Nat
  ring : Nat
  fixed : Bool
  since : Nat
  flits : Nat
deriving DecidableEq, Repr

/-- An event entry (R414, R418): its payload as a number, byte 0 lowest. -/
structure Event where
  seq : Nat
  type : Nat
  die : Nat
  payload : Nat
deriving DecidableEq, Repr

/-- A command and event channel (R414, R415, R419, R420): commands fetched and not executed, CDONE, CTAIL, events written and not consumed, events that wait for room, EWRIT, EACK, rings, EVINT and the events since the last interrupt, session and counters. -/
structure Channel where
  cmds : List CmdEntry
  cdone : Nat
  ctail : Nat
  events : List Event
  waiting : List Event
  ewrit : Nat
  eack : Nat
  crbase : Nat
  crsize : Nat
  erbase : Nat
  ersize : Nat
  evint : Nat
  unsignalled : Nat
  oldest : Nat
  fired : Nat
  session : Nat
  counters : List Nat
  sent : Nat
  resent : Tab Nat
deriving DecidableEq, Repr

/-- A channel at a start. -/
def Channel.start : Channel :=
  { cmds := [], cdone := 0, ctail := 0, events := [], waiting := [], ewrit := 0, eack := 0, crbase := 0, crsize := 0,
    erbase := 0, ersize := 0, evint := 0, unsignalled := 0, oldest := 0, fired := 0, session := 0, counters := [], sent := 0,
    resent := [] }

/-- A job joined with PEERCFG (R408). -/
structure Job where
  id : Nat
  rank : Nat
  ranks : Nat
  table : List Nat
deriving DecidableEq, Repr

/-- A collective under way: the channel it came by, its 48-byte payload (R409), and whether it has met a DOWN link (R411). -/
structure Coll where
  ch : Nat
  payload : Nat
  met : Bool
deriving DecidableEq, Repr

/-- A member of the throttle group: its request, when it was last heard, and whether it is held as silent (R362). -/
structure Member where
  req : Nat
  heard : Nat
  silent : Bool
deriving DecidableEq, Repr

/-- Start state (R422 to R425): start counter, minimal mode, failing stages and reasons of the last failed starts, feature offer and whether it is fixed, the versions of the images in force and the least firmware version accepted, the peer links enabled, the channel keys of ports 1 and 2, the owner key-encryption key and the rail floors where a later image has set them, stage 8 reached. -/
structure Boot where
  counter : Nat
  minimal : Bool
  attempts : Nat
  stages : List Nat
  reasons : List Nat
  offer : Nat
  offerFixed : Bool
  cfgver : Nat
  fwver : Nat
  leastFw : Nat
  linksOn : List Nat
  portKeys : Option (List Nat)
  ownerKey : Option Nat
  railFloors : Option (List Nat)
  ts : Nat
  up : Bool
deriving DecidableEq, Repr

/-- What happens next, as the agenda lists it: ns of timestamp and periods of tile cluster tc pass, and then an event occurs, or a selector of a core issues (log entry 2); or the write of a register that a control core has asked for occurs (R421). -/
inductive Pick where
  | event (ns tc cyc : Nat) (i : Instr)
  | issue (ns tc cyc core sel : Nat)
  | register (core number val : Nat)
deriving DecidableEq, Repr

/-- The whole device. cores, tcs and the other tables list what differs from their start values; mem is the canonical list of the bytes of HBM, die scratchpads, TSM and host memory (see Ops); lineKey gives the key value under which a 128-byte line was last written (R228); retake lists the launches that rollback queues again (R394); cur is the core and selector that issue next; agenda and draws are the model's own. -/
structure State where
  now : Nat
  mem : List Host.Cell
  lineKey : Tab Nat
  cores : Tab Core
  tcs : Tab Tc
  dies : Tab Die
  teams : Tab Team
  clusters : Tab Cluster
  launches : Tab Launch
  queues : Tab Queue
  lastLseq : Nat
  retake : List Nat
  keys : Tab Nat
  tgid : Word
  psb : Dword
  wdt : Word
  mirk : Word
  chkey : Tab Word
  members : Tab Member
  collCap : Nat
  raiseAt : Option Nat
  links : Tab LinkState
  linkSince : Tab Nat
  bridges : List Nat
  recovering : List (Nat × Nat)
  packets : List Packet
  channels : Tab Channel
  b2pos : Nat
  job : Option Job
  colls : List Coll
  boot : Boot
  pool : Nat
  primary : Nat
  stopped : Bool
  cur : Nat × Nat
  agenda : List Pick
  draws : Nat
  serial : Nat
deriving DecidableEq, Repr

/-- A channel right after a start: BOOT, which offers every feature, waits for a ring on PCIe, and has been sent on a front port (R415, R424). -/
def Channel.booted (port : Bool) : Channel :=
  let offer := 0x7F * 256 ^ 28
  if port then { Channel.start with events := [⟨1, 0xA, 0xFF, offer⟩], ewrit := 1, unsignalled := 1, sent := 1, resent := [(1, 0)] }
  else { Channel.start with waiting := [⟨0, 0xA, 0xFF, offer⟩] }

/-- The machine right after a full start (R357, R422 to R425): nothing is launched, slot 0 holds key 0 of the random source, and the registers hold their reset values. The values the manual does not give are named in notes/assumptions/12. -/
def State.reset : State :=
  { now := 0, mem := [], lineKey := [], cores := [], tcs := [], dies := [], teams := [], clusters := [], launches := [],
    queues := [], lastLseq := 0, retake := [], keys := [(0, 0)], tgid := 0, psb := 0, wdt := 1000, mirk := 0, chkey := [],
    members := [], collCap := 1750, raiseAt := none, links := [], linkSince := [], bridges := [], recovering := [], packets := [],
    channels := [(0, Channel.booted false), (1, Channel.booted true), (2, Channel.booted true)],
    b2pos := 0, job := none, colls := [],
    boot := { counter := 0, minimal := false, attempts := 0, stages := [], reasons := [], offer := 0x7F, offerFixed := false,
              cfgver := 0, fwver := 0, leastFw := 0, linksOn := List.range 16, portKeys := none, ownerKey := none, railFloors := none, ts := 0, up := true },
    pool := 4096, primary := 1, stopped := false, cur := (0, 0), agenda := [], draws := 0, serial := 0 }

end Sys2Proof.Machine
end

