-- ==== Sys2Proof/Machine/Cipher.lean ====
section
/-! DEFINITION. AES-256, its XTS mode over 128-byte data units, AES key unwrap, SHA-256 with HKDF, and AES-256-GCM (R228, R417, R420). A block is a list of 16 bytes as numbers, byte 0 first. The algorithms themselves are those of the published standards that the manual names (log entry 5). -/

namespace Sys2Proof.Machine

/-- The product by x in the field of 256 elements. -/
def gfDouble (a : Nat) : Nat := if a < 128 then 2 * a else (2 * a) % 256 ^^^ 0x1B
/-- The product in the field, by n bits of the second factor, lowest first. -/
def gfMul : Nat → Nat → Nat → Nat
  | 0, _, _ => 0
  | n + 1, a, b => (if b % 2 = 1 then a else 0) ^^^ gfMul n (gfDouble a) (b / 2)
/-- The inverse in the field, as the power 254; 0 for 0. -/
def gfInv (a : Nat) : Nat :=
  let m := gfMul 8
  let a2 := m a a
  let a3 := m a2 a
  let a6 := m a3 a3
  let a7 := m a6 a
  let a14 := m a7 a7
  let a15 := m a14 a
  let a30 := m a15 a15
  let a31 := m a30 a
  let a62 := m a31 a31
  let a63 := m a62 a
  let a126 := m a63 a63
  let a127 := m a126 a
  m a127 a127
/-- A byte rotated left. -/
def rotByte (a n : Nat) : Nat := (a * 2 ^ n) % 256 + a * 2 ^ n / 256
/-- The substitution of a byte, and its inverse. -/
def subByte (a : Nat) : Nat := let b := gfInv a; b ^^^ rotByte b 1 ^^^ rotByte b 2 ^^^ rotByte b 3 ^^^ rotByte b 4 ^^^ 0x63
def unsubByte (a : Nat) : Nat := gfInv (rotByte a 1 ^^^ rotByte a 3 ^^^ rotByte a 6 ^^^ 0x05)

/-- Two byte lists combined. -/
def xorBytes : List Nat → List Nat → List Nat
  | a :: r, b :: t => (a ^^^ b) :: xorBytes r t
  | _, _ => []
/-- The first n bytes of a number, byte 0 lowest; and the number of a byte list. -/
def toBytes : Nat → Nat → List Nat
  | 0, _ => []
  | n + 1, v => v % 256 :: toBytes n (v / 256)
def ofBytes : List Nat → Nat
  | [] => 0
  | x :: r => x + 256 * ofBytes r

/-- Byte i of a list. -/
def byteAt (l : List Nat) (i : Nat) : Nat := (l[i]?).getD 0

/-- The words of the key schedule from word i on, the newest first: n more words. -/
def keyWords : Nat → Nat → Nat → List (List Nat) → List (List Nat)
  | 0, _, _, ws => ws
  | n + 1, i, rcon, ws =>
    let last := (ws[0]?).getD []
    let old := (ws[7]?).getD []
    let t := if i % 8 = 0 then xorBytes ((last.drop 1 ++ last.take 1).map subByte) [rcon, 0, 0, 0]
      else if i % 8 = 4 then last.map subByte else last
    keyWords n (i + 1) (if i % 8 = 0 then gfDouble rcon else rcon) (xorBytes old t :: ws)
/-- The 15 round keys of a 32-byte key. -/
def roundKeys (key : List Nat) : List (List Nat) :=
  let w0 := (List.range 8).map fun i => (key.drop (4 * i)).take 4
  let ws := (keyWords 52 8 1 w0.reverse).reverse
  (List.range 15).map fun r => ((ws.drop (4 * r)).take 4).flatten

/-- The rows of a block shifted, by a row's number of places or back. -/
def shiftRows (b : List Nat) : List Nat := (List.range 16).map fun i => byteAt b ((i + 4 * (i % 4)) % 16)
def unshiftRows (b : List Nat) : List Nat := (List.range 16).map fun i => byteAt b ((i + 16 - 4 * (i % 4)) % 16)
/-- The columns of a block mixed by four factors. -/
def mixColumns (f : List Nat) (b : List Nat) : List Nat :=
  (List.range 16).map fun i =>
    let c := i / 4 * 4
    let m := fun j => gfMul 8 (byteAt b (c + (i % 4 + j) % 4)) (byteAt f j)
    m 0 ^^^ m 1 ^^^ m 2 ^^^ m 3

/-- The rounds of encryption over the round keys left. -/
def aesRounds : List (List Nat) → List Nat → List Nat
  | [], b => b
  | [k], b => xorBytes (shiftRows (b.map subByte)) k
  | k :: r, b => aesRounds r (xorBytes (mixColumns [2, 3, 1, 1] (shiftRows (b.map subByte))) k)
/-- A block encrypted. -/
def aesEnc (key b : List Nat) : List Nat := match roundKeys key with
  | [] => b
  | k :: r => aesRounds r (xorBytes b k)
/-- The rounds of decryption: the round keys last first. -/
def aesUnrounds : List (List Nat) → List Nat → List Nat
  | [], b => b
  | [k], b => xorBytes ((unshiftRows b).map unsubByte) k
  | k :: r, b => aesUnrounds r (mixColumns [14, 11, 13, 9] (xorBytes ((unshiftRows b).map unsubByte) k))
/-- A block decrypted. -/
def aesDec (key b : List Nat) : List Nat := match (roundKeys key).reverse with
  | [] => b
  | k :: r => aesUnrounds r (xorBytes b k)

/-- The mask of block j of a data unit: the unit's number encrypted under the second key, times x to the power j. -/
def xtsMask (key2 : List Nat) (unit : Nat) : Nat → List Nat
  | 0 => aesEnc key2 (toBytes 16 unit)
  | j + 1 => let v := 2 * ofBytes (xtsMask key2 unit j); toBytes 16 (if v < 2 ^ 128 then v else v ^^^ 0x87)
/-- A 16-byte block of a data unit encrypted or decrypted under a 64-byte key pair, the data key first. -/
def xtsEnc (key : List Nat) (unit j : Nat) (b : List Nat) : List Nat := let m := xtsMask (key.drop 32) unit j; xorBytes (aesEnc (key.take 32) (xorBytes b m)) m
def xtsDec (key : List Nat) (unit j : Nat) (b : List Nat) : List Nat := let m := xtsMask (key.drop 32) unit j; xorBytes (aesDec (key.take 32) (xorBytes b m)) m

/-- A key by its number: an odd number holds the 512 bits that a KEYLD unwrapped, and an even one names a draw of the random source (R417). -/
def keyBytes (k : Nat) : List Nat := toBytes 64 (if k % 2 = 1 then k / 2 else Config.drawnKey (k / 2))

/-- A byte that was written under one key, as a reader under another finds it: its 16-byte block of plaintext goes through the ciphertext that memory holds (R228). -/
def crossByte (k0 k a : Nat) (block : Nat) : Nat :=
  let unit := a / 128 % 2 ^ 32
  let j := a / 16 % 8
  byteAt (xtsDec (keyBytes k) unit j (xtsEnc (keyBytes k0) unit j (toBytes 16 block))) (a % 16)

/-- One pass of key unwrap over blocks n down to 1, with the round's number (RFC 3394). Blocks are 8 bytes, first byte first. -/
def unwrapPass (kek : List Nat) (round : Nat) : Nat → List Nat → List (List Nat) → List Nat × List (List Nat)
  | 0, a, rs => (a, rs)
  | i + 1, a, rs =>
    let t := (toBytes 8 (8 * round + i + 1)).reverse
    let b := aesDec kek (xorBytes a t ++ (rs[i]?).getD [])
    unwrapPass kek round i (b.take 8) (rs.set i (b.drop 8))
/-- The six passes of key unwrap, last round first. -/
def unwrapPasses (kek : List Nat) : Nat → List Nat → List (List Nat) → List Nat × List (List Nat)
  | 0, a, rs => (a, rs)
  | n + 1, a, rs => let (a1, r1) := unwrapPass kek n 8 a rs; unwrapPasses kek n a1 r1
/-- The key that a 72-byte blob holds under the owner's key, or none where it fails to unwrap (R417). -/
def unwrapBlob (kek blob : List Nat) : Option Nat :=
  let (a, rs) := unwrapPasses kek 6 (blob.take 8) ((List.range 8).map fun i => (blob.drop (8 * (i + 1))).take 8)
  if a = List.replicate 8 0xA6 then some (ofBytes rs.flatten) else none

/-- The number of the key in a 72-byte blob, wrapped under the owner's key (R417). -/
def unwrapKey (owner blob : Nat) : Option Nat := (unwrapBlob (toBytes 32 owner) (toBytes 72 blob)).map fun k => 2 * k + 1

/-- The largest r below 2 ^ n, added to r0, whose power k is at most v: bit by bit, the highest first. -/
def rootBits (k v : Nat) : Nat → Nat → Nat
  | 0, r0 => r0
  | n + 1, r0 => rootBits k v n (if (r0 + 2 ^ n) ^ k ≤ v then r0 + 2 ^ n else r0)
/-- The first 32 bits of the fraction of the root of degree k of p, for a root below 32. -/
def rootFraction (k p : Nat) : Nat := rootBits k (p * 2 ^ (32 * k)) 37 0 % 2 ^ 32
/-- The primes below n. -/
def primesBelow (n : Nat) : List Nat := (List.range n).filter fun p => p ≥ 2 && (List.range p).all fun d => d < 2 || p % d ≠ 0
/-- The numbers of SHA-256 by their definition: its round constants are the fractions of the cube roots of the first 64 primes, and its first hash those of the square roots of the first eight (FIPS 180-4). -/
def shaK : List Nat := (primesBelow 312).map (rootFraction 3)
def shaStart : List Nat := (primesBelow 20).map (rootFraction 2)
/-- A 32-bit number rotated right. -/
def rotWord (x n : Nat) : Nat := x / 2 ^ n + x % 2 ^ n * 2 ^ (32 - n)
/-- Element i of a list of numbers. -/
def wordAt (l : List Nat) (i : Nat) : Nat := (l[i]?).getD 0
/-- The message schedule, the newest word first: n more words. -/
def shaSchedule : Nat → List Nat → List Nat
  | 0, ws => ws
  | n + 1, ws =>
    let a := wordAt ws 14
    let b := wordAt ws 1
    let s0 := rotWord a 7 ^^^ rotWord a 18 ^^^ a / 8
    let s1 := rotWord b 17 ^^^ rotWord b 19 ^^^ b / 1024
    shaSchedule n ((wordAt ws 15 + s0 + wordAt ws 6 + s1) % 2 ^ 32 :: ws)
/-- The rounds of a block over its words and constants, from the eight working words. -/
def shaRounds : List (Nat × Nat) → List Nat → List Nat
  | x :: r, [a, b, c, d, e, f, g, h] =>
    let t1 := h + (rotWord e 6 ^^^ rotWord e 11 ^^^ rotWord e 25) + ((e &&& f) ^^^ ((2 ^ 32 - 1 - e) &&& g)) + x.1 + x.2
    let t2 := (rotWord a 2 ^^^ rotWord a 13 ^^^ rotWord a 22) + ((a &&& b) ^^^ (a &&& c) ^^^ (b &&& c))
    shaRounds r [(t1 + t2) % 2 ^ 32, a, b, c, (d + t1) % 2 ^ 32, e, f, g]
  | _, ws => ws
/-- The number of a byte list, its first byte highest; and the n bytes of a number, the highest first. -/
def ofBytesHigh (l : List Nat) : Nat := l.foldl (fun a x => 256 * a + x) 0
def toBytesHigh (n v : Nat) : List Nat := (toBytes n v).reverse
/-- A hash taken past one 64-byte block. -/
def shaBlock (hash : List Nat) (block : List Nat) : List Nat :=
  let w := ((List.range 16).map fun i => ofBytesHigh ((block.drop (4 * i)).take 4)).reverse
  let ws := (shaSchedule 48 w).reverse
  List.zipWith (fun a b => (a + b) % 2 ^ 32) hash (shaRounds (ws.zip shaK) hash)
/-- A hash taken past n blocks. -/
def shaBlocks : Nat → List Nat → List Nat → List Nat
  | 0, hash, _ => hash
  | n + 1, hash, m => shaBlocks n (shaBlock hash (m.take 64)) (m.drop 64)
/-- SHA-256 of a byte list. -/
def sha256 (m : List Nat) : List Nat :=
  let n := (m.length + 72) / 64
  let p := m ++ 0x80 :: List.replicate (64 * n - m.length - 9) 0 ++ toBytesHigh 8 (8 * m.length)
  (shaBlocks n shaStart p).flatMap (toBytesHigh 4)
/-- HMAC-SHA-256 under a key of at most 64 bytes (RFC 2104). -/
def hmac (key m : List Nat) : List Nat :=
  let k := key ++ List.replicate (64 - key.length) 0
  sha256 (k.map (· ^^^ 0x5C) ++ sha256 (k.map (· ^^^ 0x36) ++ m))
/-- The 32 bytes that HKDF-SHA-256 derives from a key, with a salt of zeros (RFC 5869, R420). -/
def hkdf (key info : List Nat) : List Nat := hmac (hmac (List.replicate 32 0) key) (info ++ [1])

/-- The product of GCM's field, by n bits of the first factor, the highest first. -/
def ghashMul : Nat → Nat → Nat → Nat
  | 0, _, _ => 0
  | n + 1, x, v => (if x / 2 ^ n % 2 = 1 then v else 0) ^^^ ghashMul n x (if v % 2 = 1 then v / 2 ^^^ 0xE1 * 2 ^ 120 else v / 2)
/-- GHASH over n blocks of a byte list. -/
def ghash (h : Nat) : Nat → Nat → List Nat → Nat
  | 0, y, _ => y
  | n + 1, y, m => ghash h n (ghashMul 128 (y ^^^ ofBytesHigh (m.take 16)) h) (m.drop 16)
/-- A byte list filled up to whole blocks. -/
def padBlock (m : List Nat) : List Nat := m ++ List.replicate ((16 - m.length % 16) % 16) 0
/-- The authentication tag of AES-256-GCM, for a 12-byte nonce (R420). -/
def gcmTag (key nonce aad ct : List Nat) : List Nat :=
  let h := ofBytesHigh (aesEnc key (List.replicate 16 0))
  let m := padBlock aad ++ padBlock ct ++ toBytesHigh 8 (8 * aad.length) ++ toBytesHigh 8 (8 * ct.length)
  xorBytes (toBytesHigh 16 (ghash h (m.length / 16) 0 m)) (aesEnc key (nonce ++ [0, 0, 0, 1]))
/-- A byte list encrypted or decrypted by the counter mode of GCM, from counter j on, n blocks. -/
def gcmCrypt (key nonce : List Nat) : Nat → Nat → List Nat → List Nat
  | 0, _, _ => []
  | n + 1, j, m => xorBytes (m.take 16) (aesEnc key (nonce ++ toBytesHigh 4 j)) ++ gcmCrypt key nonce n (j + 1) (m.drop 16)

end Sys2Proof.Machine
end

