-- ==== Sys2Proof/Machine/Float.lean ====
section
/-! DEFINITION. Number formats and exact arithmetic (spec 04): decoding to exact values, encoding with one rounding, integer conversion, exact sums, MX blocks and the matrix cell update. -/

namespace Sys2Proof.Machine

/-- An exact value: NaN (signalling or not), a signed infinity, or the dyadic (−1)^neg × m × 2^e, which keeps the sign of zero (R89). -/
inductive FVal where
  | nan (sig : Bool)
  | inf (neg : Bool)
  | fin (neg : Bool) (m : Nat) (e : Int)
deriving DecidableEq, Repr

/-- A floating-point format: exponent and significand bits, bias, whether it has infinities and NaNs, its largest finite magnitude maxM × 2^maxE and its canonical NaN (R90, R91). -/
structure Fmt where
  eb : Nat
  mb : Nat
  bias : Nat
  hasInf : Bool
  hasNan : Bool
  maxM : Nat
  maxE : Int
  canon : Nat
deriving DecidableEq, Repr

def f32 : Fmt := ⟨8, 23, 127, true, true, 0xFFFFFF, 104, 0x7FC00000⟩
def bf16 : Fmt := ⟨8, 7, 127, true, true, 255, 120, 0x7FC0⟩
def f16 : Fmt := ⟨5, 10, 15, true, true, 2047, 5, 0x7E00⟩
def e5m2 : Fmt := ⟨5, 2, 15, true, true, 7, 13, 0x7F⟩
def e4m3 : Fmt := ⟨4, 3, 7, false, true, 14, 5, 0x7F⟩
def e3m2 : Fmt := ⟨3, 2, 3, false, false, 7, 2, 0⟩
def e2m3 : Fmt := ⟨2, 3, 1, false, false, 15, -1, 0⟩
def e2m1 : Fmt := ⟨2, 1, 1, false, false, 3, 1, 0⟩

/-- Bits of an encoding of the format. -/
def Fmt.width (f : Fmt) : Nat := 1 + f.eb + f.mb

/-- The exact value of an encoding (R89, R90). A NaN of f32, bf16 or f16 whose top significand bit is 0 is signalling; those of e5m2 and e4m3 are quiet (R91). -/
def decodeF (f : Fmt) (bits : Nat) : FVal :=
  let m := bits % 2 ^ f.mb
  let e := bits / 2 ^ f.mb % 2 ^ f.eb
  let s := bits / 2 ^ (f.mb + f.eb) % 2 == 1
  if f.hasInf && e == 2 ^ f.eb - 1 then
    if m == 0 then .inf s
    else .nan (f.mb != 2 && m / 2 ^ (f.mb - 1) == 0)
  else if f.hasNan && !f.hasInf && e == 2 ^ f.eb - 1 && m == 2 ^ f.mb - 1 then .nan false
  else if e == 0 then .fin s m (1 - f.bias - f.mb)
  else .fin s (2 ^ f.mb + m) ((e : Int) - f.bias - f.mb)

/-- The rounding modes of R93, in the order of their codes in R48. -/
inductive Mode where
  | rn | rz | rd | ru
deriving DecidableEq, Repr

/-- The mode of a 2-bit code (R48). -/
def modeOf : Nat → Mode
  | 0 => .rn
  | 1 => .rz
  | 2 => .rd
  | _ => .ru

/-- Whether rounding moves a magnitude away from zero: kept part q, discarded part r out of w. -/
def roundsUp (mode : Mode) (neg : Bool) (q r w : Nat) : Bool :=
  match mode with
  | .rn => decide (2 * r > w) || (2 * r == w && q % 2 == 1)
  | .rz => false
  | .rd => neg && r != 0
  | .ru => !neg && r != 0

/-- The magnitude m × 2^e rounded to a multiple of 2^qe, in units of 2^qe, and whether that changed it. -/
def roundAt (mode : Mode) (neg : Bool) (m : Nat) (e qe : Int) : Nat × Bool :=
  if qe ≤ e then (m * 2 ^ (e - qe).toNat, false)
  else
    let w := 2 ^ (qe - e).toNat
    let q := m / w
    let r := m % w
    (if roundsUp mode neg q r w then q + 1 else q, r != 0)

/-- a × 2^ae ≤ b × 2^be. -/
def leScaled (a : Nat) (ae : Int) (b : Nat) (be : Int) : Bool :=
  if ae ≤ be then a ≤ b * 2 ^ (be - ae).toNat else a * 2 ^ (ae - be).toNat ≤ b

/-- The sticky flags NV, DZ, OF, UF and NX (R145). -/
def flNV : BitVec 5 := 0x10
def flDZ : BitVec 5 := 0x08
def flOF : BitVec 5 := 0x04
def flUF : BitVec 5 := 0x02
def flNX : BitVec 5 := 0x01

/-- The sign bit in its place. -/
def signBit (f : Fmt) (neg : Bool) : Nat := if neg then 2 ^ (f.eb + f.mb) else 0

/-- The encoding of the largest finite magnitude. -/
def maxFinite (f : Fmt) : Nat :=
  if f.hasInf then (2 ^ f.eb - 1) * 2 ^ f.mb - 1
  else if f.hasNan then 2 ^ (f.eb + f.mb) - 2
  else 2 ^ (f.eb + f.mb) - 1

/-- What an overflowing value or an infinity encodes as (R94). -/
def overflowTo (f : Fmt) (neg : Bool) (mode : Mode) (sat : Bool) : Nat :=
  let big : Bool := match mode with
    | .rn => true
    | .rz => false
    | .rd => neg
    | .ru => !neg
  if f.hasNan && big && !sat then
    if f.hasInf then signBit f neg + (2 ^ f.eb - 1) * 2 ^ f.mb else f.canon
  else signBit f neg + maxFinite f

/-- The encoding of an exact value under a mode, and its flags (R93). -/
def encodeF (f : Fmt) (x : FVal) (mode : Mode) (sat : Bool) : Nat × BitVec 5 :=
  match x with
  | .nan sig =>
    let fl := if sig then flNV else 0
    if f.hasNan then (f.canon, fl) else (0, fl ||| flNV)
  | .inf neg => (overflowTo f neg mode sat, 0)
  | .fin neg m e =>
    if m == 0 then (signBit f neg, 0)
    else
      let lead : Int := (Nat.log2 m : Int) + e
      let low : Int := 1 - f.bias - f.mb
      let qe : Int := max (lead - f.mb) low
      let (q, nx) := roundAt mode neg m e qe
      let (q2, _) := roundAt mode neg m e (lead - f.mb)
      let tiny := decide ((Nat.log2 q2 : Int) + (lead - f.mb) < 1 - f.bias)
      let fl := (if nx then flNX else 0) ||| (if nx && tiny then flUF else 0)
      if !leScaled q qe f.maxM f.maxE then (overflowTo f neg mode sat, fl ||| flOF ||| flNX)
      else if q < 2 ^ f.mb then (signBit f neg + q, fl)
      else
        let (q', qe') := if q == 2 ^ (f.mb + 1) then (2 ^ f.mb, qe + 1) else (q, qe)
        (signBit f neg + (qe' + f.mb + f.bias).toNat * 2 ^ f.mb + (q' - 2 ^ f.mb), fl)

/-- Round to nearest even without saturation, the rule of most words (R148). -/
def encRn (f : Fmt) (x : FVal) : Nat × BitVec 5 := encodeF f x .rn false

/-- Whether a value is a NaN. -/
def FVal.isNan : FVal → Bool
  | .nan _ => true
  | _ => false

/-- Whether a value is a signalling NaN. -/
def FVal.isSig : FVal → Bool
  | .nan s => s
  | _ => false

/-- Whether a value is infinite. -/
def FVal.isInf : FVal → Bool
  | .inf _ => true
  | _ => false

/-- Whether a value is a zero. -/
def FVal.isZero : FVal → Bool
  | .fin _ m _ => m == 0
  | _ => false

/-- The sign of a value; a NaN counts as positive. -/
def FVal.isNeg : FVal → Bool
  | .nan _ => false
  | .inf n => n
  | .fin n _ _ => n

/-- The negation of a value. -/
def FVal.negate : FVal → FVal
  | .nan s => .nan s
  | .inf n => .inf (!n)
  | .fin n m e => .fin (!n) m e

/-- The magnitude of a value. -/
def FVal.magnitude : FVal → FVal
  | .nan s => .nan s
  | .inf _ => .inf false
  | .fin _ m e => .fin false m e

/-- A value times 2^k. -/
def FVal.scale (x : FVal) (k : Int) : FVal :=
  match x with
  | .fin n m e => .fin n m (e + k)
  | y => y

/-- The exact product. An infinity times a zero is an invalid NaN, which raises NV when encoded with flags (R109, R149). -/
def mulF (x y : FVal) : FVal :=
  match x, y with
  | .nan a, .nan b => .nan (a || b)
  | .nan a, _ => .nan a
  | _, .nan b => .nan b
  | .inf a, .inf b => .inf (a != b)
  | .inf a, .fin b m _ => if m == 0 then .nan true else .inf (a != b)
  | .fin a m _, .inf b => if m == 0 then .nan true else .inf (a != b)
  | .fin a m e, .fin b n g => .fin (a != b) (m * n) (e + g)

/-- The least exponent among the finite terms. -/
def minExp : List FVal → Int → Int
  | [], d => d
  | .fin _ _ e :: r, d => minExp r (min e d)
  | _ :: r, d => minExp r d

/-- The sum of the finite terms in units of 2^q, where q is at most every exponent. -/
def sumAt (q : Int) : List FVal → Int
  | [] => 0
  | .fin n m e :: r => (if n then -((m * 2 ^ (e - q).toNat : Nat) : Int) else ((m * 2 ^ (e - q).toNat : Nat) : Int)) + sumAt q r
  | _ :: r => sumAt q r

/-- The exact sum of a list of terms (R109): a sum of both infinities is an invalid NaN, and a zero sum is −0 only when every term is −0. -/
def sumF (xs : List FVal) : FVal :=
  let up := xs.any (fun x => x == .inf false)
  let dn := xs.any (fun x => x == .inf true)
  if xs.any FVal.isNan then .nan (xs.any FVal.isSig || (up && dn))
  else if up && dn then .nan true
  else if up then .inf false
  else if dn then .inf true
  else
    let q := minExp xs 1000000
    let t := sumAt q xs
    if t = 0 then .fin (xs.all (fun x => x.isNeg && x.isZero)) 0 0
    else .fin (t < 0) t.natAbs q

/-- x + y exactly. -/
def addF (x y : FVal) : FVal := sumF [x, y]

/-- x < y for values that are no NaN; −0 equals +0. -/
def ltF (x y : FVal) : Bool :=
  match x, y with
  | .inf a, .inf b => a && !b
  | .inf a, _ => a
  | _, .inf b => !b
  | .fin _ _ _, .fin _ _ _ => let d := sumF [x, y.negate]; d.isNeg && !d.isZero
  | _, _ => false

/-- x = y for values that are no NaN; −0 equals +0. -/
def eqF (x y : FVal) : Bool :=
  match x, y with
  | .inf a, .inf b => a == b
  | .fin _ _ _, .fin _ _ _ => (sumF [x, y.negate]).isZero
  | _, _ => false

/-- The smaller (or larger) of two encodings: a NaN is passed over, −0 ranks below +0, and NV is raised for a signalling NaN (R150). -/
def minMaxF (f : Fmt) (wantMax : Bool) (a b : Nat) : Nat × BitVec 5 :=
  let x := decodeF f a
  let y := decodeF f b
  let fl := if x.isSig || y.isSig then flNV else 0
  if x.isNan then (if y.isNan then f.canon else b, fl)
  else if y.isNan then (a, fl)
  else
    let less := ltF x y || (eqF x y && x.isNeg && !y.isNeg)
    (if less == wantMax then b else a, fl)

/-- The value rounded to an integer under a mode, and whether that changed it. -/
def roundInt (neg : Bool) (m : Nat) (e : Int) (mode : Mode) : Int × Bool :=
  let (q, nx) := roundAt mode neg m e 0
  (if neg then -(q : Int) else (q : Int), nx)

/-- SatS (R88). -/
def satS (x : Int) (n : Nat) : Int := min (max x (-(2 ^ (n - 1) : Int))) (2 ^ (n - 1) - 1)
/-- SatN (R88). -/
def satN (x : Int) (n : Nat) : Int := min (max x 0) (2 ^ n - 1)

/-- Conversion to a signed or unsigned integer of n bits (R95). -/
def cvtInt (signed : Bool) (n : Nat) (x : FVal) (mode : Mode) : Int × BitVec 5 :=
  let sat := fun v => if signed then satS v n else satN v n
  match x with
  | .nan _ => (0, flNV)
  | .inf neg => (sat (if neg then -(2 ^ 200) else 2 ^ 200), flNV)
  | .fin neg m e =>
    let (v, nx) := roundInt neg m e mode
    if sat v = v then (v, if nx then flNX else 0) else (sat v, flNV)

/-- An integer as an exact value. -/
def ofIntF (x : Int) : FVal := .fin (x < 0) x.natAbs 0

/-- Conversion to e8m0 (R97). -/
def cvtE8m0 (x : FVal) (mode : Mode) (sat : Bool) : Nat × BitVec 5 :=
  match x with
  | .nan _ => (0xFF, flNV)
  | .inf neg => if neg then (0xFF, flNV) else (if sat then 0xFE else 0xFF, 0)
  | .fin neg m e =>
    if m == 0 || neg then (0xFF, flNV)
    else
      let n : Int := (Nat.log2 m : Int) + e
      let exact := m == 2 ^ Nat.log2 m
      let twice := 2 * m
      let mid := 3 * 2 ^ Nat.log2 m
      let k : Int := match mode with
        | .rz => n
        | .rd => n
        | .ru => if exact then n else n + 1
        | .rn => if twice < mid then n else if twice > mid then n + 1 else if (n + 127) % 2 = 0 then n else n + 1
      if k > 127 then (if sat then 0xFE else 0xFF, flOF ||| flNX)
      else if k < -127 then (0, flUF ||| flNX)
      else ((k + 127).toNat, if exact && k = n then 0 else flNX)

/-- The value of an e8m0 code, as a power of two, or none for NaN (R92). -/
def scaleExp (x : Nat) : Option Int := if x == 0xFF then none else some ((x : Int) - 127)

/-- The largest magnitude of a list of finite values. -/
def amaxF : List FVal → FVal
  | [] => .fin false 0 0
  | x :: r => let a := amaxF r; if ltF a x.magnitude then x.magnitude else a

/-- The least e with m × 2^(g − e) ≤ the largest element of the format (R102). -/
def leastScale (f : Fmt) (m : Nat) (g : Int) : Int :=
  let d : Int := (Nat.log2 m : Int) + g - ((Nat.log2 f.maxM : Int) + f.maxE)
  if leScaled m (g - d) f.maxM f.maxE then d else d + 1

/-- The scale byte of a block (R102). -/
def mxScale (f : Fmt) (vs : List FVal) (lo hi : Nat) : Nat :=
  if vs.any (fun v => v.isNan || v.isInf) then 0xFF
  else
    match amaxF vs with
    | .fin _ m g =>
      if m == 0 then min (max 127 lo) hi
      else (min (max (leastScale f m g + 127) (lo : Int)) (hi : Int)).toNat
    | _ => 0xFF

/-- Quantisation of a block: scale byte, element codes and flags (R103). -/
def mxQuant (f : Fmt) (vs : List FVal) (lo hi : Nat) : Nat × List Nat × BitVec 5 :=
  let x := mxScale f vs lo hi
  if x == 0xFF then (x, vs.map (fun _ => 0), 0)
  else
    let rs := vs.map (fun v => encodeF f (v.scale (127 - (x : Int))) .rn true)
    (x, rs.map (·.1), rs.foldl (fun a r => a ||| r.2) 0)

/-- The value of an element of a block (R100). -/
def mxValue (f : Fmt) (c x : Nat) : FVal :=
  match scaleExp x with
  | none => .nan false
  | some k => (decodeF f c).scale k

/-- Element format, element width and scale range of an alias kind: 1 MXFP8, 2 MXFP4 (R104). -/
def aliasFmt (kind : Nat) : Fmt := if kind == 2 then e2m1 else e4m3
def aliasWidth (kind : Nat) : Nat := if kind == 2 then 4 else 8
def aliasLo (kind : Nat) : Nat := if kind == 2 then 0 else 3
def aliasHi (kind : Nat) : Nat := if kind == 2 then 252 else 246

/-- The 64-byte bf16 view of a stored block, both as little-endian numbers (R101, R104, R105). -/
def aliasView (kind blk : Nat) : Nat :=
  let w := aliasWidth kind
  let x := blk / 2 ^ 504 % 256
  (List.range 32).foldl (fun a i =>
    a + (encodeF bf16 (mxValue (aliasFmt kind) (blk / 2 ^ (w * i) % 2 ^ w) x) .rn false).1 * 2 ^ (16 * i)) 0

/-- The stored block of a 64-byte bf16 view (R101, R106). -/
def aliasStore (kind view : Nat) : Nat :=
  let w := aliasWidth kind
  let (x, cs, _) := mxQuant (aliasFmt kind) ((List.range 32).map fun i => decodeF bf16 (view / 2 ^ (16 * i) % 65536))
    (aliasLo kind) (aliasHi kind)
  (cs.zip (List.range 32)).foldl (fun a ci => a + ci.1 * 2 ^ (w * ci.2)) 0 + x * 2 ^ 504

/-- One addition in f32, rounded to nearest even. -/
def addF32 (a b : Nat) : Nat × BitVec 5 := encRn f32 (addF (decodeF f32 a) (decodeF f32 b))

/-- The plus-times update of one cell: groups of eight exact products, each group rounded once and then added (R108). -/
def cellUpdate : Nat → List FVal → Nat → Nat
  | 0, _, acc => acc
  | fuel + 1, ps, acc =>
    match ps with
    | [] => acc
    | _ =>
      let g := (encRn f32 (sumF (ps.take 8))).1
      cellUpdate fuel (ps.drop 8) (addF32 acc g).1

end Sys2Proof.Machine
end

