-- ==== Sys2Proof/Machine/Memory.lean ====
section
/-! DEFINITION. Tables, small list helpers, and the one memory of bytes with its canonical form, little-endian access, page keys and the alias view. -/

namespace Sys2Proof.Machine

/-- What a table lists under a key. -/
def tfind {α : Type} : Tab α → Nat → Option α
  | [], _ => none
  | (k, x) :: r, n => if k = n then some x else tfind r n

/-- The entry under a key, or the default. -/
def tget {α : Type} (d : α) (t : Tab α) (n : Nat) : α := (tfind t n).getD d

/-- A table with one entry set. -/
def tput {α : Type} : Tab α → Nat → α → Tab α
  | [], n, x => [(n, x)]
  | (k, y) :: r, n, x =>
    if n < k then (n, x) :: (k, y) :: r
    else if k = n then (n, x) :: r
    else (k, y) :: tput r n x

/-- A table without a key. -/
def tdel {α : Type} : Tab α → Nat → Tab α
  | [], _ => []
  | (k, y) :: r, n => if k = n then tdel r n else (k, y) :: tdel r n

/-- A table with one listed entry changed; an unlisted key stays unlisted. -/
def tmod {α : Type} : Tab α → Nat → (α → α) → Tab α
  | [], _, _ => []
  | (k, y) :: r, n, f => if k = n then (k, f y) :: r else (k, y) :: tmod r n f

/-- Every entry changed. -/
def tmap {α β : Type} (t : Tab α) (f : Nat → α → β) : Tab β :=
  match t with
  | [] => []
  | (k, y) :: r => (k, f k y) :: tmap r f

/-- Element i of a list, or the default. -/
def lget {α : Type} (d : α) : List α → Nat → α
  | [], _ => d
  | x :: _, 0 => x
  | _ :: r, n + 1 => lget d r n

/-- Element i of a list changed. -/
def lmod {α : Type} : List α → Nat → (α → α) → List α
  | [], _, _ => []
  | x :: r, 0, f => f x :: r
  | x :: r, n + 1, f => x :: lmod r n f

/-- Every element changed by a function of its index, counted from k. -/
def imap {α β : Type} (f : Nat → α → β) : Nat → List α → List β
  | _, [] => []
  | k, x :: r => f k x :: imap f (k + 1) r

/-- The first element that passes a test. -/
def lfind {α : Type} (p : α → Bool) : List α → Option α
  | [] => none
  | x :: r => if p x then some x else lfind p r

/-- The greatest element under a strict comparison: better x y says that x ranks above y; an earlier element stays ahead of its equals. -/
def lbest {α : Type} (better : α → α → Bool) : List α → Option α
  | [] => none
  | x :: r =>
    match lbest better r with
    | none => some x
    | some y => if better y x then some y else some x

/-- Bit i of a 32-bit mask. -/
def hasBit (m : Word) (i : Nat) : Bool := m.getLsbD i

/-- The mask of one bit. -/
def oneBit (i : Nat) : Word := BitVec.ofNat 32 (2 ^ i)

/-- The numbers of a mask's bits below n, lowest first, counted from k. -/
def bitsFrom (m : Word) : Nat → Nat → List Nat
  | 0, _ => []
  | n + 1, k => if hasBit m k then k :: bitsFrom m n (k + 1) else bitsFrom m n (k + 1)

/-- The threads of a mask, lowest first. -/
def members (m : Word) : List Nat := bitsFrom m 32 0

/-- The mask of a list of threads. -/
def maskOf : List Nat → Word
  | [] => 0
  | i :: r => oneBit i ||| maskOf r

/-- The number of bits of a mask. -/
def popcount (m : Word) : Nat := (members m).length

/-- The base of the location numbers of the die scratchpads, of TSM, of host memory and of the control cores' SRAM; HBM bytes are at their physical addresses (R212, R210, R339). -/
def scratchBase : Nat := 2 ^ 56
def tsmBase : Nat := 2 ^ 57
def hostBase : Nat := 2 ^ 60
def sramBase : Nat := 2 ^ 58
/-- Whether a location lies in TSM. -/
def inTsm (a : Nat) : Bool := decide (tsmBase ≤ a) && decide (a < sramBase)
/-- What a byte that memory does not list reads as: zero, but in TSM, whose contents are undefined when a team starts, a free value for each byte of each team (R210; log entry 1). -/
def memDefault (a : Nat) : Byte := if inTsm a then Config.tsmByte a else 0
/-- Whether a byte is left unlisted: a zero outside TSM. A byte of TSM that has been written is listed whatever it is, since nothing is known of what it read as before. -/
def unlisted (a : Nat) (x : Byte) : Bool := !inTsm a && x == 0

/-- The byte at a location. -/
def memByte : List Host.Cell → Nat → Byte
  | [], n => memDefault n
  | (k, x) :: r, n => if k = n then x else memByte r n

/-- Memory with one byte written; a zero outside TSM is not listed. -/
def memPut : List Host.Cell → Nat → Byte → List Host.Cell
  | [], n, x => if unlisted n x then [] else [(n, x)]
  | (k, y) :: r, n, x =>
    if n < k then (if unlisted n x then (k, y) :: r else (n, x) :: (k, y) :: r)
    else if k = n then (if unlisted n x then r else (n, x) :: r)
    else (k, y) :: memPut r n x

/-- Locations strictly rise from a bound on, and no listed byte is a zero outside TSM. -/
def memSorted : Nat → List Host.Cell → Bool
  | _, [] => true
  | lo, (k, x) :: r => decide (lo ≤ k) && !unlisted k x && memSorted (k + 1) r

/-- The canonical form of memory. -/
def Memory.wf (m : List Host.Cell) : Bool := memSorted 0 m

/-- n bytes from a location as a little-endian number (R99). -/
def memRead (m : List Host.Cell) (a : Nat) : Nat → Nat
  | 0 => 0
  | n + 1 => (memByte m a).toNat + 256 * memRead m (a + 1) n

/-- The low n bytes of a number written from a location up (R99). -/
def memWrite (m : List Host.Cell) (a : Nat) : Nat → Nat → List Host.Cell
  | 0, _ => m
  | n + 1, v => memWrite (memPut m a (BitVec.ofNat 8 v)) (a + 1) n (v / 256)

/-- Byte i of a number, byte 0 lowest. -/
def byteOf (v i : Nat) : Nat := v / 256 ^ i % 256

/-- n bytes of a number from byte i on. -/
def bytesOf (v i n : Nat) : Nat := v / 256 ^ i % 256 ^ n

/-- A number with n bytes replaced from byte i on. -/
def putBytes (v i n d : Nat) : Nat := v % 256 ^ i + (d % 256 ^ n) * 256 ^ i + v / 256 ^ (i + n) * 256 ^ (i + n)

/-- The location of a byte of the private SRAM of a die's control cores (R421). -/
def sramLoc (die off : Nat) : Nat := sramBase + die * 2 ^ 21 + off
/-- The location of a byte of a die's scratchpad. -/
def scratchLoc (die off : Nat) : Nat := scratchBase + die * 2 ^ 32 + off
/-- The location of a byte of a team's TSM. -/
def tsmLoc (team off : Nat) : Nat := tsmBase + team * 2 ^ 18 + off

/-- A byte as a reader under a key finds it: the plaintext where the line was written under that key or never, and otherwise what the wrong key makes of the ciphertext (R228, log entry 5). -/
def keyByte (s : State) (key : Option Nat) (a : Nat) : Byte :=
  match key, tfind s.lineKey (a / 128) with
  | some k, some k0 => if k = k0 then memByte s.mem a else BitVec.ofNat 8 (crossByte k0 k a (memRead s.mem (a / 16 * 16) 16))
  | _, _ => memByte s.mem a

/-- n bytes as a reader under a key finds them. -/
def keyRead (s : State) (key : Option Nat) (a : Nat) : Nat → Nat
  | 0 => 0
  | n + 1 => (keyByte s key a).toNat + 256 * keyRead s key (a + 1) n

/-- n bytes re-read under a key and written back. -/
def rekey (s : State) (key : Option Nat) (a : Nat) : Nat → List Host.Cell → List Host.Cell
  | 0, m => m
  | n + 1, m => rekey s key (a + 1) n (memPut m a (keyByte s key a))

/-- A line taken over by a key: its bytes become what that key reads, and its tag the key (R228). -/
def claimLine (s : State) (key : Option Nat) (line : Nat) : State :=
  match key with
  | none => s
  | some k =>
    if tfind s.lineKey line = some k then s
    else if tfind s.lineKey line = none then { s with lineKey := tput s.lineKey line k }
    else { s with mem := rekey s key (line * 128) 128 s.mem, lineKey := tput s.lineKey line k }

/-- n bytes written under a key. -/
def keyWrite (s : State) (key : Option Nat) (a n v : Nat) : State :=
  let s1 := if n = 0 then s else claimLine (claimLine s key (a / 128)) key ((a + n - 1) / 128)
  { s1 with mem := memWrite s1.mem a n v }

/-- The bytes that an access to a piece touches as a location: its own, and on an alias page its whole block (R107, R261). -/
def Piece.span (p : Piece) : Nat × Nat := if p.mx = 0 || p.peer then (p.loc, p.n) else (p.loc / 64 * 64, 64)
/-- Whether two lists of pieces share a location. -/
def overlap (a b : List Piece) : Bool :=
  a.any fun p => b.any fun q => decide (p.span.1 < q.span.1 + q.span.2) && decide (q.span.1 < p.span.1 + p.span.2)

/-- A piece cut at the multiples of u bytes, at most n times. -/
def cutAt (u : Nat) : Nat → Piece → List Piece
  | 0, _ => []
  | n + 1, p =>
    if p.n = 0 then []
    else
      let m := min p.n (u - p.loc % u)
      { p with n := m } :: cutAt u n { p with loc := p.loc + m, n := p.n - m }
/-- The bytes of a single-copy atomic unit of an access: its width where it is naturally aligned, with the two halves of 16 bytes apart, and 4 otherwise (R233; log entry 9). -/
def unitBytes (ea n : Nat) : Nat := if n ≤ 8 && ea % n == 0 then n else if n = 16 && ea % 16 == 0 then 8 else 4
/-- Pieces cut into units; a block of an alias page is accessed at once (R107, R233, R260). -/
def cutUnits (u : Nat) (ps : List Piece) : List Piece := ps.flatMap fun p => if p.mx = 0 then cutAt u p.n p else [p]

/-- A piece cut at the blocks of its alias page (R105, R106). -/
def Piece.blocks (p : Piece) : List Piece := if p.mx = 0 || p.peer then [p] else cutAt 64 p.n p

/-- n bytes of a peer device's memory as they stand now, which this machine does not hold (R219). -/
def peerRead (now a : Nat) : Nat → Nat
  | 0 => 0
  | n + 1 => (Config.peerByte now a).toNat + 256 * peerRead now (a + 1) n

/-- The bytes of a piece of an access, through the bf16 view where its page is an alias page (R105). -/
def pieceRead (s : State) (p : Piece) : Nat :=
  if p.peer then peerRead s.now p.loc p.n
  else if p.mx = 0 then keyRead s p.key p.loc p.n
  else
    let base := p.loc / 64 * 64
    bytesOf (aliasView p.mx (keyRead s p.key base 64)) (p.loc - base) p.n

/-- The bytes of a piece written, by AliasWrite where its page is an alias page (R106); those of a peer page change no memory of this device. -/
def pieceWrite (s : State) (p : Piece) (v : Nat) : State :=
  if p.peer then s
  else if p.mx = 0 then keyWrite s p.key p.loc p.n v
  else
    let base := p.loc / 64 * 64
    let old := if p.n = 64 then 0 else aliasView p.mx (keyRead s p.key base 64)
    keyWrite s p.key base 64 (aliasStore p.mx (putBytes old (p.loc - base) p.n v))

/-- All pieces of an access read, the first lowest (R234). -/
def piecesRead (s : State) : List Piece → Nat
  | [] => 0
  | p :: r => pieceRead s p + 256 ^ p.n * piecesRead s r

/-- All pieces of an access written. -/
def piecesWrite (s : State) : List Piece → Nat → State
  | [], _ => s
  | p :: r, v => piecesWrite (pieceWrite s p v) r (v / 256 ^ p.n)

end Sys2Proof.Machine
end

