-- ==== Sys2Proof/Machine/Access.lean ====
section
/-! DEFINITION. Accessors of the state: cores, groups, threads and their registers; guesses, pending writes and penumbra; the frontier; page tables and translation. -/

namespace Sys2Proof.Machine

/-- A task header of zeros. -/
def Hdr.zero : Hdr :=
  { entry := 0, handler := 0, codebase := 0, bptab := 0, ptroot := 0, tx := 0, ty := 0, tz := 0, clw := 0, clh := 0, gx := 0,
    gy := 0, gz := 0, regs := 0, fid := 0, sregs := 0, tsm := 0, wlim := [], flags := 0, energy := 0, peakamp := 0, rsv4c := 0,
    cbmap := 0, spbase := 0, spwin := 0, wbase := [], svsize := 0, svbase := [], args := 0, crec := 0, rsv98 := 0 }

/-- Flags of a task header (R343): co-resident, mirror, snapshot, dead-read trap. -/
def Hdr.cor (h : Hdr) : Bool := h.flags % 2 == 1
def Hdr.mirror (h : Hdr) : Bool := h.flags / 2 % 2 == 1
def Hdr.snap (h : Hdr) : Bool := h.flags / 4 % 2 == 1
def Hdr.dtrap (h : Hdr) : Bool := h.flags / 8 % 2 == 1

/-- The window of a window code (R50). -/
def windowOf : Nat → Nat
  | 0 => 16
  | 1 => 32
  | 2 => 48
  | 3 => 64
  | _ => 96

/-- Granules of a window (R187). -/
def windowGranules (w : Nat) : Nat := w / 16

/-- Whether a number is a control core's: control core c of die d is 640 + 4 × d + c (R421, log entry 19). -/
def isControl (k : Nat) : Bool := decide (640 ≤ k)
/-- The die of a core numbered 0 to 639 or of a control core, and its tile cluster numbered 0 to 39; the clock of a die's control complex is 40 + die (R346, R421). -/
def dieOf (k : Nat) : Nat := if isControl k then (k - 640) / 4 else k / 160
def tcOf (k : Nat) : Nat := if isControl k then 40 + (k - 640) / 4 else k / 16

/-- The one thread of a control core, held as thread 0 of slot 0, with v0 to v95 and no s registers (R421). -/
def controlGroup : Group :=
  { uid := 0, lseq := 0, team := 0, gnum := 0, s := [], jm := [], ja := [], frontier := [], spilled := [], subs := [], nextSub := 0, win := 96,
    base := some 0, lvs := 0, ops := [], streak := 0, spinPc := 0, spinDisp := 0, demoted := false, dog := 0, dogOff := 0, dogStop := none, bitten := false, swap := .resident,
    faults := [], moving := false, argsLeft := [], argFailed := none, tiles := [], threads := [Thread.start] }
/-- What an unlisted core reads as. -/
def startCore (k : Nat) : Core :=
  if isControl k then { Core.start with ctx := { Ctx.empty with groups := [(0, controlGroup)] } } else Core.start

def coreAt (s : State) (k : Nat) : Core := tget (startCore k) s.cores k
def setCore (s : State) (k : Nat) (c : Core) : State := { s with cores := tput s.cores k c }
def modCore (s : State) (k : Nat) (f : Core → Core) : State := setCore s k (f (coreAt s k))
def tcAt (s : State) (n : Nat) : Tc := tget Tc.start s.tcs n
def modTc (s : State) (n : Nat) (f : Tc → Tc) : State := { s with tcs := tput s.tcs n (f (tcAt s n)) }
def dieAt (s : State) (d : Nat) : Die := tget Die.start s.dies d
def modDie (s : State) (d : Nat) (f : Die → Die) : State := { s with dies := tput s.dies d (f (dieAt s d)) }
def teamAt (s : State) (u : Nat) : Option Team := tfind s.teams u
def modTeam (s : State) (u : Nat) (f : Team → Team) : State := { s with teams := tmod s.teams u f }
def launchAt (s : State) (l : Nat) : Option Launch := tfind s.launches l
def modLaunch (s : State) (l : Nat) (f : Launch → Launch) : State := { s with launches := tmod s.launches l f }
/-- What stands for a launch's header on a control core, which runs the firmware with its own handler (R421). -/
def Hdr.firmware : Hdr := { Hdr.zero with handler := Config.firmwareHandler % 0xFFFFFFFF, regs := 4 }
/-- The header copy of a launch; launches count from 1, and 0 is a control core's firmware. -/
def hdrOf (s : State) (l : Nat) : Hdr := match launchAt s l with
  | some x => x.hdr
  | none => if l = 0 then Hdr.firmware else Hdr.zero

def groupAt (c : Core) (slot : Nat) : Option Group := tfind c.ctx.groups slot
def setGroup (c : Core) (slot : Nat) (g : Group) : Core := { c with ctx := { c.ctx with groups := tput c.ctx.groups slot g } }
def modGroup (c : Core) (slot : Nat) (f : Group → Group) : Core := { c with ctx := { c.ctx with groups := tmod c.ctx.groups slot f } }
def setBundle (c : Core) (bid : Nat) (b : Bundle) : Core := { c with ctx := { c.ctx with bundles := tput c.ctx.bundles bid b } }
def delBundle (c : Core) (bid : Nat) : Core := { c with ctx := { c.ctx with bundles := tdel c.ctx.bundles bid } }
def bundleAt (c : Core) (bid : Nat) : Option Bundle := tfind c.ctx.bundles bid

/-- The length of what two intervals share. -/
def shared (a b lo hi : Nat) : Nat := min b hi - max a lo
/-- What n periods of a tile cluster's clock take, in MHz × ns at the effective cap: 1,000 each, and twice that in a stretched period (R356, R358). -/
def Tc.cost (t : Tc) (n : Nat) : Nat := 1000 * (n + shared t.cyc (t.cyc + n) t.stretchAt t.stretch)
/-- The periods that a time has room for (R356, R371). -/
def Tc.fits (t : Tc) (x : Nat) : Nat :=
  let plain := t.stretchAt - t.cyc
  let long := t.stretch - max t.cyc t.stretchAt
  if long = 0 || x / 1000 ≤ plain then x / 1000
  else
    let r := x - 1000 * plain
    if r / 2000 < long then plain + r / 2000 else plain + long + (r - 2000 * long) / 1000
/-- The time that a tile cluster's clock has had since its last advance, and has left over from it, in MHz × ns. -/
def Tc.since (t : Tc) (now : Nat) : Nat := t.room + t.feff * (now - t.mark)
/-- CYC of a tile cluster advanced by periods that its cap has left time for since its last advance, n at most, up to a time; time that it does not use then is lost, but for a part of a period (R356, R371; log entry 74). -/
def Tc.run (now n : Nat) (t : Tc) : Tc :=
  let x := t.since now
  let m := min n (t.fits x)
  { t with cyc := t.cyc + m, mark := now, room := min (x - t.cost m) 1749 }
/-- CYC of a tile cluster brought up to a time, by every period that its cap has left time for (R356; log entry 74). -/
def Tc.upTo (now : Nat) (t : Tc) : Tc := t.run now (t.fits (t.since now))
/-- The clock of a tile cluster brought up to now, before what its periods so far decide or what changes their length (R358, R361, R363, R395); that of a stopped die stands (R368). -/
def settleTc (s : State) (n : Nat) : State := if (dieAt s (n / 10)).stopped then s else modTc s n (Tc.upTo s.now)

/-- CYC of a core (R129). -/
def cycOf (s : State) (k : Nat) : Nat := (tcAt s (tcOf k)).cyc

/-- The running bundle of a selector. -/
def runOf (c : Core) (sel : Nat) : Option Nat := if sel = 0 then c.ctx.run0 else c.ctx.run1
def setRun (c : Core) (sel : Nat) (r : Option Nat) : Core :=
  if sel = 0 then { c with ctx := { c.ctx with run0 := r } } else { c with ctx := { c.ctx with run1 := r } }

/-- The selector of a group slot (R165). -/
def selOf (slot : Nat) : Nat := slot / 2 % 2

/-- Groups of a context with the group of one number changed. -/
def modUid (t : Tab Group) (u : Nat) (f : Group → Group) : Tab Group := tmap t fun _ g => if g.uid = u then f g else g
/-- The group of a number changed, wherever its context lies (R211, R383). -/
def modOwner (c : Core) (u : Nat) (f : Group → Group) : Core :=
  { c with ctx := { c.ctx with groups := modUid c.ctx.groups u f },
           saved := { c.saved with groups := modUid c.saved.groups u f },
           shadow := { c.shadow with groups := modUid c.shadow.groups u f } }
/-- The groups of a context that have a number. -/
def findUid : Tab Group → Nat → Option Group
  | [], _ => none
  | (_, g) :: r, u => if g.uid = u then some g else findUid r u
/-- The group of a number. -/
def owner (c : Core) (u : Nat) : Option Group :=
  match findUid c.ctx.groups u with
  | some g => some g
  | none => match findUid c.saved.groups u with
    | some g => some g
    | none => findUid c.shadow.groups u

def threadAt (g : Group) (i : Nat) : Thread := lget Thread.start g.threads i
def modThread (g : Group) (i : Nat) (f : Thread → Thread) : Group := { g with threads := lmod g.threads i f }
def mapThreads (g : Group) (f : Nat → Thread → Thread) : Group := { g with threads := imap f 0 g.threads }

/-- A thread register; an unlisted one reads 0, live and without penumbra (R8). -/
def vreg (t : Thread) (d : Nat) : VReg := tget ⟨0, false, false⟩ t.v d
/-- A thread register written: the write clears its dead mark (R16). -/
def setV (t : Thread) (d : Nat) (val : Word) (pen : Bool) : Thread := { t with v := tput t.v d ⟨val, pen, false⟩ }
/-- A predicate; p0 is true and never guessed (R8). -/
def preg (t : Thread) (p : Nat) : PReg := if p = 0 then ⟨true, false⟩ else tget ⟨false, false⟩ t.p p
/-- A predicate written; a write to p0 is discarded (R47). -/
def setP (t : Thread) (p : Nat) (val pen : Bool) : Thread := if p = 0 then t else { t with p := tput t.p p ⟨val, pen⟩ }
/-- A scalar register; s0 reads zero (R8). -/
def sreg (g : Group) (i : Nat) : Reg := if i = 0 then ⟨0, false⟩ else tget ⟨0, false⟩ g.s i
/-- A scalar register written; a write to s0 is discarded (R16). -/
def setS (g : Group) (i : Nat) (val : Word) (pen : Bool) : Group := if i = 0 then g else { g with s := tput g.s i ⟨val, pen⟩ }
/-- Latch k of a pipe (R39). -/
def latch (t : Thread) (pipe : Pipe) (k : Nat) : Reg := lget ⟨0, false⟩ (if pipe = .f then t.ringF else t.ringI) k
/-- Whether latch k of a pipe is lost (R40). -/
def latchLost (t : Thread) (pipe : Pipe) (k : Nat) : Bool := decide ((if pipe = .f then t.ringF else t.ringI).length < k + 1)
/-- A result pushed onto the ring of the I or F pipe (R39). -/
def pushLatch (t : Thread) (pipe : Pipe) (val : Word) (pen : Bool) : Thread :=
  match pipe with
  | .i => { t with ringI := (⟨val, pen⟩ :: t.ringI).take 4 }
  | .f => { t with ringF := (⟨val, pen⟩ :: t.ringF).take 4 }
  | _ => t
/-- A thread whose latches are lost (R40). -/
def loseLatches (t : Thread) : Thread := { t with ringI := [], ringF := [] }

/-- Every v and p penumbra bit cleared, and FPEN with them (R146). -/
def clearPens (t : Thread) : Thread :=
  { t with v := tmap t.v (fun _ r => { r with pen := false }), p := tmap t.p (fun _ r => { r with pen := false }), fpen := false }

/-- Whether a load is a guess that its registers may still hold: its data have not been compared, or a gdemand of it has still to install them (R20, R28, R29). -/
def Load.guessed (l : Load) : Bool := l.written && l.guess.isSome && !l.detached
/-- Whether a load is an unresolved guess (R20, R28); one whose data have come to a waiting gdemand is not (R29). -/
def Load.unresolved (l : Load) : Bool := l.guessed && l.came.isNone
/-- Whether a load concerns a thread of a group; a uniform load concerns every thread (R240). -/
def Load.concerns (l : Load) (u i : Nat) : Bool := l.own == u && (l.thr == some i || l.thr == none)
/-- Whether a thread has an unresolved guess (R20, R240). -/
def unresolved (c : Core) (g : Group) (i : Nat) : Bool := c.loads.any fun l => l.unresolved && l.concerns g.uid i
/-- Whether a thread has a guess that its registers may still hold. -/
def guessing (c : Core) (g : Group) (i : Nat) : Bool := c.loads.any fun l => l.guessed && l.concerns g.uid i
/-- Whether a group has an unresolved uniform-load guess, and one that its registers may still hold. -/
def unresolvedS (c : Core) (g : Group) : Bool := c.loads.any fun l => l.unresolved && l.own == g.uid && l.thr == none
def guessingS (c : Core) (g : Group) : Bool := c.loads.any fun l => l.guessed && l.own == g.uid && l.thr == none
/-- Whether a thread has loads that have not resolved (R23). DESIGN CHOICE: a uniform load of its group counts only while its guess is unresolved; one with neither data nor guess, or one that gaccept.s has detached, is the group's alone (R240, R242; log entry 76). -/
def hasLoads (c : Core) (g : Group) (i : Nat) : Bool :=
  c.loads.any fun l => l.own == g.uid && l.came.isNone && (l.thr == some i || (l.thr == none && (l.unresolved || (l.kind == .fill && hasBit l.po i))))

/-- The matrix words of a core that have not taken effect, in every context (R285, R382). -/
def Ctx.matrixWords (x : Ctx) : List MWord := x.mq0 ++ x.mq1 ++ x.engine.toList
def Core.matrixWords (c : Core) : List MWord := c.ctx.matrixWords ++ c.saved.matrixWords ++ c.shadow.matrixWords

/-- The readout of a matrix word that has yet to write a register of a thread (R320). -/
def MWord.readout (w : MWord) (u i d : Nat) : Bool :=
  match w.what with
  | .ard _ _ rows dsts => w.own == u && hasBit rows i && dsts.contains d
  | _ => false

/-- Whether a request writes a register of a thread, or with none an s register: a vfill and a predicate of a uniform word write in the threads of their po (R255, R333). -/
def Load.targets (l : Load) (thr : Option Nat) (reg : Nat) : Bool :=
  l.dsts.contains reg && (if l.kind = .fill || (l.thr = none && 1000 ≤ reg) then (match thr with
    | some i => hasBit l.po i
    | none => false) else l.thr == thr)
/-- Whether a register write of a load, reply or readout is pending: a v register d of thread i, or a predicate as 1000 + p; with thr none an s register (R15, R320, R333). -/
def pendingReg (c : Core) (g : Group) (r : RegRef) : Bool :=
  (c.loads.any fun l => l.own == g.uid && !l.written && l.targets r.thr r.reg) ||
  (match r.thr with
   | none => false
   | some i => c.matrixWords.any fun w => w.readout g.uid i r.reg)

/-- R20: with no unresolved guess and RF clear, the v and p penumbra bits and CG clear. -/
def settleThread (c : Core) (g : Group) (i : Nat) (t : Thread) : Thread :=
  if t.rf || guessing c g i then t else { clearPens t with cg := false }

/-- Whether R241 clears the s penumbra bits of a group. -/
def quietS (c : Core) (g : Group) : Bool :=
  !guessingS c g && (List.range 32).all fun i => let t := threadAt g i; t.ended || (!t.rf && !guessing c g i)

/-- R241: when no thread and no uniform load of the group holds a guess, the s penumbra bits clear. -/
def settleS (c : Core) (g : Group) : Group :=
  if quietS c g then { g with s := tmap g.s fun _ r => { r with pen := false } } else g

/-- R20 and R241 for a group. -/
def settleGroup (c : Core) (g : Group) : Group := settleS c (mapThreads g (settleThread c g))

/-- The row guess flags that queued updates of a group would set are cancelled (R287). -/
def cancelRg (u : Nat) (w : MWord) : MWord :=
  match w.what with
  | .update sr fmt mx rows a b xa xb _ => if w.own = u then { w with what := .update sr fmt mx rows a b xa xb 0 } else w
  | _ => w

/-- The settings that a group's queued updates would make cancelled in the context that holds the group. -/
def Ctx.cancelRg (u : Nat) (x : Ctx) : Ctx := if (findUid x.groups u).isNone then x else { x with mq0 := x.mq0.map (Machine.cancelRg u), mq1 := x.mq1.map (Machine.cancelRg u), engine := x.engine.map (Machine.cancelRg u) }

/-- A group's row guess flags cleared (R287). -/
def Group.clearRg (g : Group) : Group := { g with tiles := tmap g.tiles fun _ t => { t with rg := 0 } }

/-- R20, R241 and R287 for the group of a number: penumbra bits clear, and the row guess flags of its tiles with the s bits. -/
def settle (c : Core) (u : Nat) : Core :=
  match owner c u with
  | none => c
  | some g =>
    if quietS c g then
      let c1 := modOwner c u fun x => (settleGroup c x).clearRg
      { c1 with ctx := c1.ctx.cancelRg u, saved := c1.saved.cancelRg u, shadow := c1.shadow.cancelRg u }
    else modOwner c u (settleGroup c)

/-- The rank of a candidate (R170). -/
structure Rank where
  promoted : Bool
  prio : Nat
  age : Nat
  start : Nat
deriving DecidableEq, Repr

/-- R170: promoted first; promoted entries by age and then start; others by priority, age and start. -/
def outranks (x y : Rank) : Bool :=
  if x.promoted != y.promoted then x.promoted
  else if !x.promoted && x.prio != y.prio then x.prio > y.prio
  else if x.age != y.age then x.age < y.age
  else x.start < y.start

/-- The rank of a frontier entry. -/
def FEntry.rank (e : FEntry) : Rank := ⟨e.promoted, e.prio, e.age, e.start.toNat⟩

/-- Threads added at a count of cycles to the entry of a start, where there is one. -/
def addWait (cyc : Nat) (start mask : Word) : List FEntry → Option (List FEntry)
  | [] => none
  | e :: r => if e.start = start then some ({ e with wait := e.wait ||| mask, joined := cyc } :: r) else (addWait cyc start mask r).map (e :: ·)

/-- An entry created at a timestamp and a count of cycles; its priority is still to be read, and prio is the one that it ranks with until then: for a new entry among 17 what the table holds now (log entry 49). DESIGN CHOICE: a resident entry whose own read is still outstanding when a 17th entry comes ranks with the priority that its creation gave it, 0 where that was not read (R168, R171, R428; log entry 76). -/
def newEntry (now cyc prio : Nat) (start mask : Word) : FEntry :=
  { start := start, prio := prio, wait := mask, age := now, cyc := cyc, joined := cyc, promoted := false, ready := false, fid := none }

/-- The lowest-ranked entry of a list. -/
def lowest (es : List FEntry) : Option FEntry := lbest (fun x y => outranks y.rank x.rank) es

/-- Two entries of one start merged: they keep the older age and either promotion (R171). -/
def mergeEntry (a b : FEntry) : FEntry :=
  { a with wait := a.wait ||| b.wait, age := min a.age b.age, cyc := min a.cyc b.cyc, joined := max a.joined b.joined, promoted := a.promoted || b.promoted }

/-- A spilled entry back in its group's frontier, merged with a resident one of its start (R171). -/
def returnEntry (g : Group) (e : FEntry) : Group :=
  { g with frontier := if g.frontier.any fun x => x.start == e.start then g.frontier.map fun x => if x.start = e.start then mergeEntry x e else x else g.frontier ++ [e] }

/-- R169, R171: threads join the group's frontier at a block start; a 17th entry spills the lowest-ranked one. prio is the priority that the start's block has in the table now. -/
def joinGroup (now cyc prio : Nat) (g : Group) (start mask : Word) : Group :=
  match addWait cyc start mask g.frontier with
  | some f => { g with frontier := f }
  | none =>
    let f := g.frontier ++ [newEntry now cyc prio start mask]
    if f.length ≤ 16 then { g with frontier := f }
    else match lowest f with
      | none => { g with frontier := f }
      | some e => { g with frontier := f.filter (fun x => x.start != e.start), spilled := e :: g.spilled }

/-- R375: threads join the frontier of a parked sub-group, or none where that would make a ninth entry. -/
def joinSub (now cyc : Nat) (g : Group) (sub : Nat) (start mask : Word) : Option Group :=
  match tfind g.subs sub with
  | none => some g
  | some x =>
    match addWait cyc start mask x.frontier with
    | some f => some { g with subs := tput g.subs sub { x with frontier := f } }
    | none =>
      if x.frontier.length < 8 then
        some { g with subs := tput g.subs sub { x with frontier := x.frontier ++ [newEntry now cyc 0 start mask] } }
      else none

/-- The bits [hi:lo] of a translation entry that the walker reads (R224). -/
def leafKey (e : Nat) : Nat := slice e 59 49
def leafPpn (e : Nat) : Nat := slice e 48 14
def leafSx (e : Nat) : Bool := e / 2 ^ 12 % 2 == 1
def leafAlias (e : Nat) : Nat := slice e 11 10
def leafKind (e : Nat) : Nat := slice e 9 8
def leafCw (e : Nat) : Bool := e / 32 % 2 == 1
def leafX (e : Nat) : Bool := e / 16 % 2 == 1
def leafW (e : Nat) : Bool := e / 8 % 2 == 1
def leafR (e : Nat) : Bool := e / 4 % 2 == 1
def isLeaf (e : Nat) : Bool := e / 2 % 2 == 1
def isValid (e : Nat) : Bool := e % 2 == 1

/-- The lowest VA bit that a level indexes, and how many bits it indexes (R223). -/
def levelShift : Nat → Nat
  | 0 => 41
  | 1 => 30
  | 2 => 21
  | _ => 14
def levelBits : Nat → Nat
  | 0 => 15
  | 1 => 11
  | 2 => 9
  | _ => 7

/-- The rank that a peer physical address names, by R216: PA[48:46] = 0 and PA[45:39] = r + 1. -/
def peerRank (pa : Nat) : Option Nat :=
  if pa < 2 ^ 39 then none else if slice pa 48 46 = 0 && slice pa 45 39 ≥ 1 then some (slice pa 45 39 - 1) else none

/-- Whether a leaf maps a peer page that R219 allows. -/
def peerOk (s : State) (e : Nat) : Bool :=
  let pa := leafPpn e * 2 ^ 14
  if pa < 2 ^ 39 then true
  else match peerRank pa, s.job with
    | some r, some j => decide (r < j.ranks) && r != j.rank && leafAlias e == 0 && !leafX e
    | _, _ => false

/-- Whether the walker reports an entry at a level as malformed (R224). -/
def malformed (s : State) (level e : Nat) : Bool :=
  if isLeaf e then
    level == 0 || slice e 63 60 != 0 || e / 2 ^ 13 % 2 == 1 || leafKind e == 3 || leafAlias e == 3 ||
    (leafAlias e != 0 && leafX e) || (leafW e && !leafR e) ||
    leafPpn e * 2 ^ 14 % 2 ^ levelShift level != 0 || !peerOk s e
  else
    level == 3 || e != 1 + slice e 48 10 * 2 ^ 10 ||
    slice e 48 10 * 2 ^ 10 % (8 * 2 ^ levelBits (level + 1)) != 0 || slice e 48 10 * 2 ^ 10 ≥ 2 ^ 39

/-- The access kind of a vspill and of a vfill, both of which a fault record names as 6 (R227), and of a block priority read, an instruction fetch (R428). -/
def spillAccess : Nat := 6
def fillAccess : Nat := 14
def prioAccess : Nat := 7
/-- The kind that a fault record names. -/
def accessCode (access : Nat) : Nat := if access = prioAccess then 3 else if access = fillAccess then 6 else access

/-- Whether a leaf permits an access of a kind. A vspill, which writes, asks for W, and a vfill, which reads, for R; R224 names neither (log entry 57). A block priority read asks for R or X (R428). -/
def permitted (access e : Nat) : Bool :=
  match access with
  | 0 => leafR e
  | 1 => leafW e
  | 2 => leafW e
  | 3 => leafX e
  | 4 => leafR e
  | 5 => leafW e
  | 6 => leafW e
  | 14 => leafR e
  | _ => leafR e || leafX e

/-- Whether an access kind writes. -/
def writes (access : Nat) : Bool := access == 1 || access == 2 || access == 5 || access == 6

/-- Whether a walk is under way. -/
def Walk.active (w : Walk) : Bool := w.fid.isNone && !w.fatal && !w.failed
/-- Whether a die's walker has room for one more walk: it holds 64 (R225). -/
def walkerFree (s : State) (die : Nat) : Bool := decide ((s.cores.map fun x => if dieOf x.1 = die then (x.2.walks.filter Walk.active).length else 0).sum < 64)

/-- What a walk ends with: the leaf, its level and its entry's address, or a fault of a kind (1 to 4) at a level (R226, R227). -/
inductive WalkEnd where
  | leaf (e level at' : Nat)
  | fault (kind level : Nat)
deriving DecidableEq, Repr

/-- The table walk from a level on (R223 to R226), through the home caches. DESIGN CHOICE: the walker reads the entries, and an update of A and D writes them, under no key slot, which the manual does not name for tables (log entry 77). -/
def walkFrom (s : State) (va access : Nat) : Nat → Nat → Nat → WalkEnd
  | 0, _, level => .fault 3 level
  | fuel + 1, base, level =>
    let at' := base + 8 * (va / 2 ^ levelShift level % 2 ^ levelBits level)
    let e := memRead s.mem at' 8
    if !isValid e then .fault 1 level
    else if malformed s level e then .fault 3 level
    else if isLeaf e then
      if !permitted access e then .fault 2 level
      else if (tfind s.keys (leafKey e)).isNone && leafPpn e * 2 ^ 14 < 2 ^ 39 then .fault 4 level
      else .leaf e level at'
    else walkFrom s va access fuel (slice e 48 10 * 2 ^ 10) (level + 1)

/-- The walk of an address under a root (R223). -/
def walkTable (s : State) (root va access : Nat) : WalkEnd := walkFrom s va access 4 root 0

/-- The leaf of a walk with its A and D bits set as the access asks (R224). -/
def touched (access e : Nat) : Nat :=
  let e1 := if e / 64 % 2 == 1 then e else e + 64
  if writes access && e1 / 128 % 2 == 0 then e1 + 128 else e1

/-- The translation-cache entry that covers an address, permits the access, needs no update of A or D, and names a key slot that is loaded, or a peer's (R219, R224 to R228, R417). -/
def tlbHit (s : State) (c : Core) (root va access : Nat) : Option TlbEntry :=
  lfind (fun t => t.root == root && decide (t.va ≤ va) && decide (va < t.va + t.size) && permitted access t.leaf && ((tfind s.keys (leafKey t.leaf)).isSome || decide (2 ^ 39 ≤ leafPpn t.leaf * 2 ^ 14)) &&
    touched access t.leaf == t.leaf) c.tlb

/-- A core's translation cache without the entries of an address that lack the permission that an access needs: such a hit counts as a miss, and the entry is dropped (R226). -/
def dropLacking (root va access : Nat) (c : Core) : Core :=
  { c with tlb := c.tlb.filter fun t => !(t.root == root && decide (t.va ≤ va) && decide (va < t.va + t.size) && !permitted access t.leaf) }
/-- Whether a walk is one that an access waits for: of the same group and thread, address and kind; a silent walk that has failed is none of an access that is not silent, which walks anew (R21, R226). -/
def Walk.answers (w : Walk) (own va access : Nat) (thr : Option Nat) (spec : Bool) : Bool :=
  w.own == own && w.va == va && w.access == access && w.thr == thr && (spec || !(w.spec && w.failed))
/-- The physical address under a translation-cache entry. -/
def TlbEntry.pa (t : TlbEntry) (va : Nat) : Nat := leafPpn t.leaf * 2 ^ 14 + (va - t.va)

/-- The piece of an access at a physical address under a leaf: home die by PA[38:37], key by slot (R216, R228). -/
def leafPiece (s : State) (leaf pa n : Nat) : Piece :=
  { loc := pa, n := n, die := slice pa 38 37, key := tfind s.keys (leafKey leaf), kind := leafKind leaf, mx := leafAlias leaf,
    sx := leafSx leaf, cw := leafCw leaf, peer := decide (2 ^ 39 ≤ pa) }

/-- SCR of a die as a change that has been made gives it (R215). -/
def scrNow (d : Die) : Nat := if d.applied then d.scrNext.getD d.scr else d.scr
/-- Lines of the memory-side cache exist on a die unless all its SRAM is scratchpad (R217). -/
def cached (d : Die) : Bool := scrNow d != 15
/-- The 128-byte lines that a piece touches. -/
def linesOf (p : Piece) : List Nat := if p.n = 0 then [] else (List.range ((p.loc + p.n - 1) / 128 - p.loc / 128 + 1)).map fun j => p.loc / 128 + j
/-- Whether a piece is of a device's own HBM, whose lines the home caches hold (R216, R219). -/
def Piece.hbm (p : Piece) : Bool := !p.peer && decide (p.loc < scratchBase)

/-- The stack of a piece in HBM (R216). -/
def stackOf (p : Piece) : Option Nat := if p.peer || decide (2 ^ 39 ≤ p.loc) then none else some (slice p.loc 38 36)
/-- Whether a die's cache holds every line of a piece, so that the access does not reach its stack (R216). -/
def lineHit (d : Die) (p : Piece) : Bool := cached d && p.mx == 0 && (linesOf p).all fun l => (tfind d.cache l).isSome
/-- A die whose stack and cache serve a piece: a request that reaches its stack ends the stack's low-power mode (R221), and its lines are brought in, and dirtied by a write (R216); an access through a bf16 view allocates none, and dirties one that is present (R229). -/
def serve (dirty : Bool) (p : Piece) (d : Die) : Die :=
  let d1 := if d.lowPower.isEmpty || lineHit d p then d else { d with lowPower := tdel d.lowPower (slice p.loc 36 36) }
  if !cached d then d1
  else (linesOf p).foldl (fun d l =>
    if p.mx != 0 && (tfind d.cache l).isNone then d else { d with cache := tput d.cache l (dirty || (tget false d.cache l)) }) d1
/-- Pieces of HBM that an access reads, or writes, at their home dies. -/
def bringLines (s : State) (dirty : Bool) (ps : List Piece) : State := ps.foldl (fun a p => if p.hbm then modDie a p.die (serve dirty p) else a) s

/-- A translation entry as a piece of an access. -/
def entryPiece (at' : Nat) : Piece :=
  { loc := at', n := 8, die := slice at' 38 37, key := none, kind := 0, mx := 0, sx := false, cw := false, peer := false }
/-- The entries that a walk reads, as pieces of accesses (R225). -/
def walkReads (s : State) (va : Nat) : Nat → Nat → Nat → List Piece
  | 0, _, _ => []
  | fuel + 1, base, level =>
    let at' := base + 8 * (va / 2 ^ levelShift level % 2 ^ levelBits level)
    let e := memRead s.mem at' 8
    entryPiece at' ::
      (if isValid e && !malformed s level e && !isLeaf e then walkReads s va fuel (slice e 48 10 * 2 ^ 10) (level + 1) else [])
/-- A walk of the tables with the lines that its reads bring (R225). -/
def walked (s : State) (root va access : Nat) : State × WalkEnd := (bringLines s false (walkReads s va 4 root 0), walkTable s root va access)

/-- n bytes at a virtual address, read through a core's translations or the tables, or none where no translation permits it. -/
def peekVa (s : State) (c : Core) (root va access n : Nat) : Option Nat :=
  match tlbHit s c root va access with
  | some t => some (pieceRead s (leafPiece s t.leaf (t.pa va) n))
  | none =>
    match walkTable s root va access with
    | .leaf e level _ =>
      some (pieceRead s (leafPiece s e (leafPpn e * 2 ^ 14 + va % 2 ^ levelShift level) n))
    | .fault _ _ => none

/-- The state of a peer link. -/
def linkAt (s : State) (l : Nat) : LinkState := tget .w4 s.links l
/-- Whether a link moves flits. -/
def linkWorks (s : State) (l : Nat) : Bool := match linkAt s l with
  | .rcv => false
  | .down => false
  | _ => true
/-- The links of the job's peer table that reach a rank and are not DOWN (R408). -/
def peerLinks (s : State) (r : Nat) : List Nat :=
  match s.job with
  | none => []
  | some j => (List.range 16).filter fun l => lget 0 j.table r / 2 ^ l % 2 == 1 && linkAt s l != .down
/-- The link that the line of a peer address takes: its line index modulo the count of the rank's links (R408). -/
def lineLink (s : State) (pa : Nat) : Option Nat :=
  let ls := peerLinks s ((peerRank pa).getD 64)
  if ls.isEmpty then none else some (lget 0 ls (pa / 128 % ls.length))
/-- The paths that writes of a core to a die take: two to the diagonal die and one to an adjacent one, and to a peer device, numbered from 4, its links (R218, R275, R403, R408). -/
def pathsTo (s : State) (k die : Nat) : List Nat := if 4 ≤ die then peerLinks s (die - 4) else if die + dieOf k = 3 then [0, 1] else [0]
/-- The path that a write's piece takes: to the diagonal die by bit 0 of the 128-byte line index, through die (source XOR 1) or (source XOR 2) (R403), and to a peer by its line's link (R408). -/
def pathOf (s : State) (k : Nat) (p : Piece) : Nat := if p.peer then (lineLink s p.loc).getD 16 else if p.die + dieOf k = 3 then p.loc / 128 % 2 else 0

/-- The groups of a team (R164). -/
def Hdr.groups (h : Hdr) : Nat := h.tx * h.ty * h.tz / 32
/-- Bytes of a team record that one group takes: 4,096, its s registers, and 96 column records of up to 137 bytes (R384). -/
def Hdr.groupRecord (h : Hdr) : Nat := 4096 + 4 * h.sregs + 137 * 96
/-- TR: the bytes of a team record (R384). -/
def Hdr.record (h : Hdr) : Nat :=
  let n := 1024 + h.groups * h.groupRecord + h.tsm + min (8 * h.groups) 32 * 8256
  16384 * ((n + 16383) / 16384)

/-- The location of a byte of a team's record: the records of a launch follow each other in its save area on the die (R384; log entry 37). -/
def saveLoc (s : State) (t : Team) (off : Nat) : Nat :=
  let h := hdrOf s t.lseq
  scratchLoc (dieOf t.core) (lget 0 h.svbase (dieOf t.core) + h.record * t.place + off)
/-- Where a group's s register i, its column j, byte i of the team's TSM, and the team's slot j stand in the record: the terms of TR in their order (R384; log entry 37). -/
def sOff (h : Hdr) (gnum i : Nat) : Nat := 1024 + gnum * h.groupRecord + 4096 + 4 * i
def columnOff (h : Hdr) (gnum j : Nat) : Nat := 1024 + gnum * h.groupRecord + 4096 + 4 * h.sregs + 137 * j
def tsmOff (h : Hdr) (i : Nat) : Nat := 1024 + h.groups * h.groupRecord + i
def tileOff (h : Hdr) (j : Nat) : Nat := 1024 + h.groups * h.groupRecord + h.tsm + 8256 * j

/-- The groups of a team among some. -/
def groupsIn (t : Tab Group) (u : Nat) : List Group := (t.map (·.2)).filter fun g => g.team == u
/-- Byte address of a packet (R8). -/
def packetVa (h : Hdr) (n : Nat) : Nat := (h.codebase + 12 * n) % 2 ^ 64

/-- A word of the private SRAM of a die's control complex, 2 MiB long, or none past its end (R421). -/
def sramWord (s : State) (die off : Nat) : Option Nat := if off + 4 ≤ 2 ^ 21 then some (memRead s.mem (sramLoc die off) 4) else none
/-- An instruction word at an address, as a core finds it; a control core runs from its SRAM (R226, R421). -/
def peekCode (s : State) (k : Nat) (h : Hdr) (va : Nat) : Option Nat :=
  if isControl k then sramWord s (dieOf k) va else peekVa s (coreAt s k) h.ptroot va 3 4

/-- Whether a packet is sealed: bit 31 of its word 2 (R30); none where it cannot be read. The manual does not say what a check of a packet finds whose page does not translate: the words that check (R33, R135) then find it unsealed (log entry 58). -/
def sealedAt (s : State) (k : Nat) (h : Hdr) (n : Nat) : Option Bool :=
  (peekCode s k h (packetVa h n + 8)).map fun w => w / 2 ^ 31 % 2 == 1

/-- Whether a packet is the first of a block: packet 0, or after a sealed packet (R31, R429). -/
def isBlockStart (s : State) (k : Nat) (h : Hdr) (n : Nat) : Bool :=
  n == 0 || sealedAt s k h (n - 1) == some true

/-- R14: loop entries whose range the target leaves are popped; stacks are top first. -/
def popLeft : List Loop → Word → List Loop
  | [], _ => []
  | l :: r, t => if l.start.toNat ≤ t.toNat && t.toNat ≤ l.stop.toNat then l :: popLeft r t else popLeft r t

/-- NextPC (R14): the next packet of a thread that completes packet P, and its loop stack. -/
def nextPc (t : Thread) (p : Word) : Word × List Loop :=
  match t.xfer with
  | some q => (q, popLeft t.loops q)
  | none =>
    match t.loops with
    | [] => (p + 1, [])
    | l :: r =>
      if l.stop = p then
        let n := l.count - 1
        if n = 0 then (p + 1, r) else (l.start, { l with count := n } :: r)
      else (p + 1, l :: r)

end Sys2Proof.Machine
end

