-- ==== Sys2Proof/Machine/Launch.lean ====
section
/-! DEFINITION. Events and fault records; operation counters; rejoin and barrier releases; the end of threads, groups, teams and launches; rollback. -/

namespace Sys2Proof.Machine

/-- Whether an event may be written on a channel now (R415). -/
def eventRoom (ch : Nat) (c : Channel) : Bool := ch != 0 || decide (c.ewrit < c.eack + c.ersize)

/-- The 64 bytes of an event entry (R414). -/
def eventBytes (seq type die payload : Nat) : Nat := seq % 2 ^ 64 + type * 2 ^ 64 + die * 2 ^ 80 + payload % 2 ^ 384 * 2 ^ 128

def channelAt (s : State) (ch : Nat) : Channel := tget Channel.start s.channels ch
def setChannel (s : State) (ch : Nat) (c : Channel) : State := { s with channels := tput s.channels ch c }

/-- An event written on a channel with room: over PCIe into the host's ring (R414, R419). -/
def writeEvent (s : State) (ch type die payload : Nat) : State :=
  let c := channelAt s ch
  let e : Event := ⟨c.ewrit + 1, type, die, payload⟩
  let s1 := setChannel s ch { c with events := c.events ++ [e], ewrit := c.ewrit + 1, unsignalled := c.unsignalled + 1,
                                      oldest := if c.unsignalled = 0 then s.now else c.oldest, sent := c.sent + 1,
                                      resent := if ch = 0 then c.resent else tput c.resent (c.ewrit + 1) s.now }
  if ch = 0 && c.ersize != 0 then
    { s1 with mem := memWrite s1.mem (hostBase + c.erbase + 64 * (c.ewrit % c.ersize)) 64 (eventBytes e.seq type die payload) }
  else s1

/-- Whether a channel's ring has room now for one more event, behind none that waits (R415). -/
def canSend (s : State) (ch : Nat) : Bool := let c := channelAt s ch; c.waiting.isEmpty && eventRoom ch c
/-- Whether an attachment has been trained: in minimal mode only the primary one (R424). -/
def attached (s : State) (ch : Nat) : Bool := s.boot.up && decide (ch < 3) && (!s.boot.minimal || ch == s.primary)
/-- An event sent on a channel: written where there is room and none waits before it, and otherwise waiting (R415). -/
def sendOn (s : State) (ch type die payload : Nat) : State :=
  let c := channelAt s ch
  if c.waiting.isEmpty && eventRoom ch c then writeEvent s ch type die payload
  else setChannel s ch { c with waiting := c.waiting ++ [⟨0, type, die, payload⟩] }

/-- An event of the device itself, sent on the primary attachment's channel (R424; log entry 12). -/
def sendEvent (s : State) (type die payload : Nat) : State := sendOn s s.primary type die payload

/-- Waiting events written as far as there is room. -/
def drainEvents : Nat → State → Nat → State
  | 0, s, _ => s
  | n + 1, s, ch =>
    let c := channelAt s ch
    match c.waiting with
    | [] => s
    | e :: r => if eventRoom ch c then drainEvents n (writeEvent (setChannel s ch { c with waiting := r }) ch e.type e.die e.payload) ch else s

/-- Whether the device can queue n trap records now (R380). -/
def recordRoom (s : State) (n : Nat) : Bool :=
  let c := channelAt s s.primary
  c.waiting.isEmpty && (s.primary != 0 || decide (c.ewrit + n ≤ c.eack + c.ersize))

/-- The next number of a die's fault records: upward from 1 modulo 2^32, skipping 0 and the numbers still held (R227). -/
def nextFid : Nat → Die → Nat → Nat
  | 0, _, n => n
  | fuel + 1, d, n =>
    let m := if n % 2 ^ 32 = 0 then 1 else n % 2 ^ 32
    if d.faults.any (fun f => f.fid == m) then nextFid fuel d (m + 1) else m

/-- A fault numbered and held on a die, and its record sent (R226, R227). -/
def newFault (s : State) (d : Nat) (who : Waiter) (va kind access level coreNo slot lseq : Nat) : State × Nat :=
  let x := dieAt s d
  let fid := nextFid 4097 x (x.lastFid + 1)
  let s1 := modDie s d fun y => { y with faults := y.faults ++ [⟨fid, who, va⟩], lastFid := fid }
  let rec' := s.now % 2 ^ 64 + va % 2 ^ 64 * 2 ^ 64 + lseq % 2 ^ 32 * 2 ^ 128 + coreNo * 2 ^ 160 + slot * 2 ^ 176 + kind * 2 ^ 184 +
    accessCode access * 2 ^ 192 + level * 2 ^ 200 + fid * 2 ^ 224
  (sendEvent s1 6 d rec', fid)

/-- Whether a die may hold one more unanswered fault, and its record be sent (R227, R415). -/
def faultRoom (s : State) (d : Nat) : Bool := decide ((dieAt s d).faults.length < 4096) && canSend s s.primary

/-- A translation entry with its A and D bits set for an access (R224). -/
def touchEntry (s : State) (at' access e : Nat) : State :=
  if touched access e = e then s else bringLines { s with mem := memWrite s.mem at' 8 (touched access e) } true [entryPiece at']

/-- The pieces of n bytes at a virtual address of a launch's tables, page by page, and block by block on alias pages, with the A and D bits that the walks set; or the address, kind and level of a fault (R105, R106, R224, R226). -/
inductive Reached where
  | found (ps : List Piece)
  | fault (va kind level : Nat)
deriving DecidableEq, Repr
def reachVa (root access : Nat) : Nat → State → Nat → Nat → State × Reached
  | 0, s, _, _ => (s, .found [])
  | fuel + 1, s, va, n =>
    if n = 0 then (s, .found [])
    else match walked s root va access with
      | (s0, .fault kind level) => (s0, .fault va kind level)
      | (s0, .leaf e level at') =>
        let size := 2 ^ levelShift level
        let len := min n (size - va % size)
        match reachVa root access fuel (touchEntry s0 at' access e) (va + len) (n - len) with
        | (s1, .found ps) => (s1, .found ((leafPiece s e (leafPpn e * 2 ^ 14 + va % size) len).blocks ++ ps))
        | r => r

/-- n bytes written at a virtual address of a launch's tables, or the kind and level of a fault, at which nothing is written (R106, R226). -/
def writeVa (s : State) (root va n v : Nat) : State × Option (Nat × Nat) :=
  match reachVa root 1 2 s va n with
  | (s1, .found ps) => (bringLines (piecesWrite s1 ps v) true ps, none)
  | (s1, .fault _ kind level) => (s1, some (kind, level))

/-- A bit OR-ed into a byte at a virtual address, or the fault (R334). DESIGN CHOICE: where the byte lies on an alias page, whose atomics trap the thread that makes them, no thread is left to trap; the byte is read through the view and written by one AliasWrite (log entry 76). -/
def orVa (s : State) (root va v : Nat) : State × Option (Nat × Nat) :=
  match reachVa root 2 1 s va 1 with
  | (s1, .found ps) => (bringLines (piecesWrite s1 ps (piecesRead s1 ps ||| v)) true ps, none)
  | (s1, .fault _ kind level) => (s1, some (kind, level))

/-- Saturating addition at 32 bits (R299). -/
def satAdd32 (a b : Nat) : Nat := min (a + b) 0xFFFFFFFF

/-- The completion record (R354). -/
def completionRecord (s : State) (l : Launch) (status : Nat) : Nat :=
  let flk := fun j => (tget (0 : Word) l.flk j).toNat
  status + (if status = 1 then l.badoff else 0) * 2 ^ 8 + l.replays * 2 ^ 16 + l.lseq % 2 ^ 64 * 2 ^ 64 + (l.tstart.getD 0) % 2 ^ 64 * 2 ^ 128 + s.now % 2 ^ 64 * 2 ^ 192 +
  flk 0 * 2 ^ 256 + flk 1 * 2 ^ 288 + flk 2 * 2 ^ 320 + flk 3 * 2 ^ 352 + l.checked % 2 ^ 64 * 2 ^ 384 +
  (Config.measuredEnergy l.lseq).toNat * 2 ^ 448 + l.tag % 2 ^ 32 * 2 ^ 480

/-- The completion event of a launch (R418). -/
def sendCompl (s : State) (lseq crec status tag : Nat) : State :=
  sendEvent s 4 0xFF (lseq % 2 ^ 64 + crec % 2 ^ 64 * 2 ^ 64 + status * 2 ^ 128 + tag % 2 ^ 32 * 2 ^ 136)

/-- A launch marked complete, its snapshot released (R392). -/
def closeLaunch (s : State) (lseq status : Nat) : State :=
  let n := match launchAt s lseq with
    | some l => l.snap.length
    | none => 0
  { modLaunch s lseq (fun l => { l with completed := true, status := status, snap := [], heldCrec := none }) with pool := s.pool + n }

/-- A fault recorded where the die may hold one more; fault number 0 stands for an access that waits for room among the faults, for room for an event, or for a free walk (R225, R227, R415). -/
def holdFault (s : State) (d : Nat) (who : Waiter) (va kind access level coreNo slot lseq : Nat) : State × Nat :=
  if faultRoom s d then newFault s d who va kind access level coreNo slot lseq else (s, 0)

/-- R354: the completion record is written through the launch's tables, and then the event is sent; a fault in the write holds the completion. Without a free walk of die 0, or room for the event, the completion waits (R225, R415). DESIGN CHOICE: while the event has no room the record waits with it (log entry 77). -/
def complete (s : State) (lseq status : Nat) : State :=
  match launchAt s lseq with
  | none => s
  | some l =>
    if !walkerFree s 0 || !canSend s s.primary then modLaunch s lseq fun x => { x with heldCrec := some 0, status := status }
    else
    let (s1, bad) := writeVa s l.hdr.ptroot l.hdr.crec 64 (completionRecord s l status)
    match bad with
    | none => sendCompl (closeLaunch s1 lseq status) lseq l.hdr.crec status l.tag
    | some (kind, level) =>
      let (s2, fid) := holdFault s1 0 (.crec lseq) l.hdr.crec kind 1 level 0xFFFF 0xFF lseq
      modLaunch s2 lseq fun x => { x with heldCrec := some fid, status := status }

/-- Whether a launch's producers have all completed (R393). -/
def producersDone (s : State) (l : Launch) : Bool :=
  l.producers.all fun p => match launchAt s p with
    | some x => x.completed
    | none => true

/-- The number of teams of a launch's grid. -/
def Hdr.teams (h : Hdr) : Nat := h.gx * h.gy * h.gz

/-- Whether a launch may complete: every team has ended, no bitmap write is held, its producers have completed (R354, R393). -/
def mayComplete (s : State) (l : Launch) : Bool :=
  !l.completed && l.heldCrec == none && !s.retake.contains l.lseq && l.endedTeams == l.hdr.teams && l.hdr.teams != 0 &&
  l.bitWrites.isEmpty && producersDone s l

/-- Launches that may complete do so, one after another; each completion may be what another waits for (R393). -/
def completeReady : Nat → State → State
  | 0, s => s
  | n + 1, s =>
    match lfind (fun x => mayComplete s x.2) s.launches with
    | none => s
    | some (k, _) => completeReady n (complete s k 0)

/-- The release of the waits for completion after a change. -/
def settleLaunches (s : State) : State := completeReady s.launches.length s

/-- Completion records that wait are made again, and then those that waited for them (R225, R227, R393, R415). -/
def retryHeld (s : State) : State :=
  settleLaunches (s.launches.foldl (fun a x => if x.2.heldCrec = some 0 && !x.2.completed then complete a x.1 x.2.status else a) s)

/-- Every group of a team, wherever its context lies (R208, R211). -/
def groupsOf (s : State) (u : Nat) : List Group :=
  match teamAt s u with
  | none => []
  | some t => let c := coreAt s t.core
              groupsIn c.ctx.groups u ++ groupsIn c.saved.groups u ++ groupsIn c.shadow.groups u

/-- The arrival bit of a thread at a barrier: kind 0 team, 1 cluster, 2 grid (R205). -/
def arrived (t : Thread) (kind n : Nat) : Bool :=
  match kind with
  | 0 => t.arrTm.getLsbD n
  | 1 => t.arrCl.getLsbD n
  | _ => t.arrGd

/-- The arrival bit set or cleared. -/
def setArrived (t : Thread) (kind n : Nat) (b : Bool) : Thread :=
  let upd := fun (m : BitVec 16) => if b then m ||| BitVec.ofNat 16 (2 ^ n) else m &&& ~~~(BitVec.ofNat 16 (2 ^ n))
  match kind with
  | 0 => { t with arrTm := upd t.arrTm }
  | 1 => { t with arrCl := upd t.arrCl }
  | _ => { t with arrGd := b }

/-- The teams that a barrier of a team's kind covers (R204). -/
def barrierTeams (s : State) (u kind : Nat) : List Nat :=
  match teamAt s u with
  | none => []
  | some t =>
    match kind with
    | 0 => [u]
    | 1 => match tfind s.clusters t.cluster with
      | some cl => cl.teams
      | none => [u]
    | _ => (s.teams.filter fun x => x.2.lseq == t.lseq && x.2.role != .mirror).map (·.1)

/-- Whether every expected thread has arrived, and some thread is expected (R205). -/
def phaseFull (s : State) (us : List Nat) (kind n : Nat) : Bool :=
  us.all fun u => (groupsOf s u).all fun g => g.threads.all fun t => t.ended || arrived t kind n

/-- The arrival bits of a phase cleared in every thread that arrived in it. -/
def clearPhase (kind n : Nat) (s : State) : List Nat → State
  | [] => s
  | u :: r =>
    let s1 := match teamAt s u with
      | none => s
      | some t =>
        let f := fun (g : Group) => if g.team = u then mapThreads g (fun _ x => setArrived x kind n false) else g
        modCore s t.core fun c =>
          { c with ctx := { c.ctx with groups := tmap c.ctx.groups (fun _ g => f g) },
                   saved := { c.saved with groups := tmap c.saved.groups (fun _ g => f g) },
                   shadow := { c.shadow with groups := tmap c.shadow.groups (fun _ g => f g) } }
    clearPhase kind n s1 r

/-- R205: a phase that every expected thread has reached completes. -/
def checkPhase (s : State) (u kind n : Nat) : State :=
  let us := barrierTeams s u kind
  if phaseFull s us kind n then clearPhase kind n s us else s

/-- Every barrier that a team's threads can reach is checked, as after a thread's end (R205). -/
def checkPhases (s : State) (u : Nat) : State :=
  let s1 := (List.range 16).foldl (fun a n => checkPhase a u 0 n) s
  let s2 := (List.range 16).foldl (fun a n => checkPhase a u 1 n) s1
  checkPhase s2 u 2 0

/-- Operations of a class that have not retired (R267). -/
def opCount (g : Group) (cls : Nat) : Nat := (g.ops.filter fun o => o.cls == cls).length

/-- Finished operations retired in issue order (R267). -/
def retireOps (cls : Nat) : List GOp → List GOp
  | [] => []
  | o :: r => if o.cls = cls then (if o.done then retireOps cls r else o :: r) else o :: retireOps cls r

/-- An operation of a group finished and retired as far as issue order allows (R267). -/
def finishOp (g : Group) (num : Nat) : Group :=
  let ops := g.ops.map fun o => if o.num = num then { o with done := true } else o
  { g with ops := retireOps 0 (retireOps 1 (retireOps 2 (retireOps 3 ops))) }

/-- An optional counted operation of the group of a number finished. -/
def finishFor (c : Core) (u : Nat) : Option Nat → Core
  | none => c
  | some n => modOwner c u fun g => finishOp g n

/-- Whether a bundle carries threads of a slot. -/
def Bundle.has (b : Bundle) (slot : Nat) : Bool := b.parts.any fun p => p.slot == slot

/-- A part joined to a list of parts in the order of their slots. -/
def joinPart : List Part → Part → List Part
  | [], q => [q]
  | p :: r, q => if p.slot = q.slot then { p with mask := p.mask ||| q.mask } :: r else if q.slot < p.slot then q :: p :: r else p :: joinPart r q
/-- Two lists of parts joined. -/
def joinParts (a b : List Part) : List Part := b.foldl joinPart a

/-- The threads of parts lose their latches (R40). -/
def losePart (c : Core) (p : Part) : Core :=
  modGroup c p.slot fun g => mapThreads g fun i t => if hasBit p.mask i then loseLatches t else t
def loseParts (c : Core) (ps : List Part) : Core := ps.foldl losePart c

/-- Whether a bundle stands at a place where its selector may switch (R178, R179): after a trap entry it does, and a fence holds the selector. -/
def mayLeave (b : Bundle) : Bool :=
  if b.yield then true
  else match b.wait with
  | none => false
  | some (.fence _) => b.parked
  | some _ => !b.pinned

/-- A bundle whose wait has just ended, where it stood when it waited: a selector that has reached its swap point stays there, and chooses anew after the exchange (R382). -/
def stayPut (c : Core) (b x : Bundle) : Bundle := if c.exch == .swap && b.wait.isSome && x.wait.isNone && mayLeave b then { x with yield := true } else x

/-- R203: the release of a group's threads is noted in the bundles that park at one of its rejoin masks. -/
def releaseJ (slot k : Nat) (b : Bundle) : Bundle :=
  if b.wait = some (.jwait k) && b.has slot then { b with done := joinPart b.done ⟨slot, 0⟩ } else b

/-- Whether a bundle parks at a rejoin mask with the threads of a slot released. -/
def releasedAt (slot k : Nat) (b : Bundle) : Bool := b.wait == some (.jwait k) && b.has slot && b.done.any fun q => q.slot == slot

/-- Bundles in which a group's threads are released at one packet and word merge into the first of them (R203). DESIGN CHOICE: a fused one merges too, and the bundle waits as one for its other groups (R177); it may so hold more than 32 threads, and it keeps the number and age of the first (log entry 76). -/
def mergeReleased (slot k : Nat) : Tab Bundle → Tab Bundle → Tab Bundle
  | [], acc => acc
  | (bid, b) :: r, acc =>
    match lfind (fun x => releasedAt slot k b && releasedAt slot k x.2 && x.2.pc == b.pc && x.2.stepPos == b.stepPos && x.2.sub == b.sub) acc with
    | some (a, x) => mergeReleased slot k r (tput acc a { x with parts := joinParts x.parts b.parts, done := joinParts x.done b.done })
    | none => mergeReleased slot k r (acc ++ [(bid, b)])

/-- Whether a bundle parks at a rejoin mask with every group of it released (R177, R203). -/
def allReleased (b : Bundle) : Bool := (match b.wait with
  | some (.jwait _) => true
  | _ => false) && b.parts.all fun p => b.done.any fun q => q.slot == p.slot

/-- Whether a group can be given the selector: its window is resident, no fault parks it, and compaction does not move it (R174). -/
def groupReady (g : Group) : Bool := g.swap == .resident && g.faults.isEmpty && !g.moving && g.argsLeft.isEmpty
/-- Whether every group of a bundle can be given the selector; until then a bundle whose wait has ended stays parked (R178, R192). -/
def partsReady (gs : Tab Group) (b : Bundle) : Bool := b.parts.all fun p => match tfind gs p.slot with
  | some g => groupReady g
  | none => true

/-- A bundle that goes on from a rejoin mask. -/
def freeJ (b : Bundle) : Bundle := { b with wait := none, parked := false, done := [] }
/-- Whether a bundle of a core goes on from a rejoin mask now. -/
def goesOn (c : Core) (b : Bundle) : Bool := allReleased b && partsReady c.ctx.groups b

/-- The bundles that every group of them has been released in go on, without their latches (R40, R203). -/
def freeBundles (c : Core) : Core :=
  ((c.ctx.bundles.filter fun x => goesOn c x.2).map (·.2.parts)).foldl loseParts
    { c with ctx := { c.ctx with bundles := tmap c.ctx.bundles fun _ b => if goesOn c b then stayPut c b (freeJ b) else b } }

/-- A selector whose bundle no longer exists runs none. -/
def tidyRun (c : Core) : Core :=
  let ok := fun (r : Option Nat) => match r with
    | some b => (tfind c.ctx.bundles b).isSome
    | none => false
  { c with ctx := { c.ctx with run0 := if ok c.ctx.run0 then c.ctx.run0 else none, run1 := if ok c.ctx.run1 then c.ctx.run1 else none } }

/-- The release check of R203 for one mask of a group. -/
def checkJ (c : Core) (slot k : Nat) : Core :=
  match groupAt c slot with
  | none => c
  | some g =>
    if tget (0 : Word) g.jm k &&& ~~~(tget (0 : Word) g.ja k) = 0 then
      let c1 := setGroup c slot { g with ja := tput g.ja k 0 }
      tidyRun (freeBundles { c1 with ctx := { c1.ctx with bundles := mergeReleased slot k (tmap c.ctx.bundles fun _ b => releaseJ slot k b) [] } })
    else c

/-- The release checks of all eight masks, as after a thread's end. -/
def checkJs (c : Core) (slot : Nat) : Core := (List.range 8).foldl (fun a k => checkJ a slot k) c

/-- Whether a group has ended: every thread has, and its CP, MX and XC counters are 0 (R167). -/
def groupOver (g : Group) : Bool := g.threads.all (·.ended) && opCount g 1 == 0 && opCount g 2 == 0 && opCount g 3 == 0

/-- The accumulator slots that a group holds. -/
def tileSlots (g : Group) : List Nat := g.tiles.filterMap fun t => match t.2.place with
  | .slot n => some n
  | .evicted _ => none

/-- A list with a number inserted in order. -/
def insertNat : List Nat → Nat → List Nat
  | [], n => [n]
  | x :: r, n => if n ≤ x then n :: x :: r else x :: insertNat r n

/-- Slots returned to the free list (R289). -/
def freeSlots (free slots : List Nat) : List Nat := slots.foldl insertNat free

/-- The bit of a team in its completion bitmap set at its end, or held at a fault or for a free walk (R225, R334). -/
def setTeamBit (s : State) (t : Team) : State :=
  let h := hdrOf s t.lseq
  if t.bitSet || h.cbmap = 0 then s
  else if !walkerFree s (dieOf t.core) then modLaunch s t.lseq fun l => { l with bitWrites := l.bitWrites ++ [(t.idx, 0)] }
  else
    let va := h.cbmap + t.idx / 8
    let (s1, bad) := orVa s h.ptroot va (2 ^ (t.idx % 8))
    match bad with
    | none => s1
    | some (kind, level) =>
      let (s2, fid) := holdFault s1 (dieOf t.core) (.bitmap t.lseq t.idx) va kind 2 level t.core 0xFF t.lseq
      modLaunch s2 t.lseq fun l => { l with bitWrites := l.bitWrites ++ [(t.idx, fid)] }

/-- What a team has counted, added to its launch's totals; a mirror adds nothing (R299, R354, R387). -/
def addCounts (s : State) (t : Team) : State :=
  if t.role == .mirror then s
  else modLaunch s t.lseq fun l =>
    { l with checked := l.checked + t.checked,
             flk := (List.range 4).foldl (fun a j =>
               tput a j (BitVec.ofNat 32 (satAdd32 (tget (0 : Word) l.flk j).toNat (tget (0 : Word) t.flk j).toNat))) l.flk }

/-- The cores of a cluster's members. -/
def clusterCores (s : State) (cl : Nat) : List Nat := match tfind s.clusters cl with
  | none => []
  | some x => x.teams.filterMap fun v => (teamAt s v).map (·.core)
/-- CYC of the tile clusters of a cluster's members. -/
def clusterCycs (s : State) (cl : Nat) : Tab Nat := (clusterCores s cl).foldl (fun a k => tput a (tcOf k) (cycOf s k)) []
/-- The clocks of the tile clusters of a cluster's members brought up to now. -/
def settleCluster (s : State) (cl : Nat) : State := (clusterCores s cl).foldl (fun a k => settleTc a (tcOf k)) s
/-- R167: a team ends when all its groups have: its charge is returned, its counters are added to the launch's, its group ids close (R308), and the launch may complete. A mirror team adds nothing (R387). -/
def endTeam (s : State) (u : Nat) : State :=
  match teamAt s u with
  | none => s
  | some t =>
    if t.ended || !(groupsOf s u).isEmpty then s
    else
      let h := hdrOf s t.lseq
      let s' := settleCluster s t.cluster
      let s0 := modTeam s' u fun x => { x with ended := true, endCyc := clusterCycs s' t.cluster }
      let s1 := { s0 with clusters := tmod s0.clusters t.cluster fun x => { x with gids := x.gids.filter fun g => g.2.team != u } }
      let s2 := modTc s1 (tcOf t.core) fun c => { c with ic := c.ic - h.peakamp }
      if t.role == .mirror then s2
      else
        let s3 := modLaunch (addCounts s2 t) t.lseq fun l => { l with endedTeams := l.endedTeams + 1 }
        settleLaunches (setTeamBit s3 t)

/-- A group that has ended leaves its slot (R167). -/
def endGroup (s : State) (k slot : Nat) : State :=
  match groupAt (coreAt s k) slot with
  | none => s
  | some g =>
    if groupOver g then
      let s1 := modCore s k fun c =>
        { c with ctx := { c.ctx with groups := tdel c.ctx.groups slot, accFree := freeSlots c.ctx.accFree (tileSlots g) }
                 late := c.late.filter fun e => e.own != g.uid }
      endTeam s1 g.team
    else s

/-- The group of a number ends where it is over, in the running context. -/
def endOwner (s : State) (k u : Nat) : State :=
  match lfind (fun x => x.2.uid == u) (coreAt s k).ctx.groups with
  | some (slot, _) => endGroup s k slot
  | none => s

/-- R138, R167, R203, R205: a thread ends. Its rejoin bits clear, its late-arrival entries are freed, the release checks are made, and its group may end. -/
def endThread (s : State) (k slot i : Nat) : State :=
  match groupAt (coreAt s k) slot with
  | none => s
  | some g =>
    let off := ~~~(oneBit i)
    let g1 := { modThread g i (fun t => { t with ended := true }) with
                jm := tmap g.jm (fun _ m => m &&& off), ja := tmap g.ja (fun _ m => m &&& off) }
    let s1 := modCore s k fun c => checkJs { setGroup c slot g1 with
      late := c.late.filter fun e => !(e.own == g.uid && e.thr == some i) } slot
    endGroup (checkPhases s1 g.team) k slot

/-- Whether a slot of a context belongs to a team of a list. -/
def slotIn (x : Ctx) (us : List Nat) (slot : Nat) : Bool := match tfind x.groups slot with
  | some g => us.contains g.team
  | none => false

/-- A context without the groups, bundles, tiles and matrix words of some teams (R394). -/
def dropTeams (x : Ctx) (us : List Nat) : Ctx :=
  let gone := x.groups.filter fun e => us.contains e.2.team
  let uids := gone.map (·.2.uid)
  let keep := fun (w : MWord) => !uids.contains w.own
  { x with groups := x.groups.filter fun e => !us.contains e.2.team,
           bundles := x.bundles.filter fun e => !(e.2.parts.any fun p => slotIn x us p.slot),
           mq0 := x.mq0.filter keep, mq1 := x.mq1.filter keep, engine := x.engine.filter keep,
           accFree := freeSlots x.accFree (gone.flatMap fun e => tileSlots e.2) }

/-- A core without some teams: nothing of theirs in flight remains (R394, step 1). -/
def dropCore (us : List Nat) (c : Core) : Core :=
  let all := c.ctx.groups ++ c.saved.groups ++ c.shadow.groups
  let uids := (all.filter fun e => us.contains e.2.team).map (·.2.uid)
  tidyRun { c with
    ctx := dropTeams c.ctx us, saved := dropTeams c.saved us, shadow := dropTeams c.shadow us,
    loads := c.loads.filter (fun l => !uids.contains l.own), writes := c.writes.filter (fun w => !uids.contains w.own),
    releases := c.releases.filter (fun r => !uids.contains r.own), copies := c.copies.filter (fun x => !uids.contains x.own),
    walks := c.walks.filter (fun w => !uids.contains w.own), late := c.late.filter (fun e => !uids.contains e.own), pend := c.pend.filter (fun p => !uids.contains p.own) }

/-- The charges of stopped teams returned to their tile clusters; a pre-empted team has none (R383). -/
def uncharge (s : State) : List Nat → State
  | [] => s
  | u :: r =>
    match teamAt s u with
    | some t =>
      let s1 := if t.ended || (groupsIn (coreAt s t.core).ctx.groups u).isEmpty then s else modTc s (tcOf t.core) fun c => { c with ic := c.ic - (hdrOf s t.lseq).peakamp }
      uncharge s1 r
    | none => uncharge s r

/-- The counts of teams that have not ended, added before they stop. -/
def addRunning (s : State) (us : List Nat) : State :=
  us.foldl (fun a u => match teamAt s u with
    | some t => if t.ended then a else addCounts a t
    | none => a) s

/-- Every team of some launches stops (R394, step 1); what they had in flight is discarded. -/
def stopLaunches (s : State) (ls : List Nat) : State :=
  let us := (s.teams.filter fun x => ls.contains x.2.lseq).map (·.1)
  let s1 := uncharge (addRunning s us) us
  { s1 with cores := tmap s1.cores (fun _ c => dropCore us c), teams := s1.teams.filter fun x => !us.contains x.1,
            clusters := s1.clusters.filter fun x => !ls.contains x.2.lseq,
            tcs := tmap s1.tcs (fun _ t => { t with queue := t.queue.filter fun q => !ls.contains q.lseq }) }

/-- R393: the launches to roll back with a set: every uncompleted one that completed a cbwait on a member's bitmap. -/
def rollbackSet : Nat → State → List Nat → List Nat
  | 0, _, ls => ls
  | n + 1, s, ls =>
    let more := (s.launches.filter fun x => !x.2.completed && !ls.contains x.1 && x.2.producers.any fun p => ls.contains p).map (·.1)
    if more.isEmpty then ls else rollbackSet n s (ls ++ more)

/-- A snapshotted page put among others in the order in which they were copied. -/
def putSnap (x : Nat × Nat × List Host.Cell) : List (Nat × Nat × List Host.Cell) → List (Nat × Nat × List Host.Cell)
  | [] => [x]
  | y :: r => if x.1 < y.1 then x :: y :: r else y :: putSnap x r
/-- Snapshotted pages restored, of each page the copy that stands first (R394, step 3). -/
def restorePages (mem : List Host.Cell) : List (Nat × Nat × List Host.Cell) → List Nat → List Host.Cell
  | [], _ => mem
  | (_, page, cells) :: r, seen =>
    if seen.contains page then restorePages mem r seen
    else
      let lo := page * 16384
      let out := mem.filter fun c => c.1 < lo || lo + 16384 ≤ c.1
      restorePages (cells.foldl (fun m c => memPut m c.1 c.2) out) r (page :: seen)

/-- A snapshotted page as a piece of an access (R216, R394). -/
def snapPiece (x : Nat × Nat × List Host.Cell) : Piece :=
  { loc := x.2.1 * 16384, n := 16384, die := slice (x.2.1 * 16384) 38 37, key := none, kind := 0, mx := 0, sx := false, cw := false, peer := false }
/-- n bytes of a completion bitmap zeroed through its launch's tables, the bytes of each block of 64 by one write (R106, R394, step 4); fuel bounds the blocks. DESIGN CHOICE: the walks of a rollback end within it, and take none of the places of R225 (log entry 77). -/
def zeroBitmap (root : Nat) : Nat → Nat → Nat → State → State
  | 0, _, _, s => s
  | fuel + 1, va, n, s =>
    if n = 0 then s
    else let m := min n (64 - va % 64); zeroBitmap root fuel (va + m) (n - m) (writeVa s root va m 0).1

/-- A launch made ready to be taken again (R394, step 5). -/
def retakeLaunch (s : State) (l : Nat) : State :=
  { modLaunch s l (fun x => { x with
      replays := x.replays + 1, dealt := 0, turn := 0, admitted := 0, endedTeams := 0, flk := [], checked := 0,
      tstart := none, producers := [], snap := [], unprotected := false, heldCrec := none, bitWrites := [], code := [] })
    with retake := insertNat s.retake l }

/-- R391 to R394: rollback of a launch. -/
def rollback (s : State) (lseq : Nat) : State :=
  match launchAt s lseq with
  | none => s
  | some l0 =>
    if l0.completed then s
    else
      let ls := rollbackSet s.launches.length s [lseq]
      let ms := ls.filterMap fun l => launchAt s l
      let s1 := stopLaunches s ls
      if ms.any fun m => !m.hdr.snap || m.unprotected then ls.foldl (fun a l => complete a l 2) s1
      else
        let n := (ms.map fun m => m.snap.length).sum
        let copies := (ms.flatMap fun m => m.snap).foldl (fun a x => putSnap x a) []
        let s2 := bringLines { s1 with mem := restorePages s1.mem copies [], pool := s1.pool + n,
                                       launches := tmap s1.launches fun l x => if ls.contains l then { x with snap := [] } else x } true (copies.map snapPiece)
        let s3 := ms.foldl (fun a m => if m.hdr.cbmap = 0 then a else zeroBitmap m.hdr.ptroot ((m.hdr.teams + 7) / 8) m.hdr.cbmap ((m.hdr.teams + 7) / 8) a) s2
        ls.foldl (fun a l => match launchAt a l with
          | some m => if m.replays ≥ 3 then complete a l 2 else retakeLaunch a l
          | none => a) s3

/-- A launch ended by system software or by a failure of the device: STATUS 3 (R354). DESIGN CHOICE: one whose header read is still held has no CREC of its own; its record goes to address 0 under its root of 0, as its fields stand, or is held at a fault of that write (log entry 77). -/
def endLaunch (s : State) (lseq : Nat) : State :=
  match launchAt s lseq with
  | none => s
  | some l => if l.completed then s else
    { complete (stopLaunches s [lseq]) lseq 3 with retake := s.retake.filter (· != lseq) }

/-- The launches taken and not completed. -/
def liveLaunches (s : State) : List Nat := (s.launches.filter fun x => !x.2.completed).map (·.1)

end Sys2Proof.Machine
end

