-- ==== Sys2Proof/Machine/Acts.lean ====
section
/-! DEFINITION. What happens to accesses at their homes: writes performed, loads predicted, read, confirmed or refuted, atomics; and snapshots of written pages. -/

namespace Sys2Proof.Machine

/-- Bytes of a memory type (R51, R232). -/
def tyBytes : Nat → Nat
  | 0 => 1
  | 1 => 1
  | 2 => 2
  | 3 => 2
  | 4 => 4
  | 5 => 8
  | _ => 16

/-- Registers of a memory type (R237). -/
def tyRegs : Nat → Nat
  | 5 => 2
  | 6 => 4
  | _ => 1

/-- Sign extension of the low n bits of a number to 32 bits. -/
def sext (n x : Nat) : Word := (BitVec.ofNat n x).signExtend 32

/-- The register words of loaded bytes (R99): narrow values extended, wide ones low half first. -/
def loadWords (ty raw : Nat) : List Word :=
  match ty with
  | 1 => [sext 8 raw]
  | 3 => [sext 16 raw]
  | _ => (List.range (tyRegs ty)).map fun i => BitVec.ofNat 32 (raw / 2 ^ (32 * i))

/-- Words written to destinations that still may be written: v registers of a thread, or s registers. -/
def putRegs (g : Group) (thr : Option Nat) (only : List Nat) (pen : Bool) : List Nat → List Word → Group
  | d :: ds, x :: xs =>
    let g1 := if only.contains d then (match thr with
      | some i => modThread g i fun t => setV t d x pen
      | none => setS g d x pen) else g
    putRegs g1 thr only pen ds xs
  | _, _ => g

/-- Penumbra bits of some registers cleared. -/
def unpenRegs (g : Group) (thr : Option Nat) (ds : List Nat) : Group :=
  match thr with
  | some i => modThread g i fun t => { t with v := ds.foldl (fun v d => tmod v d fun r => { r with pen := false }) t.v }
  | none => { g with s := ds.foldl (fun v d => tmod v d fun r => { r with pen := false }) g.s }

/-- The history entry of a load (R19); a uniform load counts as thread 0. -/
def histIndex (l : Load) : Nat := (3 * l.pc.toNat + l.pos + 67 * (32 * l.slot + l.thr.getD 0)) % Config.historySize

/-- The true values that a load's history holds, newest first (R19). -/
def history (c : Core) (l : Load) : List Nat :=
  match tfind c.hist (histIndex l) with
  | some h => if h.pc = l.pc && h.pos = l.pos && h.slot = l.slot && h.thr = l.thr then h.vals else []
  | none => []

/-- The history updated with a true value, up to 64 bits (R19). -/
def learn (c : Core) (l : Load) (v : Nat) : Core :=
  { c with hist := tput c.hist (histIndex l) ⟨l.pc, l.pos, l.slot, l.thr, (v % 2 ^ 64 :: history c l).take 2⟩ }

/-- A piece in the remote copy store of a core's die (R217, R222); n numbers the choices of replacement. -/
def storeCopy (s : State) (k n : Nat) (p : Piece) : Option Nat :=
  if !p.hbm || p.mx != 0 || !cached (dieAt s (dieOf k)) then none
  else match tfind (dieAt s (dieOf k)).copies (p.loc / 128) with
    | some bs => if Config.kept n then some (bytesOf ((imap (fun i (b : Byte) => b.toNat * 256 ^ i) 0 bs).sum) (p.loc % 128) p.n) else none
    | none => none
/-- A piece in its line's home cache, or in the SRAM that holds it (R222). -/
def homeCopy (s : State) (n : Nat) (p : Piece) : Option Nat :=
  if p.peer || p.mx != 0 then none
  else if scratchBase ≤ p.loc then some (pieceRead s p)
  else if cached (dieAt s p.die) && (tfind (dieAt s p.die).cache (p.loc / 128)).isSome && Config.kept n then some (pieceRead s p)
  else none
/-- Pieces put together, where a source holds each of them. -/
def gather (f : Nat → Piece → Option Nat) : Nat → List Piece → Option Nat
  | _, [] => some 0
  | n, p :: r => match f n p, gather f (n + 2) r with
    | some x, some y => some (x + 256 ^ p.n * y)
    | _, _ => none
/-- The copy that the memory system holds of a load's bytes at its deadline: the first source that holds all of them (R222; log entry 4). -/
def heldCopy (s : State) (k : Nat) (l : Load) : Option Nat :=
  if l.pieces.isEmpty then none
  else match gather (storeCopy s k) (64 * s.draws) l.pieces with
    | some v => some v
    | none => gather (homeCopy s) (64 * s.draws + 1) l.pieces

/-- The prediction of a load (R19, R222). -/
def predict (s : State) (k : Nat) (l : Load) : Nat :=
  let h := history (coreAt s k) l
  let w := 2 ^ (8 * tyBytes l.ty)
  let last := if l.ty = 6 then 0 else h.headD 0 % w
  match l.pred with
  | 0 => 0
  | 1 => last
  | 2 => if l.ty = 6 then 0 else match h with
    | [a, b] => (2 * (a % w) + (w - b % w)) % w
    | _ => last
  | _ => (heldCopy s k l).getD last

/-- A request of the core's list changed. -/
def modLoad (c : Core) (num : Nat) (f : Load → Load) : Core := { c with loads := c.loads.map fun l => if l.num = num then f l else l }
def dropLoad (c : Core) (num : Nat) : Core := { c with loads := c.loads.filter fun l => l.num != num }
def loadAt (c : Core) (num : Nat) : Option Load := lfind (fun l => l.num == num) c.loads

/-- A group's register writes from a request: the registers no longer hold the guesses of other loads (R20), and a change ends the group's spin streak (R185). -/
def writeRegs (c : Core) (u num : Nat) (thr : Option Nat) (only : List Nat) (pen : Bool) (ds : List Nat) (xs : List Word) : Core :=
  let c1 := modOwner c u fun g =>
    let g1 := putRegs g thr only pen ds xs
    if g1.threads != g.threads || g1.s != g.s then { g1 with streak := 0, demoted := false } else g1
  { c1 with loads := c1.loads.map fun l => if l.own = u && l.thr = thr && l.num != num then { l with holds := l.holds.filter fun d => !only.contains d } else l }

/-- R18: the prediction installed in every destination, with penumbra; the load is unresolved until its data. -/
def installGuess (s : State) (k : Nat) (l : Load) : State :=
  let v := predict s k l
  let s1 := if l.pred = 3 then { s with draws := s.draws + 1 } else s
  modCore s1 k fun c =>
    let c1 := writeRegs c l.own l.num l.thr l.dsts true l.dsts (loadWords l.ty v)
    modLoad c1 l.num fun x => { x with guess := some v, holds := l.dsts, written := true }

/-- The rows of a group's tiles that hold a guess, or are to hold one by an update not yet taken (R286, R287). -/
def guessRows (c : Core) (g : Group) : Word :=
  let inTiles := g.tiles.foldl (fun a t => a ||| t.2.rg) 0
  c.matrixWords.foldl (fun a w => match w.what with
    | .update _ _ _ _ _ _ _ _ rg => if w.own = g.uid then a ||| rg else a
    | _ => a) inTiles

/-- RF set in the threads that a load concerns, and in every thread whose tile row may hold the guess (R20, R240, R287). -/
def refute (c : Core) (u : Nat) (thr : Option Nat) : Core :=
  modOwner c u fun g =>
    let rows := guessRows c g
    mapThreads g fun i t => if thr == some i || thr == none || hasBit rows i then { t with rf := true } else t

/-- An entry added to the late-arrival buffer; a full buffer frees its oldest (R27). -/
def addLate (c : Core) (e : Late) : Core :=
  let l := c.late ++ [e]
  { c with late := if l.length > Config.lateSize then l.drop 1 else l }

/-- The words of a fetched packet. -/
def Pkt.words (p : Pkt) : List Nat := [p.w0, p.w1, p.w2]
/-- The words of the step that begins at a position, each with its own, at most n (R31). -/
def chainWords (p : Pkt) : Nat → Nat → List (Nat × Instr)
  | 0, _ => []
  | n + 1, at' => match decodeAt at' (p.words.drop at') with
    | none => []
    | some (x, len) => (at', x) :: if chainBit (at' + len - 1) (lget 0 p.words (at' + len - 1)) then chainWords p n (at' + len) else []
/-- The words of the step that a bundle stands at, with their positions. -/
def Bundle.wordsAt (b : Bundle) : List (Nat × Instr) := match b.pkt with
  | some p => chainWords p 3 b.stepPos
  | none => []
/-- The words of the step that a bundle stands at. -/
def Bundle.stepWords (b : Bundle) : List Instr := b.wordsAt.map (·.2)
/-- Whether a word is a gdemand of a register that still holds a load's guess (R29). -/
def demandsOf (l : Load) (x : Instr) : Bool := match x with
  | .gdemand o => o.u == l.thr.isNone && l.holds.contains o.x.toNat
  | _ => false
/-- Whether a bundle's step, which has been held, waits in a thread of a load, or in its group, at a gdemand of the load (R29). -/
def Bundle.demands (x : Ctx) (l : Load) (b : Bundle) : Bool :=
  b.tried && (b.parts.any fun p => (match tfind x.groups p.slot with
    | some g => g.uid == l.own
    | none => false) && (match l.thr with
    | some i => hasBit p.mask i
    | none => true)) && b.stepWords.any (demandsOf l)
/-- Whether a load's data are waited for at gdemand (R29). -/
def demandedNow (c : Core) (l : Load) : Bool := [c.ctx, c.saved, c.shadow].any fun x => x.bundles.any fun b => b.2.demands x l

/-- Numbers of n bytes laid out low first. -/
def layOut (n : Nat) : List Nat → Nat
  | [] => 0
  | x :: r => x % 256 ^ n + 256 ^ n * layOut n r
/-- The column that a record's bytes hold, or none where its format byte is one that the device does not write (R190, R255). -/
def columnRead (x : Nat) : Option (List VReg) :=
  let f := x % 256
  if f = 0x0F then some ((List.range 32).map fun _ => ⟨0, false, true⟩)
  else if f % 16 != 0 then none
  else
    let mode := f / 64
    let len := match mode with
      | 0 => 128
      | 1 => 4
      | 2 => 36
      | _ => 68
    let base : Word := BitVec.ofNat 32 (bytesOf x 1 4)
    let val := fun i => match mode with
      | 0 => BitVec.ofNat 32 (bytesOf x (1 + 4 * i) 4)
      | 1 => base
      | 2 => base + sext 8 (bytesOf x (5 + i) 1)
      | _ => base + sext 16 (bytesOf x (5 + 2 * i) 2)
    let pn := if f / 32 % 2 = 1 then bytesOf x (1 + len) 4 else 0
    let dm := if f / 16 % 2 = 1 then bytesOf x (1 + len + if f / 32 % 2 = 1 then 4 else 0) 4 else 0
    some ((List.range 32).map fun i => let dead := dm / 2 ^ i % 2 == 1; ⟨if dead then 0 else val i, pn / 2 ^ i % 2 == 1 && !dead, dead⟩)

/-- A register of some threads written from a record: values, penumbra bits and dead marks (R255). -/
def fillRegs (g : Group) (po : Word) (d : Nat) (col : List VReg) : Group :=
  mapThreads g fun i t => if hasBit po i then { t with v := tput t.v d (lget ⟨0, false, false⟩ col i) } else t
/-- R255: a vfill's registers written from its record; one that has become a record that the device does not write changes no register (log entry 70). -/
def finishFill (c : Core) (l : Load) (v : Nat) : Core :=
  match columnRead v with
  | none => dropLoad c l.num
  | some col =>
    let d := l.dsts.headD 0
    let c1 := modOwner (dropLoad c l.num) l.own fun g =>
      let g1 := fillRegs g l.po d col
      if g1.threads != g.threads then { g1 with streak := 0, demoted := false } else g1
    { c1 with loads := c1.loads.map fun x => if x.own = l.own && (match x.thr with
        | some i => hasBit l.po i
        | none => false) then { x with holds := x.holds.filter fun r => r != d } else x }

/-- A load's data kept for the gdemand that waits for them: its chain reads its operands, and makes its checks, with the guess in place (R11, R13, R29). -/
def Load.arrive (l : Load) (v : Nat) : Load := { l with came := some v, pieces := [], op := none }
/-- R20, R28, R29: a load's true data reaches its core. -/
def deliver (s : State) (k : Nat) (l : Load) (v : Nat) : State :=
  modCore s k fun c0 =>
    let c := finishFor (learn (dropLoad c0 l.num) l v) l.own l.op
    let c1 := if l.kind = .fill then finishFill c0 l v
      else if !l.written then
        writeRegs c l.own l.num l.thr l.dsts l.pen l.dsts (loadWords l.ty v)
      else if l.detached then finishFor (dropLoad c0 l.num) l.own l.op
      else if demandedNow c0 l then
        let c2 := { c with loads := c.loads ++ [l.arrive v] }
        if l.guess = some v then c2 else refute c2 l.own l.thr
      else if l.guess = some v then modOwner c l.own fun g => unpenRegs g l.thr l.holds
      else addLate (refute c l.own l.thr) ⟨l.own, l.thr, l.pc, l.pos, l.ea, v⟩
    settle c1 l.own

/-- R29: the data that a gdemand has waited for installed in every register that still holds the guess; the load is resolved. -/
def installCame (c : Core) (num : Nat) : Core := match loadAt c num with
  | none => c
  | some l => match l.came with
    | none => c
    | some v => writeRegs (dropLoad c num) l.own num l.thr l.holds false l.dsts (loadWords l.ty v)
/-- A load whose data have come to a gdemand that is not executed after all: it resolves as without one (R13, R20, R27). -/
def leaveCame (c : Core) (l : Load) : Core := match l.came with
  | none => c
  | some v => if l.guess = some v then dropLoad c l.num else addLate (dropLoad c l.num) ⟨l.own, l.thr, l.pc, l.pos, l.ea, v⟩

/-- A page of HBM copied into the snapshot of a launch before its first write there (R392). -/
def snapPage (s : State) (lseq : Nat) (p : Piece) : State :=
  match launchAt s lseq with
  | none => s
  | some l =>
    if !l.hdr.snap || l.unprotected then s
    else if p.peer then modLaunch s lseq fun x => { x with unprotected := true }
    else if scratchBase ≤ p.loc || p.sx || !p.cw || l.snap.any (fun x => x.2.1 == p.loc / 16384) then s
    else if s.pool = 0 then modLaunch s lseq fun x => { x with unprotected := true }
    else
      let page := p.loc / 16384
      let cells := s.mem.filter fun c => decide (page * 16384 ≤ c.1) && decide (c.1 < page * 16384 + 16384)
      { modLaunch s lseq (fun x => { x with snap := x.snap ++ [(s.serial + 1, page, cells)] }) with pool := s.pool - 1, serial := s.serial + 1 }
def snapPages (s : State) (lseq : Nat) (ps : List Piece) : State := ps.foldl (fun a p => snapPage a lseq p) s

/-- The parity bit of a barrier object (R310). -/
def phAt (s : State) (loc : Nat) : Bool := memRead s.mem (loc + 12) 4 % 2 == 1
/-- The waits of a bundle at barrier objects that bytes written from a location on have ended: where PH differs from the parity that keeps a thread waiting, the thread has passed (R311, R330). A bundle whose groups cannot be given the selector now stays parked until they can (R174, R178). -/
def bobjRelease (s : State) (loc n : Nat) (gs : Tab Group) (b : Bundle) : Bundle :=
  match b.wait with
  | some (.bobj ws) =>
    let ended := fun (w : Nat × Bool × Nat × Nat) => decide (loc < w.1 + 16) && decide (w.1 < loc + n) && phAt s w.1 != w.2.1
    if ws.any ended then
      let r := ws.filter fun w => !ended w
      let b1 := { b with done := (ws.filter ended).foldl (fun d (w : Nat × Bool × Nat × Nat) => joinPart d ⟨w.2.2.1, oneBit w.2.2.2⟩) b.done }
      if r.isEmpty && partsReady gs b then { b1 with wait := none, parked := false } else { b1 with wait := some (.bobj r) }
    else b
  | _ => b
/-- Every context's bundles changed, by a function of the context's groups. -/
def mapBundles (s : State) (f : Tab Group → Bundle → Bundle) : State :=
  let m := fun (x : Ctx) => { x with bundles := tmap x.bundles fun _ b => f x.groups b }
  { s with cores := tmap s.cores fun _ c =>
      { c with ctx := { c.ctx with bundles := tmap c.ctx.bundles fun _ b => stayPut c b (f c.ctx.groups b) }, saved := m c.saved, shadow := m c.shadow } }

/-- The demotion of a group ended (R185). DESIGN CHOICE: its streak ends with it; the manual ends the demotion, and does not say whether the streak goes on (log entry 77). -/
def endSpin (g : Group) : Group := { g with streak := 0, demoted := false }
/-- Bytes that land in the TSM of a team whose context is saved written in its record as well (R211, R383). -/
def resaveTsm (s : State) (u : Nat) (p : Piece) : State := match teamAt s u with
  | none => s
  | some t => if (groupsIn (coreAt s t.core).saved.groups u).isEmpty then s
    else { s with mem := memWrite s.mem (saveLoc s t (tsmOff (hdrOf s t.lseq) (p.loc - tsmLoc u 0))) p.n (memRead s.mem p.loc p.n) }
/-- What bytes written into the TSM of a team bring about: its record follows where its context is saved, waits at barrier objects that they end, and for a write of another group the end of the demotion of the groups of that team's cluster, in whatever context they lie (R185, R330). -/
def landed (s : State) (own : Nat) (ps : List Piece) : State :=
  ps.foldl (fun a p =>
    if decide (tsmBase ≤ p.loc) && decide (p.loc < sramBase) then
      let u := (p.loc - tsmBase) / 2 ^ 18
      let us := barrierTeams a u 1
      let free := fun (_ : Nat) (g : Group) => if us.contains g.team && g.uid != own then (if g.demoted then endSpin g else g) else g
      let a0 := resaveTsm a u p
      let a1 := us.foldl (fun b v => match teamAt b v with
        | none => b
        | some t => modCore b t.core fun c => { c with
            ctx := { c.ctx with groups := tmap c.ctx.groups free }, saved := { c.saved with groups := tmap c.saved.groups free },
            shadow := { c.shadow with groups := tmap c.shadow.groups free } }) a0
      mapBundles a1 (bobjRelease a1 p.loc p.n)
    else a) s

/-- AtomOp (R249) at a width in bits: the new value, or none where a cas does not write. -/
def atomOp (op w old v : Nat) : Option Nat :=
  let m := 2 ^ w
  let sg := fun x => (BitVec.ofNat w x).toInt
  match op with
  | 0 => some ((old + v) % m)
  | 1 => some (if sg v < sg old then v else old)
  | 2 => some (min old v)
  | 3 => some (if sg old < sg v then v else old)
  | 4 => some (max old v)
  | 5 => some (old &&& v)
  | 6 => some (old ||| v)
  | 7 => some (old ^^^ v)
  | 8 => some v
  | 9 => (if old == v % m then some (v / m % m) else none)
  | 10 => some (addF32 old v).1
  | 11 => some (if old ≥ v then 0 else (old + 1) % m)
  | _ => some (if old = 0 || old > v then v else old - 1)

/-- The place of piece j in an access's data, in bytes. -/
def pieceOff (ps : List Piece) (j : Nat) : Nat := ((ps.take j).map (·.n)).sum
/-- A number without n bytes from byte i on. -/
def cutBytes (v i n : Nat) : Nat := v % 256 ^ i + v / 256 ^ (i + n) * 256 ^ i

/-- One unit of a write performed at its home: a store's bytes, or a reduction's operation; the last one ends the write (R243, R247, R260, R431). -/
def doUnit (s : State) (k : Nat) (w : Write) (j : Nat) : State :=
  match w.pieces[j]? with
  | none => endOwner (modCore s k fun c => finishFor { c with writes := c.writes.filter fun x => x.num != w.num } w.own w.op) k w.own
  | some p =>
    let i := pieceOff w.pieces j
    let v := bytesOf w.data i p.n
    let s1 := snapPages s w.lseq [p]
    let s2 := match w.rmw with
      | none => pieceWrite s1 p v
      | some op => match atomOp op (8 * p.n) (pieceRead s1 p) w.data with
        | some x => pieceWrite s1 p x
        | none => s1
    let s3 := landed (bringLines s2 true [p]) w.own [p]
    let rest := w.pieces.eraseIdx j
    if rest.isEmpty then endOwner (modCore s3 k fun c => finishFor { c with writes := c.writes.filter fun x => x.num != w.num } w.own w.op) k w.own
    else modCore s3 k fun c => { c with writes := c.writes.map fun x => if x.num = w.num then { x with pieces := rest, data := cutBytes w.data i p.n, begun := true } else x }
/-- The write of a number on a core's list. -/
def writeAt (c : Core) (num : Nat) : Option Write := lfind (fun w => w.num == num) c.writes
/-- Every unit of a write performed, n at most. -/
def doUnits : Nat → State → Nat → Nat → State
  | 0, s, _, _ => s
  | n + 1, s, k, num => match writeAt (coreAt s k) num with
    | none => s
    | some w => doUnits n (doUnit s k w 0) k num
/-- A write performed at its home and acknowledged. -/
def doWrite (s : State) (k : Nat) (w : Write) : State := doUnits (w.pieces.length + 1) s k w.num

/-- The first value logged under a key, and the log without it. -/
def popLog (key : Nat) : List (Nat × Nat) → Option (Nat × List (Nat × Nat))
  | [] => none
  | x :: r => if x.1 = key then some (x.2, r) else (popLog key r).map fun y => (y.1, x :: y.2)

/-- The old value of an atomic put in its destinations, and the request retired (R248). -/
def finishAtomic (s : State) (k : Nat) (l : Load) (old : Nat) : State :=
  modCore s k fun c0 =>
    settle (writeRegs (finishFor (dropLoad c0 l.num) l.own l.op) l.own l.num l.thr l.dsts false l.dsts (loadWords l.ty old)) l.own

/-- The key of a thread's word in the log of a mirror pair: the thread's number in its team, and the word's place among the thread's words that pass a result (R250, R389). -/
def mateNo (thread place : Nat) : Nat := place * 1024 + thread
/-- The team, and the key of a request in its mirror log (R389). -/
def logKey (s : State) (k : Nat) (l : Load) : Option (Nat × Team × Nat × Nat) :=
  match owner (coreAt s k) l.own with
  | none => none
  | some g => (teamAt s g.team).map fun t => (g.team, t, g.lseq, mateNo (32 * g.gnum + l.thr.getD ((members l.po).headD 0)) l.mate)

/-- An atomic performed at its home, and its old value written to its destinations (R248). A primary passes the value to its mirror, whose atomic takes it without an access (R389). -/
def doAtomic (s : State) (k : Nat) (l : Load) (op v : Nat) : State :=
  match logKey s k l with
  | none => modCore s k fun c => dropLoad c l.num
  | some (u, t, lseq, key) =>
    if t.role == .mirror then
      match popLog key t.log with
      | none => s
      | some (old, r) => finishAtomic (modTeam s u fun x => { x with log := r }) k l old
    else
      let old := piecesRead s l.pieces
      let s1 := match atomOp op (8 * tyBytes l.ty) old v with
        | some n => landed (bringLines (piecesWrite (snapPages s lseq l.pieces) l.pieces n) true l.pieces) l.own l.pieces
        | none => bringLines s false l.pieces
      let s2 := if t.role == .primary then modTeam s1 t.mate fun x => { x with log := x.log ++ [(key, old)] } else s1
      finishAtomic s2 k l old

/-- A token acquire's result in its predicate, and the request retired; one that obtains a token is an acquire of its threads (R264, R266, R333). -/
def finishToken (s : State) (k : Nat) (l : Load) (p : Nat) (got : Bool) : State :=
  let take := fun (t : Thread) => { setP t p got false with acq := if got then l.num else t.acq }
  let s1 := modCore s k fun c =>
    modOwner (finishFor (dropLoad c l.num) l.own l.op) l.own fun g => mapThreads g fun i t => if hasBit l.po i then take t else t
  endOwner s1 k l.own

/-- A token acquire at its cell's home: it takes a token where there is one and writes its predicate (R333); a mirror takes its primary's result (R389). -/
def doToken (s : State) (k : Nat) (l : Load) (p : Nat) : State :=
  match logKey s k l with
  | none => modCore s k fun c => dropLoad c l.num
  | some (u, t, lseq, key) =>
    if t.role == .mirror then
      match popLog key t.log with
      | none => s
      | some (old, r) => finishToken (modTeam s u fun x => { x with log := r }) k l p (old != 0)
    else
      let n := piecesRead s l.pieces
      let s1 := if n = 0 then bringLines s false l.pieces else landed (bringLines (piecesWrite (snapPages s lseq l.pieces) l.pieces (n - 1)) true l.pieces) l.own l.pieces
      let s2 := if t.role == .primary then modTeam s1 t.mate fun x => { x with log := x.log ++ [(key, bit (n != 0))] } else s1
      finishToken s2 k l p (n != 0)

/-- Whether two accesses of groups lie in the program order of one thread (R262). -/
def samePo (own : Nat) (po : Word) (own' : Nat) (po' : Word) : Bool := own == own' && po &&& po' != 0
/-- Whether a write is the engine's: one of an ast, which no later access of its thread follows but by owait (R264, R321). -/
def Write.engine (w : Write) : Bool := match w.thr with
  | some i => decide (32 ≤ i)
  | none => false
/-- The pieces of a request that have not been read or performed at their homes. -/
def Load.unread (l : Load) : List Piece :=
  if l.kind = .load || l.kind = .fill then ((List.range l.pieces.length).filter fun j => (tfind l.got j).isNone).filterMap fun j => l.pieces[j]? else l.pieces
/-- Whether a request only reads. -/
def Load.reads (l : Load) : Bool := l.kind == .load || l.kind == .fill
/-- Whether a request is a token acquire. -/
def Load.token (l : Load) : Bool := match l.kind with
  | .token _ => true
  | _ => false
/-- Whether pieces lie on RC or SO pages, which acquires and releases order (R264). -/
def ordered (ps : List Piece) : Bool := ps.any fun p => p.kind != 2

/-- Whether an access number, of some threads, follows a token acquire that orders it: one under way, or one that has obtained its token while an earlier read of its thread has not been performed (R264, R333). -/
def tokenBars (c : Core) (own num : Nat) (po : Word) (ps : List Piece) : Bool :=
  ordered ps &&
  ((c.loads.any fun l => l.token && decide (l.num < num) && samePo own po l.own l.po) ||
   (match owner c own with
    | none => false
    | some g => (members po).any fun i =>
        let a := (threadAt g i).acq
        decide (a < num) && c.loads.any fun l => l.reads && l.own == own && hasBit l.po i && decide (l.num < a) && ordered l.unread))

/-- The dies other than the core's that a write is posted to; a peer device counts from 4 by its rank (R274, R275). -/
def postedTo (k : Nat) (ps : List Piece) : List Nat :=
  (ps.filter fun p => p.peer || (p.die != dieOf k && decide (p.loc < tsmBase))).map fun p =>
    if p.peer then 4 + (peerRank p.loc).getD 0 else p.die
/-- Whether pieces have one that goes to another die, or a peer, in a line of a piece. -/
def sharesLine (k : Nat) (p : Piece) (ps : List Piece) : Bool := ps.any fun q => !(postedTo k [q]).isEmpty && (linesOf q).any (linesOf p).contains
/-- Whether a write's piece that goes to another die, or a peer, follows an earlier write or atomic of its core to the same line (R274). -/
def lineBars (c : Core) (k num : Nat) (p : Piece) : Bool :=
  !(postedTo k [p]).isEmpty &&
  ((c.writes.any fun w => decide (w.num < num) && !w.held && sharesLine k p w.pieces) || c.loads.any fun l => decide (l.num < num) && !l.reads && sharesLine k p l.pieces)

/-- Whether an access to some pieces may be performed at its home now: every earlier access of its threads to a common location has been (R236, R261, R262), and no token acquire stands before it (R264). A read sees its own thread's held stores, and does not wait for them (R388). -/
def accessDue (c : Core) (own num : Nat) (po : Word) (reads : Bool) (ps : List Piece) : Bool :=
  !(c.writes.any fun w => decide (w.num < num) && !w.engine && samePo own po w.own w.po && !(reads && w.held) && overlap w.pieces ps) &&
  !(c.loads.any fun l => decide (l.num < num) && samePo own po l.own l.po && overlap l.unread ps) &&
  !tokenBars c own num po ps
/-- Whether a write is a record of a vspill. -/
def Write.spill (w : Write) : Bool := w.ty == 7
/-- Whether an access to a group's spill slots follows a vspill or a vfill of the group to the same bytes: they take effect in the order in which they issue, whichever threads they are of (R256). -/
def slotBars (c : Core) (own num : Nat) (ps : List Piece) : Bool :=
  (c.writes.any fun w => w.spill && w.own == own && !w.held && decide (w.num < num) && overlap w.pieces ps) ||
  (c.loads.any fun l => l.kind == .fill && l.own == own && decide (l.num < num) && overlap l.unread ps)
/-- Whether unit j of a write may be performed: a write that follows all its threads' earlier ones waits for them (R332). -/
def unitDue (c : Core) (k : Nat) (w : Write) (p : Piece) : Bool :=
  accessDue c w.own w.num w.po false [p] && !lineBars c k w.num p && !(w.spill && slotBars c w.own w.num [p]) &&
  (!w.rel || (!(c.writes.any fun x => decide (x.num < w.num) && !x.engine && samePo w.own w.po x.own x.po) &&
    !(c.loads.any fun l => decide (l.num < w.num) && !l.reads && samePo w.own w.po l.own l.po)))

/-- The value that unit j of a load reads at its home now, with its threads' own held stores laid over it (R236, R388). -/
def unitValue (s : State) (k : Nat) (l : Load) (p : Piece) : Nat :=
  let held := (coreAt s k).writes.filter fun w => w.held && (samePo l.own l.po w.own w.po || (l.kind == .fill && w.spill && w.own == l.own)) && decide (w.num < l.num) && overlap w.pieces [p]
  pieceRead (held.foldl (fun a w => piecesWrite a w.pieces w.data) s) p
/-- A load's value from its units, those read and those that it reads now. -/
def loadValue (s : State) (k : Nat) (l : Load) : Nat → List Piece → Nat
  | _, [] => 0
  | j, p :: r => ((tfind l.got j).getD (unitValue s k l p)) % 256 ^ p.n + 256 ^ p.n * loadValue s k l (j + 1) r

/-- A copy of a line delivered to a core for a class 1 to 7 load from another die's HBM (R217). -/
def keepCopy (s : State) (k : Nat) (l : Load) (ps : List Piece) : State :=
  ps.foldl (fun a p =>
    if l.cls = 0 || !p.hbm || p.mx != 0 || p.die == dieOf k || !cached (dieAt a (dieOf k)) then a
    else modDie a (dieOf k) fun d => (linesOf p).foldl (fun d n =>
      { d with copies := tput d.copies n ((List.range 128).map fun i => keyByte a p.key (n * 128 + i)) }) d) s

/-- Unit j of a load read at its home, before its data reaches the core (R260, R431). -/
def readUnit (s : State) (k : Nat) (l : Load) (j : Nat) : State :=
  match l.pieces[j]? with
  | none => s
  | some p =>
    if (tfind l.got j).isSome then s
    else
      let v := unitValue s k l p
      modCore (bringLines s false [p]) k fun c => modLoad c l.num fun x => { x with got := tput x.got j v }
/-- R20: a load's true data, its units not yet read being read now, is delivered. -/
def performLoad (s : State) (k : Nat) (l : Load) : State :=
  deliver (keepCopy (bringLines s false l.unread) k l l.pieces) k l (loadValue s k l 0 l.pieces)

/-- An access of a core's list as its order sees it: its number, threads and locations. -/
structure Pend where
  num : Nat
  po : Word
  ps : List Piece
deriving DecidableEq, Repr
/-- An access put in its place, the latest first. -/
def putPend : Pend → List Pend → List Pend
  | x, [] => [x]
  | x, y :: r => if y.num ≤ x.num then x :: y :: r else y :: putPend x r
/-- A group's accesses of a core not yet performed, before a number, the latest first. -/
def pendsOf (c : Core) (own num : Nat) : List Pend :=
  let ws := (c.writes.filter fun w => w.own == own && decide (w.num < num) && !w.held && !w.engine).map fun w => (⟨w.num, w.po, w.pieces⟩ : Pend)
  let ls := (c.loads.filter fun l => l.own == own && decide (l.num < num)).map fun l => (⟨l.num, l.po, l.unread⟩ : Pend)
  (ws ++ ls).foldl (fun a x => putPend x a) []
/-- The accesses among some, the latest first, that must be performed before those of a list: each shares a thread and a location with a later one (R236). The answer is the earliest first. -/
def before : List Pend → List Pend → List Pend
  | [], _ => []
  | x :: r, later => if later.any fun y => x.po &&& y.po != 0 && overlap x.ps y.ps then before r (x :: later) ++ [x] else before r later
/-- One access of a core performed, or for a load read at its home. -/
def performOne (s : State) (k num : Nat) : State :=
  match writeAt (coreAt s k) num with
  | some w => doWrite s k w
  | none => match loadAt (coreAt s k) num with
    | none => s
    | some l => match l.kind with
      | .atomic op v => doAtomic s k l op v
      | .token p => doToken s k l p
      | _ => (List.range l.pieces.length).foldl (fun a j => match loadAt (coreAt a k) num with
          | some x => readUnit a k x j
          | none => a) s
/-- R236: the earlier accesses of some threads of a group to some bytes of TSM are performed, in their order, before an update of those bytes that does not wait. -/
def performBefore (s : State) (k own : Nat) (po : Word) (ps : List Piece) : State :=
  let n := (coreAt s k).next
  (before (pendsOf (coreAt s k) own n) [⟨n, po, ps⟩]).foldl (fun a x => performOne a k x.num) s

/-- Whether an access that must be performed before an update of some bytes cannot be yet, since a token acquire of its threads stands before it (R236, R264). -/
def barredBefore (c : Core) (own : Nat) (po : Word) (ps : List Piece) : Bool :=
  (before (pendsOf c own c.next) [⟨c.next, po, ps⟩]).any fun x => tokenBars c own x.num x.po x.ps

/-- Whether a thread of a group has a write or atomic that is not yet performed, of whatever page kind (R252, R274; log entry 66). -/
def writesPending (c : Core) (g : Group) (i : Nat) : Bool :=
  (c.writes.any fun w => w.own == g.uid && !w.engine && hasBit w.po i) || (c.loads.any fun l => l.own == g.uid && !l.reads && hasBit l.po i)

/-- Whether a thread has a load or atomic without its true value, of whatever page kind; a detached load is not counted (R252; log entry 66). -/
def readsPending (c : Core) (g : Group) (i : Nat) : Bool := c.loads.any fun l => l.own == g.uid && hasBit l.po i && !l.detached && l.came.isNone

end Sys2Proof.Machine
end

