-- ==== Sys2Proof/Machine/Ops.lean ====
section
/-! DEFINITION. The shared operations of a step: reading operands, certainty points, replay, taking a trap and returning from one, the effects of a thread, and the commit of a step. -/

namespace Sys2Proof.Machine

/-- Causes of R372 that words raise. -/
def cILLEGAL : Nat := 1
def cPRIV : Nat := 2
def cALIGN : Nat := 3
def cPROT : Nat := 4
def cDEAD : Nat := 5
def cLATCH : Nat := 6
def cNOREPLAY : Nat := 7
def cPEER : Nat := 8
def cSEMIRING : Nat := 9
def cALIASATOM : Nat := 10
def cMCAST : Nat := 11
def cWATCHDOG : Nat := 12
def cBREAK : Nat := 13
def cUSER : Nat := 14
def cDOUBLE : Nat := 15
def cFRONTIER : Nat := 16

/-- A 32-bit literal: Lit() of R16. -/
def litVal : Option (BitVec 26) → Word
  | some l => l.signExtend 32
  | none => 0

/-- The offset of a memory word: its literal, or 0 (R37). -/
def litInt : Option (BitVec 26) → Int
  | some l => l.toInt
  | none => 0

/-- A read of one register with U = 0, after the checks of ReadSrc: thread i's view (R16). A dead register reads 0 without penumbra. -/
def readOne (g : Group) (i : Nat) (t : Thread) (lit : Option (BitVec 26)) (pipe : Pipe) (code : Nat) : Reg :=
  if code ≤ 95 then let r := vreg t code; if r.dead then ⟨0, false⟩ else ⟨r.val, r.pen⟩
  else if code ≤ 99 then latch t pipe (code - 96)
  else if code ≤ 123 then sreg g (code - 100)
  else if code = 125 then ⟨BitVec.ofNat 32 i, false⟩
  else if code = 126 then ⟨litVal lit, false⟩
  else ⟨0, false⟩

/-- A read of one register with U = 1 (R16). -/
def readUni (g : Group) (lit : Option (BitVec 26)) (isLit : Bool) (code : Nat) : Reg :=
  if isLit && code = 126 then ⟨litVal lit, false⟩ else sreg g code

/-- A source operand: its field code, how many registers it names, whether code 126 names the literal in it, and whether code 124 may stand for a wide zero (R36). -/
structure Src where
  code : Nat
  n : Nat
  lit : Bool
  zero : Bool
deriving DecidableEq, Repr

/-- A value read from an operand, with the OR of its penumbra bits (R112). -/
structure In where
  val : Nat
  pen : Bool
deriving DecidableEq, Repr

/-- The registers of an operand, low first; the pair of codes 96 and 98 has the newer latch on top (R112). -/
def srcRegs (x : Src) : List Nat :=
  if 96 ≤ x.code && x.code ≤ 99 && x.n == 2 then [x.code + 1, x.code]
  else if x.code == 124 then List.replicate x.n 124
  else (List.range x.n).map fun j => x.code + j

/-- Registers put together as one number, low first. -/
def joinRegs : List Reg → In
  | [] => ⟨0, false⟩
  | r :: rs => let v := joinRegs rs; ⟨r.val.toNat + 2 ^ 32 * v.val, r.pen || v.pen⟩

/-- An operand read in a thread (ReadSrc, ReadPair with U = 0). -/
def readSrc (g : Group) (i : Nat) (t : Thread) (lit : Option (BitVec 26)) (pipe : Pipe) (x : Src) : In :=
  joinRegs ((srcRegs x).map (readOne g i t lit pipe))

/-- An operand read with U = 1; code 0 reads zeros of any width (R36). -/
def readSrcU (g : Group) (lit : Option (BitVec 26)) (x : Src) : In :=
  if x.code = 0 then ⟨0, false⟩
  else joinRegs (((List.range x.n).map fun j => x.code + j).map (readUni g lit x.lit))

/-- Whether an operand names a lost latch (R40). -/
def srcLost (t : Thread) (pipe : Pipe) (x : Src) : Bool :=
  decide (96 ≤ x.code) && decide (x.code ≤ 99) && latchLost t pipe (x.code - 96 + (x.n - 1))

/-- Whether an operand names a dead register. -/
def srcDead (t : Thread) (x : Src) : Bool :=
  decide (x.code ≤ 95) && (List.range x.n).any fun j => (vreg t (x.code + j)).dead

/-- Whether a read of a dead register traps (R44). -/
def deadTraps (g : Group) : Bool := g.lvs.getLsbD 0

/-- Whether an operand's code is legal with U = 0, for a window and a number of s registers (R16, R36). -/
def srcOk (pipe : Pipe) (hasLit : Bool) (win sregs : Nat) (x : Src) : Bool :=
  x.code % x.n == 0 &&
  (if x.code ≤ 95 then decide (x.code + x.n ≤ win)
   else if x.code ≤ 99 then (pipe == .i || pipe == .f) && decide (x.n ≤ 2)
   else if x.code ≤ 123 then decide (x.code - 100 + x.n ≤ sregs)
   else if x.code = 124 then x.n == 1 || x.zero
   else if x.code = 125 then x.n == 1
   else if x.code = 126 then x.lit && hasLit && x.n == 1
   else false)

/-- Whether an operand's code is legal with U = 1. -/
def srcOkU (hasLit : Bool) (sregs : Nat) (x : Src) : Bool :=
  if x.lit && x.code = 126 then hasLit && x.n == 1
  else x.code % x.n == 0 && (x.code == 0 || decide (x.code + x.n ≤ sregs))

/-- What every word says of itself before it runs: whether the step continues after it, its literal and whether it takes one in any case, its pipe with U = 0, its U and N bits and whether it has a U form, its sources and destinations (code, registers), registers that it names without a checked read (look) and whether it never waits for registers, s registers named by an index read and written, predicates read and written, whether its other fields are assigned, and whether it is a terminator or group-wide. -/
structure Shape where
  c : Bool
  lit : Option (BitVec 26)
  lits : Bool
  pipe : Pipe
  u : Bool
  uForm : Bool
  n : Bool
  srcs : List Src
  dsts : List (Nat × Nat)
  look : List Src
  nowait : Bool
  sr : List Nat
  sw : List Nat
  pr : List Nat
  pw : List Nat
  ok : Bool
  term : Bool
  wide : Bool
deriving DecidableEq, Repr

/-- Whether a source field consumes the chained literal (R37). -/
def Src.takesLit (u : Bool) (x : Src) : Bool := x.code == 126 && x.lit && (!u || x.lit)

/-- Whether a word is legal for a window and a number of s registers: the checks of R54 that concern the word alone. -/
def Shape.legal (sh : Shape) (win sregs : Nat) : Bool :=
  sh.ok && (!sh.u || (sh.uForm && !sh.n)) &&
  ((sh.sr ++ sh.sw).all fun d => decide (d < sregs)) &&
  ((sh.srcs ++ sh.look).all fun x => if sh.u then srcOkU sh.lit.isSome sregs x else srcOk sh.pipe sh.lit.isSome win sregs x) &&
  (sh.dsts.all fun d => d.1 % d.2 == 0 && (if sh.u then decide (d.1 + d.2 ≤ sregs) else decide (d.1 ≤ 95) && decide (d.1 + d.2 ≤ win))) &&
  (sh.lit.isNone || sh.lits || sh.srcs.any (Src.takesLit sh.u))

/-- The pipe that a word occupies (R38). -/
def Shape.pipeOf (sh : Shape) : Pipe := if sh.pipe == .none then .none else if sh.u then .s else sh.pipe

/-- The destinations that R11 compares: v registers as they are, s registers from 200, predicates from 1000. -/
def Shape.names (sh : Shape) : List Nat :=
  (if sh.n then [] else sh.dsts.flatMap fun d => (List.range d.2).map fun j => (if sh.u then 200 else 0) + d.1 + j) ++
  sh.sw.map (200 + ·) ++ sh.pw.map (1000 + ·)

/-- Whether a word breaks R11 against the words of its chain before it. -/
def Shape.clashes (sh : Shape) (b : Bundle) : Bool :=
  (sh.pipeOf != .none && b.pipes.contains sh.pipeOf) || sh.names.any b.dsts.contains

/-- Whether a terminator stands where R32 allows: in a sealed packet, with only nops after it. -/
def termOk (b : Bundle) (len : Nat) : Bool :=
  match b.pkt with
  | none => false
  | some p => p.w2 / 2 ^ 31 == 1 && ((p.words.drop (b.pos + len)).all fun w => w % 2 ^ 31 == 0x5C000000)

/-- What a word sees of one group of its bundle. -/
structure View where
  s : State
  k : Nat
  c : Core
  b : Bundle
  slot : Nat
  g : Group
  h : Hdr
  mask : Word

/-- What a hold asks of the machine meanwhile: a translation, flush markers for a thread's release, the end of a thread's mirror window, the start of a timed wait, a note that a thread has done its part (R330), or the lines that a read brings in (R216). -/
inductive Ask where
  | walk (w : Walk)
  | release (thr : Nat) (peers : Bool)
  | closeWin (thr : Nat)
  | since
  | done (thr : Nat)
  | bring (ps : List Piece)
deriving DecidableEq, Repr

/-- What a word does in one thread. -/
inductive TPlan where
  | go (effs : List Eff) (acts : List Act)
  | trap (t : Trap)
  | replay
  | hold (w : Wait) (parked : Bool) (asks : List Ask)
deriving DecidableEq, Repr

/-- What a word does in one group of its bundle. -/
inductive Plan where
  | go (rs : List Res)
  | hold (w : Wait) (parked : Bool) (asks : List Ask)
deriving DecidableEq, Repr

/-- A trap of a word at its position, for causes without an address. -/
def trapAt (v : View) (cause : Nat) (info : Nat := 0) : Trap := ⟨cause, info, 0, v.b.pos⟩
/-- A trap with the EA of an access. -/
def trapEa (v : View) (cause ea : Nat) : Trap := ⟨cause, 0, BitVec.ofNat 64 ea, v.b.pos⟩

/-- A thread plan with an effect put first. -/
def TPlan.first (e : Eff) : TPlan → TPlan
  | .go es as => .go (e :: es) as
  | p => p

/-- Certainty (R25) in thread i, before the rest of a word. -/
def certainly (v : View) (i : Nat) (t : Thread) (pen : Bool) (rest : TPlan) : TPlan :=
  if !pen && !t.cg then rest.first .unreplay
  else if unresolved v.c v.g i then .hold (.certainty [(v.slot, i)]) false []
  else if t.rf then (if t.rpv then .replay else .trap (trapAt v cNOREPLAY))
  else rest.first .certain

/-- The wait of gmark and jwait: every guess of the thread resolves, and a refuted one replays (R140, R203). -/
def resolved (v : View) (i : Nat) (t : Thread) (parked : Bool) (rest : TPlan) : TPlan :=
  if unresolved v.c v.g i then .hold (.certainty [(v.slot, i)]) parked []
  else if t.rf then (if t.rpv then .replay else .trap (trapAt v cNOREPLAY))
  else rest

/-- The present threads of a view. -/
def View.present (v : View) : List Nat := members v.mask

/-- Asks of every holding thread. -/
def TPlan.asks : TPlan → List Ask
  | .hold _ _ as => as
  | _ => []

/-- Two waits of one step as one: waits for guesses, for room, for demanded data and at barrier objects add up; the last two stand before any other, and otherwise the first does. -/
def bothWaits : Wait → Wait → Wait
  | .certainty a, .certainty b => .certainty (a ++ b)
  | .demand a, .demand b => .demand (a ++ b)
  | .bobj a, .bobj b => .bobj (a ++ b)
  | .queue a, .queue b => .queue (a ++ b)
  | _, .demand b => .demand b
  | _, .bobj b => .bobj b
  | w, _ => w

/-- The first hold of a list of thread plans, parked only if each hold parks. -/
def firstHold : List (Nat × TPlan) → Option (Wait × Bool)
  | [] => none
  | (_, .hold w p _) :: r => match firstHold r with
    | some (x, q) => some (bothWaits w x, p && q)
    | none => some (w, p)
  | _ :: r => firstHold r

/-- The result of a thread plan that does not hold. -/
def TPlan.res (slot i : Nat) : TPlan → Res
  | .go es as => ⟨slot, some i, es, as, none, false⟩
  | .trap t => ⟨slot, some i, [], [], some t, false⟩
  | .replay => ⟨slot, some i, [], [], none, true⟩
  | .hold _ _ _ => ⟨slot, some i, [], [], none, false⟩

/-- A word that acts in each present thread on its own, after the checks of its sources (R55, classes 3 and 4). -/
def eachThread (sh : Shape) (f : View → Nat → Thread → TPlan) (v : View) : Plan :=
  let ps := v.present.map fun i =>
    let t := threadAt v.g i
    (i, if !sh.u && sh.srcs.any (srcLost t sh.pipe) then TPlan.trap (trapAt v cLATCH)
        else if !sh.u && deadTraps v.g && sh.srcs.any (srcDead t) then .trap (trapAt v cDEAD)
        else f v i t)
  match firstHold ps with
  | some (w, parked) => .hold w parked (ps.flatMap fun p => p.2.asks)
  | none => .go (ps.map fun p => p.2.res v.slot p.1)

/-- A plan for the group as a whole from one for its first present thread: a word that runs once (R111). -/
def TPlan.once (v : View) : TPlan → Plan
  | .go es as => .go [⟨v.slot, none, es, as, none, false⟩]
  | .trap t => .go [⟨v.slot, none, [], [], some t, false⟩]
  | .replay => .go [⟨v.slot, none, [], [], none, true⟩]
  | .hold w p as => .hold w p as

/-- The mark of a word whose replay is its whole group's (R245). -/
def jointRes (v : View) : Res := ⟨v.slot, none, [.joint (v.present.all fun i => (threadAt v.g i).rpv)], [], none, false⟩

/-- UniformCertainty (R245). The clearing it asks for is done in each present thread; the s penumbra bits clear with the group's guesses (R241). -/
def uniformly (v : View) (pen : Bool) (rest : TPlan) : Plan :=
  let ts := v.present.map fun i => (i, threadAt v.g i)
  if !pen && ts.all (fun x => !x.2.cg) then
    match rest.once v with
    | .go rs => .go (jointRes v :: ts.map (fun x => ⟨v.slot, some x.1, [.unreplay], [], none, false⟩) ++ rs)
    | p => p
  else if unresolvedS v.c v.g || ts.any (fun x => unresolved v.c v.g x.1) then .hold (.certainty (ts.map fun x => (v.slot, x.1))) false []
  else if ts.any (fun x => x.2.rf) then
    if ts.any (fun x => !x.2.rpv) then (TPlan.trap (trapAt v cNOREPLAY)).once v else TPlan.replay.once v
  else
    match rest.once v with
    | .go rs => .go (jointRes v :: ts.map (fun x => ⟨v.slot, some x.1, [.certain], [], none, false⟩) ++
        (⟨v.slot, none, [.certain], [], none, false⟩ :: rs))
    | p => p

/-- A thread as a replay leaves it (R26). -/
def replayThread (t : Thread) : Thread :=
  { clearPens t with loops := t.snapLoops, lnk := t.snapLnk, rf := false, cg := false, rpl := true, xfer := none }

/-- Whether a thread runs in a handler: INH (R373). -/
def inHandler (t : Thread) : Bool := t.trap.stat.getLsbD 3

/-- CRC-64 under the ECMA-182 polynomial, folded over one bit at a time from the top (R389). -/
def crcBit (c : Nat) (b : Bool) : Nat :=
  let top := c / 2 ^ 63 % 2 == 1
  let s := c * 2 % 2 ^ 64
  if top != b then s ^^^ 0x42F0E1EBA9EA3693 else s
/-- n bits of a number folded in, the highest first. -/
def crcBits : Nat → Nat → Nat → Nat
  | 0, c, _ => c
  | n + 1, c, v => crcBits n (crcBit c (v / 2 ^ n % 2 == 1)) v
/-- A 32-byte item folded in, byte 0 first. -/
def crcItem (c v : Nat) : Nat := (List.range 32).foldl (fun a i => crcBits 8 a (byteOf v i)) c

/-- The open window of a thread's mirror stream closed, as at a release or an exit (R389). -/
def shutWindow (now : Nat) (t : Thread) : Thread := { t with windows := t.windows ++ [(t.sig, now)], sig := 0, sigCount := 0 }
/-- The open window of a thread's mirror stream closed, if it holds an item: the item that closes it may have been its 64th (R389). -/
def closeWindow (now : Nat) (t : Thread) : Thread := if t.sigCount = 0 then t else shutWindow now t
/-- An item folded into a thread's stream; a window closes after 64 (R389). -/
def foldItem (now v : Nat) (t : Thread) : Thread :=
  let t1 := { t with sig := BitVec.ofNat 64 (crcItem t.sig.toNat v), sigCount := t.sigCount + 1 }
  if t1.sigCount = 64 then closeWindow now t1 else t1

/-- Whether a group's team is one of a mirror pair. -/
def mirrored (s : State) (g : Group) : Bool := match teamAt s g.team with
  | some t => t.role != .plain
  | none => false

/-- R380: the trap record of a thread, sent on the event channel; the firmware serves the traps of its own cores (R421). -/
def sendRecord (s : State) (k slot i : Nat) (g : Group) (cause info : Nat) (addr : Dword) (pos : Nat) (pc : Word) : State :=
  let h := hdrOf s g.lseq
  let w := pos + (if h.handler = 0xFFFFFFFF then 0 else 4) + (if mirrored s g then 8 else 0)
  if isControl k then s else sendEvent s 5 (dieOf k) (s.now % 2 ^ 64 + addr.toNat * 2 ^ 64 + g.lseq % 2 ^ 32 * 2 ^ 128 + k * 2 ^ 160 + slot * 2 ^ 176 + i * 2 ^ 184 +
    cause * 2 ^ 192 + info * 2 ^ 200 + w * 2 ^ 208 + pc.toNat * 2 ^ 224)

/-- R378: a thread that traps in a handler stops, its record is sent, and rollback of its launch begins. DESIGN CHOICE: the record gives taddr 0, and as tpc and WORD the position of the second step that trapped; the rule names both as the registers, which still hold the first trap's values (R380; log entry 77). -/
def doubleFault (s : State) (k slot i : Nat) (cause : Nat) (pos : Nat) (pc : Word) : State :=
  match groupAt (coreAt s k) slot with
  | none => s
  | some g =>
    let s1 := modCore s k fun c => setGroup c slot (modThread g i fun t => { t with stopped := true })
    rollback (sendRecord s1 k slot i g cDOUBLE cause 0 pos pc) g.lseq

/-- A thread that leaves its parked sub-group; a sub-group without members ends (R376). -/
def leaveSub (g : Group) (i : Nat) : Group :=
  let subs := tmap g.subs fun _ x => { x with members := x.members &&& ~~~(oneBit i) }
  { g with subs := subs.filter fun x => x.2.members != 0 }

/-- Threads put among those that wait to enter a trap (R374). -/
def pendTraps (c : Core) (own slot : Nat) (sub : Option Nat) (traps : Tab Trap) (pos : Nat) (pc : Word) : Core :=
  { c with next := c.next + 1, pend := c.pend ++ [⟨c.next, own, slot, sub, maskOf (traps.map (·.1)), traps, pos, pc⟩] }

/-- The priority of a block (R428). -/
def blockPrio (s : State) (k : Nat) (h : Hdr) (start : Nat) : Nat := if isControl k then 0 else (peekVa s (coreAt s k) h.ptroot (h.bptab + 2 * start) prioAccess 2).getD 0

/-- The slot of the group of a number in some groups. -/
def slotUid : Tab Group → Nat → Option Nat
  | [], _ => none
  | (slot, g) :: r, u => if g.uid = u then some slot else slotUid r u
/-- The slot of the group of a number, wherever its context lies. -/
def slotOf (c : Core) (u : Nat) : Nat := (slotUid (c.ctx.groups ++ c.saved.groups ++ c.shadow.groups) u).getD 0
/-- The address of a group's spill stack (R213). -/
def spillBase (s : State) (g : Group) : Nat :=
  (hdrOf s g.lseq).spbase + 8192 * (32 * (match teamAt s g.team with
    | some t => t.idx
    | none => 0) + g.gnum)
/-- The 24 bytes of a spilled entry (R213). The manual gives their number and not their places (log entry 49). -/
def entryBytes (e : FEntry) : Nat :=
  e.start.toNat + e.prio % 2 ^ 16 * 2 ^ 32 + (if e.promoted then 2 ^ 48 else 0) + e.wait.toNat * 2 ^ 64 + e.cyc % 2 ^ 32 * 2 ^ 96 + e.age % 2 ^ 64 * 2 ^ 128
/-- An entry as its bytes give it back. -/
def entryOf (e : FEntry) (x : Nat) : FEntry :=
  { e with start := BitVec.ofNat 32 x, prio := slice x 47 32, promoted := x / 2 ^ 48 % 2 == 1, wait := BitVec.ofNat 32 (x / 2 ^ 64), age := slice x 191 128 }
/-- A group parked at a fault of its spill stack (R213, R226). -/
def spillFault (s : State) (k : Nat) (g : Group) (va kind access level : Nat) : State :=
  let r := holdFault s (dieOf k) (.spill k g.uid) va kind access level k (slotOf (coreAt s k) g.uid) g.lseq
  modCore r.1 k fun c => modOwner c g.uid fun x => { x with faults := x.faults ++ [r.2] }
/-- A group parked until a walk of its spill stack can begin (R225). -/
def spillWaits (s : State) (k : Nat) (g : Group) : State := modCore s k fun c => modOwner c g.uid fun x => { x with faults := x.faults ++ [0] }
/-- Spilled entries written to the stack from place i on, as far as no page faults and a walk is free (R171, R213, R225). -/
def putEntries (k : Nat) (g : Group) : Nat → List FEntry → State → State
  | _, [], s => s
  | i, e :: r, s =>
    let va := spillBase s g + 24 * i
    if !walkerFree s (dieOf k) then spillWaits s k g
    else match reachVa (hdrOf s g.lseq).ptroot spillAccess 2 s va 24 with
    | (s1, .found ps) => putEntries k g (i + 1) r (bringLines (piecesWrite (snapPages s1 g.lseq ps) ps (entryBytes e)) true ps)
    | (s1, .fault a kind level) => spillFault s1 k g a kind spillAccess level
/-- The entries that a group has spilled, written from place i on; the first one spilled stands lowest. -/
def putSpill (s : State) (k u i : Nat) : State :=
  match owner (coreAt s k) u with
  | none => s
  | some g => putEntries k g i (g.spilled.reverse.drop i) s
/-- R171: the most recently spilled entries of a group return while its frontier has room, n at most; their bytes are read back. -/
def refillAt : Nat → State → Nat → Nat → State
  | 0, s, _, _ => s
  | n + 1, s, k, u =>
    match owner (coreAt s k) u with
    | none => s
    | some g =>
      match g.spilled with
      | [] => s
      | e :: r =>
        if 16 ≤ g.frontier.length || !g.faults.isEmpty then s
        else if !walkerFree s (dieOf k) then spillWaits s k g
        else
          let va := spillBase s g + 24 * r.length
          match reachVa (hdrOf s g.lseq).ptroot fillAccess 2 s va 24 with
          | (s1, .fault a kind level) => spillFault s1 k g a kind fillAccess level
          | (s1, .found ps) =>
            let y := entryOf e (piecesRead s1 ps)
            refillAt n (modCore (bringLines s1 false ps) k fun c => modOwner c u fun h => { returnEntry h y with spilled := r }) k u

/-- Threads join their group's frontier; an entry that this spills is written to the spill stack (R169, R171, R213). -/
def joinFrontier (s : State) (k slot : Nat) (g : Group) (start mask : Word) : State :=
  let g1 := joinGroup s.now (cycOf s k) (if g.frontier.length < 16 then 0 else blockPrio s k (hdrOf s g.lseq) start.toNat) g start mask
  let s1 := modCore s k fun c => setGroup c slot g1
  if g1.spilled.length = g.spilled.length then s1 else putSpill s1 k g.uid g.spilled.length

/-- R169, R375: threads join the frontier of their group or sub-group, from a step at a packet and word; one that would overfill a sub-group's takes FRONTIER_FULL there. -/
def joinAt (s : State) (k slot : Nat) (sub : Option Nat) (start mask pc : Word) (pos : Nat) : State :=
  match groupAt (coreAt s k) slot with
  | none => s
  | some g =>
    match sub with
    | none => joinFrontier s k slot g start mask
    | some x => match joinSub s.now (cycOf s k) g x start mask with
      | some g1 => modCore s k fun c => setGroup c slot g1
      | none => modCore s k fun c => pendTraps c g.uid slot sub ((members mask).map fun i => (i, ⟨cFRONTIER, 0, 0, pos⟩)) pos pc

/-- What threads leave of a step that they do not complete: translations that have ended as failed or fatal are gone with it, and data that have come to its gdemand resolve their loads as without one. -/
def dropWalks (c0 : Core) (u : Nat) (is : List Nat) : Core :=
  let c := (c0.loads.filter fun l => l.own == u && l.came.isSome && !demandedNow c0 l).foldl leaveCame c0
  { c with walks := c.walks.filter fun w => !(w.own == u && (w.fatal || w.failed) && (match w.thr with
      | some i => is.contains i
      | none => true)) }

/-- Replay() of R26 for one thread, from a step at a packet and word: it joins the entry at RPC. -/
def replayAt (s : State) (k slot : Nat) (sub : Option Nat) (i : Nat) (pos : Nat) (pc : Word) : State :=
  match groupAt (coreAt s k) slot with
  | none => s
  | some g =>
    let t := threadAt g i
    joinAt (modCore s k fun c => dropWalks (setGroup c slot (modThread g i replayThread)) g.uid [i]) k slot sub t.rpc (oneBit i) pc pos

/-- The thread state that TrapEntry writes (R374). -/
def enterThread (now : Nat) (tr : Trap) (pos : Nat) (pc : Word) (t : Thread) : Thread :=
  { clearPens t with
    rf := false, cg := false, fpen := false, ringI := [], ringF := [], xfer := none, sleep := none
    trap := { cause := BitVec.ofNat 32 (tr.cause + 256 * tr.info), pc := pc, stat := BitVec.ofNat 32 (8 + pos), addr := tr.addr,
              ts := BitVec.ofNat 64 now, lnk := t.lnk, gst := BitVec.ofNat 32 (bit t.rpv + 8 * bit t.rpl) }
    saved := ⟨t.loops, t.rpc, t.rpv, t.rpl⟩
    loops := [], rpv := false, rpl := false }

/-- TrapEntry (R374) for one thread whose guesses have all resolved. It answers whether the thread goes on in the handler. -/
def enterTrap (s : State) (k slot : Nat) (sub : Option Nat) (i : Nat) (tr : Trap) (pos : Nat) (pc : Word) : State × Bool :=
  match groupAt (coreAt s k) slot with
  | none => (s, false)
  | some g =>
    let t := threadAt g i
    if tr.cause != cNOREPLAY && t.rf && t.rpv then (replayAt s k slot sub i pos pc, false)
    else
      let tr1 : Trap := if tr.cause != cNOREPLAY && t.rf then ⟨cNOREPLAY, 0, 0, tr.pos⟩ else tr
      if inHandler t then
        let g1 := modThread g i fun x => { clearPens x with rf := false, cg := false, fpen := false }
        (doubleFault (modCore s k fun c => setGroup c slot g1) k slot i tr1.cause pos pc, false)
      else
        let none' := (hdrOf s g.lseq).handler == 0xFFFFFFFF
        let note := fun (x : Thread) => if mirrored s g then closeWindow s.now (foldItem s.now (pc.toNat + tr1.cause * 2 ^ 128) x) else x
        let g1 := modThread g i fun x => { enterThread s.now tr1 pos pc (note x) with stopped := none' }
        let s1 := modCore s k fun c => setGroup c slot g1
        (sendRecord s1 k slot i g tr1.cause tr1.info tr1.addr pos pc, !none')

/-- Whether the threads of a step may enter their traps now: their guesses have resolved, a sub-group is free, and the records can be queued (R374, R376, R380). -/
def trapReady (s : State) (k slot : Nat) (traps : Tab Trap) : Bool :=
  let c := coreAt s k
  match groupAt c slot with
  | none => true
  | some g =>
    (isControl k || recordRoom s traps.length) && (traps.all fun x => x.2.cause == cNOREPLAY || !unresolved c g x.1) &&
    (decide (g.subs.length < 4) || traps.all fun x => inHandler (threadAt g x.1))

/-- Traps entered one thread after another; the mask of those that go on in the handler. -/
def enterTraps (k slot : Nat) (sub : Option Nat) (pos : Nat) (pc : Word) : Tab Trap → State → State × Word
  | [], s => (s, 0)
  | (i, tr) :: r, s =>
    let (s1, ok) := enterTrap s k slot sub i tr pos pc
    let (s2, m) := enterTraps k slot sub pos pc r s1
    (s2, if ok then m ||| oneBit i else m)

/-- TAKING A TRAP (R374, R375): the threads of one group that trap in one step enter and form one parked sub-group at tvec. -/
def takeTraps (s : State) (k slot : Nat) (sub : Option Nat) (traps : Tab Trap) (pos : Nat) (pc : Word) : State :=
  let (s1, m) := enterTraps k slot sub pos pc traps s
  if m = 0 then s1
  else modCore s1 k fun c => modGroup c slot fun g =>
    let tvec := BitVec.ofNat 32 (hdrOf s1 g.lseq).handler
    { g with subs := tput g.subs g.nextSub ⟨m, [newEntry s1.now (cycOf s1 k) 0 tvec m]⟩, nextSub := g.nextSub + 1 }

/-- Traps taken at once where they can be, and otherwise pending until TRAP_ENTRY. -/
def trapThreads (s0 : State) (k slot : Nat) (sub : Option Nat) (traps : Tab Trap) (pos : Nat) (pc : Word) : State :=
  let s := modCore s0 k fun c => match groupAt c slot with
    | some g => dropWalks c g.uid (traps.map (·.1))
    | none => c
  if traps.isEmpty then s0
  else if trapReady s k slot traps then takeTraps s k slot sub traps pos pc
  else
    modCore s k fun c => match groupAt c slot with
      | some g => pendTraps c g.uid slot sub traps pos pc
      | none => c

/-- The start of the block that holds a packet, by scanning back (R31). -/
def blockStartOf (s : State) (k : Nat) (h : Hdr) : Nat → Nat
  | 0 => 0
  | n + 1 => if isBlockStart s k h (n + 1) then n + 1 else blockStartOf s k h n

/-- A new open bundle at a packet and word (R172). -/
def newBundle (parts : List Part) (sub : Option Nat) (start pc : Word) (pos prio now : Nat) : Bundle :=
  { parts := parts, sub := sub, start := start, pc := pc, pos := pos, stepPos := pos, prio := prio, age := now, promoted := false,
    pkt := none, wait := none, waitSince := 0, parked := false, issued := false, held := [], segs := [], post := [], kept := false, pipes := [], dsts := [], stage := 0,
    since := 0, done := [], pinned := false, wide := false, uni := false, trapped := [], flow := false, fresh := false, yield := false, tried := false, pushes := [], shut := [] }

/-- Threads sent to a position: through the frontier where it is a block start, and otherwise into an open bundle that begins there, one for the threads of a step; lo is the first number that a bundle of this step can have (R379). -/
def resumeAt (s : State) (k slot lo : Nat) (pc : Word) (pos : Nat) (i : Nat) : State :=
  match groupAt (coreAt s k) slot with
  | none => s
  | some g =>
    let h := hdrOf s g.lseq
    if pos = 0 && isBlockStart s k h pc.toNat then joinFrontier s k slot g pc (oneBit i)
    else
      let start := blockStartOf s k h pc.toNat
      modCore s k fun c =>
        match lfind (fun x => decide (lo ≤ x.1) && x.2.pc == pc && x.2.pos == pos && x.2.sub == none && x.2.parts.map (·.slot) == [slot]) c.ctx.bundles with
        | some (bid, b) => setBundle c bid { b with parts := joinParts b.parts [⟨slot, oneBit i⟩] }
        | none => { setBundle c c.next (newBundle [⟨slot, oneBit i⟩] none (BitVec.ofNat 32 start) pc pos (blockPrio s k h start) s.now)
                    with next := c.next + 1 }

/-- The words of a packet, as fetched for a launch, or none where they cannot be. -/
def peekPacket (s : State) (k : Nat) (h : Hdr) (n : Nat) : Option Pkt :=
  let w := fun j => peekCode s k h (packetVa h n + 4 * j)
  match w 0, w 1, w 2 with
  | some a, some b, some c => some ⟨a, b, c⟩
  | _, _, _ => none

/-- The position after the step that begins at a word: past its chain by the C bits (R31). -/
def afterStep (p : Pkt) : Nat → Nat
  | 0 => if p.w0 / 2 ^ 31 == 1 then (if p.w1 / 2 ^ 31 == 1 then 3 else 2) else 1
  | 1 => if p.w1 / 2 ^ 31 == 1 then 3 else 2
  | _ => 3

/-- Whether a word is trap or bkpt (R139). -/
def isTrapWord (w : Nat) : Bool := w / 2 ^ 26 % 32 == 23 && (w / 2 ^ 18 % 128 == 7 || w / 2 ^ 18 % 128 == 8)

/-- RETURNING FROM A TRAP (R379) in one thread: what entry saved is restored, INH clears, the thread leaves its sub-group and resumes at the trapping step, or after it with RES = 1. -/
def returnThread (s : State) (k slot lo i : Nat) : State :=
  match groupAt (coreAt s k) slot with
  | none => s
  | some g =>
    let t := threadAt g i
    let pos := (t.trap.stat &&& 3).toNat
    let res := t.trap.stat.getLsbD 2
    let t1 := { loseLatches t with
      loops := t.saved.loops, rpc := t.saved.rpc, rpv := t.saved.rpv, rpl := t.saved.rpl, xfer := none
      trap := { t.trap with stat := t.trap.stat &&& ~~~8 } }
    let put := fun (x : Thread) => modCore s k fun c => setGroup c slot (leaveSub (modThread g i fun _ => x) i)
    if !res then resumeAt (put t1) k slot lo t.trap.pc pos i
    else
      let next := match peekPacket s k (hdrOf s g.lseq) t.trap.pc.toNat with
        | none => 3
        | some p => let n := afterStep p pos; if ((p.words.take n).drop pos).any isTrapWord then 3 else n
      if next < 3 then resumeAt (put t1) k slot lo t.trap.pc next i
      else
        let (q, loops) := nextPc t1 t.trap.pc
        resumeAt (put { t1 with loops := loops }) k slot lo q 0 i

end Sys2Proof.Machine
end

