-- ==== Sys2Proof/Machine/Registers.lean ====
section
/-! DEFINITION. What the system registers of a die and of the device read as (R126, R214, R360, R381, R385, R387, R402, R419, R423). -/

namespace Sys2Proof.Machine

/-- AWMAX and AWIN of a stack of a die (R360). -/
def awMax (d : Die) (j : Nat) : Nat := tget 96 d.actMax j
def awWin (d : Die) (j : Nat) : Nat := tget 12 d.actWin j

/-- The tile cluster of a die and the place of a register among its eight, for numbers from 0x200 to 0x24F (R360, R402). -/
def tcRegister (number : Nat) : Option (Nat × Nat) :=
  if 0x200 ≤ number && number < 0x250 && number % 8 < 5 then some ((number - 0x200) / 8, number % 8) else none

/-- Whether a number names a register of the device (R416). -/
def deviceRegister (number : Nat) : Bool :=
  [0x180, 0x184, 0x185, 0x188, 0x189, 0x1A8, 0x1A9, 0x1AA].contains number || (decide (0x1C0 ≤ number) && decide (number ≤ 0x1C7))
/-- Whether a number names a register of a die or of its tile clusters. -/
def dieRegister (number : Nat) : Bool := [0x181, 0x182, 0x190, 0x1A0].contains number || (tcRegister number).isSome

/-- What a register reads as (R214, R360, R381, R385, R387, R402, R419, R423). -/
def readRegister (s : State) (die number : Nat) : Word :=
  let d := dieAt s die
  match number with
  | 0x180 => s.tgid
  | 0x184 => s.psb.truncate 32
  | 0x185 => (s.psb >>> 32).truncate 32
  | 0x188 => s.wdt
  | 0x189 => s.mirk
  | 0x190 => BitVec.ofNat 32 (d.preqCore + 512 * bit d.preqBusy)
  | 0x1A0 => BitVec.ofNat 32 (d.scrNext.getD d.scr + 256 * bit d.busy)
  | 0x181 => BitVec.ofNat 32 (256 * awMax d 0 + awWin d 0)
  | 0x182 => BitVec.ofNat 32 (256 * awMax d 1 + awWin d 1)
  | n =>
    if 0x1A8 ≤ n && n ≤ 0x1AA then tget 0 s.chkey (n - 0x1A8)
    else if 0x1C0 ≤ n && n ≤ 0x1C7 then Config.identity (n - 0x1C0)
    else match tcRegister n with
      | some (k, r) =>
        let t := tcAt s (10 * die + k)
        (match r with
         | 0 => t.drt
         | 1 => BitVec.ofNat 32 (t.feff * 2 ^ 16 + t.cap)
         | 2 => BitVec.ofNat 32 t.ebud
         | 3 => BitVec.ofNat 32 t.ibud
         | _ => t.nocb)
      | none => 0

end Sys2Proof.Machine
end

