-- ==== Sys2Proof/Machine/Checks.lean ====
section
/-! DEFINITION. The shape of every word: its operands, pipe, U form and static conditions (R34 to R55, and the encodings of each family). -/

namespace Sys2Proof.Machine

/-- A shape without operands. -/
def Shape.base (pipe : Pipe) (c : Bool) (lit : Option (BitVec 26)) : Shape :=
  { c := c, lit := lit, lits := false, pipe := pipe, u := false, uForm := false, n := false, srcs := [], dsts := [], look := [],
    nowait := false, sr := [], sw := [], pr := [], pw := [], ok := true, term := false, wide := false }

/-- A source field of an A-format word: code 126 names the literal where U = 0 (R16, R37). -/
def srcA (u : Bool) (code : BitVec 7) (n : Nat) : Src := ⟨code.toNat, n, !u, false⟩

/-- An A-format word with sources of na and nb registers and a destination of nd; rd says that d is read too (R46). -/
def shA (pipe : Pipe) (na nb nd : Nat) (rd wide : Bool) (o : OpA) : Shape :=
  { Shape.base pipe o.c o.lit with
    u := o.u, uForm := true, n := o.n, dsts := [(o.d.toNat, nd)], wide := wide
    srcs := [srcA o.u o.a na, srcA o.u o.b nb] ++ (if rd then [⟨o.d.toNat, nd, false, false⟩] else []) }
/-- A unary A-format word. -/
def shU (pipe : Pipe) (o : OpU) : Shape :=
  { Shape.base pipe o.c o.lit with u := o.u, uForm := true, n := o.n, dsts := [(o.d.toNat, 1)], srcs := [srcA o.u o.a 1] }
/-- An A-format word without a U form; extra names latches that the minor reads (R151). -/
def shF (pipe : Pipe) (na nb : Nat) (rd wide : Bool) (extra : List Nat) (o : OpF) : Shape :=
  { Shape.base pipe o.c o.lit with
    n := o.n, dsts := [(o.d.toNat, 1)], wide := wide
    srcs := [srcA false o.a na, srcA false o.b nb] ++ (if rd then [⟨o.d.toNat, 1, false, false⟩] else []) ++
      extra.map fun x => ⟨x, 1, false, false⟩ }
/-- lea: the shift is in the minor (R119). -/
def shLea (n : Nat) (o : OpLea) : Shape :=
  { Shape.base .i o.c o.lit with u := o.u, uForm := true, n := o.n, dsts := [(o.d.toNat, n)], srcs := [srcA o.u o.a n, srcA o.u o.b 1] }
def shI (o : OpI) : Shape :=
  { Shape.base .i o.c o.lit with u := o.u, uForm := true, dsts := [(o.d.toNat, 1)], srcs := [srcA o.u o.a 1] }
def shCmp (pipe : Pipe) (n : Nat) (ok : Bool) (o : OpCmp) : Shape :=
  { Shape.base pipe o.c o.lit with srcs := [srcA false o.a n, srcA false o.b n], pw := [o.p.toNat], ok := ok }
def shPl (o : OpPl) : Shape := { Shape.base .i o.c o.lit with pr := [o.q.toNat, o.r.toNat], pw := [o.p.toNat] }
def shSel (o : OpSel) : Shape :=
  { Shape.base .i o.c o.lit with n := o.n, dsts := [(o.d.toNat, 1)], srcs := [srcA false o.a 1, srcA false o.b 1], pr := [o.k.toNat] }
def shRnd (o : OpRnd) : Shape :=
  { Shape.base .f o.c o.lit with u := o.u, uForm := true, n := o.n, dsts := [(o.d.toNat, 1)], srcs := [srcA o.u o.a 1] }

/-- Whether a conversion code is exact (R48). -/
def cvtExact (b : Nat) : Bool := b ≤ 1 || (decide (12 ≤ b) && decide (b ≤ 16)) || b == 22
/-- cvt: an exact conversion has minor 0; codes end at 0x17; 0x0A reads a pair and 0x0B writes one (R48). -/
def shCvt (o : OpCvt) : Shape :=
  { Shape.base .f o.c o.lit with
    u := o.u, uForm := true, n := o.n, dsts := [(o.d.toNat, if o.b = 11 then 2 else 1)], srcs := [srcA o.u o.a (if o.b = 10 then 2 else 1)]
    ok := decide (o.b.toNat ≤ 0x17) && (!cvtExact o.b.toNat || (!o.s && o.r == 0)) }
def shPm (o : OpPm) : Shape :=
  { Shape.base .i o.c o.lit with u := o.u, uForm := true, n := o.n, dsts := [(o.d.toNat, 1)], pr := [o.q.toNat], wide := true }
def shGf (o : OpGf) : Shape := { Shape.base .i o.c o.lit with n := o.n, dsts := [(o.d.toNat, 1)], wide := true }
def shGr (pipe : Pipe) (o : OpGr) : Shape :=
  { Shape.base pipe o.c o.lit with
    u := o.u, uForm := true, n := o.n, dsts := [(o.d.toNat, 1)], srcs := [srcA o.u o.a 1], pr := [o.q.toNat], wide := true }
/-- A branch: p = 0b1000 is never taken and illegal (R35). -/
def shBr (o : OpBr) : Shape := { Shape.base .s o.c o.lit with pr := [o.p.toNat % 8], ok := o.p != 8, term := true }

/-- The registers that dead marks (R42). -/
def deadRegs (o : OpDead) : List Nat := ((List.range 16).filter fun i => o.m.getLsbD i).map fun i => 16 * o.k.toNat + i

/-- Scope of a system register that a launch names: 1 thread, 2 group, 3 beyond its privilege; 0 names none (R127, R373). -/
def sysScope (n : Nat) : Nat :=
  if (decide (1 ≤ n) && decide (n ≤ 6)) then 2
  else if (decide (8 ≤ n) && decide (n ≤ 11)) then 1
  else if (decide (0x10 ≤ n) && decide (n ≤ 0x12)) then 2
  else if (decide (0x18 ≤ n) && decide (n ≤ 0x1E)) then 2
  else if n = 0x40 then 2
  else if (decide (0x41 ≤ n) && decide (n ≤ 0x49)) then 1
  else if 0x100 ≤ n then 3
  else 0
/-- Whether a launch may write a register: those with an RW field (R126). -/
def sysRw (n : Nat) : Bool := n == 8 || n == 0x10 || n == 0x43
/-- The forms of sysr (R126); a register beyond the launch's privilege takes PRIV instead. -/
def sysrOk (u : Bool) (n : Nat) : Bool := match sysScope n with
  | 0 => false
  | 1 => !u
  | _ => true
/-- Whether a register of system software has no RW field: the identity digest (R126, R423). -/
def sysReadOnly (n : Nat) : Bool := decide (0x1C0 ≤ n) && decide (n ≤ 0x1C7)
/-- The forms of sysw (R126). -/
def syswOk (u : Bool) (n : Nat) : Bool := match sysScope n with
  | 0 => false
  | 1 => !u && sysRw n
  | 2 => u && sysRw n
  | _ => !sysReadOnly n

/-- The base of a memory word: a pair for space g, in which code 124 reads zero, and one register otherwise (R231). -/
def baseSrc (sp : BitVec 2) (a : BitVec 7) : Src := if sp = 0 then ⟨a.toNat, 2, false, true⟩ else ⟨a.toNat, 1, false, false⟩
def shLd (u : Bool) (o : OpLd) : Shape :=
  { Shape.base .m o.c o.lit with
    u := u, uForm := true, lits := true, srcs := [baseSrc o.s o.a], dsts := [(o.d.toNat, tyRegs o.t.toNat)], ok := o.a != 126 && o.t != 7 }
/-- A store's data source: 1, 2 or 4 registers (R243). -/
def shSt (u : Bool) (o : OpSt) : Shape :=
  { Shape.base .m o.c o.lit with
    u := u, uForm := true, lits := true, srcs := [baseSrc o.s o.a, ⟨o.d.toNat, tyRegs o.t.toNat, false, false⟩]
    ok := o.a != 126 && o.t != 1 && o.t != 3 && o.t != 7 }
/-- The operand of an atomic: for cas it holds compare and new value (R247). -/
def atomSrc (op : BitVec 5) (t : BitVec 3) (x : BitVec 7) : Src := ⟨x.toNat, if op = 9 then 2 * tyRegs t.toNat else tyRegs t.toNat, false, false⟩
def atomOk (op : BitVec 5) (t : BitVec 3) : Bool := (t == 4 || t == 5) && decide (op.toNat ≤ 12) && (op != 10 || t == 4)
/-- Registers of a readout conversion (R319). -/
def ardRegs : Nat → Nat
  | 0 => 8
  | 1 => 4
  | 2 => 4
  | _ => 2

/-- The shape of a word, or none for an event row. -/
def shapeOf : Instr → Option Shape
  | .iaddI32 o => some (shA .i 1 1 1 false false o)
  | .isubI32 o => some (shA .i 1 1 1 false false o)
  | .imulI32 o => some (shA .i 1 1 1 false false o)
  | .imulhI32 o => some (shA .i 1 1 1 false false o)
  | .imulhN32 o => some (shA .i 1 1 1 false false o)
  | .iabsdI32 o => some (shA .i 1 1 1 false false o)
  | .iaddsI32 o => some (shA .i 1 1 1 false false o)
  | .isubsI32 o => some (shA .i 1 1 1 false false o)
  | .iminI32 o => some (shA .i 1 1 1 false false o)
  | .iminN32 o => some (shA .i 1 1 1 false false o)
  | .imaxI32 o => some (shA .i 1 1 1 false false o)
  | .imaxN32 o => some (shA .i 1 1 1 false false o)
  | .iabsI32 o => some (shU .i o)
  | .inegI32 o => some (shU .i o)
  | .iaddsN32 o => some (shA .i 1 1 1 false false o)
  | .isubsN32 o => some (shA .i 1 1 1 false false o)
  | .andB32 o => some (shA .i 1 1 1 false false o)
  | .orB32 o => some (shA .i 1 1 1 false false o)
  | .xorB32 o => some (shA .i 1 1 1 false false o)
  | .andnB32 o => some (shA .i 1 1 1 false false o)
  | .ornB32 o => some (shA .i 1 1 1 false false o)
  | .xnorB32 o => some (shA .i 1 1 1 false false o)
  | .notB32 o => some (shU .i o)
  | .movB32 o => some (shU .i o)
  | .shlB32 o => some (shA .i 1 1 1 false false o)
  | .shrN32 o => some (shA .i 1 1 1 false false o)
  | .shrI32 o => some (shA .i 1 1 1 false false o)
  | .rolB32 o => some (shA .i 1 1 1 false false o)
  | .popcB32 o => some (shU .i o)
  | .clzB32 o => some (shU .i o)
  | .brevB32 o => some (shU .i o)
  | .ffsB32 o => some (shU .i o)
  | .iaddI64 o => some (shA .i 2 2 2 false false o)
  | .isubI64 o => some (shA .i 2 2 2 false false o)
  | .imulI64 o => some (shA .i 2 2 2 false false o)
  | .shlB64 o => some (shA .i 2 1 2 false false o)
  | .shrN64 o => some (shA .i 2 1 2 false false o)
  | .shrI64 o => some (shA .i 2 1 2 false false o)
  | .imulwI32 o => some (shA .i 1 1 2 false false o)
  | .imulwN32 o => some (shA .i 1 1 2 false false o)
  | .bfeN32 o => some (shA .i 1 1 1 false false o)
  | .bfeI32 o => some (shA .i 1 1 1 false false o)
  | .bfiB32 o => some (shA .i 1 1 1 true false o)
  | .bswapB32 o => some (shU .i o)
  | .extI8 o => some (shU .i o)
  | .extI16 o => some (shU .i o)
  | .imadI32 o => some (shA .i 1 1 1 true false o)
  | .packB16 o => some (shA .i 1 1 1 false false o)
  | .leaB32 o => some (shLea 1 o)
  | .leaI64 o => some (shLea 2 o)
  | .iaddiI32 o => some (shI o)
  | .icmpI32 o => some (shCmp .i 1 true o)
  | .icmpN32 o => some (shCmp .i 1 true o)
  | .icmpI64 o => some (shCmp .i 2 true o)
  | .icmpN64 o => some (shCmp .i 2 true o)
  | .fcmpF32 o => some (shCmp .f 1 true o)
  | .fcmpBf16 o => some (shCmp .f 1 true o)
  | .fcmpF16 o => some (shCmp .f 1 true o)
  | .pand o => some (shPl o)
  | .por o => some (shPl o)
  | .pxor o => some (shPl o)
  | .selB32 o => some (shSel o)
  | .faddF32 o => some (shA .f 1 1 1 false false o)
  | .fsubF32 o => some (shA .f 1 1 1 false false o)
  | .fmulF32 o => some (shA .f 1 1 1 false false o)
  | .fminF32 o => some (shA .f 1 1 1 false false o)
  | .fmaxF32 o => some (shA .f 1 1 1 false false o)
  | .fabsF32 o => some (shU .f o)
  | .fnegF32 o => some (shU .f o)
  | .fcpysgnF32 o => some (shA .f 1 1 1 false false o)
  | .ffmaF32Cd o => some (shA .f 1 1 1 true false o)
  | .ffmaF32Cb0 o => some (shF .f 1 1 false false [96] o)
  | .ffmaF32Cb1 o => some (shF .f 1 1 false false [97] o)
  | .ffmaF32Cb2 o => some (shF .f 1 1 false false [98] o)
  | .ffmaF32Cb3 o => some (shF .f 1 1 false false [99] o)
  | .ffmaX2bf16Cd o => some (shA .f 1 1 1 true false o)
  | .ffmaX2f16Cd o => some (shA .f 1 1 1 true false o)
  | .faddX2bf16 o => some (shA .f 1 1 1 false false o)
  | .fmulX2bf16 o => some (shA .f 1 1 1 false false o)
  | .faddX2f16 o => some (shA .f 1 1 1 false false o)
  | .fmulX2f16 o => some (shA .f 1 1 1 false false o)
  | .fminX2bf16 o => some (shA .f 1 1 1 false false o)
  | .fmaxX2bf16 o => some (shA .f 1 1 1 false false o)
  | .fminX2f16 o => some (shA .f 1 1 1 false false o)
  | .fmaxX2f16 o => some (shA .f 1 1 1 false false o)
  | .frcpF32 o => some (shU .f o)
  | .frsqF32 o => some (shU .f o)
  | .fsqrtF32 o => some (shU .f o)
  | .fexp2F32 o => some (shU .f o)
  | .flog2F32 o => some (shU .f o)
  | .fsinF32 o => some (shU .f o)
  | .fcosF32 o => some (shU .f o)
  | .ftanhF32 o => some (shU .f o)
  | .frndF32 o => some (shRnd o)
  | .ffractF32 o => some (shU .f o)
  | .fclassF32 o => some (shU .f o)
  | .fsatF32 o => some (shU .f o)
  | .fexpoF32 o => some (shU .f o)
  | .cvt o => some (shCvt o)
  | .cvtpX2bf16F32 o => some (shF .f 1 1 false false [] o)
  | .cvtpX2f16F32 o => some (shF .f 1 1 false false [] o)
  | .cvtpX4e4m3F32 o => some (shF .f 2 2 false false [] o)
  | .cvtpX4e5m2F32 o => some (shF .f 2 2 false false [] o)
  | .cvtpX8e2m1X4e4m3 o => some (shF .f 1 1 false false [] o)
  | .mxqE4m3 o => some (shF .f 1 1 false false [] o)
  | .mxqE5m2 o => some (shF .f 1 1 false false [] o)
  | .mxqE2m1 o => some (shF .f 1 1 false false [] o)
  | .dp4X4i8 o => some (shF .f 1 1 true false [] o)
  | .dp4X4e4m3 o => some (shF .f 1 1 true false [] o)
  | .dp4X4e5m2 o => some (shF .f 1 1 true false [] o)
  | .dp8X8i4 o => some (shF .f 1 1 true false [] o)
  | .dp8X8e2m1 o => some (shF .f 1 1 true false [] o)
  | .dp2X2bf16 o => some (shF .f 1 1 true false [] o)
  | .dp2X2f16 o => some (shF .f 1 1 true false [] o)
  | .fscaleF32 o => some (shF .f 1 1 false false [] o)
  | .xget o => some (shF .i 1 1 false true [] o)
  | .xlow o => some (shF .i 1 1 false true [] o)
  | .xhigh o => some (shF .i 1 1 false true [] o)
  | .xflip o => some (shF .i 1 1 false true [] o)
  | .gbcast o => some (shA .i 1 1 1 false true o)
  | .pmask o => some (shPm o)
  | .eqset o => some (shF .i 1 1 false true [] o)
  | .gfirst o => some (shGf o)
  | .gredAddI32 o => some (shGr .i o)
  | .gredMinI32 o => some (shGr .i o)
  | .gredMaxI32 o => some (shGr .i o)
  | .gredAndB32 o => some (shGr .i o)
  | .gredOrB32 o => some (shGr .i o)
  | .gredAddF32 o => some (shGr .f o)
  | .gscanAddI32 o => some (shGr .i o)
  | .gscanAddF32 o => some (shGr .f o)
  | .br o => some (shBr o)
  | .call o => some (shBr o)
  | .nop o => some ({ Shape.base .none o.c o.lit with nowait := true })
  | .exit o => some ({ Shape.base .s o.c o.lit with term := true })
  | .ret o => some ({ Shape.base .s o.c o.lit with term := true })
  | .brx o => some ({ Shape.base .s o.c o.lit with srcs := [⟨o.x.toNat, 1, true, false⟩], term := true })
  | .callx o => some ({ Shape.base .s o.c o.lit with srcs := [⟨o.x.toNat, 1, true, false⟩], term := true })
  | .lpush o => some ({ Shape.base .s o.c o.lit with srcs := [⟨o.x.toNat, 1, true, false⟩], term := true })
  | .lbrk o => some (Shape.base .s o.c o.lit)
  | .trapW o => some ({ Shape.base .s o.c o.lit with term := true })
  | .bkpt o => some ({ Shape.base .s o.c o.lit with term := true })
  | .rti o => some ({ Shape.base .s o.c o.lit with term := true })
  | .gmark o => some (Shape.base .s o.c o.lit)
  | .gtest o => some ({ Shape.base .s o.c o.lit with u := o.u, uForm := true, look := [⟨o.x.toNat, 1, false, false⟩], nowait := true, pw := [o.p.toNat] })
  | .gaccept o => some ({ Shape.base .s o.c o.lit with u := o.u, uForm := true, look := [⟨o.x.toNat, 1, false, false⟩], ok := o.u || decide (o.x.toNat ≤ 95) })
  | .gdemand o => some ({ Shape.base .s o.c o.lit with u := o.u, uForm := true, look := [⟨o.x.toNat, 1, false, false⟩], ok := o.u || decide (o.x.toNat ≤ 95) })
  | .dead o => some ({ Shape.base .s o.c o.lit with dsts := (deadRegs o).map fun d => (d, 1), ok := decide (o.k.toNat ≤ 5) })
  | .jmark o => some ({ Shape.base .s o.c o.lit with wide := true })
  | .jwait o => some ({ Shape.base .s o.c o.lit with wide := true })
  | .jclr o => some ({ Shape.base .s o.c o.lit with wide := true })
  | .vany o => some ({ Shape.base .s o.c o.lit with pr := [o.s.toNat % 8], pw := [o.p.toNat], wide := true })
  | .vall o => some ({ Shape.base .s o.c o.lit with pr := [o.s.toNat % 8], pw := [o.p.toNat], wide := true })
  | .vsame o => some ({ Shape.base .s o.c o.lit with pr := [o.s.toNat % 8], pw := [o.p.toNat], wide := true })
  | .barTm o => some (Shape.base .s o.c o.lit)
  | .barCl o => some (Shape.base .s o.c o.lit)
  | .barGd o => some (Shape.base .s o.c o.lit)
  | .bararrTm o => some (Shape.base .s o.c o.lit)
  | .bararrCl o => some (Shape.base .s o.c o.lit)
  | .barwtTm o => some (Shape.base .s o.c o.lit)
  | .barwtCl o => some (Shape.base .s o.c o.lit)
  | .smovRd o => some ({ Shape.base .s o.c o.lit with u := o.u, uForm := true, dsts := [(o.x.toNat, 1)], sr := [o.i.toNat] })
  | .smovWr o => some ({ Shape.base .s o.c o.lit with u := true, uForm := true, srcs := [⟨o.x.toNat, 1, true, false⟩], sw := [o.i.toNat] })
  | .smovV o => some ({ Shape.base .s o.c o.lit with srcs := [⟨o.x.toNat, 1, false, false⟩], sw := [o.i.toNat], wide := true })
  | .sysr o => some ({ Shape.base .s o.c o.lit with u := o.u, uForm := true, dsts := [(o.x.toNat, 1)], ok := sysrOk o.u o.n.toNat })
  | .sysw o => some ({ Shape.base .s o.c o.lit with u := o.u, uForm := true, srcs := [⟨o.x.toNat, 1, true, false⟩], ok := syswOk o.u o.n.toNat })
  | .tsr o => some ({ Shape.base .s o.c o.lit with u := o.u, uForm := true, dsts := [(o.x.toNat, 2)] })
  | .cyc o => some ({ Shape.base .s o.c o.lit with u := o.u, uForm := true, dsts := [(o.x.toNat, 2)] })
  | .fflg o => some ({ Shape.base .s o.c o.lit with dsts := [(o.x.toNat, 1)] })
  | .fclr o => some (Shape.base .s o.c o.lit)
  | .slp o => some ({ Shape.base .s o.c o.lit with srcs := [⟨o.x.toNat, 1, true, false⟩] })
  | .idr o => some ({ Shape.base .s o.c o.lit with u := o.u, uForm := true, dsts := [(o.x.toNat, 1)], ok := !o.u || !(decide (3 ≤ o.s.toNat) && decide (o.s.toNat ≤ 5)) })
  | .fence o => some ({ Shape.base .m o.c o.lit with ok := o.k != 3 && decide (o.s.toNat ≤ 8) })
  | .vspill o => some ({ Shape.base .m o.c o.lit with look := [⟨o.x.toNat, 1, false, false⟩], ok := decide (o.x.toNat ≤ 95) && decide (o.k.toNat < 48), wide := true })
  | .vfill o => some ({ Shape.base .m o.c o.lit with dsts := [(o.x.toNat, 1)], ok := decide (o.k.toNat < 48), wide := true })
  | .vgrow o => some ({ Shape.base .m o.c o.lit with ok := decide (o.w.toNat ≤ 4), wide := true })
  | .vshrink o => some ({ Shape.base .m o.c o.lit with ok := decide (o.w.toNat ≤ 4), wide := true })
  | .load o => some (shLd false o)
  | .uniformLoad o => some (shLd true o)
  | .prefetch o => some ({ Shape.base .m o.c o.lit with lits := true, srcs := [baseSrc o.s o.a], ok := o.a != 126 && o.t != 7 })
  | .store o => some (shSt false o)
  | .uniformStore o => some (shSt true o)
  | .atomic o => some ({ Shape.base .m o.c none with srcs := [baseSrc o.s o.a, atomSrc o.o o.t o.x], dsts := [(o.d.toNat, tyRegs o.t.toNat)], ok := o.a != 126 && atomOk o.o o.t })
  | .reduction o => some ({ Shape.base .m o.c none with srcs := [baseSrc o.s o.a, atomSrc o.o o.t o.x], ok := o.a != 126 && atomOk o.o o.t && o.o != 9 })
  | .mma o => some ({ Shape.base .m o.c o.lit with look := [⟨o.a.toNat, 8, false, false⟩, ⟨o.b.toNat, 16, false, false⟩], nowait := true, ok := decide (o.a.toNat ≤ 88) && decide (o.b.toNat ≤ 80), wide := true })
  | .mmaMx o => some ({ Shape.base .m o.c none with look := [⟨o.a.toNat, 8, false, false⟩, ⟨o.b.toNat, 16, false, false⟩, ⟨o.x.toNat, 1, false, false⟩, ⟨o.y.toNat, 1, false, false⟩], nowait := true, ok := decide (o.a.toNat ≤ 88) && decide (o.b.toNat ≤ 80) && decide (o.x.toNat ≤ 123) && decide (o.y.toNat ≤ 123), wide := true })
  | .mmsrBf16 o => some ({ Shape.base .m o.c o.lit with look := [⟨o.a.toNat, 8, false, false⟩, ⟨o.b.toNat, 16, false, false⟩], nowait := true, ok := decide (o.a.toNat ≤ 88) && decide (o.b.toNat ≤ 80) && o.s != 3, wide := true })
  | .flkrd o => some ({ Shape.base .m o.c o.lit with u := o.u, uForm := true, dsts := [(o.d.toNat, 1)] })
  | .fidrd o => some ({ Shape.base .m o.c o.lit with u := o.u, uForm := true, dsts := [(o.d.toNat, 1)], ok := decide (o.k.toNat ≤ 5) })
  | .ard o => some ({ Shape.base .m o.c o.lit with dsts := [(o.d.toNat, ardRegs o.v.toNat)] })
  | .ast o => some ({ Shape.base .m o.c o.lit with lits := true, srcs := [baseSrc o.s o.a], ok := o.a != 126 })
  | .azero o => some ({ Shape.base .m o.c o.lit with wide := true })
  | .arel o => some ({ Shape.base .m o.c o.lit with wide := true })
  | .xkick o => some ({ Shape.base .m o.c o.lit with u := o.u, uForm := true, srcs := [⟨o.x.toNat, 1, true, false⟩] })
  | .owait o => some (Shape.base .m o.c o.lit)
  | .bobjInit o => some ({ Shape.base .m o.c o.lit with u := o.u, uForm := true, srcs := [⟨o.x.toNat, 1, true, false⟩, ⟨o.y.toNat, 1, true, false⟩, ⟨o.z.toNat, 1, true, false⟩] })
  | .bobjArrive o => some ({ Shape.base .m o.c o.lit with u := o.u, uForm := true, srcs := [⟨o.x.toNat, 1, true, false⟩], dsts := [(o.d.toNat, 1)] })
  | .bobjWait o => some ({ Shape.base .m o.c o.lit with srcs := [⟨o.x.toNat, 1, false, false⟩, ⟨o.y.toNat, 1, false, false⟩] })
  | .mcfree o => some ({ Shape.base .m o.c o.lit with srcs := [⟨o.x.toNat, 1, true, false⟩] })
  | .tqpush o => some ({ Shape.base .m o.c o.lit with u := o.u, uForm := true, srcs := [⟨o.x.toNat, 2, false, false⟩, ⟨o.y.toNat, 1, true, false⟩], pw := [o.p.toNat] })
  | .tqtokRel o => some ({ Shape.base .m o.c o.lit with u := o.u, uForm := true, srcs := [⟨o.x.toNat, 2, false, false⟩] })
  | .tqtokAcq o => some ({ Shape.base .m o.c o.lit with u := o.u, uForm := true, srcs := [⟨o.x.toNat, 2, false, false⟩], pw := [o.p.toNat] })
  | .cbset o => some ({ Shape.base .m o.c o.lit with u := o.u, uForm := true })
  | .cbwait o => some ({ Shape.base .m o.c o.lit with srcs := [⟨o.x.toNat, 2, false, false⟩, ⟨o.y.toNat, 1, false, false⟩] })
  | .loadDeadline _ _ => none
  | .loadDataArrival _ _ => none
  | .certainty _ _ => none
  | .waitingStepIssue _ _ => none
  | .selectorChoice _ _ => none
  | .blockPriorityRead _ _ _ => none
  | .entryPromotion _ _ _ => none
  | .groupDemotion _ _ => none
  | .liveBitClear _ _ _ => none
  | .groupSwapOut _ => none
  | .swapOutComplete _ _ => none
  | .groupSwapIn _ _ => none
  | .compaction _ => none
  | .compactionComplete _ => none
  | .controlInterval _ => none
  | .schedulerDecision _ => none
  | .argumentRead _ _ _ => none
  | .barrierRelease _ _ => none
  | .writePerformed _ _ => none
  | .atomicResult _ _ => none
  | .flushMarkerArrival _ _ _ _ => none
  | .flushReportArrival _ _ _ => none
  | .translationWalk _ _ _ => none
  | .dsplitWrite _ _ => none
  | .dsplitApply _ => none
  | .dsplitBusyClear _ => none
  | .stackLowPowerEntry _ => none
  | .stackWake _ => none
  | .matrixWordTake _ _ => none
  | .matrixUpdateComplete _ => none
  | .tileEviction _ => none
  | .tileReturn _ _ => none
  | .railLoopWindow _ => none
  | .copyStart _ _ => none
  | .copyBurst _ _ _ _ => none
  | .copyRetire _ _ => none
  | .tqpushTimeout _ _ => none
  | .cbwaitPoll _ _ => none
  | .sleepExpiry _ _ => none
  | .queueEntryTake _ => none
  | .hostQueueDoorbell _ _ _ => none
  | .stealRequest _ _ => none
  | .stealRetry _ => none
  | .droopAlarm _ => none
  | .stretchEnd _ => none
  | .halvedIssueEnd _ => none
  | .thermalTrip _ _ => none
  | .collectiveCapRequest _ _ => none
  | .throttleMemberSilence _ => none
  | .rampFill _ _ => none
  | .activationWindowAdjust _ _ => none
  | .refreshDerate _ _ => none
  | .registerWrite _ _ _ => none
  | .preqGo _ _ => none
  | .exchangeFillComplete _ => none
  | .exchangeSwap _ => none
  | .exchangeSpillComplete _ => none
  | .trapEntry _ _ => none
  | .watchdog _ _ => none
  | .mirrorCompare _ _ _ => none
  | .mirrorWindowTimeout _ _ _ => none
  | .uncorrectableError _ => none
  | .bridgeStop _ => none
  | .linkNarrow _ => none
  | .linkWiden _ => none
  | .linkRecovery _ => none
  | .linkDown _ => none
  | .linkRecovered _ _ => none
  | .peerRecoveringReport _ => none
  | .peerRequest _ => none
  | .routerGate _ _ => none
  | .routerWakeSignal _ _ => none
  | .routerAwake _ _ => none
  | .escapeDiversion _ => none
  | .packetRoute _ _ => none
  | .cmdNop _ => none
  | .regwr _ => none
  | .regrd _ => none
  | .memwr _ => none
  | .memrd _ => none
  | .qcfg _ => none
  | .keyld _ => none
  | .keyclr _ => none
  | .tinv _ => none
  | .feat _ => none
  | .peercfg _ => none
  | .coll _ => none
  | .collectiveComplete _ _ _ => none
  | .fans _ => none
  | .endl _ => none
  | .reset _ _ => none
  | .ctailDoorbell _ _ => none
  | .eackWrite _ _ => none
  | .channelRingConfigWrite _ _ => none
  | .bar2Access _ _ _ _ => none
  | .msixInterrupt => none
  | .channelDatagram _ => none
  | .entryResend _ _ => none
  | .deviceStart _ => none
  | .tokenBucketRefill _ => none

/-- The shape of a word. -/
def shape (i : Instr) : Shape := (shapeOf i).getD (Shape.base .none false none)

/-- The words of the scalar profile, by major and sub, and in majors 26 to 28 by space and wait class (R421). -/
def scalarWord (w : Nat) : Bool :=
  let m := slice w 30 26
  let sub := slice w 24 18
  if m ≤ 10 || m == 21 || m == 22 then true
  else if m = 23 then !([10, 11, 12, 13, 16, 17, 18, 19, 20, 21].contains sub)
  else if m = 25 then !([8, 9, 17, 18, 19, 20].contains sub)
  else if m = 26 then slice w 0 0 == 0 && slice w 5 4 == 0 && slice w 10 8 == 0
  else (m == 27 || m == 28) && slice w 5 4 == 0
/-- Whether a system register that a word names exists on a control core (R126, R421). -/
def namesRegister (i : Instr) : Bool :=
  let known := fun (n : Nat) => sysScope n != 3 || deviceRegister n || dieRegister n
  match i with
  | .sysr o => known o.n.toNat
  | .sysw o => known o.n.toNat
  | _ => true
/-- Whether a word is one that a control core runs: a word of the scalar profile with U = 0 and no operand code from 96 to 123, and no register that does not exist (R421). -/
def inProfile (i : Instr) : Bool :=
  let sh := shape i
  scalarWord (lget 0 (encode i) 0) && namesRegister i && !sh.u && (sh.srcs ++ sh.look).all fun x => decide (x.code + x.n ≤ 96) || decide (124 ≤ x.code)
/-- The shape of a word on a core: on a control core, one outside its profile is illegal. -/
def shapeOn (k : Nat) (i : Instr) : Shape := if isControl k && !inProfile i then { shape i with ok := false } else shape i

end Sys2Proof.Machine
end

