-- ==== Sys2Proof/Machine/Engine.lean ====
section
/-! DEFINITION. What words hand to the engines and the device: matrix words, copy requests, barrier objects, group ids, queue entries, bitmaps and register windows. -/

namespace Sys2Proof.Machine

/-- An operation counted by a group's class (R267). -/
def countOp (c : Core) (u cls num : Nat) : Core := modOwner c u fun g => { g with ops := g.ops ++ [⟨cls, num, false⟩] }

/-- A matrix-engine word for the threads that complete its step (R281). -/
def MOp.within (x : MOp) (m : Word) : MOp :=
  match x with
  | .update sr fmt mx rows a b xa xb rg => .update sr fmt mx (rows &&& m) a b xa xb (rg &&& m)
  | .ard cv g rows dsts => .ard cv g (rows &&& m) dsts
  | .ast cv g ts => .ast cv g (ts.filter fun t => hasBit m t.1)
  | x => x

/-- How many operations a matrix-engine word counts: one for an update, one for each thread of an ast (R313). -/
def MOp.counts : MOp → Nat
  | .update _ _ _ _ _ _ _ _ _ => 1
  | .ast _ _ ts => ts.length
  | _ => 0

/-- A matrix-engine word of the threads in a mask put on its selector's queue, numbered and counted where it counts (R285, R313). -/
def startMatrix (s : State) (k sel : Nat) (m : MWord) (mask : Word) : State :=
  modCore s k fun c =>
    let n := c.next
    let x := m.what.within mask
    let ops := (List.range x.counts).map fun j => n + j
    let w := { m with what := x, ops := ops }
    let c1 := { c with next := n + ops.length }
    let c2 := ops.foldl (fun a o => countOp a m.own 2 o) c1
    if sel = 0 then { c2 with ctx := { c2.ctx with mq0 := c2.ctx.mq0 ++ [w] } }
    else { c2 with ctx := { c2.ctx with mq1 := c2.ctx.mq1 ++ [w] } }

/-- The words queued on a selector. -/
def matrixQueue (c : Core) (sel : Nat) : List MWord := if sel = 0 then c.ctx.mq0 else c.ctx.mq1

/-- Byte fields of a copy request record (R302), as a number of its 31 bytes. -/
def recKind (v : Nat) : Nat := slice v 2 0
def recSrcSp (v : Nat) : Nat := slice v 9 8
def recDstSp (v : Nat) : Nat := slice v 11 10
def recBobj (v : Nat) : Nat := slice v 31 16
def recLen (v : Nat) : Nat := slice v 63 32
def recSrc (v : Nat) : Nat := slice v 127 64
def recDst (v : Nat) : Nat := slice v 191 128
def recAux (v : Nat) : Nat := slice v 223 192
def recEsz (v : Nat) : Nat := slice v 226 224
def recGidOn (v : Nat) : Bool := v / 2 ^ 239 % 2 == 1
def recGid (v : Nat) : Nat := slice v 237 232

/-- What a request binds a group id to: its kind, and its rank mask or destination space (R308). -/
def recBinding (v : Nat) : Nat × Nat := (recKind v, if recKind v = 3 then recAux v else recDstSp v)

/-- The group id of a cluster. -/
def gidOf (s : State) (cl id : Nat) : Option Gid := match tfind s.clusters cl with
  | some x => tfind x.gids id
  | none => none
def modGid (s : State) (cl id : Nat) (f : Option Gid → Option Gid) : State :=
  { s with clusters := tmod s.clusters cl fun x => match f (tfind x.gids id) with
      | some g => { x with gids := tput x.gids id g }
      | none => { x with gids := tdel x.gids id } }

/-- A copy request handed to the core's engine: it counts under CP, waits for the earlier accesses of the threads in whose program order it lies, so that its reads come after their writes (R305) and its writes, which an owait puts in their program order, after their reads (R262, R264, R269), and opens its group id (R308, R326). -/
def startCopy (s : State) (k : Nat) (po : Word) (x : Copy) : State :=
  let c := coreAt s k
  let n := c.next
  let ws := (c.writes.filter fun w => !w.engine && samePo x.own po w.own w.po).map (·.num)
  let as := (c.loads.filter fun l => samePo x.own po l.own l.po).map (·.num)
  let s1 := setCore s k (countOp { c with next := n + 1, copies := c.copies ++ [{ x with num := n, op := n, after := ws ++ as }] } x.own 1 n)
  if !recGidOn x.bytes then s1
  else match teamAt s1 x.team with
    | none => s1
    | some t =>
      let b := recBinding x.bytes
      let rid := k * 2 ^ 40 + n
      modGid s1 t.cluster (recGid x.bytes) fun
        | some g => some { g with reqs := g.reqs ++ [rid] }
        | none => some ⟨x.team, b.1, b.2, false, [rid], []⟩

/-- Fields of a barrier object, as the number of its 16 bytes (R310). -/
def boArrc (v : Nat) : Nat := slice v 15 0
def boArri (v : Nat) : Nat := slice v 31 16
def boBytc (v : Nat) : Nat := slice v 63 32
def boByti (v : Nat) : Nat := slice v 95 64
def boStat (v : Nat) : Nat := slice v 127 96
/-- The bytes of a barrier object from its fields. -/
def boMake (arrc arri bytc byti stat : Nat) : Nat :=
  arrc % 2 ^ 16 + arri % 2 ^ 16 * 2 ^ 16 + bytc % 2 ^ 32 * 2 ^ 32 + byti % 2 ^ 32 * 2 ^ 64 + stat % 2 ^ 32 * 2 ^ 96
/-- PH of an object. -/
def boPh (v : Nat) : Bool := boStat v % 2 == 1
/-- R311: the phase completes where no arrival and no byte is missing. -/
def boSettle (v : Nat) : Nat :=
  if boArrc v = 0 && boBytc v = 0 then
    boMake (boArri v) (boArri v) (boByti v) (boByti v) (if boPh v then boStat v - 1 else boStat v + 1)
  else v

/-- The 16 bytes of a barrier object as a piece. -/
def bobjPiece (loc : Nat) : Piece := { loc := loc, n := 16, die := 0, key := none, kind := 0, mx := 0, sx := false, cw := false, peer := false }

/-- A barrier object updated indivisibly, with the waits that it ends and the demotions (R185, R310, R311). -/
def bobjUpdate (s : State) (own loc : Nat) (f : Nat → Nat) : State :=
  landed { s with mem := memWrite s.mem loc 16 (f (memRead s.mem loc 16)) } own [bobjPiece loc]

/-- bobj.init (R328). An object that has neither an arrival nor a byte to wait for keeps its phase open until an arrival or a byte: R311 and R328 do not say whether the update that initialises it completes a phase (log entry 67). -/
def bobjInit (s : State) (own loc y z : Nat) : State := bobjUpdate s own loc fun _ => boMake y y z z 0

/-- bobj.arrive in one thread, or once for the group: the arrival, and the old PH as its result (R329). -/
def bobjArrive (s : State) (k slot : Nat) (thr : Option Nat) (loc : Nat) (d : Option Nat) : State :=
  match groupAt (coreAt s k) slot with
  | none => s
  | some g =>
    let old := memRead s.mem loc 16
    let ph : Word := BitVec.ofNat 32 (bit (boPh old))
    let s1 := bobjUpdate s g.uid loc fun v =>
      if boArrc v = 0 then boMake 0 (boArri v) (boBytc v) (boByti v) (boStat v ||| 4)
      else boSettle (boMake (boArrc v - 1) (boArri v) (boBytc v) (boByti v) (boStat v))
    match d with
    | none => s1
    | some d => modCore s1 k fun c => writeRegs c g.uid c.next thr [d] false [d] [ph]

/-- The byte count of an object lowered by n, and ERR set where a request has failed (R306, R309). -/
def bobjBytes (s : State) (own loc n : Nat) (err : Bool) : State :=
  bobjUpdate s own loc fun v =>
    let w := boMake (boArrc v) (boArri v) (boBytc v + 2 ^ 32 - n % 2 ^ 32) (boByti v) (if err then boStat v ||| 4 else boStat v)
    if n = 0 then w else boSettle w

/-- The waits for a group id's closing counted down, and the id closed, once every request named with it has retired (R308, R331). -/
def closeGid (s : State) (cl id : Nat) : State :=
  match gidOf s cl id with
  | none => s
  | some g =>
    if g.closing && g.reqs.isEmpty then
      let s1 := modGid s cl id fun _ => none
      g.waiters.foldl (fun a w => endOwner (modCore a w.1 fun c => finishFor c w.2.1 (some w.2.2)) w.1 w.2.1) s1
    else s

/-- mcfree on an id that its checks let pass (R331): one XC operation, finished when the id is closed. -/
def freeGid (s : State) (k slot x : Nat) : State :=
  match groupAt (coreAt s k) slot with
  | none => s
  | some g =>
    let n := (coreAt s k).next
    let s1 := modCore s k fun c => countOp { c with next := n + 1 } g.uid 3 n
    match teamAt s1 g.team with
    | none => s1
    | some t =>
      match gidOf s1 t.cluster x with
      | none => modCore s1 k fun c => finishFor c g.uid (some n)
      | some _ => closeGid (modGid s1 t.cluster x fun o => o.map fun i => { i with closing := true, waiters := i.waiters ++ [(k, g.uid, n)] }) t.cluster x

/-- A queue's number among all: host queues 0 to 15, device queues from 16 (R339). -/
def queueAt (s : State) (q : Nat) : Option Queue := tfind s.queues q
/-- The location of a queue's control block (R339, R340). -/
def Queue.loc (q : Queue) : Nat := if q.host then hostBase + q.base else q.base
/-- The location of a slot (R340). -/
def Queue.slotLoc (q : Queue) (i : Nat) : Nat := q.loc + 64 + 32 * (i % q.cap)
/-- TAIL of a queue: a host queue's comes from its latest doorbell, and a device queue's from its control block (R340). -/
def tailOf (s : State) (n : Nat) (q : Queue) : Nat := if n < 16 then q.tail else memRead s.mem q.loc 4
/-- Entries in a ring: TAIL − HEAD modulo 2^32 (R340). -/
def queueCount (s : State) (n : Nat) (q : Queue) : Nat := (tailOf s n q + 2 ^ 32 - q.head % 2 ^ 32) % 2 ^ 32
/-- Bytes of a ring as a piece of an access: the device reaches a ring by its address, and a snapshot covers it (R340, R392). DESIGN CHOICE: the device reads and writes rings and control blocks under no key slot, which the manual does not name for them (log entry 76). -/
def ringPiece (q : Queue) (loc n : Nat) : Piece :=
  { loc := loc, n := n, die := if q.host then 0 else slice loc 38 37, key := none, kind := 0, mx := 0, sx := q.host, cw := !q.host, peer := false }

/-- Bytes of a ring or its control block written by the device (R340). -/
def ringWrite (s : State) (q : Queue) (loc n v : Nat) : State := bringLines { s with mem := memWrite s.mem loc n v } true [ringPiece q loc n]

/-- A write put on the core's list with a number; one that its group counts becomes an operation (R267, R274). -/
def startWrite (s : State) (k : Nat) (w : Write) : State :=
  modCore s k fun c =>
    let x := { w with num := c.next, op := w.op.map fun _ => c.next }
    let c1 := { c with writes := c.writes ++ [x], next := c.next + 1 }
    let c2 := match w.op with
      | some cls => countOp c1 w.own cls c.next
      | none => c1
    modOwner c2 w.own fun g => mapThreads g fun i t => if hasBit w.po i then { t with posted := t.posted ++ postedTo k w.pieces } else t

/-- A push to a device queue: it reserves the slot at TAIL by an update of TAIL, and its entry, with VALID, is a write that follows its threads' earlier ones, and the XC operation that finishes with it (R267, R332, R340). -/
def pushEntry (s : State) (k slot : Nat) (thr : Option Nat) (po : Word) (queue prio flags hdr : Nat) : State :=
  match groupAt (coreAt s k) slot, queueAt s (16 + queue) with
  | some g, some q =>
    let t := tailOf s (16 + queue) q
    let s1 := snapPages s g.lseq [ringPiece q q.loc 4]
    startWrite (ringWrite s1 q q.loc 4 ((t + 1) % 2 ^ 32)) k
      { num := 0, own := g.uid, slot := slot, thr := thr, po := po, lseq := g.lseq, pieces := [ringPiece q (q.slotLoc t) 32],
        data := hdr % 2 ^ 64 + prio * 2 ^ 64 + (flags + 1) * 2 ^ 72, rmw := none, rel := true, ty := 6, op := some 3, held := false, window := 0, begun := false }
  | _, _ => s

/-- The team's bitmap bit noted as set by cbset (R334). -/
def setBit (s : State) (k slot : Nat) : State :=
  match groupAt (coreAt s k) slot with
  | none => s
  | some g => modTeam s g.team fun t => { t with bitSet := true }

/-- R335: a completed cbwait records the uncompleted launches whose CBMAP it read. -/
def addProducer (s : State) (k slot base : Nat) : State :=
  match groupAt (coreAt s k) slot with
  | none => s
  | some g =>
    let ps := (s.launches.filter fun x => !x.2.completed && x.2.hdr.cbmap == base && x.1 != g.lseq).map (·.1)
    modLaunch s g.lseq fun l => { l with producers := l.producers ++ ps.filter fun p => !l.producers.contains p }

/-- The granules that windows of a core's groups occupy, but for one group (R187). -/
def usedGranules (c : Core) (but : Nat) : List Nat :=
  c.ctx.groups.flatMap fun x => match x.2.base with
    | some b => if x.2.uid = but then [] else (List.range (windowGranules x.2.win)).map fun j => b + j
    | none => []

/-- The lowest run of n free granules at or above a first one. -/
def freeRun (used : List Nat) (n : Nat) : Nat → Nat → Option Nat
  | 0, _ => none
  | fuel + 1, b =>
    if b + n > Config.granules then none
    else if (List.range n).all (fun j => !used.contains (b + j)) then some b
    else freeRun used n fuel (b + 1)

/-- Where a window of w registers fits, the group's own granules counting as free (R191, R258). -/
def windowFits (c : Core) (u w : Nat) : Option Nat := freeRun (usedGranules c u) (windowGranules w) Config.granules 0

/-- The window of a group changed (R258, R259): registers that appear read 0, those that go are discarded, with the guesses they held. -/
def setWindow (s : State) (k slot w : Nat) : State :=
  modCore s k fun c => match groupAt c slot with
    | none => c
    | some g =>
      let base := if w ≤ g.win then g.base else windowFits c g.uid w
      let lo := min w g.win
      let g1 := { g with win := w, base := base, threads := g.threads.map fun t => { t with v := t.v.filter fun x => decide (x.1 < lo) } }
      { setGroup c slot g1 with loads := c.loads.map fun l =>
          if l.own = g.uid && l.thr.isSome then { l with holds := l.holds.filter fun d => decide (d < lo) } else l }

end Sys2Proof.Machine
end

