-- ==== Sys2Proof/Machine/Commit.lean ====
section
/-! DEFINITION. How a word issues: legality, waits, the results of a chain held until its last word, and their commit with effects, actions, replays and traps. -/

namespace Sys2Proof.Machine

/-- One effect on thread i of a group (R11, R13). -/
def effThread (now : Nat) (e : Eff) (t : Thread) : Thread :=
  match e with
  | .certain => { clearPens t with cg := false, rpl := false }
  | .unreplay => { t with rpl := false }
  | .wv d val pen => setV t d val pen
  | .wp p val pen => setP t p val pen
  | .push pipe val pen => pushLatch t pipe val pen
  | .flags fl pen => if fl = 0 then t else { t with flg := t.flg ||| fl, fpen := t.fpen || pen }
  | .clearFlags m => let f := t.flg &&& ~~~m; { t with flg := f, fpen := t.fpen && f != 0 }
  | .goto q => { t with xfer := some q }
  | .link q => { t with lnk := q }
  | .setCg => { t with cg := true }
  | .pushLoop l => { t with loops := l :: t.loops }
  | .popLoop => { t with loops := t.loops.drop 1 }
  | .keepLoops q => { t with loops := popLeft t.loops q }
  | .markDead d => { t with v := tput t.v d { vreg t d with pen := false, dead := true } }
  | .clearPen d => { t with v := tmod t.v d fun r => { r with pen := false } }
  | .clearRpv => { t with rpv := false }
  | .mark pc => { t with rpc := pc, rpv := true, snapLoops := t.loops, snapLnk := t.lnk }
  | .setLnk val => { t with lnk := val }
  | .setRes val => { t with trap := { t.trap with stat := (t.trap.stat &&& ~~~4) ||| (val &&& 4) } }
  | .arrive kind n => setArrived t kind n true
  | .sleep x => { t with sleep := x }
  | .item v => foldItem now v t
  | .closeWindow => closeWindow now t
  | .mated => { t with mates := t.mates + 1 }
  | _ => t

/-- One effect on a group. -/
def effGroup (e : Eff) (g : Group) : Group :=
  match e with
  | .ws d val pen => setS g d val pen
  | .clearPenS d => { g with s := tmod g.s d fun r => { r with pen := false } }
  | .setLvs val => { g with lvs := val }
  | .certain => { g with s := tmap g.s fun _ r => { r with pen := false } }.clearRg
  | .jmark j m => { g with jm := tput g.jm j (tget 0 g.jm j ||| m) }
  | .jclr j m => { g with jm := tput g.jm j (tget 0 g.jm j &&& ~~~m), ja := tput g.ja j (tget 0 g.ja j &&& ~~~m) }
  | .jarrive j m => { g with jm := tput g.jm j (tget 0 g.jm j ||| m), ja := tput g.ja j (tget 0 g.ja j ||| m) }
  | _ => g

/-- One effect of a result: on its thread, and on the group for the effects that name group state. -/
def effIn (now : Nat) (g : Group) (thr : Option Nat) (e : Eff) : Group :=
  match thr with
  | none => effGroup e g
  | some i =>
    match e with
    | .jmark _ _ => effGroup e g
    | .jclr _ _ => effGroup e g
    | .jarrive _ _ => effGroup e g
    | .ws _ _ _ => effGroup e g
    | _ => modThread g i (effThread now e)

/-- All effects of a result. -/
def effsIn (now : Nat) (g : Group) (r : Res) : Group := r.effs.foldl (fun a e => effIn now a r.thr e) g

/-- Whether an effect changes a stored register value or penumbra bit (R185). -/
def effChanges (g : Group) (thr : Option Nat) (e : Eff) : Bool :=
  match e, thr with
  | .wv d val pen, some i => let r := vreg (threadAt g i) d; r.val != val || r.pen != pen
  | .ws d val pen, _ => d != 0 && (let r := sreg g d; r.val != val || r.pen != pen)
  | _, _ => false

/-- The register that an effect overwrites, so that it no longer holds a guess (R20, R29). -/
def effKills (e : Eff) : Option Nat :=
  match e with
  | .wv d _ _ => some d
  | .ws d _ _ => some d
  | .markDead d => some d
  | _ => none

/-- Guesses no longer held by overwritten registers. -/
def dropHolds (c : Core) (u : Nat) (r : Res) : Core :=
  let ds := r.effs.filterMap effKills
  if ds.isEmpty || c.loads.isEmpty then c
  else { c with loads := c.loads.map fun l =>
          if l.own = u && l.thr = r.thr then { l with holds := l.holds.filter fun d => !ds.contains d } else l }

/-- The class of a trap in the order of R55. -/
def trapClass (cause : Nat) : Nat :=
  match cause with
  | 1 => 1
  | 2 => 2
  | 6 => 3
  | 5 => 4
  | 7 => 5
  | _ => 6

/-- The trap that R55 takes first: the lower class, and then the lower position; of several threads' traps that tie in both, the first listed (log entry 64). -/
def firstTrap : List Trap → Option Trap
  | [] => none
  | t :: r => match firstTrap r with
    | none => some t
    | some x => if trapClass x.cause < trapClass t.cause || (trapClass x.cause = trapClass t.cause && x.pos < t.pos) then some x else some t

/-- What becomes of a thread in a step (R13, R25, R55). -/
inductive Fate where
  | done
  | replay
  | trap (t : Trap)
deriving DecidableEq, Repr

/-- The trap that a thread takes, if it takes one. -/
def Fate.taken : Fate → Option Trap
  | .trap t => some t
  | _ => none

/-- The fate of thread i of a slot under the results of the step's words: a certainty point that replays precedes effect traps. -/
def fateOf (rs : List Res) (slot i : Nat) : Fate :=
  let mine := rs.filter fun r => r.slot == slot && (r.thr == some i || r.thr == none)
  match firstTrap (mine.filterMap (·.trap)) with
  | none => if mine.any (·.replay) then .replay else .done
  | some t => if trapClass t.cause ≥ 5 && mine.any (·.replay) then .replay else .trap t

/-- Whether a step holds, for a group, a word whose replay is the whole group's, with whether every present thread can replay (R245). -/
def jointOf (rs : List Res) (slot : Nat) : Option Bool :=
  lfind (fun _ => true) ((rs.filter fun r => r.slot == slot).flatMap fun r => r.effs.filterMap fun e => match e with
    | .joint all => some all
    | _ => none)
/-- Whether a thread's certainty point has failed in a step: it replays, or cannot. -/
def Fate.failed : Fate → Bool
  | .replay => true
  | .trap t => t.cause == cNOREPLAY
  | .done => false
/-- Whether a fate is a trap of classes 1 to 4, which precede every certainty point (R55). -/
def Fate.early : Fate → Bool
  | .trap t => decide (trapClass t.cause < 5)
  | _ => false
/-- R245: where a present thread replays in a step with a uniform certainty point, every one does, or every one takes GUESS_NO_REPLAY. -/
def together (joint : Option Bool) (fs : List (Nat × Fate)) : List (Nat × Fate) :=
  match joint with
  | none => fs
  | some all => if fs.any fun f => f.2.failed then fs.map fun f => if f.2.early then f else (f.1, if all then .replay else .trap ⟨cNOREPLAY, 0, 0, 0⟩) else fs

/-- The fates of a part's threads; a trap in a step with a group-wide word is taken by every present thread (R194), the lowest thread's where several tie (log entry 64). -/
def fates (wide : Bool) (rs : List Res) (p : Part) : List (Nat × Fate) :=
  let fs := together (jointOf rs p.slot) ((members p.mask).map fun i => (i, fateOf rs p.slot i))
  match wide, firstTrap (fs.filterMap fun f => f.2.taken) with
  | true, some t => fs.map fun f => (f.1, .trap t)
  | _, _ => fs

/-- The threads that complete a step. -/
def doneMask (fs : List (Nat × Fate)) : Word := maskOf ((fs.filter fun f => f.2 == .done).map (·.1))
/-- The threads that replay in it. -/
def replays (fs : List (Nat × Fate)) : List Nat := (fs.filter fun f => f.2 == .replay).map (·.1)
/-- The traps taken in it. -/
def trapsOf (fs : List (Nat × Fate)) : Tab Trap := fs.filterMap fun f => f.2.taken.map fun t => (f.1, t)

/-- Whether a result takes effect: in a completing thread, or once for a group in which some thread completes. -/
def Res.takes (r : Res) (slot : Nat) (m : Word) : Bool :=
  r.slot == slot && (match r.thr with
    | some i => hasBit m i
    | none => m != 0)

/-- A group after the effects of a step, with the spin streak and the watchdog count restarted (R185, R386). -/
def groupAfter (rs : List Res) (slot : Nat) (m : Word) (handler : Bool) (now : Nat) (g : Group) : Group :=
  let mine := rs.filter fun r => r.takes slot m
  let changed := mine.any fun r => r.effs.any (effChanges g r.thr)
  let g1 := mine.foldl (effsIn now) g
  let g2 := if changed then { g1 with streak := 0, demoted := false } else g1
  if handler then g2 else { g2 with dog := now, dogOff := 0, bitten := false }

/-- Whether a result is a uniform certainty point that proceeds, which clears its group's s penumbra bits (R241, R246). -/
def Res.sureS (r : Res) : Bool := r.thr == none && r.effs.any fun e => e == .certain
/-- R287: where a step clears a group's s penumbra bits, the row guess flags that the group's queued updates would set are cancelled. -/
def cancelAt (rs : List Res) (u : Nat) (c : Core) : Core := if rs.any Res.sureS then { c with ctx := c.ctx.cancelRg u } else c
/-- The effects of a step on one group of a core. -/
def commitEffs (rs : List Res) (slot : Nat) (m : Word) (handler : Bool) (now : Nat) (c : Core) : Core :=
  match groupAt c slot with
  | none => c
  | some g =>
    let mine := rs.filter fun r => r.takes slot m
    mine.foldl (fun a r => dropHolds a g.uid r) (cancelAt mine g.uid (setGroup c slot (groupAfter rs slot m handler now g)))

/-- A request put on the core's list with a number; one that its group counts becomes an operation; a limit of 0 installs its prediction at once (R18, R267). -/
def startLoad (s : State) (k : Nat) (l : Load) : State :=
  let c := coreAt s k
  let x := { l with num := c.next, op := l.op.map fun _ => c.next }
  let c1 := { c with loads := c.loads ++ [x], next := c.next + 1 }
  let c2 := match l.op with
    | some cls => countOp c1 l.own cls c.next
    | none => c1
  let s1 := setCore s k c2
  match l.deadline with
  | some d => if d ≤ s.now && l.cls != 0 then installGuess s1 k x else s1
  | none => s1

/-- R21: a guessed access that would trap or fault: its destinations receive the prediction, and the load resolves at once as refuted. -/
def startRefuted (s : State) (k : Nat) (l : Load) : State :=
  let v := predict s k l
  modCore s k fun c => refute (writeRegs c l.own c.next l.thr l.dsts true l.dsts (loadWords l.ty v)) l.own l.thr

/-- R28: gaccept on a register that holds an unresolved guess detaches its load. -/
def detach (c : Core) (u : Nat) (thr : Option Nat) (d : Nat) : Core :=
  match lfind (fun (l : Load) => l.own == u && l.thr == thr && l.unresolved && l.holds.contains d) c.loads with
  | some l => finishFor (modLoad c l.num fun x => { x with detached := true }) u l.op
  | none => c

/-- R185: a taken branch word of a group counted by the spin detector. DESIGN CHOICE: one that qualifies and differs from the last begins a streak of its own, of 1 (log entry 76). -/
def spinStep (pc disp : Word) (g : Group) : Group :=
  if (BitVec.toInt disp ≤ 0 && BitVec.toInt disp ≥ -8) then
    let n := if g.spinPc = pc && g.spinDisp = disp && g.streak != 0 then g.streak + 1 else 1
    { g with streak := n, spinPc := pc, spinDisp := disp, demoted := g.demoted && n != 1 }
  else { g with streak := 0, demoted := false }

/-- A prefetch: it brings its line, and counts as an operation of class LD that has finished (R251, R267). -/
def startPrefetch (s : State) (k slot : Nat) (p : Option Piece) : State :=
  let s1 := bringLines s false p.toList
  modCore s1 k fun c => match groupAt c slot with
    | none => c
    | some g => finishFor (countOp { c with next := c.next + 1 } g.uid 0 c.next) g.uid (some c.next)

/-- The threads of a bundle, by slot. -/
def Bundle.threads (b : Bundle) : List (Nat × Nat) := b.parts.flatMap fun p => (members p.mask).map fun i => (p.slot, i)
/-- Whether a test holds of every thread of a bundle, with its group. -/
def allThreads (c : Core) (b : Bundle) (f : Group → Nat → Bool) : Bool :=
  b.threads.all fun x => match groupAt c x.1 with
    | some g => f g x.2
    | none => true
/-- Whether the phase of a barrier that a bundle's threads have arrived in has completed (R205). -/
def phaseDone (c : Core) (b : Bundle) (kind n : Nat) : Bool := allThreads c b fun g i => !arrived (threadAt g i) kind n
/-- Whether the phase of a barrier that a bundle's threads have arrived in is over, with their acquire (R206, R252). -/
def phaseOver (c : Core) (b : Bundle) (kind n : Nat) : Bool := allThreads c b fun g i => !arrived (threadAt g i) kind n && !readsPending c g i
/-- A bundle whose arrival has completed its phase: the next step of its packet issues in the following cycle (R279). -/
def holdNext (bid : Nat) (c : Core) : Core := match bundleAt c bid with
  | some b => setBundle c bid { b with fresh := true }
  | none => c
/-- A bundle that parks after its step; one whose barrier phase its own arrival has completed does not: it waits for its acquire alone, or goes on (R206, R279). -/
def parkBundle (c : Core) (now : Nat) (b : Bundle) (w : Wait) : Bundle :=
  match w with
  | .barrier kind n =>
    if phaseOver c b kind n then b
    else { b with wait := some w, waitSince := now, parked := !phaseDone c b kind n, flow := false, fresh := false }
  | _ => { b with wait := some w, waitSince := now, parked := true, flow := false }

/-- R236: the earlier accesses of some threads of a group to a barrier object are performed before its update. -/
def ownFirst (s : State) (k slot : Nat) (po : Word) (loc : Nat) : State :=
  match groupAt (coreAt s k) slot with
  | none => s
  | some g => performBefore s k g.uid po [bobjPiece loc]

/-- The late-arrival entries of a load word that is executed at an address: the first one of that address is used, and those of other addresses are freed (R27). -/
def freeLate (mine : Late → Bool) (ea : Nat) : List Late → List Late
  | [] => []
  | e :: r =>
    if !mine e then e :: freeLate mine ea r
    else if e.ea.toNat = ea then r.filter fun x => !mine x || x.ea.toNat == ea
    else freeLate mine ea r

/-- The threads in whose program order an access of a step lies: its thread, or for a group those that complete the step (R111, R262). -/
def poOf (m : Word) : Option Nat → Word
  | some i => oneBit i
  | none => m

/-- One action of a step, for a thread of a slot or for the group, with the threads that complete the step. -/
def doAct (s : State) (k bid slot : Nat) (m : Word) (thr : Option Nat) (pc : Word) (a : Act) : State :=
  match a with
  | .req l => startLoad s k { l with po := l.po &&& m }
  | .refuted l => startRefuted s k l
  | .write w => startWrite s k { w with po := w.po &&& m }
  | .mword sel w => startMatrix s k sel w m
  | .kick x => startCopy s k (poOf m thr) x
  | .dropLate p w ea => modCore s k fun c => match groupAt c slot with
    | some g => { c with late := freeLate (fun e => e.own == g.uid && e.thr == thr && e.pc == p && e.pos == w) ea c.late }
    | none => c
  | .exit => endThread (modCore s k fun c => modGroup c slot fun g => leaveSub g (thr.getD 0)) k slot (thr.getD 0)
  | .rti lo => returnThread s k slot lo (thr.getD 0)
  | .accept d => modCore s k fun c => match groupAt c slot with
    | some g => detach c g.uid thr d
    | none => c
  | .install n => modCore s k fun c => installCame c n
  | .spin d => modCore s k fun c => modGroup c slot (spinStep pc d)
  | .bobjInit loc y z => match groupAt (coreAt s k) slot with
    | some g => bobjInit (ownFirst s k slot (poOf m thr) loc) g.uid loc y z
    | none => s
  | .bobjArrive loc d => bobjArrive (ownFirst s k slot (poOf m thr) loc) k slot thr loc d
  | .mcfree x => freeGid s k slot x
  | .push q prio flags hdr => pushEntry s k slot thr (poOf m thr) q prio flags hdr
  | .cbset => setBit s k slot
  | .producer b => addProducer s k slot b
  | .prefetch p => startPrefetch s k slot p
  | .bring ps => bringLines s false ps
  | .window w => setWindow s k slot w
  | .barrier kind n => match groupAt (coreAt s k) slot with
    | some g => if phaseFull s (barrierTeams s g.team kind) kind n then modCore (checkPhase s g.team kind n) k (holdNext bid) else s
    | none => s
  | .joinCheck j => modCore s k fun c => checkJ c slot j
  | .park w => modCore s k fun c => match bundleAt c bid with
    | some b => setBundle c bid (parkBundle c s.now b w)
    | none => c
  | .stall _ _ => s
  | .register number val => { s with agenda := .register k number val :: s.agenda }
  | .mate key val => match groupAt (coreAt s k) slot with
    | none => s
    | some g => match teamAt s g.team with
      | none => s
      | some t => modTeam s t.mate fun x => { x with log := x.log ++ [(key, val)] }
  | .unlog key => match groupAt (coreAt s k) slot with
    | none => s
    | some g => modTeam s g.team fun x => { x with log := match popLog key x.log with
        | some (_, r) => r
        | none => x.log }
  | .useWalk n => modCore s k fun c => { c with walks := c.walks.filter fun w => w.num != n }

/-- Whether an action is on a guess that a register holds before any word of the step writes (R11, R28, R29). -/
def Act.onGuess : Act → Bool
  | .accept _ => true
  | .install _ => true
  | _ => false
/-- Some actions of a step, group by group and thread by thread in order. -/
def doActs (sel : Act → Bool) (rs : List Res) (slot : Nat) (m : Word) (k bid : Nat) (pc : Word) (s : State) : State :=
  (rs.filter fun r => r.takes slot m).foldl (fun a r => (r.acts.filter sel).foldl (fun b x => doAct b k bid slot m r.thr pc x) a) s
/-- What a step does to guesses, before its words write (R11, R28, R29). -/
def commitGuesses : List Res → Nat → Word → Nat → Nat → Word → State → State := doActs Act.onGuess
/-- The other actions of a step. -/
def commitActs : List Res → Nat → Word → Nat → Nat → Word → State → State := doActs fun a => !a.onGuess

/-- Whether an action ends a thread's part in its bundle. -/
def Act.leaves : Act → Bool
  | .exit => true
  | .rti _ => true
  | _ => false
/-- The threads that leave a bundle in a step by their own action. -/
def leavers (rs : List Res) (slot : Nat) : Word :=
  maskOf (rs.filterMap fun r => if r.slot = slot && r.acts.any Act.leaves then r.thr else none)

/-- The bundle after a step: the threads that stay, with nothing held. -/
def stayed (b : Bundle) (keep : List Part) : Bundle :=
  { b with parts := keep.filter (fun p => p.mask != 0), issued := true, held := [], segs := [], post := [], pipes := [], dsts := [], stage := 0, done := [],
           pinned := false, wide := false, uni := false, trapped := [], wait := none, parked := false, tried := false, pushes := [], shut := [] }

/-- Guesses of a slot's group settled (R20, R241). -/
def settleIn (slot : Nat) (c : Core) : Core := match groupAt c slot with
  | some g => settle c g.uid
  | none => c
def settleAt (k slot : Nat) (s : State) : State := modCore s k (settleIn slot)

/-- The effects of a step and its bundle after it, before the step's actions. -/
def takeEffs (rs : List Res) (slot : Nat) (m : Word) (bid : Nat) (b : Bundle) (now : Nat) (c : Core) : Core :=
  setBundle (commitEffs rs slot m b.sub.isSome now c) bid (stayed b [⟨slot, m⟩])

/-- The traps that the threads of some parts take in a step. -/
def trapList (fs : List (Part × List (Nat × Fate))) : List (Nat × Nat × Trap) := fs.flatMap fun x => (trapsOf x.2).map fun t => (x.1.slot, t.1, t.2)
/-- Slots named in a list of traps, each once. -/
def trapSlots (ts : List (Nat × Nat × Trap)) : List Nat := ts.foldl (fun a t => if a.contains t.1 then a else a ++ [t.1]) []
/-- The threads that trap in a step enter, or wait to enter, group by group (R374, R375). -/
def trapGroups (s : State) (k : Nat) (b : Bundle) (ts : List (Nat × Nat × Trap)) : State :=
  (trapSlots ts).foldl (fun a slot => trapThreads a k slot b.sub ((ts.filter fun t => t.1 == slot).map (·.2)) b.stepPos b.pc) s
/-- The same for threads that have left a step before it ends, whose groups' guesses may then settle (R20). -/
def trapApart (s : State) (k : Nat) (b : Bundle) (ts : List (Nat × Nat × Trap)) : State :=
  (trapSlots ts).foldl (fun a slot => settleAt k slot a) (trapGroups s k b ts)

/-- A bundle whose step begins again at its first word with the threads that have not left it to trap; where a word of it runs once for its group, those that have left enter their traps when the step has issued, and otherwise at once (R111). A step whose earlier words have handed their accesses over goes on at its waiting word. -/
def restartWithout (b : Bundle) (fs : List (Part × List (Nat × Fate))) (uni : Bool) : Bundle :=
  let ts := b.trapped ++ trapList fs
  let parts := (fs.map fun x => { x.1 with mask := x.1.mask &&& ~~~(maskOf ((trapsOf x.2).map (·.1))) }).filter fun p => p.mask != 0
  let x := { b with parts := parts, issued := false, flow := false, wait := none, parked := false, trapped := if uni then ts else [], yield := b.yield || !uni }
  if b.kept then x else { x with pos := b.stepPos, held := [], segs := [], pipes := [], dsts := [], wide := false, uni := false }

/-- The threads that trap in a step leave it, and it begins again with the others (R13, R55, R111). -/
def withoutTraps (s : State) (k bid : Nat) (b : Bundle) (fs : List (Part × List (Nat × Fate))) (uni : Bool) : State :=
  let x := restartWithout b fs uni
  if x.parts.isEmpty then trapApart (modCore s k fun c => tidyRun (delBundle c bid)) k b (b.trapped ++ trapList fs)
  else if uni then modCore s k fun c => setBundle c bid x
  else trapApart (modCore s k fun c => setBundle c bid x) k b (b.trapped ++ trapList fs)

/-- Whether a word names a latch (R179). -/
def Shape.latches (sh : Shape) : Bool := !sh.u && sh.srcs.any fun x => decide (96 ≤ x.code) && decide (x.code ≤ 99)

/-- Whether a word never causes a switch of bundles: those of majors 19 and 20, the votes, jmark and jclr (R194). -/
def neverSwitches (x : Instr) : Bool :=
  match x with
  | .vany _ => true
  | .vall _ => true
  | .vsame _ => true
  | .jmark _ => true
  | .jclr _ => true
  | i => let m := slice (lget 0 (encode i) 0) 30 26; m == 19 || m == 20
/-- Whether a bundle's step keeps its selector while it waits: some word of it names a latch, or never causes a switch (R179, R194). -/
def stepPins (b : Bundle) : Bool := b.stepWords.any fun x => (shape x).latches || neverSwitches x
/-- The pushes that a wait is for (R332). -/
def Wait.pushes : Wait → List (Nat × Nat)
  | .tqpush ws _ => ws
  | _ => []

/-- A step held: the chain so far is discarded and begins again at its first word when the wait is over (R174), unless earlier words of it have handed their accesses over. -/
def holdStep (s : State) (k bid : Nat) (b : Bundle) (w : Wait) (parked pinned : Bool) : State :=
  modCore s k fun c => match bundleAt c bid with
    | none => c
    | some x =>
      let y := { x with wait := some w, waitSince := if b.wait = some w then b.waitSince else s.now, parked := parked, issued := false, flow := false
                        pinned := b.pinned || pinned, tried := true, pushes := w.pushes }
      setBundle c bid (if x.kept then y else { y with pos := b.stepPos, held := [], segs := [], pipes := [], dsts := [], wide := false, uni := false })

/-- A thread noted as having done its part of a step that its bundle has not finished (R305, R330). -/
def markDone (s : State) (k bid slot i : Nat) : State :=
  modCore s k fun c => match bundleAt c bid with
    | none => c
    | some b => setBundle c bid { b with done := joinPart b.done ⟨slot, oneBit i⟩ }

/-- Whether an action hands a request or a push over, which a thread of a step may do before the others (R305, R332). -/
def Act.hands : Act → Bool
  | .kick _ => true
  | .push _ _ _ _ => true
  | _ => false
/-- Whether an action is an access or a request of its threads, which a word of a chain hands over before a later word of the chain that has to wait for it (R262, R264, R265). -/
def Act.gives : Act → Bool
  | .req _ => true
  | .write _ => true
  | .bobjInit _ _ _ => true
  | a => a.hands
/-- What a step's completing threads wait for before it can finish, and whether each parks. -/
def stallsOf (rs : List Res) (fs : List (Part × List (Nat × Fate))) : List (Wait × Bool) :=
  fs.flatMap fun x => (rs.filter fun r => r.takes x.1.slot (doneMask x.2)).flatMap fun r => r.acts.filterMap fun a => match a with
    | .stall w q => some (w, q)
    | _ => none
/-- Waits for queue slots, for demanded data and for room put together; the first other wait stands (R332). -/
def joinStalls : List (Wait × Bool) → Option (Wait × Bool)
  | [] => none
  | (w, p) :: r => match joinStalls r with
    | none => some (w, p)
    | some (x, q) => some (match w, x with
      | .tqpush a d, .tqpush b _ => .tqpush (a ++ b) d
      | .demand a, .demand b => .demand (a ++ b)
      | .queue a, .queue b => .queue (a ++ b)
      | y, _ => y, p && q)
/-- Whether a result takes effect in a step with its fates. -/
def Res.counts (fs : List (Part × List (Nat × Fate))) (r : Res) : Bool := fs.any fun x => r.takes x.1.slot (doneMask x.2)
/-- Whether an action makes its step wait. -/
def Act.stalls : Act → Bool
  | .stall _ _ => true
  | _ => false
/-- Whether some result of a word makes its step wait. -/
def wordStalls (fs : List (Part × List (Nat × Fate))) (rs : List Res) : Bool := rs.any fun r => r.counts fs && r.acts.any Act.stalls
/-- The results of a step word by word, by the position of each word and the number of its results. -/
def wordsOf : List (Nat × Nat) → List Res → List (Nat × List Res)
  | [], _ => []
  | (p, n) :: r, rs => (p, rs.take n) :: wordsOf r (rs.drop n)
/-- The first word of a step that makes it wait, with the words before and after it. -/
def splitWords (fs : List (Part × List (Nat × Fate))) : List (Nat × List Res) → Option (List (Nat × List Res) × (Nat × List Res) × List (Nat × List Res))
  | [] => none
  | x :: r => if wordStalls fs x.2 then some ([], x, r) else (splitWords fs r).map fun y => (x :: y.1, y.2)
/-- The accesses that a word of a chain hands over before a later word that waits, in the threads that complete the step so far (R262). -/
def giveAll (s : State) (k bid : Nat) (b : Bundle) (fs : List (Part × List (Nat × Fate))) (r : Res) : State :=
  fs.foldl (fun a x => if r.takes x.1.slot (doneMask x.2) then (r.acts.filter Act.gives).foldl (fun d y => doAct d k bid r.slot (doneMask x.2) r.thr b.pc y) a else a) s
/-- A result whose accesses have been handed over. -/
def given (fs : List (Part × List (Nat × Fate))) (r : Res) : Res := if r.counts fs then { r with acts := r.acts.filter fun a => !a.gives } else r
/-- A result of a word after the one that waits: what it hands over is planned anew in its turn. -/
def replanned (r : Res) : Res := if r.acts.any Act.gives then { r with acts := r.acts ++ [.stall (.queue []) false] } else r
/-- A thread's part of a step that hands its request or push over: its certainty point has passed, and the rest of its step waits with the others (R25, R305). -/
def handOver (s : State) (k bid : Nat) (b : Bundle) (fs : List (Part × List (Nat × Fate))) (r : Res) : State :=
  match r.thr with
  | none => s
  | some i =>
    if r.acts.any Act.hands && fs.any fun x => r.takes x.1.slot (doneMask x.2) then
      let sure : Res := { r with effs := r.effs.filter fun e => e == .certain || e == .unreplay, acts := [] }
      let s1 := modCore s k fun c => modGroup c r.slot fun g => effsIn s.now g sure
      markDone ((r.acts.filter Act.hands).foldl (fun a x => doAct a k bid r.slot (oneBit i) (some i) b.pc x) s1) k bid r.slot i
    else s
/-- A step that some threads cannot finish yet, from the words before the first that waits, that word, and those after it: the words before it hand their accesses over where it waits for them, or for a place, and the step then goes on from that word; its threads that can hand their requests and pushes over, those that trap leave, and the step is held (R13, R262, R305, R332; log entry 75). -/
def stallStep (s : State) (k bid : Nat) (b : Bundle) (fs : List (Part × List (Nat × Fate))) (pre : List (Nat × List Res)) (x : Nat × List Res) (post : List (Nat × List Res)) (w : Wait) (parked pinned : Bool) : State :=
  let demand : Bool := match w with
    | .demand _ => true
    | _ => false
  let before := pre.flatMap (·.2)
  let kept := b.kept || (!demand && before.any fun r => r.counts fs && r.acts.any Act.gives)
  let s0 := if kept then before.foldl (fun a r => giveAll a k bid b fs r) s else s
  let s1 := x.2.foldl (fun a r => handOver a k bid b fs r) s0
  let b1 := (bundleAt (coreAt s1 k) bid).getD b
  let timed : Bool := match w with
    | .tqpush _ _ => true
    | _ => false
  let b0 := { b with done := b1.done, stage := if timed then 1 else b.stage, since := if timed && b.stage = 0 then s.now else b.since }
  let b2 := if kept then { b0 with kept := true, pos := x.1, held := before.map (given fs), segs := pre.map fun y => (y.1, y.2.length)
                                   post := post.map fun y => (y.1, y.2.map replanned), pipes := [], dsts := [] } else b0
  let s2 := modCore s1 k fun c => setBundle c bid b2
  if (trapList fs).isEmpty then holdStep s2 k bid b2 w parked pinned
  else
    let y := restartWithout b2 fs b.uni
    holdStep (withoutTraps s2 k bid b2 fs b.uni) k bid y w parked pinned

/-- A step that every thread of it can finish: those that complete it take its effects and actions, and the others leave the bundle to replay or trap; a trap entry has the selector choose anew (R11, R13, R178). -/
def finishStep (s : State) (k bid : Nat) (b : Bundle) (rs : List Res) (fs : List (Part × List (Nat × Fate))) : State :=
  let ts := b.trapped ++ trapList fs
  let s0 := fs.foldl (fun a x => commitGuesses rs x.1.slot (doneMask x.2) k bid b.pc a) s
  let s1 := fs.foldl (fun a x => modCore a k (commitEffs rs x.1.slot (doneMask x.2) b.sub.isSome s.now)) s0
  let keep := fs.map fun x => { x.1 with mask := doneMask x.2 &&& ~~~(leavers rs x.1.slot) }
  let nb := { stayed b keep with yield := b.yield || !ts.isEmpty, flow := b.flow && ts.isEmpty }
  let s2 := modCore s1 k fun c => if nb.parts.isEmpty then tidyRun (delBundle c bid) else setBundle c bid nb
  let s3 := fs.foldl (fun a x => commitActs rs x.1.slot (doneMask x.2) k bid b.pc a) s2
  let s4 := fs.foldl (fun a x => (replays x.2).foldl (fun d i => replayAt d k x.1.slot b.sub i b.stepPos b.pc) a) s3
  let s5 := trapGroups s4 k b ts
  (fs.map (·.1.slot) ++ (trapSlots ts).filter fun x => !(fs.any fun y => y.1.slot == x)).foldl (fun a slot => settleAt k slot a) s5
/-- COMMIT of a step (R11, R13, R55): it waits where some completing thread cannot hand over what it has to (R305, R332); one with a word that runs once for its group begins again without the threads that trap (R111); and otherwise it finishes. -/
def commit (s : State) (k bid : Nat) (b : Bundle) (rs : List Res) (wide : Bool) : State :=
  let fs := b.parts.map fun p => (p, fates wide rs p)
  match splitWords fs (wordsOf b.segs rs) with
  | some (pre, x, post) => (match joinStalls (stallsOf x.2 fs) with
    | some (w, parked) => stallStep s k bid b fs pre x post w parked (stepPins b)
    | none => s)
  | none =>
    if b.uni && !(trapList fs).isEmpty && fs.any fun x => doneMask x.2 != 0 then withoutTraps s k bid b fs true
    else finishStep s k bid b rs fs

/-- The running bundle of the selector that issues now. -/
def running (s : State) : Option (Nat × Bundle) :=
  let c := coreAt s s.cur.1
  match runOf c s.cur.2 with
  | none => none
  | some bid => (bundleAt c bid).map fun b => (bid, b)

/-- Whether a step has still to close the mirror window of a thread of it (R389). -/
def unshut (v : View) (i : Nat) : Bool := mirrored v.s v.g && !(v.b.shut.any fun p => p.slot == v.slot && hasBit p.mask i)
/-- What a hold asks for, done. -/
def doAsk (k : Nat) (own slot bid : Nat) (s : State) (a : Ask) : State :=
  match a with
  | .walk w => modCore s k fun c0 =>
      let c := dropLacking w.root w.va w.access c0
      if c.walks.any (fun x => x.answers w.own w.va w.access w.thr w.spec) then c
      else { c with walks := (c.walks.filter fun x => !x.answers w.own w.va w.access w.thr true) ++ [{ w with num := c.next, since := s.now }], next := c.next + 1 }
  | .release i peers => modCore s k fun c =>
      if c.releases.any (fun x => x.own == own && x.thr == i) then c
      else match groupAt c slot with
        | none => c
        | some g =>
          let ps := ((threadAt g i).posted).foldl (fun a d => if a.contains d || (decide (4 ≤ d) && !peers) then a else a ++ [d]) []
          { c with next := c.next + 1, releases := c.releases ++ [⟨c.next, own, slot, i, [], ps.map fun d => (d, ((pathsTo s k d).map (2 ^ ·)).sum), []⟩] }
  | .closeWin i => modCore s k fun c => match bundleAt c bid with
      | some b => modGroup (setBundle c bid { b with shut := joinPart b.shut ⟨slot, oneBit i⟩ }) slot fun g => modThread g i (shutWindow s.now)
      | none => c
  | .bring ps => bringLines s false ps
  | .since => modCore s k fun c => match bundleAt c bid with
      | some b => setBundle c bid (if b.stage = 0 then { b with since := s.now, stage := 1 } else b)
      | none => c
  | .done i => markDone s k bid slot i

/-- The register writes that a word waits for in a group (R15): its sources and destinations, with every thread it concerns. DESIGN CHOICE: smov.v, which reads x in the lowest present thread alone (R125), waits for x in every present thread (log entry 77). gdemand waits so even where its register's penumbra bit is clear: of R15 and R29 the model follows R15 (log entry 60). -/
def waitsFor (sh : Shape) (v : View) : List RegRef :=
  let codes := ((sh.srcs ++ sh.look).flatMap fun x => (List.range x.n).map fun j => x.code + j) ++ sh.dsts.flatMap fun d => (List.range d.2).map fun j => d.1 + j
  let rs : List RegRef :=
    if sh.u then codes.map fun d => ⟨v.slot, none, d⟩
    else (codes.filter (fun d => decide (100 < d) && decide (d ≤ 123))).map (fun d => ⟨v.slot, none, d - 100⟩) ++
      (codes.filter fun d => decide (d ≤ 95)).flatMap fun d => v.present.map fun i => ⟨v.slot, some i, d⟩
  let ps : List RegRef := (sh.pr ++ sh.pw).flatMap fun p => v.present.map fun i => ⟨v.slot, some i, 1000 + p⟩
  let ss : List RegRef := (sh.sr ++ sh.sw).map fun d => ⟨v.slot, none, d⟩
  if sh.nowait || (v.c.loads.isEmpty && v.c.matrixWords.isEmpty) then []
  else (rs ++ ps ++ ss).filter (pendingReg v.c v.g)

/-- How many operations of a class an action counts (R267, R313). -/
def Act.counts (cls : Nat) : Act → Nat
  | .req l => bit (l.op == some cls)
  | .write w => bit (w.op == some cls)
  | .mword _ m => if cls = 2 then m.what.counts else 0
  | .prefetch _ => bit (cls == 0)
  | .kick _ => bit (cls == 1)
  | .mcfree _ => bit (cls == 3)
  | .push _ _ _ _ => bit (cls == 3)
  | _ => 0

/-- How many operations of a class the results of a step count. -/
def countsOf (rs : List Res) (cls : Nat) : Nat := (rs.map fun r => (r.acts.map (Act.counts cls)).sum).sum
/-- What the results of a step need of the counters of their group that they would raise past 16 bits (R313). -/
def overCount (g : Group) (slot : Nat) (rs : List Res) : List (Nat × Nat × Nat) :=
  ((List.range 4).filter fun cls => countsOf rs cls != 0 && decide (0xFFFF < opCount g cls + countsOf rs cls)).map fun cls => (cls, slot, countsOf rs cls)

/-- The results of the words before in a chain under way, in the view's group. -/
def View.held (v : View) : List Res := v.b.held.filter fun r => r.slot == v.slot
/-- A plan that waits where a counter has no room for what its step counts (R313). -/
def Plan.counted (p : Plan) (v : View) : Plan :=
  match p with
  | .go rs => match overCount v.g v.slot (v.held ++ rs) with
    | [] => .go rs
    | needs => .hold (.queue needs) false []
  | x => x

/-- What a word does in one group: ILLEGAL in every present thread, a wait for registers, or its plan. -/
def groupPlan (sh : Shape) (plan : View → Plan) (bad : Bool) (v : View) : Plan :=
  if bad || !sh.legal v.g.win v.h.sregs then .go [⟨v.slot, none, [], [], some (trapAt v cILLEGAL), false⟩]
  else match waitsFor sh v with
    | [] => (plan v).counted v
    | rs => .hold (.reg rs) false []

/-- The view of one part of a bundle. -/
def viewOf (s : State) (k : Nat) (b : Bundle) (p : Part) : Option View :=
  let c := coreAt s k
  (groupAt c p.slot).map fun g => ⟨s, k, c, b, p.slot, g, hdrOf s g.lseq, p.mask⟩

/-- The results of plans that do not hold. -/
def planRes : Plan → List Res
  | .go rs => rs
  | _ => []

/-- The first hold among the groups of a bundle. -/
def planHold : List (View × Plan) → Option (Wait × Bool)
  | [] => none
  | (_, .hold w p _) :: r => match planHold r with
    | some (x, q) => some (bothWaits w x, p && q)
    | none => some (w, p)
  | _ :: r => planHold r

/-- What the holds of a bundle's groups ask for. -/
def planAsks (k bid : Nat) (s : State) (ps : List (View × Plan)) : State :=
  ps.foldl (fun a x => match x.2 with
    | .hold _ _ as => as.foldl (doAsk k x.1.g.uid x.1.slot bid) a
    | _ => a) s

/-- Words that an instruction takes: itself, and its literal. -/
def Shape.len (sh : Shape) : Nat := if sh.lit.isSome then 2 else 1

/-- Whether an lpush takes ILLEGAL in a thread: its end packet is not sealed, or cannot be read (log entry 58), or it would push a fifth entry (R135). -/
def lpushBad (o : OpLp) (v : View) (i : Nat) (t : Thread) : Bool :=
  let x := readSrc v.g i t o.lit .s ⟨o.x.toNat, 1, true, false⟩
  let stop := v.b.pc + 1 + BitVec.ofNat 32 o.e.toNat
  sealedAt v.s v.k v.h stop.toNat != some true || (x.val % 2 ^ 24 != 0 && decide (4 ≤ (popLeft t.loops (v.b.pc + 1)).length))

/-- Whether a word takes ILLEGAL in a thread for a reason of its own. -/
def ownIllegal (x : Instr) (v : View) (i : Nat) (t : Thread) : Bool :=
  match x with
  | .lpush o => lpushBad o v i t
  | .rti _ => !inHandler t
  | .gmark _ => v.b.pc != v.b.start
  | .sysw o => o.n == 0x43 && !inHandler t
  | .barGd _ => !v.h.cor
  | _ => false

/-- Whether a word takes PRIV: a register of system software (R126), which a control core may reach (R421). -/
def takesPriv (x : Instr) (k : Nat) : Bool :=
  match x with
  | .sysr o => sysScope o.n.toNat == 3 && !isControl k
  | .sysw o => sysScope o.n.toNat == 3 && !isControl k
  | _ => false

/-- An operand as a group-wide word reads it in thread u: with U = 1, the s operand as the thread's own (R195). -/
def readIn (sh : Shape) (v : View) (u : Nat) (x : Src) : In :=
  if sh.u then readSrcU v.g sh.lit x else readSrc v.g u (threadAt v.g u) sh.lit sh.pipe x
/-- Operands a and b of a word. -/
def srcAOf (sh : Shape) : Src := sh.srcs.headD ⟨124, 1, false, false⟩
def srcBOf (sh : Shape) : Src := lget ⟨124, 1, false, false⟩ sh.srcs 1
/-- The thread that supplies the value of an exchange: s where it is present, and otherwise the thread itself (R197). -/
def supplier (v : View) (t : Nat) (s : Int) : Nat := if 0 ≤ s && s ≤ 31 && hasBit v.mask s.toNat then s.toNat else t
/-- The source index of thread t in an exchange, from its b (R197). -/
def getFrom (_ b : Nat) : Int := (b % 32 : Nat)
def lowFrom (t b : Nat) : Int := if b / 32 % 2 = 1 then ((t + 32 - b % 32) % 32 : Nat) else (t : Int) - (b % 32 : Nat)
def highFrom (t b : Nat) : Int := if b / 32 % 2 = 1 then ((t + b % 32) % 32 : Nat) else (t + b % 32 : Nat)
def flipFrom (t b : Nat) : Int := (t ^^^ (b % 32) : Nat)
/-- A predicate operand in thread u, negated where its code says so (R196). -/
def predIn (v : View) (neg : Bool) (q : Nat) (u : Nat) : PReg := let p := preg (threadAt v.g u) q; ⟨p.val != neg, p.pen⟩
/-- The contributors of a reduction: the present threads whose predicate is true (R198). -/
def contributors (v : View) (o : OpGr) : List Nat := v.present.filter fun u => (predIn v o.j o.q.toNat u).val
/-- What an exchange reads: each thread's b, and the a of the thread that supplies its value (R197). -/
def exchangeReads (from' : Nat → Nat → Int) (sh : Shape) (v : View) : List (Nat × Src) :=
  v.present.flatMap fun t => [(t, srcBOf sh), (supplier v t (from' t (readIn sh v t (srcBOf sh)).val), srcAOf sh)]
/-- The thread that supplies the value of gbcast (R197). -/
def bcastFrom (sh : Shape) (v : View) : Nat := let low := v.present.headD 0; supplier v low ((readIn sh v low (srcBOf sh)).val % 32 : Nat)
/-- What a reduction reads: the a of its contributors (R198). -/
def reduceReads (o : OpGr) (sh : Shape) (v : View) : List (Nat × Src) := (contributors v o).map fun u => (u, srcAOf sh)
/-- The operands that a group-wide word reads, by thread (R125, R194, R197, R198); none for a word that checks none. -/
def wideReads (x : Instr) (sh : Shape) (v : View) : List (Nat × Src) :=
  match x with
  | .xget _ => exchangeReads getFrom sh v
  | .xlow _ => exchangeReads lowFrom sh v
  | .xhigh _ => exchangeReads highFrom sh v
  | .xflip _ => exchangeReads flipFrom sh v
  | .gbcast _ => [(v.present.headD 0, srcBOf sh), (bcastFrom sh v, srcAOf sh)]
  | .eqset _ => v.present.flatMap fun t => [(t, srcAOf sh), (t, srcBOf sh)]
  | .gredAddI32 o => reduceReads o sh v
  | .gredMinI32 o => reduceReads o sh v
  | .gredMaxI32 o => reduceReads o sh v
  | .gredAndB32 o => reduceReads o sh v
  | .gredOrB32 o => reduceReads o sh v
  | .gredAddF32 o => reduceReads o sh v
  | .gscanAddI32 o => reduceReads o sh v
  | .gscanAddF32 o => reduceReads o sh v
  | .smovV _ => [(v.present.headD 0, srcAOf sh)]
  | _ => []
/-- The trap of a group-wide word, for the operands that it reads in some threads: a lost latch, and then a dead register (R55, R194). -/
def readTrap (sh : Shape) (v : View) (reads : List (Nat × Src)) : Option Trap :=
  if sh.u then none
  else if reads.any fun r => srcLost (threadAt v.g r.1) sh.pipe r.2 then some (trapAt v cLATCH)
  else if deadTraps v.g && reads.any fun r => srcDead (threadAt v.g r.1) r.2 then some (trapAt v cDEAD)
  else none

/-- The trap of classes 1 to 4 that a word takes in a thread (R55). -/
def earlyTrap (x : Instr) (sh : Shape) (v : View) (i : Nat) (t : Thread) : Option Trap :=
  if ownIllegal x v i t then some (trapAt v cILLEGAL)
  else if takesPriv x v.k then some (trapAt v cPRIV)
  else if sh.u then none
  else if sh.srcs.any (srcLost t sh.pipe) then some (trapAt v cLATCH)
  else if deadTraps v.g && sh.srcs.any (srcDead t) then some (trapAt v cDEAD)
  else none

/-- The traps of classes 1 to 4 of a word in a group, where no register write is awaited; a group-wide word's are those of the operands that it reads (R194). -/
def earlyWord (x : Instr) (sh : Shape) (bad : Bool) (v : View) : List Res :=
  if bad || !sh.legal v.g.win v.h.sregs then [⟨v.slot, none, [], [], some (trapAt v cILLEGAL), false⟩]
  else if !(waitsFor sh v).isEmpty then []
  else if sh.wide then (match readTrap sh v (wideReads x sh v) with
    | some tr => [⟨v.slot, none, [], [], some tr, false⟩]
    | none => [])
  else v.present.filterMap fun i => (earlyTrap x sh v i (threadAt v.g i)).map fun tr => ⟨v.slot, some i, [], [], some tr, false⟩

/-- Whether a word runs once for its group without being group-wide (R111). -/
def Shape.once (sh : Shape) : Bool := sh.u && !sh.wide

/-- What the words of a step show before it issues: their traps of classes 1 to 4, whether one is group-wide, and whether one runs once for its group (R55, R111, R194). -/
structure Early where
  rs : List Res
  wide : Bool
  uni : Bool
/-- The traps of classes 1 to 4 of a step, word by word from a position on. -/
def earlyTraps (s : State) (k : Nat) : Nat → Bundle → Early
  | 0, _ => ⟨[], false, false⟩
  | n + 1, b =>
    match b.pkt.bind fun p => decodeAt b.pos (p.words.drop b.pos) with
    | none => ⟨b.parts.map fun p => ⟨p.slot, none, [], [], some ⟨cILLEGAL, 0, 0, b.pos⟩, false⟩, false, false⟩
    | some (x, len) =>
      let sh := shapeOn k x
      let rs := (b.parts.filterMap (viewOf s k b)).flatMap (earlyWord x sh (sh.clashes b || (sh.term && !termOk b sh.len)))
      if sh.c then
        let r := earlyTraps s k n { b with
          pos := b.pos + len
          pipes := if sh.pipeOf = .none then b.pipes else sh.pipeOf :: b.pipes
          dsts := sh.names ++ b.dsts }
        ⟨rs ++ r.rs, sh.wide || r.wide, sh.once || r.uni⟩
      else ⟨rs, sh.wide, sh.once⟩

/-- The threads that take a trap of classes 1 to 4 in a step leave it to trap, before another word of the step waits; the step begins again with those that stay (R13, R55). -/
def leaveTrapping (s : State) (k bid : Nat) (b : Bundle) (e : Early) : State :=
  withoutTraps s k bid b (b.parts.map fun p => (p, fates e.wide e.rs p)) e.uni

/-- Whether a wait is for register writes, which come before every check (R15). -/
def isRegWait : Wait → Bool
  | .reg _ => true
  | _ => false

/-- ISSUE of a word by the running bundle: it holds, joins the chain's held results, or commits the step. -/
def issue (sh : Shape) (plan : View → Plan) (s : State) : State :=
  match running s with
  | none => s
  | some (bid, b) =>
    if b.issued then s
    else
      let k := s.cur.1
      let bad := sh.clashes b || (sh.term && !termOk b sh.len)
      let ps := (b.parts.filterMap (viewOf s k b)).map fun v => (v, groupPlan sh plan bad v)
      match planHold ps with
      | some (w, parked) =>
        let e := if (sh.c || b.pos != b.stepPos) && !b.kept && !isRegWait w then earlyTraps s k 3 { b with pos := b.stepPos, pipes := [], dsts := [] } else ⟨[], false, false⟩
        if e.rs.isEmpty then planAsks k bid (holdStep s k bid b w parked (stepPins b)) ps else leaveTrapping s k bid b e
      | none =>
        let new := ps.flatMap fun x => planRes x.2
        let rs := b.held ++ new ++ b.post.flatMap (·.2)
        let segs := b.segs ++ (b.pos, new.length) :: b.post.map fun x => (x.1, x.2.length)
        let wide := b.wide || sh.wide
        let uni := b.uni || sh.once
        if sh.c && !b.kept then
          modCore s k fun c => setBundle c bid { b with
            issued := true, held := rs, segs := segs, wide := wide, uni := uni, pinned := b.pinned || sh.latches, wait := none, parked := false
            pipes := if sh.pipeOf = .none then b.pipes else sh.pipeOf :: b.pipes, dsts := sh.names ++ b.dsts }
        else commit s k bid { b with uni := uni, segs := segs } rs wide

end Sys2Proof.Machine
end

