-- ==== Sys2Proof/Machine/Fetch.lean ====
section
/-! DEFINITION. Fetching a bundle's packet, advancing it past a word, and completing a packet (R14, R30, R169, R174). -/

namespace Sys2Proof.Machine

/-- The header of the launch that a bundle's first group belongs to. -/
def bundleHdr (s : State) (k : Nat) (b : Bundle) : Option (Group × Hdr) :=
  match b.parts with
  | [] => none
  | p :: _ => (groupAt (coreAt s k) p.slot).map fun g => (g, hdrOf s g.lseq)

/-- One word of a packet through the core's translation cache: its value, or none on a miss (R226, access kind 3). A control core reads its SRAM (R421). -/
def fetchWord (s : State) (k : Nat) (c : Core) (h : Hdr) (va : Nat) : Option Nat :=
  if isControl k then sramWord s (dieOf k) va else (tlbHit s c h.ptroot va 3).map fun t => pieceRead s (leafPiece s t.leaf (t.pa va) 4)

/-- Memory as the fetch of a packet sees it: a store that has begun to be performed is seen whole, so that each packet is old or new (R87). -/
def codeView (s : State) : State :=
  (s.cores.flatMap fun c => c.2.writes.filter fun w => w.begun && !w.held && w.rmw.isNone).foldl (fun a w => piecesWrite a w.pieces w.data) s

/-- A translation asked for by a fetch. -/
def fetchWalk (g : Group) (h : Hdr) (pc : Word) (slot va : Nat) : Walk :=
  { num := 0, since := 0, own := g.uid, root := h.ptroot, va := va, ea := va, pc := pc, access := 3, slot := slot, thr := none, lseq := g.lseq, fid := none,
    fatal := false, spec := false, failed := false }

/-- Results that trap every thread of a bundle. -/
def trapAll (b : Bundle) (t : Trap) : List Res := b.parts.map fun p => ⟨p.slot, none, [], [], some t, false⟩

/-- The three words of a bundle's packet: fetched, missing at an address, or answered as fatal at one. -/
inductive Fetch where
  | pkt (p : Pkt)
  | miss (va : Nat)
  | fatal (va : Nat)
deriving DecidableEq, Repr

/-- The first address of a packet that has no translation, or its words. -/
def fetchPacket (s : State) (k : Nat) (g : Group) (h : Hdr) (pc : Nat) : Fetch :=
  let c := coreAt s k
  let va := packetVa h pc
  let bad := fun a => if isControl k || c.walks.any (fun w => w.own == g.uid && w.access == 3 && w.fatal && w.va == a) then Fetch.fatal a else .miss a
  let m := codeView s
  match fetchWord m k c h va, fetchWord m k c h (va + 4), fetchWord m k c h (va + 8) with
  | some a, some b, some d => .pkt ⟨a, b, d⟩
  | none, _, _ => bad va
  | _, none, _ => bad (va + 4)
  | _, _, none => bad (va + 8)

/-- The packet that a fetch of a launch finds where its bytes are now p: one that the launch has not fetched before, or that has not changed, as it stands, and otherwise an old one or the new one, by a free choice (R87; log entry 52). The packets found are noted. -/
def foundPacket (s : State) (k lseq va : Nat) (p : Pkt) : Pkt × State :=
  match (launchAt s lseq).map fun l => (tfind l.code va).getD [] with
  | none => (p, s)
  | some old =>
    if isControl k || old == [p] then (p, s)
    else
      let all := if old.contains p then old else p :: old
      let s1 := modLaunch s lseq fun l => { l with code := tput l.code va all }
      if all.length ≤ 1 then (p, s1) else (lget p all (Config.fetchChoice s.draws % all.length), { s1 with draws := s1.draws + 1 })

/-- The lines of a packet that a core fetches brought in (R216). -/
def fetchLines (s : State) (k : Nat) (h : Hdr) (pc : Nat) : State :=
  if isControl k then s
  else bringLines s false ((List.range 3).filterMap fun j =>
    let va := packetVa h pc + 4 * j
    (tlbHit s (coreAt s k) h.ptroot va 3).map fun t => leafPiece s t.leaf (t.pa va) 4)

/-- Whether a bundle stands at the first packet of its launch, before any word of it (R345, R429). -/
def atEntry (h : Hdr) (b : Bundle) : Bool := b.pos == 0 && b.pc.toNat == h.entry && b.start == b.pc

/-- The first packet of a launch noted (R354). -/
def noteStart (s : State) (lseq : Nat) : State :=
  match launchAt s lseq with
  | some l => if l.tstart.isNone then modLaunch s lseq fun x => { x with tstart := some s.now } else s
  | none => s

/-- A bundle with its packet fetched, or held at a miss, or trapped (R226, R345, R429). A fetch's miss is no place of R178, so the selector stays with the bundle until its packet has come. -/
def fetch (s : State) (k bid : Nat) (b : Bundle) : State :=
  match bundleHdr s k b with
  | none => s
  | some (g, h) =>
    match fetchPacket s k g h b.pc.toNat with
    | .pkt now =>
      let (p, s0) := foundPacket s k g.lseq (packetVa h b.pc.toNat) now
      let nb := { b with pkt := some p, pinned := false, tried := false }
      let s1 := noteStart (modCore (fetchLines s0 k h b.pc.toNat) k fun c => setBundle c bid nb) g.lseq
      match atEntry h b, g.argFailed with
      | true, some va => commit (modCore s1 k fun c => modGroup c ((b.parts.headD ⟨0, 0⟩).slot) fun x => { x with argFailed := none }) k bid nb
          (trapAll b ⟨cPROT, 0, va, 0⟩) false
      | true, none => if isBlockStart s1 k h b.pc.toNat then s1 else commit s1 k bid nb (trapAll b ⟨cILLEGAL, 0, 0, 0⟩) false
      | false, _ => s1
    | .miss va => doAsk k g.uid 0 bid (holdStep s k bid b .walk false true) (.walk (fetchWalk g h b.pc ((b.parts.headD ⟨0, 0⟩).slot) va))
    | .fatal va =>
      let s1 := modCore s k fun c => { c with walks := c.walks.filter fun w => !(w.own == g.uid && w.access == 3) }
      commit s1 k bid b (trapAll b ⟨cPROT, 0, BitVec.ofNat 64 va, 0⟩) false

/-- The words of a bundle's packet from its position on. -/
def wordsFrom (b : Bundle) : List Nat := match b.pkt with
  | some p => p.words.drop b.pos
  | none => []

/-- The instruction at a bundle's position and the words it takes. -/
def decodeBundle (b : Bundle) : Option (Instr × Nat) := decodeAt b.pos (wordsFrom b)

/-- One thread that completes a packet in a sealed block, with the step at a word: it joins the frontier at its next PC (R14, R169). -/
def leaveThread (k slot : Nat) (sub : Option Nat) (pc : Word) (pos : Nat) (s : State) (i : Nat) : State :=
  match groupAt (coreAt s k) slot with
  | none => s
  | some g =>
    let (q, loops) := nextPc (threadAt g i) pc
    joinAt (modCore s k fun c => setGroup c slot (modThread g i fun t => { t with xfer := none, loops := loops })) k slot sub q (oneBit i) pc pos

/-- A packet completed: a sealed one ends the bundle, and any other is followed by the next packet of the block (R14, R31, R169, R173). -/
def completePacket (s : State) (k bid : Nat) (b : Bundle) : State :=
  let sealed : Bool := match b.pkt with
    | some p => p.w2 / 2 ^ 31 == 1
    | none => true
  if sealed then
    let s1 := modCore s k fun c => tidyRun (delBundle c bid)
    b.parts.foldl (fun a p => (members p.mask).foldl (leaveThread k p.slot b.sub b.pc b.stepPos) a) s1
  else modCore s k fun c => setBundle c bid { b with pc := b.pc + 1, pos := 0, stepPos := 0, pkt := none, issued := false, flow := false }

/-- Whether the chain goes on after n words from a position (R31). -/
def chained (b : Bundle) (n : Nat) : Bool := chainBit (b.pos + n - 1) (lget 0 (wordsFrom b) (n - 1))

/-- A bundle moved past n words that have issued; its packet goes on in the same cycle (R174), but after an arrival that has completed its phase (R279), or where the selector has to choose anew (R178). -/
def advance (s : State) (k bid n : Nat) : State :=
  match bundleAt (coreAt s k) bid with
  | none => s
  | some b =>
    if !b.issued || b.wait.isSome then s
    else
      let p := if b.kept then (b.pkt.map fun x => afterStep x b.stepPos).getD 3 else b.pos + n
      let on := !b.fresh && !b.yield
      if chained b n && !b.kept then modCore s k fun c => setBundle c bid { b with pos := p, issued := false, flow := !b.yield }
      else if p < 3 then modCore s k fun c => setBundle c bid { b with pos := p, stepPos := p, issued := false, kept := false, fresh := false, flow := on }
      else completePacket s k bid { b with kept := false, fresh := false }

end Sys2Proof.Machine
end

