-- ==== Sys2Proof/Machine/Operands.lean ====
section
/-! DEFINITION. Words that compute results from their operands: in each present thread with U = 0, and once for the group with U = 1 (R16, R17, R39, R111 to R113). -/

namespace Sys2Proof.Machine

/-- The registers of a result of n registers, low first (R99). -/
def regWords (n v : Nat) : List Word := (List.range n).map fun j => BitVec.ofNat 32 (v / 2 ^ (32 * j))

/-- A result written to consecutive v registers from d, unless N is 1, and pushed onto the ring of its pipe, low half first (R39, R113). -/
def putV (sh : Shape) (v : Nat) (pen : Bool) : List Eff :=
  match sh.dsts with
  | [] => []
  | (d, n) :: _ =>
    (if sh.n then [] else imap (fun j w => Eff.wv (d + j) w pen) 0 (regWords n v)) ++ (regWords n v).map fun w => Eff.push sh.pipe w pen

/-- A result written to consecutive s registers from d; nothing is pushed (R38). -/
def putSs (sh : Shape) (v : Nat) (pen : Bool) : List Eff :=
  match sh.dsts with
  | [] => []
  | (d, n) :: _ => imap (fun j w => Eff.ws (d + j) w pen) 0 (regWords n v)

/-- The sticky flags of a result; raising none leaves FLG and FPEN as they are (R146). -/
def putFlags (fl : BitVec 5) (pen : Bool) : List Eff := if fl = 0 then [] else [.flags fl pen]

/-- The effects of one result in a group: in one thread, with U = 0. -/
def calcThread (sh : Shape) (f : List Nat → Nat × BitVec 5) (v : View) (i : Nat) (t : Thread) : TPlan :=
  let xs := sh.srcs.map (readSrc v.g i t sh.lit sh.pipe)
  let r := f (xs.map (·.val))
  let pen := xs.any (·.pen)
  .go (putFlags r.2 pen ++ putV sh r.1 pen) []

/-- The effects of one result in a group: once, with U = 1; its flags go to every present thread (R146). -/
def calcGroup (sh : Shape) (f : List Nat → Nat × BitVec 5) (v : View) : Plan :=
  let xs := sh.srcs.map (readSrcU v.g sh.lit)
  let r := f (xs.map (·.val))
  let pen := xs.any (·.pen)
  .go (⟨v.slot, none, putSs sh r.1 pen, [], none, false⟩ ::
    (v.present.map fun i => ⟨v.slot, some i, putFlags r.2 pen, [], none, false⟩))

/-- A word that computes its result, and its flags, from its sources. -/
def compute (sh : Shape) (f : List Nat → Nat × BitVec 5) (v : View) : Plan :=
  if sh.u then calcGroup sh f v else eachThread sh (calcThread sh f) v

/-- A word that issues with a plan. -/
def run (i : Instr) (plan : Shape → View → Plan) (s : State) : Host.Outcome State Fault Refusal :=
  .next (issue (shapeOn s.cur.1 i) (plan (shapeOn s.cur.1 i)) s)

/-- A word that computes one result. -/
def runCalc (i : Instr) (f : List Nat → Nat × BitVec 5) (s : State) : Host.Outcome State Fault Refusal :=
  run i (fun sh => compute sh f) s

/-- A result of one 32-bit operand, without flags. -/
def one32 (f : Word → Word) : List Nat → Nat × BitVec 5
  | [a] => ((f (BitVec.ofNat 32 a)).toNat, 0)
  | _ => (0, 0)
/-- A result of two 32-bit operands, without flags. -/
def two32 (f : Word → Word → Word) : List Nat → Nat × BitVec 5
  | [a, b] => ((f (BitVec.ofNat 32 a) (BitVec.ofNat 32 b)).toNat, 0)
  | _ => (0, 0)
/-- A result of two 32-bit operands and the old d, without flags. -/
def three32 (f : Word → Word → Word → Word) : List Nat → Nat × BitVec 5
  | [a, b, d] => ((f (BitVec.ofNat 32 a) (BitVec.ofNat 32 b) (BitVec.ofNat 32 d)).toNat, 0)
  | _ => (0, 0)
/-- A result of two pairs. -/
def two64 (f : Dword → Dword → Dword) : List Nat → Nat × BitVec 5
  | [a, b] => ((f (BitVec.ofNat 64 a) (BitVec.ofNat 64 b)).toNat, 0)
  | _ => (0, 0)
/-- A pair from a pair and a 32-bit operand. -/
def pairWith (f : Dword → Word → Dword) : List Nat → Nat × BitVec 5
  | [a, b] => ((f (BitVec.ofNat 64 a) (BitVec.ofNat 32 b)).toNat, 0)
  | _ => (0, 0)
/-- A pair from two 32-bit operands. -/
def wide32 (f : Word → Word → Dword) : List Nat → Nat × BitVec 5
  | [a, b] => ((f (BitVec.ofNat 32 a) (BitVec.ofNat 32 b)).toNat, 0)
  | _ => (0, 0)

/-- A compare in one thread: the predicate takes the condition and the OR of the sources' penumbra bits (R120, R156). -/
def compareThread (sh : Shape) (p : Nat) (f : List Nat → Bool × BitVec 5) (v : View) (i : Nat) (t : Thread) : TPlan :=
  let xs := sh.srcs.map (readSrc v.g i t sh.lit sh.pipe)
  let r := f (xs.map (·.val))
  let pen := xs.any (·.pen)
  .go (putFlags r.2 pen ++ [.wp p r.1 pen]) []

/-- A compare. -/
def runCompare (i : Instr) (p : BitVec 3) (f : List Nat → Bool × BitVec 5) (s : State) : Host.Outcome State Fault Refusal :=
  run i (fun sh => eachThread sh (compareThread sh p.toNat f)) s

end Sys2Proof.Machine
end

