-- ==== Sys2Proof/Machine/Special.lean ====
section
/-! DEFINITION. The f32 special functions of major 14 (R154). Each approximated result is a free value within the function's bound; exact cases and special inputs are fixed (log entry 7). Real values are held as integers in units of 2^−128. -/

namespace Sys2Proof.Machine

/-- Floor of the square root, by bits from bit k down. -/
def isqrtFrom : Nat → Nat → Nat → Nat
  | 0, n, r => if (r + 1) * (r + 1) ≤ n then r + 1 else r
  | k + 1, n, r => let t := r + 2 ^ (k + 1); isqrtFrom k n (if t * t ≤ n then t else r)

/-- Floor of the square root of n. -/
def isqrt (n : Nat) : Nat := isqrtFrom (Nat.log2 n / 2 + 1) n 0

/-- ln 2 in units of 2^−128. -/
def ln2Fix : Nat := 235865763225513294137944142764154484399
/-- 2π in units of 2^−320. -/
def twoPiFix : Nat := 13420802360424337830311681948440006481608388178854297901454212848703426437343610760199000777828079

/-- e^y for y in units of 2^−128, by its series; t is the term of power k. -/
def expSeries : Nat → Nat → Nat → Nat → Nat
  | 0, _, _, _ => 0
  | n + 1, k, t, y => t + expSeries n (k + 1) (t * y / 2 ^ 128 / (k + 1)) y

/-- The alternating sine (k0 = 1) or cosine (k0 = 0) series for y in units of 2^−128; t is the term of power k. -/
def trigSeries : Nat → Nat → Nat → Nat → Int
  | 0, _, _, _ => 0
  | n + 1, k, t, y => (t : Int) - trigSeries n (k + 2) (t * y / 2 ^ 128 * y / 2 ^ 128 / ((k + 1) * (k + 2))) y

/-- The series of atanh: Σ t^(2k+1) / (2k+1) for t in units of 2^−128; p is the power t^(2k+1). -/
def atanhSeries : Nat → Nat → Nat → Nat → Nat
  | 0, _, _, _ => 0
  | n + 1, k, p, t => p / (2 * k + 1) + atanhSeries n (k + 1) (p * t / 2 ^ 128 * t / 2 ^ 128) t

/-- An integer in units of 2^−128 as an exact value. -/
def fixF (x : Int) : FVal := .fin (x < 0) x.natAbs (-128)

/-- The exponent of the f32 spacing at a value (R154). -/
def ulpExp (x : FVal) : Int :=
  match x with
  | .fin _ m e => if m == 0 then -149 else max ((Nat.log2 m : Int) + e - 23) (-149)
  | _ => -149

/-- An f32 encoding as a value for a bound check, an infinity standing for 2^128. -/
def boundVal (y : Nat) : FVal :=
  match decodeF f32 y with
  | .inf n => .fin n 1 128
  | v => v

/-- Whether encoding y lies within a × 2^b of x; strict excludes the bound itself. -/
def withinBound (x : FVal) (y : Nat) (a : Nat) (b : Int) (strict : Bool) : Bool :=
  match boundVal y with
  | .nan _ => false
  | v =>
    match (sumF [v, x.negate]).magnitude with
    | .fin _ m e => if strict then !leScaled a b m e else leScaled m e a b
    | _ => false

/-- The candidate that the part may give, where it lies within the bound, and otherwise the exact value rounded to nearest. -/
def freeWithin (fn : Nat) (a : Word) (x : FVal) (n : Nat) (b : Int) (strict : Bool) : Nat :=
  let y := Config.approx fn a % 2 ^ 32
  if withinBound x y n b strict then y else (encRn f32 x).1

/-- frcp.f32 (R154). The reciprocal of a subnormal below 2^−128 lies beyond every finite f32: no result is stated for it, and the model gives the signed infinity to which it rounds, without flags (log entry 7). -/
def frcpF (a : Word) : Nat × BitVec 5 :=
  match decodeF f32 a.toNat with
  | .nan s => (f32.canon, if s then flNV else 0)
  | .inf n => (signBit f32 n, 0)
  | .fin n m e =>
    if m == 0 then (signBit f32 n + 0x7F800000, flDZ)
    else if m == 2 ^ Nat.log2 m then
      let x : FVal := .fin n 1 (-(Nat.log2 m : Int) - e)
      let r := encRn f32 x
      if r.2 == 0 then (r.1, 0) else (freeWithin 0 a x 1 (ulpExp x) true, 0)
    else
      let x : FVal := .fin n (2 ^ 160 / m) (-160 - e)
      (freeWithin 0 a x 1 (ulpExp x) true, 0)

/-- m × 2^e as an even power: the significand and half the exponent. -/
def evenExp (m : Nat) (e : Int) : Nat × Int :=
  if e % 2 = 0 then (m, e / 2) else (2 * m, (e - 1) / 2)

/-- frsq.f32 (R154). -/
def frsqF (a : Word) : Nat × BitVec 5 :=
  match decodeF f32 a.toNat with
  | .nan s => (f32.canon, if s then flNV else 0)
  | .inf n => if n then (f32.canon, flNV) else (0, 0)
  | .fin n m e =>
    if m == 0 then (signBit f32 n + 0x7F800000, flDZ)
    else if n then (f32.canon, flNV)
    else
      let (m', h) := evenExp m e
      let r := isqrt (2 ^ 320 / m')
      let x : FVal := .fin false r (-160 - h)
      if m' == 2 ^ Nat.log2 m' && Nat.log2 m' % 2 == 0 then
        ((encRn f32 (.fin false 1 (-(Nat.log2 m' / 2 : Nat) - h))).1, 0)
      else (freeWithin 1 a x 2 (ulpExp x) false, 0)

/-- fsqrt.f32: correctly rounded, with every flag (R154). -/
def fsqrtF (a : Word) : Nat × BitVec 5 :=
  match decodeF f32 a.toNat with
  | .nan s => (f32.canon, if s then flNV else 0)
  | .inf n => if n then (f32.canon, flNV) else (0x7F800000, 0)
  | .fin n m e =>
    if m == 0 then (signBit f32 n, 0)
    else if n then (f32.canon, flNV)
    else
      let (m', h) := evenExp m e
      let w := m' * 2 ^ 80
      let r := isqrt w
      encRn f32 (.fin false (if r * r == w then 2 * r else 2 * r + 1) (h - 41))

/-- e^y for 0 ≤ y < 64 in units of 2^−128. -/
def expFix (y : Nat) : Nat :=
  let sq := fun v => v * v / 2 ^ 128
  sq (sq (sq (sq (sq (sq (expSeries 40 0 (2 ^ 128) (y / 64)))))))

/-- fexp2.f32 (R154). The power of a fraction lies strictly between 1 and 2, however small the fraction. -/
def fexp2F (a : Word) : Nat × BitVec 5 :=
  match decodeF f32 a.toNat with
  | .nan s => (f32.canon, if s then flNV else 0)
  | .inf n => (if n then 0 else 0x7F800000, 0)
  | .fin n m e =>
    let x : FVal := .fin n m e
    if !ltF x (.fin false 128 0) then (0x7F800000, 0)
    else if !ltF (.fin true 150 0) x then (0, 0)
    else
      let (i, nx) := roundInt n m e .rd
      if !nx then ((encRn f32 (.fin false 1 i)).1, 0)
      else
        let mag : Nat := if e ≥ -128 then m * 2 ^ (e + 128).toNat else m / 2 ^ (-128 - e).toNat
        let fx : Int := if n then -(mag : Int) - (if e ≥ -128 then 0 else 1) else (mag : Int)
        let frac := (fx - i * 2 ^ 128).toNat
        let t : FVal := .fin false (max (2 ^ 128 + 1) (min (2 ^ 129 - 1) (expSeries 40 0 (2 ^ 128) (frac * ln2Fix / 2 ^ 128)))) (i - 128)
        (freeWithin 3 a t 2 (ulpExp t) false, 0)

/-- flog2.f32 (R154). -/
def flog2F (a : Word) : Nat × BitVec 5 :=
  match decodeF f32 a.toNat with
  | .nan s => (f32.canon, if s then flNV else 0)
  | .inf n => if n then (f32.canon, flNV) else (0x7F800000, 0)
  | .fin n m e =>
    if m == 0 then (0xFF800000, flDZ)
    else if n then (f32.canon, flNV)
    else
      let k := Nat.log2 m
      if m == 2 ^ k then ((encRn f32 (ofIntF ((k : Int) + e))).1, 0)
      else
        let t := (m - 2 ^ k) * 2 ^ 128 / (m + 2 ^ k)
        let l : Nat := 2 * atanhSeries 45 0 t t * 2 ^ 128 / ln2Fix
        let x := fixF (((k : Int) + e) * 2 ^ 128 + (l : Int))
        let v : FVal := .fin false m e
        let near := !ltF v (.fin false 1 (-1)) && !ltF (.fin false 1 1) v
        (if near then freeWithin 4 a x 1 (-22) false else freeWithin 4 a x 2 (ulpExp x) false, 0)

/-- A finite magnitude reduced modulo 2π, in units of 2^−128 (R154). -/
def reduce2Pi (m : Nat) (e : Int) : Nat :=
  m * 2 ^ (e + 320).toNat % twoPiFix / 2 ^ 192

/-- The sine of a reduced argument in units of 2^−128. One below 2^−128 is held as 2^−128: its sine is not 0. Where the cubic term lies below the unit, the sine is held half a unit below its argument: it is less than it. -/
def sineVal (y : Nat) : FVal :=
  if y = 0 then fixF 1
  else
    let x := trigSeries 40 1 y y
    if x = (y : Int) then .fin false (2 * y - 1) (-129) else fixF x

/-- fsin.f32: odd bit for bit (R154). -/
def fsinF (a : Word) : Nat × BitVec 5 :=
  match decodeF f32 a.toNat with
  | .nan s => (f32.canon, if s then flNV else 0)
  | .inf _ => (f32.canon, flNV)
  | .fin n m e =>
    if m == 0 then (signBit f32 n, 0)
    else
      let r := freeWithin 5 (a &&& 0x7FFFFFFF) (sineVal (reduce2Pi m e)) 1 (-21) false
      (if n then (r + 2 ^ 31) % 2 ^ 32 else r, 0)

/-- fcos.f32: even bit for bit (R154). The cosine of a nonzero value is less than 1. -/
def fcosF (a : Word) : Nat × BitVec 5 :=
  match decodeF f32 a.toNat with
  | .nan s => (f32.canon, if s then flNV else 0)
  | .inf _ => (f32.canon, flNV)
  | .fin _ m e =>
    if m == 0 then (0x3F800000, 0)
    else
      let x := fixF (min (2 ^ 128 - 1) (trigSeries 40 0 (2 ^ 128) (reduce2Pi m e)))
      (freeWithin 6 (a &&& 0x7FFFFFFF) x 1 (-21) false, 0)

/-- ftanh.f32: odd bit for bit, at most 1 in magnitude (R154). The result for a positive value is positive. -/
def ftanhF (a : Word) : Nat × BitVec 5 :=
  match decodeF f32 a.toNat with
  | .nan s => (f32.canon, if s then flNV else 0)
  | .inf n => (signBit f32 n + 0x3F800000, 0)
  | .fin n m e =>
    if m == 0 then (signBit f32 n, 0)
    else
      let big := !ltF (.fin false m e) (.fin false 20 0)
      let y := if e + 129 ≥ 0 then m * 2 ^ (e + 129).toNat else m / 2 ^ (-129 - e).toNat
      let t := if big then (2 ^ 128 - 1 : Nat) else
        let g := expFix y
        max 1 ((g - 2 ^ 128) * 2 ^ 128 / (g + 2 ^ 128))
      let r := freeWithin 7 (a &&& 0x7FFFFFFF) (fixF t) 1 (-21) false
      let r := if leScaled (r % 2 ^ 31) 0 0x3F800000 0 then r else r / 2 ^ 31 * 2 ^ 31 + 0x3F800000
      (if n then (r + 2 ^ 31) % 2 ^ 32 else r, 0)

end Sys2Proof.Machine
end

