-- ==== Sys2Proof/Machine/Flags.lean ====
section
/-! DEFINITION. Results with their sticky flags (R145 to R162): one rounding to nearest even, packed elements, compares, conversions and dot products. -/

namespace Sys2Proof.Machine

/-- An f32 result of one operand. -/
def oneF (f : FVal → FVal) : List Nat → Nat × BitVec 5
  | [a] => encRn f32 (f (decodeF f32 a))
  | _ => (0, 0)
/-- An f32 result of two operands, rounded once (R149). -/
def twoF (f : FVal → FVal → FVal) : List Nat → Nat × BitVec 5
  | [a, b] => encRn f32 (f (decodeF f32 a) (decodeF f32 b))
  | _ => (0, 0)
/-- x × y + z with one rounding (R151). -/
def fmaF (f : Fmt) (a b z : Nat) : Nat × BitVec 5 := encRn f (sumF [mulF (decodeF f a) (decodeF f b), decodeF f z])
/-- The f32 fused multiply-add; the third source is d or a latch (R151). -/
def threeF : List Nat → Nat × BitVec 5
  | [a, b, z] => fmaF f32 a b z
  | _ => (0, 0)
/-- A result that moves bits only; a NaN operand gives the canonical NaN without a flag (R149). -/
def moveF (f : Nat → Nat) : List Nat → Nat × BitVec 5
  | [a] => (if (decodeF f32 a).isNan then f32.canon else f a, 0)
  | _ => (0, 0)
/-- The smaller or larger of two encodings (R150). -/
def pickF (f : Fmt) (wantMax : Bool) : List Nat → Nat × BitVec 5
  | [a, b] => minMaxF f wantMax a b
  | _ => (0, 0)
/-- A special function of one f32 operand (R154). -/
def special (f : Word → Nat × BitVec 5) : List Nat → Nat × BitVec 5
  | [a] => f (BitVec.ofNat 32 a)
  | _ => (0, 0)

/-- Element k of n bits (R98). -/
def elem (n x k : Nat) : Nat := x / 2 ^ (n * k) % 2 ^ n
/-- Elements of n bits packed with their flags ORed (R146, R158). -/
def packElems (n : Nat) (xs : List (Nat × BitVec 5)) : Nat × BitVec 5 :=
  ((imap (fun k (x : Nat × BitVec 5) => x.1 % 2 ^ n * 2 ^ (n * k)) 0 xs).sum, xs.foldl (fun a x => a ||| x.2) 0)

/-- An operation on each of the two 16-bit elements of two registers (R153). -/
def twoX2 (f : Nat → Nat → Nat × BitVec 5) : List Nat → Nat × BitVec 5
  | [a, b] => packElems 16 [f (elem 16 a 0) (elem 16 b 0), f (elem 16 a 1) (elem 16 b 1)]
  | _ => (0, 0)
/-- The fused multiply-add on each of two elements (R152). -/
def threeX2 (f : Fmt) : List Nat → Nat × BitVec 5
  | [a, b, d] => packElems 16 [fmaF f (elem 16 a 0) (elem 16 b 0) (elem 16 d 0), fmaF f (elem 16 a 1) (elem 16 b 1) (elem 16 d 1)]
  | _ => (0, 0)
/-- The sum and the product of two encodings of a format. -/
def addEnc (f : Fmt) (a b : Nat) : Nat × BitVec 5 := encRn f (addF (decodeF f a) (decodeF f b))
def mulEnc (f : Fmt) (a b : Nat) : Nat × BitVec 5 := encRn f (mulF (decodeF f a) (decodeF f b))

/-- frnd (R155): an integral value, the sign of x kept. -/
def rndF (mode : Mode) : List Nat → Nat × BitVec 5
  | [a] => match decodeF f32 a with
    | .nan sig => (f32.canon, if sig then flNV else 0)
    | .inf n => (signBit f32 n + 0x7F800000, 0)
    | .fin n m e => let (q, _) := roundAt mode n m e 0; ((encRn f32 (.fin n q 0)).1, 0)
  | _ => (0, 0)
/-- ffract (R155). -/
def fractF : List Nat → Nat × BitVec 5
  | [a] => match decodeF f32 a with
    | .nan sig => (f32.canon, if sig then flNV else 0)
    | .inf _ => (f32.canon, flNV)
    | .fin n m e =>
      let x : FVal := .fin n m e
      let fl := (roundInt n m e .rd).1
      let y := addF x (ofIntF (-fl))
      let r := min (encRn f32 y).1 0x3F7FFFFF
      if y.isZero then (0, 0) else (r, if eqF (decodeF f32 r) y then 0 else flNX)
  | _ => (0, 0)
/-- fsat (R155). -/
def satF : List Nat → Nat × BitVec 5
  | [a] => match decodeF f32 a with
    | .nan sig => (0, if sig then flNV else 0)
    | .inf n => (if n then 0 else 0x3F800000, 0)
    | .fin n m e => if n || m == 0 then (0, 0) else if ltF (.fin false 1 0) (.fin n m e) then (0x3F800000, 0) else (a, 0)
  | _ => (0, 0)
/-- fclass (R155). -/
def classF : List Nat → Nat × BitVec 5
  | [a] => (match decodeF f32 a with
    | .nan sig => if sig then 2 ^ 8 else 2 ^ 9
    | .inf n => if n then 1 else 2 ^ 7
    | .fin n m _ =>
      if m == 0 then (if n then 2 ^ 3 else 2 ^ 4)
      else if a / 2 ^ 23 % 256 == 0 then (if n then 2 ^ 2 else 2 ^ 5)
      else if n then 2 ^ 1 else 2 ^ 6, 0)
  | _ => (0, 0)
/-- fexpo (R155). -/
def expoF : List Nat → Nat × BitVec 5
  | [a] => (match decodeF f32 a with
    | .nan _ => 0x7FFFFFFF
    | .inf _ => 0x7FFFFFFF
    | .fin _ m e => if m == 0 then 0x80000000 else (BitVec.ofInt 32 ((Nat.log2 m : Int) + e)).toNat, 0)
  | _ => (0, 0)

/-- The truth of a float compare (R156): 7 is or. -/
def floatCond (k : BitVec 3) (x y : FVal) : Bool :=
  let un := x.isNan || y.isNan
  match k.toNat with
  | 0 => !un && eqF x y
  | 1 => un || !eqF x y
  | 2 => !un && ltF x y
  | 3 => !un && !ltF y x
  | 4 => !un && ltF y x
  | 5 => !un && !ltF x y
  | 6 => un
  | _ => !un
/-- A float compare with its NV (R156). -/
def floatCompare (f : Fmt) (k : BitVec 3) : List Nat → Bool × BitVec 5
  | [a, b] =>
    let x := decodeF f (a % 2 ^ f.width)
    let y := decodeF f (b % 2 ^ f.width)
    let ordering := decide (2 ≤ k.toNat) && decide (k.toNat ≤ 5)
    (floatCond k x y, if x.isSig || y.isSig || (ordering && (x.isNan || y.isNan)) then flNV else 0)
  | _ => (false, 0)

/-- The source of a conversion code: a float format, or an integer type by width and sign (R48). -/
def cvtSrc : Nat → Option Fmt
  | 0x00 => some bf16
  | 0x01 => some f16
  | 0x04 => some f16
  | 0x05 => some bf16
  | 0x0C => some e4m3
  | 0x0D => some e5m2
  | 0x0E => some e3m2
  | 0x0F => some e2m3
  | 0x10 => some e2m1
  | _ => some f32
/-- The float format that a code converts to, where it does (R48). -/
def cvtDst : Nat → Option Fmt
  | 0x02 => some bf16
  | 0x03 => some f16
  | 0x04 => some bf16
  | 0x05 => some f16
  | 0x11 => some e4m3
  | 0x12 => some e5m2
  | 0x13 => some e3m2
  | 0x14 => some e2m3
  | 0x15 => some e2m1
  | _ => some f32
/-- The exact value of a conversion's source (R96). -/
def cvtVal (b a : Nat) : FVal :=
  match b with
  | 0x06 => ofIntF (BitVec.ofNat 32 a).toInt
  | 0x07 => ofIntF a
  | 0x0A => ofIntF (BitVec.ofNat 64 a).toInt
  | 0x16 => match scaleExp (a % 256) with
    | some k => .fin false 1 k
    | none => .nan false
  | _ => match cvtSrc b with
    | some f => decodeF f (a % 2 ^ f.width)
    | none => .nan false
/-- The conversion that a code selects (R48, R95 to R97, R157). -/
def convert (b : Nat) (mode : Mode) (sat : Bool) : List Nat → Nat × BitVec 5
  | [a] =>
    let x := cvtVal b a
    match b with
    | 0x08 => let r := cvtInt true 32 x mode; ((BitVec.ofInt 32 r.1).toNat, r.2)
    | 0x09 => let r := cvtInt false 32 x mode; ((BitVec.ofInt 32 r.1).toNat, r.2)
    | 0x0B => let r := cvtInt true 64 x mode; ((BitVec.ofInt 64 r.1).toNat, r.2)
    | 0x17 => cvtE8m0 x mode sat
    | _ => match cvtDst b with
      | some f => encodeF f x mode sat
      | none => (0, 0)
  | _ => (0, 0)

/-- Four f32 values of two pairs packed in an 8-bit format, saturating (R158). -/
def pack4 (f : Fmt) : List Nat → Nat × BitVec 5
  | [a, b] => packElems 8 ([elem 32 a 0, elem 32 a 1, elem 32 b 0, elem 32 b 1].map fun x => encodeF f (decodeF f32 x) .rn true)
  | _ => (0, 0)
/-- Two f32 values packed in a 16-bit format (R158). -/
def pack2 (f : Fmt) : List Nat → Nat × BitVec 5
  | [a, b] => packElems 16 ([a, b].map fun x => encRn f (decodeF f32 x))
  | _ => (0, 0)
/-- Eight e4m3 elements of two registers packed as e2m1 (R158). -/
def pack8 : List Nat → Nat × BitVec 5
  | [a, b] => packElems 4 (((List.range 4).map (elem 8 a) ++ (List.range 4).map (elem 8 b)).map fun x => encodeF e2m1 (decodeF e4m3 x) .rn true)
  | _ => (0, 0)
/-- mxq (R159): the scale in d[15:8] and the code in d[7:0]. -/
def quantise (f : Fmt) : List Nat → Nat × BitVec 5
  | [a, b] =>
    let v := decodeF f32 a
    let m := decodeF f32 b
    let x := mxScale f [m] 0 254
    if x == 0xFF || v.isNan || v.isInf then (x * 256, if v.isSig || m.isSig then flNV else 0)
    else let r := encodeF f (v.scale (127 - (x : Int))) .rn true; (x * 256 + r.1, r.2)
  | _ => (0, 0)
/-- An integer dot product of n signed elements of w bits with its accumulator (R160). -/
def dotI (w n : Nat) : List Nat → Nat × BitVec 5
  | [a, b, d] =>
    let sg := fun x k => (BitVec.ofNat w (elem w x k)).toInt
    ((BitVec.ofInt 32 ((BitVec.ofNat 32 d).toInt + ((List.range n).map fun k => sg a k * sg b k).sum)).toNat, 0)
  | _ => (0, 0)
/-- A float dot product of n elements, rounded once with its accumulator (R161). -/
def dotF (f : Fmt) (n : Nat) : List Nat → Nat × BitVec 5
  | [a, b, d] =>
    encRn f32 (sumF (decodeF f32 d :: (List.range n).map fun k => mulF (decodeF f (elem f.width a k)) (decodeF f (elem f.width b k))))
  | _ => (0, 0)
/-- fscale (R162). -/
def scaleF : List Nat → Nat × BitVec 5
  | [a, b] =>
    let x := decodeF f32 a
    match scaleExp (b % 256) with
    | some k => encRn f32 (x.scale k)
    | none => (f32.canon, if x.isSig then flNV else 0)
  | _ => (0, 0)

end Sys2Proof.Machine
end

