-- ==== Sys2Proof/Machine/GroupWords.lean ====
section
/-! DEFINITION. Group-wide words: exchanges, broadcast, ballot, match, election, reductions and scans (majors 19 and 20), votes and rejoin masks (major 24) (R193 to R203). -/

namespace Sys2Proof.Machine

/-- PP: the OR of CG over the present threads of the group (R194). -/
def presentPen (v : View) : Bool := v.present.any fun i => (threadAt v.g i).cg

/-- A result of one present thread: its value, penumbra bit and flags. -/
structure LaneResult where
  val : Nat
  pen : Bool
  fl : BitVec 5

/-- A group-wide word: the trap of its reads in every present thread, or a result in each present thread; with U = 1 the result of the highest present thread once, to S[d] (R194, R195). DESIGN CHOICE: sticky flags that a word raises have the penumbra bit of its result in every present thread; R146 speaks of the sources read in that thread, and R199 does not say which those are of a tree over the group (log entry 77). -/
def groupWide (sh : Shape) (reads : View → List (Nat × Src)) (f : View → Nat → LaneResult) (v : View) : Plan :=
  match readTrap sh v (reads v) with
  | some t => .go [⟨v.slot, none, [], [], some t, false⟩]
  | none =>
    let pp := presentPen v
    if sh.u then
      let r := f v (v.present.getLastD 0)
      .go (⟨v.slot, none, putSs sh r.val (r.pen || pp), [], none, false⟩ ::
        v.present.map fun i => ⟨v.slot, some i, putFlags r.fl (r.pen || pp), [], none, false⟩)
    else
      .go (v.present.map fun i =>
        let r := f v i
        ⟨v.slot, some i, putFlags r.fl (r.pen || pp) ++ putV sh r.val (r.pen || pp), [], none, false⟩)

/-- An exchange word: each thread's source index is a function of its own index and its b (R197). -/
def exchange (sh : Shape) (from' : Nat → Nat → Int) (v : View) : Plan :=
  let src := fun (v : View) t => supplier v t (from' t (readIn sh v t (srcBOf sh)).val)
  groupWide sh (exchangeReads from' sh)
    (fun v t =>
      let x := readIn sh v (src v t) (srcAOf sh)
      ⟨x.val, x.pen || (readIn sh v t (srcBOf sh)).pen, 0⟩) v

/-- xget (R197). -/
def execXget (o : OpF) (s : State) : Host.Outcome State Fault Refusal := run (.xget o) (fun sh => exchange sh getFrom) s
/-- xlow (R197). -/
def execXlow (o : OpF) (s : State) : Host.Outcome State Fault Refusal :=
  run (.xlow o) (fun sh => exchange sh lowFrom) s
/-- xhigh (R197). -/
def execXhigh (o : OpF) (s : State) : Host.Outcome State Fault Refusal :=
  run (.xhigh o) (fun sh => exchange sh highFrom) s
/-- xflip (R197). -/
def execXflip (o : OpF) (s : State) : Host.Outcome State Fault Refusal := run (.xflip o) (fun sh => exchange sh flipFrom) s

/-- gbcast (R197). -/
def execGbcast (o : OpA) (s : State) : Host.Outcome State Fault Refusal :=
  run (.gbcast o) (fun sh =>
    let low := fun (v : View) => v.present.headD 0
    groupWide sh (fun v => [(low v, srcBOf sh), (bcastFrom sh v, srcAOf sh)]) fun v _ =>
      let x := readIn sh v (bcastFrom sh v) (srcAOf sh)
      ⟨x.val, x.pen || (readIn sh v (low v) (srcBOf sh)).pen, 0⟩) s

/-- The OR of a predicate operand's penumbra bits over the present threads. -/
def predPen (v : View) (q : Nat) : Bool := v.present.any fun u => (preg (threadAt v.g u) q).pen

/-- pmask (R197). -/
def execPmask (o : OpPm) (s : State) : Host.Outcome State Fault Refusal :=
  run (.pmask o) (fun sh => groupWide sh (fun _ => []) fun v _ =>
    ⟨(maskOf (v.present.filter fun u => (predIn v o.j o.q.toNat u).val)).toNat, predPen v o.q.toNat, 0⟩) s
/-- eqset (R197). -/
def execEqset (o : OpF) (s : State) : Host.Outcome State Fault Refusal :=
  run (.eqset o) (fun sh =>
    let a := fun v u => readIn sh v u (srcAOf sh)
    groupWide sh (fun v => v.present.flatMap fun t => [(t, srcAOf sh), (t, srcBOf sh)]) fun v t =>
      let b := readIn sh v t (srcBOf sh)
      ⟨(maskOf (v.present.filter fun u => ((a v u).val ^^^ (a v t).val) &&& b.val == 0)).toNat, (v.present.any fun u => (a v u).pen) || b.pen, 0⟩) s
/-- gfirst (R197). -/
def execGfirst (o : OpGf) (s : State) : Host.Outcome State Fault Refusal :=
  run (.gfirst o) (fun sh => groupWide sh (fun _ => []) fun v t => ⟨bit (t == v.present.headD 0), false, 0⟩) s

/-- A reduction: f gives thread t's result from the contributors and their values (R198). -/
def reduce (o : OpGr) (f : Nat → List (Nat × Nat) → Nat × BitVec 5) (sh : Shape) (v : View) : Plan :=
  groupWide sh (reduceReads o sh) (fun v t =>
    let xs := (contributors v o).map fun u => (u, readIn sh v u (srcAOf sh))
    let r := f t (xs.map fun x => (x.1, x.2.val))
    ⟨r.1, (xs.any fun x => x.2.pen) || predPen v o.q.toNat, r.2⟩) v

/-- The values of contributors as signed numbers. -/
def signedOf (xs : List (Nat × Nat)) : List Int := xs.map fun x => (BitVec.ofNat 32 x.2).toInt
/-- gred.add.i32 (R198). -/
def execGredAddI32 (o : OpGr) (s : State) : Host.Outcome State Fault Refusal :=
  run (.gredAddI32 o) (reduce o fun _ xs => ((xs.map (·.2)).sum % 2 ^ 32, 0)) s
/-- gred.min.i32 (R198). -/
def execGredMinI32 (o : OpGr) (s : State) : Host.Outcome State Fault Refusal :=
  run (.gredMinI32 o) (reduce o fun _ xs => ((BitVec.ofInt 32 ((signedOf xs).foldl min 0x7FFFFFFF)).toNat, 0)) s
/-- gred.max.i32 (R198). -/
def execGredMaxI32 (o : OpGr) (s : State) : Host.Outcome State Fault Refusal :=
  run (.gredMaxI32 o) (reduce o fun _ xs => ((BitVec.ofInt 32 ((signedOf xs).foldl max (-0x80000000))).toNat, 0)) s
/-- gred.and.b32 (R198). -/
def execGredAndB32 (o : OpGr) (s : State) : Host.Outcome State Fault Refusal :=
  run (.gredAndB32 o) (reduce o fun _ xs => ((xs.map (·.2)).foldl (fun a x => a &&& x) 0xFFFFFFFF, 0)) s
/-- gred.or.b32 (R198). -/
def execGredOrB32 (o : OpGr) (s : State) : Host.Outcome State Fault Refusal :=
  run (.gredOrB32 o) (reduce o fun _ xs => ((xs.map (·.2)).foldl (fun a x => a ||| x) 0, 0)) s
/-- gscan.add.i32 (R198). -/
def execGscanAddI32 (o : OpGr) (s : State) : Host.Outcome State Fault Refusal :=
  run (.gscanAddI32 o) (reduce o fun t xs => (((xs.filter fun x => x.1 ≤ t).map (·.2)).sum % 2 ^ 32, 0)) s

/-- One level of the tree of f32 additions, with the flags so far (R199). -/
def treeLevel : List Nat → List Nat × BitVec 5
  | a :: b :: r => let x := addF32 a b; let (l, fl) := treeLevel r; (x.1 :: l, x.2 ||| fl)
  | l => (l, 0)
/-- FTree (R199): n levels. -/
def tree : Nat → List Nat → Nat × BitVec 5
  | 0, l => (l.headD 0, 0)
  | n + 1, l => let (m, fl) := treeLevel l; let (x, f2) := tree n m; (x, fl ||| f2)
/-- The tree over the 32 threads, −0 standing for a thread that does not contribute, or lies above a limit (R199). -/
def floatTree (limit : Nat) (xs : List (Nat × Nat)) : Nat × BitVec 5 :=
  tree 5 ((List.range 32).map fun u => if u ≤ limit then match lfind (fun (x : Nat × Nat) => x.1 == u) xs with
    | some x => x.2
    | none => 0x80000000 else 0x80000000)
/-- gred.add.f32 (R199). -/
def execGredAddF32 (o : OpGr) (s : State) : Host.Outcome State Fault Refusal := run (.gredAddF32 o) (reduce o fun _ xs => floatTree 31 xs) s
/-- gscan.add.f32 (R199); with U = 1 it writes the value of gred.add.f32. -/
def execGscanAddF32 (o : OpGr) (s : State) : Host.Outcome State Fault Refusal :=
  run (.gscanAddF32 o) (reduce o fun t xs => floatTree (if o.u then 31 else t) xs) s

/-- A vote (R200): f judges the source's values over the present threads. -/
def vote (o : OpVote) (f : List Bool → Bool) (_ : Shape) (v : View) : Plan :=
  let q := o.s.toNat % 8
  let xs := v.present.map fun u => (predIn v (o.s.getLsbD 3) q u).val
  .go (v.present.map fun i => ⟨v.slot, some i, [.wp o.p.toNat (f xs) (predPen v q || presentPen v)], [], none, false⟩)
/-- vany (R200). -/
def execVany (o : OpVote) (s : State) : Host.Outcome State Fault Refusal := run (.vany o) (vote o fun xs => xs.any fun x => x) s
/-- vall (R200). -/
def execVall (o : OpVote) (s : State) : Host.Outcome State Fault Refusal := run (.vall o) (vote o fun xs => xs.all fun x => x) s
/-- vsame (R200). -/
def execVsame (o : OpVote) (s : State) : Host.Outcome State Fault Refusal :=
  run (.vsame o) (vote o fun xs => (xs.all fun x => x) || xs.all fun x => !x) s

/-- jmark (R202). -/
def execJmark (o : OpJ) (s : State) : Host.Outcome State Fault Refusal :=
  run (.jmark o) (fun _ v => .go (v.present.map fun i => ⟨v.slot, some i, [.jmark o.j.toNat (oneBit i)], [], none, false⟩)) s
/-- jclr, and the release check (R202, R203). -/
def execJclr (o : OpJ) (s : State) : Host.Outcome State Fault Refusal :=
  run (.jclr o) (fun _ v => .go ((v.present.map fun i => ⟨v.slot, some i, [.jclr o.j.toNat (oneBit i)], [], none, false⟩) ++
    [⟨v.slot, none, [], [.joinCheck o.j.toNat], none, false⟩])) s

/-- A plan with a result for the group added, where it does not hold. -/
def Plan.also (p : Plan) (r : Res) : Plan := match p with
  | .go rs => .go (rs ++ [r])
  | x => x
/-- jwait (R203): each thread resolves its guesses and arrives; the bundle parks, and the release check follows. -/
def execJwait (o : OpJ) (s : State) : Host.Outcome State Fault Refusal :=
  run (.jwait o) (fun sh v => (eachThread sh (fun v i t => resolved v i t true (.go [.clearRpv, .jarrive o.j.toNat (oneBit i)] [])) v).also
    ⟨v.slot, none, [], [.park (.jwait o.j.toNat), .joinCheck o.j.toNat], none, false⟩) s

end Sys2Proof.Machine
end

