-- ==== Sys2Proof/Machine/System.lean ====
section
/-! DEFINITION. Scalar moves, system registers, identity, time, sticky flags and sleep: major 25 (R123 to R130, R146, R147, R373). -/

namespace Sys2Proof.Machine

/-- smov.rd (R123). -/
def execSmovRd (o : OpSm) (s : State) : Host.Outcome State Fault Refusal :=
  run (.smovRd o) (fun sh v =>
    let r := sreg v.g o.i.toNat
    if o.u then .go [⟨v.slot, none, [.ws o.x.toNat r.val r.pen], [], none, false⟩]
    else eachThread sh (fun _ _ _ => .go [.wv o.x.toNat r.val r.pen] []) v) s
/-- smov.wr (R124). -/
def execSmovWr (o : OpSw) (s : State) : Host.Outcome State Fault Refusal :=
  run (.smovWr o) (fun sh v =>
    let x := readSrcU v.g sh.lit ⟨o.x.toNat, 1, true, false⟩
    .go [⟨v.slot, none, [.ws o.i.toNat (BitVec.ofNat 32 x.val) x.pen], [], none, false⟩]) s
/-- smov.v: from the lowest present thread (R125). -/
def execSmovV (o : OpSw) (s : State) : Host.Outcome State Fault Refusal :=
  run (.smovV o) (fun sh v =>
    let low := v.present.headD 0
    let src : Src := ⟨o.x.toNat, 1, false, false⟩
    match readTrap sh v [(low, src)] with
    | some t => .go [⟨v.slot, none, [], [], some t, false⟩]
    | none =>
      let x := readIn sh v low src
      .go [⟨v.slot, none, [.ws o.i.toNat (BitVec.ofNat 32 x.val) (x.pen || presentPen v)], [], none, false⟩]) s

/-- The team of a view's group. -/
def View.team (v : View) : Team :=
  (teamAt v.s v.g.team).getD { lseq := 0, idx := 0, core := 0, cluster := 0, rank := 0, slots := [], flk := [], checked := 0, ended := false, endCyc := [],
                               bitSet := false, role := .plain, mate := 0, log := [], place := 0 }

/-- gstat (R127). -/
def gstat (t : Thread) : Word := BitVec.ofNat 32 (bit t.rpv + 2 * bit t.rf + 4 * bit t.cg + 8 * bit t.rpl)
/-- The core and group of a mirror pair's other member, for a group of one (R387). -/
def partner (s : State) (g : Group) : Option (Nat × Group) :=
  match teamAt s g.team with
  | none => none
  | some t => if t.role == .plain then none
    else (teamAt s t.mate).bind fun m => (lfind (fun (h : Group) => h.gnum == g.gnum) (groupsOf s t.mate)).map fun h => (m.core, h)

/-- The trap time registers of a thread, which a mirror reads as its primary's at that moment (R373, R388; log entry 62). -/
def trapTime (v : View) (i : Nat) (t : Thread) : Dword :=
  match v.team.role, partner v.s v.g with
  | .mirror, some (_, p) => (threadAt p i).trap.ts
  | _, _ => t.trap.ts

/-- A group-scope system register (R127, R373); a mirror reads its primary's core (R388). -/
def sysGroup (v : View) (n : Nat) : Word :=
  match n with
  | 1 => BitVec.ofNat 32 v.g.gnum
  | 2 => BitVec.ofNat 32 v.team.idx
  | 3 => BitVec.ofNat 32 v.team.rank
  | 4 => BitVec.ofNat 32 (match v.team.role, teamAt v.s v.team.mate with
      | .mirror, some p => p.core
      | _, _ => v.k)
  | 5 => BitVec.ofNat 32 v.g.lseq
  | 6 => BitVec.ofNat 32 v.h.teams
  | 0x10 => v.g.lvs
  | 0x11 => BitVec.ofNat 32 v.g.win
  | 0x12 => BitVec.ofNat 32 v.h.sregs
  | 0x40 => BitVec.ofNat 32 v.h.handler
  | n => BitVec.ofNat 32 (lget 0 v.h.wlim (n - 0x18))
/-- A thread-scope system register (R127, R373); a mirror reads its primary's trap time (R388). -/
def sysThread (v : View) (i : Nat) (t : Thread) (n : Nat) : Word :=
  match n with
  | 8 => t.lnk
  | 9 => t.rpc
  | 0xA => gstat t
  | 0xB => BitVec.ofNat 32 t.loops.length
  | 0x41 => t.trap.cause
  | 0x42 => t.trap.pc
  | 0x43 => t.trap.stat
  | 0x44 => t.trap.addr.truncate 32
  | 0x45 => (t.trap.addr >>> 32).truncate 32
  | 0x46 => (trapTime v i t).truncate 32
  | 0x47 => (trapTime v i t >>> 32).truncate 32
  | 0x48 => t.trap.lnk
  | _ => t.trap.gst

/-- PRIV in every present thread (R50, R126). -/
def privPlan (v : View) : Plan := .go [⟨v.slot, none, [], [], some (trapAt v cPRIV), false⟩]

/-- sysr (R126, R127); a control core reads the registers of its die (R421). -/
def execSysr (o : OpSys) (s : State) : Host.Outcome State Fault Refusal :=
  run (.sysr o) (fun sh v =>
    let n := o.n.toNat
    match sysScope n with
    | 3 => if isControl v.k then eachThread sh (fun _ _ _ => .go [.wv o.x.toNat (readRegister v.s (dieOf v.k) n) false] []) v else privPlan v
    | 1 => eachThread sh (fun v i t => .go [.wv o.x.toNat (sysThread v i t n) false] []) v
    | _ =>
      if o.u then .go [⟨v.slot, none, [.ws o.x.toNat (sysGroup v n) false], [], none, false⟩]
      else eachThread sh (fun _ _ _ => .go [.wv o.x.toNat (sysGroup v n) false] []) v) s
/-- sysw in one thread: LNK, or RES of tstat, which only a thread in a handler may write (R126, R373). -/
def syswThread (sh : Shape) (n : Nat) (v : View) (i : Nat) (t : Thread) : TPlan :=
  let src := sh.srcs.headD ⟨124, 1, false, false⟩
  let x := readSrc v.g i t sh.lit .s src
  if n = 0x43 && !inHandler t then .trap (trapAt v cILLEGAL)
  else if deadTraps v.g && srcDead t src then .trap (trapAt v cDEAD)
  else certainly v i t x.pen (.go [if n = 8 then .setLnk (BitVec.ofNat 32 x.val) else .setRes (BitVec.ofNat 32 x.val)] [])
/-- sysw (R126); a control core's write of a register of its die is a REGISTER_WRITE, PREQ_GO or DSPLIT_WRITE (R421). -/
def execSysw (o : OpSys) (s : State) : Host.Outcome State Fault Refusal :=
  run (.sysw o) (fun sh v =>
    let n := o.n.toNat
    match sysScope n with
    | 3 => if isControl v.k then eachThread sh (fun v i t =>
        .go [] [.register n (readSrc v.g i t sh.lit .s (sh.srcs.headD ⟨124, 1, false, false⟩)).val]) v else privPlan v
    | 1 => eachThread { sh with srcs := [] } (syswThread sh n) v
    | _ =>
      let x := readSrcU v.g sh.lit (sh.srcs.headD ⟨0, 1, false, false⟩)
      uniformly v x.pen (.go [.setLvs (BitVec.ofNat 32 (x.val % 2))] [])) s

/-- A 64-bit value in a pair of v registers, or of s registers with U = 1. -/
def pairPlan (sh : Shape) (u : Bool) (d val : Nat) (v : View) : Plan :=
  let lo : Word := BitVec.ofNat 32 val
  let hi : Word := BitVec.ofNat 32 (val / 2 ^ 32)
  if u then .go [⟨v.slot, none, [.ws d lo false, .ws (d + 1) hi false], [], none, false⟩]
  else eachThread sh (fun _ _ _ => .go [.wv d lo false, .wv (d + 1) hi false] []) v
/-- tsr (R129). The manual allows the timestamps of different dies to differ by up to 2 ns from the device-wide count (R3, R129); the model gives every die one and the same timestamp (log entry 59). -/
def execTsr (o : OpUx) (s : State) : Host.Outcome State Fault Refusal := run (.tsr o) (fun sh v => pairPlan sh o.u o.x.toNat v.s.now v) s
/-- cyc (R129). -/
def execCyc (o : OpUx) (s : State) : Host.Outcome State Fault Refusal :=
  run (.cyc o) (fun sh v => pairPlan sh o.u o.x.toNat (tcAt v.s (tcOf v.k)).cyc v) s

/-- fflg (R147). -/
def execFflg (o : OpX) (s : State) : Host.Outcome State Fault Refusal :=
  run (.fflg o) (fun sh => eachThread sh fun _ _ t => .go [.wv o.x.toNat (t.flg.zeroExtend 32) t.fpen] []) s
/-- fclr (R147). -/
def execFclr (o : OpFc) (s : State) : Host.Outcome State Fault Refusal :=
  run (.fclr o) (fun sh => eachThread sh fun _ _ _ => .go [.clearFlags o.f] []) s

/-- slp (R130): each thread sleeps until its own time, and the bundle parks while one does. -/
def execSlp (o : OpX) (s : State) : Host.Outcome State Fault Refusal :=
  run (.slp o) (fun sh => eachThread sh fun v i t =>
    let x := readSrc v.g i t o.lit .s ⟨o.x.toNat, 1, true, false⟩
    if x.val = 0 then .go [] [] else .go [.sleep (some (v.s.now + x.val))] [.park .slp]) s

/-- The coordinate that idr chooses, for thread i (R128, R344). -/
def idrValue (v : View) (sel i : Nat) : Nat :=
  let h := v.h
  let l := 32 * v.g.gnum + i
  match sel with
  | 0 => v.team.idx % h.gx
  | 1 => v.team.idx / h.gx % h.gy
  | 2 => v.team.idx / (h.gx * h.gy)
  | 3 => l % h.tx
  | 4 => l / h.tx % h.ty
  | 5 => l / (h.tx * h.ty)
  | 6 => v.team.rank % h.clw
  | _ => v.team.rank / h.clw
/-- idr (R128). -/
def execIdr (o : OpIdr) (s : State) : Host.Outcome State Fault Refusal :=
  run (.idr o) (fun sh v =>
    if o.u then .go [⟨v.slot, none, [.ws o.x.toNat (BitVec.ofNat 32 (idrValue v o.s.toNat 0)) false], [], none, false⟩]
    else eachThread sh (fun v i _ => .go [.wv o.x.toNat (BitVec.ofNat 32 (idrValue v o.s.toNat i)) false] []) v) s

end Sys2Proof.Machine
end

