-- ==== Sys2Proof/Machine/Reach.lean ====
section
/-! DEFINITION. Where a memory word's access goes: effective addresses, the checks of R235 in their order, translation, and the waits of page kinds, fences and releases (R209 to R234, R252, R274, R275). -/

namespace Sys2Proof.Machine

/-- What the checks of an access find: its pieces, a trap, a translation to wait for, or one that has failed or been answered as fatal. -/
inductive Reach where
  | at' (ps : List Piece)
  | trap (cause : Nat)
  | miss (w : Walk)
  | bad (num : Nat)
deriving DecidableEq, Repr

/-- The effective address of a memory word: modulo 2^64 in space g, and modulo 2^32 elsewhere (R209). -/
def effAddr (sp : Nat) (base : Nat) (off : Int) : Nat :=
  if sp = 0 then (((base : Int) + off) % 2 ^ 64).toNat else (((base : Int) + off) % 2 ^ 32).toNat

/-- The alignment of a load or store (R232). -/
def tyAlign : Nat → Nat
  | 0 => 1
  | 1 => 1
  | 2 => 2
  | 3 => 2
  | _ => 4

/-- A translation asked for by an access. -/
def newWalk (v : View) (thr : Option Nat) (access va : Nat) (spec : Bool) : Walk :=
  { num := 0, since := 0, own := v.g.uid, root := v.h.ptroot, va := va, ea := va, pc := v.b.pc, access := access, slot := v.slot, thr := thr, lseq := v.g.lseq, fid := none,
    fatal := false, spec := spec, failed := false }

/-- The pieces of n bytes of global memory, page by page, and block by block on alias pages (R107, R226, R234). -/
def reachG (v : View) (thr : Option Nat) (access : Nat) (spec : Bool) : Nat → Nat → Nat → Reach
  | 0, _, _ => .at' []
  | fuel + 1, va, n =>
    if n = 0 then .at' []
    else match tlbHit v.s v.c v.h.ptroot va access with
      | none =>
        match lfind (fun w => w.answers v.g.uid va access thr spec) v.c.walks with
        | some w => if w.fatal || w.failed then .bad w.num else .miss w
        | none => .miss (newWalk v thr access va spec)
      | some e =>
        let page := min n (e.va + e.size - va)
        let len := if leafAlias e.leaf = 0 then page else min page (64 - va % 64)
        match reachG v thr access spec fuel (va + len) (n - len) with
        | .at' ps => .at' (leafPiece v.s e.leaf (e.pa va) len :: ps)
        | r => r

/-- The stronger of two ordering kinds, in the order SO, RC, UN (R234). -/
def stronger (a b : Nat) : Nat := if a = 1 || b = 1 then 1 else if a = 0 || b = 0 then 0 else 2
/-- Pieces that all have the strongest of their kinds (R234). -/
def sameKind (ps : List Piece) : List Piece := let k := ps.foldl (fun a p => stronger a p.kind) 2; ps.map fun p => { p with kind := k }

/-- A piece of SRAM on a die (R210 to R212). -/
def sramPiece (loc n die : Nat) : Piece := { loc := loc, n := n, die := die, key := none, kind := 0, mx := 0, sx := false, cw := false, peer := false }

/-- A piece of an access of a control core: a physical address, untranslated, under key slot 0 (R421). -/
def physPiece (s : State) (pa n : Nat) : Piece :=
  { loc := pa, n := n, die := slice pa 38 37, key := tfind s.keys 0, kind := 0, mx := 0, sx := false, cw := false, peer := false }

/-- The team of a rank of a team's cluster (R166, R211). -/
def rankTeam (s : State) (t : Team) (r : Nat) : Option (Nat × Team) :=
  match tfind s.clusters t.cluster with
  | none => none
  | some cl => (cl.teams[r]?).bind fun u => (teamAt s u).map fun x => (u, x)

/-- The pieces of an access cut into its single-copy atomic units (R233, R234, R260). -/
def Reach.cut (u : Nat) : Reach → Reach
  | .at' ps => .at' (cutUnits u ps)
  | r => r

/-- An access of n bytes in a space, after its alignment: the space's checks, PEER_GONE, and translation (R209 to R212, R226, R395). R209 tests the EA; that an access of space t, q or d must lie below its limit with its last byte too is what R321 says of ast, which the model takes of every word (log entry 65). -/
def span (v : View) (thr : Option Nat) (access : Nat) (spec : Bool) (sp ea n : Nat) : Reach :=
  match sp with
  | 0 => if isControl v.k then (if ea + n ≤ 2 ^ 39 then .at' [physPiece v.s ea n] else .trap cPROT) else if ea + n ≤ 2 ^ 56 then
      match reachG v thr access spec 8 ea n with
      | .at' ps => .at' (sameKind ps)
      | r => r
    else .trap cPROT
  | 1 => if ea + n ≤ v.h.tsm then .at' [sramPiece (tsmLoc v.g.team ea) n (dieOf v.k)] else .trap cPROT
  | 2 =>
    let r := slice ea 21 18
    let off := slice ea 17 0
    if ea / 2 ^ 22 != 0 || r ≥ v.h.clw * v.h.clh || off + n > v.h.tsm then .trap cPROT
    else match teamAt v.s v.g.team with
      | none => .trap cPEER
      | some t =>
        if !hasBit (tget 0 v.c.live t.cluster) r then .trap cPEER
        else match rankTeam v.s t r with
          | none => .trap cPEER
          | some (u, x) => .at' [sramPiece (tsmLoc u off) n (dieOf x.core)]
  | _ =>
    let d := slice ea 28 27
    let off := slice ea 26 0
    if ea / 2 ^ 29 != 0 || off + n > v.h.spwin then .trap cPROT
    else .at' [sramPiece (scratchLoc d (lget 0 v.h.wbase d + off)) n d]

/-- An access of a word, unit by unit. -/
def reach (v : View) (thr : Option Nat) (access : Nat) (spec : Bool) (sp ea n : Nat) : Reach := (span v thr access spec sp ea n).cut (unitBytes ea n)

/-- Alignment, and then the checks of reach (R235). -/
def checked (v : View) (thr : Option Nat) (access : Nat) (spec : Bool) (sp ea n align : Nat) : Reach :=
  if ea % align != 0 then .trap cALIGN else reach v thr access spec sp ea n

/-- Whether an access of a thread must wait for the thread's others: one to an SO page for every earlier access, and any for an earlier one to an SO page (R274). -/
def orderBlocked (v : View) (thr : Option Nat) (ps : List Piece) : Bool :=
  let so := ps.any fun p => p.kind == 1
  let mine := samePo v.g.uid (poOf v.mask thr)
  (v.c.writes.any fun w => mine w.own w.po && (so || w.pieces.any fun p => p.kind == 1)) ||
  (v.c.loads.any fun l => mine l.own l.po && !l.detached && (so || l.pieces.any fun p => p.kind == 1))

/-- The actions of the words before in a chain under way, of the threads in a mask: their events come before in program order (R262). -/
def chainActs (v : View) (po : Word) : List Act := (v.held.filter fun r => poOf v.mask r.thr &&& po != 0).flatMap (·.acts)
/-- Whether an action reads memory for its threads; whether it writes or is an atomic; and whether it is an access to an SO page (R260, R265). -/
def Act.isRead : Act → Bool
  | .req _ => true
  | _ => false
def Act.isWrite : Act → Bool
  | .req l => !l.reads
  | .write _ => true
  | .bobjInit _ _ _ => true
  | .push _ _ _ _ => true
  | _ => false
def Act.so : Act → Bool
  | .req l => l.pieces.any fun p => p.kind == 1
  | .write w => w.pieces.any fun p => p.kind == 1
  | _ => false
/-- A plan that waits, once its whole step can go ahead, for what earlier words of the chain hand over (R262; log entry 75). -/
def TPlan.behind (parked : Bool) : TPlan → TPlan
  | .go es as => .go es (as ++ [.stall (.fence []) parked])
  | p => p
/-- Whether an access must wait for one of an earlier word of its chain (R265, R274). -/
def chainBlocked (v : View) (thr : Option Nat) (ps : List Piece) : Bool :=
  (chainActs v (poOf v.mask thr)).any fun a => a.so || ((a.isRead || a.isWrite) && ps.any fun p => p.kind == 1)
/-- An access that goes ahead where neither its thread's accesses nor those of its chain hold it (R265, R274). -/
def inOrderAt (v : View) (thr : Option Nat) (ps : List Piece) (go : TPlan) : TPlan :=
  if orderBlocked v thr ps then .hold (.fence []) false [] else if chainBlocked v thr ps then go.behind false else go

/-- The plan of an access that its checks let proceed, hold or trap. -/
def proceed (v : View) (thr : Option Nat) (ea : Nat) (r : Reach) (go : List Piece → TPlan) : TPlan :=
  match r with
  | .trap c => .trap (trapEa v c ea)
  | .bad _ => .trap (trapEa v cPROT ea)
  | .miss w => .hold .walk false [.walk { w with ea := ea }]
  | .at' ps => inOrderAt v thr ps (go ps)

/-- Whether a thread has writes at home on its own die, or atomics, that a release waits for: those to UN pages too, as R252 says of every store, where the rows of R264 and R275 cover RC and SO pages alone (log entry 66). -/
def ownWritesPending (v : View) (i : Nat) : Bool :=
  (v.c.writes.any fun w => w.own == v.g.uid && !w.engine && hasBit w.po i && (w.pieces.isEmpty || w.held || w.pieces.any fun p => (postedTo v.k [p]).isEmpty)) ||
  (v.c.loads.any fun l => l.own == v.g.uid && hasBit l.po i && !l.reads)

/-- Whether a thread has an access to an SO page that is not performed, which stands before every later event of the thread (R265). -/
def soPending (v : View) (i : Nat) : Bool :=
  (v.c.writes.any fun w => w.own == v.g.uid && !w.engine && hasBit w.po i && w.pieces.any fun p => p.kind == 1) ||
  (v.c.loads.any fun l => l.own == v.g.uid && hasBit l.po i && !l.detached && l.pieces.any fun p => p.kind == 1)

/-- The dies that a release of a thread at a scope sends flush markers to; a scope beyond the device takes in its peers (R275). -/
def flushDies (t : Thread) (scope : Nat) : List Nat := t.posted.filter fun d => decide (d < 4) || decide (7 ≤ scope)

/-- A release of thread i at a scope, before what follows it (R252, R275): the thread's earlier writes are performed, those of its chain too, and its accesses to SO pages (R265). In a mirror pair it closes the thread's window first, an empty one too (R389). -/
def released (v : View) (i : Nat) (t : Thread) (scope : Nat) (parked : Bool) (rest : TPlan) : TPlan :=
  if scope = 0 then rest
  else if unshut v i then .hold (.fence []) parked [.closeWin i]
  else if ownWritesPending v i || soPending v i then .hold (.fence []) parked []
  else if (chainActs v (oneBit i)).any fun a => a.isWrite || a.so then rest.behind parked
  else if !(flushDies t scope).isEmpty then .hold (.fence []) parked [.release i (decide (7 ≤ scope))]
  else rest

/-- An acquire of thread i, before what follows it: its earlier reads have their true values, those of its chain too (R252), and its accesses to SO pages are performed (R265). -/
def acquired (v : View) (i : Nat) (scope : Nat) (parked : Bool) (rest : TPlan) : TPlan :=
  if scope = 0 then rest
  else if readsPending v.c v.g i || soPending v i then .hold (.fence []) parked []
  else if (chainActs v (oneBit i)).any fun a => a.isRead || a.so then rest.behind parked
  else rest

/-- An item of a mirror stream: an address, a type, a space and 16 bytes of data (R389). -/
def mirrorItem (ea t sp data : Nat) : Nat := ea % 2 ^ 64 + t * 2 ^ 64 + sp * 2 ^ 72 + data % 2 ^ 128 * 2 ^ 128
/-- The items that a word of a mirrored thread adds (R389). -/
def mirrorEffs (v : View) (item : Nat) (close : Bool) : List Eff :=
  if mirrored v.s v.g then .item item :: (if close then [.closeWindow] else []) else []
/-- Whether the group is a mirror, whose atomics, queue, token and bitmap words its primary performs (R389). -/
def isMirror (v : View) : Bool := match teamAt v.s v.g.team with
  | some t => t.role == .mirror
  | none => false
/-- What a word of a mirror pair that passes a result adds to its thread: its place among them (R389). -/
def matedEffs (v : View) : List Eff := if mirrored v.s v.g then [.mated] else []
/-- The machine as threads' own earlier accesses to some bytes will have left them, their held stores laid over (R236, R262, R388). -/
def ownView (v : View) (po : Word) (ps : List Piece) : State :=
  (v.c.writes.filter fun w => w.held && samePo v.g.uid po w.own w.po && overlap w.pieces ps).foldl (fun a w => piecesWrite a w.pieces w.data) (performBefore v.s v.k v.g.uid po ps)
/-- The machine as the earlier words of a chain under way, of threads in a mask, will have left memory: their plain stores and object initialisations laid over it (R262). -/
def chainView (v : View) (po : Word) (s : State) : State := (chainActs v po).foldl (fun a x => match x with
  | .write w => if w.rmw.isNone then piecesWrite a w.pieces w.data else a
  | .bobjInit loc y z => { a with mem := memWrite a.mem loc 16 (boMake y y z z 0) }
  | _ => a) s
/-- The number of a thread's open mirror window. -/
def windowNo (t : Thread) : Nat := t.compared + t.windows.length

end Sys2Proof.Machine
end

