-- ==== Sys2Proof/Machine/MemoryWords.lean ====
section
/-! DEFINITION. Memory words: loads, prefetches, stores, atomics, reductions, fences, register spill and fill, and window changes (R231 to R259). -/

namespace Sys2Proof.Machine

/-- The base operand of a word of thread i, or of the group with none. -/
def readBase (v : View) (thr : Option Nat) (x : Src) : In :=
  match thr with
  | some i => readSrc v.g i (threadAt v.g i) none .m x
  | none => readSrcU v.g none x

/-- The deadline of a load of class W (R18): none for class 0, and none in space t with a limit of 0. -/
def deadlineOf (v : View) (cls sp : Nat) : Option Nat :=
  if cls = 0 then none
  else
    let w := lget 0 v.h.wlim (cls - 1)
    if w = 0 && sp = 1 then none else some (v.s.now + w)

/-- The late-arrival entries of this word for a thread or the group (R27, R240). -/
def lateEntries (v : View) (thr : Option Nat) : List Late :=
  v.c.late.filter fun e => e.own == v.g.uid && e.thr == thr && e.pc == v.b.pc && e.pos == v.b.pos
/-- The value of the oldest entry of this word at an address (R27). -/
def lateValue (v : View) (thr : Option Nat) (ea : Nat) : Option Nat := (lfind (fun e => e.ea.toNat == ea) (lateEntries v thr)).map (·.val)

/-- The request of a load (R237, R240). -/
def loadReq (v : View) (thr : Option Nat) (o : OpLd) (ea : Nat) (pen : Bool) (cls : Nat) (ps : List Piece) : Load :=
  { num := 0, own := v.g.uid, slot := v.slot, thr := thr, po := poOf v.mask thr, pc := v.b.pc, pos := v.b.pos, kind := .load,
    dsts := (List.range (tyRegs o.t.toNat)).map fun j => o.d.toNat + j, ty := o.t.toNat, ea := BitVec.ofNat 64 ea, pieces := ps, cls := cls,
    pred := o.p.toNat, issue := v.s.now, deadline := deadlineOf v cls o.s.toNat, pen := pen, got := [], guess := none, holds := [],
    written := false, detached := false, op := if o.s = 0 || o.s = 3 then some 0 else none, mate := 0, came := none }

/-- The registers of a completed load written: v registers of a thread, or s registers (R99). -/
def loadEffs (thr : Option Nat) (d : Nat) (ws : List Word) : List Eff :=
  imap (fun j w => if thr.isSome then Eff.wv (d + j) w false else Eff.ws (d + j) w false) 0 ws

/-- A load of thread i, or a uniform load (R237, R240): rpl says that it issues as class 0. One that a late-arrival entry serves is no access: its value updates no history, a point that R19 and R27 leave open (log entry 61). -/
def loadPlan (o : OpLd) (v : View) (thr : Option Nat) (base : In) (rpl : Bool) : TPlan :=
  let ea := effAddr o.s.toNat base.val (litInt o.lit)
  let n := tyBytes o.t.toNat
  let drop : List Act := if (lateEntries v thr).isEmpty then [] else [.dropLate v.b.pc v.b.pos ea]
  let cls := if rpl || mirrored v.s v.g then 0 else o.w.toNat
  let refuse := fun (use : List Act) => TPlan.go [] (drop ++ use ++ [.refuted (loadReq v thr o ea true cls [])])
  match lateValue v thr ea with
  | some x => .go (loadEffs thr o.d.toNat (loadWords o.t.toNat x)) drop
  | none =>
    let r := checked v thr 0 base.pen o.s.toNat ea n (tyAlign o.t.toNat)
    if !base.pen then proceed v thr ea r fun ps => .go [] (drop ++ [.req (loadReq v thr o ea false cls ps)])
    else match r with
      | .trap _ => refuse []
      | .bad w => refuse [.useWalk w]
      | r => proceed v thr ea r fun ps => .go [] (drop ++ [.req (loadReq v thr o ea true cls ps)])

/-- Load (R237). -/
def execLoad (o : OpLd) (s : State) : Host.Outcome State Fault Refusal :=
  run (.load o) (fun sh => eachThread sh fun v i t => loadPlan o v (some i) (readBase v (some i) (baseSrc o.s o.a)) t.rpl) s
/-- Uniform load (R240). -/
def execUniformLoad (o : OpLd) (s : State) : Host.Outcome State Fault Refusal :=
  run (.uniformLoad o) (fun _ v =>
    (loadPlan o v none (readBase v none (baseSrc o.s o.a)) (v.present.any fun i => (threadAt v.g i).rpl)).once v) s

/-- Prefetch (R251): space g brings a line, space d only counts, and no check traps. -/
def execPrefetch (o : OpPf) (s : State) : Host.Outcome State Fault Refusal :=
  run (.prefetch o) (fun sh => eachThread sh fun v i _ =>
    let ea := effAddr o.s.toNat (readBase v (some i) (baseSrc o.s o.a)).val (litInt o.lit)
    match o.s.toNat with
    | 0 => match reach v (some i) 0 true 0 ea 1 with
      | .at' ps => .go [] [.prefetch ps.head?]
      | .miss w => .hold .walk false [.walk w]
      | .bad w => .go [] [.useWalk w, .prefetch none]
      | .trap _ => .go [] [.prefetch none]
    | 3 => .go [] [.prefetch none]
    | _ => .go [] []) s

/-- The write of a store (R243, R274). In a mirror pair, writes to spaces g and d are held until the compare, and one of the whole group with its lowest present thread (R389). -/
def storeReq (v : View) (thr : Option Nat) (sp ty data : Nat) (rmw : Option Nat) (ps : List Piece) : Write :=
  { num := 0, own := v.g.uid, slot := v.slot, thr := if mirrored v.s v.g && thr.isNone then some (v.present.headD 0) else thr, po := poOf v.mask thr, lseq := v.g.lseq, pieces := ps, data := data, rmw := rmw, rel := false, ty := ty, op := none,
    held := mirrored v.s v.g && (sp == 0 || sp == 3) && rmw.isNone, window := windowNo (threadAt v.g (thr.getD (v.present.headD 0))), begun := false }

/-- A store after its certainty point (R243). -/
def storePlan (o : OpSt) (v : View) (thr : Option Nat) (base data : In) : TPlan :=
  let ea := effAddr o.s.toNat base.val (litInt o.lit)
  let n := tyBytes o.t.toNat
  proceed v thr ea (checked v thr 1 false o.s.toNat ea n (tyAlign o.t.toNat)) fun ps =>
    .go (mirrorEffs v (mirrorItem ea o.t.toNat o.s.toNat (data.val % 256 ^ n)) false)
      [.write (storeReq v thr o.s.toNat o.t.toNat (data.val % 256 ^ n) none ps)]

/-- The data operand of a store. -/
def storeSrc (o : OpSt) : Src := ⟨o.d.toNat, tyRegs o.t.toNat, false, false⟩
/-- Store (R243). -/
def execStore (o : OpSt) (s : State) : Host.Outcome State Fault Refusal :=
  run (.store o) (fun sh => eachThread sh fun v i t =>
    let base := readBase v (some i) (baseSrc o.s o.a)
    let data := readSrc v.g i t none .m (storeSrc o)
    certainly v i t (base.pen || data.pen) (storePlan o v (some i) base data)) s
/-- A plan for the group with effects in each present thread, where it takes effect. -/
def Plan.each (p : Plan) (v : View) (effs : List Eff) : Plan :=
  match p with
  | .go rs => if rs.any fun r => r.trap.isSome || r.replay then p else .go (rs ++ v.present.map fun i => ⟨v.slot, some i, effs, [], none, false⟩)
  | x => x
/-- A plan for the group whose mirror item each present thread folds in, where it takes effect (R389). -/
def Plan.noted (p : Plan) (v : View) (item : Nat) (close : Bool) : Plan := p.each v (mirrorEffs v item close)
/-- Uniform store (R244, R245). -/
def execUniformStore (o : OpSt) (s : State) : Host.Outcome State Fault Refusal :=
  run (.uniformStore o) (fun _ v =>
    let base := readBase v none (baseSrc o.s o.a)
    let data := readSrcU v.g none (storeSrc o)
    (uniformly v (base.pen || data.pen) (storePlan o v none base data)).noted v
      (mirrorItem (effAddr o.s.toNat base.val (litInt o.lit)) o.t.toNat o.s.toNat (data.val % 256 ^ tyBytes o.t.toNat)) false) s

/-- An atomic or a reduction in a thread (R247, R248): the checks of its access, the alias check, and then the request. -/
def atomicPlan (v : View) (i : Nat) (sp ty ea : Nat) (x : In) (effs : List Eff) (go : List Piece → List Act) : TPlan :=
  proceed v (some i) ea (checked v (some i) 2 false sp ea (tyBytes ty) (tyBytes ty)) fun ps =>
    if ps.any fun p => p.mx != 0 then .trap (trapEa v cALIASATOM ea)
    else .go (mirrorEffs v (mirrorItem ea ty sp x.val) false ++ effs) (go ps)

/-- Atomic (R248). -/
def execAtomic (o : OpAt) (s : State) : Host.Outcome State Fault Refusal :=
  run (.atomic o) (fun sh => eachThread sh fun v i t =>
    let base := readBase v (some i) (baseSrc o.s o.a)
    let x := readSrc v.g i t none .m (atomSrc o.o o.t o.x)
    let ea := effAddr o.s.toNat base.val o.i.toInt
    certainly v i t (base.pen || x.pen) (atomicPlan v i o.s.toNat o.t.toNat ea x (matedEffs v) fun ps =>
      [.req { num := 0, own := v.g.uid, slot := v.slot, thr := some i, po := oneBit i, pc := v.b.pc, pos := v.b.pos, kind := .atomic o.o.toNat x.val,
              dsts := (List.range (tyRegs o.t.toNat)).map fun j => o.d.toNat + j, ty := o.t.toNat, ea := BitVec.ofNat 64 ea, pieces := ps, cls := 0,
              pred := 0, issue := v.s.now, deadline := none, pen := false, got := [], guess := none, holds := [], written := false,
              detached := false, op := none, mate := t.mates, came := none }])) s
/-- Reduction (R247): an atomic without a destination; a mirror performs none (R389). -/
def execReduction (o : OpRed) (s : State) : Host.Outcome State Fault Refusal :=
  run (.reduction o) (fun sh => eachThread sh fun v i t =>
    let base := readBase v (some i) (baseSrc o.s o.a)
    let x := readSrc v.g i t none .m (atomSrc o.o o.t o.x)
    let ea := effAddr o.s.toNat base.val o.i.toInt
    certainly v i t (base.pen || x.pen) (atomicPlan v i o.s.toNat o.t.toNat ea x [] fun ps =>
      if isMirror v then [] else [.write (storeReq v (some i) o.s.toNat o.t.toNat x.val (some o.o.toNat) ps)])) s

/-- fence.K.X (R252): kind 0 is full, 1 acquires, 2 releases. -/
def execFence (o : OpFen) (s : State) : Host.Outcome State Fault Refusal :=
  run (.fence o) (fun sh => eachThread sh fun v i t =>
    let sc := o.s.toNat
    let acq := if o.k = 2 then .go [] [] else acquired v i sc false (.go [] [])
    certainly v i t false (if o.k = 1 then acq else released v i t sc false acq)) s

/-- The address of a spill slot of a group (R213, R253). -/
def spillVa (v : View) (k : Nat) : Nat := v.h.spbase + 8192 * (32 * v.team.idx + v.g.gnum) + 512 + 160 * k

/-- A column of the group's threads as a record sees it: dead, value and penumbra; an ended thread counts as dead (R254). -/
def columnOf (g : Group) (d : Nat) : List VReg :=
  (List.range 32).map fun i => let t := threadAt g i; if t.ended then ⟨0, false, true⟩ else vreg t d
/-- A column record, as its bytes and their number (R190, R254). -/
def columnRecord (col : List VReg) : Nat × Nat :=
  let live := col.filter fun r => !r.dead
  match live with
  | [] => (0x0F, 1)
  | b :: _ =>
    let base := b.val
    let diff := fun (r : VReg) => if r.dead then (0 : Int) else (r.val - base).toInt
    let fits := fun (n : Nat) => live.all fun r => decide (-(2 ^ (n - 1) : Int) ≤ diff r) && decide (diff r < 2 ^ (n - 1))
    let delta := fun (n : Nat) => (layOut n (col.map fun r => (diff r % 256 ^ n).toNat))
    let (mode, data, len) :=
      if live.all fun r => r.val == base then (1, base.toNat, 4)
      else if fits 8 then (2, base.toNat + 2 ^ 32 * delta 1, 36)
      else if fits 16 then (3, base.toNat + 2 ^ 32 * delta 2, 68)
      else (0, layOut 4 (col.map fun r => if r.dead then 0 else r.val.toNat), 128)
    let bits := fun (f : VReg → Bool) => (imap (fun i r => if f r then 2 ^ i else 0) 0 col).sum
    let pn := bits fun r => r.pen && !r.dead
    let dm := bits fun r => r.dead
    let fmt := mode * 64 + (if pn != 0 then 32 else 0) + if dm != 0 then 16 else 0
    let v1 := fmt + 256 * data
    let (v2, n2) := if pn != 0 then (v1 + pn * 256 ^ (1 + len), 1 + len + 4) else (v1, 1 + len)
    if dm != 0 then (v2 + dm * 256 ^ n2, n2 + 4) else (v2, n2)
/-- vspill (R254): one record of the whole group, as a write of kind 6 in units of 4 bytes (log entry 69). -/
def execVspill (o : OpSpl) (s : State) : Host.Outcome State Fault Refusal :=
  run (.vspill o) (fun _ v =>
    let d := o.x.toNat
    let rs : List RegRef := ((List.range 32).map fun i => ⟨v.slot, some i, d⟩).filter (pendingReg v.c v.g)
    if !rs.isEmpty then .hold (.reg rs) false []
    else
      let va := spillVa v o.k.toNat
      let (x, n) := columnRecord (columnOf v.g d)
      (proceed v none va ((span v none spillAccess false 0 va n).cut 4) fun ps => .go [] [.write (storeReq v none 0 7 x none ps)]).once v |>.noted v (mirrorItem va 6 0 x) false) s

/-- What a group's reads of a spill slot find there now: its earlier spills to it, of whatever threads, laid over memory (R256). -/
def slotView (v : View) (ps : List Piece) : Nat :=
  piecesRead ((v.c.writes.filter fun w => w.own == v.g.uid && w.spill && overlap w.pieces ps).foldl (fun a w => piecesWrite a w.pieces w.data) (ownView v v.mask ps)) ps
/-- The request of a vfill, in the program order of the present threads (R255). -/
def fillReq (v : View) (d va : Nat) (ps : List Piece) : Load :=
  { num := 0, own := v.g.uid, slot := v.slot, thr := none, po := v.mask, pc := v.b.pc, pos := v.b.pos, kind := .fill, dsts := [d], ty := 6,
    ea := BitVec.ofNat 64 va, pieces := ps, cls := 0, pred := 0, issue := v.s.now, deadline := none, pen := false, got := [], guess := none, holds := [],
    written := false, detached := false, op := none, mate := 0, came := none }
/-- vfill (R255, R256): it issues at once, and its register is written when its record has been read. The check of the format byte is made at issue, on what the group's own accesses will have left in the slot (log entry 70). -/
def execVfill (o : OpSpl) (s : State) : Host.Outcome State Fault Refusal :=
  run (.vfill o) (fun _ v =>
    let va := spillVa v o.k.toNat
    (proceed v none va ((span v none fillAccess false 0 va 137).cut 4) fun ps =>
      match columnRead (slotView v ps) with
      | none => .trap (trapEa v cPROT va)
      | some _ => .go [] [.req (fillReq v o.x.toNat va ps)]).once v) s

/-- The core as the groups of a bundle before this one will have grown (R258). -/
def grownBefore (v : View) (w : Nat) : Core :=
  (v.b.parts.takeWhile fun p => p.slot != v.slot).foldl (fun c p => match groupAt c p.slot with
    | none => c
    | some g => if w ≤ g.win then c else match windowFits c g.uid w with
      | none => c
      | some b => setGroup c p.slot { g with win := w, base := some b }) v.c
/-- vgrow (R191, R258). -/
def execVgrow (o : OpWin) (s : State) : Host.Outcome State Fault Refusal :=
  run (.vgrow o) (fun _ v =>
    let w := windowOf o.w.toNat
    if w ≤ v.g.win then .go []
    else match windowFits (grownBefore v w) v.g.uid w with
      | none => .hold (.vgrow w) true []
      | some _ => .go [⟨v.slot, none, [], [.window w], none, false⟩]) s
/-- vshrink (R259). -/
def execVshrink (o : OpWin) (s : State) : Host.Outcome State Fault Refusal :=
  run (.vshrink o) (fun _ v =>
    let w := windowOf o.w.toNat
    if v.g.win ≤ w then .go []
    else
      let rs : List RegRef := ((List.range 32).flatMap fun i => (List.range (v.g.win - w)).map fun j => (⟨v.slot, some i, w + j⟩ : RegRef)).filter (pendingReg v.c v.g)
      if rs.isEmpty then .go [⟨v.slot, none, [], [.window w], none, false⟩] else .hold (.reg rs) false []) s

end Sys2Proof.Machine
end

