-- ==== Sys2Proof/Machine/Barriers.lean ====
section
/-! DEFINITION. Barriers of a team, a cluster and a co-resident grid (R204 to R208). -/

namespace Sys2Proof.Machine

/-- A thread plan whose hold parks its bundle: a wait at a barrier (R175). -/
def TPlan.parks : TPlan → TPlan
  | .hold w _ as => .hold w true as
  | p => p

/-- The scope of a barrier's ordering: .tm, .cl or .dv (R207). -/
def barrierScope : Nat → Nat
  | 0 => 2
  | 1 => 4
  | _ => 6

/-- The arrival of a thread (R206): a second one waits for the phase before; every guess resolves; the release comes first. -/
def arriveThread (kind n : Nat) (v : View) (i : Nat) (t : Thread) : TPlan :=
  if arrived t kind n then .hold (.arrive kind n) true []
  else (certainly v i t true (released v i t (barrierScope kind) true (.go [.clearRpv, .arrive kind n] []))).parks

/-- An arrival of the present threads, with the check of the phase; wait says that the bundle then parks until the phase completes, unless its arrival has completed it (R279). -/
def arrivePlan (kind n : Nat) (wait : Bool) (sh : Shape) (v : View) : Plan :=
  (eachThread sh (arriveThread kind n) v).also
    ⟨v.slot, none, [], .barrier kind n :: (if wait then [.park (.barrier kind n)] else []), none, false⟩

/-- The wait of the present threads for the phases in which they have arrived, and the acquire (R206). -/
def waitPlan (kind n : Nat) (sh : Shape) (v : View) : Plan :=
  eachThread sh (fun v i t =>
    (certainly v i t false
      (if arrived t kind n then .hold (.arrive kind n) true [] else acquired v i (barrierScope kind) true (.go [] []))).parks) v

/-- bar.tm (R204, R206). -/
def execBarTm (o : OpBar) (s : State) : Host.Outcome State Fault Refusal := run (.barTm o) (arrivePlan 0 o.n.toNat true) s
/-- bar.cl (R204, R206). -/
def execBarCl (o : OpBar) (s : State) : Host.Outcome State Fault Refusal := run (.barCl o) (arrivePlan 1 o.n.toNat true) s
/-- bar.gd: ILLEGAL in a launch that is not co-resident (R204). -/
def execBarGd (o : OpK) (s : State) : Host.Outcome State Fault Refusal :=
  run (.barGd o) (fun sh v =>
    if v.h.cor then arrivePlan 2 0 true sh v else .go [⟨v.slot, none, [], [], some (trapAt v cILLEGAL), false⟩]) s
/-- bararr.tm (R204, R206). -/
def execBararrTm (o : OpBar) (s : State) : Host.Outcome State Fault Refusal := run (.bararrTm o) (arrivePlan 0 o.n.toNat false) s
/-- bararr.cl (R204, R206). -/
def execBararrCl (o : OpBar) (s : State) : Host.Outcome State Fault Refusal := run (.bararrCl o) (arrivePlan 1 o.n.toNat false) s
/-- barwt.tm (R204, R206). -/
def execBarwtTm (o : OpBar) (s : State) : Host.Outcome State Fault Refusal := run (.barwtTm o) (waitPlan 0 o.n.toNat) s
/-- barwt.cl (R204, R206). -/
def execBarwtCl (o : OpBar) (s : State) : Host.Outcome State Fault Refusal := run (.barwtCl o) (waitPlan 1 o.n.toNat) s

end Sys2Proof.Machine
end

