-- ==== Sys2Proof/Machine/Control.lean ====
section
/-! DEFINITION. Control and guess words: majors 21 to 23 (R131 to R144, R379). -/

namespace Sys2Proof.Machine

/-- A transfer of thread i to a packet: R33 asks for the first packet of a block. -/
def transfer (v : View) (q : Word) (effs : List Eff) : TPlan :=
  if isBlockStart v.s v.k v.h q.toNat then .go (effs ++ [.goto q]) [] else .trap (trapAt v cILLEGAL)

/-- Whether some thread of a plan takes a transfer. -/
def Plan.transfers : Plan → Bool
  | .go rs => rs.any fun r => r.effs.any fun e => match e with
    | .goto _ => true
    | _ => false
  | _ => false

/-- A taken branch word noted once for its group (R185). -/
def Plan.spins (p : Plan) (slot : Nat) (disp : Word) : Plan :=
  match p with
  | .go rs => if p.transfers then .go (rs ++ [⟨slot, none, [], [.spin disp], none, false⟩]) else p
  | x => x

/-- A displacement that the spin detector does not count: that of a word other than br and call. -/
def noDisp : Word := 1

/-- Whether a branch code holds in a thread, and the penumbra bit of the predicate that it reads (R131). -/
def branchCond (t : Thread) (p : BitVec 4) : PReg := let q := preg t (p.toNat % 8); ⟨q.val != p.getLsbD 3, q.pen⟩

/-- A branch or a call: each thread whose condition holds goes to P plus the displacement (R131, R132). -/
def branch (o : OpBr) (link : Bool) (sh : Shape) (v : View) : Plan :=
  let disp : Word := o.d.signExtend 32
  (eachThread sh (fun v _ t =>
    let q := branchCond t o.p
    let cg : List Eff := if q.pen then [.setCg] else []
    if q.val then transfer v (v.b.pc + disp) (cg ++ if link then [.link (v.b.pc + 1)] else []) else .go cg []) v).spins v.slot disp

/-- br (R131). -/
def execBr (o : OpBr) (s : State) : Host.Outcome State Fault Refusal := run (.br o) (branch o false) s
/-- call (R132). -/
def execCall (o : OpBr) (s : State) : Host.Outcome State Fault Refusal := run (.call o) (branch o true) s

/-- nop (R137). -/
def execNop (o : OpK) (s : State) : Host.Outcome State Fault Refusal := run (.nop o) (fun _ _ => .go []) s

/-- The end of a thread: it waits for its loads and passes a certainty point (R138). In a mirror pair it closes its window and waits for the compare of every window (R389). -/
def exitPlan (v : View) (i : Nat) (t : Thread) : TPlan :=
  if hasLoads v.c v.g i then .hold .loads false []
  else certainly v i t false (if unshut v i then .hold .loads false [.closeWin i] else if t.windows.isEmpty then .go [] [.exit] else .hold .loads false [])
/-- exit (R138). -/
def execExit (o : OpK) (s : State) : Host.Outcome State Fault Refusal := run (.exit o) (fun sh => eachThread sh exitPlan) s
/-- A return of each present thread, or its end (R9, R134). -/
def retPlan (sh : Shape) (v : View) : Plan := (eachThread sh (fun v i t =>
  certainly v i t false (if t.lnk = 0xFFFFFFFF then exitPlan v i t else transfer v t.lnk [])) v).spins v.slot noDisp
/-- ret (R134). -/
def execRet (o : OpK) (s : State) : Host.Outcome State Fault Refusal := run (.ret o) retPlan s

/-- An indirect branch or call (R133). -/
def indirect (link : Bool) (sh : Shape) (v : View) : Plan :=
  (eachThread sh (fun v i t =>
    let x := readSrc v.g i t sh.lit .s (sh.srcs.headD ⟨124, 1, false, false⟩)
    certainly v i t x.pen (transfer v (BitVec.ofNat 32 x.val) (if link then [.link (v.b.pc + 1)] else []))) v).spins v.slot noDisp
/-- brx (R133). -/
def execBrx (o : OpX) (s : State) : Host.Outcome State Fault Refusal := run (.brx o) (indirect false) s
/-- callx (R133). -/
def execCallx (o : OpX) (s : State) : Host.Outcome State Fault Refusal := run (.callx o) (indirect true) s

/-- lpush in one thread (R135). -/
def lpushPlan (o : OpLp) (v : View) (i : Nat) (t : Thread) : TPlan :=
  let x := readSrc v.g i t o.lit .s ⟨o.x.toNat, 1, true, false⟩
  let n := x.val % 2 ^ 24
  let p1 := v.b.pc + 1
  let stop := p1 + BitVec.ofNat 32 o.e.toNat
  let cg : List Eff := if x.pen then [.setCg] else []
  if lpushBad o v i t then .trap (trapAt v cILLEGAL)
  else if deadTraps v.g && srcDead t ⟨o.x.toNat, 1, true, false⟩ then .trap (trapAt v cDEAD)
  else if n = 0 then .go (cg ++ [.goto (stop + 1)]) []
  else .go (cg ++ [.keepLoops p1, .pushLoop ⟨p1, stop, BitVec.ofNat 24 n⟩, .goto p1]) []
/-- lpush (R135). -/
def execLpush (o : OpLp) (s : State) : Host.Outcome State Fault Refusal := run (.lpush o) (fun sh => eachThread { sh with srcs := [] } (lpushPlan o)) s
/-- lbrk (R136). -/
def execLbrk (o : OpK) (s : State) : Host.Outcome State Fault Refusal := run (.lbrk o) (fun sh => eachThread sh fun _ _ _ => .go [.popLoop] []) s

/-- trap: cause USER, after a certainty point (R139). -/
def execTrapW (o : OpCode) (s : State) : Host.Outcome State Fault Refusal :=
  run (.trapW o) (fun sh => eachThread sh fun v i t => certainly v i t false (.trap (trapAt v cUSER o.k.toNat))) s
/-- bkpt: cause BREAK, after a certainty point (R139). -/
def execBkpt (o : OpCode) (s : State) : Host.Outcome State Fault Refusal :=
  run (.bkpt o) (fun sh => eachThread sh fun v i t => certainly v i t false (.trap (trapAt v cBREAK o.k.toNat))) s
/-- rti (R379). -/
def execRti (o : OpK) (s : State) : Host.Outcome State Fault Refusal :=
  run (.rti o) (fun sh => eachThread sh fun v i t =>
    if !inHandler t then .trap (trapAt v cILLEGAL) else certainly v i t false (resolved v i t false (.go [] [.rti v.c.next]))) s

/-- gmark: the replay point and its snapshot, in the first packet of a block (R26, R140). -/
def execGmark (o : OpK) (s : State) : Host.Outcome State Fault Refusal :=
  run (.gmark o) (fun sh => eachThread sh fun v i t =>
    if v.b.pc != v.b.start then .trap (trapAt v cILLEGAL) else resolved v i t true (.go [.mark v.b.pc] [])) s

/-- The penumbra bit that gtest copies (R141). -/
def testedPen (g : Group) (t : Thread) (u : Bool) (x : Nat) : Bool :=
  if u then (sreg g x).pen
  else if x ≤ 95 then let r := vreg t x; r.pen && !r.dead
  else if 100 ≤ x && x ≤ 123 then (sreg g (x - 100)).pen
  else false
/-- gtest (R141). -/
def execGtest (o : OpUxp) (s : State) : Host.Outcome State Fault Refusal :=
  run (.gtest o) (fun sh => eachThread sh fun v _ t => .go [.wp o.p.toNat (testedPen v.g t o.u o.x.toNat) false] []) s

/-- gaccept (R28, R142, R242). -/
def execGaccept (o : OpUx) (s : State) : Host.Outcome State Fault Refusal :=
  run (.gaccept o) (fun sh v =>
    let d := o.x.toNat
    if o.u then .go [⟨v.slot, none, if (sreg v.g d).pen then [.clearPenS d] else [], if (sreg v.g d).pen then [.accept d] else [], none, false⟩]
    else eachThread sh (fun _ _ t => let r := vreg t d; if r.pen && !r.dead then .go [.clearPen d] [.accept d] else .go [] []) v) s

/-- The guessed load whose guess a register still holds, with its data where they have come (R29). -/
def heldGuess (c : Core) (u : Nat) (thr : Option Nat) (d : Nat) : Option Load :=
  lfind (fun l => l.own == u && l.thr == thr && l.guessed && l.holds.contains d) c.loads
/-- A wait for a demanded load's data, and their installation once they have come: in a chain, it waits only once the words around it have passed their checks (R13). -/
def demands (sh : Shape) (v : View) (l : Load) : TPlan :=
  if l.came.isSome then .go [] [.install l.num]
  else if sh.c || v.b.pos != v.b.stepPos then .go [] [.stall (.demand [l.num]) false] else .hold (.demand [l.num]) false []
/-- gdemand (R29, R143, R242). -/
def execGdemand (o : OpUx) (s : State) : Host.Outcome State Fault Refusal :=
  run (.gdemand o) (fun sh v =>
    let d := o.x.toNat
    if o.u then
      if !(sreg v.g d).pen then .go []
      else match heldGuess v.c v.g.uid none d with
        | some l => (demands sh v l).once v
        | none => uniformly v true (.go [] [])
    else eachThread sh (fun v i t =>
      let r := vreg t d
      if r.dead || !r.pen then .go [] []
      else match heldGuess v.c v.g.uid (some i) d with
        | some l => demands sh v l
        | none => certainly v i t true (.go [] [])) v) s

/-- dead (R42, R144). -/
def execDead (o : OpDead) (s : State) : Host.Outcome State Fault Refusal :=
  run (.dead o) (fun sh => eachThread sh fun _ _ _ => .go ((deadRegs o).map Eff.markDead) []) s

end Sys2Proof.Machine
end

