-- ==== Sys2Proof/Machine/MatrixWords.lean ====
section
/-! DEFINITION. Matrix words: updates, readouts, stores, clearing and releasing of tiles, and the reads of fidelity and flicker (R312 to R325). -/

namespace Sys2Proof.Machine

/-- Room in the matrix queue of a group's selector for a word of each group of the bundle (R285). -/
def queueRoom (v : View) : Bool := decide ((matrixQueue v.c (selOf v.slot)).length + v.b.parts.length ≤ 4)

/-- The wait for that room. -/
def queueWait (v : View) : Plan := .hold (.queue [(5, v.slot, v.b.parts.length)]) false []

/-- An update's operands: semiring, element format (0 bf16, 1 f16, 2 e4m3, 3 e5m2, 4 e3m2, 5 e2m3, 6 e2m1, 7 i8), tile, first registers of the fragments, and the scale registers of an MX form (R316, R317). -/
structure UpdateOps where
  sr : Option Nat
  fmt : Nat
  tile : Nat
  a : Nat
  b : Nat
  scales : Option (Nat × Nat)

/-- Registers that an update reads: those of each row, and those of every thread. -/
def UpdateOps.rowRegs (u : UpdateOps) : List Nat := ((List.range 8).map (u.a + ·)) ++ (u.scales.map (·.1)).toList
def UpdateOps.allRegs (u : UpdateOps) : List Nat := ((List.range 16).map (u.b + ·)) ++ (u.scales.map (·.2)).toList

/-- Registers read in thread i; those of an ended thread read zero without penumbra, and a broadcast s register is none of them (R282, R317). -/
def readRegs (g : Group) (i : Nat) (ds : List Nat) : List Reg :=
  let t := threadAt g i
  ds.map fun d => if t.ended && decide (d ≤ 95) then ⟨0, false⟩ else readOne g i t none .m d

/-- Whether an update reads a dead register of a thread that has not ended (R282). -/
def updateDead (u : UpdateOps) (v : View) : Bool :=
  (List.range 32).any fun i =>
    let t := threadAt v.g i
    !t.ended && ((if hasBit v.mask i then u.rowRegs ++ u.allRegs else u.allRegs).any fun d => decide (d ≤ 95) && (vreg t d).dead)

/-- The pending register writes that an update waits for, in every thread of the group (R282). -/
def updateWaits (u : UpdateOps) (v : View) : List RegRef :=
  ((u.rowRegs ++ u.allRegs).flatMap fun d =>
    if d ≤ 95 then (List.range 32).map fun i => (⟨v.slot, some i, d⟩ : RegRef) else [⟨v.slot, none, d - 100⟩]).filter (pendingReg v.c v.g)

/-- The rows whose guess flag an update sets (R286). -/
def updateGuess (u : UpdateOps) (v : View) : Word :=
  let all := (List.range 32).any fun i => (readRegs v.g i u.allRegs).any (·.pen)
  maskOf (v.present.filter fun i => all || (threadAt v.g i).cg || (readRegs v.g i u.rowRegs).any (·.pen))

/-- The update as it enters the queue, with the operands read now (R282, R318). -/
def updateWord (u : UpdateOps) (v : View) : MWord :=
  let vals := fun (i : Nat) (ds : List Nat) => (readRegs v.g i ds).map (·.val)
  let frag := fun (first n i : Nat) => vals i ((List.range n).map (first + ·))
  { own := v.g.uid, slot := v.slot, tile := u.tile, ops := []
    what := .update u.sr u.fmt u.scales.isSome v.mask
      ((List.range 32).map fun i => if hasBit v.mask i then frag u.a 8 i else [])
      ((List.range 32).map (frag u.b 16))
      (match u.scales with
        | none => []
        | some x => (List.range 32).map fun i => (vals i [x.1]).headD 0)
      (match u.scales with
        | none => []
        | some x => (List.range 32).map fun i => (vals i [x.2]).headD 0)
      (updateGuess u v) }

/-- An update of a group (R318): it waits for its operands and for room in the queue; a semiring traps above F0 (R294). -/
def updatePlan (u : UpdateOps) (v : View) : Plan :=
  let trap := fun (c : Nat) => Plan.go [⟨v.slot, none, [], [], some (trapAt v c), false⟩]
  let semi := u.sr.isSome && v.h.fid != 0
  if !semi && !(updateWaits u v).isEmpty then .hold (.reg (updateWaits u v)) false []
  else if deadTraps v.g && updateDead u v then trap cDEAD
  else if semi then trap cSEMIRING
  else if !queueRoom v then queueWait v
  else .go [⟨v.slot, none, [], [.mword (selOf v.slot) (updateWord u v)], none, false⟩]

/-- mma (R316, R318). -/
def execMma (o : OpMma) (s : State) : Host.Outcome State Fault Refusal :=
  run (.mma o) (fun _ => updatePlan ⟨none, o.f.toNat, o.t.toNat, o.a.toNat, o.b.toNat, none⟩) s
/-- mma in an MX format (R317, R318). -/
def execMmaMx (o : OpMx) (s : State) : Host.Outcome State Fault Refusal :=
  run (.mmaMx o) (fun _ => updatePlan ⟨none, o.f.toNat + 2, o.t.toNat, o.a.toNat, o.b.toNat, some (o.x.toNat, o.y.toNat)⟩) s
/-- mmsr (R293, R316, R318). -/
def execMmsrBf16 (o : OpMs) (s : State) : Host.Outcome State Fault Refusal :=
  run (.mmsrBf16 o) (fun _ => updatePlan ⟨some o.s.toNat, 0, o.t.toNat, o.a.toNat, o.b.toNat, none⟩) s

/-- flkrd (R325). -/
def execFlkrd (o : OpFlk) (s : State) : Host.Outcome State Fault Refusal :=
  run (.flkrd o) (fun sh v =>
    let x := tget (0 : Word) v.team.flk o.j.toNat
    if o.u then .go [⟨v.slot, none, [.ws o.d.toNat x false], [], none, false⟩]
    else eachThread sh (fun _ _ _ => .go [.wv o.d.toNat x false] []) v) s

/-- The rail setpoint of a slice of a core for a level: the nominal rail at F0 (R300, R325). -/
def setpoint (c : Core) (slice level : Nat) : Nat :=
  if level = 0 then Config.nominalRail else tget Config.nominalRail c.sp (4 * slice + level)
/-- What fidrd reads (R325). -/
def fidValue (v : View) (k : Nat) : Word :=
  match k with
  | 0 => BitVec.ofNat 32 v.h.fid
  | 4 => BitVec.ofNat 32 v.team.checked
  | 5 => BitVec.ofNat 32 (v.team.checked / 2 ^ 32)
  | k => BitVec.ofNat 32 (setpoint v.c (k - 1) v.h.fid)
/-- fidrd (R325). -/
def execFidrd (o : OpFid) (s : State) : Host.Outcome State Fault Refusal :=
  run (.fidrd o) (fun sh v =>
    let x := fidValue v o.k.toNat
    if o.u then .go [⟨v.slot, none, [.ws o.d.toNat x false], [], none, false⟩]
    else eachThread sh (fun _ _ _ => .go [.wv o.d.toNat x false] []) v) s

/-- A matrix word of the group that its queue takes when it has room. -/
def queuePlan (tile : Nat) (w : MOp) (v : View) : Plan :=
  if queueRoom v then .go [⟨v.slot, none, [], [.mword (selOf v.slot) ⟨v.g.uid, v.slot, tile, w, []⟩], none, false⟩]
  else queueWait v

/-- ard (R319, R320). -/
def execArd (o : OpArd) (s : State) : Host.Outcome State Fault Refusal :=
  run (.ard o) (fun _ v =>
    queuePlan o.t.toNat (.ard o.v.toNat o.g.toNat v.mask ((List.range (ardRegs o.v.toNat)).map (o.d.toNat + ·))) v) s

/-- Whether row i of a tile holds a guess, or an update in the queue is to set its flag (R321). -/
def rowGuess (v : View) (tile i : Nat) : Bool :=
  (match tfind v.g.tiles tile with
   | some t => hasBit t.rg i
   | none => false) ||
  v.c.matrixWords.any fun w => w.own == v.g.uid && w.tile == tile && (match w.what with
    | .update _ _ _ _ _ _ _ _ rg => hasBit rg i
    | _ => false)

/-- Where the store of thread i by an ast goes, in units of 4 bytes (R321). -/
def astReach (o : OpAst) (v : View) (i : Nat) : Nat × Reach :=
  let ea := effAddr o.s.toNat (readBase v (some i) (baseSrc o.s o.a)).val (litInt o.lit)
  (ea, if ea % 8 != 0 then .trap cALIGN else (span v (some i) 1 false o.s.toNat ea (4 * ardRegs o.v.toNat)).cut 4)
/-- The pieces of an access that its checks let proceed. -/
def Reach.pieces : Reach → List Piece
  | .at' ps => ps
  | _ => []
/-- ast (R319, R321): each present thread passes its certainty point and checks, and the word then enters the queue. -/
def execAst (o : OpAst) (s : State) : Host.Outcome State Fault Refusal :=
  run (.ast o) (fun sh v =>
    let p := eachThread sh (fun v i t =>
      certainly v i t ((readBase v (some i) (baseSrc o.s o.a)).pen || rowGuess v o.t.toNat i)
        (proceed v (some i) (astReach o v i).1 (astReach o v i).2 fun _ => .go [] [])) v
    match p with
    | .hold w q as => .hold w q as
    | .go rs =>
      let ok := rs.filterMap fun r => if r.trap.isNone && !r.replay then r.thr else none
      if ok.isEmpty then .go rs
      else if queueRoom v then .go (rs ++ [⟨v.slot, none, [], [.mword (selOf v.slot) ⟨v.g.uid, v.slot, o.t.toNat,
        .ast o.v.toNat o.g.toNat (ok.map fun i => (i, (astReach o v i).2.pieces)), []⟩], none, false⟩])
      else queueWait v) s

/-- azero (R322). -/
def execAzero (o : OpT) (s : State) : Host.Outcome State Fault Refusal := run (.azero o) (fun _ => queuePlan o.t.toNat .azero) s
/-- arel (R322). -/
def execArel (o : OpT) (s : State) : Host.Outcome State Fault Refusal := run (.arel o) (fun _ => queuePlan o.t.toNat .arel) s

end Sys2Proof.Machine
end

