-- ==== Sys2Proof/Machine/EngineWords.lean ====
section
/-! DEFINITION. Copy requests, operation waits, barrier objects, group ids, and the task engine's words (R302 to R311, R326 to R335). -/

namespace Sys2Proof.Machine

/-- n bytes of the group's TSM as a thread sees them, or as every present thread's earlier accesses leave them, those of its chain too (R262, R305). -/
def ownTsm (v : View) (thr : Option Nat) (off n : Nat) : Nat :=
  let p := sramPiece (tsmLoc v.g.team off) n (dieOf v.k)
  piecesRead (chainView v (poOf v.mask thr) (ownView v (poOf v.mask thr) [p])) [p]

/-- The element size of a copy's kind (R303, R304). -/
def recUnit (rec' : Nat) : Nat :=
  match recKind rec' with
  | 1 => 2 ^ recEsz rec'
  | 2 => 2 ^ recEsz rec'
  | 4 => 4
  | 5 => 2
  | _ => 1

/-- Whether a kind moves elements by an index list. -/
def recIndexed (rec' : Nat) : Bool := recKind rec' == 1 || recKind rec' == 2

/-- The contiguous ranges of a request: space, address and bytes (R304). -/
def recRanges (rec' : Nat) : List (Nat × Nat × Nat) :=
  let src := (recSrcSp rec', recSrc rec', recLen rec')
  let dst := (if recKind rec' = 3 then 1 else recDstSp rec', recDst rec', recLen rec')
  match recKind rec' with
  | 1 => [dst]
  | 2 => [src]
  | _ => [src, dst]

/-- The checks of R304 on the record's own fields, for a launch's header. -/
def recBad (h : Hdr) (rec' : Nat) : Bool :=
  let kind := recKind rec'
  let len := recLen rec'
  let unit := recUnit rec'
  let aux := recAux rec'
  let shared := kind == 3 || kind == 4 || kind == 5
  let narrow := fun (sp a : Nat) => sp != 0 && a / 2 ^ 32 != 0
  slice rec' 7 3 != 0 || decide (5 < kind) || slice rec' 15 12 != 0 || slice rec' 231 227 != 0 || slice rec' 238 238 != 0 || slice rec' 247 240 != 0 ||
  len == 0 || decide (16777216 < len) ||
  (if recIndexed rec' then decide (4 < recEsz rec') || decide (h.tsm < aux + 4 * (len / unit)) else recEsz rec' != 0 || (kind != 3 && aux != 0)) ||
  len % unit != 0 || recSrc rec' % unit != 0 || recDst rec' % unit != 0 ||
  (recBobj rec' != 0xFFFF && decide (h.tsm < 16 * recBobj rec' + 16)) ||
  narrow (recSrcSp rec') (recSrc rec') || narrow (recDstSp rec') (recDst rec') ||
  (kind == 3 && (recDstSp rec' != 1 || aux == 0 || decide (2 ^ (h.clw * h.clh) ≤ aux))) ||
  recGidOn rec' != shared || (!recGidOn rec' && recGid rec' != 0)

/-- The space checks of R209 on the first and last byte of a range. -/
def rangeTraps (v : View) (x : Nat × Nat × Nat) : List Nat :=
  let (sp, a, n) := x
  if sp = 0 then (if a + n ≤ 2 ^ 56 then [] else [cPROT])
  else [a, a + n - 1].filterMap fun b => match reach v none 0 false sp b 1 with
    | .trap c => some c
    | _ => none

/-- The cause that the checks of R304 and R308 find in a record, given the group ids that the step's earlier threads open. -/
def recTrap (v : View) (rec' : Nat) (opened : List (Nat × Nat × Nat)) : Option Nat :=
  if recBad v.h rec' then some cPROT
  else
    let ts := (recRanges rec').flatMap (rangeTraps v)
    if ts.contains cPROT then some cPROT
    else if ts.contains cPEER then some cPEER
    else if !recGidOn rec' then none
    else
      let mine := recBinding rec'
      let other := opened.any fun x => x.1 == recGid rec' && x.2 != mine
      match gidOf v.s v.team.cluster (recGid rec') with
      | some g => if g.closing || g.team != v.g.team || (g.kind, g.sel) != mine then some cMCAST else none
      | none => if other then some cMCAST else none

/-- The request of a record, handed over by a thread (R302, R326); a mirror's is performed by its primary, after their compare (R389). -/
def copyOf (v : View) (thr off rec' : Nat) : Copy :=
  { num := 0, own := v.g.uid, slot := v.slot, thr := thr, team := v.g.team, off := off, bytes := rec' % 2 ^ 248, after := [], started := false, left := [],
    nr := false, err := false, fid := none, gate := if mirrored v.s v.g then some (windowNo (threadAt v.g thr)) else none, ghost := isMirror v, op := 0 }

/-- The checks of xkick on an offset, after its certainty point (R326). -/
def kickCheck (v : View) (thr : Option Nat) (off : Nat) (opened : List (Nat × Nat × Nat)) : Option Nat :=
  if off % 32 != 0 then some cALIGN
  else if v.h.tsm < off + 32 then some cPROT
  else recTrap v (ownTsm v thr off 32) opened

/-- Whether a thread has done its part of a step that hands over thread by thread (R305). -/
def isDone (v : View) (i : Nat) : Bool := v.b.done.any fun p => p.slot == v.slot && hasBit p.mask i

/-- What the requests of a step before a thread's have taken: the ids that they open with their bindings, the places of the core's engine, and the counts of the group (R305, R308, R313). -/
structure Kicked where
  opened : List (Nat × Nat × Nat)
  used : Nat
  mine : Nat
/-- One more request taken. -/
def Kicked.add (a : Kicked) (rec' : Nat) : Kicked := ⟨if recGidOn rec' then a.opened ++ [(recGid rec', recBinding rec')] else a.opened, a.used + 1, a.mine + 1⟩
/-- The request that an action hands over. -/
def Act.kicked : Act → Option Copy
  | .kick x => some x
  | _ => none
/-- The requests that the results of a step's earlier words hand over (R262). -/
def kicksOf (rs : List Res) : List Copy := rs.flatMap fun r => r.acts.filterMap Act.kicked
/-- What the earlier words of the step have taken; the count is the group's own. -/
def Kicked.before (v : View) : Kicked :=
  let a := (kicksOf v.b.held).foldl (fun (a : Kicked) (x : Copy) => a.add x.bytes) ⟨[], 0, 0⟩
  { a with mine := (kicksOf v.held).length }
/-- The same for the next group of a fused bundle, after others. -/
def Kicked.inGroup (a : Kicked) (v : View) : Kicked := { a with mine := (kicksOf v.held).length }
/-- Whether a plan hands over a request. -/
def TPlan.kicks : TPlan → Bool
  | .go _ as => as.any fun a => match a with
    | .kick _ => true
    | _ => false
  | _ => false
/-- Whether the core's engine has a place and the group's counter a number for one more request (R305, R313). -/
def copyRoom (v : View) (a : Kicked) : Bool := decide (v.c.copies.length + a.used < 16) && decide (opCount v.g 1 + a.mine < 0xFFFF)

/-- The wait for n places of the core's engine, and a number of the group's counter (R305, R313). -/
def placeWait (v : View) (n : Nat) : Wait := .queue [(4, v.slot, n), (1, v.slot, 1)]
/-- The request of each thread of a group, in order, or its trap; their checks see the ids that lower threads open, and a thread that finds no place waits for one (R305, R308). A thread that has handed its request over does nothing more. -/
def kickThreads (o : OpXk) (v : View) : List Nat → Kicked → List (Nat × TPlan) × Kicked
  | [], a => ([], a)
  | i :: r, a =>
    let t := threadAt v.g i
    let x := readSrc v.g i t o.lit .m ⟨o.x.toNat, 1, true, false⟩
    let rec' := ownTsm v (some i) x.val 32
    let item := mirrorEffs v (mirrorItem x.val 0 0 0) true
    let go := if isDone v i then TPlan.go item []
      else certainly v i t x.pen (match kickCheck v (some i) x.val a.opened with
        | some c => .trap (trapEa v c x.val)
        | none => .go item [if copyRoom v a then .kick (copyOf v i x.val rec') else .stall (placeWait v 1) false])
    let (ps, b) := kickThreads o v r (if go.kicks then a.add rec' else a)
    ((i, go) :: ps, b)
/-- The threads of a group that a word's dead sources leave to act. -/
def liveThreads (sh : Shape) (v : View) : List Nat := v.present.filter fun i => !(deadTraps v.g && sh.srcs.any (srcDead (threadAt v.g i)))

/-- The request of a group with U = 1 (R326): it waits where the engine has no place for one of each group, beside those of the step's other words. -/
def kickGroup (o : OpXk) (sh : Shape) (v : View) (a : Kicked) : Plan × Kicked :=
  let x := readSrcU v.g sh.lit ⟨o.x.toNat, 1, true, false⟩
  let rec' := ownTsm v none x.val 32
  let room := decide (v.c.copies.length + (kicksOf v.b.held).length + v.b.parts.length ≤ 16)
  let bad := kickCheck v none x.val a.opened
  ((uniformly v x.pen (match bad with
    | some c => .trap (trapEa v c x.val)
    | none => if room then .go [] [.kick (copyOf v (v.present.headD 0) x.val rec')] else .go [] [.stall (placeWait v v.b.parts.length) false])).noted v (mirrorItem x.val 0 0 0) true,
   if bad.isNone then a.add rec' else a)

/-- The views of the groups of a bundle before this one. -/
def viewsBefore (v : View) : List View := (v.b.parts.takeWhile fun p => p.slot != v.slot).filterMap (viewOf v.s v.k v.b)
/-- Thread plans as a group's plan, after the checks of its sources. -/
def ofThreads (sh : Shape) (ps : List (Nat × TPlan)) (v : View) : Plan :=
  eachThread sh (fun _ i _ => match lfind (fun p => p.1 == i) ps with
    | some p => p.2
    | none => .go [] []) v
/-- xkick (R305, R326): with U = 0 each thread hands over its request as soon as a place is free, and the step completes with the last; the checks of a fused bundle's groups see the ids that earlier groups open (R308). -/
def execXkick (o : OpXk) (s : State) : Host.Outcome State Fault Refusal :=
  run (.xkick o) (fun sh v =>
    let start := Kicked.before v
    if o.u then (kickGroup o sh v ((viewsBefore v).foldl (fun a w => (kickGroup o sh w (a.inGroup w)).2) start)).1
    else ofThreads sh (kickThreads o v (liveThreads sh v) (((viewsBefore v).foldl (fun a w => (kickThreads o w (liveThreads sh w) (a.inGroup w)).2) start).inGroup v)).1 v) s

/-- owait (R327). DESIGN CHOICE: it reads the counter as it is before its step, and does not wait for an operation that an earlier word of its chain counts (R262; log entry 77). -/
def execOwait (o : OpOw) (s : State) : Host.Outcome State Fault Refusal :=
  run (.owait o) (fun _ v =>
    if opCount v.g o.k.toNat ≤ o.n.toNat then .go [] else .hold (.owait o.k.toNat o.n.toNat) false []) s

/-- Whether an action acquires a token. -/
def Act.token : Act → Bool
  | .req l => l.token
  | _ => false
/-- The alignment and range checks of a barrier object (R328). -/
def bobjTrap (v : View) (x : Nat) : Option Nat := if x % 16 != 0 then some cALIGN else if v.h.tsm < x + 16 then some cPROT else none
/-- What a thread does at a barrier object, or the trap of its checks. -/
def atBobj (v : View) (x : Nat) (go : TPlan) : TPlan := match bobjTrap v x with
  | some c => .trap (trapEa v c x)
  | none => go

/-- The writes of bobj.init in their threads' order: they follow an access to an SO page and a token acquire as a store's do (R264, R265, R274, R328). -/
def bobjStore (v : View) (thr : Option Nat) (x : Nat) (go : TPlan) : TPlan :=
  let p := bobjPiece (tsmLoc v.g.team x)
  let po := poOf v.mask thr
  if tokenBars v.c v.g.uid v.c.next po [p] || barredBefore v.c v.g.uid po [p] then .hold (.fence []) false []
  else if (chainActs v po).any Act.token then go.behind false
  else inOrderAt v thr [p] go
/-- bobj.init (R328). -/
def execBobjInit (o : OpBi) (s : State) : Host.Outcome State Fault Refusal :=
  run (.bobjInit o) (fun sh v =>
    let initAt := fun (thr : Option Nat) (x y z : Nat) => atBobj v x (bobjStore v thr x (.go [] [.bobjInit (tsmLoc v.g.team x) y z]))
    let val := fun (xs : List In) (j : Nat) => ((xs[j]?).getD ⟨0, false⟩).val
    if o.u then
      let xs := sh.srcs.map (readSrcU v.g sh.lit)
      uniformly v (xs.any (·.pen)) (initAt none (val xs 0) (val xs 1) (val xs 2))
    else eachThread sh (fun v i t =>
      let xs := sh.srcs.map (readSrc v.g i t sh.lit .m)
      certainly v i t (xs.any (·.pen)) (initAt (some i) (val xs 0) (val xs 1) (val xs 2))) v) s

/-- The releases of every present thread, before what follows them. -/
def releasedAll (v : View) (scope : Nat) (parked : Bool) (rest : TPlan) : TPlan :=
  v.present.foldr (fun i r => released v i (threadAt v.g i) scope parked r) rest

/-- An arrival on the object at an offset, once the accesses that must be performed before its update are not held back by a token acquire, those of its chain neither (R236, R264, R329). -/
def arriveAt (v : View) (thr : Option Nat) (x d : Nat) (effs : List Eff) : TPlan :=
  let po := poOf v.mask thr
  let p := bobjPiece (tsmLoc v.g.team x)
  if barredBefore v.c v.g.uid po [p] || (tokenBars v.c v.g.uid v.c.next po [p] && (chainActs v po).any fun a => a.isRead || a.isWrite) then .hold (.fence []) false []
  else .go effs [.bobjArrive (tsmLoc v.g.team x) (some d)]
/-- bobj.arrive (R206, R313, R329): every guess resolves, the thread's release comes first, and RPV clears. -/
def execBobjArrive (o : OpBa) (s : State) : Host.Outcome State Fault Refusal :=
  run (.bobjArrive o) (fun sh v =>
    let src : Src := ⟨o.x.toNat, 1, true, false⟩
    if o.u then
      let x := (readSrcU v.g sh.lit src).val
      let p := uniformly v true (atBobj v x (releasedAll v 4 false (arriveAt v none x o.d.toNat [])))
      match p with
      | .go rs => .go (rs ++ v.present.map fun i => ⟨v.slot, some i, [.clearRpv], [], none, false⟩)
      | q => q
    else eachThread sh (fun v i t =>
      let x := (readSrc v.g i t sh.lit .m src).val
      certainly v i t true (atBobj v x (released v i t 4 false (arriveAt v (some i) x o.d.toNat [.clearRpv])))) v) s

/-- A thread of a bobj.wait: it passes where the phase differs from its parity, and then acquires at .cl; one that has passed waits for no phase (R330). -/
def bobjThread (v : View) (i x y : Nat) : TPlan :=
  atBobj v x (
    let on := y % 2 == 1
    if isDone v i || boPh (ownTsm v (some i) x 16) != on then acquired v i 4 true (.go [] [])
    else .hold (.bobj [(tsmLoc v.g.team x, on, v.slot, i)]) true [])
/-- Whether a thread plan of a bobj.wait has passed its phase. -/
def TPlan.passed : TPlan → Bool
  | .hold (.bobj _) _ _ => false
  | .trap _ => false
  | _ => true
/-- bobj.wait in a group: the bundle parks while a present thread waits, and those that have passed meanwhile are noted (R330). -/
def bobjWaitPlan (o : OpXy) (sh : Shape) (v : View) : Plan :=
  let ps := (liveThreads sh v).map fun i =>
    let t := threadAt v.g i
    (i, bobjThread v i (readSrc v.g i t none .m ⟨o.x.toNat, 1, false, false⟩).val (readSrc v.g i t none .m ⟨o.y.toNat, 1, false, false⟩).val)
  match ofThreads sh ps v with
  | .hold w q as => .hold w q (as ++ (ps.filter fun p => p.2.passed).map fun p => .done p.1)
  | p => p
/-- bobj.wait (R330). -/
def execBobjWait (o : OpXy) (s : State) : Host.Outcome State Fault Refusal := run (.bobjWait o) (bobjWaitPlan o) s

/-- mcfree (R331). -/
def execMcfree (o : OpMc) (s : State) : Host.Outcome State Fault Refusal :=
  run (.mcfree o) (fun sh => eachThread sh fun v i t =>
    let x := readSrc v.g i t sh.lit .m ⟨o.x.toNat, 1, true, false⟩
    certainly v i t x.pen (match gidOf v.s v.team.cluster (x.val % 64) with
      | some g => if g.team != v.g.team then .trap (trapAt v cMCAST) else .go [] [.mcfree (x.val % 64)]
      | none => .go [] [.mcfree (x.val % 64)])) s

/-- A thread's place among pushes: lower launch, team, group and thread first (R332). -/
def pushRank (v : View) (i : Nat) : Nat := ((v.g.lseq * 2 ^ 32 + v.team.idx) * 32 + v.g.gnum) * 32 + i
/-- How many of some pushes are at a queue, before a rank. -/
def pushesBefore (queue rank : Nat) (ws : List (Nat × Nat)) : Nat := (ws.filter fun w => w.1 == queue && decide (w.2 < rank)).length
/-- The pushes that wait for a slot of a queue before a rank, in every bundle whose step has still to make them (R332). -/
def waitingPushes (s : State) (queue rank : Nat) : Nat := (s.cores.map fun c => (c.2.ctx.bundles.map fun x => pushesBefore queue rank x.2.pushes).sum).sum
/-- Those of other bundles than the view's. -/
def pushesAhead (v : View) (queue rank : Nat) : Nat := waitingPushes v.s queue rank - pushesBefore queue rank v.b.pushes
/-- Slots free in a device queue (R340). -/
def queueFree (s : State) (queue : Nat) : Nat := match queueAt s (16 + queue) with
  | some q => q.cap - queueCount s (16 + queue) q
  | none => 0
/-- Whether an action pushes to a queue. -/
def Act.pushes (q : Nat) : Act → Bool
  | .push x _ _ _ => x == q
  | _ => false
/-- In a mirror pair, a word that the primary alone performs follows the compare of what its thread has held (R389). -/
def drained (v : View) (i : Nat) (t : Thread) (rest : TPlan) : TPlan :=
  if !mirrored v.s v.g then rest
  else if t.sigCount != 0 then .hold (.fence []) false [.closeWin i]
  else if v.c.writes.any fun w => w.held && w.own == v.g.uid && w.thr == some i then .hold (.fence []) false []
  else rest
/-- The key under which a primary passes a thread's results to its mirror: the word's place among those of the thread that pass one (R389). -/
def mateKey (v : View) (i : Nat) : Nat := mateNo (32 * v.g.gnum + i) (threadAt v.g i).mates

/-- What tqpush finds in one thread before it enqueues: its queue, priority and header, once its certainty point and checks pass (R332). -/
def pushCheck (v : View) (i : Nat) (hdr y : In) (rest : TPlan) : TPlan :=
  proceed v (some i) hdr.val (checked v (some i) 0 false 0 hdr.val 160 8) fun _ =>
    let q := y.val / 8
    if 64 ≤ q || (queueAt v.s (16 + q)).isNone then .trap (trapEa v cPROT hdr.val) else rest

/-- Whether a push has no more time to wait for a slot: one attempt with W = 0, and otherwise WLIM ns since issue (R332). -/
def pushExpired (v : View) (w : Nat) : Bool :=
  w == 0 || (let lim := lget 0 v.h.wlim (w - 1); lim == 0 || (v.b.stage == 1 && decide (v.b.since + lim ≤ v.s.now)))

/-- The pushes that the earlier words of the step make at a queue (R262). -/
def heldPushes (v : View) (q : Nat) : Nat := (v.b.held.map fun r => (r.acts.filter (Act.pushes q)).length).sum
/-- The outcome of a push in thread i: enqueued, full, or a wait for a slot that leaves the step's other threads to push; a mirror takes its primary's (R332, R389). used counts the pushes of the step before it at the same queue. -/
def pushThread (o : OpTq) (v : View) (i : Nat) (hdr y : In) (used : Nat) : TPlan :=
  let out := fun (full : Bool) => Eff.wp o.p.toNat full false :: (mirrorEffs v (mirrorItem hdr.val 0 0 y.val) true ++ matedEffs v)
  let q := y.val / 8
  let tell := fun (full : Bool) => if v.team.role == .primary then [Act.mate (mateKey v i) (bit full)] else []
  if isMirror v then
    match popLog (mateKey v i) v.team.log with
    | some (x, _) => .go (out (x != 0)) [.unlog (mateKey v i)]
    | none => .hold (.tqpush [] none) true []
  else if !o.u && isDone v i then .go (out false) (tell false)
  else if pushesAhead v q (pushRank v i) + (heldPushes v q + used) < queueFree v.s q then .go (out false) (.push q (y.val % 8) 0 hdr.val :: tell false)
  else if pushExpired v o.w.toNat then .go (out true) (tell true)
  else .go (out true) [.stall (.tqpush [(q, pushRank v i)] (some ((if v.b.stage = 1 then v.b.since else v.s.now) + lget 0 v.h.wlim (o.w.toNat - 1)))) true]

/-- Whether a thread plan pushes to a queue. -/
def pushesTo (q : Nat) (p : TPlan) : Bool := match p with
  | .go _ as => as.any (Act.pushes q)
  | _ => false

/-- The pushes of threads in order, after others of their step. DESIGN CHOICE: a bundle that waits at tqpush for a guess, a register write, a translation or the compare of its windows is not parked; R175 parks one that waits at tqpush, and the model takes that of the wait for a slot, as it does of cbwait and its bit (log entry 77). -/
def pushThreads (o : OpTq) (v : View) : List Nat → List TPlan → List (Nat × TPlan)
  | [], _ => []
  | i :: r, before =>
    let t := threadAt v.g i
    let hdr := readSrc v.g i t none .m ⟨o.x.toNat, 2, false, false⟩
    let y := readSrc v.g i t o.lit .m ⟨o.y.toNat, 1, true, false⟩
    let p := certainly v i t (hdr.pen || y.pen) (drained v i t (pushCheck v i hdr y
      (pushThread o v i hdr y (before.filter (pushesTo (y.val / 8))).length)))
    (i, p) :: pushThreads o v r (before ++ [p])

/-- The checks and the outcome of a group's push with U = 1, after others of its step (R332). -/
def pushOnce (o : OpTq) (sh : Shape) (v : View) (before : List TPlan) : TPlan :=
  let hdr := readSrcU v.g none ⟨o.x.toNat, 2, false, false⟩
  let y := readSrcU v.g sh.lit ⟨o.y.toNat, 1, true, false⟩
  let low := v.present.headD 0
  v.present.foldr (fun i r => drained v i (threadAt v.g i) r) (pushCheck v low hdr y (pushThread o v low hdr y (before.filter (pushesTo (y.val / 8))).length))
/-- The push of a group with U = 1: its predicate, and its place in the stream, are every present thread's (R332, R389). -/
def pushGroup (o : OpTq) (sh : Shape) (v : View) (before : List TPlan) : Plan :=
  let pen := (readSrcU v.g none ⟨o.x.toNat, 2, false, false⟩).pen || (readSrcU v.g sh.lit ⟨o.y.toNat, 1, true, false⟩).pen
  match pushOnce o sh v before with
  | .go es as => match uniformly v pen (.go [] as) with
    | .go rs => .go (rs ++ if rs.any fun r => r.trap.isSome || r.replay then [] else v.present.map fun i => ⟨v.slot, some i, es, [], none, false⟩)
    | q => q
  | p => uniformly v pen p

/-- tqpush (R332). -/
def execTqpush (o : OpTq) (s : State) : Host.Outcome State Fault Refusal :=
  run (.tqpush o) (fun sh v =>
    if o.u then pushGroup o sh v ((viewsBefore v).foldl (fun a w => a ++ [pushOnce o sh w a]) [])
    else ofThreads sh (pushThreads o v (liveThreads sh v) ((viewsBefore v).foldl (fun a w => a ++ (pushThreads o w (liveThreads sh w) a).map (·.2)) [])) v) s

/-- A token cell's checks, with the alias check of an atomic (R333). -/
def tokenPlan (v : View) (thr : Option Nat) (x : Nat) (go : List Piece → TPlan) : TPlan :=
  proceed v thr x (checked v thr 2 false 0 x 8 8) fun ps => if ps.any fun p => p.mx != 0 then .trap (trapEa v cALIASATOM x) else go ps
/-- The scope of the edge from a token release to the acquire that obtains its token, from the cores where the two threads ran and whether one of them is on another device: the narrowest of .co, .cl, .di, .dv and .pe that holds both (R266). -/
def tokenScope (a b : Nat) (sameCluster peer : Bool) : Nat :=
  if peer then 7 else if a = b then 3 else if sameCluster then 4 else if dieOf a = dieOf b then 5 else 6
/-- The scope at which a token release waits for its threads' writes: the acquirer is not known yet, so the widest that an edge can have, .pe (R264, R266, R275; log entry 68). -/
def tokenRelease : Nat := 7
/-- A token release of a thread or of a group: the earlier writes of its threads are performed first, and then 1 is added at the cell (R264, R275, R333). -/
def tokenRel (v : View) (thr : Option Nat) (x : Nat) : TPlan :=
  tokenPlan v thr x fun ps =>
    let go := TPlan.go [] (if isMirror v then [] else [.write { storeReq v thr 0 5 1 (some 0) ps with rel := true, op := some 3 }])
    match thr with
    | some i => released v i (threadAt v.g i) tokenRelease false go
    | none => releasedAll v tokenRelease false go
/-- tqtok.rel (R333). -/
def execTqtokRel (o : OpUx) (s : State) : Host.Outcome State Fault Refusal :=
  run (.tqtokRel o) (fun sh v =>
    if o.u then
      let x := readSrcU v.g none ⟨o.x.toNat, 2, false, false⟩
      (uniformly v x.pen (v.present.foldr (fun i r => drained v i (threadAt v.g i) r) (tokenRel v none x.val))).noted v (mirrorItem x.val 0 0 0) true
    else eachThread sh (fun v i t =>
      let x := readSrc v.g i t none .m ⟨o.x.toNat, 2, false, false⟩
      certainly v i t x.pen (drained v i t (match tokenRel v (some i) x.val with
        | .go es as => .go (mirrorEffs v (mirrorItem x.val 0 0 0) true ++ es) as
        | p => p))) v) s

/-- The request of a token acquire, which writes a predicate of its threads (R333). -/
def tokenReq (v : View) (thr : Option Nat) (x p : Nat) (ps : List Piece) : Load :=
  { num := 0, own := v.g.uid, slot := v.slot, thr := thr, po := poOf v.mask thr, pc := v.b.pc, pos := v.b.pos, kind := .token p,
    dsts := if p = 0 then [] else [1000 + p], ty := 5, ea := BitVec.ofNat 64 x, pieces := ps, cls := 0, pred := 0, issue := v.s.now, deadline := none,
    pen := false, got := [], guess := none, holds := [], written := false, detached := false, op := some 3,
    mate := (threadAt v.g (thr.getD (v.present.headD 0))).mates, came := none }
/-- tqtok.acq (R333). -/
def execTqtokAcq (o : OpTa) (s : State) : Host.Outcome State Fault Refusal :=
  run (.tqtokAcq o) (fun sh v =>
    let ask := fun (thr : Option Nat) (x : Nat) => tokenPlan v thr x fun ps => .go [] [.req (tokenReq v thr x o.p.toNat ps)]
    let note := fun (x : Nat) => mirrorEffs v (mirrorItem x 0 0 0) false ++ matedEffs v
    if o.u then
      let x := readSrcU v.g none ⟨o.x.toNat, 2, false, false⟩
      (uniformly v x.pen (ask none x.val)).each v (note x.val)
    else eachThread sh (fun v i t =>
      let x := readSrc v.g i t none .m ⟨o.x.toNat, 2, false, false⟩
      certainly v i t x.pen (match ask (some i) x.val with
        | .go es as => .go (note x.val ++ es) as
        | p => p)) v) s

/-- The team's bit set in its completion bitmap, by an atomic OR at the byte's home (R334); without a bitmap there is nothing to set, and the operation is counted all the same (R355). -/
def bitPlan (v : View) (thr : Option Nat) : TPlan :=
  let va := v.h.cbmap + v.team.idx / 8
  let bit' := fun (ps : List Piece) => if isMirror v then [] else [Act.write { storeReq v thr 0 0 (2 ^ (v.team.idx % 8)) (some 6) ps with rel := true, op := some 3 }]
  if v.h.cbmap = 0 then .go [] (bit' [])
  else proceed v thr va (checked v thr 2 false 0 va 1 1) fun ps =>
    if ps.any fun p => p.mx != 0 then .trap (trapEa v cALIASATOM va) else .go [] (.cbset :: bit' ps)
/-- cbset (R334): a release at .dv, and then the bit. -/
def execCbset (o : OpCs) (s : State) : Host.Outcome State Fault Refusal :=
  run (.cbset o) (fun sh v =>
    let item := mirrorItem (v.h.cbmap + v.team.idx / 8) 0 0 0
    if o.u then (uniformly v false (releasedAll v 6 false (bitPlan v none))).noted v item true
    else eachThread sh (fun v i t =>
      certainly v i t false (released v i t 6 false (match bitPlan v (some i) with
        | .go es as => .go (mirrorEffs v item true ++ es) as
        | p => p))) v) s

/-- cbwait in one thread (R335): the byte is read as a class 0 load; the bundle parks between reads. -/
def cbwaitThread (v : View) (i base y : Nat) : TPlan :=
  let va := base + y / 8
  if base % 8 != 0 then .trap (trapEa v cALIGN va)
  else proceed v (some i) va (checked v (some i) 0 false 0 va 1 1) fun ps =>
    if piecesRead (ownView v (oneBit i) ps) ps / 2 ^ (y % 8) % 2 = 1 then acquired v i 6 true (.go [] [.bring ps, .producer base])
    else .hold .cbwait true [.bring ps]
/-- cbwait in a thread, with its operands. -/
def cbwaitPlan (o : OpCw) (v : View) (i : Nat) (t : Thread) : TPlan :=
  cbwaitThread v i (readSrc v.g i t none .m ⟨o.x.toNat, 2, false, false⟩).val (readSrc v.g i t none .m ⟨o.y.toNat, 1, false, false⟩).val
/-- cbwait (R335). -/
def execCbwait (o : OpCw) (s : State) : Host.Outcome State Fault Refusal := run (.cbwait o) (fun sh => eachThread sh (cbwaitPlan o)) s

end Sys2Proof.Machine
end

