-- ==== Sys2Proof/Machine/Resume.lean ====
section
/-! DEFINITION. The end of waits: when a held step may go on, and the events that let it (R15, R25, R130, R174 to R178, R208, R332, R335). -/

namespace Sys2Proof.Machine

/-- Whether a test holds of every group of a bundle. -/
def allGroups (c : Core) (b : Bundle) (f : Group → Bool) : Bool :=
  b.parts.all fun p => match groupAt c p.slot with
    | some g => f g
    | none => true

/-- Whether the translations that a bundle's threads and its fetch have asked for have ended. -/
def walksOver (c : Core) (b : Bundle) : Bool :=
  allGroups c b fun g => !(c.walks.any fun w => w.own == g.uid && !w.fatal && !w.failed && (match w.thr with
    | some i => b.threads.any fun x => x.2 == i
    | none => true))

/-- Whether a push waiting for slots can go on: a slot is free beyond those of the pushes of a lower rank that have still to be made, or its time has passed (R332). -/
def pushOver (s : State) (ws : List (Nat × Nat)) (until' : Option Nat) : Bool :=
  (ws.any fun w => decide (waitingPushes s w.1 w.2 < queueFree s w.1)) || (match until' with
    | some d => decide (d ≤ s.now)
    | none => ws.isEmpty)

/-- Whether there is room for what a held step needs: n numbers of a class's counter in a slot's group, n places of the core's copy engine (4), or n of a matrix queue (5) (R305, R313, R318). -/
def roomFor (s : State) (k : Nat) (need : Nat × Nat × Nat) : Bool :=
  let (what, slot, n) := need
  match what with
  | 4 => decide ((coreAt s k).copies.length + n ≤ 16)
  | 5 => decide ((matrixQueue (coreAt s k) (selOf slot)).length + n ≤ 4)
  | cls => match groupAt (coreAt s k) slot with
    | some g => decide (opCount g cls + n ≤ 0xFFFF)
    | none => true

/-- The plan of a word whose wait only a try of it shows to be over: a release or an acquire of a parked bundle, or the end of threads (R138, R206, R330, R335). -/
def retryPlan : Instr → Option (Shape → View → Plan)
  | .barTm o => some (arrivePlan 0 o.n.toNat true)
  | .barCl o => some (arrivePlan 1 o.n.toNat true)
  | .barGd _ => some (arrivePlan 2 0 true)
  | .bararrTm o => some (arrivePlan 0 o.n.toNat false)
  | .bararrCl o => some (arrivePlan 1 o.n.toNat false)
  | .barwtTm o => some (waitPlan 0 o.n.toNat)
  | .barwtCl o => some (waitPlan 1 o.n.toNat)
  | .bobjWait o => some (bobjWaitPlan o)
  | .cbwait o => some fun sh => eachThread sh (cbwaitPlan o)
  | .exit _ => some fun sh => eachThread sh exitPlan
  | .ret _ => some retPlan
  | _ => none
/-- The plans of such a word at a position of a bundle's step, as it would issue now. -/
def tryWord (s : State) (k : Nat) (b : Bundle) (pos : Nat) (x : Instr) : List (View × Plan) :=
  let sh := shapeOn k x
  match retryPlan x with
  | some plan => (b.parts.filterMap (viewOf s k { b with pos := pos })).map fun v => (v, groupPlan sh (plan sh) false v)
  | none => []
/-- The plans of the first such word of a bundle's step that would wait if it issued now; none where none would (R174). -/
def retried (s : State) (k : Nat) (b : Bundle) : List (View × Plan) :=
  (lfind (fun ps => (planHold ps).isSome) ((b.wordsAt.filter fun w => decide (b.pos ≤ w.1)).map fun w => tryWord s k b w.1 w.2)).getD []

/-- Whether what a bundle waits for has come about, so that its step can issue (R174). A fence that is not parked holds its selector, and is tried again (R178). -/
def mayResume (s : State) (k : Nat) (b : Bundle) : Wait → Bool
  | .reg rs => rs.all fun r => match groupAt (coreAt s k) r.slot with
    | some g => !pendingReg (coreAt s k) g r
    | none => true
  | .certainty ts => ts.all fun t => match groupAt (coreAt s k) t.1 with
    | some g => !unresolved (coreAt s k) g t.2
    | none => true
  | .demand ls => ls.all fun n => match loadAt (coreAt s k) n with
    | some l => l.came.isSome
    | none => true
  | .loads => (retried s k b).isEmpty
  | .queue needs => needs.all (roomFor s k)
  | .jwait _ => allReleased b
  | .arrive kind n => allThreads (coreAt s k) b fun g i => !arrived (threadAt g i) kind n
  | .barrier kind n => phaseOver (coreAt s k) b kind n
  | .bobj ws => ws.isEmpty
  | .cbwait => true
  | .slp => allThreads (coreAt s k) b fun g i => match (threadAt g i).sleep with
    | some d => decide (d ≤ s.now)
    | none => true
  | .vgrow w => allGroups (coreAt s k) b fun g => (windowFits (coreAt s k) g.uid w).isSome
  | .tqpush ws d => pushOver s ws d
  | .owait cls n => allGroups (coreAt s k) b fun g => decide (opCount g cls ≤ n)
  | .walk => walksOver (coreAt s k) b
  | .fence _ => !b.parked || (retried s k b).isEmpty

/-- The events that end waits. -/
inductive Resume where
  | certainty | step | barrier | sleep | poll | push
deriving DecidableEq, Repr

/-- The event that ends a kind of wait. -/
def resumedBy : Wait → Resume
  | .certainty _ => .certainty
  | .barrier _ _ => .barrier
  | .slp => .sleep
  | .cbwait => .poll
  | .tqpush _ _ => .push
  | _ => .step

/-- The sleep times of a bundle's threads cleared (R130). -/
def wakeParts (c : Core) (b : Bundle) : Core :=
  b.parts.foldl (fun a p => modGroup a p.slot fun g => mapThreads g fun i t => if hasBit p.mask i then { t with sleep := none } else t) c

/-- What the end of a wait does beside it: a sleep's times are cleared (R130), and a bundle that goes on from a rejoin mask loses its latches (R40, R203). -/
def Wait.ends (c : Core) (b : Bundle) : Wait → Core
  | .slp => wakeParts c b
  | .jwait _ => loseParts c b.parts
  | _ => c
/-- A bundle of a core whose wait is over goes on: it is parked no more, and its step is due again, or done where it had acted (R174, R176). -/
def goOn (bid : Nat) (b : Bundle) (w : Wait) (c : Core) : Core :=
  setBundle (w.ends c b) bid (stayPut c b (match w with
    | .jwait _ => freeJ b
    | _ => { b with wait := none, parked := false }))
/-- A bundle that waits for its release, its acquire or its loads tried again: what it still waits for is noted and asked for. -/
def tryAgain (s : State) (k bid : Nat) (b : Bundle) (w : Wait) : State :=
  let ps := retried s k b
  match planHold ps with
  | none => s
  | some (x, q) => planAsks k bid (modCore s k fun c => setBundle c bid { b with wait := some x, waitSince := if x = w then b.waitSince else s.now, parked := q }) ps

/-- The end of a bundle's wait, where it has one that the event ends (R174). One whose phase has completed is parked no more, though it may wait for its acquire yet (R206). DESIGN CHOICE: one that resumes while its selector holds 8 active bundles is active beside them, as R175 bars only the opening of another (log entry 76). -/
def resume (s : State) (k bid : Nat) (by' : Resume) : State :=
  match bundleAt (coreAt s k) bid with
  | none => s
  | some b => match b.wait with
    | none => s
    | some w =>
      let ready := allGroups (coreAt s k) b groupReady
      if resumedBy w != by' then s
      else if mayResume s k b w && ready then modCore s k (goOn bid b w)
      else match w with
        | .barrier kind n => if phaseDone (coreAt s k) b kind n && ready then modCore s k fun c => setBundle c bid { b with parked := false } else s
        | .fence _ => tryAgain s k bid b w
        | .loads => tryAgain s k bid b w
        | _ => s

/-- R25: a certainty point that waited for guesses goes on, or replays. -/
def execCertainty (core bid : Nat) (s : State) : Host.Outcome State Fault Refusal := .next (resume s core bid .certainty)
/-- R174: a step held for a register write, data, room, translation, writes or a counter issues once it can. -/
def execWaitingStepIssue (core bid : Nat) (s : State) : Host.Outcome State Fault Refusal := .next (resume s core bid .step)
/-- R208: the release of a phase reaches a parked bundle. -/
def execBarrierRelease (core bid : Nat) (s : State) : Host.Outcome State Fault Refusal := .next (resume s core bid .barrier)
/-- R130: a slp interval ends. -/
def execSleepExpiry (core bid : Nat) (s : State) : Host.Outcome State Fault Refusal := .next (resume s core bid .sleep)
/-- R335: a repeated bitmap read; the bundle parks again where the bit is not set. -/
def execCbwaitPoll (core bid : Nat) (s : State) : Host.Outcome State Fault Refusal := .next (resume s core bid .poll)
/-- R332: a push that has waited at a full queue enqueues, or reports full at its limit. -/
def execTqpushTimeout (core bid : Nat) (s : State) : Host.Outcome State Fault Refusal := .next (resume s core bid .push)

end Sys2Proof.Machine
end

