-- ==== Sys2Proof/Machine/SaveArea.lean ====
section
/-! DEFINITION. The save area of a launch in die scratchpad: the place of a team's record, and what swap, eviction and exchange write to it and read back (R189 to R191, R291, R382, R384). -/

namespace Sys2Proof.Machine

/-- A group's s registers and columns written to its team's record (R190). -/
def saveGroup (s : State) (t : Team) (g : Group) : State :=
  let h := hdrOf s t.lseq
  let m1 := (List.range h.sregs).foldl (fun m i => memWrite m (saveLoc s t (sOff h g.gnum i)) 4 (sreg g i).val.toNat) s.mem
  let m2 := (List.range g.win).foldl (fun m j => let x := columnRecord (columnOf g j); memWrite m (saveLoc s t (columnOff h g.gnum j)) x.2 x.1) m1
  { s with mem := m2 }
/-- A group with its s registers and columns as its team's record gives them; penumbra bits of s registers, and whatever else the context holds, are kept by the model itself (R190; log entry 37). -/
def loadGroup (s : State) (t : Team) (g : Group) : Group :=
  let h := hdrOf s t.lseq
  let g1 := (List.range h.sregs).foldl (fun x i => setS x i (BitVec.ofNat 32 (memRead s.mem (saveLoc s t (sOff h g.gnum i)) 4)) (sreg g i).pen) g
  (List.range g.win).foldl (fun x j => match columnRead (memRead s.mem (saveLoc s t (columnOff h g.gnum j)) 137) with
    | none => x
    | some col => mapThreads x fun i th => if th.ended then th else { th with v := tput th.v j (lget ⟨0, false, false⟩ col i) }) g1
/-- The team of a group. -/
def teamOf (s : State) (g : Group) : Option Team := teamAt s g.team
/-- A group's context written to its team's record. -/
def saveContext (s : State) (g : Group) : State := match teamOf s g with
  | none => s
  | some t => saveGroup s t g
/-- A group's context as its team's record gives it. -/
def loadContext (s : State) (g : Group) : Group := match teamOf s g with
  | none => g
  | some t => loadGroup s t g

/-- The groups of a context written to their teams' records. -/
def saveContexts (s : State) (gs : Tab Group) : State := gs.foldl (fun a g => saveContext a g.2) s
/-- The record of a pre-empted group written anew, after data that came for it (R383). -/
def resave (s : State) (k u : Nat) : State := match findUid (coreAt s k).saved.groups u with
  | some g => saveContext s g
  | none => s

/-- A tile's slot written as record j of its team: its cells, its RG and fresh bits, and its number (R291). -/
def saveTile (s : State) (t : Team) (j num : Nat) (x : Tile) : State :=
  let at' := saveLoc s t (tileOff (hdrOf s t.lseq) j)
  let m1 := (List.range 2048).foldl (fun m i => memWrite m (at' + 4 * i) 4 (tget (0 : Word) x.cells i).toNat) s.mem
  { s with mem := memWrite (memWrite (memWrite m1 (at' + 8192) 4 x.rg.toNat) (at' + 8196) 4 x.fresh.toNat) (at' + 8200) 4 num }
/-- A tile as record j of its team gives it back, in a slot; row guess flags that have cleared meanwhile stay clear (R287, R291). -/
def loadTile (s : State) (t : Team) (j slot : Nat) (x : Tile) : Tile :=
  let at' := saveLoc s t (tileOff (hdrOf s t.lseq) j)
  { place := .slot slot, cells := (List.range 2048).map fun i => (i, BitVec.ofNat 32 (memRead s.mem (at' + 4 * i) 4)),
    rg := BitVec.ofNat 32 (memRead s.mem (at' + 8192) 4) &&& x.rg, fresh := BitVec.ofNat 32 (memRead s.mem (at' + 8196) 4) }

/-- The tiles of a team in a context, by group slot and number. -/
def teamTiles (x : Ctx) (team : Nat) : List (Nat × Nat × Tile) :=
  x.groups.flatMap fun g => if g.2.team = team then g.2.tiles.map fun t => (g.1, t.1, t.2) else []
/-- The tiles of a team that hold slots written to its record, one after another (R291, R382). -/
def saveTiles (s : State) (x : Ctx) (team : Nat) : State := match teamAt s team with
  | none => s
  | some t => (imap (fun j (y : Nat × Nat × Tile) => (j, y.2)) 0 (teamTiles x team)).foldl (fun a y => if y.2.2.place matches .slot _ then saveTile a t y.1 y.2.1 y.2.2 else a) s
/-- The teams with groups in a context. -/
def ctxTeams (x : Ctx) : List Nat := x.groups.foldl (fun a g => if a.contains g.2.team then a else a ++ [g.2.team]) []
/-- A team's TSM written to its record, and as its record gives it back (R382, R384). -/
def saveTsm (s : State) (u : Nat) : State := match teamAt s u with
  | none => s
  | some t => let h := hdrOf s t.lseq; { s with mem := memWrite s.mem (saveLoc s t (tsmOff h 0)) h.tsm (memRead s.mem (tsmLoc u 0) h.tsm) }
def loadTsm (s : State) (u : Nat) : State := match teamAt s u with
  | none => s
  | some t => let h := hdrOf s t.lseq; { s with mem := memWrite s.mem (tsmLoc u 0) h.tsm (memRead s.mem (saveLoc s t (tsmOff h 0)) h.tsm) }
/-- The tiles of a team that hold slots as its record gives them back (R382). -/
def loadTiles (s : State) (x : Ctx) (u : Nat) : Ctx := match teamAt s u with
  | none => x
  | some t => (imap (fun j (y : Nat × Nat × Tile) => (j, y)) 0 (teamTiles x u)).foldl (fun a y => match y.2.2.2.place with
      | .slot n => { a with groups := tmod a.groups y.2.1 fun g => { g with tiles := tmod g.tiles y.2.2.1 (loadTile s t y.1 n) } }
      | .evicted _ => a) x

end Sys2Proof.Machine
end

