-- ==== Sys2Proof/Machine/LoadEvents.lean ====
section
/-! DEFINITION. Loads, writes and atomics as they reach their homes: deadlines, arriving data, performed writes, replies, and the flush markers of a release (R18 to R29, R219, R236, R248, R274, R275, R431). An event that is not due leaves the machine as it is (log entry 3). -/

namespace Sys2Proof.Machine

/-- What the peer links listed for a rank allow: an access goes on, waits, or is lost (R219, R408). -/
inductive PeerWay where
  | opened | waits | lost
deriving DecidableEq, Repr

/-- The way that a piece of an access has. -/
def peerWay (s : State) (p : Piece) : PeerWay :=
  match lineLink s p.loc with
  | none => .lost
  | some l => if linkWorks s l then .opened else .waits
/-- The way that the pieces of an access have: lost where a piece is. -/
def piecesWay (s : State) (ps : List Piece) : PeerWay :=
  let ws := ps.filterMap fun p => if p.peer then some (peerWay s p) else none
  if ws.contains .lost then .lost else if ws.contains .waits then .waits else .opened

/-- Whether a piece lies in a stack in its low-power mode (R221). -/
def asleep (s : State) (p : Piece) : Bool := match stackOf p with
  | some n => (tfind (dieAt s (n / 2)).lowPower (n % 2)).isSome
  | none => false
/-- An access taken to its home where its peers can be reached and its stacks are awake (R221); one whose links are all DOWN is an uncorrectable error of its launch (R219, R391). -/
def toHome (s : State) (k own : Nat) (ps : List Piece) (go : State) : State :=
  match piecesWay s ps with
  | .opened => if ps.any (asleep s) then s else go
  | .waits => s
  | .lost => match owner (coreAt s k) own with
    | some g => rollback s g.lseq
    | none => s

/-- Whether pieces of a load or of a vfill may be read at their homes now (R236, R256, R264). -/
def readDue (c : Core) (l : Load) (ps : List Piece) : Bool :=
  accessDue c l.own l.num l.po true ps && !(l.kind == .fill && slotBars c l.own l.num ps)
/-- Whether a load waits for its data past the end of its deadline tick (R18). -/
def Load.overdue (now : Nat) (l : Load) : Bool := l.kind == .load && !l.written && l.cls != 0 && (match l.deadline with
  | some d => decide (d < now)
  | none => false)
/-- R18: the guess of a load that has passed its deadline. -/
def guessed (s : State) (k lid : Nat) : State := match loadAt (coreAt s k) lid with
  | none => s
  | some l => if l.overdue s.now then installGuess s k l else s
/-- R18, R19: a waiting load's deadline has ended without data, and its prediction is installed. -/
def execLoadDeadline (core lid : Nat) (s : State) : Host.Outcome State Fault Refusal := .next (guessed s core lid)

/-- R18: every load of the device whose deadline has ended is guessed, but for the one whose deadline an event names. -/
def expire (s : State) (but : Option (Nat × Nat)) : State :=
  s.cores.foldl (fun a c => (c.2.loads.filter fun l => l.overdue s.now && but != some (c.1, l.num)).foldl (fun b l => guessed b c.1 l.num) a) s

/-- R20: a load's true data arrives, is installed, or confirms or refutes its guess; data that comes after the deadline finds the guess made (R18). A unit below the number of the load's units is only read at its home (R260, R431). -/
def execLoadDataArrival (core : Nat) (lid : ReqUnit) (s : State) : Host.Outcome State Fault Refusal :=
  .next (match loadAt (coreAt s core) lid.num with
    | none => s
    | some l =>
      if !l.reads || l.came.isSome then s
      else match l.pieces[lid.unit]? with
        | some p => if readDue (coreAt s core) l [p] then toHome s core l.own [p] (readUnit s core l lid.unit) else s
        | none =>
          if !readDue (coreAt s core) l l.unread then s
          else
            let s1 := guessed s core lid.num
            toHome s core l.own l.unread (match loadAt (coreAt s1 core) lid.num with
              | none => s1
              | some x => resave (performLoad s1 core x) core l.own))

/-- R431: a unit of a store, a reduction, or a write of ast is performed at its home; a number past the last unit stands for all that are left (R260). -/
def execWritePerformed (core : Nat) (wid : ReqUnit) (s : State) : Host.Outcome State Fault Refusal :=
  .next (match writeAt (coreAt s core) wid.num with
    | none => s
    | some w =>
      if w.held then s
      else match w.pieces[wid.unit]? with
        | some p => if unitDue (coreAt s core) core w p then toHome s core w.own [p] (doUnit s core w wid.unit) else s
        | none => if w.pieces.all (unitDue (coreAt s core) core w) then toHome s core w.own w.pieces (doWrite s core w) else s)

/-- R248, R333: the reply of an atomic or of a token acquire arrives; on another die it follows the core's earlier writes to its line (R274). -/
def execAtomicResult (core lid : Nat) (s : State) : Host.Outcome State Fault Refusal :=
  .next (match loadAt (coreAt s core) lid with
    | none => s
    | some l =>
      if !accessDue (coreAt s core) l.own l.num l.po false l.pieces || l.pieces.any (lineBars (coreAt s core) core l.num) then s
      else match l.kind with
        | .atomic op v => toHome s core l.own l.pieces (doAtomic s core l op v)
        | .token p => toHome s core l.own l.pieces (doToken s core l p)
        | _ => s)

/-- Whether a core has writes or atomics, sent before a number, on their way to a die, or to a peer (numbered from 4), down a path, before which no marker arrives (R275, R276, R403). -/
def writesTo (s : State) (k num die path : Nat) : Bool :=
  let takes := fun (p : Piece) => (postedTo k [p]).contains die && pathOf s k p == path
  let c := coreAt s k
  (c.writes.any fun w => decide (w.num < num) && !w.held && w.pieces.any takes) || c.loads.any fun l => decide (l.num < num) && !l.reads && l.pieces.any takes

/-- A release of a core changed. -/
def modRelease (c : Core) (rid : Nat) (f : Release → Release) : Core :=
  { c with releases := c.releases.map fun r => if r.num = rid then f r else r }

/-- R275: a flush marker reaches a die, or a peer device over one of its links, behind every write sent before it on its path. -/
def execFlushMarkerArrival (core rid die path : Nat) (s : State) : Host.Outcome State Fault Refusal :=
  .next (match lfind (fun (r : Release) => r.num == rid) (coreAt s core).releases with
    | none => s
    | some _ =>
      let shut := decide (4 ≤ die) && !linkWorks s path
      if shut || writesTo s core rid die path then s
      else modCore s core fun c => modRelease c rid fun x =>
        { x with markers := x.markers.map fun m => if m.1 = die && m.2 / 2 ^ path % 2 == 1 then (m.1, m.2 - 2 ^ path) else m })

/-- R275: a die's flush report arrives; with the last one the release has completed. -/
def execFlushReportArrival (core rid die : Nat) (s : State) : Host.Outcome State Fault Refusal :=
  .next (match lfind (fun (r : Release) => r.num == rid) (coreAt s core).releases with
    | none => s
    | some r =>
      if !(r.markers.any fun m => m.1 == die && m.2 == 0) || r.reports.contains die then s
      else
        let reports := r.reports ++ [die]
        if r.markers.all fun m => reports.contains m.1 then
          modCore s core fun c =>
            { modOwner c r.own (fun g => modThread g r.thr fun t => { t with posted := t.posted.filter fun d => !(r.markers.any fun m => m.1 == d) })
              with releases := c.releases.filter fun x => x.num != rid }
        else modCore s core fun c => modRelease c rid fun x => { x with reports := reports })

end Sys2Proof.Machine
end

