-- ==== Sys2Proof/Machine/FrontierEvents.lean ====
section
/-! DEFINITION. Selectors and frontiers: the choice among candidates, fusion, block priorities, promotion, demotion, live bits, and the end of a translation walk (R168 to R185, R224 to R228, R395, R428). -/

namespace Sys2Proof.Machine

/-- What a selector may choose: an open bundle, or an entry of a group's frontier or of a parked sub-group's (R174, R375). -/
inductive Choice where
  | bundle (bid : Nat)
  | entry (slot : Nat) (sub : Option Nat) (start : Word)
deriving DecidableEq, Repr

/-- A candidate with its rank (R174, R185). -/
structure Candidate where
  demoted : Bool
  rank : Rank
  slot : Nat
  what : Choice
deriving DecidableEq, Repr

/-- Whether a candidate is an open bundle. -/
def Candidate.isBundle (x : Candidate) : Bool := match x.what with
  | .bundle _ => true
  | .entry _ _ _ => false

/-- R170, R174, R185: candidates of groups that are not demoted first, then by rank; then an open bundle before an entry, and the lower slot first. DESIGN CHOICE: demotion is compared before promotion, so a promoted entry of a demoted group ranks below (R184 against R185; log entry 76). -/
def Candidate.before (x y : Candidate) : Bool :=
  if x.demoted != y.demoted then !x.demoted
  else if outranks x.rank y.rank then true
  else if outranks y.rank x.rank then false
  else if x.isBundle != y.isBundle then x.isBundle
  else decide (x.slot < y.slot)

/-- The first slot of a bundle. -/
def Bundle.slot (b : Bundle) : Nat := (b.parts.map (·.slot)).headD 0
/-- Whether a bundle belongs to a selector (R165). -/
def Bundle.onSel (b : Bundle) (sel : Nat) : Bool := selOf b.slot == sel
/-- Active bundles of a selector: open and not parked (R175). -/
def activeBundles (c : Core) (sel : Nat) : Nat := (c.ctx.bundles.filter fun x => x.2.onSel sel && !x.2.parked).length

/-- Whether an entry can be taken at a count of cycles: its priority has been read, and its last thread joined it in an earlier cycle (R169, R396, R428). -/
def FEntry.takable (cyc : Nat) (e : FEntry) : Bool := e.ready && decide (e.joined < cyc)
/-- The top-ranked entry of a frontier among those that can be taken (R174). -/
def topEntry (cyc : Nat) (es : List FEntry) : Option FEntry := lbest (fun x y => outranks x.rank y.rank) (es.filter (FEntry.takable cyc))

/-- The candidate that a group's own frontier offers, and those of its parked sub-groups. -/
def groupChoices (cyc slot : Nat) (g : Group) : List Candidate :=
  if !groupReady g then []
  else
    (match topEntry cyc g.frontier with
     | some e => [⟨g.demoted, e.rank, slot, .entry slot none e.start⟩]
     | none => []) ++
    g.subs.filterMap fun x => (topEntry cyc x.2.frontier).map fun e => ⟨g.demoted, e.rank, slot, .entry slot (some x.1) e.start⟩

/-- Whether a bundle can be chosen: its next step can issue, and its groups are ready. -/
def bundleReady (c : Core) (b : Bundle) : Bool := b.wait.isNone && allGroups c b groupReady

/-- The candidates of a selector in a cycle (R174, R175). -/
def candidates (cyc : Nat) (c : Core) (sel : Nat) : List Candidate :=
  (c.ctx.bundles.filterMap fun x =>
    if x.2.onSel sel && bundleReady c x.2 then
      some ⟨!(allGroups c x.2 fun g => !g.demoted), ⟨x.2.promoted, x.2.prio, x.2.age, x.2.start.toNat⟩, x.2.slot, .bundle x.1⟩
    else none) ++
  (if activeBundles c sel < 8 then (c.ctx.groups.filter fun x => selOf x.1 == sel).flatMap fun x => groupChoices cyc x.1 x.2 else [])

/-- The best candidate of a selector. -/
def bestChoice (cyc : Nat) (c : Core) (sel : Nat) : Option Candidate := lbest Candidate.before (candidates cyc c sel)

/-- The wait vector of a frontier's entry. -/
def entryMask (es : List FEntry) (start : Word) : Word := match lfind (fun e => e.start == start) es with
  | some e => e.wait
  | none => 0

/-- A group without an entry of its frontier (R172). -/
def takeEntry (g : Group) (start : Word) : Group := { g with frontier := g.frontier.filter fun e => e.start != start }
/-- A group without an entry of a parked sub-group. -/
def takeSubEntry (g : Group) (sub : Nat) (start : Word) : Group :=
  { g with subs := tmod g.subs sub fun x => { x with frontier := x.frontier.filter fun e => e.start != start } }

/-- R177: the group whose entry fuses with a chosen one: of the same team and selector, with the same start and 16 or fewer threads; the highest-ranked. An entry whose priority has not been read has no rank yet, and does not fuse (log entry 63), nor does one that a thread has joined in this cycle. -/
def fusePartner (cyc : Nat) (c : Core) (sel slot : Nat) (g : Group) (start : Word) : Option (Nat × FEntry) :=
  let xs := c.ctx.groups.filterMap fun x =>
    if x.1 != slot && x.2.team == g.team && selOf x.1 == sel && groupReady x.2 && g.argFailed.isNone && x.2.argFailed.isNone then
      (lfind (fun e => e.start == start && e.takable cyc && decide (popcount e.wait ≤ 16)) x.2.frontier).map fun e => (x.1, e)
    else none
  lbest (fun x y => outranks x.2.rank y.2.rank || (!outranks y.2.rank x.2.rank && decide (x.1 < y.1))) xs

/-- A bundle opened from an entry, with another group's where they fuse (R172, R177); the latches of its threads are lost (R40). -/
def openBundle (s : State) (k sel slot : Nat) (sub : Option Nat) (start : Word) : State :=
  modCore s k fun c => match groupAt c slot with
    | none => c
    | some g =>
      let put := fun (x : Core) (b : Bundle) => { setRun (loseParts (setBundle x x.next b) b.parts) sel (some x.next) with next := x.next + 1 }
      match sub with
      | some j =>
        let es := match tfind g.subs j with
          | some x => x.frontier
          | none => []
        let prio := match lfind (fun (e : FEntry) => e.start == start) es with
          | some e => e.prio
          | none => 0
        put (setGroup c slot (takeSubEntry g j start)) (newBundle [⟨slot, entryMask es start⟩] sub start start 0 prio s.now)
      | none =>
        let m := entryMask g.frontier start
        let prio := match lfind (fun (e : FEntry) => e.start == start) g.frontier with
          | some e => e.prio
          | none => 0
        let c1 := setGroup c slot (takeEntry g start)
        match (if popcount m ≤ 16 then fusePartner (cycOf s k) c sel slot g start else none) with
        | none => put c1 (newBundle [⟨slot, m⟩] none start start 0 prio s.now)
        | some (q, e) =>
          let c2 := modGroup c1 q fun x => takeEntry x start
          let ps := if slot < q then [⟨slot, m⟩, ⟨q, e.wait⟩] else [⟨q, e.wait⟩, ⟨slot, m⟩]
          put c2 (newBundle ps none start start 0 (max prio e.prio) s.now)

/-- A bundle given the selector again: its latches are lost where another has had it (R40, R176). -/
def resumeBundle (s : State) (k sel bid : Nat) : State :=
  modCore s k fun c => match bundleAt c bid with
    | none => c
    | some b =>
      let c1 := setBundle c bid { b with yield := false }
      if runOf c sel = some bid then c1 else setRun (loseParts c1 b.parts) sel (some bid)

/-- Whether a selector chooses now: it has no bundle, or its bundle waits at a place where it may switch, and no exchange has stopped it (R174, R178, R382). -/
def maySwitch (c : Core) (sel : Nat) : Bool :=
  c.exch != .swap && (match runOf c sel with
    | none => true
    | some bid => match bundleAt c bid with
      | none => true
      | some b => mayLeave b)

/-- Spilled entries of the groups of a bundle just opened return as there is room (R171). -/
def refillRun (s : State) (k sel : Nat) : State :=
  match (runOf (coreAt s k) sel).bind (bundleAt (coreAt s k)) with
  | none => s
  | some b => b.parts.foldl (fun a p => match groupAt (coreAt a k) p.slot with
    | none => a
    | some g => refillAt 16 a k g.uid) s
/-- R174: a selector chooses the highest-ranked candidate, and goes on with it or opens its bundle. -/
def choose (s : State) (k sel : Nat) : State :=
  let c := coreAt s k
  if !maySwitch c sel then s
  else match bestChoice (cycOf s k) c sel with
    | none => s
    | some x => match x.what with
      | .bundle bid => resumeBundle s k sel bid
      | .entry slot sub start => refillRun (openBundle s k sel slot sub start) k sel

/-- Whether a period of a tile cluster lies in the halved window after an alarm (R369). -/
def Tc.halving (t : Tc) : Bool := decide (t.stretch ≤ t.cyc) && decide (t.cyc < t.halved)
/-- Whether a tile cluster issues in this period: in the halved window only where CYC is even; an alarm changes nothing before the next period (R369). -/
def Tc.issues (t : Tc) : Bool := !(t.halving && t.cyc % 2 == 1) && t.barred != some t.cyc
def issues (s : State) (tc : Nat) : Bool := (tcAt s tc).issues
/-- Whether a selector of a core has issued no packet in this period yet (R174). -/
def freshPeriod (s : State) (k sel : Nat) : Bool := tfind (coreAt s k).packetAt sel != some (cycOf s k)
/-- R172, R174, R177: a selector's choice, in a period in which its tile cluster issues and the selector has issued no packet (R370); the clock of its tile cluster is brought up to the time. -/
def execSelectorChoice (core sel : Nat) (s : State) : Host.Outcome State Fault Refusal :=
  .next (
    let s1 := settleTc s (tcOf core)
    let c := coreAt s1 core
    if issues s1 (tcOf core) && freshPeriod s1 core sel && maySwitch c sel && (bestChoice (cycOf s1 core) c sel).isSome then choose s1 core sel else s)

/-- The entries of a group and its sub-groups at a start changed. -/
def modEntries (g : Group) (start : Word) (f : FEntry → FEntry) : Group :=
  let m := fun (es : List FEntry) => es.map fun e => if e.start = start then f e else e
  { g with frontier := m g.frontier, spilled := m g.spilled, subs := tmap g.subs fun _ x => { x with frontier := m x.frontier } }
/-- Every entry of a group and its sub-groups. -/
def allEntries (g : Group) : List FEntry := g.frontier ++ g.spilled ++ g.subs.flatMap fun x => x.2.frontier

/-- R428: the read of a new entry's priority completes, or faults and parks the group. -/
def execBlockPriorityRead (core slot start : Nat) (s : State) : Host.Outcome State Fault Refusal :=
  .next (match groupAt (coreAt s core) slot with
    | none => s
    | some g =>
      let w : Word := BitVec.ofNat 32 start
      if !(allEntries g).any fun e => e.start == w && !e.ready && e.fid == none then s
      else if isControl core then modCore s core fun c => modGroup c slot fun x => modEntries x w fun y => { y with ready := true }
      else if !walkerFree s (dieOf core) then s
      else
        let h := hdrOf s g.lseq
        let va := h.bptab + 2 * start
        match walked s h.ptroot va prioAccess with
        | (s0, .leaf e level at') =>
          let p := leafPiece s e (leafPpn e * 2 ^ 14 + va % 2 ^ levelShift level) 2
          let s1 := modCore (bringLines (touchEntry s0 at' prioAccess e) false [p]) core fun c => modGroup c slot fun x =>
            modEntries x w fun y => if y.ready then y else { y with prio := pieceRead s p, ready := true }
          if g.spilled.any fun y => y.start == w then putSpill s1 core g.uid 0 else s1
        | (s0, .fault kind level) =>
          if !faultRoom s (dieOf core) then s
          else
            let (s1, fid) := newFault s0 (dieOf core) (.entry core g.uid start) va kind prioAccess level core slot g.lseq
            modCore s1 core fun c => modGroup c slot fun x =>
              { modEntries x w (fun y => if y.ready then y else { y with fid := some fid }) with faults := x.faults ++ [fid] })

/-- The lowest-ranked entry that is not promoted. -/
def lowestPlain (es : List FEntry) : Option FEntry := lowest (es.filter fun e => !e.promoted)

/-- R171: a promoted entry that was spilled returns at once, in the place of the lowest-ranked one that is not promoted. -/
def unspillPromoted (g : Group) (start : Word) : Group :=
  match lfind (fun e => e.start == start && e.promoted) g.spilled with
  | none => g
  | some e =>
    let sp := g.spilled.filter fun x => x != e
    if g.frontier.any fun x => x.start == start then
      { g with frontier := g.frontier.map (fun x => if x.start = start then mergeEntry x e else x), spilled := sp }
    else if g.frontier.length < 16 then { g with frontier := g.frontier ++ [e], spilled := sp }
    else match lowestPlain g.frontier with
      | none => g
      | some l => { g with frontier := g.frontier.filter (fun x => x.start != l.start) ++ [e], spilled := l :: sp }

/-- A group with the entries of a start that are older than 4,096 cycles promoted (R184). -/
def promote (cyc : Nat) (start : Word) (g : Group) : Group :=
  unspillPromoted (modEntries g start fun e => if e.cyc + 4096 < cyc then { e with promoted := true } else e) start
/-- R184: an entry older than 4,096 cycles is promoted; the spill stack follows its entries (R213). -/
def execEntryPromotion (core slot start : Nat) (s : State) : Host.Outcome State Fault Refusal :=
  .next (match groupAt (coreAt s core) slot with
    | none => s
    | some g =>
      let g1 := promote (cycOf s core) (BitVec.ofNat 32 start) g
      let s1 := modCore s core fun c => setGroup c slot g1
      if g1.spilled == g.spilled then s1 else putSpill s1 core g.uid 0)

/-- R185: a group whose streak has reached 3 is demoted. -/
def execGroupDemotion (core slot : Nat) (s : State) : Host.Outcome State Fault Refusal :=
  .next (modCore s core fun c => modGroup c slot fun g => if 3 ≤ g.streak && !g.demoted then { g with demoted := true } else g)

/-- R395: the bit of an ended team clears in a member core's copy, no earlier than 8 cycles of that core's clock after the end. -/
def execLiveBitClear (core cluster rank : Nat) (s : State) : Host.Outcome State Fault Refusal :=
  .next (match tfind s.clusters cluster with
    | none => s
    | some cl => match (cl.teams[rank]?).bind (teamAt s) with
      | none => s
      | some t => if !t.ended || cycOf s core < tget 0 t.endCyc (tcOf core) + 8 then s
        else modCore s core fun c => { c with live := tmod c.live cluster fun m => m &&& ~~~(oneBit rank) })

/-- A translation put in a core's cache, where it stands for an older one of its page; a full one gives up the entry at an index that the event names (R225). -/
def cacheLeaf (c : Core) (victim : Nat) (e : TlbEntry) : Core :=
  let old := c.tlb.filter fun t => !(t.root == e.root && t.va == e.va && t.size == e.size)
  let kept := if old.length < Config.tlbSize then old else old.eraseIdx (victim % Config.tlbSize)
  { c with tlb := e :: kept }

/-- R226: a walk ends, its reads having brought their lines (R225): the step may issue, its silent failure is noted (R21, R251), or its fault is recorded and parks the group. -/
def endWalk (s0 : State) (k victim : Nat) (w : Walk) : State :=
  let s := (walked s0 w.root w.va w.access).1
  let drop := fun (c : Core) => { c with walks := c.walks.filter fun x => x.num != w.num }
  let mark := fun (f : Walk → Walk) (c : Core) => { c with walks := c.walks.map fun x => if x.num = w.num then f x else x }
  match walkTable s0 w.root w.va w.access with
  | .leaf e level at' =>
    let size := 2 ^ levelShift level
    modCore (touchEntry s at' w.access e) k fun c => cacheLeaf (drop c) victim ⟨w.root, w.va / size * size, size, touched w.access e⟩
  | .fault kind level =>
    if w.spec then modCore s k (mark fun x => { x with failed := true })
    else if !faultRoom s (dieOf k) then s0
    else
      let (s1, fid) := newFault s (dieOf k) (.walk k w.num) w.va kind w.access level k w.slot w.lseq
      modCore s1 k fun c => modOwner (mark (fun x => { x with fid := some fid }) c) w.own fun g => { g with faults := g.faults ++ [fid] }

/-- How many walks of a die began before one, by time, core and number: 64 are in flight at once (R225). -/
def walksBefore (s : State) (k : Nat) (w : Walk) : Nat :=
  (s.cores.map fun x => if dieOf x.1 = dieOf k then (x.2.walks.filter fun y => y.active &&
    (decide (y.since < w.since) || (y.since == w.since && (decide (x.1 < k) || (x.1 == k && decide (y.num < w.num)))))).length else 0).sum
/-- R226: a walk of a core ends. -/
def execTranslationWalk (core wid victim : Nat) (s : State) : Host.Outcome State Fault Refusal :=
  .next (match lfind (fun (w : Walk) => w.num == wid) (coreAt s core).walks with
    | none => s
    | some w => if w.active && decide (walksBefore s core w < 64) then endWalk s core victim w else s)

end Sys2Proof.Machine
end

