-- ==== Sys2Proof/Machine/MatrixEvents.lean ====
section
/-! DEFINITION. The matrix engine: what an update computes, the take of queued words, eviction and return of tiles, and the rail loop (R280 to R300, R318 to R323, R336). -/

namespace Sys2Proof.Machine

/-- The format of an update's elements: 0 bf16, 1 f16, 2 e4m3, 3 e5m2, 4 e3m2, 5 e2m3, 6 e2m1 (R316). -/
def elemFmt : Nat → Fmt
  | 0 => bf16
  | 1 => f16
  | 2 => e4m3
  | 3 => e5m2
  | 4 => e3m2
  | 5 => e2m3
  | _ => e2m1
/-- Storage width of an element (R283). -/
def elemBits : Nat → Nat
  | 0 => 16
  | 1 => 16
  | 6 => 4
  | _ => 8
/-- Width of a product's significand (R296). -/
def prodBits : Nat → Nat
  | 0 => 16
  | 1 => 22
  | 2 => 8
  | 3 => 6
  | 4 => 6
  | 5 => 8
  | 6 => 4
  | _ => 16

/-- The elements of a fragment, k rising (R283). -/
def elements (fmt : Nat) (regs : List Word) : List Nat :=
  let w := elemBits fmt
  regs.flatMap fun r => (List.range (32 / w)).map fun j => r.toNat / 2 ^ (w * j) % 2 ^ w

/-- The exact value of an element; an i8 element is an integer (R98, R295). -/
def elemValue (fmt e : Nat) : FVal :=
  if fmt = 7 then ofIntF (BitVec.ofNat 8 e).toInt
  else if fmt = 4 || fmt = 5 then decodeF (elemFmt fmt) (e % 64)
  else decodeF (elemFmt fmt) e

/-- A computed significand at a fidelity level: the low bits of an undervolted product may take any value (R296). -/
def sliced (level width p draw : Nat) : Nat :=
  if level = 0 then p else let m := 2 ^ (level * width / 4); p / m * m + Config.flicker draw % m

/-- A product, exact or at a fidelity level; zeros, infinities and NaNs bypass the slices (R295). -/
def slicedProduct (level fmt draw : Nat) (a b : FVal) : FVal :=
  match mulF a b with
  | .fin n m e => if m = 0 then .fin n m e else .fin n (sliced level (prodBits fmt) m draw) e
  | x => x

/-- The factor of two scale bytes, applied to a product (R108). -/
def scaled (x : FVal) (xa xb : Nat) : FVal :=
  match scaleExp xa, scaleExp xb with
  | some p, some q => x.scale (p + q)
  | _, _ => .nan false

/-- What one update does in one cell: its level, format, semiring, whether it is an MX form, its operands, and the number of its first free draw. -/
structure CellOps where
  level : Nat
  fmt : Nat
  sr : Option Nat
  mx : Bool
  a : List Nat
  b : List Nat
  xa : Word
  xb : Word
  odd : Nat
  draw : Nat

/-- The products of a cell (R108, R284, R296). -/
def CellOps.products (o : CellOps) : List FVal :=
  imap (fun j (ab : Nat × Nat) =>
    let p := slicedProduct o.level o.fmt (o.draw + j) (elemValue o.fmt ab.1) (elemValue o.fmt ab.2)
    if o.mx then scaled p (byteOf o.xa.toNat (j / 32)) (byteOf o.xb.toNat (2 * (j / 32) + o.odd)) else p) 0 (o.a.zip o.b)

/-- The integer of an exact product of integers. -/
def intOf : FVal → Int
  | .fin n m e => let v : Int := (m * 2 ^ e.toNat : Nat); if n then -v else v
  | _ => 0

/-- The new value of a cell (R108, R110, R293). -/
def CellOps.cell (o : CellOps) (acc : Nat) : Nat :=
  let pairs := o.a.zip o.b
  match o.sr with
  | none =>
    if o.fmt = 7 then (((BitVec.ofNat 32 acc).toInt + (o.products.map intOf).sum) % 2 ^ 32).toNat
    else cellUpdate 8 o.products acc
  | some 0 => pairs.foldl (fun x ab => (minMaxF f32 false x (encRn f32 (addF (decodeF bf16 ab.1) (decodeF bf16 ab.2))).1).1) acc
  | some 1 => pairs.foldl (fun x ab => (minMaxF f32 true x (encRn f32 (mulF (decodeF bf16 ab.1) (decodeF bf16 ab.2))).1).1) acc
  | some _ =>
    let zero := fun (f : Fmt) (x : Nat) => (decodeF f x).isZero
    if !zero f32 acc || pairs.any fun ab => !zero bf16 ab.1 && !zero bf16 ab.2 then 0x3F800000 else 0

/-- The identity of a semiring, which a fresh row reads as (R292). -/
def srIdentity : Option Nat → Nat
  | some 0 => 0x7F800000
  | some 1 => 0xFF800000
  | _ => 0

/-- The operands of the cell of row r and column c (R283, R284). -/
def cellOps (level : Nat) (sr : Option Nat) (fmt : Nat) (mx : Bool) (a b : List (List Word)) (xa xb : List Word) (draw r c : Nat) : CellOps :=
  let t := c / 2
  let frag := lget [] b t
  { level := level, fmt := fmt, sr := sr, mx := mx, a := elements fmt (lget [] a r)
    b := elements fmt ((if c % 2 = 0 then frag else frag.drop 8).take 8)
    xa := lget 0 xa r, xb := lget 0 xb t, odd := c % 2, draw := draw + 64 * (64 * r + c) }

/-- A tile after an update of some rows (R281, R286, R292, R318). -/
def updateTile (t : Tile) (sr : Option Nat) (rows rg : Word) (ops : Nat → Nat → CellOps) : Tile :=
  let rs := members rows
  { t with
    cells := rs.foldl (fun m r => (List.range 64).foldl (fun m c =>
      let base := if hasBit t.fresh r then srIdentity sr else (tget (0 : Word) t.cells (64 * r + c)).toNat
      tput m (64 * r + c) (BitVec.ofNat 32 ((ops r c).cell base))) m) t.cells
    fresh := t.fresh &&& ~~~rows, rg := t.rg ||| rg }

/-- The slice that holds the most significant bit in which two significands differ, if they differ (R295, R298). -/
def badSlice (width p q : Nat) : Option Nat :=
  if p = q then none
  else
    let b := Nat.log2 (p ^^^ q)
    some (((List.range 4).filter fun j => decide (j * width / 4 ≤ b)).getLastD 0)

/-- The slices of the mismatches among the checked products of a cell (R298). -/
def CellOps.mismatches (o : CellOps) : List Nat :=
  (imap (fun j (ab : Nat × Nat) =>
    match mulF (elemValue o.fmt ab.1) (elemValue o.fmt ab.2) with
    | .fin _ m _ => if m = 0 then none else badSlice (prodBits o.fmt) m (sliced o.level (prodBits o.fmt) m (o.draw + j))
    | _ => none) 0 (o.a.zip o.b)).filterMap id

/-- A tile allocated from the free list, with every row fresh (R289). -/
def freshTile (n : Nat) : Tile := { place := .slot n, cells := [], rg := 0, fresh := 0xFFFFFFFF }

/-- Whether the shadow bank's matrix words go first: those of the outgoing groups (R382). -/
def useShadow (c : Core) : Bool :=
  c.exch == .spill && (!c.shadow.mq0.isEmpty || !c.shadow.mq1.isEmpty || c.shadow.engine.isSome)
/-- The context whose matrix words the engine works on. -/
def matrixCtx (c : Core) : Ctx := if useShadow c then c.shadow else c.ctx
def setMatrixCtx (sh : Bool) (c : Core) (x : Ctx) : Core := if sh then { c with shadow := x } else { c with ctx := x }

/-- A selector's queue of a context. -/
def Ctx.queue (x : Ctx) (sel : Nat) : List MWord := if sel = 0 then x.mq0 else x.mq1
def Ctx.setQueue (x : Ctx) (sel : Nat) (q : List MWord) : Ctx := if sel = 0 then { x with mq0 := q } else { x with mq1 := q }

/-- The age order of teams and groups: lower launch, team and group first (R290). -/
def groupAge (s : State) (g : Group) : Nat :=
  let idx := match teamAt s g.team with
    | some t => t.idx
    | none => 0
  (g.lseq * 2 ^ 32 + idx) * 32 + g.gnum

/-- Whether a word needs a slot: an update or azero that names an unmapped tile (R289). -/
def needsSlot (g : Group) (w : MWord) : Bool :=
  (tfind g.tiles w.tile).isNone && (match w.what with
    | .update _ _ _ _ _ _ _ _ _ => true
    | .azero => true
    | _ => false)

/-- The evicted tiles of a team in a context: group slot, number and record (R291). -/
def evictedTiles (x : Ctx) (team : Nat) : List (Nat × Nat × Nat) :=
  (teamTiles x team).filterMap fun y => match y.2.2.place with
    | .evicted j => some (y.1, y.2.1, j)
    | .slot _ => none

/-- Whether a word asks for slots: it needs one, or its team's tiles must return first (R290, R291; log entry 72). -/
def asksSlot (x : Ctx) (g : Group) (w : MWord) : Bool := needsSlot g w || !(evictedTiles x g.team).isEmpty
/-- The groups whose words in a queue ask for slots. -/
def slotAsks (x : Ctx) (sel : Nat) : List Group := (x.queue sel).filterMap fun w => match findUid x.groups w.own with
  | some g => if asksSlot x g w then some g else none
  | none => none
/-- The age of a queue's oldest request: the words before it are served for it (R290; log entry 72). -/
def oldestAsk (s : State) (x : Ctx) (sel : Nat) : Option Nat := lbest (fun a b => decide (a < b)) ((slotAsks x sel).map (groupAge s))

/-- The slot that the request at the head of a queue may take: one is free, and no older request waits in the other queue (R290). -/
def slotFor (s : State) (x : Ctx) (sel : Nat) : Option Nat :=
  match x.accFree with
  | [] => none
  | n :: _ => match oldestAsk s x (1 - sel), oldestAsk s x sel with
    | some o, some m => if o < m then none else some n
    | _, _ => some n

/-- A group of a context changed. -/
def modCtxUid (x : Ctx) (u : Nat) (f : Group → Group) : Ctx := { x with groups := modUid x.groups u f }

/-- The registers or bytes that a readout converts eight cells to (R319). -/
def readoutWords (cv : Nat) (cells : List Word) : List Word :=
  let enc := fun (f : Fmt) (sat : Bool) (x : Word) => (encodeF f (decodeF f32 x.toNat) .rn sat).1
  let pack := fun (n w : Nat) (f : Fmt) (sat : Bool) => (List.range (8 / n)).map fun i =>
    BitVec.ofNat 32 ((List.range n).foldl (fun a j => a + enc f sat (lget 0 cells (n * i + j)) * 2 ^ (w * j)) 0)
  match cv with
  | 0 => cells
  | 1 => pack 2 16 bf16 false
  | 2 => pack 2 16 f16 false
  | _ => pack 4 8 e4m3 true

/-- Eight cells of a row of a tile; an unmapped tile and a fresh row read zeros (R289, R292). -/
def readCells (g : Group) (tile row cg : Nat) : List Word :=
  match tfind g.tiles tile with
  | none => List.replicate 8 0
  | some t => (List.range 8).map fun j => if hasBit t.fresh row then 0 else tget (0 : Word) t.cells (64 * row + 8 * cg + j)
/-- RG of a row. -/
def readRg (g : Group) (tile row : Nat) : Bool := match tfind g.tiles tile with
  | some t => hasBit t.rg row
  | none => false

/-- An ard taken: its registers are written in every row's thread (R319, R320). -/
def takeArd (c : Core) (g : Group) (w : MWord) (cv cg : Nat) (rows : Word) (dsts : List Nat) : Core :=
  (members rows).foldl (fun a r =>
    writeRegs a w.own a.next (some r) dsts (readRg g w.tile r) dsts (readoutWords cv (readCells g w.tile r cg))) c

/-- Words put together as bytes, low first. -/
def wordsBytes (xs : List Word) : Nat := (imap (fun i (x : Word) => x.toNat * 2 ^ (32 * i)) 0 xs).sum

/-- The window that must have been compared before an ast of a primary writes to spaces g and d: the last that its thread has closed. DESIGN CHOICE: an ast adds no item to the stream, and one held for the open window would never retire where the thread waits for it by owait.mx (R321, R389; log entry 76). -/
def astWindow (t : Thread) : Option Nat := if t.windows.isEmpty then none else some (t.compared + t.windows.length - 1)
/-- An ast taken: the cells are read, and each thread's bytes become a write of the engine (R321). A mirror writes none to spaces g and d, and a primary's wait for the compare (R389). -/
def takeAst (s : State) (k : Nat) (g : Group) (w : MWord) (cv cg : Nat) (ts : List (Nat × List Piece)) : State :=
  let role := match teamAt s g.team with
    | some t => t.role
    | none => .plain
  (ts.zip w.ops).foldl (fun a x => modCore a k fun c =>
    let data := wordsBytes (readoutWords cv (readCells g w.tile x.1.1 cg))
    let out := x.1.2.any fun p => decide (p.loc < tsmBase)
    let gate := if role == .primary && out then astWindow (threadAt g x.1.1) else none
    if role == .mirror && out then finishFor c w.own (some x.2)
    else { c with next := c.next + 1, writes := c.writes ++
      [{ num := c.next, own := w.own, slot := w.slot, thr := some (32 + x.1.1), po := oneBit x.1.1, lseq := g.lseq, pieces := x.1.2, data := data, rmw := none, rel := false,
         ty := 4, op := some x.2, held := gate.isSome, window := gate.getD 0, begun := false }] }) s

/-- A context with a tile of a group mapped, from the free list. -/
def mapTile (x : Ctx) (u tile n : Nat) : Ctx :=
  modCtxUid { x with accFree := x.accFree.filter (· != n) } u fun g => { g with tiles := tput g.tiles tile (freshTile n) }

/-- A word that the engine has taken from the head of its queue, with its slot where it needed one (R318 to R322). -/
def takeWord (s : State) (k : Nat) (sh : Bool) (x : Ctx) (g : Group) (w : MWord) : State :=
  match w.what with
  | .update _ _ _ _ _ _ _ _ _ => modCore s k fun c => setMatrixCtx sh c { x with engine := some w }
  | .ard cv cg rows dsts => modCore s k fun c => takeArd (setMatrixCtx sh c x) g w cv cg rows dsts
  | .ast cv cg ts => takeAst (modCore s k fun c => setMatrixCtx sh c x) k g w cv cg ts
  | .azero => modCore s k fun c => setMatrixCtx sh c (modCtxUid x w.own fun y =>
      { y with tiles := tmod y.tiles w.tile fun t => { t with cells := [], rg := 0, fresh := 0xFFFFFFFF } })
  | .arel =>
    let slots := match tfind g.tiles w.tile with
      | some t => (match t.place with
        | .slot n => [n]
        | .evicted _ => [])
      | none => []
    modCore s k fun c => setMatrixCtx sh c
      (modCtxUid { x with accFree := freeSlots x.accFree slots } w.own fun y => { y with tiles := tdel y.tiles w.tile })

/-- R285, R289, R323, R336: the engine, when it is free, takes the word at the head of a selector's queue. -/
def takeMatrix (s : State) (k sel : Nat) : State :=
  let c := coreAt s k
  let x := matrixCtx c
  let sh := useShadow c
  match x.engine, x.queue sel with
  | none, w :: r =>
    match findUid x.groups w.own with
    | none => modCore s k fun a => setMatrixCtx sh a (x.setQueue sel r)
    | some g =>
      if !(evictedTiles x g.team).isEmpty then s
      else
        let y := x.setQueue sel r
        if needsSlot g w then
          match slotFor s x sel with
          | none => s
          | some n => takeWord s k sh (mapTile y w.own w.tile n) g w
        else takeWord s k sh y g w
  | _, _ => s
def execMatrixWordTake (core sel : Nat) (s : State) : Host.Outcome State Fault Refusal := .next (takeMatrix s core sel)

/-- The counts of a checked update added to its team and to its core's rail windows (R298 to R300). -/
def countChecks (s : State) (k u level macs : Nat) (bad : List Nat) : State :=
  let s1 := modTeam s u fun t =>
    { t with checked := t.checked + macs, flk := bad.foldl (fun m j => tput m j (BitVec.ofNat 32 (satAdd32 (tget (0 : Word) m j).toNat 1))) t.flk }
  modCore s1 k fun c =>
    { c with chk := c.chk + 1, win := (List.range 3).foldl (fun m j =>
        if level = 0 then m
        else let x := tget (0, 0) m (4 * j + level); tput m (4 * j + level) (x.1 + (bad.filter (· == j)).length, x.2 + macs)) c.win }

/-- R298, R299, R318: the update under way finishes: its cells change, one column is checked, and it retires. -/
def finishUpdate (s : State) (k : Nat) : State :=
  let c := coreAt s k
  let x := matrixCtx c
  let sh := useShadow c
  match x.engine with
  | none => s
  | some w =>
    match w.what, findUid x.groups w.own with
    | .update sr fmt mx rows a b xa xb rg, some g =>
      let level := if sr.isSome then 0 else (hdrOf s g.lseq).fid
      let ops := cellOps level sr fmt mx a b xa xb s.draws
      let y := modCtxUid { x with engine := none } w.own fun h => { h with tiles := tmod h.tiles w.tile fun t => updateTile t sr rows rg ops }
      let col := c.chk % 64
      let bad := (members rows).flatMap fun r => (ops r col).mismatches
      let macs := popcount rows * (32 / elemBits fmt * 8)
      let s1 := modCore s k fun c => setMatrixCtx sh c y
      let s2 := countChecks s1 k g.team level macs bad
      let s3 := { s2 with draws := s2.draws + 131072 }
      endOwner (modCore s3 k fun c => w.ops.foldl (fun a o => finishFor a w.own (some o)) c) k w.own
    | _, _ => modCore s k fun c => setMatrixCtx sh c { x with engine := none }
def execMatrixUpdateComplete (core : Nat) (s : State) : Host.Outcome State Fault Refusal := .next (finishUpdate s core)

/-- The teams that hold slots of a context. -/
def slotTeams (x : Ctx) : List Nat :=
  (x.groups.filter fun g => !(tileSlots g.2).isEmpty).foldl (fun a g => if a.contains g.2.team then a else a ++ [g.2.team]) []

/-- Whether a team waits for a slot, or has every open bundle parked (R291). -/
def teamIdle (x : Ctx) (team : Nat) : Bool :=
  (slotAsks x 0 ++ slotAsks x 1).any (fun g => g.team == team) ||
  x.bundles.all fun b => !(b.2.parts.any fun p => slotIn x [team] p.slot) || b.2.parked

/-- The age of a team: lower launch and index first. -/
def teamAge (s : State) (u : Nat) : Nat := match teamAt s u with
  | some t => t.lseq * 2 ^ 32 + t.idx
  | none => 0

/-- Whether the engine works for a team. -/
def engineFor (x : Ctx) (team : Nat) : Bool := match x.engine with
  | some w => (match findUid x.groups w.own with
    | some g => g.team == team
    | none => false)
  | none => false

/-- Whether the word at the head of a queue can be taken, as far as slots go (R290, R291). -/
def headTakes (s : State) (x : Ctx) (sel : Nat) : Bool := match (x.queue sel).head? with
  | none => false
  | some w => match findUid x.groups w.own with
    | none => true
    | some g => (evictedTiles x g.team).isEmpty && (!needsSlot g w || (slotFor s x sel).isSome)
/-- Whether a slot request waits, and nothing at the queues' heads can go on without it (R291). -/
def slotWaits (s : State) (x : Ctx) : Bool := !(slotAsks x 0 ++ slotAsks x 1).isEmpty && !headTakes s x 0 && !headTakes s x 1
/-- A team's tiles marked evicted, each at its record, and their slots free (R291). -/
def evictTeam (x : Ctx) (team : Nat) : Ctx :=
  let ts := teamTiles x team
  let slots := (x.groups.filter fun g => g.2.team == team).flatMap fun g => tileSlots g.2
  (imap (fun j (y : Nat × Nat × Tile) => (j, y)) 0 ts).foldl (fun a y =>
    { a with groups := tmod a.groups y.2.1 fun g => { g with tiles := tmod g.tiles y.2.2.1 fun t => { t with place := .evicted y.1 } } })
    { x with accFree := freeSlots x.accFree slots }

/-- R291: while a slot request waits and every team that holds slots waits or is parked, as the teams of an outgoing context all are, the youngest of them has its slots written to its record and gives them up. -/
def execTileEviction (core : Nat) (s : State) : Host.Outcome State Fault Refusal :=
  .next (
    let c0 := coreAt s core
    let x := matrixCtx c0
    let ts := slotTeams x
    if slotWaits s x && (useShadow c0 || ts.all (teamIdle x)) then
      match lbest (fun a b => decide (teamAge s b < teamAge s a)) ts with
      | none => s
      | some u => if engineFor x u then s else modCore (saveTiles s x u) core fun c => setMatrixCtx (useShadow c0) c (evictTeam x u)
    else s)

/-- The age that the return of a team's tiles has among slot requests: its own, or that of the oldest request of a queue whose head is the team's (R291; log entry 72). -/
def returnAge (s : State) (x : Ctx) (team : Nat) : Nat :=
  [0, 1].foldl (fun a sel => match (x.queue sel).head?.bind fun w => findUid x.groups w.own, oldestAsk s x sel with
    | some g, some o => if g.team = team then min a o else a
    | _, _ => a) (32 * teamAge s team)
/-- Whether a request older than a return waits in a queue that the team does not head (R291). -/
def olderWaits (s : State) (x : Ctx) (team : Nat) : Bool :=
  [0, 1].any fun sel => match (x.queue sel).head?.bind fun w => findUid x.groups w.own, oldestAsk s x sel with
    | some g, some o => g.team != team && decide (o < returnAge s x team)
    | _, _ => false

/-- R291: the evicted tiles of a team return together from their records, when there are slots for all and no older request waits. -/
def execTileReturn (core team : Nat) (s : State) : Host.Outcome State Fault Refusal :=
  .next (
    let c0 := coreAt s core
    let x := matrixCtx c0
    let es := evictedTiles x team
    match teamAt s team with
    | none => s
    | some t =>
      if es.isEmpty || x.accFree.length < es.length || olderWaits s x team then s
      else modCore s core fun c => setMatrixCtx (useShadow c0) c ((es.zip x.accFree).foldl (fun y e =>
        { y with accFree := y.accFree.filter (· != e.2)
                 groups := tmod y.groups e.1.1 fun g => { g with tiles := tmod g.tiles e.1.2.1 (loadTile s t e.1.2.2 e.2) } }) x))

/-- The reciprocal of the declared rate of a level (R297). -/
def rateInverse : Nat → Nat
  | 1 => 10 ^ 9
  | 2 => 10 ^ 8
  | _ => 10 ^ 7

/-- The rail floor of a level, which the configuration image in force sets (R300, R423). -/
def floorOf (s : State) (level : Nat) : Nat := match s.boot.railFloors with
  | some fs => lget 0 fs level
  | none => Config.railFloor level
/-- One slice and level at the end of a rail window, with the floors of the levels (R300). -/
def railStep (floor : Nat → Nat) (c : Core) (j level : Nat) : Core :=
  let i := 4 * j + level
  let (bad, macs) := tget (0, 0) c.win i
  let now := tget Config.nominalRail c.sp i
  let n := rateInverse level
  if macs < bad * n then { c with sp := tput c.sp i (min (now + 10) Config.nominalRail), quiet := tdel c.quiet i }
  else if 4 * bad * n ≤ macs then
    let q := tget 0 c.quiet i + 1
    if q = 64 then { c with sp := tput c.sp i (min now (max (now - 5) (floor level))), quiet := tdel c.quiet i }
    else { c with quiet := tput c.quiet i q }
  else { c with quiet := tdel c.quiet i }

/-- R300: a 1 ms window ends, and the setpoints of the undervolted slices of each level move. -/
def execRailLoopWindow (core : Nat) (s : State) : Host.Outcome State Fault Refusal :=
  .next (
    let c := coreAt s core
    if s.now < c.winAt + 1000000 then s
    else
      let c1 := [(0, 1), (0, 2), (1, 2), (0, 3), (1, 3), (2, 3)].foldl (fun a x => railStep (floorOf s) a x.1 x.2) c
      setCore s core { c1 with win := [], winAt := c.winAt + 1000000 })

end Sys2Proof.Machine
end

