-- ==== Sys2Proof/Machine/CopyEvents.lean ====
section
/-! DEFINITION. The copy engine: the start of a request, its bursts, its faults and its retirement (R302 to R309). -/

namespace Sys2Proof.Machine

/-- Where bytes of the copy engine's access lie: at pieces; at a team that has ended; at an address that fails R209; or at a translation fault (R309). -/
inductive Spot where
  | found (ps : List Piece)
  | gone
  | bad
  | fault (va kind level : Nat)
deriving DecidableEq, Repr

/-- n bytes of global memory for the copy engine (R105, R106, R224, R226). -/
def engineG (root access n : Nat) (s : State) (va len : Nat) : State × Spot :=
  match reachVa root access n s va len with
  | (s1, .found ps) => (s1, .found ps)
  | (s1, .fault a kind level) => (s1, .fault a kind level)

/-- n bytes of a space for a request's engine, under its core's live bits (R209 to R212, R309, R395). -/
def engineReach (s : State) (k : Nat) (h : Hdr) (team access sp a n : Nat) : State × Spot :=
  match sp with
  | 0 => if a + n ≤ 2 ^ 56 then engineG h.ptroot access 3 s a n else (s, .bad)
  | 1 => (s, if a + n ≤ h.tsm then .found [sramPiece (tsmLoc team a) n (dieOf k)] else .bad)
  | 2 =>
    let r := slice a 21 18
    let off := slice a 17 0
    (s, if a / 2 ^ 22 != 0 || r ≥ h.clw * h.clh || off + n > h.tsm then .bad
      else match teamAt s team with
        | none => .gone
        | some t =>
          if !hasBit (tget 0 (coreAt s k).live t.cluster) r then .gone
          else match rankTeam s t r with
            | none => .gone
            | some (u, x) => .found [sramPiece (tsmLoc u off) n (dieOf x.core)])
  | _ =>
    let d := slice a 28 27
    let off := slice a 26 0
    (s, if a / 2 ^ 29 != 0 || off + n > h.spwin then .bad else .found [sramPiece (scratchLoc d (lget 0 h.wbase d + off)) n d])

/-- Index i of a gather's or scatter's list (R303). -/
def copyIndex (s : State) (x : Copy) (i : Nat) : Nat := memRead s.mem (tsmLoc x.team (recAux x.bytes + 4 * i)) 4

/-- The source address of byte i of a request (R303). -/
def copySrc (s : State) (x : Copy) (i : Nat) : Nat :=
  let e := recUnit x.bytes
  if recKind x.bytes = 1 then recSrc x.bytes + copyIndex s x (i / e) * e + i % e else recSrc x.bytes + i
/-- The destination address of byte i of a request. -/
def copyDst (s : State) (x : Copy) (i : Nat) : Nat :=
  let e := recUnit x.bytes
  if recKind x.bytes = 2 then recDst x.bytes + copyIndex s x (i / e) * e + i % e else recDst x.bytes + i

/-- The ranks that a request is delivered to: those of a multicast, or one delivery (R303). -/
def copyRanks (x : Copy) : List Nat := if recKind x.bytes = 3 then members (BitVec.ofNat 32 (recAux x.bytes)) else [0]

/-- Whether n positions from first on are all among intervals. -/
def covers (left : List (Nat × Nat)) (first n : Nat) : Bool := left.any fun p => decide (p.1 ≤ first) && decide (first + n ≤ p.1 + p.2)
/-- Intervals without n positions from first on. -/
def without (left : List (Nat × Nat)) (first n : Nat) : List (Nat × Nat) :=
  left.flatMap fun p =>
    if p.1 ≤ first && first + n ≤ p.1 + p.2 then
      (if p.1 < first then [(p.1, first - p.1)] else []) ++ (if first + n < p.1 + p.2 then [(first + n, p.1 + p.2 - (first + n))] else [])
    else [p]

/-- A copy of a core changed, or gone. -/
def modCopy (c : Core) (cid : Nat) (f : Copy → Copy) : Core := { c with copies := c.copies.map fun x => if x.num = cid then f x else x }
def copyAt (c : Core) (cid : Nat) : Option Copy := lfind (fun x => x.num == cid) c.copies

/-- The launch of a copy's group. -/
def copyLaunch (s : State) (k : Nat) (x : Copy) : Nat := match owner (coreAt s k) x.own with
  | some g => g.lseq
  | none => 0

/-- Whether the window that gates a mirror pair's copy has been compared (R389). -/
def gateOpen (c : Core) (x : Copy) : Bool :=
  match x.gate with
  | none => true
  | some n => match owner c x.own with
    | some g => decide (n < (threadAt g x.thr).compared)
    | none => true

/-- R305: the engine begins a request once the thread's earlier writes have been performed. -/
def execCopyStart (core cid : Nat) (s : State) : Host.Outcome State Fault Refusal :=
  .next (
    let c := coreAt s core
    match copyAt c cid with
    | none => s
    | some x =>
      let waits := x.after.any fun n => (c.writes.any fun w => w.num == n) || (c.loads.any fun l => l.num == n)
      if x.started || x.ghost || waits || !gateOpen c x then s
      else modCore s core fun c => modCopy c cid fun y => { y with started := true, left := [(0, recLen y.bytes * (copyRanks y).length)] })

/-- The source bytes of a burst: each with its pieces, or none where it cannot be read, or the first fault. -/
def sourceBytes (k : Nat) (h : Hdr) (x : Copy) : Nat → State → Nat → State × Option (Nat × Nat × Nat) × List (Option (List Piece))
  | 0, s, _ => (s, none, [])
  | n + 1, s, i =>
    let e := recUnit x.bytes
    let j := i % recLen x.bytes
    let whole := if recIndexed x.bytes then engineReach s k h x.team 4 (recSrcSp x.bytes) (copySrc s x (j / e * e)) e else (s, .found [])
    match engineReach whole.1 k h x.team 4 (recSrcSp x.bytes) (copySrc s x j) 1 with
    | (s1, .fault va kind level) => (s1, some (va, kind, level), [])
    | (s1, .found ps) =>
      let here := match whole.2 with
        | .found _ => some ps
        | _ => none
      let (s2, f, r) := sourceBytes k h x n s1 (i + 1)
      (s2, f, here :: r)
    | (s1, _) =>
      let (s2, f, r) := sourceBytes k h x n s1 (i + 1)
      (s2, f, none :: r)

/-- The part of a piece from byte i on, of n bytes. -/
def subPiece (p : Piece) (i n : Nat) : Piece := { p with loc := p.loc + i, n := n }

/-- Bytes as a number, the first lowest; a missing byte counts as 0. -/
def bytesNum (xs : List (Option Nat)) : Nat := (imap (fun i (b : Option Nat) => b.getD 0 * 256 ^ i) 0 xs).sum

/-- Bytes laid over a number from byte i on, but for those that are missing. -/
def layBytes : Nat → List (Option Nat) → Nat → Nat
  | _, [], v => v
  | i, none :: r, v => layBytes (i + 1) r v
  | i, some b :: r, v => layBytes (i + 1) r (putBytes v i 1 b)
/-- The bytes of a burst written at their destination; those that are missing are not (R303, R309). DESIGN CHOICE: on an alias page one AliasWrite covers all that a burst writes of its block; R309 applies one to each block that a copy write touches, and R305 and R306 cut a burst into writes of at most 4 bytes, of which they do not say how many such updates they make (log entry 76). -/
def burstWrite (s : State) (own lseq : Nat) (p : Piece) (data : List (Option Nat)) : State :=
  let s1 := snapPages s lseq [p]
  let s2 :=
    if data.all Option.isSome then pieceWrite s1 p (bytesNum data)
    else if p.mx != 0 then (if data.all Option.isNone then s1 else pieceWrite s1 p (layBytes 0 data (pieceRead s1 p)))
    else (imap (fun i (b : Option Nat) => (i, b)) 0 data).foldl (fun a x => match x.2 with
      | some b => pieceWrite a (subPiece p x.1 1) b
      | none => a) s1
  landed (bringLines s2 true [p]) own [p]

/-- The elements of an accumulate added one by one, each as an atomic pair; one with a missing source byte is left (R303). -/
def accumulate (own lseq unit : Nat) (p : Piece) : Nat → Nat → State → List (Option Nat) → State
  | 0, _, s, _ => s
  | n + 1, i, s, data =>
    let d := data.take unit
    let q := subPiece p i unit
    let f := if unit = 4 then f32 else bf16
    let s1 := if d.all Option.isSome then
        let v := (encRn f (addF (decodeF f (pieceRead s q)) (decodeF f (bytesNum d)))).1
        landed (bringLines (pieceWrite (snapPages s lseq [q]) q v) true [q]) own [q]
      else s
    accumulate own lseq unit p n (i + unit) s1 (data.drop unit)

/-- The team that receives a burst's bytes, where they land in TSM. -/
def landsIn (p : Piece) : Option Nat := if tsmBase ≤ p.loc && p.loc < sramBase then some ((p.loc - tsmBase) / 2 ^ 18) else none

/-- A burst's bytes written and counted on their object; ERR where some were not written (R306, R309). -/
def land (s : State) (x : Copy) (lseq : Nat) (p : Piece) (data : List (Option Nat)) : State :=
  let acc := recKind x.bytes == 4 || recKind x.bytes == 5
  let shut := acc && p.mx != 0
  let s1 := if shut then s
    else if acc then accumulate x.own lseq (recUnit x.bytes) p (data.length / recUnit x.bytes) 0 s data
    else burstWrite s x.own lseq p data
  let lost := shut || data.any Option.isNone
  let team := (landsIn p).getD x.team
  if recBobj x.bytes = 0xFFFF then s1 else bobjBytes s1 x.own (tsmLoc team (16 * recBobj x.bytes)) data.length lost

/-- The mirror that a delivery into its primary's own TSM is repeated in, with the piece there (R389). -/
def mirrorPiece (s : State) (x : Copy) (p : Piece) : Option (Copy × Piece) :=
  match teamAt s x.team with
  | none => none
  | some t =>
    if t.role == .primary && landsIn p == some x.team then
      some ({ x with team := t.mate }, { p with loc := tsmLoc t.mate (p.loc - tsmLoc x.team 0) })
    else none

/-- The running team of a rank of a copy's cluster, as its core's live bits give it (R309, R395). -/
def liveRank (s : State) (k : Nat) (x : Copy) (r : Nat) : Option Nat :=
  (teamAt s x.team).bind fun t => if hasBit (tget 0 (coreAt s k).live t.cluster) r then (rankTeam s t r).map (·.1) else none
/-- The mirror on whose object, too, the bytes of a request are counted that its primary's own TSM, the team u, is to receive (R389). -/
def mirrorOf (s : State) (x : Copy) (u : Nat) : Option Nat := match teamAt s x.team with
  | some t => if t.role == .primary && u == x.team && (recKind x.bytes == 3 || recDstSp x.bytes == 1 || recDstSp x.bytes == 2) then some t.mate else none
  | none => none
/-- Bytes that a team was to receive and that are not written taken off its object, and off its mirror's, with ERR (R309, R389). -/
def missBytes (s : State) (x : Copy) (u n : Nat) : State :=
  let off := fun (a : State) (v : Nat) => bobjBytes a x.own (tsmLoc v (16 * recBobj x.bytes)) n true
  match mirrorOf s x u with
  | some m => off (off s u) m
  | none => off s u
/-- A burst whose destination fails or has ended: none of its bytes are written, and the object of the team that would receive them is counted on, where there is one (R306, R309). -/
def missBurst (s : State) (k : Nat) (x : Copy) (first n : Nat) : State :=
  let a := copyDst s x (first % recLen x.bytes)
  let team := if recDstSp x.bytes = 2 then (if a / 2 ^ 22 = 0 then liveRank s k x (slice a 21 18) else none) else some x.team
  match team with
  | some u => if recBobj x.bytes = 0xFFFF || recKind x.bytes = 3 then s else missBytes s x u n
  | none => s

/-- Whether n positions from first make one burst: at most 64 bytes of one delivery, whole elements, within one 64-byte block of the destination (R306). -/
def burstShape (s : State) (x : Copy) (first n : Nat) : Bool :=
  let len := recLen x.bytes
  let e := recUnit x.bytes
  let j := first % len
  n != 0 && decide (n ≤ 64) && decide (j + n ≤ len) && j % e == 0 && n % e == 0 && (recKind x.bytes != 2 || n == e) &&
  copyDst s x j / 64 == copyDst s x (j + n - 1) / 64

/-- The destination of a burst, and whether a multicast rank has ended (R307). -/
def burstDst (s : State) (k : Nat) (h : Hdr) (x : Copy) (first n : Nat) : State × Spot :=
  let j := first % recLen x.bytes
  if recKind x.bytes = 3 then
    let r := lget 0 (copyRanks x) (first / recLen x.bytes)
    (s, match (teamAt s x.team).bind fun t => rankTeam s t r with
      | none => .gone
      | some (u, t) => if t.ended then .gone else .found [sramPiece (tsmLoc u (copyDst s x j)) n (dieOf t.core)])
  else engineReach s k h x.team 5 (recDstSp x.bytes) (copyDst s x j) n

/-- A request held at a fault, with its record (R226, R309). -/
def holdCopy (s : State) (k : Nat) (x : Copy) (lseq va kind access level : Nat) : State :=
  if !faultRoom s (dieOf k) then s
  else
    let (s1, fid) := newFault s (dieOf k) (.copy k x.num) va kind access level k x.slot lseq
    modCore s1 k fun c => modCopy c x.num fun y => { y with fid := some fid }

/-- R303, R306, R307, R309: one burst. A write to another die waits for the core's earlier writes to its line (R274). -/
def burst (s : State) (k : Nat) (x : Copy) (first n : Nat) : State :=
  let lseq := copyLaunch s k x
  let h := hdrOf s lseq
  let done := fun (a : State) (err nr : Bool) =>
    modCore a k fun c => modCopy c x.num fun y => { y with left := without y.left first n, err := y.err || err, nr := y.nr || nr }
  match burstDst s k h x first n with
  | (_, .fault va kind level) => holdCopy s k x lseq va kind 5 level
  | (_, .gone) => if recKind x.bytes = 3 then done s false true else done (missBurst s k x first n) true false
  | (_, .bad) => done (missBurst s k x first n) true false
  | (s1, .found ps) =>
    match sourceBytes k h x n s1 first with
    | (_, some (va, kind, level), _) => holdCopy s k x lseq va kind 4 level
    | (s1', none, src) =>
      let srcs := src.flatMap fun y => y.getD []
      let data := src.map fun y => y.map (piecesRead s1')
      let s2 := bringLines s1' false srcs
      match ps, piecesWay s (ps ++ srcs) with
      | _, .lost => rollback s lseq
      | _, .waits => s
      | [p], .opened =>
        if lineBars (coreAt s k) k (coreAt s k).next p then s
        else
          let s3 := land s2 x lseq p data
          let s4 := match mirrorPiece s x p with
            | some (y, q) => land s3 y lseq q data
            | none => s3
          done s4 (data.any Option.isNone || (p.mx != 0 && (recKind x.bytes == 4 || recKind x.bytes == 5))) false
      | _, .opened => s

/-- R306: a burst of a request is performed. -/
def execCopyBurst (core cid first count : Nat) (s : State) : Host.Outcome State Fault Refusal :=
  .next (match copyAt (coreAt s core) cid with
    | none => s
    | some x => if x.started && x.fid.isNone && walkerFree s (dieOf core) && covers x.left first count && burstShape s x first count then burst s core x first count else s)

/-- How many of n positions of a request from first on are written in the TSM of a rank (R306). -/
def rankBytes (s : State) (x : Copy) (first n r : Nat) : Nat :=
  let e := recUnit x.bytes
  if recKind x.bytes = 2 then
    ((List.range ((n + e - 1) / e)).map fun j => let a := copyDst s x (first + e * j); if a / 2 ^ 22 = 0 && slice a 21 18 = r then min e (n - e * j) else 0).sum
  else
    let a := recDst x.bytes + first
    min (a + n) ((r + 1) * 2 ^ 18) - max a (r * 2 ^ 18)
/-- The objects that count a request, each with the bytes that some intervals leave unwritten in its team (R306, R309). -/
def counted (s : State) (k : Nat) (x : Copy) (left : List (Nat × Nat)) : List (Nat × Nat) :=
  let len := recLen x.bytes
  let ended := fun (u : Nat) => match teamAt s u with
    | some t => t.ended
    | none => true
  if recKind x.bytes = 3 then
    (imap (fun j r => (((teamAt s x.team).bind fun t => rankTeam s t r).bind fun u => if ended u.1 then none else some u.1).map fun u =>
      (u, (left.map fun p => min (p.1 + p.2) ((j + 1) * len) - max p.1 (j * len)).sum)) 0 (copyRanks x)).filterMap id
  else if recDstSp x.bytes = 2 then
    (List.range 16).filterMap fun r => if rankBytes s x 0 len r = 0 then none else (liveRank s k x r).map fun u => (u, (left.map fun p => rankBytes s x p.1 p.2 r).sum)
  else [(x.team, (left.map (·.2)).sum)]
/-- The bytes that a failed request leaves unwritten taken off every object that counts it, with ERR in each (R309). -/
def failCopy (s : State) (k : Nat) (x : Copy) : State :=
  let s1 := modCore s k fun c => modCopy c x.num fun y => { y with fid := none, err := true, left := [] }
  if recBobj x.bytes = 0xFFFF then s1
  else (counted s k x x.left).foldl (fun a u => missBytes a x u.1 u.2) s1

/-- The status byte of a request (R302). -/
def copyStatus (x : Copy) : Nat := 1 + (if x.nr then 2 else 0) + (if x.err then 4 else 0)

/-- A request retired: its status byte is written, its counter falls, and its group id loses it (R306, R308). -/
def retire (s : State) (k : Nat) (x : Copy) (status : Nat) : State :=
  let s1 := landed { s with mem := memWrite s.mem (tsmLoc x.team (x.off + 31)) 1 status } x.own [sramPiece (tsmLoc x.team (x.off + 31)) 1 (dieOf k)]
  let s2 := modCore s1 k fun c => finishFor { c with copies := c.copies.filter fun y => y.num != x.num } x.own (some x.op)
  let rid := k * 2 ^ 40 + x.num
  let s3 := match teamAt s2 x.team with
    | some t => if recGidOn x.bytes then
        closeGid (modGid s2 t.cluster (recGid x.bytes) fun o => o.map fun g => { g with reqs := g.reqs.filter (· != rid) }) t.cluster (recGid x.bytes)
      else s2
    | none => s2
  endOwner s3 k x.own

/-- The mirror's request that a primary's retires: the first of the same group and thread (R389). -/
def mateCopy (s : State) (k : Nat) (x : Copy) : Option (Nat × Copy) :=
  match teamAt s x.team, owner (coreAt s k) x.own with
  | some t, some g =>
    if t.role != .primary then none
    else match teamAt s t.mate with
      | none => none
      | some m => (lfind (fun (y : Copy) => y.ghost && y.team == t.mate && y.thr == x.thr && (match owner (coreAt s m.core) y.own with
          | some h => h.gnum == g.gnum
          | none => false)) (coreAt s m.core).copies).map fun y => (m.core, y)
  | _, _ => none

/-- R306: a request whose writes have all been performed retires, in the order of its group's requests (R267). -/
def execCopyRetire (core cid : Nat) (s : State) : Host.Outcome State Fault Refusal :=
  .next (match copyAt (coreAt s core) cid with
    | none => s
    | some x =>
      if !x.started || !x.left.isEmpty || x.fid.isSome || (coreAt s core).copies.any (fun y => y.own == x.own && decide (y.num < x.num)) then s
      else
        let s1 := match mateCopy s core x with
          | some (m, y) => retire s m y (copyStatus x)
          | none => s
        retire s1 core x (copyStatus x))

end Sys2Proof.Machine
end

