-- ==== Sys2Proof/Machine/QueueEvents.lean ====
section
/-! DEFINITION. Queues and launches: the take of an entry, the task header and its checks, dealing of TCBs, and host-queue doorbells (R339 to R347, R384, R387, R394). -/

namespace Sys2Proof.Machine

/-- A task header in its 160 bytes (R343). -/
def hdrOfBytes (v : Nat) : Hdr :=
  { entry := bytesOf v 0 4, handler := bytesOf v 4 4, codebase := bytesOf v 8 8, bptab := bytesOf v 0x10 8, ptroot := bytesOf v 0x18 8
    tx := bytesOf v 0x20 2, ty := bytesOf v 0x22 2, tz := bytesOf v 0x24 2, clw := bytesOf v 0x26 1, clh := bytesOf v 0x27 1
    gx := bytesOf v 0x28 4, gy := bytesOf v 0x2C 2, gz := bytesOf v 0x2E 2, regs := bytesOf v 0x30 1, fid := bytesOf v 0x31 1
    sregs := bytesOf v 0x32 2, tsm := bytesOf v 0x34 4, wlim := (List.range 7).map fun i => bytesOf v (0x38 + 2 * i) 2
    flags := bytesOf v 0x46 2, energy := bytesOf v 0x48 2, peakamp := bytesOf v 0x4A 2, rsv4c := bytesOf v 0x4C 4
    cbmap := bytesOf v 0x50 8, spbase := bytesOf v 0x58 8, spwin := bytesOf v 0x60 4, wbase := (List.range 4).map fun i => bytesOf v (0x64 + 4 * i) 4
    svsize := bytesOf v 0x74 4, svbase := (List.range 4).map fun i => bytesOf v (0x78 + 4 * i) 4, args := bytesOf v 0x88 8
    crec := bytesOf v 0x90 8, rsv98 := bytesOf v 0x98 8 }

/-- The teams of a cluster (R344). -/
def Hdr.ranks (h : Hdr) : Nat := h.clw * h.clh
/-- Granules of a group's window (R187). -/
def Hdr.granules (h : Hdr) : Nat := windowGranules (windowOf h.regs)
/-- TSM granules of a team (R188). -/
def Hdr.tsmGranules (h : Hdr) : Nat := (h.tsm + 255) / 256

/-- The teams that one empty core holds (R164, R187, R188, R342). -/
def Hdr.perCore (h : Hdr) : Nat :=
  let slots := 64 / (2 * ((h.groups + 1) / 2))
  let tsm := if h.tsm = 0 then slots else Config.tsmGranules / h.tsmGranules
  min slots (min tsm (Config.granules / h.granules / h.groups))

/-- The checks of a header, by the offset at which each fails (R342, R343, R384). DESIGN CHOICE: TY and TZ, which share a row with TX, fail at offsets of their own, 0x22 and 0x24; their product fails at TX (log entry 76). -/
def headerChecks (h : Hdr) : List (Nat × Bool) :=
  let threads := h.tx * h.ty * h.tz
  [(0x08, h.codebase % 16384 != 0), (0x10, h.bptab % 2 != 0), (0x18, h.ptroot % 2 ^ 18 != 0),
   (0x20, h.tx == 0 || threads % 32 != 0 || decide (1024 < threads)), (0x22, h.ty == 0), (0x24, h.tz == 0),
   (0x26, h.clw == 0 || decide (16 < h.clw)), (0x27, h.clh == 0 || decide (10 < h.clh) || decide (12 < h.ranks)),
   (0x28, h.teams == 0 || h.teams % h.ranks != 0), (0x2E, decide (2 ^ 32 ≤ h.teams)),
   (0x30, decide (4 < h.regs)), (0x31, decide (3 < h.fid)), (0x32, h.sregs == 0 || decide (384 < h.sregs)),
   (0x34, h.tsm % 256 != 0 || decide (262144 < h.tsm)),
   (0x46, decide (16 ≤ h.flags) || (h.mirror && h.fid != 0) || (h.cor && decide (640 * h.perCore < h.teams))),
   (0x48, h.energy == 0), (0x4A, h.peakamp == 0), (0x4C, h.rsv4c != 0), (0x50, h.cbmap % 8 != 0), (0x58, h.spbase % 16384 != 0),
   (0x60, h.spwin % 16384 != 0 || decide (120 * 2 ^ 20 < h.spwin))] ++
  (List.range 4).map (fun i => (0x64 + 4 * i, lget 0 h.wbase i % 16384 != 0)) ++
  [(0x74, h.svsize % 16384 != 0 || decide (h.svsize < h.record)), (0x88, h.args % 4 != 0), (0x90, h.crec % 64 != 0), (0x98, h.rsv98 != 0)]

/-- The offset of the first field of a header that fails, if one does (R342). -/
def badHeader (h : Hdr) : Option Nat := (lfind (fun (x : Nat × Bool) => x.2) (headerChecks h)).map (·.1)

/-- Whether a die runs: its clocks are not stopped, and a minimal start leaves only die 0 (R368, R424). -/
def dieRuns (s : State) (d : Nat) : Bool := !(dieAt s d).stopped && (!s.boot.minimal || d == 0)

/-- Slots of a core that are free for the groups of one team: the lowest run from an even slot (R164). -/
def slotRun (c : Core) (n : Nat) : Option Nat :=
  lfind (fun e => decide (e + n ≤ 64) && (List.range n).all fun j => (groupAt c (e + j)).isNone) ((List.range 32).map (2 * ·))

/-- Whether a team's TSM still stands on its core: the team runs in the core's own bank, or it has ended and some other member's live bit for it is set, or an access that passed its check is on its way there, from any member and as bytes that an ast is still to write (R395). -/
def holdsTsm (s : State) (u : Nat) (t : Team) : Bool :=
  let c := coreAt s t.core
  if !t.ended then c.ctx.groups.any fun g => g.2.team == u
  else match tfind s.clusters t.cluster with
    | none => false
    | some cl =>
      let cores := cl.teams.filterMap fun v => (teamAt s v).map fun x => (v, x.core)
      let hits := fun (ps : List Piece) => ps.any fun p => decide (tsmLoc u 0 ≤ p.loc) && decide (p.loc < tsmLoc (u + 1) 0)
      cores.any fun x =>
        let y := coreAt s x.2
        (x.1 != u && hasBit (tget 0 y.live t.cluster) t.rank) || y.loads.any (fun l => hits l.pieces) || y.writes.any (fun w => hits w.pieces) ||
        y.matrixWords.any fun w => match w.what with
          | .ast _ _ ts => ts.any fun q => hits q.2
          | _ => false

/-- TSM granules of a core that are taken (R188). -/
def tsmTaken (s : State) (k : Nat) : Nat :=
  (s.teams.map fun x => if x.2.core = k && holdsTsm s x.1 x.2 then (hdrOf s x.2.lseq).tsmGranules else 0).sum

/-- Whether a core is held for a cluster that has been dealt (R347). -/
def heldCore (s : State) (k : Nat) : Bool := s.tcs.any fun t => t.2.queue.any fun q => q.core == some k

/-- The scratchpad size below which a launch's window must stay on a die (R215). -/
def scratchLimit (d : Die) : Nat := 8 * 2 ^ 20 * (match d.busy, d.scrNext with
  | true, some n => min d.scr n
  | _, _ => d.scr)
/-- Whether a die may admit a launch while its DSPLIT changes: one without a window always (R215). -/
def windowOk (s : State) (h : Hdr) (d : Nat) : Bool := !(dieAt s d).busy || h.spwin == 0 || decide (lget 0 h.wbase d + h.spwin ≤ scratchLimit (dieAt s d))

/-- The resident teams of a launch on a die (R384). -/
def residents (s : State) (lseq d : Nat) : Nat := (s.teams.filter fun x => x.2.lseq == lseq && !x.2.ended && dieOf x.2.core == d).length

/-- Whether a core has the slots and TSM that a team of a launch needs, on a die that may take n more of its teams (R188, R347, R384). -/
def coreFits (s : State) (lseq : Nat) (h : Hdr) (k n : Nat) : Bool :=
  let d := dieOf k
  dieRuns s d && windowOk s h d && decide ((residents s lseq d + n) * h.record ≤ h.svsize) &&
  (slotRun (coreAt s k) h.groups).isSome && decide (tsmTaken s k + h.tsmGranules ≤ Config.tsmGranules)

/-- Granules of a core that no window occupies. -/
def freeGranules (c : Core) : Nat := Config.granules - (usedGranules c 0).length

/-- K of MIRK as it acts (R387). -/
def mirrorK (m : Word) : Nat :=
  let k := m.toNat % 32
  if k = 0 then 0 else min 16 (max 3 k)
/-- Whether a launch's teams may be mirrored (R387). -/
def Hdr.eligible (h : Hdr) : Bool := h.fid == 0 && h.mirror && h.ranks == 1 && !h.cor

/-- Room in a tile cluster's queue of 32; a cluster of several teams takes none (R347). -/
def queueRoom32 (t : Tc) : Bool := decide ((t.queue.filter fun q => q.core == none).length < 32)

/-- A co-resident grid that the command processor holds (R347). -/
def Launch.waitsWhole (l : Launch) : Bool := l.hdr.cor && l.admitted == 0 && l.hdr.teams != 0 && l.badoff == 0 && !l.completed && l.heldCrec.isNone

/-- Whether a core is reserved for a co-resident grid against a launch: it holds no group, and the grid is the older (R349). -/
def reserved (s : State) (lseq k : Nat) : Bool :=
  (coreAt s k).ctx.groups.isEmpty && s.launches.any fun x => x.2.waitsWhole && decide (x.1 < lseq) && !s.retake.contains x.1

/-- The cores of a rectangle, in rank order, from its origin (R166, R346). -/
def rectangle (h : Hdr) (d r c : Nat) : List Nat := (List.range h.ranks).map fun i => 160 * d + 16 * (r + i / h.clw) + c + i % h.clw
/-- Origins of a rectangle on the grid: lowest row, and then lowest column, without wrapping (R347). -/
def origins (h : Hdr) : List (Nat × Nat) := (List.range (11 - h.clh)).flatMap fun r => (List.range (17 - h.clw)).map fun c => (r, c)
/-- The rectangle of a die that can hold a cluster (R347). -/
def freeRectangle (s : State) (lseq : Nat) (h : Hdr) (d : Nat) : Option (List Nat) :=
  (lfind (fun (o : Nat × Nat) => (rectangle h d o.1 o.2).all fun k =>
    coreFits s lseq h k h.ranks && decide (h.groups * h.granules ≤ freeGranules (coreAt s k)) && !heldCore s k && !reserved s lseq k) (origins h)).map
    fun o => rectangle h d o.1 o.2

/-- A TCB put on the queue of a tile cluster, which then asks the others for work from the nearest on again (R353). -/
def enqueue (s : State) (t : Nat) (q : Tcb) : State := modTc s t fun x => { x with queue := x.queue ++ [q], steal := [] }

/-- The next cluster of a launch dealt, if it can be (R347, R387). -/
def dealOne (s : State) (lseq : Nat) : Option State :=
  match launchAt s lseq with
  | none => none
  | some l =>
    let h := l.hdr
    if l.completed || l.heldCrec.isSome || l.badoff != 0 || h.cor || s.retake.contains lseq || h.teams ≤ l.dealt then none
    else if h.ranks = 1 then
      match lfind (fun t => dieRuns s (t / 10) && queueRoom32 (tcAt s t)) ((List.range 40).map fun i => (l.turn + i) % 40) with
      | none => none
      | some t =>
        let draw := h.eligible && mirrorK s.mirk != 0
        let m := draw && Config.mirrorDraw s.draws (mirrorK s.mirk)
        let s1 := if draw then { s with draws := s.draws + 1 } else s
        some (modLaunch (enqueue s1 t ⟨lseq, l.dealt, s.now, none, none, m⟩) lseq fun x => { x with dealt := x.dealt + 1, turn := (t + 1) % 40 })
    else
      match lfind (fun d => (freeRectangle s lseq h d).isSome) ((List.range 4).map fun i => (l.turn + i) % 4) with
      | none => none
      | some d =>
        let cores := (freeRectangle s lseq h d).getD []
        let s1 := (imap (fun i k => (i, k)) 0 cores).foldl (fun a x => enqueue a (tcOf x.2) ⟨lseq, l.dealt + x.1, s.now, some x.2, none, false⟩) s
        some (modLaunch s1 lseq fun x => { x with dealt := x.dealt + h.ranks, turn := (d + 1) % 4 })

/-- Clusters of one launch dealt until one has to wait. -/
def dealLaunch : Nat → State → Nat → State
  | 0, s, _ => s
  | n + 1, s, l => match dealOne s l with
    | none => s
    | some s1 => dealLaunch n s1 l

/-- Every launch dealt as far as it can be, in launch order (R347). -/
def dealAll (s : State) : State := (s.launches.filter fun x => !x.2.completed).foldl (fun a x => dealLaunch 1280 a x.1) s

/-- A launch as the take of its entry makes it. -/
def newLaunch (lseq queue hdrVa root tag prio : Nat) : Launch :=
  { lseq := lseq, queue := queue, hdrVa := hdrVa, root := root, tag := tag, prio := prio, hdr := Hdr.zero, dealt := 0, admitted := 0,
    endedTeams := 0, turn := 0, flk := [], checked := 0, tstart := none, status := 0, badoff := 0, replays := 0, producers := [], snap := [],
    unprotected := false, completed := false, heldCrec := none, bitWrites := [], since := 0, code := [] }

/-- A launch whose header has been copied: it is checked, and rejected or dealt (R342, R347). -/
def startLaunch (s : State) (lseq : Nat) (h : Hdr) : State :=
  let s1 := { modLaunch s lseq (fun l => { l with hdr := h, since := s.now }) with retake := s.retake.filter (· != lseq) }
  match badHeader h with
  | some off => complete (modLaunch s1 lseq fun l => { l with badoff := off }) lseq 1
  | none => dealAll s1

/-- The header of a launch copied into the device, or its queue held at a fault of the read (R340, R341). -/
def readHeader (s : State) (lseq : Nat) : State :=
  match launchAt s lseq with
  | none => s
  | some l =>
    match engineG l.root 0 3 s l.hdrVa 160 with
    | (s1, .found ps) => startLaunch (bringLines s1 false ps) lseq (hdrOfBytes (piecesRead s1 ps))
    | (_, .fault va kind level) =>
      let (s1, fid) := newFault s 0 (.header l.queue lseq) va kind 0 level 0xFFFF 0xFF lseq
      { s1 with queues := tmod s1.queues l.queue fun q => { q with fid := some fid } }
    | _ => s

/-- PRIO, FLAGS and TAG of an entry (R339). -/
def entryPrio (e : Nat) : Nat := slice e 71 64
def entryFlags (e : Nat) : Nat := slice e 79 72
def entryTag (e : Nat) : Nat := slice e 191 128
/-- Whether an entry is one that is taken and not launched (R340). -/
def entryBad (e : Nat) : Bool :=
  decide (8 ≤ entryPrio e) || decide (4 ≤ entryFlags e) || slice e 63 0 % 8 != 0 || slice e 127 80 != 0 || slice e 255 192 != 0

/-- Whether a launch of a queue has not completed. -/
def queueBusy (s : State) (n : Nat) : Bool := s.launches.any fun x => x.2.queue == n && !x.2.completed

/-- The entry in slot HEAD of a queue, where it can be taken now (R340, R341). -/
def readyEntry (s : State) (n : Nat) (q : Queue) : Option Nat :=
  if q.fid.isSome || queueCount s n q = 0 then none
  else
    let e := memRead s.mem (q.slotLoc q.head) 32
    if entryFlags e % 2 = 0 || (entryFlags e / 2 % 2 == 1 && queueBusy s n) then none else some e

/-- The queue whose entry is taken first: the highest PRIO, then the lower number, host queues before device queues (R341). -/
def firstQueue (s : State) : Option (Nat × Queue × Nat) :=
  lbest (fun x y => decide (entryPrio y.2.2 % 8 < entryPrio x.2.2 % 8) || (entryPrio y.2.2 % 8 == entryPrio x.2.2 % 8 && decide (x.1 < y.1)))
    (s.queues.filterMap fun x => (readyEntry s x.1 x.2).map fun e => (x.1, x.2, e))

/-- Whether a header read at a virtual address waits: for a free walk of die 0, or, where it would fault, for room for the fault and its event (R225, R227, R415). -/
def mustWait (s : State) (root va : Nat) : Bool :=
  !walkerFree s 0 || !faultRoom s 0 && (match (engineG root 0 3 s va 160).2 with
    | .fault _ _ _ => true
    | _ => false)

/-- The take of a queue's entry: VALID clears, HEAD advances, the launch gets its sequence number, and its header is read (R340, R341). -/
def takeQueue (s : State) (n : Nat) (q : Queue) (e : Nat) : State :=
  let lseq := s.lastLseq + 1
  let head := (q.head + 1) % 2 ^ 32
  let s0 := ringWrite (ringWrite s q (q.slotLoc q.head + 9) 1 (entryFlags e - 1)) q (q.loc + 0x20) 4 head
  let s1 := { s0 with lastLseq := lseq, queues := tput s.queues n { q with head := head } }
  if entryBad e then sendCompl s1 lseq 0 1 (entryTag e)
  else readHeader { s1 with launches := tput s1.launches lseq (newLaunch lseq n (slice e 63 0) q.root (entryTag e) (entryPrio e)) } lseq

/-- The first of the launches that rollback queues again (R394). -/
def takeAgain (s : State) (n : Nat) : Option State :=
  match s.retake with
  | [] => none
  | l :: _ => match launchAt s l, queueAt s n with
    | some x, some q => if x.queue = n && q.fid.isNone && !mustWait s x.root x.hdrVa then some (readHeader s l) else none
    | _, _ => none

/-- R340, R341, R394: the command processor takes an entry of a queue; one that it does not launch waits for room for its event (R415). -/
def execQueueEntryTake (queue : Nat) (s : State) : Host.Outcome State Fault Refusal :=
  .next (
    if s.stopped || !s.boot.up then s
    else match takeAgain s queue with
      | some s1 => s1
      | none => match firstQueue s with
        | none => s
        | some (n, q, e) => if n = queue && (if entryBad e then canSend s s.primary else !mustWait s q.root (slice e 63 0)) then takeQueue s n q e else s)

/-- Entries that the host has written to its own memory, in their slots from a count on. -/
def hostEntries (q : Queue) : Nat → List Nat → List Host.Cell → List Host.Cell
  | _, [], m => m
  | i, e :: r, m => hostEntries q (i + 1) r (memWrite m (q.slotLoc i) 32 e)

/-- R340, R419: a write to a host queue's doorbell gives its new TAIL, and the entries that the host has written before it; a value that HEAD does not allow is ignored. Without its attachment the host reaches no doorbell (R424). -/
def execHostQueueDoorbell (queue value : Nat) (entries : List Nat) (s : State) : Host.Outcome State Fault Refusal :=
  .next (match queueAt s queue with
    | none => s
    | some q =>
      if 16 ≤ queue || !attached s 0 then s
      else
        let v := value % 2 ^ 32
        let mem := if q.host then memWrite (hostEntries q q.tail (entries.take q.cap) s.mem) q.loc 4 v else s.mem
        if q.cap < (v + 2 ^ 32 - q.head % 2 ^ 32) % 2 ^ 32 then { s with mem := mem }
        else { s with mem := mem, queues := tput s.queues queue { q with tail := v } })

end Sys2Proof.Machine
end

