-- ==== Sys2Proof/Machine/ScheduleEvents.lean ====
section
/-! DEFINITION. Admission: budgets, placement, groups as they start, co-resident grids and clusters, work donation, and the reads of arguments (R188, R192, R345 to R353, R387, R395). -/

namespace Sys2Proof.Machine

/-- Whether a tile cluster holds no team. -/
def tcEmpty (s : State) (t : Nat) : Bool := !(s.teams.any fun x => !x.2.ended && tcOf x.2.core == t)

/-- Whether a team passes the budgets of a tile cluster; one that exceeds a whole budget passes alone, at the start of an interval (R348). -/
def budgetOk (s : State) (t : Nat) (h : Hdr) (start : Bool) : Bool :=
  let x := tcAt s t
  (decide (h.energy ≤ x.er) && decide (x.ic + h.peakamp ≤ x.ib)) ||
  (start && (decide (x.eb < h.energy) || decide (x.ib < h.peakamp)) && tcEmpty s t)

/-- Where the windows of a team's groups go: lowest fit first, none where a window cannot be allocated (R187, R188). -/
def windowPlaces (n : Nat) : Nat → List Nat → List (Option Nat)
  | 0, _ => []
  | m + 1, used => match freeRun used n Config.granules 0 with
    | some b => some b :: windowPlaces n m ((List.range n).map (b + ·) ++ used)
    | none => none :: windowPlaces n m used

/-- Whether a team's windows fit in a core's free granules in total, but not as they lie (R192). -/
def mustCompact (c : Core) (h : Hdr) : Bool :=
  decide (h.groups * h.granules ≤ freeGranules c) && (windowPlaces h.granules h.groups (usedGranules c 0)).any (·.isNone)

/-- A group as it starts: the initial values of R8, its threads at the launch's entry, and its arguments still to be read (R188, R345, R428). -/
def startGroup (s : State) (k lseq u uid n : Nat) (h : Hdr) (place : Option Nat) : Group :=
  { uid := uid, lseq := lseq, team := u, gnum := n, s := [], jm := [], ja := []
    frontier := [newEntry s.now (cycOf s k) 0 (BitVec.ofNat 32 h.entry) 0xFFFFFFFF], spilled := [], subs := [], nextSub := 0
    win := windowOf h.regs, base := place, lvs := BitVec.ofNat 32 (bit h.dtrap), ops := [], streak := 0, spinPc := 0, spinDisp := 0, demoted := false
    dog := s.now, dogOff := 0, dogStop := if place.isSome then none else some s.now, bitten := false, swap := if place.isSome then .resident else .out, faults := [], moving := false
    argsLeft := if h.args = 0 then [] else (List.range h.sregs).drop 1, argFailed := none, tiles := []
    threads := List.replicate 32 Thread.start }

/-- Where a team stands: core, cluster and rank, its number, and its mirror role and partner. -/
structure Seat where
  core : Nat
  idx : Nat
  cluster : Nat
  rank : Nat
  uid : Nat
  role : Role
  mate : Nat
deriving DecidableEq, Repr

/-- A team, a cluster or a grid that a scheduler considers: whether it has waited more than 1 ms, its priority, launch and first index, and whether it is a whole grid (R350). -/
structure Waiting where
  old : Bool
  prio : Nat
  lseq : Nat
  idx : Nat
  grid : Bool
deriving DecidableEq, Repr

/-- The order of R350. -/
def Waiting.before (x y : Waiting) : Bool :=
  if x.old != y.old then x.old
  else if x.prio != y.prio then decide (y.prio < x.prio)
  else if x.lseq != y.lseq then decide (x.lseq < y.lseq)
  else decide (x.idx < y.idx)

/-- An element put in its place. -/
def insertWaiting (x : Waiting) : List Waiting → List Waiting
  | [] => [x]
  | y :: r => if y.before x then y :: insertWaiting x r else x :: y :: r
/-- A list in the order of R350. -/
def sortWaiting : List Waiting → List Waiting
  | [] => []
  | x :: r => insertWaiting x (sortWaiting r)

/-- PRIO of a launch (R339). -/
def prioOf (s : State) (lseq : Nat) : Nat := match launchAt s lseq with
  | some l => l.prio
  | none => 0

/-- What a scheduler considers (R350): its queue, and the grids that the command processor holds. DESIGN CHOICE: such a grid has no tile cluster of its own, and once it has waited more than 1 ms it blocks later teams on every one (log entry 76). -/
def considered (s : State) (t : Nat) : List Waiting :=
  sortWaiting (((tcAt s t).queue.map fun q => ⟨decide (q.arrived + 1000000 < s.now), prioOf s q.lseq, q.lseq, q.idx, false⟩) ++
    (s.launches.filter fun x => x.2.waitsWhole && !s.retake.contains x.1).map fun x => ⟨decide (x.2.since + 1000000 < s.now), x.2.prio, x.1, 0, true⟩)

/-- Whether a candidate must wait for an earlier one of its tile cluster that has waited more than 1 ms (R350); a cluster or grid does not wait for itself. -/
def oldBars (s : State) (t : Nat) (w : Waiting) : Bool :=
  (considered s t).any fun x => x.old && x.before w && !(x.lseq == w.lseq && (x.grid || x.idx / (hdrOf s w.lseq).ranks == w.idx / (hdrOf s w.lseq).ranks))
/-- A team as a candidate of the order of R350. -/
def candidateOf (s : State) (lseq idx : Nat) : Waiting :=
  let old := (s.tcs.any fun t => t.2.queue.any fun q => q.lseq == lseq && q.idx == idx && decide (q.arrived + 1000000 < s.now)) ||
    (match launchAt s lseq with
      | some l => l.waitsWhole && decide (l.since + 1000000 < s.now)
      | none => false)
  ⟨old, prioOf s lseq, lseq, idx, false⟩
/-- The lowest place of a team record on a die that no resident team of a launch has (R384). -/
def recordPlace (s : State) (lseq d : Nat) : Nat :=
  let used := (s.teams.filter fun x => x.2.lseq == lseq && !x.2.ended && dieOf x.2.core == d).map (·.2.place)
  (lfind (fun n => !used.contains n) (List.range (used.length + 1))).getD 0

/-- A team placed on its core and charged, where the budgets and the core allow it and no earlier team bars its tile cluster (R348, R350); one beyond a whole budget leaves ER at 0. A group without a window starts with an empty context in its record (R188). -/
def placeTeam (start : Bool) (lseq : Nat) (h : Hdr) (s : State) (x : Seat) : Option State :=
  let k := x.core
  if !(budgetOk s (tcOf k) h start && coreFits s lseq h k 1) || oldBars s (tcOf k) (candidateOf s lseq x.idx) then none
  else match slotRun (coreAt s k) h.groups with
    | none => none
    | some e =>
      let places := windowPlaces h.granules h.groups (usedGranules (coreAt s k) 0)
      let s1 := modCore s k fun c =>
        (imap (fun i (p : Option Nat) => (i, p)) 0 places).foldl (fun a y => setGroup a (e + y.1) (startGroup s k lseq x.uid (x.uid + 1 + y.1) y.1 h y.2)) c
      let s2 := modTc s1 (tcOf k) fun t => { t with er := if t.eb < h.energy || t.ib < h.peakamp then 0 else t.er - h.energy, ic := t.ic + h.peakamp, adm := t.adm + 1 }
      let s3 := modDie s2 (dieOf k) fun d => { d with routers := tdel d.routers (k % 160) }
      let s4 := { s3 with
        serial := max s3.serial (x.uid + h.groups + 1)
        teams := tput s3.teams x.uid
          { lseq := lseq, idx := x.idx, core := k, cluster := x.cluster, rank := x.rank, slots := (List.range h.groups).map (e + ·), flk := [], checked := 0,
            ended := false, endCyc := [], bitSet := false, role := x.role, mate := x.mate, log := [], place := recordPlace s lseq (dieOf k) } }
      some (saveContexts s4 ((coreAt s4 k).ctx.groups.filter fun g => g.2.team == x.uid && g.2.swap == .out))

/-- Teams placed one after another, all or none (R349). -/
def placeAll (start : Bool) (lseq : Nat) (h : Hdr) : State → List Seat → Option State
  | s, [] => some s
  | s, x :: r => match placeTeam start lseq h s x with
    | none => none
    | some s1 => placeAll start lseq h s1 r

/-- A cluster's record, and its live bits set in each member's core (R395). -/
def bindCluster (s : State) (lseq cl : Nat) (us cores : List Nat) : State :=
  let s1 := { s with clusters := tput s.clusters cl ⟨lseq, us, []⟩ }
  cores.foldl (fun a k => modCore a k fun c => { c with live := tput c.live cl (BitVec.ofNat 32 (2 ^ us.length - 1)) }) s1

/-- A cluster of teams admitted on its cores, in rank order (R349). -/
def admitCluster (start : Bool) (s : State) (lseq idx : Nat) (cores : List Nat) : Option State :=
  let h := hdrOf s lseq
  let uid := fun i => s.serial + 1 + i * (h.groups + 1)
  let seats := imap (fun i k => ⟨k, idx + i, uid 0, i, uid i, .plain, 0⟩) 0 cores
  (placeAll start lseq h s seats).map fun s1 =>
    modLaunch (bindCluster s1 lseq (uid 0) (seats.map (·.uid)) cores) lseq fun l => { l with admitted := l.admitted + cores.length }

/-- A mirrored team admitted with its mirror, which is a cluster of its own (R387). -/
def admitPair (start : Bool) (s : State) (lseq idx k m : Nat) : Option State :=
  let h := hdrOf s lseq
  let u := s.serial + 1
  let v := u + h.groups + 1
  (placeAll start lseq h s [⟨k, idx, u, 0, u, .primary, v⟩, ⟨m, idx, v, 0, v, .mirror, u⟩]).map fun s1 =>
    modLaunch (bindCluster (bindCluster s1 lseq u [u] [k]) lseq v [v] [m]) lseq fun l => { l with admitted := l.admitted + 1 }

/-- Whether a core can take a team of a launch: it has what the team needs, is neither held nor reserved, and no older team bars its tile cluster (R347, R349, R350). -/
def mayTake (s : State) (lseq idx k : Nat) : Bool :=
  coreFits s lseq (hdrOf s lseq) k 1 && !heldCore s k && !reserved s lseq k && !oldBars s (tcOf k) (candidateOf s lseq idx)
/-- The lowest core among some that can take a team of a launch (R347). -/
def findCore (s : State) (lseq idx : Nat) (cores : List Nat) : Option Nat := lfind (mayTake s lseq idx) cores

/-- The cores of a tile cluster. -/
def tcCores (t : Nat) : List Nat := (List.range 16).map fun i => 16 * t + i

/-- Compaction asked for on the cores that a team's windows need it on (R192). -/
def askCompaction (s : State) (h : Hdr) (cores : List Nat) : Option State :=
  match cores.filter fun k => mustCompact (coreAt s k) h with
  | [] => none
  | ks => some (ks.foldl (fun a k => modCore a k fun c => { c with compacting := true }) s)

/-- The TCB of a team. -/
def tcbOf (s : State) (t lseq idx : Nat) : Option Tcb := lfind (fun q => q.lseq == lseq && q.idx == idx) (tcAt s t).queue

/-- TCBs of a launch, from an index on, gone from every queue. -/
def dropTcbs (s : State) (lseq idx n : Nat) : State :=
  { s with tcs := tmap s.tcs fun _ t => { t with queue := t.queue.filter fun q => !(q.lseq == lseq && decide (idx ≤ q.idx) && decide (q.idx < idx + n)) } }

/-- The cores held for a cluster, in rank order. -/
def heldCores (s : State) (lseq idx n : Nat) : List Nat :=
  (List.range n).filterMap fun i => (lfind (fun (q : Tcb) => q.lseq == lseq && q.idx == idx + i) (s.tcs.flatMap fun t => t.2.queue)).bind (·.core)

/-- A co-resident grid admitted whole, clusters in order; the dies are tried in turn for a cluster of several teams, from the die after that of the cluster before (R347, R349). With it come the cores whose windows must be compacted before (R192). -/
def admitGrid (start : Bool) (lseq : Nat) : Nat → Nat → Nat → State → Option (State × List Nat)
  | 0, _, _, s => some (s, [])
  | n + 1, idx, turn, s =>
    let h := hdrOf s lseq
    let cores : Option (List Nat) :=
      if h.ranks = 1 then (lfind (fun k => mayTake s lseq idx k && budgetOk s (tcOf k) h start) (List.range 640)).map fun k => [k]
      else match lfind (fun d => (freeRectangle s lseq h d).isSome) ((List.range 4).map fun i => (turn + i) % 4) with
        | some d => freeRectangle s lseq h d
        | none => none
    match cores with
    | none => none
    | some ks => match admitCluster start s lseq idx ks with
      | none => none
      | some s1 => (admitGrid start lseq n (idx + ks.length) ((dieOf (ks.headD 0) + 1) % 4) s1).map fun x =>
          (x.1, ks.filter (fun k => mustCompact (coreAt s k) h) ++ x.2)
/-- The whole of a launch's co-resident grid admitted, where nothing keeps it from that but the place of windows. -/
def gridPlan (start : Bool) (s : State) (lseq : Nat) : Option (State × List Nat) :=
  let h := hdrOf s lseq
  admitGrid start lseq (h.teams / h.ranks) 0 0 s

/-- The core of another tile cluster for the mirror of a team, among those that pass a test (R387). -/
def mirrorCore (start : Bool) (s : State) (t : Nat) (w : Waiting) (ok : Nat → Bool) : Option Nat :=
  findCore s w.lseq w.idx ((List.range 640).filter fun m => tcOf m != t && budgetOk s (tcOf m) (hdrOf s w.lseq) start && ok m)

/-- One candidate admitted, or none where it has to wait (R348 to R350); compaction is asked for where it is what is missing. -/
def admitOne (start : Bool) (s : State) (t : Nat) (w : Waiting) : Option State :=
  let h := hdrOf s w.lseq
  if w.grid then (gridPlan start s w.lseq).bind fun x => if x.2.isEmpty then some x.1 else none
  else match tcbOf s t w.lseq w.idx with
    | none => none
    | some q =>
      match q.core with
      | some _ =>
        let first := w.idx / h.ranks * h.ranks
        let cores := heldCores s w.lseq first h.ranks
        if cores.any fun k => mustCompact (coreAt s k) h then none
        else if cores.length != h.ranks then none
        else (admitCluster start s w.lseq first cores).map fun s1 => dropTcbs s1 w.lseq first h.ranks
      | none =>
        match findCore s w.lseq w.idx (tcCores t) with
        | none => none
        | some k =>
          if !budgetOk s t h start || mustCompact (coreAt s k) h then none
          else if q.mirror then
            match mirrorCore start s t w fun m => !mustCompact (coreAt s m) h with
            | none => none
            | some m => (admitPair start s w.lseq w.idx k m).map fun s1 => dropTcbs s1 w.lseq w.idx 1
          else (admitCluster start s w.lseq w.idx [k]).map fun s1 => dropTcbs s1 w.lseq w.idx 1

/-- The cores that a candidate would go to, its mirror's too, where nothing but the place of windows keeps it from them (R192). -/
def compactFor (start : Bool) (s : State) (t : Nat) (w : Waiting) : List Nat :=
  let h := hdrOf s w.lseq
  if w.grid then ((gridPlan start s w.lseq).map (·.2)).getD []
  else match tcbOf s t w.lseq w.idx with
    | none => []
    | some q => match q.core with
      | some _ => heldCores s w.lseq (w.idx / h.ranks * h.ranks) h.ranks
      | none =>
        let own := if budgetOk s t h start then (findCore s w.lseq w.idx (tcCores t)).toList else []
        if q.mirror && !own.isEmpty && (mirrorCore start s t w fun m => !mustCompact (coreAt s m) h).isNone then
          (match mirrorCore start s t w fun _ => true with
            | some m => own ++ [m]
            | none => [])
        else own

/-- The candidates of a decision in order: one that has waited more than 1 ms blocks every later one (R350). -/
def admitList (start : Bool) (t : Nat) : List Waiting → State → State
  | [], s => s
  | w :: r, s =>
    match admitOne start s t w with
    | some s1 => admitList start t r s1
    | none =>
      let s1 := (askCompaction s (hdrOf s w.lseq) (compactFor start s t w)).getD s
      if w.old then s1 else admitList start t r s1

/-- ONE DECISION of a scheduler (R350), with dealing before and after it (R347). -/
def decideTc (start : Bool) (s : State) (t : Nat) : State :=
  if s.stopped then s
  else
    let s1 := dealAll s
    dealAll (admitList start t (considered s1 t) s1)

/-- R350: a scheduler's decision at a team end or at the arrival of a TCB. -/
def execSchedulerDecision (tc : Nat) (s : State) : Host.Outcome State Fault Refusal := .next (if tc < 40 then decideTc false s tc else s)

/-- An argument read that has failed: every thread of the group takes PROT at its first step, with the word's address, and the words not read stay 0 (R345). -/
def failArgument (s : State) (k u va : Nat) : State := modCore s k fun c => modOwner c u fun x => { x with argsLeft := [], argFailed := some (BitVec.ofNat 64 va) }
/-- R345: the argument word of one s register arrives, or its read is held at a fault; a fault parks the group, and its other words wait for the answer (R226). DESIGN CHOICE: a word beyond 2^56 has no translation, and fails at once as one answered "fatal" does (log entry 77). -/
def execArgumentRead (core slot i : Nat) (s : State) : Host.Outcome State Fault Refusal :=
  .next (match groupAt (coreAt s core) slot with
    | none => s
    | some g =>
      let h := hdrOf s g.lseq
      let va := h.args + 4 * i
      if !g.argsLeft.contains i || !g.faults.isEmpty then s
      else if 2 ^ 56 < va + 4 then failArgument s core g.uid va
      else if !walkerFree s (dieOf core) then s
      else match walked s h.ptroot va 0 with
        | (s0, .leaf e level at') =>
          let p := leafPiece s e (leafPpn e * 2 ^ 14 + va % 2 ^ levelShift level) 4
          let x := { setS g i (BitVec.ofNat 32 (pieceRead s p)) false with argsLeft := g.argsLeft.filter (· != i) }
          let s1 := modCore (bringLines (touchEntry s0 at' 0 e) false [p]) core fun c => setGroup c slot x
          if x.swap == .out then saveContext s1 x else s1
        | (s0, .fault kind level) =>
          if !faultRoom s (dieOf core) then s
          else
            let (s1, fid) := newFault s0 (dieOf core) (.arg core g.uid i) va kind 0 level core slot g.lseq
            modCore s1 core fun c => modGroup c slot fun x => { x with faults := x.faults ++ [fid] })

/-- The tile clusters that a scheduler asks for work, in order: its die's by distance of row on the torus, and then the other dies' (R353). DESIGN CHOICE: of two at one distance the higher row, around the torus, is asked first, and the other dies' by their numbers (log entry 77). -/
def victims (t : Nat) : List Nat :=
  let d := t / 10
  let row := fun (j : Nat) => [(t % 10 + j) % 10, (t % 10 + 10 - j) % 10]
  let near := ([1, 2, 3, 4].flatMap row ++ [(t % 10 + 5) % 10]).map fun r => 10 * d + r
  near ++ (List.range 40).filter fun v => v / 10 != d

/-- Whether a scheduler has a core with a free group slot. -/
def hasFreeSlot (s : State) (t : Nat) : Bool := (tcCores t).any fun k => decide ((coreAt s k).ctx.groups.length < 64)

/-- Whether a scheduler may ask for work now (R353). -/
def mayAsk (s : State) (t : Nat) : Bool :=
  let x := tcAt s t
  decide (t < 40) && x.queue.isEmpty && hasFreeSlot s t && x.stealAt.isNone && dieRuns s (t / 10)

/-- The TCBs of which a victim ships half, in its consideration order (R353). -/
def shippable (s : State) (v : Nat) : List Tcb :=
  (considered s v).filterMap fun w => if w.grid then none else match tcbOf s v w.lseq w.idx with
    | some q => let h := hdrOf s w.lseq; if h.ranks = 1 && !h.cor then some q else none
    | none => none
/-- Whether a TCB has been shipped in this interval (R353). -/
def Tcb.shippedNow (now : Nat) (q : Tcb) : Bool := match q.shipped with
  | some at' => at' / 10000 == now / 10000
  | none => false
/-- The TCBs that a victim ships: the last ⌈n / 2⌉ of the n that it holds, less those already shipped in this interval; none where it holds one at most (R353). -/
def shipment (s : State) (v : Nat) : List Tcb :=
  let xs := shippable s v
  let free := xs.filter fun q => !q.shippedNow s.now
  if xs.length ≤ 1 then [] else free.drop (free.length - (xs.length + 1) / 2)

/-- R353: a steal request reaches a victim, which ships the last half of its TCBs, or refuses. -/
def execStealRequest (tc victim : Nat) (s : State) : Host.Outcome State Fault Refusal :=
  .next (
    let asked := (tcAt s tc).steal
    let left := (victims tc).filter fun v => !asked.contains v && dieRuns s (v / 10)
    if !mayAsk s tc || left.head? != some victim then s
    else
      let ship := shipment s victim
      if ship.isEmpty then
        let done := left.length ≤ 1
        modTc s tc fun t => { t with steal := if done then [] else t.steal ++ [victim], stealAt := if done then some (s.now + 10000) else none }
      else
        let s1 := modTc s victim fun t => { t with queue := t.queue.filter fun q => !ship.contains q }
        modTc s1 tc fun t => { t with steal := [], queue := t.queue ++ ship.map fun q => { q with shipped := some s.now } })

/-- R353: a refused scheduler's wait of 10 µs ends. -/
def execStealRetry (tc : Nat) (s : State) : Host.Outcome State Fault Refusal :=
  .next (match (tcAt s tc).stealAt with
    | some d => if d ≤ s.now then modTc s tc fun t => { t with stealAt := none } else s
    | none => s)

end Sys2Proof.Machine
end

