-- ==== Sys2Proof/Machine/SwapEvents.lean ====
section
/-! DEFINITION. Register windows over time: swap-out, swap-in and compaction (R187 to R192); and the exchange of a core's contexts (R381 to R383). -/

namespace Sys2Proof.Machine

/-- The open bundles of a group. -/
def bundlesOf (c : Core) (slot : Nat) : List Bundle := (c.ctx.bundles.map (·.2)).filter fun b => b.has slot

/-- Whether a group has a load outstanding, guessed or not (R189). -/
def hasLoad (c : Core) (g : Group) : Bool := c.loads.any fun l => l.own == g.uid
/-- Whether a register write is pending from an engine in a group (R189). -/
def hasReadout (c : Core) (g : Group) : Bool := c.matrixWords.any fun w => w.own == g.uid && (match w.what with
  | .ard _ _ _ _ => true
  | _ => false)

/-- Whether a group may give up its window: no entry, no active bundle, every open one parked for more than 8 µs, and nothing outstanding (R189). -/
def swappable (s : State) (c : Core) (slot : Nat) (g : Group) : Bool :=
  g.base.isSome && g.swap == .resident && (allEntries g).isEmpty && !hasLoad c g && !hasReadout c g &&
  (bundlesOf c slot).all fun b => b.parked && decide (b.waitSince + 8000 < s.now)

/-- Since when a group has been parked: since its last bundle parked. -/
def parkedSince (c : Core) (slot : Nat) : Nat := ((bundlesOf c slot).map (·.waitSince)).foldl max 0

/-- Whether the bits that a bundle waits for at cbwait are set (R189, R335). -/
def bitsSet (s : State) (k : Nat) (b : Bundle) : Bool := match planHold (retried s k b) with
  | some (.cbwait, _) => false
  | _ => true
/-- Whether what parked a bundle has ended (R189). -/
def parkOver (s : State) (k : Nat) (b : Bundle) : Wait → Bool
  | .cbwait => bitsSet s k b
  | w => mayResume s k b w
/-- Whether a swapped-out group has reason to return: an entry, or a bundle whose wait has ended (R189). -/
def wantsWindow (s : State) (k slot : Nat) (g : Group) : Bool :=
  let bs := bundlesOf (coreAt s k) slot
  !(allEntries g).isEmpty || bs.isEmpty || bs.any fun b => match b.wait with
    | some w => parkOver s k b w
    | none => true

/-- The window that a bundle waits at vgrow for. -/
def growWait (b : Bundle) : Option Nat := match b.wait with
  | some (.vgrow w) => some w
  | _ => none

/-- Whether a group of a core waits for a window that it cannot have yet (R189, R191). -/
def windowWanted (s : State) (k : Nat) : Bool :=
  let c := coreAt s k
  (c.ctx.groups.any fun g => g.2.swap == .out && wantsWindow s k g.1 g.2 && (windowFits c g.2.uid g.2.win).isNone) ||
  (c.ctx.bundles.any fun b => match growWait b.2 with
    | some w => b.2.parts.any fun p => match groupAt c p.slot with
      | some g => (windowFits c g.uid w).isNone
      | none => false
    | none => false)

/-- Whether every resident group has a bundle parked at vgrow (R191). -/
def allGrow (c : Core) : Bool :=
  let rs := c.ctx.groups.filter fun g => g.2.swap == .resident && g.2.base.isSome
  !rs.isEmpty && rs.all fun g => (bundlesOf c g.1).any fun b => b.parked && (growWait b).isSome

/-- The group to swap out: where every resident group waits at vgrow, the youngest, as soon as its loads have resolved; otherwise the longest parked that may go (R189, R191). -/
def swapVictim (s : State) (k : Nat) : Option Nat :=
  let c := coreAt s k
  if allGrow c then
    let xs := c.ctx.groups.filter fun g => g.2.swap == .resident && g.2.base.isSome
    match lbest (fun x y => decide (groupAge s y.2 < groupAge s x.2)) xs with
    | some (slot, g) => if hasLoad c g then none else some slot
    | none => none
  else (lbest (fun x y => decide (parkedSince c x.1 < parkedSince c y.1)) (c.ctx.groups.filter fun g => swappable s c g.1 g.2)).map (·.1)

/-- R189: while a group waits for a window, the context of the group chosen begins to be written out. -/
def execGroupSwapOut (core : Nat) (s : State) : Host.Outcome State Fault Refusal :=
  .next (if !windowWanted s core || (coreAt s core).ctx.groups.any (fun g => g.2.swap == .leaving) then s
    else match swapVictim s core with
      | none => s
      | some slot => modCore s core fun c => modGroup c slot fun g => { g with swap := .leaving })

/-- The watchdog's count of a group stopped, or run on, at a time (R386). -/
def stopDog (now : Nat) (g : Group) : Group := { g with dogStop := some now }
def runDog (now : Nat) (g : Group) : Group := match g.dogStop with
  | some t => { g with dogOff := g.dogOff + (now - t), dogStop := none }
  | none => g

/-- Selectors that run a bundle of a slot run none. -/
def stopRuns (c : Core) (slot : Nat) : Core :=
  let free := fun (r : Option Nat) => match r.bind (bundleAt c) with
    | some b => if b.has slot then none else r
    | none => r
  { c with ctx := { c.ctx with run0 := free c.ctx.run0, run1 := free c.ctx.run1 } }

/-- R189, R190: the context write ends, and the window is free; loads and readouts still on their way write their registers first (log entry 37). -/
def execSwapOutComplete (core slot : Nat) (s : State) : Host.Outcome State Fault Refusal :=
  .next (match groupAt (coreAt s core) slot with
    | none => s
    | some g =>
      if g.swap != .leaving || hasReadout (coreAt s core) g || hasLoad (coreAt s core) g then s
      else modCore (saveContext s g) core fun c =>
        loseParts (setGroup (stopRuns c slot) slot (stopDog s.now { g with swap := .out, base := none, moving := false })) [⟨slot, 0xFFFFFFFF⟩])

/-- R189, R190: a swapped-out group returns to a free window once what parked it has ended, with the registers that its record gives. -/
def execGroupSwapIn (core slot : Nat) (s : State) : Host.Outcome State Fault Refusal :=
  .next (match groupAt (coreAt s core) slot with
    | none => s
    | some g =>
      if g.swap != .out || !wantsWindow s core slot g then s
      else match windowFits (coreAt s core) g.uid g.win with
        | none => s
        | some b => modCore s core fun c =>
            setGroup c slot (runDog s.now { loadContext s g with swap := .resident, base := some b }))

/-- Whether a group has an open bundle that is not parked (R192). -/
def activeGroup (c : Core) (slot : Nat) : Bool := (bundlesOf c slot).any fun b => !b.parked

/-- R192: background compaction takes up the windows of the groups that have no active bundle. -/
def execCompaction (core : Nat) (s : State) : Host.Outcome State Fault Refusal :=
  .next (modCore s core fun c => if !c.compacting then c else
    { c with ctx := { c.ctx with groups := tmap c.ctx.groups fun slot g => if g.base.isSome && !activeGroup c slot then { g with moving := true } else g } })

/-- Windows moved to the lowest granules, in the order in which they lie. -/
def packWindows : List (Nat × Nat × Nat) → Nat → Core → Core
  | [], _, c => c
  | (slot, _, n) :: r, at', c => packWindows r (at' + n) (modGroup c slot fun g => { g with base := some at', moving := false })

/-- Windows of a core by where they lie. -/
def insertWindow (x : Nat × Nat × Nat) : List (Nat × Nat × Nat) → List (Nat × Nat × Nat)
  | [] => [x]
  | y :: r => if x.2.1 ≤ y.2.1 then x :: y :: r else y :: insertWindow x r

/-- R192: compaction ends, no register changed, and the launch that waits for it may be admitted. -/
def execCompactionComplete (core : Nat) (s : State) : Host.Outcome State Fault Refusal :=
  .next (
    let c := coreAt s core
    let ws := c.ctx.groups.filter fun g => g.2.base.isSome
    if !c.compacting || ws.any (fun g => !g.2.moving) then s
    else
      let order := (ws.map fun g => (g.1, g.2.base.getD 0, windowGranules g.2.win)).foldl (fun a x => insertWindow x a) []
      decideTc false (setCore s core { packWindows order 0 c with compacting := false }) (tcOf core))

/-- R381: a write to PREQ; GO starts an exchange on the core that it names. -/
def writePreq (s : State) (die value : Nat) : State :=
  let n := value % 256
  if value / 256 % 2 = 0 then modDie s die fun d => { d with preqCore := n }
  else if (dieAt s die).preqBusy || 159 < n then s
  else modCore (modDie s die fun d => { d with preqCore := n, preqBusy := true }) (160 * die + n) fun c => { c with exch := .fill }

/-- R381: system software asks for an exchange on a core of a die. -/
def execPreqGo (die value : Nat) (s : State) : Host.Outcome State Fault Refusal := .next (if die < 4 then writePreq s die value else s)

/-- A context with the registers and accumulator tiles of its groups as their teams' records give them; groups swapped out within it stay so (R382, R190). -/
def fillContext (s : State) (x : Ctx) : Ctx :=
  let y := (ctxTeams x).foldl (loadTiles s) x
  { y with groups := tmap y.groups fun _ g => if g.swap == .out then g else loadContext s g }
/-- R382: the saved context stands in the shadow bank, and its teams' TSM with it. -/
def execExchangeFillComplete (core : Nat) (s : State) : Host.Outcome State Fault Refusal :=
  .next (let c := coreAt s core
         if c.exch != .fill then s
         else modCore ((ctxTeams c.saved).foldl loadTsm s) core fun c => { c with shadow := fillContext s c.saved, saved := Ctx.empty, exch := .swap })

/-- Whether a selector stands at its swap point: it has no bundle, or one that waits where it may switch (R382). -/
def atSwapPoint (c : Core) (sel : Nat) : Bool := match (runOf c sel).bind (bundleAt c) with
  | none => true
  | some b => mayLeave b

/-- The PEAKAMP of the teams of a context that have not ended. -/
def ctxAmps (s : State) (x : Ctx) : Nat := ((ctxTeams x).map fun u => match teamAt s u with
  | some t => if t.ended then 0 else (hdrOf s t.lseq).peakamp
  | none => 0).sum

/-- The watchdog counts of a context's groups stopped, or run on; those of a swapped-out group stand either way (R386). -/
def ctxDogs (f : Group → Group) (x : Ctx) : Ctx := { x with groups := tmap x.groups fun _ g => if g.swap == .out then g else f g }

/-- Every latch of a context lost (R382). -/
def ctxLatches (x : Ctx) : Ctx := { x with groups := tmap x.groups fun _ g => mapThreads g fun _ t => loseLatches t }

/-- R382, R383: the banks change over; the charge of the outgoing teams is taken off and that of the returning ones is added. -/
def execExchangeSwap (core : Nat) (s : State) : Host.Outcome State Fault Refusal :=
  .next (
    let c := coreAt s core
    if c.exch != .swap || !atSwapPoint c 0 || !atSwapPoint c 1 then s
    else
      let out := ctxDogs (stopDog s.now) { c.ctx with run0 := none, run1 := none }
      let back := ctxLatches (ctxDogs (runDog s.now) c.shadow)
      let s1 := setCore s core { c with ctx := { back with run0 := none, run1 := none }, shadow := out, exch := .spill }
      let s2 := modTc s1 (tcOf core) fun t => { t with ic := t.ic - ctxAmps s out + ctxAmps s back }
      (back.groups.map (·.1)).foldl (fun a slot => endGroup a core slot) s2)

/-- Whether the outgoing groups have nothing left to write: their loads have written their registers and their matrix words have taken effect (R382). -/
def spillReady (c : Core) : Bool :=
  c.shadow.mq0.isEmpty && c.shadow.mq1.isEmpty && c.shadow.engine.isNone &&
  c.shadow.groups.all fun g => c.loads.all fun l => l.own != g.2.uid || l.written || l.detached

/-- R382: the outgoing context, with TSM and accumulator tiles, is written to its team records, and BUSY clears. -/
def execExchangeSpillComplete (core : Nat) (s : State) : Host.Outcome State Fault Refusal :=
  .next (
    let c := coreAt s core
    if c.exch != .spill || !spillReady c then s
    else
      let s1 := saveContexts s (c.shadow.groups.filter fun g => g.2.swap != .out)
      let s2 := (ctxTeams c.shadow).foldl (fun a u => saveTsm (saveTiles a c.shadow u) u) s1
      modDie (setCore s2 core { c with saved := c.shadow, shadow := Ctx.empty, exch := .idle }) (dieOf core) fun d => { d with preqBusy := false })

end Sys2Proof.Machine
end

