-- ==== Sys2Proof/Machine/PowerEvents.lean ====
section
/-! DEFINITION. Registers of the device and its dies, control intervals, droop, caps, heat, memory power, and the division of die SRAM (R214, R215, R221, R348, R356 to R369, R385, R387, R419). -/

namespace Sys2Proof.Machine

/-- The matrix engines of a tile cluster that are busy, filler operations included (R366, R402). -/
def busyEngines (s : State) (t : Nat) : Nat :=
  if (tcAt s t).fill then 16 else ((tcCores t).filter fun k => (matrixCtx (coreAt s k)).engine.isSome).length
/-- What a token bucket gains in a cycle (R402). -/
def tokenGain (s : State) (t : Nat) : Nat :=
  let r := (tcAt s t).nocb.toNat
  max (slice r 23 16) (slice r 7 0 - slice r 11 8 * busyEngines s t)
/-- A token bucket refilled for each cycle of its tile cluster's clock since its last refill (R402). -/
def refill (s : State) (t : Nat) : State :=
  let x := tcAt s t
  if 40 ≤ t || x.cyc ≤ x.refilled then s
  else modTc s t fun y => { y with tokens := min 256 (y.tokens + (y.cyc - y.refilled) * tokenGain s t), refilled := y.cyc }

/-- CAP as it acts (R360). -/
def capOf (t : Tc) : Nat := min 1750 (max 400 t.cap)
/-- The cap that a die requests: the least of its tile clusters' CAP and its thermal cap (R362). -/
def dieRequest (s : State) (d : Nat) : Nat := (List.range 10).foldl (fun a k => min a (capOf (tcAt s (10 * d + k)))) (dieAt s d).thermalCap
/-- The least request of the throttle group: the device's own dies, and with a nonzero GID the other members as last heard (R362). -/
def leastRequest (s : State) : Nat :=
  let own := (List.range 4).foldl (fun a d => min a (dieRequest s d)) 1750
  if s.tgid = 0 then own else s.members.foldl (fun a m => min a m.2.req) own

/-- FEFF of every tile cluster brought up to date; the time until now has passed at the old one (R360, R363). -/
def refreshFeff (s : State) : State :=
  (List.range 40).foldl (fun a t =>
    let x := tcAt a t
    let f := min (capOf x) (min (dieAt a (t / 10)).thermalCap a.collCap)
    if x.feff = f then a else modTc (settleTc a t) t fun y => { y with feff := f }) s

/-- A lowered collective cap adopted at once, and a raised one set to take effect at an interval boundary no earlier than 20 µs from now (R362). -/
def settleCap (s : State) : State :=
  let m := leastRequest s
  if m < s.collCap then refreshFeff { s with collCap := m, raiseAt := none }
  else if s.collCap < m then refreshFeff { s with raiseAt := some (s.now + 20000) }
  else refreshFeff { s with raiseAt := none }

/-- STATE of a status record (R361). -/
def tcState (s : State) (t : Nat) : Nat :=
  let x := tcAt s t
  bit x.halving + 2 * bit x.fill + 4 * bit (decide ((dieAt s (t / 10)).thermalCap < capOf x)) + 8 * bit (decide (s.collCap < dieRequest s (t / 10)))

/-- The hottest junction of a tile cluster: what its sensor reads, and no hotter than the hottest of its die (R361, R368; log entry 4). -/
def junctionOf (s : State) (t : Nat) : Nat :=
  let x := Config.junction t s.now
  let d : BitVec 16 := ((dieAt s (t / 10)).temp).truncate 16
  (if d.toInt < x.toInt then d else x).toNat
/-- The fields of a tile cluster's status record but SEQ (R361), with the ER, IC, ADM and FAVG given. -/
def statusRecord (s : State) (t er ic adm favg : Nat) : Nat :=
  let x := tcAt s t
  s.now % 2 ^ 64 * 2 ^ 64 + x.feff % 2 ^ 16 * 2 ^ 128 + favg % 2 ^ 16 * 2 ^ 144 + x.drt.toNat % 2 ^ 8 * 2 ^ 160 +
  x.drt.toNat / 2 ^ 8 % 2 ^ 8 * 2 ^ 168 + tcState s t * 2 ^ 176 + x.alarms % 2 ^ 32 * 2 ^ 192 + x.lastAlarm % 2 ^ 64 * 2 ^ 256 +
  er % 2 ^ 16 * 2 ^ 320 + ic % 2 ^ 16 * 2 ^ 336 + junctionOf s t * 2 ^ 352 + x.ib % 2 ^ 16 * 2 ^ 368 + adm % 2 ^ 32 * 2 ^ 384

/-- Some bytes of a status record written where PSB places them, under the root that the manual does not name (R361, log entry 17). -/
def writeStatus (s : State) (t off n v : Nat) : State :=
  if s.psb.toNat = 0 then s else (writeVa s Config.statusRoot (s.psb.toNat + 64 * t + off) n v).1

/-- An update of a status record as the units that are to be written: SEQ is odd before them, and even again after them (R361). -/
def updateStatus (s : State) (t : Nat) (units : List (Nat × Nat)) : State :=
  if s.psb.toNat = 0 then s
  else modTc s t fun x =>
    { x with seq := (x.seq + 2) % 2 ^ 32, outAt := if x.out.isEmpty then s.now else x.outAt
             out := x.out ++ [(0, (x.seq + 1) % 2 ^ 32)] ++ units ++ [(0, (x.seq + 2) % 2 ^ 32)] }
/-- Units of 8 bytes of a tile cluster's status record written, n at most, while its die has a free walk (R225). -/
def writeOut (t : Nat) : Nat → State → State
  | 0, s => s
  | n + 1, s => match (tcAt s t).out with
    | [] => s
    | u :: r => if !walkerFree s (t / 10) then s else writeOut t n (writeStatus (modTc s t fun x => { x with out := r }) t u.1 8 u.2)
/-- The units of status records written as time passes: one of each record at a time, and every one that is 1 µs old (R361). -/
def writeUnits (s : State) : State :=
  s.tcs.foldl (fun a x => if x.2.out.isEmpty then a else writeOut x.1 (if x.2.outAt + 1000 ≤ s.now then x.2.out.length else 1) a) s

/-- The mean frequency of a tile cluster since its interval began, in MHz (R361). -/
def meanMhz (now : Nat) (t : Tc) : Nat := (t.cyc - t.cyc0) * 1000 / (now - t.at0)
/-- A tile cluster's status record at the end of an interval (R361). -/
def recordInterval (s : State) (t : Nat) : State :=
  let x := tcAt s t
  let v := statusRecord s t x.er x.ic x.adm (meanMhz s.now x)
  updateStatus s t ((List.range 7).map fun i => (8 * (i + 1), bytesOf v (8 * (i + 1)) 8))

/-- ALARMS and LASTAL of a status record at an alarm (R361). -/
def recordAlarm (s : State) (t : Nat) : State :=
  let x := tcAt s t
  updateStatus s t [(0x18, x.alarms % 2 ^ 32), (0x20, x.lastAlarm % 2 ^ 64)]

/-- IB for the interval after the one of a number, by the alarms raised in that one (R359). -/
def nextIb (n : Nat) (t : Tc) : Nat :=
  let a := tget 0 t.intAlarms n
  min t.ibud (if 8 < a then 9 * t.ib / 10 else if a = 0 then t.ib + t.ibud / 20 else t.ib)

/-- A tile cluster at the start of an interval, with its clock brought up to now: its record is written and its budgets are set (R348, R359, R361). -/
def startInterval (s0 : State) (t : Nat) : State :=
  let s := settleTc s0 t
  let n := (dieAt s (t / 10)).interval - 1
  let s1 := modTc s t fun x => { x with ib := nextIb n x }
  modTc (recordInterval s1 t) t fun x => { x with eb := x.ebud, er := x.ebud, adm := 0, intAlarms := tdel x.intAlarms n, cyc0 := x.cyc, at0 := s.now }

/-- The thermal cap of a die at an interval: 25 MHz down above 100 °C, 25 MHz up below 97 °C (R368). -/
def stepThermal (d : Die) : Die :=
  let x := d.temp.toInt
  if 800 < x then { d with thermalCap := d.thermalCap - 25 }
  else if x < 776 then { d with thermalCap := min 1750 (d.thermalCap + 25) }
  else d

/-- A raised collective cap that has become due takes effect (R362). -/
def raiseCap (s : State) : State := match s.raiseAt with
  | some d => if d ≤ s.now then refreshFeff { s with collCap := leastRequest s, raiseAt := none } else s
  | none => s

/-- The start of a die's next interval, where it is due: its thermal cap steps, and every tile cluster's budgets are set (R348, R359, R361, R362, R368). -/
def beginInterval (s : State) (die : Nat) : State :=
  if s.now / 10000 ≤ (dieAt s die).interval then s
  else
    let s1 := modDie s die fun d => stepThermal { d with interval := d.interval + 1 }
    let s2 := raiseCap (if (dieAt s1 die).thermalCap = (dieAt s die).thermalCap then s1 else settleCap s1)
    (List.range 10).foldl (fun a k => startInterval a (10 * die + k)) s2
/-- R348, R350: a 10 µs interval starts, on every die at one time, before any scheduler decides in it; and then each scheduler of the die decides. -/
def execControlInterval (die : Nat) (s : State) : Host.Outcome State Fault Refusal :=
  .next (
    if 4 ≤ die || s.now / 10000 ≤ (dieAt s die).decided then s
    else
      let s1 := (List.range 4).foldl beginInterval s
      let s2 := modDie s1 die fun d => { d with decided := d.interval }
      (List.range 10).foldl (fun a k => decideTc true a (10 * die + k)) s2)

/-- STRC as it acts (R360). -/
def strc (t : Tc) : Nat := min 32 (t.drt.toNat / 2 ^ 8 % 2 ^ 8)

/-- R358, R369: the supply has fallen below the threshold: stretching begins in the next period, and 64 periods of halved issue follow it; during a stretch the alarm is only counted. -/
def execDroopAlarm (tc : Nat) (s : State) : Host.Outcome State Fault Refusal :=
  .next (
    let x := tcAt s tc
    if 40 ≤ tc || x.drt.toNat % 256 = 0 then s
    else
      let s1 := modTc (settleTc s tc) tc fun t =>
        let n := s.now / 10000
        let u := { t with alarms := (t.alarms + 1) % 2 ^ 32, lastAlarm := s.now, intAlarms := tput t.intAlarms n (tget 0 t.intAlarms n + 1) }
        if t.cyc < t.stretch then u
        else { u with stretchAt := t.cyc + 1, stretch := t.cyc + 1 + strc t, halved := t.cyc + 1 + strc t + 64, barred := if t.issues then none else some t.cyc }
      recordAlarm s1 tc)

/-- R369: the stretched periods end. -/
def execStretchEnd (tc : Nat) (s : State) : Host.Outcome State Fault Refusal :=
  .next (modTc s tc fun t => if t.stretch ≤ t.cyc then { t with stretch := 0 } else t)
/-- R369: the halved periods end. -/
def execHalvedIssueEnd (tc : Nat) (s : State) : Host.Outcome State Fault Refusal :=
  .next (modTc s tc fun t => if t.halved ≤ t.cyc then { t with halved := 0 } else t)

/-- Launches that have teams on a die. -/
def launchesOn (s : State) (d : Nat) : List Nat :=
  (liveLaunches s).filter fun l => s.teams.any fun t => t.2.lseq == l && !t.2.ended && dieOf t.2.core == d

/-- R368: the hottest junction of a die is read; above 115 °C its clocks stop, its launches end, and the stop is reported. -/
def execThermalTrip (die temp : Nat) (s : State) : Host.Outcome State Fault Refusal :=
  .next (
    if 4 ≤ die then s
    else
      let x : Word := (BitVec.ofNat 16 temp).signExtend 32
      let s1 := modDie s die fun d => { d with temp := x }
      if x.toInt ≤ 920 || (dieAt s die).stopped then s1
      else
        let ls := launchesOn s1 die
        let s0 := (List.range 10).foldl (fun a k => settleTc a (10 * die + k)) s1
        let s2 := ls.foldl endLaunch (modDie s0 die fun d => { d with stopped := true })
        sendEvent s2 8 die (die + temp % 2 ^ 16 * 2 ^ 8 + ls.length % 2 ^ 32 * 2 ^ 24))

/-- R362: a member's request reaches the throttle group: a die of this device by its own CAP and thermal cap, or a die of another device, heard with a cap. -/
def execCollectiveCapRequest (member cap : Nat) (s : State) : Host.Outcome State Fault Refusal :=
  .next (settleCap (if member < 4 || s.tgid = 0 then s else { s with members := tput s.members member ⟨cap, s.now, false⟩ }))

/-- R362: a member unheard for 50 µs is held at its last request. -/
def execThrottleMemberSilence (member : Nat) (s : State) : Host.Outcome State Fault Refusal :=
  .next { s with members := tmod s.members member fun m => if m.heard + 50000 < s.now then { m with silent := true } else m }

/-- R366: ramp fill begins or ends on the tile clusters of a die. -/
def execRampFill (die : Nat) (on : Bool) (s : State) : Host.Outcome State Fault Refusal :=
  .next (if 4 ≤ die then s else (List.range 10).foldl (fun a k => modTc a (10 * die + k) fun t => { t with fill := on }) s)

/-- R364: the power manager sets AWIN, between 12 ns and AWMAX as it acts. -/
def execActivationWindowAdjust (stack awin : Nat) (s : State) : Host.Outcome State Fault Refusal :=
  .next (if 8 ≤ stack then s else modDie s (stack / 2) fun d =>
    { d with actWin := tput d.actWin (stack % 2) (max 12 (min awin (min 96 (max 12 (awMax d (stack % 2)))))) })

/-- The refresh policy of a stack by its temperature: it rises past each threshold, and falls once 3 °C below it (R365). -/
def refreshPolicy (old : Nat) (temp : Int) : Nat :=
  let up := if 840 < temp then 3 else if 760 < temp then 2 else if 680 < temp then 1 else 0
  let down := if 816 < temp then 3 else if 736 < temp then 2 else if 656 < temp then 1 else 0
  if old < up then up else min old down

/-- R365: a stack's temperature is read, its refresh policy follows, and the alarm above 105 °C is raised or cleared. -/
def execRefreshDerate (stack temp : Nat) (s : State) : Host.Outcome State Fault Refusal :=
  .next (
    if 8 ≤ stack then s
    else
      let d := stack / 2
      let old := tget 0 (dieAt s d).policy (stack % 2)
      let new := refreshPolicy old (BitVec.ofNat 16 temp).toInt
      let s1 := modDie s d fun x => { x with policy := tput x.policy (stack % 2) new }
      if (old == 3) == (new == 3) then s1
      else sendEvent s1 7 d (stack + temp % 2 ^ 16 * 2 ^ 8 + bit (new == 3) * 2 ^ 24))

/-- The deadlines of the loads that a core has queued at a stack; none stands for a request that has none (R221). -/
def stackDeadlines (stack : Nat) (c : Core) : List (Option Nat) :=
  (c.loads.filter fun l => (if l.reads then l.unread else l.pieces).any fun p => stackOf p == some stack).map fun l =>
    if l.kind == .load && l.cls != 0 then l.deadline else none
/-- Whether a core has a request at a stack that has no deadline: a write, a class 0 request, a walk's read, or a copy's (R221; log entry 73). -/
def plainRequest (stack : Nat) (c : Core) : Bool :=
  (c.writes.any fun w => !w.held && w.pieces.any fun p => stackOf p == some stack) || c.walks.any Walk.active ||
  c.copies.any fun x => x.started && !x.left.isEmpty
/-- Whether a core's requests at a stack meet a test of their deadlines, or have none (R221). -/
def stackNeeds (stack : Nat) (near : Nat → Bool) (c : Core) : Bool :=
  plainRequest stack c || (stackDeadlines stack c).any fun d => match d with
    | some t => near t
    | none => true
/-- Whether a core has a request queued at a stack that keeps it awake: one without a deadline, or with one within 3 µs (R221). -/
def wakesStack (now stack : Nat) (c : Core) : Bool := stackNeeds stack (fun t => decide (t ≤ now + 3000)) c
/-- The earliest deadline queued at a stack. -/
def earliest (s : State) (stack : Nat) : Option Nat := lbest (fun x y => decide (x < y)) (s.cores.flatMap fun c => (stackDeadlines stack c.2).filterMap id)

/-- R221: a stack with only distant deadlines enters its low-power mode. -/
def execStackLowPowerEntry (stack : Nat) (s : State) : Host.Outcome State Fault Refusal :=
  .next (if 8 ≤ stack || s.cores.any (fun c => wakesStack s.now stack c.2) then s
    else modDie s (stack / 2) fun d => { d with lowPower := tput d.lowPower (stack % 2) (earliest s stack) })
/-- Whether a stack in its low-power mode must leave it: 1 µs before its earliest deadline, or at once for a request with a nearer one than those queued when it began, or with none (R221). -/
def mustWake (s : State) (stack : Nat) (began : Option Nat) : Bool :=
  s.cores.any fun c => stackNeeds stack (fun t => decide (t ≤ s.now + 1000) || (match began with
    | some e => decide (t < e)
    | none => true)) c.2
/-- The stacks that must wake awake (R221). -/
def wakeStacks (s : State) : State :=
  { s with dies := tmap s.dies fun d x => { x with lowPower := x.lowPower.filter fun y => !mustWake s (2 * d + y.1) y.2 } }
/-- R221: a stack leaves its low-power mode, when it must. -/
def execStackWake (stack : Nat) (s : State) : Host.Outcome State Fault Refusal :=
  .next (if 8 ≤ stack || !(tfind (dieAt s (stack / 2)).lowPower (stack % 2)).any (mustWake s stack) then s else modDie s (stack / 2) fun d => { d with lowPower := tdel d.lowPower (stack % 2) })

/-- R214, R215: a write to DSPLIT; it has no effect while BUSY, or where it leaves SCR as it is. -/
def writeSplit (s : State) (die value : Nat) : State :=
  let d := dieAt s die
  if d.busy || value % 16 = d.scr then s else modDie s die fun x => { x with busy := true, scrNext := some (value % 16), applied := false }
def execDsplitWrite (die value : Nat) (s : State) : Host.Outcome State Fault Refusal := .next (if die < 4 then writeSplit s die value else s)

/-- Whether a launch that has been taken holds SRAM of a die from a limit on: its window or its save area (R215). -/
def holdsSram (h : Hdr) (d limit : Nat) : Bool :=
  (h.spwin != 0 && decide (limit < lget 0 h.wbase d + h.spwin)) || (h.svsize != 0 && decide (limit < lget 0 h.svbase d + h.svsize))

/-- Memory without the cells of an interval: they read as zero. -/
def zeroRange (m : List Host.Cell) (lo hi : Nat) : List Host.Cell := m.filter fun c => decide (c.1 < lo) || decide (hi ≤ c.1)

/-- R215: once no window lies in SRAM that leaves the scratchpad, the cache and the remote copy store are emptied, and the bytes that change role are zeroed. DESIGN CHOICE: the window and the save area of every launch that is taken and not complete count, admitted or not (log entry 76). -/
def execDsplitApply (die : Nat) (s : State) : Host.Outcome State Fault Refusal :=
  .next (
    let d := dieAt s die
    match d.scrNext with
    | none => s
    | some n =>
      let lo := 8 * 2 ^ 20 * min n d.scr
      let hi := 8 * 2 ^ 20 * max n d.scr
      if !d.busy || d.applied || (decide (n < d.scr) && s.launches.any fun l => !l.2.completed && l.2.badoff == 0 && holdsSram l.2.hdr die lo) then s
      else { modDie s die (fun x => { x with cache := [], copies := [], applied := true }) with
               mem := zeroRange s.mem (scratchLoc die lo) (scratchLoc die hi) })
/-- R215: the change of SCR is complete. -/
def execDsplitBusyClear (die : Nat) (s : State) : Host.Outcome State Fault Refusal :=
  .next (match (dieAt s die).scrNext with
    | some n => if (dieAt s die).applied then modDie s die fun x => { x with scr := n, busy := false, scrNext := none, applied := false } else s
    | none => s)

/-- A write of a register's RW fields (R6, R126); those with an effect of their own have it. -/
def writeRegister (s : State) (die number value : Nat) : State :=
  let v := value % 2 ^ 32
  match number with
  | 0x180 => settleCap { s with tgid := BitVec.ofNat 32 (v % 2 ^ 16), members := if v % 2 ^ 16 = s.tgid.toNat then s.members else [] }
  | 0x184 => { s with psb := BitVec.ofNat 64 (s.psb.toNat / 2 ^ 32 * 2 ^ 32 + v) }
  | 0x185 => { s with psb := BitVec.ofNat 64 (v % 2 ^ 24 * 2 ^ 32 + s.psb.toNat % 2 ^ 32) }
  | 0x188 => { s with wdt := BitVec.ofNat 32 (v % 2 ^ 16) }
  | 0x189 => { s with mirk := BitVec.ofNat 32 (v % 32) }
  | 0x190 => writePreq s die v
  | 0x1A0 => writeSplit s die v
  | 0x181 => modDie s die fun d => { d with actMax := tput d.actMax 0 (v / 256 % 256) }
  | 0x182 => modDie s die fun d => { d with actMax := tput d.actMax 1 (v / 256 % 256) }
  | n =>
    if 0x1A8 ≤ n && n ≤ 0x1AA then { s with chkey := tput s.chkey (n - 0x1A8) (BitVec.ofNat 32 (v % 2 ^ 11)) }
    else match tcRegister n with
      | some (k, r) =>
        let f := fun (g : Tc → Tc) => modTc s (10 * die + k) g
        (match r with
         | 0 => f fun t => { t with drt := BitVec.ofNat 32 (v % 2 ^ 16) }
         | 1 => settleCap (f fun t => { t with cap := v % 2 ^ 12 })
         | 2 => f fun t => { t with ebud := v % 2 ^ 16 }
         | 3 => f fun t => { t with ibud := v % 2 ^ 16 }
         | _ => modTc (refill (settleTc s (10 * die + k)) (10 * die + k)) (10 * die + k) fun t => { t with nocb := BitVec.ofNat 32 (v &&& 0x00FF0FFF) })
      | none => s

/-- R126, R360: a write to a register that has no behaviour of its own, as a control core makes it. -/
def execRegisterWrite (die number value : Nat) (s : State) : Host.Outcome State Fault Refusal :=
  .next (if die < 4 && (deviceRegister number || dieRegister number) && number != 0x190 && number != 0x1A0 then writeRegister s die number value else s)

end Sys2Proof.Machine
end

