-- ==== Sys2Proof/Machine/TrapEvents.lean ====
section
/-! DEFINITION. Traps that could not be entered at once, the watchdog, the compare of mirror windows, and uncorrectable errors (R374 to R378, R385 to R391). -/

namespace Sys2Proof.Machine

/-- R374: threads that wait to enter a trap enter it once their guesses have resolved, a sub-group is free, and their records can be queued. -/
def execTrapEntry (core tid : Nat) (s : State) : Host.Outcome State Fault Refusal :=
  .next (match lfind (fun (p : Pending) => p.num == tid) (coreAt s core).pend with
    | none => s
    | some p =>
      let here := match groupAt (coreAt s core) p.slot with
        | some g => g.uid == p.own && g.swap != .out
        | none => false
      if here && trapReady s core p.slot p.traps then
        settleAt core p.slot (takeTraps (modCore (settleTc s (tcOf core)) core fun c => { c with pend := c.pend.filter fun x => x.num != tid }) core p.slot p.sub p.traps p.pos p.pc)
      else s)

/-- The bytes of a copy under way that are still to move, as positions. -/
def Copy.toMove (x : Copy) : List Nat := x.left.flatMap fun p => (List.range p.2).map (p.1 + ·)
/-- Where the bytes that a copy has still to move come from and go to. -/
def copyPieces (s : State) (k : Nat) (x : Copy) : List Piece :=
  let h := hdrOf s (copyLaunch s k x)
  let lies := fun (sp : Spot) => match sp with
    | .found ps => ps
    | _ => []
  x.toMove.flatMap fun i => lies (burstDst s k h x i 1).2 ++ lies (engineReach s k h x.team 4 (recSrcSp x.bytes) (copySrc s x (i % recLen x.bytes)) 1).2
/-- Whether a copy under way has bytes to move over a link: to or from a peer page whose line takes it (R219, R408). -/
def copyOver (s : State) (k link : Nat) (x : Copy) : Bool := x.started && (copyPieces s k x).any fun p => p.peer && lineLink s p.loc == some link
/-- A fault no longer held by its group. -/
def dropFault (fid : Nat) (g : Group) : Group := { g with faults := g.faults.filter (· != fid) }

/-- The spill stack of a group written again, and spilled entries returned where there is room (R171, R213). -/
def retrySpill (s : State) (k own : Nat) : State := refillAt 16 (putSpill s k own 0) k own
/-- A team by its launch and index; a mirror has no bit of its own. -/
def teamOfIndex (s : State) (lseq idx : Nat) : Option Team := (lfind (fun (x : Nat × Team) => x.2.lseq == lseq && x.2.idx == idx && x.2.role != .mirror) s.teams).map (·.2)
/-- The held bit of a team at its end written again, or given up (R334). -/
def answerBitmap (s : State) (lseq idx : Nat) (fatal : Bool) : State :=
  let s1 := modLaunch s lseq fun l => { l with bitWrites := l.bitWrites.filter fun b => b.1 != idx }
  if fatal then settleLaunches s1
  else match teamOfIndex s1 lseq idx with
    | some t => settleLaunches (setTeamBit s1 t)
    | none => settleLaunches s1

/-- The accesses that waited for room among the unanswered faults, for room for an event or for a free walk, numbered 0, made again (R225, R227, R415). -/
def retryWaiting (s : State) : State :=
  let gs := s.cores.flatMap fun c => (c.2.ctx.groups ++ c.2.saved.groups ++ c.2.shadow.groups).filterMap fun g => if g.2.faults.contains 0 then some (c.1, g.2.uid) else none
  let bs := s.launches.flatMap fun l => (l.2.bitWrites.filter fun b => b.2 == 0).map fun b => (l.1, b.1)
  let s1 := gs.foldl (fun a x => retrySpill (modCore a x.1 fun c => modOwner c x.2 (dropFault 0)) x.1 x.2) (retryHeld s)
  bs.foldl (fun a x => answerBitmap a x.1 x.2 false) s1

/-- The outstanding operations of a group, each with its number and where it goes: loads that are not detached, writes, copies, and matrix words (R28, R267, R386). -/
def outstanding (s : State) (k u : Nat) : List (Nat × List Piece) :=
  let c := coreAt s k
  ((c.loads.filter fun l => l.own == u && !l.detached).map fun l => (l.num, l.pieces)) ++
  ((c.writes.filter fun w => w.own == u).map fun w => (w.op.getD w.num, w.pieces)) ++
  ((c.copies.filter fun x => x.own == u).map fun x => (x.num, if x.started then copyPieces s k x else copyPieces s k { x with left := [(0, recLen x.bytes)] })) ++
  ((c.matrixWords.filter fun w => w.own == u).flatMap fun w => match w.what with
    | .ast _ _ ts => (w.ops.zip ts).map fun x => (x.1, x.2.2)
    | _ => w.ops.map fun n => (n, []))
/-- The rank of the peer device that a group's oldest outstanding operation targets, if it targets one (R386). -/
def oldestPeer (s : State) (k u : Nat) : Option Nat :=
  match lbest (fun (x y : Nat × List Piece) => decide (x.1 < y.1)) (outstanding s k u) with
  | none => none
  | some x => (lfind (fun (p : Piece) => p.peer) x.2).bind fun p => peerRank p.loc

/-- The time of an interval that the reports of a recovering peer exclude, for a group whose last step was at a time: 50 ms from the last report before that step, and 50 ms from the first one after it (R386). -/
def excluded (reports : List Nat) (dog lo now : Nat) : Nat :=
  let w := 50000000
  let before := (reports.filter fun t => decide (t ≤ dog)).getLast?
  let after := (reports.filter fun t => decide (dog < t)).head?
  match before, after with
  | none, none => 0
  | some a, none => shared a (a + w) lo now
  | none, some b => shared b (b + w) lo now
  | some a, some b => shared a (a + w) lo now + shared (max b (a + w)) (b + w) lo now

/-- A group's count less what the time since a moment excludes: its oldest operation has been the same since then (R386). -/
def excludeFor (s : State) (k lo : Nat) (g : Group) : Group :=
  match g.dogStop, oldestPeer s k g.uid with
  | none, some r => { g with dogOff := g.dogOff + excluded ((s.recovering.filter fun x => x.1 == r).map (·.2)) g.dog (max lo g.dog) s.now }
  | _, _ => g
/-- The watchdog counts of the running groups less what the time since a moment excludes (R386). -/
def excludeSince (lo : Nat) (s : State) : State :=
  if s.recovering.isEmpty then s
  else { s with cores := tmap s.cores fun k c => { c with ctx := { c.ctx with groups := tmap c.ctx.groups fun _ g => excludeFor s k lo g } } }

/-- A group's watchdog count in ns (R386). -/
def dogCount (now : Nat) (g : Group) : Nat := g.dogStop.getD now - g.dog - g.dogOff

/-- Where threads of a group wait when the watchdog fires: their sub-group, threads, position, and the address whose fault holds each (R386). -/
structure Stuck where
  sub : Option Nat
  mask : Word
  pos : Nat
  pc : Word
  addrs : Nat → Nat

/-- The EA of a thread's access at a packet that a fault holds, or of its group's access or its fetch there, or 0. -/
def faultAddr (c : Core) (u : Nat) (pc : Word) (i : Nat) : Nat :=
  match lfind (fun (w : Walk) => w.own == u && w.fid.isSome && w.pc == pc && (w.thr == some i || w.thr == none)) c.walks with
  | some w => w.ea
  | none => 0

/-- The threads of a slot that have left a step of a bundle to trap, and have not entered. -/
def trappedMask (b : Bundle) (slot : Nat) : Word := maskOf ((b.trapped.filter fun t => t.1 == slot).map (·.2.1))
/-- The places where the threads of a group wait; one that waits for trap entry waits at the step that trapped. -/
def stuckAt (c : Core) (slot : Nat) (g : Group) (h : Hdr) : List Stuck :=
  let bs := c.ctx.bundles.flatMap fun b => ((b.2.parts.filter fun p => p.slot == slot).map (·.mask) ++ [trappedMask b.2 slot]).map fun m =>
    (⟨b.2.sub, m, b.2.stepPos, b.2.pc, faultAddr c g.uid b.2.pc⟩ : Stuck)
  let ps := (c.pend.filter fun p => p.own == g.uid).map fun p => (⟨p.sub, p.mask, p.pos, p.pc, fun _ => 0⟩ : Stuck)
  let entry := fun (sub : Option Nat) (e : FEntry) =>
    (⟨sub, e.wait, 0, e.start, fun _ => if e.fid.isSome then h.bptab + 2 * e.start.toNat else 0⟩ : Stuck)
  bs ++ ps ++ (g.frontier ++ g.spilled).map (entry none) ++ g.subs.flatMap fun x => x.2.frontier.map (entry (some x.1))

/-- A bundle without the threads of a slot. -/
def Bundle.without (b : Bundle) (slot : Nat) : Bundle :=
  { b with parts := b.parts.filter (fun p => p.slot != slot), trapped := b.trapped.filter fun t => t.1 != slot }
/-- The bundles of a core without the threads of a slot; one that waited at a rejoin mask for them alone goes on (R203). -/
def leaveBundles (c : Core) (slot : Nat) : Core :=
  freeBundles <| tidyRun { c with ctx := { c.ctx with bundles := (tmap c.ctx.bundles fun _ b => b.without slot).filter fun b => !b.2.parts.isEmpty } }
/-- The bundles of a core that only threads of other slots that trap are left of, once those of a slot have left. -/
def orphans (c : Core) (slot : Nat) : List Bundle := (c.ctx.bundles.map fun b => b.2.without slot).filter fun b => b.parts.isEmpty && !b.trapped.isEmpty

/-- Every thread of a group that is not parked in a trap leaves its wait and takes WATCHDOG; the faults that held it count as answered, and leave room for others (R227, R386). -/
def fireWatchdog (s : State) (k slot : Nat) (g : Group) : State :=
  let c := coreAt s k
  let stuck := stuckAt c slot g (hdrOf s g.lseq)
  let s1 := modDie s (dieOf k) fun d => { d with faults := d.faults.filter fun f => !g.faults.contains f.fid }
  let s2 := modCore s1 k fun c =>
    let c1 := leaveBundles c slot
    modGroup { c1 with walks := c1.walks.filter (fun w => w.own != g.uid), pend := c1.pend.filter fun p => p.own != g.uid } slot fun x =>
      { x with frontier := [], spilled := [], subs := tmap x.subs (fun _ y => { y with frontier := [] }), faults := [], argsLeft := [], bitten := true }
  let s3 := stuck.foldl (fun a x =>
    trapThreads a k slot x.sub ((members x.mask).map fun i => (i, (⟨cWATCHDOG, 0, BitVec.ofNat 64 (x.addrs i), x.pos⟩ : Trap))) x.pos x.pc) s2
  let s4 := (orphans c slot).foldl (fun a b => trapApart a k b b.trapped) (settleAt k slot s3)
  if g.faults.isEmpty then s4 else retryWaiting s4

/-- R386: a group's count has reached LIMIT. -/
def execWatchdog (core slot : Nat) (s : State) : Host.Outcome State Fault Refusal :=
  .next (match groupAt (coreAt s core) slot with
    | none => s
    | some g =>
      if isControl core || s.wdt = 0 || g.bitten || g.swap == .out || dogCount s.now g < s.wdt.toNat * 1000000 then s
      else fireWatchdog s core slot g)

/-- A thread's first window gone, as compared (R389). -/
def dropWindow (t : Thread) : Thread := { t with windows := t.windows.drop 1, compared := t.compared + 1 }

/-- The held writes of a thread's window. -/
def windowWrites (c : Core) (u i n : Nat) : List Write := c.writes.filter fun w => w.held && w.own == u && w.thr == some i && w.window == n

/-- Whether a write is one of a thread's, or of an ast of it, that a window holds. -/
def Write.inWindow (w : Write) (u i n : Nat) : Bool := w.held && w.own == u && (w.thr == some i || w.thr == some (32 + i)) && w.window == n
/-- The writes of a compared window let go: they are performed in program order, each after the earlier accesses of its thread to its bytes (R261, R389). -/
def releaseWindow (u i n : Nat) (c : Core) : Core :=
  { c with writes := c.writes.map fun w => if w.inWindow u i n then { w with held := false, rel := w.rel || !w.engine } else w }

/-- The mirror's writes of a compared window discarded (R389). -/
def discardWindow (s : State) (k u i n : Nat) : State :=
  let ws := windowWrites (coreAt s k) u i n
  modCore s k fun c => ws.foldl (fun a w => finishFor { a with writes := a.writes.filter fun x => x.num != w.num } u w.op) c

/-- R389, R390: the first closed windows of a thread in both members are compared; equal ones let the primary's held stores go on, and unequal ones start rollback. -/
def execMirrorCompare (core slot thread : Nat) (s : State) : Host.Outcome State Fault Refusal :=
  .next (match groupAt (coreAt s core) slot with
    | none => s
    | some g =>
      let isPrimary : Bool := match teamAt s g.team with
        | some t => t.role == .primary
        | none => false
      match partner s g with
      | none => s
      | some (m, h) =>
        let t := threadAt g thread
        let r := threadAt h thread
        match isPrimary, t.windows, r.windows with
        | true, (a, _) :: _, (b, _) :: _ =>
          if a != b then rollback s g.lseq
          else
            let s1 := modCore s core fun c => modOwner c g.uid fun x => modThread x thread dropWindow
            let s2 := modCore s1 m fun c => modOwner c h.uid fun x => modThread x thread dropWindow
            endOwner (endOwner (discardWindow (modCore s2 core (releaseWindow g.uid thread t.compared)) m h.uid thread r.compared) core g.uid) m h.uid
        | _, _, _ => s)

/-- R390: a window of one member has waited 10 ms for the other's. -/
def execMirrorWindowTimeout (core slot thread : Nat) (s : State) : Host.Outcome State Fault Refusal :=
  .next (match groupAt (coreAt s core) slot with
    | none => s
    | some g => match partner s g with
      | none => s
      | some (_, h) =>
        match (threadAt g thread).windows, (threadAt h thread).windows with
        | (_, at') :: _, [] => if at' + 10000000 < s.now then rollback s g.lseq else s
        | _, _ => s)

/-- R391: an uncorrectable error in a launch that runs. -/
def execUncorrectableError (lseq : Nat) (s : State) : Host.Outcome State Fault Refusal :=
  .next (if s.retake.contains lseq then s else rollback s lseq)

end Sys2Proof.Machine
end

