-- ==== Sys2Proof/Machine/FabricEvents.lean ====
section
/-! DEFINITION. The fabric: bridges, peer links and peers' accesses, routers, packets and token buckets (R219, R397 to R408). -/

namespace Sys2Proof.Machine

/-- The code of a link's state in a LINK event, which the manual does not give (log entry 18). -/
def linkCode : LinkState → Nat
  | .w4 => 0
  | .w2 => 1
  | .w1 => 2
  | .rcv => 3
  | .down => 4

/-- A LINK event: the link's number, or 16 and more for a bridge (R418, log entry 18). -/
def sendLink (s : State) (link old new : Nat) : State :=
  sendEvent s 9 (if link < 16 then link / 4 else 0xFF) (link + old * 2 ^ 8 + new * 2 ^ 16 + s.now % 2 ^ 64 * 2 ^ 24)

/-- A link in a new state, with its event (R406, R407). -/
def setLink (s : State) (link : Nat) (x : LinkState) : State :=
  let old := linkAt s link
  sendLink { s with links := tput s.links link x, linkSince := tput s.linkSince link s.now } link (linkCode old) (linkCode x)

/-- R404: a bridge has not delivered a flit after 16 retries: every launch ends, and the device takes no launch until it is restarted. -/
def execBridgeStop (bridge : Nat) (s : State) : Host.Outcome State Fault Refusal :=
  .next (if 4 ≤ bridge || s.bridges.contains bridge then s
    else sendLink ((liveLaunches s).foldl endLaunch { s with bridges := s.bridges ++ [bridge], stopped := true }) (16 + bridge) 0 4)

/-- Whether a write or flush marker of a core, of one of some groups, is among the flits that a link holds (R275, R407). -/
def holdsFlits (s : State) (link : Nat) (us : Nat → Bool) (c : Core) : Bool :=
  (c.writes.any fun w => us w.own && !w.held && w.pieces.any fun p => p.peer && lineLink s p.loc == some link) ||
  (c.releases.any fun r => us r.own && r.markers.any fun m => decide (4 ≤ m.1) && m.2 / 2 ^ link % 2 == 1)
/-- Whether a link has drained every flit in flight, as a change of its width waits for (R406). -/
def linkDrained (s : State) (link : Nat) : Bool := s.cores.all fun k => !holdsFlits s link (fun _ => true) k.2

/-- R406: a link sheds lanes, once it has drained. -/
def execLinkNarrow (link : Nat) (s : State) : Host.Outcome State Fault Refusal :=
  .next (if 16 ≤ link || !linkDrained s link then s else match linkAt s link with
    | .w4 => setLink s link .w2
    | .w2 => setLink s link .w1
    | _ => s)
/-- R406: a link widens, once it has drained. -/
def execLinkWiden (link : Nat) (s : State) : Host.Outcome State Fault Refusal :=
  .next (if 16 ≤ link || !linkDrained s link then s else match linkAt s link with
    | .w1 => setLink s link .w2
    | .w2 => setLink s link .w4
    | _ => s)
/-- R407: a link's retries have failed for 100 µs, or it has no lane left, and it enters RCV. -/
def execLinkRecovery (link : Nat) (s : State) : Host.Outcome State Fault Refusal :=
  .next (if link < 16 && linkWorks s link then setLink s link .rcv else s)
/-- R407: a link returns from RCV. -/
def execLinkRecovered (link lanes : Nat) (s : State) : Host.Outcome State Fault Refusal :=
  .next (if 16 ≤ link || linkAt s link != .rcv then s
    else match lanes with
      | 4 => setLink s link .w4
      | 2 => setLink s link .w2
      | 1 => setLink s link .w1
      | _ => s)

/-- Whether a launch has flits of a copy among those that a link holds: of a copy that has bytes to move over it, and whose flits are in the link now, which the manual does not fix (R407; log entry 35). -/
def copyLost (s : State) (link l : Nat) : Bool :=
  s.cores.any fun k => k.2.copies.any fun x => copyLaunch s k.1 x == l && copyOver s k.1 link x && Config.inFlight (s.draws + x.num)
/-- The launches that lose flits with a link. -/
def losers (s : State) (link : Nat) : List Nat :=
  (liveLaunches s).filter fun l => copyLost s link l || s.cores.any fun k =>
    holdsFlits s link (fun u => (k.2.ctx.groups ++ k.2.saved.groups ++ k.2.shadow.groups).any fun g => g.2.lseq == l && g.2.uid == u) k.2
/-- The collectives under way that lose flits with a link of their job: whether one has flits in it the manual does not fix (R407, R411; log entry 35). -/
def meetDown (s : State) (link : Nat) : State :=
  match s.job with
  | none => s
  | some j => if j.table.any fun e => e / 2 ^ link % 2 == 1 then { s with colls := imap (fun i (c : Coll) => { c with met := c.met || Config.inFlight (s.draws + i) }) 0 s.colls } else s

/-- R407: RCV has lasted 50 ms: the link is DOWN, and each launch with flits among those it held has an uncorrectable error. -/
def execLinkDown (link : Nat) (s : State) : Host.Outcome State Fault Refusal :=
  .next (if 16 ≤ link || linkAt s link != .rcv || s.now < tget 0 s.linkSince link + 50000000 then s
    else (losers s link).foldl rollback { meetDown (setLink s link .down) link with draws := s.draws + 1 })

/-- R386: a peer reports "recovering". -/
def execPeerRecoveringReport (rank : Nat) (s : State) : Host.Outcome State Fault Refusal :=
  .next { s with recovering := s.recovering ++ [(rank, s.now)] }

/-- R219: an access of a peer device is performed at its home, under the key slot that it names. -/
def execPeerRequest (a : PeerAcc) (s : State) : Host.Outcome State Fault Refusal :=
  .next (
    if s.job.isNone || 2 ^ 39 < a.pa + a.width then s
    else match tfind s.keys a.key with
      | none => s
      | some key =>
        let p : Piece := { loc := a.pa, n := a.width, die := slice a.pa 38 37, key := some key, kind := 0, mx := 0, sx := false, cw := false, peer := false }
        match a.kind with
        | 0 => bringLines s false [p]
        | 1 => bringLines (pieceWrite s p a.data) true [p]
        | _ => match atomOp a.op (8 * a.width) (pieceRead s p) a.data with
          | some v => bringLines (pieceWrite s p v) true [p]
          | none => bringLines s false [p])

/-- A router, and one changed. -/
def routerAt (s : State) (die n : Nat) : Router := tget ⟨false, none, 0⟩ (dieAt s die).routers n
def modRouter (s : State) (die n : Nat) (f : Router → Router) : State :=
  modDie s die fun d => { d with routers := tput d.routers n (f (tget ⟨false, none, 0⟩ d.routers n)) }
/-- CYC at a router: its row's tile cluster's (R397). -/
def routerCyc (s : State) (die n : Nat) : Nat := (tcAt s (10 * die + n / 16)).cyc

/-- R401: a router whose core holds no group and that has forwarded nothing for 256 cycles gates; those of edge stops never do. -/
def execRouterGate (die router : Nat) (s : State) : Host.Outcome State Fault Refusal :=
  .next (
    let r := routerAt s die router
    if 4 ≤ die || 160 ≤ router || router % 16 = 0 || router % 16 = 15 || r.gated || !(coreAt s (160 * die + router)).ctx.groups.isEmpty ||
       routerCyc s die router < r.idle + 256 then s
    else modRouter s die router fun x => { x with gated := true, waking := none })

/-- A wake signal at a router: it is awake 24 cycles later (R401). -/
def signal (s : State) (die router : Nat) : State :=
  let r := routerAt s die router
  if r.gated && r.waking.isNone then modRouter s die router fun x => { x with waking := some (routerCyc s die router + 24) } else s
/-- R401: a gated router receives a wake signal. -/
def execRouterWakeSignal (die router : Nat) (s : State) : Host.Outcome State Fault Refusal :=
  .next (if 4 ≤ die || 160 ≤ router then s else signal s die router)
/-- R401: a router becomes awake. -/
def execRouterAwake (die router : Nat) (s : State) : Host.Outcome State Fault Refusal :=
  .next (match (routerAt s die router).waking with
    | some d => if d ≤ routerCyc s die router then modRouter s die router fun x => { x with gated := false, waking := none, idle := routerCyc s die router } else s
    | none => s)

/-- Steps still to go in the increasing direction along the row and along the column (R399). -/
def rowSteps (here dest : Nat) : Nat := (dest % 16 + 16 - here % 16) % 16
def colSteps (here dest : Nat) : Nat := (dest / 16 + 10 - here / 16) % 10
/-- The neighbour of a router in a direction: 0 and 1 along the row, 2 and 3 along the column. -/
def neighbour (n dir : Nat) : Nat :=
  match dir with
  | 0 => n / 16 * 16 + (n % 16 + 1) % 16
  | 1 => n / 16 * 16 + (n % 16 + 15) % 16
  | 2 => (n / 16 + 1) % 10 * 16 + n % 16
  | _ => (n / 16 + 9) % 10 * 16 + n % 16
/-- The minimal directions (R399). -/
def minimalDirs (here dest : Nat) : List Nat :=
  let x := rowSteps here dest
  let y := colSteps here dest
  (if x = 0 then [] else if x < 8 then [0] else if x = 8 then [0, 1] else [1]) ++ (if y = 0 then [] else if y < 5 then [2] else if y = 5 then [2, 3] else [3])
/-- The direction in dimension order, ties towards the increasing index (R399). -/
def orderDir (here dest : Nat) : Nat :=
  let x := rowSteps here dest
  let y := colSteps here dest
  if x != 0 then (if x ≤ 8 then 0 else 1) else if y ≤ 5 then 2 else 3

/-- Flits that stand at a router in the buffer of one ring and class: of its escape channel, or of one of its adaptive channels (R398). -/
def bufferUse (s : State) (die router ring : Nat) (response escape : Bool) (chan : Nat) : Nat :=
  ((s.packets.filter fun p => p.die == die && p.here == router && p.ring == ring && p.response == response && p.escape == escape && (escape || p.chan == chan)).map (·.flits)).sum

/-- The channels of the next router whose buffers have room for a packet: of its three adaptive channels of 6 flits, or the escape channel of 12, which must keep 5 more free for a packet that enters the ring (R398, R400). -/
def channels (s : State) (p : Packet) (dir : Nat) : List Nat :=
  let ring := dir / 2
  let used := bufferUse s p.die (neighbour p.here dir) ring p.response p.escape
  if p.escape then (if used 0 + p.flits + (if p.ring = ring then 0 else 5) ≤ 12 then [0] else [])
  else (List.range 3).filter fun v => decide (used v + p.flits ≤ 6)

/-- Whether a router is awake. -/
def awake (s : State) (die n : Nat) : Bool := !(routerAt s die n).gated

/-- The directions that a packet may take now (R399, R401). -/
def routes (s : State) (p : Packet) : List Nat :=
  if p.escape || p.fixed then [orderDir p.here p.dest]
  else
    let up := (minimalDirs p.here p.dest).filter fun d => awake s p.die (neighbour p.here d)
    if up.isEmpty then [orderDir p.here p.dest] else up

/-- A packet changed. -/
def modPacket (s : State) (pid : Nat) (f : Packet → Packet) : State := { s with packets := s.packets.map fun p => if p.num = pid then f p else p }

/-- A packet forwarded one hop into one of the channels that have room, the next router of its route signalled (R401). -/
def forward (s : State) (p : Packet) (dir choice : Nat) : State :=
  let vs := channels s p dir
  let n := neighbour p.here dir
  let fix := !p.escape && !awake s p.die n
  if !awake s p.die n || vs.isEmpty then (if fix then modPacket (signal s p.die n) p.num fun x => { x with fixed := true } else s)
  else
    let s1 := modRouter (modPacket s p.num fun x => { x with here := n, chan := lget 0 vs (choice % vs.length), ring := dir / 2, since := routerCyc s p.die n }) p.die p.here
      fun r => { r with idle := routerCyc s p.die p.here }
    if n = p.dest then s1 else signal s1 p.die (neighbour n (orderDir n p.dest))

/-- A core's request for tokens of its tile cluster: those that wait are served in turn, and one that is not served waits (R402; log entry 40). -/
def takeTokens (core flits : Nat) (t : Tc) : Option Tc × Tc :=
  if t.turns.headD core = core && flits ≤ t.tokens then (some { t with tokens := t.tokens - flits, turns := t.turns.drop 1 }, t)
  else (none, { t with turns := if t.turns.contains core then t.turns else t.turns ++ [core] })
/-- Responses on their way to a router. -/
def responsesTo (s : State) (die router : Nat) : Nat := (s.packets.filter fun p => p.die == die && p.dest == router && p.response).length
/-- The response buffers reserved at a router changed (R398). -/
def modReserved (s : State) (die n : Nat) (f : Nat → Nat) : State := modDie s die fun d => { d with reserved := tput d.reserved n (f (tget 0 d.reserved n)) }
/-- A packet that enters the network: its die, source, destination, class, order, data flits and whether an edge stop sends it are the outside's choice. A request of a core takes a token for each flit, in its turn (R402). A request reserves its response's buffer, and a response enters only where it has one (R398). -/
def inject (s0 : State) (pid choice : Nat) : State :=
  let die := choice % 4
  let src := choice / 4 % 160
  let dest := choice / 640 % 160
  let response := choice / 102400 % 2 == 1
  let ordered := choice / 204800 % 2 == 1
  let flits := 1 + choice / 409600 % 5
  let edge := choice / 2048000 % 2 == 1 && (src % 16 == 0 || src % 16 == 15)
  let t := 10 * die + src / 16
  let s := refill s0 t
  let paid := takeTokens src flits (tcAt s t)
  if response && tget 0 (dieAt s die).reserved dest ≤ responsesTo s die dest then s0
  else if !response && !edge && paid.1.isNone then modTc s t fun _ => paid.2
  else
    let s1 := if response then s else modReserved (if edge then s else modTc s t fun x => paid.1.getD x) die src (· + 1)
    let p : Packet := { num := pid, die := die, src := src, here := src, dest := dest, response := response, ordered := ordered, escape := ordered, chan := 0, ring := 2,
                        fixed := false, since := routerCyc s die src, flits := flits }
    let s2 := { s1 with packets := s1.packets ++ [p] }
    let a := neighbour src (orderDir src dest)
    if src = dest then s2 else signal (signal s2 die a) die (if a = dest then a else neighbour a (orderDir a dest))

/-- Whether an ordered packet stands at a router behind an earlier one with its source and destination, which it does not pass (R399). -/
def follows (s : State) (p : Packet) : Bool :=
  p.ordered && (s.packets.takeWhile fun q => q.num != p.num).any fun q => q.ordered && q.die == p.die && q.src == p.src && q.dest == p.dest && q.here == p.here

/-- R397 to R401: a packet is injected, forwarded, or delivered at its destination. -/
def execPacketRoute (pid choice : Nat) (s : State) : Host.Outcome State Fault Refusal :=
  .next (match lfind (fun (p : Packet) => p.num == pid) s.packets with
    | none => inject s pid choice
    | some p =>
      if follows s p then s
      else if p.here = p.dest then
        { (if p.response then modReserved s p.die p.dest (· - 1) else s) with packets := s.packets.filter fun x => x.num != pid }
      else let rs := routes s p; forward s p (lget 0 rs (choice % rs.length)) (choice / rs.length))

/-- R399: an adaptive packet that has not advanced for 32 cycles moves to the escape channel and stays there. -/
def execEscapeDiversion (pid : Nat) (s : State) : Host.Outcome State Fault Refusal :=
  .next (match lfind (fun (p : Packet) => p.num == pid) s.packets with
    | none => s
    | some p =>
      if p.escape || routerCyc s p.die p.here < p.since + 32 || 12 < bufferUse s p.die p.here p.ring p.response true 0 + p.flits + 5 then s
      else modPacket s pid fun x => { x with escape := true })

/-- R402: a token bucket's refill, once for each cycle of its tile cluster's clock. -/
def execTokenBucketRefill (tc : Nat) (s : State) : Host.Outcome State Fault Refusal := .next (refill s tc)

end Sys2Proof.Machine
end

