-- ==== Sys2Proof/Machine/HostEvents.lean ====
section
/-! DEFINITION. Commands: their sequence, their answers, and what each does (R408, R409, R414 to R419, R425). -/

namespace Sys2Proof.Machine

/-- The answer of a command (R415). -/
inductive Answer where
  | ack
  | regval (v : Word)
  | memdata (v : Nat)
  | err (code : Nat)
  | silent
deriving DecidableEq, Repr

/-- A command's answer sent on its channel (R415, R418). -/
def answer (s : State) (q : Cmd) : Answer → State
  | .ack => sendOn s q.ch 1 (q.die % 256) (q.seq % 2 ^ 64)
  | .regval v => sendOn s q.ch 2 (q.die % 256) (q.seq % 2 ^ 64 + v.toNat * 2 ^ 64)
  | .memdata v => sendOn s q.ch 3 (q.die % 256) (q.seq % 2 ^ 64 + v % 2 ^ 320 * 2 ^ 64)
  | .err code => sendOn s q.ch 0xB (q.die % 256) (q.seq % 2 ^ 64 + code * 2 ^ 64)
  | .silent => s

/-- The ops of R416. -/
def knownOp (op : Nat) : Bool := decide (1 ≤ op) && decide (op ≤ 15)

/-- Fetched commands that are not executed: one out of sequence gives code 3, and one of an unknown op code 1, once there is room for its answer (R415, R416). -/
def settleCmds : Nat → Nat → State → State
  | 0, _, s => s
  | n + 1, ch, s =>
    let c := channelAt s ch
    match c.cmds with
    | [] => s
    | e :: r =>
      let q : Cmd := ⟨ch, e.seq, e.die, e.flags, e.length, e.payload⟩
      if !canSend s ch then s
      else if e.seq != c.cdone + 1 then settleCmds n ch (answer (setChannel s ch { c with cmds := r }) q (.err 3))
      else if !knownOp e.op then settleCmds n ch (answer (setChannel s ch { c with cmds := r, cdone := e.seq }) q (.err 1))
      else s

/-- Fetched commands added to a channel's. -/
def addCmds (s : State) (ch : Nat) (es : List CmdEntry) : State :=
  let c := channelAt s ch
  settleCmds (c.cmds.length + es.length) ch (setChannel s ch { c with cmds := c.cmds ++ es })

/-- Whether the die field names a present die, or the device (R416). -/
def dieOk (s : State) (d : Nat) : Bool := d == 0xFF || (decide (d < 4) && (!s.boot.minimal || d == 0))

/-- A COMMAND EXECUTED: the next in sequence of its channel, once there is room for its answer, and answered by exactly one event; one answered by CMDERR has no effect (R415, R416). DESIGN CHOICE: events that its effect brings about before its answer are written first, and events for which there is then no room wait in line (log entry 77). -/
def runCmd (op : Nat) (q : Cmd) (f : State → State × Answer) (s : State) : State :=
  let c := channelAt s q.ch
  match c.cmds with
  | [] => s
  | e :: r =>
    if e != ⟨op, q.seq, q.die, q.flags, q.length, q.payload⟩ || e.seq != c.cdone + 1 || !s.boot.up || !(canSend s q.ch || op == 15) then s
    else
      let s1 := setChannel s q.ch { c with cmds := r, cdone := q.seq }
      let x := if !dieOk s q.die then (s1, .err 2) else if q.flags != 0 then (s1, .err 10) else f s1
      let s2 := answer (match x.2 with
        | .err _ => s1
        | _ => x.1) q x.2
      settleCmds r.length q.ch s2

/-- A field of a payload: n bytes from an offset. -/
def fieldOf (q : Cmd) (off n : Nat) : Nat := bytesOf q.payload off n

/-- R416: NOP. -/
def execCmdNop (q : Cmd) (s : State) : Host.Outcome State Fault Refusal := .next (runCmd 1 q (fun s => (s, .ack)) s)

/-- Whether a register number and a die field name a register (R416). -/
def cmdRegister (q : Cmd) : Bool := deviceRegister (fieldOf q 0 2) || (dieRegister (fieldOf q 0 2) && q.die != 0xFF)

/-- R416: REGWR, as a control core writes. -/
def execRegwr (q : Cmd) (s : State) : Host.Outcome State Fault Refusal :=
  .next (runCmd 2 q (fun s => if cmdRegister q then (writeRegister s q.die (fieldOf q 0 2) (fieldOf q 2 4), .ack) else (s, .err 4)) s)
/-- R416: REGRD. -/
def execRegrd (q : Cmd) (s : State) : Host.Outcome State Fault Refusal :=
  .next (runCmd 3 q (fun s => (s, if cmdRegister q then .regval (readRegister s q.die (fieldOf q 0 2)) else .err 4)) s)

/-- The key under which an attachment reaches memory (R419). -/
def attachKey (s : State) (ch : Nat) : Option Nat := tfind s.keys ((tget (0 : Word) s.chkey ch).toNat % 2048)
/-- Bytes of HBM as a piece of an attachment's access, at `.sy` (R419). -/
def hostPiece (pa n key : Nat) : Piece := { loc := pa, n := n, die := slice pa 38 37, key := some key, kind := 0, mx := 0, sx := false, cw := false, peer := false }

/-- R416, R419: MEMWR, performed before its ACK. -/
def execMemwr (q : Cmd) (s : State) : Host.Outcome State Fault Refusal :=
  .next (runCmd 4 q (fun s =>
    let pa := fieldOf q 0 8
    let n := q.length - 8
    if n = 0 || 32 < n || 2 ^ 39 < pa + n then (s, .err 10)
    else match attachKey s q.ch with
      | none => (s, .err 9)
      | some k => (bringLines (pieceWrite s (hostPiece pa n k) (fieldOf q 8 n)) true [hostPiece pa n k], .ack)) s)
/-- R416, R419: MEMRD. -/
def execMemrd (q : Cmd) (s : State) : Host.Outcome State Fault Refusal :=
  .next (runCmd 5 q (fun s =>
    let pa := fieldOf q 0 8
    let n := fieldOf q 8 1
    if n = 0 || 40 < n || 2 ^ 39 < pa + n then (s, .err 10)
    else match attachKey s q.ch with
      | none => (s, .err 9)
      | some k => (bringLines s false [hostPiece pa n k], .memdata (pieceRead s (hostPiece pa n k)))) s)

/-- R339, R340, R416: QCFG, on an empty ring; TAIL, HEAD and the rest of its control block become 0, at their homes (R216). -/
def execQcfg (q : Cmd) (s : State) : Host.Outcome State Fault Refusal :=
  .next (runCmd 6 q (fun s =>
    let kind := fieldOf q 0 1
    let n := fieldOf q 1 1
    let flags := fieldOf q 2 2
    let cap := fieldOf q 12 4
    let num := if kind = 0 then n else 16 + n
    let used : Bool := match queueAt s num with
      | some x => queueCount s num x != 0 || x.fid.isSome
      | none => false
    if 1 < kind || (if kind = 0 then 16 else 64) ≤ n || 1 < flags || cap < 16 || 65536 < cap || used then (s, .err 10)
    else
      let x : Queue := { host := flags == 1, base := fieldOf q 4 8, cap := cap, root := fieldOf q 16 8, head := 0, tail := 0, fid := none }
      (ringWrite { s with queues := tput s.queues num x } x x.loc 64 0, .ack)) s)

/-- R417: KEYLD unwraps a blob into a slot; one that fails to unwrap gives code 5. -/
def execKeyld (q : Cmd) (s : State) : Host.Outcome State Fault Refusal :=
  .next (runCmd 7 q (fun s =>
    if 2048 ≤ fieldOf q 0 2 then (s, .err 10)
    else match unwrapKey (s.boot.ownerKey.getD Config.ownerKey) (keyRead s (tfind s.keys 0) (fieldOf q 2 8) 72) with
      | none => (s, .err 5)
      | some k => ({ bringLines s false [hostPiece (fieldOf q 2 8) 72 0] with keys := tput s.keys (fieldOf q 0 2) k }, .ack)) s)
/-- R416: KEYCLR empties a slot. -/
def execKeyclr (q : Cmd) (s : State) : Host.Outcome State Fault Refusal :=
  .next (runCmd 8 q (fun s => if 2048 ≤ fieldOf q 0 2 then (s, .err 10) else ({ s with keys := tdel s.keys (fieldOf q 0 2) }, .ack)) s)

/-- Whether a TINV covers a translation: all, those of a root, or those of a root that overlap a range (R417). -/
def invalidated (kind root va len : Nat) (t : TlbEntry) : Bool :=
  match kind with
  | 0 => true
  | 1 => t.root == root
  | _ => t.root == root && decide (t.va < va + len) && decide (va < t.va + t.size)
/-- R417: TINV, answered once every core has dropped what it covers. -/
def execTinv (q : Cmd) (s : State) : Host.Outcome State Fault Refusal :=
  .next (runCmd 9 q (fun s =>
    let kind := fieldOf q 0 1
    if 2 < kind then (s, .err 10)
    else ({ s with cores := tmap s.cores fun _ c => { c with tlb := c.tlb.filter fun t => !invalidated kind (fieldOf q 1 8) (fieldOf q 9 8) (fieldOf q 17 8) t } }, .ack)) s)

/-- R425: FEAT fixes the offer to its AND with the accepted mask; a second one gives code 6. -/
def execFeat (q : Cmd) (s : State) : Host.Outcome State Fault Refusal :=
  .next (runCmd 10 q (fun s =>
    if s.boot.offerFixed then (s, .err 6)
    else
      let m := s.boot.offer &&& fieldOf q 0 8
      ({ s with boot := { s.boot with offer := m, offerFixed := true } }, .regval (BitVec.ofNat 32 m))) s)

/-- Whether a peer table keeps the rules of R408. -/
def peerTableOk (rank n : Nat) (t : List Nat) : Bool :=
  (imap (fun i (e : Nat) => if i = rank || n ≤ i then e == 0 else decide (e < 2 ^ 16)) 0 t).all id
/-- R408: PEERCFG joins the device to a job. -/
def execPeercfg (q : Cmd) (s : State) : Host.Outcome State Fault Refusal :=
  .next (runCmd 11 q (fun s =>
    let rank := fieldOf q 4 2
    let n := fieldOf q 6 2
    let pa := fieldOf q 8 8
    if n = 0 || 64 < n || n ≤ rank || pa % 8 != 0 || 2 ^ 39 < pa + 512 then (s, .err 10)
    else
      let t := (List.range 64).map fun i => keyRead s (tfind s.keys 0) (pa + 8 * i) 8
      if peerTableOk rank n t then ({ bringLines s false [hostPiece pa 512 0] with job := some ⟨fieldOf q 0 4, rank, n, t⟩ }, .ack) else (s, .err 7)) s)

/-- Fields of a COLL payload (R409). -/
def Coll.field (c : Coll) (off n : Nat) : Nat := bytesOf c.payload off n
/-- R409: COLL is accepted, and answered by ACK. -/
def execColl (q : Cmd) (s : State) : Host.Outcome State Fault Refusal :=
  .next (runCmd 12 q (fun s =>
    let jobOk : Bool := match s.job with
      | some j => j.id == fieldOf q 0x28 4
      | none => false
    if 2 < fieldOf q 0 1 || 2 < fieldOf q 1 1 || 2 < fieldOf q 2 1 || fieldOf q 3 1 != 0 || fieldOf q 4 4 = 0 || 2 ^ 28 < fieldOf q 4 4 || fieldOf q 0x2C 4 != 0 || !jobOk then
      (s, .err 10)
    else ({ s with colls := s.colls ++ [⟨q.ch, q.payload, false⟩] }, .ack)) s)

/-- Combine of R410, on f32 values or i32 values, with the rounding of f32. -/
def combine (type red a b : Nat) : Nat :=
  if type = 2 then
    let x := (BitVec.ofNat 32 a).toInt
    let y := (BitVec.ofNat 32 b).toInt
    match red with
    | 0 => (a + b) % 2 ^ 32
    | 1 => if x < y then b else a
    | _ => if y < x then b else a
  else match red with
    | 0 => (encRn f32 (addF (decodeF f32 a) (decodeF f32 b))).1
    | 1 => (minMaxF f32 true a b).1
    | _ => (minMaxF f32 false a b).1
/-- Neighbours of a list combined in pairs; a last one without a partner stays. -/
def pairUp (f : Nat → Nat → Nat) : List Nat → List Nat
  | a :: b :: r => f a b :: pairUp f r
  | xs => xs
/-- Tree of R410: the list is halved until one value is left; 64 ranks take six rounds. -/
def treeOf (f : Nat → Nat → Nat) : Nat → List Nat → Nat
  | 0, xs => xs.headD 0
  | n + 1, xs => treeOf f n (pairUp f xs)
/-- An element of an allreduce (R410). -/
def reduceElem (type red : Nat) (xs : List Nat) : Nat :=
  if type = 1 then (encRn bf16 (decodeF f32 (treeOf (combine 0 red) 7 (xs.map fun x => (encRn f32 (decodeF bf16 x)).1)))).1
  else treeOf (combine type red) 7 xs

/-- The bytes of a collective's element (R409). -/
def collWidth (type : Nat) : Nat := if type = 1 then 2 else 4
/-- The elements of a number of bytes. -/
def splitElems (w n v : Nat) : List Nat := (List.range n).map fun i => bytesOf v (w * i) w
/-- Elements put together. -/
def joinElems (w : Nat) (xs : List Nat) : Nat := (imap (fun i (x : Nat) => x % 256 ^ w * 256 ^ (w * i)) 0 xs).sum

/-- What a collective writes on this rank, from every rank's input (R409, R410). -/
def collOutput (c : Coll) (inputs : List (List Nat)) : List Nat :=
  match c.field 0 1 with
  | 0 => (List.range (c.field 4 4)).map fun e => reduceElem (c.field 1 1) (c.field 2 1) (inputs.map fun x => lget 0 x e)
  | 1 => inputs.headD []
  | _ => inputs.flatten

/-- Whether a collective meets a DOWN link: it has lost flits with one, or every link that reaches some rank is DOWN, since its traffic takes the listed links that are not (R408, R411). -/
def meetsDown (s : State) (c : Coll) : Bool := c.met || (match s.job with
  | none => true
  | some j => (List.range j.ranks).any fun r => r != j.rank && lget 0 j.table r != 0 && (peerLinks s r).isEmpty)

/-- A collective ended with a status (R411, R418). -/
def collDone (s : State) (c : Coll) (status : Nat) : State :=
  sendOn { s with colls := s.colls.filter fun x => x != c } c.ch 0xC 0xFF (c.field 0x20 8 + status * 2 ^ 64)

/-- Pieces written, their lines brought in (R216). -/
def putPieces (s : State) (ps : List Piece) (v : Nat) : State := bringLines (piecesWrite s ps v) true ps
/-- R409 to R411: a collective completes: with every rank's input it writes its output; where the ranks disagree it writes nothing; after one that meets a DOWN link its output is any value. It waits for a free walk of die 0 and for room for its event (R225, R415). -/
def execCollectiveComplete (tag : Nat) (inputs : List (List Nat)) (agree : Bool) (s : State) : Host.Outcome State Fault Refusal :=
  .next (match lfind (fun (c : Coll) => c.field 0x20 8 == tag) s.colls, s.job with
    | some c, some j =>
      let w := collWidth (c.field 1 1)
      let n := c.field 4 4
      let outN := if c.field 0 1 = 2 then n * j.ranks else n
      if !walkerFree s 0 || !canSend s c.ch then s
      else if !agree then collDone s c 1
      else match engineG (c.field 8 8) 1 (8 + w * outN / 16384) s (c.field 0x18 8) (w * outN) with
        | (s1, .found dst) =>
          if meetsDown s c then
            { collDone (putPieces s1 dst (joinElems w ((List.range outN).map fun i => (Config.undefinedWord (s.draws + i)).toNat))) c 2 with draws := s.draws + outN }
          else (match engineG (c.field 8 8) 0 (8 + w * n / 16384) s1 (c.field 0x10 8) (w * n) with
            | (s2, .found src) =>
              let own := splitElems w n (piecesRead s2 src)
              let all := (List.range j.ranks).map fun r => if r = j.rank then own else lget [] inputs r
              collDone (putPieces (bringLines s2 false src) dst (joinElems w (collOutput c all))) c 0
            | _ => collDone s1 c 1)
        | _ => collDone s c 1
    | _, _ => s)

/-- The entries of a group with a start whose priority has not been read, each with its sub-group (R428). -/
def unreadEntries (g : Group) (w : Word) : List (Option Nat × FEntry) :=
  let hit := fun (es : List FEntry) => es.filter fun e => e.start == w && !e.ready
  (hit (g.frontier ++ g.spilled)).map (fun e => (none, e)) ++ g.subs.flatMap fun x => (hit x.2.frontier).map fun e => (some x.1, e)
/-- A group without them. -/
def withoutUnread (g : Group) (w : Word) : Group :=
  let gone := fun (es : List FEntry) => es.filter fun e => !(e.start == w && !e.ready)
  { g with frontier := gone g.frontier, spilled := gone g.spilled, subs := tmap g.subs fun _ x => { x with frontier := gone x.frontier } }
/-- Threads of entries that take PROT with an address, before any word of their start packets (R428): they wait for TRAP_ENTRY. -/
def protEntries (c : Core) (own addr : Nat) (es : List (Option Nat × FEntry)) : Core :=
  es.foldl (fun a x => pendTraps a own (slotOf a own) x.1 ((members x.2.wait).map fun i => (i, ⟨cPROT, 0, BitVec.ofNat 64 addr, 0⟩)) 0 x.2.start) c
/-- The threads of an entry whose priority cannot be read take PROT, and the entry is gone (R428). -/
def failEntry (s : State) (k own start : Nat) : State :=
  match owner (coreAt s k) own with
  | none => s
  | some g =>
    let w : Word := BitVec.ofNat 32 start
    let s1 := modCore s k fun c => protEntries (modOwner c own fun x => withoutUnread x w) own ((hdrOf s g.lseq).bptab + 2 * start) (unreadEntries g w)
    refillAt 16 s1 k own
/-- The threads of a group's spilled entries take PROT where the spill stack's fault is answered as fatal (log entry 49). -/
def failSpill (s : State) (k own addr : Nat) : State :=
  match owner (coreAt s k) own with
  | none => s
  | some g => modCore s k fun c => protEntries (modOwner c own fun x => { x with spilled := [] }) own addr (g.spilled.map fun e => (none, e))

/-- A launch whose header cannot be read ends with STATUS 1 and CREC 0 (R340). -/
def failHeader (s : State) (l : Launch) : State :=
  sendCompl { closeLaunch s l.lseq 1 with retake := s.retake.filter (· != l.lseq) } l.lseq 0 1 l.tag

/-- AN ANSWERED FAULT: "retry" makes the access again, and "fatal" lets it fail as its rule says (R226, R309, R334, R340, R345, R354, R428). A header that cannot be read again at once is read when its queue can take (R225, R227). -/
def answerFault (s : State) (f : FaultRec) (fatal : Bool) : State :=
  let freed := fun (k own : Nat) => modCore s k fun c => modOwner c own (dropFault f.fid)
  match f.who with
  | .walk k n => modCore s k fun c =>
      match lfind (fun (w : Walk) => w.num == n && w.fid == some f.fid) c.walks with
      | none => c
      | some w => modOwner { c with walks := c.walks.map fun x => if x.num = n then { x with fid := none, fatal := fatal } else x } w.own (dropFault f.fid)
  | .entry k own start =>
    let s1 := freed k own
    if fatal then failEntry s1 k own start
    else modCore s1 k fun c => modOwner c own fun g => modEntries g (BitVec.ofNat 32 start) fun e => if e.fid = some f.fid then { e with fid := none } else e
  | .spill k own => if fatal then failSpill (freed k own) k own f.va else retrySpill (freed k own) k own
  | .arg k own _ => if fatal then failArgument (freed k own) k own f.va else freed k own
  | .copy k n => match copyAt (coreAt s k) n with
    | none => s
    | some x => if fatal then failCopy s k x else modCore s k fun c => modCopy c n fun y => { y with fid := none }
  | .header n l =>
    let s1 := { s with queues := tmod s.queues n fun q => if q.fid = some f.fid then { q with fid := none } else q }
    (match launchAt s l with
     | none => s1
     | some x =>
       if x.completed then s1 else if fatal then failHeader s1 x
       else if mustWait s1 x.root x.hdrVa then { s1 with retake := insertNat s1.retake l } else readHeader s1 l)
  | .crec l => match launchAt s l with
    | none => s
    | some x =>
      if x.completed || x.heldCrec != some f.fid then s
      else
        let s1 := modLaunch s l fun y => { y with heldCrec := none }
        if fatal then settleLaunches (sendCompl (closeLaunch s1 l x.status) l x.hdr.crec x.status x.tag) else settleLaunches (complete s1 l x.status)
  | .bitmap l i => answerBitmap s l i fatal

/-- R226, R227, R416: FANS answers a fault of a die. -/
def execFans (q : Cmd) (s : State) : Host.Outcome State Fault Refusal :=
  .next (runCmd 13 q (fun s =>
    if q.die = 0xFF || 1 < fieldOf q 4 1 then (s, .err 10)
    else match lfind (fun (f : FaultRec) => f.fid == fieldOf q 0 4) (dieAt s q.die).faults with
      | none => (s, .err 8)
      | some f => (retryWaiting (answerFault (modDie s q.die fun d => { d with faults := d.faults.filter fun x => x.fid != f.fid }) f (fieldOf q 4 1 == 1)), .ack)) s)

/-- R354, R416: ENDL ends a launch that has been taken and has not completed. -/
def execEndl (q : Cmd) (s : State) : Host.Outcome State Fault Refusal :=
  .next (runCmd 14 q (fun s => if (liveLaunches s).contains (fieldOf q 0 8) then (settleLaunches (endLaunch s (fieldOf q 0 8)), .ack) else (s, .err 10)) s)

end Sys2Proof.Machine
end

