-- ==== Sys2Proof/Machine/StartEvents.lean ====
section
/-! DEFINITION. The attachments' registers and datagrams (R414, R415, R419, R420), and a start of the device (R422 to R425). -/

namespace Sys2Proof.Machine

/-- A command entry as its 64 bytes, and from them (R414). -/
def entryWord (e : CmdEntry) : Nat :=
  e.seq % 2 ^ 64 + e.op % 2 ^ 16 * 2 ^ 64 + e.die % 2 ^ 8 * 2 ^ 80 + e.flags % 2 ^ 8 * 2 ^ 88 + e.length % 2 ^ 32 * 2 ^ 96 + e.payload % 2 ^ 384 * 2 ^ 128
def entryFrom (v : Nat) : CmdEntry :=
  { op := bytesOf v 8 2, seq := bytesOf v 0 8, die := bytesOf v 10 1, flags := bytesOf v 11 1, length := bytesOf v 12 4, payload := bytesOf v 16 48 }
/-- The location of the command-ring slot of a sequence number, in host memory (R419). -/
def commandSlot (c : Channel) (seq : Nat) : Nat := hostBase + c.crbase + 64 * ((seq - 1) % c.crsize)
/-- Entries that the host writes in its command ring, from the slot of a sequence number on (R414, R419). -/
def ringEntries (s : State) (c : Channel) : Nat → List CmdEntry → State
  | _, [] => s
  | seq, e :: r => ringEntries { s with mem := memWrite s.mem (commandSlot c seq) 64 (entryWord e) } c (seq + 1) r
/-- n entries fetched from the command ring, from the slot of a sequence number on (R419). -/
def fetchEntries (s : State) (c : Channel) (seq n : Nat) : List CmdEntry := (List.range n).map fun j => entryFrom (memRead s.mem (commandSlot c (seq + j)) 64)
/-- R419: CTAIL written, after the host has put entries in its ring from the slot after CTAIL on: the device fetches the entries up to the new CTAIL from their slots. -/
def execCtailDoorbell (value : Nat) (entries : List CmdEntry) (s : State) : Host.Outcome State Fault Refusal :=
  let c := channelAt s 0
  .next (if !attached s 0 || c.crsize = 0 || value < c.ctail then s
    else
      let s1 := ringEntries s c (c.ctail + 1) entries
      addCmds (setChannel s1 0 { c with ctail := value }) 0 (fetchEntries s1 c (c.ctail + 1) (value - c.ctail)))

/-- An acknowledgement of events up to a number: what it covers is consumed, and waiting events are written while there is room (R415, R420). -/
def acknowledge (s : State) (ch value : Nat) : State :=
  let c := channelAt s ch
  let v := min c.ewrit (max c.eack value)
  drainEvents c.waiting.length (setChannel s ch { c with
    eack := v, events := c.events.filter fun e => decide (v < e.seq), resent := c.resent.filter fun x => decide (v < x.1) }) ch

/-- R415, R419: EACK written. -/
def execEackWrite (ch value : Nat) (s : State) : Host.Outcome State Fault Refusal :=
  .next (if ch = 0 && attached s 0 then acknowledge s 0 value else s)

/-- Whether the rings are idle, so that their registers may change (R419). -/
def ringsIdle (c : Channel) : Bool := c.cdone == c.ctail && c.ewrit == c.eack
/-- A ring size of R419. -/
def ringSizeOk (n : Nat) : Bool := (List.range 11).any fun i => n == 2 ^ (i + 6)

/-- R419: CRBASE, CRSIZE, ERBASE, ERSIZE, EVINT and B2POS written. DESIGN CHOICE: a write of a base or of B2POS that is not aligned as it must be, or of a size that is no allowed power of two, is ignored, and an EVINT count of 0 acts as 1 (log entry 77). -/
def execChannelRingConfigWrite (offset value : Nat) (s : State) : Host.Outcome State Fault Refusal :=
  let c := channelAt s 0
  let aligned : Bool := value % 4096 == 0 && decide (value < 2 ^ 64)
  let put := fun (x : Channel) => drainEvents x.waiting.length (setChannel s 0 x) 0
  .next (if !attached s 0 then s
    else match offset with
      | 0x100 => if ringsIdle c && aligned then put { c with crbase := value } else s
      | 0x108 => if ringsIdle c && ringSizeOk value then put { c with crsize := value } else s
      | 0x110 => if ringsIdle c && aligned then put { c with erbase := value } else s
      | 0x118 => if ringsIdle c && ringSizeOk value then put { c with ersize := value } else s
      | 0x140 => setChannel s 0 { c with evint := value % 2 ^ 32 }
      | 0x148 => if value % 2 ^ 36 = 0 && value < 2 ^ 39 then { s with b2pos := value } else s
      | _ => s)

/-- The bytes that a BAR2 read returns (R419). -/
def bar2Read (s : State) (offset width : Nat) : Nat :=
  match attachKey s 0 with
  | none => 2 ^ (8 * width) - 1
  | some k => pieceRead s (hostPiece (s.b2pos + offset) width k)

/-- R419: a BAR2 access, performed at its home; through an empty slot a write has no effect. -/
def execBar2Access (write : Bool) (offset width data : Nat) (s : State) : Host.Outcome State Fault Refusal :=
  .next (if !attached s 0 || width = 0 || 2 ^ 36 < offset + width || 2 ^ 39 < s.b2pos + offset + width then s
    else match attachKey s 0 with
      | none => s
      | some k =>
        let p := hostPiece (s.b2pos + offset) width k
        bringLines (if write then pieceWrite s p data else s) write [p])

/-- Whether vector 0 is due (R419). -/
def vectorDue (s : State) : Bool :=
  let c := channelAt s 0
  c.unsignalled != 0 && (decide (max 1 (c.evint % 2 ^ 16) ≤ c.unsignalled) || decide (c.oldest + c.evint / 2 ^ 16 * 1000 ≤ s.now))
/-- R419: vector 0 fires. -/
def execMsixInterrupt (s : State) : Host.Outcome State Fault Refusal :=
  let c := channelAt s 0
  .next (if attached s 0 && vectorDue s then setChannel s 0 { c with fired := c.fired + 1, unsignalled := 0 } else s)

/-- A field of a datagram: n bytes from an offset, byte 0 lowest; and its fields (R420). -/
def dgField (g : Datagram) (off n : Nat) : Nat := ofBytes ((g.bytes.drop off).take n)
def dgKind (g : Datagram) : Nat := dgField g 3 1
def dgSession (g : Datagram) : Nat := dgField g 4 4
def dgCounter (g : Datagram) : Nat := dgField g 8 8
def dgAck (g : Datagram) : Nat := dgField g 0x10 8
def dgN (g : Datagram) : Nat := dgField g 0x18 2
/-- The channel key of a front port (R420, R423). -/
def channelKey (s : State) (port : Nat) : List Nat := toBytes 32 (match s.boot.portKeys with
  | some ks => lget 0 ks (port - 1)
  | none => Config.channelKey port)
/-- The session key under which a datagram travels: it is derived from the channel key, with the session's 4 bytes as they stand in the datagram (R420; log entry 55). -/
def sessionKey (s : State) (g : Datagram) : List Nat := hkdf (channelKey s g.port) ((g.bytes.drop 4).take 4)
/-- The nonce of a datagram: the 12 bytes of session and counter (R420). -/
def dgNonce (g : Datagram) : List Nat := (g.bytes.drop 4).take 12
/-- The encrypted entries of a datagram. -/
def dgBody (g : Datagram) : List Nat := (g.bytes.drop 0x20).take (64 * dgN g)
/-- Whether a datagram's tag verifies (R413, R420). -/
def tagVerifies (s : State) (g : Datagram) : Bool := gcmTag (sessionKey s g) (dgNonce g) (g.bytes.take 0x20) (dgBody g) == g.bytes.drop (0x20 + 64 * dgN g)
/-- The command entries that a datagram carries (R414, R420). -/
def entriesOf (s : State) (g : Datagram) : List CmdEntry :=
  let plain := gcmCrypt (sessionKey s g) (dgNonce g) (4 * dgN g) 2 (dgBody g)
  (List.range (dgN g)).map fun j => entryFrom (ofBytes ((plain.drop (64 * j)).take 64))
/-- Whether a datagram's layout is that of R420, from the host to the device. -/
def wellFormed (g : Datagram) : Bool :=
  g.bytes.length == 0x30 + 64 * dgN g && dgField g 0 2 == 0x5356 && dgField g 2 1 == 1 && decide (dgKind g ≤ 2) && dgField g 0x1A 6 == 0 && dgSession g != 0 &&
  decide (1 ≤ dgCounter g) && decide (dgCounter g < 2 ^ 63) && decide (dgN g ≤ 128) && (dgKind g != 2 || dgN g == 0)
/-- Whether a channel has not accepted a datagram's counter before, and its window has not passed it; a higher session begins anew (R420). -/
def freshCounter (c : Channel) (g : Datagram) : Bool :=
  decide (c.session < dgSession g) || (c.session == dgSession g && !c.counters.contains (dgCounter g) && decide (c.counters.foldl max 0 < dgCounter g + 1024))
/-- Whether a datagram passes the checks of R420. -/
def datagramOk (s : State) (g : Datagram) : Bool :=
  (g.port == 1 || g.port == 2) && attached s g.port && wellFormed g && freshCounter (channelAt s g.port) g && tagVerifies s g

/-- The entries that follow the last one received in order, each by 1; a repeated one is dropped, and one past a gap goes on, to be answered with code 3 (R415, R420). -/
def inOrder : Nat → List CmdEntry → List CmdEntry
  | _, [] => []
  | n, e :: r => if e.seq ≤ n then inOrder n r else e :: inOrder (if e.seq = n + 1 then e.seq else n) r
/-- The last entry received in order, after some entries (R420). -/
def lastInOrder (n : Nat) (es : List CmdEntry) : Nat := es.foldl (fun m e => if e.seq = m + 1 then e.seq else m) n

/-- A channel that has accepted a datagram's counter; a higher session becomes current (R420). -/
def noteDatagram (c : Channel) (g : Datagram) : Channel :=
  let seen := if c.session < dgSession g then [dgCounter g] else dgCounter g :: c.counters
  let newest := seen.foldl max 0
  { c with session := dgSession g, counters := seen.filter fun n => decide (newest < n + 1024), sent := if c.session < dgSession g then 0 else c.sent }

/-- R414, R420: a datagram from the host. -/
def execChannelDatagram (g : Datagram) (s : State) : Host.Outcome State Fault Refusal :=
  .next (if !datagramOk s g then s
    else
      let c := noteDatagram (channelAt s g.port) g
      let s1 := acknowledge (setChannel s g.port c) g.port (dgAck g)
      let c1 := channelAt s1 g.port
      let es := if dgKind g = 0 then inOrder c1.ctail (entriesOf s g) else []
      addCmds (setChannel s1 g.port { c1 with ctail := lastInOrder c1.ctail es }) g.port es)

/-- R414, R420: an event that no acknowledgement has covered for 100 µs is sent again. -/
def execEntryResend (ch seq : Nat) (s : State) : Host.Outcome State Fault Refusal :=
  let c := channelAt s ch
  .next (match tfind c.resent seq with
    | none => s
    | some t => if ch != 0 && attached s ch && decide (c.eack < seq) && decide (t + 100000 ≤ s.now) then
        setChannel s ch { c with resent := tput c.resent seq s.now, sent := c.sent + 1 }
      else s)

/-- The boot status record, byte 0 lowest (R424). -/
def bootRecord (b : Boot) : Nat :=
  let byte := fun (off v : Nat) => v % 256 * 256 ^ off
  let word := fun (off v : Nat) => v % 2 ^ 32 * 256 ^ off
  b.ts % 2 ^ 64 + byte 8 (if b.minimal then 1 else 0) + byte 9 b.attempts +
  byte 10 (lget 0 b.stages 0) + byte 11 (lget 0 b.stages 1) + byte 12 (lget 0 b.stages 2) +
  word 16 (lget 0 b.reasons 0) + word 20 (lget 0 b.reasons 1) + word 24 (lget 0 b.reasons 2) +
  b.offer % 2 ^ 64 * 256 ^ 28 + word 0x24 b.cfgver + word 0x28 b.fwver

/-- The stages that a start can fail in: stage 6 never fails (R422). -/
def failingStage (n : Nat) : Bool := decide (1 ≤ n) && decide (n ≤ 7) && n != 6

/-- The start state after stage 1 has counted the start (R422, R424). -/
def countStart (b : Boot) : Boot := { b with counter := min 255 (b.counter + 1), attempts := b.counter, minimal := decide (3 ≤ b.counter), up := false }

/-- A channel as a start leaves it: its series begin again at 1, and what the host has configured stays (R415; log entry 12). -/
def restartChannel (c : Channel) : Channel := { Channel.start with crbase := c.crbase, crsize := c.crsize, erbase := c.erbase, ersize := c.ersize, evint := c.evint }

/-- The links after stage 6: an enabled link that has not trained starts in RCV, one that is not enabled does not run, and in minimal mode no link does (R406, R422 to R424). -/
def startLinks (minimal : Bool) (enabled trained : List Nat) : Tab LinkState :=
  (List.range 16).map fun l => (l, if minimal || !enabled.contains l then LinkState.down else if trained.contains l then .w4 else .rcv)

/-- The stage that refuses an image, with the version refused: firmware older than the one in force or than the least that the configuration accepts, and a configuration image older than the one in force (R422, R423). -/
def imageRefused (b : Boot) (x : StartInfo) : Option (Nat × Nat) :=
  if x.fwver < max b.fwver b.leastFw then some (2, x.fwver)
  else if x.cfgver < b.cfgver then some (3, x.cfgver)
  else none
/-- The first stage of a start that fails, with its reason (R422, R424). -/
def startFailure (b : Boot) (x : StartInfo) : Option (Nat × Nat) :=
  let found : Option (Nat × Nat) := if failingStage x.failStage then some (x.failStage, x.reason) else none
  match imageRefused b x, found with
  | some r, some f => if f.1 < r.1 then some f else some r
  | some r, none => some r
  | none, f => f
/-- Whether a start takes up its configuration image: its failing stage comes after stage 3, or it has none (R422). -/
def imageApplied (b : Boot) (x : StartInfo) : Bool := match startFailure b x with
  | some f => decide (3 < f.1)
  | none => true
/-- Every register and table of the machine as a start finds it: memory, the rings' places, and the model's own agenda and counters stay; the primary attachment is the one that the configuration image names (R357, R417, R422 to R424). -/
def startState (s : State) (x : StartInfo) (b : Boot) : State :=
  { State.reset with
    mem := s.mem, lineKey := s.lineKey, boot := b, b2pos := s.b2pos, keys := [(0, 2 * x.slot0Key)]
    wdt := BitVec.ofNat 32 (x.wdt % 2 ^ 16), mirk := BitVec.ofNat 32 (x.mirk % 2 ^ 5),
    dies := (List.range 4).map (fun d => (d, { Die.start with scr := x.scr % 16 })), links := startLinks b.minimal b.linksOn x.linksUp,
    channels := (List.range 3).map (fun ch => (ch, restartChannel (channelAt s ch))),
    primary := if imageApplied b x && decide (x.primary < 3) then x.primary else s.primary, cur := s.cur, agenda := s.agenda, draws := s.draws, serial := s.serial, stopped := false }

/-- BOOT sent on every attachment that has been trained: the first event of its series (R415, R424). -/
def announce (s : State) : State :=
  ((List.range 3).filter (attached s)).foldl (fun a ch => sendOn a ch 0xA 0xFF (bootRecord s.boot)) s

/-- The images that the stages of a start before one have put in force (R422, R423). -/
def imagesBefore (stage : Nat) (b : Boot) (x : StartInfo) : Boot :=
  let b1 := if 2 < stage then { b with fwver := x.fwver } else b
  if 3 < stage then { b1 with cfgver := x.cfgver, leastFw := x.leastFw, linksOn := x.linksOn, portKeys := some x.portKeys, ownerKey := some x.ownerKey, railFloors := some x.railFloors } else b1
/-- A START OF THE DEVICE (R422 to R425): the counter is read and counted, a failing stage is recorded and ends it, and one that reaches stage 8 offers features, writes BOOT and zeroes the counter. DESIGN CHOICE: no time passes within a start, so the timestamp at stage 8 is 0, and so is ts of BOOT (R357; log entry 77). -/
def restart (s : State) (x : StartInfo) : State :=
  let b := countStart s.boot
  match startFailure b x with
  | some (stage, reason) =>
    { startState s x { imagesBefore stage b x with stages := (stage :: b.stages).take 3, reasons := (reason :: b.reasons).take 3 } with stopped := true }
  | none =>
    let bound := x.featBound &&& 0x7F
    announce (startState s x { imagesBefore 8 b x with counter := 0, offer := if b.minimal then bound &&& 1 else bound, offerFixed := false, ts := 0, up := true })

/-- R422: a start of the device. -/
def execDeviceStart (start : StartInfo) (s : State) : Host.Outcome State Fault Refusal := .next (restart s start)

/-- R416, R422: RESET restarts the device, and the BOOT event is its answer. -/
def execReset (q : Cmd) (start : StartInfo) (s : State) : Host.Outcome State Fault Refusal :=
  .next (runCmd 15 q (fun s => (restart s start, .silent)) s)

end Sys2Proof.Machine
end

