-- ==== Sys2Proof/Machine/Auto.lean ====
section
/-! DEFINITION. What occurs next when the agenda names nothing: an order of the model's own among the events that are due (log entry 2). -/

namespace Sys2Proof.Machine

/-- What an event does. -/
abbrev Happens := State → Host.Outcome State Fault Refusal

/-- The listed core numbers with their cores. -/
def eachCore (s : State) (f : Nat → Core → List Happens) : List Happens := s.cores.flatMap fun x => f x.1 x.2

/-- Events of a group that no selector brings about. -/
def groupEvents (k slot : Nat) (g : Group) : List Happens :=
  ((allEntries g).filter fun e => !e.ready && e.fid.isNone).map (fun e => execBlockPriorityRead k slot e.start.toNat) ++
  g.argsLeft.map (fun i => execArgumentRead k slot i) ++
  [execGroupDemotion k slot, execSwapOutComplete k slot, execGroupSwapIn k slot, execWatchdog k slot] ++
  (allEntries g).map (fun e => execEntryPromotion k slot e.start.toNat) ++
  ((List.range g.threads.length).filter fun i => !(threadAt g i).windows.isEmpty).flatMap fun i => [execMirrorCompare k slot i, execMirrorWindowTimeout k slot i]

/-- Events of a core's requests, writes, releases and walks. -/
def requestEvents (k : Nat) (c : Core) : List Happens :=
  c.walks.map (fun w => execTranslationWalk k w.num 0) ++
  c.loads.map (fun l => if l.reads then execLoadDataArrival k ⟨l.num, l.pieces.length⟩ else execAtomicResult k l.num) ++
  c.writes.map (fun w => execWritePerformed k ⟨w.num, w.pieces.length⟩) ++
  c.releases.flatMap fun r => r.markers.flatMap fun m =>
    ((List.range 16).filter fun j => m.2 / 2 ^ j % 2 == 1).map (execFlushMarkerArrival k r.num m.1) ++ [execFlushReportArrival k r.num m.1]

/-- The next burst of a copy: the largest that begins at its first byte left (R303). -/
def burstEvents (s : State) (k : Nat) (x : Copy) : List Happens :=
  match x.left with
  | [] => []
  | p :: _ => (((List.range 64).reverse.map (· + 1)).filter fun n => decide (n ≤ p.2) && burstShape s x p.1 n).take 1 |>.map fun n => execCopyBurst k x.num p.1 n

/-- Events of a core's engines and of its banks. -/
def engineEvents (s : State) (k : Nat) (c : Core) : List Happens :=
  [execMatrixUpdateComplete k, execMatrixWordTake k 0, execMatrixWordTake k 1] ++
  c.copies.flatMap (fun x => execCopyStart k x.num :: burstEvents s k x ++ [execCopyRetire k x.num]) ++
  [execTileEviction k] ++ (slotTeams c.ctx ++ c.ctx.groups.map (·.2.team) ++ slotTeams c.shadow ++ c.shadow.groups.map (·.2.team)).map (fun u => execTileReturn k u) ++
  [execGroupSwapOut k, execCompaction k, execCompactionComplete k, execExchangeFillComplete k, execExchangeSwap k, execExchangeSpillComplete k, execRailLoopWindow k]

/-- The event of the first command of a channel; the environment names what a RESET finds (R416). -/
def commandEvents (ch : Nat) (c : Channel) : List Happens :=
  match c.cmds with
  | [] => []
  | e :: _ =>
    let q : Cmd := ⟨ch, e.seq, e.die, e.flags, e.length, e.payload⟩
    match e.op with
    | 1 => [execCmdNop q] | 2 => [execRegwr q] | 3 => [execRegrd q] | 4 => [execMemwr q] | 5 => [execMemrd q] | 6 => [execQcfg q] | 7 => [execKeyld q]
    | 8 => [execKeyclr q] | 9 => [execTinv q] | 10 => [execFeat q] | 11 => [execPeercfg q] | 12 => [execColl q] | 13 => [execFans q] | 14 => [execEndl q]
    | _ => []

/-- Events of the queues, the schedulers, the dies, the links and the channels. -/
def deviceEvents (s : State) : List Happens :=
  s.channels.flatMap (fun x => commandEvents x.1 x.2) ++ [execMsixInterrupt] ++
  s.queues.map (fun q => execQueueEntryTake q.1) ++
  (List.range 40).flatMap (fun t => [execSchedulerDecision t, execStealRetry t, execStretchEnd t, execHalvedIssueEnd t]) ++
  (List.range 4).flatMap (fun d => [execDsplitApply d, execDsplitBusyClear d, execControlInterval d]) ++
  (List.range 16).map (fun l => execLinkDown l) ++ s.members.map (fun m => execThrottleMemberSilence m.1)

/-- What the machine does of itself, before any wait ends. -/
def machineEvents (s : State) : List Happens :=
  eachCore s (fun k c => c.pend.map fun p => execTrapEntry k p.num) ++ eachCore s requestEvents ++ eachCore s (engineEvents s) ++
  eachCore s (fun k c => c.ctx.groups.flatMap fun g => groupEvents k g.1 g.2) ++ deviceEvents s ++
  eachCore s (fun k c => c.live.flatMap fun x => (List.range 16).map fun r => execLiveBitClear k x.1 r)

/-- The ends of waits. -/
def waitEvents (s : State) : List Happens :=
  eachCore s fun k c => c.ctx.bundles.flatMap fun b => match b.2.wait with
    | none => []
    | some w => match resumedBy w with
      | .certainty => [execCertainty k b.1]
      | .step => [execWaitingStepIssue k b.1]
      | .barrier => [execBarrierRelease k b.1]
      | .sleep => [execSleepExpiry k b.1]
      | .poll => [execCbwaitPoll k b.1]
      | .push => [execTqpushTimeout k b.1]

/-- Requests for work between schedulers (R353). -/
def stealEvents : List Happens := (List.range 40).flatMap fun t => (victims t).map fun v => execStealRequest t v

/-- The choices of selectors. -/
def choiceEvents (s : State) : List Happens := eachCore s fun k _ => [execSelectorChoice k 0, execSelectorChoice k 1]

/-- Whether an event is due: it changes the machine. -/
def changes (s : State) (i : Happens) : Bool := match i s with
  | .next t => t != s
  | _ => false

/-- A list begun at another place. -/
def rotated {α : Type} (n : Nat) (xs : List α) : List α := xs.drop (n % xs.length) ++ xs.take (n % xs.length)

/-- THE EVENT THAT OCCURS NEXT by the model's own order, if one is due; every fourth ns the choices of selectors come first, and the waits are tried from a place that goes round, so that no wait starves another. -/
def autoEvent (s : State) : Option Happens :=
  let es := machineEvents s ++ rotated (s.now / 2) (waitEvents s)
  let cs := rotated (s.now / 4) (choiceEvents s)
  lfind (changes s) (if s.now % 4 = 3 then cs ++ es ++ stealEvents else es ++ cs ++ stealEvents)

end Sys2Proof.Machine
end

