-- ==== Sys2Proof/Machine/FloatWords.lean ====
section
/-! DEFINITION. Float words: majors 11 to 18 and the float compares (R145 to R162). -/

namespace Sys2Proof.Machine

/-- The magnitude of a with the sign of b; a NaN gives the canonical NaN, and a signalling one raises NV (R148, R149). DESIGN CHOICE: of b, which may be any pattern, only the sign counts, and its NaNs raise nothing (log entry 76). -/
def copySign : List Nat → Nat × BitVec 5
  | [a, b] => match decodeF f32 a with
    | .nan s => (f32.canon, if s then flNV else 0)
    | _ => (a % 2 ^ 31 + b / 2 ^ 31 % 2 * 2 ^ 31, 0)
  | _ => (0, 0)

/-- fcmp.f32 (R156). -/
def execFcmpF32 (o : OpCmp) (s : State) : Host.Outcome State Fault Refusal := runCompare (.fcmpF32 o) o.p (floatCompare f32 o.k) s
/-- fcmp.bf16 (R156). -/
def execFcmpBf16 (o : OpCmp) (s : State) : Host.Outcome State Fault Refusal := runCompare (.fcmpBf16 o) o.p (floatCompare bf16 o.k) s
/-- fcmp.f16 (R156). -/
def execFcmpF16 (o : OpCmp) (s : State) : Host.Outcome State Fault Refusal := runCompare (.fcmpF16 o) o.p (floatCompare f16 o.k) s
/-- fadd.f32 (R149). -/
def execFaddF32 (o : OpA) (s : State) : Host.Outcome State Fault Refusal := runCalc (.faddF32 o) (twoF addF) s
/-- fsub.f32 (R149). -/
def execFsubF32 (o : OpA) (s : State) : Host.Outcome State Fault Refusal := runCalc (.fsubF32 o) (twoF fun x y => addF x y.negate) s
/-- fmul.f32 (R149). -/
def execFmulF32 (o : OpA) (s : State) : Host.Outcome State Fault Refusal := runCalc (.fmulF32 o) (twoF mulF) s
/-- fmin.f32 (R150). -/
def execFminF32 (o : OpA) (s : State) : Host.Outcome State Fault Refusal := runCalc (.fminF32 o) (pickF f32 false) s
/-- fmax.f32 (R150). -/
def execFmaxF32 (o : OpA) (s : State) : Host.Outcome State Fault Refusal := runCalc (.fmaxF32 o) (pickF f32 true) s
/-- fabs.f32 (R149). -/
def execFabsF32 (o : OpU) (s : State) : Host.Outcome State Fault Refusal := runCalc (.fabsF32 o) (moveF fun a => a % 2 ^ 31) s
/-- fneg.f32 (R149). -/
def execFnegF32 (o : OpU) (s : State) : Host.Outcome State Fault Refusal := runCalc (.fnegF32 o) (moveF fun a => (a + 2 ^ 31) % 2 ^ 32) s
/-- fcpysgn.f32 (R149). -/
def execFcpysgnF32 (o : OpA) (s : State) : Host.Outcome State Fault Refusal := runCalc (.fcpysgnF32 o) copySign s
/-- ffma.f32.cd (R151). -/
def execFfmaF32Cd (o : OpA) (s : State) : Host.Outcome State Fault Refusal := runCalc (.ffmaF32Cd o) threeF s
/-- ffma.f32.cb0 (R151). -/
def execFfmaF32Cb0 (o : OpF) (s : State) : Host.Outcome State Fault Refusal := runCalc (.ffmaF32Cb0 o) threeF s
/-- ffma.f32.cb1 (R151). -/
def execFfmaF32Cb1 (o : OpF) (s : State) : Host.Outcome State Fault Refusal := runCalc (.ffmaF32Cb1 o) threeF s
/-- ffma.f32.cb2 (R151). -/
def execFfmaF32Cb2 (o : OpF) (s : State) : Host.Outcome State Fault Refusal := runCalc (.ffmaF32Cb2 o) threeF s
/-- ffma.f32.cb3 (R151). -/
def execFfmaF32Cb3 (o : OpF) (s : State) : Host.Outcome State Fault Refusal := runCalc (.ffmaF32Cb3 o) threeF s
/-- ffma.x2bf16.cd (R152). -/
def execFfmaX2bf16Cd (o : OpA) (s : State) : Host.Outcome State Fault Refusal := runCalc (.ffmaX2bf16Cd o) (threeX2 bf16) s
/-- ffma.x2f16.cd (R152). -/
def execFfmaX2f16Cd (o : OpA) (s : State) : Host.Outcome State Fault Refusal := runCalc (.ffmaX2f16Cd o) (threeX2 f16) s
/-- fadd.x2bf16 (R153). -/
def execFaddX2bf16 (o : OpA) (s : State) : Host.Outcome State Fault Refusal := runCalc (.faddX2bf16 o) (twoX2 (addEnc bf16)) s
/-- fmul.x2bf16 (R153). -/
def execFmulX2bf16 (o : OpA) (s : State) : Host.Outcome State Fault Refusal := runCalc (.fmulX2bf16 o) (twoX2 (mulEnc bf16)) s
/-- fadd.x2f16 (R153). -/
def execFaddX2f16 (o : OpA) (s : State) : Host.Outcome State Fault Refusal := runCalc (.faddX2f16 o) (twoX2 (addEnc f16)) s
/-- fmul.x2f16 (R153). -/
def execFmulX2f16 (o : OpA) (s : State) : Host.Outcome State Fault Refusal := runCalc (.fmulX2f16 o) (twoX2 (mulEnc f16)) s
/-- fmin.x2bf16 (R150). -/
def execFminX2bf16 (o : OpA) (s : State) : Host.Outcome State Fault Refusal := runCalc (.fminX2bf16 o) (twoX2 (minMaxF bf16 false)) s
/-- fmax.x2bf16 (R150). -/
def execFmaxX2bf16 (o : OpA) (s : State) : Host.Outcome State Fault Refusal := runCalc (.fmaxX2bf16 o) (twoX2 (minMaxF bf16 true)) s
/-- fmin.x2f16 (R150). -/
def execFminX2f16 (o : OpA) (s : State) : Host.Outcome State Fault Refusal := runCalc (.fminX2f16 o) (twoX2 (minMaxF f16 false)) s
/-- fmax.x2f16 (R150). -/
def execFmaxX2f16 (o : OpA) (s : State) : Host.Outcome State Fault Refusal := runCalc (.fmaxX2f16 o) (twoX2 (minMaxF f16 true)) s
/-- frcp.f32 (R154). -/
def execFrcpF32 (o : OpU) (s : State) : Host.Outcome State Fault Refusal := runCalc (.frcpF32 o) (special frcpF) s
/-- frsq.f32 (R154). -/
def execFrsqF32 (o : OpU) (s : State) : Host.Outcome State Fault Refusal := runCalc (.frsqF32 o) (special frsqF) s
/-- fsqrt.f32 (R154). -/
def execFsqrtF32 (o : OpU) (s : State) : Host.Outcome State Fault Refusal := runCalc (.fsqrtF32 o) (special fsqrtF) s
/-- fexp2.f32 (R154). -/
def execFexp2F32 (o : OpU) (s : State) : Host.Outcome State Fault Refusal := runCalc (.fexp2F32 o) (special fexp2F) s
/-- flog2.f32 (R154). -/
def execFlog2F32 (o : OpU) (s : State) : Host.Outcome State Fault Refusal := runCalc (.flog2F32 o) (special flog2F) s
/-- fsin.f32 (R154). -/
def execFsinF32 (o : OpU) (s : State) : Host.Outcome State Fault Refusal := runCalc (.fsinF32 o) (special fsinF) s
/-- fcos.f32 (R154). -/
def execFcosF32 (o : OpU) (s : State) : Host.Outcome State Fault Refusal := runCalc (.fcosF32 o) (special fcosF) s
/-- ftanh.f32 (R154). -/
def execFtanhF32 (o : OpU) (s : State) : Host.Outcome State Fault Refusal := runCalc (.ftanhF32 o) (special ftanhF) s
/-- frnd.f32 (R155). -/
def execFrndF32 (o : OpRnd) (s : State) : Host.Outcome State Fault Refusal := runCalc (.frndF32 o) (rndF (modeOf o.r.toNat)) s
/-- ffract.f32 (R155). -/
def execFfractF32 (o : OpU) (s : State) : Host.Outcome State Fault Refusal := runCalc (.ffractF32 o) fractF s
/-- fclass.f32 (R155). -/
def execFclassF32 (o : OpU) (s : State) : Host.Outcome State Fault Refusal := runCalc (.fclassF32 o) classF s
/-- fsat.f32 (R155). -/
def execFsatF32 (o : OpU) (s : State) : Host.Outcome State Fault Refusal := runCalc (.fsatF32 o) satF s
/-- fexpo.f32 (R155). -/
def execFexpoF32 (o : OpU) (s : State) : Host.Outcome State Fault Refusal := runCalc (.fexpoF32 o) expoF s
/-- cvt (R157). -/
def execCvt (o : OpCvt) (s : State) : Host.Outcome State Fault Refusal := runCalc (.cvt o) (convert o.b.toNat (modeOf o.r.toNat) o.s) s
/-- cvtp.x2bf16.f32 (R158). -/
def execCvtpX2bf16F32 (o : OpF) (s : State) : Host.Outcome State Fault Refusal := runCalc (.cvtpX2bf16F32 o) (pack2 bf16) s
/-- cvtp.x2f16.f32 (R158). -/
def execCvtpX2f16F32 (o : OpF) (s : State) : Host.Outcome State Fault Refusal := runCalc (.cvtpX2f16F32 o) (pack2 f16) s
/-- cvtp.x4e4m3.f32 (R158). -/
def execCvtpX4e4m3F32 (o : OpF) (s : State) : Host.Outcome State Fault Refusal := runCalc (.cvtpX4e4m3F32 o) (pack4 e4m3) s
/-- cvtp.x4e5m2.f32 (R158). -/
def execCvtpX4e5m2F32 (o : OpF) (s : State) : Host.Outcome State Fault Refusal := runCalc (.cvtpX4e5m2F32 o) (pack4 e5m2) s
/-- cvtp.x8e2m1.x4e4m3 (R158). -/
def execCvtpX8e2m1X4e4m3 (o : OpF) (s : State) : Host.Outcome State Fault Refusal := runCalc (.cvtpX8e2m1X4e4m3 o) pack8 s
/-- mxq.e4m3 (R159). -/
def execMxqE4m3 (o : OpF) (s : State) : Host.Outcome State Fault Refusal := runCalc (.mxqE4m3 o) (quantise e4m3) s
/-- mxq.e5m2 (R159). -/
def execMxqE5m2 (o : OpF) (s : State) : Host.Outcome State Fault Refusal := runCalc (.mxqE5m2 o) (quantise e5m2) s
/-- mxq.e2m1 (R159). -/
def execMxqE2m1 (o : OpF) (s : State) : Host.Outcome State Fault Refusal := runCalc (.mxqE2m1 o) (quantise e2m1) s
/-- dp4.x4i8 (R160). -/
def execDp4X4i8 (o : OpF) (s : State) : Host.Outcome State Fault Refusal := runCalc (.dp4X4i8 o) (dotI 8 4) s
/-- dp4.x4e4m3 (R161). -/
def execDp4X4e4m3 (o : OpF) (s : State) : Host.Outcome State Fault Refusal := runCalc (.dp4X4e4m3 o) (dotF e4m3 4) s
/-- dp4.x4e5m2 (R161). -/
def execDp4X4e5m2 (o : OpF) (s : State) : Host.Outcome State Fault Refusal := runCalc (.dp4X4e5m2 o) (dotF e5m2 4) s
/-- dp8.x8i4 (R160). -/
def execDp8X8i4 (o : OpF) (s : State) : Host.Outcome State Fault Refusal := runCalc (.dp8X8i4 o) (dotI 4 8) s
/-- dp8.x8e2m1 (R161). -/
def execDp8X8e2m1 (o : OpF) (s : State) : Host.Outcome State Fault Refusal := runCalc (.dp8X8e2m1 o) (dotF e2m1 8) s
/-- dp2.x2bf16 (R161). -/
def execDp2X2bf16 (o : OpF) (s : State) : Host.Outcome State Fault Refusal := runCalc (.dp2X2bf16 o) (dotF bf16 2) s
/-- dp2.x2f16 (R161). -/
def execDp2X2f16 (o : OpF) (s : State) : Host.Outcome State Fault Refusal := runCalc (.dp2X2f16 o) (dotF f16 2) s
/-- fscale.f32 (R162). -/
def execFscaleF32 (o : OpF) (s : State) : Host.Outcome State Fault Refusal := runCalc (.fscaleF32 o) scaleF s

end Sys2Proof.Machine
end

