-- ==== Sys2Proof/Machine/Integer.lean ====
section
/-! DEFINITION. Integer words: majors 1 to 10 without the float compares (R111 to R122). -/

namespace Sys2Proof.Machine

/-- iadd.i32 (R114). -/
def execIaddI32 (o : OpA) (s : State) : Host.Outcome State Fault Refusal := runCalc (.iaddI32 o) (two32 fun a b => a + b) s
/-- isub.i32 (R114). -/
def execIsubI32 (o : OpA) (s : State) : Host.Outcome State Fault Refusal := runCalc (.isubI32 o) (two32 fun a b => a - b) s
/-- imul.i32 (R114). -/
def execImulI32 (o : OpA) (s : State) : Host.Outcome State Fault Refusal := runCalc (.imulI32 o) (two32 fun a b => a * b) s
/-- imulh.i32 (R114). -/
def execImulhI32 (o : OpA) (s : State) : Host.Outcome State Fault Refusal :=
  runCalc (.imulhI32 o) (two32 fun a b => BitVec.ofInt 32 (a.toInt * b.toInt / 2 ^ 32)) s
/-- imulh.n32 (R114). -/
def execImulhN32 (o : OpA) (s : State) : Host.Outcome State Fault Refusal :=
  runCalc (.imulhN32 o) (two32 fun a b => BitVec.ofNat 32 (a.toNat * b.toNat / 2 ^ 32)) s
/-- iabsd.i32 (R114). -/
def execIabsdI32 (o : OpA) (s : State) : Host.Outcome State Fault Refusal :=
  runCalc (.iabsdI32 o) (two32 fun a b => BitVec.ofNat 32 (a.toInt - b.toInt).natAbs) s
/-- iadds.i32 (R114). -/
def execIaddsI32 (o : OpA) (s : State) : Host.Outcome State Fault Refusal :=
  runCalc (.iaddsI32 o) (two32 fun a b => BitVec.ofInt 32 (satS (a.toInt + b.toInt) 32)) s
/-- isubs.i32 (R114). -/
def execIsubsI32 (o : OpA) (s : State) : Host.Outcome State Fault Refusal :=
  runCalc (.isubsI32 o) (two32 fun a b => BitVec.ofInt 32 (satS (a.toInt - b.toInt) 32)) s
/-- imin.i32 (R114). -/
def execIminI32 (o : OpA) (s : State) : Host.Outcome State Fault Refusal :=
  runCalc (.iminI32 o) (two32 fun a b => if a.toInt ≤ b.toInt then a else b) s
/-- imin.n32 (R114). -/
def execIminN32 (o : OpA) (s : State) : Host.Outcome State Fault Refusal :=
  runCalc (.iminN32 o) (two32 fun a b => if a.toNat ≤ b.toNat then a else b) s
/-- imax.i32 (R114). -/
def execImaxI32 (o : OpA) (s : State) : Host.Outcome State Fault Refusal :=
  runCalc (.imaxI32 o) (two32 fun a b => if a.toInt ≤ b.toInt then b else a) s
/-- imax.n32 (R114). -/
def execImaxN32 (o : OpA) (s : State) : Host.Outcome State Fault Refusal :=
  runCalc (.imaxN32 o) (two32 fun a b => if a.toNat ≤ b.toNat then b else a) s
/-- iabs.i32 (R114). -/
def execIabsI32 (o : OpU) (s : State) : Host.Outcome State Fault Refusal :=
  runCalc (.iabsI32 o) (one32 fun a => if a.toInt < 0 then -a else a) s
/-- ineg.i32 (R114). -/
def execInegI32 (o : OpU) (s : State) : Host.Outcome State Fault Refusal := runCalc (.inegI32 o) (one32 fun a => -a) s
/-- iadds.n32 (R114). -/
def execIaddsN32 (o : OpA) (s : State) : Host.Outcome State Fault Refusal :=
  runCalc (.iaddsN32 o) (two32 fun a b => BitVec.ofInt 32 (satN (a.toNat + b.toNat) 32)) s
/-- isubs.n32 (R114). -/
def execIsubsN32 (o : OpA) (s : State) : Host.Outcome State Fault Refusal :=
  runCalc (.isubsN32 o) (two32 fun a b => BitVec.ofInt 32 (satN ((a.toNat : Int) - b.toNat) 32)) s

/-- and.b32 (R116). -/
def execAndB32 (o : OpA) (s : State) : Host.Outcome State Fault Refusal := runCalc (.andB32 o) (two32 fun a b => a &&& b) s
/-- or.b32 (R116). -/
def execOrB32 (o : OpA) (s : State) : Host.Outcome State Fault Refusal := runCalc (.orB32 o) (two32 fun a b => a ||| b) s
/-- xor.b32 (R116). -/
def execXorB32 (o : OpA) (s : State) : Host.Outcome State Fault Refusal := runCalc (.xorB32 o) (two32 fun a b => a ^^^ b) s
/-- andn.b32 (R116). -/
def execAndnB32 (o : OpA) (s : State) : Host.Outcome State Fault Refusal := runCalc (.andnB32 o) (two32 fun a b => a &&& ~~~b) s
/-- orn.b32 (R116). -/
def execOrnB32 (o : OpA) (s : State) : Host.Outcome State Fault Refusal := runCalc (.ornB32 o) (two32 fun a b => a ||| ~~~b) s
/-- xnor.b32 (R116). -/
def execXnorB32 (o : OpA) (s : State) : Host.Outcome State Fault Refusal := runCalc (.xnorB32 o) (two32 fun a b => ~~~(a ^^^ b)) s
/-- not.b32 (R116). -/
def execNotB32 (o : OpU) (s : State) : Host.Outcome State Fault Refusal := runCalc (.notB32 o) (one32 fun a => ~~~a) s
/-- mov.b32 (R116). -/
def execMovB32 (o : OpU) (s : State) : Host.Outcome State Fault Refusal := runCalc (.movB32 o) (one32 fun a => a) s

/-- A left shift by a whole 32-bit count (R115, R117). -/
def shlBy {w : Nat} (a : BitVec w) (n : Nat) : BitVec w := if n < w then a <<< n else 0
/-- A right shift with zero fill. -/
def shrBy {w : Nat} (a : BitVec w) (n : Nat) : BitVec w := if n < w then a >>> n else 0
/-- A right shift with sign fill. -/
def sarBy {w : Nat} (a : BitVec w) (n : Nat) : BitVec w := if n < w then a.sshiftRight n else if a.msb then ~~~0 else 0
/-- The leading zero bits of a value of n bits. -/
def leadingZeros : Nat → Nat → Nat
  | 0, _ => 0
  | n + 1, x => if x / 2 ^ n % 2 = 1 then 0 else 1 + leadingZeros n x
/-- The bits of a value of n bits in the opposite order. -/
def reverseBits : Nat → Nat → Nat
  | 0, _ => 0
  | n + 1, x => x % 2 * 2 ^ n + reverseBits n (x / 2)
/-- The index of the lowest 1 bit among n bits, or n. -/
def trailingZeros : Nat → Nat → Nat
  | 0, _ => 0
  | n + 1, x => if x % 2 = 1 then 0 else 1 + trailingZeros n (x / 2)

/-- shl.b32 (R117). -/
def execShlB32 (o : OpA) (s : State) : Host.Outcome State Fault Refusal := runCalc (.shlB32 o) (two32 fun a b => shlBy a b.toNat) s
/-- shr.n32 (R117). -/
def execShrN32 (o : OpA) (s : State) : Host.Outcome State Fault Refusal := runCalc (.shrN32 o) (two32 fun a b => shrBy a b.toNat) s
/-- shr.i32 (R117). -/
def execShrI32 (o : OpA) (s : State) : Host.Outcome State Fault Refusal := runCalc (.shrI32 o) (two32 fun a b => sarBy a b.toNat) s
/-- rol.b32 (R117). -/
def execRolB32 (o : OpA) (s : State) : Host.Outcome State Fault Refusal :=
  runCalc (.rolB32 o) (two32 fun a b => a.rotateLeft (b.toNat % 32)) s
/-- popc.b32 (R117). -/
def execPopcB32 (o : OpU) (s : State) : Host.Outcome State Fault Refusal := runCalc (.popcB32 o) (one32 fun a => BitVec.ofNat 32 (popcount a)) s
/-- clz.b32 (R117). -/
def execClzB32 (o : OpU) (s : State) : Host.Outcome State Fault Refusal :=
  runCalc (.clzB32 o) (one32 fun a => BitVec.ofNat 32 (leadingZeros 32 a.toNat)) s
/-- brev.b32 (R117). -/
def execBrevB32 (o : OpU) (s : State) : Host.Outcome State Fault Refusal :=
  runCalc (.brevB32 o) (one32 fun a => BitVec.ofNat 32 (reverseBits 32 a.toNat)) s
/-- ffs.b32 (R117). -/
def execFfsB32 (o : OpU) (s : State) : Host.Outcome State Fault Refusal :=
  runCalc (.ffsB32 o) (one32 fun a => BitVec.ofNat 32 (trailingZeros 32 a.toNat)) s

/-- iadd.i64 (R115). -/
def execIaddI64 (o : OpA) (s : State) : Host.Outcome State Fault Refusal := runCalc (.iaddI64 o) (two64 fun a b => a + b) s
/-- isub.i64 (R115). -/
def execIsubI64 (o : OpA) (s : State) : Host.Outcome State Fault Refusal := runCalc (.isubI64 o) (two64 fun a b => a - b) s
/-- imul.i64 (R115). -/
def execImulI64 (o : OpA) (s : State) : Host.Outcome State Fault Refusal := runCalc (.imulI64 o) (two64 fun a b => a * b) s
/-- shl.b64 (R115). -/
def execShlB64 (o : OpA) (s : State) : Host.Outcome State Fault Refusal := runCalc (.shlB64 o) (pairWith fun a b => shlBy a b.toNat) s
/-- shr.n64 (R115). -/
def execShrN64 (o : OpA) (s : State) : Host.Outcome State Fault Refusal := runCalc (.shrN64 o) (pairWith fun a b => shrBy a b.toNat) s
/-- shr.i64 (R115). -/
def execShrI64 (o : OpA) (s : State) : Host.Outcome State Fault Refusal := runCalc (.shrI64 o) (pairWith fun a b => sarBy a b.toNat) s
/-- imulw.i32 (R115). -/
def execImulwI32 (o : OpA) (s : State) : Host.Outcome State Fault Refusal :=
  runCalc (.imulwI32 o) (wide32 fun a b => BitVec.ofInt 64 (a.toInt * b.toInt)) s
/-- imulw.n32 (R115). -/
def execImulwN32 (o : OpA) (s : State) : Host.Outcome State Fault Refusal :=
  runCalc (.imulwN32 o) (wide32 fun a b => BitVec.ofNat 64 (a.toNat * b.toNat)) s

/-- BitField (R118). -/
def bitField (a b : Word) (signed : Bool) : Word :=
  let pos := b.toNat % 256
  let len := min (b.toNat / 256 % 256) 32
  if len = 0 then 0
  else
    let t : Int := if signed then a.toInt else a.toNat
    let f := (t / 2 ^ pos % 2 ^ len).toNat
    if signed then sext len f else BitVec.ofNat 32 f
/-- bfi: a inserted into a field of d (R118). -/
def bitInsert (a b d : Word) : Word :=
  let pos := b.toNat % 256
  let len := min (b.toNat / 256 % 256) 32
  let mask : Word := BitVec.ofNat 32 ((2 ^ len - 1) * 2 ^ pos)
  (d &&& ~~~mask) ||| (BitVec.ofNat 32 (a.toNat * 2 ^ pos) &&& mask)

/-- bfe.n32 (R118). -/
def execBfeN32 (o : OpA) (s : State) : Host.Outcome State Fault Refusal := runCalc (.bfeN32 o) (two32 fun a b => bitField a b false) s
/-- bfe.i32 (R118). -/
def execBfeI32 (o : OpA) (s : State) : Host.Outcome State Fault Refusal := runCalc (.bfeI32 o) (two32 fun a b => bitField a b true) s
/-- bfi.b32 (R118). -/
def execBfiB32 (o : OpA) (s : State) : Host.Outcome State Fault Refusal := runCalc (.bfiB32 o) (three32 bitInsert) s
/-- bswap.b32 (R118). -/
def execBswapB32 (o : OpU) (s : State) : Host.Outcome State Fault Refusal :=
  runCalc (.bswapB32 o) (one32 fun a => BitVec.ofNat 32 (byteOf a.toNat 0 * 2 ^ 24 + byteOf a.toNat 1 * 2 ^ 16 + byteOf a.toNat 2 * 2 ^ 8 + byteOf a.toNat 3)) s
/-- ext.i8 (R118). -/
def execExtI8 (o : OpU) (s : State) : Host.Outcome State Fault Refusal := runCalc (.extI8 o) (one32 fun a => sext 8 a.toNat) s
/-- ext.i16 (R118). -/
def execExtI16 (o : OpU) (s : State) : Host.Outcome State Fault Refusal := runCalc (.extI16 o) (one32 fun a => sext 16 a.toNat) s
/-- imad.i32 (R118). -/
def execImadI32 (o : OpA) (s : State) : Host.Outcome State Fault Refusal := runCalc (.imadI32 o) (three32 fun a b d => a * b + d) s
/-- pack.b16 (R118). -/
def execPackB16 (o : OpA) (s : State) : Host.Outcome State Fault Refusal :=
  runCalc (.packB16 o) (two32 fun a b => BitVec.ofNat 32 (b.toNat % 65536 * 65536 + a.toNat % 65536)) s

/-- lea.b32 (R119). -/
def execLeaB32 (o : OpLea) (s : State) : Host.Outcome State Fault Refusal := runCalc (.leaB32 o) (two32 fun a b => a + (b <<< o.s.toNat)) s
/-- lea.i64 (R119). -/
def execLeaI64 (o : OpLea) (s : State) : Host.Outcome State Fault Refusal :=
  runCalc (.leaI64 o) (pairWith fun a b => a + (b.signExtend 64 <<< o.s.toNat)) s
/-- iaddi.i32 (R49). -/
def execIaddiI32 (o : OpI) (s : State) : Host.Outcome State Fault Refusal := runCalc (.iaddiI32 o) (one32 fun a => a + o.i.signExtend 32) s

/-- The conditions of R47 on integers; x and y are the raw operands. -/
def intCond (k : BitVec 3) (a b : Int) (x y : Nat) : Bool :=
  match k.toNat with
  | 0 => a == b
  | 1 => a != b
  | 2 => decide (a < b)
  | 3 => decide (a ≤ b)
  | 4 => decide (b < a)
  | 5 => decide (b ≤ a)
  | 6 => x &&& y != 0
  | _ => x &&& y == 0
/-- A compare of two numbers of w bits. -/
def intCompare (signed : Bool) (w : Nat) (k : BitVec 3) : List Nat → Bool × BitVec 5
  | [a, b] =>
    let n := fun x => if signed then (BitVec.ofNat w x).toInt else (x : Int)
    (intCond k (n a) (n b) a b, 0)
  | _ => (false, 0)

/-- icmp.i32 (R120). -/
def execIcmpI32 (o : OpCmp) (s : State) : Host.Outcome State Fault Refusal := runCompare (.icmpI32 o) o.p (intCompare true 32 o.k) s
/-- icmp.n32 (R120). -/
def execIcmpN32 (o : OpCmp) (s : State) : Host.Outcome State Fault Refusal := runCompare (.icmpN32 o) o.p (intCompare false 32 o.k) s
/-- icmp.i64 (R120). -/
def execIcmpI64 (o : OpCmp) (s : State) : Host.Outcome State Fault Refusal := runCompare (.icmpI64 o) o.p (intCompare true 64 o.k) s
/-- icmp.n64 (R120). -/
def execIcmpN64 (o : OpCmp) (s : State) : Host.Outcome State Fault Refusal := runCompare (.icmpN64 o) o.p (intCompare false 64 o.k) s

/-- Predicate logic: each operand is negated by its own bit, and a negation keeps the penumbra bit (R121). -/
def runPl (i : Instr) (o : OpPl) (f : Bool → Bool → Bool) (s : State) : Host.Outcome State Fault Refusal :=
  run i (fun sh => eachThread sh fun _ _ t =>
    let q := preg t o.q.toNat
    let r := preg t o.r.toNat
    .go [.wp o.p.toNat (f (q.val != o.j) (r.val != o.k)) (q.pen || r.pen)] []) s
/-- pand (R121). -/
def execPand (o : OpPl) (s : State) : Host.Outcome State Fault Refusal := runPl (.pand o) o (fun a b => a && b) s
/-- por (R121). -/
def execPor (o : OpPl) (s : State) : Host.Outcome State Fault Refusal := runPl (.por o) o (fun a b => a || b) s
/-- pxor (R121). -/
def execPxor (o : OpPl) (s : State) : Host.Outcome State Fault Refusal := runPl (.pxor o) o (fun a b => a != b) s

/-- sel.pK.b32 (R122). -/
def execSelB32 (o : OpSel) (s : State) : Host.Outcome State Fault Refusal :=
  run (.selB32 o) (fun sh => eachThread sh fun v i t =>
    let x := readSrc v.g i t o.lit .i ⟨o.a.toNat, 1, true, false⟩
    let y := readSrc v.g i t o.lit .i ⟨o.b.toNat, 1, true, false⟩
    let p := preg t o.k.toNat
    .go (putV sh (if p.val then x.val else y.val) (x.pen || y.pen || p.pen)) []) s

end Sys2Proof.Machine
end

