-- ==== Sys2Proof/Machine/Dispatch.lean ====
section
/-! DEFINITION. One arm per constructor of Instr: a direct call of its meaning. -/

namespace Sys2Proof.Machine

/-- The meaning of an instruction. -/
def exec (i : Instr) (s : State) : Host.Outcome State Fault Refusal :=
  match i with
  | .iaddI32 o => Sys2Proof.Machine.execIaddI32 o s
  | .isubI32 o => Sys2Proof.Machine.execIsubI32 o s
  | .imulI32 o => Sys2Proof.Machine.execImulI32 o s
  | .imulhI32 o => Sys2Proof.Machine.execImulhI32 o s
  | .imulhN32 o => Sys2Proof.Machine.execImulhN32 o s
  | .iabsdI32 o => Sys2Proof.Machine.execIabsdI32 o s
  | .iaddsI32 o => Sys2Proof.Machine.execIaddsI32 o s
  | .isubsI32 o => Sys2Proof.Machine.execIsubsI32 o s
  | .iminI32 o => Sys2Proof.Machine.execIminI32 o s
  | .iminN32 o => Sys2Proof.Machine.execIminN32 o s
  | .imaxI32 o => Sys2Proof.Machine.execImaxI32 o s
  | .imaxN32 o => Sys2Proof.Machine.execImaxN32 o s
  | .iabsI32 o => Sys2Proof.Machine.execIabsI32 o s
  | .inegI32 o => Sys2Proof.Machine.execInegI32 o s
  | .iaddsN32 o => Sys2Proof.Machine.execIaddsN32 o s
  | .isubsN32 o => Sys2Proof.Machine.execIsubsN32 o s
  | .andB32 o => Sys2Proof.Machine.execAndB32 o s
  | .orB32 o => Sys2Proof.Machine.execOrB32 o s
  | .xorB32 o => Sys2Proof.Machine.execXorB32 o s
  | .andnB32 o => Sys2Proof.Machine.execAndnB32 o s
  | .ornB32 o => Sys2Proof.Machine.execOrnB32 o s
  | .xnorB32 o => Sys2Proof.Machine.execXnorB32 o s
  | .notB32 o => Sys2Proof.Machine.execNotB32 o s
  | .movB32 o => Sys2Proof.Machine.execMovB32 o s
  | .shlB32 o => Sys2Proof.Machine.execShlB32 o s
  | .shrN32 o => Sys2Proof.Machine.execShrN32 o s
  | .shrI32 o => Sys2Proof.Machine.execShrI32 o s
  | .rolB32 o => Sys2Proof.Machine.execRolB32 o s
  | .popcB32 o => Sys2Proof.Machine.execPopcB32 o s
  | .clzB32 o => Sys2Proof.Machine.execClzB32 o s
  | .brevB32 o => Sys2Proof.Machine.execBrevB32 o s
  | .ffsB32 o => Sys2Proof.Machine.execFfsB32 o s
  | .iaddI64 o => Sys2Proof.Machine.execIaddI64 o s
  | .isubI64 o => Sys2Proof.Machine.execIsubI64 o s
  | .imulI64 o => Sys2Proof.Machine.execImulI64 o s
  | .shlB64 o => Sys2Proof.Machine.execShlB64 o s
  | .shrN64 o => Sys2Proof.Machine.execShrN64 o s
  | .shrI64 o => Sys2Proof.Machine.execShrI64 o s
  | .imulwI32 o => Sys2Proof.Machine.execImulwI32 o s
  | .imulwN32 o => Sys2Proof.Machine.execImulwN32 o s
  | .bfeN32 o => Sys2Proof.Machine.execBfeN32 o s
  | .bfeI32 o => Sys2Proof.Machine.execBfeI32 o s
  | .bfiB32 o => Sys2Proof.Machine.execBfiB32 o s
  | .bswapB32 o => Sys2Proof.Machine.execBswapB32 o s
  | .extI8 o => Sys2Proof.Machine.execExtI8 o s
  | .extI16 o => Sys2Proof.Machine.execExtI16 o s
  | .imadI32 o => Sys2Proof.Machine.execImadI32 o s
  | .packB16 o => Sys2Proof.Machine.execPackB16 o s
  | .leaB32 o => Sys2Proof.Machine.execLeaB32 o s
  | .leaI64 o => Sys2Proof.Machine.execLeaI64 o s
  | .iaddiI32 o => Sys2Proof.Machine.execIaddiI32 o s
  | .icmpI32 o => Sys2Proof.Machine.execIcmpI32 o s
  | .icmpN32 o => Sys2Proof.Machine.execIcmpN32 o s
  | .icmpI64 o => Sys2Proof.Machine.execIcmpI64 o s
  | .icmpN64 o => Sys2Proof.Machine.execIcmpN64 o s
  | .fcmpF32 o => Sys2Proof.Machine.execFcmpF32 o s
  | .fcmpBf16 o => Sys2Proof.Machine.execFcmpBf16 o s
  | .fcmpF16 o => Sys2Proof.Machine.execFcmpF16 o s
  | .pand o => Sys2Proof.Machine.execPand o s
  | .por o => Sys2Proof.Machine.execPor o s
  | .pxor o => Sys2Proof.Machine.execPxor o s
  | .selB32 o => Sys2Proof.Machine.execSelB32 o s
  | .faddF32 o => Sys2Proof.Machine.execFaddF32 o s
  | .fsubF32 o => Sys2Proof.Machine.execFsubF32 o s
  | .fmulF32 o => Sys2Proof.Machine.execFmulF32 o s
  | .fminF32 o => Sys2Proof.Machine.execFminF32 o s
  | .fmaxF32 o => Sys2Proof.Machine.execFmaxF32 o s
  | .fabsF32 o => Sys2Proof.Machine.execFabsF32 o s
  | .fnegF32 o => Sys2Proof.Machine.execFnegF32 o s
  | .fcpysgnF32 o => Sys2Proof.Machine.execFcpysgnF32 o s
  | .ffmaF32Cd o => Sys2Proof.Machine.execFfmaF32Cd o s
  | .ffmaF32Cb0 o => Sys2Proof.Machine.execFfmaF32Cb0 o s
  | .ffmaF32Cb1 o => Sys2Proof.Machine.execFfmaF32Cb1 o s
  | .ffmaF32Cb2 o => Sys2Proof.Machine.execFfmaF32Cb2 o s
  | .ffmaF32Cb3 o => Sys2Proof.Machine.execFfmaF32Cb3 o s
  | .ffmaX2bf16Cd o => Sys2Proof.Machine.execFfmaX2bf16Cd o s
  | .ffmaX2f16Cd o => Sys2Proof.Machine.execFfmaX2f16Cd o s
  | .faddX2bf16 o => Sys2Proof.Machine.execFaddX2bf16 o s
  | .fmulX2bf16 o => Sys2Proof.Machine.execFmulX2bf16 o s
  | .faddX2f16 o => Sys2Proof.Machine.execFaddX2f16 o s
  | .fmulX2f16 o => Sys2Proof.Machine.execFmulX2f16 o s
  | .fminX2bf16 o => Sys2Proof.Machine.execFminX2bf16 o s
  | .fmaxX2bf16 o => Sys2Proof.Machine.execFmaxX2bf16 o s
  | .fminX2f16 o => Sys2Proof.Machine.execFminX2f16 o s
  | .fmaxX2f16 o => Sys2Proof.Machine.execFmaxX2f16 o s
  | .frcpF32 o => Sys2Proof.Machine.execFrcpF32 o s
  | .frsqF32 o => Sys2Proof.Machine.execFrsqF32 o s
  | .fsqrtF32 o => Sys2Proof.Machine.execFsqrtF32 o s
  | .fexp2F32 o => Sys2Proof.Machine.execFexp2F32 o s
  | .flog2F32 o => Sys2Proof.Machine.execFlog2F32 o s
  | .fsinF32 o => Sys2Proof.Machine.execFsinF32 o s
  | .fcosF32 o => Sys2Proof.Machine.execFcosF32 o s
  | .ftanhF32 o => Sys2Proof.Machine.execFtanhF32 o s
  | .frndF32 o => Sys2Proof.Machine.execFrndF32 o s
  | .ffractF32 o => Sys2Proof.Machine.execFfractF32 o s
  | .fclassF32 o => Sys2Proof.Machine.execFclassF32 o s
  | .fsatF32 o => Sys2Proof.Machine.execFsatF32 o s
  | .fexpoF32 o => Sys2Proof.Machine.execFexpoF32 o s
  | .cvt o => Sys2Proof.Machine.execCvt o s
  | .cvtpX2bf16F32 o => Sys2Proof.Machine.execCvtpX2bf16F32 o s
  | .cvtpX2f16F32 o => Sys2Proof.Machine.execCvtpX2f16F32 o s
  | .cvtpX4e4m3F32 o => Sys2Proof.Machine.execCvtpX4e4m3F32 o s
  | .cvtpX4e5m2F32 o => Sys2Proof.Machine.execCvtpX4e5m2F32 o s
  | .cvtpX8e2m1X4e4m3 o => Sys2Proof.Machine.execCvtpX8e2m1X4e4m3 o s
  | .mxqE4m3 o => Sys2Proof.Machine.execMxqE4m3 o s
  | .mxqE5m2 o => Sys2Proof.Machine.execMxqE5m2 o s
  | .mxqE2m1 o => Sys2Proof.Machine.execMxqE2m1 o s
  | .dp4X4i8 o => Sys2Proof.Machine.execDp4X4i8 o s
  | .dp4X4e4m3 o => Sys2Proof.Machine.execDp4X4e4m3 o s
  | .dp4X4e5m2 o => Sys2Proof.Machine.execDp4X4e5m2 o s
  | .dp8X8i4 o => Sys2Proof.Machine.execDp8X8i4 o s
  | .dp8X8e2m1 o => Sys2Proof.Machine.execDp8X8e2m1 o s
  | .dp2X2bf16 o => Sys2Proof.Machine.execDp2X2bf16 o s
  | .dp2X2f16 o => Sys2Proof.Machine.execDp2X2f16 o s
  | .fscaleF32 o => Sys2Proof.Machine.execFscaleF32 o s
  | .xget o => Sys2Proof.Machine.execXget o s
  | .xlow o => Sys2Proof.Machine.execXlow o s
  | .xhigh o => Sys2Proof.Machine.execXhigh o s
  | .xflip o => Sys2Proof.Machine.execXflip o s
  | .gbcast o => Sys2Proof.Machine.execGbcast o s
  | .pmask o => Sys2Proof.Machine.execPmask o s
  | .eqset o => Sys2Proof.Machine.execEqset o s
  | .gfirst o => Sys2Proof.Machine.execGfirst o s
  | .gredAddI32 o => Sys2Proof.Machine.execGredAddI32 o s
  | .gredMinI32 o => Sys2Proof.Machine.execGredMinI32 o s
  | .gredMaxI32 o => Sys2Proof.Machine.execGredMaxI32 o s
  | .gredAndB32 o => Sys2Proof.Machine.execGredAndB32 o s
  | .gredOrB32 o => Sys2Proof.Machine.execGredOrB32 o s
  | .gredAddF32 o => Sys2Proof.Machine.execGredAddF32 o s
  | .gscanAddI32 o => Sys2Proof.Machine.execGscanAddI32 o s
  | .gscanAddF32 o => Sys2Proof.Machine.execGscanAddF32 o s
  | .br o => Sys2Proof.Machine.execBr o s
  | .call o => Sys2Proof.Machine.execCall o s
  | .nop o => Sys2Proof.Machine.execNop o s
  | .exit o => Sys2Proof.Machine.execExit o s
  | .ret o => Sys2Proof.Machine.execRet o s
  | .brx o => Sys2Proof.Machine.execBrx o s
  | .callx o => Sys2Proof.Machine.execCallx o s
  | .lpush o => Sys2Proof.Machine.execLpush o s
  | .lbrk o => Sys2Proof.Machine.execLbrk o s
  | .trapW o => Sys2Proof.Machine.execTrapW o s
  | .bkpt o => Sys2Proof.Machine.execBkpt o s
  | .rti o => Sys2Proof.Machine.execRti o s
  | .gmark o => Sys2Proof.Machine.execGmark o s
  | .gtest o => Sys2Proof.Machine.execGtest o s
  | .gaccept o => Sys2Proof.Machine.execGaccept o s
  | .gdemand o => Sys2Proof.Machine.execGdemand o s
  | .dead o => Sys2Proof.Machine.execDead o s
  | .jmark o => Sys2Proof.Machine.execJmark o s
  | .jwait o => Sys2Proof.Machine.execJwait o s
  | .jclr o => Sys2Proof.Machine.execJclr o s
  | .vany o => Sys2Proof.Machine.execVany o s
  | .vall o => Sys2Proof.Machine.execVall o s
  | .vsame o => Sys2Proof.Machine.execVsame o s
  | .barTm o => Sys2Proof.Machine.execBarTm o s
  | .barCl o => Sys2Proof.Machine.execBarCl o s
  | .barGd o => Sys2Proof.Machine.execBarGd o s
  | .bararrTm o => Sys2Proof.Machine.execBararrTm o s
  | .bararrCl o => Sys2Proof.Machine.execBararrCl o s
  | .barwtTm o => Sys2Proof.Machine.execBarwtTm o s
  | .barwtCl o => Sys2Proof.Machine.execBarwtCl o s
  | .smovRd o => Sys2Proof.Machine.execSmovRd o s
  | .smovWr o => Sys2Proof.Machine.execSmovWr o s
  | .smovV o => Sys2Proof.Machine.execSmovV o s
  | .sysr o => Sys2Proof.Machine.execSysr o s
  | .sysw o => Sys2Proof.Machine.execSysw o s
  | .tsr o => Sys2Proof.Machine.execTsr o s
  | .cyc o => Sys2Proof.Machine.execCyc o s
  | .fflg o => Sys2Proof.Machine.execFflg o s
  | .fclr o => Sys2Proof.Machine.execFclr o s
  | .slp o => Sys2Proof.Machine.execSlp o s
  | .idr o => Sys2Proof.Machine.execIdr o s
  | .fence o => Sys2Proof.Machine.execFence o s
  | .vspill o => Sys2Proof.Machine.execVspill o s
  | .vfill o => Sys2Proof.Machine.execVfill o s
  | .vgrow o => Sys2Proof.Machine.execVgrow o s
  | .vshrink o => Sys2Proof.Machine.execVshrink o s
  | .load o => Sys2Proof.Machine.execLoad o s
  | .uniformLoad o => Sys2Proof.Machine.execUniformLoad o s
  | .prefetch o => Sys2Proof.Machine.execPrefetch o s
  | .store o => Sys2Proof.Machine.execStore o s
  | .uniformStore o => Sys2Proof.Machine.execUniformStore o s
  | .atomic o => Sys2Proof.Machine.execAtomic o s
  | .reduction o => Sys2Proof.Machine.execReduction o s
  | .mma o => Sys2Proof.Machine.execMma o s
  | .mmaMx o => Sys2Proof.Machine.execMmaMx o s
  | .mmsrBf16 o => Sys2Proof.Machine.execMmsrBf16 o s
  | .flkrd o => Sys2Proof.Machine.execFlkrd o s
  | .fidrd o => Sys2Proof.Machine.execFidrd o s
  | .ard o => Sys2Proof.Machine.execArd o s
  | .ast o => Sys2Proof.Machine.execAst o s
  | .azero o => Sys2Proof.Machine.execAzero o s
  | .arel o => Sys2Proof.Machine.execArel o s
  | .xkick o => Sys2Proof.Machine.execXkick o s
  | .owait o => Sys2Proof.Machine.execOwait o s
  | .bobjInit o => Sys2Proof.Machine.execBobjInit o s
  | .bobjArrive o => Sys2Proof.Machine.execBobjArrive o s
  | .bobjWait o => Sys2Proof.Machine.execBobjWait o s
  | .mcfree o => Sys2Proof.Machine.execMcfree o s
  | .tqpush o => Sys2Proof.Machine.execTqpush o s
  | .tqtokRel o => Sys2Proof.Machine.execTqtokRel o s
  | .tqtokAcq o => Sys2Proof.Machine.execTqtokAcq o s
  | .cbset o => Sys2Proof.Machine.execCbset o s
  | .cbwait o => Sys2Proof.Machine.execCbwait o s
  | .loadDeadline core lid => Sys2Proof.Machine.execLoadDeadline core lid s
  | .loadDataArrival core lid => Sys2Proof.Machine.execLoadDataArrival core lid s
  | .certainty core bid => Sys2Proof.Machine.execCertainty core bid s
  | .waitingStepIssue core bid => Sys2Proof.Machine.execWaitingStepIssue core bid s
  | .selectorChoice core sel => Sys2Proof.Machine.execSelectorChoice core sel s
  | .blockPriorityRead core slot start => Sys2Proof.Machine.execBlockPriorityRead core slot start s
  | .entryPromotion core slot start => Sys2Proof.Machine.execEntryPromotion core slot start s
  | .groupDemotion core slot => Sys2Proof.Machine.execGroupDemotion core slot s
  | .liveBitClear core cluster rank => Sys2Proof.Machine.execLiveBitClear core cluster rank s
  | .groupSwapOut core => Sys2Proof.Machine.execGroupSwapOut core s
  | .swapOutComplete core slot => Sys2Proof.Machine.execSwapOutComplete core slot s
  | .groupSwapIn core slot => Sys2Proof.Machine.execGroupSwapIn core slot s
  | .compaction core => Sys2Proof.Machine.execCompaction core s
  | .compactionComplete core => Sys2Proof.Machine.execCompactionComplete core s
  | .controlInterval die => Sys2Proof.Machine.execControlInterval die s
  | .schedulerDecision tc => Sys2Proof.Machine.execSchedulerDecision tc s
  | .argumentRead core slot n => Sys2Proof.Machine.execArgumentRead core slot n s
  | .barrierRelease core bid => Sys2Proof.Machine.execBarrierRelease core bid s
  | .writePerformed core wid => Sys2Proof.Machine.execWritePerformed core wid s
  | .atomicResult core lid => Sys2Proof.Machine.execAtomicResult core lid s
  | .flushMarkerArrival core rid die path => Sys2Proof.Machine.execFlushMarkerArrival core rid die path s
  | .flushReportArrival core rid die => Sys2Proof.Machine.execFlushReportArrival core rid die s
  | .translationWalk core wid victim => Sys2Proof.Machine.execTranslationWalk core wid victim s
  | .dsplitWrite die value => Sys2Proof.Machine.execDsplitWrite die value s
  | .dsplitApply die => Sys2Proof.Machine.execDsplitApply die s
  | .dsplitBusyClear die => Sys2Proof.Machine.execDsplitBusyClear die s
  | .stackLowPowerEntry stack => Sys2Proof.Machine.execStackLowPowerEntry stack s
  | .stackWake stack => Sys2Proof.Machine.execStackWake stack s
  | .matrixWordTake core sel => Sys2Proof.Machine.execMatrixWordTake core sel s
  | .matrixUpdateComplete core => Sys2Proof.Machine.execMatrixUpdateComplete core s
  | .tileEviction core => Sys2Proof.Machine.execTileEviction core s
  | .tileReturn core team => Sys2Proof.Machine.execTileReturn core team s
  | .railLoopWindow core => Sys2Proof.Machine.execRailLoopWindow core s
  | .copyStart core cid => Sys2Proof.Machine.execCopyStart core cid s
  | .copyBurst core cid first count => Sys2Proof.Machine.execCopyBurst core cid first count s
  | .copyRetire core cid => Sys2Proof.Machine.execCopyRetire core cid s
  | .tqpushTimeout core bid => Sys2Proof.Machine.execTqpushTimeout core bid s
  | .cbwaitPoll core bid => Sys2Proof.Machine.execCbwaitPoll core bid s
  | .sleepExpiry core bid => Sys2Proof.Machine.execSleepExpiry core bid s
  | .queueEntryTake queue => Sys2Proof.Machine.execQueueEntryTake queue s
  | .hostQueueDoorbell queue value entries => Sys2Proof.Machine.execHostQueueDoorbell queue value entries s
  | .stealRequest tc victim => Sys2Proof.Machine.execStealRequest tc victim s
  | .stealRetry tc => Sys2Proof.Machine.execStealRetry tc s
  | .droopAlarm tc => Sys2Proof.Machine.execDroopAlarm tc s
  | .stretchEnd tc => Sys2Proof.Machine.execStretchEnd tc s
  | .halvedIssueEnd tc => Sys2Proof.Machine.execHalvedIssueEnd tc s
  | .thermalTrip die temp => Sys2Proof.Machine.execThermalTrip die temp s
  | .collectiveCapRequest member cap => Sys2Proof.Machine.execCollectiveCapRequest member cap s
  | .throttleMemberSilence member => Sys2Proof.Machine.execThrottleMemberSilence member s
  | .rampFill die on => Sys2Proof.Machine.execRampFill die on s
  | .activationWindowAdjust stack awin => Sys2Proof.Machine.execActivationWindowAdjust stack awin s
  | .refreshDerate stack temp => Sys2Proof.Machine.execRefreshDerate stack temp s
  | .registerWrite die number value => Sys2Proof.Machine.execRegisterWrite die number value s
  | .preqGo die value => Sys2Proof.Machine.execPreqGo die value s
  | .exchangeFillComplete core => Sys2Proof.Machine.execExchangeFillComplete core s
  | .exchangeSwap core => Sys2Proof.Machine.execExchangeSwap core s
  | .exchangeSpillComplete core => Sys2Proof.Machine.execExchangeSpillComplete core s
  | .trapEntry core tid => Sys2Proof.Machine.execTrapEntry core tid s
  | .watchdog core slot => Sys2Proof.Machine.execWatchdog core slot s
  | .mirrorCompare core slot thread => Sys2Proof.Machine.execMirrorCompare core slot thread s
  | .mirrorWindowTimeout core slot thread => Sys2Proof.Machine.execMirrorWindowTimeout core slot thread s
  | .uncorrectableError lseq => Sys2Proof.Machine.execUncorrectableError lseq s
  | .bridgeStop bridge => Sys2Proof.Machine.execBridgeStop bridge s
  | .linkNarrow link => Sys2Proof.Machine.execLinkNarrow link s
  | .linkWiden link => Sys2Proof.Machine.execLinkWiden link s
  | .linkRecovery link => Sys2Proof.Machine.execLinkRecovery link s
  | .linkDown link => Sys2Proof.Machine.execLinkDown link s
  | .linkRecovered link lanes => Sys2Proof.Machine.execLinkRecovered link lanes s
  | .peerRecoveringReport rank => Sys2Proof.Machine.execPeerRecoveringReport rank s
  | .peerRequest a => Sys2Proof.Machine.execPeerRequest a s
  | .routerGate die router => Sys2Proof.Machine.execRouterGate die router s
  | .routerWakeSignal die router => Sys2Proof.Machine.execRouterWakeSignal die router s
  | .routerAwake die router => Sys2Proof.Machine.execRouterAwake die router s
  | .escapeDiversion pid => Sys2Proof.Machine.execEscapeDiversion pid s
  | .packetRoute pid choice => Sys2Proof.Machine.execPacketRoute pid choice s
  | .cmdNop q => Sys2Proof.Machine.execCmdNop q s
  | .regwr q => Sys2Proof.Machine.execRegwr q s
  | .regrd q => Sys2Proof.Machine.execRegrd q s
  | .memwr q => Sys2Proof.Machine.execMemwr q s
  | .memrd q => Sys2Proof.Machine.execMemrd q s
  | .qcfg q => Sys2Proof.Machine.execQcfg q s
  | .keyld q => Sys2Proof.Machine.execKeyld q s
  | .keyclr q => Sys2Proof.Machine.execKeyclr q s
  | .tinv q => Sys2Proof.Machine.execTinv q s
  | .feat q => Sys2Proof.Machine.execFeat q s
  | .peercfg q => Sys2Proof.Machine.execPeercfg q s
  | .coll q => Sys2Proof.Machine.execColl q s
  | .collectiveComplete tag inputs agree => Sys2Proof.Machine.execCollectiveComplete tag inputs agree s
  | .fans q => Sys2Proof.Machine.execFans q s
  | .endl q => Sys2Proof.Machine.execEndl q s
  | .reset q start => Sys2Proof.Machine.execReset q start s
  | .ctailDoorbell value entries => Sys2Proof.Machine.execCtailDoorbell value entries s
  | .eackWrite ch value => Sys2Proof.Machine.execEackWrite ch value s
  | .channelRingConfigWrite offset value => Sys2Proof.Machine.execChannelRingConfigWrite offset value s
  | .bar2Access write offset width data => Sys2Proof.Machine.execBar2Access write offset width data s
  | .msixInterrupt => Sys2Proof.Machine.execMsixInterrupt s
  | .channelDatagram g => Sys2Proof.Machine.execChannelDatagram g s
  | .entryResend ch seq => Sys2Proof.Machine.execEntryResend ch seq s
  | .deviceStart start => Sys2Proof.Machine.execDeviceStart start s
  | .tokenBucketRefill tc => Sys2Proof.Machine.execTokenBucketRefill tc s

end Sys2Proof.Machine
end

