-- ==== Sys2Proof/Machine/Step.lean ====
section
/-! DEFINITION. One step: time passes, and then an event occurs or a selector issues the next word of its running bundle. -/

namespace Sys2Proof.Machine

/-- The timestamp and the clock of a tile cluster advanced, with its token bucket; the clock of a stopped die stands (R129, R357, R368, R402). DESIGN CHOICE: the clock of its control complex runs on, as R368 names the die's clocks and R421 gives the control cores one of their own (log entry 77). -/
def passTime (s : State) (ns tc cyc : Nat) : State :=
  let s1 := { s with now := s.now + ns }
  if (dieAt s (tc / 10)).stopped then s1 else refill (modTc s1 tc (Tc.run s1.now cyc)) tc
/-- What has waited for a free walk, for room among the faults or for room for an event made again (R225, R227, R415). -/
def catchUp (s : State) : State := s.channels.foldl (fun a c => settleCmds c.2.cmds.length c.1 a) (retryWaiting s)
/-- Time passes, and with it what depends on time alone: watchdog exclusions, units of status records, stacks that must wake, deadlines that have ended, but for one that an event names, and what has waited for room (R18, R221, R225, R361, R386, R415). -/
def elapse (s : State) (ns tc cyc : Nat) (but : Option (Nat × Nat)) : State := catchUp (expire (wakeStacks (excludeSince s.now (writeUnits (passTime s ns tc cyc)))) but)

/-- A bundle past the words that it has issued, in an outcome. -/
def moveOn (k bid n : Nat) : Host.Outcome State Fault Refusal → Host.Outcome State Fault Refusal
  | .next s => .next (advance s k bid n)
  | .fault f => .fault f
  | .refused r => .refused r

/-- The word at a bundle's position decoded and executed (R30, R54). -/
def issueWord (s : State) (k bid : Nat) (b : Bundle) : Host.Outcome State Fault Refusal :=
  match decodeBundle b with
  | some (i, n) => if b.issued then .next (advance s k bid n) else moveOn k bid n (exec i s)
  | none => .next (commit s k bid b (trapAll b ⟨cILLEGAL, 0, 0, b.pos⟩) false)

/-- Whether a bundle that a selector runs has a word to issue: it does not wait, its selector need not choose anew, its packet goes on, or is the first in its period, and the windows of its groups stand in the store (R174, R178, R189, R192). -/
def mayIssue (s : State) (k sel : Nat) (b : Bundle) : Bool :=
  b.wait.isNone && !b.yield && (b.flow || freshPeriod s k sel) && allGroups (coreAt s k) b fun g => g.swap == .resident && !g.moving
/-- The period noted in which a selector issues a packet, where a bundle's step has issued: it is gone, or stands at another step (R174). -/
def notePacket (k sel bid : Nat) (b : Bundle) (s : State) : State :=
  let issued : Bool := match bundleAt (coreAt s k) bid with
    | none => true
    | some x => x.pc != b.pc || x.stepPos != b.stepPos
  if issued then modCore s k fun c => { c with packetAt := tput c.packetAt sel (cycOf s k) } else s
/-- The same in an outcome. -/
def noted (k sel bid : Nat) (b : Bundle) : Host.Outcome State Fault Refusal → Host.Outcome State Fault Refusal
  | .next s => .next (notePacket k sel bid b s)
  | o => o
/-- The selector that issues now takes its running bundle one word further, at the time as its tile cluster's clock now has it (R174, R371). -/
def issueNow (s : State) : Host.Outcome State Fault Refusal :=
  match running s with
  | none => .next s
  | some (bid, b) =>
    let k := s.cur.1
    if !mayIssue s k s.cur.2 b then .next s
    else
      let s0 := modTc s (tcOf k) (Tc.run s.now 0)
      let s1 := if b.pkt.isNone then fetch s0 k bid b else s0
      noted k s.cur.2 bid b (match bundleAt (coreAt s1 k) bid with
        | none => .next s1
        | some b1 => if b1.pkt.isNone || b1.wait.isSome || b1.yield then .next s1 else issueWord s1 k bid b1)

/-- Whether the issuing selector stands inside a packet whose next step can issue in the same cycle, which no event parts (R11, R174). -/
def midPacket (s : State) : Bool := match running s with
  | some (_, b) => b.flow && b.wait.isNone && !b.yield
  | none => false

/-- Whether a selector has a word to issue. -/
def canIssue (s : State) (k sel : Nat) : Bool := match (runOf (coreAt s k) sel).bind (bundleAt (coreAt s k)) with
  | some b => mayIssue s k sel b && issues s (tcOf k)
  | none => false

/-- The selectors of the listed cores, from after one around to it. -/
def turns (s : State) (cur : Nat × Nat) : List (Nat × Nat) :=
  let all := s.cores.flatMap fun x => [(x.1, 0), (x.1, 1)]
  let later := fun (a : Nat × Nat) => decide (cur.1 < a.1) || (a.1 == cur.1 && decide (cur.2 < a.2))
  all.filter later ++ all.filter fun a => !later a

/-- The step where the agenda names nothing: 1 ns and one period pass; every other ns the next selector issues if one can, and otherwise the next event by the model's own order occurs; where nothing is due, as in a device that has stopped, time alone passes (R404, R422; log entry 2). -/
def freeStep (s : State) : Host.Outcome State Fault Refusal :=
  let s1 := elapse s 1 (tcOf s.cur.1) 1 none
  let next := lfind (fun (a : Nat × Nat) => canIssue s1 a.1 a.2) (turns s1 s1.cur)
  match decide (s.now % 2 = 0), next with
  | true, some a => issueNow { s1 with cur := a }
  | _, _ => match autoEvent s1, next with
    | some i, _ => i s1
    | none, some a => issueNow { s1 with cur := a }
    | none, none => .next s1

/-- The write of a register that a control core has asked for: PREQ_GO, DSPLIT_WRITE or REGISTER_WRITE (R421). -/
def registerNow (k number val : Nat) (s : State) : Host.Outcome State Fault Refusal :=
  if number = 0x190 then execPreqGo (dieOf k) val s
  else if number = 0x1A0 then execDsplitWrite (dieOf k) val s
  else execRegisterWrite (dieOf k) number val s

/-- The load whose deadline an event names. -/
def deadlineNamed : Instr → Option (Nat × Nat)
  | .loadDeadline k l => some (k, l)
  | _ => none

/-- ONE STEP of the machine: a packet under way goes on; otherwise what the agenda lists next occurs, or what is due. -/
def step (s : State) : Host.Outcome State Fault Refusal :=
  if midPacket s then issueNow s
  else match s.agenda with
    | [] => freeStep s
    | .event ns tc cyc i :: r => exec i (elapse { s with agenda := r } ns tc cyc (deadlineNamed i))
    | .register k number val :: r => registerNow k number val { s with agenda := r }
    | .issue ns tc cyc k sel :: r =>
      let s1 := elapse { s with agenda := r, cur := (k, sel) } ns tc cyc none
      if issues s1 (tcOf k) then issueNow s1 else .next s1

/-- The launch, team and group that a placed instruction runs in: one team of one group of 32 threads on core 0, with every register of the largest window (log entry 10). -/
def placedHdr : Hdr :=
  { Hdr.zero with handler := 0xFFFFFFFF, tx := 32, ty := 1, tz := 1, clw := 1, clh := 1, gx := 1, gy := 1, gz := 1, regs := 4, sregs := 384,
                  tsm := 65536, wlim := [0, 0, 0, 0, 0, 0, 0], energy := 1, peakamp := 1, spwin := 16384, wbase := [0, 0, 0, 0], svbase := [0, 0, 0, 0] }
def placedLaunch : Launch :=
  { lseq := 1, queue := 0, hdrVa := 0, root := 0, tag := 0, prio := 0, hdr := placedHdr, dealt := 1, admitted := 1, endedTeams := 0, turn := 0,
    flk := [], checked := 0, tstart := none, status := 0, badoff := 0, replays := 0, producers := [], snap := [], unprotected := false,
    completed := false, heldCrec := none, bitWrites := [], since := 0, code := [] }
def placedTeam : Team :=
  { lseq := 1, idx := 0, core := 0, cluster := 1, rank := 0, slots := [0], flk := [], checked := 0, ended := false, endCyc := [], bitSet := false, role := .plain,
    mate := 0, log := [], place := 0 }
def placedGroup : Group :=
  { uid := 1, lseq := 1, team := 1, gnum := 0, s := [], jm := [], ja := [], frontier := [], spilled := [], subs := [], nextSub := 0, win := 96,
    base := some 0, lvs := 0, ops := [], streak := 0, spinPc := 0, spinDisp := 0, demoted := false, dog := 0, dogOff := 0, dogStop := none, bitten := false, swap := .resident, faults := [],
    moving := false, argsLeft := [], argFailed := none, tiles := [], threads := List.replicate 32 Thread.start }

/-- The machine with an instruction's words placed where the next step fetches: packet 0 of a launch on core 0, sealed and filled with nops. Nothing of a machine's other state changes (log entry 10). -/
def State.withFetchWord (s : State) (nbits w : Nat) : State :=
  let v := w % 2 ^ nbits
  let w1 := if nbits ≤ 32 then 0x5C000000 else v / 2 ^ 32 % 2 ^ 32
  let code := v % 2 ^ 32 + w1 * 2 ^ 32 + 0xDC000000 * 2 ^ 64
  let c := coreAt s 0
  let ctx := { c.ctx with groups := tput c.ctx.groups 0 placedGroup, bundles := tput c.ctx.bundles 0 (newBundle [⟨0, 0xFFFFFFFF⟩] none 0 0 0 0xFFFF s.now), run0 := some 0 }
  { s with mem := memWrite s.mem 0 12 code, keys := tput s.keys 0 0, agenda := [.issue 0 0 0 0 0], cur := (0, 0), launches := tput s.launches 1 placedLaunch,
           teams := tput s.teams 1 placedTeam, clusters := tput s.clusters 1 ⟨1, [1], []⟩, serial := s.serial + 2
           cores := tput s.cores 0 { c with ctx := ctx, packetAt := [], live := [(1, 1)], tlb := ⟨0, 0, 16384, 0x57⟩ :: c.tlb, next := c.next + 1 } }

end Sys2Proof.Machine
end

