-- ==== Sys2Proof/Safety.lean ====
section
/-! DEFINITION. What counts as a safe run, in the terms that claims use: a bundle ready to issue, what a step leaves alone, and the good states of the machine. -/

namespace Sys2Proof.Machine

/-- The issuing core. -/
abbrev State.core (s : State) : Core := coreAt s s.cur.1

/-- The keys of a table strictly rise. -/
def Rising {α : Type} (t : Tab α) : Prop := (t.map (·.1)).Pairwise (· < ·)

/-- The issuing selector runs bundle b, which carries threads m of group g alone and stands at the first word of a step (R172, R174). No other group of the core has g's number. -/
structure Ready (s : State) (bid slot : Nat) (b : Bundle) (g : Group) (m : Word) : Prop where
  launch : isControl s.cur.1 = false
  runs : running s = some (bid, b)
  fresh : b.issued = false
  parts : b.parts = [⟨slot, m⟩]
  held : b.held = []
  segs : b.segs = []
  post : b.post = []
  kept : b.kept = false
  pipes : b.pipes = []
  dsts : b.dsts = []
  wide : b.wide = false
  trapped : b.trapped = []
  some : m ≠ 0
  group : groupAt s.core slot = Option.some g
  lanes : g.threads.length = 32
  rising : Rising s.core.ctx.groups
  only : ∀ x ∈ s.core.ctx.groups, x.2.uid = g.uid → x.1 = slot
  others : ∀ x ∈ s.core.saved.groups ++ s.core.shadow.groups, x.2.uid ≠ g.uid

/-- What the word sees of the bundle's group. -/
def viewAt (s : State) (b : Bundle) (slot : Nat) (g : Group) (m : Word) : View := ⟨s, s.cur.1, s.core, b, slot, g, hdrOf s g.lseq, m⟩

/-- The word ends its step, is legal for the group's window and launch, stands where R32 lets it, and waits for no register (R15, R54). -/
structure Issuable (i : Instr) (s : State) (b : Bundle) (slot : Nat) (g : Group) (m : Word) : Prop where
  last : (shape i).c = false
  legal : (shape i).legal g.win (hdrOf s g.lseq).sregs = true
  place : (shape i).term = true → termOk b (shape i).len = true
  noWait : waitsFor (shape i) (viewAt s b slot g m) = []

/-- No present thread names a lost latch or, where dead reads trap, a dead register (R40, R44, R55). -/
def Readable (i : Instr) (g : Group) (m : Word) : Prop :=
  (shape i).u = false → ∀ j ∈ members m,
    (shape i).srcs.any (srcLost (threadAt g j) (shape i).pipe) = false ∧
    (deadTraps g && (shape i).srcs.any (srcDead (threadAt g j))) = false

/-- Nothing outside core k differs: memory, every other core, and every other part of the device. -/
def OnlyCore (s t : State) (k : Nat) : Prop := t = { s with cores := t.cores } ∧ ∀ j, j ≠ k → coreAt t j = coreAt s j

/-- A thread whose guesses may have settled: its penumbra bits and CG clear, or nothing changes (R20). -/
def Settled (now before : Thread) : Prop := now = before ∨ now = { clearPens before with cg := false }

/-- A group whose guesses may have settled: only penumbra bits, CG and row guess flags clear (R20, R241, R287). -/
structure SettledGroup (now before : Group) : Prop where
  threads : ∀ j, Settled (threadAt now j) (threadAt before j)
  sregs : ∀ n, sreg now n = sreg before n ∨ sreg now n = ⟨(sreg before n).val, false⟩
  cells : ∀ n, (tfind now.tiles n).map (fun t => (t.place, t.cells, t.fresh)) = (tfind before.tiles n).map fun t => (t.place, t.cells, t.fresh)
  rest : now = { before with s := now.s, threads := now.threads, tiles := now.tiles }

/-- A core beyond one group, one bundle and its matrix queues: nothing else differs, but that an overwritten register holds a guess no longer (R20). -/
structure OnlyGroup (c d : Core) (slot bid : Nat) : Prop where
  groups : ∀ q, q ≠ slot → groupAt d q = groupAt c q
  bundles : ∀ q, q ≠ bid → bundleAt d q = bundleAt c q
  loads : d.loads.map (fun l => { l with holds := [] }) = c.loads.map fun l => { l with holds := [] }
  queued : d.ctx.mq0.map (fun w => (w.own, w.slot, w.tile)) = c.ctx.mq0.map (fun w => (w.own, w.slot, w.tile)) ∧
    d.ctx.mq1.map (fun w => (w.own, w.slot, w.tile)) = c.ctx.mq1.map fun w => (w.own, w.slot, w.tile)
  rest : d = { c with ctx := { c.ctx with groups := d.ctx.groups, bundles := d.ctx.bundles, mq0 := d.ctx.mq0, mq1 := d.ctx.mq1, engine := d.ctx.engine },
                      loads := d.loads }

/-- A group as a step without actions leaves it: its threads and scalar registers as given, and the counts that any step restarts (R185, R386). -/
structure Stepped (now before : Group) (th : Nat → Thread → Thread) (sr : Nat → Reg) : Prop where
  threads : ∀ j, j < 32 → threadAt now j = th j (threadAt before j)
  sregs : ∀ n, sreg now n = sr n
  rest : now = { before with s := now.s, threads := now.threads, streak := now.streak, demoted := now.demoted, dog := now.dog, dogOff := now.dogOff, bitten := now.bitten }

/-- A WORD COMPLETES as a step of its own: its group becomes what th and sr say, and its guesses may then settle; its bundle has issued the word; nothing else of the machine differs, memory included. -/
structure Completes (s t : State) (bid slot : Nat) (b : Bundle) (g : Group) (m : Word) (th : Nat → Thread → Thread) (sr : Nat → Reg) : Prop where
  only : OnlyCore s t s.cur.1
  core : OnlyGroup s.core (coreAt t s.cur.1) slot bid
  bundle : bundleAt (coreAt t s.cur.1) bid = some (stayed b [⟨slot, m⟩])
  group : ∃ g1 g2, Stepped g1 g th sr ∧ SettledGroup g2 g1 ∧ groupAt (coreAt t s.cur.1) slot = some g2

/-- The state right after the effects of a step, before its actions and before guesses settle: its group becomes what th and sr make of g, its bundle has issued the word, and guesses held by overwritten registers are forgotten (R20); nothing else of the machine differs. -/
def Takes (s t : State) (bid slot : Nat) (b : Bundle) (g : Group) (m : Word) (th : Nat → Thread → Thread) (sr : Nat → Reg) : Prop :=
  ∃ g1 ls, Stepped g1 g th sr ∧ ls.map (fun l => { l with holds := [] }) = s.core.loads.map (fun l => { l with holds := [] }) ∧
    t = setCore s s.cur.1 { s.core with
      ctx := { s.core.ctx with groups := tput s.core.ctx.groups slot g1, bundles := tput s.core.ctx.bundles bid (stayed b [⟨slot, m⟩]) }, loads := ls }

/-- The state right after a step that every present thread leaves: its group becomes what th makes of g, and its bundle is gone; nothing else of the machine differs. -/
def Leaves (s t : State) (bid slot : Nat) (g : Group) (th : Nat → Thread → Thread) : Prop :=
  ∃ g1 ls, Stepped g1 g th (sreg g) ∧ ls.map (fun l => { l with holds := [] }) = s.core.loads.map (fun l => { l with holds := [] }) ∧
    t = setCore s s.cur.1 (tidyRun (delBundle { s.core with ctx := { s.core.ctx with groups := tput s.core.ctx.groups slot g1 }, loads := ls } bid))

/-- A WORD PERFORMS a step with actions: its group takes the effects, the actions are done in order, each for its thread or for the group, and the group's guesses may then settle. -/
def Performs (s t : State) (bid slot : Nat) (b : Bundle) (g : Group) (m : Word) (th : Nat → Thread → Thread) (sr : Nat → Reg)
    (acts : List (Option Nat × Act)) : Prop :=
  ∃ s1, Takes s s1 bid slot b g m th sr ∧ t = settleAt s.cur.1 slot (acts.foldl (fun a x => doAct a s.cur.1 bid slot m x.1 b.pc x.2) s1)

/-- The machine as a uniform certainty point leaves it where it reads a guess's penumbra: the row guess flags that the group's queued updates would set are cancelled (R246, R287). -/
def State.sure (s : State) (g : Group) (any : Bool) : State := if any then setCore s s.cur.1 { s.core with ctx := s.core.ctx.cancelRg g.uid } else s
/-- The group whose row guess flags such a point has cleared (R287). -/
def Group.sure (g : Group) (any : Bool) : Group := if any then g.clearRg else g

/-- A change of the present threads alone. -/
def inMask (m : Word) (f : Nat → Thread → Thread) (j : Nat) (x : Thread) : Thread := if hasBit m j then f j x else x

/-- The sticky flags that a result raises (R146). -/
def raise (fl : BitVec 5) (pen : Bool) (x : Thread) : Thread := if fl = 0 then x else { x with flg := x.flg ||| fl, fpen := x.fpen || pen }

/-- Consecutive thread registers written (R112). -/
def intoRegs : Nat → List Word → Bool → Thread → Thread
  | _, [], _, x => x
  | d, w :: r, pen, x => intoRegs (d + 1) r pen (setV x d w pen)

/-- Results pushed onto the ring of a pipe, the first one first (R39, R113). -/
def pushAll (pipe : Pipe) : List Word → Bool → Thread → Thread
  | [], _, x => x
  | w :: r, pen, x => pushAll pipe r pen (pushLatch x pipe w pen)

/-- Consecutive scalar registers written; s0 discards (R16). -/
def putScalars : Nat → List Word → Bool → Group → Group
  | _, [], _, g => g
  | d, w :: r, pen, g => putScalars (d + 1) r pen (setS g d w pen)

/-- How a format names the operands of a computing word: its U and N bits, its literal, its sources, its first destination register and how many registers the result takes. -/
structure Form (α : Type) where
  u : α → Bool
  n : α → Bool
  lit : α → Option (BitVec 26)
  srcs : α → List Src
  d : α → Nat
  w : α → Nat

/-- A WORD COMPUTES f of its sources: with U = 0 in each present thread, to its registers unless N is 1 and onto the ring of its pipe, and with U = 1 once, to scalar registers; its flags go to each present thread (R16, R38, R39, R111 to R113, R146). -/
def Computes {α : Type} (fm : Form α) (mk : α → Instr) (pipe : Pipe) (f : α → List Nat → Nat × BitVec 5) : Prop :=
  ∀ (o : α) (s : State) (bid slot : Nat) (b : Bundle) (g : Group) (m : Word),
    Ready s bid slot b g m → Issuable (mk o) s b slot g m →
    (fm.u o = false → Readable (mk o) g m →
      ∃ t, exec (mk o) s = .next t ∧ Completes s t bid slot b g m (inMask m fun j x =>
        let xs := (fm.srcs o).map (readSrc g j x (fm.lit o) pipe)
        let r := f o (xs.map (·.val))
        let ws := regWords (fm.w o) r.1
        let y := raise r.2 (xs.any (·.pen)) x
        pushAll pipe ws (xs.any (·.pen)) (if fm.n o then y else intoRegs (fm.d o) ws (xs.any (·.pen)) y)) (sreg g)) ∧
    (fm.u o = true →
      let xs := (fm.srcs o).map (readSrcU g (fm.lit o))
      let r := f o (xs.map (·.val))
      ∃ t, exec (mk o) s = .next t ∧ Completes s t bid slot b g m (inMask m fun _ => raise r.2 (xs.any (·.pen)))
        (sreg (putScalars (fm.d o) (regWords (fm.w o) r.1) (xs.any (·.pen)) g)))

/-- The word does not end its step: it is chained to the next, is legal for the group's window and launch, and waits for no register (R11, R15, R54). -/
structure Chainable (i : Instr) (s : State) (b : Bundle) (slot : Nat) (g : Group) (m : Word) : Prop where
  on : (shape i).c = true
  legal : (shape i).legal g.win (hdrOf s g.lseq).sregs = true
  place : (shape i).term = true → termOk b (shape i).len = true
  noWait : waitsFor (shape i) (viewAt s b slot g m) = []

/-- A STEP GOES ON past a word: nothing of the machine changes but the bundle, which holds the word's results rs for the end of the step; each is of a present thread or of the group, and none acts, traps or replays (R11, R13, R174). -/
def GoesOn (i : Instr) (s : State) (bid slot : Nat) (b : Bundle) (m : Word) (rs : List Res) : Prop :=
  (∀ r ∈ rs, r.slot = slot ∧ r.acts = [] ∧ r.trap = none ∧ r.replay = false ∧ ∀ j, r.thr = some j → j ∈ members m) ∧
  exec i s = .next (setCore s s.cur.1 (setBundle s.core bid { b with
    issued := true, held := rs, segs := [(b.pos, rs.length)], wide := (shape i).wide, uni := b.uni || (shape i).once, pinned := b.pinned || (shape i).latches,
    wait := none, parked := false, pipes := if (shape i).pipeOf = .none then [] else [(shape i).pipeOf], dsts := (shape i).names }))

/-- What held results make of a group whose step ends: th of its threads, sr of its s registers, and nothing else (R11). -/
def Makes (rs : List Res) (h : Group) (th : Nat → Thread → Thread) (sr : Nat → Reg) : Prop :=
  ∀ now, (∀ j, j < 32 → threadAt (rs.foldl (effsIn now) h) j = th j (threadAt h j)) ∧ (∀ n, sreg (rs.foldl (effsIn now) h) n = sr n) ∧
    rs.foldl (effsIn now) h = { h with s := (rs.foldl (effsIn now) h).s, threads := (rs.foldl (effsIn now) h).threads }

/-- A CHAINED WORD THAT COMPUTES f of its sources as they are when it issues holds its results: one of each present thread, or with U = 1 the group's and one of each present thread; whatever group they take effect in, they write what Computes says (R11, R13, R111). -/
def Chains {α : Type} (fm : Form α) (mk : α → Instr) (pipe : Pipe) (f : α → List Nat → Nat × BitVec 5) : Prop :=
  ∀ (o : α) (s : State) (bid slot : Nat) (b : Bundle) (g : Group) (m : Word),
    Ready s bid slot b g m → Chainable (mk o) s b slot g m →
    (fm.u o = false → Readable (mk o) g m → ∃ rs, GoesOn (mk o) s bid slot b m rs ∧ rs.map (·.thr) = (members m).map some ∧
      ∀ h : Group, h.threads.length = 32 → Makes rs h (inMask m fun j x =>
        let xs := (fm.srcs o).map (readSrc g j (threadAt g j) (fm.lit o) pipe)
        let r := f o (xs.map (·.val))
        let ws := regWords (fm.w o) r.1
        let y := raise r.2 (xs.any (·.pen)) x
        pushAll pipe ws (xs.any (·.pen)) (if fm.n o then y else intoRegs (fm.d o) ws (xs.any (·.pen)) y)) (sreg h)) ∧
    (fm.u o = true → ∃ rs, GoesOn (mk o) s bid slot b m rs ∧ rs.map (·.thr) = none :: (members m).map some ∧
      let xs := (fm.srcs o).map (readSrcU g (fm.lit o))
      let r := f o (xs.map (·.val))
      ∀ h : Group, h.threads.length = 32 → Makes rs h (inMask m fun _ => raise r.2 (xs.any (·.pen)))
        (sreg (putScalars (fm.d o) (regWords (fm.w o) r.1) (xs.any (·.pen)) h)))

/-- No present thread has a guess unresolved or refuted: a certainty point lets each go on at once (R25). -/
def Calm (c : Core) (g : Group) (m : Word) : Prop := ∀ j ∈ members m, unresolved c g j = false ∧ (threadAt g j).rf = false

/-- A release of thread j at a scope has nothing left to wait for: the step has closed its mirror window, or it has none, its earlier writes and its accesses to SO pages are performed, and no die is left to flush (R252, R265, R275). -/
def Drained (v : View) (j scope : Nat) : Prop :=
  unshut v j = false ∧ ownWritesPending v j = false ∧ soPending v j = false ∧ flushDies (threadAt v.g j) scope = []

/-- An acquire of thread j has nothing left to wait for: its earlier reads have their values, and its accesses to SO pages are performed (R252, R265). -/
def Arrived (v : View) (j : Nat) : Prop := readsPending v.c v.g j = false ∧ soPending v j = false

/-- A thread that passes a certainty point which reads penumbra pen (R25). -/
def pastCertainty (pen : Bool) (x : Thread) : Thread :=
  if !pen && !x.cg then { x with rpl := false } else { clearPens x with cg := false, rpl := false }

/-- A WORD OF EACH THREAD: under a condition on what it sees, it completes, each present thread becomes what f says, and no s register changes. -/
def EachDoes {α : Type} (mk : α → Instr) (ok : α → View → Prop) (f : α → View → Nat → Thread → Thread) : Prop :=
  ∀ (o : α) (s : State) (bid slot : Nat) (b : Bundle) (g : Group) (m : Word),
    Ready s bid slot b g m → Issuable (mk o) s b slot g m → Readable (mk o) g m → ok o (viewAt s b slot g m) →
    ∃ t, exec (mk o) s = .next t ∧ Completes s t bid slot b g m (inMask m (f o (viewAt s b slot g m))) (sreg g)

/-- A WORD THAT READS VALUES OUT, where its operands meet ok, with ws for thread i: to v registers from d of each present thread with U = 0, and once to s registers from d, for thread 0, with U = 1 (R111, R123). -/
def ReadsOut {α : Type} (mk : α → Instr) (ok : α → Prop) (u : α → Bool) (d : α → Nat) (ws : α → View → Nat → List Word) (pen : α → View → Bool) : Prop :=
  ∀ (o : α) (s : State) (bid slot : Nat) (b : Bundle) (g : Group) (m : Word),
    Ready s bid slot b g m → Issuable (mk o) s b slot g m → ok o →
    let v := viewAt s b slot g m
    ∃ t, exec (mk o) s = .next t ∧
      if u o then Completes s t bid slot b g m (fun _ x => x) (sreg (putScalars (d o) (ws o v 0) (pen o v) g))
      else Completes s t bid slot b g m (inMask m fun j => intoRegs (d o) (ws o v j) (pen o v)) (sreg g)

/-- A GROUP-WIDE WORD with result f in each present thread: with U = 0 to d, unless N is 1, and onto the ring of its pipe; with U = 1 the result of the highest present thread once, to S[d]; PP joins every penumbra bit (R194, R195). -/
def GroupDoes {α : Type} (mk : α → Instr) (pipe : Pipe) (u n : α → Bool) (d : α → Nat) (f : α → View → Nat → LaneResult) : Prop :=
  ∀ (o : α) (s : State) (bid slot : Nat) (b : Bundle) (g : Group) (m : Word),
    Ready s bid slot b g m → Issuable (mk o) s b slot g m → Readable (mk o) g m →
    let v := viewAt s b slot g m
    let pen := fun (r : LaneResult) => r.pen || presentPen v
    ∃ t, exec (mk o) s = .next t ∧
      if u o then
        let r := f o v ((members m).getLastD 0)
        Completes s t bid slot b g m (inMask m fun _ => raise r.fl (pen r)) (sreg (putScalars (d o) (regWords 1 r.val) (pen r) g))
      else
        Completes s t bid slot b g m (inMask m fun j x =>
          let r := f o v j
          let y := raise r.fl (pen r) x
          pushAll pipe (regWords 1 r.val) (pen r) (if n o then y else intoRegs (d o) (regWords 1 r.val) (pen r) y)) (sreg g)

/-- A COMPARE in each present thread of sources of n registers: the predicate takes the condition and the OR of the sources' penumbra bits, and nothing is pushed (R120, R156). -/
def Compares (mk : OpCmp → Instr) (pipe : Pipe) (n : Nat) (f : OpCmp → List Nat → Bool × BitVec 5) : Prop :=
  EachDoes mk (fun _ _ => True) fun o v j x =>
    let xs := [⟨o.a.toNat, n, true, false⟩, ⟨o.b.toNat, n, true, false⟩].map (readSrc v.g j x o.lit pipe)
    let r := f o (xs.map (·.val))
    setP (raise r.2 (xs.any (·.pen)) x) o.p.toNat r.1 (xs.any (·.pen))

/-- A CHAINED WORD OF EACH THREAD holds one result of each present thread, which makes of that thread, as it is when the word issues, what f says (R11). -/
def ChainsEach {α : Type} (mk : α → Instr) (ok : α → View → Prop) (f : α → View → Nat → Thread → Thread) : Prop :=
  ∀ (o : α) (s : State) (bid slot : Nat) (b : Bundle) (g : Group) (m : Word),
    Ready s bid slot b g m → Chainable (mk o) s b slot g m → Readable (mk o) g m → ok o (viewAt s b slot g m) →
    ∃ rs, GoesOn (mk o) s bid slot b m rs ∧ rs.map (·.thr) = (members m).map some ∧ Makes rs g (inMask m (f o (viewAt s b slot g m))) (sreg g)
/-- A CHAINED COMPARE holds the predicate and flags of each present thread. -/
def ChainsCompare (mk : OpCmp → Instr) (pipe : Pipe) (n : Nat) (f : OpCmp → List Nat → Bool × BitVec 5) : Prop :=
  ChainsEach mk (fun _ _ => True) fun o v j x =>
    let xs := [⟨o.a.toNat, n, true, false⟩, ⟨o.b.toNat, n, true, false⟩].map (readSrc v.g j x o.lit pipe)
    let r := f o (xs.map (·.val))
    setP (raise r.2 (xs.any (·.pen)) x) o.p.toNat r.1 (xs.any (·.pen))

/-- A STEP TRAPS in every present thread with one cause: it has no other effect (R54, R55). -/
def TrapsAll (i : Instr) (s : State) (bid slot : Nat) (b : Bundle) (g : Group) (m : Word) (cause : Nat) : Prop :=
  ∃ t s1, exec i s = .next t ∧ Leaves s s1 bid slot g (fun _ x => x) ∧
    t = settleAt s.cur.1 slot (trapThreads s1 s.cur.1 slot b.sub ((members m).map fun j => (j, ⟨cause, 0, 0, b.pos⟩)) b.stepPos b.pc)

/-- A word whose sources name a lost latch in every present thread takes LATCH_LOST, and where dead reads trap one whose sources name a dead register takes DEAD_READ (R40, R44). -/
def ReadsTrap (i : Instr) (u : Bool) (pipe : Pipe) (srcs : List Src) : Prop :=
  ∀ (s : State) (bid slot : Nat) (b : Bundle) (g : Group) (m : Word), Ready s bid slot b g m → Issuable i s b slot g m → u = false →
    ((∀ j ∈ members m, srcs.any (srcLost (threadAt g j) pipe) = true) → TrapsAll i s bid slot b g m 6) ∧
    (g.lvs.getLsbD 0 = true → (∀ j ∈ members m, srcs.any (srcLost (threadAt g j) pipe) = false ∧ srcs.any (srcDead (threadAt g j)) = true) →
      TrapsAll i s bid slot b g m 5)
/-- So does each word that computes, and each compare. -/
def SourceTraps {α : Type} (fm : Form α) (mk : α → Instr) (pipe : Pipe) (_ : α → List Nat → Nat × BitVec 5) : Prop :=
  ∀ o : α, ReadsTrap (mk o) (fm.u o) pipe (fm.srcs o)
def CompareTraps (mk : OpCmp → Instr) (pipe : Pipe) (n : Nat) (_ : OpCmp → List Nat → Bool × BitVec 5) : Prop :=
  ∀ o : OpCmp, ReadsTrap (mk o) false pipe [⟨o.a.toNat, n, true, false⟩, ⟨o.b.toNat, n, true, false⟩]

/-- What a statement says of each word that computes, of each compare, and of each word of each thread: that it completes, or that a step goes on past it. -/
abbrev Rule := {α : Type} → Form α → (α → Instr) → Pipe → (α → List Nat → Nat × BitVec 5) → Prop
abbrev CompareRule := (OpCmp → Instr) → Pipe → Nat → (OpCmp → List Nat → Bool × BitVec 5) → Prop
abbrev EachRule := {α : Type} → (α → Instr) → (α → View → Prop) → (α → View → Nat → Thread → Thread) → Prop

/-- Operands a and b of na and nb registers, and a result of nd. -/
def formA (na nb nd : Nat) : Form OpA :=
  ⟨(·.u), (·.n), (·.lit), fun o => [⟨o.a.toNat, na, !o.u, false⟩, ⟨o.b.toNat, nb, !o.u, false⟩], fun o => o.d.toNat, fun _ => nd⟩
/-- Operands a and b, with the old d as a third source. -/
def formAd : Form OpA :=
  ⟨(·.u), (·.n), (·.lit), fun o => [⟨o.a.toNat, 1, !o.u, false⟩, ⟨o.b.toNat, 1, !o.u, false⟩, ⟨o.d.toNat, 1, false, false⟩], fun o => o.d.toNat, fun _ => 1⟩
/-- One operand. -/
def formU : Form OpU := ⟨(·.u), (·.n), (·.lit), fun o => [⟨o.a.toNat, 1, !o.u, false⟩], fun o => o.d.toNat, fun _ => 1⟩
/-- Operands a and b of na and nb registers, without a U form; extra names the latches read and rd that d is read. -/
def formF (na nb : Nat) (rd : Bool) (extra : List Nat) : Form OpF :=
  ⟨fun _ => false, (·.n), (·.lit), fun o => [⟨o.a.toNat, na, true, false⟩, ⟨o.b.toNat, nb, true, false⟩] ++
    (if rd then [⟨o.d.toNat, 1, false, false⟩] else []) ++ extra.map (fun x => ⟨x, 1, false, false⟩), fun o => o.d.toNat, fun _ => 1⟩
def formLea (n : Nat) : Form OpLea :=
  ⟨(·.u), (·.n), (·.lit), fun o => [⟨o.a.toNat, n, !o.u, false⟩, ⟨o.b.toNat, 1, !o.u, false⟩], fun o => o.d.toNat, fun _ => n⟩
def formI : Form OpI := ⟨(·.u), fun _ => false, (·.lit), fun o => [⟨o.a.toNat, 1, !o.u, false⟩], fun o => o.d.toNat, fun _ => 1⟩
def formRnd : Form OpRnd := ⟨(·.u), (·.n), (·.lit), fun o => [⟨o.a.toNat, 1, !o.u, false⟩], fun o => o.d.toNat, fun _ => 1⟩
/-- cvt: code 0x0A reads a pair, and code 0x0B writes one (R48). -/
def formCvt : Form OpCvt :=
  ⟨(·.u), (·.n), (·.lit), fun o => [⟨o.a.toNat, if o.b = 10 then 2 else 1, !o.u, false⟩], fun o => o.d.toNat, fun o => if o.b = 11 then 2 else 1⟩

/-- A COMMAND THAT IS DUE does f and is answered by it: the next in sequence of its channel, with a die that is present, no flags, and room for the event that answers it, but for RESET (15), which no event of its own answers; one answered by CMDERR has no other effect (R415, R416). -/
def Commands (op : Nat) (mk : Cmd → Instr) (f : Cmd → State → State × Answer) : Prop :=
  ∀ (q : Cmd) (s : State) (r : List CmdEntry), (channelAt s q.ch).cmds = ⟨op, q.seq, q.die, q.flags, q.length, q.payload⟩ :: r →
    q.seq = (channelAt s q.ch).cdone + 1 → s.boot.up = true → (canSend s q.ch = true ∨ op = 15) → dieOk s q.die = true → q.flags = 0 →
    let s1 := setChannel s q.ch { channelAt s q.ch with cmds := r, cdone := q.seq }
    exec (mk q) s = .next (settleCmds r.length q.ch (match f q s1 with
      | (_, .err c) => answer s1 q (.err c)
      | (t, a) => answer t q a))

end Sys2Proof.Machine
end

