-- ==== Sys2Proof/WellFormed.lean ====
section
/-! DEFINITION. Which instructions are well formed: the operands that some packet can hold and that R54 does not reject whatever the launch. -/

namespace Sys2Proof

/-- Whether an instruction is a word of a packet; an event has no encoding. -/
def Instr.isWord (i : Instr) : Bool := (Machine.shapeOf i).isSome

/-- Whether every operand has a place in the encoding: an MX matrix word has xop 8 to 12, and dead a block up to v80 (R42, R317). -/
def Instr.encodable : Instr → Bool
  | .mmaMx o => decide (o.f.toNat ≤ 4)
  | .dead o => decide (o.k.toNat ≤ 5)
  | i => i.isWord

/-- Whether a word's own fields are assigned (R54). -/
def Instr.fieldsOk (i : Instr) : Bool := (Machine.shape i).ok
/-- Whether U = 1 stands only where the word has a U form, and without N (R38). -/
def Instr.uniformOk (i : Instr) : Bool := let sh := Machine.shape i; !sh.u || (sh.uForm && !sh.n)
/-- Whether the source codes are legal in the largest window with the most s registers (R16, R36). -/
def Instr.sourcesOk (i : Instr) : Bool :=
  let sh := Machine.shape i
  (sh.srcs ++ sh.look).all fun x => if sh.u then Machine.srcOkU sh.lit.isSome 384 x else Machine.srcOk sh.pipe sh.lit.isSome 96 384 x
/-- Whether the destinations are aligned and lie in the largest register files (R16, R36). -/
def Instr.destsOk (i : Instr) : Bool :=
  let sh := Machine.shape i
  sh.dsts.all fun d => d.1 % d.2 == 0 && (if sh.u then decide (d.1 + d.2 ≤ 384) else decide (d.1 ≤ 95) && decide (d.1 + d.2 ≤ 96))
/-- Whether the s registers named by index exist in the largest file (R123 to R125). -/
def Instr.indexOk (i : Instr) : Bool := let sh := Machine.shape i; (sh.sr ++ sh.sw).all fun d => decide (d < 384)
/-- Whether a chained literal is consumed by some operand (R37). -/
def Instr.literalOk (i : Instr) : Bool :=
  let sh := Machine.shape i
  sh.lit.isNone || sh.lits || sh.srcs.any (Machine.Src.takesLit sh.u)

/-- The well-formed words. -/
def Instr.wf (i : Instr) : Bool :=
  i.encodable && i.fieldsOk && i.uniformOk && i.sourcesOk && i.destsOk && i.indexOk && i.literalOk

end Sys2Proof
end

