-- ==== Sys2Proof/Certificates/Slice0/Obligations.lean ====
section
/-! DEFINITION. The statements for the provers. -/

open Sys2Proof Sys2Proof.Machine

/-- R114: each word of majors 1 and 2, and the add of an immediate, computes d from a and b, S reading a source as signed and Z as unsigned; R16, R38, R39, R111 and R113 say where the result goes, and nothing else changes. -/
def Sys2Proof.Claims.IntegerArithmetic (R : Rule) : Prop :=
  R (formA 1 1 1) .iaddI32 .i (fun _ => two32 fun a b => BitVec.ofInt 32 (a.toInt + b.toInt)) ∧
  R (formA 1 1 1) .isubI32 .i (fun _ => two32 fun a b => BitVec.ofInt 32 (a.toInt - b.toInt)) ∧
  R (formA 1 1 1) .imulI32 .i (fun _ => two32 fun a b => BitVec.ofInt 32 (a.toInt * b.toInt)) ∧
  R (formA 1 1 1) .imulhI32 .i (fun _ => two32 fun a b => BitVec.ofInt 32 (a.toInt * b.toInt / 2 ^ 32)) ∧
  R (formA 1 1 1) .imulhN32 .i (fun _ => two32 fun a b => BitVec.ofNat 32 (a.toNat * b.toNat / 2 ^ 32)) ∧
  R (formA 1 1 1) .iabsdI32 .i (fun _ => two32 fun a b => BitVec.ofNat 32 (a.toInt - b.toInt).natAbs) ∧
  R (formA 1 1 1) .iaddsI32 .i (fun _ => two32 fun a b => BitVec.ofInt 32 (max (-(2 ^ 31)) (min (2 ^ 31 - 1) (a.toInt + b.toInt)))) ∧
  R (formA 1 1 1) .isubsI32 .i (fun _ => two32 fun a b => BitVec.ofInt 32 (max (-(2 ^ 31)) (min (2 ^ 31 - 1) (a.toInt - b.toInt)))) ∧
  R (formA 1 1 1) .iminI32 .i (fun _ => two32 fun a b => BitVec.ofInt 32 (min a.toInt b.toInt)) ∧
  R (formA 1 1 1) .imaxI32 .i (fun _ => two32 fun a b => BitVec.ofInt 32 (max a.toInt b.toInt)) ∧
  R (formA 1 1 1) .iminN32 .i (fun _ => two32 fun a b => BitVec.ofNat 32 (min a.toNat b.toNat)) ∧
  R (formA 1 1 1) .imaxN32 .i (fun _ => two32 fun a b => BitVec.ofNat 32 (max a.toNat b.toNat)) ∧
  R formU .iabsI32 .i (fun _ => one32 fun a => BitVec.ofNat 32 a.toInt.natAbs) ∧
  R formU .inegI32 .i (fun _ => one32 fun a => BitVec.ofInt 32 (-a.toInt)) ∧
  R (formA 1 1 1) .iaddsN32 .i (fun _ => two32 fun a b => BitVec.ofNat 32 (min (2 ^ 32 - 1) (a.toNat + b.toNat))) ∧
  R (formA 1 1 1) .isubsN32 .i (fun _ => two32 fun a b => BitVec.ofNat 32 (a.toNat - b.toNat)) ∧
  R formI .iaddiI32 .i (fun o => one32 fun a => BitVec.ofInt 32 (a.toInt + o.i.toInt))

/-- R115: major 5 computes on pairs; its shifts count with the whole of the 32-bit b, and imulw writes the exact product. -/
def Sys2Proof.Claims.PairArithmetic (R : Rule) : Prop :=
  R (formA 2 2 2) .iaddI64 .i (fun _ => two64 fun a b => a + b) ∧
  R (formA 2 2 2) .isubI64 .i (fun _ => two64 fun a b => a - b) ∧
  R (formA 2 2 2) .imulI64 .i (fun _ => two64 fun a b => a * b) ∧
  R (formA 2 1 2) .shlB64 .i (fun _ => pairWith fun a b => BitVec.ofNat 64 (a.toNat * 2 ^ b.toNat)) ∧
  R (formA 2 1 2) .shrN64 .i (fun _ => pairWith fun a b => BitVec.ofNat 64 (a.toNat / 2 ^ b.toNat)) ∧
  R (formA 2 1 2) .shrI64 .i (fun _ => pairWith fun a b => BitVec.ofInt 64 (a.toInt / 2 ^ b.toNat)) ∧
  R (formA 1 1 2) .imulwI32 .i (fun _ => wide32 fun a b => BitVec.ofInt 64 (a.toInt * b.toInt)) ∧
  R (formA 1 1 2) .imulwN32 .i (fun _ => wide32 fun a b => BitVec.ofNat 64 (a.toNat * b.toNat))

/-- R116 and R117: the words of majors 3 and 4 act on bits; a shift counts with the whole of b, a rotation with b[4:0]. -/
def Sys2Proof.Claims.LogicWords (R : Rule) : Prop :=
  R (formA 1 1 1) .andB32 .i (fun _ => two32 fun a b => a &&& b) ∧
  R (formA 1 1 1) .orB32 .i (fun _ => two32 fun a b => a ||| b) ∧
  R (formA 1 1 1) .xorB32 .i (fun _ => two32 fun a b => a ^^^ b) ∧
  R (formA 1 1 1) .andnB32 .i (fun _ => two32 fun a b => a &&& ~~~b) ∧
  R (formA 1 1 1) .ornB32 .i (fun _ => two32 fun a b => a ||| ~~~b) ∧
  R (formA 1 1 1) .xnorB32 .i (fun _ => two32 fun a b => ~~~(a ^^^ b)) ∧
  R formU .notB32 .i (fun _ => one32 fun a => ~~~a) ∧
  R formU .movB32 .i (fun _ => one32 fun a => a) ∧
  R (formA 1 1 1) .shlB32 .i (fun _ => two32 fun a b => BitVec.ofNat 32 (a.toNat * 2 ^ b.toNat)) ∧
  R (formA 1 1 1) .shrN32 .i (fun _ => two32 fun a b => BitVec.ofNat 32 (a.toNat / 2 ^ b.toNat)) ∧
  R (formA 1 1 1) .shrI32 .i (fun _ => two32 fun a b => BitVec.ofInt 32 (a.toInt / 2 ^ b.toNat)) ∧
  R (formA 1 1 1) .rolB32 .i (fun _ => two32 fun a b =>
    BitVec.ofNat 32 (a.toNat * 2 ^ (b.toNat % 32)) ||| BitVec.ofNat 32 (a.toNat / 2 ^ (32 - b.toNat % 32))) ∧
  R formU .popcB32 .i (fun _ => one32 fun a => BitVec.ofNat 32 ((List.range 32).map fun i => bit (a.getLsbD i)).sum) ∧
  R formU .clzB32 .i (fun _ => one32 fun a => BitVec.ofNat 32 (if a = 0 then 32 else 31 - Nat.log2 a.toNat)) ∧
  R formU .brevB32 .i (fun _ => one32 fun a => a.reverse) ∧
  R formU .ffsB32 .i (fun _ => one32 fun a => BitVec.ofNat 32 (((List.range 32).find? fun i => a.getLsbD i).getD 32))

/-- Integer arithmetic on 32 and 64 bits, logic, shifts and counts: IntegerArithmetic, PairArithmetic and LogicWords, each stated above. -/
def Obligations.IntegerWords : Prop :=
  Sys2Proof.Claims.IntegerArithmetic Computes ∧ Sys2Proof.Claims.PairArithmetic Computes ∧ Sys2Proof.Claims.LogicWords Computes

/-- R91, R148 and R154: how near the special functions come to their exact results for a finite operand x that is not zero, an infinity standing for 2^128 and ulp for the spacing of f32 at the exact result: frcp within less than 1 ulp, frsq within 2, fsqrt as near as any f32 value, with NX where it is not exact; fexp2 and flog2 within 2 ulp, and flog2 in [0.5, 2] within 2^-22; fsin, fcos and ftanh within 2^-21, ftanh no further than 1. frcp is exact at ±2^n, frsq at 2^(2n), fexp2 at whole x and flog2 at 2^n. But for fsqrt none raises a flag here. fsin and ftanh are odd bit for bit, and fcos is even. That the bounds of fexp2, flog2, fsin, fcos and ftanh are checked to a fixed precision, so that a result may lie past one by 2^-6 ulp or 2^-28, is the model's choice, as is what frcp gives below 2^-128, of which this says nothing (log entry 7). -/
def Obligations.SpecialBounds : Prop :=
  let val : FVal → ℝ := fun
    | .fin n m e => (if n then -1 else 1) * (m : ℝ) * 2 ^ e
    | .inf n => (if n then -1 else 1) * 2 ^ 128
    | .nan _ => 0
  let at' := fun (y : Nat) => val (decodeF f32 y)
  let ulp := fun (x : ℝ) => (2 : ℝ) ^ max (Int.log 2 |x| - 23) (-149)
  ∀ a : Word, (decodeF f32 a.toNat).isNan = false → (decodeF f32 a.toNat).isInf = false → (decodeF f32 a.toNat).isZero = false →
    let x := at' a.toNat
    let gives := fun (f : Word → Nat × BitVec 5) (ok : ℝ → Prop) => (f a).1 < 2 ^ 32 ∧ (f a).2 = 0 ∧ (decodeF f32 (f a).1).isNan = false ∧ ok (at' (f a).1)
    let within := fun (y d r : ℝ) => |r - y| ≤ d
    let flipped := fun (f : Word → Nat × BitVec 5) => (f (a ^^^ 0x80000000)).1 = (f a).1 ^^^ 2 ^ 31
    (2 ^ (-128 : ℤ) ≤ |x| → gives frcpF fun r => |r - 1 / x| < ulp (1 / x)) ∧
    (∀ n : ℤ, -127 ≤ n → |x| = 2 ^ n → gives frcpF fun r => r = 1 / x) ∧
    (0 < x →
      gives frsqF (within (1 / √x) (2 * ulp (1 / √x))) ∧
      (∀ n : ℤ, x = 2 ^ (2 * n) → gives frsqF fun r => r = 2 ^ (-n)) ∧
      (fsqrtF a).1 < 2 ^ 31 ∧ (decodeF f32 (fsqrtF a).1).isNan = false ∧ (∀ z < 2 ^ 31, (decodeF f32 z).isNan = false → |at' (fsqrtF a).1 - √x| ≤ |at' z - √x|) ∧
      (at' (fsqrtF a).1 ^ 2 = x → (fsqrtF a).2 = 0) ∧ (at' (fsqrtF a).1 ^ 2 ≠ x → (fsqrtF a).2 = flNX) ∧
      (∀ n : ℤ, x = 2 ^ n → gives flog2F fun r => r = n) ∧
      (1 / 2 ≤ x ∧ x ≤ 2 → gives flog2F (within (Real.logb 2 x) (2 ^ (-22 : ℤ) + 2 ^ (-28 : ℤ)))) ∧
      (x < 1 / 2 ∨ 2 < x → gives flog2F (within (Real.logb 2 x) ((2 + 2 ^ (-6 : ℤ)) * ulp (Real.logb 2 x))))) ∧
    (-150 < x → x < 128 → gives fexp2F (within (2 ^ x) ((2 + 2 ^ (-6 : ℤ)) * ulp (2 ^ x)))) ∧
    (∀ n : ℤ, -149 ≤ n → n ≤ 127 → x = n → gives fexp2F fun r => r = 2 ^ n) ∧
    gives fsinF (within (Real.sin x) (2 ^ (-21 : ℤ) + 2 ^ (-28 : ℤ))) ∧ flipped fsinF ∧
    gives fcosF (within (Real.cos x) (2 ^ (-21 : ℤ) + 2 ^ (-28 : ℤ))) ∧ fcosF (a ^^^ 0x80000000) = fcosF a ∧
    gives ftanhF (fun r => within (Real.tanh x) (2 ^ (-21 : ℤ) + 2 ^ (-28 : ℤ)) r ∧ |r| ≤ 1) ∧ flipped ftanhF

/-- R118 and R119: bit fields, bytes, multiply-add and address sums. -/
def Sys2Proof.Claims.FieldWords (R : Rule) : Prop :=
  R (formA 1 1 1) .bfeN32 .i (fun _ => two32 fun a b =>
    BitVec.ofNat 32 (a.toNat / 2 ^ (b.toNat % 256) % 2 ^ min (b.toNat / 256 % 256) 32)) ∧
  R (formA 1 1 1) .bfeI32 .i (fun _ => two32 fun a b =>
    let len := min (b.toNat / 256 % 256) 32
    if len = 0 then 0 else BitVec.ofInt 32 (BitVec.ofInt len (a.toInt / 2 ^ (b.toNat % 256))).toInt) ∧
  R formAd .bfiB32 .i (fun _ => three32 fun a b d =>
    let pos := b.toNat % 256
    let mask : Word := BitVec.ofNat 32 ((2 ^ min (b.toNat / 256 % 256) 32 - 1) * 2 ^ pos)
    (d &&& ~~~mask) ||| (BitVec.ofNat 32 (a.toNat * 2 ^ pos) &&& mask)) ∧
  R formU .bswapB32 .i (fun _ => one32 fun a => a.extractLsb' 0 8 ++ a.extractLsb' 8 8 ++ a.extractLsb' 16 8 ++ a.extractLsb' 24 8) ∧
  R formU .extI8 .i (fun _ => one32 fun a => (a.truncate 8).signExtend 32) ∧
  R formU .extI16 .i (fun _ => one32 fun a => (a.truncate 16).signExtend 32) ∧
  R formAd .imadI32 .i (fun _ => three32 fun a b d => BitVec.ofInt 32 (a.toInt * b.toInt + d.toInt)) ∧
  R (formA 1 1 1) .packB16 .i (fun _ => two32 fun a b => b.extractLsb' 0 16 ++ a.extractLsb' 0 16) ∧
  R (formLea 1) .leaB32 .i (fun o => two32 fun a b => a + b * BitVec.ofNat 32 (2 ^ o.s.toNat)) ∧
  R (formLea 2) .leaI64 .i (fun o => pairWith fun a b => a + b.signExtend 64 * BitVec.ofNat 64 (2 ^ o.s.toNat))

/-- Fields and addresses: FieldWords, each stated above. -/
def Obligations.FieldsAndAddresses : Prop := Sys2Proof.Claims.FieldWords Computes

/-- R148 to R151: f32 arithmetic rounds the exact result once to nearest even, with the flags of Encode; the unary forms move bits only, and give the canonical NaN for a NaN, without a flag; the fused multiply-add takes z from d, or from latch b0 to b3 of the F pipe. fcpysgn takes the sign of any b, a NaN included, and gives the canonical NaN for a NaN in a; that it raises NV for a signalling NaN in a, as R148 has it of a word that R149 does not mark, and nothing for one in b, is the model's choice (log entry 76). -/
def Sys2Proof.Claims.FloatArithmetic (R : Rule) : Prop :=
  let bits := fun (f : Nat → Nat) => fun
    | [a] => (if (decodeF f32 a).isNan then 0x7FC00000 else f a, (0 : BitVec 5))
    | _ => (0, 0)
  let fma := fun (_ : OpA) => fun
    | [a, b, z] => encodeF f32 (sumF [mulF (decodeF f32 a) (decodeF f32 b), decodeF f32 z]) .rn false
    | _ => (0, 0)
  R (formA 1 1 1) .faddF32 .f (fun _ => twoF fun x y => sumF [x, y]) ∧
  R (formA 1 1 1) .fsubF32 .f (fun _ => twoF fun x y => sumF [x, y.negate]) ∧
  R (formA 1 1 1) .fmulF32 .f (fun _ => twoF mulF) ∧
  R (formA 1 1 1) .fminF32 .f (fun _ => pickF f32 false) ∧
  R (formA 1 1 1) .fmaxF32 .f (fun _ => pickF f32 true) ∧
  R formU .fabsF32 .f (fun _ => bits fun a => a % 2 ^ 31) ∧
  R formU .fnegF32 .f (fun _ => bits fun a => (a + 2 ^ 31) % 2 ^ 32) ∧
  R (formA 1 1 1) .fcpysgnF32 .f (fun _ => fun
    | [a, b] => if (decodeF f32 a).isNan then (0x7FC00000, if (decodeF f32 a).isSig then flNV else 0) else (a % 2 ^ 31 + b / 2 ^ 31 % 2 * 2 ^ 31, 0)
    | _ => (0, 0)) ∧
  R formAd .ffmaF32Cd .f fma ∧
  R (formF 1 1 false [96]) .ffmaF32Cb0 .f (fun o => fma ⟨o.c, false, o.d, o.a, o.b, o.n, o.lit⟩) ∧
  R (formF 1 1 false [97]) .ffmaF32Cb1 .f (fun o => fma ⟨o.c, false, o.d, o.a, o.b, o.n, o.lit⟩) ∧
  R (formF 1 1 false [98]) .ffmaF32Cb2 .f (fun o => fma ⟨o.c, false, o.d, o.a, o.b, o.n, o.lit⟩) ∧
  R (formF 1 1 false [99]) .ffmaF32Cb3 .f (fun o => fma ⟨o.c, false, o.d, o.a, o.b, o.n, o.lit⟩)

/-- R150, R152 and R153: the packed words apply their operation to each of two 16-bit elements, each rounded once into its own format, and OR their flags. -/
def Sys2Proof.Claims.FloatPacked (R : Rule) : Prop :=
  let add := fun (f : Fmt) (a b : Nat) => encodeF f (sumF [decodeF f a, decodeF f b]) .rn false
  let mul := fun (f : Fmt) (a b : Nat) => encodeF f (mulF (decodeF f a) (decodeF f b)) .rn false
  let each := fun (f : Nat → Nat → Nat × BitVec 5) => fun
    | [a, b] => let x := f (a % 2 ^ 16) (b % 2 ^ 16); let y := f (a / 2 ^ 16 % 2 ^ 16) (b / 2 ^ 16 % 2 ^ 16)
                (x.1 % 2 ^ 16 + y.1 % 2 ^ 16 * 2 ^ 16, x.2 ||| y.2)
    | _ => (0, (0 : BitVec 5))
  R formAd .ffmaX2bf16Cd .f (fun _ => threeX2 bf16) ∧
  R formAd .ffmaX2f16Cd .f (fun _ => threeX2 f16) ∧
  R (formA 1 1 1) .faddX2bf16 .f (fun _ => each (add bf16)) ∧
  R (formA 1 1 1) .fmulX2bf16 .f (fun _ => each (mul bf16)) ∧
  R (formA 1 1 1) .faddX2f16 .f (fun _ => each (add f16)) ∧
  R (formA 1 1 1) .fmulX2f16 .f (fun _ => each (mul f16)) ∧
  R (formA 1 1 1) .fminX2bf16 .f (fun _ => each (minMaxF bf16 false)) ∧
  R (formA 1 1 1) .fmaxX2bf16 .f (fun _ => each (minMaxF bf16 true)) ∧
  R (formA 1 1 1) .fminX2f16 .f (fun _ => each (minMaxF f16 false)) ∧
  R (formA 1 1 1) .fmaxX2f16 .f (fun _ => each (minMaxF f16 true))

/-- Floating-point arithmetic, scalar and packed: FloatArithmetic and FloatPacked, each stated above. The choices of the model that they rest on are those of log entry 76. -/
def Obligations.FloatWords : Prop :=
  Sys2Proof.Claims.FloatArithmetic Computes ∧ Sys2Proof.Claims.FloatPacked Computes

/-- R154 and R155: the special functions and the shaping words compute from one f32 operand; the values that R154 leaves within a bound are free (log entry 7). -/
def Sys2Proof.Claims.FloatFunctions (R : Rule) : Prop :=
  R formU .frcpF32 .f (fun _ => special frcpF) ∧ R formU .frsqF32 .f (fun _ => special frsqF) ∧
  R formU .fsqrtF32 .f (fun _ => special fsqrtF) ∧ R formU .fexp2F32 .f (fun _ => special fexp2F) ∧
  R formU .flog2F32 .f (fun _ => special flog2F) ∧ R formU .fsinF32 .f (fun _ => special fsinF) ∧
  R formU .fcosF32 .f (fun _ => special fcosF) ∧ R formU .ftanhF32 .f (fun _ => special ftanhF) ∧
  R formRnd .frndF32 .f (fun o => rndF (modeOf o.r.toNat)) ∧ R formU .ffractF32 .f (fun _ => fractF) ∧
  R formU .fclassF32 .f (fun _ => classF) ∧ R formU .fsatF32 .f (fun _ => satF) ∧ R formU .fexpoF32 .f (fun _ => expoF)

/-- R154: the special inputs of the special functions, with their flags: zeros, infinities, NaNs and negative operands. -/
def Sys2Proof.Claims.SpecialInputs : Prop :=
  (∀ f ∈ [frcpF, frsqF, fsqrtF, fexp2F, flog2F, fsinF, fcosF, ftanhF], ∀ x : Word, (decodeF f32 x.toNat).isNan = true →
    f x = (0x7FC00000, if (decodeF f32 x.toNat).isSig then flNV else 0)) ∧
  frcpF 0 = (0x7F800000, flDZ) ∧ frcpF 0x80000000 = (0xFF800000, flDZ) ∧ frcpF 0x7F800000 = (0, 0) ∧ frcpF 0xFF800000 = (0x80000000, 0) ∧
  frsqF 0 = (0x7F800000, flDZ) ∧ frsqF 0x80000000 = (0xFF800000, flDZ) ∧ frsqF 0x7F800000 = (0, 0) ∧
  fsqrtF 0x80000000 = (0x80000000, 0) ∧ fsqrtF 0x7F800000 = (0x7F800000, 0) ∧ fsqrtF 0x40800000 = (0x40000000, 0) ∧
  fexp2F 0xFF800000 = (0, 0) ∧ fexp2F 0x7F800000 = (0x7F800000, 0) ∧ fexp2F 0x43000000 = (0x7F800000, 0) ∧ fexp2F 0xC3160000 = (0, 0) ∧
  flog2F 0 = (0xFF800000, flDZ) ∧ flog2F 0x80000000 = (0xFF800000, flDZ) ∧ flog2F 0x7F800000 = (0x7F800000, 0) ∧
  (∀ f ∈ [frsqF, fsqrtF, flog2F], ∀ x : Word, (decodeF f32 x.toNat).isNeg = true → (decodeF f32 x.toNat).isZero = false → f x = (0x7FC00000, flNV)) ∧
  (∀ f ∈ [fsinF, fcosF], ∀ x : Word, (decodeF f32 x.toNat).isInf = true → f x = (0x7FC00000, flNV)) ∧
  (∀ x ∈ [(0 : Word), 0x80000000], fsinF x = (x.toNat, 0) ∧ ftanhF x = (x.toNat, 0) ∧ fcosF x = (0x3F800000, 0)) ∧
  ftanhF 0x7F800000 = (0x3F800000, 0) ∧ ftanhF 0xFF800000 = (0xBF800000, 0)

/-- R148 and R155: the values of the shaping words from the fields of an f32 operand x, whose sign is n, and whose magnitude is M units of 2^-149: frnd gives the integral value of its mode with the sign of x; ffract x − floor(x), rounded, below 1, with NX where it is not exact; fsat x within 0 and 1; fclass the bit of the class; fexpo the floor of log2 |x|. -/
def Sys2Proof.Claims.ShapingValues : Prop :=
  let field : Nat → Nat := fun a => a / 2 ^ 23 % 256
  let frac : Nat → Nat := fun a => a % 2 ^ 23
  let neg := fun (a : Nat) => decide (a / 2 ^ 31 = 1)
  let units : Nat → Nat := fun a => if field a = 0 then frac a else (2 ^ 23 + frac a) * 2 ^ (field a - 1)
  let value : Nat → Int := fun a => if neg a then -(units a : Int) else (units a : Int)
  let nan := fun (a : Nat) => decide (field a = 255 ∧ frac a ≠ 0)
  let sig := fun (a : Nat) => if nan a ∧ frac a < 2 ^ 22 then flNV else (0 : BitVec 5)
  let integral := fun (mode : Nat) (x : Int) => match mode with
    | 0 => if 2 * (x % 2 ^ 149) < 2 ^ 149 ∨ (2 * (x % 2 ^ 149) = 2 ^ 149 ∧ x / 2 ^ 149 % 2 = 0) then x / 2 ^ 149 else x / 2 ^ 149 + 1
    | 1 => x.tdiv (2 ^ 149)
    | 2 => x / 2 ^ 149
    | _ => -(-x / 2 ^ 149)
  ∀ a < 2 ^ 32,
    (∀ mode < 4,
      if nan a then rndF (modeOf mode) [a] = (0x7FC00000, sig a)
      else if field a = 255 then rndF (modeOf mode) [a] = (a, 0)
      else ∃ r < 2 ^ 32, rndF (modeOf mode) [a] = (r, 0) ∧ field r ≠ 255 ∧ neg r = neg a ∧ units r = (integral mode (value a)).natAbs * 2 ^ 149) ∧
    (if nan a then fractF [a] = (0x7FC00000, sig a)
      else if field a = 255 then fractF [a] = (0x7FC00000, flNV)
      else
        let f : Nat := (value a % 2 ^ 149).toNat
        if f = 0 then fractF [a] = (0, 0)
        else ∃ r, fractF [a] = (r, if units r = f then 0 else flNX) ∧ r = min (encodeF f32 (.fin false f (-149)) .rn false).1 0x3F7FFFFF) ∧
    satF [a] = (if nan a then (0, sig a) else if neg a ∨ a = 0 then (0, 0) else if 0x3F800000 ≤ a then (0x3F800000, 0) else (a, 0)) ∧
    classF [a] = (if nan a then (if frac a < 2 ^ 22 then 2 ^ 8 else 2 ^ 9)
      else if field a = 255 then (if neg a then 2 ^ 0 else 2 ^ 7)
      else if units a = 0 then (if neg a then 2 ^ 3 else 2 ^ 4)
      else if field a = 0 then (if neg a then 2 ^ 2 else 2 ^ 5)
      else if neg a then 2 ^ 1 else 2 ^ 6, 0) ∧
    expoF [a] = (if field a = 255 then 0x7FFFFFFF else if units a = 0 then 0x80000000 else (BitVec.ofInt 32 ((Nat.log2 (units a) : Int) - 149)).toNat, 0)

/-- Special functions, shaping words, their values and special inputs: FloatFunctions, ShapingValues and SpecialInputs, each stated above. The choices of the model that they rest on are those of log entry 7. -/
def Obligations.SpecialFunctions : Prop :=
  Sys2Proof.Claims.FloatFunctions Computes ∧ Sys2Proof.Claims.ShapingValues ∧ Sys2Proof.Claims.SpecialInputs

/-- R48, R95 to R97 and R157: cvt takes the exact value of its source: the low bits of a narrow float format, a signed or unsigned integer, or a power of two; it rounds that value once, in the direction of its minor, into the type that its code names, saturating where the minor says so; CvtInt saturates in any case. -/
def Sys2Proof.Claims.Conversions (R : Rule) : Prop :=
  let low := fun (f : Fmt) (a : Nat) => decodeF f (a % 2 ^ f.width)
  let source := fun (code a : Nat) => match code with
    | 0 => low bf16 a
    | 1 => low f16 a
    | 4 => low f16 a
    | 5 => low bf16 a
    | 6 => ofIntF (BitVec.ofNat 32 a).toInt
    | 7 => ofIntF a
    | 10 => ofIntF (BitVec.ofNat 64 a).toInt
    | 12 => low e4m3 a
    | 13 => low e5m2 a
    | 14 => low e3m2 a
    | 15 => low e2m3 a
    | 16 => low e2m1 a
    | 22 => if a % 256 = 255 then .nan false else .fin false 1 ((a % 256 : Nat) - 127 : Int)
    | _ => low f32 a
  R formCvt .cvt .f (fun o => fun
    | [a] =>
      let x := source o.b.toNat a
      let mode := modeOf o.r.toNat
      let whole := fun (signed : Bool) (w : Nat) => ((BitVec.ofInt w (cvtInt signed w x mode).1).toNat, (cvtInt signed w x mode).2)
      match o.b.toNat with
      | 2 => encodeF bf16 x mode o.s
      | 3 => encodeF f16 x mode o.s
      | 4 => encodeF bf16 x mode o.s
      | 5 => encodeF f16 x mode o.s
      | 8 => whole true 32
      | 9 => whole false 32
      | 11 => whole true 64
      | 17 => encodeF e4m3 x mode o.s
      | 18 => encodeF e5m2 x mode o.s
      | 19 => encodeF e3m2 x mode o.s
      | 20 => encodeF e2m3 x mode o.s
      | 21 => encodeF e2m1 x mode o.s
      | 23 => cvtE8m0 x mode o.s
      | _ => encodeF f32 x mode o.s
    | _ => (0, 0))

/-- R158: the packing conversions encode each element on its own, low element first, and OR the flags: two f32 values of a and b to 16 bits; the four of two pairs to 8 bits, saturating; and the eight e4m3 elements of a and b to e2m1, saturating. -/
def Sys2Proof.Claims.Packing (R : Rule) : Prop :=
  let pack := fun (w : Nat) (xs : List (Nat × BitVec 5)) =>
    (xs.foldr (fun (x : Nat × BitVec 5) (n : Nat) => x.1 % 2 ^ w + 2 ^ w * n) 0, xs.foldl (fun (fl : BitVec 5) x => fl ||| x.2) 0)
  let two := fun (f : Fmt) (_ : OpF) => fun
    | [a, b] => pack 16 ([a, b].map fun x => encodeF f (decodeF f32 x) .rn false)
    | _ => (0, 0)
  let four := fun (f : Fmt) (_ : OpF) => fun
    | [a, b] => pack 8 ([a % 2 ^ 32, a / 2 ^ 32 % 2 ^ 32, b % 2 ^ 32, b / 2 ^ 32 % 2 ^ 32].map fun x => encodeF f (decodeF f32 x) .rn true)
    | _ => (0, 0)
  let eight := fun (_ : OpF) => fun
    | [a, b] => pack 4 ([a, b].flatMap fun x => (List.range 4).map fun k => encodeF e2m1 (decodeF e4m3 (x / 2 ^ (8 * k) % 2 ^ 8)) .rn true)
    | _ => (0, 0)
  R (formF 1 1 false []) .cvtpX2bf16F32 .f (two bf16) ∧
  R (formF 1 1 false []) .cvtpX2f16F32 .f (two f16) ∧
  R (formF 2 2 false []) .cvtpX4e4m3F32 .f (four e4m3) ∧
  R (formF 2 2 false []) .cvtpX4e5m2F32 .f (four e5m2) ∧
  R (formF 1 1 false []) .cvtpX8e2m1X4e4m3 .f eight

/-- R159 and R162: mxq puts the scale that the magnitude b asks for in d[15:8] and the code of a under that scale in d[7:0], or code 0 where the scale is 0xFF or a is no finite number; fscale multiplies a by the power of two of b[7:0], and gives a NaN for 0xFF. -/
def Sys2Proof.Claims.Scaling (R : Rule) : Prop :=
  let signals := fun (xs : List FVal) => if xs.any (·.isSig) then flNV else (0 : BitVec 5)
  let quantised := fun (f : Fmt) (_ : OpF) => fun
    | [a, b] =>
      let v := decodeF f32 a
      let m := decodeF f32 b
      let x := mxScale f [m] 0 254
      if x = 255 ∨ v.isNan = true ∨ v.isInf = true then (256 * x, signals [v, m])
      else
        let r := encodeF f (v.scale (127 - (x : Int))) .rn true
        (256 * x + r.1, r.2)
    | _ => (0, 0)
  R (formF 1 1 false []) .mxqE4m3 .f (quantised e4m3) ∧
  R (formF 1 1 false []) .mxqE5m2 .f (quantised e5m2) ∧
  R (formF 1 1 false []) .mxqE2m1 .f (quantised e2m1) ∧
  R (formF 1 1 false []) .fscaleF32 .f (fun _ => fun
    | [a, b] =>
      let x := decodeF f32 a
      if b % 256 = 255 then (0x7FC00000, signals [x]) else encodeF f32 (x.scale (((b % 256 : Nat) : Int) - 127)) .rn false
    | _ => (0, 0))

/-- R160 and R161: the integer dot products add the products of signed elements to the old d modulo 2^32, without flags; the float ones round the exact sum of the old d and the exact products once. -/
def Sys2Proof.Claims.Dots (R : Rule) : Prop :=
  let part := fun (w x k : Nat) => x / 2 ^ (w * k) % 2 ^ w
  let whole := fun (w n : Nat) (_ : OpF) => fun
    | [a, b, d] =>
      let s := fun (x k : Nat) => (BitVec.ofNat w (part w x k)).toInt
      ((BitVec.ofInt 32 ((BitVec.ofNat 32 d).toInt + ((List.range n).map fun k => s a k * s b k).sum)).toNat, (0 : BitVec 5))
    | _ => (0, 0)
  let float := fun (f : Fmt) (n : Nat) (_ : OpF) => fun
    | [a, b, d] =>
      encodeF f32 (sumF (decodeF f32 d :: (List.range n).map fun k => mulF (decodeF f (part f.width a k)) (decodeF f (part f.width b k)))) .rn false
    | _ => (0, 0)
  R (formF 1 1 true []) .dp4X4i8 .f (whole 8 4) ∧
  R (formF 1 1 true []) .dp8X8i4 .f (whole 4 8) ∧
  R (formF 1 1 true []) .dp4X4e4m3 .f (float e4m3 4) ∧
  R (formF 1 1 true []) .dp4X4e5m2 .f (float e5m2 4) ∧
  R (formF 1 1 true []) .dp8X8e2m1 .f (float e2m1 8) ∧
  R (formF 1 1 true []) .dp2X2bf16 .f (float bf16 2) ∧
  R (formF 1 1 true []) .dp2X2f16 .f (float f16 2)

/-- Conversions, packing, scaling and quantisation, and dot products: Conversions, Packing, Scaling and Dots, each stated above. -/
def Obligations.ConversionsAndDots : Prop :=
  Sys2Proof.Claims.Conversions Computes ∧ Sys2Proof.Claims.Packing Computes ∧ Sys2Proof.Claims.Scaling Computes ∧ Sys2Proof.Claims.Dots Computes

/-- R120: the integer compares write the truth of the condition of R47 on S(a) and S(b), on Z(a) and Z(b), or on pairs; an and nn test the AND of the raw operands. -/
def Sys2Proof.Claims.IntegerCompares (R : CompareRule) : Prop :=
  let cond := fun (k : BitVec 3) (a b : Int) (x y : Nat) =>
    match k.toNat with
    | 0 => decide (a = b)
    | 1 => decide (a ≠ b)
    | 2 => decide (a < b)
    | 3 => decide (a ≤ b)
    | 4 => decide (a > b)
    | 5 => decide (a ≥ b)
    | 6 => decide (x &&& y ≠ 0)
    | _ => decide (x &&& y = 0)
  let onS := fun (w : Nat) (o : OpCmp) => fun
    | [a, b] => (cond o.k (BitVec.ofNat w a).toInt (BitVec.ofNat w b).toInt a b, (0 : BitVec 5))
    | _ => (false, 0)
  let onZ := fun (o : OpCmp) => fun
    | [a, b] => (cond o.k (a : Int) (b : Int) a b, (0 : BitVec 5))
    | _ => (false, 0)
  R .icmpI32 .i 1 (onS 32) ∧ R .icmpN32 .i 1 onZ ∧ R .icmpI64 .i 2 (onS 64) ∧ R .icmpN64 .i 2 onZ

/-- R156: the float compares, with NV for an ordering of a NaN or for a signalling NaN, and nothing pushed. -/
def Sys2Proof.Claims.FloatCompares (R : CompareRule) : Prop :=
  let cmp := fun (f : Fmt) (o : OpCmp) => fun
    | [a, b] =>
      let x := decodeF f (a % 2 ^ f.width)
      let y := decodeF f (b % 2 ^ f.width)
      let nan := x.isNan || y.isNan
      let truth := match o.k.toNat with
        | 0 => !nan && eqF x y
        | 1 => nan || !eqF x y
        | 2 => !nan && ltF x y
        | 3 => !nan && (ltF x y || eqF x y)
        | 4 => !nan && ltF y x
        | 5 => !nan && (ltF y x || eqF x y)
        | 6 => nan
        | _ => !nan
      (truth, if (2 ≤ o.k.toNat ∧ o.k.toNat ≤ 5 ∧ nan = true) ∨ x.isSig = true ∨ y.isSig = true then flNV else 0)
    | _ => (false, (0 : BitVec 5))
  R .fcmpF32 .f 1 (cmp f32) ∧ R .fcmpBf16 .f 1 (cmp bf16) ∧ R .fcmpF16 .f 1 (cmp f16)

/-- R121 and R122: predicate logic negates each operand by its own bit and keeps penumbra bits, and sel chooses by a predicate with the penumbra of all three. -/
def Sys2Proof.Claims.PredicateLogicAndSelect (R : EachRule) : Prop :=
  let logic := fun (f : Bool → Bool → Bool) (o : OpPl) (_ : View) (_ : Nat) (x : Thread) =>
    setP x o.p.toNat (f ((preg x o.q.toNat).val ^^ o.j) ((preg x o.r.toNat).val ^^ o.k)) ((preg x o.q.toNat).pen || (preg x o.r.toNat).pen)
  R .pand (fun _ _ => True) (logic fun a b => a && b) ∧
  R .por (fun _ _ => True) (logic fun a b => a || b) ∧
  R .pxor (fun _ _ => True) (logic fun a b => a ^^ b) ∧
  R .selB32 (fun _ _ => True) (fun o v j x =>
    let a := readSrc v.g j x o.lit .i ⟨o.a.toNat, 1, true, false⟩
    let b := readSrc v.g j x o.lit .i ⟨o.b.toNat, 1, true, false⟩
    let p := preg x o.k.toNat
    let ws := regWords 1 (if p.val then a.val else b.val)
    let pen := a.pen || b.pen || p.pen
    pushAll .i ws pen (if o.n then x else intoRegs o.d.toNat ws pen x))

/-- Compares, predicate logic and select: IntegerCompares, FloatCompares and PredicateLogicAndSelect, each stated above. -/
def Obligations.ComparesAndPredicates : Prop :=
  Sys2Proof.Claims.IntegerCompares Compares ∧ Sys2Proof.Claims.FloatCompares Compares ∧ Sys2Proof.Claims.PredicateLogicAndSelect EachDoes

/-- R197: the exchanges, the broadcast, the ballot, the match and the election over the present threads; PP is in every penumbra bit (R194). -/
def Sys2Proof.Claims.Exchanges : Prop :=
  let a := fun (o : OpF) (v : View) (u : Nat) => readSrc v.g u (threadAt v.g u) o.lit .i ⟨o.a.toNat, 1, true, false⟩
  let b := fun (o : OpF) (v : View) (u : Nat) => readSrc v.g u (threadAt v.g u) o.lit .i ⟨o.b.toNat, 1, true, false⟩
  let src := fun (v : View) (t : Nat) (s : Int) => if 0 ≤ s ∧ s ≤ 31 ∧ s.toNat ∈ members v.mask then s.toNat else t
  let exchange := fun (index : Nat → Nat → Int) (o : OpF) (v : View) (t : Nat) =>
    let x := a o v (src v t (index t (b o v t).val))
    (⟨x.val, x.pen || (b o v t).pen, 0⟩ : LaneResult)
  GroupDoes .xget .i (fun _ => false) (·.n) (·.d.toNat) (exchange fun _ y => (y % 32 : Nat)) ∧
  GroupDoes .xlow .i (fun _ => false) (·.n) (·.d.toNat)
    (exchange fun t y => if y / 32 % 2 = 1 then ((t : Int) - (y % 32 : Nat)) % 32 else (t : Int) - (y % 32 : Nat)) ∧
  GroupDoes .xhigh .i (fun _ => false) (·.n) (·.d.toNat)
    (exchange fun t y => if y / 32 % 2 = 1 then ((t : Int) + (y % 32 : Nat)) % 32 else (t : Int) + (y % 32 : Nat)) ∧
  GroupDoes .xflip .i (fun _ => false) (·.n) (·.d.toNat) (exchange fun t y => (t ^^^ y % 32 : Nat)) ∧
  GroupDoes .gbcast .i (·.u) (·.n) (·.d.toNat) (fun o v _ =>
    let rd := fun (u : Nat) (code : BitVec 7) => if o.u then readSrcU v.g o.lit ⟨code.toNat, 1, false, false⟩
      else readSrc v.g u (threadAt v.g u) o.lit .i ⟨code.toNat, 1, true, false⟩
    let l := (members v.mask).headD 0
    let x := rd (src v l ((rd l o.b).val % 32 : Nat)) o.a
    ⟨x.val, x.pen || (rd l o.b).pen, 0⟩) ∧
  GroupDoes .pmask .i (·.u) (·.n) (·.d.toNat) (fun o v _ =>
    ⟨(((members v.mask).filter fun u => (preg (threadAt v.g u) o.q.toNat).val != o.j).map fun u => 2 ^ u).sum,
      (members v.mask).any fun u => (preg (threadAt v.g u) o.q.toNat).pen, 0⟩) ∧
  GroupDoes .eqset .i (fun _ => false) (·.n) (·.d.toNat) (fun o v t =>
    ⟨(((members v.mask).filter fun u => ((a o v u).val ^^^ (a o v t).val) &&& (b o v t).val == 0).map fun u => 2 ^ u).sum,
      ((members v.mask).any fun u => (a o v u).pen) || (b o v t).pen, 0⟩) ∧
  GroupDoes .gfirst .i (fun _ => false) (·.n) (·.d.toNat) (fun _ v t => ⟨if some t = (members v.mask).head? then 1 else 0, false, 0⟩)

/-- R200: a vote judges the source predicate over the present threads and writes each of them a predicate; its penumbra bit is the OR of theirs and PP. -/
def Sys2Proof.Claims.Votes : Prop :=
  let vote := fun (f : List Bool → Bool) (o : OpVote) (v : View) (_ : Nat) (x : Thread) =>
    let q := fun (u : Nat) => preg (threadAt v.g u) (o.s.toNat % 8)
    setP x o.p.toNat (f ((members v.mask).map fun u => (q u).val != o.s.getLsbD 3)) (((members v.mask).any fun u => (q u).pen) || presentPen v)
  EachDoes .vany (fun _ _ => True) (vote fun xs => xs.any id) ∧
  EachDoes .vall (fun _ _ => True) (vote fun xs => xs.all id) ∧
  EachDoes .vsame (fun _ _ => True) (vote fun xs => xs.all id || xs.all (!·))

/-- Exchanges, masks, election and votes over the present threads: Exchanges and Votes, each stated above. -/
def Obligations.GroupExchanges : Prop :=
  Sys2Proof.Claims.Exchanges ∧ Sys2Proof.Claims.Votes

/-- R198 and R199: reductions and scans over the contributors; the f32 forms add in the fixed tree over thread indexes, each addition rounded once, −0 standing for a thread that does not contribute, or lies above the scan's own; the flags of every addition of the tree are ORed. That FPEN follows the result's penumbra bit is the model's choice (log entry 77). -/
def Obligations.Reductions : Prop :=
  let level := fun (xs : List (Nat × BitVec 5)) => (List.range (xs.length / 2)).map fun i =>
    let x := lget (0, 0) xs (2 * i)
    let y := lget (0, 0) xs (2 * i + 1)
    let r := encodeF f32 (sumF [decodeF f32 x.1, decodeF f32 y.1]) .rn false
    (r.1, x.2 ||| y.2 ||| r.2)
  let tree := fun (limit : Nat) (xs : List (Nat × Nat)) => lget (0, 0) (level (level (level (level (level ((List.range 32).map fun u =>
    (if u ≤ limit then (((xs.filter fun x => x.1 == u).head?).map (·.2)).getD 0x80000000 else 0x80000000, (0 : BitVec 5)))))))) 0
  let rd := fun (pipe : Pipe) (o : OpGr) (v : View) (u : Nat) => if o.u then readSrcU v.g o.lit ⟨o.a.toNat, 1, false, false⟩
    else readSrc v.g u (threadAt v.g u) o.lit pipe ⟨o.a.toNat, 1, true, false⟩
  let from' := fun (o : OpGr) (v : View) => (members v.mask).filter fun u => (preg (threadAt v.g u) o.q.toNat).val != o.j
  let across := fun (pipe : Pipe) (f : OpGr → Nat → List (Nat × Nat) → Nat × BitVec 5) (o : OpGr) (v : View) (t : Nat) =>
    let xs := (from' o v).map fun u => (u, rd pipe o v u)
    let r := f o t (xs.map fun x => (x.1, x.2.val))
    (⟨r.1, (xs.any fun x => x.2.pen) || (members v.mask).any fun u => (preg (threadAt v.g u) o.q.toNat).pen, r.2⟩ : LaneResult)
  let sgn := fun (x : Nat × Nat) => (BitVec.ofNat 32 x.2).toInt
  GroupDoes .gredAddI32 .i (·.u) (·.n) (·.d.toNat) (across .i fun _ _ xs => ((xs.map (·.2)).sum % 2 ^ 32, 0)) ∧
  GroupDoes .gredMinI32 .i (·.u) (·.n) (·.d.toNat) (across .i fun _ _ xs => ((BitVec.ofInt 32 ((xs.map sgn).foldl min (2 ^ 31 - 1))).toNat, 0)) ∧
  GroupDoes .gredMaxI32 .i (·.u) (·.n) (·.d.toNat) (across .i fun _ _ xs => ((BitVec.ofInt 32 ((xs.map sgn).foldl max (-(2 ^ 31)))).toNat, 0)) ∧
  GroupDoes .gredAndB32 .i (·.u) (·.n) (·.d.toNat) (across .i fun _ _ xs => ((xs.map (·.2)).foldl (· &&& ·) 0xFFFFFFFF, 0)) ∧
  GroupDoes .gredOrB32 .i (·.u) (·.n) (·.d.toNat) (across .i fun _ _ xs => ((xs.map (·.2)).foldl (· ||| ·) 0, 0)) ∧
  GroupDoes .gscanAddI32 .i (·.u) (·.n) (·.d.toNat) (across .i fun _ t xs => (((xs.filter fun x => x.1 ≤ t).map (·.2)).sum % 2 ^ 32, 0)) ∧
  GroupDoes .gredAddF32 .f (·.u) (·.n) (·.d.toNat) (across .f fun _ _ xs => tree 31 xs) ∧
  GroupDoes .gscanAddF32 .f (·.u) (·.n) (·.d.toNat) (across .f fun o t xs => tree (if o.u then 31 else t) xs)

/-- R131 and R132: br and call send each thread whose predicate, negated by p[24], is true to P plus the displacement; call also writes LNK := P + 1 there; a guessed predicate sets CG. Each taken target is a block start (R33); a taken branch word is noted once for the spin detector (R185). How a branch word is noted is the model's choice (log entry 44). -/
def Sys2Proof.Claims.Branches : Prop :=
  let does := fun (mk : OpBr → Instr) (link : Bool) =>
    ∀ (o : OpBr) (s : State) (bid slot : Nat) (b : Bundle) (g : Group) (m : Word), Ready s bid slot b g m → Issuable (mk o) s b slot g m →
      let target : Word := b.pc + o.d.signExtend 32
      let q := fun (x : Thread) => preg x (o.p.toNat % 8)
      let taken := fun (x : Thread) => (q x).val != o.p.getLsbD 3
      (∀ j ∈ members m, taken (threadAt g j) = true → isBlockStart s s.cur.1 (hdrOf s g.lseq) target.toNat = true) →
      ∃ t, exec (mk o) s = .next t ∧ Performs s t bid slot b g m (inMask m fun _ x =>
          let y := if (q x).pen then { x with cg := true } else x
          if taken x then { y with xfer := some target, lnk := if link then b.pc + 1 else y.lnk } else y) (sreg g)
        (if (members m).any (fun j => taken (threadAt g j)) then [(none, .spin (o.d.signExtend 32))] else [])
  does .br false ∧ does .call true

/-- R133 and R134: brx and callx go to the packet that x names in each thread, and ret to LNK, after a certainty point; each target is a block start. That brx, callx and ret are noted for the spin detector, as taken branches of no displacement, is the model's choice (log entry 44). -/
def Sys2Proof.Claims.IndirectTransfers : Prop :=
  let jumps := fun (mk : OpX → Instr) (link : Bool) =>
    ∀ (o : OpX) (s : State) (bid slot : Nat) (b : Bundle) (g : Group) (m : Word), Ready s bid slot b g m → Issuable (mk o) s b slot g m →
      Readable (mk o) g m → Calm s.core g m →
      let x := fun (j : Nat) => readSrc g j (threadAt g j) o.lit .s ⟨o.x.toNat, 1, true, false⟩
      (∀ j ∈ members m, isBlockStart s s.cur.1 (hdrOf s g.lseq) (BitVec.ofNat 32 (x j).val).toNat = true) →
      ∃ t, exec (mk o) s = .next t ∧ Performs s t bid slot b g m (inMask m fun j y =>
          let z := pastCertainty (x j).pen y
          { z with xfer := some (BitVec.ofNat 32 (x j).val), lnk := if link then b.pc + 1 else z.lnk }) (sreg g) [(none, .spin 1)]
  jumps .brx false ∧ jumps .callx true ∧
  ∀ (o : OpK) (s : State) (bid slot : Nat) (b : Bundle) (g : Group) (m : Word), Ready s bid slot b g m → Issuable (.ret o) s b slot g m →
    Calm s.core g m → (∀ j ∈ members m, (threadAt g j).lnk ≠ 0xFFFFFFFF ∧
      isBlockStart s s.cur.1 (hdrOf s g.lseq) (threadAt g j).lnk.toNat = true) →
    ∃ t, exec (.ret o) s = .next t ∧ Performs s t bid slot b g m (inMask m fun _ x => { pastCertainty false x with xfer := some x.lnk }) (sreg g) [(none, .spin 1)]

/-- R138 and R134: exit, and ret where LNK is 0xFFFFFFFF, end each present thread once its loads have resolved and its certainty point passes; the bundle is gone. -/
def Sys2Proof.Claims.Exits : Prop :=
  let ends := fun (mk : OpK → Instr) (back : Bool) =>
    ∀ (o : OpK) (s : State) (bid slot : Nat) (b : Bundle) (g : Group) (m : Word), Ready s bid slot b g m → Issuable (mk o) s b slot g m → Calm s.core g m →
      (∀ j ∈ members m, hasLoads s.core g j = false ∧ unshut (viewAt s b slot g m) j = false ∧ (threadAt g j).windows = [] ∧
        (back = true → (threadAt g j).lnk = 0xFFFFFFFF)) →
      ∃ t s1, exec (mk o) s = .next t ∧ Leaves s s1 bid slot g (inMask m fun _ x => pastCertainty false x) ∧
        t = settleAt s.cur.1 slot ((members m).foldl (fun a j => doAct a s.cur.1 bid slot m (some j) b.pc .exit) s1)
  ends .exit false ∧ ends .ret true

/-- R138, R167 and R205: a thread that ends leaves its sub-group, the rejoin masks and the arrivals of its group, and its late-arrival entries are freed; its group goes on while another thread has not ended or a CP, MX or XC operation is outstanding, and otherwise leaves its slot. A team whose last group leaves has ended, and its charge is returned; a launch whose last team ends completes, unless a fault holds its record. -/
def Sys2Proof.Claims.ThreadEnds : Prop :=
  ∀ (s : State) (k bid slot i : Nat) (m pc : Word) (g : Group), groupAt (coreAt s k) slot = some g → g.threads.length = 32 → i < 32 → Rising (coreAt s k).ctx.groups →
    let t := doAct s k bid slot m (some i) pc .exit
    let goesOn := (∃ j < 32, j ≠ i ∧ (threadAt g j).ended = false) ∨ ∃ cls, (cls = 1 ∨ cls = 2 ∨ cls = 3) ∧ opCount g cls ≠ 0
    (∀ e ∈ (coreAt t k).late, ¬(e.own = g.uid ∧ e.thr = some i)) ∧
    (goesOn → t.mem = s.mem ∧ t.launches = s.launches ∧ ∃ h, groupAt (coreAt t k) slot = some h ∧ (∀ j < 32, (threadAt h j).ended = ((threadAt g j).ended || j == i)) ∧
      (∀ n, hasBit (tget 0 h.jm n) i = false ∧ hasBit (tget 0 h.ja n) i = false) ∧ ∀ x ∈ h.subs, hasBit x.2.members i = false) ∧
    (¬ goesOn → groupAt (coreAt t k) slot = none ∧
      ∀ u, teamAt s g.team = some u → u.core = k → u.ended = false →
        ((∃ q ∈ (coreAt s k).ctx.groups, q.1 ≠ slot ∧ q.2.team = g.team) → t.mem = s.mem ∧ t.launches = s.launches ∧ teamAt t g.team = some u) ∧
        ((∀ q ∈ (coreAt s k).ctx.groups, q.2.team = g.team → q.1 = slot) → (∀ q ∈ (coreAt s k).saved.groups ++ (coreAt s k).shadow.groups, q.2.team ≠ g.team) →
          (∃ v, teamAt t g.team = some v ∧ v.ended = true) ∧ (tcAt t (tcOf k)).ic = (tcAt s (tcOf k)).ic - (hdrOf s u.lseq).peakamp ∧
          ∀ l, u.role ≠ .mirror → launchAt s u.lseq = some l → Rising s.launches →
            ∃ x, launchAt t u.lseq = some x ∧ x.endedTeams = l.endedTeams + 1 ∧
              (l.completed = false → l.heldCrec = none → u.lseq ∉ s.retake → l.endedTeams + 1 = l.hdr.gx * l.hdr.gy * l.hdr.gz → l.bitWrites = [] → l.hdr.cbmap = 0 → l.producers = [] →
                x.status = 0 ∧ (x.completed = true ∨ x.heldCrec.isSome = true))))

/-- Branches, calls, indirect transfers, returns and exit, and the end of a thread: Branches, IndirectTransfers, Exits and ThreadEnds, each stated above. The choices of the model that they rest on are those of log entry 44. -/
def Obligations.Transfers : Prop :=
  Sys2Proof.Claims.Branches ∧ Sys2Proof.Claims.IndirectTransfers ∧ Sys2Proof.Claims.Exits ∧ Sys2Proof.Claims.ThreadEnds

/-- R135 to R137: lpush transfers past the end packet on a count of 0, and otherwise pushes an entry, after popping the entries that the new PC leaves; lbrk pops the top entry; nop does nothing. -/
def Sys2Proof.Claims.LoopWords : Prop :=
  (∀ (o : OpLp) (s : State) (bid slot : Nat) (b : Bundle) (g : Group) (m : Word), Ready s bid slot b g m → Issuable (.lpush o) s b slot g m →
    Readable (.lpush o) g m →
    let c := fun (j : Nat) => readSrc g j (threadAt g j) o.lit .s ⟨o.x.toNat, 1, true, false⟩
    let stop : Word := b.pc + 1 + BitVec.ofNat 32 o.e.toNat
    sealedAt s s.cur.1 (hdrOf s g.lseq) stop.toNat = some true →
    (∀ j ∈ members m, (c j).val % 2 ^ 24 ≠ 0 → (popLeft (threadAt g j).loops (b.pc + 1)).length < 4) →
    ∃ t, exec (.lpush o) s = .next t ∧ Completes s t bid slot b g m (inMask m fun j x =>
      let y := if (c j).pen then { x with cg := true } else x
      if (c j).val % 2 ^ 24 = 0 then { y with xfer := some (stop + 1) }
      else { y with xfer := some (b.pc + 1), loops := ⟨b.pc + 1, stop, BitVec.ofNat 24 (c j).val⟩ :: popLeft y.loops (b.pc + 1) }) (sreg g)) ∧
  EachDoes .lbrk (fun _ _ => True) (fun _ _ _ x => { x with loops := x.loops.tail }) ∧
  EachDoes .nop (fun _ _ => True) (fun _ _ _ x => x)

/-- R14, R31, R169, R173 and R174: a bundle that has issued the words of its packet up to a place goes on there, within its step where the word before is chained; past the last word of an unsealed packet it goes on at the next packet; and past that of a sealed one it is gone, and each of its threads joins the entry at its next PC: the target of a taken transfer, with the loops popped that the target leaves; the start of the top loop where the packet ends it and its count, lowered by 1, is not 0, and past it with the loop popped where it is 0; and otherwise the following packet. A thread stands in its entry from the next cycle on. For a bundle of one group, outside a trap handler's sub-group, where no more than 16 entries result. -/
def Sys2Proof.Claims.PacketEnds : Prop :=
  ∀ (s : State) (k bid slot n : Nat) (b : Bundle) (g : Group) (m : Word) (p : Pkt), bundleAt (coreAt s k) bid = some b → b.pkt = some p →
    b.issued = true → b.wait = none → b.kept = false → 1 ≤ n → b.pos + n ≤ 3 →
    let at' := b.pos + n
    let tied := at' ≠ 3 ∧ lget 0 [p.w0, p.w1, p.w2] (at' - 1) / 2 ^ 31 % 2 = 1
    let stands := fun (x : Bundle) => advance s k bid n = modCore s k fun c => setBundle c bid x
    (tied → stands { b with pos := at', issued := false, flow := !b.yield }) ∧
    (¬ tied → at' < 3 → stands { b with pos := at', stepPos := at', issued := false, fresh := false, flow := !b.fresh && !b.yield }) ∧
    (at' = 3 → p.w2 / 2 ^ 31 ≠ 1 → stands { b with pc := b.pc + 1, pos := 0, stepPos := 0, pkt := none, issued := false, flow := false, fresh := false }) ∧
    (at' = 3 → p.w2 / 2 ^ 31 = 1 → b.parts = [⟨slot, m⟩] → b.sub = none → groupAt (coreAt s k) slot = some g → g.threads.length = 32 →
      (g.frontier.map (·.start)).Nodup →
      let next := fun (x : Thread) => match x.xfer, x.loops with
        | some q, ls => (q, ls.filter fun (l : Loop) => decide (l.start.toNat ≤ q.toNat) && decide (q.toNat ≤ l.stop.toNat))
        | none, [] => (b.pc + 1, [])
        | none, l :: r => if l.stop ≠ b.pc then (b.pc + 1, l :: r) else if l.count = 1 then (b.pc + 1, r) else (l.start, { l with count := l.count - 1 } :: r)
      let pcs := (members m).map fun j => (next (threadAt g j)).1
      (g.frontier.map (·.start) ++ pcs).dedup.length ≤ 16 →
      let t := advance s k bid n
      t.mem = s.mem ∧ bundleAt (coreAt t k) bid = none ∧ ∃ h, groupAt (coreAt t k) slot = some h ∧ h.s = g.s ∧
        (∀ j < 32, threadAt h j = if hasBit m j then { threadAt g j with xfer := none, loops := (next (threadAt g j)).2 } else threadAt g j) ∧
        (∀ q, (∃ e ∈ h.frontier, e.start = q) ↔ (∃ e ∈ g.frontier, e.start = q) ∨ q ∈ pcs) ∧
        ∀ e ∈ h.frontier,
          (∀ j < 32, hasBit e.wait j = true ↔ (∃ old ∈ g.frontier, old.start = e.start ∧ hasBit old.wait j = true) ∨ (hasBit m j = true ∧ (next (threadAt g j)).1 = e.start)) ∧
          (e.start ∈ pcs → e.joined = cycOf s k) ∧ (∀ old ∈ g.frontier, old.start = e.start → e.age = old.age) ∧
          ((∀ old ∈ g.frontier, old.start ≠ e.start) → e.age = s.now))

/-- Loop words, nop, and the ends of steps and packets: LoopWords and PacketEnds, each stated above. -/
def Obligations.Loops : Prop := Sys2Proof.Claims.LoopWords ∧ Sys2Proof.Claims.PacketEnds

/-- R139: trap and bkpt take the trap USER or BREAK with their code as INFO, in every present thread, after a certainty point; the step has no other effect. -/
def Sys2Proof.Claims.TrapWords : Prop :=
  let traps := fun (mk : OpCode → Instr) (cause : Nat) =>
    ∀ (o : OpCode) (s : State) (bid slot : Nat) (b : Bundle) (g : Group) (m : Word), Ready s bid slot b g m → Issuable (mk o) s b slot g m →
      Calm s.core g m →
      ∃ t s1, exec (mk o) s = .next t ∧ Leaves s s1 bid slot g (fun _ x => x) ∧
        t = settleAt s.cur.1 slot (trapThreads s1 s.cur.1 slot b.sub ((members m).map fun j => (j, ⟨cause, o.k.toNat, 0, b.pos⟩)) b.stepPos b.pc)
  traps .trapW 0x0E ∧ traps .bkpt 0x0D

/-- R379: rti in a handler, with no guess left, passes its certainty point and returns each present thread from its trap; the bundle is gone. -/
def Sys2Proof.Claims.ReturnWord : Prop :=
  ∀ (o : OpK) (s : State) (bid slot : Nat) (b : Bundle) (g : Group) (m : Word), Ready s bid slot b g m → Issuable (.rti o) s b slot g m →
    Calm s.core g m → (∀ j ∈ members m, (threadAt g j).trap.stat.getLsbD 3 = true) →
    ∃ t s1, exec (.rti o) s = .next t ∧ Leaves s s1 bid slot g (inMask m fun _ x => pastCertainty false x) ∧
      t = settleAt s.cur.1 slot ((members m).foldl (fun a j => returnThread a s.cur.1 slot s.core.next j) s1)

/-- The words that trap and the return from a trap: TrapWords and ReturnWord, each stated above. -/
def Obligations.TrapAndReturnWords : Prop :=
  Sys2Proof.Claims.TrapWords ∧ Sys2Proof.Claims.ReturnWord

/-- R140 and R141: gmark, in the first packet of its block and with no guess left, sets the replay point and its snapshot; gtest writes the penumbra bit of a register to a predicate, and of a dead register false. -/
def Sys2Proof.Claims.GuessMarks : Prop :=
  EachDoes .gmark (fun _ v => v.b.pc = v.b.start ∧ Calm v.c v.g v.mask) (fun _ v _ x =>
    { x with rpc := v.b.pc, rpv := true, snapLoops := x.loops, snapLnk := x.lnk }) ∧
  EachDoes .gtest (fun _ _ => True) (fun o v _ x =>
    let c := o.x.toNat
    setP x o.p.toNat (if o.u then (sreg v.g c).pen else if c ≤ 95 then (vreg x c).pen && !(vreg x c).dead
      else if 100 ≤ c ∧ c ≤ 123 then (sreg v.g (c - 100)).pen else false) false)

/-- R29, R142 and R143: gaccept clears the penumbra bit of a live register that carries one and detaches the load whose guess it holds; gdemand, with no data left to wait for, installs on such a register the data of the load whose guess it holds, passes a certainty point where it holds none, and changes nothing on any other register. -/
def Sys2Proof.Claims.GuessAcceptDemand : Prop :=
  ∀ (o : OpUx) (s : State) (bid slot : Nat) (b : Bundle) (g : Group) (m : Word), Ready s bid slot b g m →
    let d := o.x.toNat
    let held := fun (x : Thread) => (vreg x d).pen && !(vreg x d).dead
    (Issuable (.gaccept o) s b slot g m → ∃ t, exec (.gaccept o) s = .next t ∧
      if o.u then Performs s t bid slot b g m (fun _ x => x) (fun n => if n = d then ⟨(sreg g d).val, false⟩ else sreg g n)
        (if (sreg g d).pen then [(none, .accept d)] else [])
      else Performs s t bid slot b g m (inMask m fun _ x => if held x then { x with v := tmod x.v d fun r => { r with pen := false } } else x) (sreg g)
        (((members m).filter fun j => held (threadAt g j)).map fun j => (some j, .accept d))) ∧
    (Issuable (.gdemand o) s b slot g m → Calm s.core g m → unresolvedS s.core g = false → ∃ t, exec (.gdemand o) s = .next t ∧
      let load := fun (thr : Option Nat) => lfind (fun (l : Load) => l.own == g.uid && l.thr == thr && l.guessed && l.holds.contains d) s.core.loads
      if o.u then
        match (sreg g d).pen, load none with
        | false, _ => Completes s t bid slot b g m (fun _ x => x) (sreg g)
        | true, none => Completes s t bid slot b g m (inMask m fun _ x => pastCertainty true x) (fun n => ⟨(sreg g n).val, false⟩)
        | true, some l => Performs s t bid slot b g m (fun _ x => x) (sreg g) [(none, .install l.num)]
      else Performs s t bid slot b g m (inMask m fun j x => if held x && (load (some j)).isNone then pastCertainty true x else x) (sreg g)
        ((members m).filterMap fun j => if held (threadAt g j) then (load (some j)).map fun l => (some j, .install l.num) else none))

/-- R144 and R42: dead marks the registers v(16 B + i) of its mask in each present thread: their penumbra bits clear, and a read then finds them dead. -/
def Sys2Proof.Claims.DeadMarks : Prop :=
  EachDoes .dead (fun _ _ => True) (fun o _ _ x => (List.range 16).foldl (fun y i =>
    if o.m.getLsbD i then { y with v := tput y.v (16 * o.k.toNat + i) ⟨(vreg y (16 * o.k.toNat + i)).val, false, true⟩ } else y) x)

/-- Replay points, guess tests, acceptance, demand and dead marks: GuessMarks, GuessAcceptDemand and DeadMarks, each stated above. -/
def Obligations.GuessWords : Prop :=
  Sys2Proof.Claims.GuessMarks ∧ Sys2Proof.Claims.GuessAcceptDemand ∧ Sys2Proof.Claims.DeadMarks

/-- R202: jmark ORs the bits of the present threads into its rejoin mask, and changes nothing else. -/
def Sys2Proof.Claims.JoinMark : Prop :=
  ∀ (o : OpJ) (s : State) (bid slot : Nat) (b : Bundle) (g : Group) (m : Word), Ready s bid slot b g m → Issuable (.jmark o) s b slot g m →
    ∃ t, exec (.jmark o) s = .next t ∧
      Completes s t bid slot b { g with jm := tput g.jm o.j.toNat (tget 0 g.jm o.j.toNat ||| m) } m (fun _ x => x) (sreg g)

/-- R202 and R203: jclr clears the present threads from the mask and its arrivals and makes the release check; jwait, with no guess left, clears RPV, makes each present thread arrive, parks the bundle, and makes the check. -/
def Sys2Proof.Claims.JoinWaits : Prop :=
  ∀ (o : OpJ) (s : State) (bid slot : Nat) (b : Bundle) (g : Group) (m : Word), Ready s bid slot b g m →
    let j := o.j.toNat
    (Issuable (.jclr o) s b slot g m → ∃ t, exec (.jclr o) s = .next t ∧
      Performs s t bid slot b { g with jm := tput g.jm j (tget 0 g.jm j &&& ~~~m), ja := tput g.ja j (tget 0 g.ja j &&& ~~~m) } m (fun _ x => x) (sreg g)
        [(none, .joinCheck j)]) ∧
    (Issuable (.jwait o) s b slot g m → Calm s.core g m → ∃ t, exec (.jwait o) s = .next t ∧
      Performs s t bid slot b { g with jm := tput g.jm j (tget 0 g.jm j ||| m), ja := tput g.ja j (tget 0 g.ja j ||| m) } m
        (inMask m fun _ x => { x with rpv := false }) (sreg g) [(none, .park (.jwait j)), (none, .joinCheck j)])

/-- R40 and R203: the release check of mask k leaves everything where a marked thread has not arrived. Where all have, the arrivals clear and the mask keeps its value; of the bundles of the group alone that park at the mask at one packet and word the first goes on with the threads of all, without their latches, once its group can be given the selector, and the others are gone; bundles that wait for no mask stay. That they go on as the first of them, with its number and age, is the model's choice (log entry 76). -/
def Sys2Proof.Claims.JoinReleases : Prop :=
  ∀ (c : Core) (slot k : Nat) (g : Group), groupAt c slot = some g → g.threads.length = 32 → Rising c.ctx.bundles → c.exch ≠ .swap →
    let d := checkJ c slot k
    let waits := fun (x : Bundle) => x.wait = some (.jwait k) ∧ ∃ p ∈ x.parts, p.slot = slot
    let place := fun (x : Bundle) => (x.pc, x.stepPos, x.sub)
    (tget 0 g.jm k &&& ~~~(tget 0 g.ja k) ≠ 0 → d = c) ∧
    (tget 0 g.jm k &&& ~~~(tget 0 g.ja k) = 0 →
      (∃ h, groupAt d slot = some h ∧ h.jm = g.jm ∧ (∀ n, tget 0 h.ja n = if n = k then 0 else tget 0 g.ja n)) ∧
      (∀ bid x, bundleAt c bid = some x → (∀ n, x.wait ≠ some (.jwait n)) → bundleAt d bid = some x) ∧
      ∀ bid b, bundleAt c bid = some b → waits b →
        (∀ q ∈ c.ctx.bundles, waits q.2 → place q.2 = place b → q.2.done = [] ∧ ∃ m, q.2.parts = [⟨slot, m⟩]) →
        ((∃ q ∈ c.ctx.bundles, q.1 < bid ∧ waits q.2 ∧ place q.2 = place b) → bundleAt d bid = none) ∧
        (groupReady g = true → (∀ q ∈ c.ctx.bundles, q.1 < bid → waits q.2 → place q.2 ≠ place b) →
          ∃ m, bundleAt d bid = some { b with parts := [⟨slot, m⟩], wait := none, parked := false, done := [] } ∧
            ∀ j < 32, (hasBit m j = true ↔ ∃ q ∈ c.ctx.bundles, waits q.2 ∧ place q.2 = place b ∧ ∃ p ∈ q.2.parts, hasBit p.mask j = true) ∧
              (hasBit m j = true → ∃ h, groupAt d slot = some h ∧ (threadAt h j).ringI = [] ∧ (threadAt h j).ringF = [])))

/-- The rejoin words and their release check: JoinMark, JoinWaits and JoinReleases, each stated above. The choices of the model that they rest on are those of log entry 76. -/
def Obligations.RejoinWords : Prop :=
  Sys2Proof.Claims.JoinMark ∧ Sys2Proof.Claims.JoinWaits ∧ Sys2Proof.Claims.JoinReleases

/-- R204 and R206: an arrival resolves every guess, releases, clears RPV and sets the arrival bit, and the phase is checked; bar then parks its bundle until the phase completes, unless it just has (R279); barwt passes where its threads have not arrived in an open phase. The hypotheses say that no release, guess or read is left to wait for. -/
def Sys2Proof.Claims.Barriers : Prop :=
  let arrives := fun (i : Instr) (kind n scope : Nat) (wait : Bool) =>
    ∀ (s : State) (bid slot : Nat) (b : Bundle) (g : Group) (m : Word), Ready s bid slot b g m → Issuable i s b slot g m → Calm s.core g m →
      (kind = 2 → (hdrOf s g.lseq).cor = true) → (∀ j ∈ members m, arrived (threadAt g j) kind n = false ∧ Drained (viewAt s b slot g m) j scope) →
      ∃ t, exec i s = .next t ∧
        Performs s t bid slot b g m (inMask m fun _ x => setArrived { pastCertainty true x with rpv := false } kind n true) (sreg g)
          ((none, .barrier kind n) :: if wait then [(none, .park (.barrier kind n))] else [])
  let passes := fun (i : Instr) (kind n : Nat) =>
    ∀ (s : State) (bid slot : Nat) (b : Bundle) (g : Group) (m : Word), Ready s bid slot b g m → Issuable i s b slot g m → Calm s.core g m →
      (∀ j ∈ members m, arrived (threadAt g j) kind n = false ∧ Arrived (viewAt s b slot g m) j) →
      ∃ t, exec i s = .next t ∧ Completes s t bid slot b g m (inMask m fun _ x => pastCertainty false x) (sreg g)
  ∀ (o : OpBar) (k : OpK),
    arrives (.barTm o) 0 o.n.toNat 2 true ∧ arrives (.barCl o) 1 o.n.toNat 4 true ∧ arrives (.barGd k) 2 0 6 true ∧
    arrives (.bararrTm o) 0 o.n.toNat 2 false ∧ arrives (.bararrCl o) 1 o.n.toNat 4 false ∧
    passes (.barwtTm o) 0 o.n.toNat ∧ passes (.barwtCl o) 1 o.n.toNat

/-- R204 and R205: a barrier covers its team, the teams of its cluster, or every team of the grid but the mirrors. The check of its phase leaves everything where a thread of theirs that has not ended has not arrived; where all have, it clears the arrival bit of each of their threads, wherever their contexts lie, and nothing else. -/
def Sys2Proof.Claims.PhaseCompletes : Prop :=
  (∀ (s : State) (u : Nat) (t : Team), teamAt s u = some t →
    barrierTeams s u 0 = [u] ∧ (∀ cl, tfind s.clusters t.cluster = some cl → barrierTeams s u 1 = cl.teams) ∧
    ∀ v, v ∈ barrierTeams s u 2 ↔ ∃ x, (v, x) ∈ s.teams ∧ x.lseq = t.lseq ∧ x.role ≠ .mirror) ∧
  ∀ (s : State) (u kind n : Nat), kind ≤ 2 → n < 16 →
    let us := barrierTeams s u kind
    let open' := ∃ v ∈ us, ∃ t, teamAt s v = some t ∧ ∃ x : Ctx, (x = (coreAt s t.core).ctx ∨ x = (coreAt s t.core).saved ∨ x = (coreAt s t.core).shadow) ∧
      ∃ q ∈ x.groups, q.2.team = v ∧ ∃ y ∈ q.2.threads, y.ended = false ∧ arrived y kind n = false
    (open' → checkPhase s u kind n = s) ∧
    (¬ open' →
      let clear := fun (k : Nat) (g : Group) => if us.any (fun v => v == g.team && (teamAt s v).any fun t => t.core == k) then
        { g with threads := g.threads.map fun y => match kind with
          | 0 => { y with arrTm := y.arrTm &&& ~~~(BitVec.ofNat 16 (2 ^ n)) }
          | 1 => { y with arrCl := y.arrCl &&& ~~~(BitVec.ofNat 16 (2 ^ n)) }
          | _ => { y with arrGd := false } } else g
      let ctx := fun (k : Nat) (x : Ctx) => { x with groups := tmap x.groups fun _ g => clear k g }
      checkPhase s u kind n = { s with cores := (checkPhase s u kind n).cores } ∧
      ∀ k, coreAt (checkPhase s u kind n) k = { coreAt s k with
        ctx := ctx k (coreAt s k).ctx, saved := ctx k (coreAt s k).saved, shadow := ctx k (coreAt s k).shadow })

/-- R252: a fence that has nothing left to wait for is a certainty point and changes nothing else. -/
def Sys2Proof.Claims.Fences : Prop :=
  EachDoes .fence (fun o v => Calm v.c v.g v.mask ∧ ∀ j ∈ members v.mask, Drained v j o.s.toNat ∧ Arrived v j)
    (fun _ _ _ x => pastCertainty false x)

/-- Barriers and fences with nothing left to wait for, and the completion of a phase: Barriers, PhaseCompletes and Fences, each stated above. -/
def Obligations.BarriersAndFences : Prop :=
  Sys2Proof.Claims.Barriers ∧ Sys2Proof.Claims.PhaseCompletes ∧ Sys2Proof.Claims.Fences

/-- R123 to R125: smov.rd reads S[I] with its penumbra bit, smov.wr writes it once from an s register or a literal, and smov.v from the lowest present thread, with PP; a write to s0 is discarded and s0 reads zero. -/
def Obligations.ScalarMoves : Prop :=
  ReadsOut .smovRd (fun _ => True) (·.u) (·.x.toNat) (fun o v _ => [(sreg v.g o.i.toNat).val]) (fun o v => (sreg v.g o.i.toNat).pen) ∧
  (∀ g : Group, sreg g 0 = ⟨0, false⟩ ∧ ∀ x p, setS g 0 x p = g) ∧
  ∀ (o : OpSw) (s : State) (bid slot : Nat) (b : Bundle) (g : Group) (m : Word), Ready s bid slot b g m →
    (Issuable (.smovWr o) s b slot g m →
      let x := readSrcU g o.lit ⟨o.x.toNat, 1, true, false⟩
      ∃ t, exec (.smovWr o) s = .next t ∧ Completes s t bid slot b g m (fun _ y => y) (sreg (setS g o.i.toNat (BitVec.ofNat 32 x.val) x.pen))) ∧
    (Issuable (.smovV o) s b slot g m → Readable (.smovV o) g m →
      let l := (members m).headD 0
      let x := readSrc g l (threadAt g l) o.lit .s ⟨o.x.toNat, 1, false, false⟩
      ∃ t, exec (.smovV o) s = .next t ∧ Completes s t bid slot b g m (fun _ y => y)
        (sreg (setS g o.i.toNat (BitVec.ofNat 32 x.val) (x.pen || (members m).any fun j => (threadAt g j).cg))))

/-- R126, R127, R373 and R388: sysr reads each register that a launch may read, and no result carries a penumbra bit; a mirror reads its primary's core and trap time. R388 says that a mirror's sysr returns the primary's values; that this concerns the core and the trap time alone, and the moment at which they are taken, is the model's choice (log entry 62). -/
def Sys2Proof.Claims.SystemReads : Prop :=
  let flags := fun (xs : List Bool) => (xs.foldr (fun b n => bit b + 2 * n) 0 : Nat)
  (∀ (n : Nat) (val : View → Word), (n, val) ∈ [
      (0x001, fun v => BitVec.ofNat 32 v.g.gnum), (0x002, fun v => BitVec.ofNat 32 v.team.idx), (0x003, fun v => BitVec.ofNat 32 v.team.rank),
      (0x004, fun v => BitVec.ofNat 32 (if v.team.role = .mirror then ((teamAt v.s v.team.mate).map (·.core)).getD v.k else v.k)),
      (0x005, fun v => BitVec.ofNat 32 v.g.lseq), (0x006, fun v => BitVec.ofNat 32 (v.h.gx * v.h.gy * v.h.gz)),
      (0x010, fun v => v.g.lvs), (0x011, fun v => BitVec.ofNat 32 v.g.win), (0x012, fun v => BitVec.ofNat 32 v.h.sregs),
      (0x040, fun v => BitVec.ofNat 32 v.h.handler)] ++ (List.range 7).map (fun w => (0x018 + w, fun v => BitVec.ofNat 32 (lget 0 v.h.wlim w))) →
    ReadsOut .sysr (fun o => o.n.toNat = n) (·.u) (·.x.toNat) (fun _ v _ => [val v]) (fun _ _ => false)) ∧
  (∀ (n : Nat) (val : Thread → Word), (n, val) ∈ [
      (0x008, fun t => t.lnk), (0x009, fun t => t.rpc), (0x00A, fun t => BitVec.ofNat 32 (flags [t.rpv, t.rf, t.cg, t.rpl])),
      (0x00B, fun t => BitVec.ofNat 32 t.loops.length), (0x041, fun t => t.trap.cause), (0x042, fun t => t.trap.pc), (0x043, fun t => t.trap.stat),
      (0x044, fun t => t.trap.addr.extractLsb' 0 32), (0x045, fun t => t.trap.addr.extractLsb' 32 32),
      (0x048, fun t => t.trap.lnk), (0x049, fun t => t.trap.gst)] →
    EachDoes .sysr (fun o _ => o.n.toNat = n) (fun o _ _ x => setV x o.x.toNat (val x) false)) ∧
  (let time := fun (v : View) (j : Nat) (x : Thread) => match v.team.role, partner v.s v.g with
      | .mirror, some (_, p) => (threadAt p j).trap.ts
      | _, _ => x.trap.ts
   EachDoes .sysr (fun o _ => o.n.toNat = 0x046) (fun o v j x => setV x o.x.toNat ((time v j x).extractLsb' 0 32) false) ∧
   EachDoes .sysr (fun o _ => o.n.toNat = 0x047) (fun o v j x => setV x o.x.toNat ((time v j x).extractLsb' 32 32) false))

/-- R126, R127 and R373: sysw writes LNK, RES of tstat in a handler, and bit 0 of lvsmode, each after a certainty point, and leaves every other bit as it is. -/
def Sys2Proof.Claims.SystemWrites : Prop :=
  ∀ (o : OpSys) (s : State) (bid slot : Nat) (b : Bundle) (g : Group) (m : Word), Ready s bid slot b g m → Issuable (.sysw o) s b slot g m →
    Readable (.sysw o) g m → Calm s.core g m →
    let x := fun (j : Nat) => readSrc g j (threadAt g j) o.lit .s ⟨o.x.toNat, 1, true, false⟩
    (o.n = 0x008 → ∃ t, exec (.sysw o) s = .next t ∧
      Completes s t bid slot b g m (inMask m fun j y => { pastCertainty (x j).pen y with lnk := BitVec.ofNat 32 (x j).val }) (sreg g)) ∧
    (o.n = 0x043 → (∀ j ∈ members m, (threadAt g j).trap.stat.getLsbD 3 = true) → ∃ t, exec (.sysw o) s = .next t ∧
      Completes s t bid slot b g m (inMask m fun j y =>
        let z := pastCertainty (x j).pen y
        { z with trap := { z.trap with stat := (z.trap.stat &&& ~~~4) ||| (BitVec.ofNat 32 (x j).val &&& 4) } }) (sreg g)) ∧
    (o.n = 0x010 → unresolvedS s.core g = false →
      let y := readSrcU g o.lit ⟨o.x.toNat, 1, true, false⟩
      let pen := y.pen || (members m).any fun j => (threadAt g j).cg
      ∃ t, exec (.sysw o) s = .next t ∧ Completes s t bid slot b { g with lvs := BitVec.ofNat 32 (y.val % 2) } m
        (inMask m fun _ z => if pen then pastCertainty true z else { z with rpl := false }) (fun n => if pen then ⟨(sreg g n).val, false⟩ else sreg g n))

/-- Reads and writes of system registers: SystemReads and SystemWrites, each stated above. The choices of the model that they rest on are those of log entry 62. -/
def Obligations.SystemRegisters : Prop :=
  Sys2Proof.Claims.SystemReads ∧ Sys2Proof.Claims.SystemWrites

/-- R128, R129, R130 and R147: identity, the timestamp and CYC, sleeping, and the sticky flags. That tsr reads one count, State.now, on every die is the model's choice (log entry 59). -/
def Sys2Proof.Claims.IdentityTimeFlags : Prop :=
  let halves := fun (n : Nat) => [BitVec.ofNat 32 n, (BitVec.ofNat 32 (n / 2 ^ 32) : Word)]
  ReadsOut .tsr (fun _ => True) (·.u) (·.x.toNat) (fun _ v _ => halves v.s.now) (fun _ _ => false) ∧
  ReadsOut .cyc (fun _ => True) (·.u) (·.x.toNat) (fun _ v _ => halves (cycOf v.s v.k)) (fun _ _ => false) ∧
  ReadsOut .idr (fun _ => True) (·.u) (·.x.toNat) (fun o v i =>
    let l := 32 * v.g.gnum + i
    [BitVec.ofNat 32 (match o.s.toNat with
      | 0 => v.team.idx % v.h.gx
      | 1 => v.team.idx / v.h.gx % v.h.gy
      | 2 => v.team.idx / (v.h.gx * v.h.gy)
      | 3 => l % v.h.tx
      | 4 => l / v.h.tx % v.h.ty
      | 5 => l / (v.h.tx * v.h.ty)
      | 6 => v.team.rank % v.h.clw
      | _ => v.team.rank / v.h.clw)]) (fun _ _ => false) ∧
  EachDoes .fflg (fun _ _ => True) (fun o _ _ x => setV x o.x.toNat (x.flg.zeroExtend 32) x.fpen) ∧
  EachDoes .fclr (fun _ _ => True) (fun o _ _ x => { x with flg := x.flg &&& ~~~o.f, fpen := x.fpen && x.flg &&& ~~~o.f != 0 }) ∧
  ∀ (o : OpX) (s : State) (bid slot : Nat) (b : Bundle) (g : Group) (m : Word), Ready s bid slot b g m → Issuable (.slp o) s b slot g m →
    Readable (.slp o) g m →
    let ns := fun (j : Nat) => (readSrc g j (threadAt g j) o.lit .s ⟨o.x.toNat, 1, true, false⟩).val
    ∃ t, exec (.slp o) s = .next t ∧
      Performs s t bid slot b g m (inMask m fun j x => if ns j = 0 then x else { x with sleep := some (s.now + ns j) }) (sreg g)
        (((members m).filter fun j => ns j != 0).map fun j => (some j, .park .slp))

/-- R325 and R327: flkrd and fidrd read the team's flicker counters, the fidelity level, the rail setpoints and the MACs checked; owait completes where the group has no more than its limit outstanding. -/
def Sys2Proof.Claims.CounterReads : Prop :=
  ReadsOut .flkrd (fun _ => True) (·.u) (·.d.toNat) (fun o v _ => [tget 0 v.team.flk o.j.toNat]) (fun _ _ => false) ∧
  ReadsOut .fidrd (fun _ => True) (·.u) (·.d.toNat) (fun o v _ => [BitVec.ofNat 32 (match o.k.toNat with
    | 0 => v.h.fid
    | 4 => v.team.checked
    | 5 => v.team.checked / 2 ^ 32
    | k => if v.h.fid = 0 then Config.nominalRail else tget Config.nominalRail v.c.sp (4 * (k - 1) + v.h.fid))]) (fun _ _ => false) ∧
  ∀ (o : OpOw) (s : State) (bid slot : Nat) (b : Bundle) (g : Group) (m : Word), Ready s bid slot b g m → Issuable (.owait o) s b slot g m →
    opCount g o.k.toNat ≤ o.n.toNat → ∃ t, exec (.owait o) s = .next t ∧ Completes s t bid slot b g m (fun _ x => x) (sreg g)

/-- Identity, time, sleep, flags and engine counters: IdentityTimeFlags and CounterReads, each stated above. The choices of the model that they rest on are those of log entry 59. -/
def Obligations.IdentityTimeCounters : Prop :=
  Sys2Proof.Claims.IdentityTimeFlags ∧ Sys2Proof.Claims.CounterReads

/-- R254, R255, R258 and R259: vspill writes one record of a register of the whole group to its slot, and in a mirror pair adds an item of that record to each present thread's stream; vfill asks for the record there, and once it has been read the value and the dead mark of each present thread's register are its part of it, as its penumbra bit is until the group's guesses settle, which this does not say; vgrow and vshrink change the window, and do nothing where it already is as large or as small. The permissions with which a slot is reached, the units of its record, and the check of a vfill's format byte when it issues are the model's choices (log entries 57, 69 and 70). -/
def Sys2Proof.Claims.SpillsAndSizes : Prop :=
  (∀ (o : OpSpl) (s : State) (bid slot : Nat) (b : Bundle) (g : Group) (m : Word) (ps : List Piece), Ready s bid slot b g m →
    let v := viewAt s b slot g m
    let va := v.h.spbase + 8192 * (32 * v.team.idx + g.gnum) + 512 + 160 * o.k.toNat
    (Issuable (.vspill o) s b slot g m → ((List.range 32).all fun i => !pendingReg s.core g ⟨slot, some i, o.x.toNat⟩) = true →
      let r := columnRecord ((List.range 32).map fun i => if (threadAt g i).ended then ⟨0, false, true⟩ else vreg (threadAt g i) o.x.toNat)
      (span v none 6 false 0 va r.2).cut 4 = .at' ps → orderBlocked v none ps = false →
      ∃ t, exec (.vspill o) s = .next t ∧
        Performs s t bid slot b g m (inMask m fun _ x => if mirrored s g then foldItem s.now (mirrorItem va 6 0 r.1) x else x) (sreg g)
        [(none, .write { num := 0, own := g.uid, slot := slot, thr := if mirrored s g then (members m).head? else none, po := m, lseq := g.lseq, pieces := ps,
                         data := r.1, rmw := none, rel := false, ty := 7, op := none, held := mirrored s g, window := windowNo (threadAt g ((members m).headD 0)), begun := false })]) ∧
    (Issuable (.vfill o) s b slot g m → (span v none 14 false 0 va 137).cut 4 = .at' ps → orderBlocked v none ps = false →
      (columnRead (slotView v ps)).isSome = true →
      ∃ t, exec (.vfill o) s = .next t ∧ Performs s t bid slot b g m (fun _ x => x) (sreg g) [(none, .req (fillReq v o.x.toNat va ps))])) ∧
  (∀ (s : State) (k slot d x : Nat) (g : Group) (l : Load) (col : List VReg), groupAt (coreAt s k) slot = some g → Rising (coreAt s k).ctx.groups →
    (∀ q ∈ (coreAt s k).ctx.groups, q.2.uid = g.uid → q.1 = slot) → g.threads.length = 32 → l.own = g.uid → l.kind = .fill → l.dsts = [d] →
    columnRead x = some col →
    ∃ h, groupAt (coreAt (deliver s k l x) k) slot = some h ∧ ∀ j r, j < 32 →
      let new := vreg (threadAt h j) r
      let want := if hasBit l.po j && r == d then lget ⟨0, false, false⟩ col j else vreg (threadAt g j) r
      new.val = want.val ∧ new.dead = want.dead) ∧
  ∀ (o : OpWin) (s : State) (bid slot : Nat) (b : Bundle) (g : Group) (m : Word), Ready s bid slot b g m →
    let w := windowOf o.w.toNat
    (Issuable (.vgrow o) s b slot g m → (w ≤ g.win ∨ (windowFits s.core g.uid w).isSome = true) → ∃ t, exec (.vgrow o) s = .next t ∧
      Performs s t bid slot b g m (fun _ x => x) (sreg g) (if w ≤ g.win then [] else [(none, .window w)])) ∧
    (Issuable (.vshrink o) s b slot g m → (∀ i < 32, ∀ r, w ≤ r → r < g.win → pendingReg s.core g ⟨slot, some i, r⟩ = false) →
      ∃ t, exec (.vshrink o) s = .next t ∧
      Performs s t bid slot b g m (fun _ x => x) (sreg g) (if g.win ≤ w then [] else [(none, .window w)]))

/-- R187, R258 and R259: where its window changes, a group keeps the registers below both sizes as they are; those that appear read 0 without penumbra and are not dead, and those that go are discarded with the guesses they held. A window that shrinks stays where it is; one that grows moves to the lowest granules that no other group's window takes (the lowest is the model's choice, log entry 31). -/
def Sys2Proof.Claims.WindowChanges : Prop :=
  ∀ (s : State) (k bid slot w : Nat) (thr : Option Nat) (m pc : Word) (g : Group), groupAt (coreAt s k) slot = some g → g.threads.length = 32 →
    let t := doAct s k bid slot m thr pc (.window w)
    ∃ h, groupAt (coreAt t k) slot = some h ∧ h = { g with win := w, base := h.base, threads := h.threads } ∧
      (∀ j < 32, threadAt h j = { threadAt g j with v := (threadAt h j).v } ∧
        ∀ r, vreg (threadAt h j) r = if r < w ∧ r < g.win then vreg (threadAt g j) r else ⟨0, false, false⟩) ∧
      (∀ l ∈ (coreAt t k).loads, l.own = g.uid → l.thr.isSome = true → ∀ d ∈ l.holds, d < w ∧ d < g.win) ∧
      (w ≤ g.win → h.base = g.base) ∧
      (g.win < w → ∀ n, h.base = some n →
        let free := fun (n : Nat) => n + (w + 15) / 16 ≤ 192 ∧ ∀ q ∈ (coreAt s k).ctx.groups, q.2.uid ≠ g.uid → ∀ c, q.2.base = some c → c + (q.2.win + 15) / 16 ≤ n ∨ n + (w + 15) / 16 ≤ c
        free n ∧ ∀ n' < n, ¬ free n') ∧
      OnlyCore s t k

/-- Spills, fills and window sizes, and what a change of window does: SpillsAndSizes and WindowChanges, each stated above. The choices of the model that they rest on are those of log entries 31, 57, 69 and 70. -/
def Obligations.SpillAndWindow : Prop :=
  Sys2Proof.Claims.SpillsAndSizes ∧ Sys2Proof.Claims.WindowChanges

/-- R237 and R240: each load asks for its bytes, with its deadline, from where the checks of its address let it go; a guessed address that would trap is refuted at once (R21); the oldest of its late entries for that address serves it, and those for others are dropped (R27). -/
def Sys2Proof.Claims.Loads : Prop :=
  ∀ (o : OpLd) (s : State) (bid slot : Nat) (b : Bundle) (g : Group) (m : Word), Ready s bid slot b g m → opCount g 0 + (members m).length ≤ 0xFFFF →
    let v := viewAt s b slot g m
    let base := fun (thr : Option Nat) => readBase v thr (baseSrc o.s o.a)
    let ea := fun (thr : Option Nat) => effAddr o.s.toNat (base thr).val (litInt o.lit)
    let reach := fun (thr : Option Nat) => checked v thr 0 (base thr).pen o.s.toNat (ea thr) (tyBytes o.t.toNat) (tyAlign o.t.toNat)
    let late := fun (thr : Option Nat) => s.core.late.filter fun e => e.own == g.uid && e.thr == thr && e.pc == b.pc && e.pos == b.pos
    let hit := fun (thr : Option Nat) => (lfind (fun (e : Late) => e.ea.toNat == ea thr) (late thr)).map fun e => loadWords o.t.toNat e.val
    let acts := fun (thr : Option Nat) (rpl : Bool) =>
      let cls := if rpl || mirrored s g then 0 else o.w.toNat
      (if (late thr).isEmpty then [] else [(thr, Act.dropLate b.pc b.pos (ea thr))]) ++
      match hit thr, reach thr with
      | some _, _ => []
      | none, .bad w => [(thr, .useWalk w), (thr, .refuted (loadReq v thr o (ea thr) true cls []))]
      | none, .at' ps => [(thr, .req (loadReq v thr o (ea thr) (base thr).pen cls ps))]
      | none, _ => [(thr, .refuted (loadReq v thr o (ea thr) true cls []))]
    let goes := fun (thr : Option Nat) => match hit thr, reach thr with
      | some _, _ => True
      | none, .at' ps => orderBlocked v thr ps = false
      | none, .miss _ => False
      | none, _ => (base thr).pen = true
    (Issuable (.load o) s b slot g m → Readable (.load o) g m → (∀ j ∈ members m, goes (some j)) → ∃ t, exec (.load o) s = .next t ∧
      Performs s t bid slot b g m (inMask m fun j x => match hit (some j) with
          | some ws => intoRegs o.d.toNat ws false x
          | none => x) (sreg g)
        ((members m).flatMap fun j => acts (some j) (threadAt g j).rpl)) ∧
    (Issuable (.uniformLoad o) s b slot g m → goes none → ∃ t, exec (.uniformLoad o) s = .next t ∧
      Performs s t bid slot b g m (fun _ x => x) (match hit none with
          | some ws => sreg (putScalars o.d.toNat ws false g)
          | none => sreg g)
        (acts none ((members m).any fun j => (threadAt g j).rpl)))

/-- R251: a prefetch never traps: in space g it brings the line of its address where the address is readable, in space d it only counts, and in spaces t and c it does nothing. -/
def Sys2Proof.Claims.Prefetches : Prop :=
  ∀ (o : OpPf) (s : State) (bid slot : Nat) (b : Bundle) (g : Group) (m : Word), Ready s bid slot b g m → Issuable (.prefetch o) s b slot g m →
    Readable (.prefetch o) g m → opCount g 0 + (members m).length ≤ 0xFFFF →
    let v := viewAt s b slot g m
    let at' := fun (j : Nat) => reach v (some j) 0 true 0 (effAddr o.s.toNat (readBase v (some j) (baseSrc o.s o.a)).val (litInt o.lit)) 1
    (o.s = 0 → ∀ j ∈ members m, match at' j with
      | .at' _ => True
      | .trap _ => True
      | _ => False) →
    ∃ t, exec (.prefetch o) s = .next t ∧ Performs s t bid slot b g m (fun _ x => x) (sreg g)
      (if o.s = 0 then (members m).map fun j => (some j, .prefetch (match at' j with
          | .at' ps => ps.head?
          | _ => none))
        else if o.s = 3 then (members m).map fun j => (some j, .prefetch none) else [])

/-- Loads and prefetches: Loads and Prefetches, each stated above. -/
def Obligations.LoadsAndPrefetches : Prop :=
  Sys2Proof.Claims.Loads ∧ Sys2Proof.Claims.Prefetches

/-- R243 to R245: a store passes its certainty point and writes the low bytes of its data at its effective address, each thread its own with U = 0 and the group once with U = 1; in a mirror pair it adds an item to each thread's stream (R389). -/
def Obligations.Stores : Prop :=
  ∀ (o : OpSt) (s : State) (bid slot : Nat) (b : Bundle) (g : Group) (m : Word) (ps : Option Nat → List Piece), Ready s bid slot b g m → Calm s.core g m →
    let v := viewAt s b slot g m
    let n := tyBytes o.t.toNat
    let base := fun (thr : Option Nat) => readBase v thr (baseSrc o.s o.a)
    let ea := fun (thr : Option Nat) => effAddr o.s.toNat (base thr).val (litInt o.lit)
    let src : Src := ⟨o.d.toNat, tyRegs o.t.toNat, false, false⟩
    let data := fun (thr : Option Nat) => match thr with
      | some j => readSrc g j (threadAt g j) none .m src
      | none => readSrcU g none src
    let pen := fun (thr : Option Nat) => (base thr).pen || (data thr).pen
    let write := fun (thr : Option Nat) => (thr, Act.write (storeReq v thr o.s.toNat o.t.toNat ((data thr).val % 256 ^ n) none (ps thr)))
    let note := fun (thr : Option Nat) (x : Thread) =>
      if mirrored s g then foldItem s.now (mirrorItem (ea thr) o.t.toNat o.s.toNat ((data thr).val % 256 ^ n)) x else x
    let goes := fun (thr : Option Nat) => checked v thr 1 false o.s.toNat (ea thr) n (tyAlign o.t.toNat) = .at' (ps thr) ∧ orderBlocked v thr (ps thr) = false
    (Issuable (.store o) s b slot g m → Readable (.store o) g m → (∀ j ∈ members m, goes (some j)) → ∃ t, exec (.store o) s = .next t ∧
      Performs s t bid slot b g m (inMask m fun j x => note (some j) (pastCertainty (pen (some j)) x)) (sreg g)
        ((members m).map fun j => write (some j))) ∧
    (Issuable (.uniformStore o) s b slot g m → unresolvedS s.core g = false → goes none →
      let any := pen none || (members m).any fun j => (threadAt g j).cg
      ∃ t, exec (.uniformStore o) s = .next t ∧
        Performs (s.sure g any) t bid slot b (g.sure any) m (inMask m fun _ x => note none (if any then pastCertainty true x else { x with rpl := false }))
          (fun i => if any then ⟨(sreg g i).val, false⟩ else sreg g i) [write none])

/-- R247, R248 and R389: an atomic passes its certainty point and asks its home for one indivisible operation, whose old value comes back to d, and in a mirror pair takes the next place among its thread's words that pass a result; a reduction is the same operation without one, which a mirror leaves to its primary. How the words of a thread that pass a result are numbered is the model's choice (log entry 45). -/
def Sys2Proof.Claims.AtomicWords : Prop :=
  let does := fun {α : Type} (mk : α → Instr) (s' : α → BitVec 2) (a : α → BitVec 7) (op : α → BitVec 5) (ty : α → BitVec 3) (xr : α → BitVec 7) (off : α → BitVec 19)
      (mates : Nat) (act : α → View → Nat → Nat → Nat → List Piece → List Act) =>
    ∀ (o : α) (s : State) (bid slot : Nat) (b : Bundle) (g : Group) (m : Word) (ps : Nat → List Piece), Ready s bid slot b g m → Issuable (mk o) s b slot g m →
      Readable (mk o) g m → Calm s.core g m →
      let v := viewAt s b slot g m
      let base := fun (j : Nat) => readBase v (some j) (baseSrc (s' o) (a o))
      let x := fun (j : Nat) => readSrc g j (threadAt g j) none .m (atomSrc (op o) (ty o) (xr o))
      let ea := fun (j : Nat) => effAddr (s' o).toNat (base j).val (off o).toInt
      (∀ j ∈ members m, checked v (some j) 2 false (s' o).toNat (ea j) (tyBytes (ty o).toNat) (tyBytes (ty o).toNat) = .at' (ps j) ∧
        orderBlocked v (some j) (ps j) = false ∧ ∀ p ∈ ps j, p.mx = 0) →
      ∃ t, exec (mk o) s = .next t ∧ Performs s t bid slot b g m (inMask m fun j y =>
          let z := pastCertainty ((base j).pen || (x j).pen) y
          if mirrored s g then
            let y := foldItem s.now (mirrorItem (ea j) (ty o).toNat (s' o).toNat (x j).val) z
            { y with mates := y.mates + mates }
          else z) (sreg g)
        ((members m).flatMap fun j => (act o v j (ea j) (x j).val (ps j)).map fun c => (some j, c))
  does .atomic (·.s) (·.a) (·.o) (·.t) (·.x) (·.i) 1 (fun o v j ea x ps =>
    [.req { num := 0, own := v.g.uid, slot := v.slot, thr := some j, po := oneBit j, pc := v.b.pc, pos := v.b.pos, kind := .atomic o.o.toNat x,
            dsts := (List.range (tyRegs o.t.toNat)).map fun i => o.d.toNat + i, ty := o.t.toNat, ea := BitVec.ofNat 64 ea, pieces := ps, cls := 0,
            pred := 0, issue := v.s.now, deadline := none, pen := false, got := [], guess := none, holds := [], written := false,
            detached := false, op := none, mate := (threadAt v.g j).mates, came := none }]) ∧
  does .reduction (·.s) (·.a) (·.o) (·.t) (·.x) (·.i) 0 (fun o v j _ x ps =>
    if isMirror v then [] else [.write (storeReq v (some j) o.s.toNat o.t.toNat x (some o.o.toNat) ps)])

/-- R248, R249 and R333: what an atomic, a reduction and a token acquire do at their home, where the bytes lie on no alias page and no peer: the word becomes what the operation makes of the old value and the operand, a cas that does not match writes nothing, and a cell that holds tokens loses one; every other byte reads as before; the old value goes to d without penumbra, and the predicate says whether a token was there. -/
def Sys2Proof.Claims.AtomicValues : Prop :=
  let new : Nat → Nat → Nat → Nat → Option Nat := fun op w old v =>
    let o := BitVec.ofNat w old
    let x := BitVec.ofNat w v
    match op with
    | 0 => some (o + x).toNat
    | 1 => some (if o.toInt ≤ x.toInt then old else v)
    | 2 => some (if old ≤ v then old else v)
    | 3 => some (if x.toInt ≤ o.toInt then old else v)
    | 4 => some (if v ≤ old then old else v)
    | 5 => some (o &&& x).toNat
    | 6 => some (o ||| x).toNat
    | 7 => some (o ^^^ x).toNat
    | 8 => some v
    | 9 => if old = v % 2 ^ w then some (v / 2 ^ w) else none
    | 10 => some (encodeF f32 (sumF [decodeF f32 old, decodeF f32 v]) .rn false).1
    | 11 => some (if v ≤ old then 0 else old + 1)
    | _ => some (if old = 0 ∨ v < old then v else old - 1)
  let fits := fun (op n v : Nat) => op ≤ 12 ∧ (op = 10 → n = 4) ∧ v < if op = 9 then 256 ^ (2 * n) else 256 ^ n
  let plain := fun (s : State) (p : Piece) => Memory.wf s.mem = true ∧ p.peer = false ∧ p.mx = 0 ∧ (p.n = 4 ∨ p.n = 8) ∧
    (p.loc < tsmBase ∨ sramBase ≤ p.loc ∨ ∀ t, teamAt s ((p.loc - tsmBase) / 2 ^ 18) = some t → groupsIn (coreAt s t.core).saved.groups ((p.loc - tsmBase) / 2 ^ 18) = [])
  let becomes := fun (s t : State) (p : Piece) (x : Nat) => pieceRead t p = x ∧ Memory.wf t.mem = true ∧
    ∀ a, a < p.loc ∨ p.loc + p.n ≤ a → keyByte t p.key a = keyByte s p.key a
  let owns := fun (s : State) (k slot own : Nat) (g : Group) => groupAt (coreAt s k) slot = some g ∧ Rising (coreAt s k).ctx.groups ∧ g.uid = own ∧
    (∀ q ∈ (coreAt s k).ctx.groups, q.2.uid = own → q.1 = slot) ∧ g.threads.length = 32 ∧ ∃ t, teamAt s g.team = some t ∧ t.role ≠ .mirror
  let lives := fun (s : State) (k own : Nat) => ∀ q ∈ (coreAt s k).ctx.groups, q.2.uid = own → ∃ x ∈ q.2.threads, x.ended = false
  (∀ (s : State) (k slot : Nat) (g : Group) (l : Load) (p : Piece), owns s k slot l.own g → l.pieces = [p] → plain s p →
    (∀ op v i d, fits op p.n v → p.n = tyBytes l.ty → l.thr = some i → i < 32 → l.dsts = (List.range (tyRegs l.ty)).map (d + ·) →
      let old := pieceRead s p
      let t := doAtomic s k l op v
      becomes s t p ((new op (8 * p.n) old v).getD old) ∧
      ∃ h, groupAt (coreAt t k) slot = some h ∧ ∀ j < tyRegs l.ty, vreg (threadAt h i) (d + j) = ⟨BitVec.ofNat 32 (old / 2 ^ (32 * j)), false, false⟩) ∧
    (∀ q, q ≠ 0 → lives s k l.own →
      let n := pieceRead s p
      let t := doToken s k l q
      becomes s t p (n - 1) ∧
      ∃ h, groupAt (coreAt t k) slot = some h ∧ ∀ i < 32, hasBit l.po i = true → preg (threadAt h i) q = ⟨decide (n ≠ 0), false⟩)) ∧
  ∀ (s : State) (k j op : Nat) (w : Write) (p : Piece), w.pieces[j]? = some p → plain s p → w.rmw = some op → fits op p.n w.data → lives s k w.own →
    becomes s (doUnit s k w j) p ((new op (8 * p.n) (pieceRead s p) w.data).getD (pieceRead s p))

/-- Atomics and reductions, and what they do at their home: AtomicWords and AtomicValues, each stated above. The choices of the model that they rest on are those of log entry 45. -/
def Obligations.Atomics : Prop :=
  Sys2Proof.Claims.AtomicWords ∧ Sys2Proof.Claims.AtomicValues

/-- R209 to R212, R216 and R232: what the checks of an access find in each space, alignment first: PROT outside the space; in space t the bytes of the team's own memory, in space c those of the team at the rank that the address names, or PEER_GONE where it no longer lives, in space d the launch's part of the die that the address names, and in space g the page's bytes under a translation that covers them; each as the units of R233: all bytes at once where the address is a multiple of the width, up to 8, and pieces of 4 elsewhere. That the last byte too must lie inside spaces t, c and d is the model's reading of R209 (log entry 65). -/
def Obligations.AddressSpaces : Prop :=
  ∀ (v : View) (thr : Option Nat) (access ea n align : Nat) (spec : Bool), isControl v.k = false →
    let units := fun (p : Piece) => cutUnits (if n ≤ 8 ∧ ea % n = 0 then n else if n = 16 ∧ ea % 16 = 0 then 8 else 4) [p]
    (∀ sp, ea % align ≠ 0 → checked v thr access spec sp ea n align = .trap 3) ∧
    (ea % align = 0 →
      checked v thr access spec 1 ea n align = (if ea + n ≤ v.h.tsm then .at' (units (sramPiece (tsmLoc v.g.team ea) n (dieOf v.k))) else .trap 4) ∧
      (2 ^ 56 < ea + n → checked v thr access spec 0 ea n align = .trap 4) ∧
      (∀ e, ea + n ≤ 2 ^ 56 → 0 < n → tlbHit v.s v.c v.h.ptroot ea access = some e → ea + n ≤ e.va + e.size → leafAlias e.leaf = 0 → leafKind e.leaf < 3 →
        checked v thr access spec 0 ea n align = .at' (units (leafPiece v.s e.leaf (e.pa ea) n))) ∧
      (let die := slice ea 28 27
       let off := slice ea 26 0
       checked v thr access spec 3 ea n align = (if ea < 2 ^ 29 ∧ off + n ≤ v.h.spwin then .at' (units (sramPiece (scratchLoc die (lget 0 v.h.wbase die + off)) n die)) else .trap 4)) ∧
      (let rank := slice ea 21 18
       let off := slice ea 17 0
       (¬ (ea < 2 ^ 22 ∧ rank < v.h.clw * v.h.clh ∧ off + n ≤ v.h.tsm) → checked v thr access spec 2 ea n align = .trap 4) ∧
       (ea < 2 ^ 22 ∧ rank < v.h.clw * v.h.clh ∧ off + n ≤ v.h.tsm → ∀ t, teamAt v.s v.g.team = some t →
         (hasBit (tget 0 v.c.live t.cluster) rank = false → checked v thr access spec 2 ea n align = .trap 8) ∧
         (hasBit (tget 0 v.c.live t.cluster) rank = true → ∀ u x, rankTeam v.s t rank = some (u, x) →
           checked v thr access spec 2 ea n align = .at' (units (sramPiece (tsmLoc u off) n (dieOf x.core)))))))

/-- R282, R285, R294, R316, R317 and R318: an update whose operands have arrived, none dead where dead reads trap, enters the queue of its group's selector with the operands it reads now, where the queue has room and the counter too; a semiring in a launch above F0 takes SEMIRING_FID in every present thread instead. -/
def Obligations.MatrixUpdates : Prop :=
  let does := fun {α : Type} (mk : α → Instr) (ops : α → UpdateOps) =>
    ∀ (o : α) (s : State) (bid slot : Nat) (b : Bundle) (g : Group) (m : Word), Ready s bid slot b g m → Issuable (mk o) s b slot g m →
      let v := viewAt s b slot g m
      let semi := (ops o).sr.isSome && (hdrOf s g.lseq).fid != 0
      (deadTraps g && updateDead (ops o) v) = false →
      (semi = false → updateWaits (ops o) v = [] → queueRoom v = true → opCount g 2 < 0xFFFF → ∃ t, exec (mk o) s = .next t ∧
        Performs s t bid slot b g m (fun _ x => x) (sreg g) [(none, .mword (selOf slot) (updateWord (ops o) v))]) ∧
      (semi = true → ∃ t s1, exec (mk o) s = .next t ∧ Leaves s s1 bid slot g (fun _ x => x) ∧
        t = settleAt s.cur.1 slot (trapThreads s1 s.cur.1 slot b.sub ((members m).map fun j => (j, ⟨9, 0, 0, b.pos⟩)) b.stepPos b.pc))
  does .mma (fun o => ⟨none, o.f.toNat, o.t.toNat, o.a.toNat, o.b.toNat, none⟩) ∧
  does .mmaMx (fun o => ⟨none, o.f.toNat + 2, o.t.toNat, o.a.toNat, o.b.toNat, some (o.x.toNat, o.y.toNat)⟩) ∧
  does .mmsrBf16 (fun o => ⟨some o.s.toNat, 0, o.t.toNat, o.a.toNat, o.b.toNat, none⟩)

/-- R285 and R319 to R322: ard, azero and arel enter the queue of the group's selector where it has room; ast does so after the certainty point and the checks of each present thread's row, as a store of 8-byte alignment in units of 4 bytes. -/
def Obligations.TileWords : Prop :=
  let queued := fun {α : Type} (mk : α → Instr) (tile : α → Nat) (what : α → Word → MOp) =>
    ∀ (o : α) (s : State) (bid slot : Nat) (b : Bundle) (g : Group) (m : Word), Ready s bid slot b g m → Issuable (mk o) s b slot g m →
      queueRoom (viewAt s b slot g m) = true → ∃ t, exec (mk o) s = .next t ∧
      Performs s t bid slot b g m (fun _ x => x) (sreg g) [(none, .mword (selOf slot) ⟨g.uid, slot, tile o, what o m, []⟩)]
  queued .ard (·.t.toNat) (fun o m => .ard o.v.toNat o.g.toNat m ((List.range (ardRegs o.v.toNat)).map (o.d.toNat + ·))) ∧
  queued .azero (·.t.toNat) (fun _ _ => .azero) ∧ queued .arel (·.t.toNat) (fun _ _ => .arel) ∧
  ∀ (o : OpAst) (s : State) (bid slot : Nat) (b : Bundle) (g : Group) (m : Word) (ps : Nat → List Piece), Ready s bid slot b g m →
    Issuable (.ast o) s b slot g m → Readable (.ast o) g m → Calm s.core g m →
    let v := viewAt s b slot g m
    let base := fun (j : Nat) => readBase v (some j) (baseSrc o.s o.a)
    queueRoom v = true → opCount g 2 + (members m).length ≤ 0xFFFF →
    (∀ j ∈ members m, orderBlocked v (some j) (ps j) = false ∧
      let ea := effAddr o.s.toNat (base j).val (litInt o.lit)
      ea % 8 = 0 ∧ (span v (some j) 1 false o.s.toNat ea (4 * ardRegs o.v.toNat)).cut 4 = .at' (ps j)) →
    ∃ t, exec (.ast o) s = .next t ∧
      Performs s t bid slot b g m (inMask m fun j => pastCertainty ((base j).pen || rowGuess v o.t.toNat j)) (sreg g)
        [(none, .mword (selOf slot) ⟨g.uid, slot, o.t.toNat, .ast o.v.toNat o.g.toNat ((members m).map fun j => (j, ps j)), []⟩)]

/-- R304, R305 and R326: xkick hands over the request whose record the thread finds in its team's memory, after its certainty point and checks, where the engine has places for all of the step; with U = 1 the lowest present thread hands over one for the group. The ids that lower threads open count in the checks. -/
def Obligations.CopyKicks : Prop :=
  ∀ (o : OpXk) (s : State) (bid slot : Nat) (b : Bundle) (g : Group) (m : Word), Ready s bid slot b g m → Issuable (.xkick o) s b slot g m →
    Calm s.core g m → mirrored s g = false → b.done = [] →
    let v := viewAt s b slot g m
    (o.u = false → Readable (.xkick o) g m →
      let x := fun (j : Nat) => readSrc g j (threadAt g j) o.lit .m ⟨o.x.toNat, 1, true, false⟩
      let rec' := fun (j : Nat) => ownTsm v (some j) (x j).val 32
      let opened := fun (j : Nat) => ((members m).filter fun i => decide (i < j) && recGidOn (rec' i)).map fun i => (recGid (rec' i), recBinding (rec' i))
      (∀ j ∈ members m, kickCheck v (some j) (x j).val (opened j) = none) →
      s.core.copies.length + (members m).length ≤ 16 → opCount g 1 + (members m).length ≤ 0xFFFF →
      ∃ t, exec (.xkick o) s = .next t ∧ Performs s t bid slot b g m (inMask m fun j => pastCertainty (x j).pen) (sreg g)
        ((members m).map fun j => (some j, .kick (copyOf v j (x j).val (rec' j))))) ∧
    (o.u = true → unresolvedS s.core g = false →
      let x := readSrcU g o.lit ⟨o.x.toNat, 1, true, false⟩
      let any := x.pen || (members m).any fun j => (threadAt g j).cg
      kickCheck v none x.val [] = none → s.core.copies.length < 16 → opCount g 1 < 0xFFFF →
      ∃ t, exec (.xkick o) s = .next t ∧
        Performs (s.sure g any) t bid slot b (g.sure any) m (inMask m fun _ z => if any then pastCertainty true z else { z with rpl := false })
          (fun i => if any then ⟨(sreg g i).val, false⟩ else sreg g i)
          [(none, .kick (copyOf v ((members m).headD 0) x.val (ownTsm v none x.val 32)))])

/-- R328 to R330: bobj.init and bobj.arrive act at an aligned object inside the team's memory after their certainty points, an arrival also after its release; bobj.wait completes where PH differs from the parity in every present thread, and otherwise waits, parked, for the objects of the threads where it does not; one that has passed is noted, and waits no more. -/
def Sys2Proof.Claims.ObjectWords : Prop :=
  let inside := fun (s : State) (g : Group) (x : Nat) => x % 16 = 0 ∧ x + 16 ≤ (hdrOf s g.lseq).tsm
  let orders := fun (v : View) (thr : Option Nat) (x : Nat) =>
    let ps := [bobjPiece (tsmLoc v.g.team x)]
    tokenBars v.c v.g.uid v.c.next (poOf v.mask thr) ps = false ∧ barredBefore v.c v.g.uid (poOf v.mask thr) ps = false ∧ orderBlocked v thr ps = false
  let uniform := fun (any : Bool) (z : Thread) => if any then pastCertainty true z else { z with rpl := false }
  let scalars := fun (any : Bool) (g : Group) (i : Nat) => if any then (⟨(sreg g i).val, false⟩ : Reg) else sreg g i
  (∀ (o : OpBi) (s : State) (bid slot : Nat) (b : Bundle) (g : Group) (m : Word), Ready s bid slot b g m → Issuable (.bobjInit o) s b slot g m →
    Calm s.core g m →
    (o.u = false → Readable (.bobjInit o) g m →
      let r := fun (c : BitVec 7) (j : Nat) => readSrc g j (threadAt g j) o.lit .m ⟨c.toNat, 1, true, false⟩
      (∀ j ∈ members m, inside s g (r o.x j).val ∧ orders (viewAt s b slot g m) (some j) (r o.x j).val) → ∃ t, exec (.bobjInit o) s = .next t ∧
        Performs s t bid slot b g m (inMask m fun j => pastCertainty ((r o.x j).pen || (r o.y j).pen || (r o.z j).pen)) (sreg g)
          ((members m).map fun j => (some j, .bobjInit (tsmLoc g.team (r o.x j).val) (r o.y j).val (r o.z j).val))) ∧
    (o.u = true → unresolvedS s.core g = false →
      let r := fun (c : BitVec 7) => readSrcU g o.lit ⟨c.toNat, 1, true, false⟩
      let any := (r o.x).pen || (r o.y).pen || (r o.z).pen || (members m).any fun j => (threadAt g j).cg
      inside s g (r o.x).val → orders (viewAt s b slot g m) none (r o.x).val → ∃ t, exec (.bobjInit o) s = .next t ∧
        Performs (s.sure g any) t bid slot b (g.sure any) m (inMask m fun _ => uniform any) (scalars any g) [(none, .bobjInit (tsmLoc g.team (r o.x).val) (r o.y).val (r o.z).val)])) ∧
  (∀ (o : OpBa) (s : State) (bid slot : Nat) (b : Bundle) (g : Group) (m : Word), Ready s bid slot b g m → Issuable (.bobjArrive o) s b slot g m →
    Calm s.core g m → (∀ j ∈ members m, Drained (viewAt s b slot g m) j 4) →
    (o.u = false → Readable (.bobjArrive o) g m →
      let x := fun (j : Nat) => (readSrc g j (threadAt g j) o.lit .m ⟨o.x.toNat, 1, true, false⟩).val
      (∀ j ∈ members m, inside s g (x j) ∧ barredBefore s.core g.uid (oneBit j) [bobjPiece (tsmLoc g.team (x j))] = false) → ∃ t, exec (.bobjArrive o) s = .next t ∧
        Performs s t bid slot b g m (inMask m fun _ y => { pastCertainty true y with rpv := false }) (sreg g)
          ((members m).map fun j => (some j, .bobjArrive (tsmLoc g.team (x j)) (some o.d.toNat)))) ∧
    (o.u = true → unresolvedS s.core g = false →
      let x := (readSrcU g o.lit ⟨o.x.toNat, 1, true, false⟩).val
      inside s g x → barredBefore s.core g.uid m [bobjPiece (tsmLoc g.team x)] = false → ∃ t, exec (.bobjArrive o) s = .next t ∧
        Performs (s.sure g true) t bid slot b g.clearRg m (inMask m fun _ y => { pastCertainty true y with rpv := false }) (scalars true g)
          [(none, .bobjArrive (tsmLoc g.team x) (some o.d.toNat))])) ∧
  ∀ (o : OpXy) (s : State) (bid slot : Nat) (b : Bundle) (g : Group) (m : Word), Ready s bid slot b g m → Issuable (.bobjWait o) s b slot g m →
    Readable (.bobjWait o) g m → b.done = [] →
    let v := viewAt s b slot g m
    let r := fun (c : BitVec 7) (j : Nat) => (readSrc g j (threadAt g j) none .m ⟨c.toNat, 1, false, false⟩).val
    let ph := fun (j : Nat) => boPh (ownTsm v (some j) (r o.x j) 16)
    let stays := (members m).filter fun j => ph j == decide (r o.y j % 2 = 1)
    (∀ j ∈ members m, inside s g (r o.x j) ∧ Arrived v j) →
    (stays = [] → ∃ t, exec (.bobjWait o) s = .next t ∧ Completes s t bid slot b g m (fun _ x => x) (sreg g)) ∧
    (stays ≠ [] → b.pos = b.stepPos → ∃ t x, exec (.bobjWait o) s = .next t ∧ bundleAt (coreAt t s.cur.1) bid = some x ∧
      x.wait = some (.bobj (stays.map fun j => (tsmLoc g.team (r o.x j), ph j, slot, j))) ∧ x.parked = true ∧ x.parts = b.parts ∧ x.pos = b.pos ∧
      (∀ j ∈ members m, (x.done.any fun p => p.slot == slot && hasBit p.mask j) = !stays.contains j) ∧
      t = setCore s s.cur.1 (setBundle s.core bid x))

/-- R306, R309 to R311, R328 and R329: what becomes of a barrier object. Initialised, it expects y mod 2^16 arrivals and z bytes in each phase, with STAT 0; an arrival lowers ARRC by 1, or where none is expected sets ERR and nothing else, and its result is PH as it was; the bytes of a copy lower BYTC, and a failed one sets ERR. An update after which no arrival and no byte is missing completes the phase: it inverts PH and reloads both counts. Every other byte of memory reads as before; and a bundle all of whose waits are at the object, with a parity that PH no longer has, goes on where its groups can be given the selector, and one whose waits all stand stays as it is. Outside an exchange's swap, in a team whose context is not saved. An object initialised with nothing to wait for keeps its phase open (log entry 67). -/
def Sys2Proof.Claims.ObjectUpdates : Prop :=
  let arrc := fun (s : State) (loc : Nat) => memRead s.mem loc 2
  let arri := fun (s : State) (loc : Nat) => memRead s.mem (loc + 2) 2
  let bytc := fun (s : State) (loc : Nat) => memRead s.mem (loc + 4) 4
  let byti := fun (s : State) (loc : Nat) => memRead s.mem (loc + 8) 4
  let stat := fun (s : State) (loc : Nat) => memRead s.mem (loc + 12) 4
  let becomes := fun (s t : State) (loc a i b j x : Nat) =>
    arrc t loc = a ∧ arri t loc = i ∧ bytc t loc = b ∧ byti t loc = j ∧ stat t loc = x ∧ Memory.wf t.mem = true ∧
    (∀ n, n < loc ∨ loc + 16 ≤ n → memByte t.mem n = memByte s.mem n) ∧
    ∀ core bid b ws, bundleAt (coreAt s core) bid = some b → b.wait = some (.bobj ws) → (coreAt s core).exch ≠ .swap → (∀ w ∈ ws, w.1 % 16 = 0) →
      (ws ≠ [] → (∀ w ∈ ws, w.1 = loc ∧ w.2.1 ≠ decide (x % 2 = 1)) → (∀ p ∈ b.parts, ∀ g, groupAt (coreAt s core) p.slot = some g → groupReady g = true) →
        ∃ y, bundleAt (coreAt t core) bid = some y ∧ y.wait = none ∧ y.parked = false ∧ y.parts = b.parts ∧ y.pos = b.pos) ∧
      ((∀ w ∈ ws, w.1 = loc → w.2.1 = decide (x % 2 = 1)) → bundleAt (coreAt t core) bid = some b)
  let settles := fun (s t : State) (loc a b x : Nat) =>
    (a = 0 ∧ b = 0 → becomes s t loc (arri s loc) (arri s loc) (byti s loc) (byti s loc) (if x % 2 = 1 then x - 1 else x + 1)) ∧
    (¬ (a = 0 ∧ b = 0) → becomes s t loc a (arri s loc) b (byti s loc) x)
  ∀ (s : State) (own loc : Nat), Memory.wf s.mem = true → tsmBase ≤ loc → loc + 16 ≤ sramBase → loc % 16 = 0 →
    (∀ u, teamAt s ((loc - tsmBase) / 2 ^ 18) = some u → groupsIn (coreAt s u.core).saved.groups ((loc - tsmBase) / 2 ^ 18) = []) →
    (∀ y z, becomes s (bobjInit s own loc y z) loc (y % 2 ^ 16) (y % 2 ^ 16) (z % 2 ^ 32) (z % 2 ^ 32) 0) ∧
    (∀ n err, let x := if err then stat s loc ||| 4 else stat s loc
      (0 < n → settles s (bobjBytes s own loc n err) loc (arrc s loc) ((bytc s loc + 2 ^ 32 - n % 2 ^ 32) % 2 ^ 32) x) ∧
      (n = 0 → becomes s (bobjBytes s own loc n err) loc (arrc s loc) (arri s loc) (bytc s loc) (byti s loc) x)) ∧
    ∀ k slot thr d g, groupAt (coreAt s k) slot = some g → g.threads.length = 32 →
      let t := bobjArrive s k slot thr loc (some d)
      (arrc s loc = 0 → becomes s t loc 0 (arri s loc) (bytc s loc) (byti s loc) (stat s loc ||| 4)) ∧
      (0 < arrc s loc → settles s t loc (arrc s loc - 1) (bytc s loc) (stat s loc)) ∧
      ∃ h, groupAt (coreAt t k) slot = some h ∧
        (∀ i < 32, thr = some i → vreg (threadAt h i) d = ⟨BitVec.ofNat 32 (stat s loc % 2), false, false⟩) ∧
        (thr = none → d ≠ 0 → sreg h d = ⟨BitVec.ofNat 32 (stat s loc % 2), false⟩)

/-- The words of barrier objects and what becomes of an object: ObjectWords and ObjectUpdates, each stated above. The choices of the model that they rest on are those of log entry 67. -/
def Obligations.BarrierObjects : Prop :=
  Sys2Proof.Claims.ObjectWords ∧ Sys2Proof.Claims.ObjectUpdates

/-- R331, R333 and R334: mcfree, the token words and cbset, each after its certainty point, in a team that is not mirrored: the release of an id that is closed or the team's own, an atomic pair at a cell in plain memory, whose release waits for the thread's earlier writes, and a release with the team's bit set in a bitmap, or only its counting where the header names none (R355). -/
def Obligations.EngineWords : Prop :=
  let uniform := fun (any : Bool) (z : Thread) => if any then pastCertainty true z else { z with rpl := false }
  let scalars := fun (any : Bool) (g : Group) (i : Nat) => if any then (⟨(sreg g i).val, false⟩ : Reg) else sreg g i
  (∀ (o : OpMc) (s : State) (bid slot : Nat) (b : Bundle) (g : Group) (m : Word), Ready s bid slot b g m → Issuable (.mcfree o) s b slot g m →
    Readable (.mcfree o) g m → Calm s.core g m → opCount g 3 + (members m).length ≤ 0xFFFF →
    let x := fun (j : Nat) => readSrc g j (threadAt g j) o.lit .m ⟨o.x.toNat, 1, true, false⟩
    (∀ j ∈ members m, ∀ e, gidOf s (viewAt s b slot g m).team.cluster ((x j).val % 64) = some e → e.team = g.team) →
    ∃ t, exec (.mcfree o) s = .next t ∧ Performs s t bid slot b g m (inMask m fun j => pastCertainty (x j).pen) (sreg g)
      ((members m).map fun j => (some j, .mcfree ((x j).val % 64)))) ∧
  (let tokens := fun {α : Type} (mk : α → Instr) (u : α → Bool) (c : α → BitVec 7) (rel : Bool) (act : α → View → Option Nat → Nat → List Piece → Act) =>
    ∀ (o : α) (s : State) (bid slot : Nat) (b : Bundle) (g : Group) (m : Word) (ps : Option Nat → List Piece), Ready s bid slot b g m →
      Issuable (mk o) s b slot g m → Calm s.core g m → mirrored s g = false → opCount g 3 + (members m).length ≤ 0xFFFF →
      (rel = true → ∀ j ∈ members m, Drained (viewAt s b slot g m) j 7) →
      let v := viewAt s b slot g m
      let x := fun (thr : Option Nat) => match thr with
        | some j => readSrc g j (threadAt g j) none .m ⟨(c o).toNat, 2, false, false⟩
        | none => readSrcU g none ⟨(c o).toNat, 2, false, false⟩
      let goes := fun (thr : Option Nat) => checked v thr 2 false 0 (x thr).val 8 8 = .at' (ps thr) ∧ orderBlocked v thr (ps thr) = false ∧ ∀ p ∈ ps thr, p.mx = 0
      (u o = false → Readable (mk o) g m → (∀ j ∈ members m, goes (some j)) → ∃ t, exec (mk o) s = .next t ∧
        Performs s t bid slot b g m (inMask m fun j => pastCertainty (x (some j)).pen) (sreg g)
          ((members m).map fun j => (some j, act o v (some j) (x (some j)).val (ps (some j))))) ∧
      (u o = true → unresolvedS s.core g = false → goes none →
        let any := (x none).pen || (members m).any fun j => (threadAt g j).cg
        ∃ t, exec (mk o) s = .next t ∧ Performs (s.sure g any) t bid slot b (g.sure any) m (inMask m fun _ => uniform any) (scalars any g) [(none, act o v none (x none).val (ps none))])
  tokens .tqtokRel (·.u) (·.x) true (fun _ v thr _ ps => .write { storeReq v thr 0 5 1 (some 0) ps with rel := true, op := some 3 }) ∧
  tokens .tqtokAcq (·.u) (·.x) false (fun o v thr x ps => .req (tokenReq v thr x o.p.toNat ps))) ∧
  ∀ (o : OpCs) (s : State) (bid slot : Nat) (b : Bundle) (g : Group) (m : Word) (ps : Option Nat → List Piece), Ready s bid slot b g m →
    Issuable (.cbset o) s b slot g m → Calm s.core g m → mirrored s g = false → opCount g 3 + (members m).length ≤ 0xFFFF →
    let v := viewAt s b slot g m
    let va := v.h.cbmap + v.team.idx / 8
    (∀ j ∈ members m, Drained v j 6) →
    let acts := fun (thr : Option Nat) => (if v.h.cbmap = 0 then [] else [(thr, Act.cbset)]) ++
      [(thr, Act.write { storeReq v thr 0 0 (2 ^ (v.team.idx % 8)) (some 6) (if v.h.cbmap = 0 then [] else ps thr) with rel := true, op := some 3 })]
    let goes := fun (thr : Option Nat) => v.h.cbmap ≠ 0 →
      checked v thr 2 false 0 va 1 1 = .at' (ps thr) ∧ orderBlocked v thr (ps thr) = false ∧ ∀ p ∈ ps thr, p.mx = 0
    (o.u = false → (∀ j ∈ members m, goes (some j)) → ∃ t, exec (.cbset o) s = .next t ∧
      Performs s t bid slot b g m (inMask m fun _ => pastCertainty false) (sreg g) ((members m).flatMap fun j => acts (some j))) ∧
    (o.u = true → unresolvedS s.core g = false → goes none →
      let any := (members m).any fun j => (threadAt g j).cg
      ∃ t, exec (.cbset o) s = .next t ∧ Performs (s.sure g any) t bid slot b (g.sure any) m (inMask m fun _ => uniform any) (scalars any g) (acts none))

/-- R332: tqpush finds each thread's header readable and its queue configured, and enqueues where a slot is free beyond those of pushes that come before it, with p false; where none is and its time is over, p becomes true and nothing is enqueued. With U = 1 the group pushes once. In a team that is not mirrored. -/
def Sys2Proof.Claims.QueuePushes : Prop :=
  ∀ (o : OpTq) (s : State) (bid slot : Nat) (b : Bundle) (g : Group) (m : Word), Ready s bid slot b g m → Issuable (.tqpush o) s b slot g m →
    Calm s.core g m → mirrored s g = false → b.done = [] → opCount g 3 + (members m).length ≤ 0xFFFF →
    let v := viewAt s b slot g m
    let sound := fun (j : Nat) (hdr y : In) => (∃ ps, checked v (some j) 0 false 0 hdr.val 160 8 = .at' ps ∧ orderBlocked v (some j) ps = false) ∧
      y.val / 8 < 64 ∧ (queueAt s (16 + y.val / 8)).isSome = true
    (o.u = false → Readable (.tqpush o) g m →
      let hdr := fun (j : Nat) => readSrc g j (threadAt g j) none .m ⟨o.x.toNat, 2, false, false⟩
      let y := fun (j : Nat) => readSrc g j (threadAt g j) o.lit .m ⟨o.y.toNat, 1, true, false⟩
      let fits := (members m).foldl (fun (a : List Nat) j =>
        if pushesAhead v ((y j).val / 8) (pushRank v j) + (a.filter fun i => (y i).val / 8 == (y j).val / 8).length < queueFree s ((y j).val / 8) then a ++ [j] else a) []
      (∀ j ∈ members m, sound j (hdr j) (y j) ∧ (j ∈ fits ∨ pushExpired v o.w.toNat = true)) → ∃ t, exec (.tqpush o) s = .next t ∧
        Performs s t bid slot b g m (inMask m fun j z => setP (pastCertainty ((hdr j).pen || (y j).pen) z) o.p.toNat (!fits.contains j) false) (sreg g)
          (fits.map fun j => (some j, .push ((y j).val / 8) ((y j).val % 8) 0 (hdr j).val))) ∧
    (o.u = true → unresolvedS s.core g = false →
      let low := (members m).headD 0
      let hdr := readSrcU g none ⟨o.x.toNat, 2, false, false⟩
      let y := readSrcU g o.lit ⟨o.y.toNat, 1, true, false⟩
      let any := hdr.pen || y.pen || (members m).any fun j => (threadAt g j).cg
      let fits := decide (pushesAhead v (y.val / 8) (pushRank v low) < queueFree s (y.val / 8))
      sound low hdr y → (fits = true ∨ pushExpired v o.w.toNat = true) → ∃ t, exec (.tqpush o) s = .next t ∧
        Performs (s.sure g any) t bid slot b (g.sure any) m (inMask m fun _ z => setP (if any then pastCertainty true z else { z with rpl := false }) o.p.toNat (!fits) false)
          (fun i => if any then ⟨(sreg g i).val, false⟩ else sreg g i)
          (if fits then [(none, .push (y.val / 8) (y.val % 8) 0 hdr.val)] else []))

/-- R216 and R335: cbwait passes where the bit of each present thread is set in its bitmap; its reads bring their lines, and it records the launches that produce the bitmap. -/
def Sys2Proof.Claims.BitmapWaits : Prop :=
  ∀ (o : OpCw) (s : State) (bid slot : Nat) (b : Bundle) (g : Group) (m : Word) (ps : Nat → List Piece), Ready s bid slot b g m → Issuable (.cbwait o) s b slot g m →
    Readable (.cbwait o) g m →
    let v := viewAt s b slot g m
    let base := fun (j : Nat) => (readSrc g j (threadAt g j) none .m ⟨o.x.toNat, 2, false, false⟩).val
    let y := fun (j : Nat) => (readSrc g j (threadAt g j) none .m ⟨o.y.toNat, 1, false, false⟩).val
    (∀ j ∈ members m, base j % 8 = 0 ∧ Arrived v j ∧ checked v (some j) 0 false 0 (base j + y j / 8) 1 1 = .at' (ps j) ∧
      orderBlocked v (some j) (ps j) = false ∧ piecesRead (ownView v (oneBit j) (ps j)) (ps j) / 2 ^ (y j % 8) % 2 = 1) →
    ∃ t, exec (.cbwait o) s = .next t ∧ Performs s t bid slot b g m (fun _ x => x) (sreg g)
      ((members m).flatMap fun j => [(some j, .bring (ps j)), (some j, .producer (base j))])

/-- Queue pushes and waits on completion bitmaps: QueuePushes and BitmapWaits, each stated above. -/
def Obligations.QueueAndBitmapWords : Prop :=
  Sys2Proof.Claims.QueuePushes ∧ Sys2Proof.Claims.BitmapWaits

/-- R18, R20, R219, R221, R236, R248, R260, R333 and R431: the deadline of a waiting load is over and its prediction is installed; a load's data, one unit of it or all that are left, a unit of a write, and the reply of an atomic or a token acquire go to their homes where no earlier access of the same threads to the same location is still under way (accessDue), and, for a reply from another die or a peer, no earlier write or atomic of its core to the same line (lineBars), and otherwise nothing changes; data that have come to a waiting gdemand come once. There they take effect where the peers concerned can be reached and the stacks are awake; where the links to a peer recover, or a stack sleeps, nothing changes; and where a peer is lost, the launch rolls back. That an event which is not due leaves the state as it is, and that a unit number past the last performs all that are left, are the model's choices (log entries 3 and 9). -/
def Sys2Proof.Claims.HomeEvents : Prop :=
  let home := fun (i : Instr) (s go : State) (core own : Nat) (ps : List Piece) =>
    (piecesWay s ps = .opened → (∀ p ∈ ps, asleep s p = false) → exec i s = .next go) ∧
    ((piecesWay s ps = .opened ∧ ∃ p ∈ ps, asleep s p = true) ∨ piecesWay s ps = .waits → exec i s = .next s) ∧
    (∀ g, piecesWay s ps = .lost → owner (coreAt s core) own = some g → exec i s = .next (rollback s g.lseq))
  (∀ (core lid : Nat) (s : State) (l : Load), loadAt (coreAt s core) lid = some l →
    let due := accessDue (coreAt s core) l.own l.num l.po
    let reads := fun (ps : List Piece) => due true ps && !(l.kind == .fill && slotBars (coreAt s core) l.own l.num ps)
    (∀ d, l.kind = .load → l.written = false → l.cls ≠ 0 → l.deadline = some d → d < s.now → exec (.loadDeadline core lid) s = .next (installGuess s core l)) ∧
    ((l.kind = .load ∨ l.kind = .fill) → l.came ≠ none → ∀ unit, exec (.loadDataArrival core ⟨lid, unit⟩) s = .next s) ∧
    ((l.kind = .load ∨ l.kind = .fill) → l.came = none →
      (∀ unit, l.pieces.length ≤ unit → (l.kind = .fill ∨ l.written = true ∨ l.cls = 0 ∨ ∀ d, l.deadline = some d → s.now ≤ d) →
        (reads l.unread = true → home (.loadDataArrival core ⟨lid, unit⟩) s (resave (performLoad s core l) core l.own) core l.own l.unread) ∧
        (reads l.unread = false → exec (.loadDataArrival core ⟨lid, unit⟩) s = .next s)) ∧
      (∀ unit p, l.pieces[unit]? = some p →
        (reads [p] = true → home (.loadDataArrival core ⟨lid, unit⟩) s (readUnit s core l unit) core l.own [p]) ∧
        (reads [p] = false → exec (.loadDataArrival core ⟨lid, unit⟩) s = .next s))) ∧
    (due false l.pieces = true → (∀ p ∈ l.pieces, lineBars (coreAt s core) core l.num p = false) →
      (∀ op v, l.kind = .atomic op v → home (.atomicResult core lid) s (doAtomic s core l op v) core l.own l.pieces) ∧
      (∀ p, l.kind = .token p → home (.atomicResult core lid) s (doToken s core l p) core l.own l.pieces)) ∧
    (due false l.pieces = false ∨ (∃ p ∈ l.pieces, lineBars (coreAt s core) core l.num p = true) → exec (.atomicResult core lid) s = .next s)) ∧
  ∀ (core wid unit : Nat) (s : State) (w : Write), writeAt (coreAt s core) wid = some w → w.held = false →
    (∀ p, w.pieces[unit]? = some p →
      (unitDue (coreAt s core) core w p = true → home (.writePerformed core ⟨wid, unit⟩) s (doUnit s core w unit) core w.own [p]) ∧
      (unitDue (coreAt s core) core w p = false → exec (.writePerformed core ⟨wid, unit⟩) s = .next s)) ∧
    (w.pieces.length ≤ unit →
      ((∀ p ∈ w.pieces, unitDue (coreAt s core) core w p = true) → home (.writePerformed core ⟨wid, unit⟩) s (doWrite s core w) core w.own w.pieces) ∧
      ((∃ p ∈ w.pieces, unitDue (coreAt s core) core w p = false) → exec (.writePerformed core ⟨wid, unit⟩) s = .next s))

/-- R18, R19 and R99: what a prediction or the data of a load that still waits puts in its registers: the words of the value from the first register on, a prediction with its penumbra bit, and none of them dead. -/
def Sys2Proof.Claims.LoadsInstalled : Prop :=
  ∀ (s : State) (k slot i d x : Nat) (g : Group) (l : Load), groupAt (coreAt s k) slot = some g → Rising (coreAt s k).ctx.groups →
    (∀ q ∈ (coreAt s k).ctx.groups, q.2.uid = g.uid → q.1 = slot) → g.threads.length = 32 → i < 32 → l.own = g.uid → l.thr = some i → l.op = none →
    l.kind = .load → l.ty ≤ 6 → l.dsts = (List.range (tyRegs l.ty)).map (d + ·) →
    let words := fun (v j : Nat) => if l.ty = 1 then (BitVec.ofNat 8 v).signExtend 32 else if l.ty = 3 then (BitVec.ofNat 16 v).signExtend 32 else BitVec.ofNat 32 (v / 2 ^ (32 * j))
    (∃ h, groupAt (coreAt (installGuess s k l) k) slot = some h ∧ ∀ j < tyRegs l.ty, vreg (threadAt h i) (d + j) = ⟨words (predict s k l) j, true, false⟩) ∧
    (l.written = false → ∃ h, groupAt (coreAt (deliver s k l x) k) slot = some h ∧
      ∀ j < tyRegs l.ty, (vreg (threadAt h i) (d + j)).val = words x j ∧ (vreg (threadAt h i) (d + j)).dead = false)

/-- R275 and R276: a marker reaches a die, or a peer device over a link that works, behind every write and atomic that its core has sent there down its path before it; a report counts once each of its die's markers has arrived, and with the last one the release is over and its thread has nothing posted to those dies. -/
def Sys2Proof.Claims.FlushEvents : Prop :=
  ∀ (core rid die path : Nat) (s : State) (r : Release), lfind (fun (x : Release) => x.num == rid) (coreAt s core).releases = some r →
    let ahead := fun (ps : List Piece) => ∃ p ∈ ps, die ∈ postedTo core [p] ∧ pathOf s core p = path
    let behind := (∃ w ∈ (coreAt s core).writes, w.num < rid ∧ w.held = false ∧ ahead w.pieces) ∨
      ∃ l ∈ (coreAt s core).loads, l.num < rid ∧ l.kind ≠ .load ∧ l.kind ≠ .fill ∧ ahead l.pieces
    (¬behind → (die < 4 ∨ linkWorks s path = true) → exec (.flushMarkerArrival core rid die path) s =
      .next (modCore s core fun c => { c with releases := c.releases.map fun x => if x.num = rid then
        { x with markers := x.markers.map fun m => if m.1 = die ∧ m.2 / 2 ^ path % 2 = 1 then (m.1, m.2 - 2 ^ path) else m } else x })) ∧
    (behind ∨ (4 ≤ die ∧ linkWorks s path = false) → exec (.flushMarkerArrival core rid die path) s = .next s) ∧
    ((die, 0) ∈ r.markers → die ∉ r.reports → (∃ m ∈ r.markers, m.1 ≠ die ∧ m.1 ∉ r.reports) → exec (.flushReportArrival core rid die) s =
      .next (modCore s core fun c => { c with releases := c.releases.map fun x => if x.num = rid then { x with reports := r.reports ++ [die] } else x })) ∧
    ((die, 0) ∈ r.markers → die ∉ r.reports → (∀ m ∈ r.markers, m.1 = die ∨ m.1 ∈ r.reports) → exec (.flushReportArrival core rid die) s =
      .next (modCore s core fun c => { modOwner c r.own (fun g => modThread g r.thr fun t => { t with posted := t.posted.filter fun d => !(r.markers.any fun m => m.1 == d) })
        with releases := c.releases.filter fun x => x.num != rid }))

/-- R6, R99, R234, R236, R243, R260 and R431: a unit of a store at its home puts its bytes of the store's data, byte 0 lowest, at the addresses of its piece, and every other byte reads as before; the store is done with its last unit, and waits with the others otherwise. A unit of a load read at its home is kept as the number that its bytes make, byte 0 lowest, and memory stays as it was; and what reaches the core is the number that the units make, the first lowest, those kept and those read now. For bytes on no alias page and no peer, of no team whose context is saved, with no store held for a mirror compare. -/
def Sys2Proof.Claims.PlainAccesses : Prop :=
  let plain := fun (p : Piece) => p.peer = false ∧ p.mx = 0 ∧ 0 < p.n ∧ p.n ≤ 128
  let place := fun (ps : List Piece) (j : Nat) => ((ps.take j).map (·.n)).sum
  (∀ (s : State) (k j : Nat) (w : Write) (p : Piece), Memory.wf s.mem = true → writeAt (coreAt s k) w.num = some w → w.pieces[j]? = some p → w.rmw = none → plain p →
    (p.loc < tsmBase ∨ sramBase ≤ p.loc ∨ ∀ t, teamAt s ((p.loc - tsmBase) / 2 ^ 18) = some t → groupsIn (coreAt s t.core).saved.groups ((p.loc - tsmBase) / 2 ^ 18) = []) →
    (∀ q ∈ (coreAt s k).ctx.groups, q.2.uid = w.own → ∃ x ∈ q.2.threads, x.ended = false) →
    let t := doUnit s k w j
    let at' := place w.pieces j
    Memory.wf t.mem = true ∧ (∀ i < p.n, (keyByte t p.key (p.loc + i)).toNat = w.data / 256 ^ (at' + i) % 256) ∧
    (∀ a, a < p.loc ∨ p.loc + p.n ≤ a → keyByte t p.key a = keyByte s p.key a) ∧
    (w.pieces.length = 1 → writeAt (coreAt t k) w.num = none) ∧
    (w.pieces.length ≠ 1 → writeAt (coreAt t k) w.num = some { w with
      pieces := w.pieces.eraseIdx j, data := w.data % 256 ^ at' + w.data / 256 ^ (at' + p.n) * 256 ^ at', begun := true })) ∧
  ∀ (s : State) (k : Nat) (l : Load), loadAt (coreAt s k) l.num = some l → (∀ p ∈ l.pieces, plain p) → (∀ w ∈ (coreAt s k).writes, w.held = false) →
    (∀ j p, l.pieces[j]? = some p → tfind l.got j = none →
      let t := readUnit s k l j
      t.mem = s.mem ∧ t.lineKey = s.lineKey ∧ ∃ v, v < 256 ^ p.n ∧ (∀ i < p.n, v / 256 ^ i % 256 = (keyByte s p.key (p.loc + i)).toNat) ∧
        loadAt (coreAt t k) l.num = some { l with got := tput l.got j v }) ∧
    ∃ s1 x, performLoad s k l = deliver s1 k l x ∧ s1 = { s with dies := s1.dies } ∧ x < 256 ^ place l.pieces l.pieces.length ∧
      ∀ j p i, l.pieces[j]? = some p → i < p.n → x / 256 ^ (place l.pieces j + i) % 256 =
        match tfind l.got j with
        | some v => v / 256 ^ i % 256
        | none => (keyByte s p.key (p.loc + i)).toNat

/-- Accesses reach their homes, stores' bytes land and loads' bytes are read, loads are installed, and releases drain: HomeEvents, PlainAccesses, LoadsInstalled and FlushEvents, each stated above. The choices of the model that they rest on are those of log entries 3 and 9. -/
def Obligations.HomeAndFlushEvents : Prop :=
  Sys2Proof.Claims.HomeEvents ∧ Sys2Proof.Claims.PlainAccesses ∧ Sys2Proof.Claims.LoadsInstalled ∧ Sys2Proof.Claims.FlushEvents

/-- R20, R27 and R29: the data of a load whose guess stands. Where no gdemand waits for them, an equal value clears every penumbra bit of its thread, if no other guess is left, and changes no value; a different one sets RF, and the value is kept for the replay. Where one waits, they change no register yet, a different value sets RF, and no late-arrival entry is made; and what installs them then puts their words, without penumbra, in the registers that still hold the guess, and the load is gone. They wait so because every word of the gdemand's step reads its operands before any word of it writes (R11, R13). -/
def Obligations.GuessResolution : Prop :=
  (∀ (s : State) (k slot i x y : Nat) (g : Group) (l : Load), groupAt (coreAt s k) slot = some g → Rising (coreAt s k).ctx.groups →
    (∀ q ∈ (coreAt s k).ctx.groups, q.2.uid = g.uid → q.1 = slot) → g.threads.length = 32 → i < 32 →
    l ∈ (coreAt s k).loads → (∀ q ∈ (coreAt s k).loads, q.num = l.num → q = l) → l.own = g.uid → l.thr = some i → l.op = none → l.kind = .load →
    l.written = true → l.guess = some x → l.detached = false → l.came = none →
    ∃ h, groupAt (coreAt (deliver s k l y) k) slot = some h ∧ (∀ d, (vreg (threadAt h i) d).val = (vreg (threadAt g i) d).val) ∧
      (demandedNow (coreAt s k) l = true → (threadAt h i).rf = ((threadAt g i).rf || decide (y ≠ x)) ∧ (coreAt (deliver s k l y) k).late = (coreAt s k).late ∧
        loadAt (coreAt (deliver s k l y) k) l.num = some { l with came := some y, pieces := [], op := none }) ∧
      (demandedNow (coreAt s k) l = false → y ≠ x → (threadAt h i).rf = true ∧ ∃ e ∈ (coreAt (deliver s k l y) k).late, e.own = g.uid ∧ e.thr = l.thr ∧ e.pc = l.pc ∧ e.pos = l.pos ∧ e.ea = l.ea ∧ e.val = y) ∧
      (demandedNow (coreAt s k) l = false → y = x → (threadAt h i).rf = (threadAt g i).rf ∧ ((threadAt g i).rf = false → (∀ q ∈ (coreAt s k).loads, q.guessed = true → q.concerns g.uid i = true → q = l) →
        (threadAt h i).cg = false ∧ ∀ d, (vreg (threadAt h i) d).pen = false))) ∧
  ∀ (c : Core) (slot i d v : Nat) (g : Group) (l : Load), groupAt c slot = some g → Rising c.ctx.groups → (∀ q ∈ c.ctx.groups, q.2.uid = g.uid → q.1 = slot) →
    g.threads.length = 32 → i < 32 → loadAt c l.num = some l → l.own = g.uid → l.thr = some i → l.came = some v → l.ty ≤ 6 → l.dsts = (List.range (tyRegs l.ty)).map (d + ·) →
    let e := installCame c l.num
    let words := fun (j : Nat) => if l.ty = 1 then (BitVec.ofNat 8 v).signExtend 32 else if l.ty = 3 then (BitVec.ofNat 16 v).signExtend 32 else BitVec.ofNat 32 (v / 2 ^ (32 * j))
    loadAt e l.num = none ∧ e.late = c.late ∧ ∃ h, groupAt e slot = some h ∧ (threadAt h i).rf = (threadAt g i).rf ∧
      (∀ j < tyRegs l.ty, d + j ∈ l.holds → vreg (threadAt h i) (d + j) = ⟨words j, false, false⟩) ∧
      ∀ r, r ∉ l.holds ∨ r ∉ l.dsts → vreg (threadAt h i) r = vreg (threadAt g i) r

/-- R15, R25, R130, R174, R178, R203, R208, R305, R318, R332 and R335: when each wait ends, and what its event then does. A bundle whose groups can be given the selector goes on: from register writes once none is pending; from a certainty point once no guess of the named threads is unresolved; from gdemand once the data of the loads are there; from a counter, a copy place or a matrix queue once there is room; from a rejoin mask once the threads of every group are released; from a barrier, before arriving or after, once its threads' phase is over, with their acquire; from barrier objects once each has turned; from a bitmap at each poll; from slp once every interval is over; from vgrow once the window fits; from a push once a slot is free beyond those for the pushes of a lower rank, or its time has passed; from owait once the counter is low enough; from translations once they have ended; and from a release, an acquire or the end of threads once no word of the step would wait for one. It is parked no more, its step is due again, or, at the swap point of an exchange, due once its selector chooses anew (R382); a sleep that ends clears the sleep times, and a rejoin the latches. An event of another kind, or before its time, changes nothing, but that a bundle whose phase has completed is parked no more. That a bundle goes on beside 8 active ones is the model's choice (log entry 76). -/
def Obligations.WaitEnds : Prop :=
  let ends := fun (mk : Nat → Nat → Instr) (mine : Wait → Bool) =>
    ∀ (core bid : Nat) (s : State) (b : Bundle) (w : Wait), bundleAt (coreAt s core) bid = some b → b.wait = some w →
      let c := coreAt s core
      let groups := fun (f : Group → Prop) => ∀ p ∈ b.parts, ∀ g, groupAt c p.slot = some g → f g
      let threads := fun (f : Group → Nat → Prop) => ∀ p ∈ b.parts, ∀ g, groupAt c p.slot = some g → ∀ j ∈ members p.mask, f g j
      let settled := ∀ x ∈ b.wordsAt, b.pos ≤ x.1 → planHold (tryWord s core b x.1 x.2) = none
      let turned := fun (kind n : Nat) => threads fun g j => arrived (threadAt g j) kind n = false
      let over' : Prop := match w with
        | .reg rs => ∀ r ∈ rs, ∀ g, groupAt c r.slot = some g → pendingReg c g r = false
        | .certainty ts => ∀ t ∈ ts, ∀ g, groupAt c t.1 = some g → unresolved c g t.2 = false
        | .demand ls => ∀ n ∈ ls, ∀ l, loadAt c n = some l → l.came ≠ none
        | .loads => settled
        | .queue needs => ∀ q ∈ needs, if q.1 = 4 then c.copies.length + q.2.2 ≤ 16 else if q.1 = 5 then (if q.2.1 / 2 % 2 = 0 then c.ctx.mq0 else c.ctx.mq1).length + q.2.2 ≤ 4
            else ∀ g, groupAt c q.2.1 = some g → (g.ops.filter fun o => o.cls == q.1).length + q.2.2 ≤ 65535
        | .jwait _ => ∀ p ∈ b.parts, ∃ q ∈ b.done, q.slot = p.slot
        | .arrive kind n => turned kind n
        | .barrier kind n => turned kind n ∧ threads fun g j => readsPending c g j = false
        | .bobj ws => ws = []
        | .cbwait => True
        | .slp => threads fun g j => ∀ d, (threadAt g j).sleep = some d → d ≤ s.now
        | .vgrow n => groups fun g => (windowFits c g.uid n).isSome = true
        | .tqpush ws d => (∃ x ∈ ws, waitingPushes s x.1 x.2 < queueFree s x.1) ∨ (match d with
            | some d => d ≤ s.now
            | none => ws = [])
        | .owait cls n => groups fun g => (g.ops.filter fun o => o.cls == cls).length ≤ n
        | .walk => groups fun g => ∀ x ∈ c.walks, x.own = g.uid → x.fatal = false → x.failed = false → ∃ i, x.thr = some i ∧ ∀ p ∈ b.parts, i ∉ members p.mask
        | .fence _ => b.parked = false ∨ settled
      let ready := groups fun g => g.swap = .resident ∧ g.faults = [] ∧ g.moving = false ∧ g.argsLeft = []
      let stays := match w with
        | .fence _ => b.parked
        | _ => !b.pinned
      let on := { b with wait := none, parked := false, yield := b.yield || (c.exch == .swap && stays) }
      (mine w = false → exec (mk core bid) s = .next s) ∧
      (mine w = true → over' → ready → exec (mk core bid) s = .next (modCore s core fun c => match w with
        | .slp => setBundle (wakeParts c b) bid on
        | .jwait _ => setBundle (loseParts c b.parts) bid { on with done := [] }
        | _ => setBundle c bid on)) ∧
      (mine w = true → ¬ (over' ∧ ready) → match w with
        | .barrier kind n => (turned kind n ∧ ready → exec (mk core bid) s = .next (modCore s core fun c => setBundle c bid { b with parked := false })) ∧
            (¬ (turned kind n ∧ ready) → exec (mk core bid) s = .next s)
        | .fence _ => True
        | .loads => True
        | _ => exec (mk core bid) s = .next s)
  let certainty : Wait → Bool
    | .certainty _ => true
    | _ => false
  let barrier : Wait → Bool
    | .barrier _ _ => true
    | _ => false
  let push : Wait → Bool
    | .tqpush _ _ => true
    | _ => false
  let sleep := fun (w : Wait) => w == .slp
  let poll := fun (w : Wait) => w == .cbwait
  ends .certainty certainty ∧ ends .barrierRelease barrier ∧ ends .sleepExpiry sleep ∧ ends .cbwaitPoll poll ∧ ends .tqpushTimeout push ∧
  ends .waitingStepIssue fun w => !(certainty w || barrier w || sleep w || poll w || push w)

/-- R170 to R172, R174 to R177, R184, R185, R369, R370, R396 and R428: a selector that may switch, in a period in which its tile cluster issues and the selector has issued no packet, takes the best of its candidates; without one, or out of turn, nothing changes. The candidates are its open bundles that wait for nothing, and, where it holds fewer than 8 active ones, the highest-ranked entry of each frontier and sub-group among those whose priority has been read and whose last thread joined in an earlier cycle; all of groups that can be given the selector. A candidate of a group that is not demoted comes first; then the promoted, then the higher priority, the older and the lower start; then an open bundle, and the lower slot. An open bundle goes on, and its threads lose their latches where another has had the selector; an entry is opened as a bundle of its threads at its start, with the threads of the highest-ranked entry of another group of its team and selector with the same start where both have 16 threads or fewer; spilled entries of the groups then return as there is room. That demotion goes before promotion is the model's choice (log entry 76), as are which entries fuse (log entry 63) and the clock at which the choice is made (log entry 74). -/
def Obligations.SelectorChoices : Prop :=
  ∀ (core sel : Nat) (s : State),
    let s1 := settleTc s (tcOf core)
    let c := coreAt s1 core
    let t := tcAt s1 (tcOf core)
    (∀ q ∈ c.ctx.groups, (q.2.frontier.map (·.start)).Nodup ∧ ∀ x ∈ q.2.subs, (x.2.frontier.map (·.start)).Nodup) →
    let ready := fun (g : Group) => g.swap = .resident ∧ g.faults = [] ∧ g.moving = false ∧ g.argsLeft = []
    let mine := fun (slot : Nat) => slot / 2 % 2 = sel
    let slotOf := fun (b : Bundle) => (b.parts.map (·.slot)).headD 0
    let above := fun (x y : Rank) => if x.promoted ≠ y.promoted then x.promoted = true else if x.promoted = false ∧ x.prio ≠ y.prio then y.prio < x.prio
      else if x.age ≠ y.age then x.age < y.age else x.start < y.start
    let rank := fun (e : FEntry) => (⟨e.promoted, e.prio, e.age, e.start.toNat⟩ : Rank)
    let takable := fun (e : FEntry) => e.ready = true ∧ e.joined < t.cyc
    let top := fun (es : List FEntry) (e : FEntry) => e ∈ es ∧ takable e ∧ ∀ y ∈ es, takable y → y.start ≠ e.start → above (rank e) (rank y)
    let cand := fun (x : Candidate) =>
      (∃ q ∈ c.ctx.bundles, mine (slotOf q.2) ∧ q.2.wait = none ∧ (∀ p ∈ q.2.parts, ∀ g, groupAt c p.slot = some g → ready g) ∧
        x.rank = ⟨q.2.promoted, q.2.prio, q.2.age, q.2.start.toNat⟩ ∧ x.slot = slotOf q.2 ∧ x.what = .bundle q.1 ∧
        (x.demoted = true ↔ ∃ p ∈ q.2.parts, ∃ g, groupAt c p.slot = some g ∧ g.demoted = true)) ∨
      ((c.ctx.bundles.filter fun q => decide (mine (slotOf q.2)) && !q.2.parked).length < 8 ∧
        ∃ q ∈ c.ctx.groups, mine q.1 ∧ ready q.2 ∧ ∃ e, x.demoted = q.2.demoted ∧ x.rank = rank e ∧ x.slot = q.1 ∧
          ((top q.2.frontier e ∧ x.what = .entry q.1 none e.start) ∨ ∃ y ∈ q.2.subs, top y.2.frontier e ∧ x.what = .entry q.1 (some y.1) e.start))
    let before := fun (x y : Candidate) =>
      if x.demoted ≠ y.demoted then x.demoted = false
      else above x.rank y.rank ∨ (¬ above y.rank x.rank ∧ (if x.isBundle ≠ y.isBundle then x.isBundle = true else x.slot < y.slot))
    let due := (c.exch ≠ .swap ∧ ∀ bid b, runOf c sel = some bid → bundleAt c bid = some b → b.yield = true ∨ (match b.wait with
        | none => False
        | some (.fence _) => b.parked = true
        | some _ => b.pinned = false)) ∧
      ¬ (t.stretch ≤ t.cyc ∧ t.cyc < t.halved ∧ t.cyc % 2 = 1) ∧ t.barred ≠ some t.cyc ∧ tfind c.packetAt sel ≠ some t.cyc
    let open' := fun (c0 : Core) (ps : List Part) (sub : Option Nat) (start : Word) (prio : Nat) =>
      { setRun (loseParts (setBundle c0 c0.next (newBundle ps sub start start 0 prio s1.now)) ps) sel (some c0.next) with next := c0.next + 1 }
    let without := fun (es : List FEntry) (start : Word) => es.filter fun y => y.start != start
    (¬ due ∨ (∀ x, ¬ cand x) → exec (.selectorChoice core sel) s = .next s) ∧
    ∀ x, due → cand x → (∀ y, cand y → y ≠ x → before x y) →
      (∀ bid b, x.what = .bundle bid → bundleAt c bid = some b → exec (.selectorChoice core sel) s = .next (modCore s1 core fun c =>
        let d := setBundle c bid { b with yield := false }
        if runOf c sel = some bid then d else setRun (loseParts d b.parts) sel (some bid))) ∧
      (∀ slot start g e, x.what = .entry slot none start → groupAt c slot = some g → lfind (fun (y : FEntry) => y.start == start) g.frontier = some e →
        let fuses := fun (q : Nat × Group) (y : FEntry) => q ∈ c.ctx.groups ∧ q.1 ≠ slot ∧ q.2.team = g.team ∧ mine q.1 ∧ ready q.2 ∧ g.argFailed = none ∧ q.2.argFailed = none ∧
          y ∈ q.2.frontier ∧ y.start = start ∧ takable y ∧ popcount y.wait ≤ 16
        let alone := fun (c : Core) => setGroup c slot { g with frontier := without g.frontier start }
        (16 < popcount e.wait ∨ (∀ q y, ¬ fuses q y) →
          exec (.selectorChoice core sel) s = .next (refillRun (modCore s1 core fun c => open' (alone c) [⟨slot, e.wait⟩] none start e.prio) core sel)) ∧
        ∀ q y, popcount e.wait ≤ 16 → fuses q y → (∀ q' y', fuses q' y' → q' ≠ q → above (rank y) (rank y') ∨ (¬ above (rank y') (rank y) ∧ q.1 < q'.1)) →
          exec (.selectorChoice core sel) s = .next (refillRun (modCore s1 core fun c =>
            open' (modGroup (alone c) q.1 fun z => { z with frontier := without z.frontier start })
              (if slot < q.1 then [⟨slot, e.wait⟩, ⟨q.1, y.wait⟩] else [⟨q.1, y.wait⟩, ⟨slot, e.wait⟩]) none start (max e.prio y.prio)) core sel)) ∧
      ∀ slot j start g z e, x.what = .entry slot (some j) start → groupAt c slot = some g → tfind g.subs j = some z → lfind (fun (y : FEntry) => y.start == start) z.frontier = some e →
        exec (.selectorChoice core sel) s = .next (refillRun (modCore s1 core fun c =>
          open' (setGroup c slot { g with subs := tmod g.subs j fun x => { x with frontier := without x.frontier start } }) [⟨slot, e.wait⟩] (some j) start e.prio) core sel)

/-- R184, R185, R225, R226, R395 and R428: a new entry's priority is read at BPTAB + 2 × start; an entry older than 4,096 cycles is promoted; a group with a streak of 3 is demoted; the live bit of an ended team clears where 8 cycles have passed; and a walk among the 64 oldest of its die ends with its leaf in the core's translation cache, its reads having brought their lines. -/
def Obligations.FrontierUpkeep : Prop :=
  (∀ (core slot start : Nat) (s : State) (g : Group) (e level at' : Nat), isControl core = false → groupAt (coreAt s core) slot = some g →
    (∃ x ∈ allEntries g, x.start = BitVec.ofNat 32 start ∧ x.ready = false ∧ x.fid = none) →
    let h := hdrOf s g.lseq
    let va := h.bptab + 2 * start
    let p := leafPiece s e (leafPpn e * 2 ^ 14 + va % 2 ^ levelShift level) 2
    walkerFree s (dieOf core) = true → walkTable s h.ptroot va 7 = .leaf e level at' → (∀ y ∈ g.spilled, y.start ≠ BitVec.ofNat 32 start) →
    let read := bringLines s false (walkReads s va 4 h.ptroot 0)
    exec (.blockPriorityRead core slot start) s = .next (modCore (bringLines (touchEntry read at' 7 e) false [p]) core fun c => modGroup c slot fun x =>
      modEntries x (BitVec.ofNat 32 start) fun y => if y.ready then y else { y with prio := pieceRead s p, ready := true })) ∧
  (∀ (core slot start : Nat) (s : State) (g : Group), groupAt (coreAt s core) slot = some g → g.spilled = [] →
    exec (.entryPromotion core slot start) s = .next (modCore s core fun c => setGroup c slot
      (modEntries g (BitVec.ofNat 32 start) fun e => if cycOf s core ≤ e.cyc + 4096 then e else { e with promoted := true }))) ∧
  (∀ (core slot : Nat) (s : State), exec (.groupDemotion core slot) s =
    .next (modCore s core fun c => modGroup c slot fun g => if g.streak < 3 then g else { g with demoted := true })) ∧
  (∀ (core cluster rank u : Nat) (s : State) (cl : Cluster) (t : Team), tfind s.clusters cluster = some cl → cl.teams[rank]? = some u → teamAt s u = some t →
    t.ended = true → tget 0 t.endCyc (tcOf core) + 8 ≤ cycOf s core → exec (.liveBitClear core cluster rank) s = .next (modCore s core fun c => { c with live := tmod c.live cluster fun m => m &&& ~~~(oneBit rank) })) ∧
  ∀ (core wid victim : Nat) (s : State) (w : Walk) (e level at' : Nat), lfind (fun (x : Walk) => x.num == wid) (coreAt s core).walks = some w →
    w.fid = none → w.fatal = false → w.failed = false → walksBefore s core w < 64 → walkTable s w.root w.va w.access = .leaf e level at' →
    let size := 2 ^ levelShift level
    exec (.translationWalk core wid victim) s = .next (modCore (touchEntry (bringLines s false (walkReads s w.va 4 w.root 0)) at' w.access e) core fun c =>
      cacheLeaf { c with walks := c.walks.filter fun x => x.num != w.num } victim ⟨w.root, w.va / size * size, size, touched w.access e⟩)

/-- R281, R286, R292 and R293: an update changes each cell of its rows by what it computes there, on the identity of its semiring where the row is fresh, and no other cell; its rows are fresh no more, and their guess flags are added. -/
def Sys2Proof.Claims.TileRows : Prop :=
  ∀ (t : Tile) (sr : Option Nat) (rows rg : Word) (ops : Nat → Nat → CellOps),
    let u := updateTile t sr rows rg ops
    let identity : Nat := match sr with
      | some 0 => 0x7F800000
      | some 1 => 0xFF800000
      | _ => 0
    (∀ r c, r < 32 → c < 64 → tget (0 : Word) u.cells (64 * r + c) =
      if hasBit rows r then BitVec.ofNat 32 ((ops r c).cell (if hasBit t.fresh r then identity else (tget (0 : Word) t.cells (64 * r + c)).toNat))
      else tget (0 : Word) t.cells (64 * r + c)) ∧
    (∀ r, r < 32 → hasBit u.fresh r = (hasBit t.fresh r && !hasBit rows r) ∧ hasBit u.rg r = (hasBit t.rg r || hasBit rg r)) ∧ u.place = t.place

/-- R108 to R110, R283, R284, R293, R295 and R296: the value of the cell of row r and column c after an update, from the elements of its fragments and the old cell: groups of eight products, each summed exactly and rounded once, are added in turn; i8 sums modulo 2^32; at level n of fidelity the low ⌊n·W/4⌋ bits of a product's significand of W bits are free, and its sign, its exponent, its scale and special values are exact; a semiring takes the least, the greatest, or the truth of its terms. -/
def Sys2Proof.Claims.CellValues : Prop :=
  ∀ (level fmt r c draw acc : Nat) (sr : Option Nat) (mx : Bool) (a b : List (List Word)) (xa xb : List Word),
    level ≤ 3 → fmt ≤ 7 → r < 32 → c < 64 → acc < 2 ^ 32 → (lget [] a r).length = 8 → (lget [] b (c / 2)).length = 16 →
    (mx = true → 2 ≤ fmt ∧ fmt ≤ 6) → (sr ≠ none → fmt = 0 ∧ level = 0 ∧ mx = false) →
    let w := lget 0 [16, 16, 8, 8, 8, 8, 4, 8] fmt
    let low := level * lget 0 [16, 22, 8, 6, 6, 8, 4, 16] fmt / 4
    let count := 256 / w
    let elem := fun (regs : List Word) (k : Nat) => (lget 0 regs (k * w / 32)).toNat / 2 ^ (k * w % 32) % 2 ^ w
    let ea := elem (lget [] a r)
    let eb := elem ((lget [] b (c / 2)).drop (8 * (c % 2)))
    let value := fun (e : Nat) => decodeF (lget bf16 [bf16, f16, e4m3, e5m2, e3m2, e2m3, e2m1] fmt) (if fmt = 4 ∨ fmt = 5 then e % 64 else e)
    let scaleA := fun (k : Nat) => (lget 0 xa r).toNat / 256 ^ (k / 32) % 256
    let scaleB := fun (k : Nat) => (lget 0 xb (c / 2)).toNat / 256 ^ (2 * (k / 32) + c % 2) % 256
    let isProduct := fun (k : Nat) (q : FVal) => ∃ q0,
      (match mulF (value (ea k)) (value (eb k)) with
        | .fin n m e => ∃ m', q0 = .fin n m' e ∧ (m = 0 → m' = 0) ∧ m' / 2 ^ low = m / 2 ^ low
        | x => q0 = x) ∧
      q = if mx = false then q0 else if scaleA k = 255 ∨ scaleB k = 255 then .nan false else match q0 with
        | .fin n m e => .fin n m (e + scaleA k + scaleB k - 254)
        | x => x
    let round := fun (xs : List FVal) => (encodeF f32 (sumF xs) .rn false).1
    let cell := (cellOps level sr fmt mx a b xa xb draw r c).cell acc
    (sr = none → fmt ≠ 7 → ∃ p : Nat → FVal, (∀ k < count, isProduct k (p k)) ∧
      cell = (List.range (count / 8)).foldl (fun x g => round [decodeF f32 x, decodeF f32 (round ((List.range 8).map fun i => p (8 * g + i)))]) acc) ∧
    (sr = none → fmt = 7 → ∃ z : Nat → Int,
      (∀ k < count, let p := (BitVec.ofNat 8 (ea k)).toInt * (BitVec.ofNat 8 (eb k)).toInt
        (p = 0 → z k = 0) ∧ (z k).natAbs / 2 ^ low = p.natAbs / 2 ^ low ∧ (0 < p → 0 ≤ z k) ∧ (p < 0 → z k ≤ 0)) ∧
      (cell : Int) = ((acc : Int) + ((List.range count).map z).sum) % 2 ^ 32) ∧
    (∀ top, sr = some (bit top) →
      let terms := acc :: (List.range 16).map fun k => (encodeF f32 (if top then mulF (value (ea k)) (value (eb k)) else sumF [value (ea k), value (eb k)]) .rn false).1
      let nan := fun (x : Nat) => (decodeF f32 x).isNan
      let below := fun (x y : Nat) => ltF (decodeF f32 x) (decodeF f32 y) = true ∨ (x = 0x80000000 ∧ y = 0)
      ((∀ x ∈ terms, nan x = true) → cell = 0x7FC00000) ∧
      ((∃ x ∈ terms, nan x = false) → cell ∈ terms ∧ nan cell = false ∧ ∀ x ∈ terms, nan x = false → if top then ¬ below cell x else ¬ below x cell)) ∧
    (sr = some 2 →
      let true' := acc % 2 ^ 31 ≠ 0 ∨ ∃ k < 16, (value (ea k)).isZero = false ∧ (value (eb k)).isZero = false
      (true' → cell = 0x3F800000) ∧ (¬ true' → cell = 0))

/-- What an update does to the rows of a tile and in each cell: TileRows and CellValues, each stated above. -/
def Obligations.TileUpdates : Prop :=
  Sys2Proof.Claims.TileRows ∧ Sys2Proof.Claims.CellValues

/-- R285, R289 to R291, R298 to R300, R318 and R323: the engine takes the word at the head of a queue, with a slot where it needs one; an update under way changes its tile, counts its checks and retires; the youngest team that holds slots gives them up where the rule says, and its tiles return together; and a 1 ms window moves the setpoints. The 131,072 draws of an update, the lowest free slot, and the age of a queue's oldest request are the model's choices (log entries 8, 31 and 72). -/
def Sys2Proof.Claims.MatrixEvents : Prop :=
  (∀ (core sel : Nat) (s : State) (w : MWord) (r : List MWord) (g : Group),
    let sh := useShadow (coreAt s core)
    let x := if sh then (coreAt s core).shadow else (coreAt s core).ctx
    x.engine = none → x.queue sel = w :: r → findUid x.groups w.own = some g →
    (evictedTiles x g.team = [] → needsSlot g w = false → exec (.matrixWordTake core sel) s = .next (takeWord s core sh (x.setQueue sel r) g w)) ∧
    (∀ n, evictedTiles x g.team = [] → needsSlot g w = true → slotFor s x sel = some n →
      exec (.matrixWordTake core sel) s = .next (takeWord s core sh (mapTile (x.setQueue sel r) w.own w.tile n) g w)) ∧
    (evictedTiles x g.team ≠ [] ∨ (needsSlot g w = true ∧ slotFor s x sel = none) → exec (.matrixWordTake core sel) s = .next s)) ∧
  (∀ (core : Nat) (s : State) (w : MWord) (g : Group) (sr : Option Nat) (fmt : Nat) (mx : Bool) (rows : Word) (a b : List (List Word)) (xa xb : List Word) (rg : Word),
    let sh := useShadow (coreAt s core)
    let x := if sh then (coreAt s core).shadow else (coreAt s core).ctx
    x.engine = some w → w.what = .update sr fmt mx rows a b xa xb rg → findUid x.groups w.own = some g →
    let level := if sr.isSome then 0 else (hdrOf s g.lseq).fid
    let ops := cellOps level sr fmt mx a b xa xb s.draws
    let y := modCtxUid { x with engine := none } w.own fun h => { h with tiles := tmod h.tiles w.tile fun t => updateTile t sr rows rg ops }
    let bad := (members rows).flatMap fun r => (ops r ((coreAt s core).chk % 64)).mismatches
    let counted := countChecks (modCore s core fun c => if sh then { c with shadow := y } else { c with ctx := y }) core g.team level (popcount rows * (32 / elemBits fmt * 8)) bad
    exec (.matrixUpdateComplete core) s = .next (endOwner (modCore { counted with draws := counted.draws + 131072 } core fun c =>
      w.ops.foldl (fun a o => finishFor a w.own (some o)) c) core w.own)) ∧
  (∀ (core u : Nat) (s : State),
    let sh := useShadow (coreAt s core)
    let x := if sh then (coreAt s core).shadow else (coreAt s core).ctx
    let slots := (x.groups.filter fun g => g.2.team == u).flatMap fun g => tileSlots g.2
    let y := evictTeam x u
    slotWaits s x = true → (sh = true ∨ ∀ v ∈ slotTeams x, teamIdle x v = true) →
    lbest (fun a b => decide (teamAge s b < teamAge s a)) (slotTeams x) = some u → engineFor x u = false →
    exec (.tileEviction core) s = .next (modCore (saveTiles s x u) core fun c => if sh then { c with shadow := y } else { c with ctx := y }) ∧
    y.accFree = freeSlots x.accFree slots ∧ (∀ slot g, tfind x.groups slot = some g → g.team ≠ u → tfind y.groups slot = some g) ∧
    (Rising x.groups → (∀ q ∈ x.groups, Rising q.2.tiles) → ∀ (j slot tile : Nat) (t : Tile), (teamTiles x u)[j]? = some (slot, tile, t) →
      ∃ g, tfind y.groups slot = some g ∧ tfind g.tiles tile = some { t with place := .evicted j })) ∧
  (∀ (core team : Nat) (s : State) (t : Team),
    let sh := useShadow (coreAt s core)
    let x := if sh then (coreAt s core).shadow else (coreAt s core).ctx
    let es := evictedTiles x team
    teamAt s team = some t →
    (es ≠ [] → es.length ≤ x.accFree.length → olderWaits s x team = false → Rising x.groups → (∀ q ∈ x.groups, Rising q.2.tiles) → x.accFree.Nodup →
      ∃ y, exec (.tileReturn core team) s = .next (modCore s core fun c => if sh then { c with shadow := y } else { c with ctx := y }) ∧
        y.accFree = x.accFree.drop es.length ∧ (∀ slot g, tfind x.groups slot = some g → g.team ≠ team → tfind y.groups slot = some g) ∧
        (∀ (i slot tile j n : Nat) (g : Group) (old : Tile), es[i]? = some (slot, tile, j) → x.accFree[i]? = some n → tfind x.groups slot = some g → tfind g.tiles tile = some old →
          ∃ h, tfind y.groups slot = some h ∧ tfind h.tiles tile = some (loadTile s t j n old)) ∧
        ∀ slot tile g old, tfind x.groups slot = some g → tfind g.tiles tile = some old → (∀ j, (slot, tile, j) ∉ es) →
          ∃ h, tfind y.groups slot = some h ∧ tfind h.tiles tile = some old) ∧
    (es = [] ∨ x.accFree.length < es.length ∨ olderWaits s x team = true → exec (.tileReturn core team) s = .next s)) ∧
  ∀ (core : Nat) (s : State),
    let c := coreAt s core
    (s.now < c.winAt + 1000000 → exec (.railLoopWindow core) s = .next s) ∧
    (c.winAt + 1000000 ≤ s.now → exec (.railLoopWindow core) s =
      .next (setCore s core { [(0, 1), (0, 2), (1, 2), (0, 3), (1, 3), (2, 3)].foldl (fun a (x : Nat × Nat) => railStep (floorOf s) a x.1 x.2) c
        with win := [], winAt := c.winAt + 1000000 }))

/-- R300: at the end of a window a slice whose mismatches exceed the declared rate rises by 10 mV, no further than the nominal rail; after 64 windows at a quarter of the rate or less it falls by 5 mV, no further than the floor that the configuration image in force gives the level; no other setpoint moves. -/
def Sys2Proof.Claims.RailLoop : Prop :=
  ∀ (floor : Nat → Nat) (c : Core) (j level : Nat), 1 ≤ level → level ≤ 3 →
    let i := 4 * j + level
    let bad := (tget (0, 0) c.win i).1
    let macs := (tget (0, 0) c.win i).2
    let inverse := if level = 1 then 10 ^ 9 else if level = 2 then 10 ^ 8 else 10 ^ 7
    let now := tget Config.nominalRail c.sp i
    let after := fun (n : Nat) => tget Config.nominalRail (railStep floor c j level).sp n
    (∀ n, n ≠ i → after n = tget Config.nominalRail c.sp n) ∧
    (macs < bad * inverse → after i = min (now + 10) Config.nominalRail) ∧
    (¬ macs < bad * inverse → 4 * bad * inverse ≤ macs → tget 0 c.quiet i = 63 → after i = min now (max (now - 5) (floor level))) ∧
    (¬ macs < bad * inverse → (macs < 4 * bad * inverse ∨ tget 0 c.quiet i ≠ 63) → after i = now)

/-- R289, R292 and R319 to R323: what the engine does with a word that it has taken, of a group of the running context. ard writes eight cells of each of its rows to registers of the row's thread: as they are, as pairs of bf16 or f16, the even cell low, or as fours of saturated e4m3, with the row's guess flag as their penumbra; a fresh row, and an unmapped tile, read zeros. ast makes of the same words one write of each thread, in the order of its threads, each of whose bytes begin with the first word. azero clears the cells and guess flags of its tile and makes every row fresh; arel takes the tile off its group's map and gives its slot back. A tile mapped for a word takes its slot, with every row fresh. Nothing else of the group's tiles changes. ast is stated for a team of no mirror pair. -/
def Sys2Proof.Claims.WordsTaken : Prop :=
  (∀ (s : State) (k slot : Nat) (x : Ctx) (g : Group) (w : MWord), tfind x.groups slot = some g → g.uid = w.own → g.threads.length = 32 →
    let t := takeWord s k false x g w
    let c := coreAt t k
    let tile := tfind g.tiles w.tile
    let cell := fun (cg r j : Nat) => match tile with
      | none => (0 : Word)
      | some y => if hasBit y.fresh r then 0 else tget (0 : Word) y.cells (64 * r + 8 * cg + j)
    let enc := fun (f : Fmt) (sat : Bool) (y : Word) => (encodeF f (decodeF f32 y.toNat) .rn sat).1
    let count := fun (cv : Nat) => lget 2 [8, 4, 4] cv
    let word := fun (cv cg r i : Nat) => match cv with
      | 0 => cell cg r i
      | 1 => BitVec.ofNat 32 (enc bf16 false (cell cg r (2 * i)) + enc bf16 false (cell cg r (2 * i + 1)) * 2 ^ 16)
      | 2 => BitVec.ofNat 32 (enc f16 false (cell cg r (2 * i)) + enc f16 false (cell cg r (2 * i + 1)) * 2 ^ 16)
      | _ => BitVec.ofNat 32 ((List.range 4).map fun j => enc e4m3 true (cell cg r (4 * i + j)) * 2 ^ (8 * j)).sum
    t.mem = s.mem ∧
    (∀ cv cg rows d, w.what = .ard cv cg rows ((List.range (count cv)).map (d + ·)) → ∃ h, groupAt c slot = some h ∧ h.tiles = g.tiles ∧ ∀ r < 32,
      (∀ i < count cv, vreg (threadAt h r) (d + i) = if hasBit rows r then ⟨word cv cg r i, (match tile with
        | some y => hasBit y.rg r
        | none => false), false⟩ else vreg (threadAt g r) (d + i)) ∧
      ∀ q, q < d ∨ d + count cv ≤ q → vreg (threadAt h r) q = vreg (threadAt g r) q) ∧
    (∀ cv cg ts v, w.what = .ast cv cg ts → w.ops.length = ts.length → teamAt s g.team = some v → v.role = .plain →
      groupAt c slot = some g ∧ c.next = (coreAt s k).next + ts.length ∧ ∃ ws : List Write, c.writes = (coreAt s k).writes ++ ws ∧ ws.length = ts.length ∧
        ∀ (i j : Nat) (ps : List Piece) (op : Nat), ts[i]? = some (j, ps) → w.ops[i]? = some op → ws[i]? = some
          { num := (coreAt s k).next + i, own := w.own, slot := w.slot, thr := some (32 + j), po := oneBit j, lseq := g.lseq, pieces := ps,
            data := ((List.range (count cv)).map fun n => (word cv cg j n).toNat * 2 ^ (32 * n)).sum,
            rmw := none, rel := false, ty := 4, op := some op, held := false, window := 0, begun := false }) ∧
    (w.what = .azero → ∀ g0, let c := coreAt (takeWord s k false x g0 w) k
      c.ctx.accFree = x.accFree ∧ ∃ h, groupAt c slot = some h ∧
      ∀ n, tfind h.tiles n = if n = w.tile then tile.map fun y => { y with cells := [], rg := 0, fresh := 0xFFFFFFFF } else tfind g.tiles n) ∧
    (w.what = .arel → (∃ h, groupAt c slot = some h ∧ ∀ n, tfind h.tiles n = if n = w.tile then none else tfind g.tiles n) ∧
      ∀ n, n ∈ c.ctx.accFree ↔ n ∈ x.accFree ∨ ∃ y, tile = some y ∧ y.place = .slot n)) ∧
  ∀ (x : Ctx) (slot tile n : Nat) (g : Group), tfind x.groups slot = some g →
    let y := mapTile x g.uid tile n
    (∀ m, m ∈ y.accFree ↔ m ∈ x.accFree ∧ m ≠ n) ∧ ∃ h, tfind y.groups slot = some h ∧
      ∀ m, tfind h.tiles m = if m = tile then some ⟨.slot n, [], 0, 0xFFFFFFFF⟩ else tfind g.tiles m

/-- The matrix engine, the words that it takes, its slots and the rail loop: MatrixEvents, WordsTaken and RailLoop, each stated above. The choices of the model that they rest on are those of log entries 8, 31 and 72. -/
def Obligations.MatrixAndRailEvents : Prop :=
  Sys2Proof.Claims.MatrixEvents ∧ Sys2Proof.Claims.WordsTaken ∧ Sys2Proof.Claims.RailLoop

/-- R302, R303, R305 to R309: a request starts once the accesses before it have been performed and, in a mirror pair, its window has been compared; a burst of it is performed, its write to another die or a peer behind the core's earlier writes to the line (R274); and it retires in its group's order, with its status byte written and its counter down, and a group id that it names loses it: an id that is closing, and that no other request names, is closed, and the mcfree words that wait for that have their operation finished. -/
def Sys2Proof.Claims.CopyRequests : Prop :=
  ∀ (core cid : Nat) (s : State) (x : Copy), copyAt (coreAt s core) cid = some x →
    let c := coreAt s core
    (x.started = false → x.ghost = false → gateOpen c x = true → (∀ n ∈ x.after, (∀ w ∈ c.writes, w.num ≠ n) ∧ ∀ l ∈ c.loads, l.num ≠ n) →
      exec (.copyStart core cid) s = .next (modCore s core fun a => { a with copies := a.copies.map fun y =>
        if y.num = cid then { y with started := true, left := [(0, recLen y.bytes * (copyRanks y).length)] } else y })) ∧
    (∀ first n p src s1 s2, x.started = true → x.fid = none → walkerFree s (dieOf core) = true → covers x.left first n = true → burstShape s x first n = true →
      let lseq := copyLaunch s core x
      let srcs := src.flatMap fun y => y.getD []
      let data := src.map fun y => y.map (piecesRead s2)
      burstDst s core (hdrOf s lseq) x first n = (s1, .found [p]) → sourceBytes core (hdrOf s lseq) x n s1 first = (s2, none, src) →
      piecesWay s (p :: srcs) = .opened → mirrorPiece s x p = none →
      (lineBars c core c.next p = true → exec (.copyBurst core cid first n) s = .next s) ∧ (lineBars c core c.next p = false →
      let shut := p.mx != 0 && (recKind x.bytes == 4 || recKind x.bytes == 5)
      exec (.copyBurst core cid first n) s = .next (modCore (land (bringLines s2 false srcs) x lseq p data) core fun a => { a with copies := a.copies.map fun y =>
        if y.num = x.num then { y with left := without y.left first n, err := y.err || (data.any Option.isNone || shut), nr := y.nr || false } else y }))) ∧
    (x.started = true → x.left = [] → x.fid = none → (∀ y ∈ c.copies, y.own = x.own → x.num ≤ y.num) → mateCopy s core x = none →
      let out := modCore (landed { s with mem := memWrite s.mem (tsmLoc x.team (x.off + 31)) 1 (1 + (if x.nr then 2 else 0) + (if x.err then 4 else 0)) }
          x.own [sramPiece (tsmLoc x.team (x.off + 31)) 1 (dieOf core)]) core fun a =>
          finishFor { a with copies := a.copies.filter fun y => y.num != x.num } x.own (some x.op)
      (recGidOn x.bytes = false → exec (.copyRetire core cid) s = .next (endOwner out core x.own)) ∧
      ∀ v g, recGidOn x.bytes = true → teamAt s x.team = some v → gidOf s v.cluster (recGid x.bytes) = some g →
        let others := g.reqs.filter fun r => r != core * 2 ^ 40 + x.num
        (g.closing = false ∨ others ≠ [] → exec (.copyRetire core cid) s =
          .next (endOwner (modGid out v.cluster (recGid x.bytes) fun _ => some { g with reqs := others }) core x.own)) ∧
        (g.closing = true → others = [] → exec (.copyRetire core cid) s = .next (endOwner (g.waiters.foldl (fun a w =>
          endOwner (modCore a w.1 fun d => finishFor d w.2.1 (some w.2.2)) w.1 w.2.1) (modGid out v.cluster (recGid x.bytes) fun _ => none)) core x.own)))

/-- R303, R306, R309 and R310: what a burst moves. Byte i of a delivery is read at src + i, or in a gather at the element that its index names, and goes to dst + i, or in a scatter to the element that its index names; a multicast goes to that offset of the team of each of its ranks. In the issuing team's own memory the places follow; a byte outside it is not read, and a destination outside it is not written. The destination's bytes become the source's, or in an accumulate each element becomes Encode(d + s), rounded to nearest; a byte, or an element, whose source cannot be read stays as it was, and no other byte changes; and the object that the record names, of the team that receives the bytes, or of the issuing one, is counted down by all of them, with ERR where one was not written. For a destination on no alias page and no peer, of a team whose context is not saved. -/
def Sys2Proof.Claims.CopyBytes : Prop :=
  let saved := fun (s : State) (u : Nat) => ∀ t, teamAt s u = some t → groupsIn (coreAt s t.core).saved.groups u = []
  (∀ (s : State) (x : Copy) (lseq : Nat) (p : Piece) (data : List (Option Nat)), Memory.wf s.mem = true → p.peer = false → p.mx = 0 → 0 < p.n → p.n ≤ 64 → data.length = p.n →
    (∀ b, some b ∈ data → b < 256) → (∀ i < p.n, tsmBase ≤ p.loc + i → p.loc + i < sramBase → saved s ((p.loc + i - tsmBase) / 2 ^ 18)) →
    let kind := recKind x.bytes
    let unit := if kind = 4 then 4 else 2
    let f := if kind = 4 then f32 else bf16
    let team := if tsmBase ≤ p.loc ∧ p.loc < sramBase then (p.loc - tsmBase) / 2 ^ 18 else x.team
    let elem := fun (i : Nat) => { p with loc := p.loc + unit * i, n := unit }
    ∃ t, land s x lseq p data = (if recBobj x.bytes = 0xFFFF then t else bobjBytes t x.own (tsmLoc team (16 * recBobj x.bytes)) p.n (decide (none ∈ data))) ∧
      Memory.wf t.mem = true ∧ (∀ a, a < p.loc ∨ p.loc + p.n ≤ a → keyByte t p.key a = keyByte s p.key a) ∧
      (kind ≠ 4 → kind ≠ 5 → ∀ i < p.n, (∀ b, data[i]? = some (some b) → (keyByte t p.key (p.loc + i)).toNat = b) ∧
        (data[i]? = some none → keyByte t p.key (p.loc + i) = keyByte s p.key (p.loc + i))) ∧
      (kind = 4 ∨ kind = 5 → p.n % unit = 0 → ∀ i < p.n / unit, let d := (data.drop (unit * i)).take unit
        (none ∈ d → pieceRead t (elem i) = pieceRead s (elem i)) ∧
        (none ∉ d → pieceRead t (elem i) =
          (encodeF f (addF (decodeF f (pieceRead s (elem i))) (decodeF f (((List.range unit).map fun j => ((d[j]?).getD none).getD 0 * 256 ^ j).sum))) .rn false).1))) ∧
  ∀ (s : State) (core : Nat) (h : Hdr) (x : Copy) (first n : Nat),
    let len := recLen x.bytes
    let e := recUnit x.bytes
    let index := fun (i : Nat) => memRead s.mem (tsmLoc x.team (recAux x.bytes + 4 * (i / e))) 4
    let src := fun (i : Nat) => if recKind x.bytes = 1 then recSrc x.bytes + index i * e + i % e else recSrc x.bytes + i
    let dst := fun (i : Nat) => if recKind x.bytes = 2 then recDst x.bytes + index i * e + i % e else recDst x.bytes + i
    let j := first % len
    (recSrcSp x.bytes = 1 → recIndexed x.bytes = false → sourceBytes core h x n s first =
      (s, none, (List.range n).map fun i => let a := src ((first + i) % len)
        if a + 1 ≤ h.tsm then some [sramPiece (tsmLoc x.team a) 1 (dieOf core)] else none)) ∧
    (recSrcSp x.bytes = 1 → recIndexed x.bytes = true → 0 < e → sourceBytes core h x n s first =
      (s, none, (List.range n).map fun i => let a := (first + i) % len
        if src (a / e * e) + e ≤ h.tsm ∧ src a + 1 ≤ h.tsm then some [sramPiece (tsmLoc x.team (src a)) 1 (dieOf core)] else none)) ∧
    (recDstSp x.bytes = 1 → recKind x.bytes ≠ 3 → burstDst s core h x first n =
      (s, if dst j + n ≤ h.tsm then .found [sramPiece (tsmLoc x.team (dst j)) n (dieOf core)] else .bad)) ∧
    ∀ t u v r, recKind x.bytes = 3 → teamAt s x.team = some t → (members (BitVec.ofNat 32 (recAux x.bytes)))[first / len]? = some r → rankTeam s t r = some (u, v) →
      burstDst s core h x first n = (s, if v.ended then .gone else .found [sramPiece (tsmLoc u (recDst x.bytes + j)) n (dieOf v.core)])

/-- Copy requests and what they move: CopyRequests and CopyBytes, each stated above. -/
def Obligations.CopyEvents : Prop :=
  Sys2Proof.Claims.CopyRequests ∧ Sys2Proof.Claims.CopyBytes

/-- R339 to R342 and R419: the command processor takes the first queue's entry: VALID clears, HEAD advances and the launch gets the next number; an entry that is no launch completes with status 1; a header that can be read is checked, and the launch is rejected at the first field that fails or dealt; a doorbell sets TAIL where HEAD allows it, and without the PCIe attachment there is none. An entry that is not launched waits for room for its event. That the ring and its control block are read and written under no key slot is the model's choice (log entry 76). -/
def Obligations.QueueEvents : Prop :=
  (∀ (n : Nat) (s : State) (q : Queue) (e : Nat), s.stopped = false → s.boot.up = true → takeAgain s n = none → firstQueue s = some (n, q, e) →
    let lseq := s.lastLseq + 1
    let head := (q.head + 1) % 2 ^ 32
    let rings := ringWrite (ringWrite s q (q.slotLoc q.head + 9) 1 (entryFlags e - 1)) q (q.loc + 0x20) 4 head
    let taken := { rings with lastLseq := lseq, queues := tput s.queues n { q with head := head } }
    rings.mem = memWrite (memWrite s.mem (q.slotLoc q.head + 9) 1 (entryFlags e - 1)) (q.loc + 0x20) 4 head ∧
    (entryBad e = true → exec (.queueEntryTake n) s = .next (if canSend s s.primary then sendCompl taken lseq 0 1 (entryTag e) else s)) ∧
    (entryBad e = false → mustWait s q.root (slice e 63 0) = true → exec (.queueEntryTake n) s = .next s) ∧
    (∀ s1 ps, entryBad e = false → mustWait s q.root (slice e 63 0) = false →
      engineG q.root 0 3 { taken with launches := tput taken.launches lseq (newLaunch lseq n (slice e 63 0) q.root (entryTag e) (entryPrio e)) } (slice e 63 0) 160 = (s1, .found ps) →
      exec (.queueEntryTake n) s = .next (startLaunch (bringLines s1 false ps) lseq (hdrOfBytes (piecesRead s1 ps))))) ∧
  (∀ (s : State) (lseq off : Nat) (h : Hdr), badHeader h = some off →
    startLaunch s lseq h = complete (modLaunch { modLaunch s lseq (fun l => { l with hdr := h, since := s.now }) with retake := s.retake.filter (· != lseq) } lseq
      fun l => { l with badoff := off }) lseq 1) ∧
  (∀ (s : State) (lseq : Nat) (h : Hdr), badHeader h = none →
    startLaunch s lseq h = dealAll { modLaunch s lseq (fun l => { l with hdr := h, since := s.now }) with retake := s.retake.filter (· != lseq) }) ∧
  ∀ (n value : Nat) (entries : List Nat) (s : State) (q : Queue), queueAt s n = some q → n < 16 →
    let v := value % 2 ^ 32
    let seen := { s with mem := if q.host then memWrite (hostEntries q q.tail (entries.take q.cap) s.mem) q.loc 4 v else s.mem }
    (attached s 0 = true → (v + 2 ^ 32 - q.head % 2 ^ 32) % 2 ^ 32 ≤ q.cap →
      exec (.hostQueueDoorbell n value entries) s = .next { seen with queues := tput s.queues n { q with tail := v } }) ∧
    (attached s 0 = true → q.cap < (v + 2 ^ 32 - q.head % 2 ^ 32) % 2 ^ 32 → exec (.hostQueueDoorbell n value entries) s = .next seen) ∧
    (attached s 0 = false → exec (.hostQueueDoorbell n value entries) s = .next s)

/-- R347, R348, R350, R345 and R353: a scheduler deals, considers its candidates in order and deals again; an argument word arrives in its register; a request for work is refused where the victim has at most one TCB, or has shipped all of them in this interval, and otherwise moves the last of them that it has not shipped, as many as half of all, rounded up; and a refused scheduler's wait ends. That the intervals of R353 are the multiples of 10,000 ns, that a group swapped out has the argument written to its saved context at once, and that a word beyond the address space fails its group at once are the model's choices (log entries 32, 37 and 77). -/
def Obligations.ScheduleEvents : Prop :=
  (∀ (tc : Nat) (s : State), tc < 40 → s.stopped = false →
    exec (.schedulerDecision tc) s = .next (dealAll (admitList false tc (considered (dealAll s) tc) (dealAll s)))) ∧
  (∀ (core slot i : Nat) (s : State) (g : Group) (e level at' : Nat), groupAt (coreAt s core) slot = some g → i ∈ g.argsLeft → g.faults = [] →
    let va := (hdrOf s g.lseq).args + 4 * i
    (va + 4 ≤ 2 ^ 56 → walkerFree s (dieOf core) = true → walkTable s (hdrOf s g.lseq).ptroot va 0 = .leaf e level at' →
      let walked := bringLines s false (walkReads s va 4 (hdrOf s g.lseq).ptroot 0)
      let p := leafPiece s e (leafPpn e * 2 ^ 14 + va % 2 ^ levelShift level) 4
      let x := { setS g i (BitVec.ofNat 32 (pieceRead s p)) false with argsLeft := g.argsLeft.filter (· != i) }
      let t := modCore (bringLines (touchEntry walked at' 0 e) false [p]) core fun c => setGroup c slot x
      exec (.argumentRead core slot i) s = .next (if g.swap = .out then saveContext t x else t)) ∧
    (2 ^ 56 < va + 4 → exec (.argumentRead core slot i) s = .next (modCore s core fun c => modOwner c g.uid fun x =>
      { x with argsLeft := [], argFailed := some (BitVec.ofNat 64 va) }))) ∧
  (∀ (tc victim : Nat) (s : State), mayAsk s tc = true →
    let left := (victims tc).filter fun v => !(tcAt s tc).steal.contains v && dieRuns s (v / 10)
    let xs := shippable s victim
    let free := xs.filter fun q => !(q.shipped.any fun at' => at' / 10000 == s.now / 10000)
    let ship := free.drop (free.length - (xs.length + 1) / 2)
    left.head? = some victim →
    ((xs.length ≤ 1 ∨ free = []) → left.length ≤ 1 → exec (.stealRequest tc victim) s = .next (modTc s tc fun t => { t with steal := [], stealAt := some (s.now + 10000) })) ∧
    ((xs.length ≤ 1 ∨ free = []) → 1 < left.length → exec (.stealRequest tc victim) s = .next (modTc s tc fun t => { t with steal := t.steal ++ [victim], stealAt := none })) ∧
    (1 < xs.length → free ≠ [] → exec (.stealRequest tc victim) s = .next (modTc
      (modTc s victim fun t => { t with queue := t.queue.filter fun q => !ship.contains q }) tc fun t =>
        { t with steal := [], queue := t.queue ++ ship.map fun q => { q with shipped := some s.now } }))) ∧
  ∀ (tc d : Nat) (s : State), (tcAt s tc).stealAt = some d →
    exec (.stealRetry tc) s = .next (if d ≤ s.now then modTc s tc fun t => { t with stealAt := none } else s)

/-- R8, R188, R345 and R350: a team placed on a core has its groups at an even slot, each with all 32 threads at the launch's entry, every register zero, and its window; its tile cluster is charged for it once. -/
def Obligations.TeamStarts : Prop :=
  ∀ (s t : State) (start : Bool) (lseq : Nat) (h : Hdr) (x : Seat), placeTeam start lseq h s x = some t →
    budgetOk s (tcOf x.core) h start = true ∧ coreFits s lseq h x.core 1 = true ∧ oldBars s (tcOf x.core) (candidateOf s lseq x.idx) = false ∧
    (tcAt t (tcOf x.core)).er =
      (if (tcAt s (tcOf x.core)).eb < h.energy ∨ (tcAt s (tcOf x.core)).ib < h.peakamp then 0 else (tcAt s (tcOf x.core)).er - h.energy) ∧ (tcAt t (tcOf x.core)).ic = (tcAt s (tcOf x.core)).ic + h.peakamp ∧
    (tcAt t (tcOf x.core)).adm = (tcAt s (tcOf x.core)).adm + 1 ∧
    ∃ e team, e % 2 = 0 ∧ teamAt t x.uid = some team ∧ team.core = x.core ∧ team.idx = x.idx ∧ team.slots = (List.range h.groups).map (e + ·) ∧
      ∀ n < h.groups, groupAt (coreAt s x.core) (e + n) = none ∧ ∃ g, groupAt (coreAt t x.core) (e + n) = some g ∧ g.lseq = lseq ∧ g.team = x.uid ∧ g.gnum = n ∧
        g.win = windowOf h.regs ∧ g.threads = List.replicate 32 Thread.start ∧ g.s = [] ∧
        g.frontier.map (fun f => (f.start, f.wait)) = [(BitVec.ofNat 32 h.entry, 0xFFFFFFFF)]

/-- R189, R191 and R192: a group's context begins to leave where another waits for a window; its window is free once its loads and readouts have come and it is written, and its latches are lost; it returns to the lowest granules that fit; and compaction takes up the windows that may move and then packs them. Which windows leave and move in one event, the lowest granules, and the order of packing are the model's choices (log entries 31, 37 and 38). -/
def Sys2Proof.Claims.WindowEvents : Prop :=
  (∀ (core slot : Nat) (s : State), windowWanted s core = true → (∀ g ∈ (coreAt s core).ctx.groups, g.2.swap ≠ .leaving) → swapVictim s core = some slot →
    exec (.groupSwapOut core) s = .next (modCore s core fun c => modGroup c slot fun g => { g with swap := .leaving })) ∧
  (∀ (core slot : Nat) (s : State) (g : Group), groupAt (coreAt s core) slot = some g →
    (g.swap = .leaving → (hasReadout (coreAt s core) g = true ∨ hasLoad (coreAt s core) g = true) → exec (.swapOutComplete core slot) s = .next s) ∧
    (g.swap = .leaving → hasReadout (coreAt s core) g = false → hasLoad (coreAt s core) g = false → exec (.swapOutComplete core slot) s = .next (modCore (saveContext s g) core fun c =>
      loseParts (setGroup (stopRuns c slot) slot { g with swap := .out, base := none, moving := false, dogStop := some s.now }) [⟨slot, 0xFFFFFFFF⟩])) ∧
    (∀ b, g.swap = .out → wantsWindow s core slot g = true → windowFits (coreAt s core) g.uid g.win = some b →
      exec (.groupSwapIn core slot) s = .next (modCore s core fun c => setGroup c slot (runDog s.now { loadContext s g with swap := .resident, base := some b })))) ∧
  (∀ (core : Nat) (s : State), (coreAt s core).compacting = true →
    exec (.compaction core) s = .next (modCore s core fun c => { c with ctx := { c.ctx with
      groups := tmap c.ctx.groups fun slot g => if g.base.isSome && !activeGroup c slot then { g with moving := true } else g } })) ∧
  ∀ (core : Nat) (s : State),
    let c := coreAt s core
    let ws := c.ctx.groups.filter fun g => g.2.base.isSome
    let order := (ws.map fun g => (g.1, g.2.base.getD 0, windowGranules g.2.win)).foldl (fun a x => insertWindow x a) []
    c.compacting = true → (∀ g ∈ ws, g.2.moving = true) →
    exec (.compactionComplete core) s = .next (decideTc false (setCore s core { packWindows order 0 c with compacting := false }) (tcOf core))

/-- R381 to R383: GO starts an exchange of a core that exists on an idle die; the saved context, with its teams' TSM and tiles, fills the shadow bank; at both selectors' swap points the banks change over, with the charges of their teams; and once the outgoing groups have nothing left to write, their context, TSM and tiles are saved and BUSY clears. That the change of banks is one step is the model's choice (log entry 39). -/
def Sys2Proof.Claims.ExchangeEvents : Prop :=
  (∀ (die value : Nat) (s : State), die < 4 →
    (value / 256 % 2 = 0 → exec (.preqGo die value) s = .next (modDie s die fun d => { d with preqCore := value % 256 })) ∧
    (value / 256 % 2 = 1 → (dieAt s die).preqBusy = false → value % 256 ≤ 159 →
      exec (.preqGo die value) s = .next (modCore (modDie s die fun d => { d with preqCore := value % 256, preqBusy := true }) (160 * die + value % 256)
        fun c => { c with exch := .fill })) ∧
    (value / 256 % 2 = 1 → ((dieAt s die).preqBusy = true ∨ 159 < value % 256) → exec (.preqGo die value) s = .next s)) ∧
  ∀ (core : Nat) (s : State),
    let c := coreAt s core
    (c.exch = .fill → exec (.exchangeFillComplete core) s = .next (modCore ((ctxTeams c.saved).foldl loadTsm s) core fun a =>
      { a with shadow := fillContext s c.saved, saved := Ctx.empty, exch := .swap })) ∧
    (c.exch = .swap → atSwapPoint c 0 = true → atSwapPoint c 1 = true →
      let out := ctxDogs (stopDog s.now) { c.ctx with run0 := none, run1 := none }
      let back := ctxLatches (ctxDogs (runDog s.now) c.shadow)
      exec (.exchangeSwap core) s = .next ((back.groups.map (·.1)).foldl (fun a slot => endGroup a core slot)
        (modTc (setCore s core { c with ctx := { back with run0 := none, run1 := none }, shadow := out, exch := .spill }) (tcOf core)
          fun t => { t with ic := t.ic - ctxAmps s out + ctxAmps s back }))) ∧
    (c.exch = .spill → spillReady c = true →
      let written := (ctxTeams c.shadow).foldl (fun a u => saveTsm (saveTiles a c.shadow u) u) (saveContexts s (c.shadow.groups.filter fun g => g.2.swap != .out))
      exec (.exchangeSpillComplete core) s =
      .next (modDie (setCore written core { c with saved := c.shadow, shadow := Ctx.empty, exch := .idle }) (dieOf core) fun d => { d with preqBusy := false }))

/-- Window swaps, compaction and context exchange: WindowEvents and ExchangeEvents, each stated above. The choices of the model that they rest on are those of log entries 31, 37, 38 and 39. -/
def Obligations.WindowAndExchangeEvents : Prop :=
  Sys2Proof.Claims.WindowEvents ∧ Sys2Proof.Claims.ExchangeEvents

/-- R348, R358, R359, R361, R362, R366, R368 and R369: an interval begins on every die at once: where it is due the thermal cap steps, a raised cap takes effect, and each tile cluster's EB and ER become EBUD, ADM 0 and IB what R359 makes of the alarms; and then each scheduler of the die decides; an alarm counts, and begins a stretch and 64 halved periods where none is under way; both end; a hot die stops; a member's request is heard, held when silent; and ramp fill is set. That intervals begin at multiples of 10,000 ns, that temperatures come in units of 0.125 degrees, and how far a clock has come when an interval, an alarm or a trip finds it, are the model's choices (log entries 32, 34 and 74). -/
def Sys2Proof.Claims.PowerEvents : Prop :=
  (∀ (die : Nat) (s : State), die < 4 →
    let s0 := (List.range 4).foldl beginInterval s
    (s.now / 10000 ≤ (dieAt s die).decided → exec (.controlInterval die) s = .next s) ∧
    ((dieAt s die).decided < s.now / 10000 → exec (.controlInterval die) s = .next ((List.range 10).foldl (fun a k => decideTc true a (10 * die + k))
      (modDie s0 die fun d => { d with decided := d.interval }))) ∧
    let s1 := modDie s die fun d => stepThermal { d with interval := d.interval + 1 }
    let s2 := raiseCap (if (dieAt s1 die).thermalCap = (dieAt s die).thermalCap then s1 else settleCap s1)
    (s.now / 10000 ≤ (dieAt s die).interval → beginInterval s die = s) ∧
    ((dieAt s die).interval < s.now / 10000 → beginInterval s die = (List.range 10).foldl (fun a k => startInterval a (10 * die + k)) s2)) ∧
  (∀ (tc : Nat) (s : State),
    let x := tcAt (settleTc s tc) tc
    let y := tcAt (startInterval s tc) tc
    let alarms := tget 0 x.intAlarms ((dieAt s (tc / 10)).interval - 1)
    y.eb = x.ebud ∧ y.er = x.ebud ∧ y.adm = 0 ∧ y.cyc = x.cyc ∧ y.cyc0 = x.cyc ∧ y.at0 = s.now ∧
    y.ib = min x.ibud (if 8 < alarms then 9 * x.ib / 10 else if alarms = 0 then x.ib + x.ibud / 20 else x.ib)) ∧
  (∀ (tc : Nat) (s : State), tc < 40 →
    let s' := settleTc s tc
    let x := tcAt s' tc
    let counted := { x with alarms := (x.alarms + 1) % 2 ^ 32, lastAlarm := s.now, intAlarms := tput x.intAlarms (s.now / 10000) (tget 0 x.intAlarms (s.now / 10000) + 1) }
    let first := x.cyc + 1 + min 32 (x.drt.toNat / 2 ^ 8 % 2 ^ 8)
    let stretched := { counted with stretchAt := x.cyc + 1, stretch := first, halved := first + 64, barred := if x.issues then none else some x.cyc }
    (x.drt.toNat % 256 = 0 → exec (.droopAlarm tc) s = .next s) ∧
    (x.drt.toNat % 256 ≠ 0 → x.cyc < x.stretch → exec (.droopAlarm tc) s = .next (recordAlarm { s' with tcs := tput s'.tcs tc counted } tc)) ∧
    (x.drt.toNat % 256 ≠ 0 → x.stretch ≤ x.cyc → exec (.droopAlarm tc) s = .next (recordAlarm { s' with tcs := tput s'.tcs tc stretched } tc)) ∧
    exec (.stretchEnd tc) s = .next (modTc s tc fun t => if t.stretch ≤ t.cyc then { t with stretch := 0 } else t) ∧
    exec (.halvedIssueEnd tc) s = .next (modTc s tc fun t => if t.halved ≤ t.cyc then { t with halved := 0 } else t)) ∧
  (∀ (die temp : Nat) (s : State), die < 4 →
    let x : Word := (BitVec.ofNat 16 temp).signExtend 32
    let s1 := modDie s die fun d => { d with temp := x }
    (x.toInt ≤ 920 → exec (.thermalTrip die temp) s = .next s1) ∧
    (920 < x.toInt → (dieAt s die).stopped = false → exec (.thermalTrip die temp) s =
      .next (sendEvent ((launchesOn s1 die).foldl endLaunch (modDie ((List.range 10).foldl (fun a k => settleTc a (10 * die + k)) s1) die fun d => { d with stopped := true })) 8 die
        (die + temp % 2 ^ 16 * 2 ^ 8 + (launchesOn s1 die).length % 2 ^ 32 * 2 ^ 24)))) ∧
  (∀ (member cap : Nat) (s : State),
    (member < 4 → exec (.collectiveCapRequest member cap) s = .next (settleCap s)) ∧
    (4 ≤ member → s.tgid ≠ 0 → exec (.collectiveCapRequest member cap) s = .next (settleCap { s with members := tput s.members member ⟨cap, s.now, false⟩ })) ∧
    exec (.throttleMemberSilence member) s = .next { s with members := tmod s.members member fun m => if m.heard + 50000 < s.now then { m with silent := true } else m }) ∧
  ∀ (die : Nat) (on : Bool) (s : State), die < 4 →
    exec (.rampFill die on) s = .next ((List.range 10).foldl (fun a k => modTc a (10 * die + k) fun t => { t with fill := on }) s)

/-- R362: the collective cap falls at once to the least request of the group, and a rise is set for 20 µs later; a rise that has become due takes effect at an interval. -/
def Sys2Proof.Claims.CollectiveCap : Prop :=
  ∀ (s : State),
    (leastRequest s < s.collCap → (settleCap s).collCap = leastRequest s ∧ (settleCap s).raiseAt = none) ∧
    (s.collCap < leastRequest s → (settleCap s).collCap = s.collCap ∧ (settleCap s).raiseAt = some (s.now + 20000)) ∧
    (∀ d, s.raiseAt = some d → d ≤ s.now → (raiseCap s).collCap = leastRequest s ∧ (raiseCap s).raiseAt = none) ∧
    (∀ d, s.raiseAt = some d → s.now < d → raiseCap s = s)

/-- Control intervals, droop, heat and the collective cap: PowerEvents and CollectiveCap, each stated above. The choices of the model that they rest on are those of log entries 32, 34 and 74. -/
def Obligations.PowerAndCapEvents : Prop :=
  Sys2Proof.Claims.PowerEvents ∧ Sys2Proof.Claims.CollectiveCap

/-- R214, R215, R221, R364 and R365: the activation window is kept between 12 ns and AWMAX; a stack's refresh policy follows its temperature, and the alarm its fourth stage; stacks enter low power, and leave it when they must; and a change of DSPLIT is begun, applied with the caches emptied and the bytes that change role zeroed, and completed. -/
def Obligations.MemoryPowerEvents : Prop :=
  (∀ (stack awin : Nat) (s : State), stack < 8 → exec (.activationWindowAdjust stack awin) s = .next (modDie s (stack / 2) fun d =>
    { d with actWin := tput d.actWin (stack % 2) (max 12 (min awin (min 96 (max 12 (awMax d (stack % 2)))))) })) ∧
  (∀ (stack temp : Nat) (s : State), stack < 8 →
    let old := tget 0 (dieAt s (stack / 2)).policy (stack % 2)
    let new := refreshPolicy old (BitVec.ofNat 16 temp).toInt
    let s1 := modDie s (stack / 2) fun x => { x with policy := tput x.policy (stack % 2) new }
    ((old = 3 ↔ new = 3) → exec (.refreshDerate stack temp) s = .next s1) ∧
    (¬ (old = 3 ↔ new = 3) → exec (.refreshDerate stack temp) s = .next (sendEvent s1 7 (stack / 2) (stack + temp % 2 ^ 16 * 2 ^ 8 + bit (new == 3) * 2 ^ 24)))) ∧
  (∀ (stack : Nat) (s : State), stack < 8 →
    ((∀ c ∈ s.cores, wakesStack s.now stack c.2 = false) → exec (.stackLowPowerEntry stack) s =
      .next (modDie s (stack / 2) fun d => { d with lowPower := tput d.lowPower (stack % 2) (earliest s stack) })) ∧
    (∀ began, tfind (dieAt s (stack / 2)).lowPower (stack % 2) = some began →
      (mustWake s stack began = true → exec (.stackWake stack) s = .next (modDie s (stack / 2) fun d => { d with lowPower := tdel d.lowPower (stack % 2) })) ∧
      (mustWake s stack began = false → exec (.stackWake stack) s = .next s)) ∧
    ∀ began, tfind (dieAt (wakeStacks s) (stack / 2)).lowPower (stack % 2) = some began → mustWake s stack began = false) ∧
  ∀ (die value : Nat) (s : State), die < 4 →
    let d := dieAt s die
    (d.busy = false → value % 16 ≠ d.scr → exec (.dsplitWrite die value) s =
      .next (modDie s die fun x => { x with busy := true, scrNext := some (value % 16), applied := false })) ∧
    (d.busy = true ∨ value % 16 = d.scr → exec (.dsplitWrite die value) s = .next s) ∧
    (∀ n, d.scrNext = some n → d.busy = true → d.applied = false →
      (d.scr ≤ n ∨ ∀ l ∈ s.launches, l.2.completed = true ∨ l.2.badoff ≠ 0 ∨ holdsSram l.2.hdr die (8 * 2 ^ 20 * min n d.scr) = false) →
      exec (.dsplitApply die) s = .next { modDie s die (fun x => { x with cache := [], copies := [], applied := true }) with
        mem := s.mem.filter fun c => decide (c.1 < scratchLoc die (8 * 2 ^ 20 * min n d.scr)) || decide (scratchLoc die (8 * 2 ^ 20 * max n d.scr) ≤ c.1) }) ∧
    (∀ n, d.scrNext = some n → d.applied = true → exec (.dsplitBusyClear die) s =
      .next (modDie s die fun x => { x with scr := n, busy := false, scrNext := none, applied := false }))

/-- R6, R126, R360, R361, R385 and R387: a register write reaches the RW fields of its register and no other bit; TGID, ACTW, PSB, WDT, MIRK, CHKEY, DRT, CAP, EBUD, IBUD and NOCB each take their own, and ID takes none. That a change of TGID empties the table of members, and that a change of NOCB acts from the moment of the write on, are the model's choices (log entries 33 and 74). -/
def Obligations.RegisterWrites : Prop :=
  ∀ (die number value : Nat) (s : State), die < 4 → (deviceRegister number || dieRegister number) = true → number ≠ 0x190 → number ≠ 0x1A0 →
    ∃ t, exec (.registerWrite die number value) s = .next t ∧ t = writeRegister s die number value ∧
      (number = 0x180 → t = settleCap { s with tgid := BitVec.ofNat 32 (value % 2 ^ 16), members := if value % 2 ^ 16 = s.tgid.toNat then s.members else [] }) ∧
      (number = 0x181 ∨ number = 0x182 → t = modDie s die fun d => { d with actMax := tput d.actMax (number - 0x181) (value / 256 % 256) }) ∧
      (0x1A8 ≤ number ∧ number ≤ 0x1AA → t = { s with chkey := tput s.chkey (number - 0x1A8) (BitVec.ofNat 32 (value % 2 ^ 11)) }) ∧
      (0x1C0 ≤ number ∧ number ≤ 0x1C7 → t = s) ∧
      (number = 0x184 → t = { s with psb := BitVec.ofNat 64 (s.psb.toNat / 2 ^ 32 * 2 ^ 32 + value % 2 ^ 32) }) ∧
      (number = 0x185 → t = { s with psb := BitVec.ofNat 64 (value % 2 ^ 24 * 2 ^ 32 + s.psb.toNat % 2 ^ 32) }) ∧
      (number = 0x188 → t = { s with wdt := BitVec.ofNat 32 (value % 2 ^ 16) }) ∧
      (number = 0x189 → t = { s with mirk := BitVec.ofNat 32 (value % 32) }) ∧
      (∀ k, tcRegister number = some (k, 0) → t = modTc s (10 * die + k) fun x => { x with drt := BitVec.ofNat 32 (value % 2 ^ 16) }) ∧
      (∀ k, tcRegister number = some (k, 1) → t = settleCap (modTc s (10 * die + k) fun x => { x with cap := value % 2 ^ 12 })) ∧
      (∀ k, tcRegister number = some (k, 2) → t = modTc s (10 * die + k) fun x => { x with ebud := value % 2 ^ 16 }) ∧
      (∀ k, tcRegister number = some (k, 3) → t = modTc s (10 * die + k) fun x => { x with ibud := value % 2 ^ 16 }) ∧
      (∀ k, tcRegister number = some (k, 4) → t = modTc (refill (settleTc s (10 * die + k)) (10 * die + k)) (10 * die + k) fun x =>
        { x with nocb := BitVec.ofNat 32 (value % 2 ^ 12 + value / 2 ^ 16 % 2 ^ 8 * 2 ^ 16) })

/-- R374 to R376 and R386 to R391: a pending trap is taken once it may be; the watchdog of a group fires at its limit; a pair's windows are compared, and equal ones let the primary's stores of the window go on; unequal ones or one that has waited 10 ms roll the launch back, as an uncorrectable error does. -/
def Sys2Proof.Claims.TrapAndMirrorEvents : Prop :=
  (∀ (core tid : Nat) (s : State) (p : Pending) (g : Group), lfind (fun (x : Pending) => x.num == tid) (coreAt s core).pend = some p →
    groupAt (coreAt s core) p.slot = some g → g.uid = p.own → g.swap ≠ .out → trapReady s core p.slot p.traps = true →
    exec (.trapEntry core tid) s =
      .next (settleAt core p.slot (takeTraps (modCore (settleTc s (tcOf core)) core fun c => { c with pend := c.pend.filter fun x => x.num != tid }) core p.slot p.sub p.traps p.pos p.pc))) ∧
  (∀ (core slot : Nat) (s : State) (g : Group), groupAt (coreAt s core) slot = some g →
    (isControl core = false → s.wdt ≠ 0 → g.bitten = false → g.swap ≠ .out → s.wdt.toNat * 1000000 ≤ dogCount s.now g →
      exec (.watchdog core slot) s = .next (fireWatchdog s core slot g)) ∧
    (s.wdt = 0 ∨ dogCount s.now g < s.wdt.toNat * 1000000 → exec (.watchdog core slot) s = .next s)) ∧
  (∀ (core slot thread m : Nat) (s : State) (g h : Group) (t : Team), groupAt (coreAt s core) slot = some g → teamAt s g.team = some t → t.role = .primary →
    partner s g = some (m, h) →
    (∀ a b p q x y, (threadAt g thread).windows = (a, p) :: x → (threadAt h thread).windows = (b, q) :: y →
      (a ≠ b → exec (.mirrorCompare core slot thread) s = .next (rollback s g.lseq)) ∧
      (a = b → exec (.mirrorCompare core slot thread) s =
        .next (endOwner (endOwner (discardWindow
          (modCore (modCore (modCore s core fun c => modOwner c g.uid fun z => modThread z thread dropWindow) m fun c => modOwner c h.uid fun z => modThread z thread dropWindow)
            core fun c => { c with writes := c.writes.map fun w =>
              if w.held = true ∧ w.own = g.uid ∧ (w.thr = some thread ∨ w.thr = some (32 + thread)) ∧ w.window = (threadAt g thread).compared then { w with held := false, rel := w.rel || !w.engine }
              else w }) m h.uid thread (threadAt h thread).compared) core g.uid) m h.uid))) ∧
    (∀ a p x, (threadAt g thread).windows = (a, p) :: x → (threadAt h thread).windows = [] →
      (p + 10000000 < s.now → exec (.mirrorWindowTimeout core slot thread) s = .next (rollback s g.lseq)) ∧
      (s.now ≤ p + 10000000 → exec (.mirrorWindowTimeout core slot thread) s = .next s))) ∧
  ∀ (lseq : Nat) (s : State), lseq ∉ s.retake → exec (.uncorrectableError lseq) s = .next (rollback s lseq)

/-- R391, R393 and R394: a completed launch is never rolled back. A rollback takes the closure of the launches that waited on a member's bitmap; no team of theirs is left. Where a member lacks SNAP or has run unprotected every member completes with STATUS 2; otherwise a member that failed after 3 replays does, and every other is to be taken again with one more in REPLAYS; where every member is, and none has a bitmap, each byte of a snapshotted page is that of the copy taken first, every other byte is as before, and the pages of the copies are free again. -/
def Sys2Proof.Claims.Rollbacks : Prop :=
  ∀ (s : State) (lseq : Nat) (l : Launch), launchAt s lseq = some l → Rising s.launches →
    let t := rollback s lseq
    let closed := fun (S : List Nat) => lseq ∈ S ∧ ∀ n x, launchAt s n = some x → x.completed = false → (∃ p ∈ x.producers, p ∈ S) → n ∈ S
    let member := fun (n : Nat) => ∀ S, closed S → n ∈ S
    let fails := fun (n : Nat) => ∃ y, launchAt t n = some y ∧ y.status = 2 ∧ (y.completed = true ∨ y.heldCrec.isSome = true)
    let bare := ∃ n x, member n ∧ launchAt s n = some x ∧ (x.hdr.snap = false ∨ x.unprotected = true)
    let copy := fun (c : Nat × Nat × List Host.Cell) => ∃ n x, member n ∧ launchAt s n = some x ∧ c ∈ x.snap
    (l.completed = true → t = s) ∧
    (l.completed = false →
      (∀ u ∈ t.teams, ¬ member u.2.lseq) ∧
      (bare → ∀ n x, member n → launchAt s n = some x → fails n) ∧
      (¬ bare → ∀ n x, member n → launchAt s n = some x →
        (3 ≤ x.replays → fails n) ∧
        (x.replays < 3 → n ∈ t.retake ∧ ∃ y, launchAt t n = some y ∧ y.replays = x.replays + 1 ∧ y.completed = false ∧ y.hdr = x.hdr ∧ y.dealt = 0 ∧ y.admitted = 0 ∧
          y.endedTeams = 0 ∧ y.producers = [] ∧ y.snap = [] ∧ y.unprotected = false ∧ y.heldCrec = none ∧ y.bitWrites = [])) ∧
      (¬ bare → (∀ n x, member n → launchAt s n = some x → x.replays < 3 ∧ x.hdr.cbmap = 0) →
        Memory.wf s.mem = true → (∀ c, copy c → Memory.wf c.2.2 = true ∧ ∀ q ∈ c.2.2, q.1 / 16384 = c.2.1) →
        ∀ a, ((∀ c, copy c → c.2.1 ≠ a / 16384) → memByte t.mem a = memByte s.mem a) ∧
          ∀ c, copy c → c.2.1 = a / 16384 → (∀ d, copy d → d.2.1 = a / 16384 → d = c ∨ c.1 < d.1) → memByte t.mem a = memByte c.2.2 a))

/-- Trap, watchdog and mirror events, and what a rollback does: TrapAndMirrorEvents and Rollbacks, each stated above. -/
def Obligations.TrapEvents : Prop :=
  Sys2Proof.Claims.TrapAndMirrorEvents ∧ Sys2Proof.Claims.Rollbacks

/-- R404, R406 and R407: a bridge that cannot deliver ends every launch and stops the device; a link that has drained sheds and regains lanes, a link enters RCV, returns from it, and after 50 ms in it is DOWN, with an error in each launch whose flits it held; each change sends its event. The codes in a LINK event, and which launches and collectives have flits in a link that goes down, are the model's choices (log entries 18, 35 and 4). -/
def Obligations.LinkEvents : Prop :=
  (∀ (bridge : Nat) (s : State), bridge < 4 → bridge ∉ s.bridges → exec (.bridgeStop bridge) s =
    .next (sendLink ((liveLaunches s).foldl endLaunch { s with bridges := s.bridges ++ [bridge], stopped := true }) (16 + bridge) 0 4)) ∧
  ∀ (link : Nat) (s : State), link < 16 →
    let become := fun (x : LinkState) => sendLink { s with links := tput s.links link x, linkSince := tput s.linkSince link s.now } link (linkCode (linkAt s link)) (linkCode x)
    (linkDrained s link = true →
      (linkAt s link = .w4 → exec (.linkNarrow link) s = .next (become .w2)) ∧ (linkAt s link = .w2 → exec (.linkNarrow link) s = .next (become .w1)) ∧
      (linkAt s link = .w1 → exec (.linkWiden link) s = .next (become .w2)) ∧ (linkAt s link = .w2 → exec (.linkWiden link) s = .next (become .w4))) ∧
    (linkDrained s link = false → exec (.linkNarrow link) s = .next s ∧ exec (.linkWiden link) s = .next s) ∧
    (linkAt s link ≠ .rcv → linkAt s link ≠ .down → exec (.linkRecovery link) s = .next (become .rcv)) ∧
    (linkAt s link = .rcv → exec (.linkRecovered link 4) s = .next (become .w4) ∧ exec (.linkRecovered link 2) s = .next (become .w2) ∧
      exec (.linkRecovered link 1) s = .next (become .w1) ∧
      (tget 0 s.linkSince link + 50000000 ≤ s.now → exec (.linkDown link) s = .next ((losers s link).foldl rollback { meetDown (become .down) link with draws := s.draws + 1 })) ∧
      (s.now < tget 0 s.linkSince link + 50000000 → exec (.linkDown link) s = .next s))

/-- R219, R249 and R386: a peer's access is performed at its home under the key slot that it names, as a read, a write or one atomic operation, and not at all through an empty slot; and a peer's report is noted. That a peer's access is one event whose answer leaves the device is the model's choice (log entry 53). -/
def Sys2Proof.Claims.PeerEvents : Prop :=
  (∀ (a : PeerAcc) (s : State) (j : Job) (key : Nat), s.job = some j → a.pa + a.width ≤ 2 ^ 39 →
    let p : Piece := { loc := a.pa, n := a.width, die := slice a.pa 38 37, key := some key, kind := 0, mx := 0, sx := false, cw := false, peer := false }
    (tfind s.keys a.key = some key →
      (a.kind = 0 → exec (.peerRequest a) s = .next (bringLines s false [p])) ∧
      (a.kind = 1 → exec (.peerRequest a) s = .next (bringLines (pieceWrite s p a.data) true [p])) ∧
      (∀ v, 2 ≤ a.kind → atomOp a.op (8 * a.width) (pieceRead s p) a.data = some v → exec (.peerRequest a) s = .next (bringLines (pieceWrite s p v) true [p])) ∧
      (2 ≤ a.kind → atomOp a.op (8 * a.width) (pieceRead s p) a.data = none → exec (.peerRequest a) s = .next (bringLines s false [p]))) ∧
    (tfind s.keys a.key = none → exec (.peerRequest a) s = .next s)) ∧
  ∀ (rank : Nat) (s : State), exec (.peerRecoveringReport rank) s = .next { s with recovering := s.recovering ++ [(rank, s.now)] }

/-- R397 to R402: an idle router gates, is signalled, and is awake 24 cycles later; an ordered packet stays behind an earlier one with its source and destination; a packet at its destination is delivered, one for which an awake next router has room in a channel moves there, and one that has stood for 32 cycles takes the escape channel; a request enters with a token of its core's tile cluster for each flit, in its turn, unless an edge stop sends it, and reserves the buffer of its response, without which no response enters; a token bucket is refilled up to 256, once for each cycle. That a packet moves by events, moves no bytes itself, and that those that wait for tokens are served in the order in which they asked, are the model's choices (log entry 40). -/
def Sys2Proof.Claims.NetworkEvents : Prop :=
  (∀ (die router : Nat) (s : State), die < 4 → router < 160 →
    let r := routerAt s die router
    let now := routerCyc s die router
    (router % 16 ≠ 0 → router % 16 ≠ 15 → r.gated = false → (coreAt s (160 * die + router)).ctx.groups = [] → r.idle + 256 ≤ now →
      exec (.routerGate die router) s = .next (modRouter s die router fun x => { x with gated := true, waking := none })) ∧
    (router % 16 = 0 ∨ router % 16 = 15 → exec (.routerGate die router) s = .next s) ∧
    (r.gated = true → r.waking = none → exec (.routerWakeSignal die router) s = .next (modRouter s die router fun x => { x with waking := some (now + 24) })) ∧
    (∀ d, r.waking = some d → d ≤ now → exec (.routerAwake die router) s = .next (modRouter s die router fun x => { x with gated := false, waking := none, idle := now }))) ∧
  (∀ (pid choice : Nat) (s : State) (p : Packet), lfind (fun (x : Packet) => x.num == pid) s.packets = some p →
    let d := lget 0 (routes s p) (choice % (routes s p).length)
    let n := neighbour p.here d
    let chan := lget 0 (channels s p d) (choice / (routes s p).length % (channels s p d).length)
    let moved := modRouter (modPacket s p.num fun x => { x with here := n, chan := chan, ring := d / 2, since := routerCyc s p.die n }) p.die p.here fun r =>
      { r with idle := routerCyc s p.die p.here }
    (follows s p = true → exec (.packetRoute pid choice) s = .next s) ∧
    (follows s p = false → p.here = p.dest → exec (.packetRoute pid choice) s = .next { (if p.response then
      modDie s p.die fun x => { x with reserved := tput x.reserved p.dest (tget 0 x.reserved p.dest - 1) } else s) with packets := s.packets.filter fun x => x.num != pid }) ∧
    (follows s p = false → p.here ≠ p.dest → awake s p.die n = true → channels s p d ≠ [] →
      exec (.packetRoute pid choice) s = .next (if n = p.dest then moved else signal moved p.die (neighbour n (orderDir n p.dest)))) ∧
    (p.escape = false → p.since + 32 ≤ routerCyc s p.die p.here → bufferUse s p.die p.here p.ring p.response true 0 + p.flits + 5 ≤ 12 →
      exec (.escapeDiversion pid) s = .next (modPacket s pid fun x => { x with escape := true }))) ∧
  (∀ (pid die src dest flits : Nat) (response ordered edge : Bool) (s : State), lfind (fun (x : Packet) => x.num == pid) s.packets = none →
    die < 4 → src < 160 → dest < 160 → 1 ≤ flits → flits ≤ 5 → (edge = true → src % 16 = 0 ∨ src % 16 = 15) →
    let choice := die + 4 * (src + 160 * (dest + 160 * (bit response + 2 * (bit ordered + 2 * (flits - 1 + 5 * bit edge)))))
    let tc := 10 * die + src / 16
    let s1 := refill s tc
    let x := tcAt s1 tc
    let waits := ((∃ k ∈ x.turns.head?, k ≠ src) ∨ x.tokens < flits)
    let room := tget 0 (dieAt s die).reserved dest
    let used := (s.packets.filter fun p => p.die == die && p.dest == dest && p.response).length
    (response = true → room ≤ used → exec (.packetRoute pid choice) s = .next s) ∧
    (response = false → edge = false → waits → exec (.packetRoute pid choice) s = .next (modTc s1 tc fun t => { t with turns := if src ∈ t.turns then t.turns else t.turns ++ [src] })) ∧
    ((response = true ∧ used < room) ∨ (response = false ∧ (edge = true ∨ ¬waits)) → ∃ t, exec (.packetRoute pid choice) s = .next t ∧
      t.packets = s.packets ++ [{ num := pid, die := die, src := src, here := src, dest := dest, response := response, ordered := ordered, escape := ordered, chan := 0, ring := 2,
                                  fixed := false, since := routerCyc s die src, flits := flits }] ∧
      tcAt t tc = (if response || edge then x else { x with tokens := x.tokens - flits, turns := x.turns.drop 1 }) ∧
      (dieAt t die).reserved = (if response then (dieAt s die).reserved else tput (dieAt s die).reserved src (tget 0 (dieAt s die).reserved src + 1)))) ∧
  ∀ (tc : Nat) (s : State), tc < 40 →
    let x := tcAt s tc
    let gain := max (slice x.nocb.toNat 23 16) (slice x.nocb.toNat 7 0 - slice x.nocb.toNat 11 8 * busyEngines s tc)
    exec (.tokenBucketRefill tc) s = .next (refill s tc) ∧ (x.cyc ≤ x.refilled → refill s tc = s) ∧
    (x.refilled < x.cyc → refill s tc = modTc s tc fun t => { t with tokens := min 256 (x.tokens + (x.cyc - x.refilled) * gain), refilled := x.cyc })

/-- Peer accesses and the on-die network: PeerEvents and NetworkEvents, each stated above. The choices of the model that they rest on are those of log entries 40 and 53. -/
def Obligations.PeerAndNetworkEvents : Prop :=
  Sys2Proof.Claims.PeerEvents ∧ Sys2Proof.Claims.NetworkEvents

/-- R415 and R416: a command out of sequence is answered by code 3 and counts for nothing, one of an unknown op by code 1, one whose die is absent by code 2, and a command that is not the next of its channel has no effect; each waits for room for its answer, which is its one event. That a command in sequence counts as executed also where it is refused, and that it waits before its effect, are the model's choices (log entries 22 and 77). -/
def Sys2Proof.Claims.CommandOrder : Prop :=
  (∀ (n ch : Nat) (s : State) (e : CmdEntry) (r : List CmdEntry),
    let c := channelAt s ch
    let q : Cmd := ⟨ch, e.seq, e.die, e.flags, e.length, e.payload⟩
    c.cmds = e :: r →
    (canSend s ch = false → settleCmds (n + 1) ch s = s) ∧
    (canSend s ch = true → e.seq ≠ c.cdone + 1 → settleCmds (n + 1) ch s = settleCmds n ch (answer (setChannel s ch { c with cmds := r }) q (.err 3))) ∧
    (canSend s ch = true → e.seq = c.cdone + 1 → (e.op < 1 ∨ 15 < e.op) → settleCmds (n + 1) ch s = settleCmds n ch (answer (setChannel s ch { c with cmds := r, cdone := e.seq }) q (.err 1))) ∧
    (e.seq = c.cdone + 1 → 1 ≤ e.op → e.op ≤ 15 → settleCmds (n + 1) ch s = s)) ∧
  ∀ (q : Cmd) (s : State),
    (∀ r, (channelAt s q.ch).cmds = ⟨1, q.seq, q.die, q.flags, q.length, q.payload⟩ :: r → q.seq = (channelAt s q.ch).cdone + 1 → s.boot.up = true →
      canSend s q.ch = true → dieOk s q.die = false → exec (.cmdNop q) s =
        .next (settleCmds r.length q.ch (answer (setChannel s q.ch { channelAt s q.ch with cmds := r, cdone := q.seq }) q (.err 2)))) ∧
    (canSend s q.ch = false → exec (.cmdNop q) s = .next s) ∧
    ((channelAt s q.ch).cmds.head? ≠ some ⟨1, q.seq, q.die, q.flags, q.length, q.payload⟩ → exec (.cmdNop q) s = .next s)

/-- R339, R416, R417 and R419: NOP, REGWR, REGRD, MEMWR, MEMRD and QCFG: registers by their number, memory under the attachment's key slot, and a ring set up empty; each is refused with its code where the rules say so. The payloads of MEMRD and MEMWR, that QCFG zeroes the control block with HEAD and TAIL, and that REGWR of a register without an RW field is answered by ACK, are the model's choices (log entries 24, 25 and 21). -/
def Sys2Proof.Claims.RegisterAndMemoryCommands : Prop :=
  let named := fun (q : Cmd) => deviceRegister (bytesOf q.payload 0 2) || (dieRegister (bytesOf q.payload 0 2) && q.die != 0xFF)
  let pa := fun (q : Cmd) => bytesOf q.payload 0 8
  Commands 1 .cmdNop (fun _ s => (s, .ack)) ∧
  Commands 2 .regwr (fun q s => if named q then (writeRegister s q.die (bytesOf q.payload 0 2) (bytesOf q.payload 2 4), .ack) else (s, .err 4)) ∧
  Commands 3 .regrd (fun q s => if named q then (s, .regval (readRegister s q.die (bytesOf q.payload 0 2))) else (s, .err 4)) ∧
  Commands 4 .memwr (fun q s =>
    let n := q.length - 8
    if n = 0 ∨ 32 < n ∨ 2 ^ 39 < pa q + n then (s, .err 10)
    else match attachKey s q.ch with
      | none => (s, .err 9)
      | some k => (bringLines (pieceWrite s (hostPiece (pa q) n k) (bytesOf q.payload 8 n)) true [hostPiece (pa q) n k], .ack)) ∧
  Commands 5 .memrd (fun q s =>
    let n := bytesOf q.payload 8 1
    if n = 0 ∨ 40 < n ∨ 2 ^ 39 < pa q + n then (s, .err 10)
    else match attachKey s q.ch with
      | none => (s, .err 9)
      | some k => (bringLines s false [hostPiece (pa q) n k], .memdata (pieceRead s (hostPiece (pa q) n k)))) ∧
  Commands 6 .qcfg (fun q s =>
    let kind := bytesOf q.payload 0 1
    let n := bytesOf q.payload 1 1
    let flags := bytesOf q.payload 2 2
    let cap := bytesOf q.payload 12 4
    let num := if kind = 0 then n else 16 + n
    let used : Bool := match queueAt s num with
      | some x => queueCount s num x != 0 || x.fid.isSome
      | none => false
    if 1 < kind ∨ (if kind = 0 then 16 else 64) ≤ n ∨ 1 < flags ∨ cap < 16 ∨ 65536 < cap ∨ used = true then (s, .err 10)
    else
      let x : Queue := { host := flags == 1, base := bytesOf q.payload 4 8, cap := cap, root := bytesOf q.payload 16 8, head := 0, tail := 0, fid := none }
      (ringWrite { s with queues := tput s.queues num x } x x.loc 64 0, .ack))

/-- R354, R408, R409, R416, R417, R422 and R425: KEYLD, KEYCLR, TINV, FEAT, PEERCFG, COLL, FANS, ENDL and RESET. That a refused command counts as executed is the model's choice (log entry 22). -/
def Sys2Proof.Claims.DeviceCommands : Prop :=
  let f := fun (q : Cmd) (off n : Nat) => bytesOf q.payload off n
  Commands 7 .keyld (fun q s =>
    if 2048 ≤ f q 0 2 then (s, .err 10)
    else match unwrapKey (s.boot.ownerKey.getD Config.ownerKey) (keyRead s (tfind s.keys 0) (f q 2 8) 72) with
      | none => (s, .err 5)
      | some k => ({ bringLines s false [hostPiece (f q 2 8) 72 0] with keys := tput s.keys (f q 0 2) k }, .ack)) ∧
  Commands 8 .keyclr (fun q s => if 2048 ≤ f q 0 2 then (s, .err 10) else ({ s with keys := tdel s.keys (f q 0 2) }, .ack)) ∧
  Commands 9 .tinv (fun q s =>
    if 2 < f q 0 1 then (s, .err 10)
    else ({ s with cores := tmap s.cores fun _ c => { c with tlb := c.tlb.filter fun t =>
      !(f q 0 1 == 0 || (t.root == f q 1 8 && (f q 0 1 == 1 || (decide (t.va < f q 9 8 + f q 17 8) && decide (f q 9 8 < t.va + t.size))))) } }, .ack)) ∧
  Commands 10 .feat (fun q s =>
    if s.boot.offerFixed then (s, .err 6)
    else ({ s with boot := { s.boot with offer := s.boot.offer &&& f q 0 8, offerFixed := true } }, .regval (BitVec.ofNat 32 (s.boot.offer &&& f q 0 8)))) ∧
  Commands 11 .peercfg (fun q s =>
    let rank := f q 4 2
    let n := f q 6 2
    let pa := f q 8 8
    let t := (List.range 64).map fun i => keyRead s (tfind s.keys 0) (pa + 8 * i) 8
    if n = 0 ∨ 64 < n ∨ n ≤ rank ∨ pa % 8 ≠ 0 ∨ 2 ^ 39 < pa + 512 then (s, .err 10)
    else if peerTableOk rank n t then ({ bringLines s false [hostPiece pa 512 0] with job := some ⟨f q 0 4, rank, n, t⟩ }, .ack) else (s, .err 7)) ∧
  Commands 12 .coll (fun q s =>
    if 2 < f q 0 1 ∨ 2 < f q 1 1 ∨ 2 < f q 2 1 ∨ f q 3 1 ≠ 0 ∨ f q 4 4 = 0 ∨ 2 ^ 28 < f q 4 4 ∨ f q 0x2C 4 ≠ 0 ∨ s.job.map (·.id) ≠ some (f q 0x28 4) then (s, .err 10)
    else ({ s with colls := s.colls ++ [⟨q.ch, q.payload, false⟩] }, .ack)) ∧
  Commands 13 .fans (fun q s =>
    if q.die = 0xFF ∨ 1 < f q 4 1 then (s, .err 10)
    else match lfind (fun (x : FaultRec) => x.fid == f q 0 4) (dieAt s q.die).faults with
      | none => (s, .err 8)
      | some x => (retryWaiting (answerFault (modDie s q.die fun d => { d with faults := d.faults.filter fun y => y.fid != x.fid }) x (f q 4 1 == 1)), .ack)) ∧
  Commands 14 .endl (fun q s => if (liveLaunches s).contains (f q 0 8) then (settleLaunches (endLaunch s (f q 0 8)), .ack) else (s, .err 10)) ∧
  ∀ (start : StartInfo), Commands 15 (fun q => .reset q start) (fun _ s => (restart s start, .silent))

/-- Host commands: their order, their effects and their answers: CommandOrder, RegisterAndMemoryCommands and DeviceCommands, each stated above. The choices of the model that they rest on are those of log entries 21, 22, 24, 25 and 77. -/
def Obligations.CommandsAnswered : Prop :=
  Sys2Proof.Claims.CommandOrder ∧ Sys2Proof.Claims.RegisterAndMemoryCommands ∧ Sys2Proof.Claims.DeviceCommands

/-- R409 to R411: a collective in which a rank disagrees ends with status 1 and writes nothing; one with every rank's input that meets no DOWN link writes what its operation makes of them and ends with status 0; one that meets one ends with status 2, whatever its output is; each waits for a free walk of die 0 and for room for its event. Which collectives have lost flits with a link, and the output after a DOWN link, are free values (log entries 35 and 4). -/
def Sys2Proof.Claims.Collectives : Prop :=
  ∀ (tag : Nat) (inputs : List (List Nat)) (s : State) (c : Coll) (j : Job), lfind (fun (x : Coll) => bytesOf x.payload 0x20 8 == tag) s.colls = some c → s.job = some j →
    ((walkerFree s 0 = false ∨ canSend s c.ch = false) → ∀ agree, exec (.collectiveComplete tag inputs agree) s = .next s) ∧
    (walkerFree s 0 = true → canSend s c.ch = true → exec (.collectiveComplete tag inputs false) s = .next (collDone s c 1)) ∧
    ∀ s1 s2 dst src, walkerFree s 0 = true → canSend s c.ch = true →
      let w := if c.field 1 1 = 1 then 2 else 4
      let n := c.field 4 4
      let outN := if c.field 0 1 = 2 then n * j.ranks else n
      let own := (List.range n).map fun i => bytesOf (piecesRead s2 src) (w * i) w
      let all := (List.range j.ranks).map fun r => if r = j.rank then own else lget [] inputs r
      engineG (c.field 8 8) 1 (8 + w * outN / 16384) s (c.field 0x18 8) (w * outN) = (s1, .found dst) →
      (meetsDown s c = true → ∃ v, exec (.collectiveComplete tag inputs true) s =
        .next { collDone (bringLines (piecesWrite s1 dst v) true dst) c 2 with draws := s.draws + outN }) ∧
      (meetsDown s c = false →
      engineG (c.field 8 8) 0 (8 + w * n / 16384) s1 (c.field 0x10 8) (w * n) = (s2, .found src) →
      exec (.collectiveComplete tag inputs true) s = .next (collDone (bringLines (piecesWrite (bringLines s2 false src) dst (joinElems w (match c.field 0 1 with
        | 0 => (List.range n).map fun e => reduceElem (c.field 1 1) (c.field 2 1) (all.map fun x => lget 0 x e)
        | 1 => all.headD []
        | _ => all.flatten))) true dst) c 0))

/-- R413, R414, R415, R419, R420, R422 and R423: a doorbell fetches the entries up to it from their slots in the ring, each (its sequence number - 1) modulo CRSIZE slots after CRBASE; an acknowledgement consumes what it covers and lets waiting events out; ring registers take aligned and sized values while the rings are idle; BAR2 reaches memory under its key slot; vector 0 fires when due; a datagram that passes its checks is noted, acknowledged and its entries taken, and one whose layout or tag is wrong is dropped; an event is sent again after 100 µs; and a start of the device is R422's, which an image older than the one in force, or firmware older than the least accepted, ends. In which bytes the keys and the session of a datagram enter HKDF and AES-GCM is the model's choice (log entry 55). -/
def Sys2Proof.Claims.ChannelEvents : Prop :=
  (∀ (s : State), attached s 0 = true →
    let c := channelAt s 0
    (∀ value entries, c.crsize ≠ 0 → c.ctail ≤ value →
      let put := (entries.zipIdx c.ctail).foldl (fun a x => { a with mem := memWrite a.mem (hostBase + c.crbase + 64 * (x.2 % c.crsize)) 64 (entryWord x.1) }) s
      exec (.ctailDoorbell value entries) s = .next (addCmds (setChannel put 0 { c with ctail := value }) 0 ((List.range (value - c.ctail)).map fun j =>
        let v := memRead put.mem (hostBase + c.crbase + 64 * ((c.ctail + j) % c.crsize)) 64
        { op := bytesOf v 8 2, seq := bytesOf v 0 8, die := bytesOf v 10 1, flags := bytesOf v 11 1, length := bytesOf v 12 4, payload := bytesOf v 16 48 }))) ∧
    (∀ value entries, Memory.wf s.mem = true → entries.length ≤ c.crsize → value = c.ctail + entries.length → 0 < entries.length →
      (∀ e ∈ entries, e.seq < 2 ^ 64 ∧ e.op < 2 ^ 16 ∧ e.die < 2 ^ 8 ∧ e.flags < 2 ^ 8 ∧ e.length < 2 ^ 32 ∧ e.payload < 2 ^ 384) →
      ∃ put, exec (.ctailDoorbell value entries) s = .next (addCmds (setChannel put 0 { c with ctail := value }) 0 entries)) ∧
    (∀ value, exec (.eackWrite 0 value) s = .next (drainEvents c.waiting.length (setChannel s 0 { c with
      eack := min c.ewrit (max c.eack value)
      events := c.events.filter fun e => decide (min c.ewrit (max c.eack value) < e.seq)
      resent := c.resent.filter fun x => decide (min c.ewrit (max c.eack value) < x.1) }) 0)) ∧
    (∀ value, c.cdone = c.ctail → c.ewrit = c.eack →
      (value % 4096 = 0 → value < 2 ^ 64 → exec (.channelRingConfigWrite 0x100 value) s = .next (drainEvents c.waiting.length (setChannel s 0 { c with crbase := value }) 0) ∧
        exec (.channelRingConfigWrite 0x110 value) s = .next (drainEvents c.waiting.length (setChannel s 0 { c with erbase := value }) 0)) ∧
      ((∃ i < 11, value = 2 ^ (i + 6)) → exec (.channelRingConfigWrite 0x108 value) s = .next (drainEvents c.waiting.length (setChannel s 0 { c with crsize := value }) 0) ∧
        exec (.channelRingConfigWrite 0x118 value) s = .next (drainEvents c.waiting.length (setChannel s 0 { c with ersize := value }) 0))) ∧
    (∀ value, exec (.channelRingConfigWrite 0x140 value) s = .next (setChannel s 0 { c with evint := value % 2 ^ 32 })) ∧
    (∀ value, value % 2 ^ 36 = 0 → value < 2 ^ 39 → exec (.channelRingConfigWrite 0x148 value) s = .next { s with b2pos := value }) ∧
    (∀ wr offset width data k, 0 < width → offset + width ≤ 2 ^ 36 → s.b2pos + offset + width ≤ 2 ^ 39 → attachKey s 0 = some k →
      let p := hostPiece (s.b2pos + offset) width k
      exec (.bar2Access wr offset width data) s = .next (bringLines (if wr then pieceWrite s p data else s) wr [p])) ∧
    (vectorDue s = true → exec .msixInterrupt s = .next (setChannel s 0 { c with fired := c.fired + 1, unsignalled := 0 }))) ∧
  (∀ (g : Datagram) (s : State), datagramOk s g = true →
    let s1 := acknowledge (setChannel s g.port (noteDatagram (channelAt s g.port) g)) g.port (dgAck g)
    let es := if dgKind g = 0 then inOrder (channelAt s1 g.port).ctail (entriesOf s g) else []
    exec (.channelDatagram g) s = .next (addCmds (setChannel s1 g.port { channelAt s1 g.port with ctail := es.foldl (fun n e => if e.seq = n + 1 then e.seq else n) (channelAt s1 g.port).ctail }) g.port es)) ∧
  (∀ (g : Datagram) (s : State),
    let field := fun (off n : Nat) => ofBytes ((g.bytes.drop off).take n)
    let n := field 0x18 2
    (field 0 2 ≠ 0x5356 ∨ field 2 1 ≠ 1 ∨ 2 < field 3 1 ∨ field 0x1A 6 ≠ 0 ∨ 128 < n ∨ (field 3 1 = 2 ∧ n ≠ 0) ∨ g.bytes.length ≠ 0x30 + 64 * n ∨
      field 4 4 < (channelAt s g.port).session ∨
      gcmTag (hkdf (channelKey s g.port) ((g.bytes.drop 4).take 4)) ((g.bytes.drop 4).take 12) (g.bytes.take 0x20) ((g.bytes.drop 0x20).take (64 * n)) ≠ g.bytes.drop (0x20 + 64 * n) →
      datagramOk s g = false) ∧
    (datagramOk s g = false → exec (.channelDatagram g) s = .next s)) ∧
  (∀ (ch seq at' : Nat) (s : State), ch ≠ 0 → attached s ch = true → tfind (channelAt s ch).resent seq = some at' → (channelAt s ch).eack < seq → at' + 100000 ≤ s.now →
    exec (.entryResend ch seq) s = .next (setChannel s ch { channelAt s ch with resent := tput (channelAt s ch).resent seq s.now, sent := (channelAt s ch).sent + 1 })) ∧
  ∀ (start : StartInfo) (s : State), exec (.deviceStart start) s = .next (restart s start) ∧
    let refused := fun (stage reason fw : Nat) => (restart s start).stopped = true ∧ (restart s start).boot.up = false ∧ (restart s start).boot.stages.head? = some stage ∧
      (restart s start).boot.reasons.head? = some reason ∧ (restart s start).boot.fwver = fw ∧ (restart s start).boot.cfgver = s.boot.cfgver
    (start.failStage = 0 → (start.fwver < s.boot.fwver ∨ start.fwver < s.boot.leastFw) → refused 2 start.fwver s.boot.fwver) ∧
    (start.failStage = 0 → s.boot.fwver ≤ start.fwver → s.boot.leastFw ≤ start.fwver → start.cfgver < s.boot.cfgver → refused 3 start.cfgver start.fwver)

/-- Collectives, the command channels and the start of the device: Collectives and ChannelEvents, each stated above. The choices of the model that they rest on are those of log entries 4, 35 and 55. -/
def Obligations.ChannelAndCollectiveEvents : Prop :=
  Sys2Proof.Claims.Collectives ∧ Sys2Proof.Claims.ChannelEvents

/-- R30, R54, R62, R87 and R174: the bytes at a bundle's packet are its three words, seen whole; where the word at its position decodes to an instruction, the step of the issuing selector is exec of that instruction, at the time that its clock now has, and then moves the bundle past its words; the selector's period is noted once the bundle's step has issued. A step that the agenda names as an event is exec of the event. Before a step that is not inside a packet under way, time passes as the agenda says; a step inside one goes on with it. No step stops the machine. What is named next, and when, is the head of the agenda, how many periods a time holds, and that a fetch of a packet that has changed may still find an old one, are the model's choices (log entries 2, 74 and 52). -/
def Obligations.StepRunsDecoded : Prop :=
  (∀ (s : State) (bid n : Nat) (b : Bundle) (i : Instr), running s = some (bid, b) → mayIssue s s.cur.1 s.cur.2 b = true → b.issued = false →
    let k := s.cur.1
    let s0 := modTc s (tcOf k) (Tc.run s.now 0)
    (∀ p, b.pkt = some p → decodeAt b.pos ([p.w0, p.w1, p.w2].drop b.pos) = some (i, n) →
      issueNow s = noted k s.cur.2 bid b (moveOn k bid n (exec i s0))) ∧
    (∀ g h x y z, b.pkt = none → bundleHdr s0 k b = some (g, h) →
      let va := (h.codebase + 12 * b.pc.toNat) % 2 ^ 64
      let word := fun (a : Nat) => fetchWord (codeView s0) k s0.core h a
      word va = some x → word (va + 4) = some y → word (va + 8) = some z →
      let p := (foundPacket s0 k g.lseq va ⟨x, y, z⟩).1
      let s1 := noteStart (modCore (fetchLines (foundPacket s0 k g.lseq va ⟨x, y, z⟩).2 k h b.pc.toNat) k fun c =>
        setBundle c bid { b with pkt := some p, pinned := false, tried := false }) g.lseq
      (atEntry h b = true → g.argFailed = none ∧ isBlockStart s1 k h b.pc.toNat = true) →
      decodeAt b.pos ([p.w0, p.w1, p.w2].drop b.pos) = some (i, n) →
      issueNow s = noted k s.cur.2 bid b (moveOn k bid n (exec i s1)))) ∧
  (∀ k bid n t, moveOn k bid n (.next t) = .next (advance t k bid n)) ∧
  (∀ (k sel bid : Nat) (b x : Bundle) (t : State), bundleAt (coreAt t k) bid = some x → x.pc = b.pc → x.stepPos = b.stepPos → noted k sel bid b (.next t) = .next t) ∧
  (∀ (k sel bid : Nat) (b : Bundle) (t : State), (∀ x, bundleAt (coreAt t k) bid = some x → x.pc ≠ b.pc ∨ x.stepPos ≠ b.stepPos) →
    noted k sel bid b (.next t) = .next (modCore t k fun c => { c with packetAt := tput c.packetAt sel (tcAt t (tcOf k)).cyc })) ∧
  (∀ (s : State) (k l va : Nat) (p : Pkt),
    (launchAt s l = none ∨ isControl k = true → foundPacket s k l va p = (p, s)) ∧
    ∀ x, launchAt s l = some x →
      let old := (tfind x.code va).getD []
      let q := foundPacket s k l va p
      (old = [] ∨ old = [p] → q.1 = p) ∧ (q.1 = p ∨ q.1 ∈ old) ∧ q.2.mem = s.mem ∧ q.2.cores = s.cores ∧
      (isControl k = false → ∃ y, launchAt q.2 l = some y ∧ ∀ r, r ∈ (tfind y.code va).getD [] ↔ r = p ∨ r ∈ old)) ∧
  (∀ s : State, midPacket s = true → step s = issueNow s) ∧ (∀ s : State, ∃ t, step s = .next t) ∧
  ∀ (s : State) (ns tc cyc k sel : Nat) (i : Instr) (r : List Pick), midPacket s = false →
    (s.agenda = .issue ns tc cyc k sel :: r →
      let s1 := elapse { s with agenda := r, cur := (k, sel) } ns tc cyc none
      step s = if issues s1 (tcOf k) then issueNow s1 else .next s1) ∧
    (s.agenda = .event ns tc cyc i :: r → (∀ c l, i ≠ .loadDeadline c l) → step s = exec i (elapse { s with agenda := r } ns tc cyc none)) ∧
    (∀ c l, s.agenda = .event ns tc cyc (.loadDeadline c l) :: r → step s = exec (.loadDeadline c l) (elapse { s with agenda := r } ns tc cyc (some (c, l))))

/-- R356, R358 and R371: however the agenda passes time, CYC of a tile cluster rises by no more periods than asked for, and by no more, and where more are asked for no fewer, than its cap leaves room for in the time that has passed since its last advance; a stretched period takes the room of two. The room that is kept between advances, less than two periods, is the model's (log entry 74). -/
def Obligations.PeriodsWithinTime : Prop :=
  ∀ (t : Tc) (now n : Nat),
    let u := t.run now n
    let periods := u.cyc - t.cyc
    let x := t.room + t.feff * (now - t.mark)
    let stretched := fun (p : Nat) => decide (t.stretchAt ≤ p) && decide (p < t.stretch)
    let cost := 1000 * (periods + ((List.range periods).filter fun i => stretched (t.cyc + i)).length)
    t.cyc ≤ u.cyc ∧ periods ≤ n ∧ cost ≤ x ∧ u.room = min (x - cost) 1749 ∧
    (periods < n → x < cost + (if stretched u.cyc then 2000 else 1000)) ∧
    u.mark = now ∧ u = { t with cyc := u.cyc, mark := u.mark, room := u.room }

/-- R34 to R53, R82, R150 and R213: words of the spec decode to the instructions that they stand for. -/
def Obligations.DecodesSpecWords : Prop :=
  decodeAt 0 [0xE81C2308, 0x7C000040] = some (.load ⟨false, 7, 4, 3, 0, 0, 4, some 0x40⟩, 2) ∧
  decodeAt 0 [0x24841030] = some (.icmpI32 ⟨false, 2, 1, 2, 3, none⟩, 1) ∧
  decodeAt 0 [0x400C091A] = some (.cvt ⟨false, false, 3, 1, 0x11, true, 1, false, none⟩, 1) ∧
  decodeAt 0 [0xCC080FE6, 0x7C000001] = some (.xflip ⟨false, 2, 1, 126, false, some 1⟩, 2) ∧
  decodeAt 0 [0xF5084100, 0x7D429000] = some (.mmaMx ⟨false, 0, 2, 8, 16, 0x28, 0x29⟩, 2) ∧
  decodeAt 0 [0xF0202008, 0x7C300008] = some (.atomic ⟨false, 8, 4, 0, 0, 4, 6, 8⟩, 2) ∧
  decodeAt 0 [0x1C081022] = some (.leaB32 ⟨false, false, 2, 2, 2, 1, false, none⟩, 1) ∧
  decodeAt 0 [0x66105003] = some (.sysr ⟨false, true, 10, 3, none⟩, 1) ∧
  decodeAt 0 [0x60100093] = some (.vany ⟨false, 9, 3, none⟩, 1) ∧
  decodeAt 2 [0xDC240000] = some (.rti ⟨false, none⟩, 1)

/-- R34 to R53: decoding an encoded word gives it back, with every operand at every value that its field holds, and takes all its words. -/
def Obligations.DecodeOfEncode : Prop :=
  ∀ i : Instr, i.encodable = true → decodeAt 0 (encode i) = some (i, (encode i).length)

/-- Every step, of a word or of an event, keeps the canonical form of memory: locations strictly rise and no listed byte reads as an unlisted one does. The form is the model's choice (log entry 1). -/
def Obligations.StepKeepsCanonicalMemory : Prop := ∀ s t : State, Memory.wf s.mem = true → step s = .next t → Memory.wf t.mem = true

/-- R8, R214, R300, R360, R363, R385 and R402: the machine after reset has canonical memory that lists nothing and no team, launch or packet; every die's SCR is 8 and no exchange is under way, every tile cluster has the registers of R360 and R402, LIMIT is 1000, and the collective cap is 1,750 MHz. That the state after reset is the one at stage 8 of a full start, and that memory then lists nothing and reads 0 outside team memory, are the model's choices (log entries 1 and 12). -/
def Obligations.ResetState : Prop :=
  let s := State.reset
  Memory.wf s.mem = true ∧ s.mem = [] ∧ s.teams = [] ∧ s.launches = [] ∧ s.packets = [] ∧ s.queues = [] ∧ s.wdt = 1000 ∧ s.collCap = 1750 ∧
  (∀ d, (dieAt s d).scr = 8 ∧ (dieAt s d).preqBusy = false ∧ (dieAt s d).busy = false ∧ (dieAt s d).faults = []) ∧
  (∀ t, (tcAt s t).cyc = 0 ∧ (tcAt s t).drt = 0x0628 ∧ (tcAt s t).cap = 1750 ∧ (tcAt s t).ebud = 34375 ∧ (tcAt s t).ibud = 300 ∧ (tcAt s t).nocb = 0x00080230) ∧
  (∀ k, isControl k = false → (coreAt s k).ctx.groups = [] ∧ (coreAt s k).chk = 0 ∧ (coreAt s k).tlb = []) ∧
  (∀ i d, i < 8 → (vreg Thread.start d).val = 0 ∧ (vreg Thread.start d).pen = false ∧ (preg Thread.start i).val = decide (i = 0)) ∧ Thread.start.lnk = 0xFFFFFFFF

/-- R372 to R376 and R379: threads without a guess that trap in one step, in a launch with a handler and outside a mirror pair, save cause, pc, position, address, timestamp, LNK, loops and replay point, lose latches and penumbra, and form one sub-group at the handler; no other thread changes. -/
def Obligations.TrapEntry : Prop :=
  ∀ (s : State) (k slot : Nat) (sub : Option Nat) (traps : Tab Trap) (pos : Nat) (pc : Word) (g : Group), isControl k = false →
    groupAt (coreAt s k) slot = some g → g.threads.length = 32 → mirrored s g = false → (hdrOf s g.lseq).handler ≠ 0xFFFFFFFF → traps ≠ [] →
    (traps.map (·.1)).Nodup → (∀ x ∈ traps, x.1 < 32 ∧ x.2.cause ≠ 7 ∧ (threadAt g x.1).rf = false ∧ (threadAt g x.1).trap.stat.getLsbD 3 = false) →
    ∃ h, groupAt (coreAt (takeTraps s k slot sub traps pos pc) k) slot = some h ∧
      (∀ x ∈ traps, let old := threadAt g x.1
        let new := threadAt h x.1
        new.trap = { cause := BitVec.ofNat 32 (x.2.cause + 256 * x.2.info), pc := pc, stat := BitVec.ofNat 32 (8 + pos), addr := x.2.addr, ts := BitVec.ofNat 64 s.now,
                     lnk := old.lnk, gst := BitVec.ofNat 32 (bit old.rpv + 8 * bit old.rpl) } ∧
        new.saved = ⟨old.loops, old.rpc, old.rpv, old.rpl⟩ ∧ new.loops = [] ∧ new.rpv = false ∧ new.rpl = false ∧ new.rf = false ∧ new.cg = false ∧
        new.fpen = false ∧ new.ringI = [] ∧ new.ringF = [] ∧ new.lnk = old.lnk ∧ new.flg = old.flg ∧
        ∀ d, (vreg new d).val = (vreg old d).val ∧ (vreg new d).dead = (vreg old d).dead ∧ (vreg new d).pen = false) ∧
      (∀ j, j ∉ traps.map (·.1) → threadAt h j = threadAt g j) ∧ h.frontier = g.frontier ∧ h.s = g.s ∧
      ∃ x, tfind h.subs g.nextSub = some x ∧ (∀ j, j < 32 → hasBit x.members j = decide (j ∈ traps.map (·.1))) ∧
        x.frontier.map (fun e => (e.start, e.wait)) = [(BitVec.ofNat 32 (hdrOf s g.lseq).handler, x.members)]

/-- R14, R169, R172 and R379: a thread that returns from its trap has its loops and replay point back, INH clear, and no latches, and leaves its sub-group; every other thread stays as it was. With RES = 0 it resumes at the trapping step, and with RES = 1 at the step after it, which follows the chain by the C bits; past the end of the packet, and after trap or bkpt, it goes on at the next packet as a completed packet does. A position inside a packet, and a packet inside a block, is an open bundle's, and one at a block start joins the frontier. -/
def Obligations.TrapReturn : Prop :=
  ∀ (s : State) (k slot lo i : Nat) (g : Group), groupAt (coreAt s k) slot = some g → g.threads.length = 32 → i < 32 →
    let old := threadAt g i
    let pos := (old.trap.stat &&& 3).toNat
    let pc := old.trap.pc
    let hdr := hdrOf s g.lseq
    let back := fun (loops : List Loop) => { old with
      ringI := [], ringF := [], loops := loops, rpc := old.saved.rpc, rpv := old.saved.rpv, rpl := old.saved.rpl, xfer := none, trap := { old.trap with stat := old.trap.stat &&& ~~~8 } }
    let t := returnThread s k slot lo i
    let returns := fun (x : Thread) (rest : Group → Prop) => ∃ h, groupAt (coreAt t k) slot = some h ∧ threadAt h i = x ∧
      (∀ j, j ≠ i → threadAt h j = threadAt g j) ∧ (∀ x ∈ h.subs, hasBit x.2.members i = false) ∧ h.s = g.s ∧ rest h
    let inside := fun (q : Word) (n : Nat) (ls : List Loop) => returns (back ls) fun h => h.frontier = g.frontier ∧
      ∃ bid b, bundleAt (coreAt t k) bid = some b ∧ b.pc = q ∧ b.pos = n ∧ b.sub = none ∧ ∃ p ∈ b.parts, p.slot = slot ∧ hasBit p.mask i = true
    let starts := fun (q : Word) (ls : List Loop) => (g.frontier.length < 16 ∨ ∃ e ∈ g.frontier, e.start = q) →
      returns (back ls) fun h => (∃ e ∈ h.frontier, e.start = q ∧ hasBit e.wait i = true) ∧ (coreAt t k).ctx.bundles = (coreAt s k).ctx.bundles
    let at' := fun (q : Word) (ls : List Loop) =>
      (isBlockStart s k hdr q.toNat = true → starts q ls) ∧ (isBlockStart s k hdr q.toNat = false → inside q 0 ls)
    (old.trap.stat.getLsbD 2 = false → pos ≠ 0 → inside pc pos old.saved.loops) ∧
    (old.trap.stat.getLsbD 2 = false → pos = 0 → at' pc old.saved.loops) ∧
    ∀ (p : Pkt) (n : Nat), old.trap.stat.getLsbD 2 = true → peekPacket s k hdr pc.toNat = some p →
      let word := fun (j : Nat) => lget 0 [p.w0, p.w1, p.w2] j
      let trapping := ∃ j, pos ≤ j ∧ j < n ∧ word j / 2 ^ 26 % 32 = 23 ∧ (word j / 2 ^ 18 % 128 = 7 ∨ word j / 2 ^ 18 % 128 = 8)
      pos < n → n ≤ 3 → (∀ j, pos ≤ j → j + 1 < n → word j / 2 ^ 31 = 1) → (n = 3 ∨ word (n - 1) / 2 ^ 31 ≠ 1) →
      (n < 3 → ¬ trapping → inside pc n old.saved.loops) ∧
      ((n = 3 ∨ trapping) →
        (match old.saved.loops with
         | [] => at' (pc + 1) []
         | l :: r => if l.stop ≠ pc then at' (pc + 1) (l :: r) else if l.count = 1 then at' (pc + 1) r else at' l.start ({ l with count := l.count - 1 } :: r)))

/-- R40 and R44: a computing word or a compare that names, in every present thread, a lost latch takes LATCH_LOST, and where dead reads trap one that names a dead register takes DEAD_READ. -/
def Sys2Proof.Claims.SourcesTrap : Prop :=
  Sys2Proof.Claims.IntegerArithmetic SourceTraps ∧ Sys2Proof.Claims.PairArithmetic SourceTraps ∧ Sys2Proof.Claims.LogicWords SourceTraps ∧
  Sys2Proof.Claims.FieldWords SourceTraps ∧ Sys2Proof.Claims.FloatArithmetic SourceTraps ∧ Sys2Proof.Claims.FloatPacked SourceTraps ∧
  Sys2Proof.Claims.FloatFunctions SourceTraps ∧ Sys2Proof.Claims.Conversions SourceTraps ∧ Sys2Proof.Claims.Packing SourceTraps ∧
  Sys2Proof.Claims.Scaling SourceTraps ∧ Sys2Proof.Claims.Dots SourceTraps ∧ Sys2Proof.Claims.IntegerCompares CompareTraps ∧
  Sys2Proof.Claims.FloatCompares CompareTraps

/-- R54, R55 and R126: a word that is illegal for its launch, or a terminator out of place, takes ILLEGAL in every present thread, and a register of system software takes PRIV; the step has no other effect. -/
def Sys2Proof.Claims.WordTraps : Prop :=
  (∀ (i : Instr) (s : State) (bid slot : Nat) (b : Bundle) (g : Group) (m : Word), i.isWord = true → Ready s bid slot b g m → (shape i).c = false →
    ((shape i).legal g.win (hdrOf s g.lseq).sregs = false ∨ ((shape i).term = true ∧ termOk b (shape i).len = false)) → TrapsAll i s bid slot b g m 1) ∧
  ∀ (o : OpSys) (s : State) (bid slot : Nat) (b : Bundle) (g : Group) (m : Word), Ready s bid slot b g m → 0x100 ≤ o.n.toNat →
    (Issuable (.sysr o) s b slot g m → TrapsAll (.sysr o) s bid slot b g m 2) ∧ (Issuable (.sysw o) s b slot g m → TrapsAll (.sysw o) s bid slot b g m 2)

/-- R55, R209 and R235: a load without a guess, and a store after its certainty point, whose address fails a check in every present thread, take the trap that the check names, with the effective address; the step has no other effect. -/
def Sys2Proof.Claims.AccessTraps : Prop :=
  (∀ (o : OpLd) (s : State) (bid slot : Nat) (b : Bundle) (g : Group) (m : Word) (cause : Nat → Nat), Ready s bid slot b g m →
    Issuable (.load o) s b slot g m → Readable (.load o) g m →
    let v := viewAt s b slot g m
    let base := fun (j : Nat) => readBase v (some j) (baseSrc o.s o.a)
    let ea := fun (j : Nat) => effAddr o.s.toNat (base j).val (litInt o.lit)
    (∀ j ∈ members m, (base j).pen = false ∧ lateEntries v (some j) = [] ∧
      checked v (some j) 0 false o.s.toNat (ea j) (tyBytes o.t.toNat) (tyAlign o.t.toNat) = .trap (cause j)) →
    ∃ t s1, exec (.load o) s = .next t ∧ Leaves s s1 bid slot g (fun _ x => x) ∧
      t = settleAt s.cur.1 slot (trapThreads s1 s.cur.1 slot b.sub ((members m).map fun j => (j, ⟨cause j, 0, BitVec.ofNat 64 (ea j), b.pos⟩)) b.stepPos b.pc)) ∧
  ∀ (o : OpSt) (s : State) (bid slot : Nat) (b : Bundle) (g : Group) (m : Word) (cause : Nat → Nat), Ready s bid slot b g m →
    Issuable (.store o) s b slot g m → Readable (.store o) g m → Calm s.core g m →
    let v := viewAt s b slot g m
    let base := fun (j : Nat) => readBase v (some j) (baseSrc o.s o.a)
    let ea := fun (j : Nat) => effAddr o.s.toNat (base j).val (litInt o.lit)
    (∀ j ∈ members m, checked v (some j) 1 false o.s.toNat (ea j) (tyBytes o.t.toNat) (tyAlign o.t.toNat) = .trap (cause j)) →
    ∃ t s1, exec (.store o) s = .next t ∧ Leaves s s1 bid slot g (fun _ x => x) ∧
      t = settleAt s.cur.1 slot (trapThreads s1 s.cur.1 slot b.sub ((members m).map fun j => (j, ⟨cause j, 0, BitVec.ofNat 64 (ea j), b.pos⟩)) b.stepPos b.pc)

/-- Which words and accesses trap, and with which cause: SourcesTrap, WordTraps and AccessTraps, each stated above. -/
def Obligations.Traps : Prop :=
  Sys2Proof.Claims.SourcesTrap ∧ Sys2Proof.Claims.WordTraps ∧ Sys2Proof.Claims.AccessTraps

/-- R25, R26 and R55: a store of a guessed address or datum, or in a thread with CG, waits where its thread has a guess unresolved, replays where RF is set and a replay point stands, and takes NO_REPLAY where none does. -/
def Sys2Proof.Claims.CertaintyPoints : Prop :=
  ∀ (o : OpSt) (s : State) (bid slot : Nat) (b : Bundle) (g : Group) (m : Word), Ready s bid slot b g m → Issuable (.store o) s b slot g m →
    Readable (.store o) g m → b.pos = b.stepPos →
    let v := viewAt s b slot g m
    let pen := fun (j : Nat) => (readBase v (some j) (baseSrc o.s o.a)).pen || (readSrc g j (threadAt g j) none .m ⟨o.d.toNat, tyRegs o.t.toNat, false, false⟩).pen
    (∀ j ∈ members m, (pen j || (threadAt g j).cg) = true) →
    ((∀ j ∈ members m, unresolved s.core g j = true) →
      let w : Wait := .certainty ((members m).map fun j => (slot, j))
      exec (.store o) s = .next (setCore s s.cur.1 (setBundle s.core bid { b with
        wait := some w, waitSince := if b.wait = some w then b.waitSince else s.now, parked := false, issued := false, uni := false, flow := false, pinned := b.pinned || stepPins b, tried := true, pushes := [] }))) ∧
    ((∀ j ∈ members m, unresolved s.core g j = false ∧ (threadAt g j).rf = true ∧ (threadAt g j).rpv = true) →
      ∃ t s1, exec (.store o) s = .next t ∧ Leaves s s1 bid slot g (fun _ x => x) ∧
        t = settleAt s.cur.1 slot ((members m).foldl (fun a j => replayAt a s.cur.1 slot b.sub j b.stepPos b.pc) s1)) ∧
    ((∀ j ∈ members m, unresolved s.core g j = false ∧ (threadAt g j).rf = true ∧ (threadAt g j).rpv = false) →
      ∃ t s1, exec (.store o) s = .next t ∧ Leaves s s1 bid slot g (fun _ x => x) ∧
        t = settleAt s.cur.1 slot (trapThreads s1 s.cur.1 slot b.sub ((members m).map fun j => (j, ⟨7, 0, 0, b.pos⟩)) b.stepPos b.pc))

/-- R11, R13 and R174: a step goes on past a chained word that computes, compares, combines predicates or selects; the chain holds its results, one of each present thread, and they write, at the end of the step, what the sources gave when the word issued; nothing else changes. -/
def Sys2Proof.Claims.ChainsHold : Prop :=
  Sys2Proof.Claims.IntegerArithmetic Chains ∧ Sys2Proof.Claims.PairArithmetic Chains ∧ Sys2Proof.Claims.LogicWords Chains ∧
  Sys2Proof.Claims.FieldWords Chains ∧ Sys2Proof.Claims.FloatArithmetic Chains ∧ Sys2Proof.Claims.FloatPacked Chains ∧
  Sys2Proof.Claims.FloatFunctions Chains ∧ Sys2Proof.Claims.Conversions Chains ∧ Sys2Proof.Claims.Packing Chains ∧ Sys2Proof.Claims.Scaling Chains ∧
  Sys2Proof.Claims.Dots Chains ∧ Sys2Proof.Claims.IntegerCompares ChainsCompare ∧ Sys2Proof.Claims.FloatCompares ChainsCompare ∧
  Sys2Proof.Claims.PredicateLogicAndSelect ChainsEach

/-- R26: a thread that replays goes to its replay point, with the loop stack and LNK of the snapshot, RF and CG clear, RPL set and no penumbra bit; it joins the frontier entry there, of its sub-group where it has one, and no register of it, no other thread and no s register changes; a ninth entry of a sub-group takes FRONTIER_FULL. -/
def Sys2Proof.Claims.Replays : Prop :=
  ∀ (s : State) (k slot i pos : Nat) (sub : Option Nat) (pc : Word) (g : Group), groupAt (coreAt s k) slot = some g → g.threads.length = 32 → i < 32 →
    let old := threadAt g i
    let t := replayAt s k slot sub i pos pc
    let joins := fun (f : List FEntry) => ∃ e ∈ f, e.start = old.rpc ∧ hasBit e.wait i = true
    (∃ h, groupAt (coreAt t k) slot = some h ∧ h.s = g.s ∧ (∀ j, j ≠ i → threadAt h j = threadAt g j) ∧
      threadAt h i = { old with v := tmap old.v fun _ r => { r with pen := false }, p := tmap old.p fun _ r => { r with pen := false }, fpen := false,
                                loops := old.snapLoops, lnk := old.snapLnk, rf := false, cg := false, rpl := true, xfer := none } ∧
      (sub = none → g.frontier.length < 16 ∨ (∃ e ∈ g.frontier, e.start = old.rpc) → joins h.frontier ∧ t.mem = s.mem) ∧
      (∀ n x, sub = some n → tfind g.subs n = some x → (x.frontier.length < 8 ∨ ∃ e ∈ x.frontier, e.start = old.rpc) →
        ∃ y, tfind h.subs n = some y ∧ joins y.frontier ∧ t.mem = s.mem)) ∧
    (∀ n x, sub = some n → tfind g.subs n = some x → 8 ≤ x.frontier.length → (∀ e ∈ x.frontier, e.start ≠ old.rpc) →
      ∃ p ∈ (coreAt t k).pend, p.own = g.uid ∧ p.slot = slot ∧ p.sub = sub ∧ p.mask = oneBit i ∧ p.traps = [(i, ⟨16, 0, 0, pos⟩)] ∧ p.pos = pos ∧ p.pc = pc)

/-- Certainty points, replays and chains: CertaintyPoints, Replays and ChainsHold, each stated above. -/
def Obligations.StepRules : Prop :=
  Sys2Proof.Claims.CertaintyPoints ∧ Sys2Proof.Claims.Replays ∧ Sys2Proof.Claims.ChainsHold

/-- R99 and R228: an access of plain bytes reads back what it wrote, and every other byte reads under its key as it did before, also where the lines have to be taken over from another key. What a line written under another key reads as is the model's choice, taken from the published standard (log entry 5). -/
def Obligations.MemoryReadsBack : Prop :=
  ∀ (s : State) (p : Piece) (v : Nat), Memory.wf s.mem = true → p.peer = false → p.mx = 0 → 0 < p.n → p.n ≤ 128 →
    let t := pieceWrite s p v
    pieceRead t p = v % 256 ^ p.n ∧ Memory.wf t.mem = true ∧
    (∀ a, a < p.loc ∨ p.loc + p.n ≤ a → keyByte t p.key a = keyByte s p.key a) ∧ t = { s with mem := t.mem, lineKey := t.lineKey }
end

