-- ==== Sys2Proof/Laws/Masks.lean ====
section
/-! SUPPORT. Masks of threads and the lists of their members. -/

namespace Sys2Proof.Machine

theorem mem_bitsFrom (m : Word) (i : Nat) : ∀ n k, i ∈ bitsFrom m n k ↔ k ≤ i ∧ i < k + n ∧ hasBit m i = true
  | 0, k => by simp [bitsFrom]; omega
  | n + 1, k => by
    simp only [bitsFrom]
    split
    · next h =>
      rw [List.mem_cons, mem_bitsFrom m i n (k + 1)]
      constructor
      · rintro (rfl | ⟨a, b, c⟩)
        · exact ⟨Nat.le_refl _, by omega, h⟩
        · exact ⟨by omega, by omega, c⟩
      · rintro ⟨a, b, c⟩
        by_cases e : i = k
        · exact .inl e
        · exact .inr ⟨by omega, by omega, c⟩
    · next h =>
      rw [mem_bitsFrom m i n (k + 1)]
      constructor
      · rintro ⟨a, b, c⟩; exact ⟨by omega, by omega, c⟩
      · rintro ⟨a, b, c⟩
        have e : i ≠ k := by rintro rfl; exact h c
        exact ⟨by omega, by omega, c⟩

/-- The members of a mask are its bits. -/
theorem mem_members (m : Word) (i : Nat) : i ∈ members m ↔ i < 32 ∧ hasBit m i = true := by
  simp [members, mem_bitsFrom]

theorem hasBit_oneBit (i j : Nat) (h : j < 32) : hasBit (oneBit i) j = decide (i = j) := by
  simp only [hasBit, oneBit, BitVec.getLsbD_ofNat, Nat.testBit_two_pow]
  simp [h]

/-- The mask of a list has the bits that the list names. -/
theorem hasBit_maskOf (l : List Nat) (j : Nat) (h : j < 32) : hasBit (maskOf l) j = decide (j ∈ l) := by
  induction l with
  | nil => simp [maskOf, hasBit]
  | cons i r ih =>
    have e : hasBit (oneBit i ||| maskOf r) j = (hasBit (oneBit i) j || hasBit (maskOf r) j) := by simp [hasBit]
    rw [maskOf, e, hasBit_oneBit i j h, ih]
    by_cases hi : i = j <;> simp [hi, eq_comm]
    intro hji; exact absurd hji.symm hi

/-- The mask of a mask's members is the mask. -/
@[simp] theorem maskOf_members (m : Word) : maskOf (members m) = m := by
  apply BitVec.eq_of_getLsbD_eq
  intro i hi
  have := hasBit_maskOf (members m) i hi
  rw [hasBit] at this
  rw [this]
  by_cases hb : m.getLsbD i = true
  · simp [mem_members, hi, hasBit, hb]
  · simp only [Bool.not_eq_true] at hb; simp [mem_members, hasBit, hb]

end Sys2Proof.Machine
end

