-- ==== Sys2Proof/Laws/Tables.lean ====
section
/-! SUPPORT. What the table and list helpers do: a read after a write, and what a write leaves alone. -/

namespace Sys2Proof.Machine

variable {α β : Type}

@[simp] theorem tfind_nil (n : Nat) : tfind ([] : Tab α) n = none := rfl

@[simp] theorem tfind_tput_same (t : Tab α) (n : Nat) (x : α) : tfind (tput t n x) n = some x := by
  induction t with
  | nil => simp [tput, tfind]
  | cons e r ih =>
    obtain ⟨k, y⟩ := e
    simp only [tput]
    split
    · simp [tfind]
    · split
      · simp [tfind]
      · next h1 h2 => simp [tfind, h2, ih]

theorem tfind_tput_ne (t : Tab α) {n m : Nat} (h : m ≠ n) (x : α) : tfind (tput t n x) m = tfind t m := by
  induction t with
  | nil => simp [tput, tfind, Ne.symm h]
  | cons e r ih =>
    obtain ⟨k, y⟩ := e
    simp only [tput]
    split
    · simp [tfind, Ne.symm h]
    · split
      · next h2 => subst h2; simp [tfind, Ne.symm h]
      · simp [tfind, ih]

theorem tfind_tput (t : Tab α) (n m : Nat) (x : α) : tfind (tput t n x) m = if m = n then some x else tfind t m := by
  by_cases h : m = n
  · subst h; simp
  · simp [h, tfind_tput_ne t h]

@[simp] theorem tget_tput_same (d : α) (t : Tab α) (n : Nat) (x : α) : tget d (tput t n x) n = x := by simp [tget]

theorem tget_tput_ne (d : α) (t : Tab α) {n m : Nat} (h : m ≠ n) (x : α) : tget d (tput t n x) m = tget d t m := by
  simp [tget, tfind_tput_ne t h]

@[simp] theorem tput_tput (t : Tab α) (n : Nat) (x y : α) : tput (tput t n x) n y = tput t n y := by
  induction t with
  | nil => simp [tput]
  | cons e r ih =>
    obtain ⟨k, z⟩ := e
    by_cases h1 : n < k
    · simp [tput, h1]
    · by_cases h2 : k = n
      · simp [tput, h2]
      · simp [tput, h1, h2, ih]

theorem tfind_tmod (t : Tab α) (n m : Nat) (f : α → α) :
    tfind (tmod t n f) m = if m = n then (tfind t m).map f else tfind t m := by
  induction t with
  | nil => simp [tmod]
  | cons e r ih =>
    obtain ⟨k, y⟩ := e
    simp only [tmod]
    split
    · next h =>
      subst h
      by_cases hm : k = m
      · subst hm; simp [tfind]
      · simp [tfind, hm, Ne.symm hm]
    · next h =>
      by_cases hk : k = m
      · subst hk; simp [tfind, h]
      · simp [tfind, hk, ih]

theorem tfind_tdel_ne (t : Tab α) {n m : Nat} (h : m ≠ n) : tfind (tdel t n) m = tfind t m := by
  induction t with
  | nil => rfl
  | cons e r ih =>
    obtain ⟨k, y⟩ := e
    simp only [tdel]
    split
    · next hk => subst hk; simp [tfind, Ne.symm h, ih]
    · simp [tfind, ih]

@[simp] theorem tfind_tdel_same (t : Tab α) (n : Nat) : tfind (tdel t n) n = none := by
  induction t with
  | nil => rfl
  | cons e r ih =>
    obtain ⟨k, y⟩ := e
    simp only [tdel]
    split
    · exact ih
    · next h => simp [tfind, h, ih]

theorem tfind_tmap (t : Tab α) (f : Nat → α → β) (n : Nat) : tfind (tmap t f) n = (tfind t n).map (f n) := by
  induction t with
  | nil => rfl
  | cons e r ih =>
    obtain ⟨k, y⟩ := e
    by_cases h : k = n
    · subst h; simp [tmap, tfind]
    · simp [tmap, tfind, h, ih]

@[simp] theorem length_lmod (l : List α) (n : Nat) (f : α → α) : (lmod l n f).length = l.length := by
  induction l generalizing n with
  | nil => cases n <;> rfl
  | cons x r ih => cases n <;> simp [lmod, ih]

@[simp] theorem length_imap (f : Nat → α → β) (k : Nat) (l : List α) : (imap f k l).length = l.length := by
  induction l generalizing k with
  | nil => rfl
  | cons x r ih => simp [imap, ih]

theorem lget_lmod_same (d : α) (l : List α) (n : Nat) (f : α → α) (h : n < l.length) : lget d (lmod l n f) n = f (lget d l n) := by
  induction l generalizing n with
  | nil => simp at h
  | cons x r ih => cases n with
    | zero => rfl
    | succ m => exact ih m (by simpa using h)

theorem lget_lmod_ne (d : α) (l : List α) {n m : Nat} (f : α → α) (h : m ≠ n) : lget d (lmod l n f) m = lget d l m := by
  induction l generalizing n m with
  | nil => cases n <;> rfl
  | cons x r ih => cases n with
    | zero => cases m with
      | zero => exact absurd rfl h
      | succ p => rfl
    | succ q => cases m with
      | zero => rfl
      | succ p => exact ih (by omega)

theorem lget_past (d : α) (l : List α) (n : Nat) (h : l.length ≤ n) : lget d l n = d := by
  induction l generalizing n with
  | nil => rfl
  | cons x r ih => cases n with
    | zero => simp at h
    | succ m => exact ih m (by simpa using h)

theorem lget_imap (d : α) (f : Nat → α → α) (k : Nat) (l : List α) (n : Nat) (h : n < l.length) :
    lget d (imap f k l) n = f (k + n) (lget d l n) := by
  induction l generalizing k n with
  | nil => simp at h
  | cons x r ih => cases n with
    | zero => rfl
    | succ m =>
      have := ih (k + 1) m (by simpa using h)
      simpa [imap, lget, Nat.add_assoc, Nat.add_comm 1 m] using this

end Sys2Proof.Machine
end

