-- ==== Sys2Proof/Laws/Issue.lean ====
section
/-! SUPPORT. What issuing a word does, once for every word: where the bundle is ready and the word waits for nothing, its plan's results commit. -/

namespace Sys2Proof.Machine

/-- A launch's core runs a word with its own shape. -/
@[simp] theorem shapeOn_launch (k : Nat) (i : Instr) (h : isControl k = false) : shapeOn k i = shape i := by simp [shapeOn, h]

theorem run_eq (i : Instr) (plan : Shape → View → Plan) (s : State) (h : isControl s.cur.1 = false) :
    run i plan s = .next (issue (shape i) (plan (shape i)) s) := by simp [run, h]

/-- A ready bundle's view. -/
theorem Ready.view {s : State} {bid slot : Nat} {b : Bundle} {g : Group} {m : Word} (r : Ready s bid slot b g m) :
    b.parts.filterMap (viewOf s s.cur.1 b) = [viewAt s b slot g m] := by
  have h := r.group
  rw [State.core] at h
  simp [r.parts, viewOf, viewAt, h]

/-- No word clashes with an empty chain (R11). -/
theorem Ready.noClash {s : State} {bid slot : Nat} {b : Bundle} {g : Group} {m : Word} (r : Ready s bid slot b g m) (sh : Shape) :
    sh.clashes b = false := by simp [Shape.clashes, r.pipes, r.dsts]

/-- What a word plans where it is issuable. -/
theorem groupPlan_issuable {i : Instr} {s : State} {b : Bundle} {slot : Nat} {g : Group} {m : Word} (h : Issuable i s b slot g m) (plan : View → Plan) :
    groupPlan (shape i) plan false (viewAt s b slot g m) = (plan (viewAt s b slot g m)).counted (viewAt s b slot g m) := by
  have hl := h.legal
  have hw := h.noWait
  simp only [groupPlan, Bool.false_or]
  rw [show (viewAt s b slot g m).g.win = g.win from rfl, show (viewAt s b slot g m).h.sregs = (hdrOf s g.lseq).sregs from rfl, hl, hw]
  rfl

/-- A WORD ISSUES: a ready bundle and an issuable word whose plan goes ahead commit its results. -/
theorem issue_go {i : Instr} {s : State} {bid slot : Nat} {b : Bundle} {g : Group} {m : Word} (r : Ready s bid slot b g m)
    (h : Issuable i s b slot g m) {plan : View → Plan} {rs : List Res} (hp : plan (viewAt s b slot g m) = .go rs) (hc : overCount g slot rs = []) :
    issue (shape i) plan s = commit s s.cur.1 bid { b with uni := b.uni || (shape i).once, segs := [(b.pos, rs.length)] } rs (shape i).wide := by
  have hbad : ((shape i).clashes b || ((shape i).term && !termOk b (shape i).len)) = false := by
    rw [r.noClash]
    cases ht : (shape i).term
    · rfl
    · simp [h.place ht]
  have hw : (b.wide || (shape i).wide) = (shape i).wide := by rw [r.wide]; rfl
  unfold issue
  rw [r.runs]
  dsimp only
  have hh : (viewAt s b slot g m).held = [] := by simp [View.held, viewAt, r.held]
  rw [if_neg (by simp [r.fresh]), r.view, hbad, List.map_cons, List.map_nil, groupPlan_issuable h, hp]
  simp only [Plan.counted, hh, List.nil_append, show (viewAt s b slot g m).g = g from rfl, show (viewAt s b slot g m).slot = slot from rfl, hc, Bool.false_eq_true, if_false, h.last, Bool.false_and, hw, planHold, r.post, List.flatMap_cons, List.flatMap_nil, planRes,
    List.append_nil, List.map_nil, r.held, r.segs]

/-- Results of one slot that neither trap, replay nor leave the bundle. -/
structure Stays (slot : Nat) (r : Res) : Prop where
  slot : r.slot = slot
  trap : r.trap = none
  replay : r.replay = false
  leaves : r.acts.any Act.leaves = false
  stalls : ∀ w q, Act.stall w q ∉ r.acts
  joint : ∀ a, Eff.joint a ∉ r.effs
  quiet : ∀ a ∈ r.acts, a.onGuess = false

theorem fateOf_stays {slot : Nat} {rs : List Res} (q : ∀ r ∈ rs, Stays slot r) (i : Nat) : fateOf rs slot i = .done := by
  have h1 : ∀ p : Res → Bool, (rs.filter p).filterMap (·.trap) = [] := by
    intro p
    rw [List.filterMap_eq_nil_iff]
    intro x hx; exact (q x (List.mem_filter.mp hx).1).trap
  have h2 : ∀ p : Res → Bool, (rs.filter p).any (·.replay) = false := by
    intro p
    rw [List.any_eq_false]
    intro x hx; simp [(q x (List.mem_filter.mp hx).1).replay]
  simp [fateOf, h1, h2, firstTrap]

theorem jointOf_stays {slot : Nat} {rs : List Res} (q : ∀ r ∈ rs, Stays slot r) : jointOf rs slot = none := by
  unfold jointOf
  rw [List.flatMap_eq_nil_iff.mpr]
  · rfl
  · intro r hr
    rw [List.filterMap_eq_nil_iff]
    intro e he
    cases e with
    | joint a => exact absurd he ((q r (List.mem_filter.mp hr).1).joint a)
    | _ => rfl

theorem wordStalls_stays {slot : Nat} {rs : List Res} (q : ∀ r ∈ rs, Stays slot r) (fs : List (Part × List (Nat × Fate))) : wordStalls fs rs = false := by
  rw [wordStalls, List.any_eq_false]
  intro r hr
  have : r.acts.any Act.stalls = false := by
    rw [List.any_eq_false]
    intro a ha
    cases a with
    | stall w p => exact absurd ha ((q r hr).stalls w p)
    | _ => simp [Act.stalls]
  simp [this]

/-- A step none of whose results stalls has no word that waits. -/
theorem splitWords_stays {slot : Nat} (fs : List (Part × List (Nat × Fate))) : ∀ (sg : List (Nat × Nat)) {rs : List Res}, (∀ r ∈ rs, Stays slot r) → splitWords fs (wordsOf sg rs) = none
  | [], _, _ => rfl
  | (p, n) :: r, rs, q => by
    simp [wordsOf, splitWords, wordStalls_stays (fun x hx => q x (List.mem_of_mem_take hx)) fs, splitWords_stays fs r (fun x hx => q x (List.mem_of_mem_drop hx))]

theorem fates_stays {slot : Nat} {rs : List Res} (q : ∀ r ∈ rs, Stays slot r) (wide : Bool) (m : Word) :
    fates wide rs ⟨slot, m⟩ = (members m).map fun i => (i, .done) := by
  have h : (members m).map (fun i => (i, fateOf rs slot i)) = (members m).map fun i => (i, Fate.done) := by
    apply List.map_congr_left; intro i _; rw [fateOf_stays q]
  simp only [fates, jointOf_stays q, together, h]
  have : ((members m).map fun i => (i, Fate.done)).filterMap (fun f => f.2.taken) = [] := by
    rw [List.filterMap_eq_nil_iff]; intro x hx
    obtain ⟨i, _, rfl⟩ := List.mem_map.mp hx; rfl
  rw [this]
  cases wide <;> rfl

theorem doneMask_done (m : Word) : doneMask ((members m).map fun i => (i, Fate.done)) = m := by
  have : ((members m).map fun i => (i, Fate.done)).filter (fun f => f.2 == .done) = (members m).map fun i => (i, Fate.done) := by
    rw [List.filter_eq_self]; intro x hx
    obtain ⟨i, _, rfl⟩ := List.mem_map.mp hx; rfl
  simp [doneMask, this, List.map_map, Function.comp_def]

theorem replays_done (m : Word) : replays ((members m).map fun i => (i, Fate.done)) = [] := by
  simp [replays, List.filter_map, Function.comp_def]

theorem trapsOf_done (m : Word) : trapsOf ((members m).map fun i => (i, Fate.done)) = [] := by
  simp [trapsOf, List.filterMap_map, Fate.taken]

theorem leavers_stays {slot : Nat} {rs : List Res} (q : ∀ r ∈ rs, Stays slot r) : leavers rs slot = 0 := by
  have : rs.filterMap (fun r => if r.slot = slot && r.acts.any Act.leaves then r.thr else none) = [] := by
    rw [List.filterMap_eq_nil_iff]; intro x hx; simp only [(q x hx).leaves, Bool.and_false]; rfl
  rw [leavers, this]; rfl

theorem modCore_modCore (s : State) (k : Nat) (f g : Core → Core) : modCore (modCore s k f) k g = modCore s k fun c => g (f c) := by
  simp [modCore, setCore, coreAt]

@[simp] theorem coreAt_modCore_same (s : State) (k : Nat) (f : Core → Core) : coreAt (modCore s k f) k = f (coreAt s k) := by
  simp [modCore, setCore, coreAt]

theorem coreAt_modCore_ne (s : State) {k j : Nat} (h : j ≠ k) (f : Core → Core) : coreAt (modCore s k f) j = coreAt s j := by
  simp [modCore, setCore, coreAt, tget_tput_ne _ _ h]

/-- Results that act on no guess do nothing before the words of their step write. -/
theorem commitGuesses_stays {slot : Nat} {rs : List Res} (q : ∀ r ∈ rs, Stays slot r) (m : Word) (k bid : Nat) (pc : Word) (s : State) :
    commitGuesses rs slot m k bid pc s = s := by
  rw [commitGuesses, doActs]
  generalize hl : rs.filter (fun r => r.takes slot m) = l
  have ql : ∀ x ∈ l, x.acts.filter Act.onGuess = [] := by
    intro x hx; rw [← hl] at hx
    exact List.filter_eq_nil_iff.mpr fun a ha => by simp [(q x (List.mem_filter.mp hx).1).quiet a ha]
  clear hl
  induction l with
  | nil => rfl
  | cons x t ih => rw [List.foldl_cons, ql x (by simp)]; exact ih fun y hy => ql y (by simp [hy])

/-- A STEP COMMITS: where no result traps, replays or leaves the bundle, the effects are taken, then the actions, and then guesses settle. -/
theorem commit_stays {s : State} {bid slot : Nat} {b : Bundle} {g : Group} {m : Word} (r : Ready s bid slot b g m) {rs : List Res}
    (q : ∀ x ∈ rs, Stays slot x) (wide u : Bool) (sg : List (Nat × Nat)) :
    commit s s.cur.1 bid { b with uni := u, segs := sg } rs wide =
      settleAt s.cur.1 slot (commitActs rs slot m s.cur.1 bid b.pc (modCore s s.cur.1 (takeEffs rs slot m bid b s.now))) := by
  have hm : (m &&& ~~~(0 : Word)) = m := BitVec.and_allOnes
  have hz : m ≠ 0#32 := r.some
  obtain ⟨x, hx⟩ : ∃ x, x = ({ b with uni := u, segs := sg } : Bundle) := ⟨_, rfl⟩
  rw [← hx]
  have hp : x.parts = [⟨slot, m⟩] := by rw [hx]; exact r.parts
  have ht : x.trapped = [] := by rw [hx]; exact r.trapped
  have hst : stayed x [⟨slot, m⟩] = stayed b [⟨slot, m⟩] := by rw [hx]; rfl
  have hf : x.sub = b.sub ∧ x.pc = b.pc ∧ x.yield = b.yield ∧ x.flow = b.flow := by rw [hx]; exact ⟨rfl, rfl, rfl, rfl⟩
  have hts : trapList [((⟨slot, m⟩ : Part), (members m).map fun i => (i, Fate.done))] = [] := by simp [trapList, trapsOf_done]
  simp only [commit, hp, List.map_cons, List.map_nil, fates_stays q, splitWords_stays (slot := slot) _ _ q, hts, List.isEmpty_nil, Bool.not_true, Bool.and_false,
    Bool.false_and, Bool.false_eq_true, if_false, finishStep, ht, List.nil_append, List.foldl_cons, List.foldl_nil, doneMask_done, replays_done,
    leavers_stays q, commitGuesses_stays q, hm, trapGroups, trapSlots, hst, hf.1, hf.2.1, hf.2.2.1, hf.2.2.2, Bool.and_true]
  have hne : (stayed b [⟨slot, m⟩]).parts.isEmpty = false := by simp [stayed, hz]
  simp only [hne, Bool.or_false, Bool.false_eq_true, if_false, modCore_modCore]
  rfl

end Sys2Proof.Machine
end

