-- ==== Sys2Proof/Laws/Settle.lean ====
section
/-! SUPPORT. What settling the guesses of a group changes, and what the effects of a step make of a core. -/

namespace Sys2Proof.Machine

theorem threadAt_mapThreads (g : Group) (f : Nat → Thread → Thread) (j : Nat) :
    threadAt (mapThreads g f) j = if j < g.threads.length then f j (threadAt g j) else threadAt g j := by
  by_cases h : j < g.threads.length
  · simp [threadAt, mapThreads, h, lget_imap Thread.start f 0 g.threads j h]
  · simp only [h, if_false, threadAt, mapThreads]
    rw [lget_past _ _ _ (by simpa using h), lget_past _ _ _ (by simpa using h)]

theorem settled_refl (t : Thread) : Settled t t := .inl rfl

theorem settleThread_settled (c : Core) (g : Group) (j : Nat) (t : Thread) : Settled (settleThread c g j t) t := by
  unfold settleThread
  split
  · exact .inl rfl
  · exact .inr rfl

theorem sreg_clear (g : Group) (n : Nat) : sreg { g with s := tmap g.s fun _ r => { r with pen := false } } n = ⟨(sreg g n).val, false⟩ := by
  unfold sreg
  by_cases h : n = 0
  · simp [h]
  · simp only [h, if_false, tget, tfind_tmap]
    cases tfind g.s n <;> rfl

theorem settleGroup_settled (c : Core) (g : Group) : SettledGroup (settleGroup c g) g := by
  have ht : ∀ j, Settled (threadAt (mapThreads g (settleThread c g)) j) (threadAt g j) := by
    intro j
    rw [threadAt_mapThreads]
    split
    · exact settleThread_settled c g j _
    · exact .inl rfl
  unfold settleGroup settleS
  split
  · exact ⟨ht, fun n => .inr (sreg_clear _ n), fun n => rfl, rfl⟩
  · exact ⟨ht, fun n => .inl rfl, fun n => rfl, rfl⟩

theorem clearRg_settled (c : Core) (g : Group) : SettledGroup { settleGroup c g with tiles := tmap g.tiles fun _ t => { t with rg := 0 } } g := by
  have h := settleGroup_settled c g
  refine ⟨h.threads, h.sregs, fun n => ?_, ?_⟩
  · simp only [tfind_tmap]; cases tfind g.tiles n <;> rfl
  · rw [h.rest]

theorem settleGroup_uid (c : Core) (g : Group) : (settleGroup c g).uid = g.uid := by
  unfold settleGroup settleS
  split <;> rfl

theorem settleGroup_tiles (c : Core) (g : Group) : (settleGroup c g).tiles = g.tiles := by
  unfold settleGroup settleS
  split <;> rfl

theorem tfind_mem {α : Type} : ∀ (t : Tab α) (n : Nat) (x : α), tfind t n = some x → (n, x) ∈ t
  | [], _, _, h => by simp at h
  | (k, y) :: r, n, x, h => by
    by_cases hk : k = n
    · subst hk; simp [tfind] at h; simp [h]
    · simp only [tfind, hk, if_false] at h; exact List.mem_cons_of_mem _ (tfind_mem r n x h)

/-- In a table whose keys rise, a listed entry is the one found. -/
theorem Rising.find {α : Type} {t : Tab α} (r : Rising t) {n : Nat} {x : α} (h : (n, x) ∈ t) : tfind t n = some x := by
  induction t with
  | nil => simp at h
  | cons e l ih =>
    obtain ⟨k, y⟩ := e
    simp only [Rising, List.map_cons, List.pairwise_cons] at r
    rcases List.mem_cons.mp h with h | h
    · obtain ⟨rfl, rfl⟩ := Prod.mk.inj h; simp [tfind]
    · have : k < n := r.1 n (List.mem_map.mpr ⟨(n, x), h, rfl⟩)
      have hk : k ≠ n := by omega
      simp [tfind, hk, ih r.2 h]

theorem mem_tput {α : Type} {t : Tab α} {n : Nat} {x : α} {e : Nat × α} (h : e ∈ tput t n x) : e = (n, x) ∨ e ∈ t := by
  induction t with
  | nil => simpa [tput] using h
  | cons a l ih =>
    obtain ⟨k, y⟩ := a
    simp only [tput] at h
    split at h
    · simpa using h
    · split at h
      · next hk => simp only [List.mem_cons] at h ⊢; rcases h with h | h <;> simp [h]
      · simp only [List.mem_cons] at h ⊢
        rcases h with h | h
        · simp [h]
        · rcases ih h with h | h <;> simp [h]

theorem Rising.tput {α : Type} {t : Tab α} (r : Rising t) (n : Nat) (x : α) : Rising (tput t n x) := by
  induction t with
  | nil => simp [Machine.tput, Rising]
  | cons a l ih =>
    obtain ⟨k, y⟩ := a
    have r' := r
    simp only [Rising, List.map_cons, List.pairwise_cons] at r
    simp only [Machine.tput]
    split
    · next h =>
      simp only [Rising, List.map_cons, List.pairwise_cons]
      refine ⟨?_, r⟩
      intro q hq
      rcases List.mem_cons.mp hq with rfl | hq
      · exact h
      · exact Nat.lt_trans h (r.1 q hq)
    · split
      · next hk => subst hk; simpa [Rising] using r'
      · next h1 h2 =>
        simp only [Rising, List.map_cons, List.pairwise_cons]
        refine ⟨?_, ih r.2⟩
        intro q hq
        obtain ⟨e, he, rfl⟩ := List.mem_map.mp hq
        rcases mem_tput he with rfl | he
        · dsimp only; omega
        · exact r.1 _ (List.mem_map.mpr ⟨e, he, rfl⟩)

theorem findUid_only {t : Tab Group} {slot : Nat} {g : Group} (h : tfind t slot = some g) (only : ∀ x ∈ t, x.2.uid = g.uid → x = (slot, g)) :
    findUid t g.uid = some g := by
  induction t with
  | nil => simp at h
  | cons e r ih =>
    obtain ⟨k, y⟩ := e
    simp only [findUid]
    split
    · next hu => have := only (k, y) (by simp) hu; simp at this; simp [this.2]
    · next hu =>
      have hk : k ≠ slot := by
        intro hk; subst hk; simp [tfind] at h; subst h; exact hu rfl
      simp only [tfind, hk, if_false] at h
      exact ih h fun x hx => only x (List.mem_cons_of_mem _ hx)

theorem owner_only {c : Core} {slot : Nat} {g : Group} (h : groupAt c slot = some g) (only : ∀ x ∈ c.ctx.groups, x.2.uid = g.uid → x = (slot, g)) :
    owner c g.uid = some g := by
  simp [owner, findUid_only h only]

theorem modUid_others {t : Tab Group} {u : Nat} (h : ∀ x ∈ t, x.2.uid ≠ u) (f : Group → Group) : modUid t u f = t := by
  induction t with
  | nil => rfl
  | cons e r ih =>
    obtain ⟨k, y⟩ := e
    have hy : y.uid ≠ u := h (k, y) (by simp)
    have := ih fun x hx => h x (by simp [hx])
    simp only [modUid] at this
    simp [modUid, tmap, hy, this]

theorem tfind_modUid {t : Tab Group} {slot : Nat} {g : Group} (h : tfind t slot = some g) (only : ∀ x ∈ t, x.2.uid = g.uid → x = (slot, g))
    (f : Group → Group) (q : Nat) : tfind (modUid t g.uid f) q = if q = slot then some (f g) else tfind t q := by
  rw [modUid, tfind_tmap]
  by_cases hq : q = slot
  · subst hq; simp [h]
  · simp only [hq, if_false]
    cases hx : tfind t q with
    | none => rfl
    | some y =>
      have : y.uid ≠ g.uid := by
        intro hu
        have := only (q, y) (tfind_mem _ _ _ hx) hu
        simp at this; exact hq this.1
      simp [this]

@[simp] theorem cancelRg_place (u : Nat) (w : MWord) : (fun w : MWord => (w.own, w.slot, w.tile)) (cancelRg u w) = (w.own, w.slot, w.tile) := by
  unfold cancelRg
  split
  · split <;> rfl
  · rfl

/-- CANCELLING SETTINGS leaves the groups of a context, and which updates stand in its queues. -/
theorem Ctx.cancelRg_keeps (u : Nat) (x : Ctx) :
    ∃ q0 q1 en, x.cancelRg u = { x with mq0 := q0, mq1 := q1, engine := en } ∧
      q0.map (fun w => (w.own, w.slot, w.tile)) = x.mq0.map (fun w => (w.own, w.slot, w.tile)) ∧
      q1.map (fun w => (w.own, w.slot, w.tile)) = x.mq1.map (fun w => (w.own, w.slot, w.tile)) := by
  unfold Ctx.cancelRg
  split
  · exact ⟨_, _, _, rfl, rfl, rfl⟩
  · exact ⟨_, _, _, rfl, by simp [List.map_map, Function.comp_def], by simp [List.map_map, Function.comp_def]⟩

theorem findUid_none {t : Tab Group} {u : Nat} (h : ∀ x ∈ t, x.2.uid ≠ u) : findUid t u = none := by
  induction t with
  | nil => rfl
  | cons e r ih => simp [findUid, h e (by simp), ih fun x hx => h x (by simp [hx])]

/-- A context that does not hold the group keeps its settings. -/
theorem Ctx.cancelRg_others {x : Ctx} {u : Nat} (h : ∀ y ∈ x.groups, y.2.uid ≠ u) : x.cancelRg u = x := by
  simp [Ctx.cancelRg, findUid_none h]

/-- SETTLING changes one group and the row guess flags of its queued updates. -/
theorem settle_group {c : Core} {slot : Nat} {g : Group} (h : groupAt c slot = some g)
    (only : ∀ x ∈ c.ctx.groups, x.2.uid = g.uid → x = (slot, g)) (others : ∀ x ∈ c.saved.groups ++ c.shadow.groups, x.2.uid ≠ g.uid) :
    ∃ g', groupAt (settle c g.uid) slot = some g' ∧ SettledGroup g' g ∧ (∀ q, q ≠ slot → groupAt (settle c g.uid) q = groupAt c q) ∧
      (settle c g.uid).ctx.mq0.map (fun w => (w.own, w.slot, w.tile)) = c.ctx.mq0.map (fun w => (w.own, w.slot, w.tile)) ∧
      (settle c g.uid).ctx.mq1.map (fun w => (w.own, w.slot, w.tile)) = c.ctx.mq1.map (fun w => (w.own, w.slot, w.tile)) ∧
      settle c g.uid = { c with ctx := { c.ctx with groups := (settle c g.uid).ctx.groups, mq0 := (settle c g.uid).ctx.mq0,
                                                     mq1 := (settle c g.uid).ctx.mq1, engine := (settle c g.uid).ctx.engine } } := by
  have hs := fun f => modUid_others (t := c.saved.groups) (u := g.uid) (fun x hx => others x (by simp [hx])) f
  have hd := fun f => modUid_others (t := c.shadow.groups) (u := g.uid) (fun x hx => others x (by simp [hx])) f
  have hcs : c.saved.cancelRg g.uid = c.saved := Ctx.cancelRg_others fun x hx => others x (by simp [hx])
  have hcd : c.shadow.cancelRg g.uid = c.shadow := Ctx.cancelRg_others fun x hx => others x (by simp [hx])
  unfold settle
  rw [owner_only h only]
  dsimp only
  split
  · obtain ⟨q0, q1, en, hx, h0, h1⟩ := Ctx.cancelRg_keeps g.uid
      { c.ctx with groups := modUid c.ctx.groups g.uid fun x => (settleGroup c x).clearRg }
    refine ⟨(settleGroup c g).clearRg, ?_, ?_, ?_, ?_, ?_, ?_⟩
    · simp only [groupAt, modOwner, hx]; rw [tfind_modUid h only]; simp
    · rw [Group.clearRg, settleGroup_tiles]; exact clearRg_settled c g
    · intro q hq; simp only [groupAt, modOwner, hx]; rw [tfind_modUid h only]; simp [hq]
    · simpa only [modOwner, hx] using h0
    · simpa only [modOwner, hx] using h1
    · simp only [modOwner, hs, hd, hcs, hcd, hx]
  · refine ⟨settleGroup c g, ?_, settleGroup_settled c g, ?_, rfl, rfl, ?_⟩
    · simp only [groupAt, modOwner]; rw [tfind_modUid h only]; simp
    · intro q hq; simp only [groupAt, modOwner]; rw [tfind_modUid h only]; simp [hq]
    · simp [modOwner, hs, hd]

theorem dropHolds_rest (c : Core) (u : Nat) (r : Res) : dropHolds c u r = { c with loads := (dropHolds c u r).loads } := by
  unfold dropHolds
  dsimp only
  split <;> rfl

theorem dropHolds_loads (c : Core) (u : Nat) (r : Res) :
    (dropHolds c u r).loads.map (fun l => { l with holds := [] }) = c.loads.map fun l => { l with holds := [] } := by
  unfold dropHolds
  dsimp only
  split
  · rfl
  · simp only [List.map_map]
    apply List.map_congr_left
    intro l _
    simp only [Function.comp]
    split <;> rfl

theorem foldl_dropHolds (rs : List Res) (u : Nat) (c : Core) :
    rs.foldl (fun a r => dropHolds a u r) c = { c with loads := (rs.foldl (fun a r => dropHolds a u r) c).loads } ∧
    (rs.foldl (fun a r => dropHolds a u r) c).loads.map (fun l => { l with holds := [] }) = c.loads.map fun l => { l with holds := [] } := by
  induction rs generalizing c with
  | nil => exact ⟨rfl, rfl⟩
  | cons r t ih =>
    rw [List.foldl_cons]
    have h := ih (dropHolds c u r)
    refine ⟨?_, by rw [h.2, dropHolds_loads]⟩
    rw [h.1]
    rw [dropHolds_rest c u r]

/-- Whether a step's results hold a uniform certainty point that proceeds in a group (R287). -/
def sureIn (rs : List Res) (slot : Nat) (m : Word) : Bool := (rs.filter fun r => r.takes slot m).any Res.sureS

theorem findUid_isSome {t : Tab Group} {u : Nat} {x : Nat × Group} (h : x ∈ t) (hu : x.2.uid = u) : (findUid t u).isSome = true := by
  induction t with
  | nil => cases h
  | cons e r ih =>
    rw [findUid]
    by_cases he : e.2.uid = u
    · simp [he]
    · rcases List.mem_cons.mp h with rfl | h
      · exact absurd hu he
      · simpa [he] using ih h

/-- A context that holds the group cancels its settings, whatever else its groups are. -/
theorem Ctx.cancelRg_groups {x : Ctx} {u slot : Nat} {g g1 : Group} (h : tfind x.groups slot = some g) (hu : g.uid = u) (h1 : g1.uid = u) :
    ({ x with groups := tput x.groups slot g1 } : Ctx).cancelRg u = { x.cancelRg u with groups := tput x.groups slot g1 } := by
  have a : (findUid x.groups u).isSome = true := findUid_isSome (tfind_mem _ _ _ h) hu
  have b : (findUid (tput x.groups slot g1) u).isSome = true := findUid_isSome (tfind_mem _ _ _ (tfind_tput_same x.groups slot g1)) h1
  simp [Ctx.cancelRg, Option.isSome_iff_ne_none.mp a, Option.isSome_iff_ne_none.mp b]

/-- The effects of a step on one group: the group, the guesses that its loads hold, and the settings of its queued updates. -/
theorem commitEffs_core {c : Core} {slot : Nat} {g : Group} (h : groupAt c slot = some g) (rs : List Res) (m : Word) (handler : Bool) (now : Nat)
    (hu : (groupAfter rs slot m handler now g).uid = g.uid) :
    ∃ ls, commitEffs rs slot m handler now c =
        { c with ctx := { (if sureIn rs slot m then c.ctx.cancelRg g.uid else c.ctx) with groups := tput c.ctx.groups slot (groupAfter rs slot m handler now g) }, loads := ls } ∧
      ls.map (fun l => { l with holds := [] }) = c.loads.map fun l => { l with holds := [] } := by
  have hc : cancelAt (rs.filter fun r => r.takes slot m) g.uid (setGroup c slot (groupAfter rs slot m handler now g)) =
      { c with ctx := { (if sureIn rs slot m then c.ctx.cancelRg g.uid else c.ctx) with groups := tput c.ctx.groups slot (groupAfter rs slot m handler now g) } } := by
    rw [cancelAt, ← sureIn]
    cases sureIn rs slot m
    · rfl
    · simp only [if_true, setGroup, Ctx.cancelRg_groups h rfl hu]
  have := foldl_dropHolds (rs.filter fun r => r.takes slot m) g.uid (cancelAt (rs.filter fun r => r.takes slot m) g.uid (setGroup c slot (groupAfter rs slot m handler now g)))
  refine ⟨_, ?_, this.2.trans (by rw [hc])⟩
  simp only [commitEffs, h]
  rw [this.1, hc]

/-- Groups after one is replaced by another of its number: it is the only one of that number. -/
theorem only_tput {t : Tab Group} {slot : Nat} {g g' : Group} (rise : Rising t) (only : ∀ x ∈ t, x.2.uid = g.uid → x.1 = slot) (hu : g'.uid = g.uid) :
    ∀ x ∈ tput t slot g', x.2.uid = g'.uid → x = (slot, g') := by
  intro x hx he
  have hk : x.1 = slot := by
    rcases mem_tput hx with rfl | hx
    · rfl
    · exact only x hx (he.trans hu)
  have hf := (rise.tput slot g').find (n := x.1) (x := x.2) hx
  rw [hk, tfind_tput_same] at hf
  exact Prod.ext hk (Option.some.inj hf).symm

theorem bundleAt_takeEffs (rs : List Res) (slot : Nat) (m : Word) (bid : Nat) (b : Bundle) (now : Nat) (c : Core) :
    bundleAt (takeEffs rs slot m bid b now c) bid = some (stayed b [⟨slot, m⟩]) := by
  simp [bundleAt, takeEffs, setBundle]

/-- THE EFFECTS OF A STEP change one group and its bundle of a core. -/
theorem takeEffs_core {c : Core} {slot : Nat} {g : Group} (h : groupAt c slot = some g) (rs : List Res) (m : Word) (bid : Nat) (b : Bundle) (now : Nat)
    (hu : (groupAfter rs slot m b.sub.isSome now g).uid = g.uid) :
    ∃ ls, takeEffs rs slot m bid b now c =
        { c with ctx := { (if sureIn rs slot m then c.ctx.cancelRg g.uid else c.ctx) with groups := tput c.ctx.groups slot (groupAfter rs slot m b.sub.isSome now g), bundles := tput c.ctx.bundles bid (stayed b [⟨slot, m⟩]) },
                 loads := ls } ∧
      ls.map (fun l => { l with holds := [] }) = c.loads.map fun l => { l with holds := [] } := by
  obtain ⟨ls, h1, h2⟩ := commitEffs_core h rs m b.sub.isSome now hu
  refine ⟨ls, ?_, h2⟩
  rw [takeEffs, h1]
  have hb : (if sureIn rs slot m then c.ctx.cancelRg g.uid else c.ctx).bundles = c.ctx.bundles := by
    split
    · obtain ⟨q0, q1, en, hx, _, _⟩ := Ctx.cancelRg_keeps g.uid c.ctx; rw [hx]
    · rfl
  simp only [setBundle, hb]

theorem sum_zeros {α : Type} (l : List α) : (l.map fun _ => 0).sum = 0 := by
  induction l with
  | nil => rfl
  | cons x r ih => simp [ih]

/-- A WORD COMPLETES where its bundle is ready, it is issuable, and its plan goes ahead with results that neither act, trap nor replay: what it makes of its group is all that it does. -/
theorem run_completes {i : Instr} {plan : Shape → View → Plan} {s : State} {bid slot : Nat} {b : Bundle} {g : Group} {m : Word}
    (r : Ready s bid slot b g m) (h : Issuable i s b slot g m) {rs : List Res} (hp : plan (shape i) (viewAt s b slot g m) = .go rs)
    (q : ∀ x ∈ rs, Stays slot x ∧ x.acts = []) (hn : sureIn rs slot m = false) {th : Nat → Thread → Thread} {sr : Nat → Reg}
    (hg : Stepped (groupAfter rs slot m b.sub.isSome s.now g) g th sr) :
    ∃ t, run i plan s = .next t ∧ Completes s t bid slot b g m th sr := by
  have hover : overCount g slot rs = [] := by
    have hz : ∀ cls, (rs.map fun r => (r.acts.map (Act.counts cls)).sum).sum = 0 := by
      intro cls
      rw [show (rs.map fun r => (r.acts.map (Act.counts cls)).sum) = rs.map fun _ => 0 from
        List.map_congr_left fun x hx => by simp [(q x hx).2]]
      exact sum_zeros rs
    simp only [overCount, countsOf, hz]; rfl
  have hacts : ∀ (k bid : Nat) (pc : Word) (a : State), commitActs rs slot m k bid pc a = a := by
    intro k bid pc a
    rw [commitActs, doActs]
    generalize hl : rs.filter (fun r => r.takes slot m) = l
    have ql : ∀ x ∈ l, x.acts = [] := by intro x hx; rw [← hl] at hx; exact (q x (List.mem_filter.mp hx).1).2
    clear hl
    induction l generalizing a with
    | nil => rfl
    | cons x t ih => rw [List.foldl_cons, ql x (by simp)]; exact ih a fun y hy => ql y (by simp [hy])
  refine ⟨_, by rw [run_eq i plan s r.launch, issue_go r h hp hover, commit_stays r (fun x hx => (q x hx).1) _ _ _, hacts, settleAt, modCore_modCore], ?_⟩
  obtain ⟨ls, he, hls⟩ := takeEffs_core r.group rs m bid b s.now (by rw [hg.rest])
  rw [hn] at he
  simp only [Bool.false_eq_true, if_false] at he
  generalize hg1 : groupAfter rs slot m b.sub.isSome s.now g = g1 at hg he
  have hu : g1.uid = g.uid := by rw [hg.rest]
  generalize hc1 : takeEffs rs slot m bid b s.now s.core = c1 at he
  have hgrp : groupAt c1 slot = some g1 := by rw [he]; simp [groupAt]
  obtain ⟨g2, hs1, hs2, hs3, hs4, hs5, hs6⟩ := settle_group hgrp
    (by rw [he, ]; exact only_tput r.rising r.only hu)
    (by rw [he, hu]; exact r.others)
  have hcore : coreAt (modCore s s.cur.1 fun c => settleIn slot (takeEffs rs slot m bid b s.now c)) s.cur.1 = settle c1 g1.uid := by
    rw [coreAt_modCore_same, show coreAt s s.cur.1 = s.core from rfl, hc1, settleIn, hgrp]
  refine ⟨⟨rfl, fun j hj => coreAt_modCore_ne s hj _⟩, ?_, ?_, ?_⟩
  · rw [hcore]
    refine ⟨fun p hp' => ?_, fun p hp' => ?_, ?_, ⟨?_, ?_⟩, ?_⟩
    · rw [hs3 p hp', he]; simp [groupAt, tfind_tput_ne _ hp']
    · rw [bundleAt, hs6, he]; simp [bundleAt, tfind_tput_ne _ hp']
    · rw [hs6, he]; exact hls
    · rw [hs4, he]
    · rw [hs5, he]
    · rw [hs6, he]
  · rw [hcore, bundleAt, hs6, he]; simp
  · rw [hcore]; exact ⟨g1, g2, hg, hs2, hs1⟩

end Sys2Proof.Machine
end

