-- ==== Sys2Proof/Laws/Effects.lean ====
section
/-! SUPPORT. What the effects of a step make of a group: of its threads one by one, and of its scalar registers. -/

namespace Sys2Proof.Machine

/-- Whether an effect, named for a thread, is one on that thread and not on its group. -/
def Eff.onThread : Eff → Bool
  | .jmark _ _ => false
  | .jclr _ _ => false
  | .jarrive _ _ => false
  | .ws _ _ _ => false
  | .joint _ => false
  | _ => true

/-- A thread after effects in order. -/
def effsThread (now : Nat) (es : List Eff) (x : Thread) : Thread := es.foldl (fun a e => effThread now e a) x

theorem lmod_lmod {α : Type} (l : List α) (n : Nat) (f h : α → α) : lmod (lmod l n f) n h = lmod l n fun x => h (f x) := by
  induction l generalizing n with
  | nil => cases n <;> rfl
  | cons x r ih => cases n <;> simp [lmod, ih]

theorem lmod_id {α : Type} (l : List α) (n : Nat) : lmod l n (fun x => x) = l := by
  induction l generalizing n with
  | nil => cases n <;> rfl
  | cons x r ih => cases n <;> simp [lmod, ih]

theorem modThread_modThread (g : Group) (i : Nat) (f h : Thread → Thread) : modThread (modThread g i f) i h = modThread g i fun x => h (f x) := by
  simp [modThread, lmod_lmod]

theorem modThread_id (g : Group) (i : Nat) : modThread g i (fun x => x) = g := by simp [modThread, lmod_id]

theorem threadAt_modThread_same (g : Group) (i : Nat) (f : Thread → Thread) (h : i < g.threads.length) :
    threadAt (modThread g i f) i = f (threadAt g i) := lget_lmod_same _ _ _ _ h

theorem threadAt_modThread_ne (g : Group) {i j : Nat} (f : Thread → Thread) (h : j ≠ i) : threadAt (modThread g i f) j = threadAt g j :=
  lget_lmod_ne _ _ _ h

theorem effIn_thread (now : Nat) (g : Group) (i : Nat) (e : Eff) (h : e.onThread = true) : effIn now g (some i) e = modThread g i (effThread now e) := by
  cases e <;> first | rfl | simp [Eff.onThread] at h

/-- The effects of one thread's result. -/
theorem effsIn_thread (now : Nat) (g : Group) (slot i : Nat) (es : List Eff) (as : List Act) (t : Option Trap) (p : Bool) (h : ∀ e ∈ es, e.onThread = true) :
    effsIn now g ⟨slot, some i, es, as, t, p⟩ = modThread g i (effsThread now es) := by
  simp only [effsIn]
  induction es generalizing g with
  | nil => exact (modThread_id g i).symm
  | cons e r ih =>
    rw [List.foldl_cons, effIn_thread now g i e (h e (by simp)), ih _ fun x hx => h x (by simp [hx]), modThread_modThread]
    rfl

theorem nodup_bitsFrom (m : Word) : ∀ n k, (bitsFrom m n k).Nodup
  | 0, _ => List.nodup_nil
  | n + 1, k => by
    simp only [bitsFrom]
    split
    · exact List.nodup_cons.mpr ⟨fun h => by have := (mem_bitsFrom m k n (k + 1)).mp h; omega, nodup_bitsFrom m n (k + 1)⟩
    · exact nodup_bitsFrom m n (k + 1)

theorem nodup_members (m : Word) : (members m).Nodup := nodup_bitsFrom m 32 0

/-- Threads changed one after another, each once. -/
theorem foldl_modThread (f : Nat → Thread → Thread) : ∀ (l : List Nat) (g : Group), l.Nodup →
    (∀ j, j < g.threads.length → threadAt (l.foldl (fun a i => modThread a i (f i)) g) j = if j ∈ l then f j (threadAt g j) else threadAt g j) ∧
    l.foldl (fun a i => modThread a i (f i)) g = { g with threads := (l.foldl (fun a i => modThread a i (f i)) g).threads } ∧
    (l.foldl (fun a i => modThread a i (f i)) g).threads.length = g.threads.length
  | [], g, _ => ⟨fun j _ => by simp, rfl, rfl⟩
  | i :: r, g, hn => by
    have hn' := List.nodup_cons.mp hn
    have ih := foldl_modThread f r (modThread g i (f i)) hn'.2
    have hlen : (modThread g i (f i)).threads.length = g.threads.length := by simp [modThread]
    refine ⟨fun j hj => ?_, ?_, ?_⟩
    · rw [List.foldl_cons, ih.1 j (by rw [hlen]; exact hj)]
      by_cases hji : j = i
      · subst hji; simp [hn'.1, threadAt_modThread_same _ _ _ hj]
      · simp [hji, threadAt_modThread_ne _ _ hji]
    · rw [List.foldl_cons, ih.2.1]; rfl
    · rw [List.foldl_cons, ih.2.2, hlen]

/-- The step's counters leave threads and registers as they are. -/
theorem stepped_counters {g1 g : Group} {th : Nat → Thread → Thread} {sr : Nat → Reg} (changed handler : Bool) (now : Nat)
    (ht : ∀ j, j < 32 → threadAt g1 j = th j (threadAt g j)) (hs : ∀ n, sreg g1 n = sr n)
    (hr : g1 = { g with s := g1.s, threads := g1.threads }) :
    Stepped (if handler then (if changed then { g1 with streak := 0, demoted := false } else g1)
      else { (if changed then { g1 with streak := 0, demoted := false } else g1) with dog := now, dogOff := 0, bitten := false }) g th sr := by
  generalize g1.s = a, g1.threads = c at hr
  subst hr
  cases changed <;> cases handler <;> exact ⟨ht, hs, rfl⟩

/-- Whether an effect writes a scalar register. -/
def Eff.onScalar : Eff → Bool
  | .ws _ _ _ => true
  | _ => false

/-- A group after scalar writes in order. -/
def scalarWrites (es : List Eff) (g : Group) : Group := es.foldl (fun a e => effGroup e a) g

theorem setS_some (g : Group) (d : Nat) (x : Word) (q : Bool) : ∃ a, setS g d x q = { g with s := a } := by
  unfold setS
  split
  · exact ⟨g.s, rfl⟩
  · exact ⟨_, rfl⟩

theorem effGroup_scalar {e : Eff} (h : e.onScalar = true) (g : Group) : ∃ a, effGroup e g = { g with s := a } := by
  cases e with
  | ws d x q => exact setS_some g d x q
  | _ => cases h

theorem scalarWrites_some (es : List Eff) (g : Group) (h : ∀ e ∈ es, e.onScalar = true) : ∃ a, scalarWrites es g = { g with s := a } := by
  induction es generalizing g with
  | nil => exact ⟨g.s, rfl⟩
  | cons e r ih =>
    obtain ⟨a, ha⟩ := effGroup_scalar (h e (by simp)) g
    obtain ⟨c, hc⟩ := ih (effGroup e g) fun x hx => h x (by simp [hx])
    exact ⟨c, by rw [show scalarWrites (e :: r) g = scalarWrites r (effGroup e g) from rfl, hc, ha]⟩

theorem scalarWrites_rest (es : List Eff) (g : Group) (h : ∀ e ∈ es, e.onScalar = true) : scalarWrites es g = { g with s := (scalarWrites es g).s } := by
  obtain ⟨a, ha⟩ := scalarWrites_some es g h
  rw [ha]

theorem members_ne_nil {m : Word} (h : m ≠ 0) : (m != 0) = true := bne_iff_ne.mpr h

theorem takes_threads (slot : Nat) (m : Word) (es : Nat → List Eff) :
    ((members m).map fun i => (⟨slot, some i, es i, [], none, false⟩ : Res)).filter (fun r => r.takes slot m) =
      (members m).map fun i => ⟨slot, some i, es i, [], none, false⟩ := by
  rw [List.filter_eq_self]; intro x hx
  obtain ⟨i, hi, rfl⟩ := List.mem_map.mp hx
  simp [Res.takes, ((mem_members m i).mp hi).2]

theorem foldl_threads (now slot : Nat) (m : Word) (es : Nat → List Eff) (h : ∀ i, ∀ e ∈ es i, e.onThread = true) (g : Group) :
    ((members m).map fun i => (⟨slot, some i, es i, [], none, false⟩ : Res)).foldl (effsIn now) g =
      (members m).foldl (fun a i => modThread a i (effsThread now (es i))) g := by
  rw [List.foldl_map]
  congr 1
  funext a i
  exact effsIn_thread now a slot i (es i) [] none false (h i)

/-- Threads changed after a group's scalar registers. -/
theorem stepped_fold {m : Word} {g g0 : Group} (hm : g.threads.length = 32) (hr : g0 = { g with s := g0.s }) (f : Nat → Thread → Thread)
    (changed handler : Bool) (now : Nat) {g1 : Group} (h1 : (members m).foldl (fun a i => modThread a i (f i)) g0 = g1) :
    Stepped (if handler then (if changed then { g1 with streak := 0, demoted := false } else g1)
      else { (if changed then { g1 with streak := 0, demoted := false } else g1) with dog := now, dogOff := 0, bitten := false }) g (inMask m f) (sreg g0) := by
  subst h1
  have hfm := foldl_modThread f (members m) g0 (nodup_members m)
  have ht : g0.threads = g.threads := by rw [hr]
  refine stepped_counters _ _ _ (fun j hj => ?_) (fun n => ?_) ?_
  · rw [hfm.1 j (by rw [ht]; omega), inMask, show threadAt g0 j = threadAt g j by simp [threadAt, ht]]
    by_cases hb : hasBit m j = true
    · simp [hb, (mem_members m j).mpr ⟨hj, hb⟩]
    · have hn : j ∉ members m := fun hh => hb ((mem_members m j).mp hh).2
      simp [hb, hn]
  · rw [hfm.2.1]; rfl
  · generalize (members m).foldl (fun a i => modThread a i (f i)) g0 = g1 at hfm
    rw [hfm.2.1]
    generalize g0.s = a at hr
    rw [hr]

/-- Results of the present threads alone, each with its own effects (R13). -/
theorem stepped_threads {slot : Nat} {m : Word} {g : Group} (hm : g.threads.length = 32) (es : Nat → List Eff) (h : ∀ i, ∀ e ∈ es i, e.onThread = true)
    (handler : Bool) (now : Nat) :
    Stepped (groupAfter ((members m).map fun i => ⟨slot, some i, es i, [], none, false⟩) slot m handler now g) g
      (inMask m fun j => effsThread now (es j)) (sreg g) := by
  rw [groupAfter, takes_threads]
  exact stepped_fold hm rfl _ _ _ _ (foldl_threads now slot m es h g).symm

/-- The results of one step, with scalar writes of the group and effects of its present threads (R13). -/
theorem stepped_both {slot : Nat} {m : Word} {g : Group} (hm : g.threads.length = 32) (hz : m ≠ 0) {es0 : List Eff} (h0 : ∀ e ∈ es0, e.onScalar = true)
    (es : Nat → List Eff) (h : ∀ i, ∀ e ∈ es i, e.onThread = true) (handler : Bool) (now : Nat) :
    Stepped (groupAfter (⟨slot, none, es0, [], none, false⟩ :: (members m).map fun i => ⟨slot, some i, es i, [], none, false⟩) slot m handler now g) g
      (inMask m fun j => effsThread now (es j)) (sreg (scalarWrites es0 g)) := by
  have htk : (⟨slot, none, es0, [], none, false⟩ : Res).takes slot m = true := by
    simp only [Res.takes, beq_self_eq_true, Bool.true_and]; exact members_ne_nil hz
  rw [groupAfter, List.filter_cons, if_pos htk, takes_threads]
  exact stepped_fold hm (scalarWrites_rest es0 g h0) _ _ _ _ (foldl_threads now slot m es h (scalarWrites es0 g)).symm

/-- One result of the group as a whole, with scalar writes alone (R111). -/
theorem stepped_group {slot : Nat} {m : Word} {g : Group} {es0 : List Eff} (h0 : ∀ e ∈ es0, e.onScalar = true) (hz : m ≠ 0) (handler : Bool) (now : Nat) :
    Stepped (groupAfter [⟨slot, none, es0, [], none, false⟩] slot m handler now g) g (fun _ x => x) (sreg (scalarWrites es0 g)) := by
  have htk : (⟨slot, none, es0, [], none, false⟩ : Res).takes slot m = true := by
    simp only [Res.takes, beq_self_eq_true, Bool.true_and]; exact members_ne_nil hz
  have hr := scalarWrites_rest es0 g h0
  rw [groupAfter, List.filter_cons, if_pos htk]
  refine stepped_counters _ _ _ (fun j _ => ?_) (fun n => rfl) ?_
  · show threadAt (scalarWrites es0 g) j = threadAt g j
    rw [hr]; rfl
  · obtain ⟨a, ha⟩ := scalarWrites_some es0 g h0
    show scalarWrites es0 g = { g with s := (scalarWrites es0 g).s, threads := (scalarWrites es0 g).threads }
    rw [ha]

/-- The results of a word that acts in each present thread on its own. -/
theorem eachThread_go {sh : Shape} {f : View → Nat → Thread → TPlan} {v : View} {es : Nat → List Eff}
    (hu : sh.u = false) (hok : ∀ j ∈ members v.mask, sh.srcs.any (srcLost (threadAt v.g j) sh.pipe) = false ∧
      (deadTraps v.g && sh.srcs.any (srcDead (threadAt v.g j))) = false)
    (hf : ∀ j ∈ members v.mask, f v j (threadAt v.g j) = .go (es j) []) :
    eachThread sh f v = .go ((members v.mask).map fun i => ⟨v.slot, some i, es i, [], none, false⟩) := by
  have hps : (members v.mask).map (fun i =>
      (i, if !sh.u && sh.srcs.any (srcLost (threadAt v.g i) sh.pipe) then TPlan.trap (trapAt v cLATCH)
        else if !sh.u && deadTraps v.g && sh.srcs.any (srcDead (threadAt v.g i)) then .trap (trapAt v cDEAD)
        else f v i (threadAt v.g i))) = (members v.mask).map fun i => (i, TPlan.go (es i) []) := by
    apply List.map_congr_left
    intro i hi
    have h := hok i hi
    simp only [hu, Bool.not_false, Bool.true_and, h.1, h.2, hf i hi]
    rfl
  have hh : ∀ l : List Nat, firstHold (l.map fun i => (i, TPlan.go (es i) [])) = none := by
    intro l; induction l with
    | nil => rfl
    | cons x r ih => simpa [firstHold] using ih
  simp only [eachThread, View.present, hps, hh, List.map_map]
  rfl

/-- A result with effects alone, none of them joint, stays where its bundle is. -/
theorem stays_plain {slot : Nat} {thr : Option Nat} {es : List Eff} (h : ∀ a, Eff.joint a ∉ es) : Stays slot ⟨slot, thr, es, [], none, false⟩ :=
  ⟨rfl, rfl, rfl, rfl, fun _ _ h => by simp at h, h, fun _ h => by simp at h⟩

/-- Results without a uniform certainty point. -/
theorem sureIn_none {rs : List Res} (h : ∀ x ∈ rs, x.sureS = false) (slot : Nat) (m : Word) : sureIn rs slot m = false := by
  rw [sureIn, List.any_eq_false]; intro x hx; simp [h x (List.mem_filter.mp hx).1]

theorem sureS_thread (slot i : Nat) (es : List Eff) (as : List Act) : (⟨slot, some i, es, as, none, false⟩ : Res).sureS = false := rfl

theorem sureS_scalar {es : List Eff} (h : ∀ e ∈ es, e.onScalar = true) (slot : Nat) (as : List Act) : (⟨slot, none, es, as, none, false⟩ : Res).sureS = false := by
  have : (es.any fun e => e == .certain) = false := by
    rw [List.any_eq_false]; intro e he
    cases e with
    | certain => cases h _ he
    | _ => simp
  simp only [Res.sureS, this, Bool.and_false]

theorem sureIn_threads (slot : Nat) (m : Word) (es : Nat → List Eff) (as : Nat → List Act) (q : Nat) (is : List Nat) :
    sureIn (is.map fun i => ⟨q, some i, es i, as i, none, false⟩) slot m = false :=
  sureIn_none (fun x hx => by obtain ⟨j, _, rfl⟩ := List.mem_map.mp hx; rfl) slot m

theorem sureIn_group {es0 : List Eff} (h0 : ∀ e ∈ es0, e.onScalar = true) (slot : Nat) (m : Word) (as : List Act) (q : Nat) :
    sureIn [⟨q, none, es0, as, none, false⟩] slot m = false :=
  sureIn_none (fun x hx => by rw [List.mem_singleton.mp hx]; exact sureS_scalar h0 q as) slot m

theorem sureIn_both {es0 : List Eff} (h0 : ∀ e ∈ es0, e.onScalar = true) (slot : Nat) (m : Word) (es : Nat → List Eff) (q : Nat) (is : List Nat) :
    sureIn (⟨q, none, es0, [], none, false⟩ :: is.map fun i => ⟨q, some i, es i, [], none, false⟩) slot m = false :=
  sureIn_none (fun x hx => by
    rcases List.mem_cons.mp hx with rfl | hx
    · exact sureS_scalar h0 q []
    · obtain ⟨j, _, rfl⟩ := List.mem_map.mp hx; rfl) slot m

/-- A WORD OF EACH THREAD COMPLETES (R13, R55): each present thread takes its effects. -/
theorem each_completes {i : Instr} {f : View → Nat → Thread → TPlan} {s : State} {bid slot : Nat} {b : Bundle} {g : Group} {m : Word}
    (r : Ready s bid slot b g m) (h : Issuable i s b slot g m) (hr : Readable i g m) (hu : (shape i).u = false) {es : Nat → List Eff}
    (hf : ∀ j ∈ members m, f (viewAt s b slot g m) j (threadAt g j) = .go (es j) []) (he : ∀ i, ∀ e ∈ es i, e.onThread = true) :
    ∃ t, run i (fun sh => eachThread sh f) s = .next t ∧
      Completes s t bid slot b g m (inMask m fun j => effsThread s.now (es j)) (sreg g) := by
  refine run_completes r h (eachThread_go hu (hr hu) hf) ?_ (sureIn_threads slot m es (fun _ => []) slot _) (stepped_threads r.lanes es he _ _)
  intro x hx
  obtain ⟨j, _, rfl⟩ := List.mem_map.mp hx
  exact ⟨stays_plain fun a ha => by simpa [Eff.onThread] using he j _ ha, rfl⟩

/-- A WORD THAT RUNS ONCE COMPLETES (R38, R111): its scalar registers are written, and each present thread takes its effects. -/
theorem once_completes {i : Instr} {plan : Shape → View → Plan} {s : State} {bid slot : Nat} {b : Bundle} {g : Group} {m : Word}
    (r : Ready s bid slot b g m) (h : Issuable i s b slot g m) {es0 : List Eff} {es : Nat → List Eff}
    (hp : plan (shape i) (viewAt s b slot g m) =
      .go (⟨slot, none, es0, [], none, false⟩ :: (members m).map fun i => ⟨slot, some i, es i, [], none, false⟩))
    (h0 : ∀ e ∈ es0, e.onScalar = true) (he : ∀ i, ∀ e ∈ es i, e.onThread = true) :
    ∃ t, run i plan s = .next t ∧
      Completes s t bid slot b g m (inMask m fun j => effsThread s.now (es j)) (sreg (scalarWrites es0 g)) := by
  refine run_completes r h hp ?_ (sureIn_both h0 slot m es slot _) (stepped_both r.lanes r.some h0 es he _ _)
  intro x hx
  rcases List.mem_cons.mp hx with rfl | hx
  · exact ⟨stays_plain fun a ha => by simpa [Eff.onScalar] using h0 _ ha, rfl⟩
  · obtain ⟨j, _, rfl⟩ := List.mem_map.mp hx
    exact ⟨stays_plain fun a ha => by simpa [Eff.onThread] using he j _ ha, rfl⟩

end Sys2Proof.Machine
end

