-- ==== Sys2Proof/Laws/Calc.lean ====
section
/-! SUPPORT. What the words that compute do, once for all of them. -/

namespace Sys2Proof.Machine

@[simp] theorem effsThread_nil (now : Nat) (x : Thread) : effsThread now [] x = x := rfl

theorem effsThread_append (now : Nat) (a c : List Eff) (x : Thread) : effsThread now (a ++ c) x = effsThread now c (effsThread now a x) := by
  simp [effsThread, List.foldl_append]

theorem effsThread_flags (now : Nat) (fl : BitVec 5) (pen : Bool) (x : Thread) : effsThread now (putFlags fl pen) x = raise fl pen x := by
  unfold putFlags raise
  split
  · rfl
  · next h => show (if fl = 0 then x else _) = _; rw [if_neg h]

theorem effsThread_regs (now d k : Nat) (ws : List Word) (pen : Bool) (x : Thread) :
    effsThread now (imap (fun j w => Eff.wv (d + j) w pen) k ws) x = intoRegs (d + k) ws pen x := by
  induction ws generalizing k x with
  | nil => rfl
  | cons w r ih => exact ih (k + 1) (setV x (d + k) w pen)

theorem effsThread_push (now : Nat) (pipe : Pipe) (ws : List Word) (pen : Bool) (x : Thread) :
    effsThread now (ws.map fun w => Eff.push pipe w pen) x = pushAll pipe ws pen x := by
  induction ws generalizing x with
  | nil => rfl
  | cons w r ih => exact ih (pushLatch x pipe w pen)

theorem scalarWrites_regs (d k : Nat) (ws : List Word) (pen : Bool) (g : Group) :
    scalarWrites (imap (fun j w => Eff.ws (d + j) w pen) k ws) g = putScalars (d + k) ws pen g := by
  induction ws generalizing k g with
  | nil => rfl
  | cons w r ih => exact ih (k + 1) (setS g (d + k) w pen)

theorem onThread_flags (fl : BitVec 5) (pen : Bool) : ∀ e ∈ putFlags fl pen, e.onThread = true := by
  unfold putFlags; split <;> simp [Eff.onThread]

theorem onThread_imap (d : Nat) (pen : Bool) (ws : List Word) : ∀ k, ∀ e ∈ imap (fun j w => Eff.wv (d + j) w pen) k ws, e.onThread = true := by
  induction ws with
  | nil => intro k e he; simp [imap] at he
  | cons w r ih =>
    intro k e he
    rcases List.mem_cons.mp he with rfl | he
    · rfl
    · exact ih (k + 1) e he

theorem onScalar_imap (d : Nat) (pen : Bool) (ws : List Word) : ∀ k, ∀ e ∈ imap (fun j w => Eff.ws (d + j) w pen) k ws, e.onScalar = true := by
  induction ws with
  | nil => intro k e he; simp [imap] at he
  | cons w r ih =>
    intro k e he
    rcases List.mem_cons.mp he with rfl | he
    · rfl
    · exact ih (k + 1) e he

theorem onThread_push (pipe : Pipe) (pen : Bool) (ws : List Word) : ∀ e ∈ ws.map (fun w => Eff.push pipe w pen), e.onThread = true := by
  intro e he; obtain ⟨w, _, rfl⟩ := List.mem_map.mp he; rfl

/-- A form describes the shape of a word. -/
structure Describes {α : Type} (fm : Form α) (mk : α → Instr) (pipe : Pipe) (o : α) : Prop where
  u : (shape (mk o)).u = fm.u o
  n : (shape (mk o)).n = fm.n o
  lit : (shape (mk o)).lit = fm.lit o
  srcs : (shape (mk o)).srcs = fm.srcs o
  dsts : (shape (mk o)).dsts = [(fm.d o, fm.w o)]
  pipe : (shape (mk o)).pipe = pipe

/-- What a completed word says of its group may be said in another way that agrees on its threads and registers. -/
theorem Completes.congr {s t : State} {bid slot : Nat} {b : Bundle} {g : Group} {m : Word} {th th' : Nat → Thread → Thread} {sr sr' : Nat → Reg}
    (h : Completes s t bid slot b g m th sr) (ht : ∀ j, th j (threadAt g j) = th' j (threadAt g j)) (hs : ∀ n, sr n = sr' n) :
    Completes s t bid slot b g m th' sr' := by
  obtain ⟨g1, g2, h1, h2, h3⟩ := h.group
  exact ⟨h.only, h.core, h.bundle, g1, g2, ⟨fun j hj => (h1.threads j hj).trans (ht j), fun n => (h1.sregs n).trans (hs n), h1.rest⟩, h2, h3⟩

theorem inMask_congr {m : Word} {f h : Nat → Thread → Thread} {j : Nat} {x : Thread} (e : f j x = h j x) : inMask m f j x = inMask m h j x := by
  unfold inMask; rw [e]

theorem inMask_on {m : Word} {f h : Nat → Thread → Thread} {j : Nat} {x : Thread} (e : j ∈ members m → f j x = h j x) : inMask m f j x = inMask m h j x := by
  unfold inMask
  by_cases hb : hasBit m j = true
  · rw [if_pos hb, if_pos hb]
    exact e ((mem_members m j).mpr ⟨BitVec.lt_of_getLsbD hb, hb⟩)
  · rw [if_neg hb, if_neg hb]

/-- The effects of a computed result on one thread. -/
theorem effsThread_calc {sh : Shape} {d w : Nat} (hd : sh.dsts = [(d, w)]) (now : Nat) (r : Nat × BitVec 5) (pen : Bool) (x : Thread) :
    effsThread now (putFlags r.2 pen ++ putV sh r.1 pen) x =
      pushAll sh.pipe (regWords w r.1) pen (if sh.n then raise r.2 pen x else intoRegs d (regWords w r.1) pen (raise r.2 pen x)) := by
  rw [effsThread_append, effsThread_flags, putV, hd]
  show effsThread now ((if sh.n then [] else imap (fun j w => Eff.wv (d + j) w pen) 0 (regWords w r.1)) ++ (regWords w r.1).map fun w => Eff.push sh.pipe w pen) _ = _
  rw [effsThread_append, effsThread_push]
  congr 1
  split
  · rfl
  · exact effsThread_regs now d 0 _ pen _

theorem onThread_calc (sh : Shape) (r : Nat × BitVec 5) (pen : Bool) : ∀ e ∈ putFlags r.2 pen ++ putV sh r.1 pen, e.onThread = true := by
  intro e he
  rcases List.mem_append.mp he with he | he
  · exact onThread_flags _ _ e he
  · unfold putV at he
    split at he
    · cases he
    · rcases List.mem_append.mp he with he | he
      · split at he
        · cases he
        · exact onThread_imap _ _ _ _ e he
      · exact onThread_push _ _ _ e he

theorem onScalar_calc (sh : Shape) (v : Nat) (pen : Bool) : ∀ e ∈ putSs sh v pen, e.onScalar = true := by
  intro e he
  unfold putSs at he
  split at he
  · cases he
  · exact onScalar_imap _ _ _ _ e he

/-- THE WORDS THAT COMPUTE: a word whose meaning is runCalc of f computes f in the form that its shape describes. -/
theorem computes_of {α : Type} {fm : Form α} {mk : α → Instr} {pipe : Pipe} {f : α → List Nat → Nat × BitVec 5}
    (hx : ∀ o s, exec (mk o) s = runCalc (mk o) (f o) s) (hd : ∀ o, Describes fm mk pipe o) : Computes fm mk pipe f := by
  intro o s bid slot b g m r hi
  have d := hd o
  have hrun : ∀ {c : Bool} (hu : fm.u o = c) (p : Shape → View → Plan), (∀ v, p (shape (mk o)) v = compute (shape (mk o)) (f o) v) → exec (mk o) s = run (mk o) p s := by
    intro c hu p hp
    rw [hx o s]
    simp only [runCalc, run, shapeOn_launch _ _ r.launch]
    congr 2
    funext v
    exact (hp v).symm
  constructor
  · intro hu hr
    have hu' := d.u.trans hu
    let es : Nat → List Eff := fun j =>
      let xs := (fm.srcs o).map (readSrc g j (threadAt g j) (fm.lit o) pipe)
      putFlags (f o (xs.map (·.val))).2 (xs.any (·.pen)) ++ putV (shape (mk o)) (f o (xs.map (·.val))).1 (xs.any (·.pen))
    obtain ⟨t, ht, hc⟩ := each_completes (i := mk o) (f := calcThread (shape (mk o)) (f o)) (es := es) r hi hr hu'
      (by intro j _; simp only [calcThread, d.srcs, d.lit, d.pipe]; rfl)
      (by intro j e he; exact onThread_calc _ _ _ e he)
    refine ⟨t, (hrun hu (fun sh => eachThread sh (calcThread (shape (mk o)) (f o))) ?_).trans ht, hc.congr (fun j => inMask_congr ?_) fun _ => rfl⟩
    · intro v; simp [compute, hu']
    · simp only [es]
      rw [effsThread_calc d.dsts, d.n, d.pipe]
  · intro hu xs rr
    have hu' := d.u.trans hu
    obtain ⟨t, ht, hc⟩ := once_completes (i := mk o) (plan := fun sh v => calcGroup (shape (mk o)) (f o) v)
      (es0 := putSs (shape (mk o)) rr.1 (xs.any (·.pen))) (es := fun _ => putFlags rr.2 (xs.any (·.pen))) r hi
      (by simp only [calcGroup, d.srcs, d.lit]; rfl) (onScalar_calc _ _ _) (fun _ => onThread_flags _ _)
    refine ⟨t, (hrun hu (fun sh => calcGroup (shape (mk o)) (f o)) ?_).trans ht, hc.congr (fun j => inMask_congr ?_) fun n => ?_⟩
    · intro v; simp [compute, hu']
    · exact effsThread_flags _ _ _ _
    · rw [putSs, d.dsts]
      show sreg (scalarWrites (imap (fun j w => Eff.ws (fm.d o + j) w _) 0 _) g) n = _
      rw [scalarWrites_regs]; rfl

end Sys2Proof.Machine
end

