-- ==== Sys2Proof/Laws/Perform.lean ====
section
/-! SUPPORT. Words whose step also acts on the machine: their effects are taken, and then their actions are done one after another. -/

namespace Sys2Proof.Machine

/-- The actions of results, with the thread of each. -/
def actsOf (rs : List Res) (slot : Nat) (m : Word) : List (Option Nat × Act) := (rs.filter fun r => r.takes slot m).flatMap fun r => r.acts.map fun a => (r.thr, a)

theorem commitActs_list {rs : List Res} {slot : Nat} (q : ∀ r ∈ rs, Stays slot r) (m : Word) (k bid : Nat) (pc : Word) (s : State) :
    commitActs rs slot m k bid pc s = (actsOf rs slot m).foldl (fun a x => doAct a k bid slot m x.1 pc x.2) s := by
  rw [commitActs, doActs, actsOf]
  generalize hl : rs.filter (fun r => r.takes slot m) = l
  have ql : ∀ x ∈ l, (x.acts.filter fun a => !a.onGuess) = x.acts := by
    intro x hx; rw [← hl] at hx
    exact List.filter_eq_self.mpr fun a ha => by simp [(q x (List.mem_filter.mp hx).1).quiet a ha]
  clear hl
  induction l generalizing s with
  | nil => rfl
  | cons r l ih => rw [List.foldl_cons, ih _ fun y hy => ql y (by simp [hy]), ql r (by simp), List.flatMap_cons, List.foldl_append, List.foldl_map]

@[simp] theorem State.sure_cur (s : State) (g : Group) (any : Bool) : (s.sure g any).cur = s.cur := by unfold State.sure; split <;> rfl
@[simp] theorem State.sure_false (s : State) (g : Group) : s.sure g false = s := rfl

/-- The effects of a step in a ready bundle, its actions yet to come; a uniform certainty point that reads penumbra clears row guess flags first (R287). -/
theorem takes_takes {s : State} {bid slot : Nat} {b : Bundle} {g g' : Group} {m : Word} (r : Ready s bid slot b g m) {rs : List Res}
    {th : Nat → Thread → Thread} {sr : Nat → Reg} (hg : Stepped (groupAfter rs slot m b.sub.isSome s.now g) g' th sr) (hu : g'.uid = g.uid) :
    Takes (s.sure g (sureIn rs slot m)) (modCore s s.cur.1 (takeEffs rs slot m bid b s.now)) bid slot b g' m th sr := by
  obtain ⟨ls, he, hls⟩ := takeEffs_core r.group rs m bid b s.now (by rw [hg.rest]; exact hu)
  have hcore : (s.sure g (sureIn rs slot m)).core = { s.core with ctx := if sureIn rs slot m then s.core.ctx.cancelRg g.uid else s.core.ctx } := by
    unfold State.sure
    cases sureIn rs slot m
    · rfl
    · simp [State.core, setCore, coreAt]
  refine ⟨_, ls, hg, by rw [hcore]; exact hls, ?_⟩
  rw [State.sure_cur, hcore]
  show setCore s s.cur.1 (takeEffs rs slot m bid b s.now s.core) = _
  rw [he]
  have hb : (if sureIn rs slot m then s.core.ctx.cancelRg g.uid else s.core.ctx).bundles = s.core.ctx.bundles := by
    split
    · obtain ⟨q0, q1, en, hx, _, _⟩ := Ctx.cancelRg_keeps g.uid s.core.ctx; rw [hx]
    · rfl
  have hgr : ∀ y, ({ (if sureIn rs slot m then s.core.ctx.cancelRg g.uid else s.core.ctx) with groups := y } : Ctx) =
      { (if sureIn rs slot m then s.core.ctx.cancelRg g.uid else s.core.ctx) with groups := y, bundles := s.core.ctx.bundles } := by rw [← hb]; intro; rfl
  have hgg : (if sureIn rs slot m then s.core.ctx.cancelRg g.uid else s.core.ctx).groups = s.core.ctx.groups := by
    split
    · obtain ⟨q0, q1, en, hx, _, _⟩ := Ctx.cancelRg_keeps g.uid s.core.ctx; rw [hx]
    · rfl
  simp only [hgg, hb]
  unfold State.sure
  cases sureIn rs slot m
  · rfl
  · simp [setCore, tput_tput]

/-- A WORD PERFORMS where its bundle is ready, it is issuable, its plan goes ahead, no counter overflows, and no thread traps, replays or leaves. -/
theorem run_performs {i : Instr} {plan : Shape → View → Plan} {s : State} {bid slot : Nat} {b : Bundle} {g g' : Group} {m : Word}
    (r : Ready s bid slot b g m) (h : Issuable i s b slot g m) {rs : List Res} (hp : plan (shape i) (viewAt s b slot g m) = .go rs)
    (q : ∀ x ∈ rs, Stays slot x) (hc : overCount g slot rs = []) {th : Nat → Thread → Thread} {sr : Nat → Reg}
    (hg : Stepped (groupAfter rs slot m b.sub.isSome s.now g) g' th sr) (hu : g'.uid = g.uid) :
    ∃ t, run i plan s = .next t ∧ Performs (s.sure g (sureIn rs slot m)) t bid slot b g' m th sr (actsOf rs slot m) :=
  ⟨_, by rw [run_eq i plan s r.launch, issue_go r h hp hc, commit_stays r q, commitActs_list q], _, takes_takes r hg hu, by rw [State.sure_cur]⟩

theorem actsOf_threads (slot : Nat) (m : Word) (es : Nat → List Eff) (as : Nat → List Act) :
    actsOf ((members m).map fun i => ⟨slot, some i, es i, as i, none, false⟩) slot m = (members m).flatMap fun i => (as i).map fun a => (some i, a) := by
  rw [actsOf, List.filter_eq_self.mpr, List.flatMap_map]
  intro x hx
  obtain ⟨i, hi, rfl⟩ := List.mem_map.mp hx
  simp [Res.takes, ((mem_members m i).mp hi).2]

theorem filter_threads (slot : Nat) (m : Word) (es : Nat → List Eff) (as : Nat → List Act) :
    ((members m).map fun i => (⟨slot, some i, es i, as i, none, false⟩ : Res)).filter (fun r => r.takes slot m) =
      (members m).map fun i => ⟨slot, some i, es i, as i, none, false⟩ := by
  rw [List.filter_eq_self]; intro x hx
  obtain ⟨i, hi, rfl⟩ := List.mem_map.mp hx
  simp [Res.takes, ((mem_members m i).mp hi).2]

theorem foldl_threads' (now slot : Nat) (m : Word) (es : Nat → List Eff) (as : Nat → List Act) (h : ∀ i, ∀ e ∈ es i, e.onThread = true) (g : Group) :
    ((members m).map fun i => (⟨slot, some i, es i, as i, none, false⟩ : Res)).foldl (effsIn now) g =
      (members m).foldl (fun a i => modThread a i (effsThread now (es i))) g := by
  rw [List.foldl_map]
  congr 1
  funext a i
  exact effsIn_thread now a slot i (es i) (as i) none false (h i)

/-- Results of the present threads alone, each with effects and actions (R13). -/
theorem stepped_threads' {slot : Nat} {m : Word} {g : Group} (hm : g.threads.length = 32) (es : Nat → List Eff) (as : Nat → List Act)
    (h : ∀ i, ∀ e ∈ es i, e.onThread = true) (handler : Bool) (now : Nat) :
    Stepped (groupAfter ((members m).map fun i => ⟨slot, some i, es i, as i, none, false⟩) slot m handler now g) g
      (inMask m fun j => effsThread now (es j)) (sreg g) := by
  rw [groupAfter, filter_threads]
  exact stepped_fold hm rfl _ _ _ _ (foldl_threads' now slot m es as h g).symm

/-- The results of a word that acts in each present thread on its own, with actions. -/
theorem eachThread_acts {sh : Shape} {f : View → Nat → Thread → TPlan} {v : View} {es : Nat → List Eff} {as : Nat → List Act}
    (hok : ∀ j ∈ members v.mask, (!sh.u && sh.srcs.any (srcLost (threadAt v.g j) sh.pipe)) = false ∧
      (!sh.u && deadTraps v.g && sh.srcs.any (srcDead (threadAt v.g j))) = false)
    (hf : ∀ j ∈ members v.mask, f v j (threadAt v.g j) = .go (es j) (as j)) :
    eachThread sh f v = .go ((members v.mask).map fun i => ⟨v.slot, some i, es i, as i, none, false⟩) := by
  have hps : (members v.mask).map (fun i =>
      (i, if !sh.u && sh.srcs.any (srcLost (threadAt v.g i) sh.pipe) then TPlan.trap (trapAt v cLATCH)
        else if !sh.u && deadTraps v.g && sh.srcs.any (srcDead (threadAt v.g i)) then .trap (trapAt v cDEAD)
        else f v i (threadAt v.g i))) = (members v.mask).map fun i => (i, TPlan.go (es i) (as i)) := by
    apply List.map_congr_left
    intro i hi
    have h := hok i hi
    simp only [h.1, h.2, hf i hi]
    rfl
  have hh : ∀ l : List Nat, firstHold (l.map fun i => (i, TPlan.go (es i) (as i))) = none := by
    intro l; induction l with
    | nil => rfl
    | cons x r ih => simpa [firstHold] using ih
  simp only [eachThread, View.present, hps, hh, List.map_map]
  rfl

/-- How many operations of each class the actions of threads count. -/
def Uncounted (as : List Act) : Prop := ∀ a ∈ as, ∀ cls, Act.counts cls a = 0

theorem overCount_none {g : Group} {slot : Nat} {rs : List Res} (h : ∀ x ∈ rs, Uncounted x.acts) : overCount g slot rs = [] := by
  have hz : ∀ cls, (rs.map fun r => (r.acts.map (Act.counts cls)).sum).sum = 0 := by
    intro cls
    rw [show (rs.map fun r => (r.acts.map (Act.counts cls)).sum) = rs.map fun _ => 0 from
      List.map_congr_left fun x hx => by
        have hx' := h x hx
        rw [show x.acts.map (Act.counts cls) = x.acts.map fun _ => 0 from List.map_congr_left fun a ha => hx' a ha cls]
        exact sum_zeros _]
    exact sum_zeros rs
  simp only [overCount, countsOf, hz]; rfl

/-- A WORD OF EACH THREAD PERFORMS (R13, R55): each present thread takes its effects, and then its actions follow, thread by thread. -/
theorem each_performs {i : Instr} {f : View → Nat → Thread → TPlan} {s : State} {bid slot : Nat} {b : Bundle} {g : Group} {m : Word}
    (r : Ready s bid slot b g m) (h : Issuable i s b slot g m) (sh : Shape)
    (hok : ∀ j ∈ members m, (!sh.u && sh.srcs.any (srcLost (threadAt g j) sh.pipe)) = false ∧ (!sh.u && deadTraps g && sh.srcs.any (srcDead (threadAt g j))) = false)
    {es : Nat → List Eff} {as : Nat → List Act} (hf : ∀ j ∈ members m, f (viewAt s b slot g m) j (threadAt g j) = .go (es j) (as j))
    (he : ∀ i, ∀ e ∈ es i, e.onThread = true) (ha : ∀ i, (as i).any Act.leaves = false ∧ (∀ w q, Act.stall w q ∉ as i) ∧ ∀ a ∈ as i, a.onGuess = false)
    (hc : overCount g slot ((members m).map fun i => ⟨slot, some i, es i, as i, none, false⟩) = []) :
    ∃ t, run i (fun _ => eachThread sh f) s = .next t ∧
      Performs s t bid slot b g m (inMask m fun j => effsThread s.now (es j)) (sreg g) ((members m).flatMap fun i => (as i).map fun a => (some i, a)) := by
  have := run_performs (plan := fun _ => eachThread sh f) r h (rs := (members m).map fun i => ⟨slot, some i, es i, as i, none, false⟩)
    (eachThread_acts hok hf) (by
      intro x hx
      obtain ⟨j, _, rfl⟩ := List.mem_map.mp hx
      exact ⟨rfl, rfl, rfl, (ha j).1, (ha j).2.1, fun a h => by simpa [Eff.onThread] using he j _ h, (ha j).2.2⟩) hc (stepped_threads' r.lanes es as he _ _) rfl
  rwa [actsOf_threads, sureIn_threads, State.sure_false] at this

end Sys2Proof.Machine
end

