-- ==== Sys2Proof/Laws/Words.lean ====
section
/-! SUPPORT. The forms of words that act in each thread, read values out, or are group-wide: what each completes with, once for each form. -/

namespace Sys2Proof.Machine

/-- On a launch's core a word plans with its own shape. -/
theorem run_shape {i : Instr} (p : Shape → View → Plan) {s : State} (h : isControl s.cur.1 = false) : run i p s = run i (fun _ => p (shape i)) s := by
  simp [run, h]

/-- The shape under which a word's threads are checked has no U form here and no source beyond the word's own. -/
theorem readable_checks {i : Instr} {g : Group} {m : Word} (hr : Readable i g m) (hu : (shape i).u = false) {sh : Shape} (hs : sh.srcs = (shape i).srcs)
    (hp : sh.pipe = (shape i).pipe) : ∀ j ∈ members m, (!sh.u && sh.srcs.any (srcLost (threadAt g j) sh.pipe)) = false ∧
      (!sh.u && deadTraps g && sh.srcs.any (srcDead (threadAt g j))) = false := by
  intro j hj
  have h := hr hu j hj
  rw [hs, hp]
  cases sh.u
  · exact ⟨by simpa using h.1, by simpa using h.2⟩
  · exact ⟨rfl, rfl⟩

theorem unchecked (g : Group) (m : Word) {sh : Shape} (hs : sh.srcs = []) : ∀ j ∈ members m,
    (!sh.u && sh.srcs.any (srcLost (threadAt g j) sh.pipe)) = false ∧ (!sh.u && deadTraps g && sh.srcs.any (srcDead (threadAt g j))) = false := by
  intro j _
  rw [hs]
  exact ⟨by simp, by simp⟩

/-- A WORD OF EACH THREAD whose plan goes ahead with effects alone. -/
theorem each_does {α : Type} {mk : α → Instr} {ok : α → View → Prop} {f : α → View → Nat → Thread → TPlan} {es : α → View → Nat → Thread → List Eff}
    {th : α → View → Nat → Thread → Thread} (sh : α → Shape)
    (hx : ∀ o s, isControl s.cur.1 = false → exec (mk o) s = run (mk o) (fun _ => eachThread (sh o) (f o)) s)
    (hc : ∀ o s b slot g m, Readable (mk o) g m → ok o (viewAt s b slot g m) → ∀ j ∈ members m,
      (!(sh o).u && (sh o).srcs.any (srcLost (threadAt g j) (sh o).pipe)) = false ∧ (!(sh o).u && deadTraps g && (sh o).srcs.any (srcDead (threadAt g j))) = false)
    (hf : ∀ o v j, ok o v → j ∈ members v.mask → f o v j (threadAt v.g j) = .go (es o v j (threadAt v.g j)) [])
    (he : ∀ o v j x, ∀ e ∈ es o v j x, e.onThread = true)
    (ht : ∀ o s b slot g m j, ok o (viewAt s b slot g m) → j ∈ members m →
      effsThread s.now (es o (viewAt s b slot g m) j (threadAt g j)) (threadAt g j) = th o (viewAt s b slot g m) j (threadAt g j)) :
    EachDoes mk ok th := by
  intro o s bid slot b g m r hi hr hok
  have hx' := hx o s r.launch
  have hgo := eachThread_acts (sh := sh o) (f := f o) (v := viewAt s b slot g m) (es := fun j => es o (viewAt s b slot g m) j (threadAt g j)) (as := fun _ => [])
    (hc o s b slot g m hr hok) (fun j hj => hf o (viewAt s b slot g m) j hok hj)
  obtain ⟨t, h1, h2⟩ := run_completes (plan := fun _ => eachThread (sh o) (f o)) r hi hgo
    (by
      intro x hx
      obtain ⟨j, _, rfl⟩ := List.mem_map.mp hx
      exact ⟨stays_plain fun a h => by simpa [Eff.onThread] using he o _ j _ _ h, rfl⟩)
    (sureIn_threads slot m _ (fun _ => []) slot _) (stepped_threads r.lanes (fun j => es o (viewAt s b slot g m) j (threadAt g j)) (fun j => he o _ j _) _ _)
  exact ⟨t, hx'.trans h1, h2.congr (fun j => inMask_on fun hj => ht o s b slot g m j hok hj) fun _ => rfl⟩

/-- A WORD THAT READS VALUES OUT, by its plan with U = 1 and in each thread with U = 0. -/
theorem reads_out {α : Type} {mk : α → Instr} {ok : α → Prop} {u : α → Bool} {d : α → Nat} {ws : α → View → Nat → List Word} {pen : α → View → Bool}
    (p : α → View → Plan) (sh : α → Shape) (hx : ∀ o s, ok o → isControl s.cur.1 = false → exec (mk o) s = run (mk o) (fun _ => p o) s) (hs : ∀ o, (sh o).srcs = [])
    (h1 : ∀ o v, ok o → u o = true → p o v = .go [⟨v.slot, none, imap (fun j w => Eff.ws (d o + j) w (pen o v)) 0 (ws o v 0), [], none, false⟩])
    (h0 : ∀ o v, ok o → u o = false → p o v = eachThread (sh o) (fun v i _ => .go (imap (fun j w => Eff.wv (d o + j) w (pen o v)) 0 (ws o v i)) []) v) :
    ReadsOut mk ok u d ws pen := by
  intro o s bid slot b g m r hi hk v
  have hx' := hx o s hk r.launch
  cases hu : u o
  · have hgo := eachThread_acts (sh := sh o) (f := fun v i _ => .go (imap (fun j w => Eff.wv (d o + j) w (pen o v)) 0 (ws o v i)) [])
      (v := viewAt s b slot g m) (es := fun i => imap (fun j w => Eff.wv (d o + j) w (pen o v)) 0 (ws o v i)) (as := fun _ => [])
      (unchecked g m (hs o)) (fun j hj => rfl)
    obtain ⟨t, h1, h2⟩ := run_completes (plan := fun _ => p o) r hi ((h0 o _ hk hu).trans hgo)
      (by
        intro x hx
        obtain ⟨j, _, rfl⟩ := List.mem_map.mp hx
        exact ⟨stays_plain fun a h => by simpa [Eff.onThread] using onThread_imap _ _ _ _ _ h, rfl⟩)
      (sureIn_threads slot m _ (fun _ => []) slot _) (stepped_threads r.lanes _ (fun j => onThread_imap _ _ _ _) _ _)
    refine ⟨t, hx'.trans h1, ?_⟩
    rw [if_neg (by simp)]
    exact h2.congr (fun j => inMask_on fun _ => effsThread_regs _ _ _ _ _ _) fun _ => rfl
  · obtain ⟨t, h1, h2⟩ := run_completes (plan := fun _ => p o) (rs := [⟨slot, none, imap (fun j w => Eff.ws (d o + j) w (pen o v)) 0 (ws o v 0), [], none, false⟩])
      r hi (h1 o _ hk hu) (by intro x hx; rw [List.mem_singleton.mp hx]; exact ⟨stays_plain fun a h => by simpa [Eff.onScalar] using onScalar_imap _ _ _ _ _ h, rfl⟩)
      (sureIn_group (onScalar_imap _ _ _ _) slot m [] slot) (stepped_group (onScalar_imap _ _ _ _) r.some _ _)
    refine ⟨t, hx'.trans h1, ?_⟩
    rw [if_pos rfl]
    refine h2.congr (fun _ => rfl) fun n => ?_
    rw [scalarWrites_regs]; rfl

/-- No operand that a group-wide word reads in a present thread is lost or dead (R194). -/
theorem readTrap_none {i : Instr} {s : State} {b : Bundle} {slot : Nat} {g : Group} {m : Word} (hr : Readable i g m) {reads : List (Nat × Src)}
    (h : ∀ x ∈ reads, x.1 ∈ members m ∧ x.2 ∈ (shape i).srcs) : readTrap (shape i) (viewAt s b slot g m) reads = none := by
  unfold readTrap
  cases hu : (shape i).u
  · have h1 : reads.any (fun r => srcLost (threadAt (viewAt s b slot g m).g r.1) (shape i).pipe r.2) = false := by
      rw [List.any_eq_false]
      intro x hx
      have := (hr hu x.1 (h x hx).1).1
      rw [List.any_eq_false] at this
      exact this x.2 (h x hx).2
    have h2 : (deadTraps (viewAt s b slot g m).g && reads.any fun r => srcDead (threadAt (viewAt s b slot g m).g r.1) r.2) = false := by
      show (deadTraps g && _) = false
      cases hd : deadTraps g
      · rfl
      · rw [Bool.true_and, List.any_eq_false]
        intro x hx
        have := (hr hu x.1 (h x hx).1).2
        rw [hd, Bool.true_and, List.any_eq_false] at this
        exact this x.2 (h x hx).2
    simp [h1, h2]
  · rfl

/-- A GROUP-WIDE WORD whose reads neither trap nor fail. -/
theorem group_does {α : Type} {mk : α → Instr} {pipe : Pipe} {u n : α → Bool} {d : α → Nat} {f : α → View → Nat → LaneResult}
    (reads : α → View → List (Nat × Src)) (hx : ∀ o s, isControl s.cur.1 = false → exec (mk o) s = run (mk o) (fun _ => groupWide (shape (mk o)) (reads o) (f o)) s)
    (hu : ∀ o, (shape (mk o)).u = u o) (hn : ∀ o, (shape (mk o)).n = n o) (hd : ∀ o, (shape (mk o)).dsts = [(d o, 1)]) (hp : ∀ o, (shape (mk o)).pipe = pipe)
    (hr : ∀ o s b slot g m, m ≠ 0 → ∀ x ∈ reads o (viewAt s b slot g m), x.1 ∈ members m ∧ x.2 ∈ (shape (mk o)).srcs) :
    GroupDoes mk pipe u n d f := by
  intro o s bid slot b g m r hi hrd v pen
  have hx' := hx o s r.launch
  have ht : readTrap (shape (mk o)) v (reads o v) = none := readTrap_none hrd (hr o s b slot g m r.some)
  cases hc : u o
  · have hu' : (shape (mk o)).u = false := (hu o).trans hc
    obtain ⟨t, h1, h2⟩ := run_completes (plan := fun _ => groupWide (shape (mk o)) (reads o) (f o)) r hi
      (rs := (members m).map fun i => ⟨slot, some i, putFlags (f o v i).fl (pen (f o v i)) ++ putV (shape (mk o)) (f o v i).val (pen (f o v i)), [], none, false⟩)
      (by
        show groupWide (shape (mk o)) (reads o) (f o) v = _
        rw [groupWide, ht, hu']; rfl)
      (by
        intro x hx
        obtain ⟨j, _, rfl⟩ := List.mem_map.mp hx
        exact ⟨stays_plain fun a h => by simpa [Eff.onThread] using onThread_calc _ ((f o v j).val, (f o v j).fl) _ _ h, rfl⟩)
      (sureIn_threads slot m _ (fun _ => []) slot _) (stepped_threads r.lanes _ (fun j => onThread_calc (shape (mk o)) ((f o v j).val, (f o v j).fl) (pen (f o v j))) _ _)
    refine ⟨t, hx'.trans h1, ?_⟩
    rw [if_neg (by simp)]
    refine h2.congr (fun j => inMask_on fun _ => ?_) fun _ => rfl
    rw [effsThread_calc (hd o) _ ((f o v j).val, (f o v j).fl), hn, hp]
  · have hu' : (shape (mk o)).u = true := (hu o).trans hc
    let q := f o v ((members m).getLastD 0)
    obtain ⟨t, h1, h2⟩ := run_completes (plan := fun _ => groupWide (shape (mk o)) (reads o) (f o)) r hi
      (rs := ⟨slot, none, putSs (shape (mk o)) q.val (pen q), [], none, false⟩ :: (members m).map fun i => ⟨slot, some i, putFlags q.fl (pen q), [], none, false⟩)
      (by
        show groupWide (shape (mk o)) (reads o) (f o) v = _
        rw [groupWide, ht, hu']; rfl)
      (by
        intro x hx
        rcases List.mem_cons.mp hx with rfl | hx
        · exact ⟨stays_plain fun a h => by simpa [Eff.onScalar] using onScalar_calc _ _ _ _ h, rfl⟩
        · obtain ⟨j, _, rfl⟩ := List.mem_map.mp hx
          exact ⟨stays_plain fun a h => by simpa [Eff.onThread] using onThread_flags _ _ _ h, rfl⟩)
      (sureIn_both (onScalar_calc _ _ _) slot m _ slot _) (stepped_both r.lanes r.some (onScalar_calc _ _ _) (fun _ => putFlags q.fl (pen q)) (fun _ => onThread_flags _ _) _ _)
    refine ⟨t, hx'.trans h1, ?_⟩
    rw [if_pos rfl]
    refine h2.congr (fun j => inMask_on fun _ => effsThread_flags _ _ _ _) fun n => ?_
    rw [putSs, hd]
    show sreg (scalarWrites (imap (fun j w => Eff.ws (d o + j) w _) 0 _) g) n = _
    rw [scalarWrites_regs]; rfl

/-- A COMPARE in each thread. -/
theorem compares_of {mk : OpCmp → Instr} {pipe : Pipe} {n : Nat} {f h : OpCmp → List Nat → Bool × BitVec 5}
    (hx : ∀ o s, exec (mk o) s = runCompare (mk o) o.p (f o) s) (hs : ∀ o, (shape (mk o)).srcs = [⟨o.a.toNat, n, true, false⟩, ⟨o.b.toNat, n, true, false⟩])
    (hl : ∀ o, (shape (mk o)).lit = o.lit) (hp : ∀ o, (shape (mk o)).pipe = pipe) (hu : ∀ o, (shape (mk o)).u = false) (e : ∀ o a b, f o [a, b] = h o [a, b]) :
    Compares mk pipe n h := by
  refine each_does (f := fun o => compareThread (shape (mk o)) o.p.toNat (f o))
    (es := fun o v j x =>
      let xs := [⟨o.a.toNat, n, true, false⟩, ⟨o.b.toNat, n, true, false⟩].map (readSrc v.g j x o.lit pipe)
      putFlags (h o (xs.map (·.val))).2 (xs.any (·.pen)) ++ [.wp o.p.toNat (h o (xs.map (·.val))).1 (xs.any (·.pen))])
    (fun o => shape (mk o)) (fun o s hc => ?_) (fun o s b slot g m hr _ => readable_checks hr (hu o) rfl rfl) (fun o v j _ _ => ?_) ?_ ?_
  · rw [hx o s, runCompare, run_shape _ hc]
  · simp only [compareThread, hs, hl, hp, List.map_cons, List.map_nil, e]
  · intro o v j x a ha
    rcases List.mem_append.mp ha with ha | ha
    · exact onThread_flags _ _ a ha
    · rw [List.mem_singleton.mp ha]; rfl
  · intro o s b slot g m j _ _
    rw [effsThread_append, effsThread_flags]; rfl

end Sys2Proof.Machine
end

