-- ==== Sys2Proof/Laws/Chains.lean ====
section
/-! SUPPORT. What a chained word does: the step goes on past it, and its results are held for the end of the step (R11). -/

namespace Sys2Proof.Machine

/-- What a chained word plans. -/
theorem groupPlan_chainable {i : Instr} {s : State} {b : Bundle} {slot : Nat} {g : Group} {m : Word} (h : Chainable i s b slot g m) (plan : View → Plan) :
    groupPlan (shape i) plan false (viewAt s b slot g m) = (plan (viewAt s b slot g m)).counted (viewAt s b slot g m) := by
  have hl := h.legal
  have hw := h.noWait
  simp only [groupPlan, Bool.false_or]
  rw [show (viewAt s b slot g m).g.win = g.win from rfl, show (viewAt s b slot g m).h.sregs = (hdrOf s g.lseq).sregs from rfl, hl, hw]
  rfl

/-- A STEP GOES ON past a word whose plan goes ahead. -/
theorem goesOn_of {i : Instr} {s : State} {bid slot : Nat} {b : Bundle} {g : Group} {m : Word} (r : Ready s bid slot b g m)
    (h : Chainable i s b slot g m) {plan : Shape → View → Plan} {rs : List Res} (hx : exec i s = run i plan s)
    (hp : plan (shape i) (viewAt s b slot g m) = .go rs)
    (hr : ∀ x ∈ rs, x.slot = slot ∧ x.acts = [] ∧ x.trap = none ∧ x.replay = false ∧ ∀ j, x.thr = some j → j ∈ members m) :
    GoesOn i s bid slot b m rs := by
  refine ⟨hr, ?_⟩
  have hbad : ((shape i).clashes b || ((shape i).term && !termOk b (shape i).len)) = false := by
    rw [r.noClash]
    cases ht : (shape i).term
    · rfl
    · simp [h.place ht]
  have hc : overCount g slot rs = [] := overCount_none fun x hx => by rw [(hr x hx).2.1]; exact fun _ h => by cases h
  have hh : (viewAt s b slot g m).held = [] := by simp [View.held, viewAt, r.held]
  have hw : (b.wide || (shape i).wide) = (shape i).wide := by rw [r.wide]; rfl
  rw [hx, run_eq i plan s r.launch]
  congr 1
  unfold issue
  rw [r.runs]
  dsimp only
  rw [if_neg (by simp [r.fresh]), r.view, hbad, List.map_cons, List.map_nil, groupPlan_chainable h, hp]
  simp only [Plan.counted, hh, List.nil_append, show (viewAt s b slot g m).g = g from rfl, show (viewAt s b slot g m).slot = slot from rfl, hc, h.on, r.kept, Bool.not_false, Bool.and_true, if_true,
    hw, planHold, r.post, List.flatMap_cons, List.flatMap_nil, planRes, List.append_nil, List.map_nil, r.held, r.segs, r.pipes, r.dsts]
  rfl

/-- What results of the present threads make of a group (R13). -/
theorem makes_threads {slot : Nat} {m : Word} (es : Nat → List Eff) (he : ∀ i, ∀ e ∈ es i, e.onThread = true) {h : Group} (hl : h.threads.length = 32)
    {th : Nat → Thread → Thread} (ht : ∀ now, ∀ j ∈ members m, effsThread now (es j) (threadAt h j) = th j (threadAt h j)) :
    Makes ((members m).map fun i => ⟨slot, some i, es i, [], none, false⟩) h (inMask m th) (sreg h) := by
  intro now
  have hs := stepped_fold (m := m) (g := h) (g0 := h) hl rfl (fun j => effsThread now (es j)) false true now (foldl_threads now slot m es he h).symm
  refine ⟨fun j hj => (hs.threads j hj).trans (inMask_on fun h => ht now j h), hs.sregs, ?_⟩
  rw [foldl_threads now slot m es he]
  have := (foldl_modThread (fun j => effsThread now (es j)) (members m) h (nodup_members m)).2.1
  generalize (members m).foldl (fun a i => modThread a i (effsThread now (es i))) h = x at this
  rw [this]

/-- What the group's result and those of the present threads make of a group. -/
theorem makes_both {slot : Nat} {m : Word} {es0 : List Eff} (h0 : ∀ e ∈ es0, e.onScalar = true) (es : Nat → List Eff) (he : ∀ i, ∀ e ∈ es i, e.onThread = true)
    {h : Group} (hl : h.threads.length = 32) {th : Nat → Thread → Thread} (ht : ∀ now, ∀ j ∈ members m, effsThread now (es j) (threadAt h j) = th j (threadAt h j)) :
    Makes (⟨slot, none, es0, [], none, false⟩ :: (members m).map fun i => ⟨slot, some i, es i, [], none, false⟩) h (inMask m th) (sreg (scalarWrites es0 h)) := by
  intro now
  have hr := scalarWrites_rest es0 h h0
  have hf : (⟨slot, none, es0, [], none, false⟩ :: (members m).map fun i => (⟨slot, some i, es i, [], none, false⟩ : Res)).foldl (effsIn now) h =
      (members m).foldl (fun a i => modThread a i (effsThread now (es i))) (scalarWrites es0 h) := foldl_threads now slot m es he (scalarWrites es0 h)
  have hs := stepped_fold (m := m) (g := h) (g0 := scalarWrites es0 h) hl hr (fun j => effsThread now (es j)) false true now hf.symm
  refine ⟨fun j hj => (hs.threads j hj).trans (inMask_on fun h => ht now j h), hs.sregs, ?_⟩
  rw [hf]
  have := (foldl_modThread (fun j => effsThread now (es j)) (members m) (scalarWrites es0 h) (nodup_members m)).2.1
  generalize (members m).foldl (fun a i => modThread a i (effsThread now (es i))) (scalarWrites es0 h) = x at this
  rw [this]
  generalize (scalarWrites es0 h).s = a at hr
  rw [hr]

/-- Results of the present threads alone, as a chain holds them. -/
theorem held_threads (slot : Nat) (m : Word) (es : Nat → List Eff) : ∀ x ∈ (members m).map fun i => (⟨slot, some i, es i, [], none, false⟩ : Res),
    x.slot = slot ∧ x.acts = [] ∧ x.trap = none ∧ x.replay = false ∧ ∀ j, x.thr = some j → j ∈ members m := by
  intro x hx
  obtain ⟨j, hj, rfl⟩ := List.mem_map.mp hx
  exact ⟨rfl, rfl, rfl, rfl, fun i h => Option.some.inj h ▸ hj⟩

/-- THE WORDS THAT COMPUTE, CHAINED: the results of runCalc are held. -/
theorem chains_of {α : Type} {fm : Form α} {mk : α → Instr} {pipe : Pipe} {f : α → List Nat → Nat × BitVec 5}
    (hx : ∀ o s, exec (mk o) s = runCalc (mk o) (f o) s) (hd : ∀ o, Describes fm mk pipe o) : Chains fm mk pipe f := by
  intro o s bid slot b g m r hc
  have d := hd o
  have hrun : ∀ {c : Bool} (_ : fm.u o = c) (p : Shape → View → Plan), (∀ v, p (shape (mk o)) v = compute (shape (mk o)) (f o) v) → exec (mk o) s = run (mk o) p s := by
    intro c hu p hp
    rw [hx o s]
    simp only [runCalc, run, shapeOn_launch _ _ r.launch]
    congr 2
    funext v
    exact (hp v).symm
  constructor
  · intro hu hr
    have hu' := d.u.trans hu
    let es : Nat → List Eff := fun j =>
      let xs := (fm.srcs o).map (readSrc g j (threadAt g j) (fm.lit o) pipe)
      putFlags (f o (xs.map (·.val))).2 (xs.any (·.pen)) ++ putV (shape (mk o)) (f o (xs.map (·.val))).1 (xs.any (·.pen))
    refine ⟨_, goesOn_of r hc (hrun hu (fun sh => eachThread sh (calcThread (shape (mk o)) (f o))) fun v => by simp [compute, hu'])
      (eachThread_go (es := es) hu' (hr hu') fun j _ => by simp only [calcThread, d.srcs, d.lit, d.pipe]; rfl) (held_threads slot m es), by simp [viewAt], fun h hl => ?_⟩
    refine makes_threads es (fun j e he => onThread_calc _ _ _ e he) hl fun now j _ => ?_
    simp only [es]
    rw [effsThread_calc d.dsts, d.n, d.pipe]
  · intro hu
    have hu' := d.u.trans hu
    refine ⟨_, goesOn_of r hc (hrun hu (fun sh => calcGroup (shape (mk o)) (f o)) fun v => by simp [compute, hu'])
      (by simp only [calcGroup, d.srcs, d.lit]; rfl) ?_, by simp [viewAt, View.present, Function.comp_def], fun h hl => ?_⟩
    · intro x hx
      rcases List.mem_cons.mp hx with rfl | hx
      · exact ⟨rfl, rfl, rfl, rfl, fun _ h => by cases h⟩
      · exact held_threads slot m _ x hx
    · have := makes_both (slot := slot) (m := m) (es0 := putSs (shape (mk o)) (f o (((fm.srcs o).map (readSrcU g (fm.lit o))).map (·.val))).1 (((fm.srcs o).map (readSrcU g (fm.lit o))).any (·.pen)))
        (onScalar_calc _ _ _) (fun _ => putFlags (f o (((fm.srcs o).map (readSrcU g (fm.lit o))).map (·.val))).2 (((fm.srcs o).map (readSrcU g (fm.lit o))).any (·.pen)))
        (fun _ => onThread_flags _ _) hl (fun now j _ => effsThread_flags _ _ _ _)
      refine Eq.mp ?_ this
      congr 2
      rw [putSs, d.dsts]
      show scalarWrites (imap (fun j w => Eff.ws (fm.d o + j) w _) 0 _) h = _
      rw [scalarWrites_regs]; rfl

/-- A WORD OF EACH THREAD, CHAINED, whose plan goes ahead with effects alone. -/
theorem chains_each {α : Type} {mk : α → Instr} {ok : α → View → Prop} {f : α → View → Nat → Thread → TPlan} {es : α → View → Nat → Thread → List Eff}
    {th : α → View → Nat → Thread → Thread} (sh : α → Shape)
    (hx : ∀ o s, isControl s.cur.1 = false → exec (mk o) s = run (mk o) (fun _ => eachThread (sh o) (f o)) s)
    (hc : ∀ o s b slot g m, Readable (mk o) g m → ok o (viewAt s b slot g m) → ∀ j ∈ members m,
      (!(sh o).u && (sh o).srcs.any (srcLost (threadAt g j) (sh o).pipe)) = false ∧ (!(sh o).u && deadTraps g && (sh o).srcs.any (srcDead (threadAt g j))) = false)
    (hf : ∀ o v j, ok o v → j ∈ members v.mask → f o v j (threadAt v.g j) = .go (es o v j (threadAt v.g j)) [])
    (he : ∀ o v j x, ∀ e ∈ es o v j x, e.onThread = true)
    (ht : ∀ o s b slot g m j now, ok o (viewAt s b slot g m) → j ∈ members m →
      effsThread now (es o (viewAt s b slot g m) j (threadAt g j)) (threadAt g j) = th o (viewAt s b slot g m) j (threadAt g j)) :
    ChainsEach mk ok th := by
  intro o s bid slot b g m r hi hr hok
  have hgo := eachThread_acts (sh := sh o) (f := f o) (v := viewAt s b slot g m) (es := fun j => es o (viewAt s b slot g m) j (threadAt g j)) (as := fun _ => [])
    (hc o s b slot g m hr hok) (fun j hj => hf o (viewAt s b slot g m) j hok hj)
  exact ⟨_, goesOn_of (plan := fun _ => eachThread (sh o) (f o)) r hi (hx o s r.launch) hgo (held_threads slot m _), by simp [viewAt],
    makes_threads (fun j => es o (viewAt s b slot g m) j (threadAt g j)) (fun j => he o _ j _) r.lanes fun now j hj => ht o s b slot g m j now hok hj⟩

/-- A COMPARE, CHAINED. -/
theorem chains_compare {mk : OpCmp → Instr} {pipe : Pipe} {n : Nat} {f h : OpCmp → List Nat → Bool × BitVec 5}
    (hx : ∀ o s, exec (mk o) s = runCompare (mk o) o.p (f o) s) (hs : ∀ o, (shape (mk o)).srcs = [⟨o.a.toNat, n, true, false⟩, ⟨o.b.toNat, n, true, false⟩])
    (hl : ∀ o, (shape (mk o)).lit = o.lit) (hp : ∀ o, (shape (mk o)).pipe = pipe) (hu : ∀ o, (shape (mk o)).u = false) (e : ∀ o a b, f o [a, b] = h o [a, b]) :
    ChainsCompare mk pipe n h := by
  refine chains_each (f := fun o => compareThread (shape (mk o)) o.p.toNat (f o))
    (es := fun o v j x =>
      let xs := [⟨o.a.toNat, n, true, false⟩, ⟨o.b.toNat, n, true, false⟩].map (readSrc v.g j x o.lit pipe)
      putFlags (h o (xs.map (·.val))).2 (xs.any (·.pen)) ++ [.wp o.p.toNat (h o (xs.map (·.val))).1 (xs.any (·.pen))])
    (fun o => shape (mk o)) (fun o s hc => ?_) (fun o s b slot g m hr _ => readable_checks hr (hu o) rfl rfl) (fun o v j _ _ => ?_) ?_ ?_
  · rw [hx o s, runCompare, run_shape _ hc]
  · simp only [compareThread, hs, hl, hp, List.map_cons, List.map_nil, e]
  · intro o v j x a ha
    rcases List.mem_append.mp ha with ha | ha
    · exact onThread_flags _ _ a ha
    · rw [List.mem_singleton.mp ha]; rfl
  · intro o s b slot g m j now _ _
    rw [effsThread_append, effsThread_flags]; rfl

end Sys2Proof.Machine
end

