-- ==== Sys2Proof/Laws/Memory.lean ====
section
/-! SUPPORT. The canonical form of memory: what a byte written reads as, what a write leaves alone, and that every memory operation keeps the form. -/

namespace Sys2Proof.Machine

theorem memSorted_mono {lo hi : Nat} (h : lo ≤ hi) : ∀ {m : List Host.Cell}, memSorted hi m = true → memSorted lo m = true
  | [], _ => rfl
  | (k, x) :: r, w => by simp only [memSorted, Bool.and_eq_true, decide_eq_true_eq] at w ⊢; exact ⟨⟨by omega, w.1.2⟩, w.2⟩

theorem memByte_of_sorted {n lo : Nat} (h : n < lo) : ∀ {m : List Host.Cell}, memSorted lo m = true → memByte m n = memDefault n
  | [], _ => rfl
  | (k, x) :: r, w => by
    simp only [memSorted, Bool.and_eq_true, decide_eq_true_eq] at w
    have hk : k ≠ n := by omega
    simp only [memByte, hk, if_false]
    exact memByte_of_sorted (lo := k + 1) (by omega) w.2

theorem unlisted_eq {n : Nat} {x : Byte} (h : unlisted n x = true) : memDefault n = x := by
  simp only [unlisted, Bool.and_eq_true, Bool.not_eq_true', beq_iff_eq] at h
  simp [memDefault, h.1, h.2]

theorem memSorted_memPut (n : Nat) (x : Byte) : ∀ (m : List Host.Cell) (lo : Nat), memSorted lo m = true → lo ≤ n → memSorted lo (memPut m n x) = true
  | [], lo, _, hn => by
    simp only [memPut]; split
    · rfl
    · next h => simp [memSorted, hn, h]
  | (k, y) :: r, lo, w, hn => by
    have w' := w
    simp only [memSorted, Bool.and_eq_true, decide_eq_true_eq] at w
    simp only [memPut]
    split
    · next hlt =>
      split
      · exact w'
      · next hx =>
        simp only [memSorted, Bool.and_eq_true, decide_eq_true_eq]
        exact ⟨⟨hn, by simpa using hx⟩, ⟨by omega, by simpa using w.1.2⟩, w.2⟩
    · split
      · next hk =>
        subst hk
        split
        · exact memSorted_mono (by omega) w.2
        · next hx => simp only [memSorted, Bool.and_eq_true, decide_eq_true_eq]; exact ⟨⟨w.1.1, by simpa using hx⟩, w.2⟩
      · next h1 h2 =>
        simp only [memSorted, Bool.and_eq_true, decide_eq_true_eq]
        exact ⟨w.1, memSorted_memPut n x r (k + 1) w.2 (by omega)⟩

/-- A byte written keeps the canonical form. -/
theorem memPut_wf {m : List Host.Cell} (h : Memory.wf m = true) (n : Nat) (x : Byte) : Memory.wf (memPut m n x) = true :=
  memSorted_memPut n x m 0 h (Nat.zero_le _)

theorem memByte_memPut_sorted (n : Nat) (x : Byte) : ∀ (m : List Host.Cell) (lo : Nat), memSorted lo m = true → memByte (memPut m n x) n = x
  | [], _, _ => by
    simp only [memPut]; split
    · next h => exact unlisted_eq h
    · simp [memByte]
  | (k, y) :: r, lo, w => by
    simp only [memSorted, Bool.and_eq_true, decide_eq_true_eq] at w
    simp only [memPut]
    split
    · next hlt =>
      split
      · next hx => rw [memByte_of_sorted (lo := k) hlt (by simp [memSorted, w.1.2, w.2]), unlisted_eq hx]
      · simp [memByte]
    · split
      · next hk =>
        subst hk
        split
        · next hx => rw [memByte_of_sorted (lo := k + 1) (by omega) w.2, unlisted_eq hx]
        · simp [memByte]
      · next h1 h2 => simp only [memByte, h2, if_false]; exact memByte_memPut_sorted n x r (k + 1) w.2

/-- A byte reads as it was written. -/
theorem memByte_memPut_same {m : List Host.Cell} (h : Memory.wf m = true) (n : Nat) (x : Byte) : memByte (memPut m n x) n = x :=
  memByte_memPut_sorted n x m 0 h

/-- A byte written leaves every other byte as it was. -/
theorem memByte_memPut_ne (x : Byte) {n a : Nat} (h : a ≠ n) : ∀ m : List Host.Cell, memByte (memPut m n x) a = memByte m a
  | [] => by simp only [memPut]; split <;> simp [memByte, Ne.symm h]
  | (k, y) :: r => by
    simp only [memPut]
    split
    · split <;> simp [memByte, Ne.symm h]
    · split
      · next hk => subst hk; split <;> simp [memByte, Ne.symm h]
      · simp [memByte, memByte_memPut_ne x h r]

/-- Bytes written keep the canonical form. -/
theorem memWrite_wf {m : List Host.Cell} (h : Memory.wf m = true) (a n v : Nat) : Memory.wf (memWrite m a n v) = true := by
  induction n generalizing m a v with
  | zero => exact h
  | succ n ih => exact ih (memPut_wf h _ _) _ _

/-- Bytes written leave every byte outside them as it was. -/
theorem memByte_memWrite_ne (m : List Host.Cell) (a n v : Nat) {b : Nat} (h : b < a ∨ a + n ≤ b) : memByte (memWrite m a n v) b = memByte m b := by
  induction n generalizing m a v with
  | zero => rfl
  | succ n ih => rw [memWrite, ih _ _ _ (by omega), memByte_memPut_ne _ (by omega)]

/-- Re-encrypted bytes keep the canonical form. -/
theorem rekey_wf (s : State) (key : Option Nat) (a n : Nat) {m : List Host.Cell} (h : Memory.wf m = true) : Memory.wf (rekey s key a n m) = true := by
  induction n generalizing m a with
  | zero => exact h
  | succ n ih => exact ih _ (memPut_wf h _ _)

theorem claimLine_wf {s : State} (h : Memory.wf s.mem = true) (key : Option Nat) (line : Nat) : Memory.wf (claimLine s key line).mem = true := by
  cases key with
  | none => exact h
  | some k =>
    have hr (n : Nat) : Memory.wf ({ s with mem := rekey s (some k) (line * 128) n s.mem, lineKey := tput s.lineKey line k } : State).mem = true :=
      rekey_wf s (some k) (line * 128) n h
    simp only [claimLine]
    by_cases h1 : tfind s.lineKey line = some k
    · rw [if_pos h1]; exact h
    · by_cases h2 : tfind s.lineKey line = none
      · rw [if_neg h1, if_pos h2]; exact h
      · rw [if_neg h1, if_neg h2]; exact hr 128

theorem keyWrite_wf {s : State} (h : Memory.wf s.mem = true) (key : Option Nat) (a n v : Nat) : Memory.wf (keyWrite s key a n v).mem = true := by
  refine memWrite_wf (m := (if n = 0 then s else claimLine (claimLine s key (a / 128)) key ((a + n - 1) / 128)).mem) ?_ a n v
  by_cases hn : n = 0
  · rw [if_pos hn]; exact h
  · rw [if_neg hn]; exact claimLine_wf (claimLine_wf h _ _) _ _

/-- A piece of an access written keeps the canonical form. -/
theorem pieceWrite_wf {s : State} (h : Memory.wf s.mem = true) (p : Piece) (v : Nat) : Memory.wf (pieceWrite s p v).mem = true := by
  unfold pieceWrite
  split
  · exact h
  · split
    · exact keyWrite_wf h _ _ _ _
    · exact keyWrite_wf h _ _ _ _

/-- An access written keeps the canonical form. -/
theorem piecesWrite_wf {s : State} (h : Memory.wf s.mem = true) (ps : List Piece) (v : Nat) : Memory.wf (piecesWrite s ps v).mem = true := by
  induction ps generalizing s v with
  | nil => exact h
  | cons p r ih => exact ih (pieceWrite_wf h p v) _

theorem memSorted_filter (p : Host.Cell → Bool) : ∀ (m : List Host.Cell) (lo : Nat), memSorted lo m = true → memSorted lo (m.filter p) = true
  | [], _, _ => rfl
  | (k, x) :: r, lo, w => by
    simp only [memSorted, Bool.and_eq_true, decide_eq_true_eq] at w
    have ih := memSorted_filter p r (k + 1) w.2
    by_cases h : p (k, x) = true
    · simp only [List.filter_cons, h, if_true, memSorted, Bool.and_eq_true, decide_eq_true_eq]; exact ⟨w.1, ih⟩
    · simp only [List.filter_cons, h]; exact memSorted_mono (by omega) ih

/-- Zeroed bytes keep the canonical form. -/
theorem zeroRange_wf {m : List Host.Cell} (h : Memory.wf m = true) (lo hi : Nat) : Memory.wf (zeroRange m lo hi) = true :=
  memSorted_filter _ m 0 h

theorem foldl_memPut_wf (cells : List Host.Cell) {m : List Host.Cell} (h : Memory.wf m = true) :
    Memory.wf (cells.foldl (fun a c => memPut a c.1 c.2) m) = true := by
  induction cells generalizing m with
  | nil => exact h
  | cons c r ih => exact ih (memPut_wf h _ _)

/-- Restored pages keep the canonical form. -/
theorem restorePages_wf (ps : List (Nat × Nat × List Host.Cell)) (seen : List Nat) {m : List Host.Cell} (h : Memory.wf m = true) :
    Memory.wf (restorePages m ps seen) = true := by
  induction ps generalizing m seen with
  | nil => exact h
  | cons p r ih =>
    unfold restorePages
    split
    · exact ih _ h
    · exact ih _ (foldl_memPut_wf _ (memSorted_filter _ m 0 h))

/-- The memory of the machine after reset is canonical. -/
theorem reset_mem_wf : Memory.wf State.reset.mem = true := rfl

end Sys2Proof.Machine
end

