-- ==== Sys2Proof/Laws/PerInstr.lean ====
section
/-! SUPPORT. Facts of each instruction as syntax: the words that it is encoded in are words of 32 bits (R34). -/

open Sys2Proof

namespace Sys2Proof.Laws

theorem bit_lt_two (b : Bool) : bit b < 2 := by cases b <;> decide

/-- A word below bit 31, with its chain bit and its literal word, gives words of 32 bits. -/
theorem withLiteral_lt {k : Nat} (h : k < 2 ^ 31) (c : Bool) (lit : Option (BitVec 26)) : ∀ w ∈ withLiteral k c lit, w < 2 ^ 32 := by
  have hc := bit_lt_two c
  intro w hw
  cases lit with
  | none => rw [withLiteral, List.mem_singleton] at hw; omega
  | some l =>
    have hl := l.isLt
    rw [withLiteral, List.mem_cons, List.mem_singleton] at hw
    omega

/-- R34: every word of an instruction's encoding is a number of 32 bits. -/
def Encodes.Statement (i : Instr) : Prop := ∀ w ∈ encode i, w < 2 ^ 32

theorem bitsOpA_lt (o : OpA) : bitsOpA o < 2 ^ 26 := by
  have := bit_lt_two o.u; have := o.d.isLt; have := o.a.isLt; have := o.b.isLt; have := bit_lt_two o.n; rw [bitsOpA]; omega

theorem bitsOpArd_lt (o : OpArd) : bitsOpArd o < 2 ^ 26 := by
  have := o.t.isLt; have := o.d.isLt; have := o.g.isLt; have := o.v.isLt; rw [bitsOpArd]; omega

theorem bitsOpAst_lt (o : OpAst) : bitsOpAst o < 2 ^ 26 := by
  have := o.t.isLt; have := o.a.isLt; have := o.g.isLt; have := o.v.isLt; have := o.s.isLt; rw [bitsOpAst]; omega

theorem bitsOpBa_lt (o : OpBa) : bitsOpBa o < 2 ^ 26 := by
  have := bit_lt_two o.u; have := o.d.isLt; have := o.x.isLt; rw [bitsOpBa]; omega

theorem bitsOpBar_lt (o : OpBar) : bitsOpBar o < 2 ^ 26 := by
  have := o.n.isLt; rw [bitsOpBar]; omega

theorem bitsOpBi_lt (o : OpBi) : bitsOpBi o < 2 ^ 26 := by
  have := bit_lt_two o.u; have := o.x.isLt; have := o.y.isLt; have := o.z.isLt; rw [bitsOpBi]; omega

theorem bitsOpBr_lt (o : OpBr) : bitsOpBr o < 2 ^ 26 := by
  have := o.p.isLt; have := o.d.isLt; rw [bitsOpBr]; omega

theorem bitsOpCmp_lt (o : OpCmp) : bitsOpCmp o < 2 ^ 26 := by
  have := o.k.isLt; have := o.p.isLt; have := o.a.isLt; have := o.b.isLt; rw [bitsOpCmp]; omega

theorem bitsOpCode_lt (o : OpCode) : bitsOpCode o < 2 ^ 26 := by
  have := o.k.isLt; rw [bitsOpCode]; omega

theorem bitsOpCs_lt (o : OpCs) : bitsOpCs o < 2 ^ 26 := by
  have := bit_lt_two o.u; rw [bitsOpCs]; omega

theorem bitsOpCvt_lt (o : OpCvt) : bitsOpCvt o < 2 ^ 26 := by
  have := bit_lt_two o.u; have := o.d.isLt; have := o.a.isLt; have := o.b.isLt; have := bit_lt_two o.s; have := o.r.isLt; have := bit_lt_two o.n; rw [bitsOpCvt]; omega

theorem bitsOpCw_lt (o : OpCw) : bitsOpCw o < 2 ^ 26 := by
  have := o.x.isLt; have := o.y.isLt; rw [bitsOpCw]; omega

theorem bitsOpDead_lt (o : OpDead) : bitsOpDead o < 2 ^ 26 := by
  have := o.k.isLt; have := o.m.isLt; rw [bitsOpDead]; omega

theorem bitsOpF_lt (o : OpF) : bitsOpF o < 2 ^ 26 := by
  have := o.d.isLt; have := o.a.isLt; have := o.b.isLt; have := bit_lt_two o.n; rw [bitsOpF]; omega

theorem bitsOpFc_lt (o : OpFc) : bitsOpFc o < 2 ^ 26 := by
  have := o.f.isLt; rw [bitsOpFc]; omega

theorem bitsOpFen_lt (o : OpFen) : bitsOpFen o < 2 ^ 26 := by
  have := o.k.isLt; have := o.s.isLt; rw [bitsOpFen]; omega

theorem bitsOpFid_lt (o : OpFid) : bitsOpFid o < 2 ^ 26 := by
  have := bit_lt_two o.u; have := o.d.isLt; have := o.k.isLt; rw [bitsOpFid]; omega

theorem bitsOpFlk_lt (o : OpFlk) : bitsOpFlk o < 2 ^ 26 := by
  have := bit_lt_two o.u; have := o.d.isLt; have := o.j.isLt; rw [bitsOpFlk]; omega

theorem bitsOpGf_lt (o : OpGf) : bitsOpGf o < 2 ^ 26 := by
  have := o.d.isLt; have := bit_lt_two o.n; rw [bitsOpGf]; omega

theorem bitsOpGr_lt (o : OpGr) : bitsOpGr o < 2 ^ 26 := by
  have := bit_lt_two o.u; have := o.d.isLt; have := o.a.isLt; have := bit_lt_two o.j; have := o.q.isLt; have := bit_lt_two o.n; rw [bitsOpGr]; omega

theorem bitsOpI_lt (o : OpI) : bitsOpI o < 2 ^ 26 := by
  have := bit_lt_two o.u; have := o.d.isLt; have := o.a.isLt; have := o.i.isLt; rw [bitsOpI]; omega

theorem bitsOpIdr_lt (o : OpIdr) : bitsOpIdr o < 2 ^ 26 := by
  have := bit_lt_two o.u; have := o.x.isLt; have := o.s.isLt; rw [bitsOpIdr]; omega

theorem bitsOpJ_lt (o : OpJ) : bitsOpJ o < 2 ^ 26 := by
  have := o.j.isLt; rw [bitsOpJ]; omega

theorem bitsOpK_lt (o : OpK) : bitsOpK o < 2 ^ 26 := by rw [bitsOpK]; omega

theorem bitsOpLd_lt (o : OpLd) : bitsOpLd o < 2 ^ 26 := by
  have := o.d.isLt; have := o.a.isLt; have := o.w.isLt; have := o.p.isLt; have := o.s.isLt; have := o.t.isLt; rw [bitsOpLd]; omega

theorem bitsOpLea_lt (o : OpLea) : bitsOpLea o < 2 ^ 26 := by
  have := bit_lt_two o.u; have := o.d.isLt; have := o.a.isLt; have := o.b.isLt; have := o.s.isLt; have := bit_lt_two o.n; rw [bitsOpLea]; omega

theorem bitsOpLp_lt (o : OpLp) : bitsOpLp o < 2 ^ 26 := by
  have := o.x.isLt; have := o.e.isLt; rw [bitsOpLp]; omega

theorem bitsOpMc_lt (o : OpMc) : bitsOpMc o < 2 ^ 26 := by
  have := o.x.isLt; rw [bitsOpMc]; omega

theorem bitsOpMma_lt (o : OpMma) : bitsOpMma o < 2 ^ 26 := by
  have := o.f.isLt; have := o.t.isLt; have := o.a.isLt; have := o.b.isLt; rw [bitsOpMma]; omega

theorem bitsOpMs_lt (o : OpMs) : bitsOpMs o < 2 ^ 26 := by
  have := o.t.isLt; have := o.a.isLt; have := o.b.isLt; have := o.s.isLt; rw [bitsOpMs]; omega

theorem bitsOpOw_lt (o : OpOw) : bitsOpOw o < 2 ^ 26 := by
  have := o.k.isLt; have := o.n.isLt; rw [bitsOpOw]; omega

theorem bitsOpPf_lt (o : OpPf) : bitsOpPf o < 2 ^ 26 := by
  have := o.a.isLt; have := o.w.isLt; have := o.s.isLt; have := o.t.isLt; rw [bitsOpPf]; omega

theorem bitsOpPl_lt (o : OpPl) : bitsOpPl o < 2 ^ 26 := by
  have := o.p.isLt; have := bit_lt_two o.j; have := o.q.isLt; have := bit_lt_two o.k; have := o.r.isLt; rw [bitsOpPl]; omega

theorem bitsOpPm_lt (o : OpPm) : bitsOpPm o < 2 ^ 26 := by
  have := bit_lt_two o.u; have := o.d.isLt; have := bit_lt_two o.j; have := o.q.isLt; have := bit_lt_two o.n; rw [bitsOpPm]; omega

theorem bitsOpRnd_lt (o : OpRnd) : bitsOpRnd o < 2 ^ 26 := by
  have := bit_lt_two o.u; have := o.d.isLt; have := o.a.isLt; have := o.r.isLt; have := bit_lt_two o.n; rw [bitsOpRnd]; omega

theorem bitsOpSel_lt (o : OpSel) : bitsOpSel o < 2 ^ 26 := by
  have := o.d.isLt; have := o.a.isLt; have := o.b.isLt; have := o.k.isLt; have := bit_lt_two o.n; rw [bitsOpSel]; omega

theorem bitsOpSm_lt (o : OpSm) : bitsOpSm o < 2 ^ 26 := by
  have := bit_lt_two o.u; have := o.x.isLt; have := o.i.isLt; rw [bitsOpSm]; omega

theorem bitsOpSpl_lt (o : OpSpl) : bitsOpSpl o < 2 ^ 26 := by
  have := o.x.isLt; have := o.k.isLt; rw [bitsOpSpl]; omega

theorem bitsOpSt_lt (o : OpSt) : bitsOpSt o < 2 ^ 26 := by
  have := o.d.isLt; have := o.a.isLt; have := o.s.isLt; have := o.t.isLt; rw [bitsOpSt]; omega

theorem bitsOpSw_lt (o : OpSw) : bitsOpSw o < 2 ^ 26 := by
  have := o.x.isLt; have := o.i.isLt; rw [bitsOpSw]; omega

theorem bitsOpSys_lt (o : OpSys) : bitsOpSys o < 2 ^ 26 := by
  have := bit_lt_two o.u; have := o.x.isLt; have := o.n.isLt; rw [bitsOpSys]; omega

theorem bitsOpT_lt (o : OpT) : bitsOpT o < 2 ^ 26 := by
  have := o.t.isLt; rw [bitsOpT]; omega

theorem bitsOpTa_lt (o : OpTa) : bitsOpTa o < 2 ^ 26 := by
  have := bit_lt_two o.u; have := o.p.isLt; have := o.x.isLt; rw [bitsOpTa]; omega

theorem bitsOpTq_lt (o : OpTq) : bitsOpTq o < 2 ^ 26 := by
  have := bit_lt_two o.u; have := o.p.isLt; have := o.x.isLt; have := o.y.isLt; have := o.w.isLt; rw [bitsOpTq]; omega

theorem bitsOpU_lt (o : OpU) : bitsOpU o < 2 ^ 26 := by
  have := bit_lt_two o.u; have := o.d.isLt; have := o.a.isLt; have := bit_lt_two o.n; rw [bitsOpU]; omega

theorem bitsOpUx_lt (o : OpUx) : bitsOpUx o < 2 ^ 26 := by
  have := bit_lt_two o.u; have := o.x.isLt; rw [bitsOpUx]; omega

theorem bitsOpUxp_lt (o : OpUxp) : bitsOpUxp o < 2 ^ 26 := by
  have := bit_lt_two o.u; have := o.x.isLt; have := o.p.isLt; rw [bitsOpUxp]; omega

theorem bitsOpVote_lt (o : OpVote) : bitsOpVote o < 2 ^ 26 := by
  have := o.s.isLt; have := o.p.isLt; rw [bitsOpVote]; omega

theorem bitsOpWin_lt (o : OpWin) : bitsOpWin o < 2 ^ 26 := by
  have := o.w.isLt; rw [bitsOpWin]; omega

theorem bitsOpX_lt (o : OpX) : bitsOpX o < 2 ^ 26 := by
  have := o.x.isLt; rw [bitsOpX]; omega

theorem bitsOpXk_lt (o : OpXk) : bitsOpXk o < 2 ^ 26 := by
  have := bit_lt_two o.u; have := o.x.isLt; rw [bitsOpXk]; omega

theorem bitsOpXy_lt (o : OpXy) : bitsOpXy o < 2 ^ 26 := by
  have := o.x.isLt; have := o.y.isLt; rw [bitsOpXy]; omega

theorem Encodes.iaddI32 (o : OpA) : Encodes.Statement (.iaddI32 o) := withLiteral_lt (by have := bitsOpA_lt o; omega) _ _
theorem Encodes.isubI32 (o : OpA) : Encodes.Statement (.isubI32 o) := withLiteral_lt (by have := bitsOpA_lt o; omega) _ _
theorem Encodes.imulI32 (o : OpA) : Encodes.Statement (.imulI32 o) := withLiteral_lt (by have := bitsOpA_lt o; omega) _ _
theorem Encodes.imulhI32 (o : OpA) : Encodes.Statement (.imulhI32 o) := withLiteral_lt (by have := bitsOpA_lt o; omega) _ _
theorem Encodes.imulhN32 (o : OpA) : Encodes.Statement (.imulhN32 o) := withLiteral_lt (by have := bitsOpA_lt o; omega) _ _
theorem Encodes.iabsdI32 (o : OpA) : Encodes.Statement (.iabsdI32 o) := withLiteral_lt (by have := bitsOpA_lt o; omega) _ _
theorem Encodes.iaddsI32 (o : OpA) : Encodes.Statement (.iaddsI32 o) := withLiteral_lt (by have := bitsOpA_lt o; omega) _ _
theorem Encodes.isubsI32 (o : OpA) : Encodes.Statement (.isubsI32 o) := withLiteral_lt (by have := bitsOpA_lt o; omega) _ _
theorem Encodes.iminI32 (o : OpA) : Encodes.Statement (.iminI32 o) := withLiteral_lt (by have := bitsOpA_lt o; omega) _ _
theorem Encodes.iminN32 (o : OpA) : Encodes.Statement (.iminN32 o) := withLiteral_lt (by have := bitsOpA_lt o; omega) _ _
theorem Encodes.imaxI32 (o : OpA) : Encodes.Statement (.imaxI32 o) := withLiteral_lt (by have := bitsOpA_lt o; omega) _ _
theorem Encodes.imaxN32 (o : OpA) : Encodes.Statement (.imaxN32 o) := withLiteral_lt (by have := bitsOpA_lt o; omega) _ _
theorem Encodes.iabsI32 (o : OpU) : Encodes.Statement (.iabsI32 o) := withLiteral_lt (by have := bitsOpU_lt o; omega) _ _
theorem Encodes.inegI32 (o : OpU) : Encodes.Statement (.inegI32 o) := withLiteral_lt (by have := bitsOpU_lt o; omega) _ _
theorem Encodes.iaddsN32 (o : OpA) : Encodes.Statement (.iaddsN32 o) := withLiteral_lt (by have := bitsOpA_lt o; omega) _ _
theorem Encodes.isubsN32 (o : OpA) : Encodes.Statement (.isubsN32 o) := withLiteral_lt (by have := bitsOpA_lt o; omega) _ _
theorem Encodes.andB32 (o : OpA) : Encodes.Statement (.andB32 o) := withLiteral_lt (by have := bitsOpA_lt o; omega) _ _
theorem Encodes.orB32 (o : OpA) : Encodes.Statement (.orB32 o) := withLiteral_lt (by have := bitsOpA_lt o; omega) _ _
theorem Encodes.xorB32 (o : OpA) : Encodes.Statement (.xorB32 o) := withLiteral_lt (by have := bitsOpA_lt o; omega) _ _
theorem Encodes.andnB32 (o : OpA) : Encodes.Statement (.andnB32 o) := withLiteral_lt (by have := bitsOpA_lt o; omega) _ _
theorem Encodes.ornB32 (o : OpA) : Encodes.Statement (.ornB32 o) := withLiteral_lt (by have := bitsOpA_lt o; omega) _ _
theorem Encodes.xnorB32 (o : OpA) : Encodes.Statement (.xnorB32 o) := withLiteral_lt (by have := bitsOpA_lt o; omega) _ _
theorem Encodes.notB32 (o : OpU) : Encodes.Statement (.notB32 o) := withLiteral_lt (by have := bitsOpU_lt o; omega) _ _
theorem Encodes.movB32 (o : OpU) : Encodes.Statement (.movB32 o) := withLiteral_lt (by have := bitsOpU_lt o; omega) _ _
theorem Encodes.shlB32 (o : OpA) : Encodes.Statement (.shlB32 o) := withLiteral_lt (by have := bitsOpA_lt o; omega) _ _
theorem Encodes.shrN32 (o : OpA) : Encodes.Statement (.shrN32 o) := withLiteral_lt (by have := bitsOpA_lt o; omega) _ _
theorem Encodes.shrI32 (o : OpA) : Encodes.Statement (.shrI32 o) := withLiteral_lt (by have := bitsOpA_lt o; omega) _ _
theorem Encodes.rolB32 (o : OpA) : Encodes.Statement (.rolB32 o) := withLiteral_lt (by have := bitsOpA_lt o; omega) _ _
theorem Encodes.popcB32 (o : OpU) : Encodes.Statement (.popcB32 o) := withLiteral_lt (by have := bitsOpU_lt o; omega) _ _
theorem Encodes.clzB32 (o : OpU) : Encodes.Statement (.clzB32 o) := withLiteral_lt (by have := bitsOpU_lt o; omega) _ _
theorem Encodes.brevB32 (o : OpU) : Encodes.Statement (.brevB32 o) := withLiteral_lt (by have := bitsOpU_lt o; omega) _ _
theorem Encodes.ffsB32 (o : OpU) : Encodes.Statement (.ffsB32 o) := withLiteral_lt (by have := bitsOpU_lt o; omega) _ _
theorem Encodes.iaddI64 (o : OpA) : Encodes.Statement (.iaddI64 o) := withLiteral_lt (by have := bitsOpA_lt o; omega) _ _
theorem Encodes.isubI64 (o : OpA) : Encodes.Statement (.isubI64 o) := withLiteral_lt (by have := bitsOpA_lt o; omega) _ _
theorem Encodes.imulI64 (o : OpA) : Encodes.Statement (.imulI64 o) := withLiteral_lt (by have := bitsOpA_lt o; omega) _ _
theorem Encodes.shlB64 (o : OpA) : Encodes.Statement (.shlB64 o) := withLiteral_lt (by have := bitsOpA_lt o; omega) _ _
theorem Encodes.shrN64 (o : OpA) : Encodes.Statement (.shrN64 o) := withLiteral_lt (by have := bitsOpA_lt o; omega) _ _
theorem Encodes.shrI64 (o : OpA) : Encodes.Statement (.shrI64 o) := withLiteral_lt (by have := bitsOpA_lt o; omega) _ _
theorem Encodes.imulwI32 (o : OpA) : Encodes.Statement (.imulwI32 o) := withLiteral_lt (by have := bitsOpA_lt o; omega) _ _
theorem Encodes.imulwN32 (o : OpA) : Encodes.Statement (.imulwN32 o) := withLiteral_lt (by have := bitsOpA_lt o; omega) _ _
theorem Encodes.bfeN32 (o : OpA) : Encodes.Statement (.bfeN32 o) := withLiteral_lt (by have := bitsOpA_lt o; omega) _ _
theorem Encodes.bfeI32 (o : OpA) : Encodes.Statement (.bfeI32 o) := withLiteral_lt (by have := bitsOpA_lt o; omega) _ _
theorem Encodes.bfiB32 (o : OpA) : Encodes.Statement (.bfiB32 o) := withLiteral_lt (by have := bitsOpA_lt o; omega) _ _
theorem Encodes.bswapB32 (o : OpU) : Encodes.Statement (.bswapB32 o) := withLiteral_lt (by have := bitsOpU_lt o; omega) _ _
theorem Encodes.extI8 (o : OpU) : Encodes.Statement (.extI8 o) := withLiteral_lt (by have := bitsOpU_lt o; omega) _ _
theorem Encodes.extI16 (o : OpU) : Encodes.Statement (.extI16 o) := withLiteral_lt (by have := bitsOpU_lt o; omega) _ _
theorem Encodes.imadI32 (o : OpA) : Encodes.Statement (.imadI32 o) := withLiteral_lt (by have := bitsOpA_lt o; omega) _ _
theorem Encodes.packB16 (o : OpA) : Encodes.Statement (.packB16 o) := withLiteral_lt (by have := bitsOpA_lt o; omega) _ _
theorem Encodes.leaB32 (o : OpLea) : Encodes.Statement (.leaB32 o) := withLiteral_lt (by have := bitsOpLea_lt o; omega) _ _
theorem Encodes.leaI64 (o : OpLea) : Encodes.Statement (.leaI64 o) := withLiteral_lt (by have := bitsOpLea_lt o; omega) _ _
theorem Encodes.iaddiI32 (o : OpI) : Encodes.Statement (.iaddiI32 o) := withLiteral_lt (by have := bitsOpI_lt o; omega) _ _
theorem Encodes.icmpI32 (o : OpCmp) : Encodes.Statement (.icmpI32 o) := withLiteral_lt (by have := bitsOpCmp_lt o; omega) _ _
theorem Encodes.icmpN32 (o : OpCmp) : Encodes.Statement (.icmpN32 o) := withLiteral_lt (by have := bitsOpCmp_lt o; omega) _ _
theorem Encodes.icmpI64 (o : OpCmp) : Encodes.Statement (.icmpI64 o) := withLiteral_lt (by have := bitsOpCmp_lt o; omega) _ _
theorem Encodes.icmpN64 (o : OpCmp) : Encodes.Statement (.icmpN64 o) := withLiteral_lt (by have := bitsOpCmp_lt o; omega) _ _
theorem Encodes.fcmpF32 (o : OpCmp) : Encodes.Statement (.fcmpF32 o) := withLiteral_lt (by have := bitsOpCmp_lt o; omega) _ _
theorem Encodes.fcmpBf16 (o : OpCmp) : Encodes.Statement (.fcmpBf16 o) := withLiteral_lt (by have := bitsOpCmp_lt o; omega) _ _
theorem Encodes.fcmpF16 (o : OpCmp) : Encodes.Statement (.fcmpF16 o) := withLiteral_lt (by have := bitsOpCmp_lt o; omega) _ _
theorem Encodes.pand (o : OpPl) : Encodes.Statement (.pand o) := withLiteral_lt (by have := bitsOpPl_lt o; omega) _ _
theorem Encodes.por (o : OpPl) : Encodes.Statement (.por o) := withLiteral_lt (by have := bitsOpPl_lt o; omega) _ _
theorem Encodes.pxor (o : OpPl) : Encodes.Statement (.pxor o) := withLiteral_lt (by have := bitsOpPl_lt o; omega) _ _
theorem Encodes.selB32 (o : OpSel) : Encodes.Statement (.selB32 o) := withLiteral_lt (by have := bitsOpSel_lt o; omega) _ _
theorem Encodes.faddF32 (o : OpA) : Encodes.Statement (.faddF32 o) := withLiteral_lt (by have := bitsOpA_lt o; omega) _ _
theorem Encodes.fsubF32 (o : OpA) : Encodes.Statement (.fsubF32 o) := withLiteral_lt (by have := bitsOpA_lt o; omega) _ _
theorem Encodes.fmulF32 (o : OpA) : Encodes.Statement (.fmulF32 o) := withLiteral_lt (by have := bitsOpA_lt o; omega) _ _
theorem Encodes.fminF32 (o : OpA) : Encodes.Statement (.fminF32 o) := withLiteral_lt (by have := bitsOpA_lt o; omega) _ _
theorem Encodes.fmaxF32 (o : OpA) : Encodes.Statement (.fmaxF32 o) := withLiteral_lt (by have := bitsOpA_lt o; omega) _ _
theorem Encodes.fabsF32 (o : OpU) : Encodes.Statement (.fabsF32 o) := withLiteral_lt (by have := bitsOpU_lt o; omega) _ _
theorem Encodes.fnegF32 (o : OpU) : Encodes.Statement (.fnegF32 o) := withLiteral_lt (by have := bitsOpU_lt o; omega) _ _
theorem Encodes.fcpysgnF32 (o : OpA) : Encodes.Statement (.fcpysgnF32 o) := withLiteral_lt (by have := bitsOpA_lt o; omega) _ _
theorem Encodes.ffmaF32Cd (o : OpA) : Encodes.Statement (.ffmaF32Cd o) := withLiteral_lt (by have := bitsOpA_lt o; omega) _ _
theorem Encodes.ffmaF32Cb0 (o : OpF) : Encodes.Statement (.ffmaF32Cb0 o) := withLiteral_lt (by have := bitsOpF_lt o; omega) _ _
theorem Encodes.ffmaF32Cb1 (o : OpF) : Encodes.Statement (.ffmaF32Cb1 o) := withLiteral_lt (by have := bitsOpF_lt o; omega) _ _
theorem Encodes.ffmaF32Cb2 (o : OpF) : Encodes.Statement (.ffmaF32Cb2 o) := withLiteral_lt (by have := bitsOpF_lt o; omega) _ _
theorem Encodes.ffmaF32Cb3 (o : OpF) : Encodes.Statement (.ffmaF32Cb3 o) := withLiteral_lt (by have := bitsOpF_lt o; omega) _ _
theorem Encodes.ffmaX2bf16Cd (o : OpA) : Encodes.Statement (.ffmaX2bf16Cd o) := withLiteral_lt (by have := bitsOpA_lt o; omega) _ _
theorem Encodes.ffmaX2f16Cd (o : OpA) : Encodes.Statement (.ffmaX2f16Cd o) := withLiteral_lt (by have := bitsOpA_lt o; omega) _ _
theorem Encodes.faddX2bf16 (o : OpA) : Encodes.Statement (.faddX2bf16 o) := withLiteral_lt (by have := bitsOpA_lt o; omega) _ _
theorem Encodes.fmulX2bf16 (o : OpA) : Encodes.Statement (.fmulX2bf16 o) := withLiteral_lt (by have := bitsOpA_lt o; omega) _ _
theorem Encodes.faddX2f16 (o : OpA) : Encodes.Statement (.faddX2f16 o) := withLiteral_lt (by have := bitsOpA_lt o; omega) _ _
theorem Encodes.fmulX2f16 (o : OpA) : Encodes.Statement (.fmulX2f16 o) := withLiteral_lt (by have := bitsOpA_lt o; omega) _ _
theorem Encodes.fminX2bf16 (o : OpA) : Encodes.Statement (.fminX2bf16 o) := withLiteral_lt (by have := bitsOpA_lt o; omega) _ _
theorem Encodes.fmaxX2bf16 (o : OpA) : Encodes.Statement (.fmaxX2bf16 o) := withLiteral_lt (by have := bitsOpA_lt o; omega) _ _
theorem Encodes.fminX2f16 (o : OpA) : Encodes.Statement (.fminX2f16 o) := withLiteral_lt (by have := bitsOpA_lt o; omega) _ _
theorem Encodes.fmaxX2f16 (o : OpA) : Encodes.Statement (.fmaxX2f16 o) := withLiteral_lt (by have := bitsOpA_lt o; omega) _ _
theorem Encodes.frcpF32 (o : OpU) : Encodes.Statement (.frcpF32 o) := withLiteral_lt (by have := bitsOpU_lt o; omega) _ _
theorem Encodes.frsqF32 (o : OpU) : Encodes.Statement (.frsqF32 o) := withLiteral_lt (by have := bitsOpU_lt o; omega) _ _
theorem Encodes.fsqrtF32 (o : OpU) : Encodes.Statement (.fsqrtF32 o) := withLiteral_lt (by have := bitsOpU_lt o; omega) _ _
theorem Encodes.fexp2F32 (o : OpU) : Encodes.Statement (.fexp2F32 o) := withLiteral_lt (by have := bitsOpU_lt o; omega) _ _
theorem Encodes.flog2F32 (o : OpU) : Encodes.Statement (.flog2F32 o) := withLiteral_lt (by have := bitsOpU_lt o; omega) _ _
theorem Encodes.fsinF32 (o : OpU) : Encodes.Statement (.fsinF32 o) := withLiteral_lt (by have := bitsOpU_lt o; omega) _ _
theorem Encodes.fcosF32 (o : OpU) : Encodes.Statement (.fcosF32 o) := withLiteral_lt (by have := bitsOpU_lt o; omega) _ _
theorem Encodes.ftanhF32 (o : OpU) : Encodes.Statement (.ftanhF32 o) := withLiteral_lt (by have := bitsOpU_lt o; omega) _ _
theorem Encodes.frndF32 (o : OpRnd) : Encodes.Statement (.frndF32 o) := withLiteral_lt (by have := bitsOpRnd_lt o; omega) _ _
theorem Encodes.ffractF32 (o : OpU) : Encodes.Statement (.ffractF32 o) := withLiteral_lt (by have := bitsOpU_lt o; omega) _ _
theorem Encodes.fclassF32 (o : OpU) : Encodes.Statement (.fclassF32 o) := withLiteral_lt (by have := bitsOpU_lt o; omega) _ _
theorem Encodes.fsatF32 (o : OpU) : Encodes.Statement (.fsatF32 o) := withLiteral_lt (by have := bitsOpU_lt o; omega) _ _
theorem Encodes.fexpoF32 (o : OpU) : Encodes.Statement (.fexpoF32 o) := withLiteral_lt (by have := bitsOpU_lt o; omega) _ _
theorem Encodes.cvt (o : OpCvt) : Encodes.Statement (.cvt o) := withLiteral_lt (by have := bitsOpCvt_lt o; omega) _ _
theorem Encodes.cvtpX2bf16F32 (o : OpF) : Encodes.Statement (.cvtpX2bf16F32 o) := withLiteral_lt (by have := bitsOpF_lt o; omega) _ _
theorem Encodes.cvtpX2f16F32 (o : OpF) : Encodes.Statement (.cvtpX2f16F32 o) := withLiteral_lt (by have := bitsOpF_lt o; omega) _ _
theorem Encodes.cvtpX4e4m3F32 (o : OpF) : Encodes.Statement (.cvtpX4e4m3F32 o) := withLiteral_lt (by have := bitsOpF_lt o; omega) _ _
theorem Encodes.cvtpX4e5m2F32 (o : OpF) : Encodes.Statement (.cvtpX4e5m2F32 o) := withLiteral_lt (by have := bitsOpF_lt o; omega) _ _
theorem Encodes.cvtpX8e2m1X4e4m3 (o : OpF) : Encodes.Statement (.cvtpX8e2m1X4e4m3 o) := withLiteral_lt (by have := bitsOpF_lt o; omega) _ _
theorem Encodes.mxqE4m3 (o : OpF) : Encodes.Statement (.mxqE4m3 o) := withLiteral_lt (by have := bitsOpF_lt o; omega) _ _
theorem Encodes.mxqE5m2 (o : OpF) : Encodes.Statement (.mxqE5m2 o) := withLiteral_lt (by have := bitsOpF_lt o; omega) _ _
theorem Encodes.mxqE2m1 (o : OpF) : Encodes.Statement (.mxqE2m1 o) := withLiteral_lt (by have := bitsOpF_lt o; omega) _ _
theorem Encodes.dp4X4i8 (o : OpF) : Encodes.Statement (.dp4X4i8 o) := withLiteral_lt (by have := bitsOpF_lt o; omega) _ _
theorem Encodes.dp4X4e4m3 (o : OpF) : Encodes.Statement (.dp4X4e4m3 o) := withLiteral_lt (by have := bitsOpF_lt o; omega) _ _
theorem Encodes.dp4X4e5m2 (o : OpF) : Encodes.Statement (.dp4X4e5m2 o) := withLiteral_lt (by have := bitsOpF_lt o; omega) _ _
theorem Encodes.dp8X8i4 (o : OpF) : Encodes.Statement (.dp8X8i4 o) := withLiteral_lt (by have := bitsOpF_lt o; omega) _ _
theorem Encodes.dp8X8e2m1 (o : OpF) : Encodes.Statement (.dp8X8e2m1 o) := withLiteral_lt (by have := bitsOpF_lt o; omega) _ _
theorem Encodes.dp2X2bf16 (o : OpF) : Encodes.Statement (.dp2X2bf16 o) := withLiteral_lt (by have := bitsOpF_lt o; omega) _ _
theorem Encodes.dp2X2f16 (o : OpF) : Encodes.Statement (.dp2X2f16 o) := withLiteral_lt (by have := bitsOpF_lt o; omega) _ _
theorem Encodes.fscaleF32 (o : OpF) : Encodes.Statement (.fscaleF32 o) := withLiteral_lt (by have := bitsOpF_lt o; omega) _ _
theorem Encodes.xget (o : OpF) : Encodes.Statement (.xget o) := withLiteral_lt (by have := bitsOpF_lt o; omega) _ _
theorem Encodes.xlow (o : OpF) : Encodes.Statement (.xlow o) := withLiteral_lt (by have := bitsOpF_lt o; omega) _ _
theorem Encodes.xhigh (o : OpF) : Encodes.Statement (.xhigh o) := withLiteral_lt (by have := bitsOpF_lt o; omega) _ _
theorem Encodes.xflip (o : OpF) : Encodes.Statement (.xflip o) := withLiteral_lt (by have := bitsOpF_lt o; omega) _ _
theorem Encodes.gbcast (o : OpA) : Encodes.Statement (.gbcast o) := withLiteral_lt (by have := bitsOpA_lt o; omega) _ _
theorem Encodes.pmask (o : OpPm) : Encodes.Statement (.pmask o) := withLiteral_lt (by have := bitsOpPm_lt o; omega) _ _
theorem Encodes.eqset (o : OpF) : Encodes.Statement (.eqset o) := withLiteral_lt (by have := bitsOpF_lt o; omega) _ _
theorem Encodes.gfirst (o : OpGf) : Encodes.Statement (.gfirst o) := withLiteral_lt (by have := bitsOpGf_lt o; omega) _ _
theorem Encodes.gredAddI32 (o : OpGr) : Encodes.Statement (.gredAddI32 o) := withLiteral_lt (by have := bitsOpGr_lt o; omega) _ _
theorem Encodes.gredMinI32 (o : OpGr) : Encodes.Statement (.gredMinI32 o) := withLiteral_lt (by have := bitsOpGr_lt o; omega) _ _
theorem Encodes.gredMaxI32 (o : OpGr) : Encodes.Statement (.gredMaxI32 o) := withLiteral_lt (by have := bitsOpGr_lt o; omega) _ _
theorem Encodes.gredAndB32 (o : OpGr) : Encodes.Statement (.gredAndB32 o) := withLiteral_lt (by have := bitsOpGr_lt o; omega) _ _
theorem Encodes.gredOrB32 (o : OpGr) : Encodes.Statement (.gredOrB32 o) := withLiteral_lt (by have := bitsOpGr_lt o; omega) _ _
theorem Encodes.gredAddF32 (o : OpGr) : Encodes.Statement (.gredAddF32 o) := withLiteral_lt (by have := bitsOpGr_lt o; omega) _ _
theorem Encodes.gscanAddI32 (o : OpGr) : Encodes.Statement (.gscanAddI32 o) := withLiteral_lt (by have := bitsOpGr_lt o; omega) _ _
theorem Encodes.gscanAddF32 (o : OpGr) : Encodes.Statement (.gscanAddF32 o) := withLiteral_lt (by have := bitsOpGr_lt o; omega) _ _
theorem Encodes.br (o : OpBr) : Encodes.Statement (.br o) := withLiteral_lt (by have := bitsOpBr_lt o; omega) _ _
theorem Encodes.call (o : OpBr) : Encodes.Statement (.call o) := withLiteral_lt (by have := bitsOpBr_lt o; omega) _ _
theorem Encodes.nop (o : OpK) : Encodes.Statement (.nop o) := withLiteral_lt (by have := bitsOpK_lt o; omega) _ _
theorem Encodes.exit (o : OpK) : Encodes.Statement (.exit o) := withLiteral_lt (by have := bitsOpK_lt o; omega) _ _
theorem Encodes.ret (o : OpK) : Encodes.Statement (.ret o) := withLiteral_lt (by have := bitsOpK_lt o; omega) _ _
theorem Encodes.brx (o : OpX) : Encodes.Statement (.brx o) := withLiteral_lt (by have := bitsOpX_lt o; omega) _ _
theorem Encodes.callx (o : OpX) : Encodes.Statement (.callx o) := withLiteral_lt (by have := bitsOpX_lt o; omega) _ _
theorem Encodes.lpush (o : OpLp) : Encodes.Statement (.lpush o) := withLiteral_lt (by have := bitsOpLp_lt o; omega) _ _
theorem Encodes.lbrk (o : OpK) : Encodes.Statement (.lbrk o) := withLiteral_lt (by have := bitsOpK_lt o; omega) _ _
theorem Encodes.trapW (o : OpCode) : Encodes.Statement (.trapW o) := withLiteral_lt (by have := bitsOpCode_lt o; omega) _ _
theorem Encodes.bkpt (o : OpCode) : Encodes.Statement (.bkpt o) := withLiteral_lt (by have := bitsOpCode_lt o; omega) _ _
theorem Encodes.rti (o : OpK) : Encodes.Statement (.rti o) := withLiteral_lt (by have := bitsOpK_lt o; omega) _ _
theorem Encodes.gmark (o : OpK) : Encodes.Statement (.gmark o) := withLiteral_lt (by have := bitsOpK_lt o; omega) _ _
theorem Encodes.gtest (o : OpUxp) : Encodes.Statement (.gtest o) := withLiteral_lt (by have := bitsOpUxp_lt o; omega) _ _
theorem Encodes.gaccept (o : OpUx) : Encodes.Statement (.gaccept o) := withLiteral_lt (by have := bitsOpUx_lt o; omega) _ _
theorem Encodes.gdemand (o : OpUx) : Encodes.Statement (.gdemand o) := withLiteral_lt (by have := bitsOpUx_lt o; omega) _ _
theorem Encodes.dead (o : OpDead) : Encodes.Statement (.dead o) := withLiteral_lt (by have := bitsOpDead_lt o; omega) _ _
theorem Encodes.jmark (o : OpJ) : Encodes.Statement (.jmark o) := withLiteral_lt (by have := bitsOpJ_lt o; omega) _ _
theorem Encodes.jwait (o : OpJ) : Encodes.Statement (.jwait o) := withLiteral_lt (by have := bitsOpJ_lt o; omega) _ _
theorem Encodes.jclr (o : OpJ) : Encodes.Statement (.jclr o) := withLiteral_lt (by have := bitsOpJ_lt o; omega) _ _
theorem Encodes.vany (o : OpVote) : Encodes.Statement (.vany o) := withLiteral_lt (by have := bitsOpVote_lt o; omega) _ _
theorem Encodes.vall (o : OpVote) : Encodes.Statement (.vall o) := withLiteral_lt (by have := bitsOpVote_lt o; omega) _ _
theorem Encodes.vsame (o : OpVote) : Encodes.Statement (.vsame o) := withLiteral_lt (by have := bitsOpVote_lt o; omega) _ _
theorem Encodes.barTm (o : OpBar) : Encodes.Statement (.barTm o) := withLiteral_lt (by have := bitsOpBar_lt o; omega) _ _
theorem Encodes.barCl (o : OpBar) : Encodes.Statement (.barCl o) := withLiteral_lt (by have := bitsOpBar_lt o; omega) _ _
theorem Encodes.barGd (o : OpK) : Encodes.Statement (.barGd o) := withLiteral_lt (by have := bitsOpK_lt o; omega) _ _
theorem Encodes.bararrTm (o : OpBar) : Encodes.Statement (.bararrTm o) := withLiteral_lt (by have := bitsOpBar_lt o; omega) _ _
theorem Encodes.bararrCl (o : OpBar) : Encodes.Statement (.bararrCl o) := withLiteral_lt (by have := bitsOpBar_lt o; omega) _ _
theorem Encodes.barwtTm (o : OpBar) : Encodes.Statement (.barwtTm o) := withLiteral_lt (by have := bitsOpBar_lt o; omega) _ _
theorem Encodes.barwtCl (o : OpBar) : Encodes.Statement (.barwtCl o) := withLiteral_lt (by have := bitsOpBar_lt o; omega) _ _
theorem Encodes.smovRd (o : OpSm) : Encodes.Statement (.smovRd o) := withLiteral_lt (by have := bitsOpSm_lt o; omega) _ _
theorem Encodes.smovWr (o : OpSw) : Encodes.Statement (.smovWr o) := withLiteral_lt (by have := bitsOpSw_lt o; omega) _ _
theorem Encodes.smovV (o : OpSw) : Encodes.Statement (.smovV o) := withLiteral_lt (by have := bitsOpSw_lt o; omega) _ _
theorem Encodes.sysr (o : OpSys) : Encodes.Statement (.sysr o) := withLiteral_lt (by have := bitsOpSys_lt o; omega) _ _
theorem Encodes.sysw (o : OpSys) : Encodes.Statement (.sysw o) := withLiteral_lt (by have := bitsOpSys_lt o; omega) _ _
theorem Encodes.tsr (o : OpUx) : Encodes.Statement (.tsr o) := withLiteral_lt (by have := bitsOpUx_lt o; omega) _ _
theorem Encodes.cyc (o : OpUx) : Encodes.Statement (.cyc o) := withLiteral_lt (by have := bitsOpUx_lt o; omega) _ _
theorem Encodes.fflg (o : OpX) : Encodes.Statement (.fflg o) := withLiteral_lt (by have := bitsOpX_lt o; omega) _ _
theorem Encodes.fclr (o : OpFc) : Encodes.Statement (.fclr o) := withLiteral_lt (by have := bitsOpFc_lt o; omega) _ _
theorem Encodes.slp (o : OpX) : Encodes.Statement (.slp o) := withLiteral_lt (by have := bitsOpX_lt o; omega) _ _
theorem Encodes.idr (o : OpIdr) : Encodes.Statement (.idr o) := withLiteral_lt (by have := bitsOpIdr_lt o; omega) _ _
theorem Encodes.fence (o : OpFen) : Encodes.Statement (.fence o) := withLiteral_lt (by have := bitsOpFen_lt o; omega) _ _
theorem Encodes.vspill (o : OpSpl) : Encodes.Statement (.vspill o) := withLiteral_lt (by have := bitsOpSpl_lt o; omega) _ _
theorem Encodes.vfill (o : OpSpl) : Encodes.Statement (.vfill o) := withLiteral_lt (by have := bitsOpSpl_lt o; omega) _ _
theorem Encodes.vgrow (o : OpWin) : Encodes.Statement (.vgrow o) := withLiteral_lt (by have := bitsOpWin_lt o; omega) _ _
theorem Encodes.vshrink (o : OpWin) : Encodes.Statement (.vshrink o) := withLiteral_lt (by have := bitsOpWin_lt o; omega) _ _
theorem Encodes.load (o : OpLd) : Encodes.Statement (.load o) := withLiteral_lt (by have := bitsOpLd_lt o; omega) _ _
theorem Encodes.uniformLoad (o : OpLd) : Encodes.Statement (.uniformLoad o) := withLiteral_lt (by have := bitsOpLd_lt o; omega) _ _
theorem Encodes.prefetch (o : OpPf) : Encodes.Statement (.prefetch o) := withLiteral_lt (by have := bitsOpPf_lt o; omega) _ _
theorem Encodes.store (o : OpSt) : Encodes.Statement (.store o) := withLiteral_lt (by have := bitsOpSt_lt o; omega) _ _
theorem Encodes.uniformStore (o : OpSt) : Encodes.Statement (.uniformStore o) := withLiteral_lt (by have := bitsOpSt_lt o; omega) _ _
theorem Encodes.atomic (o : OpAt) : Encodes.Statement (.atomic o) := by
  have := o.d.isLt; have := o.a.isLt; have := o.o.isLt; have := o.s.isLt; have := o.t.isLt; have := o.x.isLt; have := o.i.isLt
  exact withLiteral_lt (k := (28 * 2 ^ 26 + o.d.toNat * 2 ^ 18 + o.a.toNat * 2 ^ 11 + o.o.toNat * 2 ^ 6 + o.s.toNat * 2 ^ 4 + o.t.toNat * 2)) (by omega) o.c (some (BitVec.ofNat 26 (o.x.toNat * 2 ^ 19 + o.i.toNat)))
theorem Encodes.reduction (o : OpRed) : Encodes.Statement (.reduction o) := by
  have := o.a.isLt; have := o.o.isLt; have := o.s.isLt; have := o.t.isLt; have := o.x.isLt; have := o.i.isLt
  exact withLiteral_lt (k := (28 * 2 ^ 26 + o.a.toNat * 2 ^ 11 + o.o.toNat * 2 ^ 6 + o.s.toNat * 2 ^ 4 + o.t.toNat * 2 + 1)) (by omega) o.c (some (BitVec.ofNat 26 (o.x.toNat * 2 ^ 19 + o.i.toNat)))
theorem Encodes.mma (o : OpMma) : Encodes.Statement (.mma o) := withLiteral_lt (by have := bitsOpMma_lt o; omega) _ _
theorem Encodes.mmaMx (o : OpMx) : Encodes.Statement (.mmaMx o) := by
  have := o.f.isLt; have := o.t.isLt; have := o.a.isLt; have := o.b.isLt; have := o.x.isLt; have := o.y.isLt
  exact withLiteral_lt (k := (29 * 2 ^ 26 + (8 + o.f.toNat) * 2 ^ 21 + o.t.toNat * 2 ^ 18 + o.a.toNat * 2 ^ 11 + o.b.toNat * 2 ^ 4)) (by omega) o.c (some (BitVec.ofNat 26 (o.x.toNat * 2 ^ 19 + o.y.toNat * 2 ^ 12)))
theorem Encodes.mmsrBf16 (o : OpMs) : Encodes.Statement (.mmsrBf16 o) := withLiteral_lt (by have := bitsOpMs_lt o; omega) _ _
theorem Encodes.flkrd (o : OpFlk) : Encodes.Statement (.flkrd o) := withLiteral_lt (by have := bitsOpFlk_lt o; omega) _ _
theorem Encodes.fidrd (o : OpFid) : Encodes.Statement (.fidrd o) := withLiteral_lt (by have := bitsOpFid_lt o; omega) _ _
theorem Encodes.ard (o : OpArd) : Encodes.Statement (.ard o) := withLiteral_lt (by have := bitsOpArd_lt o; omega) _ _
theorem Encodes.ast (o : OpAst) : Encodes.Statement (.ast o) := withLiteral_lt (by have := bitsOpAst_lt o; omega) _ _
theorem Encodes.azero (o : OpT) : Encodes.Statement (.azero o) := withLiteral_lt (by have := bitsOpT_lt o; omega) _ _
theorem Encodes.arel (o : OpT) : Encodes.Statement (.arel o) := withLiteral_lt (by have := bitsOpT_lt o; omega) _ _
theorem Encodes.xkick (o : OpXk) : Encodes.Statement (.xkick o) := withLiteral_lt (by have := bitsOpXk_lt o; omega) _ _
theorem Encodes.owait (o : OpOw) : Encodes.Statement (.owait o) := withLiteral_lt (by have := bitsOpOw_lt o; omega) _ _
theorem Encodes.bobjInit (o : OpBi) : Encodes.Statement (.bobjInit o) := withLiteral_lt (by have := bitsOpBi_lt o; omega) _ _
theorem Encodes.bobjArrive (o : OpBa) : Encodes.Statement (.bobjArrive o) := withLiteral_lt (by have := bitsOpBa_lt o; omega) _ _
theorem Encodes.bobjWait (o : OpXy) : Encodes.Statement (.bobjWait o) := withLiteral_lt (by have := bitsOpXy_lt o; omega) _ _
theorem Encodes.mcfree (o : OpMc) : Encodes.Statement (.mcfree o) := withLiteral_lt (by have := bitsOpMc_lt o; omega) _ _
theorem Encodes.tqpush (o : OpTq) : Encodes.Statement (.tqpush o) := withLiteral_lt (by have := bitsOpTq_lt o; omega) _ _
theorem Encodes.tqtokRel (o : OpUx) : Encodes.Statement (.tqtokRel o) := withLiteral_lt (by have := bitsOpUx_lt o; omega) _ _
theorem Encodes.tqtokAcq (o : OpTa) : Encodes.Statement (.tqtokAcq o) := withLiteral_lt (by have := bitsOpTa_lt o; omega) _ _
theorem Encodes.cbset (o : OpCs) : Encodes.Statement (.cbset o) := withLiteral_lt (by have := bitsOpCs_lt o; omega) _ _
theorem Encodes.cbwait (o : OpCw) : Encodes.Statement (.cbwait o) := withLiteral_lt (by have := bitsOpCw_lt o; omega) _ _
theorem Encodes.loadDeadline (core lid : Nat) : Encodes.Statement (.loadDeadline core lid) := nofun
theorem Encodes.loadDataArrival (core : Nat) (lid : ReqUnit) : Encodes.Statement (.loadDataArrival core lid) := nofun
theorem Encodes.certainty (core bid : Nat) : Encodes.Statement (.certainty core bid) := nofun
theorem Encodes.waitingStepIssue (core bid : Nat) : Encodes.Statement (.waitingStepIssue core bid) := nofun
theorem Encodes.selectorChoice (core sel : Nat) : Encodes.Statement (.selectorChoice core sel) := nofun
theorem Encodes.blockPriorityRead (core slot start : Nat) : Encodes.Statement (.blockPriorityRead core slot start) := nofun
theorem Encodes.entryPromotion (core slot start : Nat) : Encodes.Statement (.entryPromotion core slot start) := nofun
theorem Encodes.groupDemotion (core slot : Nat) : Encodes.Statement (.groupDemotion core slot) := nofun
theorem Encodes.liveBitClear (core cluster rank : Nat) : Encodes.Statement (.liveBitClear core cluster rank) := nofun
theorem Encodes.groupSwapOut (core : Nat) : Encodes.Statement (.groupSwapOut core) := nofun
theorem Encodes.swapOutComplete (core slot : Nat) : Encodes.Statement (.swapOutComplete core slot) := nofun
theorem Encodes.groupSwapIn (core slot : Nat) : Encodes.Statement (.groupSwapIn core slot) := nofun
theorem Encodes.compaction (core : Nat) : Encodes.Statement (.compaction core) := nofun
theorem Encodes.compactionComplete (core : Nat) : Encodes.Statement (.compactionComplete core) := nofun
theorem Encodes.controlInterval (die : Nat) : Encodes.Statement (.controlInterval die) := nofun
theorem Encodes.schedulerDecision (tc : Nat) : Encodes.Statement (.schedulerDecision tc) := nofun
theorem Encodes.argumentRead (core slot i : Nat) : Encodes.Statement (.argumentRead core slot i) := nofun
theorem Encodes.barrierRelease (core bid : Nat) : Encodes.Statement (.barrierRelease core bid) := nofun
theorem Encodes.writePerformed (core : Nat) (wid : ReqUnit) : Encodes.Statement (.writePerformed core wid) := nofun
theorem Encodes.atomicResult (core lid : Nat) : Encodes.Statement (.atomicResult core lid) := nofun
theorem Encodes.flushMarkerArrival (core rid die path : Nat) : Encodes.Statement (.flushMarkerArrival core rid die path) := nofun
theorem Encodes.flushReportArrival (core rid die : Nat) : Encodes.Statement (.flushReportArrival core rid die) := nofun
theorem Encodes.translationWalk (core wid victim : Nat) : Encodes.Statement (.translationWalk core wid victim) := nofun
theorem Encodes.dsplitWrite (die value : Nat) : Encodes.Statement (.dsplitWrite die value) := nofun
theorem Encodes.dsplitApply (die : Nat) : Encodes.Statement (.dsplitApply die) := nofun
theorem Encodes.dsplitBusyClear (die : Nat) : Encodes.Statement (.dsplitBusyClear die) := nofun
theorem Encodes.stackLowPowerEntry (stack : Nat) : Encodes.Statement (.stackLowPowerEntry stack) := nofun
theorem Encodes.stackWake (stack : Nat) : Encodes.Statement (.stackWake stack) := nofun
theorem Encodes.matrixWordTake (core sel : Nat) : Encodes.Statement (.matrixWordTake core sel) := nofun
theorem Encodes.matrixUpdateComplete (core : Nat) : Encodes.Statement (.matrixUpdateComplete core) := nofun
theorem Encodes.tileEviction (core : Nat) : Encodes.Statement (.tileEviction core) := nofun
theorem Encodes.tileReturn (core team : Nat) : Encodes.Statement (.tileReturn core team) := nofun
theorem Encodes.railLoopWindow (core : Nat) : Encodes.Statement (.railLoopWindow core) := nofun
theorem Encodes.copyStart (core cid : Nat) : Encodes.Statement (.copyStart core cid) := nofun
theorem Encodes.copyBurst (core cid first count : Nat) : Encodes.Statement (.copyBurst core cid first count) := nofun
theorem Encodes.copyRetire (core cid : Nat) : Encodes.Statement (.copyRetire core cid) := nofun
theorem Encodes.tqpushTimeout (core bid : Nat) : Encodes.Statement (.tqpushTimeout core bid) := nofun
theorem Encodes.cbwaitPoll (core bid : Nat) : Encodes.Statement (.cbwaitPoll core bid) := nofun
theorem Encodes.sleepExpiry (core bid : Nat) : Encodes.Statement (.sleepExpiry core bid) := nofun
theorem Encodes.queueEntryTake (queue : Nat) : Encodes.Statement (.queueEntryTake queue) := nofun
theorem Encodes.hostQueueDoorbell (queue value : Nat) (entries : List Nat) : Encodes.Statement (.hostQueueDoorbell queue value entries) := nofun
theorem Encodes.stealRequest (tc victim : Nat) : Encodes.Statement (.stealRequest tc victim) := nofun
theorem Encodes.stealRetry (tc : Nat) : Encodes.Statement (.stealRetry tc) := nofun
theorem Encodes.droopAlarm (tc : Nat) : Encodes.Statement (.droopAlarm tc) := nofun
theorem Encodes.stretchEnd (tc : Nat) : Encodes.Statement (.stretchEnd tc) := nofun
theorem Encodes.halvedIssueEnd (tc : Nat) : Encodes.Statement (.halvedIssueEnd tc) := nofun
theorem Encodes.thermalTrip (die temp : Nat) : Encodes.Statement (.thermalTrip die temp) := nofun
theorem Encodes.collectiveCapRequest (member cap : Nat) : Encodes.Statement (.collectiveCapRequest member cap) := nofun
theorem Encodes.throttleMemberSilence (member : Nat) : Encodes.Statement (.throttleMemberSilence member) := nofun
theorem Encodes.rampFill (die : Nat) (on : Bool) : Encodes.Statement (.rampFill die on) := nofun
theorem Encodes.activationWindowAdjust (stack awin : Nat) : Encodes.Statement (.activationWindowAdjust stack awin) := nofun
theorem Encodes.refreshDerate (stack temp : Nat) : Encodes.Statement (.refreshDerate stack temp) := nofun
theorem Encodes.registerWrite (die number value : Nat) : Encodes.Statement (.registerWrite die number value) := nofun
theorem Encodes.preqGo (die value : Nat) : Encodes.Statement (.preqGo die value) := nofun
theorem Encodes.exchangeFillComplete (core : Nat) : Encodes.Statement (.exchangeFillComplete core) := nofun
theorem Encodes.exchangeSwap (core : Nat) : Encodes.Statement (.exchangeSwap core) := nofun
theorem Encodes.exchangeSpillComplete (core : Nat) : Encodes.Statement (.exchangeSpillComplete core) := nofun
theorem Encodes.trapEntry (core tid : Nat) : Encodes.Statement (.trapEntry core tid) := nofun
theorem Encodes.watchdog (core slot : Nat) : Encodes.Statement (.watchdog core slot) := nofun
theorem Encodes.mirrorCompare (core slot thread : Nat) : Encodes.Statement (.mirrorCompare core slot thread) := nofun
theorem Encodes.mirrorWindowTimeout (core slot thread : Nat) : Encodes.Statement (.mirrorWindowTimeout core slot thread) := nofun
theorem Encodes.uncorrectableError (lseq : Nat) : Encodes.Statement (.uncorrectableError lseq) := nofun
theorem Encodes.bridgeStop (bridge : Nat) : Encodes.Statement (.bridgeStop bridge) := nofun
theorem Encodes.linkNarrow (link : Nat) : Encodes.Statement (.linkNarrow link) := nofun
theorem Encodes.linkWiden (link : Nat) : Encodes.Statement (.linkWiden link) := nofun
theorem Encodes.linkRecovery (link : Nat) : Encodes.Statement (.linkRecovery link) := nofun
theorem Encodes.linkDown (link : Nat) : Encodes.Statement (.linkDown link) := nofun
theorem Encodes.linkRecovered (link lanes : Nat) : Encodes.Statement (.linkRecovered link lanes) := nofun
theorem Encodes.peerRecoveringReport (rank : Nat) : Encodes.Statement (.peerRecoveringReport rank) := nofun
theorem Encodes.peerRequest (a : PeerAcc) : Encodes.Statement (.peerRequest a) := nofun
theorem Encodes.routerGate (die router : Nat) : Encodes.Statement (.routerGate die router) := nofun
theorem Encodes.routerWakeSignal (die router : Nat) : Encodes.Statement (.routerWakeSignal die router) := nofun
theorem Encodes.routerAwake (die router : Nat) : Encodes.Statement (.routerAwake die router) := nofun
theorem Encodes.escapeDiversion (pid : Nat) : Encodes.Statement (.escapeDiversion pid) := nofun
theorem Encodes.packetRoute (pid choice : Nat) : Encodes.Statement (.packetRoute pid choice) := nofun
theorem Encodes.cmdNop (q : Cmd) : Encodes.Statement (.cmdNop q) := nofun
theorem Encodes.regwr (q : Cmd) : Encodes.Statement (.regwr q) := nofun
theorem Encodes.regrd (q : Cmd) : Encodes.Statement (.regrd q) := nofun
theorem Encodes.memwr (q : Cmd) : Encodes.Statement (.memwr q) := nofun
theorem Encodes.memrd (q : Cmd) : Encodes.Statement (.memrd q) := nofun
theorem Encodes.qcfg (q : Cmd) : Encodes.Statement (.qcfg q) := nofun
theorem Encodes.keyld (q : Cmd) : Encodes.Statement (.keyld q) := nofun
theorem Encodes.keyclr (q : Cmd) : Encodes.Statement (.keyclr q) := nofun
theorem Encodes.tinv (q : Cmd) : Encodes.Statement (.tinv q) := nofun
theorem Encodes.feat (q : Cmd) : Encodes.Statement (.feat q) := nofun
theorem Encodes.peercfg (q : Cmd) : Encodes.Statement (.peercfg q) := nofun
theorem Encodes.coll (q : Cmd) : Encodes.Statement (.coll q) := nofun
theorem Encodes.collectiveComplete (tag : Nat) (inputs : List (List Nat)) (agree : Bool) : Encodes.Statement (.collectiveComplete tag inputs agree) := nofun
theorem Encodes.fans (q : Cmd) : Encodes.Statement (.fans q) := nofun
theorem Encodes.endl (q : Cmd) : Encodes.Statement (.endl q) := nofun
theorem Encodes.reset (q : Cmd) (start : StartInfo) : Encodes.Statement (.reset q start) := nofun
theorem Encodes.ctailDoorbell (value : Nat) (entries : List CmdEntry) : Encodes.Statement (.ctailDoorbell value entries) := nofun
theorem Encodes.eackWrite (ch value : Nat) : Encodes.Statement (.eackWrite ch value) := nofun
theorem Encodes.channelRingConfigWrite (offset value : Nat) : Encodes.Statement (.channelRingConfigWrite offset value) := nofun
theorem Encodes.bar2Access (write : Bool) (offset width data : Nat) : Encodes.Statement (.bar2Access write offset width data) := nofun
theorem Encodes.msixInterrupt : Encodes.Statement (.msixInterrupt) := nofun
theorem Encodes.channelDatagram (g : Datagram) : Encodes.Statement (.channelDatagram g) := nofun
theorem Encodes.entryResend (ch seq : Nat) : Encodes.Statement (.entryResend ch seq) := nofun
theorem Encodes.deviceStart (start : StartInfo) : Encodes.Statement (.deviceStart start) := nofun
theorem Encodes.tokenBucketRefill (tc : Nat) : Encodes.Statement (.tokenBucketRefill tc) := nofun

end Sys2Proof.Laws
end

