-- ==== Sys2Proof/Laws/State.lean ====
section
/-! SUPPORT. One lemma per field and update of the state, of a core, of a group and of a thread: what an update leaves as it was. -/

namespace Sys2Proof.Machine

/-! A core set. -/

@[simp] theorem setCore_now (s : State) (k : Nat) (c : Core) : (setCore s k c).now = s.now := rfl
@[simp] theorem setCore_mem (s : State) (k : Nat) (c : Core) : (setCore s k c).mem = s.mem := rfl
@[simp] theorem setCore_lineKey (s : State) (k : Nat) (c : Core) : (setCore s k c).lineKey = s.lineKey := rfl
@[simp] theorem setCore_tcs (s : State) (k : Nat) (c : Core) : (setCore s k c).tcs = s.tcs := rfl
@[simp] theorem setCore_dies (s : State) (k : Nat) (c : Core) : (setCore s k c).dies = s.dies := rfl
@[simp] theorem setCore_teams (s : State) (k : Nat) (c : Core) : (setCore s k c).teams = s.teams := rfl
@[simp] theorem setCore_clusters (s : State) (k : Nat) (c : Core) : (setCore s k c).clusters = s.clusters := rfl
@[simp] theorem setCore_launches (s : State) (k : Nat) (c : Core) : (setCore s k c).launches = s.launches := rfl
@[simp] theorem setCore_queues (s : State) (k : Nat) (c : Core) : (setCore s k c).queues = s.queues := rfl
@[simp] theorem setCore_lastLseq (s : State) (k : Nat) (c : Core) : (setCore s k c).lastLseq = s.lastLseq := rfl
@[simp] theorem setCore_retake (s : State) (k : Nat) (c : Core) : (setCore s k c).retake = s.retake := rfl
@[simp] theorem setCore_keys (s : State) (k : Nat) (c : Core) : (setCore s k c).keys = s.keys := rfl
@[simp] theorem setCore_tgid (s : State) (k : Nat) (c : Core) : (setCore s k c).tgid = s.tgid := rfl
@[simp] theorem setCore_psb (s : State) (k : Nat) (c : Core) : (setCore s k c).psb = s.psb := rfl
@[simp] theorem setCore_wdt (s : State) (k : Nat) (c : Core) : (setCore s k c).wdt = s.wdt := rfl
@[simp] theorem setCore_mirk (s : State) (k : Nat) (c : Core) : (setCore s k c).mirk = s.mirk := rfl
@[simp] theorem setCore_chkey (s : State) (k : Nat) (c : Core) : (setCore s k c).chkey = s.chkey := rfl
@[simp] theorem setCore_members (s : State) (k : Nat) (c : Core) : (setCore s k c).members = s.members := rfl
@[simp] theorem setCore_collCap (s : State) (k : Nat) (c : Core) : (setCore s k c).collCap = s.collCap := rfl
@[simp] theorem setCore_raiseAt (s : State) (k : Nat) (c : Core) : (setCore s k c).raiseAt = s.raiseAt := rfl
@[simp] theorem setCore_links (s : State) (k : Nat) (c : Core) : (setCore s k c).links = s.links := rfl
@[simp] theorem setCore_linkSince (s : State) (k : Nat) (c : Core) : (setCore s k c).linkSince = s.linkSince := rfl
@[simp] theorem setCore_bridges (s : State) (k : Nat) (c : Core) : (setCore s k c).bridges = s.bridges := rfl
@[simp] theorem setCore_recovering (s : State) (k : Nat) (c : Core) : (setCore s k c).recovering = s.recovering := rfl
@[simp] theorem setCore_packets (s : State) (k : Nat) (c : Core) : (setCore s k c).packets = s.packets := rfl
@[simp] theorem setCore_channels (s : State) (k : Nat) (c : Core) : (setCore s k c).channels = s.channels := rfl
@[simp] theorem setCore_b2pos (s : State) (k : Nat) (c : Core) : (setCore s k c).b2pos = s.b2pos := rfl
@[simp] theorem setCore_job (s : State) (k : Nat) (c : Core) : (setCore s k c).job = s.job := rfl
@[simp] theorem setCore_colls (s : State) (k : Nat) (c : Core) : (setCore s k c).colls = s.colls := rfl
@[simp] theorem setCore_boot (s : State) (k : Nat) (c : Core) : (setCore s k c).boot = s.boot := rfl
@[simp] theorem setCore_pool (s : State) (k : Nat) (c : Core) : (setCore s k c).pool = s.pool := rfl
@[simp] theorem setCore_primary (s : State) (k : Nat) (c : Core) : (setCore s k c).primary = s.primary := rfl
@[simp] theorem setCore_stopped (s : State) (k : Nat) (c : Core) : (setCore s k c).stopped = s.stopped := rfl
@[simp] theorem setCore_cur (s : State) (k : Nat) (c : Core) : (setCore s k c).cur = s.cur := rfl
@[simp] theorem setCore_agenda (s : State) (k : Nat) (c : Core) : (setCore s k c).agenda = s.agenda := rfl
@[simp] theorem setCore_draws (s : State) (k : Nat) (c : Core) : (setCore s k c).draws = s.draws := rfl
@[simp] theorem setCore_serial (s : State) (k : Nat) (c : Core) : (setCore s k c).serial = s.serial := rfl

/-! A core changed. -/

@[simp] theorem modCore_now (s : State) (k : Nat) (f : Core → Core) : (modCore s k f).now = s.now := rfl
@[simp] theorem modCore_mem (s : State) (k : Nat) (f : Core → Core) : (modCore s k f).mem = s.mem := rfl
@[simp] theorem modCore_lineKey (s : State) (k : Nat) (f : Core → Core) : (modCore s k f).lineKey = s.lineKey := rfl
@[simp] theorem modCore_tcs (s : State) (k : Nat) (f : Core → Core) : (modCore s k f).tcs = s.tcs := rfl
@[simp] theorem modCore_dies (s : State) (k : Nat) (f : Core → Core) : (modCore s k f).dies = s.dies := rfl
@[simp] theorem modCore_teams (s : State) (k : Nat) (f : Core → Core) : (modCore s k f).teams = s.teams := rfl
@[simp] theorem modCore_clusters (s : State) (k : Nat) (f : Core → Core) : (modCore s k f).clusters = s.clusters := rfl
@[simp] theorem modCore_launches (s : State) (k : Nat) (f : Core → Core) : (modCore s k f).launches = s.launches := rfl
@[simp] theorem modCore_queues (s : State) (k : Nat) (f : Core → Core) : (modCore s k f).queues = s.queues := rfl
@[simp] theorem modCore_lastLseq (s : State) (k : Nat) (f : Core → Core) : (modCore s k f).lastLseq = s.lastLseq := rfl
@[simp] theorem modCore_retake (s : State) (k : Nat) (f : Core → Core) : (modCore s k f).retake = s.retake := rfl
@[simp] theorem modCore_keys (s : State) (k : Nat) (f : Core → Core) : (modCore s k f).keys = s.keys := rfl
@[simp] theorem modCore_tgid (s : State) (k : Nat) (f : Core → Core) : (modCore s k f).tgid = s.tgid := rfl
@[simp] theorem modCore_psb (s : State) (k : Nat) (f : Core → Core) : (modCore s k f).psb = s.psb := rfl
@[simp] theorem modCore_wdt (s : State) (k : Nat) (f : Core → Core) : (modCore s k f).wdt = s.wdt := rfl
@[simp] theorem modCore_mirk (s : State) (k : Nat) (f : Core → Core) : (modCore s k f).mirk = s.mirk := rfl
@[simp] theorem modCore_chkey (s : State) (k : Nat) (f : Core → Core) : (modCore s k f).chkey = s.chkey := rfl
@[simp] theorem modCore_members (s : State) (k : Nat) (f : Core → Core) : (modCore s k f).members = s.members := rfl
@[simp] theorem modCore_collCap (s : State) (k : Nat) (f : Core → Core) : (modCore s k f).collCap = s.collCap := rfl
@[simp] theorem modCore_raiseAt (s : State) (k : Nat) (f : Core → Core) : (modCore s k f).raiseAt = s.raiseAt := rfl
@[simp] theorem modCore_links (s : State) (k : Nat) (f : Core → Core) : (modCore s k f).links = s.links := rfl
@[simp] theorem modCore_linkSince (s : State) (k : Nat) (f : Core → Core) : (modCore s k f).linkSince = s.linkSince := rfl
@[simp] theorem modCore_bridges (s : State) (k : Nat) (f : Core → Core) : (modCore s k f).bridges = s.bridges := rfl
@[simp] theorem modCore_recovering (s : State) (k : Nat) (f : Core → Core) : (modCore s k f).recovering = s.recovering := rfl
@[simp] theorem modCore_packets (s : State) (k : Nat) (f : Core → Core) : (modCore s k f).packets = s.packets := rfl
@[simp] theorem modCore_channels (s : State) (k : Nat) (f : Core → Core) : (modCore s k f).channels = s.channels := rfl
@[simp] theorem modCore_b2pos (s : State) (k : Nat) (f : Core → Core) : (modCore s k f).b2pos = s.b2pos := rfl
@[simp] theorem modCore_job (s : State) (k : Nat) (f : Core → Core) : (modCore s k f).job = s.job := rfl
@[simp] theorem modCore_colls (s : State) (k : Nat) (f : Core → Core) : (modCore s k f).colls = s.colls := rfl
@[simp] theorem modCore_boot (s : State) (k : Nat) (f : Core → Core) : (modCore s k f).boot = s.boot := rfl
@[simp] theorem modCore_pool (s : State) (k : Nat) (f : Core → Core) : (modCore s k f).pool = s.pool := rfl
@[simp] theorem modCore_primary (s : State) (k : Nat) (f : Core → Core) : (modCore s k f).primary = s.primary := rfl
@[simp] theorem modCore_stopped (s : State) (k : Nat) (f : Core → Core) : (modCore s k f).stopped = s.stopped := rfl
@[simp] theorem modCore_cur (s : State) (k : Nat) (f : Core → Core) : (modCore s k f).cur = s.cur := rfl
@[simp] theorem modCore_agenda (s : State) (k : Nat) (f : Core → Core) : (modCore s k f).agenda = s.agenda := rfl
@[simp] theorem modCore_draws (s : State) (k : Nat) (f : Core → Core) : (modCore s k f).draws = s.draws := rfl
@[simp] theorem modCore_serial (s : State) (k : Nat) (f : Core → Core) : (modCore s k f).serial = s.serial := rfl

/-! A tile cluster changed. -/

@[simp] theorem modTc_now (s : State) (n : Nat) (f : Tc → Tc) : (modTc s n f).now = s.now := rfl
@[simp] theorem modTc_mem (s : State) (n : Nat) (f : Tc → Tc) : (modTc s n f).mem = s.mem := rfl
@[simp] theorem modTc_lineKey (s : State) (n : Nat) (f : Tc → Tc) : (modTc s n f).lineKey = s.lineKey := rfl
@[simp] theorem modTc_cores (s : State) (n : Nat) (f : Tc → Tc) : (modTc s n f).cores = s.cores := rfl
@[simp] theorem modTc_dies (s : State) (n : Nat) (f : Tc → Tc) : (modTc s n f).dies = s.dies := rfl
@[simp] theorem modTc_teams (s : State) (n : Nat) (f : Tc → Tc) : (modTc s n f).teams = s.teams := rfl
@[simp] theorem modTc_clusters (s : State) (n : Nat) (f : Tc → Tc) : (modTc s n f).clusters = s.clusters := rfl
@[simp] theorem modTc_launches (s : State) (n : Nat) (f : Tc → Tc) : (modTc s n f).launches = s.launches := rfl
@[simp] theorem modTc_queues (s : State) (n : Nat) (f : Tc → Tc) : (modTc s n f).queues = s.queues := rfl
@[simp] theorem modTc_lastLseq (s : State) (n : Nat) (f : Tc → Tc) : (modTc s n f).lastLseq = s.lastLseq := rfl
@[simp] theorem modTc_retake (s : State) (n : Nat) (f : Tc → Tc) : (modTc s n f).retake = s.retake := rfl
@[simp] theorem modTc_keys (s : State) (n : Nat) (f : Tc → Tc) : (modTc s n f).keys = s.keys := rfl
@[simp] theorem modTc_tgid (s : State) (n : Nat) (f : Tc → Tc) : (modTc s n f).tgid = s.tgid := rfl
@[simp] theorem modTc_psb (s : State) (n : Nat) (f : Tc → Tc) : (modTc s n f).psb = s.psb := rfl
@[simp] theorem modTc_wdt (s : State) (n : Nat) (f : Tc → Tc) : (modTc s n f).wdt = s.wdt := rfl
@[simp] theorem modTc_mirk (s : State) (n : Nat) (f : Tc → Tc) : (modTc s n f).mirk = s.mirk := rfl
@[simp] theorem modTc_chkey (s : State) (n : Nat) (f : Tc → Tc) : (modTc s n f).chkey = s.chkey := rfl
@[simp] theorem modTc_members (s : State) (n : Nat) (f : Tc → Tc) : (modTc s n f).members = s.members := rfl
@[simp] theorem modTc_collCap (s : State) (n : Nat) (f : Tc → Tc) : (modTc s n f).collCap = s.collCap := rfl
@[simp] theorem modTc_raiseAt (s : State) (n : Nat) (f : Tc → Tc) : (modTc s n f).raiseAt = s.raiseAt := rfl
@[simp] theorem modTc_links (s : State) (n : Nat) (f : Tc → Tc) : (modTc s n f).links = s.links := rfl
@[simp] theorem modTc_linkSince (s : State) (n : Nat) (f : Tc → Tc) : (modTc s n f).linkSince = s.linkSince := rfl
@[simp] theorem modTc_bridges (s : State) (n : Nat) (f : Tc → Tc) : (modTc s n f).bridges = s.bridges := rfl
@[simp] theorem modTc_recovering (s : State) (n : Nat) (f : Tc → Tc) : (modTc s n f).recovering = s.recovering := rfl
@[simp] theorem modTc_packets (s : State) (n : Nat) (f : Tc → Tc) : (modTc s n f).packets = s.packets := rfl
@[simp] theorem modTc_channels (s : State) (n : Nat) (f : Tc → Tc) : (modTc s n f).channels = s.channels := rfl
@[simp] theorem modTc_b2pos (s : State) (n : Nat) (f : Tc → Tc) : (modTc s n f).b2pos = s.b2pos := rfl
@[simp] theorem modTc_job (s : State) (n : Nat) (f : Tc → Tc) : (modTc s n f).job = s.job := rfl
@[simp] theorem modTc_colls (s : State) (n : Nat) (f : Tc → Tc) : (modTc s n f).colls = s.colls := rfl
@[simp] theorem modTc_boot (s : State) (n : Nat) (f : Tc → Tc) : (modTc s n f).boot = s.boot := rfl
@[simp] theorem modTc_pool (s : State) (n : Nat) (f : Tc → Tc) : (modTc s n f).pool = s.pool := rfl
@[simp] theorem modTc_primary (s : State) (n : Nat) (f : Tc → Tc) : (modTc s n f).primary = s.primary := rfl
@[simp] theorem modTc_stopped (s : State) (n : Nat) (f : Tc → Tc) : (modTc s n f).stopped = s.stopped := rfl
@[simp] theorem modTc_cur (s : State) (n : Nat) (f : Tc → Tc) : (modTc s n f).cur = s.cur := rfl
@[simp] theorem modTc_agenda (s : State) (n : Nat) (f : Tc → Tc) : (modTc s n f).agenda = s.agenda := rfl
@[simp] theorem modTc_draws (s : State) (n : Nat) (f : Tc → Tc) : (modTc s n f).draws = s.draws := rfl
@[simp] theorem modTc_serial (s : State) (n : Nat) (f : Tc → Tc) : (modTc s n f).serial = s.serial := rfl

/-! A clock advanced. -/

/-- What passing time on a clock can do: it moves CYC on, and notes when it did so and the part of a period left over. -/
theorem run_frame (now n : Nat) (t : Tc) : Tc.run now n t = { t with cyc := (Tc.run now n t).cyc, mark := now, room := (Tc.run now n t).room } := rfl
theorem run_cyc (now n : Nat) (t : Tc) : (Tc.run now n t).cyc = t.cyc + min n (t.fits (t.since now)) := rfl
/-- What settling a clock can do: it changes tile clusters only. -/
theorem settleTc_frame (s : State) (n : Nat) : settleTc s n = { s with tcs := (settleTc s n).tcs } := by unfold settleTc; split <;> rfl
@[simp] theorem settleTc_now (s : State) (n : Nat) : (settleTc s n).now = s.now := by rw [settleTc_frame]
@[simp] theorem settleTc_mem (s : State) (n : Nat) : (settleTc s n).mem = s.mem := by rw [settleTc_frame]
@[simp] theorem settleTc_cores (s : State) (n : Nat) : (settleTc s n).cores = s.cores := by rw [settleTc_frame]
@[simp] theorem settleTc_dies (s : State) (n : Nat) : (settleTc s n).dies = s.dies := by rw [settleTc_frame]
@[simp] theorem settleTc_launches (s : State) (n : Nat) : (settleTc s n).launches = s.launches := by rw [settleTc_frame]
@[simp] theorem settleTc_teams (s : State) (n : Nat) : (settleTc s n).teams = s.teams := by rw [settleTc_frame]

/-! A die changed. -/

@[simp] theorem modDie_now (s : State) (d : Nat) (f : Die → Die) : (modDie s d f).now = s.now := rfl
@[simp] theorem modDie_mem (s : State) (d : Nat) (f : Die → Die) : (modDie s d f).mem = s.mem := rfl
@[simp] theorem modDie_lineKey (s : State) (d : Nat) (f : Die → Die) : (modDie s d f).lineKey = s.lineKey := rfl
@[simp] theorem modDie_cores (s : State) (d : Nat) (f : Die → Die) : (modDie s d f).cores = s.cores := rfl
@[simp] theorem modDie_tcs (s : State) (d : Nat) (f : Die → Die) : (modDie s d f).tcs = s.tcs := rfl
@[simp] theorem modDie_teams (s : State) (d : Nat) (f : Die → Die) : (modDie s d f).teams = s.teams := rfl
@[simp] theorem modDie_clusters (s : State) (d : Nat) (f : Die → Die) : (modDie s d f).clusters = s.clusters := rfl
@[simp] theorem modDie_launches (s : State) (d : Nat) (f : Die → Die) : (modDie s d f).launches = s.launches := rfl
@[simp] theorem modDie_queues (s : State) (d : Nat) (f : Die → Die) : (modDie s d f).queues = s.queues := rfl
@[simp] theorem modDie_lastLseq (s : State) (d : Nat) (f : Die → Die) : (modDie s d f).lastLseq = s.lastLseq := rfl
@[simp] theorem modDie_retake (s : State) (d : Nat) (f : Die → Die) : (modDie s d f).retake = s.retake := rfl
@[simp] theorem modDie_keys (s : State) (d : Nat) (f : Die → Die) : (modDie s d f).keys = s.keys := rfl
@[simp] theorem modDie_tgid (s : State) (d : Nat) (f : Die → Die) : (modDie s d f).tgid = s.tgid := rfl
@[simp] theorem modDie_psb (s : State) (d : Nat) (f : Die → Die) : (modDie s d f).psb = s.psb := rfl
@[simp] theorem modDie_wdt (s : State) (d : Nat) (f : Die → Die) : (modDie s d f).wdt = s.wdt := rfl
@[simp] theorem modDie_mirk (s : State) (d : Nat) (f : Die → Die) : (modDie s d f).mirk = s.mirk := rfl
@[simp] theorem modDie_chkey (s : State) (d : Nat) (f : Die → Die) : (modDie s d f).chkey = s.chkey := rfl
@[simp] theorem modDie_members (s : State) (d : Nat) (f : Die → Die) : (modDie s d f).members = s.members := rfl
@[simp] theorem modDie_collCap (s : State) (d : Nat) (f : Die → Die) : (modDie s d f).collCap = s.collCap := rfl
@[simp] theorem modDie_raiseAt (s : State) (d : Nat) (f : Die → Die) : (modDie s d f).raiseAt = s.raiseAt := rfl
@[simp] theorem modDie_links (s : State) (d : Nat) (f : Die → Die) : (modDie s d f).links = s.links := rfl
@[simp] theorem modDie_linkSince (s : State) (d : Nat) (f : Die → Die) : (modDie s d f).linkSince = s.linkSince := rfl
@[simp] theorem modDie_bridges (s : State) (d : Nat) (f : Die → Die) : (modDie s d f).bridges = s.bridges := rfl
@[simp] theorem modDie_recovering (s : State) (d : Nat) (f : Die → Die) : (modDie s d f).recovering = s.recovering := rfl
@[simp] theorem modDie_packets (s : State) (d : Nat) (f : Die → Die) : (modDie s d f).packets = s.packets := rfl
@[simp] theorem modDie_channels (s : State) (d : Nat) (f : Die → Die) : (modDie s d f).channels = s.channels := rfl
@[simp] theorem modDie_b2pos (s : State) (d : Nat) (f : Die → Die) : (modDie s d f).b2pos = s.b2pos := rfl
@[simp] theorem modDie_job (s : State) (d : Nat) (f : Die → Die) : (modDie s d f).job = s.job := rfl
@[simp] theorem modDie_colls (s : State) (d : Nat) (f : Die → Die) : (modDie s d f).colls = s.colls := rfl
@[simp] theorem modDie_boot (s : State) (d : Nat) (f : Die → Die) : (modDie s d f).boot = s.boot := rfl
@[simp] theorem modDie_pool (s : State) (d : Nat) (f : Die → Die) : (modDie s d f).pool = s.pool := rfl
@[simp] theorem modDie_primary (s : State) (d : Nat) (f : Die → Die) : (modDie s d f).primary = s.primary := rfl
@[simp] theorem modDie_stopped (s : State) (d : Nat) (f : Die → Die) : (modDie s d f).stopped = s.stopped := rfl
@[simp] theorem modDie_cur (s : State) (d : Nat) (f : Die → Die) : (modDie s d f).cur = s.cur := rfl
@[simp] theorem modDie_agenda (s : State) (d : Nat) (f : Die → Die) : (modDie s d f).agenda = s.agenda := rfl
@[simp] theorem modDie_draws (s : State) (d : Nat) (f : Die → Die) : (modDie s d f).draws = s.draws := rfl
@[simp] theorem modDie_serial (s : State) (d : Nat) (f : Die → Die) : (modDie s d f).serial = s.serial := rfl

/-! A team changed. -/

@[simp] theorem modTeam_now (s : State) (u : Nat) (f : Team → Team) : (modTeam s u f).now = s.now := rfl
@[simp] theorem modTeam_mem (s : State) (u : Nat) (f : Team → Team) : (modTeam s u f).mem = s.mem := rfl
@[simp] theorem modTeam_lineKey (s : State) (u : Nat) (f : Team → Team) : (modTeam s u f).lineKey = s.lineKey := rfl
@[simp] theorem modTeam_cores (s : State) (u : Nat) (f : Team → Team) : (modTeam s u f).cores = s.cores := rfl
@[simp] theorem modTeam_tcs (s : State) (u : Nat) (f : Team → Team) : (modTeam s u f).tcs = s.tcs := rfl
@[simp] theorem modTeam_dies (s : State) (u : Nat) (f : Team → Team) : (modTeam s u f).dies = s.dies := rfl
@[simp] theorem modTeam_clusters (s : State) (u : Nat) (f : Team → Team) : (modTeam s u f).clusters = s.clusters := rfl
@[simp] theorem modTeam_launches (s : State) (u : Nat) (f : Team → Team) : (modTeam s u f).launches = s.launches := rfl
@[simp] theorem modTeam_queues (s : State) (u : Nat) (f : Team → Team) : (modTeam s u f).queues = s.queues := rfl
@[simp] theorem modTeam_lastLseq (s : State) (u : Nat) (f : Team → Team) : (modTeam s u f).lastLseq = s.lastLseq := rfl
@[simp] theorem modTeam_retake (s : State) (u : Nat) (f : Team → Team) : (modTeam s u f).retake = s.retake := rfl
@[simp] theorem modTeam_keys (s : State) (u : Nat) (f : Team → Team) : (modTeam s u f).keys = s.keys := rfl
@[simp] theorem modTeam_tgid (s : State) (u : Nat) (f : Team → Team) : (modTeam s u f).tgid = s.tgid := rfl
@[simp] theorem modTeam_psb (s : State) (u : Nat) (f : Team → Team) : (modTeam s u f).psb = s.psb := rfl
@[simp] theorem modTeam_wdt (s : State) (u : Nat) (f : Team → Team) : (modTeam s u f).wdt = s.wdt := rfl
@[simp] theorem modTeam_mirk (s : State) (u : Nat) (f : Team → Team) : (modTeam s u f).mirk = s.mirk := rfl
@[simp] theorem modTeam_chkey (s : State) (u : Nat) (f : Team → Team) : (modTeam s u f).chkey = s.chkey := rfl
@[simp] theorem modTeam_members (s : State) (u : Nat) (f : Team → Team) : (modTeam s u f).members = s.members := rfl
@[simp] theorem modTeam_collCap (s : State) (u : Nat) (f : Team → Team) : (modTeam s u f).collCap = s.collCap := rfl
@[simp] theorem modTeam_raiseAt (s : State) (u : Nat) (f : Team → Team) : (modTeam s u f).raiseAt = s.raiseAt := rfl
@[simp] theorem modTeam_links (s : State) (u : Nat) (f : Team → Team) : (modTeam s u f).links = s.links := rfl
@[simp] theorem modTeam_linkSince (s : State) (u : Nat) (f : Team → Team) : (modTeam s u f).linkSince = s.linkSince := rfl
@[simp] theorem modTeam_bridges (s : State) (u : Nat) (f : Team → Team) : (modTeam s u f).bridges = s.bridges := rfl
@[simp] theorem modTeam_recovering (s : State) (u : Nat) (f : Team → Team) : (modTeam s u f).recovering = s.recovering := rfl
@[simp] theorem modTeam_packets (s : State) (u : Nat) (f : Team → Team) : (modTeam s u f).packets = s.packets := rfl
@[simp] theorem modTeam_channels (s : State) (u : Nat) (f : Team → Team) : (modTeam s u f).channels = s.channels := rfl
@[simp] theorem modTeam_b2pos (s : State) (u : Nat) (f : Team → Team) : (modTeam s u f).b2pos = s.b2pos := rfl
@[simp] theorem modTeam_job (s : State) (u : Nat) (f : Team → Team) : (modTeam s u f).job = s.job := rfl
@[simp] theorem modTeam_colls (s : State) (u : Nat) (f : Team → Team) : (modTeam s u f).colls = s.colls := rfl
@[simp] theorem modTeam_boot (s : State) (u : Nat) (f : Team → Team) : (modTeam s u f).boot = s.boot := rfl
@[simp] theorem modTeam_pool (s : State) (u : Nat) (f : Team → Team) : (modTeam s u f).pool = s.pool := rfl
@[simp] theorem modTeam_primary (s : State) (u : Nat) (f : Team → Team) : (modTeam s u f).primary = s.primary := rfl
@[simp] theorem modTeam_stopped (s : State) (u : Nat) (f : Team → Team) : (modTeam s u f).stopped = s.stopped := rfl
@[simp] theorem modTeam_cur (s : State) (u : Nat) (f : Team → Team) : (modTeam s u f).cur = s.cur := rfl
@[simp] theorem modTeam_agenda (s : State) (u : Nat) (f : Team → Team) : (modTeam s u f).agenda = s.agenda := rfl
@[simp] theorem modTeam_draws (s : State) (u : Nat) (f : Team → Team) : (modTeam s u f).draws = s.draws := rfl
@[simp] theorem modTeam_serial (s : State) (u : Nat) (f : Team → Team) : (modTeam s u f).serial = s.serial := rfl

/-! A launch changed. -/

@[simp] theorem modLaunch_now (s : State) (l : Nat) (f : Launch → Launch) : (modLaunch s l f).now = s.now := rfl
@[simp] theorem modLaunch_mem (s : State) (l : Nat) (f : Launch → Launch) : (modLaunch s l f).mem = s.mem := rfl
@[simp] theorem modLaunch_lineKey (s : State) (l : Nat) (f : Launch → Launch) : (modLaunch s l f).lineKey = s.lineKey := rfl
@[simp] theorem modLaunch_cores (s : State) (l : Nat) (f : Launch → Launch) : (modLaunch s l f).cores = s.cores := rfl
@[simp] theorem modLaunch_tcs (s : State) (l : Nat) (f : Launch → Launch) : (modLaunch s l f).tcs = s.tcs := rfl
@[simp] theorem modLaunch_dies (s : State) (l : Nat) (f : Launch → Launch) : (modLaunch s l f).dies = s.dies := rfl
@[simp] theorem modLaunch_teams (s : State) (l : Nat) (f : Launch → Launch) : (modLaunch s l f).teams = s.teams := rfl
@[simp] theorem modLaunch_clusters (s : State) (l : Nat) (f : Launch → Launch) : (modLaunch s l f).clusters = s.clusters := rfl
@[simp] theorem modLaunch_queues (s : State) (l : Nat) (f : Launch → Launch) : (modLaunch s l f).queues = s.queues := rfl
@[simp] theorem modLaunch_lastLseq (s : State) (l : Nat) (f : Launch → Launch) : (modLaunch s l f).lastLseq = s.lastLseq := rfl
@[simp] theorem modLaunch_retake (s : State) (l : Nat) (f : Launch → Launch) : (modLaunch s l f).retake = s.retake := rfl
@[simp] theorem modLaunch_keys (s : State) (l : Nat) (f : Launch → Launch) : (modLaunch s l f).keys = s.keys := rfl
@[simp] theorem modLaunch_tgid (s : State) (l : Nat) (f : Launch → Launch) : (modLaunch s l f).tgid = s.tgid := rfl
@[simp] theorem modLaunch_psb (s : State) (l : Nat) (f : Launch → Launch) : (modLaunch s l f).psb = s.psb := rfl
@[simp] theorem modLaunch_wdt (s : State) (l : Nat) (f : Launch → Launch) : (modLaunch s l f).wdt = s.wdt := rfl
@[simp] theorem modLaunch_mirk (s : State) (l : Nat) (f : Launch → Launch) : (modLaunch s l f).mirk = s.mirk := rfl
@[simp] theorem modLaunch_chkey (s : State) (l : Nat) (f : Launch → Launch) : (modLaunch s l f).chkey = s.chkey := rfl
@[simp] theorem modLaunch_members (s : State) (l : Nat) (f : Launch → Launch) : (modLaunch s l f).members = s.members := rfl
@[simp] theorem modLaunch_collCap (s : State) (l : Nat) (f : Launch → Launch) : (modLaunch s l f).collCap = s.collCap := rfl
@[simp] theorem modLaunch_raiseAt (s : State) (l : Nat) (f : Launch → Launch) : (modLaunch s l f).raiseAt = s.raiseAt := rfl
@[simp] theorem modLaunch_links (s : State) (l : Nat) (f : Launch → Launch) : (modLaunch s l f).links = s.links := rfl
@[simp] theorem modLaunch_linkSince (s : State) (l : Nat) (f : Launch → Launch) : (modLaunch s l f).linkSince = s.linkSince := rfl
@[simp] theorem modLaunch_bridges (s : State) (l : Nat) (f : Launch → Launch) : (modLaunch s l f).bridges = s.bridges := rfl
@[simp] theorem modLaunch_recovering (s : State) (l : Nat) (f : Launch → Launch) : (modLaunch s l f).recovering = s.recovering := rfl
@[simp] theorem modLaunch_packets (s : State) (l : Nat) (f : Launch → Launch) : (modLaunch s l f).packets = s.packets := rfl
@[simp] theorem modLaunch_channels (s : State) (l : Nat) (f : Launch → Launch) : (modLaunch s l f).channels = s.channels := rfl
@[simp] theorem modLaunch_b2pos (s : State) (l : Nat) (f : Launch → Launch) : (modLaunch s l f).b2pos = s.b2pos := rfl
@[simp] theorem modLaunch_job (s : State) (l : Nat) (f : Launch → Launch) : (modLaunch s l f).job = s.job := rfl
@[simp] theorem modLaunch_colls (s : State) (l : Nat) (f : Launch → Launch) : (modLaunch s l f).colls = s.colls := rfl
@[simp] theorem modLaunch_boot (s : State) (l : Nat) (f : Launch → Launch) : (modLaunch s l f).boot = s.boot := rfl
@[simp] theorem modLaunch_pool (s : State) (l : Nat) (f : Launch → Launch) : (modLaunch s l f).pool = s.pool := rfl
@[simp] theorem modLaunch_primary (s : State) (l : Nat) (f : Launch → Launch) : (modLaunch s l f).primary = s.primary := rfl
@[simp] theorem modLaunch_stopped (s : State) (l : Nat) (f : Launch → Launch) : (modLaunch s l f).stopped = s.stopped := rfl
@[simp] theorem modLaunch_cur (s : State) (l : Nat) (f : Launch → Launch) : (modLaunch s l f).cur = s.cur := rfl
@[simp] theorem modLaunch_agenda (s : State) (l : Nat) (f : Launch → Launch) : (modLaunch s l f).agenda = s.agenda := rfl
@[simp] theorem modLaunch_draws (s : State) (l : Nat) (f : Launch → Launch) : (modLaunch s l f).draws = s.draws := rfl
@[simp] theorem modLaunch_serial (s : State) (l : Nat) (f : Launch → Launch) : (modLaunch s l f).serial = s.serial := rfl

/-! A channel set. -/

@[simp] theorem setChannel_now (s : State) (ch : Nat) (c : Channel) : (setChannel s ch c).now = s.now := rfl
@[simp] theorem setChannel_mem (s : State) (ch : Nat) (c : Channel) : (setChannel s ch c).mem = s.mem := rfl
@[simp] theorem setChannel_lineKey (s : State) (ch : Nat) (c : Channel) : (setChannel s ch c).lineKey = s.lineKey := rfl
@[simp] theorem setChannel_cores (s : State) (ch : Nat) (c : Channel) : (setChannel s ch c).cores = s.cores := rfl
@[simp] theorem setChannel_tcs (s : State) (ch : Nat) (c : Channel) : (setChannel s ch c).tcs = s.tcs := rfl
@[simp] theorem setChannel_dies (s : State) (ch : Nat) (c : Channel) : (setChannel s ch c).dies = s.dies := rfl
@[simp] theorem setChannel_teams (s : State) (ch : Nat) (c : Channel) : (setChannel s ch c).teams = s.teams := rfl
@[simp] theorem setChannel_clusters (s : State) (ch : Nat) (c : Channel) : (setChannel s ch c).clusters = s.clusters := rfl
@[simp] theorem setChannel_launches (s : State) (ch : Nat) (c : Channel) : (setChannel s ch c).launches = s.launches := rfl
@[simp] theorem setChannel_queues (s : State) (ch : Nat) (c : Channel) : (setChannel s ch c).queues = s.queues := rfl
@[simp] theorem setChannel_lastLseq (s : State) (ch : Nat) (c : Channel) : (setChannel s ch c).lastLseq = s.lastLseq := rfl
@[simp] theorem setChannel_retake (s : State) (ch : Nat) (c : Channel) : (setChannel s ch c).retake = s.retake := rfl
@[simp] theorem setChannel_keys (s : State) (ch : Nat) (c : Channel) : (setChannel s ch c).keys = s.keys := rfl
@[simp] theorem setChannel_tgid (s : State) (ch : Nat) (c : Channel) : (setChannel s ch c).tgid = s.tgid := rfl
@[simp] theorem setChannel_psb (s : State) (ch : Nat) (c : Channel) : (setChannel s ch c).psb = s.psb := rfl
@[simp] theorem setChannel_wdt (s : State) (ch : Nat) (c : Channel) : (setChannel s ch c).wdt = s.wdt := rfl
@[simp] theorem setChannel_mirk (s : State) (ch : Nat) (c : Channel) : (setChannel s ch c).mirk = s.mirk := rfl
@[simp] theorem setChannel_chkey (s : State) (ch : Nat) (c : Channel) : (setChannel s ch c).chkey = s.chkey := rfl
@[simp] theorem setChannel_members (s : State) (ch : Nat) (c : Channel) : (setChannel s ch c).members = s.members := rfl
@[simp] theorem setChannel_collCap (s : State) (ch : Nat) (c : Channel) : (setChannel s ch c).collCap = s.collCap := rfl
@[simp] theorem setChannel_raiseAt (s : State) (ch : Nat) (c : Channel) : (setChannel s ch c).raiseAt = s.raiseAt := rfl
@[simp] theorem setChannel_links (s : State) (ch : Nat) (c : Channel) : (setChannel s ch c).links = s.links := rfl
@[simp] theorem setChannel_linkSince (s : State) (ch : Nat) (c : Channel) : (setChannel s ch c).linkSince = s.linkSince := rfl
@[simp] theorem setChannel_bridges (s : State) (ch : Nat) (c : Channel) : (setChannel s ch c).bridges = s.bridges := rfl
@[simp] theorem setChannel_recovering (s : State) (ch : Nat) (c : Channel) : (setChannel s ch c).recovering = s.recovering := rfl
@[simp] theorem setChannel_packets (s : State) (ch : Nat) (c : Channel) : (setChannel s ch c).packets = s.packets := rfl
@[simp] theorem setChannel_b2pos (s : State) (ch : Nat) (c : Channel) : (setChannel s ch c).b2pos = s.b2pos := rfl
@[simp] theorem setChannel_job (s : State) (ch : Nat) (c : Channel) : (setChannel s ch c).job = s.job := rfl
@[simp] theorem setChannel_colls (s : State) (ch : Nat) (c : Channel) : (setChannel s ch c).colls = s.colls := rfl
@[simp] theorem setChannel_boot (s : State) (ch : Nat) (c : Channel) : (setChannel s ch c).boot = s.boot := rfl
@[simp] theorem setChannel_pool (s : State) (ch : Nat) (c : Channel) : (setChannel s ch c).pool = s.pool := rfl
@[simp] theorem setChannel_primary (s : State) (ch : Nat) (c : Channel) : (setChannel s ch c).primary = s.primary := rfl
@[simp] theorem setChannel_stopped (s : State) (ch : Nat) (c : Channel) : (setChannel s ch c).stopped = s.stopped := rfl
@[simp] theorem setChannel_cur (s : State) (ch : Nat) (c : Channel) : (setChannel s ch c).cur = s.cur := rfl
@[simp] theorem setChannel_agenda (s : State) (ch : Nat) (c : Channel) : (setChannel s ch c).agenda = s.agenda := rfl
@[simp] theorem setChannel_draws (s : State) (ch : Nat) (c : Channel) : (setChannel s ch c).draws = s.draws := rfl
@[simp] theorem setChannel_serial (s : State) (ch : Nat) (c : Channel) : (setChannel s ch c).serial = s.serial := rfl

/-! A group of a core set. -/

@[simp] theorem setGroup_saved (c : Core) (slot : Nat) (g : Group) : (setGroup c slot g).saved = c.saved := rfl
@[simp] theorem setGroup_shadow (c : Core) (slot : Nat) (g : Group) : (setGroup c slot g).shadow = c.shadow := rfl
@[simp] theorem setGroup_exch (c : Core) (slot : Nat) (g : Group) : (setGroup c slot g).exch = c.exch := rfl
@[simp] theorem setGroup_loads (c : Core) (slot : Nat) (g : Group) : (setGroup c slot g).loads = c.loads := rfl
@[simp] theorem setGroup_writes (c : Core) (slot : Nat) (g : Group) : (setGroup c slot g).writes = c.writes := rfl
@[simp] theorem setGroup_releases (c : Core) (slot : Nat) (g : Group) : (setGroup c slot g).releases = c.releases := rfl
@[simp] theorem setGroup_hist (c : Core) (slot : Nat) (g : Group) : (setGroup c slot g).hist = c.hist := rfl
@[simp] theorem setGroup_late (c : Core) (slot : Nat) (g : Group) : (setGroup c slot g).late = c.late := rfl
@[simp] theorem setGroup_tlb (c : Core) (slot : Nat) (g : Group) : (setGroup c slot g).tlb = c.tlb := rfl
@[simp] theorem setGroup_walks (c : Core) (slot : Nat) (g : Group) : (setGroup c slot g).walks = c.walks := rfl
@[simp] theorem setGroup_copies (c : Core) (slot : Nat) (g : Group) : (setGroup c slot g).copies = c.copies := rfl
@[simp] theorem setGroup_pend (c : Core) (slot : Nat) (g : Group) : (setGroup c slot g).pend = c.pend := rfl
@[simp] theorem setGroup_chk (c : Core) (slot : Nat) (g : Group) : (setGroup c slot g).chk = c.chk := rfl
@[simp] theorem setGroup_sp (c : Core) (slot : Nat) (g : Group) : (setGroup c slot g).sp = c.sp := rfl
@[simp] theorem setGroup_win (c : Core) (slot : Nat) (g : Group) : (setGroup c slot g).win = c.win := rfl
@[simp] theorem setGroup_quiet (c : Core) (slot : Nat) (g : Group) : (setGroup c slot g).quiet = c.quiet := rfl
@[simp] theorem setGroup_winAt (c : Core) (slot : Nat) (g : Group) : (setGroup c slot g).winAt = c.winAt := rfl
@[simp] theorem setGroup_live (c : Core) (slot : Nat) (g : Group) : (setGroup c slot g).live = c.live := rfl
@[simp] theorem setGroup_compacting (c : Core) (slot : Nat) (g : Group) : (setGroup c slot g).compacting = c.compacting := rfl
@[simp] theorem setGroup_packetAt (c : Core) (slot : Nat) (g : Group) : (setGroup c slot g).packetAt = c.packetAt := rfl
@[simp] theorem setGroup_next (c : Core) (slot : Nat) (g : Group) : (setGroup c slot g).next = c.next := rfl

/-! A group of a core changed. -/

@[simp] theorem modGroup_saved (c : Core) (slot : Nat) (f : Group → Group) : (modGroup c slot f).saved = c.saved := rfl
@[simp] theorem modGroup_shadow (c : Core) (slot : Nat) (f : Group → Group) : (modGroup c slot f).shadow = c.shadow := rfl
@[simp] theorem modGroup_exch (c : Core) (slot : Nat) (f : Group → Group) : (modGroup c slot f).exch = c.exch := rfl
@[simp] theorem modGroup_loads (c : Core) (slot : Nat) (f : Group → Group) : (modGroup c slot f).loads = c.loads := rfl
@[simp] theorem modGroup_writes (c : Core) (slot : Nat) (f : Group → Group) : (modGroup c slot f).writes = c.writes := rfl
@[simp] theorem modGroup_releases (c : Core) (slot : Nat) (f : Group → Group) : (modGroup c slot f).releases = c.releases := rfl
@[simp] theorem modGroup_hist (c : Core) (slot : Nat) (f : Group → Group) : (modGroup c slot f).hist = c.hist := rfl
@[simp] theorem modGroup_late (c : Core) (slot : Nat) (f : Group → Group) : (modGroup c slot f).late = c.late := rfl
@[simp] theorem modGroup_tlb (c : Core) (slot : Nat) (f : Group → Group) : (modGroup c slot f).tlb = c.tlb := rfl
@[simp] theorem modGroup_walks (c : Core) (slot : Nat) (f : Group → Group) : (modGroup c slot f).walks = c.walks := rfl
@[simp] theorem modGroup_copies (c : Core) (slot : Nat) (f : Group → Group) : (modGroup c slot f).copies = c.copies := rfl
@[simp] theorem modGroup_pend (c : Core) (slot : Nat) (f : Group → Group) : (modGroup c slot f).pend = c.pend := rfl
@[simp] theorem modGroup_chk (c : Core) (slot : Nat) (f : Group → Group) : (modGroup c slot f).chk = c.chk := rfl
@[simp] theorem modGroup_sp (c : Core) (slot : Nat) (f : Group → Group) : (modGroup c slot f).sp = c.sp := rfl
@[simp] theorem modGroup_win (c : Core) (slot : Nat) (f : Group → Group) : (modGroup c slot f).win = c.win := rfl
@[simp] theorem modGroup_quiet (c : Core) (slot : Nat) (f : Group → Group) : (modGroup c slot f).quiet = c.quiet := rfl
@[simp] theorem modGroup_winAt (c : Core) (slot : Nat) (f : Group → Group) : (modGroup c slot f).winAt = c.winAt := rfl
@[simp] theorem modGroup_live (c : Core) (slot : Nat) (f : Group → Group) : (modGroup c slot f).live = c.live := rfl
@[simp] theorem modGroup_compacting (c : Core) (slot : Nat) (f : Group → Group) : (modGroup c slot f).compacting = c.compacting := rfl
@[simp] theorem modGroup_packetAt (c : Core) (slot : Nat) (f : Group → Group) : (modGroup c slot f).packetAt = c.packetAt := rfl
@[simp] theorem modGroup_next (c : Core) (slot : Nat) (f : Group → Group) : (modGroup c slot f).next = c.next := rfl

/-! A bundle of a core set. -/

@[simp] theorem setBundle_saved (c : Core) (bid : Nat) (b : Bundle) : (setBundle c bid b).saved = c.saved := rfl
@[simp] theorem setBundle_shadow (c : Core) (bid : Nat) (b : Bundle) : (setBundle c bid b).shadow = c.shadow := rfl
@[simp] theorem setBundle_exch (c : Core) (bid : Nat) (b : Bundle) : (setBundle c bid b).exch = c.exch := rfl
@[simp] theorem setBundle_loads (c : Core) (bid : Nat) (b : Bundle) : (setBundle c bid b).loads = c.loads := rfl
@[simp] theorem setBundle_writes (c : Core) (bid : Nat) (b : Bundle) : (setBundle c bid b).writes = c.writes := rfl
@[simp] theorem setBundle_releases (c : Core) (bid : Nat) (b : Bundle) : (setBundle c bid b).releases = c.releases := rfl
@[simp] theorem setBundle_hist (c : Core) (bid : Nat) (b : Bundle) : (setBundle c bid b).hist = c.hist := rfl
@[simp] theorem setBundle_late (c : Core) (bid : Nat) (b : Bundle) : (setBundle c bid b).late = c.late := rfl
@[simp] theorem setBundle_tlb (c : Core) (bid : Nat) (b : Bundle) : (setBundle c bid b).tlb = c.tlb := rfl
@[simp] theorem setBundle_walks (c : Core) (bid : Nat) (b : Bundle) : (setBundle c bid b).walks = c.walks := rfl
@[simp] theorem setBundle_copies (c : Core) (bid : Nat) (b : Bundle) : (setBundle c bid b).copies = c.copies := rfl
@[simp] theorem setBundle_pend (c : Core) (bid : Nat) (b : Bundle) : (setBundle c bid b).pend = c.pend := rfl
@[simp] theorem setBundle_chk (c : Core) (bid : Nat) (b : Bundle) : (setBundle c bid b).chk = c.chk := rfl
@[simp] theorem setBundle_sp (c : Core) (bid : Nat) (b : Bundle) : (setBundle c bid b).sp = c.sp := rfl
@[simp] theorem setBundle_win (c : Core) (bid : Nat) (b : Bundle) : (setBundle c bid b).win = c.win := rfl
@[simp] theorem setBundle_quiet (c : Core) (bid : Nat) (b : Bundle) : (setBundle c bid b).quiet = c.quiet := rfl
@[simp] theorem setBundle_winAt (c : Core) (bid : Nat) (b : Bundle) : (setBundle c bid b).winAt = c.winAt := rfl
@[simp] theorem setBundle_live (c : Core) (bid : Nat) (b : Bundle) : (setBundle c bid b).live = c.live := rfl
@[simp] theorem setBundle_compacting (c : Core) (bid : Nat) (b : Bundle) : (setBundle c bid b).compacting = c.compacting := rfl
@[simp] theorem setBundle_packetAt (c : Core) (bid : Nat) (b : Bundle) : (setBundle c bid b).packetAt = c.packetAt := rfl
@[simp] theorem setBundle_next (c : Core) (bid : Nat) (b : Bundle) : (setBundle c bid b).next = c.next := rfl

/-! A bundle of a core removed. -/

@[simp] theorem delBundle_saved (c : Core) (bid : Nat) : (delBundle c bid).saved = c.saved := rfl
@[simp] theorem delBundle_shadow (c : Core) (bid : Nat) : (delBundle c bid).shadow = c.shadow := rfl
@[simp] theorem delBundle_exch (c : Core) (bid : Nat) : (delBundle c bid).exch = c.exch := rfl
@[simp] theorem delBundle_loads (c : Core) (bid : Nat) : (delBundle c bid).loads = c.loads := rfl
@[simp] theorem delBundle_writes (c : Core) (bid : Nat) : (delBundle c bid).writes = c.writes := rfl
@[simp] theorem delBundle_releases (c : Core) (bid : Nat) : (delBundle c bid).releases = c.releases := rfl
@[simp] theorem delBundle_hist (c : Core) (bid : Nat) : (delBundle c bid).hist = c.hist := rfl
@[simp] theorem delBundle_late (c : Core) (bid : Nat) : (delBundle c bid).late = c.late := rfl
@[simp] theorem delBundle_tlb (c : Core) (bid : Nat) : (delBundle c bid).tlb = c.tlb := rfl
@[simp] theorem delBundle_walks (c : Core) (bid : Nat) : (delBundle c bid).walks = c.walks := rfl
@[simp] theorem delBundle_copies (c : Core) (bid : Nat) : (delBundle c bid).copies = c.copies := rfl
@[simp] theorem delBundle_pend (c : Core) (bid : Nat) : (delBundle c bid).pend = c.pend := rfl
@[simp] theorem delBundle_chk (c : Core) (bid : Nat) : (delBundle c bid).chk = c.chk := rfl
@[simp] theorem delBundle_sp (c : Core) (bid : Nat) : (delBundle c bid).sp = c.sp := rfl
@[simp] theorem delBundle_win (c : Core) (bid : Nat) : (delBundle c bid).win = c.win := rfl
@[simp] theorem delBundle_quiet (c : Core) (bid : Nat) : (delBundle c bid).quiet = c.quiet := rfl
@[simp] theorem delBundle_winAt (c : Core) (bid : Nat) : (delBundle c bid).winAt = c.winAt := rfl
@[simp] theorem delBundle_live (c : Core) (bid : Nat) : (delBundle c bid).live = c.live := rfl
@[simp] theorem delBundle_compacting (c : Core) (bid : Nat) : (delBundle c bid).compacting = c.compacting := rfl
@[simp] theorem delBundle_packetAt (c : Core) (bid : Nat) : (delBundle c bid).packetAt = c.packetAt := rfl
@[simp] theorem delBundle_next (c : Core) (bid : Nat) : (delBundle c bid).next = c.next := rfl

/-! A thread of a group changed. -/

@[simp] theorem modThread_uid (g : Group) (i : Nat) (f : Thread → Thread) : (modThread g i f).uid = g.uid := rfl
@[simp] theorem modThread_lseq (g : Group) (i : Nat) (f : Thread → Thread) : (modThread g i f).lseq = g.lseq := rfl
@[simp] theorem modThread_team (g : Group) (i : Nat) (f : Thread → Thread) : (modThread g i f).team = g.team := rfl
@[simp] theorem modThread_gnum (g : Group) (i : Nat) (f : Thread → Thread) : (modThread g i f).gnum = g.gnum := rfl
@[simp] theorem modThread_s (g : Group) (i : Nat) (f : Thread → Thread) : (modThread g i f).s = g.s := rfl
@[simp] theorem modThread_jm (g : Group) (i : Nat) (f : Thread → Thread) : (modThread g i f).jm = g.jm := rfl
@[simp] theorem modThread_ja (g : Group) (i : Nat) (f : Thread → Thread) : (modThread g i f).ja = g.ja := rfl
@[simp] theorem modThread_frontier (g : Group) (i : Nat) (f : Thread → Thread) : (modThread g i f).frontier = g.frontier := rfl
@[simp] theorem modThread_spilled (g : Group) (i : Nat) (f : Thread → Thread) : (modThread g i f).spilled = g.spilled := rfl
@[simp] theorem modThread_subs (g : Group) (i : Nat) (f : Thread → Thread) : (modThread g i f).subs = g.subs := rfl
@[simp] theorem modThread_nextSub (g : Group) (i : Nat) (f : Thread → Thread) : (modThread g i f).nextSub = g.nextSub := rfl
@[simp] theorem modThread_win (g : Group) (i : Nat) (f : Thread → Thread) : (modThread g i f).win = g.win := rfl
@[simp] theorem modThread_base (g : Group) (i : Nat) (f : Thread → Thread) : (modThread g i f).base = g.base := rfl
@[simp] theorem modThread_lvs (g : Group) (i : Nat) (f : Thread → Thread) : (modThread g i f).lvs = g.lvs := rfl
@[simp] theorem modThread_ops (g : Group) (i : Nat) (f : Thread → Thread) : (modThread g i f).ops = g.ops := rfl
@[simp] theorem modThread_streak (g : Group) (i : Nat) (f : Thread → Thread) : (modThread g i f).streak = g.streak := rfl
@[simp] theorem modThread_spinPc (g : Group) (i : Nat) (f : Thread → Thread) : (modThread g i f).spinPc = g.spinPc := rfl
@[simp] theorem modThread_spinDisp (g : Group) (i : Nat) (f : Thread → Thread) : (modThread g i f).spinDisp = g.spinDisp := rfl
@[simp] theorem modThread_demoted (g : Group) (i : Nat) (f : Thread → Thread) : (modThread g i f).demoted = g.demoted := rfl
@[simp] theorem modThread_dog (g : Group) (i : Nat) (f : Thread → Thread) : (modThread g i f).dog = g.dog := rfl
@[simp] theorem modThread_dogOff (g : Group) (i : Nat) (f : Thread → Thread) : (modThread g i f).dogOff = g.dogOff := rfl
@[simp] theorem modThread_dogStop (g : Group) (i : Nat) (f : Thread → Thread) : (modThread g i f).dogStop = g.dogStop := rfl
@[simp] theorem modThread_bitten (g : Group) (i : Nat) (f : Thread → Thread) : (modThread g i f).bitten = g.bitten := rfl
@[simp] theorem modThread_swap (g : Group) (i : Nat) (f : Thread → Thread) : (modThread g i f).swap = g.swap := rfl
@[simp] theorem modThread_faults (g : Group) (i : Nat) (f : Thread → Thread) : (modThread g i f).faults = g.faults := rfl
@[simp] theorem modThread_moving (g : Group) (i : Nat) (f : Thread → Thread) : (modThread g i f).moving = g.moving := rfl
@[simp] theorem modThread_argsLeft (g : Group) (i : Nat) (f : Thread → Thread) : (modThread g i f).argsLeft = g.argsLeft := rfl
@[simp] theorem modThread_argFailed (g : Group) (i : Nat) (f : Thread → Thread) : (modThread g i f).argFailed = g.argFailed := rfl
@[simp] theorem modThread_tiles (g : Group) (i : Nat) (f : Thread → Thread) : (modThread g i f).tiles = g.tiles := rfl

/-! Every thread of a group changed. -/

@[simp] theorem mapThreads_uid (g : Group) (f : Nat → Thread → Thread) : (mapThreads g f).uid = g.uid := rfl
@[simp] theorem mapThreads_lseq (g : Group) (f : Nat → Thread → Thread) : (mapThreads g f).lseq = g.lseq := rfl
@[simp] theorem mapThreads_team (g : Group) (f : Nat → Thread → Thread) : (mapThreads g f).team = g.team := rfl
@[simp] theorem mapThreads_gnum (g : Group) (f : Nat → Thread → Thread) : (mapThreads g f).gnum = g.gnum := rfl
@[simp] theorem mapThreads_s (g : Group) (f : Nat → Thread → Thread) : (mapThreads g f).s = g.s := rfl
@[simp] theorem mapThreads_jm (g : Group) (f : Nat → Thread → Thread) : (mapThreads g f).jm = g.jm := rfl
@[simp] theorem mapThreads_ja (g : Group) (f : Nat → Thread → Thread) : (mapThreads g f).ja = g.ja := rfl
@[simp] theorem mapThreads_frontier (g : Group) (f : Nat → Thread → Thread) : (mapThreads g f).frontier = g.frontier := rfl
@[simp] theorem mapThreads_spilled (g : Group) (f : Nat → Thread → Thread) : (mapThreads g f).spilled = g.spilled := rfl
@[simp] theorem mapThreads_subs (g : Group) (f : Nat → Thread → Thread) : (mapThreads g f).subs = g.subs := rfl
@[simp] theorem mapThreads_nextSub (g : Group) (f : Nat → Thread → Thread) : (mapThreads g f).nextSub = g.nextSub := rfl
@[simp] theorem mapThreads_win (g : Group) (f : Nat → Thread → Thread) : (mapThreads g f).win = g.win := rfl
@[simp] theorem mapThreads_base (g : Group) (f : Nat → Thread → Thread) : (mapThreads g f).base = g.base := rfl
@[simp] theorem mapThreads_lvs (g : Group) (f : Nat → Thread → Thread) : (mapThreads g f).lvs = g.lvs := rfl
@[simp] theorem mapThreads_ops (g : Group) (f : Nat → Thread → Thread) : (mapThreads g f).ops = g.ops := rfl
@[simp] theorem mapThreads_streak (g : Group) (f : Nat → Thread → Thread) : (mapThreads g f).streak = g.streak := rfl
@[simp] theorem mapThreads_spinPc (g : Group) (f : Nat → Thread → Thread) : (mapThreads g f).spinPc = g.spinPc := rfl
@[simp] theorem mapThreads_spinDisp (g : Group) (f : Nat → Thread → Thread) : (mapThreads g f).spinDisp = g.spinDisp := rfl
@[simp] theorem mapThreads_demoted (g : Group) (f : Nat → Thread → Thread) : (mapThreads g f).demoted = g.demoted := rfl
@[simp] theorem mapThreads_dog (g : Group) (f : Nat → Thread → Thread) : (mapThreads g f).dog = g.dog := rfl
@[simp] theorem mapThreads_dogOff (g : Group) (f : Nat → Thread → Thread) : (mapThreads g f).dogOff = g.dogOff := rfl
@[simp] theorem mapThreads_dogStop (g : Group) (f : Nat → Thread → Thread) : (mapThreads g f).dogStop = g.dogStop := rfl
@[simp] theorem mapThreads_bitten (g : Group) (f : Nat → Thread → Thread) : (mapThreads g f).bitten = g.bitten := rfl
@[simp] theorem mapThreads_swap (g : Group) (f : Nat → Thread → Thread) : (mapThreads g f).swap = g.swap := rfl
@[simp] theorem mapThreads_faults (g : Group) (f : Nat → Thread → Thread) : (mapThreads g f).faults = g.faults := rfl
@[simp] theorem mapThreads_moving (g : Group) (f : Nat → Thread → Thread) : (mapThreads g f).moving = g.moving := rfl
@[simp] theorem mapThreads_argsLeft (g : Group) (f : Nat → Thread → Thread) : (mapThreads g f).argsLeft = g.argsLeft := rfl
@[simp] theorem mapThreads_argFailed (g : Group) (f : Nat → Thread → Thread) : (mapThreads g f).argFailed = g.argFailed := rfl
@[simp] theorem mapThreads_tiles (g : Group) (f : Nat → Thread → Thread) : (mapThreads g f).tiles = g.tiles := rfl

/-! A thread register written. -/

@[simp] theorem setV_p (t : Thread) (d : Nat) (x : Word) (q : Bool) : (setV t d x q).p = t.p := rfl
@[simp] theorem setV_loops (t : Thread) (d : Nat) (x : Word) (q : Bool) : (setV t d x q).loops = t.loops := rfl
@[simp] theorem setV_lnk (t : Thread) (d : Nat) (x : Word) (q : Bool) : (setV t d x q).lnk = t.lnk := rfl
@[simp] theorem setV_rpc (t : Thread) (d : Nat) (x : Word) (q : Bool) : (setV t d x q).rpc = t.rpc := rfl
@[simp] theorem setV_rpv (t : Thread) (d : Nat) (x : Word) (q : Bool) : (setV t d x q).rpv = t.rpv := rfl
@[simp] theorem setV_snapLoops (t : Thread) (d : Nat) (x : Word) (q : Bool) : (setV t d x q).snapLoops = t.snapLoops := rfl
@[simp] theorem setV_snapLnk (t : Thread) (d : Nat) (x : Word) (q : Bool) : (setV t d x q).snapLnk = t.snapLnk := rfl
@[simp] theorem setV_cg (t : Thread) (d : Nat) (x : Word) (q : Bool) : (setV t d x q).cg = t.cg := rfl
@[simp] theorem setV_rf (t : Thread) (d : Nat) (x : Word) (q : Bool) : (setV t d x q).rf = t.rf := rfl
@[simp] theorem setV_rpl (t : Thread) (d : Nat) (x : Word) (q : Bool) : (setV t d x q).rpl = t.rpl := rfl
@[simp] theorem setV_flg (t : Thread) (d : Nat) (x : Word) (q : Bool) : (setV t d x q).flg = t.flg := rfl
@[simp] theorem setV_fpen (t : Thread) (d : Nat) (x : Word) (q : Bool) : (setV t d x q).fpen = t.fpen := rfl
@[simp] theorem setV_trap (t : Thread) (d : Nat) (x : Word) (q : Bool) : (setV t d x q).trap = t.trap := rfl
@[simp] theorem setV_saved (t : Thread) (d : Nat) (x : Word) (q : Bool) : (setV t d x q).saved = t.saved := rfl
@[simp] theorem setV_ringI (t : Thread) (d : Nat) (x : Word) (q : Bool) : (setV t d x q).ringI = t.ringI := rfl
@[simp] theorem setV_ringF (t : Thread) (d : Nat) (x : Word) (q : Bool) : (setV t d x q).ringF = t.ringF := rfl
@[simp] theorem setV_xfer (t : Thread) (d : Nat) (x : Word) (q : Bool) : (setV t d x q).xfer = t.xfer := rfl
@[simp] theorem setV_arrTm (t : Thread) (d : Nat) (x : Word) (q : Bool) : (setV t d x q).arrTm = t.arrTm := rfl
@[simp] theorem setV_arrCl (t : Thread) (d : Nat) (x : Word) (q : Bool) : (setV t d x q).arrCl = t.arrCl := rfl
@[simp] theorem setV_arrGd (t : Thread) (d : Nat) (x : Word) (q : Bool) : (setV t d x q).arrGd = t.arrGd := rfl
@[simp] theorem setV_sleep (t : Thread) (d : Nat) (x : Word) (q : Bool) : (setV t d x q).sleep = t.sleep := rfl
@[simp] theorem setV_posted (t : Thread) (d : Nat) (x : Word) (q : Bool) : (setV t d x q).posted = t.posted := rfl
@[simp] theorem setV_sig (t : Thread) (d : Nat) (x : Word) (q : Bool) : (setV t d x q).sig = t.sig := rfl
@[simp] theorem setV_sigCount (t : Thread) (d : Nat) (x : Word) (q : Bool) : (setV t d x q).sigCount = t.sigCount := rfl
@[simp] theorem setV_windows (t : Thread) (d : Nat) (x : Word) (q : Bool) : (setV t d x q).windows = t.windows := rfl
@[simp] theorem setV_compared (t : Thread) (d : Nat) (x : Word) (q : Bool) : (setV t d x q).compared = t.compared := rfl
@[simp] theorem setV_mates (t : Thread) (d : Nat) (x : Word) (q : Bool) : (setV t d x q).mates = t.mates := rfl
@[simp] theorem setV_acq (t : Thread) (d : Nat) (x : Word) (q : Bool) : (setV t d x q).acq = t.acq := rfl
@[simp] theorem setV_ended (t : Thread) (d : Nat) (x : Word) (q : Bool) : (setV t d x q).ended = t.ended := rfl
@[simp] theorem setV_stopped (t : Thread) (d : Nat) (x : Word) (q : Bool) : (setV t d x q).stopped = t.stopped := rfl

/-! The penumbra bits of a thread cleared. -/

@[simp] theorem clearPens_loops (t : Thread) : (clearPens t).loops = t.loops := rfl
@[simp] theorem clearPens_lnk (t : Thread) : (clearPens t).lnk = t.lnk := rfl
@[simp] theorem clearPens_rpc (t : Thread) : (clearPens t).rpc = t.rpc := rfl
@[simp] theorem clearPens_rpv (t : Thread) : (clearPens t).rpv = t.rpv := rfl
@[simp] theorem clearPens_snapLoops (t : Thread) : (clearPens t).snapLoops = t.snapLoops := rfl
@[simp] theorem clearPens_snapLnk (t : Thread) : (clearPens t).snapLnk = t.snapLnk := rfl
@[simp] theorem clearPens_cg (t : Thread) : (clearPens t).cg = t.cg := rfl
@[simp] theorem clearPens_rf (t : Thread) : (clearPens t).rf = t.rf := rfl
@[simp] theorem clearPens_rpl (t : Thread) : (clearPens t).rpl = t.rpl := rfl
@[simp] theorem clearPens_flg (t : Thread) : (clearPens t).flg = t.flg := rfl
@[simp] theorem clearPens_trap (t : Thread) : (clearPens t).trap = t.trap := rfl
@[simp] theorem clearPens_saved (t : Thread) : (clearPens t).saved = t.saved := rfl
@[simp] theorem clearPens_ringI (t : Thread) : (clearPens t).ringI = t.ringI := rfl
@[simp] theorem clearPens_ringF (t : Thread) : (clearPens t).ringF = t.ringF := rfl
@[simp] theorem clearPens_xfer (t : Thread) : (clearPens t).xfer = t.xfer := rfl
@[simp] theorem clearPens_arrTm (t : Thread) : (clearPens t).arrTm = t.arrTm := rfl
@[simp] theorem clearPens_arrCl (t : Thread) : (clearPens t).arrCl = t.arrCl := rfl
@[simp] theorem clearPens_arrGd (t : Thread) : (clearPens t).arrGd = t.arrGd := rfl
@[simp] theorem clearPens_sleep (t : Thread) : (clearPens t).sleep = t.sleep := rfl
@[simp] theorem clearPens_posted (t : Thread) : (clearPens t).posted = t.posted := rfl
@[simp] theorem clearPens_sig (t : Thread) : (clearPens t).sig = t.sig := rfl
@[simp] theorem clearPens_sigCount (t : Thread) : (clearPens t).sigCount = t.sigCount := rfl
@[simp] theorem clearPens_windows (t : Thread) : (clearPens t).windows = t.windows := rfl
@[simp] theorem clearPens_compared (t : Thread) : (clearPens t).compared = t.compared := rfl
@[simp] theorem clearPens_mates (t : Thread) : (clearPens t).mates = t.mates := rfl
@[simp] theorem clearPens_acq (t : Thread) : (clearPens t).acq = t.acq := rfl
@[simp] theorem clearPens_ended (t : Thread) : (clearPens t).ended = t.ended := rfl
@[simp] theorem clearPens_stopped (t : Thread) : (clearPens t).stopped = t.stopped := rfl

/-! The latches of a thread lost. -/

@[simp] theorem loseLatches_v (t : Thread) : (loseLatches t).v = t.v := rfl
@[simp] theorem loseLatches_p (t : Thread) : (loseLatches t).p = t.p := rfl
@[simp] theorem loseLatches_loops (t : Thread) : (loseLatches t).loops = t.loops := rfl
@[simp] theorem loseLatches_lnk (t : Thread) : (loseLatches t).lnk = t.lnk := rfl
@[simp] theorem loseLatches_rpc (t : Thread) : (loseLatches t).rpc = t.rpc := rfl
@[simp] theorem loseLatches_rpv (t : Thread) : (loseLatches t).rpv = t.rpv := rfl
@[simp] theorem loseLatches_snapLoops (t : Thread) : (loseLatches t).snapLoops = t.snapLoops := rfl
@[simp] theorem loseLatches_snapLnk (t : Thread) : (loseLatches t).snapLnk = t.snapLnk := rfl
@[simp] theorem loseLatches_cg (t : Thread) : (loseLatches t).cg = t.cg := rfl
@[simp] theorem loseLatches_rf (t : Thread) : (loseLatches t).rf = t.rf := rfl
@[simp] theorem loseLatches_rpl (t : Thread) : (loseLatches t).rpl = t.rpl := rfl
@[simp] theorem loseLatches_flg (t : Thread) : (loseLatches t).flg = t.flg := rfl
@[simp] theorem loseLatches_fpen (t : Thread) : (loseLatches t).fpen = t.fpen := rfl
@[simp] theorem loseLatches_trap (t : Thread) : (loseLatches t).trap = t.trap := rfl
@[simp] theorem loseLatches_saved (t : Thread) : (loseLatches t).saved = t.saved := rfl
@[simp] theorem loseLatches_xfer (t : Thread) : (loseLatches t).xfer = t.xfer := rfl
@[simp] theorem loseLatches_arrTm (t : Thread) : (loseLatches t).arrTm = t.arrTm := rfl
@[simp] theorem loseLatches_arrCl (t : Thread) : (loseLatches t).arrCl = t.arrCl := rfl
@[simp] theorem loseLatches_arrGd (t : Thread) : (loseLatches t).arrGd = t.arrGd := rfl
@[simp] theorem loseLatches_sleep (t : Thread) : (loseLatches t).sleep = t.sleep := rfl
@[simp] theorem loseLatches_posted (t : Thread) : (loseLatches t).posted = t.posted := rfl
@[simp] theorem loseLatches_sig (t : Thread) : (loseLatches t).sig = t.sig := rfl
@[simp] theorem loseLatches_sigCount (t : Thread) : (loseLatches t).sigCount = t.sigCount := rfl
@[simp] theorem loseLatches_windows (t : Thread) : (loseLatches t).windows = t.windows := rfl
@[simp] theorem loseLatches_compared (t : Thread) : (loseLatches t).compared = t.compared := rfl
@[simp] theorem loseLatches_mates (t : Thread) : (loseLatches t).mates = t.mates := rfl
@[simp] theorem loseLatches_acq (t : Thread) : (loseLatches t).acq = t.acq := rfl
@[simp] theorem loseLatches_ended (t : Thread) : (loseLatches t).ended = t.ended := rfl
@[simp] theorem loseLatches_stopped (t : Thread) : (loseLatches t).stopped = t.stopped := rfl

end Sys2Proof.Machine
end

