-- ==== Sys2Proof/Tests/Slice0.lean ====
section
/-! SUPPORT. Tests of one step on small states: words written from the spec's encodings, ill-formed words, one result or two for each family, and for every statement a state and operands that meet its hypotheses. -/

open Sys2Proof Sys2Proof.Machine

namespace Sys2Proof.Tests

set_option maxRecDepth 20000

/-- A thread whose registers v4, v6 and v2 hold 7, 3 and 1.5; every other register is 0. -/
def thread0 : Thread := { Thread.start with ringI := List.replicate 4 ⟨1, false⟩, ringF := List.replicate 4 ⟨0x3F800000, false⟩, v := [(2, ⟨0x3FC00000, false, false⟩), (4, ⟨7, false, false⟩), (6, ⟨3, false, false⟩)] }
/-- One group on core 0 with its threads as given. -/
def groupOf (t : Thread) : Group := { placedGroup with s := [(4, ⟨7, false⟩), (6, ⟨3, false⟩)], threads := List.replicate 32 t }
/-- A bundle of threads 0 and 2 at packet 0, which is sealed and holds nops after its first word. -/
def bundle0 : Bundle := { newBundle [⟨0, 5⟩] none 0 0 0 0xFFFF 0 with pkt := some ⟨0x5C000000, 0x5C000000, 0xDC000000⟩ }
/-- A machine with page 0 mapped for every access, one launch and its team. -/
def base : State :=
  let s := State.reset.withFetchWord 32 0x5C000000
  setCore s 0 { coreAt s 0 with tlb := [⟨0, 0, 16384, 0xDF⟩] }
def core0 : Core := coreAt base 0
/-- A machine in which one group lives in slot 0 of core 0, and its bundle runs on selector 0. -/
def machineIn (s : State) (c : Core) (g : Group) (b : Bundle) : State :=
  { setCore s 0 { c with ctx := { c.ctx with groups := [(0, g)], bundles := [(0, b)], run0 := some 0 }, saved := Ctx.empty, shadow := Ctx.empty } with cur := (0, 0) }
def machineOf (g : Group) (b : Bundle) : State := machineIn base core0 g b
def group0 : Group := groupOf thread0
def machine0 : State := machineOf group0 bundle0

theorem machineIn_core (s : State) (c : Core) (g : Group) (b : Bundle) : (machineIn s c g b).core =
    { c with ctx := { c.ctx with groups := [(0, g)], bundles := [(0, b)], run0 := some 0 }, saved := Ctx.empty, shadow := Ctx.empty } :=
  coreAt_modCore_same s 0 fun _ => { c with ctx := { c.ctx with groups := [(0, g)], bundles := [(0, b)], run0 := some 0 }, saved := Ctx.empty, shadow := Ctx.empty }

/-- Ready, for a machine of one group. -/
theorem ready_of (s : State) (c : Core) (g : Group) (b : Bundle) (h1 : b.issued = false) (h2 : b.parts = [⟨0, 5⟩]) (h3 : b.held = []) (h4 : b.pipes = [])
    (h5 : b.dsts = []) (h6 : b.wide = false) (h7 : g.threads.length = 32) (h8 : b.trapped = []) (h9 : b.segs = []) (h10 : b.post = []) (h11 : b.kept = false) : Ready (machineIn s c g b) 0 0 b g 5 := by
  have hc := machineIn_core s c g b
  constructor
  · rfl
  · show (match runOf (machineIn s c g b).core 0 with
      | none => none
      | some bid => (bundleAt (machineIn s c g b).core bid).map fun b => (bid, b)) = _
    rw [hc]; rfl
  · exact h1
  · exact h2
  · exact h3
  · exact h9
  · exact h10
  · exact h11
  · exact h4
  · exact h5
  · exact h6
  · exact h8
  · decide
  · rw [hc]; rfl
  · exact h7
  · rw [hc]; exact List.pairwise_singleton _ _
  · rw [hc]; intro x hx _
    cases hx with
    | head => rfl
    | tail _ h => cases h
  · rw [hc]; intro x hx; cases hx

/-- Issuable and Readable as a computation. -/
def meets (s : State) (b : Bundle) (g : Group) (i : Instr) : Bool :=
  let sh := shape i
  !sh.c && sh.legal g.win (hdrOf s g.lseq).sregs && (!sh.term || termOk b sh.len) && (waitsFor sh (viewAt s b 0 g 5)).isEmpty &&
  (sh.u || (members 5).all fun j => !(sh.srcs.any (srcLost (threadAt g j) sh.pipe)) && !(deadTraps g && sh.srcs.any (srcDead (threadAt g j))))

theorem meets_spec {s : State} {b : Bundle} {g : Group} {i : Instr} (h : meets s b g i = true) : Issuable i s b 0 g 5 ∧ Readable i g 5 := by
  simp only [meets, Bool.and_eq_true, Bool.or_eq_true, Bool.not_eq_true', List.isEmpty_iff, List.all_eq_true] at h
  obtain ⟨⟨⟨⟨h1, h2⟩, h3⟩, h4⟩, h5⟩ := h
  refine ⟨⟨h1, h2, fun ht => ?_, h4⟩, fun hu j hj => ?_⟩
  · rcases h3 with h3 | h3
    · rw [ht] at h3; cases h3
    · exact h3
  · rcases h5 with h5 | h5
    · rw [hu] at h5; cases h5
    · exact h5 j hj

/-- A word and what it sees: the hypotheses that all statements about words share. -/
def MeetsIn (s : State) (c : Core) (g : Group) (b : Bundle) (i : Instr) : Prop :=
  Ready (machineIn s c g b) 0 0 b g 5 ∧ Issuable i (machineIn s c g b) b 0 g 5 ∧ Readable i g 5
/-- The same in the plain machine, with a thread's state and bundle0. -/
def Meets (t : Thread) (i : Instr) : Prop := MeetsIn base core0 (groupOf t) bundle0 i

theorem all_meet {is : List Instr} (h : is.all (meets machine0 bundle0 group0) = true) : ∀ i ∈ is, Meets thread0 i :=
  fun i hi => ⟨ready_of base core0 group0 bundle0 rfl rfl rfl rfl rfl rfl rfl rfl rfl rfl rfl, meets_spec (List.all_eq_true.mp h i hi)⟩
theorem meets_of (s : State) (c : Core) (t : Thread) (i : Instr) (h : meets (machineIn s c (groupOf t) bundle0) bundle0 (groupOf t) i = true) :
    MeetsIn s c (groupOf t) bundle0 i :=
  ⟨ready_of s c _ bundle0 rfl rfl rfl rfl rfl rfl rfl rfl rfl rfl rfl, meets_spec h⟩

/-- Major 1: words written from the encodings, with distinct operands. -/
theorem test_decode_major_1 : List.map (decodeAt 0)
    [[0x040C0821], [0x040C0823], [0x040C0825], [0x040C0827], [0x040C0829], [0x040C082B], [0x040C082D], [0x040C082F]]
    = List.map (fun i => some (i, 1))
    [.iaddI32 ⟨false, false, 3, 1, 2, true, none⟩,
     .isubI32 ⟨false, false, 3, 1, 2, true, none⟩,
     .imulI32 ⟨false, false, 3, 1, 2, true, none⟩,
     .imulhI32 ⟨false, false, 3, 1, 2, true, none⟩,
     .imulhN32 ⟨false, false, 3, 1, 2, true, none⟩,
     .iabsdI32 ⟨false, false, 3, 1, 2, true, none⟩,
     .iaddsI32 ⟨false, false, 3, 1, 2, true, none⟩,
     .isubsI32 ⟨false, false, 3, 1, 2, true, none⟩] := by decide

/-- Major 2: words written from the encodings, with distinct operands. -/
theorem test_decode_major_2 : List.map (decodeAt 0)
    [[0x080C0821], [0x080C0823], [0x080C0825], [0x080C0827], [0x080C0FC9], [0x080C0FCB], [0x080C082D], [0x080C082F]]
    = List.map (fun i => some (i, 1))
    [.iminI32 ⟨false, false, 3, 1, 2, true, none⟩,
     .iminN32 ⟨false, false, 3, 1, 2, true, none⟩,
     .imaxI32 ⟨false, false, 3, 1, 2, true, none⟩,
     .imaxN32 ⟨false, false, 3, 1, 2, true, none⟩,
     .iabsI32 ⟨false, false, 3, 1, true, none⟩,
     .inegI32 ⟨false, false, 3, 1, true, none⟩,
     .iaddsN32 ⟨false, false, 3, 1, 2, true, none⟩,
     .isubsN32 ⟨false, false, 3, 1, 2, true, none⟩] := by decide

/-- Major 3: words written from the encodings, with distinct operands. -/
theorem test_decode_major_3 : List.map (decodeAt 0)
    [[0x0C0C0821], [0x0C0C0823], [0x0C0C0825], [0x0C0C0827], [0x0C0C0829], [0x0C0C082B], [0x0C0C0FCD], [0x0C0C0FCF]]
    = List.map (fun i => some (i, 1))
    [.andB32 ⟨false, false, 3, 1, 2, true, none⟩,
     .orB32 ⟨false, false, 3, 1, 2, true, none⟩,
     .xorB32 ⟨false, false, 3, 1, 2, true, none⟩,
     .andnB32 ⟨false, false, 3, 1, 2, true, none⟩,
     .ornB32 ⟨false, false, 3, 1, 2, true, none⟩,
     .xnorB32 ⟨false, false, 3, 1, 2, true, none⟩,
     .notB32 ⟨false, false, 3, 1, true, none⟩,
     .movB32 ⟨false, false, 3, 1, true, none⟩] := by decide

/-- Major 4: words written from the encodings, with distinct operands. -/
theorem test_decode_major_4 : List.map (decodeAt 0)
    [[0x100C0821], [0x100C0823], [0x100C0825], [0x100C0827], [0x100C0FC9], [0x100C0FCB], [0x100C0FCD], [0x100C0FCF]]
    = List.map (fun i => some (i, 1))
    [.shlB32 ⟨false, false, 3, 1, 2, true, none⟩,
     .shrN32 ⟨false, false, 3, 1, 2, true, none⟩,
     .shrI32 ⟨false, false, 3, 1, 2, true, none⟩,
     .rolB32 ⟨false, false, 3, 1, 2, true, none⟩,
     .popcB32 ⟨false, false, 3, 1, true, none⟩,
     .clzB32 ⟨false, false, 3, 1, true, none⟩,
     .brevB32 ⟨false, false, 3, 1, true, none⟩,
     .ffsB32 ⟨false, false, 3, 1, true, none⟩] := by decide

/-- Major 5: words written from the encodings, with distinct operands. -/
theorem test_decode_major_5 : List.map (decodeAt 0)
    [[0x140C0821], [0x140C0823], [0x140C0825], [0x140C0827], [0x140C0829], [0x140C082B], [0x140C082D], [0x140C082F]]
    = List.map (fun i => some (i, 1))
    [.iaddI64 ⟨false, false, 3, 1, 2, true, none⟩,
     .isubI64 ⟨false, false, 3, 1, 2, true, none⟩,
     .imulI64 ⟨false, false, 3, 1, 2, true, none⟩,
     .shlB64 ⟨false, false, 3, 1, 2, true, none⟩,
     .shrN64 ⟨false, false, 3, 1, 2, true, none⟩,
     .shrI64 ⟨false, false, 3, 1, 2, true, none⟩,
     .imulwI32 ⟨false, false, 3, 1, 2, true, none⟩,
     .imulwN32 ⟨false, false, 3, 1, 2, true, none⟩] := by decide

/-- Major 6: words written from the encodings, with distinct operands. -/
theorem test_decode_major_6 : List.map (decodeAt 0)
    [[0x180C0821], [0x180C0823], [0x180C0825], [0x180C0FC7], [0x180C0FC9], [0x180C0FCB], [0x180C082D], [0x180C082F]]
    = List.map (fun i => some (i, 1))
    [.bfeN32 ⟨false, false, 3, 1, 2, true, none⟩,
     .bfeI32 ⟨false, false, 3, 1, 2, true, none⟩,
     .bfiB32 ⟨false, false, 3, 1, 2, true, none⟩,
     .bswapB32 ⟨false, false, 3, 1, true, none⟩,
     .extI8 ⟨false, false, 3, 1, true, none⟩,
     .extI16 ⟨false, false, 3, 1, true, none⟩,
     .imadI32 ⟨false, false, 3, 1, 2, true, none⟩,
     .packB16 ⟨false, false, 3, 1, 2, true, none⟩] := by decide

/-- Major 7: words written from the encodings, with distinct operands. -/
theorem test_decode_major_7 : List.map (decodeAt 0)
    [[0x1C0C0823], [0x1C0C082B]]
    = List.map (fun i => some (i, 1))
    [.leaB32 ⟨false, false, 3, 1, 2, 1, true, none⟩,
     .leaI64 ⟨false, false, 3, 1, 2, 1, true, none⟩] := by decide

/-- Major 8: words written from the encodings, with distinct operands. -/
theorem test_decode_major_8 : List.map (decodeAt 0)
    [[0x200C0809]]
    = List.map (fun i => some (i, 1))
    [.iaddiI32 ⟨false, false, 3, 1, 9, none⟩] := by decide

/-- Major 9: words written from the encodings, with distinct operands. -/
theorem test_decode_major_9 : List.map (decodeAt 0)
    [[0x24440820], [0x24440822], [0x24440824], [0x24440826], [0x24440828], [0x2444082A], [0x2444082C], [0x2404509E], [0x2444509E], [0x2484509E]]
    = List.map (fun i => some (i, 1))
    [.icmpI32 ⟨false, 1, 1, 1, 2, none⟩,
     .icmpN32 ⟨false, 1, 1, 1, 2, none⟩,
     .icmpI64 ⟨false, 1, 1, 1, 2, none⟩,
     .icmpN64 ⟨false, 1, 1, 1, 2, none⟩,
     .fcmpF32 ⟨false, 1, 1, 1, 2, none⟩,
     .fcmpBf16 ⟨false, 1, 1, 1, 2, none⟩,
     .fcmpF16 ⟨false, 1, 1, 1, 2, none⟩,
     .pand ⟨false, 1, true, 2, true, 1, none⟩,
     .por ⟨false, 1, true, 2, true, 1, none⟩,
     .pxor ⟨false, 1, true, 2, true, 1, none⟩] := by decide

/-- Major 10: words written from the encodings, with distinct operands. -/
theorem test_decode_major_10 : List.map (decodeAt 0)
    [[0x280C0823]]
    = List.map (fun i => some (i, 1))
    [.selB32 ⟨false, 3, 1, 2, 1, true, none⟩] := by decide

/-- Major 11: words written from the encodings, with distinct operands. -/
theorem test_decode_major_11 : List.map (decodeAt 0)
    [[0x2C0C0821], [0x2C0C0823], [0x2C0C0825], [0x2C0C0827], [0x2C0C0829], [0x2C0C0FCB], [0x2C0C0FCD], [0x2C0C082F]]
    = List.map (fun i => some (i, 1))
    [.faddF32 ⟨false, false, 3, 1, 2, true, none⟩,
     .fsubF32 ⟨false, false, 3, 1, 2, true, none⟩,
     .fmulF32 ⟨false, false, 3, 1, 2, true, none⟩,
     .fminF32 ⟨false, false, 3, 1, 2, true, none⟩,
     .fmaxF32 ⟨false, false, 3, 1, 2, true, none⟩,
     .fabsF32 ⟨false, false, 3, 1, true, none⟩,
     .fnegF32 ⟨false, false, 3, 1, true, none⟩,
     .fcpysgnF32 ⟨false, false, 3, 1, 2, true, none⟩] := by decide

/-- Major 12: words written from the encodings, with distinct operands. -/
theorem test_decode_major_12 : List.map (decodeAt 0)
    [[0x300C0821], [0x300C0823], [0x300C0825], [0x300C0827], [0x300C0829], [0x300C082B], [0x300C082D]]
    = List.map (fun i => some (i, 1))
    [.ffmaF32Cd ⟨false, false, 3, 1, 2, true, none⟩,
     .ffmaF32Cb0 ⟨false, 3, 1, 2, true, none⟩,
     .ffmaF32Cb1 ⟨false, 3, 1, 2, true, none⟩,
     .ffmaF32Cb2 ⟨false, 3, 1, 2, true, none⟩,
     .ffmaF32Cb3 ⟨false, 3, 1, 2, true, none⟩,
     .ffmaX2bf16Cd ⟨false, false, 3, 1, 2, true, none⟩,
     .ffmaX2f16Cd ⟨false, false, 3, 1, 2, true, none⟩] := by decide

/-- Major 13: words written from the encodings, with distinct operands. -/
theorem test_decode_major_13 : List.map (decodeAt 0)
    [[0x340C0821], [0x340C0823], [0x340C0825], [0x340C0827], [0x340C0829], [0x340C082B], [0x340C082D], [0x340C082F]]
    = List.map (fun i => some (i, 1))
    [.faddX2bf16 ⟨false, false, 3, 1, 2, true, none⟩,
     .fmulX2bf16 ⟨false, false, 3, 1, 2, true, none⟩,
     .faddX2f16 ⟨false, false, 3, 1, 2, true, none⟩,
     .fmulX2f16 ⟨false, false, 3, 1, 2, true, none⟩,
     .fminX2bf16 ⟨false, false, 3, 1, 2, true, none⟩,
     .fmaxX2bf16 ⟨false, false, 3, 1, 2, true, none⟩,
     .fminX2f16 ⟨false, false, 3, 1, 2, true, none⟩,
     .fmaxX2f16 ⟨false, false, 3, 1, 2, true, none⟩] := by decide

/-- Major 14: words written from the encodings, with distinct operands. -/
theorem test_decode_major_14 : List.map (decodeAt 0)
    [[0x380C0FC1], [0x380C0FC3], [0x380C0FC5], [0x380C0FC7], [0x380C0FC9], [0x380C0FCB], [0x380C0FCD], [0x380C0FCF]]
    = List.map (fun i => some (i, 1))
    [.frcpF32 ⟨false, false, 3, 1, true, none⟩,
     .frsqF32 ⟨false, false, 3, 1, true, none⟩,
     .fsqrtF32 ⟨false, false, 3, 1, true, none⟩,
     .fexp2F32 ⟨false, false, 3, 1, true, none⟩,
     .flog2F32 ⟨false, false, 3, 1, true, none⟩,
     .fsinF32 ⟨false, false, 3, 1, true, none⟩,
     .fcosF32 ⟨false, false, 3, 1, true, none⟩,
     .ftanhF32 ⟨false, false, 3, 1, true, none⟩] := by decide

/-- Major 15: words written from the encodings, with distinct operands. -/
theorem test_decode_major_15 : List.map (decodeAt 0)
    [[0x3C0C0FC3], [0x3C0C0FC9], [0x3C0C0FCB], [0x3C0C0FCD], [0x3C0C0FCF]]
    = List.map (fun i => some (i, 1))
    [.frndF32 ⟨false, false, 3, 1, 1, true, none⟩,
     .ffractF32 ⟨false, false, 3, 1, true, none⟩,
     .fclassF32 ⟨false, false, 3, 1, true, none⟩,
     .fsatF32 ⟨false, false, 3, 1, true, none⟩,
     .fexpoF32 ⟨false, false, 3, 1, true, none⟩] := by decide

/-- Major 16: words written from the encodings, with distinct operands. -/
theorem test_decode_major_16 : List.map (decodeAt 0)
    [[0x400C082B]]
    = List.map (fun i => some (i, 1))
    [.cvt ⟨false, false, 3, 1, 2, true, 1, true, none⟩] := by decide

/-- Major 17: words written from the encodings, with distinct operands. -/
theorem test_decode_major_17 : List.map (decodeAt 0)
    [[0x440C0821], [0x440C0823], [0x440C0825], [0x440C0827], [0x440C0829], [0x440C082B], [0x440C082D], [0x440C082F]]
    = List.map (fun i => some (i, 1))
    [.cvtpX2bf16F32 ⟨false, 3, 1, 2, true, none⟩,
     .cvtpX2f16F32 ⟨false, 3, 1, 2, true, none⟩,
     .cvtpX4e4m3F32 ⟨false, 3, 1, 2, true, none⟩,
     .cvtpX4e5m2F32 ⟨false, 3, 1, 2, true, none⟩,
     .cvtpX8e2m1X4e4m3 ⟨false, 3, 1, 2, true, none⟩,
     .mxqE4m3 ⟨false, 3, 1, 2, true, none⟩,
     .mxqE5m2 ⟨false, 3, 1, 2, true, none⟩,
     .mxqE2m1 ⟨false, 3, 1, 2, true, none⟩] := by decide

/-- Major 18: words written from the encodings, with distinct operands. -/
theorem test_decode_major_18 : List.map (decodeAt 0)
    [[0x480C0821], [0x480C0823], [0x480C0825], [0x480C0827], [0x480C0829], [0x480C082B], [0x480C082D], [0x480C082F]]
    = List.map (fun i => some (i, 1))
    [.dp4X4i8 ⟨false, 3, 1, 2, true, none⟩,
     .dp4X4e4m3 ⟨false, 3, 1, 2, true, none⟩,
     .dp4X4e5m2 ⟨false, 3, 1, 2, true, none⟩,
     .dp8X8i4 ⟨false, 3, 1, 2, true, none⟩,
     .dp8X8e2m1 ⟨false, 3, 1, 2, true, none⟩,
     .dp2X2bf16 ⟨false, 3, 1, 2, true, none⟩,
     .dp2X2f16 ⟨false, 3, 1, 2, true, none⟩,
     .fscaleF32 ⟨false, 3, 1, 2, true, none⟩] := by decide

/-- Major 19: words written from the encodings, with distinct operands. -/
theorem test_decode_major_19 : List.map (decodeAt 0)
    [[0x4C0C0821], [0x4C0C0823], [0x4C0C0825], [0x4C0C0827], [0x4C0C0829], [0x4C0C57CB], [0x4C0C082D], [0x4C0FE7CF]]
    = List.map (fun i => some (i, 1))
    [.xget ⟨false, 3, 1, 2, true, none⟩,
     .xlow ⟨false, 3, 1, 2, true, none⟩,
     .xhigh ⟨false, 3, 1, 2, true, none⟩,
     .xflip ⟨false, 3, 1, 2, true, none⟩,
     .gbcast ⟨false, false, 3, 1, 2, true, none⟩,
     .pmask ⟨false, false, 3, true, 2, true, none⟩,
     .eqset ⟨false, 3, 1, 2, true, none⟩,
     .gfirst ⟨false, 3, true, none⟩] := by decide

/-- Major 20: words written from the encodings, with distinct operands. -/
theorem test_decode_major_20 : List.map (decodeAt 0)
    [[0x500C08A1], [0x500C08A3], [0x500C08A5], [0x500C08A7], [0x500C08A9], [0x500C08AB], [0x500C08AD], [0x500C08AF]]
    = List.map (fun i => some (i, 1))
    [.gredAddI32 ⟨false, false, 3, 1, true, 2, true, none⟩,
     .gredMinI32 ⟨false, false, 3, 1, true, 2, true, none⟩,
     .gredMaxI32 ⟨false, false, 3, 1, true, 2, true, none⟩,
     .gredAndB32 ⟨false, false, 3, 1, true, 2, true, none⟩,
     .gredOrB32 ⟨false, false, 3, 1, true, 2, true, none⟩,
     .gredAddF32 ⟨false, false, 3, 1, true, 2, true, none⟩,
     .gscanAddI32 ⟨false, false, 3, 1, true, 2, true, none⟩,
     .gscanAddF32 ⟨false, false, 3, 1, true, 2, true, none⟩] := by decide

/-- Major 21: words written from the encodings, with distinct operands. -/
theorem test_decode_major_21 : List.map (decodeAt 0)
    [[0x54200003]]
    = List.map (fun i => some (i, 1))
    [.br ⟨false, 1, 3, none⟩] := by decide

/-- Major 22: words written from the encodings, with distinct operands. -/
theorem test_decode_major_22 : List.map (decodeAt 0)
    [[0x58200003]]
    = List.map (fun i => some (i, 1))
    [.call ⟨false, 1, 3, none⟩] := by decide

/-- Major 23: words written from the encodings, with distinct operands. -/
theorem test_decode_major_23 : List.map (decodeAt 0)
    [[0x5C000000], [0x5C040000], [0x5C080000], [0x5C0C2800], [0x5C102800], [0x5C142804], [0x5C180000], [0x5C1C0001], [0x5C200001], [0x5C240000], [0x5C280000], [0x5C2C2801], [0x5C302800], [0x5C342800], [0x5C44000C]]
    = List.map (fun i => some (i, 1))
    [.nop ⟨false, none⟩,
     .exit ⟨false, none⟩,
     .ret ⟨false, none⟩,
     .brx ⟨false, 5, none⟩,
     .callx ⟨false, 5, none⟩,
     .lpush ⟨false, 5, 4, none⟩,
     .lbrk ⟨false, none⟩,
     .trapW ⟨false, 1, none⟩,
     .bkpt ⟨false, 1, none⟩,
     .rti ⟨false, none⟩,
     .gmark ⟨false, none⟩,
     .gtest ⟨false, false, 5, 1, none⟩,
     .gaccept ⟨false, false, 5, none⟩,
     .gdemand ⟨false, false, 5, none⟩,
     .dead ⟨false, 1, 12, none⟩] := by decide

/-- Major 24: words written from the encodings, with distinct operands. -/
theorem test_decode_major_24 : List.map (decodeAt 0)
    [[0x60000001], [0x60040001], [0x60080001], [0x60100011], [0x60140011], [0x60180011], [0x60200001], [0x60240001], [0x60280000], [0x60300001], [0x60340001], [0x60380001], [0x603C0001]]
    = List.map (fun i => some (i, 1))
    [.jmark ⟨false, 1, none⟩,
     .jwait ⟨false, 1, none⟩,
     .jclr ⟨false, 1, none⟩,
     .vany ⟨false, 1, 1, none⟩,
     .vall ⟨false, 1, 1, none⟩,
     .vsame ⟨false, 1, 1, none⟩,
     .barTm ⟨false, 1, none⟩,
     .barCl ⟨false, 1, none⟩,
     .barGd ⟨false, none⟩,
     .bararrTm ⟨false, 1, none⟩,
     .bararrCl ⟨false, 1, none⟩,
     .barwtTm ⟨false, 1, none⟩,
     .barwtCl ⟨false, 1, none⟩] := by decide

/-- Major 25: words written from the encodings, with distinct operands. -/
theorem test_decode_major_25 : List.map (decodeAt 0)
    [[0x64002809], [0x66042809], [0x64082809], [0x64102801], [0x64142801], [0x64182800], [0x641C2800], [0x64202800], [0x64240001], [0x64282800], [0x64302801], [0x64400011], [0x64442801], [0x64482801], [0x644C0001], [0x64500001]]
    = List.map (fun i => some (i, 1))
    [.smovRd ⟨false, false, 5, 9, none⟩,
     .smovWr ⟨false, 5, 9, none⟩,
     .smovV ⟨false, 5, 9, none⟩,
     .sysr ⟨false, false, 5, 1, none⟩,
     .sysw ⟨false, false, 5, 1, none⟩,
     .tsr ⟨false, false, 5, none⟩,
     .cyc ⟨false, false, 5, none⟩,
     .fflg ⟨false, 5, none⟩,
     .fclr ⟨false, 1, none⟩,
     .slp ⟨false, 5, none⟩,
     .idr ⟨false, false, 5, 1, none⟩,
     .fence ⟨false, 1, 1, none⟩,
     .vspill ⟨false, 5, 1, none⟩,
     .vfill ⟨false, 5, 1, none⟩,
     .vgrow ⟨false, 1, none⟩,
     .vshrink ⟨false, 1, none⟩] := by decide

/-- Major 26: words written from the encodings, with distinct operands. -/
theorem test_decode_major_26 : List.map (decodeAt 0)
    [[0x680C0952], [0x6A0C0952], [0x68000913]]
    = List.map (fun i => some (i, 1))
    [.load ⟨false, 3, 1, 1, 1, 1, 1, none⟩,
     .uniformLoad ⟨false, 3, 1, 1, 1, 1, 1, none⟩,
     .prefetch ⟨false, 1, 1, 1, 1, none⟩] := by decide

/-- Major 27: words written from the encodings, with distinct operands. -/
theorem test_decode_major_27 : List.map (decodeAt 0)
    [[0x6C0C0812], [0x6E0C0812]]
    = List.map (fun i => some (i, 1))
    [.store ⟨false, 3, 1, 1, 1, none⟩,
     .uniformStore ⟨false, 3, 1, 1, 1, none⟩] := by decide

/-- Major 29: words written from the encodings, with distinct operands. -/
theorem test_decode_major_29 : List.map (decodeAt 0)
    [[0x74240820], [0x75A40822], [0x75C0C800], [0x75E0C800]]
    = List.map (fun i => some (i, 1))
    [.mma ⟨false, 1, 1, 1, 2, none⟩,
     .mmsrBf16 ⟨false, 1, 1, 2, 1, none⟩,
     .flkrd ⟨false, false, 3, 1, none⟩,
     .fidrd ⟨false, false, 3, 1, none⟩] := by decide

/-- Major 30: words written from the encodings, with distinct operands. -/
theorem test_decode_major_30 : List.map (decodeAt 0)
    [[0x78041940], [0x78240950], [0x78440000], [0x78640000], [0x78814000], [0x78A80001], [0x78C14307], [0x78E0C280], [0x79014300], [0x79214000], [0x79442862], [0x79602800], [0x79642C00], [0x79800000], [0x79A02860]]
    = List.map (fun i => some (i, 1))
    [.ard ⟨false, 1, 3, 1, 1, none⟩,
     .ast ⟨false, 1, 1, 1, 1, 1, none⟩,
     .azero ⟨false, 1, none⟩,
     .arel ⟨false, 1, none⟩,
     .xkick ⟨false, false, 5, none⟩,
     .owait ⟨false, 1, 1, none⟩,
     .bobjInit ⟨false, false, 5, 6, 7, none⟩,
     .bobjArrive ⟨false, false, 3, 5, none⟩,
     .bobjWait ⟨false, 5, 6, none⟩,
     .mcfree ⟨false, 5, none⟩,
     .tqpush ⟨false, false, 1, 5, 6, 1, none⟩,
     .tqtokRel ⟨false, false, 5, none⟩,
     .tqtokAcq ⟨false, false, 1, 5, none⟩,
     .cbset ⟨false, false, none⟩,
     .cbwait ⟨false, 5, 6, none⟩] := by decide

/-- Words and a state for each clause of IntegerWords, in the U = 0 and the U = 1 form where there is one. -/
theorem witness_IntegerWords : ∀ i ∈ ([
    .iaddI32 ⟨false, false, 8, 4, 6, false, none⟩, .iaddI32 ⟨false, true, 8, 4, 6, false, none⟩, .isubI32 ⟨false, false, 8, 4, 6, false, none⟩, .isubI32 ⟨false, true, 8, 4, 6, false, none⟩, .imulI32 ⟨false, false, 8, 4, 6, false, none⟩, .imulI32 ⟨false, true, 8, 4, 6, false, none⟩, .imulhI32 ⟨false, false, 8, 4, 6, false, none⟩, .imulhI32 ⟨false, true, 8, 4, 6, false, none⟩, .imulhN32 ⟨false, false, 8, 4, 6, false, none⟩, .imulhN32 ⟨false, true, 8, 4, 6, false, none⟩, .iabsdI32 ⟨false, false, 8, 4, 6, false, none⟩, .iabsdI32 ⟨false, true, 8, 4, 6, false, none⟩, .iaddsI32 ⟨false, false, 8, 4, 6, false, none⟩, .iaddsI32 ⟨false, true, 8, 4, 6, false, none⟩, .isubsI32 ⟨false, false, 8, 4, 6, false, none⟩, .isubsI32 ⟨false, true, 8, 4, 6, false, none⟩, .iminI32 ⟨false, false, 8, 4, 6, false, none⟩, .iminI32 ⟨false, true, 8, 4, 6, false, none⟩, .imaxI32 ⟨false, false, 8, 4, 6, false, none⟩, .imaxI32 ⟨false, true, 8, 4, 6, false, none⟩, .iminN32 ⟨false, false, 8, 4, 6, false, none⟩, .iminN32 ⟨false, true, 8, 4, 6, false, none⟩, .imaxN32 ⟨false, false, 8, 4, 6, false, none⟩, .imaxN32 ⟨false, true, 8, 4, 6, false, none⟩, .iabsI32 ⟨false, false, 8, 4, false, none⟩, .iabsI32 ⟨false, true, 8, 4, false, none⟩, .inegI32 ⟨false, false, 8, 4, false, none⟩, .inegI32 ⟨false, true, 8, 4, false, none⟩, .iaddsN32 ⟨false, false, 8, 4, 6, false, none⟩, .iaddsN32 ⟨false, true, 8, 4, 6, false, none⟩, .isubsN32 ⟨false, false, 8, 4, 6, false, none⟩, .isubsN32 ⟨false, true, 8, 4, 6, false, none⟩, .iaddiI32 ⟨false, false, 8, 4, 9, none⟩, .iaddiI32 ⟨false, true, 8, 4, 9, none⟩, .iaddI64 ⟨false, false, 8, 4, 6, false, none⟩, .iaddI64 ⟨false, true, 8, 4, 6, false, none⟩, .isubI64 ⟨false, false, 8, 4, 6, false, none⟩, .isubI64 ⟨false, true, 8, 4, 6, false, none⟩, .imulI64 ⟨false, false, 8, 4, 6, false, none⟩, .imulI64 ⟨false, true, 8, 4, 6, false, none⟩, .shlB64 ⟨false, false, 8, 4, 6, false, none⟩, .shlB64 ⟨false, true, 8, 4, 6, false, none⟩, .shrN64 ⟨false, false, 8, 4, 6, false, none⟩, .shrN64 ⟨false, true, 8, 4, 6, false, none⟩, .shrI64 ⟨false, false, 8, 4, 6, false, none⟩, .shrI64 ⟨false, true, 8, 4, 6, false, none⟩, .imulwI32 ⟨false, false, 8, 4, 6, false, none⟩, .imulwI32 ⟨false, true, 8, 4, 6, false, none⟩, .imulwN32 ⟨false, false, 8, 4, 6, false, none⟩, .imulwN32 ⟨false, true, 8, 4, 6, false, none⟩] : List Instr), Meets thread0 i :=
  all_meet (by decide)

/-- Words and a state for each clause of LogicWords, in the U = 0 and the U = 1 form where there is one. -/
theorem witness_LogicWords : ∀ i ∈ ([
    .andB32 ⟨false, false, 8, 4, 6, false, none⟩, .andB32 ⟨false, true, 8, 4, 6, false, none⟩, .orB32 ⟨false, false, 8, 4, 6, false, none⟩, .orB32 ⟨false, true, 8, 4, 6, false, none⟩, .xorB32 ⟨false, false, 8, 4, 6, false, none⟩, .xorB32 ⟨false, true, 8, 4, 6, false, none⟩, .andnB32 ⟨false, false, 8, 4, 6, false, none⟩, .andnB32 ⟨false, true, 8, 4, 6, false, none⟩, .ornB32 ⟨false, false, 8, 4, 6, false, none⟩, .ornB32 ⟨false, true, 8, 4, 6, false, none⟩, .xnorB32 ⟨false, false, 8, 4, 6, false, none⟩, .xnorB32 ⟨false, true, 8, 4, 6, false, none⟩, .notB32 ⟨false, false, 8, 4, false, none⟩, .notB32 ⟨false, true, 8, 4, false, none⟩, .movB32 ⟨false, false, 8, 4, false, none⟩, .movB32 ⟨false, true, 8, 4, false, none⟩, .shlB32 ⟨false, false, 8, 4, 6, false, none⟩, .shlB32 ⟨false, true, 8, 4, 6, false, none⟩, .shrN32 ⟨false, false, 8, 4, 6, false, none⟩, .shrN32 ⟨false, true, 8, 4, 6, false, none⟩, .shrI32 ⟨false, false, 8, 4, 6, false, none⟩, .shrI32 ⟨false, true, 8, 4, 6, false, none⟩, .rolB32 ⟨false, false, 8, 4, 6, false, none⟩, .rolB32 ⟨false, true, 8, 4, 6, false, none⟩, .popcB32 ⟨false, false, 8, 4, false, none⟩, .popcB32 ⟨false, true, 8, 4, false, none⟩, .clzB32 ⟨false, false, 8, 4, false, none⟩, .clzB32 ⟨false, true, 8, 4, false, none⟩, .brevB32 ⟨false, false, 8, 4, false, none⟩, .brevB32 ⟨false, true, 8, 4, false, none⟩, .ffsB32 ⟨false, false, 8, 4, false, none⟩, .ffsB32 ⟨false, true, 8, 4, false, none⟩] : List Instr), Meets thread0 i :=
  all_meet (by decide)

/-- Words and a state for each clause of FieldsAndAddresses, in the U = 0 and the U = 1 form where there is one. -/
theorem witness_FieldsAndAddresses : ∀ i ∈ ([
    .bfeN32 ⟨false, false, 8, 4, 6, false, none⟩, .bfeN32 ⟨false, true, 8, 4, 6, false, none⟩, .bfeI32 ⟨false, false, 8, 4, 6, false, none⟩, .bfeI32 ⟨false, true, 8, 4, 6, false, none⟩, .bfiB32 ⟨false, false, 8, 4, 6, false, none⟩, .bfiB32 ⟨false, true, 8, 4, 6, false, none⟩, .bswapB32 ⟨false, false, 8, 4, false, none⟩, .bswapB32 ⟨false, true, 8, 4, false, none⟩, .extI8 ⟨false, false, 8, 4, false, none⟩, .extI8 ⟨false, true, 8, 4, false, none⟩, .extI16 ⟨false, false, 8, 4, false, none⟩, .extI16 ⟨false, true, 8, 4, false, none⟩, .imadI32 ⟨false, false, 8, 4, 6, false, none⟩, .imadI32 ⟨false, true, 8, 4, 6, false, none⟩, .packB16 ⟨false, false, 8, 4, 6, false, none⟩, .packB16 ⟨false, true, 8, 4, 6, false, none⟩, .leaB32 ⟨false, false, 8, 4, 6, 1, false, none⟩, .leaB32 ⟨false, true, 8, 4, 6, 1, false, none⟩, .leaI64 ⟨false, false, 8, 4, 6, 1, false, none⟩, .leaI64 ⟨false, true, 8, 4, 6, 1, false, none⟩] : List Instr), Meets thread0 i :=
  all_meet (by decide)

/-- Words and a state for each clause of FloatWords, in the U = 0 and the U = 1 form where there is one. -/
theorem witness_FloatWords : ∀ i ∈ ([
    .faddF32 ⟨false, false, 8, 4, 6, false, none⟩, .faddF32 ⟨false, true, 8, 4, 6, false, none⟩, .fsubF32 ⟨false, false, 8, 4, 6, false, none⟩, .fsubF32 ⟨false, true, 8, 4, 6, false, none⟩, .fmulF32 ⟨false, false, 8, 4, 6, false, none⟩, .fmulF32 ⟨false, true, 8, 4, 6, false, none⟩, .fminF32 ⟨false, false, 8, 4, 6, false, none⟩, .fminF32 ⟨false, true, 8, 4, 6, false, none⟩, .fmaxF32 ⟨false, false, 8, 4, 6, false, none⟩, .fmaxF32 ⟨false, true, 8, 4, 6, false, none⟩, .fabsF32 ⟨false, false, 8, 4, false, none⟩, .fabsF32 ⟨false, true, 8, 4, false, none⟩, .fnegF32 ⟨false, false, 8, 4, false, none⟩, .fnegF32 ⟨false, true, 8, 4, false, none⟩, .fcpysgnF32 ⟨false, false, 8, 4, 6, false, none⟩, .fcpysgnF32 ⟨false, true, 8, 4, 6, false, none⟩, .ffmaF32Cd ⟨false, false, 8, 4, 6, false, none⟩, .ffmaF32Cd ⟨false, true, 8, 4, 6, false, none⟩, .ffmaF32Cb0 ⟨false, 8, 4, 6, false, none⟩, .ffmaF32Cb1 ⟨false, 8, 4, 6, false, none⟩, .ffmaF32Cb2 ⟨false, 8, 4, 6, false, none⟩, .ffmaF32Cb3 ⟨false, 8, 4, 6, false, none⟩, .ffmaX2bf16Cd ⟨false, false, 8, 4, 6, false, none⟩, .ffmaX2bf16Cd ⟨false, true, 8, 4, 6, false, none⟩, .ffmaX2f16Cd ⟨false, false, 8, 4, 6, false, none⟩, .ffmaX2f16Cd ⟨false, true, 8, 4, 6, false, none⟩, .faddX2bf16 ⟨false, false, 8, 4, 6, false, none⟩, .faddX2bf16 ⟨false, true, 8, 4, 6, false, none⟩, .fmulX2bf16 ⟨false, false, 8, 4, 6, false, none⟩, .fmulX2bf16 ⟨false, true, 8, 4, 6, false, none⟩, .faddX2f16 ⟨false, false, 8, 4, 6, false, none⟩, .faddX2f16 ⟨false, true, 8, 4, 6, false, none⟩, .fmulX2f16 ⟨false, false, 8, 4, 6, false, none⟩, .fmulX2f16 ⟨false, true, 8, 4, 6, false, none⟩, .fminX2bf16 ⟨false, false, 8, 4, 6, false, none⟩, .fminX2bf16 ⟨false, true, 8, 4, 6, false, none⟩, .fmaxX2bf16 ⟨false, false, 8, 4, 6, false, none⟩, .fmaxX2bf16 ⟨false, true, 8, 4, 6, false, none⟩, .fminX2f16 ⟨false, false, 8, 4, 6, false, none⟩, .fminX2f16 ⟨false, true, 8, 4, 6, false, none⟩, .fmaxX2f16 ⟨false, false, 8, 4, 6, false, none⟩, .fmaxX2f16 ⟨false, true, 8, 4, 6, false, none⟩] : List Instr), Meets thread0 i :=
  all_meet (by decide)

/-- Words and a state for each clause of SpecialFunctions, in the U = 0 and the U = 1 form where there is one. -/
theorem witness_SpecialFunctions : ∀ i ∈ ([
    .frcpF32 ⟨false, false, 8, 4, false, none⟩, .frcpF32 ⟨false, true, 8, 4, false, none⟩, .frsqF32 ⟨false, false, 8, 4, false, none⟩, .frsqF32 ⟨false, true, 8, 4, false, none⟩, .fsqrtF32 ⟨false, false, 8, 4, false, none⟩, .fsqrtF32 ⟨false, true, 8, 4, false, none⟩, .fexp2F32 ⟨false, false, 8, 4, false, none⟩, .fexp2F32 ⟨false, true, 8, 4, false, none⟩, .flog2F32 ⟨false, false, 8, 4, false, none⟩, .flog2F32 ⟨false, true, 8, 4, false, none⟩, .fsinF32 ⟨false, false, 8, 4, false, none⟩, .fsinF32 ⟨false, true, 8, 4, false, none⟩, .fcosF32 ⟨false, false, 8, 4, false, none⟩, .fcosF32 ⟨false, true, 8, 4, false, none⟩, .ftanhF32 ⟨false, false, 8, 4, false, none⟩, .ftanhF32 ⟨false, true, 8, 4, false, none⟩, .frndF32 ⟨false, false, 8, 4, 1, false, none⟩, .frndF32 ⟨false, true, 8, 4, 1, false, none⟩, .ffractF32 ⟨false, false, 8, 4, false, none⟩, .ffractF32 ⟨false, true, 8, 4, false, none⟩, .fclassF32 ⟨false, false, 8, 4, false, none⟩, .fclassF32 ⟨false, true, 8, 4, false, none⟩, .fsatF32 ⟨false, false, 8, 4, false, none⟩, .fsatF32 ⟨false, true, 8, 4, false, none⟩, .fexpoF32 ⟨false, false, 8, 4, false, none⟩, .fexpoF32 ⟨false, true, 8, 4, false, none⟩] : List Instr), Meets thread0 i :=
  all_meet (by decide)

/-- Words and a state for each clause of ConversionsAndDots, in the U = 0 and the U = 1 form where there is one. -/
theorem witness_ConversionsAndDots : ∀ i ∈ ([
    .cvt ⟨false, false, 8, 4, 0, false, 0, false, none⟩, .cvtpX2bf16F32 ⟨false, 8, 4, 6, false, none⟩, .cvtpX2f16F32 ⟨false, 8, 4, 6, false, none⟩, .cvtpX4e4m3F32 ⟨false, 8, 4, 6, false, none⟩, .cvtpX4e5m2F32 ⟨false, 8, 4, 6, false, none⟩, .cvtpX8e2m1X4e4m3 ⟨false, 8, 4, 6, false, none⟩, .mxqE4m3 ⟨false, 8, 4, 6, false, none⟩, .mxqE5m2 ⟨false, 8, 4, 6, false, none⟩, .mxqE2m1 ⟨false, 8, 4, 6, false, none⟩, .dp4X4i8 ⟨false, 8, 4, 6, false, none⟩, .dp4X4e4m3 ⟨false, 8, 4, 6, false, none⟩, .dp4X4e5m2 ⟨false, 8, 4, 6, false, none⟩, .dp8X8i4 ⟨false, 8, 4, 6, false, none⟩, .dp8X8e2m1 ⟨false, 8, 4, 6, false, none⟩, .dp2X2bf16 ⟨false, 8, 4, 6, false, none⟩, .dp2X2f16 ⟨false, 8, 4, 6, false, none⟩, .fscaleF32 ⟨false, 8, 4, 6, false, none⟩] : List Instr), Meets thread0 i :=
  all_meet (by decide)

/-- Words and a state for each clause of ComparesAndPredicates, in the U = 0 and the U = 1 form where there is one. -/
theorem witness_ComparesAndPredicates : ∀ i ∈ ([
    .icmpI32 ⟨false, 1, 1, 4, 6, none⟩, .icmpN32 ⟨false, 1, 1, 4, 6, none⟩, .icmpI64 ⟨false, 1, 1, 4, 6, none⟩, .icmpN64 ⟨false, 1, 1, 4, 6, none⟩, .fcmpF32 ⟨false, 1, 1, 4, 6, none⟩, .fcmpBf16 ⟨false, 1, 1, 4, 6, none⟩, .fcmpF16 ⟨false, 1, 1, 4, 6, none⟩, .pand ⟨false, 1, true, 0, true, 1, none⟩, .por ⟨false, 1, true, 0, true, 1, none⟩, .pxor ⟨false, 1, true, 0, true, 1, none⟩, .selB32 ⟨false, 8, 4, 6, 1, false, none⟩] : List Instr), Meets thread0 i :=
  all_meet (by decide)

/-- Words and a state for each clause of GroupExchanges, in the U = 0 and the U = 1 form where there is one. -/
theorem witness_GroupExchanges : ∀ i ∈ ([
    .xget ⟨false, 8, 4, 6, false, none⟩, .xlow ⟨false, 8, 4, 6, false, none⟩, .xhigh ⟨false, 8, 4, 6, false, none⟩, .xflip ⟨false, 8, 4, 6, false, none⟩, .gbcast ⟨false, false, 8, 4, 6, false, none⟩, .gbcast ⟨false, true, 8, 4, 6, false, none⟩, .pmask ⟨false, false, 8, true, 0, false, none⟩, .pmask ⟨false, true, 8, false, 0, false, none⟩, .eqset ⟨false, 8, 4, 6, false, none⟩, .gfirst ⟨false, 8, false, none⟩, .vany ⟨false, 1, 1, none⟩, .vall ⟨false, 1, 1, none⟩, .vsame ⟨false, 1, 1, none⟩] : List Instr), Meets thread0 i :=
  all_meet (by decide)

/-- Words and a state for each clause of Reductions, in the U = 0 and the U = 1 form where there is one. -/
theorem witness_Reductions : ∀ i ∈ ([
    .gredAddI32 ⟨false, false, 8, 4, true, 0, false, none⟩, .gredAddI32 ⟨false, true, 8, 4, false, 0, false, none⟩, .gredMinI32 ⟨false, false, 8, 4, true, 0, false, none⟩, .gredMinI32 ⟨false, true, 8, 4, false, 0, false, none⟩, .gredMaxI32 ⟨false, false, 8, 4, true, 0, false, none⟩, .gredMaxI32 ⟨false, true, 8, 4, false, 0, false, none⟩, .gredAndB32 ⟨false, false, 8, 4, true, 0, false, none⟩, .gredAndB32 ⟨false, true, 8, 4, false, 0, false, none⟩, .gredOrB32 ⟨false, false, 8, 4, true, 0, false, none⟩, .gredOrB32 ⟨false, true, 8, 4, false, 0, false, none⟩, .gscanAddI32 ⟨false, false, 8, 4, true, 0, false, none⟩, .gscanAddI32 ⟨false, true, 8, 4, false, 0, false, none⟩, .gredAddF32 ⟨false, false, 8, 4, true, 0, false, none⟩, .gredAddF32 ⟨false, true, 8, 4, false, 0, false, none⟩, .gscanAddF32 ⟨false, false, 8, 4, true, 0, false, none⟩, .gscanAddF32 ⟨false, true, 8, 4, false, 0, false, none⟩] : List Instr), Meets thread0 i :=
  all_meet (by decide)

/-- Words and a state for each clause of ScalarMoves, in the U = 0 and the U = 1 form where there is one. -/
theorem witness_ScalarMoves : ∀ i ∈ ([
    .smovRd ⟨false, false, 4, 4, none⟩, .smovRd ⟨false, true, 4, 4, none⟩, .smovWr ⟨false, 4, 9, none⟩, .smovV ⟨false, 4, 9, none⟩] : List Instr), Meets thread0 i :=
  all_meet (by decide)

/-- Words and a state for each clause of IdentityTimeCounters, in the U = 0 and the U = 1 form where there is one. -/
theorem witness_IdentityTimeCounters : ∀ i ∈ ([
    .tsr ⟨false, false, 4, none⟩, .tsr ⟨false, true, 4, none⟩, .cyc ⟨false, false, 4, none⟩, .cyc ⟨false, true, 4, none⟩, .idr ⟨false, false, 4, 1, none⟩, .idr ⟨false, true, 4, 1, none⟩, .fflg ⟨false, 4, none⟩, .fclr ⟨false, 1, none⟩, .slp ⟨false, 4, none⟩, .flkrd ⟨false, false, 8, 1, none⟩, .flkrd ⟨false, true, 8, 0, none⟩, .fidrd ⟨false, false, 8, 2, none⟩, .fidrd ⟨false, true, 8, 5, none⟩, .owait ⟨false, 0, 0, none⟩] : List Instr), Meets thread0 i :=
  all_meet (by decide)

/-- R154's inputs: a NaN, a negative operand that is not zero, an infinity, and the zeros. -/
theorem witness_SpecialInputs : (decodeF f32 0x7FC00000).isNan = true ∧ (decodeF f32 0xBF800000).isNeg = true ∧ (decodeF f32 0xBF800000).isZero = false ∧
    (decodeF f32 0x7F800000).isInf = true ∧ (decodeF f32 0x80000000).isZero = true := by decide

/-- Finite operands of SpecialBounds that are not zero: 1, -1, 2 and 1/2, where the ranges of flog2 meet; the least and the greatest f32 value; 2^-128; and -149 and 127. -/
theorem witness_SpecialBounds :
    (∀ a ∈ [0x3F800000, 0xBF800000, 0x40000000, 0x3F000000, 1, 0x7F7FFFFF, 0x00200000, 0xC3150000, 0x42FE0000],
      (decodeF f32 a).isNan = false ∧ (decodeF f32 a).isInf = false ∧ (decodeF f32 a).isZero = false) ∧
    let val : FVal → ℝ := fun
      | .fin n m e => (if n then -1 else 1) * (m : ℝ) * 2 ^ e
      | .inf n => (if n then -1 else 1) * 2 ^ 128
      | .nan _ => 0
    let at' := fun (y : Nat) => val (decodeF f32 y)
    at' 0x3F800000 = 2 ^ (2 * (0 : ℤ)) ∧ at' 0xBF800000 = -1 ∧ at' 0x40000000 = 2 ∧ at' 0x3F000000 = 1 / 2 ∧ (at' 1 = 2 ^ (-149 : ℤ) ∧ 0 < at' 1 ∧ at' 1 < 1 / 2) ∧
    (2 < at' 0x7F7FFFFF ∧ at' 0x7F7FFFFF < 2 ^ 128) ∧ at' 0x00200000 = 2 ^ (-128 : ℤ) ∧ at' 0xC3150000 = ((-149 : ℤ) : ℝ) ∧ at' 0x42FE0000 = ((127 : ℤ) : ℝ) := by
  refine ⟨by decide, ?_⟩
  have h : [0x3F800000, 0xBF800000, 0x40000000, 0x3F000000, 1, 0x7F7FFFFF, 0x00200000, 0xC3150000, 0x42FE0000].map (decodeF f32) =
      [.fin false 0x800000 (-23), .fin true 0x800000 (-23), .fin false 0x800000 (-22), .fin false 0x800000 (-24), .fin false 1 (-149), .fin false 0xFFFFFF 104, .fin false 0x200000 (-149), .fin true 0x950000 (-16), .fin false 0xFE0000 (-17)] := by decide
  simp only [List.map_cons, List.map_nil, List.cons.injEq] at h
  obtain ⟨h1, h2, h3, h4, h5, h6, h7, h8, h9, -⟩ := h
  simp only [h1, h2, h3, h4, h5, h6, h7, h8, h9]
  norm_num

/-- The plain machine of threads t. -/
def plain (t : Thread) : State := machineOf (groupOf t) bundle0
/-- What a word sees in it. -/
def seen (t : Thread) : View := viewAt (plain t) bundle0 0 (groupOf t) 5
def calmB (c : Core) (g : Group) : Bool := (members 5).all fun j => !unresolved c g j && !(threadAt g j).rf
theorem calm_of {c : Core} {g : Group} (h : calmB c g = true) : Calm c g 5 := by
  intro j hj
  have := List.all_eq_true.mp h j hj
  simpa using this
/-- A word, the state of each thread, and no guess in it. -/
def MeetsCalm (t : Thread) (i : Instr) : Prop := Meets t i ∧ Calm (plain t).core (groupOf t) 5
theorem calm_meet (t : Thread) (i : Instr) (h : meets (plain t) bundle0 (groupOf t) i = true) (hc : calmB (plain t).core (groupOf t) = true) : MeetsCalm t i :=
  ⟨meets_of _ _ _ _ h, calm_of hc⟩

def returning : Thread := { thread0 with lnk := 0 }
/-- br and call to packet 0, taken in every thread; brx, callx and ret to packet 0; exit, and ret to no packet. -/
theorem witness_Transfers :
    (Meets thread0 (.br ⟨false, 0, 0, none⟩) ∧ Meets thread0 (.call ⟨false, 0, 0, none⟩) ∧ isBlockStart machine0 0 (hdrOf machine0 1) 0 = true ∧
      ∀ j ∈ members 5, (preg (threadAt group0 j) 0).val = true) ∧
    (MeetsCalm thread0 (.brx ⟨false, 5, none⟩) ∧ MeetsCalm thread0 (.callx ⟨false, 5, none⟩) ∧
      (∀ j ∈ members 5, (readSrc group0 j (threadAt group0 j) none .s ⟨5, 1, true, false⟩).val = 0) ∧
      MeetsCalm returning (.ret ⟨false, none⟩) ∧ ∀ j ∈ members 5, (threadAt (groupOf returning) j).lnk = 0) ∧
    MeetsCalm thread0 (.exit ⟨false, none⟩) ∧ MeetsCalm thread0 (.ret ⟨false, none⟩) ∧
    ∀ j ∈ members 5, hasLoads machine0.core group0 j = false ∧ (threadAt group0 j).sigCount = 0 ∧ (threadAt group0 j).windows = [] ∧ (threadAt group0 j).lnk = 0xFFFFFFFF :=
  ⟨⟨meets_of _ _ _ _ (by decide), meets_of _ _ _ _ (by decide), by decide, by decide⟩,
   ⟨calm_meet _ _ (by decide) (by decide), calm_meet _ _ (by decide) (by decide), by decide, calm_meet _ _ (by decide) (by decide), by decide⟩,
   calm_meet _ _ (by decide) (by decide), calm_meet _ _ (by decide) (by decide), by decide⟩

/-- A group of which thread 0 alone has not ended. -/
def lone : Group := { group0 with threads := thread0 :: List.replicate 31 { thread0 with ended := true } }
/-- A thread that ends beside another, beside an operation outstanding, as the last of its group beside another group of its team, and as the last of its team and launch. -/
theorem witness_ThreadEnds :
    (groupAt (coreAt machine0 0) 0 = some group0 ∧ group0.threads.length = 32 ∧ Rising (coreAt machine0 0).ctx.groups ∧ (threadAt group0 1).ended = false) ∧
    (let g := { lone with ops := [⟨3, 1, false⟩] }
     groupAt (coreAt (machineOf g bundle0) 0) 0 = some g ∧ opCount g 3 ≠ 0) ∧
    (let s := machineOf lone bundle0
     groupAt (coreAt s 0) 0 = some lone ∧ lone.threads.length = 32 ∧ (∀ j < 32, j = 0 ∨ (threadAt lone j).ended = true) ∧ (∀ cls ∈ [1, 2, 3], opCount lone cls = 0) ∧
     teamAt s lone.team = some placedTeam ∧ placedTeam.core = 0 ∧ placedTeam.ended = false ∧ (∀ q ∈ (coreAt s 0).ctx.groups, q.2.team = lone.team → q.1 = 0) ∧
     (∀ q ∈ (coreAt s 0).saved.groups ++ (coreAt s 0).shadow.groups, q.2.team ≠ lone.team) ∧ placedTeam.role ≠ .mirror ∧ launchAt s placedTeam.lseq = some placedLaunch ∧ Rising s.launches ∧
     placedLaunch.completed = false ∧ placedLaunch.heldCrec = none ∧ placedTeam.lseq ∉ s.retake ∧ placedLaunch.endedTeams + 1 = placedLaunch.hdr.gx * placedLaunch.hdr.gy * placedLaunch.hdr.gz ∧
     placedLaunch.bitWrites = [] ∧ placedLaunch.hdr.cbmap = 0 ∧ placedLaunch.producers = []) ∧
    (let c := { (coreAt (machineOf lone bundle0) 0) with ctx := { (coreAt (machineOf lone bundle0) 0).ctx with groups := [(0, lone), (2, { group0 with uid := 2 })] } }
     ∃ q ∈ c.ctx.groups, q.1 ≠ 0 ∧ q.2.team = lone.team) := by unfold Rising; decide

/-- Packet 1 sealed, so that a loop may end there. -/
def loopBase : State := { base with mem := memWrite base.mem 12 12 (0x5C000000 + 0x5C000000 * 2 ^ 32 + 0xDC000000 * 2 ^ 64) }
/-- lpush with a count of 7 and with a count of 0, to the sealed packet 1; lbrk and nop. -/
theorem witness_Loops :
    MeetsIn loopBase core0 group0 bundle0 (.lpush ⟨false, 4, 0, none⟩) ∧ MeetsIn loopBase core0 group0 bundle0 (.lpush ⟨false, 0, 0, none⟩) ∧
    (let s := machineIn loopBase core0 group0 bundle0
     sealedAt s 0 (hdrOf s 1) 1 = some true ∧ (∀ j ∈ members 5, (popLeft (threadAt group0 j).loops 1).length < 4)) ∧
    Meets thread0 (.lbrk ⟨false, none⟩) ∧ Meets thread0 (.nop ⟨false, none⟩) :=
  ⟨meets_of _ _ _ _ (by decide), meets_of _ _ _ _ (by decide), by decide, meets_of _ _ _ _ (by decide), meets_of _ _ _ _ (by decide)⟩

/-- A bundle at the end of its packet, whose last word has issued. -/
def atEnd (p : Pkt) : Bundle := { bundle0 with issued := true, pos := 2, pc := 3, pkt := some p }
/-- A loop that ends in packet 3 with its count at 1, and one at 2; and one that does not. -/
def loop1 : Loop := ⟨1, 3, 1⟩
def loop2 : Loop := ⟨1, 3, 2⟩
def loop9 : Loop := ⟨1, 9, 2⟩
/-- A group whose threads 0 and 2 are as given, with a frontier of two entries. -/
def endGroup (a b : Thread) : Group :=
  { group0 with threads := lmod (lmod group0.threads 0 fun _ => a) 2 fun _ => b,
                frontier := [1, 4].map fun (x : Word) => { start := x, prio := 9, wait := 0x30, age := 0, cyc := 0, joined := 0, promoted := false, ready := true, fid := none } }
/-- A word chained to the next, one that is not, the last word of an unsealed packet, and that of a sealed one; there a loop whose count ends and one whose count does not, a taken transfer that leaves the top loop, and threads that go on, to 4 entries and to 16. -/
theorem witness_PacketEnds :
    (∀ w ∈ [0xDC000000, 0x5C000000], let b := { atEnd ⟨w, 0x5C000000, 0xDC000000⟩ with pos := 0 }
      bundleAt (coreAt (machineOf group0 b) 0) 0 = some b ∧ b.pkt.isSome = true ∧ b.issued = true ∧ b.wait = none ∧ b.kept = false ∧ b.pos + 1 < 3 ∧
      (lget 0 [w, 0x5C000000, 0xDC000000] (b.pos + 1 - 1) / 2 ^ 31 % 2 = 1 ↔ w = 0xDC000000)) ∧
    (∀ w ∈ [0x5C000000, 0xDC000000], let b := atEnd ⟨0x5C000000, 0x5C000000, w⟩
      bundleAt (coreAt (machineOf group0 b) 0) 0 = some b ∧ b.issued = true ∧ b.wait = none ∧ b.kept = false ∧ b.pos + 1 = 3 ∧ b.parts = [⟨0, 5⟩] ∧ b.sub = none ∧ (w / 2 ^ 31 = 1 ↔ w = 0xDC000000)) ∧
    (∀ x ∈ [(thread0, thread0), ({ thread0 with loops := [loop1, loop9] }, { thread0 with loops := [loop2] }), ({ thread0 with xfer := some 4, loops := [loop2, loop9] }, { thread0 with xfer := some 1 })],
      let g := endGroup x.1 x.2
      groupAt (coreAt (machineOf g (atEnd ⟨0x5C000000, 0x5C000000, 0xDC000000⟩)) 0) 0 = some g ∧ g.threads.length = 32 ∧ (g.frontier.map fun (e : FEntry) => e.start).Nodup ∧ ((g.frontier.map fun (e : FEntry) => e.start) ++ [1, 4]).dedup.length ≤ 16) ∧
    ((List.range 14).map (fun i => (BitVec.ofNat 32 (4 + 2 * i) : Word)) ++ [1, 3]).dedup.length = 16 := by decide

def handling : Thread := { thread0 with trap := { thread0.trap with stat := 8 } }
/-- trap and bkpt; rti in a handler. -/
theorem witness_TrapAndReturnWords : MeetsCalm thread0 (.trapW ⟨false, 9, none⟩) ∧ MeetsCalm thread0 (.bkpt ⟨false, 9, none⟩) ∧ MeetsCalm handling (.rti ⟨false, none⟩) ∧
    ∀ j ∈ members 5, (threadAt (groupOf handling) j).trap.stat.getLsbD 3 = true :=
  ⟨calm_meet _ _ (by decide) (by decide), calm_meet _ _ (by decide) (by decide), calm_meet _ _ (by decide) (by decide), by decide⟩

def guessing : Thread := { thread0 with v := [(4, ⟨7, true, false⟩)] }
/-- gmark in packet 0 of its block; gtest, gaccept, gdemand on a register with a penumbra bit and on one without, and on s registers; dead. -/
theorem witness_GuessWords : MeetsCalm thread0 (.gmark ⟨false, none⟩) ∧ bundle0.pc = bundle0.start ∧
    (∀ t ∈ [thread0, guessing], Meets t (.gtest ⟨false, false, 4, 1, none⟩) ∧ Meets t (.gtest ⟨false, true, 4, 1, none⟩) ∧ Meets t (.gaccept ⟨false, false, 4, none⟩) ∧
      Meets t (.gaccept ⟨false, true, 4, none⟩) ∧ MeetsCalm t (.gdemand ⟨false, false, 4, none⟩) ∧ MeetsCalm t (.gdemand ⟨false, true, 4, none⟩)) ∧
    unresolvedS machine0.core group0 = false ∧ Meets thread0 (.dead ⟨false, 0, 0x8001, none⟩) := by
  refine ⟨calm_meet _ _ (by decide) (by decide), by decide, ?_, by decide, meets_of _ _ _ _ (by decide)⟩
  intro t ht
  rcases List.mem_cons.mp ht with rfl | ht
  · exact ⟨meets_of _ _ _ _ (by decide), meets_of _ _ _ _ (by decide), meets_of _ _ _ _ (by decide), meets_of _ _ _ _ (by decide), calm_meet _ _ (by decide) (by decide), calm_meet _ _ (by decide) (by decide)⟩
  · rw [List.mem_singleton.mp ht]
    exact ⟨meets_of _ _ _ _ (by decide), meets_of _ _ _ _ (by decide), meets_of _ _ _ _ (by decide), meets_of _ _ _ _ (by decide), calm_meet _ _ (by decide) (by decide), calm_meet _ _ (by decide) (by decide)⟩

theorem witness_RejoinWords : Meets thread0 (.jmark ⟨false, 7, none⟩) ∧ Meets thread0 (.jclr ⟨false, 7, none⟩) ∧ MeetsCalm thread0 (.jwait ⟨false, 7, none⟩) :=
  ⟨meets_of _ _ _ _ (by decide), meets_of _ _ _ _ (by decide), calm_meet _ _ (by decide) (by decide)⟩

/-- Threads 0 and 2 park at mask 7 in bundles of their own, and another bundle waits for no mask. -/
def joining (ja : Word) : Core := { core0 with ctx := { core0.ctx with
  groups := [(0, { group0 with jm := [(7, 5)], ja := [(7, ja)] })]
  bundles := [(0, { bundle0 with parts := [⟨0, 1⟩], wait := some (.jwait 7), parked := true }), (1, { bundle0 with parts := [⟨0, 4⟩], wait := some (.jwait 7), parked := true }),
              (4, { bundle0 with parts := [⟨0, 8⟩] })] } }
/-- A mask with a thread that has not arrived, and one where all have: the first bundle of a place and a later one, and a bundle that waits for no mask. -/
theorem witness_JoinReleases :
    (joining 1).ctx.groups.map (fun q => (q.1, q.2.threads.length)) = [(0, 32)] ∧
    ([1, 5] : List Word).map (fun x => (joining x).ctx.groups.map fun q => (tget 0 q.2.jm 7 &&& ~~~(tget 0 q.2.ja 7)).toNat) = [[4], [0]] ∧
    ((joining 5).ctx.bundles.map (·.1) = [0, 1, 4] ∧ (joining 5).exch ≠ .swap) ∧
    ((joining 5).ctx.bundles.map fun q => (match q.2.wait with
      | some (.jwait n) => some n
      | _ => none)) = [some 7, some 7, none] ∧
    ((joining 5).ctx.bundles.map fun q => q.2.parts.map fun p => (p.slot, p.mask)) = [[(0, 1)], [(0, 4)], [(0, 8)]] ∧
    ((joining 5).ctx.bundles.map fun q => (q.2.done.length, q.2.pc, q.2.stepPos)) = [(0, 0, 0), (0, 0, 0), (0, 0, 0)] ∧ ((joining 5).ctx.bundles.map fun q => q.2.sub) = [none, none, none] := by decide

def gridLaunch : State := { base with launches := [(1, { placedLaunch with hdr := { placedHdr with flags := 1 } })] }
/-- Barrier words of the first and the last barrier, in threads that have not arrived and have nothing left to release; a grid barrier in a co-resident grid; a fence. -/
theorem witness_BarriersAndFences :
    (∀ n ∈ [(0 : BitVec 4), 15], MeetsCalm thread0 (.barTm ⟨false, n, none⟩) ∧ MeetsCalm thread0 (.barCl ⟨false, n, none⟩) ∧ MeetsCalm thread0 (.bararrTm ⟨false, n, none⟩) ∧
      MeetsCalm thread0 (.bararrCl ⟨false, n, none⟩) ∧ MeetsCalm thread0 (.barwtTm ⟨false, n, none⟩) ∧ MeetsCalm thread0 (.barwtCl ⟨false, n, none⟩)) ∧
    (MeetsIn gridLaunch core0 group0 bundle0 (.barGd ⟨false, none⟩) ∧ (hdrOf (machineIn gridLaunch core0 group0 bundle0) 1).cor = true) ∧
    (∀ j ∈ members 5, (∀ k ∈ [0, 1, 2], ∀ n ∈ [0, 15], arrived (threadAt group0 j) k n = false) ∧ Arrived (seen thread0) j ∧ ∀ scope ∈ [2, 4, 6], Drained (seen thread0) j scope) ∧
    MeetsCalm thread0 (.fence ⟨false, 0, 6, none⟩) := by
  refine ⟨?_, ⟨meets_of _ _ _ _ (by decide), by decide⟩, by unfold Arrived Drained; decide, calm_meet _ _ (by decide) (by decide)⟩
  intro n hn
  rcases List.mem_cons.mp hn with rfl | hn
  · exact ⟨calm_meet _ _ (by decide) (by decide), calm_meet _ _ (by decide) (by decide), calm_meet _ _ (by decide) (by decide), calm_meet _ _ (by decide) (by decide), calm_meet _ _ (by decide) (by decide), calm_meet _ _ (by decide) (by decide)⟩
  · rw [List.mem_singleton.mp hn]
    exact ⟨calm_meet _ _ (by decide) (by decide), calm_meet _ _ (by decide) (by decide), calm_meet _ _ (by decide) (by decide), calm_meet _ _ (by decide) (by decide), calm_meet _ _ (by decide) (by decide), calm_meet _ _ (by decide) (by decide)⟩

/-- A team alone, in its cluster, and in its grid; a phase that a thread holds open, and one where every thread has arrived. -/
theorem witness_PhaseCompletes :
    (teamAt machine0 1 = some placedTeam ∧ (tfind machine0.clusters placedTeam.cluster).isSome = true ∧ (1, placedTeam) ∈ machine0.teams ∧ placedTeam.role ≠ .mirror) ∧
    (∀ kind ∈ [0, 1, 2], barrierTeams machine0 1 kind = [1] ∧ ∃ q ∈ (coreAt machine0 0).ctx.groups, q.2.team = 1 ∧ ∃ y ∈ q.2.threads, y.ended = false ∧ arrived y kind 15 = false) ∧
    (let s := plain { thread0 with arrTm := 0x8000, arrCl := 0x8000, arrGd := true }
     (teamAt s 1).map (·.core) = some 0 ∧ ∀ kind ∈ [0, 1, 2], barrierTeams s 1 kind = [1] ∧
      ∀ x ∈ [(coreAt s 0).ctx, (coreAt s 0).saved, (coreAt s 0).shadow], ∀ q ∈ x.groups, q.2.threads.all (fun y => y.ended || arrived y kind 15) = true) := by decide

/-- sysr of every register that a launch reads; sysw of LNK, of tstat in a handler, and of lvsmode. -/
theorem witness_SystemRegisters :
    (∀ i ∈ (([1, 2, 3, 4, 5, 6, 0x10, 0x11, 0x12, 0x18, 0x1E, 0x40, 8, 9, 10, 11, 0x41, 0x42, 0x43, 0x44, 0x45, 0x46, 0x47, 0x48, 0x49].map fun n => .sysr ⟨false, false, 8, n, none⟩) ++
      ([1, 0x40].map fun n => .sysr ⟨false, true, 8, n, none⟩) : List Instr), Meets thread0 i) ∧
    MeetsCalm thread0 (.sysw ⟨false, false, 4, 8, none⟩) ∧ (MeetsCalm handling (.sysw ⟨false, false, 4, 0x43, none⟩) ∧ ∀ j ∈ members 5, (threadAt (groupOf handling) j).trap.stat.getLsbD 3 = true) ∧
    MeetsCalm thread0 (.sysw ⟨false, true, 4, 0x10, none⟩) ∧ unresolvedS machine0.core group0 = false :=
  ⟨all_meet (by decide), calm_meet _ _ (by decide) (by decide), ⟨calm_meet _ _ (by decide) (by decide), by decide⟩, calm_meet _ _ (by decide) (by decide), by decide⟩

/-- owait of a counter at its limit. -/
theorem witness_owait : Meets thread0 (.owait ⟨false, 0, 0, none⟩) ∧ opCount group0 0 ≤ 0 := ⟨meets_of _ _ _ _ (by decide), by decide⟩

/-- Where a checked access of a thread goes. -/
def goesTo (v : View) (thr : Option Nat) (access space ea n align : Nat) : Bool := match checked v thr access false space ea n align with
  | .at' ps => !orderBlocked v thr ps && ps.all fun p => p.mx == 0
  | _ => false

/-- Whether an access cut into units of 4 bytes goes on. -/
def cutGoes (v : View) (thr : Option Nat) (access space ea n : Nat) : Bool := match (span v thr access false space ea n).cut 4 with
  | .at' ps => !orderBlocked v thr ps
  | _ => false

/-- The record of v4 of the group, at slot 1 of its spill stack. -/
def column4 : Nat × Nat := columnRecord ((List.range 32).map fun i => if (threadAt group0 i).ended then ⟨0, false, true⟩ else vreg (threadAt group0 i) 4)
def record4 : Nat := column4.1
/-- A request of a fill of v8. -/
def fill0 : Load :=
  { num := 3, own := 1, slot := 0, thr := none, po := 5, pc := 0, pos := 0, kind := .fill, dsts := [8], ty := 6, ea := 672, pieces := [], cls := 0, pred := 0, issue := 0,
    deadline := none, pen := false, got := [], guess := none, holds := [], written := false, detached := false, op := none, mate := 0, came := none }
def spilled : State := { base with mem := memWrite base.mem 672 137 record4 }
/-- vspill and vfill of v4 at slot 1 of the spill stack, where the record lies, and the record read; vgrow within the window, and vshrink with nothing under way. -/
theorem witness_SpillAndWindow :
    MeetsIn spilled core0 group0 bundle0 (.vspill ⟨false, 4, 1, none⟩) ∧ MeetsIn spilled core0 group0 bundle0 (.vfill ⟨false, 4, 1, none⟩) ∧
    (let s := machineIn spilled core0 group0 bundle0
     let v := viewAt s bundle0 0 group0 5
     mirrored s group0 = false ∧ ((List.range 32).all fun i => !pendingReg s.core group0 ⟨0, some i, 4⟩) = true ∧
     v.h.spbase + 8192 * (32 * v.team.idx + group0.gnum) + 512 + 160 * 1 = 672 ∧
     cutGoes v none 6 0 672 column4.2 = true ∧ cutGoes v none 14 0 672 137 = true ∧
     (columnRead (slotView v ((span v none 14 false 0 672 137).cut 4).pieces)).isSome = true) ∧
    (groupAt (coreAt machine0 0) 0 = some group0 ∧ Rising (coreAt machine0 0).ctx.groups ∧ (∀ q ∈ (coreAt machine0 0).ctx.groups, q.2.uid = group0.uid → q.1 = 0) ∧
      group0.threads.length = 32 ∧ fill0.own = group0.uid ∧ fill0.kind = .fill ∧ fill0.dsts = [8] ∧ (columnRead record4).isSome = true) ∧
    (Meets thread0 (.vgrow ⟨false, 4, none⟩) ∧ windowOf 4 ≤ group0.win) ∧
    (Meets thread0 (.vshrink ⟨false, 0, none⟩) ∧ machine0.core.loads = [] ∧ machine0.core.ctx.mq0 = [] ∧ machine0.core.ctx.mq1 = [] ∧ machine0.core.ctx.engine = none ∧
      machine0.core.saved = Ctx.empty) :=
  ⟨meets_of _ _ _ _ (by decide), meets_of _ _ _ _ (by decide), by decide, by unfold Rising; decide, ⟨meets_of _ _ _ _ (by decide), by decide⟩,
    ⟨meets_of _ _ _ _ (by decide), by decide, by decide, by decide, by decide, by decide⟩⟩

def lateCore : Core := { core0 with late := [⟨1, some 0, 0, 0, 7, 9⟩, ⟨1, some 2, 0, 0, 7, 9⟩] }
/-- A load of a byte at 7; one whose late entry answers it; and one of a guessed address that is misaligned. A uniform load at 7. -/
theorem witness_Loads :
    (Meets thread0 (.load ⟨false, 8, 4, 3, 0, 0, 0, none⟩) ∧ (∀ j ∈ members 5, lateEntries (seen thread0) (some j) = []) ∧ (∀ j ∈ members 5, goesTo (seen thread0) (some j) 0 0 7 1 1 = true)) ∧
    (MeetsIn base lateCore group0 bundle0 (.load ⟨false, 8, 4, 3, 0, 0, 0, none⟩) ∧
      ∀ j ∈ members 5, (lfind (fun (e : Late) => e.ea.toNat == 7) (lateEntries (viewAt (machineIn base lateCore group0 bundle0) bundle0 0 group0 5) (some j))).map (·.val) = some 9) ∧
    (Meets guessing (.load ⟨false, 8, 4, 3, 0, 0, 2, none⟩) ∧ ∀ j ∈ members 5, checked (seen guessing) (some j) 0 true 0 7 4 4 = .trap 3 ∧
      (readBase (seen guessing) (some j) (baseSrc 0 4)).pen = true) ∧
    (Meets thread0 (.uniformLoad ⟨false, 8, 4, 3, 0, 0, 0, none⟩) ∧ goesTo (seen thread0) none 0 0 7 1 1 = true) ∧ opCount group0 0 + (members 5).length ≤ 0xFFFF :=
  ⟨⟨meets_of _ _ _ _ (by decide), by decide, by decide⟩, ⟨meets_of _ _ _ _ (by decide), by decide⟩, ⟨meets_of _ _ _ _ (by decide), by decide⟩,
   ⟨meets_of _ _ _ _ (by decide), by decide⟩, by decide⟩

/-- Prefetches in spaces g, t and d. -/
theorem witness_Prefetches :
    (∀ s ∈ [(0 : BitVec 2), 1, 3], Meets thread0 (.prefetch ⟨false, 4, 0, s, 0, none⟩)) ∧
    ∀ j ∈ members 5, (match reach (seen thread0) (some j) 0 true 0 7 1 with
      | .at' _ => true
      | _ => false) = true := by
  refine ⟨?_, by decide⟩
  intro s hs
  rcases List.mem_cons.mp hs with rfl | hs
  · exact meets_of _ _ _ _ (by decide)
  rcases List.mem_cons.mp hs with rfl | hs
  · exact meets_of _ _ _ _ (by decide)
  · rw [List.mem_singleton.mp hs]; exact meets_of _ _ _ _ (by decide)

/-- Stores of a byte at 7, by each thread and by the group. -/
theorem witness_Stores :
    (MeetsCalm thread0 (.store ⟨false, 6, 4, 0, 0, none⟩) ∧ ∀ j ∈ members 5, goesTo (seen thread0) (some j) 1 0 7 1 1 = true) ∧
    (MeetsCalm thread0 (.uniformStore ⟨false, 6, 4, 0, 0, none⟩) ∧ goesTo (seen thread0) none 1 0 7 1 1 = true ∧ unresolvedS machine0.core group0 = false) :=
  ⟨⟨calm_meet _ _ (by decide) (by decide), by decide⟩, calm_meet _ _ (by decide) (by decide), by decide, by decide⟩

/-- An atomic and a reduction of a word at 0. -/
theorem witness_Atomics :
    MeetsCalm thread0 (.atomic ⟨false, 8, 10, 0, 0, 4, 6, 0⟩) ∧ MeetsCalm thread0 (.reduction ⟨false, 10, 0, 0, 4, 6, 0⟩) ∧
    ∀ j ∈ members 5, goesTo (seen thread0) (some j) 2 0 0 (tyBytes 4) (tyBytes 4) = true :=
  ⟨calm_meet _ _ (by decide) (by decide), calm_meet _ _ (by decide) (by decide), by decide⟩

/-- An atomic, a token acquire and a reduction of a word in HBM, of a group that one slot holds: each operation, a cas that matches and one that does not, and operands at the ends of their range. -/
theorem witness_AtomicValues :
    let p : Piece := { loc := 0, n := 4, die := 0, key := some 0, kind := 0, mx := 0, sx := false, cw := false, peer := false }
    (groupAt (coreAt machine0 0) 0 = some group0 ∧ Rising (coreAt machine0 0).ctx.groups ∧ (∀ q ∈ (coreAt machine0 0).ctx.groups, q.2.uid = group0.uid → q.1 = 0) ∧ group0.threads.length = 32 ∧
      (teamAt machine0 group0.team).map (fun t => decide (t.role ≠ .mirror)) = some true ∧ ∃ x ∈ group0.threads, x.ended = false) ∧
    (Memory.wf machine0.mem = true ∧ p.peer = false ∧ p.mx = 0 ∧ p.loc < tsmBase ∧ p.n = tyBytes 4 ∧ (List.range (tyRegs 4)).map (8 + ·) = [8]) ∧
    (pieceRead machine0 p = 0x5C000000 ∧ 0x5C000000 = (0x5C000000 + 2 ^ 32) % 2 ^ 32 ∧ 0x5C000000 ≠ 1 % 2 ^ 32 ∧ 256 ^ 4 - 1 < 256 ^ 4 ∧ 256 ^ 8 - 1 < 256 ^ 8) := by unfold Rising; decide

/-- Each clause of AddressSpaces at the ends of its range: a misaligned address; the last byte of a team's memory and one past it; the first address beyond 2^56; the ends of a mapped page; the ends of a scratchpad part; a rank that lives, one that does not, and one outside the cluster. -/
theorem witness_AddressSpaces :
    isControl 0 = false ∧ 1 % 4 ≠ 0 ∧
    (let v := seen thread0
     65532 + 4 ≤ v.h.tsm ∧ ¬ 65536 + 4 ≤ v.h.tsm ∧ 2 ^ 56 < (2 ^ 56 - 4) + 16 ∧
     (∀ ea ∈ [0, 16380], (tlbHit v.s v.c v.h.ptroot ea 0).map (fun e => decide (ea + 4 ≤ e.va + e.size) && leafAlias e.leaf == 0 && decide (leafKind e.leaf < 3)) = some true) ∧
     (slice (3 * 2 ^ 27 + 16380) 28 27 = 3 ∧ slice (3 * 2 ^ 27 + 16380) 26 0 + 4 ≤ v.h.spwin ∧ ¬ slice 16384 26 0 + 4 ≤ v.h.spwin) ∧
     (slice 65532 21 18 = 0 ∧ 0 < v.h.clw * v.h.clh ∧ slice 65532 17 0 + 4 ≤ v.h.tsm ∧ ¬ slice (2 ^ 18) 21 18 < v.h.clw * v.h.clh) ∧
     (∃ t, teamAt v.s v.g.team = some t ∧ hasBit (tget 0 v.c.live t.cluster) 0 = true ∧ (rankTeam v.s t 0).isSome = true)) ∧
    hasBit (tget 0 { core0 with live := [] }.live 1) 0 = false :=
  ⟨by decide, by decide, ⟨by decide, by decide, by decide, by decide, by decide, by decide, ⟨placedTeam, by decide, by decide, by decide⟩⟩, by decide⟩

def fidelity1 : State := { base with launches := [(1, { placedLaunch with hdr := { placedHdr with fid := 1 } })] }
/-- Updates with their operands there and room in the queue; a semiring update in a launch at F1. -/
theorem witness_MatrixUpdates :
    (∀ i ∈ ([.mma ⟨false, 0, 7, 8, 16, none⟩, .mmaMx ⟨false, 4, 7, 8, 16, 40, 41⟩, .mmsrBf16 ⟨false, 7, 8, 16, 1, none⟩] : List Instr), Meets thread0 i) ∧
    (let v := seen thread0
     deadTraps group0 = false ∧ updateWaits ⟨none, 0, 7, 8, 16, none⟩ v = [] ∧ updateWaits ⟨none, 6, 7, 8, 16, some (40, 41)⟩ v = [] ∧ updateWaits ⟨some 1, 0, 7, 8, 16, none⟩ v = [] ∧
     queueRoom v = true ∧ opCount group0 2 < 0xFFFF ∧ ((hdrOf machine0 1).fid != 0) = false) ∧
    MeetsIn fidelity1 core0 group0 bundle0 (.mmsrBf16 ⟨false, 7, 8, 16, 1, none⟩) ∧ ((hdrOf (machineIn fidelity1 core0 group0 bundle0) 1).fid != 0) = true :=
  ⟨all_meet (by decide), by decide, meets_of _ _ _ _ (by decide), by decide⟩

/-- ard, azero and arel with room in the queue; ast of rows at 0. -/
theorem witness_TileWords :
    (∀ i ∈ ([.ard ⟨false, 7, 8, 1, 0, none⟩, .azero ⟨false, 7, none⟩, .arel ⟨false, 0, none⟩] : List Instr), Meets thread0 i) ∧ MeetsCalm thread0 (.ast ⟨false, 7, 10, 1, 0, 0, none⟩) ∧
    (let v := seen thread0
     queueRoom v = true ∧ opCount group0 2 + (members 5).length ≤ 0xFFFF ∧ ∀ j ∈ members 5, (readBase v (some j) (baseSrc 0 10)).val = 0 ∧ cutGoes v (some j) 1 0 0 (4 * ardRegs 0) = true) :=
  ⟨all_meet (by decide), calm_meet _ _ (by decide) (by decide), by decide⟩

/-- A copy of one byte from 64 to 128 in the team's memory, in the record at 0. -/
def record : Nat := 0x05 * 2 ^ 8 + 0xFFFF * 2 ^ 16 + 1 * 2 ^ 32 + 64 * 2 ^ 64 + 128 * 2 ^ 128
def kicking : State := { base with mem := memWrite base.mem (tsmLoc 1 0) 32 record }
/-- xkick of that record by each thread and by the group. -/
theorem witness_CopyKicks :
    MeetsIn kicking core0 group0 bundle0 (.xkick ⟨false, false, 0, none⟩) ∧ MeetsIn kicking core0 group0 bundle0 (.xkick ⟨false, true, 0, none⟩) ∧
    (let s := machineIn kicking core0 group0 bundle0
     let v := viewAt s bundle0 0 group0 5
     mirrored s group0 = false ∧ bundle0.done = [] ∧ (∀ j ∈ members 5, kickCheck v (some j) 0 [] = none) ∧ kickCheck v none 0 [] = none ∧ s.core.copies.length + (members 5).length ≤ 16 ∧
     opCount group0 1 + (members 5).length ≤ 0xFFFF ∧ unresolvedS s.core group0 = false ∧ (recGidOn record = false)) ∧
    Calm (machineIn kicking core0 group0 bundle0).core group0 5 :=
  ⟨meets_of _ _ _ _ (by decide), meets_of _ _ _ _ (by decide), by decide, calm_of (by decide)⟩

/-- The plain machine with the barrier object at 0 written. -/
def phased : State := { base with mem := memWrite base.mem (tsmLoc 1 0) 16 0 }
/-- A wait of the parity of v6, which differs from PH of the object at 0, and of the parity 0, which it equals. -/
theorem witness_BarrierObjectWaits :
    (MeetsIn phased core0 group0 bundle0 (.bobjWait ⟨false, 0, 6, none⟩) ∧ MeetsIn phased core0 group0 bundle0 (.bobjWait ⟨false, 0, 0, none⟩)) ∧ bundle0.done = [] ∧
    bundle0.pos = bundle0.stepPos ∧
    (let v := viewAt (machineIn phased core0 group0 bundle0) bundle0 0 group0 5
     ∀ j ∈ members 5, Arrived v j ∧ boPh (ownTsm v (some j) 0 16) = false) ∧ 3 % 2 = 1 ∧ 0 % 2 ≠ 1 :=
  ⟨⟨meets_of _ _ _ _ (by decide), meets_of _ _ _ _ (by decide)⟩, by decide, by decide, by unfold Arrived; decide, by decide, by decide⟩
/-- Barrier-object words at the first and the last object of the team's memory. -/
theorem witness_BarrierObjects :
    (∀ u ∈ [false, true], MeetsCalm thread0 (.bobjInit ⟨false, u, 0, 6, 6, none⟩) ∧ MeetsCalm thread0 (.bobjArrive ⟨false, u, 8, 0, none⟩)) ∧ MeetsCalm thread0 (.bobjWait ⟨false, 0, 6, none⟩) ∧
    (∀ x ∈ [0, 65520], x % 16 = 0 ∧ x + 16 ≤ (hdrOf machine0 1).tsm) ∧ unresolvedS machine0.core group0 = false ∧
    (∀ x ∈ [0, 65520], ∀ thr ∈ [none, some 0, some 2], tokenBars (seen thread0).c 1 (seen thread0).c.next (poOf 5 thr) [bobjPiece (tsmLoc 1 x)] = false ∧
      barredBefore (seen thread0).c 1 (poOf 5 thr) [bobjPiece (tsmLoc 1 x)] = false ∧
      orderBlocked (seen thread0) thr [bobjPiece (tsmLoc 1 x)] = false) ∧
    ∀ j ∈ members 5, (readSrc group0 j (threadAt group0 j) none .m ⟨0, 1, true, false⟩).val = 0 ∧ Drained (seen thread0) j 4 ∧ Arrived (seen thread0) j := by
  refine ⟨?_, calm_meet _ _ (by decide) (by decide), by decide, by decide, by decide, by unfold Drained Arrived; decide⟩
  intro u hu
  rcases List.mem_cons.mp hu with rfl | hu
  · exact ⟨calm_meet _ _ (by decide) (by decide), calm_meet _ _ (by decide) (by decide)⟩
  · rw [List.mem_singleton.mp hu]; exact ⟨calm_meet _ _ (by decide) (by decide), calm_meet _ _ (by decide) (by decide)⟩

/-- A machine whose object at 32 is as given, with bundles that wait at it: one for PH to turn from 0, one for it to turn from 1, and one that waits at another object too. -/
def objectAt (arrc arri bytc byti stat : Nat) : State :=
  let w := fun (ws : List (Nat × Bool × Nat × Nat)) => { bundle0 with wait := some (.bobj ws), parked := true }
  let s := machineOf group0 bundle0
  let c := coreAt s 0
  setCore { s with mem := memWrite s.mem (tsmLoc 1 32) 16 (arrc + arri * 2 ^ 16 + bytc * 2 ^ 32 + byti * 2 ^ 64 + stat * 2 ^ 96) } 0
    { c with ctx := { c.ctx with bundles := [(0, w [(tsmLoc 1 32, false, 0, 0), (tsmLoc 1 32, false, 0, 2)]), (1, w [(tsmLoc 1 32, true, 0, 0)]), (2, w [(tsmLoc 1 32, false, 0, 0), (tsmLoc 1 48, false, 0, 2)])] } }
/-- An object in space t of no saved context; an arrival and bytes that complete its phase, that leave an arrival or a byte missing, and an arrival that none expects. -/
theorem witness_ObjectUpdates :
    (∀ x ∈ [(objectAt 1 4 0 8 0), (objectAt 1 4 8 8 1), (objectAt 0 4 8 8 4)], Memory.wf x.mem = true ∧ (coreAt x 0).exch ≠ .swap ∧ (coreAt x 0).saved.groups = [] ∧
      groupAt (coreAt x 0) 0 = some group0 ∧ groupReady group0 = true) ∧ group0.threads.length = 32 ∧
    (tsmBase ≤ tsmLoc 1 32 ∧ tsmLoc 1 32 + 16 ≤ sramBase ∧ tsmLoc 1 32 % 16 = 0 ∧ (tsmLoc 1 32 - tsmBase) / 2 ^ 18 = 1) ∧
    (let s := objectAt 1 4 0 8 0
     memRead s.mem (tsmLoc 1 32) 2 - 1 = 0 ∧ memRead s.mem (tsmLoc 1 36) 4 = 0 ∧ memRead s.mem (tsmLoc 1 44) 4 % 2 = 0) ∧
    (let s := objectAt 1 4 8 8 1
     memRead s.mem (tsmLoc 1 32) 2 - 1 = 0 ∧ memRead s.mem (tsmLoc 1 36) 4 ≠ 0 ∧ memRead s.mem (tsmLoc 1 32) 2 ≠ 0 ∧ memRead s.mem (tsmLoc 1 44) 4 % 2 = 1) ∧
    (let s := objectAt 0 4 8 8 4
     memRead s.mem (tsmLoc 1 32) 2 = 0 ∧ (memRead s.mem (tsmLoc 1 36) 4 + 2 ^ 32 - 8 % 2 ^ 32) % 2 ^ 32 = 0 ∧ (memRead s.mem (tsmLoc 1 36) 4 + 2 ^ 32 - 7 % 2 ^ 32) % 2 ^ 32 ≠ 0) := by decide

def gids : State := { base with clusters := [(1, ⟨1, [1], [(0, ⟨1, 0, 0, false, [], []⟩)]⟩)] }
def bitmap : State := { base with launches := [(1, { placedLaunch with hdr := { placedHdr with cbmap := 4096 } })] }
/-- mcfree of an id of the team and of a closed one; token words at a cell at 0; cbset with a bitmap and without one. -/
theorem witness_EngineWords :
    (∀ s ∈ [base, gids], MeetsIn s core0 group0 bundle0 (.mcfree ⟨false, 0, none⟩)) ∧
    ((gidOf base 1 0).isNone = true ∧ (gidOf gids 1 0).map (·.team) = some 1) ∧
    (∀ u ∈ [false, true], MeetsCalm thread0 (.tqtokRel ⟨false, u, 10, none⟩) ∧ MeetsCalm thread0 (.tqtokAcq ⟨false, u, 1, 10, none⟩) ∧ MeetsCalm thread0 (.cbset ⟨false, u, none⟩)) ∧
    (∀ thr ∈ [none, some 0, some 2], goesTo (seen thread0) thr 2 0 0 8 8 = true ∧ goesTo (viewAt (machineIn bitmap core0 group0 bundle0) bundle0 0 group0 5) thr 2 0 4096 1 1 = true) ∧
    MeetsIn bitmap core0 group0 bundle0 (.cbset ⟨false, false, none⟩) ∧ (hdrOf machine0 1).cbmap = 0 ∧
    (hdrOf (machineIn bitmap core0 group0 bundle0) 1).cbmap + placedTeam.idx / 8 = 4096 ∧ mirrored machine0 group0 = false ∧ opCount group0 3 + (members 5).length ≤ 0xFFFF ∧
    ∀ j ∈ members 5, ∀ scope ∈ [6, 7], Drained (seen thread0) j scope := by
  refine ⟨?_, by decide, ?_, by decide, meets_of _ _ _ _ (by decide), by decide, by decide, by decide, by decide, by unfold Drained; decide⟩
  · intro s hs
    rcases List.mem_cons.mp hs with rfl | hs
    · exact meets_of _ _ _ _ (by decide)
    · rw [List.mem_singleton.mp hs]; exact meets_of _ _ _ _ (by decide)
  · intro u hu
    rcases List.mem_cons.mp hu with rfl | hu
    · exact ⟨calm_meet _ _ (by decide) (by decide), calm_meet _ _ (by decide) (by decide), calm_meet _ _ (by decide) (by decide)⟩
    · rw [List.mem_singleton.mp hu]; exact ⟨calm_meet _ _ (by decide) (by decide), calm_meet _ _ (by decide) (by decide), calm_meet _ _ (by decide) (by decide)⟩

/-- Device queue 0 with room for n entries. -/
def queued (n : Nat) : State := { base with queues := [(16, { host := false, base := 8192, cap := n, root := 0, head := 0, tail := 0, fid := none })] }
/-- tqpush of a header at 0 to a queue with room, and to one without room and without a time to wait, by each thread and by the group. -/
theorem witness_QueuePushes :
    (∀ u ∈ [false, true], ∀ s ∈ [queued 16, queued 0], MeetsIn s core0 group0 bundle0 (.tqpush ⟨false, u, 1, 10, 0, 0, none⟩)) ∧
    (let v := viewAt (machineIn (queued 16) core0 group0 bundle0) bundle0 0 group0 5
     (∀ thr ∈ [none, some 0, some 2], goesTo v thr 0 0 0 160 8 = true) ∧ (queueAt v.s 16).isSome = true ∧
     (∀ j ∈ members 5, pushesAhead v 0 (pushRank v j) = 0) ∧ queueFree v.s 0 = 16) ∧
    (let v := viewAt (machineIn (queued 0) core0 group0 bundle0) bundle0 0 group0 5
     queueFree v.s 0 = 0 ∧ pushExpired v 0 = true) := by
  refine ⟨?_, by decide, by decide⟩
  intro u hu s hs
  rcases List.mem_cons.mp hu with rfl | hu <;> rcases List.mem_cons.mp hs with rfl | hs
  · exact meets_of _ _ _ _ (by decide)
  · rw [List.mem_singleton.mp hs]; exact meets_of _ _ _ _ (by decide)
  · rw [List.mem_singleton.mp hu]; exact meets_of _ _ _ _ (by decide)
  · rw [List.mem_singleton.mp hu, List.mem_singleton.mp hs]; exact meets_of _ _ _ _ (by decide)

def bitSet : State := { base with mem := memWrite base.mem 4096 1 1 }
def polling : Thread := { thread0 with v := [(10, ⟨4096, false, false⟩)] }
/-- cbwait on a bit that is set. -/
theorem witness_BitmapWaits : MeetsIn bitSet core0 (groupOf polling) bundle0 (.cbwait ⟨false, 10, 8, none⟩) ∧
    (let s := machineIn bitSet core0 (groupOf polling) bundle0
     let v := viewAt s bundle0 0 (groupOf polling) 5
     ∀ j ∈ members 5, (readSrc v.g j (threadAt v.g j) none .m ⟨10, 2, false, false⟩).val = 4096 ∧ readsPending s.core v.g j = false ∧ goesTo v (some j) 0 0 4096 1 1 = true ∧
       piecesRead (ownView v (oneBit j) (checked v (some j) 0 false 0 4096 1 1).pieces) (checked v (some j) 0 false 0 4096 1 1).pieces % 2 = 1) :=
  ⟨meets_of _ _ _ _ (by decide), by decide⟩

/-- Core 0 of the plain machine changed. -/
def withCore (f : Core → Core) : State := setCore machine0 0 (f machine0.core)
def load0 : Load :=
  { num := 3, own := 1, slot := 0, thr := some 0, po := 1, pc := 0, pos := 0, kind := .load, dsts := [8], ty := 4, ea := 0, pieces := [], cls := 1, pred := 0, issue := 0,
    deadline := some 5, pen := false, got := [], guess := none, holds := [], written := false, detached := false, op := none, mate := 0, came := none }
def write0 : Write := { num := 3, own := 1, slot := 0, thr := some 0, po := 1, lseq := 1, pieces := [], data := 0, rmw := none, rel := false, ty := 0, op := none, held := false, window := 0, begun := false }
/-- A piece on the peer of rank 1. -/
def peerPiece : Piece := { loc := 2 * 2 ^ 39, n := 4, die := 0, key := none, kind := 0, mx := 0, sx := false, cw := false, peer := true }
/-- A piece of HBM of die 3, down path 1. -/
def farPiece : Piece := { peerPiece with peer := false, die := 3, loc := 128 }
/-- A guess that stands in thread 0, with its first predicted value. -/
def guess0 : Load := { load0 with written := true, guess := some 9, holds := [8] }
/-- A job whose rank 1 is reached over link 0. -/
def job0 : Job := { id := 1, rank := 0, ranks := 2, table := [0, 1] }

/-- A window of 96 registers that shrinks to 16, and one that grows to 112 and moves to the lowest granules; a load of the group holds a guess in a register that goes. -/
theorem witness_WindowChanges :
    groupAt (coreAt machine0 0) 0 = some group0 ∧ group0.threads.length = 32 ∧ 16 ≤ group0.win ∧ group0.win < 112 ∧
    (∀ w ∈ [16, 112], ((groupAt (coreAt (doAct machine0 0 0 0 5 none 0 (.window w)) 0) 0).bind (·.base)).isSome = true) ∧
    (let s := withCore fun c => { c with loads := [{ load0 with written := true, guess := some 9, holds := [8, 40] }] }
     (coreAt (doAct s 0 0 0 5 none 0 (.window 16)) 0).loads.map (fun l => (l.own, l.thr, l.holds)) = [(group0.uid, some 0, [8])]) := by decide

/-- The plain machine with a request and a write on core 0, in a job whose link 0 is in a state. -/
def linked (x : LinkState) (ls : List Load) (ws : List Write) : State := { withCore (fun c => { c with loads := ls, writes := ws }) with job := some job0, links := [(0, x)] }
/-- A load past its deadline and one at it; a load, an atomic and a token acquire of one unit, and a write, whose turn has come and whose way is open, waits, or is lost; and the same behind an earlier write. -/
theorem witness_HomeEvents :
    (let s := { withCore (fun c => { c with loads := [load0] }) with now := 6 }
     loadAt (coreAt s 0) 3 = some load0 ∧ load0.kind = .load ∧ load0.written = false ∧ load0.cls ≠ 0 ∧ load0.deadline = some 5 ∧ 5 < s.now ∧ ¬ 6 < s.now) ∧
    (∀ k ∈ [ReqKind.load, .atomic 0 1, .token 1],
      let l := { load0 with kind := k, pieces := [peerPiece], deadline := none }
      let before := { write0 with num := 2, pieces := [peerPiece] }
      loadAt (coreAt (linked .w4 [l] []) 0) 3 = some l ∧ l.pieces[0]? = some peerPiece ∧ (∀ r ∈ [true, false], accessDue (coreAt (linked .w4 [l] []) 0) 1 3 1 r l.unread = true ∧
        accessDue (coreAt (linked .w4 [l] [before]) 0) 1 3 1 r l.pieces = false) ∧
      piecesWay (linked .w4 [l] []) l.unread = .opened ∧ piecesWay (linked .rcv [l] []) l.pieces = .waits ∧ piecesWay (linked .down [l] []) l.pieces = .lost ∧
      (∀ p ∈ l.pieces, asleep (linked .w4 [l] []) p = false)) ∧
    (let p := { peerPiece with loc := 0, peer := false }
     let s := { machine0 with dies := [(0, { Die.start with lowPower := [(0, none)] })] }
     piecesWay s [p] = .opened ∧ asleep s p = true) ∧
    (let w := { write0 with pieces := [peerPiece] }
     writeAt (coreAt (linked .w4 [] [w]) 0) 3 = some w ∧ w.held = false ∧ w.pieces[0]? = some peerPiece ∧ unitDue (coreAt (linked .w4 [] [w]) 0) 0 w peerPiece = true ∧
     unitDue (coreAt (linked .w4 [] [{ w with num := 2 }, w]) 0) 0 w peerPiece = false ∧ piecesWay (linked .w4 [] [w]) [peerPiece] = .opened ∧
     piecesWay (linked .rcv [] [w]) [peerPiece] = .waits ∧ piecesWay (linked .down [] [w]) [peerPiece] = .lost ∧ (owner (coreAt machine0 0) 1).isSome = true) := by decide

/-- Data that have come to a waiting gdemand; and an atomic of HBM of another die with no earlier write of its line, with one to other bytes of its line, and with one to another line. -/
theorem witness_HomeAgain :
    (let s := withCore fun c => { c with loads := [guess0.arrive 9] }
     loadAt (coreAt s 0) 3 = some (guess0.arrive 9) ∧ (guess0.arrive 9).kind = .load ∧ (guess0.arrive 9).came ≠ none) ∧
    let l := { load0 with kind := .atomic 0 1, pieces := [farPiece] }
    ∀ x ∈ [(124, false), (132, true), (252, true), (256, false)],
      let c := coreAt (linked .w4 [l] [{ write0 with num := 2, po := 2, pieces := [{ farPiece with loc := x.1, n := 4, die := 3 }] }]) 0
      loadAt c 3 = some l ∧ accessDue c 1 3 1 false l.pieces = true ∧ lineBars c 0 3 farPiece = x.2 := by decide

/-- A unit of a store of one unit and of two, and of a load of two units, one of which has been read. -/
theorem witness_PlainAccesses :
    let p : Piece := { peerPiece with peer := false, loc := 4096, n := 8 }
    let q : Piece := { p with loc := 4104, n := 4 }
    Memory.wf machine0.mem = true ∧ (∀ r ∈ [p, q], r.peer = false ∧ r.mx = 0 ∧ 0 < r.n ∧ r.n ≤ 128 ∧ r.loc < tsmBase) ∧
    (∀ ps ∈ [[p], [p, q]],
      let w := { write0 with pieces := ps, data := 0x0102030405060708 }
      let s := withCore fun c => { c with writes := [w] }
      Memory.wf s.mem = true ∧ writeAt (coreAt s 0) w.num = some w ∧ w.pieces[0]? = some p ∧ w.rmw = none ∧ ∀ q ∈ (coreAt s 0).ctx.groups, q.2.uid = w.own → (q.2.threads.head?.map (·.ended)) = some false) ∧
    let l := { load0 with pieces := [p, q], got := [(0, 7)] }
    let s := withCore fun c => { c with loads := [l], writes := [] }
    loadAt (coreAt s 0) l.num = some l ∧ (coreAt s 0).writes = [] ∧ l.pieces[1]? = some q ∧ tfind l.got 1 = none ∧ tfind l.got 0 = some 7 := by decide

/-- A load that waits, of one register and of four. -/
theorem witness_LoadsInstalled :
    groupAt (coreAt machine0 0) 0 = some group0 ∧ Rising (coreAt machine0 0).ctx.groups ∧ (∀ q ∈ (coreAt machine0 0).ctx.groups, q.2.uid = group0.uid → q.1 = 0) ∧
    group0.threads.length = 32 ∧ load0.own = group0.uid ∧ load0.thr = some 0 ∧ load0.op = none ∧ load0.kind = .load ∧ load0.written = false ∧
    ∀ x ∈ [(1, [8]), (4, [8]), (6, [8, 9, 10, 11])], { load0 with ty := x.1, dsts := x.2 }.dsts = (List.range (tyRegs x.1)).map (8 + ·) ∧ x.1 ≤ 6 := by unfold Rising; decide

/-- What witness_FlushEvents calls behind: a write or an atomic of core 0 that goes before release 3 to a die down a path. -/
abbrev behindAt (s : State) (die path : Nat) : Prop :=
  (∃ w ∈ (coreAt s 0).writes, w.num < 3 ∧ w.held = false ∧ ∃ p ∈ w.pieces, die ∈ postedTo 0 [p] ∧ pathOf s 0 p = path) ∨
    ∃ l ∈ (coreAt s 0).loads, l.num < 3 ∧ l.kind ≠ .load ∧ l.kind ≠ .fill ∧ ∃ p ∈ l.pieces, die ∈ postedTo 0 [p] ∧ pathOf s 0 p = path
def release0 : Release := { num := 3, own := 1, slot := 0, thr := 0, writes := [], markers := [(1, 1), (2, 0), (3, 3)], reports := [] }
/-- A marker that may arrive, down either path to the diagonal die and at a peer over a link that works; one behind a write of another thread, or an atomic, of its own path and not behind one sent after the release or down the other path, and one whose link is DOWN; a report that is not the last, and the last one. -/
theorem witness_FlushEvents :
    (let s := withCore fun c => { c with releases := [release0] }
     lfind (fun (x : Release) => x.num == 3) (coreAt s 0).releases = some release0 ∧ ¬behindAt s 3 0 ∧ ¬behindAt s 3 1 ∧ (2, 0) ∈ release0.markers ∧ 2 ∉ release0.reports ∧
      (∃ m ∈ release0.markers, m.1 ≠ 2 ∧ m.1 ∉ release0.reports)) ∧
    (let r := { release0 with markers := [(2, 0), (3, 0)], reports := [3] }
     lfind (fun (x : Release) => x.num == 3) (coreAt (withCore fun c => { c with releases := [r] }) 0).releases = some r ∧ (∀ m ∈ r.markers, m.1 = 2 ∨ m.1 ∈ r.reports)) ∧
    (∀ x ∈ [(2, true), (3, false)], let s := withCore fun c => { c with releases := [release0], writes := [{ write0 with num := x.1, thr := some 7, po := 0x80, pieces := [farPiece] }] }
      (behindAt s 3 1 ↔ x.2 = true) ∧ ¬behindAt s 3 0) ∧
    (∀ x ∈ [(ReqKind.atomic 0 1, true), (.token 0, true), (.load, false), (.fill, false)],
      (behindAt (withCore fun c => { c with releases := [release0], loads := [{ load0 with num := 2, kind := x.1, pieces := [farPiece] }] }) 3 1 ↔ x.2 = true)) ∧
    linkWorks (linked .w4 [] []) 0 = true ∧ linkWorks (linked .down [] []) 0 = false :=
  ⟨by decide, by decide, by decide, by decide, by decide⟩

/-- A packet whose first word is gdemand of v8. -/
def demandPkt : Pkt := ⟨0x5C344000, 0x5C000000, 0xDC000000⟩
def demanding (ls : List Load) : State := withCore fun c => setBundle { c with loads := ls } 0 { bundle0 with pkt := some demandPkt, wait := some (.demand [3]), tried := true }
/-- A guess in v8 whose data equal it or do not, waited for at gdemand and not; and data that have come to one, of one register and of four, the last of which the load holds no more. -/
theorem witness_GuessResolution :
    (∀ x ∈ [(withCore fun c => { c with loads := [guess0] }, false), (demanding [guess0], true)],
      groupAt (coreAt x.1 0) 0 = some group0 ∧ Rising (coreAt x.1 0).ctx.groups ∧ (∀ q ∈ (coreAt x.1 0).ctx.groups, q.2.uid = group0.uid → q.1 = 0) ∧ group0.threads.length = 32 ∧
      guess0 ∈ (coreAt x.1 0).loads ∧ (∀ q ∈ (coreAt x.1 0).loads, q.num = guess0.num → q = guess0) ∧ guess0.own = group0.uid ∧ guess0.thr = some 0 ∧ guess0.op = none ∧ guess0.kind = .load ∧
      guess0.written = true ∧ guess0.guess = some 9 ∧ guess0.detached = false ∧ guess0.came = none ∧ demandedNow (coreAt x.1 0) guess0 = x.2 ∧ (threadAt group0 0).rf = false ∧
      ∀ q ∈ (coreAt x.1 0).loads, q.guessed = true → q.concerns group0.uid 0 = true → q = guess0) ∧
    ∀ l ∈ [guess0.arrive 9, { guess0.arrive (2 ^ 127) with ty := 6, dsts := [8, 9, 10, 11], holds := [8, 9, 10] }],
      let c := coreAt (demanding [l]) 0
      groupAt c 0 = some group0 ∧ Rising c.ctx.groups ∧ (∀ q ∈ c.ctx.groups, q.2.uid = group0.uid → q.1 = 0) ∧ loadAt c l.num = some l ∧ l.own = group0.uid ∧ l.thr = some 0 ∧ l.came ≠ none ∧
      l.ty ≤ 6 ∧ l.dsts = (List.range (tyRegs l.ty)).map (8 + ·) ∧ 8 ∈ l.holds := by
  unfold Rising; decide

/-- A bundle that waits for something that has come about. -/
def waiting (w : Wait) : State := withCore fun c => setBundle c 0 { bundle0 with wait := some w, parked := true }
/-- One wait of each kind, in a bundle that is found with it; its groups can be given the selector, and one that moves cannot. -/
theorem witness_WaitEnds :
    (∀ w ∈ [Wait.reg [⟨0, some 0, 8⟩], .certainty [(0, 0)], .demand [3], .loads, .queue [(4, 0, 16), (5, 0, 4), (5, 2, 4), (0, 0, 65535)], .jwait 7, .arrive 0 15, .barrier 2 0, .bobj [], .cbwait, .slp,
        .vgrow 96, .tqpush [] none, .tqpush [(0, 0)] (some 0), .owait 0 0, .walk, .fence []],
      bundleAt (coreAt (waiting w) 0) 0 = some { bundle0 with wait := some w, parked := true }) ∧
    (∀ p ∈ bundle0.parts, ∀ g, groupAt (coreAt machine0 0) p.slot = some g → g = group0) ∧
    (group0.swap = .resident ∧ group0.faults = [] ∧ group0.moving = false ∧ group0.argsLeft = []) ∧ ({ group0 with moving := true } : Group).moving ≠ false := by
  refine ⟨by decide, ?_, by decide⟩
  intro p hp g hg
  rw [List.mem_singleton.mp hp] at hg
  exact (Option.some.inj hg).symm
/-- Each wait over, and not over at the next value. -/
theorem witness_WaitOver :
    (let c := fun (l : Load) => coreAt (withCore fun c => { c with loads := [l] }) 0
     pendingReg (c load0) group0 ⟨0, some 0, 8⟩ = true ∧ pendingReg (c load0) group0 ⟨0, some 0, 9⟩ = false ∧
     unresolved (c guess0) group0 0 = true ∧ unresolved (c guess0) group0 1 = false ∧
     (loadAt (c guess0) 3 = some guess0 ∧ guess0.came = none) ∧ (loadAt (c (guess0.arrive 9)) 3 = some (guess0.arrive 9) ∧ (guess0.arrive 9).came ≠ none) ∧
     readsPending (c load0) group0 0 = true ∧ readsPending (c load0) group0 1 = false) ∧
    (machine0.core.copies.length + 16 ≤ 16 ∧ ¬ machine0.core.copies.length + 17 ≤ 16 ∧ machine0.core.ctx.mq0.length + 4 ≤ 4 ∧ ¬ machine0.core.ctx.mq1.length + 5 ≤ 4 ∧
      (group0.ops.filter fun o => o.cls == 0).length + 65535 ≤ 65535 ∧ ¬ (group0.ops.filter fun o => o.cls == 0).length + 65536 ≤ 65535) ∧
    ((∃ q ∈ ({ bundle0 with done := [⟨0, 5⟩] } : Bundle).done, q.slot = 0) ∧ ¬ ∃ q ∈ bundle0.done, q.slot = 0) ∧
    (∀ x ∈ [(0, 15), (1, 15), (2, 0)], arrived thread0 x.1 x.2 = false ∧ arrived (setArrived thread0 x.1 x.2 true) x.1 x.2 = true) ∧
    (∀ x ∈ [(0, true), (1, false)], ∀ d, ({ thread0 with sleep := some x.1 } : Thread).sleep = some d → (d ≤ machine0.now ↔ x.2 = true)) ∧
    (let c := coreAt (withCore fun c => setGroup c 2 { group0 with uid := 2, base := some 0, win := 2960 }) 0
     (windowFits c group0.uid 112).isSome = true ∧ (windowFits c group0.uid 128).isSome = false) ∧
    (let full := machineIn (queued 0) core0 group0 { bundle0 with wait := some (.tqpush [(0, 0)] none), pushes := [(0, 0)] }
     ¬ waitingPushes full 0 0 < queueFree full 0 ∧ (0 ≤ full.now ∧ ¬ 1 ≤ full.now) ∧
      (let room := machineIn (queued 1) core0 group0 { bundle0 with wait := some (.tqpush [(0, 0)] none), pushes := [(0, 0)] }
       waitingPushes room 0 0 < queueFree room 0 ∧ ¬ waitingPushes room 0 1 < queueFree room 0)) ∧
    (let g := { group0 with ops := [⟨0, 1, false⟩] }
     (g.ops.filter fun o => o.cls == 0).length ≤ 1 ∧ ¬ (g.ops.filter fun o => o.cls == 0).length ≤ 0) := by decide

/-- A frontier entry that waits for all threads of the group. -/
def entry0 : FEntry := { start := 0, prio := 9, wait := 0xFFFFFFFF, age := 0, cyc := 0, joined := 0, promoted := false, ready := true, fid := none }
def entered : Group := { group0 with frontier := [entry0] }
/-- The plain machine a cycle later, with no open bundle and with groups whose frontiers are given. -/
def choosing (gs : Tab Group) : State :=
  { setCore machine0 0 { machine0.core with ctx := { machine0.core.ctx with groups := gs, bundles := [], run0 := none } } with tcs := [(0, { Tc.start with cyc := 1 })] }
def entry8 : FEntry := { entry0 with start := 8, promoted := true, prio := 0, wait := 0xFFFF }
/-- A selector that chooses: an open bundle that it does not run; the entry of a frontier, the promoted one before that of a higher priority; entries of two groups with 16 threads or fewer that fuse, and those that do not; the entry of a sub-group. -/
theorem witness_SelectorChoices :
    (let s := { setCore machine0 0 (setRun machine0.core 0 none) with tcs := [(0, { Tc.start with cyc := 1 })] }
     settleTc s 0 = s ∧ candidates 1 (coreAt s 0) 0 = [⟨false, ⟨false, 0xFFFF, 0, 0⟩, 0, .bundle 0⟩] ∧ bundleAt (coreAt s 0) 0 = some bundle0 ∧ runOf (coreAt s 0) 0 ≠ some 0) ∧
    (let g := { group0 with frontier := [entry0, entry8] }
     let s := choosing [(0, g)]
     settleTc s 0 = s ∧ candidates 1 (coreAt s 0) 0 = [⟨false, ⟨true, 0, 0, 8⟩, 0, .entry 0 none 8⟩] ∧ groupAt (coreAt s 0) 0 = some g ∧
       lfind (fun (y : FEntry) => y.start == 8) g.frontier = some entry8 ∧ fusePartner 1 (coreAt s 0) 0 0 g 8 = none ∧
       (∀ q ∈ (coreAt s 0).ctx.groups, (q.2.frontier.map (·.start)).Nodup ∧ ∀ x ∈ q.2.subs, (x.2.frontier.map (·.start)).Nodup)) ∧
    (let g := { group0 with frontier := [entry8] }
     let y := { entry8 with wait := 1, prio := 5, promoted := false }
     let q := { group0 with uid := 2, gnum := 1, frontier := [y] }
     let s := choosing [(0, g), (1, q)]
     settleTc s 0 = s ∧ candidates 1 (coreAt s 0) 0 = [⟨false, ⟨true, 0, 0, 8⟩, 0, .entry 0 none 8⟩, ⟨false, ⟨false, 5, 0, 8⟩, 1, .entry 1 none 8⟩] ∧ fusePartner 1 (coreAt s 0) 0 0 g 8 = some (1, y) ∧
       fusePartner 1 (coreAt (choosing [(0, g), (1, { q with frontier := [{ y with wait := 0x1FFFF }] })]) 0) 0 0 g 8 = none ∧
       fusePartner 1 (coreAt (choosing [(0, g), (2, q)]) 0) 0 0 g 8 = none ∧
       (∀ q ∈ (coreAt s 0).ctx.groups, (q.2.frontier.map (·.start)).Nodup ∧ ∀ x ∈ q.2.subs, (x.2.frontier.map (·.start)).Nodup)) ∧
    (let g := { group0 with subs := [(3, ⟨0xFFFF, [entry8]⟩)] }
     let s := choosing [(0, g)]
     settleTc s 0 = s ∧ candidates 1 (coreAt s 0) 0 = [⟨false, ⟨true, 0, 0, 8⟩, 0, .entry 0 (some 3) 8⟩] ∧ tfind g.subs 3 = some ⟨0xFFFF, [entry8]⟩ ∧
       lfind (fun (y : FEntry) => y.start == 8) [entry8] = some entry8) := by decide
/-- What lets a selector choose or not: an exchange that stops it; a bundle that has not come to a place where it may be left, one that waits, one that is pinned, and one that is to be chosen anew; a halved period; the period of an alarm; a period in which it has issued; and an entry whose priority has not been read, or that a thread has joined in this cycle, or beside 8 active bundles. -/
theorem witness_SelectorDue :
    (∀ x ∈ [(bundle0, false), ({ bundle0 with yield := true }, true), ({ bundle0 with wait := some .slp }, true), ({ bundle0 with wait := some .slp, pinned := true }, false),
        ({ bundle0 with wait := some (.fence []), parked := true }, true), ({ bundle0 with wait := some (.fence []), parked := false }, false)],
      maySwitch (setBundle machine0.core 0 x.1) 0 = x.2) ∧
    maySwitch { setRun machine0.core 0 none with exch := .swap } 0 = false ∧
    (∀ x ∈ [(63, true), (64, true), (65, false), (127, false), (129, true)], ({ Tc.start with cyc := x.1, stretch := 64, halved := 128 } : Tc).issues = x.2) ∧
    ({ Tc.start with cyc := 5, barred := some 5 } : Tc).issues = false ∧ ({ Tc.start with cyc := 6, barred := some 5 } : Tc).issues = true ∧
    tfind ({ machine0.core with packetAt := [(0, cycOf machine0 0)] }).packetAt 0 = some (cycOf machine0 0) ∧ tfind machine0.core.packetAt 0 ≠ some (cycOf machine0 0) ∧
    (∀ e ∈ [{ entry0 with ready := false }, { entry0 with joined := 1 }], candidates 1 (coreAt (choosing [(0, { group0 with frontier := [e] })]) 0) 0 = []) ∧
    (let c := coreAt (choosing [(0, entered)]) 0
     let c7 := (List.range 7).foldl (fun c i => setBundle c i { bundle0 with wait := some .walk }) c
     (candidates 1 c7 0).length = 1 ∧ (candidates 1 (setBundle c7 7 { bundle0 with wait := some .walk }) 0).length = 0 ∧
       (candidates 1 (setBundle c7 7 { bundle0 with wait := some .walk, parked := true }) 0).length = 1) := by decide

/-- Page tables at 256 KiB, whose first leaf maps the lowest GiB. -/
def mapped : State := { base with mem := memWrite (memWrite base.mem (2 ^ 18) 8 (1 + 2 ^ 20)) (2 ^ 20) 8 0xDF }
theorem mapped_walks : (∀ access ∈ [0, 1, 7], walkTable mapped (2 ^ 18) 0 access = .leaf 0xDF 1 (2 ^ 20)) ∧ walkTable mapped (2 ^ 18) 4096 0 = .leaf 0xDF 1 (2 ^ 20) := by decide

def walk0 : Walk := { num := 3, since := 0, own := 1, root := 2 ^ 18, va := 4096, ea := 4096, pc := 0, access := 0, slot := 0, thr := some 0, lseq := 1, fid := none, fatal := false, spec := false, failed := false }
/-- The mapped machine with core 0 changed. -/
def mappedWith (f : Core → Core) : State := setCore mapped 0 (f machine0.core)
/-- The launch's own tables and block priority table. -/
def rooted : State := { mapped with launches := [(1, { placedLaunch with hdr := { placedHdr with ptroot := 2 ^ 18, bptab := 4096, args := 4096 } })] }
/-- An entry whose priority can be read; a member that has ended; a walk that ends. -/
theorem witness_FrontierUpkeep :
    (let g := { group0 with frontier := [{ entry0 with ready := false }] }
     let s := setCore rooted 0 (setGroup machine0.core 0 g)
     isControl 0 = false ∧ groupAt (coreAt s 0) 0 = some g ∧ (∃ x ∈ allEntries g, x.start = 0 ∧ x.ready = false ∧ x.fid = none) ∧ walkerFree s (dieOf 0) = true ∧ g.spilled = [] ∧
     walkTable s (hdrOf s g.lseq).ptroot ((hdrOf s g.lseq).bptab + 2 * 0) 7 = .leaf 0xDF 1 (2 ^ 20)) ∧
    (let s := { machine0 with teams := [(1, { placedTeam with ended := true, endCyc := [(tcOf 0, 0)] })], tcs := [(tcOf 0, { Tc.start with cyc := 8 })] }
     (teamAt s 1).map (fun t => decide (tget 0 t.endCyc (tcOf 0) + 8 ≤ cycOf s 0)) = some true ∧
     tfind s.clusters 1 = some ⟨1, [1], []⟩ ∧ [1][0]? = some 1 ∧ (teamAt s 1).map (·.ended) = some true) ∧
    (let s := mappedWith fun c => { c with walks := [walk0] }
     lfind (fun (x : Walk) => x.num == 3) (coreAt s 0).walks = some walk0 ∧ walk0.fid = none ∧ walk0.fatal = false ∧ walk0.failed = false ∧ walksBefore s 0 walk0 < 64 ∧ group0.spilled = [] ∧ walkTable s walk0.root walk0.va walk0.access = .leaf 0xDF 1 (2 ^ 20)) := by decide

def zeroing : MWord := ⟨1, 0, 2, .azero, []⟩
def updating : MWord := ⟨1, 0, 2, .update none 0 false 0xFFFFFFFF [] [] [] [] 0, [5]⟩
def tile0 (p : TilePlace) : Tile := { place := p, cells := [], rg := 0, fresh := 0 }
def withTile (p : TilePlace) : Group := { group0 with tiles := [(2, tile0 p)] }
/-- The engine's next word with a tile, with a free slot, and without one; an update under way; a team to evict; a tile to return; a window at its end and before. -/
theorem witness_MatrixEvents :
    (let c := { machine0.core with ctx := { machine0.core.ctx with mq0 := [zeroing] } }
     c.exch ≠ .spill ∧ c.ctx.engine = none ∧ c.ctx.queue 0 = [zeroing] ∧ findUid c.ctx.groups 1 = some group0 ∧ evictedTiles c.ctx 1 = [] ∧ needsSlot group0 zeroing = true ∧
     slotFor machine0 c.ctx 0 = some 0 ∧ needsSlot (withTile (.slot 0)) zeroing = false ∧ slotFor machine0 { c.ctx with accFree := [] } 0 = none ∧
     useShadow c = false ∧ useShadow { c with exch := .spill, shadow := c.ctx } = true ∧ evictedTiles { c.ctx with groups := [(0, withTile (.evicted 0))] } 1 ≠ []) ∧
    (let x := { machine0.core.ctx with engine := some updating }
     x.engine = some updating ∧ findUid x.groups updating.own = some group0) ∧
    (let x := { machine0.core.ctx with groups := [(0, withTile (.slot 0)), (4, { group0 with uid := 2, team := 2 })], accFree := [], mq0 := [{ zeroing with own := 2, slot := 4 }],
                                       bundles := [(0, { bundle0 with parked := true })] }
     slotWaits machine0 x = true ∧ teamTiles x 1 = [(0, 2, tile0 (.slot 0))] ∧ (∀ v ∈ slotTeams x, teamIdle x v = true) ∧
     lbest (fun a b => decide (teamAge machine0 b < teamAge machine0 a)) (slotTeams x) = some 1 ∧ engineFor x 1 = false) ∧
    (let x := { machine0.core.ctx with groups := [(0, withTile (.evicted 3))], accFree := [7] }
     evictedTiles x 1 = [(0, 2, 3)] ∧ 1 ≤ x.accFree.length ∧ olderWaits machine0 x 1 = false ∧ teamAt machine0 1 = some placedTeam ∧ Rising x.groups ∧ (∀ q ∈ x.groups, Rising q.2.tiles) ∧
     x.accFree.Nodup) ∧
    (let x := { machine0.core.ctx with groups := [(0, { group0 with tiles := [(2, tile0 (.evicted 3)), (5, tile0 (.evicted 0)), (6, tile0 (.slot 1))] })], accFree := [7, 9, 30] }
     (evictedTiles x 1).map (fun e => (e.1, e.2.1, e.2.2)) = [(0, 2, 3), (0, 5, 0)] ∧ 2 ≤ x.accFree.length ∧ olderWaits machine0 x 1 = false ∧ (∀ q ∈ x.groups, Rising q.2.tiles) ∧ x.accFree.Nodup ∧
     (let y := { x with accFree := [7] }
      y.accFree.length < (evictedTiles y 1).length)) ∧
    (999999 < machine0.core.winAt + 1000000 ∧ machine0.core.winAt + 1000000 ≤ 1000000) := by unfold Rising; decide

/-- Words that the engine takes for a group whose tile 2 has a slot, a fresh row and a row with a guess; and for one without the tile. -/
theorem witness_WordsTaken :
    let y : Tile := { tile0 (.slot 0) with cells := [(128, 0x3F800000)], rg := 5, fresh := 2 }
    ∀ g ∈ [{ group0 with tiles := [(2, y)] }, group0],
      let x := { machine0.core.ctx with groups := [(0, g)], accFree := [7] }
      tfind x.groups 0 = some g ∧ g.uid = 1 ∧ g.threads.length = 32 ∧
      (∀ cv ∈ [0, 1, 2, 3], let d := (List.range (lget 2 [8, 4, 4] cv)).map (8 + ·)
        ({ zeroing with what := .ard cv 7 5 d } : MWord).own = g.uid ∧ ({ zeroing with what := .ard cv 7 5 d } : MWord).what = .ard cv 7 5 d) ∧
      (let w : MWord := { zeroing with what := .ast 0 0 [(0, [farPiece]), (2, [farPiece])], ops := [5, 6] }
       w.own = g.uid ∧ w.ops.length = 2 ∧ teamAt machine0 g.team = some placedTeam ∧ placedTeam.role = .plain) ∧
      zeroing.what = .azero ∧ ({ zeroing with what := .arel } : MWord).what = .arel := by decide

/-- A slice over its rate, one at a quarter of it after 63 quiet windows, and one between. -/
theorem witness_RailLoop :
    (1 ≤ 1 ∧ 1 ≤ 3 ∧ 3 ≤ 3) ∧ 999999999 < 1 * 10 ^ 9 ∧ (¬ 10 ^ 9 < 1 * 10 ^ 9 ∧ ¬ 4 * 1 * 10 ^ 9 ≤ 10 ^ 9) ∧ (¬ 4 * 10 ^ 9 < 1 * 10 ^ 9 ∧ 4 * 1 * 10 ^ 9 ≤ 4 * 10 ^ 9) ∧
    tget 0 { core0 with quiet := [(1, 63)] }.quiet (4 * 0 + 1) = 63 := by decide

/-- A copy that may start; one whose burst of its byte lands; one that retires. -/
def copy0 : Copy := { num := 3, own := 1, slot := 0, thr := 0, team := 1, off := 0, bytes := record, after := [], started := false, left := [], nr := false, err := false, fid := none, gate := none, ghost := false, op := 0 }
def copying (x : Copy) : State := setCore kicking 0 { machine0.core with copies := [x] }
theorem witness_CopyEvents :
    (copyAt (coreAt (copying copy0) 0) 3 = some copy0 ∧ gateOpen (coreAt (copying copy0) 0) copy0 = true ∧ copy0.ghost = false ∧
      ∀ n ∈ copy0.after, (∀ w ∈ (coreAt (copying copy0) 0).writes, w.num ≠ n) ∧ ∀ l ∈ (coreAt (copying copy0) 0).loads, l.num ≠ n) ∧
    (let x := { copy0 with started := true, left := [(0, 1)] }
     let s := copying x
     let h := hdrOf s (copyLaunch s 0 x)
     walkerFree s (dieOf 0) = true ∧ covers x.left 0 1 = true ∧ burstShape s x 0 1 = true ∧
     (∃ p, burstDst s 0 h x 0 1 = (s, .found [p]) ∧ p.peer = false ∧ mirrorPiece s x p = none ∧ p.mx = 0) ∧ (sourceBytes 0 h x 1 s 0).2.1 = none ∧
     (∀ p, burstDst s 0 h x 0 1 = (s, .found [p]) → piecesWay s (p :: (sourceBytes 0 h x 1 s 0).2.2.flatMap fun y => y.getD []) = .opened)) ∧
    (let x := { copy0 with started := true }
     let s := copying x
     x.left = [] ∧ x.fid = none ∧ (∀ y ∈ (coreAt s 0).copies, y.own = x.own → x.num ≤ y.num) ∧ mateCopy s 0 x = none ∧ recGidOn x.bytes = false) := by
  refine ⟨by decide, ⟨by decide, by decide, by decide, ⟨_, rfl, by decide, by decide, by decide⟩, by decide, fun p hp => ?_⟩, by decide⟩
  cases hp; decide

/-- A burst to another die behind an earlier write of its line and behind none; and requests that retire with a group id that is not closing, that is closing with another request, and that is closing without one. -/
theorem witness_CopyAgain :
    (∀ x ∈ [(252, true), (256, false)], lineBars { core0 with writes := [{ write0 with num := 2, pieces := [{ farPiece with loc := x.1 }] }] } 0 3 farPiece = x.2) ∧
    (∀ y ∈ [(false, [3], ([] : List Nat)), (true, [3, 4], [4]), (true, [3], [])],
      let x := { copy0 with started := true, bytes := record + 2 ^ 239 }
      let s := { copying x with clusters := [(1, ⟨1, [1], [(0, { kind := 0, sel := 0, team := 1, closing := y.1, reqs := y.2.1, waiters := [] })]⟩)] }
      copyAt (coreAt s 0) 3 = some x ∧ x.left = [] ∧ x.fid = none ∧ (∀ z ∈ (coreAt s 0).copies, z.own = x.own → x.num ≤ z.num) ∧ mateCopy s 0 x = none ∧ recGidOn x.bytes = true ∧ recGid x.bytes = 0 ∧
      teamAt s x.team = some placedTeam ∧ placedTeam.cluster = 1 ∧ (gidOf s 1 0).map (fun g => (g.closing, g.reqs.filter fun r => r != 0 * 2 ^ 40 + x.num)) = some (y.1, y.2.2)) := by decide

/-- Deliveries of four bytes, all read and with one that is not, to HBM and to the team's memory; and the last byte of a team's memory and the byte past it, for each kind of request that finds its places there. -/
theorem witness_CopyBytes :
    (∀ loc ∈ [8192, tsmLoc 1 512], let p : Piece := { peerPiece with peer := false, loc := loc, n := 4 }
      Memory.wf machine0.mem = true ∧ p.mx = 0 ∧ 0 < p.n ∧ p.n ≤ 64 ∧ p.n % 4 = 0 ∧ p.n % 2 = 0 ∧ (∀ d ∈ [[some 1, some 255, some 0, some 7], [some 1, none, some 0, some 7]], d.length = p.n ∧ ∀ x ∈ d, ∀ b, x = some b → b < 256) ∧
      (tsmBase ≤ p.loc → (p.loc + 3 - tsmBase) / 2 ^ 18 = 1)) ∧ (coreAt machine0 0).saved.groups = [] ∧
    (∀ k ∈ [0, 1, 2, 4, 5], let x : Copy := { copy0 with bytes := k + 5 * 2 ^ 8 + 0xFFFF * 2 ^ 16 + 4 * 2 ^ 32 + 65535 * 2 ^ 64 + 65535 * 2 ^ 128 + 1024 * 2 ^ 192 }
      recKind x.bytes = k ∧ recSrcSp x.bytes = 1 ∧ recDstSp x.bytes = 1 ∧ 0 < recUnit x.bytes ∧ (recIndexed x.bytes = true ↔ k = 1 ∨ k = 2) ∧ recSrc x.bytes + 1 ≤ 65536 ∧ ¬ recSrc x.bytes + 1 + 1 ≤ 65536) ∧
    (let x : Copy := { copy0 with bytes := 3 + 5 * 2 ^ 8 + 4 * 2 ^ 32 + 1 * 2 ^ 192 }
     recKind x.bytes = 3 ∧ teamAt machine0 x.team = some placedTeam ∧ (members (BitVec.ofNat 32 (recAux x.bytes)))[3 / recLen x.bytes]? = some 0 ∧ (rankTeam machine0 placedTeam 0).map (·.1) = some 1) := by decide

/-- Queue 0 of the host at 8192 with one entry of a header at 4096. -/
def entryOf (flags : Nat) : Nat := 4096 + flags * 2 ^ 72
def enqueued (flags : Nat) : State :=
  let q : Queue := { host := false, base := 8192, cap := 16, root := 2 ^ 18, head := 0, tail := 1, fid := none }
  let s := { mapped with queues := [(0, q)] }
  let s1 := { s with mem := memWrite s.mem (q.slotLoc 0) 32 (entryOf flags) }
  { s1 with mem := memWrite s1.mem q.loc 4 1 }
theorem witness_QueueEvents :
    (let s := enqueued 1
     s.stopped = false ∧ s.boot.up = true ∧ takeAgain s 0 = none ∧ (firstQueue s).map (fun x => (x.1, entryBad x.2.2)) = some (0, false) ∧ mustWait s (2 ^ 18) 4096 = false) ∧
    (let s := enqueued 5
     (firstQueue s).map (fun x => (x.1, entryBad x.2.2)) = some (0, true)) ∧
    (match engineG (2 ^ 18) 0 3 (enqueued 1) 4096 160 with
      | (_, .found _) => true
      | _ => false) = true ∧
    badHeader Hdr.zero ≠ none ∧ badHeader { placedHdr with svsize := 2 ^ 24 } = none ∧
    ((enqueued 5).primary = 1 ∧ canSend (enqueued 5) 1 = true ∧ canSend (setChannel (enqueued 5) 1 { channelAt base 0 with ersize := 0 }) 1 = false) ∧
    (attached (enqueued 1) 0 = true ∧ attached { enqueued 1 with boot := { base.boot with minimal := true }, primary := 1 } 0 = false) ∧
    (queueAt (enqueued 1) 0).isSome = true ∧ (16 + 2 ^ 32 - 0) % 2 ^ 32 ≤ 16 ∧ 16 < (17 + 2 ^ 32 - 0) % 2 ^ 32 := by decide

/-- An argument that is still to be read; requests for work that the first victim refuses, that the last refuses, and that one grants. -/
def tcb (i : Nat) : Tcb := { lseq := 1, idx := i, arrived := 0, core := none, shipped := none, mirror := false }
theorem witness_ScheduleEvents :
    (let g := { group0 with argsLeft := [3] }
     let s := setCore rooted 0 (setGroup machine0.core 0 g)
     groupAt (coreAt s 0) 0 = some g ∧ 3 ∈ g.argsLeft ∧ g.faults = [] ∧ walkerFree s (dieOf 0) = true ∧ (hdrOf s g.lseq).args + 4 * 3 + 4 ≤ 2 ^ 56 ∧ 2 ^ 56 < (2 ^ 56 - 12) + 4 * 3 + 4 ∧ walkTable s (hdrOf s g.lseq).ptroot ((hdrOf s g.lseq).args + 4 * 3) 0 = .leaf 0xDF 1 (2 ^ 20)) ∧
    (let left := fun (s : State) (tc : Nat) => (victims tc).filter fun v => !(tcAt s tc).steal.contains v && dieRuns s (v / 10)
     (mayAsk base 0 = true ∧ (left base 0).head? = some 1 ∧ (shippable base 1).length ≤ 1 ∧ 1 < (left base 0).length) ∧
     (let s := { base with tcs := [(0, { Tc.start with steal := (List.range 40).drop 2 })] }
      mayAsk s 0 = true ∧ (left s 0).head? = some 1 ∧ (left s 0).length ≤ 1) ∧
     (let s := { base with tcs := [(1, { Tc.start with queue := [tcb 0, tcb 1] })] }
      let free := (shippable s 1).filter fun q => !(q.shipped.any fun at' => at' / 10000 == s.now / 10000)
      mayAsk s 0 = true ∧ (left s 0).head? = some 1 ∧ 1 < (shippable s 1).length ∧ free ≠ []) ∧
     (let s := { base with tcs := [(1, { Tc.start with queue := [{ tcb 0 with shipped := some 1 }, { tcb 1 with shipped := some 1 }] })] }
      1 < (shippable s 1).length ∧ (shippable s 1).filter (fun q => !(q.shipped.any fun at' => at' / 10000 == s.now / 10000)) = [])) ∧
    (tcAt { base with tcs := [(0, { Tc.start with stealAt := some 5 })] } 0).stealAt = some 5 ∧ (0 < 40 ∧ 39 < 40 ∧ base.stopped = false) := by decide

/-- A team of two groups of 32 threads placed on core 5. -/
theorem witness_TeamStarts : (placeTeam false 1 { placedHdr with tx := 64, regs := 1, svsize := 2 ^ 24 } base ⟨5, 0, 1, 0, 2, .plain, 0⟩).isSome = true := by decide

/-- A group that waits for a window of 96 registers, and one that may leave for it. -/
def growing : State := { withCore (fun c => { c with ctx := { c.ctx with
  groups := [(0, { group0 with faults := [] }), (4, { group0 with uid := 2, base := none, swap := .out })] ++ (List.range 63).map (fun i => (6 + i, { group0 with uid := 10 + i, base := some (3 + 3 * i) }))
  bundles := [(0, { bundle0 with wait := some .cbwait, parked := true })] } }) with now := 8001 }
theorem witness_WindowEvents :
    (windowWanted growing 0 = true ∧ (swapVictim growing 0).isSome = true ∧ ∀ g ∈ (coreAt growing 0).ctx.groups, g.2.swap ≠ .leaving) ∧
    (groupAt (setGroup machine0.core 0 { group0 with swap := .leaving }) 0).map (·.swap) = some .leaving ∧ hasReadout machine0.core group0 = false ∧
    (let g := { group0 with swap := .out, base := none }
     let s := setCore machine0 0 { machine0.core with ctx := { machine0.core.ctx with groups := [(0, g)], bundles := [], run0 := none } }
     groupAt (coreAt s 0) 0 = some g ∧ wantsWindow s 0 0 g = true ∧ windowFits (coreAt s 0) g.uid g.win = some 0) ∧
    (let c := { machine0.core with compacting := true, ctx := { machine0.core.ctx with groups := [(0, { group0 with moving := true })] } }
     c.compacting = true ∧ ∀ g ∈ c.ctx.groups.filter (fun g => g.2.base.isSome), g.2.moving = true) := by decide

/-- GO with the last core, with one beyond, and without GO; each phase of an exchange. -/
theorem witness_ExchangeEvents :
    (3 < 4 ∧ 159 / 256 % 2 = 0 ∧ 415 / 256 % 2 = 1 ∧ 415 % 256 ≤ 159 ∧ 416 / 256 % 2 = 1 ∧ 159 < 416 % 256 ∧ (dieAt base 3).preqBusy = false ∧ (dieAt { base with dies := [(0, { Die.start with preqBusy := true })] } 0).preqBusy = true) ∧
    ({ machine0.core with exch := .fill }.exch = Exchange.fill) ∧
    (let c := { machine0.core with exch := .swap, ctx := { machine0.core.ctx with run0 := none } }
     c.exch = .swap ∧ atSwapPoint c 0 = true ∧ atSwapPoint c 1 = true) ∧
    (let c := { machine0.core with exch := .spill }
     c.exch = .spill ∧ spillReady c = true) := by decide

/-- An interval that has begun and one that has not; an alarm with the detector off, in a stretch, and first; 115 degrees and a step above; a member and a die of the device; ramp fill. -/
theorem witness_PowerEvents :
    (9999 / 10000 ≤ (dieAt base 0).interval ∧ (dieAt base 0).interval < 10000 / 10000 ∧ 9999 / 10000 ≤ (dieAt base 3).decided ∧ (dieAt base 3).decided < 10000 / 10000) ∧
    ((tcAt { base with tcs := [(0, { Tc.start with drt := 0 })] } 0).drt.toNat % 256 = 0 ∧ (tcAt base 39).drt.toNat % 256 ≠ 0 ∧ (tcAt base 39).stretch ≤ (tcAt base 39).cyc ∧
      (let x := { Tc.start with stretch := 7, cyc := 6 }
       x.cyc < x.stretch)) ∧
    (((BitVec.ofNat 16 920).signExtend 32 : Word).toInt ≤ 920 ∧ 920 < ((BitVec.ofNat 16 921).signExtend 32 : Word).toInt ∧ (dieAt base 3).stopped = false) ∧
    (3 < 4 ∧ 4 ≤ 4 ∧ { base with tgid := 1 }.tgid ≠ 0) := by decide

theorem witness_CollectiveCap :
    leastRequest base < { base with collCap := 1751 }.collCap ∧ { base with collCap := 1749 }.collCap < leastRequest base ∧
    (let s := { base with raiseAt := some 5, now := 5 }
     s.raiseAt = some 5 ∧ 5 ≤ s.now) ∧
    (let s := { base with raiseAt := some 5, now := 4 }
     s.raiseAt = some 5 ∧ s.now < 5) := by decide

/-- The last stack; a policy change into and within the stages; an idle core; a change of DSPLIT up, down with no window in the way, and to the same value. -/
theorem witness_MemoryPowerEvents :
    7 < 8 ∧ ((0 = 3 ↔ refreshPolicy 0 (BitVec.ofNat 16 841).toInt = 3) → False) ∧ (0 = 3 ↔ refreshPolicy 0 (BitVec.ofNat 16 840).toInt = 3) ∧ (∀ c ∈ base.cores, wakesStack base.now 7 c.2 = false) ∧
    ((dieAt base 0).busy = false ∧ 9 % 16 ≠ (dieAt base 0).scr ∧ 8 % 16 = (dieAt base 0).scr) ∧
    (let s := { base with dies := [(0, { Die.start with busy := true, scrNext := some 9 })] }
     (dieAt s 0).scrNext = some 9 ∧ (dieAt s 0).busy = true ∧ (dieAt s 0).applied = false ∧ (dieAt s 0).scr ≤ 9) ∧
    (let s := { base with dies := [(0, { Die.start with busy := true, scrNext := some 7 })] }
     ∀ l ∈ s.launches, l.2.completed = true ∨ l.2.badoff ≠ 0 ∨ holdsSram l.2.hdr 0 (8 * 2 ^ 20 * min 7 8) = false) ∧
    (let s := { base with dies := [(0, { Die.start with busy := true, scrNext := some 9, applied := true })] }
     (dieAt s 0).scrNext = some 9 ∧ (dieAt s 0).applied = true) ∧
    tfind (dieAt (wakeStacks { base with dies := [(0, { Die.start with lowPower := [(1, none)] })] }) 0).lowPower 1 = some none := by decide
/-- A stretch of 12 periods that a pass of 4 ns falls into. -/
theorem witness_PeriodsWithinTime :
    let t := { Tc.start with stretchAt := 1, stretch := 13, cyc := 2 }
    t.stretchAt ≤ t.cyc ∧ (t.run 4 9).cyc ≤ t.stretch ∧ t.cyc < (t.run 4 9).cyc := by decide

theorem witness_RegisterWrites :
    (∀ n ∈ [0x184, 0x185, 0x188, 0x189, 0x180, 0x181, 0x182, 0x1A8, 0x1AA, 0x1C0, 0x1C7, 0x200, 0x204, 0x24C], (deviceRegister n || dieRegister n) = true ∧ n ≠ 0x190 ∧ n ≠ 0x1A0) ∧ tcRegister 0x200 = some (0, 0) ∧
    tcRegister 0x249 = some (9, 1) ∧ tcRegister 0x24A = some (9, 2) ∧ tcRegister 0x203 = some (0, 3) ∧ tcRegister 0x204 = some (0, 4) ∧ tcRegister 0x24C = some (9, 4) := by decide

/-- A trap that may be entered; a watchdog at its limit and one before; pairs of windows that agree, differ, and wait for 10 ms. -/
def pending0 : Pending := { num := 3, own := 1, slot := 0, sub := none, mask := 1, traps := [(0, ⟨4, 0, 0, 0⟩)], pos := 0, pc := 0 }
def mirrorPair (ws vs : List (Dword × Nat)) : State :=
  let s := { machine0 with teams := [(1, { placedTeam with role := .primary, mate := 2 }), (2, { placedTeam with role := .mirror, mate := 1, core := 1 })], now := 10000001 }
  setCore (setCore s 0 (setGroup machine0.core 0 (groupOf { thread0 with windows := ws }))) 1
    { Core.start with ctx := { Ctx.empty with groups := [(0, { groupOf { thread0 with windows := vs } with uid := 3, team := 2 })] } }
theorem witness_TrapEvents :
    (let s := withCore fun c => { c with pend := [pending0] }
     lfind (fun (x : Pending) => x.num == 3) (coreAt s 0).pend = some pending0 ∧ groupAt (coreAt s 0) 0 = some group0 ∧ group0.uid = pending0.own ∧ group0.swap ≠ .out ∧
     trapReady s 0 0 pending0.traps = true) ∧
    (isControl 0 = false ∧ base.wdt ≠ 0 ∧ group0.bitten = false ∧ base.wdt.toNat * 1000000 ≤ dogCount 1000000000 group0 ∧ group0.swap ≠ .out ∧
      dogCount 999999999 group0 < base.wdt.toNat * 1000000) ∧
    (let s := mirrorPair [(1, 0)] [(1, 0)];
      (groupAt (coreAt s 0) 0).map (fun g => ((teamAt s g.team).map (·.role), (partner s g).map (·.1))) = some (some .primary, some 1)) ∧
    (let s := mirrorPair [(1, 0)] [(2, 0)];
      (groupAt (coreAt s 0) 0).map (fun g => ((teamAt s g.team).map (·.role), (partner s g).map (·.1))) = some (some .primary, some 1)) ∧
    ((partner (mirrorPair [(1, 0)] []) (groupOf { thread0 with windows := [(1, 0)] })).isSome = true ∧ 0 + 10000000 < (mirrorPair [] []).now ∧ (mirrorPair [] []).now ≤ 1 + 10000000) ∧
    1 ∉ base.retake := ⟨by decide, by decide, by decide, by decide, by decide, by decide⟩

/-- A launch with two copies of page 3, of which the one taken at 5 is the first, and a second launch that waits on its bitmap; a launch without SNAP, one that has run unprotected, one after 3 replays, and one that has completed. -/
theorem witness_Rollbacks :
    let h : Hdr := { placedHdr with flags := 4 }
    let l : Launch := { placedLaunch with hdr := h, snap := [(7, 3, [(49152, 1)]), (5, 3, [(49153, 2)])] }
    let s := { machine0 with launches := [(1, l), (2, { l with producers := [1], snap := [] })] }
    (launchAt s 1 = some l ∧ Rising s.launches ∧ l.completed = false ∧ h.snap = true ∧ l.unprotected = false ∧ l.replays < 3 ∧ l.hdr.cbmap = 0 ∧ Memory.wf s.mem = true ∧
      (∀ c ∈ l.snap, Memory.wf c.2.2 = true ∧ ∀ q ∈ c.2.2, q.1 / 16384 = c.2.1) ∧ (∀ d ∈ l.snap, d.2.1 = 49152 / 16384 → d = (5, 3, [(49153, 2)]) ∨ 5 < d.1)) ∧
    ({ placedHdr with flags := 0 } : Hdr).snap = false ∧ { l with unprotected := true }.unprotected = true ∧ 3 ≤ { l with replays := 3 }.replays ∧ { l with completed := true }.completed = true := by
  unfold Rising; decide

/-- A bridge that runs; each state of a link, and the 50 ms of RCV over and not over. -/
theorem witness_LinkEvents :
    3 < 4 ∧ 3 ∉ base.bridges ∧ 15 < 16 ∧ linkAt base 15 = .w4 ∧
    (∀ x ∈ [LinkState.w2, .w1, .rcv], linkAt { base with links := [(15, x)] } 15 = x) ∧ linkDrained base 15 = true ∧
    linkDrained (linked .w4 [] [{ write0 with pieces := [peerPiece] }]) 0 = false ∧
    (tget 0 base.linkSince 15 + 50000000 ≤ { base with now := 50000000 }.now ∧ { base with now := 49999999 }.now < tget 0 base.linkSince 15 + 50000000) := by decide

def access0 (kind op : Nat) : PeerAcc := { pa := 0, width := 4, kind := kind, op := op, data := 1, key := 0 }
theorem witness_PeerEvents :
    ({ base with job := some job0 }.job = some job0 ∧ (access0 0 0).pa + (access0 0 0).width ≤ 2 ^ 39 ∧ tfind base.keys 0 = some 0 ∧ tfind base.keys 1 = none) ∧
    (∀ k ∈ [0, 1, 2], (access0 k 0).kind = k) ∧ (atomOp 0 32 0 1).isSome = true := by decide

/-- Routers at an edge and inside, idle for 256 cycles; a gated one, signalled and due; a packet that has arrived, one that may move into two of the next router's three channels, and into none, and one that has stood for 32 cycles; a response with and without a reserved buffer; a request in its turn with tokens, behind a core that waits, and without tokens. -/
def packet0 : Packet := { num := 3, die := 0, src := 0, here := 1, dest := 3, response := false, ordered := false, escape := false, chan := 0, ring := 2, fixed := false, since := 0, flits := 1 }
def late0 : State := { base with tcs := [(0, { Tc.start with cyc := 256 })], packets := [packet0] }
theorem witness_NetworkEvents :
    (159 < 160 ∧ 1 % 16 ≠ 0 ∧ 1 % 16 ≠ 15 ∧ (routerAt late0 0 1).gated = false ∧ (coreAt late0 1).ctx.groups = [] ∧ (routerAt late0 0 1).idle + 256 ≤ routerCyc late0 0 1 ∧ 16 % 16 = 0 ∧ 159 % 16 = 15) ∧
    (let s := { base with dies := [(0, { Die.start with routers := [(1, ⟨true, none, 0⟩), (2, ⟨true, some 0, 0⟩)] })] }
     (routerAt s 0 1).gated = true ∧ (routerAt s 0 1).waking = none ∧ (routerAt s 0 2).waking = some 0 ∧ 0 ≤ routerCyc s 0 2) ∧
    (lfind (fun (x : Packet) => x.num == 3) late0.packets = some packet0 ∧ follows late0 packet0 = false ∧
      (let q := { packet0 with num := 4, ordered := true }
       follows { late0 with packets := [{ q with num := 2 }, q] } q = true) ∧ packet0.here ≠ packet0.dest ∧ awake late0 0 (neighbour 1 (lget 0 (routes late0 packet0) 0)) = true ∧
      (let d := lget 0 (routes late0 packet0) 0
       let at' := fun (v : Nat) => { packet0 with num := 5 + v, here := neighbour 1 d, chan := v, ring := d / 2, flits := 6 }
       channels { late0 with packets := [at' 1] } packet0 d = [0, 2] ∧ channels { late0 with packets := [at' 0, at' 1, at' 2] } packet0 d = [])) ∧
    (packet0.escape = false ∧ packet0.since + 32 ≤ routerCyc late0 0 packet0.here ∧ bufferUse late0 0 packet0.here packet0.ring packet0.response true 0 + packet0.flits + 5 ≤ 12) ∧
    (lfind (fun (x : Packet) => x.num == 4) late0.packets = none ∧
     (let s := { base with dies := [(0, { Die.start with reserved := [(3, 1)] })] }
      tget 0 (dieAt s 0).reserved 3 = 1 ∧ (s.packets.filter fun p => p.die == 0 && p.dest == 3 && p.response).length = 0 ∧ tget 0 (dieAt s 0).reserved 4 = 0) ∧
     (∀ x ∈ [(256, [1], false), (256, [2, 1], true), (0, [], true)],
      let t := { Tc.start with tokens := x.1, turns := x.2.1 }
      decide ((∃ k ∈ t.turns.head?, k ≠ 1) ∨ t.tokens < 5) = x.2.2)) ∧
    { packet0 with here := 3 }.here = packet0.dest ∧ 39 < 40 ∧ (let x := { Tc.start with cyc := 5, refilled := 5 }; x.cyc ≤ x.refilled) ∧ (let x := { Tc.start with cyc := 6, refilled := 5 }; x.refilled < x.cyc) := by decide

/-- A command of each kind that is the next of its channel. -/
def command (op seq die : Nat) : CmdEntry := ⟨op, seq, die, 0, 8, 0⟩
def commanded (e : CmdEntry) : State := setChannel base 0 { channelAt base 0 with cmds := [e] }
theorem witness_CommandsAnswered :
    (∀ op ∈ (List.range 15).map (· + 1), (channelAt (commanded (command op 1 0)) 0).cmds = [command op 1 0] ∧ 1 = (channelAt (commanded (command op 1 0)) 0).cdone + 1) ∧
    base.boot.up = true ∧ dieOk base 0 = true ∧ dieOk base 3 = true ∧ dieOk base 0xFF = true ∧ dieOk base 4 = false ∧
    (∀ x ∈ [(63, true), (64, false)], canSend (setChannel base 0 { channelAt (commanded (command 1 1 4)) 0 with waiting := [], ersize := 64, ewrit := x.1 }) 0 = x.2) ∧
    (2 ≠ (channelAt base 0).cdone + 1 ∧ (0 < 1 ∧ 15 < 16)) ∧ (channelAt base 0).cmds.head? ≠ some (command 1 1 0) := by decide

/-- A collective of one rank that adds one element. -/
def coll0 : Coll := { ch := 0, met := false, payload := 2 * 2 ^ 8 + 1 * 2 ^ 32 + 2 ^ 18 * 2 ^ 64 + 4096 * 2 ^ 128 + 8192 * 2 ^ 192 + 9 * 256 ^ 32 + 1 * 256 ^ 40 }
theorem witness_Collectives :
    let s := { mapped with colls := [coll0], job := some { job0 with ranks := 1 } }
    (walkerFree s 0 = true ∧ canSend s coll0.ch = false ∧ canSend (setChannel s 0 { channelAt s 0 with ersize := 64, waiting := [] }) coll0.ch = true ∧
      walkerFree (withCore fun c => { c with walks := List.replicate 64 walk0 }) 0 = false) ∧
    lfind (fun (x : Coll) => bytesOf x.payload 0x20 8 == 9) s.colls = some coll0 ∧ s.job.isSome = true ∧ meetsDown s coll0 = false ∧ meetsDown { s with colls := [{ coll0 with met := true }] } { coll0 with met := true } = true ∧
    (∀ x ∈ [(LinkState.w4, false), (.down, true)], meetsDown { linked x.1 [] [] with colls := [coll0] } coll0 = x.2) ∧ coll0.field 4 4 = 1 ∧
    (match engineG (coll0.field 8 8) 1 8 s (coll0.field 0x18 8) 4 with
      | (s1, .found _) => (match engineG (coll0.field 8 8) 0 8 s1 (coll0.field 0x10 8) 4 with
        | (_, .found _) => true
        | _ => false)
      | _ => false) = true := by decide

/-- A channel key of bytes 1 to 32, and a datagram of one command entry, NOP with seq 1, in session 1: encrypted and authenticated by hand under the key that R420 derives. -/
def keyed : State := { base with boot := { base.boot with portKeys := some [14528991250861404666834535435384615765856667510756806797353855100662256435713, 0] } }
def datagramHead : List Nat := [86, 83, 1, 0, 1, 0, 0, 0, 1, 0, 0, 0, 0, 0, 0, 0, 0, 0, 0, 0, 0, 0, 0, 0, 1, 0, 0, 0, 0, 0, 0, 0]
def datagramBody : List Nat :=
  [63, 56, 248, 46, 83, 127, 34, 191, 143, 254, 64, 79, 20, 73, 110, 177, 244, 227, 215, 208, 168, 236, 169, 243, 217, 166, 212, 69, 147, 3, 160, 197] ++
  [94, 54, 171, 212, 129, 217, 67, 208, 200, 19, 58, 228, 112, 56, 139, 242, 109, 113, 224, 14, 222, 84, 124, 227, 251, 8, 216, 152, 8, 135, 15, 120]
def datagram0 : Datagram := { port := 1, bytes := datagramHead ++ datagramBody ++ [148, 188, 84, 122, 112, 216, 121, 74, 172, 142, 112, 139, 239, 184, 120, 59] }
theorem witness_DatagramAccepted : datagramOk keyed datagram0 = true := by decide +kernel
theorem test_datagram_entries : entriesOf keyed datagram0 = [{ command 1 1 0 with length := 0 }] := by decide +kernel
/-- A datagram with a field of its layout wrong, each of them, and one of a session that is past. -/
theorem witness_DatagramRefused :
    (let g := fun (i v : Nat) => (⟨1, datagram0.bytes.set i v⟩ : Datagram)
     let field := fun (g : Datagram) (off n : Nat) => ofBytes ((g.bytes.drop off).take n)
     field (g 0 87) 0 2 ≠ 0x5356 ∧ field (g 2 2) 2 1 ≠ 1 ∧ 2 < field (g 3 3) 3 1 ∧ field (g 0x1A 1) 0x1A 6 ≠ 0 ∧ 128 < field (g 0x18 129) 0x18 2 ∧
     field (g 3 2) 3 1 = 2 ∧ field (g 3 2) 0x18 2 ≠ 0 ∧ (g 0x18 2).bytes.length ≠ 0x30 + 64 * field (g 0x18 2) 0x18 2) ∧
    ofBytes ((datagram0.bytes.drop 4).take 4) < (channelAt (setChannel keyed 1 { channelAt keyed 1 with session := 2 }) 1).session ∧
    datagramOk keyed ⟨1, datagram0.bytes.set 0 87⟩ = false := by decide
/-- PCIe attached; doorbell, ring and BAR2 values at their limits; vector 0 due; an event that is due to be sent again; an image that is too old, and one that is not, at either stage. -/
theorem witness_ChannelEvents :
    attached base 0 = true ∧
    (let c := { channelAt base 0 with crsize := 64 }
     c.crsize ≠ 0 ∧ c.ctail ≤ 1 ∧ Memory.wf base.mem = true ∧ [command 1 1 0].length ≤ c.crsize ∧ 1 = c.ctail + [command 1 1 0].length ∧ 0 < [command 1 1 0].length ∧ c.cdone = c.ctail ∧ c.ewrit = c.eack) ∧
    (4096 % 4096 = 0 ∧ 2 ^ 64 - 4096 < 2 ^ 64 ∧ (2 ^ 64 - 4096) % 4096 = 0 ∧ (∃ i < 11, 64 = 2 ^ (i + 6)) ∧ (∃ i < 11, 65536 = 2 ^ (i + 6))) ∧
    ((7 * 2 ^ 36) % 2 ^ 36 = 0 ∧ 7 * 2 ^ 36 < 2 ^ 39 ∧ 0 < 4 ∧ (2 ^ 36 - 4) + 4 ≤ 2 ^ 36 ∧ base.b2pos + (2 ^ 36 - 4) + 4 ≤ 2 ^ 39 ∧ (attachKey base 0).isSome = true) ∧
    vectorDue (setChannel base 0 { channelAt base 0 with unsignalled := 1 }) = true ∧
    (1 ≠ 0 ∧ attached base 1 = true ∧ tfind (channelAt base 1).resent 1 = some 0 ∧ (channelAt base 1).eack < 1 ∧ 0 + 100000 ≤ { base with now := 100000 }.now) ∧
    (let b := { base.boot with fwver := 2, leastFw := 3, cfgver := 2 }
     (1 < b.fwver ∨ 1 < b.leastFw) ∧ (2 < b.fwver ∨ 2 < b.leastFw) ∧ b.fwver ≤ 3 ∧ b.leastFw ≤ 3 ∧ 1 < b.cfgver) := by decide

/-- A running bundle with its packet, and one that must fetch it; a chain and none; both kinds of pick. The entry packet is a block start. -/
def fetching : State := machineIn base core0 group0 { bundle0 with pkt := none }
theorem witness_StepRunsDecoded :
    ((running machine0).map (fun x => (x.1, x.2.wait, x.2.issued)) = some (0, none, false) ∧ decodeAt 0 [0x5C000000, 0x5C000000, 0xDC000000] = some (.nop ⟨false, none⟩, 1)) ∧
    ((running fetching).map (fun x => x.2.pkt) = some none ∧ (bundleHdr fetching 0 { bundle0 with pkt := none }).isSome = true ∧ atEntry (hdrOf fetching 1) { bundle0 with pkt := none } = true ∧ group0.argFailed = none ∧ isBlockStart fetching 0 (hdrOf fetching 1) 0 = true ∧
      (∀ a ∈ [0, 4, 8], (fetchWord (codeView fetching) 0 fetching.core (hdrOf fetching 1) ((0 + 12 * 0) % 2 ^ 64 + a)).isSome = true)) ∧
    (∀ s ∈ [machine0, fetching], ((running s).map fun x => mayIssue s 0 0 x.2) = some true) ∧
    (let p : Pkt := ⟨0x5C000000, 0x5C000000, 0xDC000000⟩
     let s := fun (old : List Pkt) => { base with launches := [(1, { placedLaunch with code := [(0, old)] })] }
     launchAt base 2 = none ∧ (launchAt (s [p]) 1).map (fun x => (tfind x.code 0).getD []) = some [p] ∧
       (launchAt (s [⟨0x5C000000, 0x5C000000, 0x5C000000⟩]) 1).map (fun x => (tfind x.code 0).getD []) ≠ some [p] ∧ (launchAt base 1).map (fun x => (tfind x.code 0).getD []) = some []) ∧
    midPacket machine0 = false ∧ midPacket (machineIn base core0 group0 { bundle0 with flow := true }) = true ∧
    { base with agenda := [.issue 0 0 0 0 0] }.agenda = [.issue 0 0 0 0 0] ∧ { base with agenda := [.event 1 0 1 .msixInterrupt] }.agenda = [.event 1 0 1 .msixInterrupt] := by decide
/-- An event that is no deadline of a load. -/
theorem witness_other_event : ∀ c l, Instr.msixInterrupt ≠ .loadDeadline c l := by intro c l h; cases h

theorem witness_DecodeOfEncode : (Instr.iaddI32 ⟨true, true, 127, 127, 126, true, some 0x3FFFFFF⟩).encodable = true ∧ (Instr.mmaMx ⟨true, 4, 7, 127, 127, 127, 127⟩).encodable = true := by decide

/-- A step from the reset state with an instruction placed goes on, and its memory is canonical. -/
theorem witness_StepKeepsCanonicalMemory : ∃ t, Memory.wf machine0.mem = true ∧ step machine0 = .next t := by
  refine ⟨_, by decide, rfl⟩

theorem witness_ResetState : isControl 639 = false ∧ isControl 640 = true ∧ 7 < 8 := by decide

def handled : State := { base with launches := [(1, { placedLaunch with hdr := { placedHdr with handler := 5 } })] }
/-- Threads 0 and 31 trap in a launch with a handler; thread 31 returns to the second word of a packet. -/
theorem witness_TrapEntry :
    let s := machineIn handled core0 group0 bundle0
    let traps : Tab Trap := [(0, ⟨4, 0, 0, 0⟩), (31, ⟨4, 0, 0, 0⟩)]
    isControl 0 = false ∧ groupAt (coreAt s 0) 0 = some group0 ∧ group0.threads.length = 32 ∧ mirrored s group0 = false ∧ (hdrOf s group0.lseq).handler ≠ 0xFFFFFFFF ∧ traps ≠ [] ∧
    (traps.map (·.1)).Nodup ∧ ∀ x ∈ traps, x.1 < 32 ∧ x.2.cause ≠ 7 ∧ (threadAt group0 x.1).rf = false ∧ (threadAt group0 x.1).trap.stat.getLsbD 3 = false := by decide
/-- A machine of two packets of a block, the second as given, whose thread 31 returns from a trap with a status and loops. -/
def returned (w0 w1 w2 : Nat) (stat : Word) (loops : List Loop) : State :=
  machineIn { base with mem := memWrite (memWrite base.mem 12 12 (w0 + w1 * 2 ^ 32 + w2 * 2 ^ 64)) 8 4 0x5C000000 } core0
    (groupOf { thread0 with trap := { thread0.trap with stat := stat, pc := 1 }, saved := { thread0.saved with loops := loops } }) bundle0
/-- Returns at the trapping step, inside a packet and at its start; and after it, within the packet, past its end through a chain, and past trap, with a loop that ends there and one that does not; packet 1 starts no block, and packet 2, behind a sealed one, does. -/
theorem witness_TrapReturn :
    (∀ x ∈ [(0x9, false, 1), (0x8, false, 0), (0xC, true, 0), (0xD, true, 1)],
      let s := returned 0xDC000000 0xDC000000 0xDC000000 (BitVec.ofNat 32 x.1) [loop9]
      ((groupAt (coreAt s 0) 0).map fun g => (g.threads.length, (threadAt g 31).trap.stat.getLsbD 2, ((threadAt g 31).trap.stat &&& 3).toNat)) = some (32, x.2.1, x.2.2) ∧
      peekPacket s 0 (hdrOf s 1) 1 = some ⟨0xDC000000, 0xDC000000, 0xDC000000⟩ ∧ isBlockStart s 0 (hdrOf s 1) 1 = false ∧ isBlockStart s 0 (hdrOf s 1) 2 = true) ∧
    (∀ j < 3, lget 0 [0xDC000000, 0xDC000000, 0xDC000000] j / 2 ^ 31 = 1 ∧ lget 0 [0xDC000000, 0xDC000000, 0xDC000000] j / 2 ^ 26 % 32 = 23 ∧
      lget 0 [0xDC000000, 0xDC000000, 0xDC000000] j / 2 ^ 18 % 128 ≠ 7 ∧ lget 0 [0xDC000000, 0xDC000000, 0xDC000000] j / 2 ^ 18 % 128 ≠ 8) ∧
    (0x5C000000 / 2 ^ 31 ≠ 1 ∧ 0x5C1C0001 / 2 ^ 26 % 32 = 23 ∧ 0x5C1C0001 / 2 ^ 18 % 128 = 7 ∧ 0x5C200001 / 2 ^ 18 % 128 = 8) ∧
    (({ loop9 with stop := 1 } : Loop).stop = 1 ∧ loop9.stop ≠ 1 ∧ loop9.count ≠ 1 ∧ loop1.count = 1) ∧ entered.frontier.length < 16 := by decide

def issuing (i : Instr) (s : State) (g : Group) : Bool := meets s bundle0 g i
def dying : Thread := { thread0 with v := [(4, ⟨7, false, true⟩)] }
def dtrap : Group := { groupOf dying with lvs := 1 }
/-- A word with a reserved register, a terminator before other words, system registers of system software, a lost latch, and a dead register where dead reads trap. -/
theorem witness_WordTraps :
    (let i : Instr := .iaddI32 ⟨false, false, 8, 127, 6, false, none⟩
     i.isWord = true ∧ (shape i).c = false ∧ (shape i).legal group0.win (hdrOf machine0 1).sregs = false) ∧
    (let i : Instr := .exit ⟨false, none⟩
     i.isWord = true ∧ (shape i).term = true ∧ termOk { bundle0 with pkt := some ⟨0x5C000000, 0x5C000000, 0x5C000000⟩ } (shape i).len = false) ∧
    (0x100 ≤ (0x100 : BitVec 11).toNat ∧ Meets thread0 (.sysr ⟨false, false, 8, 0x180, none⟩) ∧ Meets thread0 (.sysw ⟨false, false, 4, 0x180, none⟩)) ∧
    (let t := { thread0 with ringI := [] }
     Ready (plain t) 0 0 bundle0 (groupOf t) 5 ∧ Issuable (.iaddI32 ⟨false, false, 8, 96, 6, false, none⟩) (plain t) bundle0 0 (groupOf t) 5 ∧
       ∀ j ∈ members 5, srcLost (threadAt (groupOf t) j) .i ⟨96, 1, true, false⟩ = true) ∧
    (Ready (machineIn base core0 dtrap bundle0) 0 0 bundle0 dtrap 5 ∧ Issuable (.iaddI32 ⟨false, false, 8, 4, 6, false, none⟩) (machineIn base core0 dtrap bundle0) bundle0 0 dtrap 5 ∧
       dtrap.lvs.getLsbD 0 = true ∧ ∀ j ∈ members 5, srcLost (threadAt dtrap j) .i ⟨4, 1, true, false⟩ = false ∧ srcDead (threadAt dtrap j) ⟨4, 1, true, false⟩ = true) :=
  ⟨by decide, by decide, ⟨by decide, meets_of _ _ _ _ (by decide), meets_of _ _ _ _ (by decide)⟩,
   ⟨ready_of _ _ _ _ rfl rfl rfl rfl rfl rfl rfl rfl rfl rfl rfl, ⟨by decide, by decide, fun h => absurd h (by decide), by decide⟩, by decide⟩,
   ready_of _ _ _ _ rfl rfl rfl rfl rfl rfl rfl rfl rfl rfl rfl, ⟨by decide, by decide, fun h => absurd h (by decide), by decide⟩, by decide, by decide⟩

/-- A compare of a lost latch, and of a dead register where dead reads trap. -/
theorem witness_SourcesTrap :
    (let t := { thread0 with ringI := [] }
     Ready (plain t) 0 0 bundle0 (groupOf t) 5 ∧ Issuable (.icmpI32 ⟨false, 1, 1, 96, 6, none⟩) (plain t) bundle0 0 (groupOf t) 5 ∧
       ∀ j ∈ members 5, srcLost (threadAt (groupOf t) j) .i ⟨96, 1, true, false⟩ = true) ∧
    Issuable (.icmpI32 ⟨false, 1, 1, 4, 6, none⟩) (machineIn base core0 dtrap bundle0) bundle0 0 dtrap 5 :=
  ⟨⟨ready_of _ _ _ _ rfl rfl rfl rfl rfl rfl rfl rfl rfl rfl rfl, ⟨by decide, by decide, fun h => absurd h (by decide), by decide⟩, by decide⟩,
   ⟨by decide, by decide, fun h => absurd h (by decide), by decide⟩⟩

/-- A load and a store of a word at 7, which is misaligned. -/
theorem witness_AccessTraps :
    (Meets thread0 (.load ⟨false, 8, 4, 3, 0, 0, 4, none⟩) ∧ ∀ j ∈ members 5, (readBase (seen thread0) (some j) (baseSrc 0 4)).pen = false ∧ lateEntries (seen thread0) (some j) = [] ∧
      checked (seen thread0) (some j) 0 false 0 7 (tyBytes 4) (tyAlign 4) = .trap 3) ∧
    (MeetsCalm thread0 (.store ⟨false, 6, 4, 0, 4, none⟩) ∧ ∀ j ∈ members 5, checked (seen thread0) (some j) 1 false 0 7 (tyBytes 4) (tyAlign 4) = .trap 3) :=
  ⟨⟨meets_of _ _ _ _ (by decide), by decide⟩, calm_meet _ _ (by decide) (by decide), by decide⟩

/-- A store of a guessed address: with the guess open, refuted with a replay point, and refuted without one. -/
def refuted (rpv : Bool) : Thread := { guessing with rf := true, rpv := rpv }
def openGuess : Core := { core0 with loads := [{ guess0 with holds := [4] }, { guess0 with num := 4, thr := some 2, holds := [4] }] }
theorem witness_CertaintyPoints :
    (MeetsIn base openGuess (groupOf guessing) bundle0 (.store ⟨false, 6, 4, 0, 0, none⟩) ∧
      ∀ j ∈ members 5, unresolved (machineIn base openGuess (groupOf guessing) bundle0).core (groupOf guessing) j = true) ∧
    (∀ rpv ∈ [true, false], Meets (refuted rpv) (.store ⟨false, 6, 4, 0, 0, none⟩) ∧
      ∀ j ∈ members 5, unresolved (plain (refuted rpv)).core (groupOf (refuted rpv)) j = false ∧ (threadAt (groupOf (refuted rpv)) j).rf = true ∧ (threadAt (groupOf (refuted rpv)) j).rpv = rpv) ∧
    bundle0.pos = bundle0.stepPos ∧ ∀ j ∈ members 5, (readBase (seen guessing) (some j) (baseSrc 0 4)).pen = true := by
  refine ⟨⟨meets_of _ _ _ _ (by decide), by decide⟩, ?_, by decide, by decide⟩
  intro r hr
  rcases List.mem_cons.mp hr with rfl | hr
  · exact ⟨meets_of _ _ _ _ (by decide), by decide⟩
  · rw [List.mem_singleton.mp hr]; exact ⟨meets_of _ _ _ _ (by decide), by decide⟩

/-- A replay of a thread of the group, with room in its frontier and in its sub-group's, and with a sub-group whose 8 entries start elsewhere. -/
theorem witness_Replays :
    let entries := fun (n : Nat) => (List.range n).map fun i => { entry0 with start := BitVec.ofNat 32 (i + 1), wait := 0 }
    (groupAt (coreAt machine0 0) 0 = some group0 ∧ group0.threads.length = 32 ∧ group0.frontier.length < 16 ∧ ∃ e ∈ entered.frontier, e.start = thread0.rpc) ∧
    (∀ n ∈ [7, 8], let g := { group0 with subs := [(3, ⟨5, entries n⟩)] }
      (groupAt (coreAt (machineOf g bundle0) 0) 0).bind (fun g => (tfind g.subs 3).map fun x => (decide (8 ≤ x.frontier.length), x.frontier.all fun e => e.start != thread0.rpc)) = some (n == 8, true)) := by decide

def chains (s : State) (b : Bundle) (g : Group) (i : Instr) : Bool :=
  let sh := shape i
  sh.c && sh.legal g.win (hdrOf s g.lseq).sregs && (!sh.term || termOk b sh.len) && (waitsFor sh (viewAt s b 0 g 5)).isEmpty &&
  (sh.u || (members 5).all fun j => !(sh.srcs.any (srcLost (threadAt g j) sh.pipe)) && !(deadTraps g && sh.srcs.any (srcDead (threadAt g j))))
theorem chains_spec {s : State} {b : Bundle} {g : Group} {i : Instr} (h : chains s b g i = true) : Chainable i s b 0 g 5 ∧ Readable i g 5 := by
  simp only [chains, Bool.and_eq_true, Bool.or_eq_true, Bool.not_eq_true', List.isEmpty_iff, List.all_eq_true] at h
  obtain ⟨⟨⟨⟨h1, h2⟩, h3⟩, h4⟩, h5⟩ := h
  refine ⟨⟨h1, h2, fun ht => ?_, h4⟩, fun hu j hj => ?_⟩
  · rcases h3 with h3 | h3
    · rw [ht] at h3; cases h3
    · exact h3
  · rcases h5 with h5 | h5
    · rw [hu] at h5; cases h5
    · exact h5 j hj
/-- A chained word of each shape, in the U = 0 and the U = 1 form where there is one. -/
theorem witness_ChainsHold : Ready machine0 0 0 bundle0 group0 5 ∧ ∀ i ∈ ([
    .iaddI32 ⟨true, false, 8, 4, 6, false, none⟩, .iaddI32 ⟨true, true, 8, 4, 6, false, none⟩, .iaddI64 ⟨true, false, 8, 4, 6, false, none⟩, .andB32 ⟨true, false, 8, 4, 6, false, none⟩,
    .bfiB32 ⟨true, false, 8, 4, 6, false, none⟩, .popcB32 ⟨true, false, 8, 4, false, none⟩, .leaB32 ⟨true, false, 8, 4, 6, 2, false, none⟩, .iaddiI32 ⟨true, false, 8, 4, 0x7FF, none⟩,
    .faddF32 ⟨true, false, 8, 4, 6, false, none⟩, .ffmaF32Cb0 ⟨true, 8, 4, 6, false, none⟩, .frcpF32 ⟨true, false, 8, 4, false, none⟩, .frndF32 ⟨true, false, 8, 4, 1, false, none⟩,
    .cvt ⟨true, false, 8, 4, 2, false, 1, false, none⟩, .cvtpX2bf16F32 ⟨true, 8, 4, 6, false, none⟩, .fscaleF32 ⟨true, 8, 4, 6, false, none⟩, .dp4X4i8 ⟨true, 8, 4, 6, false, none⟩,
    .icmpI32 ⟨true, 1, 1, 4, 6, none⟩, .fcmpF32 ⟨true, 1, 1, 4, 6, none⟩, .pand ⟨true, 1, true, 0, true, 1, none⟩, .selB32 ⟨true, 8, 4, 6, 1, false, none⟩] : List Instr),
    Chainable i machine0 bundle0 0 group0 5 ∧ Readable i group0 5 :=
  ⟨ready_of _ _ _ _ rfl rfl rfl rfl rfl rfl rfl rfl rfl rfl rfl, fun i hi => chains_spec (List.all_eq_true.mp (by decide : List.all _ (chains machine0 bundle0 group0) = true) i hi)⟩

/-- An access of one byte and one of 128. -/
theorem witness_MemoryReadsBack :
    let p : Piece := { loc := 0, n := 128, die := 0, key := some 0, kind := 0, mx := 0, sx := false, cw := false, peer := false }
    Memory.wf base.mem = true ∧ p.peer = false ∧ p.mx = 0 ∧ 0 < 1 ∧ p.n ≤ 128 := by decide

/-- One ill-formed word for each check of WellFormed, which that check refuses, and a well-formed one. -/
theorem test_wf_encodable : (Instr.mmaMx ⟨false, 5, 2, 8, 16, 40, 41⟩).encodable = false ∧ (Instr.msixInterrupt).encodable = false := by decide
theorem test_wf_fields : (Instr.cvt ⟨false, false, 8, 4, 0x1F, false, 0, false, none⟩).fieldsOk = false := by decide
theorem test_wf_uniform : (Instr.iaddI32 ⟨false, true, 8, 4, 6, true, none⟩).uniformOk = false := by decide
theorem test_wf_sources : (Instr.iaddI32 ⟨false, false, 8, 127, 6, false, none⟩).sourcesOk = false ∧ (Instr.iaddI64 ⟨false, false, 8, 5, 6, false, none⟩).sourcesOk = false := by decide
theorem test_wf_dests : (Instr.iaddI32 ⟨false, false, 96, 4, 6, false, none⟩).destsOk = false ∧ (Instr.iaddI64 ⟨false, false, 9, 4, 6, false, none⟩).destsOk = false := by decide
theorem test_wf_index : (Instr.smovRd ⟨false, false, 4, 384, none⟩).indexOk = false := by decide
theorem test_wf_literal : (Instr.iaddI32 ⟨false, false, 8, 4, 6, false, some 1⟩).literalOk = false := by decide
theorem test_wf_accepts : (Instr.iaddI32 ⟨false, false, 8, 4, 126, false, some 1⟩).wf = true := by decide

/-- Words with operands written out bit by bit from R34 to R53: two of two words, chained literals, and the last position of a packet. -/
theorem test_decode_literal_words : List.map (decodeAt 0) [[0xE81C2308, 0x7C000040], [0xF0202008, 0x7C300008], [0xF5084100, 0x7D429000], [0xCC080FE6, 0x7C000001], [0x9023AFE0, 0x7C000012]] =
    List.map (fun i => some (i, 2)) [.load ⟨false, 7, 4, 3, 0, 0, 4, some 0x40⟩, .atomic ⟨false, 8, 4, 0, 0, 4, 6, 8⟩, .mmaMx ⟨false, 0, 2, 8, 16, 0x28, 0x29⟩,
      .xflip ⟨false, 2, 1, 126, false, some 1⟩, .shlB32 ⟨false, false, 8, 117, 126, false, some 0x12⟩] := by decide
theorem test_decode_last_word : decodeAt 2 [0xDC240000] = some (.rti ⟨false, none⟩, 1) ∧ decodeAt 2 [0x5C240000] = some (.rti ⟨false, none⟩, 1) := by decide
/-- A reserved word decodes to nothing: major 0, and subs 0x16 and 0x17 of major 23 (R42). -/
theorem test_decode_reserved : decodeAt 0 [0] = none ∧ decodeAt 0 [0x00000001] = none ∧ decodeAt 0 [0x5C580000] = none ∧ decodeAt 0 [0x5C5C0000] = none ∧ decodeAt 0 [0x5C540000] = some (.dead ⟨false, 5, 0, none⟩, 1) := by decide

/-- Thread 0 of the group of slot 0 after a word. -/
def after (t : Thread) (i : Instr) : Option State := match exec i (plain t) with
  | .next s => some s
  | _ => none
def group1 (t : Thread) (i : Instr) : Option Group := (after t i).bind fun s => groupAt (coreAt s 0) 0
def v8 (a b : Word) (i : Instr) : Option Nat := (group1 { thread0 with v := [(4, ⟨a, false, false⟩), (6, ⟨b, false, false⟩)] } i).map fun g => (vreg (threadAt g 0) 8).val.toNat
def flags (a b : Word) (i : Instr) : Option (BitVec 5) := (group1 { thread0 with v := [(4, ⟨a, false, false⟩), (6, ⟨b, false, false⟩)] } i).map fun g => (threadAt g 0).flg

/-- R114: sums wrap, a saturating sum stops at the largest number, and the high halves differ by sign. -/
theorem test_iadd_wraps : v8 0xFFFFFFFF 1 (.iaddI32 ⟨false, false, 8, 4, 6, false, none⟩) = some 0 := by decide
theorem test_isub_order : v8 1 2 (.isubI32 ⟨false, false, 8, 4, 6, false, none⟩) = some 0xFFFFFFFF := by decide
theorem test_iadds_saturates : v8 0x7FFFFFFF 1 (.iaddsI32 ⟨false, false, 8, 4, 6, false, none⟩) = some 0x7FFFFFFF := by decide
theorem test_imulh_signed : v8 0xFFFFFFFF 2 (.imulhI32 ⟨false, false, 8, 4, 6, false, none⟩) = some 0xFFFFFFFF ∧ v8 0xFFFFFFFF 2 (.imulhN32 ⟨false, false, 8, 4, 6, false, none⟩) = some 1 := by decide
theorem test_iabs_least : v8 0x80000000 0 (.iabsI32 ⟨false, false, 8, 4, false, none⟩) = some 0x80000000 := by decide
theorem test_iaddi_negative : v8 5 0 (.iaddiI32 ⟨false, false, 8, 4, 0x7FF, none⟩) = some 4 := by decide
/-- R116 and R117: a shift counts with all of b, and counts find no bit in 0. -/
theorem test_shl_by_32 : v8 0xFFFFFFFF 32 (.shlB32 ⟨false, false, 8, 4, 6, false, none⟩) = some 0 := by decide
theorem test_shr_i32_by_40 : v8 0x80000000 40 (.shrI32 ⟨false, false, 8, 4, 6, false, none⟩) = some 0xFFFFFFFF := by decide
theorem test_rol_by_33 : v8 0x80000001 33 (.rolB32 ⟨false, false, 8, 4, 6, false, none⟩) = some 3 := by decide
theorem test_clz_ffs_zero : v8 0 0 (.clzB32 ⟨false, false, 8, 4, false, none⟩) = some 32 ∧ v8 0 0 (.ffsB32 ⟨false, false, 8, 4, false, none⟩) = some 32 := by decide
/-- R118 and R119. -/
theorem test_bfe_signed_past_31 : v8 0x80000000 0x0828 (.bfeI32 ⟨false, false, 8, 4, 6, false, none⟩) = some 0xFFFFFFFF := by decide
theorem test_pack_order : v8 0x1111AAAA 0x2222BBBB (.packB16 ⟨false, false, 8, 4, 6, false, none⟩) = some 0xBBBBAAAA := by decide
theorem test_lea_scales_b : v8 1 3 (.leaB32 ⟨false, false, 8, 4, 6, 2, false, none⟩) = some 13 := by decide
/-- R115 and R112: a wide product goes to a pair. -/
theorem test_imulw_pair : (group1 thread0 (.imulwN32 ⟨false, false, 8, 4, 6, false, none⟩)).map (fun g => ((vreg (threadAt g 0) 8).val, (vreg (threadAt g 0) 9).val)) = some (21, 0) := by decide
/-- R149 to R157: 1.5 + 1.5 is 3; an infinity less itself is NaN with NV; the reciprocal of zero raises DZ; 2^24 + 1 is a tie. -/
theorem test_fadd : v8 0x3FC00000 0x3FC00000 (.faddF32 ⟨false, false, 8, 4, 6, false, none⟩) = some 0x40400000 := by decide
theorem test_fadd_tie : v8 0x4B800000 0x3F800000 (.faddF32 ⟨false, false, 8, 4, 6, false, none⟩) = some 0x4B800000 ∧ flags 0x4B800000 0x3F800000 (.faddF32 ⟨false, false, 8, 4, 6, false, none⟩) = some flNX := by decide
theorem test_fsub_invalid : v8 0x7F800000 0x7F800000 (.fsubF32 ⟨false, false, 8, 4, 6, false, none⟩) = some 0x7FC00000 ∧ flags 0x7F800000 0x7F800000 (.fsubF32 ⟨false, false, 8, 4, 6, false, none⟩) = some flNV := by decide
theorem test_frcp_zero : v8 0 0 (.frcpF32 ⟨false, false, 8, 4, false, none⟩) = some 0x7F800000 ∧ flags 0 0 (.frcpF32 ⟨false, false, 8, 4, false, none⟩) = some flDZ := by decide
theorem test_fsqrt_four : v8 0x40800000 0 (.fsqrtF32 ⟨false, false, 8, 4, false, none⟩) = some 0x40000000 := by decide
theorem test_dp4_signed : v8 0xFF020304 0x01010101 (.dp4X4i8 ⟨false, 8, 4, 6, false, none⟩) = some 8 := by decide
/-- R120 and R16: a compare writes a predicate; a register named as d is read before it is written. -/
theorem test_icmp_signed : (group1 { thread0 with v := [(4, ⟨0xFFFFFFFF, false, false⟩)] } (.icmpI32 ⟨false, 2, 1, 4, 6, none⟩)).map (fun g => (preg (threadAt g 0) 1).val) = some true := by decide
theorem test_source_is_destination : (group1 thread0 (.iaddI32 ⟨false, false, 4, 4, 4, false, none⟩)).map (fun g => (vreg (threadAt g 0) 4).val) = some 14 := by decide
/-- R8: only the present threads 0 and 2 are written. -/
theorem test_absent_thread_keeps : (group1 thread0 (.iaddI32 ⟨false, false, 8, 4, 6, false, none⟩)).map (fun g => [0, 1, 2].map fun j => (vreg (threadAt g j) 8).val) = some [10, 0, 10] := by decide
/-- R39 and R113: a result is pushed as the newest latch, also with N = 1, which writes no register. -/
theorem test_latch_push : (group1 thread0 (.iaddI32 ⟨false, false, 8, 4, 6, true, none⟩)).map (fun g => ((threadAt g 0).ringI.head?.map (·.val), (vreg (threadAt g 0) 8).val)) = some (some 10, 0) := by decide
/-- R16: with U = 1 the operands are s registers. -/
theorem test_uniform_add : (group1 thread0 (.iaddI32 ⟨false, true, 9, 4, 6, false, none⟩)).map (fun g => (sreg g 9).val) = some 10 := by decide
/-- R197 to R200: threads 0 and 2 alone contribute. -/
theorem test_gred_add : v8 7 0 (.gredAddI32 ⟨false, false, 8, 4, false, 0, false, none⟩) = some 14 := by decide
theorem test_pmask_present : v8 0 0 (.pmask ⟨false, false, 8, false, 0, false, none⟩) = some 5 := by decide
theorem test_xflip_absent : v8 7 1 (.xflip ⟨false, 8, 4, 6, false, none⟩) = some 7 := by decide
theorem test_gfirst : (group1 thread0 (.gfirst ⟨false, 8, false, none⟩)).map (fun g => [0, 2].map fun j => (vreg (threadAt g j) 8).val) = some [1, 0] := by decide

/-- R102 and R103's worked write of one element to an MXFP8 alias block. -/
theorem test_alias_write :
    let before := 0x39 + 0x01 * 2 ^ 8 + 0xC4 * 2 ^ 16 + 0x7F * 2 ^ 248 * 2 ^ 256
    let view := aliasView 1 before
    let stored := aliasStore 1 (view + 0x447A * 2 ^ 80)
    view % 2 ^ 48 = 0xC0403B003F90 ∧ stored % 2 ^ 64 = 0x0000780000B40029 ∧ stored / 2 ^ 248 / 2 ^ 256 = 0x81 ∧ aliasView 1 stored / 2 ^ 80 % 2 ^ 16 = 0x4480 := by decide
/-- R108's worked cell of mma.bf16. -/
theorem test_cell_update :
    let p := fun (a b : Nat) => mulF (decodeF bf16 a) (decodeF bf16 b)
    cellUpdate 2 ([p 0x4580 0x4580, p 0x3F80 0x3F80, p 0x3F80 0x3F80, p 0xC580 0x4580] ++ List.replicate 12 (p 0 0)) 0 = 0x40000000 := by decide
/-- R410's worked element of five ranks. -/
theorem test_reduce_tree : reduceElem 0 0 [0x4B800000, 0x3F800000, 0x3F800000, 0xCB800000, 0x3F800000] = 0x40000000 := by decide

def bundleAfter (t : Thread) (i : Instr) : Option Bundle := (after t i).bind fun s => bundleAt (coreAt s 0) 0
def thread1 (t : Thread) (i : Instr) : Option Thread := (group1 t i).map (threadAt · 0)
def core1 (t : Thread) (i : Instr) : Option Core := (after t i).map (coreAt · 0)

/-- R131 to R138: a taken branch sets the target, one not taken does not; call links; lpush enters its body; exit ends the threads. -/
theorem test_br_taken : (thread1 thread0 (.br ⟨false, 0, 0, none⟩)).map (·.xfer) = some (some 0) := by decide
theorem test_br_negated : (thread1 thread0 (.br ⟨false, 8, 0, none⟩)).map (·.xfer) = some none := by decide
theorem test_call_links : (thread1 thread0 (.call ⟨false, 0, 0, none⟩)).map (·.lnk) = some 1 := by decide
theorem test_br_to_middle_traps : (thread1 thread0 (.br ⟨false, 0, 2, none⟩)).map (fun t => t.trap.cause.toNat % 256) = some 1 := by decide
theorem test_exit_ends : (core1 thread0 (.exit ⟨false, none⟩)).map (fun c => (bundleAt c 0).isNone) = some true ∧
    (thread1 thread0 (.exit ⟨false, none⟩)).map (·.ended) = some true := by decide
/-- R139 and R373: trap saves its code, position and packet. -/
theorem test_trap_saves : (thread1 thread0 (.trapW ⟨false, 9, none⟩)).map (fun t => (t.trap.cause, t.trap.pc)) = some (0x090E, 0) := by decide
/-- R140 to R144. -/
theorem test_gmark : (thread1 thread0 (.gmark ⟨false, none⟩)).map (fun t => (t.rpv, t.rpc)) = some (true, 0) := by decide
theorem test_gtest_penumbra : (thread1 guessing (.gtest ⟨false, false, 4, 1, none⟩)).map (fun t => (preg t 1).val) = some true := by decide
theorem test_dead_marks : (thread1 thread0 (.dead ⟨false, 0, 0x10, none⟩)).map (fun t => ((vreg t 4).dead, (vreg t 6).dead)) = some (true, false) := by decide
/-- R202 and R204: the rejoin mask takes the present threads; a barrier that waits parks its bundle. -/
theorem test_jmark : (group1 thread0 (.jmark ⟨false, 7, none⟩)).map (fun g => tget 0 g.jm 7) = some 5 := by decide
theorem test_bar_parks : (bundleAfter thread0 (.barTm ⟨false, 15, none⟩)).map (fun b => (b.wait, b.parked)) = some (some (.barrier 0 15), true) := by decide
/-- R123 to R130. -/
theorem test_smov_s0_discards : (group1 thread0 (.smovWr ⟨false, 4, 0, none⟩)).map (fun g => (sreg g 0).val) = some 0 := by decide
theorem test_smov_wr : (group1 thread0 (.smovWr ⟨false, 4, 9, none⟩)).map (fun g => (sreg g 9).val) = some 7 := by decide
theorem test_sysr_window : (thread1 thread0 (.sysr ⟨false, false, 8, 0x11, none⟩)).map (fun t => (vreg t 8).val) = some 96 := by decide
theorem test_sysr_priv : (thread1 thread0 (.sysr ⟨false, false, 8, 0x180, none⟩)).map (fun t => t.trap.cause.toNat % 256) = some 2 := by decide
theorem test_sysw_lnk : (thread1 thread0 (.sysw ⟨false, false, 4, 8, none⟩)).map (·.lnk) = some 7 := by decide
theorem test_idr_thread : (group1 thread0 (.idr ⟨false, false, 8, 3, none⟩)).map (fun g => [0, 2].map fun j => (vreg (threadAt g j) 8).val) = some [0, 2] := by decide
theorem test_slp_parks : (bundleAfter thread0 (.slp ⟨false, 4, none⟩)).map (·.wait) = some (some .slp) ∧ (thread1 thread0 (.slp ⟨false, 4, none⟩)).map (·.sleep) = some (some 7) := by decide
/-- R237 to R247: a load asks once for each present thread; a store of one byte carries its low byte; a misaligned word traps. -/
theorem test_load_asks : (core1 thread0 (.load ⟨false, 8, 4, 0, 0, 0, 0, none⟩)).map (fun c => c.loads.map fun l => (l.thr, l.ea.toNat, l.dsts)) = some [(some 0, 7, [8]), (some 2, 7, [8])] := by decide
theorem test_store_bytes : (core1 { thread0 with v := [(4, ⟨8, false, false⟩), (6, ⟨0x1234, false, false⟩)] } (.store ⟨false, 6, 4, 0, 0, none⟩)).map (fun c => c.writes.map fun w => (w.thr, w.data, w.pieces.map (·.n))) =
    some [(some 0, 0x34, [1]), (some 2, 0x34, [1])] := by decide
theorem test_load_misaligned : (thread1 thread0 (.load ⟨false, 8, 4, 0, 0, 0, 4, none⟩)).map (fun t => (t.trap.cause.toNat % 256, t.trap.addr.toNat)) = some (3, 7) := by decide
theorem test_store_outside_tsm : (thread1 { thread0 with v := [(4, ⟨65536, false, false⟩)] } (.store ⟨false, 6, 4, 1, 0, none⟩)).map (fun t => t.trap.cause.toNat % 256) = some 4 := by decide
/-- R285, R305 and R328: what the engines take. -/
theorem test_mma_queued : (core1 thread0 (.azero ⟨false, 7, none⟩)).map (fun c => c.ctx.mq0.map (·.tile)) = some [7] := by decide
theorem test_bobj_parity : (thread1 { thread0 with v := [(4, ⟨8, false, false⟩)] } (.bobjInit ⟨false, false, 4, 6, 6, none⟩)).map (fun t => t.trap.cause.toNat % 256) = some 3 := by decide
/-- R11: a word whose step goes on writes nothing yet. -/
theorem test_chain_holds : (group1 thread0 (.iaddI32 ⟨true, false, 8, 4, 6, false, none⟩)).map (fun g => (vreg (threadAt g 0) 8).val) = some 0 := by decide

def next (i : Instr) (s : State) : Option State := match exec i s with
  | .next t => some t
  | _ => none
/-- R431: a write reaches its bytes when it is performed; R20: data reaches its register. -/
def plainPiece : Piece := { loc := 256, n := 2, die := 0, key := some 0, kind := 0, mx := 0, sx := false, cw := false, peer := false }
theorem test_write_performed : (next (.writePerformed 0 ⟨3, 0⟩) (withCore fun c => { c with writes := [{ write0 with pieces := [plainPiece], data := 0x1234 }] })).map (fun s => [255, 256, 257, 258].map fun a => (memByte s.mem a).toNat) =
    some [0, 0x34, 0x12, 0] := by decide
theorem test_data_arrives : (next (.loadDataArrival 0 ⟨3, 1⟩) (withCore fun c => { c with loads := [{ load0 with cls := 0, deadline := none, pieces := [{ plainPiece with loc := 0, n := 4 }] }] })).bind
    (fun s => (groupAt (coreAt s 0) 0).map fun g => (vreg (threadAt g 0) 8).val) = some 0x5C000000 := by decide
/-- R184, R185, R406, R368, R362 and R365: clocks, links and heat. -/
theorem test_link_sheds : (next (.linkNarrow 3) base).map (fun s => (linkAt s 3, linkAt s 2)) = some (.w2, .w4) := by decide
theorem test_alarm_counts : (next (.droopAlarm 7) base).map (fun s => ((tcAt s 7).alarms, (tcAt s 7).stretch, (tcAt s 7).halved, (tcAt s 6).alarms)) = some (1, 7, 71, 0) := by decide
theorem test_trip_stops_die : (next (.thermalTrip 3 921) base).map (fun s => (dieAt s 3).stopped) = some true ∧ (next (.thermalTrip 3 920) base).map (fun s => (dieAt s 3).stopped) = some false := by decide
theorem test_cap_lowers : (next (.registerWrite 0 0x201 1500) base).map (·.collCap) = some 1500 := by decide
/-- R415 and R416: a NOP is acknowledged on its channel, and a command out of sequence is refused. -/
theorem test_nop_acknowledged : (next (.cmdNop ⟨1, 1, 0xFF, 0, 0, 0⟩) (setChannel base 1 { channelAt base 1 with cmds := [⟨1, 1, 0xFF, 0, 0, 0⟩] })).map
    (fun s => ((channelAt s 1).cdone, (channelAt s 1).events.map fun e => (e.seq, e.type, e.payload % 2 ^ 64))) = some (1, [(1, 0xA, 0), (2, 1, 1)]) := by decide
/-- R30 and R174: the placed nop is fetched and issued, and the bundle stands at its next word. -/
theorem test_step_issues : (match step base with
    | .next s => (bundleAt (coreAt s 0) 0).map (·.pos)
    | _ => none) = some 1 := by decide
/-- R342: a header whose CLW is 0 is rejected at its offset. -/
theorem test_bad_header : badHeader { placedHdr with clw := 0 } = some 0x26 := by decide

end Sys2Proof.Tests
end

section
/-! Writes of the registers of the device and its dies (R126, R360): what a write makes of each register. -/

namespace Sys2Proof.Machine

/-- A number masked by a field of n ones from bit k on, written as the field at its place. -/
theorem and_fieldMask (v n k : Nat) : v &&& (2 ^ n - 1) <<< k = v / 2 ^ k % 2 ^ n * 2 ^ k := by
  rw [← Nat.shiftRight_eq_div_pow, ← Nat.and_two_pow_sub_one_eq_mod, ← Nat.shiftLeft_eq]
  apply Nat.eq_of_testBit_eq
  intro i
  by_cases h : k ≤ i <;> simp [h, Bool.and_comm]

/-- The RW fields of NOCB kept, written as their sum (R402). -/
theorem and_nocbMask (v : Nat) : v &&& 0x00FF0FFF = v % 2 ^ 12 + v / 2 ^ 16 % 2 ^ 8 * 2 ^ 16 := by
  have mask : 0x00FF0FFF = (2 ^ 12 - 1) ||| (2 ^ 8 - 1) <<< 16 := rfl
  have apart : v % 2 ^ 12 < 2 ^ 16 := by omega
  rw [mask, Nat.and_or_distrib_left, Nat.and_two_pow_sub_one_eq_mod, and_fieldMask, Nat.or_comm, Nat.mul_comm _ (2 ^ 16),
    ← Nat.two_pow_add_eq_or_of_lt apart, Nat.add_comm]

/-- A field of a register that ends within its 32 bits is that of the value written. -/
theorem field_of_word (value k n : Nat) (h : k + n ≤ 32) : value % 2 ^ 32 / 2 ^ k % 2 ^ n = value / 2 ^ k % 2 ^ n := by
  obtain ⟨d, hd⟩ := Nat.exists_eq_add_of_le h
  rw [hd, Nat.add_assoc, Nat.pow_add, Nat.mod_mul_right_div_self, Nat.mod_mod_of_dvd _ (Nat.pow_dvd_pow 2 (Nat.le_add_right n d))]

/-- The registers of a tile cluster stand from 0x200 on (R360). -/
theorem le_of_tcRegister {number : Nat} {p : Nat × Nat} (h : tcRegister number = some p) : 0x200 ≤ number := by
  by_contra hlt
  simp [tcRegister, hlt] at h

/-- What a write makes of a tile cluster's register, by the place of the register among its eight (R360, R402). -/
def writeTcRegister (s : State) (t value : Nat) : Nat → State
  | 0 => modTc s t fun x => { x with drt := BitVec.ofNat 32 (value % 2 ^ 16) }
  | 1 => settleCap (modTc s t fun x => { x with cap := value % 2 ^ 12 })
  | 2 => modTc s t fun x => { x with ebud := value % 2 ^ 16 }
  | 3 => modTc s t fun x => { x with ibud := value % 2 ^ 16 }
  | _ => modTc (refill (settleTc s t) t) t fun x => { x with nocb := BitVec.ofNat 32 (value % 2 ^ 12 + value / 2 ^ 16 % 2 ^ 8 * 2 ^ 16) }

/-- Where a number names no register with a place of its own, a write reaches the register of a tile cluster that it names. -/
theorem writeRegister_tc {number k r : Nat} (h : tcRegister number = some (k, r)) (s : State) (die value : Nat) :
    writeRegister s die number value = writeTcRegister s (10 * die + k) value r := by
  have far := le_of_tcRegister h
  have noKey : ¬ (0x1A8 ≤ number && number ≤ 0x1AA) = true := by simp; omega
  have low (n : Nat) (hn : n ≤ 32) : value % 2 ^ 32 % 2 ^ n = value % 2 ^ n := Nat.mod_mod_of_dvd _ (Nat.pow_dvd_pow 2 hn)
  have high := field_of_word value 16 8 (by decide)
  unfold writeRegister
  split <;> try omega
  simp only [if_neg noKey, h, and_nocbMask, low 16 (by decide), low 12 (by decide), high]
  match r with
  | 0 | 1 | 2 | 3 | _ + 4 => rfl

/-- The numbers of ID name no register that a write reaches (R126). -/
theorem writeRegister_id {number : Nat} (h : 0x1C0 ≤ number ∧ number ≤ 0x1C7) (s : State) (die value : Nat) : writeRegister s die number value = s := by
  have noTc : tcRegister number = none := by
    have hlt : ¬ 0x200 ≤ number := by omega
    simp [tcRegister, hlt]
  have noKey : ¬ (0x1A8 ≤ number && number ≤ 0x1AA) = true := by simp; omega
  unfold writeRegister
  split <;> try omega
  simp only [if_neg noKey, noTc]

theorem writeRegister_chkey {number : Nat} (h : 0x1A8 ≤ number ∧ number ≤ 0x1AA) (s : State) (die value : Nat) :
    writeRegister s die number value = { s with chkey := tput s.chkey (number - 0x1A8) (BitVec.ofNat 32 (value % 2 ^ 11)) } := by
  have key : (0x1A8 ≤ number && number ≤ 0x1AA) = true := by simp [h]
  have low : value % 2 ^ 32 % 2 ^ 11 = value % 2 ^ 11 := by omega
  unfold writeRegister
  split <;> try omega
  simp only [key, if_true, low]

/-- A write to a register that has no behaviour of its own is made where the die has one of its number (R126, R360). -/
theorem exec_registerWrite {die number : Nat} (value : Nat) (s : State) (hd : die < 4) (hr : (deviceRegister number || dieRegister number) = true)
    (hp : number ≠ 0x190) (hs : number ≠ 0x1A0) : exec (.registerWrite die number value) s = .next (writeRegister s die number value) := by
  have named : (die < 4 && (deviceRegister number || dieRegister number) && number != 0x190 && number != 0x1A0) = true := by simp [hd, hr, hp, hs]
  exact congrArg Host.Outcome.next (if_pos named)

/-- Settles O44: each register's case of the write, with the value cut to the register's RW fields. -/
theorem registerWrites : Obligations.RegisterWrites := by
  intro die number value s hd hr hp hs
  have low16 : value % 2 ^ 32 % 2 ^ 16 = value % 2 ^ 16 := by omega
  have low5 : value % 2 ^ 32 % 32 = value % 32 := by omega
  have act : value % 2 ^ 32 / 256 % 256 = value / 256 % 256 := field_of_word value 8 8 (by decide)
  have psb : value % 2 ^ 32 % 2 ^ 24 = value % 2 ^ 24 := by omega
  refine ⟨writeRegister s die number value, exec_registerWrite value s hd hr hp hs, rfl, ?tgid, ?actw, fun h => writeRegister_chkey h s die value,
    fun h => writeRegister_id h s die value, ?psbLow, ?psbHigh, ?wdt, ?mirk, fun k h => writeRegister_tc h s die value, fun k h => writeRegister_tc h s die value,
    fun k h => writeRegister_tc h s die value, fun k h => writeRegister_tc h s die value, fun k h => writeRegister_tc h s die value⟩
  case tgid => rintro rfl; simp only [writeRegister, low16]
  case actw => rintro (rfl | rfl) <;> simp only [writeRegister, act, Nat.sub_self, Nat.reduceSub]
  case psbLow => rintro rfl; rfl
  case psbHigh => rintro rfl; simp only [writeRegister, psb]
  case wdt => rintro rfl; simp only [writeRegister, low16]
  case mirk => rintro rfl; simp only [writeRegister, low5]
end Sys2Proof.Machine
end

section
/-! The canonical form of memory (log entry 1): what leaves the bytes of memory as they are, whatever else of the state it changes. -/

namespace Sys2Proof.Machine

/-! Changes made one after another, choices, and answers in parts. -/

/-- A change made once for each entry of a list keeps memory canonical where each change does. -/
theorem foldl_wf {α : Type} {f : State → α → State} (hf : ∀ a x, Memory.wf a.mem = true → Memory.wf (f a x).mem = true) (l : List α) {s : State}
    (h : Memory.wf s.mem = true) : Memory.wf (l.foldl f s).mem = true :=
  List.foldlRecOn l f h fun a ha x _ => hf a x ha

@[simp] theorem foldl_mem {α : Type} {f : State → α → State} (hf : ∀ a x, (f a x).mem = a.mem) (l : List α) (s : State) : (l.foldl f s).mem = s.mem :=
  List.foldlRecOn (motive := fun a => a.mem = s.mem) l f rfl fun a ha x _ => (hf a x).trans ha

@[simp] theorem mem_ite (c : Prop) [Decidable c] (a b : State) : (if c then a else b).mem = if c then a.mem else b.mem := apply_ite State.mem c a b

@[simp] theorem fst_mem_ite {α : Type} (c : Prop) [Decidable c] (a b : State × α) : (if c then a else b).1.mem = if c then a.1.mem else b.1.mem :=
  apply_ite (fun x : State × α => x.1.mem) c a b

@[simp] theorem wf_ite {c : Prop} [Decidable c] {a b : List Host.Cell} :
    Memory.wf (if c then a else b) = true ↔ (c → Memory.wf a = true) ∧ (¬ c → Memory.wf b = true) := by split <;> simp [*]

/-- The state of an answer in two parts, by the equation that names them. -/
theorem wf_of_eq {α : Type} {p : State × α} {s : State} {x : α} (e : p = (s, x)) (h : Memory.wf p.1.mem = true) : Memory.wf s.mem = true := by
  rw [e] at h; exact h

/-! What leaves the bytes of memory as they are. -/

@[simp] theorem noteStart_mem (s : State) (lseq : Nat) : (noteStart s lseq).mem = s.mem := by unfold noteStart; split <;> simp
@[simp] theorem bringLines_mem (s : State) (dirty : Bool) (ps : List Piece) : (bringLines s dirty ps).mem = s.mem := by simp [bringLines]
@[simp] theorem fetchLines_mem (s : State) (k : Nat) (h : Hdr) (pc : Nat) : (fetchLines s k h pc).mem = s.mem := by simp [fetchLines]
@[simp] theorem installGuess_mem (s : State) (k : Nat) (l : Load) : (installGuess s k l).mem = s.mem := by simp [installGuess]
@[simp] theorem startLoad_mem (s : State) (k : Nat) (l : Load) : (startLoad s k l).mem = s.mem := by
  unfold startLoad
  repeat' split <;> simp
@[simp] theorem startRefuted_mem (s : State) (k : Nat) (l : Load) : (startRefuted s k l).mem = s.mem := rfl
@[simp] theorem startWrite_mem (s : State) (k : Nat) (w : Write) : (startWrite s k w).mem = s.mem := rfl
@[simp] theorem startMatrix_mem (s : State) (k sel : Nat) (m : MWord) (mask : Word) : (startMatrix s k sel m mask).mem = s.mem := rfl
@[simp] theorem modGid_mem (s : State) (cl id : Nat) (f : Option Gid → Option Gid) : (modGid s cl id f).mem = s.mem := rfl
@[simp] theorem settleCluster_mem (s : State) (cl : Nat) : (settleCluster s cl).mem = s.mem := by simp [settleCluster]
@[simp] theorem addCounts_mem (s : State) (t : Team) : (addCounts s t).mem = s.mem := by simp [addCounts]
@[simp] theorem closeLaunch_mem (s : State) (lseq status : Nat) : (closeLaunch s lseq status).mem = s.mem := rfl
@[simp] theorem spillWaits_mem (s : State) (k : Nat) (g : Group) : (spillWaits s k g).mem = s.mem := rfl
@[simp] theorem snapPage_mem (s : State) (lseq : Nat) (p : Piece) : (snapPage s lseq p).mem = s.mem := by unfold snapPage; split <;> simp
@[simp] theorem snapPages_mem (s : State) (lseq : Nat) (ps : List Piece) : (snapPages s lseq ps).mem = s.mem := by simp [snapPages]
@[simp] theorem mapBundles_mem (s : State) (f : Tab Group → Bundle → Bundle) : (mapBundles s f).mem = s.mem := rfl
@[simp] theorem finishAtomic_mem (s : State) (k : Nat) (l : Load) (old : Nat) : (finishAtomic s k l old).mem = s.mem := rfl
@[simp] theorem readUnit_mem (s : State) (k : Nat) (l : Load) (j : Nat) : (readUnit s k l j).mem = s.mem := by unfold readUnit; split <;> simp
@[simp] theorem setBit_mem (s : State) (k slot : Nat) : (setBit s k slot).mem = s.mem := by unfold setBit; split <;> simp
@[simp] theorem addProducer_mem (s : State) (k slot base : Nat) : (addProducer s k slot base).mem = s.mem := by unfold addProducer; split <;> simp
@[simp] theorem startPrefetch_mem (s : State) (k slot : Nat) (p : Option Piece) : (startPrefetch s k slot p).mem = s.mem := by simp [startPrefetch]
@[simp] theorem setWindow_mem (s : State) (k slot w : Nat) : (setWindow s k slot w).mem = s.mem := rfl
@[simp] theorem markDone_mem (s : State) (k bid slot i : Nat) : (markDone s k bid slot i).mem = s.mem := rfl
@[simp] theorem holdStep_mem (s : State) (k bid : Nat) (b : Bundle) (w : Wait) (parked pinned : Bool) : (holdStep s k bid b w parked pinned).mem = s.mem := rfl
@[simp] theorem settleAt_mem (s : State) (k slot : Nat) : (settleAt k slot s).mem = s.mem := rfl
@[simp] theorem retakeLaunch_mem (s : State) (l : Nat) : (retakeLaunch s l).mem = s.mem := rfl
@[simp] theorem doAsk_mem (s : State) (k own slot bid : Nat) (a : Ask) : (doAsk k own slot bid s a).mem = s.mem := by unfold doAsk; split <;> simp
@[simp] theorem notePacket_mem (s : State) (k sel bid : Nat) (b : Bundle) : (notePacket k sel bid b s).mem = s.mem := by simp [notePacket]
@[simp] theorem guessed_mem (s : State) (k lid : Nat) : (guessed s k lid).mem = s.mem := by unfold guessed; split <;> simp
@[simp] theorem deliver_mem (s : State) (k : Nat) (l : Load) (v : Nat) : (deliver s k l v).mem = s.mem := rfl
@[simp] theorem keepCopy_mem (s : State) (k : Nat) (l : Load) (ps : List Piece) : (keepCopy s k l ps).mem = s.mem := by simp [keepCopy]
@[simp] theorem performLoad_mem (s : State) (k : Nat) (l : Load) : (performLoad s k l).mem = s.mem := by simp [performLoad]
@[simp] theorem resumeBundle_mem (s : State) (k sel bid : Nat) : (resumeBundle s k sel bid).mem = s.mem := rfl
@[simp] theorem openBundle_mem (s : State) (k sel slot : Nat) (sub : Option Nat) (start : Word) : (openBundle s k sel slot sub start).mem = s.mem := rfl
@[simp] theorem enqueue_mem (s : State) (t : Nat) (q : Tcb) : (enqueue s t q).mem = s.mem := rfl
@[simp] theorem dropTcbs_mem (s : State) (lseq idx n : Nat) : (dropTcbs s lseq idx n).mem = s.mem := rfl
@[simp] theorem updateStatus_mem (s : State) (t : Nat) (units : List (Nat × Nat)) : (updateStatus s t units).mem = s.mem := by simp [updateStatus]
@[simp] theorem recordInterval_mem (s : State) (t : Nat) : (recordInterval s t).mem = s.mem := by simp [recordInterval]
@[simp] theorem startInterval_mem (s0 : State) (t : Nat) : (startInterval s0 t).mem = s0.mem := by simp [startInterval]
@[simp] theorem failArgument_mem (s : State) (k u va : Nat) : (failArgument s k u va).mem = s.mem := rfl
@[simp] theorem writeSplit_mem (s : State) (die value : Nat) : (writeSplit s die value).mem = s.mem := by simp [writeSplit]
@[simp] theorem countChecks_mem (s : State) (k u level macs : Nat) (bad : List Nat) : (countChecks s k u level macs bad).mem = s.mem := rfl
@[simp] theorem recordAlarm_mem (s : State) (t : Nat) : (recordAlarm s t).mem = s.mem := by simp [recordAlarm]
@[simp] theorem writePreq_mem (s : State) (die value : Nat) : (writePreq s die value).mem = s.mem := by simp [writePreq]
@[simp] theorem refill_mem (s : State) (t : Nat) : (refill s t).mem = s.mem := by simp [refill]
@[simp] theorem discardWindow_mem (s : State) (k u i n : Nat) : (discardWindow s k u i n).mem = s.mem := rfl
@[simp] theorem meetDown_mem (s : State) (link : Nat) : (meetDown s link).mem = s.mem := by unfold meetDown; split <;> simp
@[simp] theorem modRouter_mem (s : State) (die n : Nat) (f : Router → Router) : (modRouter s die n f).mem = s.mem := rfl
@[simp] theorem signal_mem (s : State) (die router : Nat) : (signal s die router).mem = s.mem := by simp [signal]
@[simp] theorem modPacket_mem (s : State) (pid : Nat) (f : Packet → Packet) : (modPacket s pid f).mem = s.mem := rfl
@[simp] theorem modReserved_mem (s : State) (die n : Nat) (f : Nat → Nat) : (modReserved s die n f).mem = s.mem := rfl
@[simp] theorem inject_mem (s0 : State) (pid choice : Nat) : (inject s0 pid choice).mem = s0.mem := by simp [inject]
@[simp] theorem forward_mem (s : State) (p : Packet) (dir choice : Nat) : (forward s p dir choice).mem = s.mem := by simp [forward]
@[simp] theorem failSpill_mem (s : State) (k own addr : Nat) : (failSpill s k own addr).mem = s.mem := by unfold failSpill; split <;> simp
@[simp] theorem startState_mem (s : State) (x : StartInfo) (b : Boot) : (startState s x b).mem = s.mem := rfl
@[simp] theorem expire_mem (s : State) (but : Option (Nat × Nat)) : (expire s but).mem = s.mem := by simp [expire]
@[simp] theorem wakeStacks_mem (s : State) : (wakeStacks s).mem = s.mem := rfl
@[simp] theorem excludeSince_mem (s : State) (lo : Nat) : (excludeSince lo s).mem = s.mem := by simp [excludeSince]
@[simp] theorem passTime_mem (s : State) (ns tc cyc : Nat) : (passTime s ns tc cyc).mem = s.mem := by simp [passTime]

@[simp] theorem clearPhase_mem (kind n : Nat) (s : State) (us : List Nat) : (clearPhase kind n s us).mem = s.mem := by
  induction us generalizing s with
  | nil => rfl
  | cons u r ih => rw [clearPhase, ih]; split <;> rfl

@[simp] theorem checkPhase_mem (s : State) (u kind n : Nat) : (checkPhase s u kind n).mem = s.mem := by simp [checkPhase]

@[simp] theorem checkPhases_mem (s : State) (u : Nat) : (checkPhases s u).mem = s.mem := by
  unfold checkPhases
  simp only [checkPhase_mem, foldl_mem, implies_true]

@[simp] theorem addRunning_mem (s : State) (us : List Nat) : (addRunning s us).mem = s.mem := by
  refine foldl_mem (fun a u => ?_) us s
  split <;> simp

@[simp] theorem uncharge_mem (s : State) (us : List Nat) : (uncharge s us).mem = s.mem := by
  induction us generalizing s with
  | nil => rfl
  | cons u r ih => unfold uncharge; split <;> simp [ih]

@[simp] theorem stopLaunches_mem (s : State) (ls : List Nat) : (stopLaunches s ls).mem = s.mem := by simp [stopLaunches]

@[simp] theorem planAsks_mem (k bid : Nat) (s : State) (ps : List (View × Plan)) : (planAsks k bid s ps).mem = s.mem := by
  refine foldl_mem (fun a x => ?_) ps s
  split <;> simp

@[simp] theorem tryAgain_mem (s : State) (k bid : Nat) (b : Bundle) (w : Wait) : (tryAgain s k bid b w).mem = s.mem := by
  simp only [tryAgain]
  split <;> simp

@[simp] theorem resume_mem (s : State) (k bid : Nat) (r : Resume) : (resume s k bid r).mem = s.mem := by
  unfold resume
  repeat' split
  all_goals simp

@[simp] theorem bindCluster_mem (s : State) (lseq cl : Nat) (us cores : List Nat) : (bindCluster s lseq cl us cores).mem = s.mem := by
  unfold bindCluster
  exact foldl_mem (fun a _ => modCore_mem a _ _) cores _

@[simp] theorem foldl_enqueue_mem {α : Type} (t : α → Nat) (q : α → Tcb) (l : List α) (s : State) :
    (l.foldl (fun a x => enqueue a (t x) (q x)) s).mem = s.mem :=
  foldl_mem (fun a _ => enqueue_mem a _ _) l s

theorem dealOne_mem {s t : State} {lseq : Nat} (e : dealOne s lseq = some t) : t.mem = s.mem := by
  simp only [dealOne] at e
  repeat' split at e
  all_goals cases e
  all_goals simp

@[simp] theorem dealLaunch_mem (n : Nat) (s : State) (l : Nat) : (dealLaunch n s l).mem = s.mem := by
  induction n generalizing s with
  | zero => rfl
  | succ n ih =>
    unfold dealLaunch
    split
    · rfl
    · next e => rw [ih, dealOne_mem e]

@[simp] theorem dealAll_mem (s : State) : (dealAll s).mem = s.mem := by simp [dealAll]

theorem askCompaction_mem {s t : State} {h : Hdr} {cores : List Nat} (e : askCompaction s h cores = some t) : t.mem = s.mem := by
  unfold askCompaction at e
  split at e
  · cases e
  · cases e
    exact foldl_mem (fun a _ => modCore_mem a _ _) _ s

@[simp] theorem refreshFeff_mem (s : State) : (refreshFeff s).mem = s.mem := by simp [refreshFeff]

@[simp] theorem raiseCap_mem (s : State) : (raiseCap s).mem = s.mem := by unfold raiseCap; split <;> simp

@[simp] theorem settleCap_mem (s : State) : (settleCap s).mem = s.mem := by simp [settleCap]

@[simp] theorem beginInterval_mem (s : State) (die : Nat) : (beginInterval s die).mem = s.mem := by simp [beginInterval]

@[simp] theorem takeAst_mem (s : State) (k : Nat) (g : Group) (w : MWord) (cv cg : Nat) (ts : List (Nat × List Piece)) :
    (takeAst s k g w cv cg ts).mem = s.mem :=
  foldl_mem (fun a _ => modCore_mem a _ _) _ s

@[simp] theorem takeWord_mem (s : State) (k : Nat) (sh : Bool) (x : Ctx) (g : Group) (w : MWord) : (takeWord s k sh x g w).mem = s.mem := by
  unfold takeWord; split <;> simp

@[simp] theorem takeMatrix_mem (s : State) (k sel : Nat) : (takeMatrix s k sel).mem = s.mem := by
  simp only [takeMatrix]
  repeat' split
  all_goals simp

@[simp] theorem writeRegister_mem (s : State) (die number value : Nat) : (writeRegister s die number value).mem = s.mem := by
  unfold writeRegister
  repeat' split
  all_goals simp

end Sys2Proof.Machine
end

section
/-! The canonical form of memory is kept by what the walks, the faults and the accesses of a step write. -/

namespace Sys2Proof.Machine

section
variable {s : State} (h : Memory.wf s.mem = true)
include h

/-! Page tables, events of the device, faults, and the completion of launches. -/

@[simp] theorem walked_wf (root va access : Nat) : Memory.wf (walked s root va access).1.mem = true := by simp [walked, h]

@[simp] theorem touchEntry_wf (at' access e : Nat) : Memory.wf (touchEntry s at' access e).mem = true := by simp [touchEntry, h, memWrite_wf h]

@[simp] theorem reachVa_wf (root access fuel va n : Nat) : Memory.wf (reachVa root access fuel s va n).1.mem = true := by
  induction fuel generalizing s va n with
  | zero => exact h
  | succ fuel ih =>
    unfold reachVa
    split
    · exact h
    · split
      · next e => exact wf_of_eq e (walked_wf h root va access)
      · next e level at' walk =>
        have step := touchEntry_wf (wf_of_eq walk (walked_wf h root va access)) at' access e
        dsimp only
        split
        · next rest => exact wf_of_eq rest (ih step _ _)
        · exact ih step _ _

@[simp] theorem writeVa_wf (root va n v : Nat) : Memory.wf (writeVa s root va n v).1.mem = true := by
  unfold writeVa
  split
  · next e => simp [piecesWrite_wf (wf_of_eq e (reachVa_wf h _ _ _ _ _))]
  · next e => exact wf_of_eq e (reachVa_wf h _ _ _ _ _)

@[simp] theorem orVa_wf (root va v : Nat) : Memory.wf (orVa s root va v).1.mem = true := by
  unfold orVa
  split
  · next e => simp [piecesWrite_wf (wf_of_eq e (reachVa_wf h _ _ _ _ _))]
  · next e => exact wf_of_eq e (reachVa_wf h _ _ _ _ _)

@[simp] theorem writeEvent_wf (ch type die payload : Nat) : Memory.wf (writeEvent s ch type die payload).mem = true := by
  simp [writeEvent, h, memWrite_wf h]

@[simp] theorem sendOn_wf (ch type die payload : Nat) : Memory.wf (sendOn s ch type die payload).mem = true := by simp [sendOn, h]

@[simp] theorem sendEvent_wf (type die payload : Nat) : Memory.wf (sendEvent s type die payload).mem = true := sendOn_wf h _ _ _ _

@[simp] theorem sendCompl_wf (lseq crec status tag : Nat) : Memory.wf (sendCompl s lseq crec status tag).mem = true := sendEvent_wf h _ _ _

@[simp] theorem newFault_wf (d : Nat) (who : Waiter) (va kind access level coreNo slot lseq : Nat) :
    Memory.wf (newFault s d who va kind access level coreNo slot lseq).1.mem = true := by simp [newFault, h]

@[simp] theorem holdFault_wf (d : Nat) (who : Waiter) (va kind access level coreNo slot lseq : Nat) :
    Memory.wf (holdFault s d who va kind access level coreNo slot lseq).1.mem = true := by unfold holdFault; split <;> simp [h]

@[simp] theorem complete_wf (lseq status : Nat) : Memory.wf (complete s lseq status).mem = true := by
  simp only [complete]
  split
  · exact h
  · split
    · exact h
    · split <;> simp [h]

@[simp] theorem completeReady_wf (n : Nat) : Memory.wf (completeReady n s).mem = true := by
  induction n generalizing s with
  | zero => exact h
  | succ n ih =>
    unfold completeReady
    split
    · exact h
    · exact ih (complete_wf h _ 0)

@[simp] theorem settleLaunches_wf : Memory.wf (settleLaunches s).mem = true := completeReady_wf h _

/-! The ends of threads, groups and teams. -/

@[simp] theorem setTeamBit_wf (t : Team) : Memory.wf (setTeamBit s t).mem = true := by
  simp only [setTeamBit]
  split
  · exact h
  · split
    · exact h
    · split <;> simp [h]

@[simp] theorem endTeam_wf (u : Nat) : Memory.wf (endTeam s u).mem = true := by
  simp only [endTeam]
  split
  · exact h
  · split
    · exact h
    · split <;> simp [h]

@[simp] theorem endGroup_wf (k slot : Nat) : Memory.wf (endGroup s k slot).mem = true := by
  unfold endGroup
  split <;> simp [h]

@[simp] theorem endOwner_wf (k u : Nat) : Memory.wf (endOwner s k u).mem = true := by
  unfold endOwner
  split <;> simp [h]

@[simp] theorem endThread_wf (k slot i : Nat) : Memory.wf (endThread s k slot i).mem = true := by
  unfold endThread
  split <;> simp [h]

/-! Spilled frontier entries, and threads that join a frontier. -/

@[simp] theorem spillFault_wf (k : Nat) (g : Group) (va kind access level : Nat) : Memory.wf (spillFault s k g va kind access level).mem = true := by
  simp [spillFault, h]

@[simp] theorem putEntries_wf (k : Nat) (g : Group) (i : Nat) (es : List FEntry) : Memory.wf (putEntries k g i es s).mem = true := by
  induction es generalizing s i with
  | nil => exact h
  | cons e r ih =>
    simp only [putEntries]
    split
    · simp [h]
    · split
      · next reached => exact ih (by simp [piecesWrite_wf, wf_of_eq reached (reachVa_wf h _ _ _ _ _)]) _
      · next reached => exact spillFault_wf (wf_of_eq reached (reachVa_wf h _ _ _ _ _)) _ _ _ _ _ _

@[simp] theorem putSpill_wf (k u i : Nat) : Memory.wf (putSpill s k u i).mem = true := by unfold putSpill; split <;> simp [h]

@[simp] theorem refillAt_wf (n k u : Nat) : Memory.wf (refillAt n s k u).mem = true := by
  induction n generalizing s with
  | zero => exact h
  | succ n ih =>
    simp only [refillAt]
    split
    · exact h
    · split
      · exact h
      · split
        · exact h
        · split
          · simp [h]
          · split
            · next reached => exact spillFault_wf (wf_of_eq reached (reachVa_wf h _ _ _ _ _)) _ _ _ _ _ _
            · next reached => exact ih (by simp [wf_of_eq reached (reachVa_wf h _ _ _ _ _)])

@[simp] theorem retrySpill_wf (k own : Nat) : Memory.wf (retrySpill s k own).mem = true := by simp [retrySpill, h]

@[simp] theorem joinFrontier_wf (k slot : Nat) (g : Group) (start mask : Word) : Memory.wf (joinFrontier s k slot g start mask).mem = true := by
  simp [joinFrontier, h]

@[simp] theorem joinAt_wf (k slot : Nat) (sub : Option Nat) (start mask pc : Word) (pos : Nat) :
    Memory.wf (joinAt s k slot sub start mask pc pos).mem = true := by
  unfold joinAt
  repeat' split
  all_goals simp [h]

@[simp] theorem replayAt_wf (k slot : Nat) (sub : Option Nat) (i pos : Nat) (pc : Word) : Memory.wf (replayAt s k slot sub i pos pc).mem = true := by
  unfold replayAt
  split <;> simp [h]

@[simp] theorem leaveThread_wf (k slot : Nat) (sub : Option Nat) (pc : Word) (pos i : Nat) : Memory.wf (leaveThread k slot sub pc pos s i).mem = true := by
  unfold leaveThread
  split <;> simp [h]

@[simp] theorem resumeAt_wf (k slot lo : Nat) (pc : Word) (pos i : Nat) : Memory.wf (resumeAt s k slot lo pc pos i).mem = true := by
  unfold resumeAt
  split <;> simp [h]

@[simp] theorem returnThread_wf (k slot lo i : Nat) : Memory.wf (returnThread s k slot lo i).mem = true := by
  simp only [returnThread]
  split
  · exact h
  · repeat' split
    all_goals simp [h]

/-! Writes to team memory and to barrier objects. -/

@[simp] theorem resaveTsm_wf (u : Nat) (p : Piece) : Memory.wf (resaveTsm s u p).mem = true := by
  unfold resaveTsm
  split <;> simp [h, memWrite_wf h]

@[simp] theorem landed_wf (own : Nat) (ps : List Piece) : Memory.wf (landed s own ps).mem = true := by
  refine foldl_wf (fun a p ha => ?_) ps h
  split
  · rw [mapBundles_mem]
    refine foldl_wf (fun b v hb => ?_) _ (resaveTsm_wf ha _ p)
    split <;> exact hb
  · exact ha

@[simp] theorem bobjUpdate_wf (own loc : Nat) (f : Nat → Nat) : Memory.wf (bobjUpdate s own loc f).mem = true := by
  simp [bobjUpdate, memWrite_wf h]

@[simp] theorem bobjInit_wf (own loc y z : Nat) : Memory.wf (bobjInit s own loc y z).mem = true := bobjUpdate_wf h _ _ _

@[simp] theorem bobjBytes_wf (own loc n : Nat) (err : Bool) : Memory.wf (bobjBytes s own loc n err).mem = true := bobjUpdate_wf h _ _ _

@[simp] theorem bobjArrive_wf (k slot : Nat) (thr : Option Nat) (loc : Nat) (d : Option Nat) : Memory.wf (bobjArrive s k slot thr loc d).mem = true := by
  unfold bobjArrive
  split
  · exact h
  · dsimp only
    split <;> simp [h]
end

end Sys2Proof.Machine
end

section
/-! The canonical form of memory is kept by the commit and the issue of a step, by trap entry and by the groups that come and go. -/

namespace Sys2Proof.Machine

section
variable {s : State} (h : Memory.wf s.mem = true)
include h

/-! Writes, atomics and token acquires as they are performed. -/

@[simp] theorem doUnit_wf (k : Nat) (w : Write) (j : Nat) : Memory.wf (doUnit s k w j).mem = true := by
  simp only [doUnit]
  split
  · simp [h]
  · next p _ =>
    have write (v : Nat) : Memory.wf (pieceWrite (snapPages s w.lseq [p]) p v).mem = true := pieceWrite_wf (by simp [h]) p v
    repeat' split
    all_goals simp [h, write]

@[simp] theorem doUnits_wf (n k num : Nat) : Memory.wf (doUnits n s k num).mem = true := by
  induction n generalizing s with
  | zero => exact h
  | succ n ih =>
    unfold doUnits
    split
    · exact h
    · exact ih (doUnit_wf h _ _ _)

@[simp] theorem doWrite_wf (k : Nat) (w : Write) : Memory.wf (doWrite s k w).mem = true := doUnits_wf h _ _ _

@[simp] theorem finishToken_wf (k : Nat) (l : Load) (p : Nat) (got : Bool) : Memory.wf (finishToken s k l p got).mem = true := by simp [finishToken, h]

theorem landed_piecesWrite_wf (lseq own : Nat) (ps : List Piece) (v : Nat) :
    Memory.wf (landed (bringLines (piecesWrite (snapPages s lseq ps) ps v) true ps) own ps).mem = true := by simp [h, piecesWrite_wf]

@[simp] theorem doAtomic_wf (k : Nat) (l : Load) (op v : Nat) : Memory.wf (doAtomic s k l op v).mem = true := by
  simp only [doAtomic]
  split
  · simp [h]
  · split
    · split <;> simp [h]
    · rw [finishAtomic_mem]
      have done := landed_piecesWrite_wf h
      repeat' split
      all_goals simp [h, done]

@[simp] theorem doToken_wf (k : Nat) (l : Load) (p : Nat) : Memory.wf (doToken s k l p).mem = true := by
  simp only [doToken]
  split
  · simp [h]
  · split
    · split <;> simp [h]
    · apply finishToken_wf
      simp [h, landed_piecesWrite_wf h]

@[simp] theorem performOne_wf (k num : Nat) : Memory.wf (performOne s k num).mem = true := by
  unfold performOne
  split
  · simp [h]
  · split
    · exact h
    · split
      · simp [h]
      · simp [h]
      · refine foldl_wf (fun a j ha => ?_) _ h
        split <;> simp [ha]

@[simp] theorem performBefore_wf (k own : Nat) (po : Word) (ps : List Piece) : Memory.wf (performBefore s k own po ps).mem = true :=
  foldl_wf (fun _ _ ha => performOne_wf ha _ _) _ h

@[simp] theorem ownFirst_wf (k slot : Nat) (po : Word) (loc : Nat) : Memory.wf (ownFirst s k slot po loc).mem = true := by
  unfold ownFirst
  split <;> simp [h]

/-! What a thread's results do to the machine. -/

@[simp] theorem closeGid_wf (cl id : Nat) : Memory.wf (closeGid s cl id).mem = true := by
  unfold closeGid
  split
  · exact h
  · split
    · exact foldl_wf (fun a w ha => endOwner_wf (by exact ha) _ _) _ (by exact h)
    · exact h

@[simp] theorem freeGid_wf (k slot x : Nat) : Memory.wf (freeGid s k slot x).mem = true := by
  unfold freeGid
  split
  · exact h
  · dsimp only
    split
    · simp [h]
    · split <;> simp [h]

@[simp] theorem ringWrite_wf (q : Queue) (loc n v : Nat) : Memory.wf (ringWrite s q loc n v).mem = true := by simp [ringWrite, memWrite_wf h]

@[simp] theorem pushEntry_wf (k slot : Nat) (thr : Option Nat) (po : Word) (queue prio flags hdr : Nat) :
    Memory.wf (pushEntry s k slot thr po queue prio flags hdr).mem = true := by
  unfold pushEntry
  split <;> simp [h]

@[simp] theorem startCopy_wf (k : Nat) (po : Word) (x : Copy) : Memory.wf (startCopy s k po x).mem = true := by
  simp only [startCopy]
  split
  · simp [h]
  · split <;> simp [h]

@[simp] theorem doAct_wf (k bid slot : Nat) (m : Word) (thr : Option Nat) (pc : Word) (a : Act) : Memory.wf (doAct s k bid slot m thr pc a).mem = true := by
  unfold doAct
  repeat' split
  all_goals simp [h]

@[simp] theorem foldl_doAct_wf (acts : List Act) (k bid slot : Nat) (m : Word) (thr : Option Nat) (pc : Word) :
    Memory.wf (acts.foldl (fun a x => doAct a k bid slot m thr pc x) s).mem = true :=
  foldl_wf (fun _ _ ha => doAct_wf ha _ _ _ _ _ _ _) acts h

@[simp] theorem doActs_wf (sel : Act → Bool) (rs : List Res) (slot : Nat) (m : Word) (k bid : Nat) (pc : Word) :
    Memory.wf (doActs sel rs slot m k bid pc s).mem = true :=
  foldl_wf (fun _ _ ha => foldl_doAct_wf ha _ _ _ _ _ _ _) _ h

@[simp] theorem giveAll_wf (k bid : Nat) (b : Bundle) (fs : List (Part × List (Nat × Fate))) (r : Res) : Memory.wf (giveAll s k bid b fs r).mem = true :=
  foldl_wf (fun _ _ ha => by split <;> simp [ha]) fs h

@[simp] theorem handOver_wf (k bid : Nat) (b : Bundle) (fs : List (Part × List (Nat × Fate))) (r : Res) : Memory.wf (handOver s k bid b fs r).mem = true := by
  unfold handOver
  split <;> simp [h]

/-! Rollback and traps. -/

@[simp] theorem zeroBitmap_wf (root fuel va n : Nat) : Memory.wf (zeroBitmap root fuel va n s).mem = true := by
  induction fuel generalizing s va n with
  | zero => exact h
  | succ fuel ih =>
    unfold zeroBitmap
    split
    · exact h
    · exact ih (writeVa_wf h _ _ _ _) _ _

@[simp] theorem rollback_wf (lseq : Nat) : Memory.wf (rollback s lseq).mem = true := by
  simp only [rollback]
  split
  · exact h
  · split
    · exact h
    · split
      · exact foldl_wf (fun _ _ ha => complete_wf ha _ _) _ (by simp [h])
      · refine foldl_wf (fun a l ha => ?_) _ (foldl_wf (fun a m ha => ?_) _ (by simp [h, restorePages_wf]))
        · split <;> simp [ha]
        · simp [ha]

@[simp] theorem sendRecord_wf (k slot i : Nat) (g : Group) (cause info : Nat) (addr : Dword) (pos : Nat) (pc : Word) :
    Memory.wf (sendRecord s k slot i g cause info addr pos pc).mem = true := by simp [sendRecord, h]

@[simp] theorem doubleFault_wf (k slot i cause pos : Nat) (pc : Word) : Memory.wf (doubleFault s k slot i cause pos pc).mem = true := by
  unfold doubleFault
  split <;> simp [h]

@[simp] theorem enterTrap_wf (k slot : Nat) (sub : Option Nat) (i : Nat) (tr : Trap) (pos : Nat) (pc : Word) :
    Memory.wf (enterTrap s k slot sub i tr pos pc).1.mem = true := by
  simp only [enterTrap]
  repeat' split
  all_goals simp [h]

@[simp] theorem enterTraps_wf (k slot : Nat) (sub : Option Nat) (pos : Nat) (pc : Word) (traps : Tab Trap) :
    Memory.wf (enterTraps k slot sub pos pc traps s).1.mem = true := by
  induction traps generalizing s with
  | nil => exact h
  | cons x r ih => exact ih (enterTrap_wf h _ _ _ _ _ _ _)

@[simp] theorem takeTraps_wf (k slot : Nat) (sub : Option Nat) (traps : Tab Trap) (pos : Nat) (pc : Word) :
    Memory.wf (takeTraps s k slot sub traps pos pc).mem = true := by simp [takeTraps, h]

@[simp] theorem trapThreads_wf (k slot : Nat) (sub : Option Nat) (traps : Tab Trap) (pos : Nat) (pc : Word) :
    Memory.wf (trapThreads s k slot sub traps pos pc).mem = true := by simp [trapThreads, h]

@[simp] theorem trapGroups_wf (k : Nat) (b : Bundle) (ts : List (Nat × Nat × Trap)) : Memory.wf (trapGroups s k b ts).mem = true :=
  foldl_wf (fun _ _ ha => trapThreads_wf ha _ _ _ _ _ _) _ h

@[simp] theorem trapApart_wf (k : Nat) (b : Bundle) (ts : List (Nat × Nat × Trap)) : Memory.wf (trapApart s k b ts).mem = true :=
  foldl_wf (fun _ _ ha => by exact ha) _ (trapGroups_wf h k b ts)

@[simp] theorem withoutTraps_wf (k bid : Nat) (b : Bundle) (fs : List (Part × List (Nat × Fate))) (uni : Bool) :
    Memory.wf (withoutTraps s k bid b fs uni).mem = true := by simp [withoutTraps, h]

/-! The commit of a step. -/

@[simp] theorem stallStep_wf (k bid : Nat) (b : Bundle) (fs : List (Part × List (Nat × Fate))) (pre : List (Nat × List Res)) (x : Nat × List Res)
    (post : List (Nat × List Res)) (w : Wait) (parked pinned : Bool) : Memory.wf (stallStep s k bid b fs pre x post w parked pinned).mem = true := by
  have given : ∀ rs : List Res, Memory.wf (rs.foldl (fun a r => giveAll a k bid b fs r) s).mem = true :=
    fun rs => foldl_wf (fun _ _ ha => giveAll_wf ha _ _ _ _ _) rs h
  have handed : ∀ {a : State}, Memory.wf a.mem = true → Memory.wf (x.2.foldl (fun a r => handOver a k bid b fs r) a).mem = true :=
    fun ha => foldl_wf (fun _ _ hb => handOver_wf hb _ _ _ _ _) x.2 ha
  simp only [stallStep]
  repeat' split
  all_goals simp [given, handed, h]

@[simp] theorem finishStep_wf (k bid : Nat) (b : Bundle) (rs : List Res) (fs : List (Part × List (Nat × Fate))) :
    Memory.wf (finishStep s k bid b rs fs).mem = true := by
  refine foldl_wf (fun _ _ ha => by exact ha) _ (trapGroups_wf ?_ _ _ _)
  refine foldl_wf (fun a x ha => foldl_wf (fun _ _ hd => replayAt_wf hd _ _ _ _ _ _) _ ha) fs ?_
  refine foldl_wf (fun a x ha => doActs_wf ha _ _ _ _ _ _ _) fs ?_
  refine foldl_wf (fun _ _ ha => by exact ha) fs ?_
  exact foldl_wf (fun a x ha => doActs_wf ha _ _ _ _ _ _ _) fs h

@[simp] theorem commit_wf (k bid : Nat) (b : Bundle) (rs : List Res) (wide : Bool) : Memory.wf (commit s k bid b rs wide).mem = true := by
  simp only [commit]
  split
  · split <;> simp [h]
  · split <;> simp [h]

@[simp] theorem foundPacket_wf (k lseq va : Nat) (p : Pkt) : Memory.wf (foundPacket s k lseq va p).2.mem = true := by
  simp only [foundPacket]
  repeat' split
  all_goals simp [h]

@[simp] theorem fetch_wf (k bid : Nat) (b : Bundle) : Memory.wf (fetch s k bid b).mem = true := by
  simp only [fetch]
  split
  · exact h
  · split
    · split
      · simp [h]
      · split <;> simp [h]
      · simp [h]
    · simp [h]
    · simp [h]

@[simp] theorem completePacket_wf (k bid : Nat) (b : Bundle) : Memory.wf (completePacket s k bid b).mem = true := by
  have left : ∀ {a : State}, Memory.wf a.mem = true →
      Memory.wf (b.parts.foldl (fun a p => (members p.mask).foldl (leaveThread k p.slot b.sub b.pc b.stepPos) a) a).mem = true :=
    fun ha => foldl_wf (fun _ _ hb => foldl_wf (fun _ _ hc => leaveThread_wf hc _ _ _ _ _ _) _ hb) b.parts ha
  unfold completePacket
  simp [left, h]

@[simp] theorem advance_wf (k bid n : Nat) : Memory.wf (advance s k bid n).mem = true := by
  unfold advance
  split <;> simp [h]

@[simp] theorem issue_wf (sh : Shape) (plan : View → Plan) : Memory.wf (issue sh plan s).mem = true := by
  simp only [issue]
  split
  · exact h
  · split
    · exact h
    · split
      · simp [leaveTrapping, h]
      · simp [h]
end

end Sys2Proof.Machine
end

section
/-! The canonical form of memory is kept by the placing of teams and by the engines. -/

namespace Sys2Proof.Machine

theorem foldl_memWrite_wf {α : Type} (at' n v : α → Nat) (l : List α) {m : List Host.Cell} (hm : Memory.wf m = true) :
    Memory.wf (l.foldl (fun m x => memWrite m (at' x) (n x) (v x)) m) = true := by
  induction l generalizing m with
  | nil => exact hm
  | cons x r ih => exact ih (memWrite_wf hm _ _ _)

section
variable {s : State} (h : Memory.wf s.mem = true)
include h

/-! The save area of a launch, and accesses on their way to their homes. -/

@[simp] theorem saveGroup_wf (t : Team) (g : Group) : Memory.wf (saveGroup s t g).mem = true :=
  foldl_memWrite_wf _ _ _ _ (foldl_memWrite_wf _ _ _ _ h)

@[simp] theorem saveContext_wf (g : Group) : Memory.wf (saveContext s g).mem = true := by unfold saveContext; split <;> simp [h]

@[simp] theorem saveContexts_wf (gs : Tab Group) : Memory.wf (saveContexts s gs).mem = true := foldl_wf (fun _ _ ha => saveContext_wf ha _) gs h

@[simp] theorem resave_wf (k u : Nat) : Memory.wf (resave s k u).mem = true := by unfold resave; split <;> simp [h]

@[simp] theorem saveTile_wf (t : Team) (j num : Nat) (x : Tile) : Memory.wf (saveTile s t j num x).mem = true := by
  unfold saveTile
  dsimp only
  refine memWrite_wf (memWrite_wf (memWrite_wf ?_ _ _ _) _ _ _) _ _ _
  exact foldl_memWrite_wf _ _ _ _ h

@[simp] theorem saveTiles_wf (x : Ctx) (team : Nat) : Memory.wf (saveTiles s x team).mem = true := by
  unfold saveTiles
  split
  · exact h
  · refine foldl_wf (fun a y ha => ?_) _ h
    split <;> simp [ha]

@[simp] theorem loadTsm_wf (u : Nat) : Memory.wf (loadTsm s u).mem = true := by unfold loadTsm; split <;> simp [h, memWrite_wf h]

@[simp] theorem saveTsm_wf (u : Nat) : Memory.wf (saveTsm s u).mem = true := by unfold saveTsm; split <;> simp [h, memWrite_wf h]

theorem toHome_wf (k own : Nat) (ps : List Piece) {go : State} (hgo : Memory.wf go.mem = true) : Memory.wf (toHome s k own ps go).mem = true := by
  unfold toHome
  split
  · simp [h, hgo]
  · exact h
  · split <;> simp [h]

/-! The choices of selectors, and the placing of teams. -/

@[simp] theorem refillRun_wf (k sel : Nat) : Memory.wf (refillRun s k sel).mem = true := by
  unfold refillRun
  split
  · exact h
  · refine foldl_wf (fun a p ha => ?_) _ h
    split <;> simp [ha]

@[simp] theorem choose_wf (k sel : Nat) : Memory.wf (choose s k sel).mem = true := by
  simp only [choose]
  split
  · exact h
  · split
    · exact h
    · split <;> simp [h]

theorem placeTeam_wf {start : Bool} {lseq : Nat} {hd : Hdr} {x : Seat} {t : State} (e : placeTeam start lseq hd s x = some t) : Memory.wf t.mem = true := by
  simp only [placeTeam] at e
  split at e
  · cases e
  · split at e
    · cases e
    · cases e
      exact saveContexts_wf (by exact h) _

theorem placeAll_wf {start : Bool} {lseq : Nat} {hd : Hdr} {xs : List Seat} {t : State} (e : placeAll start lseq hd s xs = some t) : Memory.wf t.mem = true := by
  induction xs generalizing s with
  | nil => cases e; exact h
  | cons x r ih =>
    unfold placeAll at e
    split at e
    · cases e
    · next placed => exact ih (placeTeam_wf h placed) e

theorem admitCluster_wf {start : Bool} {lseq idx : Nat} {cores : List Nat} {t : State} (e : admitCluster start s lseq idx cores = some t) :
    Memory.wf t.mem = true := by
  obtain ⟨a, placed, rfl⟩ := Option.map_eq_some_iff.mp e
  simp [placeAll_wf h placed]

theorem admitPair_wf {start : Bool} {lseq idx k m : Nat} {t : State} (e : admitPair start s lseq idx k m = some t) : Memory.wf t.mem = true := by
  obtain ⟨a, placed, rfl⟩ := Option.map_eq_some_iff.mp e
  simp [placeAll_wf h placed]

theorem admitGrid_wf {start : Bool} {lseq n idx turn : Nat} {x : State × List Nat} (e : admitGrid start lseq n idx turn s = some x) :
    Memory.wf x.1.mem = true := by
  induction n generalizing s idx turn x with
  | zero => cases e; exact h
  | succ n ih =>
    unfold admitGrid at e
    dsimp only at e
    split at e
    · cases e
    · split at e
      · cases e
      · next admitted =>
        obtain ⟨y, rest, rfl⟩ := Option.map_eq_some_iff.mp e
        exact ih (x := y) (admitCluster_wf h admitted) rest

theorem admitOne_wf {start : Bool} {n : Nat} {w : Waiting} {t : State} (e : admitOne start s n w = some t) : Memory.wf t.mem = true := by
  simp only [admitOne] at e
  split at e
  · obtain ⟨x, planned, kept⟩ := Option.bind_eq_some_iff.mp e
    split at kept
    · cases kept; exact admitGrid_wf h planned
    · cases kept
  · split at e
    · cases e
    · split at e
      · split at e
        · cases e
        · split at e
          · cases e
          · obtain ⟨a, placed, rfl⟩ := Option.map_eq_some_iff.mp e
            exact admitCluster_wf (t := a) h placed
      · split at e
        · cases e
        · split at e
          · cases e
          · split at e
            · split at e
              · cases e
              · obtain ⟨a, placed, rfl⟩ := Option.map_eq_some_iff.mp e
                exact admitPair_wf (t := a) h placed
            · obtain ⟨a, placed, rfl⟩ := Option.map_eq_some_iff.mp e
              exact admitCluster_wf (t := a) h placed

@[simp] theorem admitList_wf (start : Bool) (t : Nat) (ws : List Waiting) : Memory.wf (admitList start t ws s).mem = true := by
  induction ws generalizing s with
  | nil => exact h
  | cons w r ih =>
    simp only [admitList]
    split
    · next admitted => exact ih (admitOne_wf h admitted)
    · have asked : Memory.wf ((askCompaction s (hdrOf s w.lseq) (compactFor start s t w)).getD s).mem = true := by
        cases e : askCompaction s (hdrOf s w.lseq) (compactFor start s t w) with
        | none => exact h
        | some a => simp [askCompaction_mem e, h]
      split
      · exact asked
      · exact ih asked

@[simp] theorem decideTc_wf (start : Bool) (t : Nat) : Memory.wf (decideTc start s t).mem = true := by simp [decideTc, h]

@[simp] theorem endWalk_wf (k victim : Nat) (w : Walk) : Memory.wf (endWalk s k victim w).mem = true := by
  simp only [endWalk]
  split
  · simp [h]
  · split <;> simp [h]

@[simp] theorem finishUpdate_wf (k : Nat) : Memory.wf (finishUpdate s k).mem = true := by
  simp only [finishUpdate]
  split
  · exact h
  · split
    · exact endOwner_wf (by simp [h]) _ _
    · simp [h]

/-! Copy requests. -/

@[simp] theorem engineG_wf (root access n va len : Nat) : Memory.wf (engineG root access n s va len).1.mem = true := by
  unfold engineG
  split <;> next e => exact wf_of_eq e (reachVa_wf h _ _ _ _ _)

@[simp] theorem engineReach_wf (k : Nat) (hd : Hdr) (team access sp a n : Nat) : Memory.wf (engineReach s k hd team access sp a n).1.mem = true := by
  unfold engineReach
  split
  · split <;> simp [h]
  · exact h
  · exact h
  · exact h

@[simp] theorem burstDst_wf (k : Nat) (hd : Hdr) (x : Copy) (first n : Nat) : Memory.wf (burstDst s k hd x first n).1.mem = true := by
  simp only [burstDst]
  split <;> simp [h]

@[simp] theorem sourceBytes_wf (k : Nat) (hd : Hdr) (x : Copy) (n i : Nat) : Memory.wf (sourceBytes k hd x n s i).1.mem = true := by
  induction n generalizing s i with
  | zero => exact h
  | succ n ih =>
    have whole : Memory.wf (if recIndexed x.bytes then engineReach s k hd x.team 4 (recSrcSp x.bytes)
        (copySrc s x (i % recLen x.bytes / recUnit x.bytes * recUnit x.bytes)) (recUnit x.bytes) else (s, .found [])).1.mem = true := by
      split <;> simp [h]
    simp only [sourceBytes]
    split <;> next e => simp [ih, wf_of_eq e (engineReach_wf whole _ _ _ _ _ _ _)]

@[simp] theorem holdCopy_wf (k : Nat) (x : Copy) (lseq va kind access level : Nat) : Memory.wf (holdCopy s k x lseq va kind access level).mem = true := by
  simp [holdCopy, h]

@[simp] theorem missBytes_wf (x : Copy) (u n : Nat) : Memory.wf (missBytes s x u n).mem = true := by unfold missBytes; split <;> simp [h]

@[simp] theorem missBurst_wf (k : Nat) (x : Copy) (first n : Nat) : Memory.wf (missBurst s k x first n).mem = true := by
  simp only [missBurst]
  split <;> simp [h]

theorem landed_pieceWrite_wf (own lseq : Nat) (p : Piece) (v : Nat) :
    Memory.wf (landed (bringLines (pieceWrite (snapPages s lseq [p]) p v) true [p]) own [p]).mem = true := by simp [h, pieceWrite_wf]

@[simp] theorem accumulate_wf (own lseq unit : Nat) (p : Piece) (n i : Nat) (data : List (Option Nat)) :
    Memory.wf (accumulate own lseq unit p n i s data).mem = true := by
  induction n generalizing s i data with
  | zero => exact h
  | succ n ih =>
    refine ih ?_ _ _
    split
    · exact landed_pieceWrite_wf h own lseq _ _
    · exact h

@[simp] theorem burstWrite_wf (own lseq : Nat) (p : Piece) (data : List (Option Nat)) : Memory.wf (burstWrite s own lseq p data).mem = true := by
  refine landed_wf ?_ _ _
  rw [bringLines_mem]
  split
  · simp [h, pieceWrite_wf]
  · split
    · split <;> simp [h, pieceWrite_wf]
    · refine foldl_wf (fun a x ha => ?_) _ (by simp [h])
      split
      · exact pieceWrite_wf ha _ _
      · exact ha

@[simp] theorem land_wf (x : Copy) (lseq : Nat) (p : Piece) (data : List (Option Nat)) : Memory.wf (land s x lseq p data).mem = true := by
  simp only [land]
  repeat' split
  all_goals simp [h]

@[simp] theorem burst_wf (k : Nat) (x : Copy) (first n : Nat) : Memory.wf (burst s k x first n).mem = true := by
  simp only [burst]
  split
  · simp [h]
  · split <;> simp [h]
  · simp [h]
  · next dst =>
    have h1 := wf_of_eq dst (burstDst_wf h _ _ _ _ _)
    split
    · simp [h]
    · next src =>
      have h2 := wf_of_eq src (sourceBytes_wf h1 _ _ _ _ _)
      split
      · simp [h]
      · exact h
      · split
        · exact h
        · split <;> simp [h2]
      · exact h

@[simp] theorem retire_wf (k : Nat) (x : Copy) (status : Nat) : Memory.wf (retire s k x status).mem = true := by
  have noted (p : Piece) : Memory.wf (landed { s with mem := memWrite s.mem (tsmLoc x.team (x.off + 31)) 1 status } x.own [p]).mem = true :=
    landed_wf (memWrite_wf h _ _ _) _ _
  simp only [retire]
  split
  · split <;> simp [noted]
  · simp [noted]
end

end Sys2Proof.Machine
end

section
/-! The canonical form of memory is kept by launches, by the commands of the host and by the time that passes. -/

namespace Sys2Proof.Machine

section
variable {s : State} (h : Memory.wf s.mem = true)
include h

/-! Queues and launches. -/

@[simp] theorem startLaunch_wf (lseq : Nat) (hd : Hdr) : Memory.wf (startLaunch s lseq hd).mem = true := by
  simp only [startLaunch]
  split <;> simp [h]

@[simp] theorem readHeader_wf (lseq : Nat) : Memory.wf (readHeader s lseq).mem = true := by
  simp only [readHeader]
  split
  · exact h
  · split
    · next header => simp [wf_of_eq header (engineG_wf h _ _ _ _ _)]
    · simp [h]
    · exact h

theorem takeAgain_wf {n : Nat} {t : State} (e : takeAgain s n = some t) : Memory.wf t.mem = true := by
  unfold takeAgain at e
  split at e
  · cases e
  · split at e
    · split at e
      · cases e; exact readHeader_wf h _
      · cases e
    · cases e

@[simp] theorem takeQueue_wf (n : Nat) (q : Queue) (e : Nat) : Memory.wf (takeQueue s n q e).mem = true := by
  have taken (loc v loc' n' v' : Nat) : Memory.wf (ringWrite (ringWrite s q loc 1 v) q loc' n' v').mem = true := by simp [h]
  simp only [takeQueue]
  split <;> simp [taken]

@[simp] theorem endLaunch_wf (lseq : Nat) : Memory.wf (endLaunch s lseq).mem = true := by unfold endLaunch; split <;> simp [h]

@[simp] theorem foldl_endLaunch_wf (ls : List Nat) : Memory.wf (ls.foldl endLaunch s).mem = true := foldl_wf (fun _ _ ha => endLaunch_wf ha _) ls h

@[simp] theorem foldl_rollback_wf (ls : List Nat) : Memory.wf (ls.foldl rollback s).mem = true := foldl_wf (fun _ _ ha => rollback_wf ha _) ls h

/-! What has waited is made again, and the answers of faults. -/

@[simp] theorem retryHeld_wf : Memory.wf (retryHeld s).mem = true := by
  refine settleLaunches_wf (foldl_wf (fun a x ha => ?_) _ h)
  split <;> simp [ha]

@[simp] theorem answerBitmap_wf (lseq idx : Nat) (fatal : Bool) : Memory.wf (answerBitmap s lseq idx fatal).mem = true := by
  simp only [answerBitmap]
  split
  · simp [h]
  · split <;> simp [h]

@[simp] theorem retryWaiting_wf : Memory.wf (retryWaiting s).mem = true :=
  foldl_wf (fun _ _ ha => answerBitmap_wf ha _ _ _) _ (foldl_wf (fun _ _ ha => retrySpill_wf (by exact ha) _ _) _ (retryHeld_wf h))

@[simp] theorem failEntry_wf (k own start : Nat) : Memory.wf (failEntry s k own start).mem = true := by unfold failEntry; split <;> simp [h]

@[simp] theorem failCopy_wf (k : Nat) (x : Copy) : Memory.wf (failCopy s k x).mem = true := by
  simp only [failCopy]
  split
  · exact h
  · exact foldl_wf (fun _ _ ha => missBytes_wf ha _ _ _) _ h

@[simp] theorem failHeader_wf (l : Launch) : Memory.wf (failHeader s l).mem = true := by simp [failHeader, h]

@[simp] theorem answerFault_wf (f : FaultRec) (fatal : Bool) : Memory.wf (answerFault s f fatal).mem = true := by
  simp only [answerFault]
  repeat' split
  all_goals simp [h]

@[simp] theorem fireWatchdog_wf (k slot : Nat) (g : Group) : Memory.wf (fireWatchdog s k slot g).mem = true := by
  simp only [fireWatchdog]
  split
  case' isFalse => apply retryWaiting_wf
  all_goals
    refine foldl_wf (fun _ _ ha => trapApart_wf ha _ _ _) _ ?_
    rw [settleAt_mem]
    exact foldl_wf (fun _ _ ha => trapThreads_wf ha _ _ _ _ _ _) _ h

/-! Links, channels, commands and starts. -/

@[simp] theorem sendLink_wf (link old new : Nat) : Memory.wf (sendLink s link old new).mem = true := sendEvent_wf h _ _ _

@[simp] theorem setLink_wf (link : Nat) (x : LinkState) : Memory.wf (setLink s link x).mem = true := sendLink_wf (by exact h) _ _ _

@[simp] theorem answer_wf (q : Cmd) (x : Answer) : Memory.wf (answer s q x).mem = true := by
  cases x with
  | silent => exact h
  | ack | regval | memdata | err => exact sendOn_wf h _ _ _ _

@[simp] theorem settleCmds_wf (n ch : Nat) : Memory.wf (settleCmds n ch s).mem = true := by
  induction n generalizing s with
  | zero => exact h
  | succ n ih =>
    simp only [settleCmds]
    split
    · exact h
    · repeat' split
      all_goals simp [h, ih]

theorem runCmd_wf (op : Nat) (q : Cmd) {f : State → State × Answer} (hf : ∀ a, Memory.wf a.mem = true → Memory.wf (f a).1.mem = true) :
    Memory.wf (runCmd op q f s).mem = true := by
  simp only [runCmd]
  split
  · exact h
  · split
    · exact h
    · refine settleCmds_wf (answer_wf ?_ _ _) _ _
      split
      · exact h
      · split
        · exact h
        · split
          · exact h
          · exact hf _ h

@[simp] theorem collDone_wf (c : Coll) (status : Nat) : Memory.wf (collDone s c status).mem = true := sendOn_wf (by exact h) _ _ _ _

@[simp] theorem putPieces_wf (ps : List Piece) (v : Nat) : Memory.wf (putPieces s ps v).mem = true := by simp [putPieces, piecesWrite_wf h]

@[simp] theorem announce_wf : Memory.wf (announce s).mem = true := foldl_wf (fun _ _ ha => sendOn_wf ha _ _ _ _) _ h

@[simp] theorem restart_wf (x : StartInfo) : Memory.wf (restart s x).mem = true := by
  simp only [restart]
  split <;> simp [h]

@[simp] theorem ringEntries_wf (c : Channel) (seq : Nat) (es : List CmdEntry) : Memory.wf (ringEntries s c seq es).mem = true := by
  induction es generalizing s seq with
  | nil => exact h
  | cons e r ih =>
    unfold ringEntries
    exact ih (memWrite_wf h _ _ _) _

@[simp] theorem addCmds_wf (ch : Nat) (es : List CmdEntry) : Memory.wf (addCmds s ch es).mem = true := settleCmds_wf (by exact h) _ _

@[simp] theorem drainEvents_wf (n ch : Nat) : Memory.wf (drainEvents n s ch).mem = true := by
  induction n generalizing s with
  | zero => exact h
  | succ n ih =>
    simp only [drainEvents]
    split
    · exact h
    · split
      · exact ih (writeEvent_wf (by exact h) _ _ _ _)
      · exact h

@[simp] theorem acknowledge_wf (ch value : Nat) : Memory.wf (acknowledge s ch value).mem = true := drainEvents_wf (by exact h) _ _

/-! Time that passes. -/

@[simp] theorem writeStatus_wf (t off n v : Nat) : Memory.wf (writeStatus s t off n v).mem = true := by simp [writeStatus, h]

@[simp] theorem writeOut_wf (t n : Nat) : Memory.wf (writeOut t n s).mem = true := by
  induction n generalizing s with
  | zero => exact h
  | succ n ih =>
    unfold writeOut
    split
    · exact h
    · split
      · exact h
      · exact ih (writeStatus_wf (by exact h) _ _ _ _)

@[simp] theorem writeUnits_wf : Memory.wf (writeUnits s).mem = true := by
  refine foldl_wf (fun a x ha => ?_) _ h
  split <;> simp [ha]

@[simp] theorem catchUp_wf : Memory.wf (catchUp s).mem = true := foldl_wf (fun _ _ ha => settleCmds_wf ha _ _) _ (retryWaiting_wf h)

@[simp] theorem elapse_wf (ns tc cyc : Nat) (but : Option (Nat × Nat)) : Memory.wf (elapse s ns tc cyc but).mem = true := by
  refine catchUp_wf ?_
  simp [writeUnits_wf, h]

end

end Sys2Proof.Machine
end

section
/-! The canonical form of memory is kept by every event. -/

namespace Sys2Proof.Machine

/-! What an outcome leaves. -/

/-- Whether the state that an outcome goes on to, if it goes on, has canonical memory. -/
def Canonical : Host.Outcome State Fault Refusal → Prop
  | .next s => Memory.wf s.mem = true
  | _ => True

@[simp] theorem canonical_next (s : State) : Canonical (.next s) ↔ Memory.wf s.mem = true := Iff.rfl

/-- Whether what happens keeps the canonical form of memory. -/
def KeepsMemory (i : Happens) : Prop := ∀ s : State, Memory.wf s.mem = true → Canonical (i s)

theorem hostEntries_wf (q : Queue) (i : Nat) (es : List Nat) {m : List Host.Cell} (h : Memory.wf m = true) : Memory.wf (hostEntries q i es m) = true := by
  induction es generalizing m i with
  | nil => exact h
  | cons e r ih => exact ih _ (memWrite_wf h _ _ _)

/-! One lemma for each event. -/

@[simp] theorem execLoadDeadline_keeps (core lid : Nat) : KeepsMemory (execLoadDeadline core lid) := fun s h => by simp [execLoadDeadline, h]

@[simp] theorem execLoadDataArrival_keeps (core : Nat) (lid : ReqUnit) : KeepsMemory (execLoadDataArrival core lid) := fun s h => by
  unfold execLoadDataArrival
  split
  · exact h
  · split
    · exact h
    · split
      · split
        · exact toHome_wf h _ _ _ (by simp [h])
        · exact h
      · split
        · exact h
        · refine toHome_wf h _ _ _ ?_
          split
          · simp [h]
          · exact resave_wf (by simp [h]) _ _

@[simp] theorem execCertainty_keeps (core bid : Nat) : KeepsMemory (execCertainty core bid) := fun s h => by simp [execCertainty, h]

@[simp] theorem execWaitingStepIssue_keeps (core bid : Nat) : KeepsMemory (execWaitingStepIssue core bid) := fun s h => by simp [execWaitingStepIssue, h]

@[simp] theorem execSelectorChoice_keeps (core sel : Nat) : KeepsMemory (execSelectorChoice core sel) := fun s h => by simp [execSelectorChoice, h]

@[simp] theorem execBlockPriorityRead_keeps (core slot start : Nat) : KeepsMemory (execBlockPriorityRead core slot start) := fun s h => by
  simp only [execBlockPriorityRead]
  split
  · exact h
  · split
    · exact h
    · split
      · exact h
      · split
        · exact h
        · split
          · next walk =>
            have touched := touchEntry_wf (wf_of_eq walk (walked_wf h _ _ _))
            split <;> simp [touched]
          · next walk => simp [h, wf_of_eq walk (walked_wf h _ _ _)]

@[simp] theorem execEntryPromotion_keeps (core slot start : Nat) : KeepsMemory (execEntryPromotion core slot start) := fun s h => by
  unfold execEntryPromotion
  split <;> simp [h]

@[simp] theorem execGroupDemotion_keeps (core slot : Nat) : KeepsMemory (execGroupDemotion core slot) := fun s h => by simp [execGroupDemotion, h]

@[simp] theorem execLiveBitClear_keeps (core cluster rank : Nat) : KeepsMemory (execLiveBitClear core cluster rank) := fun s h => by
  simp only [execLiveBitClear]
  repeat' split
  all_goals simp [h]

@[simp] theorem execGroupSwapOut_keeps (core : Nat) : KeepsMemory (execGroupSwapOut core) := fun s h => by
  simp only [execGroupSwapOut]
  repeat' split
  all_goals simp [h]

@[simp] theorem execSwapOutComplete_keeps (core slot : Nat) : KeepsMemory (execSwapOutComplete core slot) := fun s h => by
  unfold execSwapOutComplete
  split <;> simp [h]

@[simp] theorem execGroupSwapIn_keeps (core slot : Nat) : KeepsMemory (execGroupSwapIn core slot) := fun s h => by
  simp only [execGroupSwapIn]
  repeat' split
  all_goals simp [h]

@[simp] theorem execCompaction_keeps (core : Nat) : KeepsMemory (execCompaction core) := fun s h => by simp [execCompaction, h]

@[simp] theorem execCompactionComplete_keeps (core : Nat) : KeepsMemory (execCompactionComplete core) := fun s h => by simp [execCompactionComplete, h]

@[simp] theorem execControlInterval_keeps (die : Nat) : KeepsMemory (execControlInterval die) := fun s h => by
  simp only [execControlInterval]
  split
  · exact h
  · refine foldl_wf (fun _ _ ha => decideTc_wf ha _ _) _ ?_
    simp [h]

@[simp] theorem execSchedulerDecision_keeps (tc : Nat) : KeepsMemory (execSchedulerDecision tc) := fun s h => by simp [execSchedulerDecision, h]

@[simp] theorem execArgumentRead_keeps (core slot i : Nat) : KeepsMemory (execArgumentRead core slot i) := fun s h => by
  simp only [execArgumentRead]
  split
  · exact h
  · split
    · exact h
    · split
      · exact h
      · split
        · exact h
        · split
          · next walk =>
            have touched := touchEntry_wf (wf_of_eq walk (walked_wf h _ _ _))
            split <;> simp [touched]
          · next walk => simp [h, wf_of_eq walk (walked_wf h _ _ _)]

@[simp] theorem execBarrierRelease_keeps (core bid : Nat) : KeepsMemory (execBarrierRelease core bid) := fun s h => by simp [execBarrierRelease, h]

@[simp] theorem execWritePerformed_keeps (core : Nat) (wid : ReqUnit) : KeepsMemory (execWritePerformed core wid) := fun s h => by
  unfold execWritePerformed
  split
  · exact h
  · split
    · exact h
    · split
      · split
        · exact toHome_wf h _ _ _ (doUnit_wf h _ _ _)
        · exact h
      · split
        · exact toHome_wf h _ _ _ (doWrite_wf h _ _)
        · exact h

@[simp] theorem execAtomicResult_keeps (core lid : Nat) : KeepsMemory (execAtomicResult core lid) := fun s h => by
  unfold execAtomicResult
  split
  · exact h
  · split
    · exact h
    · split
      · exact toHome_wf h _ _ _ (doAtomic_wf h _ _ _ _)
      · exact toHome_wf h _ _ _ (doToken_wf h _ _ _)
      · exact h

@[simp] theorem execFlushMarkerArrival_keeps (core rid die path : Nat) : KeepsMemory (execFlushMarkerArrival core rid die path) := fun s h => by
  unfold execFlushMarkerArrival
  split <;> simp [h]

@[simp] theorem execFlushReportArrival_keeps (core rid die : Nat) : KeepsMemory (execFlushReportArrival core rid die) := fun s h => by
  unfold execFlushReportArrival
  split <;> simp [h]

@[simp] theorem execTranslationWalk_keeps (core wid victim : Nat) : KeepsMemory (execTranslationWalk core wid victim) := fun s h => by
  unfold execTranslationWalk
  split <;> simp [h]

@[simp] theorem execDsplitWrite_keeps (die value : Nat) : KeepsMemory (execDsplitWrite die value) := fun s h => by simp [execDsplitWrite, h]

@[simp] theorem execDsplitApply_keeps (die : Nat) : KeepsMemory (execDsplitApply die) := fun s h => by
  simp only [execDsplitApply]
  split
  · exact h
  · split
    · exact h
    · exact zeroRange_wf h _ _

@[simp] theorem execDsplitBusyClear_keeps (die : Nat) : KeepsMemory (execDsplitBusyClear die) := fun s h => by
  unfold execDsplitBusyClear
  split <;> simp [h]

@[simp] theorem execStackLowPowerEntry_keeps (stack : Nat) : KeepsMemory (execStackLowPowerEntry stack) := fun s h => by simp [execStackLowPowerEntry, h]

@[simp] theorem execStackWake_keeps (stack : Nat) : KeepsMemory (execStackWake stack) := fun s h => by simp [execStackWake, h]

@[simp] theorem execMatrixWordTake_keeps (core sel : Nat) : KeepsMemory (execMatrixWordTake core sel) := fun s h => by simp [execMatrixWordTake, h]

@[simp] theorem execMatrixUpdateComplete_keeps (core : Nat) : KeepsMemory (execMatrixUpdateComplete core) := fun s h => by simp [execMatrixUpdateComplete, h]

@[simp] theorem execTileEviction_keeps (core : Nat) : KeepsMemory (execTileEviction core) := fun s h => by
  simp only [execTileEviction]
  repeat' split
  all_goals simp [h]

@[simp] theorem execTileReturn_keeps (core team : Nat) : KeepsMemory (execTileReturn core team) := fun s h => by
  unfold execTileReturn
  split <;> simp [h]

@[simp] theorem execRailLoopWindow_keeps (core : Nat) : KeepsMemory (execRailLoopWindow core) := fun s h => by
  unfold execRailLoopWindow
  dsimp only
  split <;> exact h

@[simp] theorem execCopyStart_keeps (core cid : Nat) : KeepsMemory (execCopyStart core cid) := fun s h => by
  simp only [execCopyStart]
  split <;> simp [h]

@[simp] theorem execCopyBurst_keeps (core cid first count : Nat) : KeepsMemory (execCopyBurst core cid first count) := fun s h => by
  unfold execCopyBurst
  split <;> simp [h]

@[simp] theorem execCopyRetire_keeps (core cid : Nat) : KeepsMemory (execCopyRetire core cid) := fun s h => by
  simp only [execCopyRetire]
  repeat' split
  all_goals simp [h]

@[simp] theorem execTqpushTimeout_keeps (core bid : Nat) : KeepsMemory (execTqpushTimeout core bid) := fun s h => by simp [execTqpushTimeout, h]

@[simp] theorem execCbwaitPoll_keeps (core bid : Nat) : KeepsMemory (execCbwaitPoll core bid) := fun s h => by simp [execCbwaitPoll, h]

@[simp] theorem execSleepExpiry_keeps (core bid : Nat) : KeepsMemory (execSleepExpiry core bid) := fun s h => by simp [execSleepExpiry, h]

@[simp] theorem execQueueEntryTake_keeps (queue : Nat) : KeepsMemory (execQueueEntryTake queue) := fun s h => by
  unfold execQueueEntryTake
  split
  · exact h
  · split
    · next again => exact takeAgain_wf h again
    · split <;> simp [h]

@[simp] theorem execHostQueueDoorbell_keeps (queue value : Nat) (entries : List Nat) :
    KeepsMemory (execHostQueueDoorbell queue value entries) := fun s h => by
  have rung (q : Queue) (v : Nat) : Memory.wf (if q.host then memWrite (hostEntries q q.tail (entries.take q.cap) s.mem) q.loc 4 v else s.mem) = true := by
    simp [h, memWrite_wf, hostEntries_wf]
  simp only [execHostQueueDoorbell]
  split
  · exact h
  · split
    · exact h
    · split <;> exact rung _ _

@[simp] theorem execStealRequest_keeps (tc victim : Nat) : KeepsMemory (execStealRequest tc victim) := fun s h => by simp [execStealRequest, h]

@[simp] theorem execStealRetry_keeps (tc : Nat) : KeepsMemory (execStealRetry tc) := fun s h => by
  unfold execStealRetry
  split <;> simp [h]

@[simp] theorem execDroopAlarm_keeps (tc : Nat) : KeepsMemory (execDroopAlarm tc) := fun s h => by simp [execDroopAlarm, h]

@[simp] theorem execStretchEnd_keeps (tc : Nat) : KeepsMemory (execStretchEnd tc) := fun s h => by simp [execStretchEnd, h]

@[simp] theorem execHalvedIssueEnd_keeps (tc : Nat) : KeepsMemory (execHalvedIssueEnd tc) := fun s h => by simp [execHalvedIssueEnd, h]

@[simp] theorem execThermalTrip_keeps (die temp : Nat) : KeepsMemory (execThermalTrip die temp) := fun s h => by
  simp only [execThermalTrip]
  split
  · exact h
  · split
    · exact h
    · exact sendEvent_wf (foldl_endLaunch_wf (by simp [h]) _) _ _ _

@[simp] theorem execCollectiveCapRequest_keeps (member cap : Nat) : KeepsMemory (execCollectiveCapRequest member cap) := fun s h => by
  simp [execCollectiveCapRequest, h]

@[simp] theorem execThrottleMemberSilence_keeps (member : Nat) : KeepsMemory (execThrottleMemberSilence member) := fun s h => by
  simp [execThrottleMemberSilence, h]

@[simp] theorem execRampFill_keeps (die : Nat) (on : Bool) : KeepsMemory (execRampFill die on) := fun s h => by
  unfold execRampFill
  split
  · exact h
  · exact foldl_wf (fun _ _ ha => by exact ha) _ h

@[simp] theorem execActivationWindowAdjust_keeps (stack awin : Nat) : KeepsMemory (execActivationWindowAdjust stack awin) := fun s h => by
  simp [execActivationWindowAdjust, h]

@[simp] theorem execRefreshDerate_keeps (stack temp : Nat) : KeepsMemory (execRefreshDerate stack temp) := fun s h => by simp [execRefreshDerate, h]

@[simp] theorem execRegisterWrite_keeps (die number value : Nat) : KeepsMemory (execRegisterWrite die number value) := fun s h => by
  simp [execRegisterWrite, h]

@[simp] theorem execPreqGo_keeps (die value : Nat) : KeepsMemory (execPreqGo die value) := fun s h => by simp [execPreqGo, h]

@[simp] theorem execExchangeFillComplete_keeps (core : Nat) : KeepsMemory (execExchangeFillComplete core) := fun s h => by
  simp only [execExchangeFillComplete]
  split
  · exact h
  · exact foldl_wf (fun _ _ ha => loadTsm_wf ha _) _ h

@[simp] theorem execExchangeSwap_keeps (core : Nat) : KeepsMemory (execExchangeSwap core) := fun s h => by
  simp only [execExchangeSwap]
  split
  · exact h
  · exact foldl_wf (fun _ _ ha => endGroup_wf ha _ _) _ (by exact h)

@[simp] theorem execExchangeSpillComplete_keeps (core : Nat) : KeepsMemory (execExchangeSpillComplete core) := fun s h => by
  simp only [execExchangeSpillComplete]
  split
  · exact h
  · exact foldl_wf (fun _ _ ha => saveTsm_wf (saveTiles_wf ha _ _) _) _ (saveContexts_wf h _)

@[simp] theorem execTrapEntry_keeps (core tid : Nat) : KeepsMemory (execTrapEntry core tid) := fun s h => by
  unfold execTrapEntry
  split <;> simp [h]

@[simp] theorem execWatchdog_keeps (core slot : Nat) : KeepsMemory (execWatchdog core slot) := fun s h => by
  unfold execWatchdog
  split <;> simp [h]

@[simp] theorem execMirrorCompare_keeps (core slot thread : Nat) : KeepsMemory (execMirrorCompare core slot thread) := fun s h => by
  simp only [execMirrorCompare]
  repeat' split
  all_goals simp [h]

@[simp] theorem execMirrorWindowTimeout_keeps (core slot thread : Nat) : KeepsMemory (execMirrorWindowTimeout core slot thread) := fun s h => by
  simp only [execMirrorWindowTimeout]
  repeat' split
  all_goals simp [h]

@[simp] theorem execUncorrectableError_keeps (lseq : Nat) : KeepsMemory (execUncorrectableError lseq) := fun s h => by simp [execUncorrectableError, h]

@[simp] theorem execBridgeStop_keeps (bridge : Nat) : KeepsMemory (execBridgeStop bridge) := fun s h => by simp [execBridgeStop, h]

@[simp] theorem execLinkNarrow_keeps (link : Nat) : KeepsMemory (execLinkNarrow link) := fun s h => by
  simp only [execLinkNarrow]
  repeat' split
  all_goals simp [h]

@[simp] theorem execLinkWiden_keeps (link : Nat) : KeepsMemory (execLinkWiden link) := fun s h => by
  simp only [execLinkWiden]
  repeat' split
  all_goals simp [h]

@[simp] theorem execLinkRecovery_keeps (link : Nat) : KeepsMemory (execLinkRecovery link) := fun s h => by simp [execLinkRecovery, h]

@[simp] theorem execLinkDown_keeps (link : Nat) : KeepsMemory (execLinkDown link) := fun s h => by simp [execLinkDown, h]

@[simp] theorem execLinkRecovered_keeps (link lanes : Nat) : KeepsMemory (execLinkRecovered link lanes) := fun s h => by
  simp only [execLinkRecovered]
  repeat' split
  all_goals simp [h]

@[simp] theorem execPeerRecoveringReport_keeps (rank : Nat) : KeepsMemory (execPeerRecoveringReport rank) := fun s h => by simp [execPeerRecoveringReport, h]

@[simp] theorem execPeerRequest_keeps (a : PeerAcc) : KeepsMemory (execPeerRequest a) := fun s h => by
  simp only [execPeerRequest]
  split
  · exact h
  · split
    · exact h
    · repeat' split
      all_goals simp [h, pieceWrite_wf]

@[simp] theorem execRouterGate_keeps (die router : Nat) : KeepsMemory (execRouterGate die router) := fun s h => by simp [execRouterGate, h]

@[simp] theorem execRouterWakeSignal_keeps (die router : Nat) : KeepsMemory (execRouterWakeSignal die router) := fun s h => by simp [execRouterWakeSignal, h]

@[simp] theorem execRouterAwake_keeps (die router : Nat) : KeepsMemory (execRouterAwake die router) := fun s h => by
  unfold execRouterAwake
  split <;> simp [h]

@[simp] theorem execEscapeDiversion_keeps (pid : Nat) : KeepsMemory (execEscapeDiversion pid) := fun s h => by
  unfold execEscapeDiversion
  split <;> simp [h]

@[simp] theorem execPacketRoute_keeps (pid choice : Nat) : KeepsMemory (execPacketRoute pid choice) := fun s h => by
  unfold execPacketRoute
  split <;> simp [h]

@[simp] theorem execCmdNop_keeps (q : Cmd) : KeepsMemory (execCmdNop q) := fun _ h => runCmd_wf h _ _ (fun _ hs => hs)

@[simp] theorem execRegwr_keeps (q : Cmd) : KeepsMemory (execRegwr q) := fun _ h => runCmd_wf h _ _ (fun s hs => by split <;> simp [hs])

@[simp] theorem execRegrd_keeps (q : Cmd) : KeepsMemory (execRegrd q) := fun _ h => runCmd_wf h _ _ (fun _ hs => hs)

@[simp] theorem execMemwr_keeps (q : Cmd) : KeepsMemory (execMemwr q) := fun _ h => runCmd_wf h _ _ fun s hs => by
  dsimp only
  split
  · exact hs
  · split
    · exact hs
    · simp [hs, pieceWrite_wf]

@[simp] theorem execMemrd_keeps (q : Cmd) : KeepsMemory (execMemrd q) := fun _ h => runCmd_wf h _ _ fun s hs => by
  dsimp only
  split
  · exact hs
  · split <;> simp [hs]

@[simp] theorem execQcfg_keeps (q : Cmd) : KeepsMemory (execQcfg q) := fun _ h => runCmd_wf h _ _ (fun s hs => by simp [hs])

@[simp] theorem execKeyld_keeps (q : Cmd) : KeepsMemory (execKeyld q) := fun _ h => runCmd_wf h _ _ fun s hs => by
  split
  · exact hs
  · split <;> simp [hs]

@[simp] theorem execKeyclr_keeps (q : Cmd) : KeepsMemory (execKeyclr q) := fun _ h => runCmd_wf h _ _ (fun s hs => by split <;> exact hs)

@[simp] theorem execTinv_keeps (q : Cmd) : KeepsMemory (execTinv q) := fun _ h => runCmd_wf h _ _ (fun s hs => by dsimp only; split <;> exact hs)

@[simp] theorem execFeat_keeps (q : Cmd) : KeepsMemory (execFeat q) := fun _ h => runCmd_wf h _ _ (fun s hs => by split <;> exact hs)

@[simp] theorem execPeercfg_keeps (q : Cmd) : KeepsMemory (execPeercfg q) := fun _ h => runCmd_wf h _ _ fun s hs => by
  dsimp only
  split
  · exact hs
  · split <;> simp [hs]

@[simp] theorem execColl_keeps (q : Cmd) : KeepsMemory (execColl q) := fun _ h => runCmd_wf h _ _ (fun s hs => by simp [hs])

@[simp] theorem execCollectiveComplete_keeps (tag : Nat) (inputs : List (List Nat)) (agree : Bool) :
    KeepsMemory (execCollectiveComplete tag inputs agree) := fun s h => by
  simp only [execCollectiveComplete]
  split
  · split
    · exact h
    · split
      · simp [h]
      · split
        · next dst =>
          have h1 := wf_of_eq dst (engineG_wf h _ _ _ _ _)
          split
          · simp [h1]
          · split
            · next src => simp [wf_of_eq src (engineG_wf h1 _ _ _ _ _)]
            · simp [h1]
        · simp [h]
  · exact h

@[simp] theorem execFans_keeps (q : Cmd) : KeepsMemory (execFans q) := fun _ h => runCmd_wf h _ _ fun s hs => by
  split
  · exact hs
  · split <;> simp [hs]

@[simp] theorem execEndl_keeps (q : Cmd) : KeepsMemory (execEndl q) := fun _ h => runCmd_wf h _ _ (fun s hs => by split <;> simp [hs])

@[simp] theorem execReset_keeps (q : Cmd) (start : StartInfo) : KeepsMemory (execReset q start) := fun _ h => runCmd_wf h _ _ (fun _ hs => restart_wf hs _)

@[simp] theorem execCtailDoorbell_keeps (value : Nat) (entries : List CmdEntry) : KeepsMemory (execCtailDoorbell value entries) := fun s h => by
  simp [execCtailDoorbell, h]

@[simp] theorem execEackWrite_keeps (ch value : Nat) : KeepsMemory (execEackWrite ch value) := fun s h => by simp [execEackWrite, h]

@[simp] theorem execChannelRingConfigWrite_keeps (offset value : Nat) : KeepsMemory (execChannelRingConfigWrite offset value) := fun s h => by
  simp only [execChannelRingConfigWrite]
  repeat' split
  all_goals simp [h]

@[simp] theorem execBar2Access_keeps (write : Bool) (offset width data : Nat) : KeepsMemory (execBar2Access write offset width data) := fun s h => by
  unfold execBar2Access
  split
  · exact h
  · split
    · exact h
    · simp [h, pieceWrite_wf]

@[simp] theorem execMsixInterrupt_keeps : KeepsMemory execMsixInterrupt := fun s h => by simp [execMsixInterrupt, h]

@[simp] theorem execChannelDatagram_keeps (g : Datagram) : KeepsMemory (execChannelDatagram g) := fun s h => by simp [execChannelDatagram, h]

@[simp] theorem execEntryResend_keeps (ch seq : Nat) : KeepsMemory (execEntryResend ch seq) := fun s h => by
  simp only [execEntryResend]
  split <;> simp [h]

@[simp] theorem execDeviceStart_keeps (start : StartInfo) : KeepsMemory (execDeviceStart start) := fun s h => by simp [execDeviceStart, h]

@[simp] theorem execTokenBucketRefill_keeps (tc : Nat) : KeepsMemory (execTokenBucketRefill tc) := fun s h => by simp [execTokenBucketRefill, h]

end Sys2Proof.Machine
end

section
/-! The canonical form of memory is kept by every instruction, every choice of the model's own order and so by every step. -/

namespace Sys2Proof.Machine

/-! Every instruction: a word goes through the issue of its step, an event through its own meaning. -/

theorem exec_keeps (i : Instr) : KeepsMemory (exec i) := by
  cases i with
  | loadDeadline core lid => exact execLoadDeadline_keeps core lid
  | loadDataArrival core lid => exact execLoadDataArrival_keeps core lid
  | certainty core bid => exact execCertainty_keeps core bid
  | waitingStepIssue core bid => exact execWaitingStepIssue_keeps core bid
  | selectorChoice core sel => exact execSelectorChoice_keeps core sel
  | blockPriorityRead core slot start => exact execBlockPriorityRead_keeps core slot start
  | entryPromotion core slot start => exact execEntryPromotion_keeps core slot start
  | groupDemotion core slot => exact execGroupDemotion_keeps core slot
  | liveBitClear core cluster rank => exact execLiveBitClear_keeps core cluster rank
  | groupSwapOut core => exact execGroupSwapOut_keeps core
  | swapOutComplete core slot => exact execSwapOutComplete_keeps core slot
  | groupSwapIn core slot => exact execGroupSwapIn_keeps core slot
  | compaction core => exact execCompaction_keeps core
  | compactionComplete core => exact execCompactionComplete_keeps core
  | controlInterval die => exact execControlInterval_keeps die
  | schedulerDecision tc => exact execSchedulerDecision_keeps tc
  | argumentRead core slot n => exact execArgumentRead_keeps core slot n
  | barrierRelease core bid => exact execBarrierRelease_keeps core bid
  | writePerformed core wid => exact execWritePerformed_keeps core wid
  | atomicResult core lid => exact execAtomicResult_keeps core lid
  | flushMarkerArrival core rid die path => exact execFlushMarkerArrival_keeps core rid die path
  | flushReportArrival core rid die => exact execFlushReportArrival_keeps core rid die
  | translationWalk core wid victim => exact execTranslationWalk_keeps core wid victim
  | dsplitWrite die value => exact execDsplitWrite_keeps die value
  | dsplitApply die => exact execDsplitApply_keeps die
  | dsplitBusyClear die => exact execDsplitBusyClear_keeps die
  | stackLowPowerEntry stack => exact execStackLowPowerEntry_keeps stack
  | stackWake stack => exact execStackWake_keeps stack
  | matrixWordTake core sel => exact execMatrixWordTake_keeps core sel
  | matrixUpdateComplete core => exact execMatrixUpdateComplete_keeps core
  | tileEviction core => exact execTileEviction_keeps core
  | tileReturn core team => exact execTileReturn_keeps core team
  | railLoopWindow core => exact execRailLoopWindow_keeps core
  | copyStart core cid => exact execCopyStart_keeps core cid
  | copyBurst core cid first count => exact execCopyBurst_keeps core cid first count
  | copyRetire core cid => exact execCopyRetire_keeps core cid
  | tqpushTimeout core bid => exact execTqpushTimeout_keeps core bid
  | cbwaitPoll core bid => exact execCbwaitPoll_keeps core bid
  | sleepExpiry core bid => exact execSleepExpiry_keeps core bid
  | queueEntryTake queue => exact execQueueEntryTake_keeps queue
  | hostQueueDoorbell queue value entries => exact execHostQueueDoorbell_keeps queue value entries
  | stealRequest tc victim => exact execStealRequest_keeps tc victim
  | stealRetry tc => exact execStealRetry_keeps tc
  | droopAlarm tc => exact execDroopAlarm_keeps tc
  | stretchEnd tc => exact execStretchEnd_keeps tc
  | halvedIssueEnd tc => exact execHalvedIssueEnd_keeps tc
  | thermalTrip die temp => exact execThermalTrip_keeps die temp
  | collectiveCapRequest member cap => exact execCollectiveCapRequest_keeps member cap
  | throttleMemberSilence member => exact execThrottleMemberSilence_keeps member
  | rampFill die on => exact execRampFill_keeps die on
  | activationWindowAdjust stack awin => exact execActivationWindowAdjust_keeps stack awin
  | refreshDerate stack temp => exact execRefreshDerate_keeps stack temp
  | registerWrite die number value => exact execRegisterWrite_keeps die number value
  | preqGo die value => exact execPreqGo_keeps die value
  | exchangeFillComplete core => exact execExchangeFillComplete_keeps core
  | exchangeSwap core => exact execExchangeSwap_keeps core
  | exchangeSpillComplete core => exact execExchangeSpillComplete_keeps core
  | trapEntry core tid => exact execTrapEntry_keeps core tid
  | watchdog core slot => exact execWatchdog_keeps core slot
  | mirrorCompare core slot thread => exact execMirrorCompare_keeps core slot thread
  | mirrorWindowTimeout core slot thread => exact execMirrorWindowTimeout_keeps core slot thread
  | uncorrectableError lseq => exact execUncorrectableError_keeps lseq
  | bridgeStop bridge => exact execBridgeStop_keeps bridge
  | linkNarrow link => exact execLinkNarrow_keeps link
  | linkWiden link => exact execLinkWiden_keeps link
  | linkRecovery link => exact execLinkRecovery_keeps link
  | linkDown link => exact execLinkDown_keeps link
  | linkRecovered link lanes => exact execLinkRecovered_keeps link lanes
  | peerRecoveringReport rank => exact execPeerRecoveringReport_keeps rank
  | peerRequest a => exact execPeerRequest_keeps a
  | routerGate die router => exact execRouterGate_keeps die router
  | routerWakeSignal die router => exact execRouterWakeSignal_keeps die router
  | routerAwake die router => exact execRouterAwake_keeps die router
  | escapeDiversion pid => exact execEscapeDiversion_keeps pid
  | packetRoute pid choice => exact execPacketRoute_keeps pid choice
  | cmdNop q => exact execCmdNop_keeps q
  | regwr q => exact execRegwr_keeps q
  | regrd q => exact execRegrd_keeps q
  | memwr q => exact execMemwr_keeps q
  | memrd q => exact execMemrd_keeps q
  | qcfg q => exact execQcfg_keeps q
  | keyld q => exact execKeyld_keeps q
  | keyclr q => exact execKeyclr_keeps q
  | tinv q => exact execTinv_keeps q
  | feat q => exact execFeat_keeps q
  | peercfg q => exact execPeercfg_keeps q
  | coll q => exact execColl_keeps q
  | collectiveComplete tag inputs agree => exact execCollectiveComplete_keeps tag inputs agree
  | fans q => exact execFans_keeps q
  | endl q => exact execEndl_keeps q
  | reset q start => exact execReset_keeps q start
  | ctailDoorbell value entries => exact execCtailDoorbell_keeps value entries
  | eackWrite ch value => exact execEackWrite_keeps ch value
  | channelRingConfigWrite offset value => exact execChannelRingConfigWrite_keeps offset value
  | bar2Access write offset width data => exact execBar2Access_keeps write offset width data
  | msixInterrupt => exact execMsixInterrupt_keeps
  | channelDatagram g => exact execChannelDatagram_keeps g
  | entryResend ch seq => exact execEntryResend_keeps ch seq
  | deviceStart start => exact execDeviceStart_keeps start
  | tokenBucketRefill tc => exact execTokenBucketRefill_keeps tc
  | _ => exact fun _ h => issue_wf h _ _

/-! The model's own order of events (log entry 2) names nothing but events. -/

/-- Whether everything that a list names keeps the canonical form of memory. -/
def AllKeep (l : List Happens) : Prop := ∀ i ∈ l, KeepsMemory i

@[simp] theorem allKeep_nil : AllKeep [] := by simp [AllKeep]
@[simp] theorem allKeep_cons {i : Happens} {l : List Happens} : AllKeep (i :: l) ↔ KeepsMemory i ∧ AllKeep l := List.forall_mem_cons
@[simp] theorem allKeep_append {a b : List Happens} : AllKeep (a ++ b) ↔ AllKeep a ∧ AllKeep b := List.forall_mem_append

@[simp] theorem allKeep_map {α : Type} {f : α → Happens} {l : List α} : AllKeep (l.map f) ↔ ∀ x ∈ l, KeepsMemory (f x) := List.forall_mem_map
@[simp] theorem allKeep_flatMap {α : Type} {f : α → List Happens} {l : List α} : AllKeep (l.flatMap f) ↔ ∀ x ∈ l, AllKeep (f x) := List.forall_mem_flatMap
@[simp] theorem allKeep_eachCore {f : Nat → Core → List Happens} {s : State} : AllKeep (eachCore s f) ↔ ∀ x ∈ s.cores, AllKeep (f x.1 x.2) := allKeep_flatMap

@[simp] theorem allKeep_rotated {l : List Happens} (hl : AllKeep l) (n : Nat) : AllKeep (rotated n l) := by
  have drop : AllKeep (l.drop (n % l.length)) := fun i hi => hl i (List.mem_of_mem_drop hi)
  have take : AllKeep (l.take (n % l.length)) := fun i hi => hl i (List.mem_of_mem_take hi)
  exact allKeep_append.mpr ⟨drop, take⟩

@[simp] theorem keeps_ite {c : Prop} [Decidable c] {i j : Happens} (hi : KeepsMemory i) (hj : KeepsMemory j) : KeepsMemory (if c then i else j) := by
  split <;> assumption

@[simp] theorem allKeep_groupEvents (k slot : Nat) (g : Group) : AllKeep (groupEvents k slot g) := by simp [groupEvents]

@[simp] theorem allKeep_requestEvents (k : Nat) (c : Core) : AllKeep (requestEvents k c) := by simp [requestEvents]

@[simp] theorem allKeep_burstEvents (s : State) (k : Nat) (x : Copy) : AllKeep (burstEvents s k x) := by
  unfold burstEvents
  split
  · simp
  · exact allKeep_map.mpr fun n _ => execCopyBurst_keeps _ _ _ n

@[simp] theorem allKeep_engineEvents (s : State) (k : Nat) (c : Core) : AllKeep (engineEvents s k c) := by simp [engineEvents]

@[simp] theorem allKeep_commandEvents (ch : Nat) (c : Channel) : AllKeep (commandEvents ch c) := by
  unfold commandEvents
  split
  · simp
  · dsimp only
    split <;> simp

@[simp] theorem allKeep_deviceEvents (s : State) : AllKeep (deviceEvents s) := by simp [deviceEvents]

@[simp] theorem allKeep_machineEvents (s : State) : AllKeep (machineEvents s) := by simp [machineEvents]

@[simp] theorem allKeep_waitEvents (s : State) : AllKeep (waitEvents s) := by
  refine allKeep_eachCore.mpr fun c _ => allKeep_flatMap.mpr fun b _ => ?_
  split
  · simp
  · split <;> simp

@[simp] theorem allKeep_stealEvents : AllKeep stealEvents := by simp [stealEvents]

@[simp] theorem allKeep_choiceEvents (s : State) : AllKeep (choiceEvents s) := by simp [choiceEvents]

theorem mem_of_lfind {α : Type} {p : α → Bool} {x : α} : ∀ {l : List α}, lfind p l = some x → x ∈ l
  | y :: r, h => by
    unfold lfind at h
    split at h
    · cases h; exact List.mem_cons_self
    · exact List.mem_cons_of_mem y (mem_of_lfind h)

/-- The event that the model's own order names keeps the canonical form of memory. -/
theorem autoEvent_keeps {s : State} {i : Happens} (h : autoEvent s = some i) : KeepsMemory i := by
  have mem := mem_of_lfind h
  have all : AllKeep (if s.now % 4 = 3 then rotated (s.now / 4) (choiceEvents s) ++ (machineEvents s ++ rotated (s.now / 2) (waitEvents s)) ++ stealEvents
      else machineEvents s ++ rotated (s.now / 2) (waitEvents s) ++ rotated (s.now / 4) (choiceEvents s) ++ stealEvents) := by
    split <;> simp
  exact all i mem

/-! One step. -/

theorem moveOn_keeps {o : Host.Outcome State Fault Refusal} (h : Canonical o) (k bid n : Nat) : Canonical (moveOn k bid n o) := by
  cases o with
  | next s => exact advance_wf h k bid n
  | fault | refused => trivial

theorem noted_keeps {o : Host.Outcome State Fault Refusal} (h : Canonical o) (k sel bid : Nat) (b : Bundle) : Canonical (noted k sel bid b o) := by
  cases o with
  | next s => simpa [noted] using h
  | fault | refused => trivial

theorem issueWord_keeps {s : State} (h : Memory.wf s.mem = true) (k bid : Nat) (b : Bundle) : Canonical (issueWord s k bid b) := by
  unfold issueWord
  split
  · next i n _ =>
    split
    · exact advance_wf h k bid n
    · exact moveOn_keeps (exec_keeps i s h) k bid n
  · exact commit_wf h k bid b _ false

theorem issueNow_keeps : KeepsMemory issueNow := by
  intro s h
  simp only [issueNow]
  split
  · exact h
  · split
    · exact h
    · refine noted_keeps ?_ _ _ _ _
      split
      · simp [h]
      · split
        · simp [h]
        · exact issueWord_keeps (by simp [h]) _ _ _

theorem freeStep_keeps : KeepsMemory freeStep := by
  intro s h
  have later := elapse_wf h 1 (tcOf s.cur.1) 1 none
  simp only [freeStep]
  split
  · exact issueNow_keeps _ later
  · split
    · next due => exact autoEvent_keeps due _ later
    · exact issueNow_keeps _ later
    · exact later

theorem registerNow_keeps (k number val : Nat) : KeepsMemory (registerNow k number val) := by
  intro s h
  unfold registerNow
  split
  · exact execPreqGo_keeps _ _ s h
  · split
    · exact execDsplitWrite_keeps _ _ s h
    · exact execRegisterWrite_keeps _ _ _ s h

theorem step_keeps : KeepsMemory step := by
  intro s h
  unfold step
  split
  · exact issueNow_keeps s h
  · split
    · exact freeStep_keeps s h
    · next i r _ => exact exec_keeps i _ (elapse_wf (by exact h) _ _ _ _)
    · exact registerNow_keeps _ _ _ _ (by exact h)
    · dsimp only
      split
      · exact issueNow_keeps _ (elapse_wf (by exact h) _ _ _ _)
      · exact elapse_wf (by exact h) _ _ _ _

/-- Settles O54: whatever occurs in a step, the packet under way, an event of the agenda or what is due, keeps the canonical form, and so does the time that
passes before it. -/
theorem stepKeepsCanonicalMemory : Obligations.StepKeepsCanonicalMemory := by
  intro s t h e
  have kept := step_keeps s h
  rwa [e] at kept

end Sys2Proof.Machine
end

section
/-! What reset leaves (R8, R360), and the scalar moves (R123 to R125). -/

namespace Sys2Proof.Machine

/-- A core after reset, other than a control core, is as a core starts. -/
theorem coreAt_reset {k : Nat} (h : isControl k = false) : coreAt State.reset k = Core.start := by
  show startCore k = _
  simp [startCore, h]

/-- Settles O55: reset lists nothing, so every die, tile cluster, core and thread reads as it starts. -/
theorem resetState : Obligations.ResetState := by
  refine ⟨rfl, rfl, rfl, rfl, rfl, rfl, rfl, rfl, fun _ => ⟨rfl, rfl, rfl, rfl⟩, fun _ => ⟨rfl, rfl, rfl, rfl, rfl, rfl⟩, ?cores, ?thread, rfl⟩
  case cores =>
    intro k hk
    rw [coreAt_reset hk]
    exact ⟨rfl, rfl, rfl⟩
  case thread =>
    intro i d _
    refine ⟨rfl, rfl, ?_⟩
    by_cases h : i = 0 <;> simp [preg, h, Thread.start, tget]

/-- The lowest present thread is present. -/
theorem headD_mem_members {m : Word} (h : m ≠ 0) : (members m).headD 0 ∈ members m := by
  have some : members m ≠ [] := fun e => h (by rw [← maskOf_members m, e]; rfl)
  cases hm : members m with
  | nil => exact absurd hm some
  | cons i r => exact List.mem_cons_self

/-- A WORD THAT WRITES ONE SCALAR REGISTER COMPLETES where its plan is that write, made once for the group. -/
theorem scalarWrite_completes {i : Instr} {plan : Shape → View → Plan} {s : State} {bid slot : Nat} {b : Bundle} {g : Group} {m : Word}
    (r : Ready s bid slot b g m) (h : Issuable i s b slot g m) {d : Nat} {x : Word} {pen : Bool}
    (hp : plan (shape i) (viewAt s b slot g m) = .go [⟨slot, none, [.ws d x pen], [], none, false⟩]) :
    ∃ t, run i plan s = .next t ∧ Completes s t bid slot b g m (fun _ y => y) (sreg (setS g d x pen)) := by
  have scalar : ∀ e ∈ [Eff.ws d x pen], e.onScalar = true := by simp [Eff.onScalar]
  refine run_completes r h hp ?_ (sureIn_group scalar slot m [] slot) (stepped_group scalar r.some _ _)
  intro y hy
  rw [List.mem_singleton.mp hy]
  exact ⟨stays_plain (by simp), rfl⟩

/-- smov.rd: the plan writes S[I] out, once with U = 1 and in each present thread with U = 0. -/
theorem smovRd_readsOut : ReadsOut .smovRd (fun _ => True) (·.u) (·.x.toNat) (fun o v _ => [(sreg v.g o.i.toNat).val])
    (fun o v => (sreg v.g o.i.toNat).pen) := by
  let plan := fun (o : OpSm) (sh : Shape) (v : View) =>
    let r := sreg v.g o.i.toNat
    if o.u then Plan.go [⟨v.slot, none, [.ws o.x.toNat r.val r.pen], [], none, false⟩] else eachThread sh (fun _ _ _ => .go [.wv o.x.toNat r.val r.pen] []) v
  refine reads_out (fun o => plan o (shape (.smovRd o))) (fun o => shape (.smovRd o)) (fun o s _ hc => run_shape (plan o) hc) (fun _ => rfl)
    (fun o v _ hu => ?_) (fun o v _ hu => ?_)
  · exact if_pos hu
  · exact if_neg (by simp [hu])

/-- Settles O16: smov.rd reads out, smov.wr and smov.v write one s register, and s0 is never written. -/
theorem scalarMoves : Obligations.ScalarMoves := by
  refine ⟨smovRd_readsOut, fun g => ⟨rfl, fun _ _ => rfl⟩, fun o s bid slot b g m r => ⟨fun hi => ?wr, fun hi hr => ?v⟩⟩
  case wr =>
    show ∃ t, execSmovWr o s = .next t ∧ _
    refine scalarWrite_completes r hi ?_
    rfl
  case v =>
    have noTrap : readTrap (shape (.smovV o)) (viewAt s b slot g m) [((viewAt s b slot g m).present.headD 0, ⟨o.x.toNat, 1, false, false⟩)] = none :=
      readTrap_none hr fun x hx => by rw [List.mem_singleton.mp hx]; exact ⟨headD_mem_members r.some, List.mem_singleton.mpr rfl⟩
    show ∃ t, execSmovV o s = .next t ∧ _
    refine scalarWrite_completes r hi ?_
    simp only [noTrap]
    rfl

end Sys2Proof.Machine
end

section
/-! The loop words and nop (R135 to R137). -/

namespace Sys2Proof.Machine

/-- A WORD WITHOUT RESULTS COMPLETES and changes nothing. -/
theorem empty_completes {i : Instr} {plan : Shape → View → Plan} {s : State} {bid slot : Nat} {b : Bundle} {g : Group} {m : Word}
    (r : Ready s bid slot b g m) (h : Issuable i s b slot g m) (hp : plan (shape i) (viewAt s b slot g m) = .go []) :
    ∃ t, run i plan s = .next t ∧ Completes s t bid slot b g m (fun _ x => x) (sreg g) :=
  run_completes r h hp (by simp) rfl (stepped_counters false b.sub.isSome s.now (fun _ _ => rfl) (fun _ => rfl) rfl)

/-- nop: a plan without results. -/
theorem nop_does : EachDoes .nop (fun _ _ => True) (fun _ _ _ x => x) := by
  intro o s bid slot b g m r hi _ _
  obtain ⟨t, ht, done⟩ := empty_completes (plan := fun _ _ => .go []) r hi rfl
  exact ⟨t, ht, done.congr (fun _ => (ite_self _).symm) fun _ => rfl⟩

theorem popLoop_effs (now : Nat) (x : Thread) : effsThread now [.popLoop] x = { x with loops := x.loops.tail } :=
  congrArg (fun l => { x with loops := l }) List.drop_one

/-- lbrk: one effect in each thread. -/
theorem lbrk_does : EachDoes .lbrk (fun _ _ => True) (fun _ _ _ x => { x with loops := x.loops.tail }) := by
  refine each_does (f := fun _ _ _ _ => .go [.popLoop] []) (es := fun _ _ _ _ => [.popLoop]) (fun o => shape (.lbrk o)) ?run ?checks ?plan ?thread ?effs
  case run => exact fun _ _ hc => run_shape (fun sh => eachThread sh fun _ _ _ => .go [.popLoop] []) hc
  case checks => exact fun _ _ _ _ g m _ _ => unchecked g m rfl
  case plan => exact fun _ _ _ _ _ => rfl
  case thread => simp [Eff.onThread]
  case effs => exact fun _ s _ _ g _ j _ _ => popLoop_effs s.now (threadAt g j)

/-- The end packet of an lpush, and its count as a thread reads it (R135). -/
def loopStop (o : OpLp) (v : View) : Word := v.b.pc + 1 + BitVec.ofNat 32 o.e.toNat
def loopCount (o : OpLp) (v : View) (j : Nat) : In := readSrc v.g j (threadAt v.g j) o.lit .s ⟨o.x.toNat, 1, true, false⟩

/-- What lpush makes of a thread: it transfers past the end packet on a count of 0, and otherwise pushes an entry over those that its new PC does not leave. -/
def loopPushed (o : OpLp) (v : View) (j : Nat) (x : Thread) : Thread :=
  let y := if (loopCount o v j).pen then { x with cg := true } else x
  if (loopCount o v j).val % 2 ^ 24 = 0 then { y with xfer := some (loopStop o v + 1) }
  else { y with xfer := some (v.b.pc + 1), loops := ⟨v.b.pc + 1, loopStop o v, BitVec.ofNat 24 (loopCount o v j).val⟩ :: popLeft y.loops (v.b.pc + 1) }

/-- The effects of an lpush in a thread. -/
def loopEffs (o : OpLp) (v : View) (j : Nat) : List Eff :=
  (if (loopCount o v j).pen then [.setCg] else []) ++
    if (loopCount o v j).val % 2 ^ 24 = 0 then [.goto (loopStop o v + 1)]
    else [.keepLoops (v.b.pc + 1), .pushLoop ⟨v.b.pc + 1, loopStop o v, BitVec.ofNat 24 ((loopCount o v j).val % 2 ^ 24)⟩, .goto (v.b.pc + 1)]

theorem loopEffs_onThread (o : OpLp) (v : View) (j : Nat) : ∀ e ∈ loopEffs o v j, e.onThread = true := by
  unfold loopEffs
  split <;> split <;> simp [Eff.onThread]

theorem effsThread_loopEffs (now : Nat) (o : OpLp) (v : View) (j : Nat) (x : Thread) : effsThread now (loopEffs o v j) x = loopPushed o v j x := by
  have count : BitVec.ofNat 24 ((loopCount o v j).val % 2 ^ 24) = BitVec.ofNat 24 (loopCount o v j).val := by simp [BitVec.ofNat, Fin.ofNat]
  unfold loopEffs loopPushed
  rw [count]
  by_cases h : (loopCount o v j).val % 2 ^ 24 = 0
  · simp only [if_pos h]; cases (loopCount o v j).pen <;> rfl
  · simp only [if_neg h]; cases (loopCount o v j).pen <;> rfl

/-- Where lpush goes ahead in every present thread: its end packet is sealed, no fifth entry is pushed, and no dead register is read. -/
def LoopFits (o : OpLp) (v : View) : Prop :=
  sealedAt v.s v.k v.h (loopStop o v).toNat = some true ∧ ∀ j ∈ members v.mask,
    ((loopCount o v j).val % 2 ^ 24 ≠ 0 → (popLeft (threadAt v.g j).loops (v.b.pc + 1)).length < 4) ∧
    (deadTraps v.g && srcDead (threadAt v.g j) ⟨o.x.toNat, 1, true, false⟩) = false

theorem lpushPlan_goes {o : OpLp} {v : View} {j : Nat} (fits : LoopFits o v) (hj : j ∈ members v.mask) :
    lpushPlan o v j (threadAt v.g j) = .go (loopEffs o v j) [] := by
  obtain ⟨closed, each⟩ := fits
  obtain ⟨room, live⟩ := each j hj
  have good : lpushBad o v j (threadAt v.g j) = false := by
    simp only [lpushBad, Bool.or_eq_false_iff, bne_eq_false_iff_eq, Bool.and_eq_false_iff, decide_eq_false_iff_not, not_le]
    exact ⟨closed, (Decidable.em _).imp id room⟩
  simp only [lpushPlan, good, live, Bool.false_eq_true, if_false]
  unfold loopEffs
  by_cases h : (loopCount o v j).val % 2 ^ 24 = 0
  · simp only [if_pos h]; exact if_pos h
  · simp only [if_neg h]; exact if_neg h

/-- lpush, where it goes ahead. -/
theorem lpush_does : EachDoes .lpush LoopFits loopPushed := by
  refine each_does (f := lpushPlan) (es := fun o v j _ => loopEffs o v j) (fun o => { shape (.lpush o) with srcs := [] }) ?run ?checks ?plan ?thread ?effs
  case run => exact fun o _ hc => run_shape (fun sh => eachThread { sh with srcs := [] } (lpushPlan o)) hc
  case checks => exact fun _ _ _ _ g m _ _ => unchecked g m rfl
  case plan => exact fun _ _ _ fits hj => lpushPlan_goes fits hj
  case thread => exact fun o v j _ => loopEffs_onThread o v j
  case effs => exact fun o s b slot g m j _ _ => effsThread_loopEffs s.now o (viewAt s b slot g m) j (threadAt g j)

theorem loopWords : Sys2Proof.Claims.LoopWords := by
  refine ⟨fun o s bid slot b g m r hi hr closed room => ?_, lbrk_does, nop_does⟩
  have live : ∀ j ∈ members m, (deadTraps g && srcDead (threadAt g j) ⟨o.x.toNat, 1, true, false⟩) = false := by
    intro j hj
    have read := (hr rfl j hj).2
    simpa [shape, shapeOf] using read
  exact lpush_does o s bid slot b g m r hi hr ⟨closed, fun j hj => ⟨room j hj, live j hj⟩⟩

end Sys2Proof.Machine
end

section
/-! Replay points, guess tests and dead marks (R140, R141, R144). -/

namespace Sys2Proof.Machine

/-- What a gmark plans in each thread. -/
def gmarkPlan (v : View) (i : Nat) (t : Thread) : TPlan :=
  if v.b.pc != v.b.start then .trap (trapAt v cILLEGAL) else resolved v i t true (.go [.mark v.b.pc] [])

theorem gmarkPlan_goes {v : View} {j : Nat} (first : v.b.pc = v.b.start) (calm : Calm v.c v.g v.mask) (hj : j ∈ members v.mask) :
    gmarkPlan v j (threadAt v.g j) = .go [.mark v.b.pc] [] := by
  obtain ⟨quiet, kept⟩ := calm j hj
  simp [gmarkPlan, first, resolved, quiet, kept]

theorem gmark_does : EachDoes .gmark (fun _ v => v.b.pc = v.b.start ∧ Calm v.c v.g v.mask) (fun _ v _ x =>
    { x with rpc := v.b.pc, rpv := true, snapLoops := x.loops, snapLnk := x.lnk }) := by
  refine each_does (f := fun _ => gmarkPlan) (es := fun _ v _ _ => [.mark v.b.pc]) (fun o => shape (.gmark o)) ?run ?checks ?plan ?thread ?effs
  case run => exact fun _ _ hc => run_shape (fun sh => eachThread sh gmarkPlan) hc
  case checks => exact fun _ _ _ _ g m _ _ => unchecked g m rfl
  case plan => exact fun _ _ _ ok hj => gmarkPlan_goes ok.1 ok.2 hj
  case thread => simp [Eff.onThread]
  case effs => exact fun _ _ _ _ _ _ _ _ _ => rfl

theorem gtest_does : EachDoes .gtest (fun _ _ => True) (fun o v _ x => setP x o.p.toNat (testedPen v.g x o.u o.x.toNat) false) := by
  refine each_does (f := fun o v _ t => .go [.wp o.p.toNat (testedPen v.g t o.u o.x.toNat) false] [])
    (es := fun o v _ t => [.wp o.p.toNat (testedPen v.g t o.u o.x.toNat) false]) (fun o => shape (.gtest o)) ?run ?checks ?plan ?thread ?effs
  case run => exact fun o _ hc => run_shape (fun sh => eachThread sh fun v _ t => .go [.wp o.p.toNat (testedPen v.g t o.u o.x.toNat) false] []) hc
  case checks => exact fun _ _ _ _ g m _ _ => unchecked g m rfl
  case plan => exact fun _ _ _ _ _ => rfl
  case thread => simp [Eff.onThread]
  case effs => exact fun _ _ _ _ _ _ _ _ _ => rfl

theorem guessMarks : Sys2Proof.Claims.GuessMarks := by
  refine ⟨gmark_does, ?_⟩
  have same : ∀ (g : Group) (x : Thread) (u : Bool) (c : Nat), testedPen g x u c = (if u then (sreg g c).pen else if c ≤ 95 then (vreg x c).pen && !(vreg x c).dead
      else if 100 ≤ c ∧ c ≤ 123 then (sreg g (c - 100)).pen else false) := by
    intro g x u c
    simp only [testedPen, Bool.and_eq_true, decide_eq_true_eq]
  simp only [← same]
  exact gtest_does

/-- Registers marked dead one after another: those of a list, or those of a range that pass a test. -/
theorem effsThread_markDead (now : Nat) (p : Nat → Bool) (d : Nat → Nat) (l : List Nat) (x : Thread) :
    effsThread now (((l.filter p).map d).map Eff.markDead) x =
      l.foldl (fun y i => if p i then { y with v := tput y.v (d i) ⟨(vreg y (d i)).val, false, true⟩ } else y) x := by
  induction l generalizing x with
  | nil => rfl
  | cons i r ih =>
    rw [List.foldl_cons, ← ih]
    cases h : p i
    · simp [h]
    · simp [h]; rfl

theorem deadMarks : Sys2Proof.Claims.DeadMarks := by
  refine each_does (f := fun o _ _ _ => .go ((deadRegs o).map Eff.markDead) []) (es := fun o _ _ _ => (deadRegs o).map Eff.markDead)
    (fun o => shape (.dead o)) ?run ?checks ?plan ?thread ?effs
  case run => exact fun o _ hc => run_shape (fun sh => eachThread sh fun _ _ _ => .go ((deadRegs o).map Eff.markDead) []) hc
  case checks => exact fun _ _ _ _ g m _ _ => unchecked g m rfl
  case plan => exact fun _ _ _ _ _ => rfl
  case thread =>
    intro o _ _ _ e he
    obtain ⟨d, _, rfl⟩ := List.mem_map.mp he
    rfl
  case effs => exact fun o s _ _ g _ j _ _ => effsThread_markDead s.now (fun i => o.m.getLsbD i) (fun i => 16 * o.k.toNat + i) (List.range 16) (threadAt g j)

end Sys2Proof.Machine
end

section
/-! What a step commits where every present thread of its one group has the same fate: all of them complete it, also with guesses acted on and with words whose
replay is their whole group's (R11, R28, R245); all of them replay (R26); or all of them trap (R55). -/

namespace Sys2Proof.Machine

/-- Results of one slot that neither trap, replay, leave the bundle nor make the step wait. -/
structure Proceeds (slot : Nat) (r : Res) : Prop where
  slot : r.slot = slot
  trap : r.trap = none
  replay : r.replay = false
  leaves : r.acts.any Act.leaves = false
  stalls : r.acts.any Act.stalls = false

/-- A step none of whose results stalls has no word that waits. -/
theorem splitWords_none (fs : List (Part × List (Nat × Fate))) : ∀ (sg : List (Nat × Nat)) {rs : List Res}, (∀ r ∈ rs, r.acts.any Act.stalls = false) →
    splitWords fs (wordsOf sg rs) = none
  | [], _, _ => rfl
  | (p, n) :: sg, rs, q => by
    have now : wordStalls fs (rs.take n) = false := by
      rw [wordStalls, List.any_eq_false]
      intro r hr
      simp [q r (List.mem_of_mem_take hr)]
    simp [wordsOf, splitWords, now, splitWords_none fs sg fun r hr => q r (List.mem_of_mem_drop hr)]

/-- A COMMIT of a step that no result stalls, in a ready bundle: it finishes, where no word runs once for its group beside a trap (R111). -/
theorem commit_finishes {s : State} {bid slot : Nat} {b : Bundle} {g : Group} {m : Word} (r : Ready s bid slot b g m) {rs : List Res}
    (q : ∀ x ∈ rs, x.acts.any Act.stalls = false) (wide u : Bool) (sg : List (Nat × Nat)) {fs : List (Nat × Fate)} (hf : fates wide rs ⟨slot, m⟩ = fs)
    (whole : trapsOf fs = [] ∨ doneMask fs = 0) :
    commit s s.cur.1 bid { b with uni := u, segs := sg } rs wide = finishStep s s.cur.1 bid { b with uni := u, segs := sg } rs [(⟨slot, m⟩, fs)] := by
  have alone : (u && !(trapList [((⟨slot, m⟩ : Part), fs)]).isEmpty && [((⟨slot, m⟩ : Part), fs)].any fun x => doneMask x.2 != 0) = false := by
    rcases whole with h | h <;> simp [trapList, h]
  simp only [commit, r.parts, List.map_cons, List.map_nil, hf, splitWords_none _ _ q, alone, Bool.false_eq_true, if_false]

theorem fateOf_proceeds {slot : Nat} {rs : List Res} (q : ∀ r ∈ rs, Proceeds slot r) (i : Nat) : fateOf rs slot i = .done := by
  have noTrap : ∀ p : Res → Bool, (rs.filter p).filterMap (·.trap) = [] := fun p =>
    List.filterMap_eq_nil_iff.mpr fun x hx => (q x (List.mem_filter.mp hx).1).trap
  have noReplay : ∀ p : Res → Bool, (rs.filter p).any (·.replay) = false := fun p =>
    List.any_eq_false.mpr fun x hx => by simp [(q x (List.mem_filter.mp hx).1).replay]
  simp [fateOf, noTrap, noReplay, firstTrap]

/-- Threads that all complete a step stay together whatever its words ask (R245). -/
theorem together_done (joint : Option Bool) (is : List Nat) : together joint (is.map fun i => (i, Fate.done)) = is.map fun i => (i, .done) := by
  cases joint with
  | none => rfl
  | some all => simp [together, Fate.failed]

theorem fates_proceeds {slot : Nat} {rs : List Res} (q : ∀ r ∈ rs, Proceeds slot r) (wide : Bool) (m : Word) :
    fates wide rs ⟨slot, m⟩ = (members m).map fun i => (i, .done) := by
  have done : (members m).map (fun i => (i, fateOf rs slot i)) = (members m).map fun i => (i, Fate.done) :=
    List.map_congr_left fun i _ => by rw [fateOf_proceeds q]
  have none : ((members m).map fun i => (i, Fate.done)).filterMap (fun f => f.2.taken) = [] := by simp [List.filterMap_map, Fate.taken]
  simp only [fates, done, together_done, none]
  cases wide <;> rfl

theorem leavers_none {slot : Nat} {rs : List Res} (q : ∀ r ∈ rs, r.acts.any Act.leaves = false) : leavers rs slot = 0 := by
  have none : rs.filterMap (fun r => if r.slot = slot && r.acts.any Act.leaves then r.thr else none) = [] :=
    List.filterMap_eq_nil_iff.mpr fun x hx => by simp only [q x hx, Bool.and_false]; rfl
  rw [leavers, none]; rfl

/-- What finishing a step does where every thread of its one part completes it. -/
theorem finishStep_done {rs : List Res} {slot : Nat} {m : Word} {b : Bundle} (some : m ≠ 0) (whole : b.trapped = []) (stay : ∀ r ∈ rs, r.acts.any Act.leaves = false)
    (s : State) (k bid : Nat) : finishStep s k bid b rs [(⟨slot, m⟩, (members m).map fun i => (i, .done))] =
      settleAt k slot (commitActs rs slot m k bid b.pc (modCore (commitGuesses rs slot m k bid b.pc s) k (takeEffs rs slot m bid b s.now))) := by
  have all : (m &&& ~~~(0 : Word)) = m := BitVec.and_allOnes
  have noTraps : trapList [((⟨slot, m⟩ : Part), (members m).map fun i => (i, Fate.done))] = [] := by simp [trapList, trapsOf_done]
  have parts : (stayed b [⟨slot, m⟩]).parts.isEmpty = false := by
    have some' : m ≠ 0#32 := some
    simp [stayed, some']
  simp only [finishStep, noTraps, whole, List.append_nil, List.map_cons, List.map_nil, List.foldl_cons, List.foldl_nil, doneMask_done, replays_done,
    leavers_none stay, all, trapGroups, trapSlots, List.isEmpty_nil, Bool.not_true, Bool.or_false, Bool.and_true, List.filter_nil, parts, Bool.false_eq_true,
    if_false, modCore_modCore]
  rfl

/-- A STEP THAT EVERY PRESENT THREAD COMPLETES: it acts on guesses first, then the effects are taken, then the other actions, and then guesses settle (R11, R28). -/
theorem commit_proceeds {s : State} {bid slot : Nat} {b : Bundle} {g : Group} {m : Word} (r : Ready s bid slot b g m) {rs : List Res}
    (q : ∀ x ∈ rs, Proceeds slot x) (wide u : Bool) (sg : List (Nat × Nat)) :
    commit s s.cur.1 bid { b with uni := u, segs := sg } rs wide =
      settleAt s.cur.1 slot (commitActs rs slot m s.cur.1 bid b.pc
        (modCore (commitGuesses rs slot m s.cur.1 bid b.pc s) s.cur.1 (takeEffs rs slot m bid b s.now))) := by
  rw [commit_finishes r (fun x hx => (q x hx).stalls) wide u sg (fates_proceeds q wide m) (.inl (trapsOf_done m))]
  exact finishStep_done r.some r.trapped (fun x hx => (q x hx).leaves) s s.cur.1 bid

/-- THREADS THAT ALL LEAVE A STEP: no result takes effect, and the bundle is gone. -/
theorem leaves_of_none {s : State} {bid slot : Nat} {b : Bundle} {g : Group} {m : Word} (r : Ready s bid slot b g m) (rs : List Res) :
    Leaves s (modCore (modCore s s.cur.1 (commitEffs rs slot 0 b.sub.isSome s.now)) s.cur.1 fun c => tidyRun (delBundle c bid)) bid slot g fun _ x => x := by
  have none : rs.filter (fun x => x.takes slot 0) = [] := by
    refine List.filter_eq_nil_iff.mpr fun x _ => ?_
    cases ht : x.thr <;> simp [Res.takes, ht, hasBit]
  have kept : Stepped (groupAfter rs slot 0 b.sub.isSome s.now g) g (fun _ x => x) (sreg g) := by
    rw [groupAfter, none]
    exact stepped_counters false b.sub.isSome s.now (fun _ _ => rfl) (fun _ => rfl) rfl
  refine ⟨_, s.core.loads, kept, rfl, ?_⟩
  have effs : commitEffs rs slot 0 b.sub.isSome s.now s.core =
      { s.core with ctx := { s.core.ctx with groups := tput s.core.ctx.groups slot (groupAfter rs slot 0 b.sub.isSome s.now g) } } := by
    simp only [commitEffs, r.group, none]
    rfl
  rw [modCore_modCore]
  exact congrArg (fun c => setCore s s.cur.1 (tidyRun (delBundle c bid))) effs

/-- Nothing acts where no result takes effect. -/
theorem doActs_none (sel : Act → Bool) (rs : List Res) (slot k bid : Nat) (pc : Word) (s : State) : doActs sel rs slot 0 k bid pc s = s := by
  have none : rs.filter (fun x => x.takes slot 0) = [] := by
    refine List.filter_eq_nil_iff.mpr fun x _ => ?_
    cases ht : x.thr <;> simp [Res.takes, ht, hasBit]
  rw [doActs, none, List.foldl_nil]

/-- The traps of one slot's threads name that slot, once. -/
theorem trapSlots_one (slot : Nat) {ts : Tab Trap} (h : ts ≠ []) : trapSlots (ts.map fun t => (slot, t.1, t.2)) = [slot] := by
  have kept : ∀ us : Tab Trap, (us.map fun t => (slot, t.1, t.2)).foldl (fun a t => if a.contains t.1 then a else a ++ [t.1]) [slot] = [slot] := by
    intro us
    induction us with
    | nil => rfl
    | cons t r ih => simpa using ih
  cases ts with
  | nil => exact absurd rfl h
  | cons t r => exact kept r

theorem trapsIn_one (slot : Nat) (ts : Tab Trap) : ((ts.map fun t => (slot, t.1, t.2)).filter fun t => t.1 == slot).map (·.2) = ts := by
  induction ts with
  | nil => rfl
  | cons t r ih => simpa using ih

/-- What finishing a step does where no thread of its one part completes it: the bundle is gone, and the threads replay or trap. -/
theorem finishStep_left {b : Bundle} (whole : b.trapped = []) {slot : Nat} {m : Word} {fs : List (Nat × Fate)} (hd : doneMask fs = 0) (rs : List Res)
    (s : State) (k bid : Nat) : finishStep s k bid b rs [(⟨slot, m⟩, fs)] =
      let s1 := modCore (modCore s k (commitEffs rs slot 0 b.sub.isSome s.now)) k fun c => tidyRun (delBundle c bid)
      let s2 := (replays fs).foldl (fun a i => replayAt a k slot b.sub i b.stepPos b.pc) s1
      if trapsOf fs = [] then settleAt k slot s2 else settleAt k slot (trapThreads s2 k slot b.sub (trapsOf fs) b.stepPos b.pc) := by
  have gone : ∀ c : Word, (stayed b [⟨slot, 0 &&& c⟩]).parts.isEmpty = true := by simp [stayed]
  have traps : trapList [((⟨slot, m⟩ : Part), fs)] = (trapsOf fs).map fun t => (slot, t.1, t.2) := by simp [trapList]
  simp only [finishStep, traps, whole, List.nil_append, List.map_cons, List.map_nil, List.foldl_cons, List.foldl_nil, hd, commitGuesses, commitActs, doActs_none,
    gone, if_true, trapGroups]
  by_cases ht : trapsOf fs = []
  · rw [if_pos ht, ht]; rfl
  · rw [if_neg ht, trapSlots_one slot ht]
    simp only [List.foldl_cons, List.foldl_nil, trapsIn_one]
    simp

end Sys2Proof.Machine
end

section
/-! A step that acts on guesses does so before its words write (R11, R28, R29); where its words write no register, that is the same as acting on them after its
effects: each such action changes the loads of its core, and the group of one number in a way that the effects of the step do not disturb. -/

namespace Sys2Proof.Machine

/-! The parts of a group changed in either order. -/

theorem tmap_tput {α β : Type} (f : α → β) (n : Nat) (x : α) (t : Tab α) : tmap (tput t n x) (fun _ => f) = tput (tmap t fun _ => f) n (f x) := by
  induction t with
  | nil => rfl
  | cons e r ih =>
    obtain ⟨k, y⟩ := e
    simp only [tput, tmap]
    split
    · rfl
    · split
      · rfl
      · simp [tmap, ih]

theorem lmod_comm {α : Type} {f h : α → α} {i j : Nat} (e : i = j → ∀ x, f (h x) = h (f x)) (l : List α) : lmod (lmod l j h) i f = lmod (lmod l i f) j h := by
  induction l generalizing i j with
  | nil => cases i <;> cases j <;> rfl
  | cons x r ih =>
    match i, j with
    | 0, 0 => simp [lmod, e rfl x]
    | 0, _ + 1 | _ + 1, 0 => rfl
    | i + 1, j + 1 =>
      have rest := ih (i := i) (j := j) fun h => e (congrArg (· + 1) h)
      simp [lmod, rest]

theorem modThread_commute {f h : Thread → Thread} (e : ∀ t, f (h t) = h (f t)) (i j : Nat) :
    Function.Commute (fun g => modThread g i f) fun g => modThread g j h :=
  fun g => congrArg (fun ts => { g with threads := ts }) (lmod_comm (fun _ t => e t) g.threads)

/-- Changes made one after another commute with a change where each of them does. -/
theorem foldl_commute {α β : Type} {F : β → α → β} {W : β → β} {l : List α} (h : ∀ a ∈ l, Function.Commute (fun g => F g a) W) :
    Function.Commute (fun g => l.foldl F g) W := by
  induction l with
  | nil => exact fun _ => rfl
  | cons a r ih => exact (ih fun b hb => h b (List.mem_cons_of_mem a hb)).comp_left (h a List.mem_cons_self)

/-- The effects that words on guesses have: they clear penumbra bits, CG and RPL. -/
def Eff.mild : Option Nat → Eff → Bool
  | some _, .certain => true
  | some _, .unreplay => true
  | some _, .clearPen _ => true
  | none, .clearPenS _ => true
  | _, _ => false

theorem Eff.mild_cases {thr : Option Nat} {e : Eff} (h : e.mild thr = true) :
    (∃ i, thr = some i ∧ (e = .certain ∨ e = .unreplay ∨ ∃ d, e = .clearPen d)) ∨ thr = none ∧ ∃ d, e = .clearPenS d := by
  unfold Eff.mild at h
  split at h <;> simp_all

/-- Results whose effects are mild. -/
def MildRes (rs : List Res) : Prop := ∀ r ∈ rs, ∀ e ∈ r.effs, e.mild r.thr = true

theorem Eff.mild_quiet {thr : Option Nat} {e : Eff} (h : e.mild thr = true) : effKills e = none ∧ ∀ g, effChanges g thr e = false := by
  rcases Eff.mild_cases h with ⟨i, rfl, rfl | rfl | ⟨d, rfl⟩⟩ | ⟨rfl, d, rfl⟩ <;> exact ⟨rfl, fun _ => rfl⟩

/-- Mild effects on a group keep what is beyond its threads and s registers. -/
theorem effIn_mild (now : Nat) {thr : Option Nat} {e : Eff} (h : e.mild thr = true) (g : Group) :
    (∃ i, thr = some i ∧ effIn now g thr e = modThread g i (effThread now e)) ∨ ∃ d, effIn now g thr e = { g with s := tmod g.s d fun r => { r with pen := false } } := by
  rcases Eff.mild_cases h with ⟨i, rfl, rfl | rfl | ⟨d, rfl⟩⟩ | ⟨rfl, d, rfl⟩
  · exact .inl ⟨i, rfl, effIn_thread now g i _ rfl⟩
  · exact .inl ⟨i, rfl, effIn_thread now g i _ rfl⟩
  · exact .inl ⟨i, rfl, effIn_thread now g i _ rfl⟩
  · exact .inr ⟨d, rfl⟩

/-- The watchdog count of a group restarted, outside a handler (R386). -/
def restartDog (handler : Bool) (now : Nat) (g : Group) : Group := if handler then g else { g with dog := now, dogOff := 0, bitten := false }

theorem groupAfter_mild {rs : List Res} (h : MildRes rs) (slot : Nat) (m : Word) (handler : Bool) (now : Nat) (g : Group) :
    groupAfter rs slot m handler now g = restartDog handler now ((rs.filter fun r => r.takes slot m).foldl (effsIn now) g) := by
  have still : ((rs.filter fun r => r.takes slot m).any fun r => r.effs.any (effChanges g r.thr)) = false :=
    List.any_eq_false.mpr fun r hr => by
      rw [Bool.not_eq_true]
      exact List.any_eq_false.mpr fun e he => by simp [(Eff.mild_quiet (h r (List.mem_filter.mp hr).1 e he)).2 g]
  simp only [groupAfter, still, Bool.false_eq_true, if_false, restartDog]

/-- The effects of mild results commute with a change of a group where each effect does, and the restart of its watchdog count. -/
theorem groupAfter_commute {rs : List Res} (h : MildRes rs) {slot : Nat} {m : Word} {handler : Bool} {now : Nat} {W : Group → Group}
    (effs : ∀ r ∈ rs, ∀ e ∈ r.effs, Function.Commute (fun g => effIn now g r.thr e) W) (dog : Function.Commute (restartDog handler now) W) :
    Function.Commute (groupAfter rs slot m handler now) W := by
  have each : Function.Commute (fun g => (rs.filter fun r => r.takes slot m).foldl (effsIn now) g) W :=
    foldl_commute fun r hr => foldl_commute fun e he => effs r (List.mem_filter.mp hr).1 e he
  rw [funext (groupAfter_mild h slot m handler now)]
  exact dog.comp_left each

/-- The counts of a group set (R185). -/
def setCounts (n : Nat) (d : Bool) (g : Group) : Group := { g with streak := n, demoted := d }

theorem groupAfter_setCounts {rs : List Res} (h : MildRes rs) (slot : Nat) (m : Word) (handler : Bool) (now n : Nat) (d : Bool) :
    Function.Commute (groupAfter rs slot m handler now) (setCounts n d) := by
  refine groupAfter_commute h (fun r hr e he g => ?_) fun g => by cases handler <;> rfl
  rcases Eff.mild_cases (h r hr e he) with ⟨i, ht, rfl | rfl | ⟨d, rfl⟩⟩ | ⟨ht, d, rfl⟩ <;> rw [ht] <;> rfl

theorem groupAfter_finishOp {rs : List Res} (h : MildRes rs) (slot : Nat) (m : Word) (handler : Bool) (now n : Nat) :
    Function.Commute (groupAfter rs slot m handler now) fun g => finishOp g n := by
  refine groupAfter_commute h (fun r hr e he g => ?_) fun g => by cases handler <;> rfl
  rcases Eff.mild_cases (h r hr e he) with ⟨i, ht, rfl | rfl | ⟨d, rfl⟩⟩ | ⟨ht, d, rfl⟩ <;> rw [ht] <;> rfl

/-- A change of a group keeps its number and its counts where each of its parts does. -/
theorem groupAfter_keeps {rs : List Res} (h : MildRes rs) (slot : Nat) (m : Word) (handler : Bool) (now : Nat) (g : Group) :
    (groupAfter rs slot m handler now g).uid = g.uid ∧ (groupAfter rs slot m handler now g).streak = g.streak ∧
      (groupAfter rs slot m handler now g).demoted = g.demoted := by
  have counts : groupAfter rs slot m handler now g = setCounts g.streak g.demoted (groupAfter rs slot m handler now g) :=
    groupAfter_setCounts h slot m handler now g.streak g.demoted g
  have effs : ∀ (l : List Res), MildRes l → ∀ g, (l.foldl (effsIn now) g).uid = g.uid := by
    intro l hl g
    refine List.foldlRecOn (motive := fun a : Group => a.uid = g.uid) l _ rfl fun a ha r hr => ?_
    refine List.foldlRecOn (motive := fun a : Group => a.uid = g.uid) r.effs _ ha fun a ha e he => ?_
    rcases effIn_mild now (hl r hr e he) a with ⟨i, _, eq⟩ | ⟨d, eq⟩ <;> rw [eq] <;> exact ha
  refine ⟨?_, by rw [counts]; rfl, by rw [counts]; rfl⟩
  rw [groupAfter_mild h]
  have all := effs (rs.filter fun r => r.takes slot m) (fun r hr => h r (List.mem_filter.mp hr).1) g
  cases handler <;> exact all

/-! Registers written without penumbra. -/

/-- Registers written leave what is beyond the threads and s registers of a group. -/
theorem putRegs_frame (thr : Option Nat) (only : List Nat) (pen : Bool) : ∀ (ds : List Nat) (xs : List Word) (g : Group),
    putRegs g thr only pen ds xs = { g with threads := (putRegs g thr only pen ds xs).threads, s := (putRegs g thr only pen ds xs).s }
  | [], _, _ => by simp [putRegs]
  | _ :: _, [], _ => by simp [putRegs]
  | d :: ds, x :: xs, g => by
    simp only [putRegs]
    rw [putRegs_frame thr only pen ds xs]
    by_cases h : only.contains d
    · rw [if_pos h]
      cases thr with
      | some i => rfl
      | none => by_cases hd : d = 0 <;> simp [setS, hd]
    · rw [if_neg h]

/-- A change of a group commutes with registers written where it commutes with each register written. -/
theorem commute_putRegs {G : Group → Group} (pen : Bool) (v : ∀ i d x, Function.Commute G fun g => modThread g i fun t => setV t d x pen)
    (s : ∀ d x, Function.Commute G fun g => setS g d x pen) (thr : Option Nat) (only : List Nat) : ∀ (ds : List Nat) (xs : List Word),
    Function.Commute G fun g => putRegs g thr only pen ds xs
  | [], _ => fun _ => by simp [putRegs]
  | _ :: _, [] => fun _ => by simp [putRegs]
  | d :: ds, x :: xs => fun g => by
    have rest := commute_putRegs pen v s thr only ds xs
    simp only [putRegs]
    rw [rest]
    by_cases hd : only.contains d
    · rw [if_pos hd, if_pos hd]
      cases thr with
      | some i => exact congrArg (fun a => putRegs a (some i) only pen ds xs) (v i d x g)
      | none => exact congrArg (fun a => putRegs a none only pen ds xs) (s d x g)
    · rw [if_neg hd, if_neg hd]

theorem setCounts_putRegs (n : Nat) (q : Bool) (thr : Option Nat) (only : List Nat) (pen : Bool) (ds : List Nat) (xs : List Word) :
    Function.Commute (setCounts n q) fun g => putRegs g thr only pen ds xs := by
  refine commute_putRegs pen (fun _ _ _ _ => rfl) (fun d x g => ?_) thr only ds xs
  by_cases hd : d = 0 <;> simp [setS, setCounts, hd]

/-- Results that pass certainty points and do nothing else. -/
def CertainRes (rs : List Res) : Prop := ∀ r ∈ rs, ∀ e ∈ r.effs, ∃ i, r.thr = some i ∧ (e = .certain ∨ e = .unreplay)

theorem CertainRes.mild {rs : List Res} (h : CertainRes rs) : MildRes rs := by
  intro r hr e he
  obtain ⟨i, ht, rfl | rfl⟩ := h r hr e he <;> rw [ht] <;> rfl

theorem certain_setV (d : Nat) (x : Word) (now : Nat) {e : Eff} (h : e = .certain ∨ e = .unreplay) (t : Thread) :
    effThread now e (setV t d x false) = setV (effThread now e t) d x false := by
  rcases h with rfl | rfl
  · have passed : ∀ t, effThread now .certain t = { clearPens t with cg := false, rpl := false } := fun _ => rfl
    simp only [passed, clearPens, setV, tmap_tput]
  · rfl

/-- Certainty points passed clear penumbra bits and write no value, so registers written without penumbra may come before or after. -/
theorem groupAfter_putRegs {rs : List Res} (h : CertainRes rs) (slot : Nat) (m : Word) (handler : Bool) (now : Nat) (thr : Option Nat) (only ds : List Nat)
    (xs : List Word) : Function.Commute (groupAfter rs slot m handler now) fun g => putRegs g thr only false ds xs := by
  have onThread : ∀ {e : Eff}, e = .certain ∨ e = .unreplay → e.onThread = true := by rintro e (rfl | rfl) <;> rfl
  refine commute_putRegs false (fun i d x => ?_) (fun d x => ?_) thr only ds xs
  · refine groupAfter_commute h.mild (fun r hr e he => ?_) fun g => by cases handler <;> rfl
    obtain ⟨j, ht, he⟩ := h r hr e he
    simp only [ht, effIn_thread now _ j e (onThread he)]
    exact modThread_commute (certain_setV d x now he) j i
  · refine groupAfter_commute h.mild (fun r hr e he g => ?_) fun g => ?_
    · obtain ⟨j, ht, he⟩ := h r hr e he
      simp only [ht, effIn_thread now _ j e (onThread he)]
      by_cases hd : d = 0 <;> simp [setS, modThread, hd]
    · by_cases hd : d = 0 <;> cases handler <;> simp [setS, restartDog, hd]

/-! What an action on a guess makes of the group that it concerns. -/

/-- A change of a group that may come before or after another: it keeps the counts of the group, or restarts them (R185). -/
def Follows (G f : Group → Group) : Prop := ∀ y, (f y).uid = y.uid ∧
  (((f y).streak = y.streak ∧ (f y).demoted = y.demoted ∧ ∀ n d, f (setCounts n d (G y)) = setCounts n d (G (f y))) ∨
   ((f y).streak = 0 ∧ (f y).demoted = false ∧ f (setCounts 0 false (G y)) = setCounts 0 false (G (f y))))

theorem follows_id (G : Group → Group) : Follows G fun g => g := fun _ => ⟨rfl, .inl ⟨rfl, rfl, fun _ _ => rfl⟩⟩

theorem follows_finishOp {G : Group → Group} {n : Nat} (h : Function.Commute G fun g => finishOp g n) : Follows G fun g => finishOp g n := fun y =>
  ⟨rfl, .inl ⟨rfl, rfl, fun _ _ => by rw [h y]; rfl⟩⟩

/-- What a request makes of the group whose registers it writes (R185). -/
def rewritten (thr : Option Nat) (only ds : List Nat) (xs : List Word) (g : Group) : Group :=
  let g1 := putRegs g thr only false ds xs
  if g1.threads != g.threads || g1.s != g.s then { g1 with streak := 0, demoted := false } else g1

theorem follows_rewritten {G : Group → Group} {thr : Option Nat} {only ds : List Nat} {xs : List Word}
    (counts : Function.Commute G (setCounts 0 false)) (h : Function.Commute G fun g => putRegs g thr only false ds xs) : Follows G (rewritten thr only ds xs) := by
  intro y
  have frame := putRegs_frame thr only false ds xs y
  have after : ∀ n d, putRegs (setCounts n d (G y)) thr only false ds xs = setCounts n d (G (putRegs y thr only false ds xs)) := fun n d => by
    rw [h y]; exact (setCounts_putRegs n d thr only false ds xs (G y)).symm
  by_cases changed : ((putRegs y thr only false ds xs).threads != y.threads || (putRegs y thr only false ds xs).s != y.s) = true
  · have new : rewritten thr only ds xs y = setCounts 0 false (putRegs y thr only false ds xs) := if_pos changed
    rw [new]
    refine ⟨by rw [frame]; rfl, .inr ⟨rfl, rfl, ?_⟩⟩
    rw [counts]
    unfold rewritten
    simp only [after]
    exact ite_self _
  · have same : putRegs y thr only false ds xs = y := by
      simp only [Bool.or_eq_true, bne_iff_ne, not_or, not_not] at changed
      rw [frame, changed.1, changed.2]
    have old : rewritten thr only ds xs y = y := (if_neg changed).trans same
    rw [old]
    rw [same] at after
    exact ⟨rfl, .inl ⟨rfl, rfl, fun n d => by simp [rewritten, after]⟩⟩

end Sys2Proof.Machine
end

section
/-! Words that act on guesses, and words whose replay is their whole group's: what the step of a ready bundle does with them (R28, R29, R245). -/

namespace Sys2Proof.Machine

/-- A core in which a group stands in a slot, and a bundle under a number. -/
def placed (c : Core) (slot bid : Nat) (x : Group) (b : Bundle) : Core :=
  { c with ctx := { c.ctx with groups := tput c.ctx.groups slot x, bundles := tput c.ctx.bundles bid b } }

@[simp] theorem placed_loads (c : Core) (slot bid : Nat) (x : Group) (b : Bundle) : (placed c slot bid x b).loads = c.loads := rfl

theorem groupAt_placed (c : Core) (slot bid : Nat) (x : Group) (b : Bundle) : groupAt (placed c slot bid x b) slot = some x := tfind_tput_same ..

/-- A core with the group of a number changed, and other loads. -/
def regroup (c : Core) (u : Nat) (f : Group → Group) (ls : List Load) : Core := { modOwner c u f with loads := ls }

theorem groupAt_modOwner {c : Core} {slot : Nat} {g : Group} (h : groupAt c slot = some g) (u : Nat) (f : Group → Group) :
    groupAt (modOwner c u f) slot = some (if g.uid = u then f g else g) := by
  simp only [groupAt, modOwner, modUid, tfind_tmap] at h ⊢
  rw [h]; rfl

theorem regroup_placed (c : Core) (slot bid u : Nat) (x : Group) (b : Bundle) (f : Group → Group) (ls : List Load) :
    regroup (placed c slot bid x b) u f ls = placed (regroup c u f ls) slot bid (if x.uid = u then f x else x) b := by
  simp only [regroup, placed, modOwner, modUid, tmap_tput fun g : Group => if g.uid = u then f g else g]

/-- What an action on a guess does to its core. -/
def guessAct (slot : Nat) (thr : Option Nat) (a : Act) (c : Core) : Core :=
  match a with
  | .accept d => (match groupAt c slot with
    | some g => detach c g.uid thr d
    | none => c)
  | .install n => installCame c n
  | _ => c

theorem doAct_onGuess {a : Act} (h : a.onGuess = true) (s : State) (k bid slot : Nat) (m : Word) (thr : Option Nat) (pc : Word) :
    doAct s k bid slot m thr pc a = modCore s k (guessAct slot thr a) := by
  cases a with
  | accept d | install n => rfl
  | _ => cases h

/-- Actions on guesses after a change of their core. -/
theorem foldl_guessActs {acts : List (Option Nat × Act)} (h : ∀ x ∈ acts, x.2.onGuess = true) (k bid slot : Nat) (m pc : Word) (s : State) (E : Core → Core) :
    acts.foldl (fun a x => doAct a k bid slot m x.1 pc x.2) (modCore s k E) = modCore s k fun c => acts.foldl (fun c x => guessAct slot x.1 x.2 c) (E c) := by
  induction acts generalizing E with
  | nil => rfl
  | cons x r ih =>
    rw [List.foldl_cons, doAct_onGuess (h x List.mem_cons_self), modCore_modCore, ih fun y hy => h y (List.mem_cons_of_mem x hy)]
    rfl

/-- Actions on guesses before a change of their core. -/
theorem modCore_guessActs {acts : List (Option Nat × Act)} (h : ∀ x ∈ acts, x.2.onGuess = true) (k bid slot : Nat) (m pc : Word) (s : State) (E : Core → Core) :
    modCore (acts.foldl (fun a x => doAct a k bid slot m x.1 pc x.2) s) k E = modCore s k fun c => E (acts.foldl (fun c x => guessAct slot x.1 x.2 c) c) := by
  cases acts with
  | nil => rfl
  | cons x r =>
    rw [List.foldl_cons, doAct_onGuess (h x List.mem_cons_self), foldl_guessActs fun y hy => h y (List.mem_cons_of_mem x hy), modCore_modCore]
    rfl

/-- An action on a guess changes the loads of its core, and one group in a way that follows a change G. -/
def ActsBeside (G : Group → Group) (slot : Nat) (thr : Option Nat) (a : Act) : Prop :=
  ∀ c g, groupAt c slot = some g → ∃ u f ls, Follows G f ∧ guessAct slot thr a c = regroup c u f ls ∧
    ∀ bid x b, x.uid = g.uid → guessAct slot thr a (placed c slot bid x b) = regroup (placed c slot bid x b) u f ls

/-- Actions on guesses before the effects of a step, or after them: the same core, where the counts of the group are those of the end. -/
theorem guessActs_beside {G : Group → Group} (keeps : ∀ g, (G g).uid = g.uid) {slot bid : Nat} {b : Bundle} {acts : List (Option Nat × Act)}
    (h : ∀ x ∈ acts, ActsBeside G slot x.1 x.2) : ∀ (c : Core) (g : Group), groupAt c slot = some g →
    ∃ g', groupAt (acts.foldl (fun c x => guessAct slot x.1 x.2 c) c) slot = some g' ∧ g'.uid = g.uid ∧
      (g.streak = 0 ∧ g.demoted = false → g'.streak = 0 ∧ g'.demoted = false) ∧
      acts.foldl (fun c x => guessAct slot x.1 x.2 c) (placed c slot bid (setCounts g'.streak g'.demoted (G g)) b) =
        placed (acts.foldl (fun c x => guessAct slot x.1 x.2 c) c) slot bid (setCounts g'.streak g'.demoted (G g')) b := by
  induction acts with
  | nil => exact fun c g hg => ⟨g, hg, rfl, fun h => h, rfl⟩
  | cons a r ih =>
    intro c g hg
    obtain ⟨u, f, ls, follows, alone, beside⟩ := h a List.mem_cons_self c g hg
    let g1 := if g.uid = u then f g else g
    have h1 : groupAt (guessAct slot a.1 a.2 c) slot = some g1 := by
      rw [alone]; exact groupAt_modOwner hg u f
    obtain ⟨g', hg', uid, zero, rest⟩ := ih (fun x hx => h x (List.mem_cons_of_mem a hx)) (guessAct slot a.1 a.2 c) g1 h1
    obtain ⟨uid1, counts⟩ := follows g
    have same : g1.uid = g.uid := by
      by_cases hu : g.uid = u
      · rw [show g1 = f g from if_pos hu, uid1]
      · rw [show g1 = g from if_neg hu]
    have owned : (setCounts g'.streak g'.demoted (G g)).uid = g.uid := keeps g
    have step : (if (setCounts g'.streak g'.demoted (G g)).uid = u then f (setCounts g'.streak g'.demoted (G g)) else setCounts g'.streak g'.demoted (G g)) =
        setCounts g'.streak g'.demoted (G g1) := by
      rw [owned]
      by_cases hu : g.uid = u
      · rw [if_pos hu, show g1 = f g from if_pos hu]
        rcases counts with ⟨_, _, all⟩ | ⟨n, d, reset⟩
        · exact all _ _
        · have ended := zero ⟨by rw [show g1 = f g from if_pos hu, n], by rw [show g1 = f g from if_pos hu, d]⟩
          rw [ended.1, ended.2]; exact reset
      · rw [if_neg hu, show g1 = g from if_neg hu]
    refine ⟨g', hg', uid.trans same, fun z => zero ?_, ?_⟩
    · by_cases hu : g.uid = u
      · rw [show g1 = f g from if_pos hu]
        rcases counts with ⟨n, d, _⟩ | ⟨n, d, _⟩
        · exact ⟨n.trans z.1, d.trans z.2⟩
        · exact ⟨n, d⟩
      · rw [show g1 = g from if_neg hu]; exact z
    · rw [List.foldl_cons, List.foldl_cons, beside bid _ b owned, regroup_placed, step, ← alone]
      exact rest

/-! The two actions on guesses. -/

theorem tmap_id {α : Type} (t : Tab α) : tmap t (fun _ x => x) = t := by
  induction t with
  | nil => rfl
  | cons e r ih => rw [tmap, ih]

theorem modOwner_id (c : Core) (u : Nat) : modOwner c u (fun g => g) = c := by simp only [modOwner, modUid, ite_self, tmap_id]

theorem regroup_id (c : Core) (u : Nat) : regroup c u (fun g => g) c.loads = c := by rw [regroup, modOwner_id]

/-- gaccept's action detaches a load, and finishes its counted operation (R28, R267). -/
theorem detach_regroup (ls : List Load) (u : Nat) (thr : Option Nat) (d : Nat) : ∃ f ls', (f = (fun g => g) ∨ ∃ n, f = fun g => finishOp g n) ∧
    ∀ c, c.loads = ls → detach c u thr d = regroup c u f ls' := by
  cases hl : lfind (fun (l : Load) => l.own == u && l.thr == thr && l.unresolved && l.holds.contains d) ls with
  | none => exact ⟨_, ls, .inl rfl, fun c hc => by simp only [detach, hc, hl]; rw [← hc, regroup_id]⟩
  | some l =>
    cases ho : l.op with
    | none => exact ⟨_, ls.map fun x => if x.num = l.num then { x with detached := true } else x, .inl rfl, fun c hc => by
        simp only [detach, hc, hl, ho, finishFor, modLoad, regroup, modOwner_id]⟩
    | some n => exact ⟨_, ls.map fun x => if x.num = l.num then { x with detached := true } else x, .inr ⟨n, rfl⟩, fun c hc => by
        simp only [detach, hc, hl, ho, finishFor, modLoad, regroup, modOwner]⟩

/-- gdemand's action installs the data of a load in the registers that still hold its guess (R29). -/
theorem installCame_regroup (ls : List Load) (n : Nat) : ∃ u f ls', (f = (fun g => g) ∨ ∃ thr only ds xs, f = rewritten thr only ds xs) ∧
    ∀ c, c.loads = ls → installCame c n = regroup c u f ls' := by
  cases hl : lfind (fun (l : Load) => l.num == n) ls with
  | none => exact ⟨0, _, ls, .inl rfl, fun c hc => by simp only [installCame, loadAt, hc, hl]; rw [← hc, regroup_id]⟩
  | some l =>
    cases hv : l.came with
    | none => exact ⟨0, _, ls, .inl rfl, fun c hc => by simp only [installCame, loadAt, hc, hl, hv]; rw [← hc, regroup_id]⟩
    | some v => exact ⟨l.own, _, _, .inr ⟨l.thr, l.holds, l.dsts, loadWords l.ty v, rfl⟩, fun c hc => by
        simp only [installCame, loadAt, hc, hl, hv, writeRegs, dropLoad, modOwner, regroup]; rfl⟩

theorem accept_beside {G : Group → Group} (h : ∀ n, Function.Commute G fun g => finishOp g n) (slot : Nat) (thr : Option Nat) (d : Nat) :
    ActsBeside G slot thr (.accept d) := by
  intro c g hg
  obtain ⟨f, ls, kind, eq⟩ := detach_regroup c.loads g.uid thr d
  have follows : Follows G f := by
    rcases kind with rfl | ⟨n, rfl⟩
    · exact follows_id G
    · exact follows_finishOp (h n)
  refine ⟨g.uid, f, ls, follows, by simp only [guessAct, hg]; exact eq c rfl, fun bid x b hx => ?_⟩
  simp only [guessAct, groupAt_placed, hx]
  exact eq _ rfl

theorem install_beside {G : Group → Group} (counts : Function.Commute G (setCounts 0 false))
    (h : ∀ thr only ds xs, Function.Commute G fun g => putRegs g thr only false ds xs) (slot : Nat) (thr : Option Nat) (n : Nat) : ActsBeside G slot thr (.install n) := by
  intro c g hg
  obtain ⟨u, f, ls, kind, eq⟩ := installCame_regroup c.loads n
  have follows : Follows G f := by
    rcases kind with rfl | ⟨thr, only, ds, xs, rfl⟩
    · exact follows_id G
    · exact follows_rewritten counts (h thr only ds xs)
  exact ⟨u, f, ls, follows, eq c rfl, fun bid x b _ => eq (placed c slot bid x b) rfl⟩

/-! The step of a ready bundle whose words act on guesses. -/

/-- A WORD ISSUES whose results neither trap, replay, leave nor stall: it acts on guesses, its effects are taken, its other actions follow, and guesses settle. -/
theorem run_proceeds {i : Instr} {plan : Shape → View → Plan} {s : State} {bid slot : Nat} {b : Bundle} {g : Group} {m : Word}
    (r : Ready s bid slot b g m) (h : Issuable i s b slot g m) {rs : List Res} (hp : plan (shape i) (viewAt s b slot g m) = .go rs)
    (q : ∀ x ∈ rs, Proceeds slot x) (hc : overCount g slot rs = []) :
    run i plan s = .next (settleAt s.cur.1 slot (commitActs rs slot m s.cur.1 bid b.pc
      (modCore (commitGuesses rs slot m s.cur.1 bid b.pc s) s.cur.1 (takeEffs rs slot m bid b s.now)))) := by
  rw [run_eq i plan s r.launch, issue_go r h hp hc, commit_proceeds r q]

/-- Effects that overwrite no register, of results without a uniform certainty point, change one group and its bundle. -/
theorem takeEffs_mild {rs : List Res} (h : MildRes rs) {slot : Nat} {m : Word} (sure : sureIn rs slot m = false) {c : Core} {g : Group}
    (hg : groupAt c slot = some g) (bid : Nat) (b : Bundle) (now : Nat) :
    takeEffs rs slot m bid b now c = placed c slot bid (groupAfter rs slot m b.sub.isSome now g) (stayed b [⟨slot, m⟩]) := by
  have kept : ∀ (l : List Res) (c : Core), (∀ r ∈ l, r.effs.filterMap effKills = []) → l.foldl (fun a r => dropHolds a g.uid r) c = c := by
    intro l c hl
    refine List.foldlRecOn (motive := fun a => a = c) l _ rfl fun a ha r hr => ?_
    simp [dropHolds, hl r hr, ha]
  have none : ∀ r ∈ rs.filter (fun r => r.takes slot m), r.effs.filterMap effKills = [] := fun r hr =>
    List.filterMap_eq_nil_iff.mpr fun e he => (Eff.mild_quiet (h r (List.mem_filter.mp hr).1 e he)).1
  simp only [takeEffs, commitEffs, hg, kept _ _ none, cancelAt, ← sureIn.eq_1, sure, Bool.false_eq_true, if_false]
  rfl

/-- Results whose actions are all on guesses: their actions come first, and none follow the effects. -/
theorem guessesFirst {rs : List Res} (h : ∀ r ∈ rs, ∀ a ∈ r.acts, a.onGuess = true) (slot : Nat) (m : Word) (k bid : Nat) (pc : Word) (s : State) :
    commitGuesses rs slot m k bid pc s = (actsOf rs slot m).foldl (fun a x => doAct a k bid slot m x.1 pc x.2) s ∧ commitActs rs slot m k bid pc s = s := by
  simp only [commitGuesses, commitActs, doActs, actsOf]
  generalize hl : rs.filter (fun r => r.takes slot m) = l
  have mine : ∀ r ∈ l, ∀ a ∈ r.acts, a.onGuess = true := fun r hr => h r (List.mem_filter.mp (hl ▸ hr)).1
  clear hl
  induction l generalizing s with
  | nil => exact ⟨rfl, rfl⟩
  | cons r l ih =>
    have first : r.acts.filter Act.onGuess = r.acts := List.filter_eq_self.mpr (mine r List.mem_cons_self)
    have rest : (r.acts.filter fun a => !a.onGuess) = [] := List.filter_eq_nil_iff.mpr fun a ha => by simp [mine r List.mem_cons_self a ha]
    have tail := fun s => ih s fun x hx => mine x (List.mem_cons_of_mem r hx)
    simp only [List.foldl_cons, first, rest, List.foldl_nil, List.flatMap_cons, List.foldl_append, List.foldl_map]
    exact ⟨(tail _).1, (tail s).2⟩

theorem Stepped.setCounts {x g : Group} {th : Nat → Thread → Thread} {sr : Nat → Reg} (h : Stepped x g th sr) (n : Nat) (d : Bool) :
    Stepped (setCounts n d x) g th sr := by
  refine ⟨h.threads, h.sregs, ?_⟩
  have rest := h.rest
  conv_lhs => rw [rest]
  rfl

/-- A WORD PERFORMS ACTIONS ON GUESSES: its results have mild effects, and each action may come beside them. -/
theorem run_guesses {i : Instr} {plan : Shape → View → Plan} {s : State} {bid slot : Nat} {b : Bundle} {g : Group} {m : Word}
    (r : Ready s bid slot b g m) (h : Issuable i s b slot g m) {rs : List Res} (hp : plan (shape i) (viewAt s b slot g m) = .go rs)
    (plain : ∀ x ∈ rs, x.slot = slot ∧ x.trap = none ∧ x.replay = false) (mild : MildRes rs) (sure : sureIn rs slot m = false)
    (acts : ∀ x ∈ rs, ∀ a ∈ x.acts, a.onGuess = true) (beside : ∀ x ∈ actsOf rs slot m, ActsBeside (groupAfter rs slot m b.sub.isSome s.now) slot x.1 x.2)
    {th : Nat → Thread → Thread} {sr : Nat → Reg} (hg : Stepped (groupAfter rs slot m b.sub.isSome s.now g) g th sr) :
    ∃ t, run i plan s = .next t ∧ Performs s t bid slot b g m th sr (actsOf rs slot m) := by
  have still : ∀ a : Act, a.onGuess = true → a.leaves = false ∧ a.stalls = false ∧ ∀ cls, Act.counts cls a = 0 := by
    intro a ha
    cases a with
    | accept d | install n => exact ⟨rfl, rfl, fun _ => rfl⟩
    | _ => cases ha
  have goes : ∀ x ∈ rs, Proceeds slot x := fun x hx => by
    obtain ⟨hs, ht, hr⟩ := plain x hx
    exact ⟨hs, ht, hr, List.any_eq_false.mpr fun a ha => by simp [(still a (acts x hx a ha)).1], List.any_eq_false.mpr fun a ha => by simp [(still a (acts x hx a ha)).2.1]⟩
  have room : overCount g slot rs = [] := overCount_none fun x hx a ha => (still a (acts x hx a ha)).2.2
  have onGuess : ∀ x ∈ actsOf rs slot m, x.2.onGuess = true := by
    intro x hx
    obtain ⟨y, hy, hx⟩ := List.mem_flatMap.mp hx
    obtain ⟨a, ha, rfl⟩ := List.mem_map.mp hx
    exact acts y (List.mem_filter.mp hy).1 a ha
  let G := groupAfter rs slot m b.sub.isSome s.now
  obtain ⟨g', hg', uid, _, same⟩ := guessActs_beside (fun y => (groupAfter_keeps mild slot m b.sub.isSome s.now y).1) (bid := bid) (b := stayed b [⟨slot, m⟩])
    beside s.core g r.group
  have counts := groupAfter_keeps mild slot m b.sub.isSome s.now g'
  have after : setCounts g'.streak g'.demoted (G g') = G g' := by
    rw [← counts.2.1, ← counts.2.2]; rfl
  refine ⟨_, run_proceeds r h hp goes room, modCore s s.cur.1 fun c => placed c slot bid (setCounts g'.streak g'.demoted (G g)) (stayed b [⟨slot, m⟩]),
    ⟨setCounts g'.streak g'.demoted (G g), s.core.loads, hg.setCounts _ _, rfl, rfl⟩, ?_⟩
  rw [(guessesFirst acts slot m s.cur.1 bid b.pc s).1, (guessesFirst acts slot m s.cur.1 bid b.pc _).2, modCore_guessActs onGuess, foldl_guessActs onGuess]
  refine congrArg (fun c => settleAt s.cur.1 slot (setCore s s.cur.1 c)) ?_
  show takeEffs rs slot m bid b s.now (List.foldl _ s.core _) = List.foldl _ (placed s.core _ _ _ _) _
  rw [takeEffs_mild mild sure hg', same, after]

end Sys2Proof.Machine
end

section
/-! gaccept and gdemand (R29, R142, R143). -/

namespace Sys2Proof.Machine

/-! What the effects on guesses make of threads and scalar registers. -/

theorem sreg_tmod (g : Group) (d n : Nat) : sreg { g with s := tmod g.s d fun r => { r with pen := false } } n = if n = d then ⟨(sreg g d).val, false⟩ else sreg g n := by
  by_cases h0 : n = 0
  · subst h0
    by_cases hd : 0 = d
    · subst hd; simp [sreg]
    · simp [sreg, hd]
  · simp only [sreg, h0, if_false, tget, tfind_tmod]
    by_cases h : n = d
    · subst h
      simp only [if_true, h0, if_false]
      cases tfind g.s n <;> rfl
    · simp [h]

/-- A thread whose register d holds a guess: live, with its penumbra bit (R142, R143). -/
def holdsGuess (d : Nat) (x : Thread) : Bool := (vreg x d).pen && !(vreg x d).dead

/-- A word of each thread whose effects are mild and whose actions are on guesses. -/
theorem each_guesses {i : Instr} {plan : Shape → View → Plan} {s : State} {bid slot : Nat} {b : Bundle} {g : Group} {m : Word}
    (r : Ready s bid slot b g m) (h : Issuable i s b slot g m) {es : Nat → List Eff} {as : Nat → List Act}
    (hp : plan (shape i) (viewAt s b slot g m) = .go ((members m).map fun j => ⟨slot, some j, es j, as j, none, false⟩))
    (mild : ∀ j, ∀ e ∈ es j, e.mild (some j) = true) (acts : ∀ j, ∀ a ∈ as j, a.onGuess = true)
    (beside : ∀ j, ∀ a ∈ as j, ActsBeside (groupAfter ((members m).map fun j => ⟨slot, some j, es j, as j, none, false⟩) slot m b.sub.isSome s.now) slot (some j) a) :
    ∃ t, run i plan s = .next t ∧
      Performs s t bid slot b g m (inMask m fun j => effsThread s.now (es j)) (sreg g) ((members m).flatMap fun j => (as j).map fun a => (some j, a)) := by
  have onThread : ∀ j, ∀ e ∈ es j, e.onThread = true := fun j e he => by
    rcases Eff.mild_cases (mild j e he) with ⟨_, _, rfl | rfl | ⟨d, rfl⟩⟩ | ⟨none, _⟩
    · rfl
    · rfl
    · rfl
    · cases none
  have each : ∀ {P : Res → Prop}, (∀ j, P ⟨slot, some j, es j, as j, none, false⟩) →
      ∀ x ∈ (members m).map fun j => (⟨slot, some j, es j, as j, none, false⟩ : Res), P x := fun all x hx => by
    obtain ⟨j, _, rfl⟩ := List.mem_map.mp hx
    exact all j
  rw [← actsOf_threads slot m es as]
  refine run_guesses r h hp (each fun _ => ⟨rfl, rfl, rfl⟩) (each mild) (sureIn_threads slot m es as slot _) (each acts) ?_
    (stepped_threads' r.lanes es as onThread _ _)
  rw [actsOf_threads]
  intro x hx
  obtain ⟨j, _, hx⟩ := List.mem_flatMap.mp hx
  obtain ⟨a, ha, rfl⟩ := List.mem_map.mp hx
  exact beside j a ha

theorem takes_group (slot : Nat) {m : Word} (some : m ≠ 0) (es : List Eff) (as : List Act) : (⟨slot, none, es, as, none, false⟩ : Res).takes slot m = true := by
  simp only [Res.takes, beq_self_eq_true, Bool.true_and]; exact members_ne_nil some

/-- A word that runs once for its group, whose effects are mild and whose actions are on guesses. -/
theorem once_guesses {i : Instr} {plan : Shape → View → Plan} {s : State} {bid slot : Nat} {b : Bundle} {g : Group} {m : Word}
    (r : Ready s bid slot b g m) (h : Issuable i s b slot g m) {es : List Eff} {as : List Act}
    (hp : plan (shape i) (viewAt s b slot g m) = .go [⟨slot, none, es, as, none, false⟩])
    (mild : ∀ e ∈ es, e.mild none = true) (acts : ∀ a ∈ as, a.onGuess = true)
    (beside : ∀ a ∈ as, ActsBeside (groupAfter [⟨slot, none, es, as, none, false⟩] slot m b.sub.isSome s.now) slot none a)
    {sr : Nat → Reg} (hs : Stepped (groupAfter [⟨slot, none, es, as, none, false⟩] slot m b.sub.isSome s.now g) g (fun _ x => x) sr) :
    ∃ t, run i plan s = .next t ∧ Performs s t bid slot b g m (fun _ x => x) sr (as.map fun a => (none, a)) := by
  have listed : actsOf [⟨slot, none, es, as, none, false⟩] slot m = as.map fun a => (none, a) := by simp [actsOf, takes_group slot r.some]
  have sure : sureIn [⟨slot, none, es, as, none, false⟩] slot m = false := by
    refine sureIn_none (fun x hx => ?_) slot m
    rw [List.mem_singleton.mp hx, Res.sureS, Bool.and_eq_false_iff]
    refine .inr (List.any_eq_false.mpr fun e he => ?_)
    rcases Eff.mild_cases (mild e he) with ⟨_, none, _⟩ | ⟨_, d, rfl⟩
    · cases none
    · simp
  rw [← listed]
  refine run_guesses r h hp (by simp) (by simpa [MildRes] using mild) sure (by simpa using acts) ?_ hs
  rw [listed]
  intro x hx
  obtain ⟨a, ha, rfl⟩ := List.mem_map.mp hx
  exact beside a ha

/-- One result of the group with the penumbra bit of a scalar register cleared, or without effects. -/
theorem stepped_clearPenS {slot : Nat} {m : Word} (some : m ≠ 0) (g : Group) (d : Nat) (as : List Act) (handler : Bool) (now : Nat) :
    Stepped (groupAfter [⟨slot, none, [.clearPenS d], as, none, false⟩] slot m handler now g) g (fun _ x => x) (fun n => if n = d then ⟨(sreg g d).val, false⟩ else sreg g n) := by
  rw [groupAfter, List.filter_cons, if_pos (takes_group slot some _ as)]
  exact stepped_counters false handler now (fun _ _ => rfl) (sreg_tmod g d) rfl

theorem stepped_noEffs {slot : Nat} {m : Word} (some : m ≠ 0) (g : Group) (as : List Act) (handler : Bool) (now : Nat) :
    Stepped (groupAfter [⟨slot, none, [], as, none, false⟩] slot m handler now g) g (fun _ x => x) (sreg g) := by
  rw [groupAfter, List.filter_cons, if_pos (takes_group slot some _ as)]
  exact stepped_counters false handler now (fun _ _ => rfl) (fun _ => rfl) rfl

theorem flatMap_if {α β : Type} (p : α → Bool) (f : α → β) (l : List α) : (l.flatMap fun x => if p x then [f x] else []) = (l.filter p).map f := by
  induction l with
  | nil => rfl
  | cons x r ih => cases h : p x <;> simp [List.flatMap_cons, h, ih]

/-- What a performed word says of its group may be said in another way that agrees on its threads and registers. -/
theorem Performs.congr {s t : State} {bid slot : Nat} {b : Bundle} {g : Group} {m : Word} {th th' : Nat → Thread → Thread} {sr sr' : Nat → Reg}
    {acts acts' : List (Option Nat × Act)} (h : Performs s t bid slot b g m th sr acts) (ht : ∀ j, th j (threadAt g j) = th' j (threadAt g j))
    (hs : ∀ n, sr n = sr' n) (ha : acts = acts') : Performs s t bid slot b g m th' sr' acts' := by
  obtain ⟨s1, ⟨g1, ls, stepped, loads, eq⟩, done⟩ := h
  exact ⟨s1, ⟨g1, ls, ⟨fun j hj => (stepped.threads j hj).trans (ht j), fun n => (stepped.sregs n).trans (hs n), stepped.rest⟩, loads, eq⟩, ha ▸ done⟩

/-! gaccept. -/

theorem exec_gaccept_threads {o : OpUx} (hu : o.u = false) (s : State) : exec (.gaccept o) s = run (.gaccept o) (fun sh => eachThread sh fun _ _ t =>
    if holdsGuess o.x.toNat t then .go [.clearPen o.x.toNat] [.accept o.x.toNat] else .go [] []) s := by
  show execGaccept o s = _
  simp only [execGaccept, hu, Bool.false_eq_true, if_false]
  rfl

/-- gaccept's plan for its group, on a scalar register. -/
def acceptOnce (d : Nat) (v : View) : Plan :=
  .go [⟨v.slot, none, if (sreg v.g d).pen then [.clearPenS d] else [], if (sreg v.g d).pen then [.accept d] else [], none, false⟩]

theorem exec_gaccept_group {o : OpUx} (hu : o.u = true) (s : State) : exec (.gaccept o) s = run (.gaccept o) (fun _ => acceptOnce o.x.toNat) s := by
  show execGaccept o s = _
  simp only [execGaccept, hu, if_true]
  rfl

theorem gaccept_threads {o : OpUx} (hu : o.u = false) {s : State} {bid slot : Nat} {b : Bundle} {g : Group} {m : Word} (r : Ready s bid slot b g m)
    (hi : Issuable (.gaccept o) s b slot g m) : ∃ t, exec (.gaccept o) s = .next t ∧ Performs s t bid slot b g m
      (inMask m fun _ x => if holdsGuess o.x.toNat x then { x with v := tmod x.v o.x.toNat fun r => { r with pen := false } } else x) (sreg g)
      (((members m).filter fun j => holdsGuess o.x.toNat (threadAt g j)).map fun j => (some j, .accept o.x.toNat)) := by
  let held := fun j => holdsGuess o.x.toNat (threadAt g j)
  have mild : ∀ j, ∀ e ∈ (if held j then [Eff.clearPen o.x.toNat] else []), e.mild (some j) = true := fun j e he => by
    cases h : held j <;> simp_all [Eff.mild]
  have accepts : ∀ j, ∀ a ∈ (if held j then [Act.accept o.x.toNat] else []), a = .accept o.x.toNat := fun j a ha => by
    cases h : held j <;> simp_all
  have plans := eachThread_acts (f := fun _ _ t => if holdsGuess o.x.toNat t then .go [.clearPen o.x.toNat] [.accept o.x.toNat] else .go [] [])
    (v := viewAt s b slot g m) (es := fun j => if held j then [.clearPen o.x.toNat] else []) (as := fun j => if held j then [.accept o.x.toNat] else [])
    (unchecked g m (sh := shape (.gaccept o)) rfl) fun j _ => by
      show (if held j = true then _ else _) = _
      cases held j <;> rfl
  have finishes := groupAfter_finishOp (rs := (members m).map fun j => ⟨slot, some j, if held j then [.clearPen o.x.toNat] else [], if held j then [.accept o.x.toNat] else [], none, false⟩)
    (fun x hx e he => by obtain ⟨j, _, rfl⟩ := List.mem_map.mp hx; exact mild j e he) slot m b.sub.isSome s.now
  rw [exec_gaccept_threads hu]
  obtain ⟨t, ht, done⟩ := each_guesses (plan := fun sh => eachThread sh _) r hi plans mild (fun j a ha => by rw [accepts j a ha]; rfl) fun j a ha => by
    rw [accepts j a ha]; exact accept_beside finishes slot _ _
  refine ⟨t, ht, done.congr (fun j => inMask_congr ?_) (fun _ => rfl) ?_⟩
  · show effsThread s.now (if held j then _ else _) _ = if held j = true then _ else _
    cases held j <;> rfl
  · rw [← flatMap_if]
    refine List.flatMap_congr fun j _ => ?_
    show List.map _ (if held j then _ else _) = if held j = true then _ else _
    cases held j <;> rfl

theorem gaccept_group {o : OpUx} (hu : o.u = true) {s : State} {bid slot : Nat} {b : Bundle} {g : Group} {m : Word} (r : Ready s bid slot b g m)
    (hi : Issuable (.gaccept o) s b slot g m) : ∃ t, exec (.gaccept o) s = .next t ∧ Performs s t bid slot b g m (fun _ x => x)
      (fun n => if n = o.x.toNat then ⟨(sreg g o.x.toNat).val, false⟩ else sreg g n) (if (sreg g o.x.toNat).pen then [(none, .accept o.x.toNat)] else []) := by
  rw [exec_gaccept_group hu]
  cases hp : (sreg g o.x.toNat).pen with
  | false =>
    obtain ⟨t, ht, done⟩ := once_guesses r hi (plan := fun _ => acceptOnce o.x.toNat) (es := []) (as := []) (by simp [acceptOnce, viewAt, hp]) (by simp) (by simp) (by simp) (stepped_noEffs r.some g _ _ _)
    refine ⟨t, ht, done.congr (fun _ => rfl) (fun n => ?_) rfl⟩
    split
    · next h => rw [h, ← hp]
    · rfl
  | true =>
    have mild : MildRes [⟨slot, none, [.clearPenS o.x.toNat], [.accept o.x.toNat], none, false⟩] := by simp [MildRes, Eff.mild]
    exact once_guesses r hi (plan := fun _ => acceptOnce o.x.toNat) (es := [.clearPenS o.x.toNat]) (as := [.accept o.x.toNat]) (by simp [acceptOnce, viewAt, hp]) (by simp [Eff.mild]) (by simp [Act.onGuess])
      (fun a ha => by rw [List.mem_singleton.mp ha]; exact accept_beside (groupAfter_finishOp mild slot m _ _) slot _ _) (stepped_clearPenS r.some g _ _ _ _)

/-! gdemand. -/

theorem lfind_some {α : Type} {p : α → Bool} {l : List α} {x : α} (h : lfind p l = some x) : x ∈ l ∧ p x = true := by
  induction l with
  | nil => cases h
  | cons y r ih =>
    simp only [lfind] at h
    split at h
    · next hp => exact Option.some.inj h ▸ ⟨List.mem_cons_self, hp⟩
    · exact ⟨List.mem_cons_of_mem y (ih h).1, (ih h).2⟩

/-- What finding a load whose guess a register holds says of it. -/
theorem heldGuess_some {c : Core} {u d : Nat} {thr : Option Nat} {l : Load} (h : heldGuess c u thr d = some l) :
    l ∈ c.loads ∧ l.own = u ∧ l.thr = thr ∧ l.guessed = true := by
  obtain ⟨listed, found⟩ := lfind_some h
  simp only [Bool.and_eq_true, beq_iff_eq] at found
  obtain ⟨⟨⟨own, thr⟩, guessed⟩, _⟩ := found
  exact ⟨listed, own, thr, guessed⟩

/-- The data of a load whose guess a thread's register holds have come, where no guess of the thread is unresolved. -/
theorem came_of_resolved {c : Core} {g : Group} {j d : Nat} (calm : unresolved c g j = false) {l : Load} (h : heldGuess c g.uid (some j) d = some l) : l.came.isSome = true := by
  obtain ⟨listed, own, thr, guessed⟩ := heldGuess_some h
  have one := List.any_eq_false.mp calm l listed
  cases hc : l.came <;> simp_all [Load.unresolved, Load.concerns]

theorem came_of_resolvedS {c : Core} {g : Group} {d : Nat} (calm : unresolvedS c g = false) {l : Load} (h : heldGuess c g.uid none d = some l) : l.came.isSome = true := by
  obtain ⟨listed, own, thr, guessed⟩ := heldGuess_some h
  have one := List.any_eq_false.mp calm l listed
  cases hc : l.came <;> simp_all [Load.unresolved]

/-- gdemand's plan in a thread. -/
def demandEach (sh : Shape) (d : Nat) (v : View) (i : Nat) (t : Thread) : TPlan :=
  if (vreg t d).dead || !(vreg t d).pen then .go [] []
  else match heldGuess v.c v.g.uid (some i) d with
    | some l => demands sh v l
    | none => certainly v i t true (.go [] [])

theorem exec_gdemand_threads {o : OpUx} (hu : o.u = false) (s : State) :
    exec (.gdemand o) s = run (.gdemand o) (fun sh => eachThread sh (demandEach sh o.x.toNat)) s := by
  show execGdemand o s = _
  simp only [execGdemand, hu, Bool.false_eq_true, if_false]
  rfl

/-- What gdemand does in a thread whose guesses have no data left to wait for: it installs, or passes a certainty point. -/
def demandEffs (c : Core) (g : Group) (d j : Nat) : List Eff := if holdsGuess d (threadAt g j) && (heldGuess c g.uid (some j) d).isNone then [.certain] else []
def demandActs (c : Core) (g : Group) (d j : Nat) : List Act := if holdsGuess d (threadAt g j) then ((heldGuess c g.uid (some j) d).map fun l => .install l.num).toList else []

theorem demandEach_goes {sh : Shape} {d : Nat} {v : View} {j : Nat} (calm : unresolved v.c v.g j = false ∧ (threadAt v.g j).rf = false) :
    demandEach sh d v j (threadAt v.g j) = .go (demandEffs v.c v.g d j) (demandActs v.c v.g d j) := by
  obtain ⟨quiet, kept⟩ := calm
  have held : ((vreg (threadAt v.g j) d).dead || !(vreg (threadAt v.g j) d).pen) = !holdsGuess d (threadAt v.g j) := by simp [holdsGuess, Bool.or_comm]
  unfold demandEach demandEffs demandActs
  rw [held]
  cases holdsGuess d (threadAt v.g j) with
  | false => rfl
  | true =>
    cases hl : heldGuess v.c v.g.uid (some j) d with
    | none => simp [certainly, quiet, kept, TPlan.first]
    | some l => simp [demands, came_of_resolved quiet hl]

theorem gdemand_threads {o : OpUx} (hu : o.u = false) {s : State} {bid slot : Nat} {b : Bundle} {g : Group} {m : Word} (r : Ready s bid slot b g m)
    (hi : Issuable (.gdemand o) s b slot g m) (calm : Calm s.core g m) : ∃ t, exec (.gdemand o) s = .next t ∧ Performs s t bid slot b g m
      (inMask m fun j x => if holdsGuess o.x.toNat x && (heldGuess s.core g.uid (some j) o.x.toNat).isNone then pastCertainty true x else x) (sreg g)
      ((members m).filterMap fun j => if holdsGuess o.x.toNat (threadAt g j) then (heldGuess s.core g.uid (some j) o.x.toNat).map fun l => (some j, .install l.num) else none) := by
  let d := o.x.toNat
  have certain : CertainRes ((members m).map fun j => ⟨slot, some j, demandEffs s.core g d j, demandActs s.core g d j, none, false⟩) := by
    intro x hx e he
    obtain ⟨j, _, rfl⟩ := List.mem_map.mp hx
    refine ⟨j, rfl, .inl ?_⟩
    dsimp only [demandEffs] at he
    split at he <;> simp_all
  have mild : ∀ j, ∀ e ∈ demandEffs s.core g d j, e.mild (some j) = true := fun j e he => by
    unfold demandEffs at he
    split at he <;> simp_all [Eff.mild]
  have installs : ∀ j, ∀ a ∈ demandActs s.core g d j, ∃ n, a = .install n := fun j a ha => by
    unfold demandActs at ha
    split at ha
    · obtain ⟨l, _, rfl⟩ := Option.map_eq_some_iff.mp (Option.mem_toList.mp ha); exact ⟨_, rfl⟩
    · cases ha
  have plans := eachThread_acts (f := demandEach (shape (.gdemand o)) d) (v := viewAt s b slot g m) (es := demandEffs s.core g d) (as := demandActs s.core g d)
    (unchecked g m (sh := shape (.gdemand o)) rfl) fun j hj => demandEach_goes (calm j hj)
  rw [exec_gdemand_threads hu]
  obtain ⟨t, ht, done⟩ := each_guesses (plan := fun sh => eachThread sh (demandEach sh d)) r hi plans mild (fun j a ha => by obtain ⟨n, rfl⟩ := installs j a ha; rfl)
    fun j a ha => by
      obtain ⟨n, rfl⟩ := installs j a ha
      exact install_beside (groupAfter_setCounts certain.mild slot m _ _ 0 false) (fun thr only ds xs => groupAfter_putRegs certain slot m _ _ thr only ds xs) slot _ n
  refine ⟨t, ht, done.congr (fun j => inMask_congr ?_) (fun _ => rfl) ?_⟩
  · show effsThread s.now (if (holdsGuess d (threadAt g j) && _) = true then _ else _) _ = if (holdsGuess d (threadAt g j) && _) = true then _ else _
    split <;> rfl
  · rw [List.filterMap_eq_flatMap_toList]
    refine List.flatMap_congr fun j _ => ?_
    show (demandActs s.core g d j).map _ = Option.toList (if holdsGuess d (threadAt g j) = true then (heldGuess s.core g.uid (some j) d).map _ else none)
    unfold demandActs
    cases holdsGuess d (threadAt g j) with
    | false => rfl
    | true => cases heldGuess s.core g.uid (some j) d <;> rfl

/-- A WORD COMPLETES whose results neither act, trap nor replay, also where it is a uniform certainty point: what it makes of its group is all that it does, but for
row guess flags (R245, R287). -/
theorem run_completes_sure {i : Instr} {plan : Shape → View → Plan} {s : State} {bid slot : Nat} {b : Bundle} {g : Group} {m : Word}
    (r : Ready s bid slot b g m) (h : Issuable i s b slot g m) {rs : List Res} (hp : plan (shape i) (viewAt s b slot g m) = .go rs)
    (q : ∀ x ∈ rs, Proceeds slot x ∧ x.acts = []) {th : Nat → Thread → Thread} {sr : Nat → Reg} {g1 : Group} (hg : Stepped g1 g th sr)
    (flags : groupAfter rs slot m b.sub.isSome s.now g = { g1 with tiles := (groupAfter rs slot m b.sub.isSome s.now g).tiles })
    (cells : ∀ n, (tfind (groupAfter rs slot m b.sub.isSome s.now g).tiles n).map (fun t => (t.place, t.cells, t.fresh)) = (tfind g.tiles n).map fun t => (t.place, t.cells, t.fresh)) :
    ∃ t, run i plan s = .next t ∧ Completes s t bid slot b g m th sr := by
  have noActs : ∀ sel k pc a, doActs sel rs slot m k bid pc a = a := fun sel k pc a => by
    rw [doActs]
    refine List.foldlRecOn (motive := fun x => x = a) _ _ rfl fun x hx y hy => ?_
    rw [(q y (List.mem_filter.mp hy).1).2, hx]; rfl
  have room : overCount g slot rs = [] := overCount_none fun x hx a ha => by rw [(q x hx).2] at ha; cases ha
  have uid : (groupAfter rs slot m b.sub.isSome s.now g).uid = g.uid := by rw [flags, hg.rest]
  obtain ⟨ls, effs, loads⟩ := takeEffs_core r.group rs m bid b s.now uid
  obtain ⟨q0, q1, en, queues, hq0, hq1⟩ : ∃ q0 q1 en, (if sureIn rs slot m then s.core.ctx.cancelRg g.uid else s.core.ctx) = { s.core.ctx with mq0 := q0, mq1 := q1, engine := en } ∧
      q0.map (fun w => (w.own, w.slot, w.tile)) = s.core.ctx.mq0.map (fun w => (w.own, w.slot, w.tile)) ∧
      q1.map (fun w => (w.own, w.slot, w.tile)) = s.core.ctx.mq1.map (fun w => (w.own, w.slot, w.tile)) := by
    cases sureIn rs slot m
    · exact ⟨_, _, _, rfl, rfl, rfl⟩
    · exact Ctx.cancelRg_keeps g.uid s.core.ctx
  rw [queues] at effs
  generalize hx : groupAfter rs slot m b.sub.isSome s.now g = x at *
  generalize hc : takeEffs rs slot m bid b s.now s.core = c at effs
  have here : groupAt c slot = some x := by rw [effs]; simp [groupAt]
  obtain ⟨g2, found, settled, others, m0, m1, rest⟩ := settle_group here (by rw [effs]; exact only_tput r.rising r.only uid) (by rw [effs, uid]; exact r.others)
  have core : coreAt (settleAt s.cur.1 slot (modCore s s.cur.1 (takeEffs rs slot m bid b s.now))) s.cur.1 = settle c x.uid := by
    rw [settleAt, modCore_modCore, coreAt_modCore_same, show coreAt s s.cur.1 = s.core from rfl, hc, settleIn, here]
  refine ⟨_, by rw [run_proceeds r h hp (fun x hx => (q x hx).1) room, commitGuesses, commitActs, noActs, noActs], ⟨?_, fun j hj => ?_⟩, ?_, ?_, ?_⟩
  · rfl
  · rw [settleAt, modCore_modCore, coreAt_modCore_ne s hj]
  · rw [core]
    refine ⟨fun p hp => ?_, fun p hp => ?_, ?_, ⟨?_, ?_⟩, ?_⟩
    · rw [others p hp, effs]; simp [groupAt, tfind_tput_ne _ hp]
    · rw [bundleAt, rest, effs]; simp [bundleAt, tfind_tput_ne _ hp]
    · rw [rest, effs]; exact loads
    · rw [m0, effs]; exact hq0
    · rw [m1, effs]; exact hq1
    · rw [rest, effs]
  · rw [core, bundleAt, rest, effs]; simp
  · rw [core]
    refine ⟨g1, g2, hg, ⟨fun j => ?_, fun n => ?_, fun n => ?_, ?_⟩, found⟩
    · have := settled.threads j; rw [flags] at this; exact this
    · have := settled.sregs n; rw [flags] at this; exact this
    · rw [settled.cells n, cells n, hg.rest]
    · rw [settled.rest, flags]

/-! A uniform certainty point that goes ahead (R245). -/

/-- The results of a uniform certainty point that goes ahead, before those of its word. -/
def certainRes (v : View) : List Res :=
  jointRes v :: (v.present.map fun i => (i, threadAt v.g i)).map (fun x => ⟨v.slot, some x.1, [.certain], [], none, false⟩) ++ [⟨v.slot, none, [.certain], [], none, false⟩, ⟨v.slot, none, [], [], none, false⟩]

theorem uniformly_goes {v : View} (calm : Calm v.c v.g v.mask) (quiet : unresolvedS v.c v.g = false) : uniformly v true (.go [] []) = .go (certainRes v) := by
  have resolved : ((v.present.map fun i => (i, threadAt v.g i)).any fun x => unresolved v.c v.g x.1) = false := by
    rw [List.any_eq_false]
    intro x hx
    obtain ⟨j, hj, rfl⟩ := List.mem_map.mp hx
    simp [(calm j hj).1]
  have kept : ((v.present.map fun i => (i, threadAt v.g i)).any fun x => x.2.rf) = false := by
    rw [List.any_eq_false]
    intro x hx
    obtain ⟨j, hj, rfl⟩ := List.mem_map.mp hx
    simp [(calm j hj).2]
  simp only [uniformly, Bool.not_true, Bool.false_and, Bool.false_eq_true, if_false, quiet, resolved, kept, Bool.or_false, TPlan.once]
  rfl

theorem certainRes_proceeds (v : View) : ∀ x ∈ certainRes v, Proceeds v.slot x ∧ x.acts = [] := by
  intro x hx
  simp only [certainRes, List.map_map, List.cons_append, List.mem_cons, List.mem_append, List.mem_map, List.not_mem_nil, or_false] at hx
  rcases hx with rfl | ⟨j, _, rfl⟩ | rfl | rfl <;> exact ⟨⟨rfl, rfl, rfl, rfl, rfl⟩, rfl⟩

/-- The threads of a group of which the present ones have passed a certainty point. -/
def certainThreads (m : Word) (now : Nat) (g : Group) : List Thread := ((members m).foldl (fun a i => modThread a i (effThread now .certain)) g).threads

/-- The group as a uniform certainty point leaves it: the threads pass the point, and the s penumbra bits and row guess flags clear. -/
def certainGroup (m : Word) (now : Nat) (g : Group) : Group :=
  { g with threads := certainThreads m now g, s := tmap g.s fun _ r => { r with pen := false }, tiles := tmap g.tiles fun _ t => { t with rg := 0 } }

theorem certainGroup_folded (m : Word) (now : Nat) (g : Group) :
    effGroup .certain ((members m).foldl (fun a i => modThread a i (effThread now .certain)) g) = certainGroup m now g := by
  unfold certainGroup certainThreads
  obtain ⟨_, frame, _⟩ := foldl_modThread (fun _ => effThread now .certain) (members m) g (nodup_members m)
  generalize (members m).foldl (fun a i => modThread a i (effThread now .certain)) g = x at frame
  rw [frame]
  rfl

theorem certainThreads_passed (m : Word) (now : Nat) {g : Group} {j : Nat} (h : j < g.threads.length) :
    lget Thread.start (certainThreads m now g) j = inMask m (fun _ x => pastCertainty true x) j (threadAt g j) := by
  obtain ⟨threads, _, _⟩ := foldl_modThread (fun _ => effThread now .certain) (members m) g (nodup_members m)
  refine (threads j h).trans ?_
  unfold inMask
  by_cases hb : hasBit m j = true
  · rw [if_pos ((mem_members m j).mpr ⟨BitVec.lt_of_getLsbD hb, hb⟩), if_pos hb]; rfl
  · rw [if_neg fun hj => hb ((mem_members m j).mp hj).2, if_neg hb]

theorem groupAfter_certainRes {v : View} (some : v.mask ≠ 0) (handler : Bool) (now : Nat) :
    groupAfter (certainRes v) v.slot v.mask handler now v.g = restartDog handler now (certainGroup v.mask now v.g) := by
  have taken : (certainRes v).filter (fun r => r.takes v.slot v.mask) = certainRes v := by
    rw [List.filter_eq_self]
    intro x hx
    simp only [certainRes, List.map_map, List.cons_append, List.mem_cons, List.mem_append, List.mem_map, List.not_mem_nil, or_false] at hx
    rcases hx with rfl | ⟨j, hj, rfl⟩ | rfl | rfl
    · exact takes_group v.slot some _ []
    · simp [Res.takes, ((mem_members v.mask j).mp hj).2]
    · exact takes_group v.slot some _ []
    · exact takes_group v.slot some _ []
  have still : ((certainRes v).any fun r => r.effs.any (effChanges v.g r.thr)) = false := by
    rw [List.any_eq_false]
    intro x hx
    simp only [certainRes, List.map_map, List.cons_append, List.mem_cons, List.mem_append, List.mem_map, List.not_mem_nil, or_false] at hx
    rcases hx with rfl | ⟨j, hj, rfl⟩ | rfl | rfl <;> exact Bool.false_ne_true
  have folded : (certainRes v).foldl (effsIn now) v.g = certainGroup v.mask now v.g := by
    simp only [certainRes, List.cons_append, List.foldl_cons, List.foldl_append, List.foldl_map, List.foldl_nil]
    exact certainGroup_folded v.mask now v.g
  simp only [groupAfter, taken, still, folded, Bool.false_eq_true, if_false, restartDog]

/-- A UNIFORM CERTAINTY POINT ALONE COMPLETES: each present thread passes it, and the group's s penumbra bits clear. -/
theorem certain_completes {i : Instr} {plan : Shape → View → Plan} {s : State} {bid slot : Nat} {b : Bundle} {g : Group} {m : Word}
    (r : Ready s bid slot b g m) (h : Issuable i s b slot g m) (hp : plan (shape i) (viewAt s b slot g m) = .go (certainRes (viewAt s b slot g m))) :
    ∃ t, run i plan s = .next t ∧ Completes s t bid slot b g m (inMask m fun _ x => pastCertainty true x) (fun n => ⟨(sreg g n).val, false⟩) := by
  have after : groupAfter (certainRes (viewAt s b slot g m)) slot m b.sub.isSome s.now g = restartDog b.sub.isSome s.now (certainGroup m s.now g) :=
    groupAfter_certainRes (v := viewAt s b slot g m) r.some _ _
  have stepped : Stepped (restartDog b.sub.isSome s.now { certainGroup m s.now g with tiles := g.tiles }) g (inMask m fun _ x => pastCertainty true x)
      (fun n => ⟨(sreg g n).val, false⟩) :=
    stepped_counters false b.sub.isSome s.now (fun j hj => certainThreads_passed m s.now (by rw [r.lanes]; exact hj)) (sreg_clear g) rfl
  refine run_completes_sure r h hp (certainRes_proceeds _) stepped ?_ fun n => ?_
  · rw [after]
    cases b.sub.isSome <;> rfl
  · rw [after]
    have cleared : (restartDog b.sub.isSome s.now (certainGroup m s.now g)).tiles = tmap g.tiles fun _ t => { t with rg := 0 } := by cases b.sub.isSome <;> rfl
    rw [cleared, tfind_tmap]
    cases tfind g.tiles n <;> rfl

/-- gdemand's plan for its group, on a scalar register. -/
def demandOnce (sh : Shape) (d : Nat) (v : View) : Plan :=
  if !(sreg v.g d).pen then .go []
  else match heldGuess v.c v.g.uid none d with
    | some l => (demands sh v l).once v
    | none => uniformly v true (.go [] [])

theorem exec_gdemand_group {o : OpUx} (hu : o.u = true) (s : State) : exec (.gdemand o) s = run (.gdemand o) (fun sh => demandOnce sh o.x.toNat) s := by
  show execGdemand o s = _
  simp only [execGdemand, hu, if_true]
  rfl

theorem gdemand_group {o : OpUx} (hu : o.u = true) {s : State} {bid slot : Nat} {b : Bundle} {g : Group} {m : Word} (r : Ready s bid slot b g m)
    (hi : Issuable (.gdemand o) s b slot g m) (calm : Calm s.core g m) (quiet : unresolvedS s.core g = false) : ∃ t, exec (.gdemand o) s = .next t ∧
      match (sreg g o.x.toNat).pen, heldGuess s.core g.uid none o.x.toNat with
      | false, _ => Completes s t bid slot b g m (fun _ x => x) (sreg g)
      | true, none => Completes s t bid slot b g m (inMask m fun _ x => pastCertainty true x) (fun n => ⟨(sreg g n).val, false⟩)
      | true, some l => Performs s t bid slot b g m (fun _ x => x) (sreg g) [(none, .install l.num)] := by
  rw [exec_gdemand_group hu]
  cases hp : (sreg g o.x.toNat).pen with
  | false =>
    exact empty_completes (plan := fun sh => demandOnce sh o.x.toNat) r hi (by simp [demandOnce, viewAt, hp])
  | true =>
    cases hl : heldGuess s.core g.uid none o.x.toNat with
    | none => exact certain_completes (plan := fun sh => demandOnce sh o.x.toNat) r hi (by
        rw [← uniformly_goes (v := viewAt s b slot g m) calm quiet]
        simp [demandOnce, viewAt, hp, hl])
    | some l =>
      have certain : CertainRes [⟨slot, none, [], [.install l.num], none, false⟩] := by simp [CertainRes]
      exact once_guesses (plan := fun sh => demandOnce sh o.x.toNat) r hi (es := []) (as := [.install l.num])
        (by simp [demandOnce, viewAt, hp, hl, demands, came_of_resolvedS quiet hl, TPlan.once]) (by simp) (by simp [Act.onGuess])
        (fun a ha => by
          rw [List.mem_singleton.mp ha]
          exact install_beside (groupAfter_setCounts certain.mild slot m _ _ 0 false) (fun thr only ds xs => groupAfter_putRegs certain slot m _ _ thr only ds xs) slot _ _)
        (stepped_noEffs r.some g _ _ _)

/-- gaccept and gdemand, in each thread and for the group. -/
theorem guessAcceptDemand : Sys2Proof.Claims.GuessAcceptDemand := by
  intro o s bid slot b g m r d held
  refine ⟨fun hi => ?_, fun hi calm quiet => ?_⟩
  · cases hu : o.u with
    | false => exact gaccept_threads hu r hi
    | true => exact gaccept_group hu r hi
  · cases hu : o.u with
    | false => exact gdemand_threads hu r hi calm
    | true => exact gdemand_group hu r hi calm quiet

/-- Settles O13: the words that mark and test, the words that accept and demand, and the dead marks. -/
theorem guessWords : Obligations.GuessWords := ⟨guessMarks, guessAcceptDemand, deadMarks⟩

end Sys2Proof.Machine
end

section
/-! Threads that join a frontier: what a join makes of the entries of a group or a parked sub-group, and of everything else; and replays (R26, R169, R375), the second part of O59. -/

namespace Sys2Proof.Machine

/-! What reaches memory for a spilled entry leaves the cores as they are. -/

@[simp] theorem bringLines_cores (dirty : Bool) (ps : List Piece) (s : State) : (bringLines s dirty ps).cores = s.cores := by
  unfold bringLines
  induction ps generalizing s with
  | nil => rfl
  | cons p r ih => rw [List.foldl_cons, ih]; split <;> rfl

@[simp] theorem touchEntry_cores (s : State) (at' access e : Nat) : (touchEntry s at' access e).cores = s.cores := by
  unfold touchEntry
  split <;> simp

theorem reachVa_cores (root access fuel : Nat) (s : State) (va n : Nat) : (reachVa root access fuel s va n).1.cores = s.cores := by
  induction fuel generalizing s va n with
  | zero => rfl
  | succ fuel ih =>
    have walk : (walked s root va access).1.cores = s.cores := by simp [walked]
    unfold reachVa
    split
    · rfl
    · split
      · next s0 _ _ e => rw [e] at walk; exact walk
      · next s0 e level at' h =>
        rw [h] at walk
        have rest := fun va n => (ih (touchEntry s0 at' access e) va n).trans ((touchEntry_cores ..).trans walk)
        dsimp only
        split
        · next e => exact (congrArg (fun r => r.1.cores) e).symm.trans (rest ..)
        · exact rest ..

@[simp] theorem claimLine_cores (s : State) (key : Option Nat) (line : Nat) : (claimLine s key line).cores = s.cores := by
  unfold claimLine
  split
  · rfl
  · split
    · rfl
    · split <;> rfl

@[simp] theorem keyWrite_cores (s : State) (key : Option Nat) (a n v : Nat) : (keyWrite s key a n v).cores = s.cores := by
  simp only [keyWrite]
  split <;> simp

@[simp] theorem piecesWrite_cores (ps : List Piece) (s : State) (v : Nat) : (piecesWrite s ps v).cores = s.cores := by
  induction ps generalizing s v with
  | nil => rfl
  | cons p r ih =>
    rw [piecesWrite, ih, pieceWrite]
    split
    · rfl
    · split <;> simp

@[simp] theorem snapPages_cores (lseq : Nat) (ps : List Piece) (s : State) : (snapPages s lseq ps).cores = s.cores := by
  unfold snapPages
  induction ps generalizing s with
  | nil => rfl
  | cons p r ih =>
    rw [List.foldl_cons, ih]
    unfold snapPage
    repeat' split
    all_goals rfl

@[simp] theorem writeEvent_cores (s : State) (ch type die payload : Nat) : (writeEvent s ch type die payload).cores = s.cores := by
  simp only [writeEvent]
  split <;> rfl

@[simp] theorem sendEvent_cores (s : State) (type die payload : Nat) : (sendEvent s type die payload).cores = s.cores := by
  simp only [sendEvent, sendOn]
  split
  · simp
  · rfl

@[simp] theorem holdFault_cores (s : State) (d : Nat) (who : Waiter) (va kind access level coreNo slot lseq : Nat) :
    (holdFault s d who va kind access level coreNo slot lseq).1.cores = s.cores := by
  unfold holdFault
  split
  · simp [newFault]
  · rfl

/-! A group in a slot of a core with the threads and s registers of another. -/

/-- A core holds in a slot a group with the threads and s registers of g. -/
def HoldsThreads (s : State) (k slot : Nat) (g : Group) : Prop := ∃ h, groupAt (coreAt s k) slot = some h ∧ h.s = g.s ∧ h.threads = g.threads

theorem coreAt_of_cores {s t : State} (h : t.cores = s.cores) (k : Nat) : coreAt t k = coreAt s k := by rw [coreAt, h]; rfl

theorem HoldsThreads.of_cores {s t : State} {k slot : Nat} {g : Group} (h : HoldsThreads s k slot g) (e : t.cores = s.cores) : HoldsThreads t k slot g := by
  unfold HoldsThreads
  rw [coreAt_of_cores e]
  exact h

theorem HoldsThreads.parked {s : State} {k slot : Nat} {g : Group} (h : HoldsThreads s k slot g) (u : Nat) (fs : List Nat) :
    HoldsThreads (modCore s k fun c => modOwner c u fun x => { x with faults := x.faults ++ fs }) k slot g := by
  obtain ⟨x, hx, hs, ht⟩ := h
  refine ⟨_, by rw [coreAt_modCore_same, groupAt_modOwner hx], ?_⟩
  split <;> exact ⟨hs, ht⟩

/-- Entries written to a spill stack leave threads and registers, also where the group parks at a fault of its stack. -/
theorem HoldsThreads.putEntries {k slot : Nat} {g : Group} (x : Group) (es : List FEntry) : ∀ (i : Nat) {s : State}, HoldsThreads s k slot g →
    HoldsThreads (putEntries k x i es s) k slot g := by
  induction es with
  | nil => exact fun _ _ h => h
  | cons e r ih =>
    intro i s h
    simp only [Machine.putEntries]
    split
    · exact h.parked x.uid [0]
    · have reach := reachVa_cores (hdrOf s x.lseq).ptroot spillAccess 2 s (spillBase s x + 24 * i) 24
      split
      · next eq => rw [eq] at reach; exact ih _ (h.of_cores (by simpa using reach))
      · next s1 a kind level eq =>
        rw [eq] at reach
        exact (h.of_cores (t := (holdFault s1 (dieOf k) (.spill k x.uid) a kind spillAccess level k (slotOf (coreAt s1 k) x.uid) x.lseq).1)
          (by simpa using reach)).parked x.uid [_]

theorem HoldsThreads.putSpill {s : State} {k slot : Nat} {g : Group} (h : HoldsThreads s k slot g) (u i : Nat) : HoldsThreads (putSpill s k u i) k slot g := by
  unfold Machine.putSpill
  split
  · exact h
  · exact h.putEntries ..

/-! Joining a list of entries. -/

/-- A frontier that threads have joined at a start: their entry, or a new one behind the others (R169). -/
def joined (now cyc : Nat) (start mask : Word) (f : List FEntry) : List FEntry := (addWait cyc start mask f).getD (f ++ [newEntry now cyc 0 start mask])

/-- Whether threads that join at a start stay within the entries that a frontier may hold. -/
def Fits (n : Nat) (start : Word) (f : List FEntry) : Prop := f.length < n ∨ ∃ e ∈ f, e.start = start

theorem addWait_none {cyc : Nat} {start mask : Word} {f : List FEntry} : addWait cyc start mask f = none ↔ ∀ e ∈ f, e.start ≠ start := by
  induction f with
  | nil => simp [addWait]
  | cons e r ih =>
    by_cases h : e.start = start
    · simp [addWait, h]
    · simp [addWait, h, ih]

theorem Fits.short {n cyc : Nat} {start mask : Word} {f : List FEntry} (h : Fits n start f) (none : addWait cyc start mask f = none) : f.length < n :=
  h.elim id fun ⟨e, he, hs⟩ => absurd hs (addWait_none.mp none e he)

theorem joinGroup_fits {now cyc p : Nat} {g : Group} {start mask : Word} (h : Fits 16 start g.frontier) (hp : g.frontier.length < 16 → p = 0) :
    joinGroup now cyc p g start mask = { g with frontier := joined now cyc start mask g.frontier } := by
  unfold joinGroup joined
  cases e : addWait cyc start mask g.frontier with
  | some f => rfl
  | none =>
    have short := h.short e
    simp only [hp short, List.length_append, List.length_singleton, Nat.succ_le_of_lt short, if_true, Option.getD_none]

/-- Threads that join a frontier with room change nothing else. -/
theorem joinFrontier_fits {s : State} {g : Group} {start : Word} (h : Fits 16 start g.frontier) (k slot : Nat) (mask : Word) :
    joinFrontier s k slot g start mask = modCore s k fun c => setGroup c slot { g with frontier := joined s.now (cycOf s k) start mask g.frontier } := by
  simp only [joinFrontier, joinGroup_fits h fun short => if_pos short, if_true]

/-- Threads join a frontier: whatever this spills, threads and registers stay. -/
theorem joinFrontier_holds (s : State) (k slot : Nat) (g : Group) (start mask : Word) : HoldsThreads (joinFrontier s k slot g start mask) k slot g := by
  have kept : ∀ p, (joinGroup s.now (cycOf s k) p g start mask).s = g.s ∧ (joinGroup s.now (cycOf s k) p g start mask).threads = g.threads := by
    intro p
    simp only [joinGroup]
    repeat' split
    all_goals exact ⟨rfl, rfl⟩
  have put : ∀ p, HoldsThreads (modCore s k fun c => setGroup c slot (joinGroup s.now (cycOf s k) p g start mask)) k slot g := fun p =>
    ⟨_, by rw [coreAt_modCore_same]; exact tfind_tput_same .., kept p⟩
  unfold joinFrontier
  extract_lets g1 s1
  split
  · exact put _
  · exact (put _).putSpill ..

/-- The threads are among those that wait in the entry they join. -/
theorem joined_waits (now cyc : Nat) (start mask : Word) (f : List FEntry) :
    ∃ e ∈ joined now cyc start mask f, e.start = start ∧ ∀ i, hasBit mask i = true → hasBit e.wait i = true := by
  have new : addWait cyc start mask f = none → ∃ e ∈ joined now cyc start mask f, e.start = start ∧ ∀ i, hasBit mask i = true → hasBit e.wait i = true :=
    fun none => ⟨newEntry now cyc 0 start mask, by simp [joined, none], rfl, fun _ h => h⟩
  induction f with
  | nil => exact new rfl
  | cons e r ih =>
    by_cases h : e.start = start
    · exact ⟨{ e with wait := e.wait ||| mask, joined := cyc }, by simp [joined, addWait, h], h, fun i hi => by simp_all [hasBit]⟩
    · cases he : addWait cyc start mask r with
      | none => exact new (by simp [addWait, h, he])
      | some l =>
        obtain ⟨x, hx, rest⟩ := ih fun none => by simp [he] at none
        exact ⟨x, by simp_all [joined, addWait], rest⟩

/-! Joining a parked sub-group. -/

theorem joinSub_fits {now cyc n : Nat} {g : Group} {start mask : Word} {x : Sub} (hx : tfind g.subs n = some x) (h : Fits 8 start x.frontier) :
    joinSub now cyc g n start mask = some { g with subs := tput g.subs n { x with frontier := joined now cyc start mask x.frontier } } := by
  simp only [joinSub, hx, joined]
  cases e : addWait cyc start mask x.frontier with
  | some f => rfl
  | none => simp only [if_pos (h.short e), Option.getD_none]

theorem joinSub_full {now cyc n : Nat} {g : Group} {start mask : Word} {x : Sub} (hx : tfind g.subs n = some x) (full : 8 ≤ x.frontier.length)
    (new : ∀ e ∈ x.frontier, e.start ≠ start) : joinSub now cyc g n start mask = none := by
  simp only [joinSub, hx, addWait_none.mpr new, if_neg (Nat.not_lt.mpr full)]

theorem joinSub_keeps {now cyc n : Nat} {g h : Group} {start mask : Word} (e : joinSub now cyc g n start mask = some h) : h.s = g.s ∧ h.threads = g.threads := by
  unfold joinSub at e
  repeat' split at e
  all_goals cases e
  all_goals exact ⟨rfl, rfl⟩

/-- Threads join their group or sub-group: whatever comes of it, threads and registers stay. -/
theorem joinAt_holds {s : State} {k slot : Nat} {g : Group} (hg : groupAt (coreAt s k) slot = some g) (sub : Option Nat) (start mask pc : Word) (pos : Nat) :
    HoldsThreads (joinAt s k slot sub start mask pc pos) k slot g := by
  simp only [joinAt, hg]
  cases sub with
  | none => exact joinFrontier_holds ..
  | some n =>
    dsimp only
    split
    · next h e => exact ⟨h, by rw [coreAt_modCore_same]; exact tfind_tput_same .., joinSub_keeps e⟩
    · exact ⟨g, by rw [coreAt_modCore_same]; exact hg, rfl, rfl⟩

/-! Replays. -/

theorem leaveCame_ctx (c : Core) (l : Load) : (leaveCame c l).ctx = c.ctx := by
  unfold leaveCame
  split
  · rfl
  · split <;> rfl

theorem dropWalks_ctx (c : Core) (u : Nat) (is : List Nat) : (dropWalks c u is).ctx = c.ctx := by
  have loads : ∀ (ls : List Load) (c : Core), (ls.foldl leaveCame c).ctx = c.ctx := fun ls => by
    induction ls with
    | nil => exact fun _ => rfl
    | cons l r ih => exact fun c => (ih _).trans (leaveCame_ctx c l)
  exact loads ..

theorem members_oneBit {i : Nat} (h : i < 32) : members (oneBit i) = [i] := by
  decide +revert

/-- The state from which a replaying thread joins an entry. -/
theorem replayAt_joins {s : State} {k slot i : Nat} {g : Group} (hg : groupAt (coreAt s k) slot = some g) (sub : Option Nat) (pos : Nat) (pc : Word) :
    ∃ s1, groupAt (coreAt s1 k) slot = some (modThread g i replayThread) ∧ s1.mem = s.mem ∧
      replayAt s k slot sub i pos pc = joinAt s1 k slot sub (threadAt g i).rpc (oneBit i) pc pos := by
  refine ⟨modCore s k fun c => dropWalks (setGroup c slot (modThread g i replayThread)) g.uid [i], ?_, rfl, by simp only [replayAt, hg]⟩
  rw [coreAt_modCore_same, groupAt, dropWalks_ctx]
  exact tfind_tput_same ..

theorem replaysHold : Sys2Proof.Claims.Replays := by
  intro s k slot i pos sub pc g hg ht hi old t joins
  obtain ⟨s1, hg1, hm, hr⟩ := replayAt_joins hg (i := i) sub pos pc
  have waits : ∀ f, joins (joined s1.now (cycOf s1 k) old.rpc (oneBit i) f) := fun f => by
    obtain ⟨e, he, hs, hw⟩ := joined_waits s1.now (cycOf s1 k) old.rpc (oneBit i) f
    exact ⟨e, he, hs, hw i (by simp [hasBit_oneBit, hi])⟩
  obtain ⟨h, hh, hs, hts⟩ := joinAt_holds hg1 sub old.rpc (oneBit i) pc pos
  have ht' : t = joinAt s1 k slot sub old.rpc (oneBit i) pc pos := hr
  refine ⟨⟨h, ht' ▸ hh, hs, fun j hj => ?_, ?_, ?_, ?_⟩, ?_⟩
  · rw [threadAt, hts]; exact threadAt_modThread_ne g _ hj
  · rw [threadAt, hts]; exact threadAt_modThread_same g i _ (by omega)
  · rintro rfl room
    have e : t = modCore s1 k fun c => setGroup c slot { modThread g i replayThread with frontier := joined s1.now (cycOf s1 k) old.rpc (oneBit i) g.frontier } := by
      rw [ht', joinAt, hg1]; exact joinFrontier_fits (g := modThread g i replayThread) room k slot (oneBit i)
    rw [← ht', e, coreAt_modCore_same] at hh
    obtain rfl := Option.some.inj ((tfind_tput_same ..).symm.trans hh)
    exact ⟨waits _, by rw [e]; exact hm⟩
  · rintro n x rfl hx room
    have e : t = modCore s1 k fun c => setGroup c slot { modThread g i replayThread with
        subs := tput g.subs n { x with frontier := joined s1.now (cycOf s1 k) old.rpc (oneBit i) x.frontier } } := by
      simp only [ht', joinAt, hg1, joinSub_fits (g := modThread g i replayThread) hx room]; rfl
    rw [← ht', e, coreAt_modCore_same] at hh
    obtain rfl := Option.some.inj ((tfind_tput_same ..).symm.trans hh)
    exact ⟨_, tfind_tput_same .., waits _, by rw [e]; exact hm⟩
  · rintro n x rfl hx full new
    have e : t = modCore s1 k fun c => pendTraps c g.uid slot (some n) ((members (oneBit i)).map fun j => (j, ⟨cFRONTIER, 0, 0, pos⟩)) pos pc := by
      simp only [ht', joinAt, hg1, joinSub_full (g := modThread g i replayThread) hx full new]; rfl
    rw [e, coreAt_modCore_same, members_oneBit hi]
    exact ⟨_, List.mem_append_right _ (List.mem_singleton_self _), rfl, rfl, rfl, BitVec.or_zero, rfl, rfl, rfl⟩

end Sys2Proof.Machine
end

section
/-! Words of each thread that every present thread waits at, replays at or traps at, and the certainty points of stores (R25, R26, R55), the first part of O59. -/

namespace Sys2Proof.Machine

/-- A word of each thread whose sources can be read plans in each present thread what its rule says. -/
theorem eachThread_reads {sh : Shape} {f : View → Nat → Thread → TPlan} {v : View} {tp : Nat → TPlan}
    (hok : ∀ j ∈ members v.mask, (!sh.u && sh.srcs.any (srcLost (threadAt v.g j) sh.pipe)) = false ∧
      (!sh.u && deadTraps v.g && sh.srcs.any (srcDead (threadAt v.g j))) = false)
    (hf : ∀ j ∈ members v.mask, f v j (threadAt v.g j) = tp j) :
    eachThread sh f v = match firstHold ((members v.mask).map fun i => (i, tp i)) with
      | some (w, parked) => .hold w parked ((members v.mask).flatMap fun i => (tp i).asks)
      | none => .go ((members v.mask).map fun i => (tp i).res v.slot i) := by
  have plans : v.present.map (fun i =>
      (i, if !sh.u && sh.srcs.any (srcLost (threadAt v.g i) sh.pipe) then TPlan.trap (trapAt v cLATCH)
        else if !sh.u && deadTraps v.g && sh.srcs.any (srcDead (threadAt v.g i)) then .trap (trapAt v cDEAD)
        else f v i (threadAt v.g i))) = (members v.mask).map fun i => (i, tp i) :=
    List.map_congr_left fun i hi => by
      obtain ⟨lost, dead⟩ := hok i hi
      simp only [lost, dead, hf i hi, Bool.false_eq_true, if_false]
  simp only [eachThread, plans, List.flatMap_map, List.map_map]
  rfl

/-- Plans that do not hold make no step wait. -/
theorem firstHold_none {l : List (Nat × TPlan)} (h : ∀ x ∈ l, ∀ w q as, x.2 ≠ .hold w q as) : firstHold l = none := by
  induction l with
  | nil => rfl
  | cons x r ih =>
    obtain ⟨i, p⟩ := x
    have rest := ih fun y hy => h y (List.mem_cons_of_mem _ hy)
    cases p with
    | hold w q as => exact absurd rfl (h _ (List.mem_cons_self ..) w q as)
    | go _ _ => exact rest
    | trap _ => exact rest
    | replay => exact rest

/-- Threads that all wait for guesses wait for them together, without parking. -/
theorem firstHold_certainty (slot i : Nat) (is : List Nat) :
    firstHold ((i :: is).map fun j => (j, TPlan.hold (.certainty [(slot, j)]) false [])) = some (.certainty ((i :: is).map fun j => (slot, j)), false) := by
  induction is generalizing i with
  | nil => rfl
  | cons j r ih =>
    rw [List.map_cons, firstHold]
    simp only [ih j]
    rfl

/-! Where every present thread has the same fate. -/

/-- The result of one thread among those of each thread. -/
theorem filter_thread {is : List Nat} (nodup : is.Nodup) {i : Nat} (hi : i ∈ is) (slot : Nat) {F : Nat → Res} (hs : ∀ j, (F j).slot = slot) (ht : ∀ j, (F j).thr = some j) :
    (is.map F).filter (fun r => r.slot == slot && (r.thr == some i || r.thr == none)) = [F i] := by
  have one : is.filter (fun j => j == i) = [i] := by
    rw [List.filter_beq, List.count_eq_one_of_mem nodup hi]
    rfl
  rw [List.filter_map, ← List.map_singleton (f := F), ← one]
  exact congrArg (List.map F) (List.filter_congr fun j _ => by simp [hs, ht])

/-- Results without effects ask for no replay of the whole group. -/
theorem jointOf_none {rs : List Res} (h : ∀ r ∈ rs, r.effs = []) (slot : Nat) : jointOf rs slot = none := by
  unfold jointOf
  rw [List.flatMap_eq_nil_iff.mpr fun r hr => by rw [h r (List.mem_filter.mp hr).1]; rfl]
  rfl

/-- What becomes of a thread whose word replays or traps. -/
def TPlan.fate : TPlan → Fate
  | .trap t => .trap t
  | .replay => .replay
  | _ => .done

/-- A plan that gives up the step: it replays, or takes a trap. -/
def TPlan.leaves (p : TPlan) : Prop := p = .replay ∨ ∃ t, p = .trap t

theorem TPlan.leaves_res {p : TPlan} (h : p.leaves) (slot i : Nat) :
    (p.res slot i).slot = slot ∧ (p.res slot i).thr = some i ∧ (p.res slot i).effs = [] ∧ (p.res slot i).acts = [] := by
  rcases h with rfl | ⟨t, rfl⟩ <;> exact ⟨rfl, rfl, rfl, rfl⟩

theorem fateOf_leaves {is : List Nat} (nodup : is.Nodup) {i : Nat} (hi : i ∈ is) (slot : Nat) {tp : Nat → TPlan} (h : ∀ j, (tp j).leaves) :
    fateOf (is.map fun j => (tp j).res slot j) slot i = (tp i).fate := by
  simp only [fateOf, filter_thread nodup hi slot (fun j => (TPlan.leaves_res (h j) slot j).1) fun j => (TPlan.leaves_res (h j) slot j).2.1]
  rcases h i with e | ⟨t, e⟩
  · simp [e, TPlan.res, TPlan.fate, firstTrap]
  · simp [e, TPlan.res, TPlan.fate, firstTrap]

theorem fates_leave (m : Word) (slot : Nat) {tp : Nat → TPlan} (h : ∀ j, (tp j).leaves) :
    fates false ((members m).map fun j => (tp j).res slot j) ⟨slot, m⟩ = (members m).map fun j => (j, (tp j).fate) := by
  have joint : jointOf ((members m).map fun j => (tp j).res slot j) slot = none := jointOf_none (fun r hr => by
    obtain ⟨j, _, rfl⟩ := List.mem_map.mp hr
    exact (TPlan.leaves_res (h j) slot j).2.2.1) slot
  simp only [fates, joint, together]
  exact List.map_congr_left fun j hj => by rw [fateOf_leaves (nodup_members m) hj slot h]

theorem doneMask_leave (is : List Nat) {tp : Nat → TPlan} (h : ∀ j, (tp j).leaves) : doneMask (is.map fun j => (j, (tp j).fate)) = 0 := by
  have none : (is.map fun j => (j, (tp j).fate)).filter (fun f => f.2 == .done) = [] := by
    refine List.filter_eq_nil_iff.mpr fun x hx => ?_
    obtain ⟨j, _, rfl⟩ := List.mem_map.mp hx
    rcases h j with e | ⟨t, e⟩ <;> simp [e, TPlan.fate]
  rw [doneMask, none]
  rfl

/-- A WORD OF EACH THREAD THAT EVERY PRESENT THREAD GIVES UP: no result takes effect, the bundle is gone, and the threads replay or take their traps. -/
theorem each_leaves {i : Instr} {f : View → Nat → Thread → TPlan} {s : State} {bid slot : Nat} {b : Bundle} {g : Group} {m : Word} (r : Ready s bid slot b g m)
    (h : Issuable i s b slot g m) (hr : Readable i g m) (hu : (shape i).u = false) (narrow : (shape i).wide = false) {tp : Nat → TPlan}
    (hf : ∀ j ∈ members m, f (viewAt s b slot g m) j (threadAt g j) = tp j) (left : ∀ j, (tp j).leaves) :
    ∃ s1, Leaves s s1 bid slot g (fun _ x => x) ∧ run i (fun sh => eachThread sh f) s = .next (
      let fs := (members m).map fun j => (j, (tp j).fate)
      let s2 := (replays fs).foldl (fun a j => replayAt a s.cur.1 slot b.sub j b.stepPos b.pc) s1
      if trapsOf fs = [] then settleAt s.cur.1 slot s2 else settleAt s.cur.1 slot (trapThreads s2 s.cur.1 slot b.sub (trapsOf fs) b.stepPos b.pc)) := by
  let rs := (members m).map fun j => (tp j).res slot j
  have goes : eachThread (shape i) f (viewAt s b slot g m) = .go rs := by
    rw [eachThread_reads (v := viewAt s b slot g m) (readable_checks hr hu rfl rfl) hf, firstHold_none]
    · rfl
    · intro x hx w q as e
      obtain ⟨j, _, rfl⟩ := List.mem_map.mp hx
      rcases left j with e' | ⟨t, e'⟩ <;> rw [e'] at e <;> cases e
  have acts : ∀ x ∈ rs, x.acts = [] := fun x hx => by
    obtain ⟨j, _, rfl⟩ := List.mem_map.mp hx
    exact (TPlan.leaves_res (left j) slot j).2.2.2
  have counts : overCount g slot rs = [] := overCount_none fun x hx a ha => by rw [acts x hx] at ha; cases ha
  refine ⟨_, leaves_of_none r rs, ?_⟩
  have whole : doneMask ((members m).map fun j => (j, (tp j).fate)) = 0 := doneMask_leave (members m) left
  rw [run_eq i _ s r.launch, issue_go r h goes counts, narrow,
    commit_finishes r (fun x hx => by rw [acts x hx]; rfl) false _ _ (fates_leave m slot left) (.inr whole)]
  exact congrArg _ (finishStep_left (b := { b with uni := b.uni || (shape i).once, segs := [(b.pos, rs.length)] }) r.trapped whole rs s s.cur.1 bid)

/-- Every present thread replays (R26). -/
theorem each_replays {i : Instr} {f : View → Nat → Thread → TPlan} {s : State} {bid slot : Nat} {b : Bundle} {g : Group} {m : Word} (r : Ready s bid slot b g m)
    (h : Issuable i s b slot g m) (hr : Readable i g m) (hu : (shape i).u = false) (narrow : (shape i).wide = false)
    (hf : ∀ j ∈ members m, f (viewAt s b slot g m) j (threadAt g j) = .replay) :
    ∃ t s1, run i (fun sh => eachThread sh f) s = .next t ∧ Leaves s s1 bid slot g (fun _ x => x) ∧
      t = settleAt s.cur.1 slot ((members m).foldl (fun a j => replayAt a s.cur.1 slot b.sub j b.stepPos b.pc) s1) := by
  obtain ⟨s1, gone, e⟩ := each_leaves r h hr hu narrow hf fun _ => .inl rfl
  refine ⟨_, s1, e, gone, ?_⟩
  have all : Machine.replays ((members m).map fun j => (j, TPlan.replay.fate)) = members m := by
    simp [Machine.replays, List.filter_map, TPlan.fate, Function.comp_def]
  have none : trapsOf ((members m).map fun j => (j, TPlan.replay.fate)) = [] := by simp [trapsOf, TPlan.fate, Fate.taken]
  simp only [all, none, if_true]

/-- Every present thread takes a trap (R55). -/
theorem each_traps {i : Instr} {f : View → Nat → Thread → TPlan} {s : State} {bid slot : Nat} {b : Bundle} {g : Group} {m : Word} (r : Ready s bid slot b g m)
    (h : Issuable i s b slot g m) (hr : Readable i g m) (hu : (shape i).u = false) (narrow : (shape i).wide = false) {c : Nat → Trap}
    (hf : ∀ j ∈ members m, f (viewAt s b slot g m) j (threadAt g j) = .trap (c j)) :
    ∃ t s1, run i (fun sh => eachThread sh f) s = .next t ∧ Leaves s s1 bid slot g (fun _ x => x) ∧
      t = settleAt s.cur.1 slot (trapThreads s1 s.cur.1 slot b.sub ((members m).map fun j => (j, c j)) b.stepPos b.pc) := by
  obtain ⟨s1, gone, e⟩ := each_leaves r h hr hu narrow hf fun j => .inr ⟨c j, rfl⟩
  refine ⟨_, s1, e, gone, ?_⟩
  have none : Machine.replays ((members m).map fun j => (j, (TPlan.trap (c j)).fate)) = [] := by
    simp [Machine.replays, List.filter_map, TPlan.fate, Function.comp_def]
  have all : trapsOf ((members m).map fun j => (j, (TPlan.trap (c j)).fate)) = (members m).map fun j => (j, c j) := by
    simp [trapsOf, List.filterMap_map, TPlan.fate, Fate.taken]
  have present : (members m).map (fun j => (j, c j)) ≠ [] := fun e => r.some (by
    rw [← maskOf_members m, List.map_eq_nil_iff.mp e]; rfl)
  simp only [all, none, present, if_false, List.foldl_nil]

/-- A STEP OF ONE WORD THAT WAITS, with nothing to ask for: the bundle holds, and its step begins again when the wait is over (R174). -/
theorem issue_holds {i : Instr} {s : State} {bid slot : Nat} {b : Bundle} {g : Group} {m : Word} (r : Ready s bid slot b g m) (h : Issuable i s b slot g m)
    (start : b.pos = b.stepPos) {plan : View → Plan} {w : Wait} {parked : Bool} (hp : plan (viewAt s b slot g m) = .hold w parked []) :
    issue (shape i) plan s = holdStep s s.cur.1 bid b w parked (stepPins b) := by
  have ok : ((shape i).clashes b || ((shape i).term && !termOk b (shape i).len)) = false := by
    rw [r.noClash]
    cases ht : (shape i).term
    · rfl
    · simp [h.place ht]
  have whole : ((shape i).c || b.pos != b.stepPos) = false := by simp [h.last, start]
  unfold issue
  rw [r.runs]
  dsimp only
  rw [if_neg (by simp [r.fresh]), r.view, ok, List.map_cons, List.map_nil, groupPlan_issuable h, hp]
  simp only [Plan.counted, planHold, whole, Bool.false_and, Bool.false_eq_true, if_false, List.isEmpty_nil, if_true]
  rfl

/-- The bundle that the step of a ready bundle leaves when it waits. -/
theorem holdStep_ready {s : State} {bid slot : Nat} {b : Bundle} {g : Group} {m : Word} (r : Ready s bid slot b g m) (start : b.pos = b.stepPos)
    {w : Wait} (hw : w.pushes = []) (parked : Bool) :
    holdStep s s.cur.1 bid b w parked (stepPins b) = setCore s s.cur.1 (setBundle s.core bid { b with
      wait := some w, waitSince := if b.wait = some w then b.waitSince else s.now, parked := parked, issued := false, uni := false, flow := false,
      pinned := b.pinned || stepPins b, tried := true, pushes := [] }) := by
  have here : bundleAt (coreAt s s.cur.1) bid = some b := by
    have h := r.runs
    simp only [running] at h
    split at h
    · cases h
    · next n _ =>
      cases e : bundleAt (coreAt s s.cur.1) n with
      | none => rw [e] at h; cases h
      | some x => rw [e] at h; cases h; exact e
  simp only [holdStep, modCore, here, hw]
  rw [if_neg (by simp [r.kept]), ← start, ← r.held, ← r.segs, ← r.pipes, ← r.dsts, ← r.wide]

/-- R25, R26 and R55. -/
theorem certaintyPoints : Sys2Proof.Claims.CertaintyPoints := by
  intro o s bid slot b g m r h hr start v pen unsure
  let f : View → Nat → Thread → TPlan := fun v i t =>
    certainly v i t ((readBase v (some i) (baseSrc o.s o.a)).pen || (readSrc v.g i t none .m (storeSrc o)).pen)
      (storePlan o v (some i) (readBase v (some i) (baseSrc o.s o.a)) (readSrc v.g i t none .m (storeSrc o)))
  have hx : exec (.store o) s = run (.store o) (fun sh => eachThread sh f) s := rfl
  have at' : ∀ j ∈ members m, f v j (threadAt g j) = if unresolved s.core g j then .hold (.certainty [(slot, j)]) false []
      else if (threadAt g j).rf then (if (threadAt g j).rpv then .replay else .trap ⟨7, 0, 0, b.pos⟩)
      else (storePlan o v (some j) (readBase v (some j) (baseSrc o.s o.a)) (readSrc g j (threadAt g j) none .m (storeSrc o))).first .certain := by
    intro j hj
    have passes : (!(pen j) && !(threadAt g j).cg) = false := by
      have := unsure j hj
      revert this
      cases pen j <;> cases (threadAt g j).cg <;> simp
    exact if_neg (ne_true_of_eq_false passes)
  refine ⟨fun waits => ?_, fun again => ?_, fun stuck => ?_⟩
  · have holds : eachThread (shape (.store o)) f v = .hold (.certainty ((members m).map fun j => (slot, j))) false [] := by
      rw [eachThread_reads (v := v) (tp := fun j => .hold (.certainty [(slot, j)]) false []) (readable_checks hr rfl rfl rfl)
        fun j hj => (at' j hj).trans (if_pos (waits j hj))]
      have present : members m ≠ [] := fun e => r.some (by rw [← maskOf_members m, e]; rfl)
      have asks : (members v.mask).flatMap (fun i => (TPlan.hold (.certainty [(slot, i)]) false []).asks) = [] := List.flatMap_eq_nil_iff.mpr fun _ _ => rfl
      rw [asks]
      show (match firstHold ((members m).map fun j => (j, TPlan.hold (.certainty [(slot, j)]) false [])) with
        | some (w, parked) => Plan.hold w parked []
        | none => _) = _
      obtain ⟨i, is, e⟩ := List.exists_cons_of_ne_nil present
      rw [e, firstHold_certainty]
    intro w
    rw [hx, run_eq _ _ s r.launch, issue_holds r h start holds, holdStep_ready r start rfl false]
  · rw [hx]
    exact each_replays r h hr rfl rfl fun j hj => by
      obtain ⟨sure, rf, rpv⟩ := again j hj
      rw [show viewAt s b slot g m = v from rfl, at' j hj, sure, rf, rpv]; rfl
  · rw [hx]
    exact each_traps (c := fun _ => ⟨7, 0, 0, b.pos⟩) r h hr rfl rfl fun j hj => by
      obtain ⟨sure, rf, rpv⟩ := stuck j hj
      rw [show viewAt s b slot g m = v from rfl, at' j hj, sure, rf, rpv]; rfl

end Sys2Proof.Machine
end

section
/-! The words that compute, compare, combine predicates or select, as what their instructions run: whatever rule holds of every word that computes a function of its
sources (and of every compare) holds of each of them with the function that the manual gives it (R114 to R122, R148 to R162). -/

namespace Sys2Proof.Machine

/-- A rule that holds of every word whose meaning is runCalc of a function, in the form that its shape describes. -/
def CalcRule (R : Rule) : Prop := ∀ {α : Type} {fm : Form α} {mk : α → Instr} {pipe : Pipe} {f : α → List Nat → Nat × BitVec 5},
  (∀ o s, exec (mk o) s = runCalc (mk o) (f o) s) → (∀ o, Describes fm mk pipe o) → R fm mk pipe f

section
variable {R : Rule}

/-- A word of such a rule, with its function said in another way. -/
theorem CalcRule.word (h : CalcRule R) {α : Type} {fm : Form α} {mk : α → Instr} {pipe : Pipe} {f f' : α → List Nat → Nat × BitVec 5}
    (hx : ∀ o s, exec (mk o) s = runCalc (mk o) (f o) s) (hd : ∀ o, Describes fm mk pipe o) (e : ∀ o, f o = f' o) : R fm mk pipe f' := by
  rw [← funext e]
  exact h hx hd

theorem one32_congr {f h : Word → Word} (e : ∀ a, f a = h a) : one32 f = one32 h := congrArg one32 (funext e)
theorem two32_congr {f h : Word → Word → Word} (e : ∀ a b, f a b = h a b) : two32 f = two32 h := congrArg two32 (funext₂ e)
theorem two64_congr {f h : Dword → Dword → Dword} (e : ∀ a b, f a b = h a b) : two64 f = two64 h := congrArg two64 (funext₂ e)
theorem pairWith_congr {f h : Dword → Word → Dword} (e : ∀ a b, f a b = h a b) : pairWith f = pairWith h := congrArg pairWith (funext₂ e)

/-! R114: integer arithmetic as arithmetic on signed or unsigned numbers. -/

theorem ofInt_add_toInt {w : Nat} (a b : BitVec w) : a + b = BitVec.ofInt w (a.toInt + b.toInt) := by
  rw [BitVec.ofInt_add, BitVec.ofInt_toInt, BitVec.ofInt_toInt]

theorem ofInt_neg_toInt {w : Nat} (a : BitVec w) : -a = BitVec.ofInt w (-a.toInt) := by rw [BitVec.ofInt_neg, BitVec.ofInt_toInt]

theorem ofInt_sub_toInt {w : Nat} (a b : BitVec w) : a - b = BitVec.ofInt w (a.toInt - b.toInt) := by
  rw [Int.sub_eq_add_neg, BitVec.ofInt_add, BitVec.ofInt_toInt, BitVec.ofInt_neg, BitVec.ofInt_toInt, BitVec.sub_eq_add_neg]

theorem ofInt_mul_toInt {w : Nat} (a b : BitVec w) : a * b = BitVec.ofInt w (a.toInt * b.toInt) := by
  rw [BitVec.ofInt_mul, BitVec.ofInt_toInt, BitVec.ofInt_toInt]

theorem satS_32 (x : Int) : satS x 32 = max (-(2 ^ 31)) (min (2 ^ 31 - 1) x) := by simp only [satS]; omega

theorem abs_toInt (a : Word) : (if a.toInt < 0 then -a else a) = BitVec.ofNat 32 a.toInt.natAbs := by
  have whole : ∀ n : Nat, BitVec.ofNat 32 n = BitVec.ofInt 32 n := fun n => (BitVec.ofInt_natCast 32 n).symm
  rw [whole]
  split
  · next h => rw [Int.ofNat_natAbs_of_nonpos h.le, ofInt_neg_toInt]
  · next h => rw [Int.natAbs_of_nonneg (not_lt.mp h), BitVec.ofInt_toInt]

theorem satN_add (a b : Word) : BitVec.ofInt 32 (satN (a.toNat + b.toNat) 32) = BitVec.ofNat 32 (min (2 ^ 32 - 1) (a.toNat + b.toNat)) := by
  rw [← BitVec.ofInt_natCast]
  congr 1
  simp only [satN]
  omega

theorem satN_sub (a b : Word) : BitVec.ofInt 32 (satN ((a.toNat : Int) - b.toNat) 32) = BitVec.ofNat 32 (a.toNat - b.toNat) := by
  have small := a.isLt
  rw [← BitVec.ofInt_natCast]
  congr 1
  simp only [satN]
  omega

theorem integerArithmetic_of (h : CalcRule R) : Sys2Proof.Claims.IntegerArithmetic R := by
  have least : ∀ a b : Word, (if a.toInt ≤ b.toInt then a else b) = BitVec.ofInt 32 (min a.toInt b.toInt) := fun a b => by
    split
    · next c => rw [min_eq_left c, BitVec.ofInt_toInt]
    · next c => rw [min_eq_right (not_le.mp c).le, BitVec.ofInt_toInt]
  have most : ∀ a b : Word, (if a.toInt ≤ b.toInt then b else a) = BitVec.ofInt 32 (max a.toInt b.toInt) := fun a b => by
    split
    · next c => rw [max_eq_right c, BitVec.ofInt_toInt]
    · next c => rw [max_eq_left (not_le.mp c).le, BitVec.ofInt_toInt]
  have leastN : ∀ a b : Word, (if a.toNat ≤ b.toNat then a else b) = BitVec.ofNat 32 (min a.toNat b.toNat) := fun a b => by
    split
    · next c => rw [min_eq_left c, BitVec.ofNat_toNat, BitVec.setWidth_eq]
    · next c => rw [min_eq_right (not_le.mp c).le, BitVec.ofNat_toNat, BitVec.setWidth_eq]
  have mostN : ∀ a b : Word, (if a.toNat ≤ b.toNat then b else a) = BitVec.ofNat 32 (max a.toNat b.toNat) := fun a b => by
    split
    · next c => rw [max_eq_right c, BitVec.ofNat_toNat, BitVec.setWidth_eq]
    · next c => rw [max_eq_left (not_le.mp c).le, BitVec.ofNat_toNat, BitVec.setWidth_eq]
  refine ⟨?_, ?_, ?_, ?_, ?_, ?_, ?_, ?_, ?_, ?_, ?_, ?_, ?_, ?_, ?_, ?_, ?_⟩ <;> refine h.word (fun _ _ => rfl) (fun _ => ⟨rfl, rfl, rfl, rfl, rfl, rfl⟩) fun o => ?_
  · exact two32_congr ofInt_add_toInt
  · exact two32_congr ofInt_sub_toInt
  · exact two32_congr ofInt_mul_toInt
  · rfl
  · rfl
  · rfl
  · exact two32_congr fun a b => congrArg _ (satS_32 _)
  · exact two32_congr fun a b => congrArg _ (satS_32 _)
  · exact two32_congr least
  · exact two32_congr most
  · exact two32_congr leastN
  · exact two32_congr mostN
  · exact one32_congr abs_toInt
  · exact one32_congr ofInt_neg_toInt
  · exact two32_congr satN_add
  · exact two32_congr satN_sub
  · exact one32_congr fun a => by rw [BitVec.ofInt_add, BitVec.ofInt_toInt]; rfl

/-! R115, R117: shifts as multiplication and division by powers of two. -/

theorem shiftLeft_ofNat {w : Nat} (a : BitVec w) (n : Nat) : a <<< n = BitVec.ofNat w (a.toNat * 2 ^ n) :=
  BitVec.eq_of_toNat_eq (by rw [BitVec.toNat_shiftLeft, BitVec.toNat_ofNat, Nat.shiftLeft_eq])

theorem ushiftRight_ofNat {w : Nat} (a : BitVec w) (n : Nat) : a >>> n = BitVec.ofNat w (a.toNat / 2 ^ n) :=
  BitVec.eq_of_toNat_eq (by
    rw [BitVec.toNat_ushiftRight, BitVec.toNat_ofNat, Nat.shiftRight_eq_div_pow, Nat.mod_eq_of_lt ((Nat.div_le_self ..).trans_lt a.isLt)])

theorem shlBy_mul {w : Nat} (a : BitVec w) (n : Nat) : shlBy a n = BitVec.ofNat w (a.toNat * 2 ^ n) := by
  unfold shlBy
  split
  · exact shiftLeft_ofNat a n
  · apply BitVec.eq_of_toNat_eq
    rw [BitVec.toNat_ofNat, show 2 ^ n = 2 ^ w * 2 ^ (n - w) by rw [← Nat.pow_add]; congr 1; omega, Nat.mul_left_comm, Nat.mul_mod_right]
    rfl

theorem shrBy_div {w : Nat} (a : BitVec w) (n : Nat) : shrBy a n = BitVec.ofNat w (a.toNat / 2 ^ n) := by
  unfold shrBy
  split
  · exact ushiftRight_ofNat a n
  · next h => rw [Nat.div_eq_of_lt (a.isLt.trans_le (Nat.pow_le_pow_right (by omega) (not_lt.mp h)))]; rfl

theorem sarBy_div {w : Nat} (a : BitVec w) (n : Nat) : sarBy a n = BitVec.ofInt w (a.toInt / 2 ^ n) := by
  unfold sarBy
  split
  · rw [BitVec.sshiftRight_eq, Int.shiftRight_eq_div_pow]
    norm_cast
  · next h =>
    have past : a.toInt.natAbs ≤ 2 ^ n ∧ a.toInt < 2 ^ n := by
      have up := Nat.pow_le_pow_right (n := 2) (by omega) (not_lt.mp h)
      have low := a.le_two_mul_toInt
      have high := a.two_mul_toInt_lt
      have e : ((2 ^ w : Nat) : Int) = 2 ^ w := by norm_cast
      have e' : ((2 ^ n : Nat) : Int) = 2 ^ n := by norm_cast
      have : (0 : Nat) < 2 ^ w := Nat.two_pow_pos w
      omega
    obtain ⟨size, below⟩ := past
    split
    · next neg =>
      rw [BitVec.msb_eq_toInt, decide_eq_true_eq] at neg
      have : -a.toInt ≤ 2 ^ n := by
        have : ((2 ^ n : Nat) : Int) = 2 ^ n := by norm_cast
        omega
      rw [Int.ediv_eq_neg_one_of_neg_of_le neg this]
      rw [BitVec.ofInt_neg]
      exact BitVec.not_zero.trans BitVec.neg_one_eq_allOnes.symm
    · next pos =>
      rw [BitVec.msb_eq_toInt, decide_eq_true_eq] at pos
      rw [Int.ediv_eq_zero_of_lt (not_lt.mp pos) below]
      rfl

theorem pairArithmetic_of (h : CalcRule R) : Sys2Proof.Claims.PairArithmetic R := by
  refine ⟨?_, ?_, ?_, ?_, ?_, ?_, ?_, ?_⟩ <;> refine h.word (fun _ _ => rfl) (fun _ => ⟨rfl, rfl, rfl, rfl, rfl, rfl⟩) fun o => ?_
  · rfl
  · rfl
  · rfl
  · exact pairWith_congr fun a b => shlBy_mul a _
  · exact pairWith_congr fun a b => shrBy_div a _
  · exact pairWith_congr fun a b => sarBy_div a _
  · rfl
  · rfl

/-! R116, R117: rotation, and the counts and orders of bits. -/

theorem rotateLeft_ofNat (a : Word) (n : Nat) :
    a.rotateLeft (n % 32) = BitVec.ofNat 32 (a.toNat * 2 ^ (n % 32)) ||| BitVec.ofNat 32 (a.toNat / 2 ^ (32 - n % 32)) := by
  rw [BitVec.rotateLeft_def, Nat.mod_mod, shiftLeft_ofNat, ushiftRight_ofNat]

theorem length_bitsFrom (m : Word) : ∀ n k, (bitsFrom m n k).length = ((List.range n).map fun i => bit (m.getLsbD (k + i))).sum
  | 0, _ => rfl
  | n + 1, k => by
    have rest := length_bitsFrom m n (k + 1)
    rw [List.range_succ_eq_map, List.map_cons, List.sum_cons, List.map_map, bitsFrom]
    have shift : (List.range n).map ((fun i => bit (m.getLsbD (k + i))) ∘ Nat.succ) = (List.range n).map fun i => bit (m.getLsbD (k + 1 + i)) :=
      List.map_congr_left fun i _ => by simp only [Function.comp, Nat.succ_eq_add_one]; congr 2; omega
    rw [shift, ← rest]
    cases hb : hasBit m k
    · have : m.getLsbD k = false := hb
      simp [this, bit]
    · have : m.getLsbD k = true := hb
      simp [this, bit]; omega

theorem popcount_sum (a : Word) : popcount a = ((List.range 32).map fun i => bit (a.getLsbD i)).sum := by
  simp [popcount, members, length_bitsFrom]

theorem leadingZeros_log2 {n x : Nat} (h : x < 2 ^ n) : leadingZeros n x = if x = 0 then n else n - 1 - Nat.log2 x := by
  induction n with
  | zero => simp_all [leadingZeros]
  | succ n ih =>
    rw [leadingZeros]
    by_cases top : 2 ^ n ≤ x
    · have some : x ≠ 0 := by have := Nat.two_pow_pos n; omega
      have one : x / 2 ^ n = 1 := (Nat.div_eq_iff (Nat.two_pow_pos n)).mpr (by rw [Nat.pow_succ] at h; omega)
      rw [if_pos (by rw [one]), if_neg some, (Nat.log2_eq_iff some).mpr ⟨top, h⟩]
      omega
    · have low := Nat.lt_of_not_le top
      rw [if_neg (by rw [Nat.div_eq_of_lt low]; decide), ih low]
      split
      · omega
      · next some => have := (Nat.log2_lt some).mpr low; omega

theorem reverseBits_lt (n x : Nat) : reverseBits n x < 2 ^ n := by
  induction n generalizing x with
  | zero => simp [reverseBits]
  | succ n ih =>
    have low := ih (x / 2)
    rw [reverseBits, Nat.pow_succ]
    rcases Nat.mod_two_eq_zero_or_one x with e | e <;> rw [e] <;> omega

theorem testBit_reverseBits (n x i : Nat) : (reverseBits n x).testBit i = (decide (i < n) && x.testBit (n - 1 - i)) := by
  induction n generalizing x i with
  | zero => simp [reverseBits]
  | succ n ih =>
    rw [reverseBits, Nat.mul_comm, Nat.testBit_two_pow_mul_add _ (reverseBits_lt n _)]
    split
    · next h =>
      rw [ih, Nat.testBit_div_two, show n - 1 - i + 1 = n + 1 - 1 - i by omega]
      simp [h, Nat.lt_succ_of_lt h]
    · next h =>
      rw [show (n + 1 - 1 - i) = 0 by omega, show (decide (i < n + 1)) = decide (i - n = 0) by simp; omega]
      rcases Nat.mod_two_eq_zero_or_one x with e | e
      · simp [e, Nat.testBit_zero]
      · rw [e, Bool.eq_iff_iff, Nat.testBit_one_eq_true_iff_self_eq_zero]
        simp [Nat.testBit_zero, e]

theorem reverse_ofNat (a : Word) : BitVec.ofNat 32 (reverseBits 32 a.toNat) = a.reverse := by
  apply BitVec.eq_of_getLsbD_eq
  intro i hi
  rw [BitVec.getLsbD_ofNat, testBit_reverseBits, BitVec.getLsbD_reverse, BitVec.getMsbD]
  simp only [hi, decide_true, Bool.true_and]
  rfl

theorem trailingZeros_find (n x : Nat) : trailingZeros n x = ((List.range n).find? fun i => x.testBit i).getD n := by
  induction n generalizing x with
  | zero => rfl
  | succ n ih =>
    rw [trailingZeros, List.range_succ_eq_map, List.find?_cons, List.find?_map]
    split
    · next odd => simp [odd]
    · next even =>
      have half : (fun i => x.testBit i) ∘ Nat.succ = fun i => (x / 2).testBit i := funext fun i => by simp [Nat.testBit_div_two]
      rw [half, ih]
      simp only [Nat.testBit_zero, even, decide_false]
      cases (List.range n).find? fun i => (x / 2).testBit i <;> simp <;> omega

theorem logicWords_of (h : CalcRule R) : Sys2Proof.Claims.LogicWords R := by
  refine ⟨?_, ?_, ?_, ?_, ?_, ?_, ?_, ?_, ?_, ?_, ?_, ?_, ?_, ?_, ?_, ?_⟩ <;> refine h.word (fun _ _ => rfl) (fun _ => ⟨rfl, rfl, rfl, rfl, rfl, rfl⟩) fun o => ?_
  · rfl
  · rfl
  · rfl
  · rfl
  · rfl
  · rfl
  · rfl
  · rfl
  · exact two32_congr fun a b => shlBy_mul a _
  · exact two32_congr fun a b => shrBy_div a _
  · exact two32_congr fun a b => sarBy_div a _
  · exact two32_congr fun a b => rotateLeft_ofNat a _
  · exact one32_congr fun a => congrArg _ (popcount_sum a)
  · refine one32_congr fun a => congrArg _ ((leadingZeros_log2 a.isLt).trans (if_congr ?_ rfl rfl))
    exact ⟨fun e => BitVec.eq_of_toNat_eq e, fun e => by rw [e]; rfl⟩
  · exact one32_congr reverse_ofNat
  · exact one32_congr fun a => congrArg _ (trailingZeros_find 32 a.toNat)

/-! R118, R119: fields, bytes, multiply-add and address sums. -/

theorem ofNat_emod_toNat (n : Nat) (z : Int) : BitVec.ofNat n (z % 2 ^ n).toNat = BitVec.ofInt n z := by
  apply BitVec.eq_of_toNat_eq
  have e : ((2 ^ n : Nat) : Int) = 2 ^ n := by norm_cast
  have pos : (0 : Int) < 2 ^ n := by positivity
  have low := Int.emod_nonneg z pos.ne'
  have high := Int.emod_lt_of_pos z pos
  rw [BitVec.toNat_ofNat, BitVec.toNat_ofInt, e, Nat.mod_eq_of_lt (by omega)]

theorem bitField_unsigned (a b : Word) : bitField a b false = BitVec.ofNat 32 (a.toNat / 2 ^ (b.toNat % 256) % 2 ^ min (b.toNat / 256 % 256) 32) := by
  simp only [bitField]
  split
  · next none => rw [none, Nat.pow_zero, Nat.mod_one]; rfl
  · exact congrArg (BitVec.ofNat 32) (by norm_cast)

theorem bitField_signed (a b : Word) : bitField a b true =
    let len := min (b.toNat / 256 % 256) 32
    if len = 0 then 0 else BitVec.ofInt 32 (BitVec.ofInt len (a.toInt / 2 ^ (b.toNat % 256))).toInt := by
  simp only [bitField, if_true, sext, ofNat_emod_toNat]
  rfl

theorem toNat_append_add {n k : Nat} (x : BitVec n) (y : BitVec k) : (x ++ y).toNat = x.toNat * 2 ^ k + y.toNat := by
  rw [BitVec.toNat_append, ← Nat.shiftLeft_add_eq_or_of_lt y.isLt, Nat.shiftLeft_eq]

theorem toNat_extract (a : Word) (k n : Nat) : (a.extractLsb' k n).toNat = a.toNat / 2 ^ k % 2 ^ n := by
  rw [BitVec.extractLsb'_toNat, Nat.shiftRight_eq_div_pow]

theorem bytes_swapped (a : Word) : BitVec.ofNat 32 (byteOf a.toNat 0 * 2 ^ 24 + byteOf a.toNat 1 * 2 ^ 16 + byteOf a.toNat 2 * 2 ^ 8 + byteOf a.toNat 3) =
    a.extractLsb' 0 8 ++ a.extractLsb' 8 8 ++ a.extractLsb' 16 8 ++ a.extractLsb' 24 8 := by
  apply BitVec.eq_of_toNat_eq
  simp only [BitVec.toNat_ofNat, toNat_append_add, toNat_extract, byteOf, Nat.reducePow, Nat.pow_zero, Nat.div_one]
  omega

theorem halves_packed (a b : Word) : BitVec.ofNat 32 (b.toNat % 65536 * 65536 + a.toNat % 65536) = b.extractLsb' 0 16 ++ a.extractLsb' 0 16 := by
  apply BitVec.eq_of_toNat_eq
  simp only [BitVec.toNat_ofNat, toNat_append_add, toNat_extract]
  omega

theorem shiftLeft_mul {w : Nat} (a : BitVec w) (n : Nat) : a <<< n = a * BitVec.ofNat w (2 ^ n) := by
  rw [BitVec.shiftLeft_eq_mul_twoPow]
  exact congrArg (a * ·) (BitVec.eq_of_toNat_eq (by rw [BitVec.toNat_twoPow, BitVec.toNat_ofNat]))

theorem fieldWords_of (h : CalcRule R) : Sys2Proof.Claims.FieldWords R := by
  refine ⟨?_, ?_, ?_, ?_, ?_, ?_, ?_, ?_, ?_, ?_⟩ <;> refine h.word (fun _ _ => rfl) (fun _ => ⟨rfl, rfl, rfl, rfl, rfl, rfl⟩) fun o => ?_
  · exact two32_congr bitField_unsigned
  · exact two32_congr bitField_signed
  · rfl
  · exact one32_congr bytes_swapped
  · exact one32_congr fun a => by rw [sext, BitVec.ofNat_toNat]
  · exact one32_congr fun a => by rw [sext, BitVec.ofNat_toNat]
  · exact congrArg three32 (funext₃ fun a b d => by rw [BitVec.ofInt_add, BitVec.ofInt_toInt, ofInt_mul_toInt])
  · exact two32_congr halves_packed
  · exact two32_congr fun a b => by rw [shiftLeft_mul]
  · exact pairWith_congr fun a b => by rw [shiftLeft_mul]

end

end Sys2Proof.Machine
end

section
/-! The floating-point words, conversions, dot products and compares, as a10 does for the integer words (R120 to R122, R148 to R162). -/

namespace Sys2Proof.Machine

section
variable {R : Rule}

/-- Functions of a list of operands that agree on two operands, and on any other number of them. -/
theorem binary_ext {α β : Type} {f h : List α → β} (two : ∀ a b, f [a, b] = h [a, b]) (none : f [] = h []) (one : ∀ a, f [a] = h [a])
    (more : ∀ a b c r, f (a :: b :: c :: r) = h (a :: b :: c :: r)) : f = h := funext fun xs =>
  match xs with
  | [] => none
  | [a] => one a
  | [a, b] => two a b
  | a :: b :: c :: r => more a b c r

/-! R148 to R153: arithmetic. -/

theorem moveF_move (f : Nat → Nat) : moveF f = fun
    | [a] => (if (decodeF f32 a).isNan then 0x7FC00000 else f a, (0 : BitVec 5))
    | _ => (0, 0) := funext fun xs => by rcases xs with _ | ⟨a, _ | ⟨b, r⟩⟩ <;> rfl

theorem copySign_move : copySign = fun
    | [a, b] => if (decodeF f32 a).isNan then (0x7FC00000, if (decodeF f32 a).isSig then flNV else 0) else (a % 2 ^ 31 + b / 2 ^ 31 % 2 * 2 ^ 31, 0)
    | _ => (0, 0) := binary_ext (fun a b => by simp only [copySign]; cases decodeF f32 a <;> rfl) rfl (fun _ => rfl) fun _ _ _ _ => rfl

theorem threeF_fma : threeF = fun
    | [a, b, z] => encodeF f32 (sumF [mulF (decodeF f32 a) (decodeF f32 b), decodeF f32 z]) .rn false
    | _ => (0, 0) := funext fun xs => by rcases xs with _ | ⟨a, _ | ⟨b, _ | ⟨c, _ | ⟨d, r⟩⟩⟩⟩ <;> rfl

theorem floatArithmetic_of (h : CalcRule R) : Sys2Proof.Claims.FloatArithmetic R := by
  refine ⟨?_, ?_, ?_, ?_, ?_, ?_, ?_, ?_, ?_, ?_, ?_, ?_, ?_⟩ <;> refine h.word (fun _ _ => rfl) (fun _ => ⟨rfl, rfl, rfl, rfl, rfl, rfl⟩) fun o => ?_
  · rfl
  · rfl
  · rfl
  · rfl
  · rfl
  · exact moveF_move _
  · exact moveF_move _
  · exact copySign_move
  · exact threeF_fma
  · exact threeF_fma
  · exact threeF_fma
  · exact threeF_fma
  · exact threeF_fma

theorem twoX2_each (f : Nat → Nat → Nat × BitVec 5) : twoX2 f = fun
    | [a, b] => let x := f (a % 2 ^ 16) (b % 2 ^ 16); let y := f (a / 2 ^ 16 % 2 ^ 16) (b / 2 ^ 16 % 2 ^ 16)
                (x.1 % 2 ^ 16 + y.1 % 2 ^ 16 * 2 ^ 16, x.2 ||| y.2)
    | _ => (0, (0 : BitVec 5)) := binary_ext (fun a b => by simp [twoX2, packElems, elem, imap]) rfl (fun _ => rfl) fun _ _ _ _ => rfl

theorem floatPacked_of (h : CalcRule R) : Sys2Proof.Claims.FloatPacked R := by
  refine ⟨?_, ?_, ?_, ?_, ?_, ?_, ?_, ?_, ?_, ?_⟩ <;> refine h.word (fun _ _ => rfl) (fun _ => ⟨rfl, rfl, rfl, rfl, rfl, rfl⟩) fun o => ?_
  · rfl
  · rfl
  · exact twoX2_each _
  · exact twoX2_each _
  · exact twoX2_each _
  · exact twoX2_each _
  · exact twoX2_each _
  · exact twoX2_each _
  · exact twoX2_each _
  · exact twoX2_each _

theorem floatFunctions_of (h : CalcRule R) : Sys2Proof.Claims.FloatFunctions R := by
  refine ⟨?_, ?_, ?_, ?_, ?_, ?_, ?_, ?_, ?_, ?_, ?_, ?_, ?_⟩ <;> exact h (fun _ _ => rfl) fun _ => ⟨rfl, rfl, rfl, rfl, rfl, rfl⟩

/-! R157 to R162: conversions, packing, scaling and dot products. -/

/-- The exact value of the source of a conversion by its code (R96, R157). -/
def cvtSource (code a : Nat) : FVal :=
  let low := fun (f : Fmt) => decodeF f (a % 2 ^ f.width)
  match code with
  | 0 => low bf16
  | 1 => low f16
  | 4 => low f16
  | 5 => low bf16
  | 6 => ofIntF (BitVec.ofNat 32 a).toInt
  | 7 => ofIntF a
  | 10 => ofIntF (BitVec.ofNat 64 a).toInt
  | 12 => low e4m3
  | 13 => low e5m2
  | 14 => low e3m2
  | 15 => low e2m3
  | 16 => low e2m1
  | 22 => if a % 256 = 255 then .nan false else .fin false 1 ((a % 256 : Nat) - 127 : Int)
  | _ => low f32

theorem cvtVal_source (code a : Nat) : cvtVal code a = cvtSource code a := by
  by_cases past : code < 24
  · by_cases scale : code = 22
    · subst scale
      simp only [cvtVal, scaleExp, cvtSource]
      by_cases nan : a % 256 = 255 <;> simp [nan]
    · interval_cases code
      pick_goal 23
      · exact absurd rfl scale
      all_goals rfl
  · obtain ⟨n, rfl⟩ := Nat.exists_eq_add_of_le' (not_lt.mp past)
    rfl

theorem conversions_of (h : CalcRule R) : Sys2Proof.Claims.Conversions R := by
  refine h.word (fun _ _ => rfl) (fun o => ⟨rfl, rfl, rfl, rfl, rfl, rfl⟩) fun o => funext fun xs => ?_
  rcases xs with _ | ⟨a, _ | ⟨b, r⟩⟩
  · rfl
  · simp only [convert, cvtVal_source]
    generalize o.b.toNat = code
    by_cases past : code < 24
    · interval_cases code <;> rfl
    · obtain ⟨n, rfl⟩ := Nat.exists_eq_add_of_le' (not_lt.mp past)
      rfl
  · rfl

/-- Elements packed as the digits of a number, the lowest first. -/
theorem packElems_digits (w : Nat) (xs : List (Nat × BitVec 5)) :
    packElems w xs = (xs.foldr (fun (x : Nat × BitVec 5) (n : Nat) => x.1 % 2 ^ w + 2 ^ w * n) 0, xs.foldl (fun (fl : BitVec 5) x => fl ||| x.2) 0) := by
  have digits : ∀ k, (imap (fun k (x : Nat × BitVec 5) => x.1 % 2 ^ w * 2 ^ (w * k)) k xs).sum =
      2 ^ (w * k) * xs.foldr (fun (x : Nat × BitVec 5) (n : Nat) => x.1 % 2 ^ w + 2 ^ w * n) 0 := by
    induction xs with
    | nil => intro k; rfl
    | cons x r ih =>
      intro k
      rw [imap, List.sum_cons, ih, List.foldr_cons, Nat.mul_succ, Nat.pow_add]
      ring
  rw [packElems, digits]
  simp

theorem elem_zero (n x : Nat) : elem n x 0 = x % 2 ^ n := by simp [elem]

theorem packing_of (h : CalcRule R) : Sys2Proof.Claims.Packing R := by
  have two : ∀ (f : Fmt) (a b : Nat), pack2 f [a, b] = packElems 16 ([a, b].map fun x => encodeF f (decodeF f32 x) .rn false) := fun _ _ _ => rfl
  have four : ∀ (f : Fmt) (a b : Nat), pack4 f [a, b] =
      packElems 8 ([a % 2 ^ 32, a / 2 ^ 32 % 2 ^ 32, b % 2 ^ 32, b / 2 ^ 32 % 2 ^ 32].map fun x => encodeF f (decodeF f32 x) .rn true) := fun f a b => by
    simp only [pack4, elem_zero]; rfl
  have eight : ∀ a b : Nat, pack8 [a, b] =
      packElems 4 ([a, b].flatMap fun x => (List.range 4).map fun k => encodeF e2m1 (decodeF e4m3 (x / 2 ^ (8 * k) % 2 ^ 8)) .rn true) := fun _ _ => rfl
  refine ⟨?_, ?_, ?_, ?_, ?_⟩ <;> refine h.word (fun _ _ => rfl) (fun _ => ⟨rfl, rfl, rfl, rfl, rfl, rfl⟩) fun o =>
    binary_ext (fun a b => ?_) rfl (fun _ => rfl) fun _ _ _ _ => rfl
  · exact (two ..).trans (packElems_digits ..)
  · exact (two ..).trans (packElems_digits ..)
  · exact (four ..).trans (packElems_digits ..)
  · exact (four ..).trans (packElems_digits ..)
  · exact (eight ..).trans (packElems_digits ..)

theorem quantise_code (f : Fmt) : quantise f = fun
    | [a, b] =>
      let v := decodeF f32 a
      let m := decodeF f32 b
      let x := mxScale f [m] 0 254
      if x = 255 ∨ v.isNan = true ∨ v.isInf = true then (256 * x, if [v, m].any (·.isSig) then flNV else (0 : BitVec 5))
      else
        let r := encodeF f (v.scale (127 - (x : Int))) .rn true
        (256 * x + r.1, r.2)
    | _ => (0, 0) := binary_ext (fun a b => by simp [quantise, Nat.mul_comm, or_assoc]) rfl (fun _ => rfl) fun _ _ _ _ => rfl

theorem scaleF_power : scaleF = fun
    | [a, b] =>
      let x := decodeF f32 a
      if b % 256 = 255 then (0x7FC00000, if [x].any (·.isSig) then flNV else (0 : BitVec 5)) else encodeF f32 (x.scale (((b % 256 : Nat) : Int) - 127)) .rn false
    | _ => (0, 0) := by
  refine binary_ext (fun a b => ?_) rfl (fun _ => rfl) fun _ _ _ _ => rfl
  simp only [scaleF, scaleExp]
  by_cases nan : b % 256 = 255
  · simp only [nan, beq_self_eq_true, if_true, List.any_cons, List.any_nil, Bool.or_false]; rfl
  · simp [nan, encRn]

theorem scaling_of (h : CalcRule R) : Sys2Proof.Claims.Scaling R := by
  refine ⟨?_, ?_, ?_, ?_⟩ <;> refine h.word (fun _ _ => rfl) (fun _ => ⟨rfl, rfl, rfl, rfl, rfl, rfl⟩) fun o => ?_
  · exact quantise_code e4m3
  · exact quantise_code e5m2
  · exact quantise_code e2m1
  · exact scaleF_power

theorem dots_of (h : CalcRule R) : Sys2Proof.Claims.Dots R := by
  refine ⟨?_, ?_, ?_, ?_, ?_, ?_, ?_⟩ <;> refine h.word (fun _ _ => rfl) (fun _ => ⟨rfl, rfl, rfl, rfl, rfl, rfl⟩) fun o => funext fun xs => ?_
  all_goals rcases xs with _ | ⟨a, _ | ⟨b, _ | ⟨c, _ | ⟨d, r⟩⟩⟩⟩ <;> rfl

end

/-! R120 to R122, R156: compares. -/

/-- A rule that holds of every compare, with the pipe and the size of its operands. -/
def CmpRule (R : CompareRule) : Prop := ∀ {mk : OpCmp → Instr} {pipe : Pipe} {n : Nat} {f h : OpCmp → List Nat → Bool × BitVec 5},
  (∀ o s, exec (mk o) s = runCompare (mk o) o.p (f o) s) → (∀ o, (shape (mk o)).srcs = [⟨o.a.toNat, n, true, false⟩, ⟨o.b.toNat, n, true, false⟩]) →
  (∀ o, (shape (mk o)).lit = o.lit) → (∀ o, (shape (mk o)).pipe = pipe) → (∀ o, (shape (mk o)).u = false) → (∀ o a b, f o [a, b] = h o [a, b]) → R mk pipe n h

section
variable {R : CompareRule}

theorem integerCompares_of (h : CmpRule R) : Sys2Proof.Claims.IntegerCompares R := by
  have truth : ∀ (k : BitVec 3) (a b : Int) (x y : Nat), intCond k a b x y = match k.toNat with
      | 0 => decide (a = b)
      | 1 => decide (a ≠ b)
      | 2 => decide (a < b)
      | 3 => decide (a ≤ b)
      | 4 => decide (a > b)
      | 5 => decide (a ≥ b)
      | 6 => decide (x &&& y ≠ 0)
      | _ => decide (x &&& y = 0) := by
    intro k a b x y
    simp only [intCond, bne, beq_eq_decide, ← decide_not] <;> rfl
  refine ⟨?_, ?_, ?_, ?_⟩ <;> refine h (fun _ _ => rfl) (fun _ => rfl) (fun _ => rfl) (fun _ => rfl) (fun _ => rfl) fun o a b => ?_
  all_goals exact congrArg (·, 0) (truth ..)

end

/-! The order of values that are no NaN (R156). -/

/-- The exact difference of two finite values, in units of the lesser exponent. -/
def diffAt (x y : FVal) : Int := sumAt (minExp [x, y.negate] 1000000) [x, y.negate]

theorem sumF_finite (n n' : Bool) (m m' : Nat) (e e' : Int) :
    let d := diffAt (.fin n m e) (.fin n' m' e')
    sumF [.fin n m e, (FVal.fin n' m' e').negate] =
      if d = 0 then .fin ([FVal.fin n m e, (FVal.fin n' m' e').negate].all fun x => x.isNeg && x.isZero) 0 0
      else .fin (d < 0) d.natAbs (minExp [.fin n m e, (FVal.fin n' m' e').negate] 1000000) := rfl

theorem eqF_finite (n n' : Bool) (m m' : Nat) (e e' : Int) : eqF (.fin n m e) (.fin n' m' e') = decide (diffAt (.fin n m e) (.fin n' m' e') = 0) := by
  rw [eqF, sumF_finite]
  split <;> simp_all [FVal.isZero]

theorem ltF_finite (n n' : Bool) (m m' : Nat) (e e' : Int) : ltF (.fin n m e) (.fin n' m' e') = decide (diffAt (.fin n m e) (.fin n' m' e') < 0) := by
  rw [ltF, sumF_finite]
  split <;> simp_all [FVal.isZero, FVal.isNeg]

theorem diffAt_swap {n n' : Bool} {m m' : Nat} {e e' : Int} : diffAt (.fin n' m' e') (.fin n m e) = -diffAt (.fin n m e) (.fin n' m' e') := by
  have unit : minExp [.fin n' m' e', (FVal.fin n m e).negate] 1000000 = minExp [.fin n m e, (FVal.fin n' m' e').negate] 1000000 := by
    simp only [minExp, FVal.negate]; omega
  rw [diffAt, diffAt, unit]
  simp only [sumAt, FVal.negate]
  cases n <;> cases n' <;> simp

/-- Of two values that are no NaN, one is less, or they are equal. -/
theorem ltF_total {x y : FVal} (hx : x.isNan = false) (hy : y.isNan = false) : (!ltF y x) = (ltF x y || eqF x y) := by
  cases x with
  | nan => cases hx
  | inf a =>
    cases y with
    | nan => cases hy
    | inf b => cases a <;> cases b <;> rfl
    | fin => cases a <;> rfl
  | fin n m e =>
    cases y with
    | nan => cases hy
    | inf b => cases b <;> rfl
    | fin n' m' e' =>
      rw [ltF_finite, ltF_finite, eqF_finite, diffAt_swap, Bool.eq_iff_iff]
      simp only [Bool.not_eq_true', decide_eq_false_iff_not, Bool.or_eq_true, decide_eq_true_eq]
      omega

theorem eqF_comm (x y : FVal) : eqF x y = eqF y x := by
  cases x with
  | nan => cases y <;> rfl
  | inf a => cases y with
    | inf b => exact Bool.beq_comm
    | nan | fin => rfl
  | fin n m e => cases y with
    | nan | inf => rfl
    | fin n' m' e' => rw [eqF_finite, eqF_finite, diffAt_swap]; simp only [Int.neg_eq_zero]

section
variable {R : CompareRule}

/-- The truth of a float compare in the order of R156. -/
theorem floatCond_order (k : BitVec 3) (x y : FVal) : floatCond k x y =
    let nan := x.isNan || y.isNan
    match k.toNat with
    | 0 => !nan && eqF x y
    | 1 => nan || !eqF x y
    | 2 => !nan && ltF x y
    | 3 => !nan && (ltF x y || eqF x y)
    | 4 => !nan && ltF y x
    | 5 => !nan && (ltF y x || eqF x y)
    | 6 => nan
    | _ => !nan := by
  cases nan : x.isNan || y.isNan
  · obtain ⟨hx, hy⟩ := Bool.or_eq_false_iff.mp nan
    simp only [floatCond, nan, ltF_total hx hy, ltF_total hy hx, eqF_comm y x] <;> rfl
  · simp only [floatCond, nan, Bool.not_true, Bool.false_and, Bool.true_or] <;> rfl

theorem floatCompares_of (h : CmpRule R) : Sys2Proof.Claims.FloatCompares R := by
  refine ⟨?_, ?_, ?_⟩ <;> refine h (fun _ _ => rfl) (fun _ => rfl) (fun _ => rfl) (fun _ => rfl) (fun _ => rfl) fun o a b => ?_
  all_goals
    simp only [floatCompare, floatCond_order]
    refine Prod.ext rfl (if_congr ?_ rfl rfl)
    simp only [Bool.or_eq_true, Bool.and_eq_true, decide_eq_true_eq]
    tauto

end

end Sys2Proof.Machine
end

section
/-! What a chain holds of each word that computes, compares, combines predicates or selects (R11, R13), and the rules of a step together: O59. -/

namespace Sys2Proof.Machine

theorem predicate_chains {mk : OpPl → Instr} {f h : Bool → Bool → Bool} (hx : ∀ o s, exec (mk o) s = runPl (mk o) o f s)
    (hu : ∀ o, (shape (mk o)).u = false) (e : ∀ a b, f a b = h a b) : ChainsEach mk (fun _ _ => True) fun o _ _ x =>
      setP x o.p.toNat (h ((preg x o.q.toNat).val ^^ o.j) ((preg x o.r.toNat).val ^^ o.k)) ((preg x o.q.toNat).pen || (preg x o.r.toNat).pen) := by
  refine chains_each (fun o => shape (mk o)) (fun o s launch => (hx o s).trans (run_shape _ launch)) (fun o s b slot g m hr _ => readable_checks hr (hu o) rfl rfl)
    (es := fun o _ _ x => [.wp o.p.toNat (f ((preg x o.q.toNat).val != o.j) ((preg x o.r.toNat).val != o.k)) ((preg x o.q.toNat).pen || (preg x o.r.toNat).pen)])
    (fun o v j _ _ => rfl) ?_ ?_
  · intro o v j x a ha
    rw [List.mem_singleton.mp ha]; rfl
  · intro o s b slot g m j now _ _
    rw [← e]; rfl

theorem effsThread_putV {sh : Shape} {d w : Nat} (hd : sh.dsts = [(d, w)]) (now v : Nat) (pen : Bool) (x : Thread) :
    effsThread now (putV sh v pen) x = pushAll sh.pipe (regWords w v) pen (if sh.n then x else intoRegs d (regWords w v) pen x) :=
  effsThread_calc hd now (v, 0) pen x

/-- The effects of a select in one thread (R122). -/
def selected (o : OpSel) (sh : Shape) (v : View) (j : Nat) (x : Thread) : List Eff :=
  let a := readSrc v.g j x o.lit .i ⟨o.a.toNat, 1, true, false⟩
  let b := readSrc v.g j x o.lit .i ⟨o.b.toNat, 1, true, false⟩
  let p := preg x o.k.toNat
  putV sh (if p.val then a.val else b.val) (a.pen || b.pen || p.pen)

theorem predicateLogicAndSelect_chains : Sys2Proof.Claims.PredicateLogicAndSelect ChainsEach := by
  refine ⟨?_, ?_, ?_, ?_⟩
  · exact predicate_chains (fun _ _ => rfl) (fun _ => rfl) fun _ _ => rfl
  · exact predicate_chains (fun _ _ => rfl) (fun _ => rfl) fun _ _ => rfl
  · exact predicate_chains (fun _ _ => rfl) (fun _ => rfl) fun _ _ => rfl
  · refine chains_each (f := fun o v j x => .go (selected o (shape (.selB32 o)) v j x) []) (es := fun o => selected o (shape (.selB32 o)))
      (fun o => shape (.selB32 o)) (fun o s launch => run_shape (fun sh => eachThread sh fun v j x => .go (selected o sh v j x) []) launch)
      (fun o s b slot g m hr _ => readable_checks hr rfl rfl rfl) (fun o v j _ _ => rfl) ?_ ?_
    · exact fun o v j x e he => onThread_calc (shape (.selB32 o)) (_, 0) _ e he
    · exact fun o s b slot g m j now _ _ => effsThread_putV (sh := shape (.selB32 o)) (d := o.d.toNat) (w := 1) rfl now _ _ _

theorem chainsHold : Sys2Proof.Claims.ChainsHold := by
  have calc' : CalcRule Chains := chains_of
  have cmp : CmpRule ChainsCompare := chains_compare
  exact ⟨integerArithmetic_of calc', pairArithmetic_of calc', logicWords_of calc', fieldWords_of calc', floatArithmetic_of calc', floatPacked_of calc',
    floatFunctions_of calc', conversions_of calc', packing_of calc', scaling_of calc', dots_of calc', integerCompares_of cmp, floatCompares_of cmp,
    predicateLogicAndSelect_chains⟩

/-- Settles O59: certainty points and replays from the fates of a step's threads, chains word by word. -/
theorem stepRules : Obligations.StepRules := ⟨certaintyPoints, replaysHold, chainsHold⟩

end Sys2Proof.Machine
end

section
/-! The ends of steps and packets: where a bundle goes on, and the entries that its threads join (R14, R31, R169, R173); with the loop words, O11. -/

namespace Sys2Proof.Machine

/-! Threads that join one frontier after another. -/

/-- The entries of a frontier that threads have joined at a start. -/
theorem mem_joined {now cyc : Nat} {start mask : Word} {f : List FEntry} (once : (f.map (·.start)).Nodup) (e : FEntry) : e ∈ joined now cyc start mask f ↔
    (e ∈ f ∧ e.start ≠ start) ∨ (∃ old ∈ f, old.start = start ∧ e = { old with wait := old.wait ||| mask, joined := cyc }) ∨
      (∀ old ∈ f, old.start ≠ start) ∧ e = newEntry now cyc 0 start mask := by
  induction f with
  | nil => simp [joined, addWait]
  | cons x r ih =>
    rw [List.map_cons, List.nodup_cons] at once
    obtain ⟨new, once⟩ := once
    have rest := ih once
    by_cases here : x.start = start
    · subst here
      have others : ∀ y ∈ r, y.start ≠ x.start := fun y hy h => new (List.mem_map.mpr ⟨y, hy, h⟩)
      simp only [joined, addWait, if_true, Option.getD_some, List.mem_cons]
      constructor
      · rintro (rfl | hr)
        · exact .inr (.inl ⟨x, .inl rfl, rfl, rfl⟩)
        · exact .inl ⟨.inr hr, others e hr⟩
      · rintro (⟨rfl | hr, ne⟩ | ⟨old, rfl | hr, hs, rfl⟩ | ⟨none, _⟩)
        · exact absurd rfl ne
        · exact .inr hr
        · exact .inl rfl
        · exact absurd hs (others old hr)
        · exact absurd rfl (none x (.inl rfl))
    · have tail : joined now cyc start mask (x :: r) = x :: joined now cyc start mask r := by
        simp only [joined, addWait, if_neg here]
        cases addWait cyc start mask r <;> rfl
      rw [tail, List.mem_cons, rest]
      constructor
      · rintro (rfl | ⟨hr, ne⟩ | ⟨old, hr, hs, he⟩ | ⟨none, he⟩)
        · exact .inl ⟨.head _, here⟩
        · exact .inl ⟨.tail _ hr, ne⟩
        · exact .inr (.inl ⟨old, .tail _ hr, hs, he⟩)
        · exact .inr (.inr ⟨fun y hy => (List.mem_cons.mp hy).elim (fun h => h ▸ here) (none y), he⟩)
      · rintro (⟨hr, ne⟩ | ⟨old, hr, hs, he⟩ | ⟨none, he⟩)
        · exact (List.mem_cons.mp hr).imp id fun hr => .inl ⟨hr, ne⟩
        · rcases List.mem_cons.mp hr with rfl | hr
          · exact absurd hs here
          · exact .inr (.inr (.inl ⟨old, hr, hs, he⟩))
        · exact .inr (.inr (.inr ⟨fun y hy => none y (.tail _ hy), he⟩))

/-- The starts of a frontier that threads have joined. -/
theorem map_start_joined (now cyc : Nat) (start mask : Word) (f : List FEntry) :
    (joined now cyc start mask f).map (·.start) = if start ∈ f.map (·.start) then f.map (·.start) else f.map (·.start) ++ [start] := by
  induction f with
  | nil => rfl
  | cons x r ih =>
    by_cases here : x.start = start
    · simp [joined, addWait, here]
    · have tail : joined now cyc start mask (x :: r) = x :: joined now cyc start mask r := by
        simp only [joined, addWait, if_neg here]
        cases addWait cyc start mask r <;> rfl
      rw [tail, List.map_cons, ih, List.map_cons]
      have ne : start ≠ x.start := Ne.symm here
      simp only [List.mem_cons, ne, false_or]
      split <;> rfl

/-- What a frontier has become after threads have joined it, each at its own start q. -/
structure Joins (now cyc : Nat) (q : Nat → Word) (f0 : List FEntry) (is : List Nat) (f : List FEntry) : Prop where
  once : (f.map (·.start)).Nodup
  starts : ∀ x, x ∈ f.map (·.start) ↔ x ∈ f0.map (·.start) ∨ x ∈ is.map q
  waits : ∀ e ∈ f, ∀ j < 32, hasBit e.wait j = true ↔ (∃ old ∈ f0, old.start = e.start ∧ hasBit old.wait j = true) ∨ (j ∈ is ∧ q j = e.start)
  joined : ∀ e ∈ f, e.start ∈ is.map q → e.joined = cyc
  kept : ∀ e ∈ f, ∀ old ∈ f0, old.start = e.start → e.age = old.age
  new : ∀ e ∈ f, (∀ old ∈ f0, old.start ≠ e.start) → e.age = now

/-- Entries of one start are one entry. -/
theorem entry_unique {f : List FEntry} (once : (f.map (·.start)).Nodup) {x y : FEntry} (hx : x ∈ f) (hy : y ∈ f) (h : x.start = y.start) : x = y :=
  List.inj_on_of_nodup_map once hx hy h

section
variable {now cyc : Nat} {q : Nat → Word} {f0 f : List FEntry} {is : List Nat}

theorem Joins.refl (once : (f0.map (·.start)).Nodup) : Joins now cyc q f0 [] f0 where
  once := once
  starts x := by simp
  waits e he j _ := by
    constructor
    · exact fun h => .inl ⟨e, he, rfl, h⟩
    · rintro (⟨old, ho, hs, h⟩ | ⟨h, _⟩)
      · rwa [← entry_unique once ho he hs]
      · cases h
  joined e _ h := by cases h
  kept e he old ho h := by rw [entry_unique once ho he h]
  new e he none := absurd rfl (none e he)

theorem Joins.step (h : Joins now cyc q f0 is f) {i : Nat} : Joins now cyc q f0 (is ++ [i]) (Machine.joined now cyc (q i) (oneBit i) f) where
  once := by
    rw [map_start_joined]
    split
    · exact h.once
    · next new => exact List.nodup_append.mpr ⟨h.once, List.nodup_singleton _, fun a ha b hb => by rintro rfl; exact new (List.mem_singleton.mp hb ▸ ha)⟩
  starts x := by
    rw [map_start_joined, List.map_append, List.mem_append, ← or_assoc, ← h.starts x]
    split
    · next there =>
      constructor
      · exact .inl
      · rintro (hx | hx)
        · exact hx
        · rw [List.map_singleton, List.mem_singleton] at hx; exact hx ▸ there
    · exact List.mem_append
  waits e he j hj := by
    have bit : hasBit (oneBit i) j = true ↔ i = j := by rw [hasBit_oneBit i j hj, decide_eq_true_eq]
    have or' : ∀ a b : Word, hasBit (a ||| b) j = true ↔ hasBit a j = true ∨ hasBit b j = true := fun a b => by simp [hasBit]
    rcases (mem_joined h.once e).mp he with ⟨hf, ne⟩ | ⟨old, hf, hs, rfl⟩ | ⟨none, rfl⟩
    · rw [h.waits e hf j hj, List.mem_append, List.mem_singleton]
      refine or_congr Iff.rfl ⟨fun ⟨hi, hq⟩ => ⟨.inl hi, hq⟩, ?_⟩
      rintro ⟨hi | rfl, hq⟩
      · exact ⟨hi, hq⟩
      · exact absurd hq.symm ne
    · rw [or', bit, h.waits old hf j hj, List.mem_append, List.mem_singleton, or_assoc]
      refine or_congr Iff.rfl ?_
      constructor
      · rintro (⟨hi, hq⟩ | rfl)
        · exact ⟨.inl hi, hq⟩
        · exact ⟨.inr rfl, hs.symm⟩
      · rintro ⟨hi | rfl, hq⟩
        · exact .inl ⟨hi, hq⟩
        · exact .inr rfl
    · have gone : ∀ old ∈ f0, old.start ≠ q i := fun old ho hq => by
        obtain ⟨e, he, hs⟩ := List.mem_map.mp ((h.starts (q i)).mpr (.inl (hq ▸ List.mem_map_of_mem ho)))
        exact none e he hs
      have first : ∀ j ∈ is, q j ≠ q i := fun j hj hq => by
        obtain ⟨e, he, hs⟩ := List.mem_map.mp ((h.starts (q i)).mpr (.inr (hq ▸ List.mem_map_of_mem hj)))
        exact none e he hs
      show hasBit (oneBit i) j = true ↔ _
      rw [bit, List.mem_append, List.mem_singleton]
      constructor
      · rintro rfl; exact .inr ⟨.inr rfl, rfl⟩
      · rintro (⟨old, ho, hs, _⟩ | ⟨hi | rfl, hq⟩)
        · exact absurd hs (gone old ho)
        · exact absurd hq (first j hi)
        · rfl
  joined e he hi := by
    rcases (mem_joined h.once e).mp he with ⟨hf, ne⟩ | ⟨old, hf, hs, rfl⟩ | ⟨none, rfl⟩
    · refine h.joined e hf ?_
      rw [List.map_append, List.mem_append, List.map_singleton, List.mem_singleton] at hi
      exact hi.resolve_right ne
    · rfl
    · rfl
  kept e he old ho hs := by
    rcases (mem_joined h.once e).mp he with ⟨hf, ne⟩ | ⟨x, hf, hx, rfl⟩ | ⟨none, rfl⟩
    · exact h.kept e hf old ho hs
    · exact h.kept x hf old ho hs
    · have at' : old.start = q i := hs
      obtain ⟨e, he, hq⟩ := List.mem_map.mp ((h.starts (q i)).mpr (.inl (at' ▸ List.mem_map_of_mem ho)))
      exact absurd hq (none e he)
  new e he gone := by
    rcases (mem_joined h.once e).mp he with ⟨hf, ne⟩ | ⟨x, hf, hx, rfl⟩ | ⟨none, rfl⟩
    · exact h.new e hf gone
    · exact h.new x hf gone
    · rfl

/-- A frontier that no more than n entries result in has room for the next thread. -/
theorem Joins.fits (h : Joins now cyc q f0 is f) {n i : Nat} {pcs : List Word} (sub : is.map q ⊆ pcs) (hi : q i ∈ pcs)
    (room : (f0.map (·.start) ++ pcs).dedup.length ≤ n) : Fits n (q i) f := by
  by_cases there : q i ∈ f.map (·.start)
  · obtain ⟨e, he, hs⟩ := List.mem_map.mp there
    exact .inr ⟨e, he, hs⟩
  · refine .inl (Nat.lt_of_lt_of_le ?_ room)
    have once : (q i :: f.map (·.start)).Nodup := List.nodup_cons.mpr ⟨there, h.once⟩
    have within : q i :: f.map (·.start) ⊆ (f0.map (·.start) ++ pcs).dedup := fun x hx => by
      rw [List.mem_dedup, List.mem_append]
      rcases List.mem_cons.mp hx with rfl | hx
      · exact .inr hi
      · exact ((h.starts x).mp hx).imp id fun hx => sub hx
    simpa using (List.subperm_of_subset once within).length_le

end

/-! The threads of a completed packet. -/

/-- The group as a thread leaves it that completes a packet: the thread has gone to its next PC, and waits in the entry there. -/
def leaveIn (now cyc : Nat) (pc : Word) (g : Group) (i : Nat) : Group :=
  let n := nextPc (threadAt g i) pc
  { modThread g i (fun t => { t with xfer := none, loops := n.2 }) with frontier := joined now cyc n.1 (oneBit i) g.frontier }

theorem leaveThread_fits {s : State} {k slot i : Nat} {g : Group} (hg : groupAt (coreAt s k) slot = some g) (pc : Word) (pos : Nat)
    (h : Fits 16 (nextPc (threadAt g i) pc).1 g.frontier) :
    leaveThread k slot none pc pos s i = modCore s k fun c => setGroup c slot (leaveIn s.now (cycOf s k) pc g i) := by
  have mid : ∀ f, groupAt (coreAt (modCore s k fun c => setGroup c slot (modThread g i f)) k) slot = some (modThread g i f) := fun f => by
    rw [coreAt_modCore_same]; exact tfind_tput_same ..
  simp only [leaveThread, hg, joinAt, mid]
  rw [joinFrontier_fits (g := modThread g i _) h, modCore_modCore]
  simp only [setGroup, tput_tput]
  rfl

/-- What a state and a later one have in common where threads have only joined frontiers of a group of core k. -/
structure OnlyJoined (s t : State) (k slot : Nat) (h : Group) : Prop where
  group : groupAt (coreAt t k) slot = some h
  mem : t.mem = s.mem
  now : t.now = s.now
  tcs : t.tcs = s.tcs
  bundles : (coreAt t k).ctx.bundles = (coreAt s k).ctx.bundles

theorem foldl_leaveThread {k slot : Nat} {pc : Word} {pos : Nat} {now cyc : Nat} {q : Nat → Word} {f0 : List FEntry} {pcs : List Word}
    (room : (f0.map (·.start) ++ pcs).dedup.length ≤ 16) (is : List Nat) : ∀ {done : List Nat} {s : State} {g : Group}, s.now = now → cycOf s k = cyc →
    groupAt (coreAt s k) slot = some g → (done ++ is).Nodup → (∀ i ∈ done ++ is, q i ∈ pcs) → (∀ i ∈ is, (nextPc (threadAt g i) pc).1 = q i) →
    Joins now cyc q f0 done g.frontier → OnlyJoined s (is.foldl (leaveThread k slot none pc pos) s) k slot (is.foldl (leaveIn now cyc pc) g) ∧
      Joins now cyc q f0 (done ++ is) (is.foldl (leaveIn now cyc pc) g).frontier := by
  induction is with
  | nil =>
    intro done s g _ _ hg _ _ _ h
    exact ⟨⟨hg, rfl, rfl, rfl, rfl⟩, by rwa [List.append_nil]⟩
  | cons i r ih =>
    intro done s g hn hc hg nodup pcs' next h
    have at' := next i (List.mem_cons_self ..)
    have fits : Fits 16 (nextPc (threadAt g i) pc).1 g.frontier := at' ▸ h.fits
      (fun x hx => by obtain ⟨j, hj, rfl⟩ := List.mem_map.mp hx; exact pcs' j (List.mem_append_left _ hj)) (pcs' i (by simp)) room
    have step := leaveThread_fits hg pc pos fits
    rw [hn, hc] at step
    have frontier : (leaveIn now cyc pc g i).frontier = joined now cyc (q i) (oneBit i) g.frontier := by rw [← at']; rfl
    have others : ∀ j ∈ r, threadAt (leaveIn now cyc pc g i) j = threadAt g j := fun j hj => by
      refine threadAt_modThread_ne g _ ?_
      rintro rfl
      exact (List.nodup_cons.mp (List.nodup_append.mp nodup).2.1).1 hj
    obtain ⟨only, joins⟩ := ih (done := done ++ [i]) (s := modCore s k fun c => setGroup c slot (leaveIn now cyc pc g i)) (g := leaveIn now cyc pc g i) hn hc
      (by rw [coreAt_modCore_same]; exact tfind_tput_same ..) (by simpa using nodup) (by simpa using pcs')
      (fun j hj => by rw [others j hj]; exact next j (List.mem_cons_of_mem _ hj)) (frontier ▸ h.step)
    rw [List.foldl_cons, List.foldl_cons, step]
    refine ⟨⟨only.group, only.mem, only.now, only.tcs, only.bundles.trans ?_⟩, by simpa using joins⟩
    rw [coreAt_modCore_same]
    rfl

/-- Each thread of a completed packet has gone to its next PC, and nothing but the frontier differs beside. -/
theorem foldl_leaveIn (now cyc : Nat) (pc : Word) {is : List Nat} (nodup : is.Nodup) : ∀ g : Group, g.threads.length = 32 →
    (is.foldl (leaveIn now cyc pc) g).s = g.s ∧ ∀ j < 32, threadAt (is.foldl (leaveIn now cyc pc) g) j =
      if j ∈ is then { threadAt g j with xfer := none, loops := (nextPc (threadAt g j) pc).2 } else threadAt g j := by
  induction is with
  | nil => exact fun g _ => ⟨rfl, fun j _ => by simp⟩
  | cons i r ih =>
    intro g lanes
    obtain ⟨new, nodup⟩ := List.nodup_cons.mp nodup
    obtain ⟨hs, ht⟩ := ih nodup (leaveIn now cyc pc g i) ((length_lmod ..).trans lanes)
    refine ⟨hs, fun j hj => ?_⟩
    rw [List.foldl_cons, ht j hj]
    by_cases here : j = i
    · subst here
      rw [if_neg new, if_pos (List.mem_cons_self ..)]
      exact threadAt_modThread_same g j _ (by omega)
    · have same : threadAt (leaveIn now cyc pc g i) j = threadAt g j := threadAt_modThread_ne g _ here
      rw [same]
      simp only [List.mem_cons, here, false_or]

/-! The next packet of a thread, and the next place of a bundle. -/

theorem popLeft_filter (ls : List Loop) (q : Word) : popLeft ls q = ls.filter fun l => decide (l.start.toNat ≤ q.toNat) && decide (q.toNat ≤ l.stop.toNat) := by
  induction ls with
  | nil => rfl
  | cons l r ih => rw [popLeft, List.filter_cons, ih]

theorem nextPc_loop (t : Thread) (pc : Word) : nextPc t pc = match t.xfer, t.loops with
    | some q, ls => (q, ls.filter fun (l : Loop) => decide (l.start.toNat ≤ q.toNat) && decide (q.toNat ≤ l.stop.toNat))
    | none, [] => (pc + 1, [])
    | none, l :: r => if l.stop ≠ pc then (pc + 1, l :: r) else if l.count = 1 then (pc + 1, r) else (l.start, { l with count := l.count - 1 } :: r) := by
  unfold nextPc
  cases t.xfer with
  | some q => exact congrArg (Prod.mk q) (popLeft_filter t.loops q)
  | none =>
    cases t.loops with
    | nil => rfl
    | cons l r =>
      have last : l.count - 1 = 0 ↔ l.count = 1 := by bv_omega
      by_cases h : l.stop = pc
      · simp only [h, if_true, last, ne_eq, not_true, if_false]
      · simp only [h, if_false, ne_eq, not_false_iff, if_true]

theorem lget_drop {α : Type} (d : α) (l : List α) (n k : Nat) : lget d (l.drop n) k = lget d l (n + k) := by
  induction n generalizing l with
  | zero => rw [List.drop_zero, Nat.zero_add]
  | succ n ih =>
    cases l with
    | nil => rfl
    | cons x r => rw [List.drop_succ_cons, ih, Nat.add_right_comm]; rfl

/-- Whether a bundle's chain goes on after n words, by the chain bit of the last of them (R31). -/
theorem chained_iff {b : Bundle} {p : Pkt} (hp : b.pkt = some p) {n : Nat} (pos : 1 ≤ n) :
    chained b n = true ↔ b.pos + n ≠ 3 ∧ lget 0 [p.w0, p.w1, p.w2] (b.pos + n - 1) / 2 ^ 31 % 2 = 1 := by
  have word : lget 0 (wordsFrom b) (n - 1) = lget 0 [p.w0, p.w1, p.w2] (b.pos + n - 1) := by
    rw [wordsFrom, hp]
    show lget 0 (p.words.drop b.pos) (n - 1) = _
    rw [lget_drop, Nat.add_sub_assoc pos]; rfl
  have last : b.pos + n - 1 ≠ 2 ↔ b.pos + n ≠ 3 := by omega
  rw [chained, chainBit, word, Bool.and_eq_true, bne_iff_ne, last, beq_iff_eq]
  rfl

/-- A bundle past words of its packet, where the step goes on (R31). -/
theorem advance_tied {s : State} {k bid n : Nat} {b : Bundle} (hb : bundleAt (coreAt s k) bid = some b) (issued : b.issued = true) (nowait : b.wait = none)
    (kept : b.kept = false) (tied : chained b n = true) :
    advance s k bid n = modCore s k fun c => setBundle c bid { b with pos := b.pos + n, issued := false, flow := !b.yield } := by
  simp [advance, hb, issued, nowait, kept, tied]

/-- A bundle past a step, with words left in its packet. -/
theorem advance_within {s : State} {k bid n : Nat} {b : Bundle} (hb : bundleAt (coreAt s k) bid = some b) (issued : b.issued = true) (nowait : b.wait = none)
    (kept : b.kept = false) (free : chained b n = false) (within : b.pos + n < 3) :
    advance s k bid n = modCore s k fun c => setBundle c bid
      { b with pos := b.pos + n, stepPos := b.pos + n, issued := false, fresh := false, flow := !b.fresh && !b.yield } := by
  simp [advance, hb, issued, nowait, kept, free, within]

/-- A bundle past its packet. -/
theorem advance_past {s : State} {k bid n : Nat} {b : Bundle} (hb : bundleAt (coreAt s k) bid = some b) (issued : b.issued = true) (nowait : b.wait = none)
    (kept : b.kept = false) (free : chained b n = false) (past : b.pos + n = 3) : advance s k bid n = completePacket s k bid { b with fresh := false } := by
  simp [advance, hb, issued, nowait, kept, free, past]

theorem packetEnds : Sys2Proof.Claims.PacketEnds := by
  intro s k bid slot n b g m p hb hp issued nowait kept pos within at' tied stands
  have chain : chained b n = true ↔ tied := chained_iff hp pos
  have free : ¬ tied → chained b n = false := fun h => Bool.eq_false_iff.mpr fun e => h (chain.mp e)
  have past : at' = 3 → ¬ tied := fun e h => h.1 e
  refine ⟨fun h => advance_tied hb issued nowait kept (chain.mpr h), fun h low => advance_within hb issued nowait kept (free h) low, fun e open' => ?_,
    fun e sealed parts top hg lanes once => ?_⟩
  · show advance s k bid n = _
    rw [advance_past hb issued nowait kept (free (past e)) e]
    simp only [completePacket, hp]
    rw [if_neg (by simpa using open')]
  · intro next pcs room t
    have ends : t = b.parts.foldl (fun a p => (members p.mask).foldl (leaveThread k p.slot b.sub b.pc b.stepPos) a) (modCore s k fun c => tidyRun (delBundle c bid)) := by
      show advance s k bid n = _
      rw [advance_past hb issued nowait kept (free (past e)) e]
      simp only [completePacket, hp]
      rw [if_pos (by simpa using sealed)]
    rw [parts, top, List.foldl_cons, List.foldl_nil] at ends
    have goes : ∀ j, nextPc (threadAt g j) b.pc = next (threadAt g j) := fun j => nextPc_loop ..
    have here : groupAt (coreAt (modCore s k fun c => tidyRun (delBundle c bid)) k) slot = some g := by rw [coreAt_modCore_same]; exact hg
    obtain ⟨only, joins⟩ := foldl_leaveThread (pc := b.pc) (pos := b.stepPos) (now := s.now) (cyc := cycOf s k) (q := fun j => (next (threadAt g j)).1) room (members m)
      (done := []) (s := modCore s k fun c => tidyRun (delBundle c bid)) (slot := slot) rfl rfl here (nodup_members m) (fun j hj => List.mem_map_of_mem hj) (fun j _ => congrArg Prod.fst (goes j)) (Joins.refl once)
    obtain ⟨hs, ht⟩ := foldl_leaveIn s.now (cycOf s k) b.pc (nodup_members m) g lanes
    rw [List.nil_append] at joins
    have present : ∀ j < 32, j ∈ members m ↔ hasBit m j = true := fun j hj => by simp [mem_members, hj]
    have starts : ∀ (l : List FEntry) x, x ∈ l.map (·.start) ↔ ∃ e ∈ l, e.start = x := fun l x => List.mem_map
    rw [ends]
    refine ⟨only.mem, ?_, _, only.group, hs, fun j hj => ?_, fun x => ?_, fun e he => ⟨fun j hj => ?_, joins.joined e he, joins.kept e he, joins.new e he⟩⟩
    · rw [bundleAt, only.bundles, coreAt_modCore_same]
      exact tfind_tdel_same ..
    · rw [ht j hj, goes j]
      exact if_congr (present j hj) rfl rfl
    · rw [← starts, joins.starts x, starts]
    · rw [joins.waits e he j hj, present j hj]

/-- Settles O11: the loop words by their rule of each thread, the ends of packets by the entries that threads join one after another. -/
theorem loops : Obligations.Loops := ⟨loopWords, packetEnds⟩

end Sys2Proof.Machine
end

section
/-! The return from a trap (R379): what a thread has back, and where it resumes. It settles O57. -/

namespace Sys2Proof.Machine

/-! What a core fetches does not depend on its groups and bundles. -/

section
variable (s : State) (k : Nat) (c : Core)

theorem keyRead_setCore (key : Option Nat) (a n : Nat) : keyRead (setCore s k c) key a n = keyRead s key a n := by
  induction n generalizing a with
  | zero => rfl
  | succ n ih => simp only [keyRead, ih]; rfl

theorem pieceRead_setCore (p : Piece) : pieceRead (setCore s k c) p = pieceRead s p := by
  simp only [pieceRead, keyRead_setCore]
  rfl

theorem walkFrom_setCore (va access level base at' : Nat) : walkFrom (setCore s k c) va access level base at' = walkFrom s va access level base at' := by
  induction level generalizing base at' with
  | zero => rfl
  | succ level ih => simp only [walkFrom, ih]; rfl

theorem peekVa_setCore {d e : Core} (tlb : d.tlb = e.tlb) (root va access n : Nat) : peekVa (setCore s k c) d root va access n = peekVa s e root va access n := by
  have hit : tlbHit (setCore s k c) d root va access = tlbHit s e root va access := by rw [tlbHit, tlb]; rfl
  have walk : walkTable (setCore s k c) root va access = walkTable s root va access := walkFrom_setCore ..
  have leaf : ∀ x pa n, leafPiece (setCore s k c) x pa n = leafPiece s x pa n := fun _ _ _ => rfl
  simp only [peekVa, hit, walk, leaf, pieceRead_setCore]

end

/-- A change of a core that keeps its translations leaves the code as it was. -/
theorem peekCode_modCore (s : State) {k : Nat} {f : Core → Core} (tlb : (f (coreAt s k)).tlb = (coreAt s k).tlb) (hdr : Hdr) (va : Nat) :
    peekCode (modCore s k f) k hdr va = peekCode s k hdr va := by
  simp only [peekCode, coreAt_modCore_same]
  exact if_congr Iff.rfl rfl (peekVa_setCore s k _ tlb ..)

theorem isBlockStart_modCore (s : State) {k : Nat} {f : Core → Core} (tlb : (f (coreAt s k)).tlb = (coreAt s k).tlb) (hdr : Hdr) (n : Nat) :
    isBlockStart (modCore s k f) k hdr n = isBlockStart s k hdr n := by
  simp only [isBlockStart, sealedAt, peekCode_modCore s tlb]

/-! A thread sent to a position. -/

/-- A thread sent to a block start, where its group's frontier has room: it joins the entry there. -/
theorem resumeAt_start {s : State} {k slot : Nat} {g : Group} (hg : groupAt (coreAt s k) slot = some g) {q : Word}
    (start : isBlockStart s k (hdrOf s g.lseq) q.toNat = true) (fits : Fits 16 q g.frontier) (lo i : Nat) :
    resumeAt s k slot lo q 0 i = modCore s k fun c => setGroup c slot { g with frontier := joined s.now (cycOf s k) q (oneBit i) g.frontier } := by
  simp only [resumeAt, hg, start, decide_true, Bool.and_true, if_true]
  exact joinFrontier_fits fits k slot (oneBit i)

/-- A thread sent inside a packet or a block: an open bundle of its group stands there and carries it, and the groups of the core are as before. -/
theorem resumeAt_inside {s : State} {k slot : Nat} {g : Group} (hg : groupAt (coreAt s k) slot = some g) {q : Word} {pos : Nat}
    (inside : (pos = 0 && isBlockStart s k (hdrOf s g.lseq) q.toNat) = false) (lo : Nat) {i : Nat} (hi : i < 32) :
    (coreAt (resumeAt s k slot lo q pos i) k).ctx.groups = (coreAt s k).ctx.groups ∧
    ∃ bid b, bundleAt (coreAt (resumeAt s k slot lo q pos i) k) bid = some b ∧ b.pc = q ∧ b.pos = pos ∧ b.sub = none ∧
      ∃ p ∈ b.parts, p.slot = slot ∧ hasBit p.mask i = true := by
  have one : hasBit (oneBit i) i = true := by rw [hasBit_oneBit i i hi]; exact decide_eq_true rfl
  simp only [resumeAt, hg, inside, Bool.false_eq_true, if_false, coreAt_modCore_same]
  split
  · next bid b found =>
    refine ⟨rfl, bid, _, tfind_tput_same .., ?_⟩
    have ok := (lfind_some found).2
    simp only [Bool.and_eq_true, beq_iff_eq, decide_eq_true_eq] at ok
    obtain ⟨⟨⟨⟨_, hpc⟩, hpos⟩, hsub⟩, hparts⟩ := ok
    obtain ⟨p, hp, hs⟩ := List.map_eq_singleton_iff.mp hparts
    refine ⟨hpc, hpos, hsub, { p with mask := p.mask ||| oneBit i }, ?_, hs, by simp [hasBit] at one ⊢; exact .inr one⟩
    simp [hp, joinParts, joinPart, hs]
  · exact ⟨rfl, _, _, tfind_tput_same .., rfl, rfl, rfl, _, List.mem_singleton_self _, rfl, one⟩

/-! The group that a thread has left its trap in. -/

/-- The group as a thread leaves its sub-group in it, changed to x. -/
def backIn (g : Group) (i : Nat) (x : Thread) : Group := leaveSub (modThread g i fun _ => x) i

/-- What a later state holds of a group one of whose threads has returned from its trap: the thread is x and in no sub-group, the others are as they were. -/
def Returns (t : State) (k slot i : Nat) (g : Group) (x : Thread) (rest : Group → Prop) : Prop :=
  ∃ h, groupAt (coreAt t k) slot = some h ∧ threadAt h i = x ∧ (∀ j, j ≠ i → threadAt h j = threadAt g j) ∧ (∀ y ∈ h.subs, hasBit y.2.members i = false) ∧
    h.s = g.s ∧ rest h

theorem hasBit_andNot_oneBit (m : Word) {i : Nat} (hi : i < 32) : hasBit (m &&& ~~~(oneBit i)) i = false := by
  have one : hasBit (oneBit i) i = true := by rw [hasBit_oneBit i i hi]; exact decide_eq_true rfl
  simp only [hasBit, BitVec.getLsbD_and, BitVec.getLsbD_not] at one ⊢
  simp [one]

theorem subs_backIn (g : Group) {i : Nat} (hi : i < 32) (x : Thread) : ∀ y ∈ (backIn g i x).subs, hasBit y.2.members i = false := by
  have left : ∀ t : Tab Sub, ∀ y ∈ tmap t (fun _ z => { z with members := z.members &&& ~~~(oneBit i) }), hasBit y.2.members i = false := by
    intro t
    induction t with
    | nil => exact fun _ h => by cases h
    | cons z r ih =>
      intro y hy
      rcases List.mem_cons.mp hy with rfl | hy
      · exact hasBit_andNot_oneBit _ hi
      · exact ih y hy
  exact fun y hy => left _ y (List.mem_filter.mp hy).1

section
variable {s : State} {k slot i : Nat} {g : Group} (lanes : g.threads.length = 32) (hi : i < 32)
include lanes hi

theorem returns_backIn {t : State} {x : Thread} {f : List FEntry} (ht : groupAt (coreAt t k) slot = some { backIn g i x with frontier := f }) {rest : Group → Prop}
    (hr : rest { backIn g i x with frontier := f }) : Returns t k slot i g x rest :=
  ⟨_, ht, threadAt_modThread_same g i _ (by omega), fun _ hj => threadAt_modThread_ne g _ hj, subs_backIn g hi x, rfl, hr⟩

/-- A thread that resumes inside a packet or a block. -/
theorem resumeAt_backIn_inside (x : Thread) {q : Word} {pos : Nat} (inside : (pos = 0 && isBlockStart s k (hdrOf s g.lseq) q.toNat) = false) (lo : Nat) :
    let t := resumeAt (modCore s k fun c => setGroup c slot (backIn g i x)) k slot lo q pos i
    Returns t k slot i g x fun h => h.frontier = g.frontier ∧ ∃ bid b, bundleAt (coreAt t k) bid = some b ∧ b.pc = q ∧ b.pos = pos ∧ b.sub = none ∧
      ∃ p ∈ b.parts, p.slot = slot ∧ hasBit p.mask i = true := by
  intro t
  have here : groupAt (coreAt (modCore s k fun c => setGroup c slot (backIn g i x)) k) slot = some (backIn g i x) := by
    rw [coreAt_modCore_same]; exact tfind_tput_same ..
  have same : isBlockStart (modCore s k fun c => setGroup c slot (backIn g i x)) k (hdrOf s g.lseq) q.toNat = isBlockStart s k (hdrOf s g.lseq) q.toNat :=
    isBlockStart_modCore s rfl ..
  obtain ⟨groups, open'⟩ := resumeAt_inside here (q := q) (pos := pos) (same ▸ inside) lo hi
  exact returns_backIn lanes hi (f := g.frontier) ((congrArg (fun gs => tfind gs slot) groups).trans here) ⟨rfl, open'⟩

/-- A thread that resumes at a block start. -/
theorem resumeAt_backIn_start (x : Thread) {q : Word} (start : isBlockStart s k (hdrOf s g.lseq) q.toNat = true) (fits : Fits 16 q g.frontier) (lo : Nat) :
    let t := resumeAt (modCore s k fun c => setGroup c slot (backIn g i x)) k slot lo q 0 i
    Returns t k slot i g x fun h => (∃ e ∈ h.frontier, e.start = q ∧ hasBit e.wait i = true) ∧ (coreAt t k).ctx.bundles = (coreAt s k).ctx.bundles := by
  intro t
  have here : groupAt (coreAt (modCore s k fun c => setGroup c slot (backIn g i x)) k) slot = some (backIn g i x) := by
    rw [coreAt_modCore_same]; exact tfind_tput_same ..
  have same : isBlockStart (modCore s k fun c => setGroup c slot (backIn g i x)) k (hdrOf s g.lseq) q.toNat = isBlockStart s k (hdrOf s g.lseq) q.toNat :=
    isBlockStart_modCore s rfl ..
  have at' : t = _ := resumeAt_start here (same.trans start) fits lo i
  obtain ⟨e, he, hs, hw⟩ := joined_waits s.now (cycOf s k) q (oneBit i) g.frontier
  refine returns_backIn lanes hi (f := joined s.now (cycOf s k) q (oneBit i) g.frontier) ?_
    ⟨⟨e, he, hs, hw i (by rw [hasBit_oneBit i i hi]; exact decide_eq_true rfl)⟩, ?_⟩
  · rw [at', coreAt_modCore_same]
    exact tfind_tput_same ..
  · rw [at', coreAt_modCore_same, coreAt_modCore_same]
    rfl

end

/-! The step after the trapping one. -/

/-- The step from a position ends at n, past the words chained to it (R31). -/
theorem afterStep_eq {p : Pkt} {pos n : Nat} (some : pos < n) (within : n ≤ 3) (tied : ∀ j, pos ≤ j → j + 1 < n → lget 0 [p.w0, p.w1, p.w2] j / 2 ^ 31 = 1)
    (last : n = 3 ∨ lget 0 [p.w0, p.w1, p.w2] (n - 1) / 2 ^ 31 ≠ 1) : afterStep p pos = n := by
  have first := tied pos le_rfl
  have second := tied (pos + 1) (Nat.le_succ _)
  have low : pos ≤ 2 := by omega
  interval_cases pos <;> interval_cases n <;> simp_all [afterStep, lget]

theorem lget_getElem {α : Type} (d : α) (l : List α) {j : Nat} (h : j < l.length) : lget d l j = l[j] := by
  induction l generalizing j with
  | nil => cases h
  | cons x r ih =>
    cases j with
    | zero => rfl
    | succ j => exact ih (Nat.lt_of_succ_lt_succ h)

theorem any_drop_take {α : Type} (d : α) (l : List α) (pos n : Nat) (f : α → Bool) :
    ((l.take n).drop pos).any f = true ↔ ∃ j, pos ≤ j ∧ j < n ∧ j < l.length ∧ f (lget d l j) = true := by
  rw [List.any_eq_true]
  constructor
  · rintro ⟨x, hx, hf⟩
    obtain ⟨j, hj, rfl⟩ := List.mem_iff_getElem.mp hx
    rw [List.length_drop, List.length_take] at hj
    refine ⟨pos + j, by omega, by omega, by omega, ?_⟩
    rw [lget_getElem d l (by omega)]
    simpa using hf
  · rintro ⟨j, low, high, len, hf⟩
    refine ⟨_, List.mem_iff_getElem.mpr ⟨j - pos, ?_, rfl⟩, ?_⟩
    · rw [List.length_drop, List.length_take]; omega
    · rw [lget_getElem d l len] at hf
      simpa [Nat.add_sub_cancel' low] using hf

/-- Whether a word of the step is trap or bkpt. -/
theorem any_isTrapWord {p : Pkt} {pos n : Nat} (within : n ≤ 3) : ((p.words.take n).drop pos).any isTrapWord = true ↔
    ∃ j, pos ≤ j ∧ j < n ∧ lget 0 [p.w0, p.w1, p.w2] j / 2 ^ 26 % 32 = 23 ∧
      (lget 0 [p.w0, p.w1, p.w2] j / 2 ^ 18 % 128 = 7 ∨ lget 0 [p.w0, p.w1, p.w2] j / 2 ^ 18 % 128 = 8) := by
  rw [show p.words = [p.w0, p.w1, p.w2] from rfl, any_drop_take 0]
  refine exists_congr fun j => ⟨?_, ?_⟩
  · rintro ⟨low, high, _, trap⟩
    exact ⟨low, high, by simpa [isTrapWord] using trap⟩
  · rintro ⟨low, high, trap⟩
    exact ⟨low, high, lt_of_lt_of_le high within, by simpa [isTrapWord] using trap⟩

/-- Where a thread resumes past its step: after it, or past the packet after trap and bkpt (R379). -/
def resumePos (p : Pkt) (pos : Nat) : Nat := if ((p.words.take (afterStep p pos)).drop pos).any isTrapWord then 3 else afterStep p pos

/-- The thread that a return leaves, with some loops. -/
def cameBack (t : Thread) (loops : List Loop) : Thread :=
  { t with ringI := [], ringF := [], loops := loops, rpc := t.saved.rpc, rpv := t.saved.rpv, rpl := t.saved.rpl, xfer := none
           trap := { t.trap with stat := t.trap.stat &&& ~~~8 } }

section
variable {s : State} {k slot i : Nat} {g : Group} (hg : groupAt (coreAt s k) slot = some g)
include hg

/-- With RES = 0 a thread resumes at the step that trapped. -/
theorem returnThread_again (again : (threadAt g i).trap.stat.getLsbD 2 = false) (lo : Nat) : returnThread s k slot lo i =
    resumeAt (modCore s k fun c => setGroup c slot (backIn g i (cameBack (threadAt g i) (threadAt g i).saved.loops))) k slot lo (threadAt g i).trap.pc
      ((threadAt g i).trap.stat &&& 3).toNat i := by
  simp only [returnThread, hg, again, Bool.not_false, if_true]
  rfl

/-- With RES = 1 it resumes past the step, or at the next packet. -/
theorem returnThread_past (past : (threadAt g i).trap.stat.getLsbD 2 = true) (lo : Nat) {p : Pkt}
    (hp : peekPacket s k (hdrOf s g.lseq) (threadAt g i).trap.pc.toNat = some p) : returnThread s k slot lo i =
    let old := threadAt g i
    let pos := (old.trap.stat &&& 3).toNat
    let send := fun (ls : List Loop) (q : Word) (n : Nat) =>
      resumeAt (modCore s k fun c => setGroup c slot (backIn g i (cameBack old ls))) k slot lo q n i
    if resumePos p pos < 3 then send old.saved.loops old.trap.pc (resumePos p pos)
    else
      let q := nextPc (cameBack old old.saved.loops) old.trap.pc
      send q.2 q.1 0 := by
  simp only [returnThread, hg, past, hp, Bool.not_true, Bool.false_eq_true, if_false]
  rfl

end

/-- Settles O57, through the two places where a thread can resume. -/
theorem trapReturn : Obligations.TrapReturn := by
  intro s k slot lo i g hg lanes hi old pos pc hdr back t returns inside starts at'
  have goes : ∀ (ls : List Loop) (q : Word) (n : Nat),
      t = resumeAt (modCore s k fun c => setGroup c slot (backIn g i (cameBack old ls))) k slot lo q n i →
      ((n = 0 && isBlockStart s k hdr q.toNat) = false → inside q n ls) ∧ (n = 0 → isBlockStart s k hdr q.toNat = true → starts q ls) := by
    intro ls q n e
    constructor
    · intro within
      show Returns t k slot i g (cameBack old ls) _
      rw [e]
      exact resumeAt_backIn_inside lanes hi (cameBack old ls) within lo
    · rintro rfl start room
      show Returns t k slot i g (cameBack old ls) _
      rw [e]
      exact resumeAt_backIn_start lanes hi (cameBack old ls) start room lo
  have packet : ∀ (ls : List Loop) (q : Word), t = resumeAt (modCore s k fun c => setGroup c slot (backIn g i (cameBack old ls))) k slot lo q 0 i → at' q ls :=
    fun ls q e => ⟨(goes ls q 0 e).2 rfl, fun within => (goes ls q 0 e).1 (by rw [within, Bool.and_false])⟩
  refine ⟨fun again within => ?_, fun again first => ?_, fun p n past hp => ?_⟩
  · exact (goes _ pc pos (returnThread_again hg again lo)).1 (by rw [decide_eq_false within, Bool.false_and])
  · have e := returnThread_again hg again lo
    rw [show ((threadAt g i).trap.stat &&& 3).toNat = 0 from first] at e
    exact packet _ pc e
  · intro word trapping some within tied last
    have e := returnThread_past hg past lo hp
    have ends : afterStep p pos = n := afterStep_eq some within tied last
    have traps : ((p.words.take n).drop pos).any isTrapWord = true ↔ trapping := any_isTrapWord within
    have place : resumePos p pos = if ((p.words.take n).drop pos).any isTrapWord then 3 else n := by rw [resumePos, ends]
    simp only [show ((threadAt g i).trap.stat &&& 3).toNat = pos from rfl] at e
    constructor
    · intro low plain
      rw [if_neg (mt traps.mp plain)] at place
      rw [place, if_pos low] at e
      exact (goes _ pc n e).1 (by rw [decide_eq_false (by omega : n ≠ 0), Bool.false_and])
    · intro done
      have three : resumePos p pos = 3 := by
        rcases done with last | trap
        · rw [place, last, ite_self]
        · rw [place, if_pos (traps.mpr trap)]
      rw [three, if_neg (lt_irrefl 3)] at e
      have sent := packet _ _ e
      rw [show (threadAt g i).trap.pc = pc from rfl, nextPc_loop] at sent
      simp only [cameBack] at sent
      revert sent
      show _ → match (threadAt g i).saved.loops with
        | [] => _
        | l :: r => _
      cases (threadAt g i).saved.loops with
      | nil => exact id
      | cons l r =>
        by_cases stop : l.stop = pc
        · by_cases one : l.count = 1
          · simp only [stop, one, ne_eq, not_true, if_true, if_false]; exact id
          · simp only [stop, one, ne_eq, not_true, if_false]; exact id
        · simp only [stop, ne_eq, not_false_iff, if_true]; exact id

end Sys2Proof.Machine
end

section
/-! A team placed on a core: its groups in their slots, and the charge of its tile cluster (R8, R188, R345, R348). It settles O40. -/

namespace Sys2Proof.Machine

/-! A context written to its record changes memory alone. -/

theorem saveContext_frame (s : State) (g : Group) : saveContext s g = { s with mem := (saveContext s g).mem } := by
  unfold saveContext
  split <;> rfl

theorem saveContexts_frame (gs : Tab Group) : ∀ s : State, saveContexts s gs = { s with mem := (saveContexts s gs).mem } := by
  induction gs with
  | nil => exact fun _ => rfl
  | cons g r ih =>
    intro s
    show saveContexts (saveContext s g.2) r = { s with mem := (saveContexts (saveContext s g.2) r).mem }
    rw [ih, saveContext_frame]

/-! Groups put in one slot after another. -/

/-- The groups of a core with a list of groups put in the slots from e on. -/
def putGroups {α : Type} (e : Nat) (F : Nat → α → Group) (l : List (Nat × α)) (c : Core) : Core := l.foldl (fun a y => setGroup a (e + y.1) (F y.1 y.2)) c

theorem groupAt_putGroups_past {α : Type} (e : Nat) (F : Nat → α → Group) {n : Nat} (ps : List α) : ∀ {k : Nat} (c : Core), n < k →
    groupAt (putGroups e F (imap (fun i p => (i, p)) k ps) c) (e + n) = groupAt c (e + n) := by
  induction ps with
  | nil => exact fun _ _ => rfl
  | cons p r ih => exact fun {k} c h => (ih _ (Nat.lt_succ_of_lt h)).trans (tfind_tput_ne _ (show e + n ≠ e + k by omega) _)

theorem groupAt_putGroups {α : Type} (e : Nat) (F : Nat → α → Group) {n : Nat} (ps : List α) : ∀ {k : Nat} (c : Core), k ≤ n → n < k + ps.length →
    ∃ p, groupAt (putGroups e F (imap (fun i p => (i, p)) k ps) c) (e + n) = some (F n p) := by
  induction ps with
  | nil => exact fun _ low high => absurd (low.trans_lt high) (lt_irrefl _)
  | cons p r ih =>
    intro k c low high
    rcases Nat.eq_or_lt_of_le low with rfl | low
    · exact ⟨p, (groupAt_putGroups_past e F r _ (Nat.lt_succ_self _)).trans (tfind_tput_same ..)⟩
    · exact ih _ low (by rw [List.length_cons] at high; omega)

theorem length_windowPlaces (n : Nat) : ∀ (m : Nat) (used : List Nat), (windowPlaces n m used).length = m
  | 0, _ => rfl
  | m + 1, used => by
    rw [windowPlaces]
    split <;> simp [length_windowPlaces n m]

/-- The slots that a team takes: a run from an even slot, all of them free (R164). -/
theorem slotRun_free {c : Core} {n e : Nat} (h : slotRun c n = some e) : e % 2 = 0 ∧ ∀ j < n, groupAt c (e + j) = none := by
  obtain ⟨even, ok⟩ := lfind_some h
  obtain ⟨k, _, rfl⟩ := List.mem_map.mp even
  simp only [Bool.and_eq_true, List.all_eq_true, List.mem_range, Option.isNone_iff_eq_none] at ok
  exact ⟨by omega, ok.2⟩

/-- A tile cluster charged for a team (R348). -/
def charged (h : Hdr) (t : Tc) : Tc :=
  { t with er := if t.eb < h.energy || t.ib < h.peakamp then 0 else t.er - h.energy, ic := t.ic + h.peakamp, adm := t.adm + 1 }

/-- A core with the groups of a team that starts, in the slots from e on. -/
def withTeam (s : State) (lseq : Nat) (h : Hdr) (x : Seat) (e : Nat) (c : Core) : Core :=
  putGroups e (fun n => startGroup s x.core lseq x.uid (x.uid + 1 + n) n h) (imap (fun i p => (i, p)) 0 (windowPlaces h.granules h.groups (usedGranules (coreAt s x.core) 0))) c

/-- What placing a team does: it may start, takes free slots, and only contexts are written beside (R345, R348, R350). -/
theorem placeTeam_some {s t : State} {start : Bool} {lseq : Nat} {h : Hdr} {x : Seat} (placed : placeTeam start lseq h s x = some t) :
    (budgetOk s (tcOf x.core) h start = true ∧ coreFits s lseq h x.core 1 = true) ∧ oldBars s (tcOf x.core) (candidateOf s lseq x.idx) = false ∧
    ∃ e, slotRun (coreAt s x.core) h.groups = some e ∧ t.tcs = tput s.tcs (tcOf x.core) (charged h (tcAt s (tcOf x.core))) ∧
      t.cores = (modCore s x.core (withTeam s lseq h x e)).cores ∧
      ∃ team, teamAt t x.uid = some team ∧ team.core = x.core ∧ team.idx = x.idx ∧ team.slots = (List.range h.groups).map (e + ·) := by
  simp only [placeTeam] at placed
  split at placed
  · cases placed
  · next ok =>
    obtain ⟨may, old⟩ : (budgetOk s (tcOf x.core) h start = true ∧ coreFits s lseq h x.core 1 = true) ∧ oldBars s (tcOf x.core) (candidateOf s lseq x.idx) = false := by
      simpa using ok
    split at placed
    · cases placed
    · next e run =>
      refine ⟨may, old, e, run, ?_⟩
      obtain rfl := Option.some.inj placed
      rw [saveContexts_frame]
      exact ⟨rfl, rfl, _, tfind_tput_same .., rfl, rfl, rfl⟩

/-- Settles O40: the groups are put in the team's slots one after another, and what follows leaves them and the budgets. -/
theorem teamStarts : Obligations.TeamStarts := by
  intro s t start lseq h x placed
  obtain ⟨⟨budget, fits⟩, old, e, run, tcs, cores, team, hteam, core, idx, slots⟩ := placeTeam_some placed
  obtain ⟨even, free⟩ := slotRun_free run
  have tc : tcAt t (tcOf x.core) = charged h (tcAt s (tcOf x.core)) := by rw [tcAt, tcs]; exact tget_tput_same ..
  refine ⟨budget, fits, old, by simp [tc, charged], by rw [tc]; rfl, by rw [tc]; rfl, e, team, even, hteam, core, idx, slots, fun n hn => ⟨free n hn, ?_⟩⟩
  obtain ⟨p, hp⟩ := groupAt_putGroups e (fun n => startGroup s x.core lseq x.uid (x.uid + 1 + n) n h) (windowPlaces h.granules h.groups (usedGranules (coreAt s x.core) 0))
    (coreAt s x.core) (Nat.zero_le n) (by rwa [length_windowPlaces, Nat.zero_add])
  exact ⟨_, by rw [coreAt_of_cores cores, coreAt_modCore_same]; exact hp, rfl, rfl, rfl, rfl, rfl, rfl, rfl⟩

end Sys2Proof.Machine
end

section
/-! How the data of a guessed load settle its guess, also where a gdemand waits for them (R20, R27, R29). It settles O31. -/

namespace Sys2Proof.Machine

/-! Guesses of a group that may settle, wherever else a group of its number may lie. -/

theorem settle_loads (c : Core) (u : Nat) : (settle c u).loads = c.loads := by
  unfold settle
  split
  · rfl
  · split <;> rfl

theorem settle_late (c : Core) (u : Nat) : (settle c u).late = c.late := by
  unfold settle
  split
  · rfl
  · split <;> rfl

theorem cancelRg_groups (u : Nat) (x : Ctx) : (x.cancelRg u).groups = x.groups := by
  unfold Ctx.cancelRg
  split <;> rfl

/-- A group of a core once its guesses have settled: each thread as R20 leaves it. -/
theorem groupAt_settle {c : Core} {slot : Nat} {g : Group} (hg : groupAt c slot = some g) (only : ∀ x ∈ c.ctx.groups, x.2.uid = g.uid → x = (slot, g)) :
    ∃ h, groupAt (settle c g.uid) slot = some h ∧ h.threads.length = g.threads.length ∧
      ∀ j < g.threads.length, threadAt h j = settleThread c g j (threadAt g j) := by
  have threads : (settleGroup c g).threads = (mapThreads g (settleThread c g)).threads := by
    unfold settleGroup settleS
    split <;> rfl
  have at' : ∀ j < g.threads.length, threadAt (settleGroup c g) j = settleThread c g j (threadAt g j) := fun j hj => by
    rw [threadAt, threads]
    exact (threadAt_mapThreads g _ j).trans (if_pos hj)
  have lanes : (settleGroup c g).threads.length = g.threads.length := by rw [threads]; exact length_imap ..
  unfold settle
  rw [owner_only hg only]
  dsimp only
  split
  · refine ⟨(settleGroup c g).clearRg, ?_, lanes, at'⟩
    rw [groupAt, cancelRg_groups]
    exact (groupAt_modOwner hg ..).trans (by rw [if_pos rfl])
  · exact ⟨settleGroup c g, (groupAt_modOwner hg ..).trans (by rw [if_pos rfl]), lanes, at'⟩

/-- One group of a number, changed. -/
theorem only_modOwner {c : Core} {slot : Nat} {g : Group} (only : ∀ x ∈ c.ctx.groups, x.2.uid = g.uid → x = (slot, g)) {f : Group → Group}
    (hf : ∀ x, (f x).uid = x.uid) : ∀ x ∈ (modOwner c g.uid f).ctx.groups, x.2.uid = (f g).uid → x = (slot, f g) := by
  have all : ∀ t : Tab Group, (∀ x ∈ t, x.2.uid = g.uid → x = (slot, g)) → ∀ x ∈ modUid t g.uid f, x.2.uid = g.uid → x = (slot, f g) := by
    intro t
    induction t with
    | nil => exact fun _ _ h => by cases h
    | cons y r ih =>
      intro one x hx hu
      rcases List.mem_cons.mp hx with rfl | hx
      · by_cases h : y.2.uid = g.uid
        · have e := one y (List.mem_cons_self ..) h
          subst e
          simp
        · simp only [if_neg h] at hu
          exact absurd hu h
      · exact ih (fun y hy => one y (List.mem_cons_of_mem _ hy)) x hx hu
  intro x hx hu
  exact all _ only x hx (hu.trans (hf g))

/-- What settling leaves of a thread: its values, and RF. -/
theorem settleThread_keeps (c : Core) (g : Group) (j : Nat) (t : Thread) :
    (settleThread c g j t).rf = t.rf ∧ ∀ d, (vreg (settleThread c g j t) d).val = (vreg t d).val := by
  have pens : ∀ d, (vreg (clearPens t) d).val = (vreg t d).val := fun d => by
    simp only [vreg, clearPens, tget, tfind_tmap]
    cases tfind t.v d <;> rfl
  unfold settleThread
  split
  · exact ⟨rfl, fun _ => rfl⟩
  · exact ⟨rfl, pens⟩

theorem settleThread_quiet {c : Core} {g : Group} {j : Nat} {t : Thread} (rf : t.rf = false) (quiet : guessing c g j = false) :
    (settleThread c g j t).cg = false ∧ ∀ d, (vreg (settleThread c g j t) d).pen = false := by
  have e : settleThread c g j t = { clearPens t with cg := false } := by simp [settleThread, rf, quiet]
  rw [e]
  refine ⟨rfl, fun d => ?_⟩
  simp only [vreg, clearPens, tget, tfind_tmap]
  cases tfind t.v d <;> rfl

/-! What the data of a load make of its group. -/

/-- A group in which the data of a refuted guess set RF in the threads that the load concerns (R20, R287). -/
def refuted (c : Core) (thr : Option Nat) (g : Group) : Group :=
  mapThreads g fun i t => if thr == some i || thr == none || hasBit (guessRows c g) i then { t with rf := true } else t

theorem refute_eq (c : Core) (u : Nat) (thr : Option Nat) : refute c u thr = modOwner c u (refuted c thr) := rfl

theorem threadAt_refuted (c : Core) {g : Group} {i : Nat} (hi : i < g.threads.length) : threadAt (refuted c (some i) g) i = { threadAt g i with rf := true } := by
  rw [refuted, threadAt_mapThreads, if_pos hi, if_pos (by simp)]

theorem unpenRegs_keeps (g : Group) {i : Nat} (hi : i < g.threads.length) (ds : List Nat) : (threadAt (unpenRegs g (some i) ds) i).rf = (threadAt g i).rf ∧
    ∀ d, (vreg (threadAt (unpenRegs g (some i) ds) i) d).val = (vreg (threadAt g i) d).val := by
  have vals : ∀ (v : Tab VReg) d, (tget ⟨0, false, false⟩ (ds.foldl (fun v d => tmod v d fun r => { r with pen := false }) v) d).val = (tget ⟨0, false, false⟩ v d).val := by
    induction ds with
    | nil => exact fun _ _ => rfl
    | cons x r ih =>
      intro v d
      rw [List.foldl_cons, ih]
      simp only [tget, tfind_tmod]
      split
      · cases tfind v d <;> rfl
      · rfl
  rw [unpenRegs, threadAt_modThread_same g i _ hi]
  exact ⟨rfl, vals _⟩

theorem mem_addLate (c : Core) (e : Late) : e ∈ (addLate c e).late := by
  unfold addLate
  dsimp only
  split
  · next full =>
    cases h : c.late with
    | nil => rw [h] at full; simp [Config.lateSize] at full
    | cons x r => simp
  · exact List.mem_append_right _ (List.mem_singleton_self _)

theorem group_only {c : Core} {slot : Nat} {g : Group} (hg : groupAt c slot = some g) (rising : Rising c.ctx.groups) (only : ∀ q ∈ c.ctx.groups, q.2.uid = g.uid → q.1 = slot) :
    ∀ x ∈ c.ctx.groups, x.2.uid = g.uid → x = (slot, g) := by
  rintro ⟨n, x⟩ hx hu
  obtain rfl : n = slot := only _ hx hu
  rw [Option.some.inj ((rising.find hx).symm.trans hg)]

/-- A core in which the data of a guessed load have been learned, and the load is off the list (R19, R20). -/
def learned (c : Core) (l : Load) (v : Nat) : Core := learn (dropLoad c l.num) l v

/-- The core that the data of a load reach whose guess x stands. -/
def resolvedBy (c : Core) (l : Load) (x v : Nat) : Core :=
  if demandedNow c l then
    let c2 := { learned c l v with loads := (learned c l v).loads ++ [l.arrive v] }
    if v = x then c2 else refute c2 l.own l.thr
  else if v = x then modOwner (learned c l v) l.own fun g => unpenRegs g l.thr l.holds
  else addLate (refute (learned c l v) l.own l.thr) ⟨l.own, l.thr, l.pc, l.pos, l.ea, v⟩

theorem coreAt_deliver {l : Load} {x : Nat} (op : l.op = none) (kind : l.kind = .load) (written : l.written = true) (guess : l.guess = some x) (held : l.detached = false)
    (s : State) (k v : Nat) : coreAt (deliver s k l v) k = settle (resolvedBy (coreAt s k) l x v) l.own := by
  have same : (l.guess = some v) = (v = x) := by
    rw [guess, Option.some.injEq]
    exact propext eq_comm
  rw [deliver, coreAt_modCore_same]
  simp only [kind, written, held, op, same, finishFor, Bool.not_true, Bool.false_eq_true, if_false, reduceCtorEq]
  rfl

section
variable {c : Core} {slot i x v : Nat} {g : Group} {l : Load} (hg : groupAt c slot = some g) (only : ∀ q ∈ c.ctx.groups, q.2.uid = g.uid → q = (slot, g))
  (lanes : g.threads.length = 32) (hi : i < 32) (own : l.own = g.uid) (thr : l.thr = some i)
include hg only lanes hi own thr

/-- The group of a load once its data have come, before guesses settle: only RF and penumbra bits of the load's thread have changed in it. -/
theorem groupAt_resolvedBy : ∃ h, groupAt (resolvedBy c l x v) slot = some h ∧ h.uid = g.uid ∧ (∀ q ∈ (resolvedBy c l x v).ctx.groups, q.2.uid = h.uid → q = (slot, h)) ∧
    h.threads.length = 32 ∧ (threadAt h i).rf = ((threadAt g i).rf || decide (v ≠ x)) ∧ ∀ d, (vreg (threadAt h i) d).val = (vreg (threadAt g i) d).val := by
  have changed : ∀ (c' : Core) (f : Group → Group), c'.ctx.groups = c.ctx.groups → (∀ y, (f y).uid = y.uid) → groupAt (modOwner c' l.own f) slot = some (f g) ∧
      ∀ q ∈ (modOwner c' l.own f).ctx.groups, q.2.uid = (f g).uid → q = (slot, f g) := by
    intro c' f hc hf
    have here : groupAt c' slot = some g := (congrArg (tfind · slot) hc).trans hg
    rw [own]
    exact ⟨(groupAt_modOwner here ..).trans (by rw [if_pos rfl]), only_modOwner (hc ▸ only) hf⟩
  have wrong : ∀ (c' : Core), c'.ctx.groups = c.ctx.groups → v ≠ x → ∃ h, groupAt (refute c' l.own l.thr) slot = some h ∧ h.uid = g.uid ∧
      (∀ q ∈ (refute c' l.own l.thr).ctx.groups, q.2.uid = h.uid → q = (slot, h)) ∧ h.threads.length = 32 ∧
      (threadAt h i).rf = ((threadAt g i).rf || decide (v ≠ x)) ∧ ∀ d, (vreg (threadAt h i) d).val = (vreg (threadAt g i) d).val := by
    intro c' hc differ
    obtain ⟨at', alone⟩ := changed c' (refuted c' l.thr) hc fun _ => rfl
    refine ⟨_, at', rfl, alone, (length_imap ..).trans lanes, ?_, ?_⟩
    · rw [thr, threadAt_refuted c' (by omega)]; simp [differ]
    · intro d; rw [thr, threadAt_refuted c' (by omega)]; rfl
  unfold resolvedBy
  split
  · split
    · next same => exact ⟨g, hg, rfl, only, lanes, by simp [same], fun _ => rfl⟩
    · next differ => exact wrong _ rfl differ
  · split
    · next same =>
      obtain ⟨at', alone⟩ := changed (learned c l v) (fun g => unpenRegs g l.thr l.holds) rfl fun y => by rw [thr]; rfl
      rw [thr] at at' alone ⊢
      obtain ⟨rf, val⟩ := unpenRegs_keeps g (i := i) (by omega) l.holds
      exact ⟨_, at', rfl, alone, (length_lmod ..).trans lanes, by simp [rf, same], val⟩
    · next differ => exact wrong _ rfl differ

end

theorem lfind_none {α : Type} {p : α → Bool} {l : List α} (h : ∀ x ∈ l, p x = false) : lfind p l = none := by
  induction l with
  | nil => rfl
  | cons x r ih => rw [lfind, h x (List.mem_cons_self ..)]; exact ih fun y hy => h y (List.mem_cons_of_mem _ hy)

theorem lfind_append {α : Type} {p : α → Bool} {a b : List α} (h : ∀ x ∈ a, p x = false) : lfind p (a ++ b) = lfind p b := by
  induction a with
  | nil => rfl
  | cons x r ih => rw [List.cons_append, lfind, h x (List.mem_cons_self ..)]; exact ih fun y hy => h y (List.mem_cons_of_mem _ hy)

theorem mem_dropLoad {c : Core} {num : Nat} {q : Load} : q ∈ (dropLoad c num).loads ↔ q ∈ c.loads ∧ q.num ≠ num := by simp [dropLoad]

/-- What data leave that a gdemand waits for: the load, with its value kept, and no late entry (R29). -/
theorem resolvedBy_demanded {c : Core} {l : Load} (h : demandedNow c l = true) (x v : Nat) : (resolvedBy c l x v).late = c.late ∧
    loadAt (resolvedBy c l x v) l.num = some (l.arrive v) := by
  have listed : lfind (fun q => q.num == l.num) ((dropLoad c l.num).loads ++ [l.arrive v]) = some (l.arrive v) := by
    rw [lfind_append fun q hq => beq_false_of_ne (mem_dropLoad.mp hq).2]
    simp [lfind, Load.arrive]
  unfold resolvedBy
  rw [if_pos h]
  dsimp only
  split <;> exact ⟨rfl, listed⟩

/-- The late entry of a refuted guess, kept for the replay (R27). -/
theorem resolvedBy_late {c : Core} {l : Load} {x v : Nat} (h : demandedNow c l = false) (differ : v ≠ x) :
    ⟨l.own, l.thr, l.pc, l.pos, l.ea, v⟩ ∈ (resolvedBy c l x v).late := by
  unfold resolvedBy
  rw [if_neg (ne_true_of_eq_false h), if_neg differ]
  exact mem_addLate ..

/-- No guess of a thread is left, where the load's was the last (R20). -/
theorem resolvedBy_quiet {c : Core} {l : Load} {x v i : Nat} {g : Group} (h : demandedNow c l = false) (same : v = x)
    (last : ∀ q ∈ c.loads, q.guessed = true → q.concerns g.uid i = true → q = l) : guessing (resolvedBy c l x v) g i = false := by
  have loads : (resolvedBy c l x v).loads = (dropLoad c l.num).loads := by
    unfold resolvedBy
    rw [if_neg (ne_true_of_eq_false h), if_pos same]
    rfl
  rw [guessing, loads, List.any_eq_false]
  intro q hq both
  obtain ⟨listed, other⟩ := mem_dropLoad.mp hq
  obtain ⟨guessed, concerns⟩ := Bool.and_eq_true_iff.mp both
  exact other (by rw [last q listed guessed concerns])

/-! What installs data that have come (R29). -/

theorem vreg_setV (t : Thread) (d r : Nat) (x : Word) (pen : Bool) : vreg (setV t d x pen) r = if r = d then ⟨x, pen, false⟩ else vreg t r := by
  simp only [vreg, setV, tget, tfind_tput]
  split <;> rfl

section
variable {i : Nat} (only : List Nat) (pen : Bool)

/-- One register of those written to a thread, where it still may be written. -/
theorem putRegs_cons (d : Nat) (ds : List Nat) (x : Word) (xs : List Word) {g : Group} (hi : i < g.threads.length) : ∃ h : Group, h.threads.length = g.threads.length ∧
    putRegs g (some i) only pen (d :: ds) (x :: xs) = putRegs h (some i) only pen ds xs ∧ (threadAt h i).rf = (threadAt g i).rf ∧
    ∀ r, vreg (threadAt h i) r = if d ∈ only ∧ r = d then ⟨x, pen, false⟩ else vreg (threadAt g i) r := by
  by_cases named : d ∈ only
  · refine ⟨modThread g i fun t => setV t d x pen, length_lmod .., by simp [putRegs, named], ?_⟩
    rw [threadAt_modThread_same g i _ hi]
    exact ⟨rfl, fun r => by simp [vreg_setV, named]⟩
  · exact ⟨g, rfl, by simp [putRegs, named], rfl, fun r => by simp [named]⟩

/-- Registers written to a thread leave RF, and every register not named among those that may be written. -/
theorem putRegs_others (ds : List Nat) : ∀ (xs : List Word) {g : Group}, i < g.threads.length → (threadAt (putRegs g (some i) only pen ds xs) i).rf = (threadAt g i).rf ∧
    ∀ r, r ∉ only ∨ r ∉ ds → vreg (threadAt (putRegs g (some i) only pen ds xs) i) r = vreg (threadAt g i) r := by
  induction ds with
  | nil => exact fun xs g _ => ⟨by rw [putRegs]; simp, fun r _ => by rw [putRegs]; simp⟩
  | cons d ds ih =>
    intro xs g hi
    cases xs with
    | nil => exact ⟨by rw [putRegs]; simp, fun r _ => by rw [putRegs]; simp⟩
    | cons x xs =>
      obtain ⟨h, lanes, e, rf, at'⟩ := putRegs_cons only pen d ds x xs hi
      obtain ⟨rf', rest⟩ := ih xs (g := h) (by omega)
      rw [e]
      refine ⟨rf'.trans rf, fun r out => ?_⟩
      rw [rest r (out.imp id fun out hr => out (List.mem_cons_of_mem _ hr)), at' r, if_neg]
      rintro ⟨named, rfl⟩
      exact out.elim (· named) (· (List.mem_cons_self ..))

/-- Registers written to a thread hold their words. -/
theorem putRegs_at (ds : List Nat) : ∀ (xs : List Word) {g : Group}, i < g.threads.length → ds.Nodup → ∀ (j : Nat) (hd : j < ds.length) (hx : j < xs.length), ds[j] ∈ only →
    vreg (threadAt (putRegs g (some i) only pen ds xs) i) ds[j] = ⟨xs[j], pen, false⟩ := by
  induction ds with
  | nil => exact fun _ _ _ _ j hd => absurd hd (Nat.not_lt_zero j)
  | cons d ds ih =>
    intro xs g hi nodup j hd hx named
    obtain ⟨new, nodup⟩ := List.nodup_cons.mp nodup
    cases xs with
    | nil => exact absurd hx (Nat.not_lt_zero j)
    | cons x xs =>
      obtain ⟨h, lanes, e, _, at'⟩ := putRegs_cons only pen d ds x xs hi
      rw [e]
      cases j with
      | zero => rw [List.getElem_cons_zero, (putRegs_others only pen ds xs (g := h) (by omega)).2 d (.inr new), at' d, if_pos ⟨named, rfl⟩]; rfl
      | succ j => exact ih xs (by omega) nodup j (Nat.lt_of_succ_lt_succ hd) (Nat.lt_of_succ_lt_succ hx) named

end

/-- The words of a value as a load's registers take them (R99). -/
theorem loadWords_words (ty v : Nat) : (loadWords ty v).length = tyRegs ty ∧ ∀ j (h : j < (loadWords ty v).length), (loadWords ty v)[j] =
    if ty = 1 then (BitVec.ofNat 8 v).signExtend 32 else if ty = 3 then (BitVec.ofNat 16 v).signExtend 32 else BitVec.ofNat 32 (v / 2 ^ (32 * j)) := by
  by_cases byte : ty = 1
  · subst byte
    exact ⟨rfl, fun j h => by obtain rfl : j = 0 := Nat.lt_one_iff.mp h; rfl⟩
  · by_cases half : ty = 3
    · subst half
      exact ⟨rfl, fun j h => by obtain rfl : j = 0 := Nat.lt_one_iff.mp h; rfl⟩
    · have e : loadWords ty v = (List.range (tyRegs ty)).map fun i => BitVec.ofNat 32 (v / 2 ^ (32 * i)) := loadWords.eq_3 ty v byte half
      exact ⟨by simp [e], fun j h => by simp [e, byte, half]⟩

/-- A group whose registers a request has written; its spin streak may have ended (R185). -/
theorem groupAt_writeRegs {c : Core} {slot : Nat} {g : Group} (hg : groupAt c slot = some g) (num : Nat) (thr : Option Nat) (only : List Nat) (pen : Bool) (ds : List Nat) (xs : List Word) :
    ∃ h, groupAt (writeRegs c g.uid num thr only pen ds xs) slot = some h ∧ h.threads = (putRegs g thr only pen ds xs).threads := by
  refine ⟨_, groupAt_modOwner hg .., ?_⟩
  rw [if_pos rfl]
  dsimp only
  split <;> rfl

/-- Settles O31: the data of a load reach its group before guesses settle, and settling keeps RF and every value. -/
theorem guessResolution : Obligations.GuessResolution := by
  refine ⟨?_, ?_⟩
  · intro s k slot i x y g l hg rising only lanes hi listed once own thr op kind written guess held waits
    have core := coreAt_deliver op kind written guess held s k y
    obtain ⟨g1, hg1, uid, only1, lanes1, rf, val⟩ := groupAt_resolvedBy (x := x) (v := y) hg (group_only hg rising only) lanes hi own thr
    obtain ⟨h, hh, _, threads⟩ := groupAt_settle hg1 only1
    have at' := threads i (by omega)
    obtain ⟨rf', val'⟩ := settleThread_keeps (resolvedBy (coreAt s k) l x y) g1 i (threadAt g1 i)
    rw [uid.trans own.symm] at hh
    rw [core]
    refine ⟨h, hh, fun d => ?_, fun demanded => ⟨?_, ?_, ?_⟩, fun free differ => ⟨?_, ?_⟩, fun free same => ⟨?_, fun clear others => ?_⟩⟩
    · rw [at', val', val]
    · rw [at', rf', rf]
    · rw [settle_late, (resolvedBy_demanded demanded x y).1]
    · rw [loadAt, settle_loads]
      exact (resolvedBy_demanded demanded x y).2
    · rw [at', rf', rf]; simp [differ]
    · rw [settle_late]
      exact ⟨_, resolvedBy_late free differ, own, rfl, rfl, rfl, rfl, rfl⟩
    · rw [at', rf', rf]; simp [same]
    · rw [at']
      exact settleThread_quiet (by rw [rf]; simp [clear, same]) (resolvedBy_quiet free same (uid ▸ others))
  · intro c slot i d v g l hg rising only lanes hi listed own thr came ty dsts e words
    have installs : e = writeRegs (dropLoad c l.num) g.uid l.num (some i) l.holds false l.dsts (loadWords l.ty v) := by
      simp only [e, installCame, listed, came, own, thr]
    obtain ⟨h, hh, threads⟩ := groupAt_writeRegs (c := dropLoad c l.num) hg l.num (some i) l.holds false l.dsts (loadWords l.ty v)
    obtain ⟨len, word⟩ := loadWords_words l.ty v
    obtain ⟨rf, others⟩ := putRegs_others l.holds false l.dsts (loadWords l.ty v) (i := i) (g := g) (by omega)
    have at' : threadAt h i = threadAt (putRegs g (some i) l.holds false l.dsts (loadWords l.ty v)) i := by rw [threadAt, threads]; rfl
    have nodup : l.dsts.Nodup := dsts ▸ List.nodup_range.map (fun a b h => Nat.add_left_cancel h)
    rw [installs]
    refine ⟨?_, rfl, h, hh, by rw [at', rf], fun j hj named => ?_, fun r out => by rw [at', others r out]⟩
    · rw [loadAt, writeRegs]
      refine lfind_none fun q hq => ?_
      obtain ⟨q, kept, rfl⟩ := List.mem_map.mp hq
      have other : q.num ≠ l.num := (mem_dropLoad.mp kept).2
      split <;> simpa using other
    · have written := putRegs_at l.holds false l.dsts (loadWords l.ty v) (i := i) (g := g) (by omega) nodup j (by simp [dsts, hj]) (by omega)
      have place : l.dsts[j]'(by simp [dsts, hj]) = d + j := by simp [dsts]
      rw [place] at written
      rw [at', written named, word]

end Sys2Proof.Machine
end

section
/-! Loads and prefetches (R237, R240, R251): what each plans where its checks let it go, and O20. -/

namespace Sys2Proof.Machine

/-! The counters of a step whose threads each count at most one access of class 0 (R267, R313). -/

/-- Actions that count at most one operation, and that of class 0. -/
def CountsOne (as : List Act) : Prop := ∀ cls, (as.map (Act.counts cls)).sum ≤ bit (cls == 0)

theorem countsOf_le {rs : List Res} (h : ∀ r ∈ rs, CountsOne r.acts) (cls : Nat) : countsOf rs cls ≤ rs.length * bit (cls == 0) := by
  have bound := List.sum_le_card_nsmul (rs.map fun r => (r.acts.map (Act.counts cls)).sum) (bit (cls == 0)) fun n hn => by
    obtain ⟨r, hr, rfl⟩ := List.mem_map.mp hn
    exact h r hr cls
  simpa [countsOf] using bound

theorem overCount_room {g : Group} {slot : Nat} {rs : List Res} (h : ∀ r ∈ rs, CountsOne r.acts) (room : opCount g 0 + rs.length ≤ 0xFFFF) :
    overCount g slot rs = [] := by
  rw [overCount, List.map_eq_nil_iff, List.filter_eq_nil_iff]
  intro cls _
  have bound := countsOf_le h cls
  by_cases zero : cls = 0
  · subst zero
    simp only [bit, beq_self_eq_true, if_true, Nat.mul_one] at bound
    simp; omega
  · have none : countsOf rs cls = 0 := by simpa [bit, zero] using bound
    simp [none]

/-! What a load plans. -/

/-- The words that a late-arrival entry gives a load at its address (R27). -/
def lateWords (o : OpLd) (v : View) (thr : Option Nat) (ea : Nat) : Option (List Word) :=
  (lfind (fun (e : Late) => e.ea.toNat == ea) (lateEntries v thr)).map fun e => loadWords o.t.toNat e.val

/-- The address of a load (R237). -/
def loadAddr (o : OpLd) (base : In) : Nat := effAddr o.s.toNat base.val (litInt o.lit)

/-- Where a load's checks leave it (R233, R235). -/
def loadReach (o : OpLd) (v : View) (thr : Option Nat) (base : In) : Reach :=
  checked v thr 0 base.pen o.s.toNat (loadAddr o base) (tyBytes o.t.toNat) (tyAlign o.t.toNat)

/-- What a load asks for where it goes: nothing where a late entry serves it, and otherwise its request, or its refutation where its address would trap. -/
def asked (served : Option (List Word)) (r : Reach) (ask : List Piece → Load) (refused : Load) : List Act :=
  match served, r with
  | some _, _ => []
  | none, .bad w => [.useWalk w, .refuted refused]
  | none, .at' ps => [.req (ask ps)]
  | none, _ => [.refuted refused]

theorem asked_cases (served : Option (List Word)) (r : Reach) (ask : List Piece → Load) (refused : Load) :
    asked served r ask refused = [] ∨ asked served r ask refused = [.refuted refused] ∨ (∃ w, asked served r ask refused = [.useWalk w, .refuted refused]) ∨
      ∃ ps, asked served r ask refused = [.req (ask ps)] := by
  cases served with
  | some ws => exact .inl rfl
  | none =>
    cases r with
    | at' ps => exact .inr (.inr (.inr ⟨ps, rfl⟩))
    | trap c => exact .inr (.inl rfl)
    | miss w => exact .inr (.inl rfl)
    | bad n => exact .inr (.inr (.inl ⟨n, rfl⟩))

/-- The actions of a load that goes: its late-arrival entries dropped, and its request or its refutation. -/
def loadActs (o : OpLd) (v : View) (thr : Option Nat) (base : In) (rpl : Bool) : List Act :=
  let ea := loadAddr o base
  let cls := if rpl || mirrored v.s v.g then 0 else o.w.toNat
  (if (lateEntries v thr).isEmpty then [] else [.dropLate v.b.pc v.b.pos ea]) ++
  asked (lateWords o v thr ea) (loadReach o v thr base) (loadReq v thr o ea base.pen cls) (loadReq v thr o ea true cls [])

/-- Whether a load goes: served by a late entry, let go by its checks, or guessed at an address that would trap. -/
def loadGoes (o : OpLd) (v : View) (thr : Option Nat) (base : In) : Prop :=
  match lateWords o v thr (loadAddr o base), loadReach o v thr base with
  | some _, _ => True
  | none, .at' ps => orderBlocked v thr ps = false
  | none, .miss _ => False
  | none, _ => base.pen = true

/-- The register words that a load writes at once (R27, R99). -/
def servedEffs (o : OpLd) (v : View) (thr : Option Nat) (base : In) : List Eff :=
  match lateWords o v thr (loadAddr o base) with
  | some ws => loadEffs thr o.d.toNat ws
  | none => []

theorem lateValue_eq_none {o : OpLd} {v : View} {thr : Option Nat} {ea : Nat} : lateValue v thr ea = none ↔ lateWords o v thr ea = none := by
  simp [lateValue, lateWords]

theorem proceed_at {v : View} {thr : Option Nat} {ps : List Piece} {ea : Nat} {go : List Piece → TPlan} (alone : v.held = [])
    (free : orderBlocked v thr ps = false) : proceed v thr ea (.at' ps) go = go ps := by
  have chain : chainBlocked v thr ps = false := by simp [chainBlocked, chainActs, alone]
  simp [proceed, inOrderAt, free, chain]

/-- WHAT A LOAD PLANS where it goes. -/
theorem loadPlan_goes {o : OpLd} {v : View} {thr : Option Nat} {base : In} {rpl : Bool} (alone : v.held = []) (goes : loadGoes o v thr base) :
    loadPlan o v thr base rpl = .go (servedEffs o v thr base) (loadActs o v thr base rpl) := by
  unfold loadGoes at goes
  cases served : lateWords o v thr (loadAddr o base) with
  | some ws =>
    obtain ⟨e, found, rfl⟩ := Option.map_eq_some_iff.mp served
    have value : lateValue v thr (loadAddr o base) = some e.val := by rw [lateValue, found]; rfl
    unfold loadAddr at value served
    simp only [loadPlan, value, servedEffs, loadActs, asked, loadAddr, served, List.append_nil]
  | none =>
    have value := lateValue_eq_none.mpr served
    rw [served] at goes
    simp only [loadAddr, loadReach] at goes value served
    simp only [loadPlan, servedEffs, loadActs, asked, loadAddr, loadReach, served, value]
    generalize checked v thr 0 base.pen o.s.toNat (effAddr o.s.toNat base.val (litInt o.lit)) (tyBytes o.t.toNat) (tyAlign o.t.toNat) = r at *
    cases r with
    | at' ps => cases pen : base.pen <;> simp [proceed_at alone goes]
    | trap c => simp [show base.pen = true from goes]
    | miss w => exact goes.elim
    | bad n => simp [show base.pen = true from goes]

/-- Actions that neither leave, nor stall, nor are on guesses. -/
def MildActs (as : List Act) : Prop := as.any Act.leaves = false ∧ (∀ w q, Act.stall w q ∉ as) ∧ ∀ a ∈ as, a.onGuess = false

theorem MildActs.append {as bs : List Act} (ha : MildActs as) (hb : MildActs bs) : MildActs (as ++ bs) := by
  obtain ⟨aLeaves, aStalls, aGuess⟩ := ha
  obtain ⟨bLeaves, bStalls, bGuess⟩ := hb
  refine ⟨by simp [List.any_append, aLeaves, bLeaves], fun w q hx => ?_, fun a hx => ?_⟩
  · exact (List.mem_append.mp hx).elim (aStalls w q) (bStalls w q)
  · exact (List.mem_append.mp hx).elim (aGuess a) (bGuess a)

theorem asked_mild (served : Option (List Word)) (r : Reach) (ask : List Piece → Load) (refused : Load) : MildActs (asked served r ask refused) := by
  rcases asked_cases served r ask refused with h | h | ⟨w, h⟩ | ⟨ps, h⟩ <;> rw [h] <;> simp [MildActs, Act.leaves, Act.onGuess]

theorem loadActs_mild (o : OpLd) (v : View) (thr : Option Nat) (base : In) (rpl : Bool) : MildActs (loadActs o v thr base rpl) := by
  refine MildActs.append ?_ (asked_mild _ _ _ _)
  split <;> simp [MildActs, Act.leaves, Act.onGuess]

theorem loadReq_counts (v : View) (thr : Option Nat) (o : OpLd) (ea : Nat) (pen : Bool) (c : Nat) (ps : List Piece) (cls : Nat) :
    Act.counts cls (.req (loadReq v thr o ea pen c ps)) ≤ bit (cls == 0) := by
  show bit ((if o.s = 0 || o.s = 3 then some 0 else none) == some cls) ≤ bit (cls == 0)
  split
  · rw [show ((some 0 : Option Nat) == some cls) = (cls == 0) by simp [eq_comm, Bool.beq_eq_decide_eq]]
  · exact Nat.zero_le _

theorem loadActs_counts (o : OpLd) (v : View) (thr : Option Nat) (base : In) (rpl : Bool) : CountsOne (loadActs o v thr base rpl) := by
  intro cls
  unfold loadActs
  rw [List.map_append, List.sum_append, show (List.map (Act.counts cls) (if (lateEntries v thr).isEmpty then [] else [.dropLate v.b.pc v.b.pos (loadAddr o base)])).sum = 0 by
    cases (lateEntries v thr).isEmpty <;> rfl, Nat.zero_add]
  rcases asked_cases (lateWords o v thr (loadAddr o base)) (loadReach o v thr base) (loadReq v thr o (loadAddr o base) base.pen _) _ with h | h | ⟨w, h⟩ | ⟨ps, h⟩ <;>
    rw [h]
  · exact Nat.zero_le _
  · exact Nat.zero_le _
  · exact Nat.zero_le _
  · simpa using loadReq_counts v thr o (loadAddr o base) base.pen _ ps cls

theorem servedEffs_thread (o : OpLd) (v : View) (j : Nat) (base : In) : ∀ e ∈ servedEffs o v (some j) base, e.onThread = true := by
  unfold servedEffs
  cases lateWords o v (some j) (loadAddr o base) with
  | none => simp
  | some ws => exact onThread_imap _ _ _ _

theorem servedEffs_scalar (o : OpLd) (v : View) (base : In) : ∀ e ∈ servedEffs o v none base, e.onScalar = true := by
  unfold servedEffs
  cases lateWords o v none (loadAddr o base) with
  | none => simp
  | some ws => exact onScalar_imap _ _ _ _

/-- One result of the group as a whole, with scalar writes and actions. -/
theorem stepped_group_acts {slot : Nat} {m : Word} {g : Group} {es : List Eff} (scalar : ∀ e ∈ es, e.onScalar = true) (present : m ≠ 0) (as : List Act)
    (handler : Bool) (now : Nat) :
    Stepped (groupAfter [⟨slot, none, es, as, none, false⟩] slot m handler now g) g (fun _ x => x) (sreg (scalarWrites es g)) := by
  have same : groupAfter [⟨slot, none, es, as, none, false⟩] slot m handler now g = groupAfter [⟨slot, none, es, [], none, false⟩] slot m handler now g := by
    simp only [groupAfter, List.filter_cons, takes_group slot present, if_true, List.filter_nil]; rfl
  rw [same]
  exact stepped_group scalar present handler now

/-- A WORD OF THE GROUP PERFORMS (R111): its scalar registers are written, and then its actions follow. -/
theorem once_performs {i : Instr} {plan : Shape → View → Plan} {s : State} {bid slot : Nat} {b : Bundle} {g : Group} {m : Word}
    (r : Ready s bid slot b g m) (h : Issuable i s b slot g m) {es : List Eff} {as : List Act}
    (hp : plan (shape i) (viewAt s b slot g m) = .go [⟨slot, none, es, as, none, false⟩]) (scalar : ∀ e ∈ es, e.onScalar = true) (mild : MildActs as)
    (room : overCount g slot [⟨slot, none, es, as, none, false⟩] = []) :
    ∃ t, run i plan s = .next t ∧ Performs s t bid slot b g m (fun _ x => x) (sreg (scalarWrites es g)) (as.map fun a => (none, a)) := by
  obtain ⟨leaves, stalls, guesses⟩ := mild
  have stays : Stays slot ⟨slot, none, es, as, none, false⟩ :=
    ⟨rfl, rfl, rfl, leaves, stalls, fun a ha => by simpa [Eff.onScalar] using scalar _ ha, guesses⟩
  have listed : actsOf [⟨slot, none, es, as, none, false⟩] slot m = as.map fun a => (none, a) := by simp [actsOf, takes_group slot r.some]
  have := run_performs r h hp (by simpa using stays) room (stepped_group_acts scalar r.some as b.sub.isSome s.now) rfl
  rwa [sureIn_group scalar, State.sure_false, listed] at this

theorem servedEffs_threads (o : OpLd) (v : View) (now j : Nat) (base : In) (x : Thread) :
    effsThread now (servedEffs o v (some j) base) x = match lateWords o v (some j) (loadAddr o base) with
      | some ws => intoRegs o.d.toNat ws false x
      | none => x := by
  unfold servedEffs
  cases lateWords o v (some j) (loadAddr o base) with
  | none => rfl
  | some ws => exact effsThread_regs now o.d.toNat 0 ws false x

theorem servedEffs_group (o : OpLd) (v : View) (g : Group) (base : In) :
    scalarWrites (servedEffs o v none base) g = match lateWords o v none (loadAddr o base) with
      | some ws => putScalars o.d.toNat ws false g
      | none => g := by
  unfold servedEffs
  cases lateWords o v none (loadAddr o base) with
  | none => rfl
  | some ws => exact scalarWrites_regs o.d.toNat 0 ws false g

theorem asked_for (served : Option (List Word)) (r : Reach) (ask : List Piece → Load) (refused : Load) (thr : Option Nat) :
    (asked served r ask refused).map (fun a => (thr, a)) = match served, r with
      | some _, _ => []
      | none, .bad w => [(thr, .useWalk w), (thr, .refuted refused)]
      | none, .at' ps => [(thr, .req (ask ps))]
      | none, _ => [(thr, .refuted refused)] := by
  cases served with
  | some ws => rfl
  | none => cases r <;> rfl

theorem loadActs_for (o : OpLd) (v : View) (thr : Option Nat) (base : In) (rpl : Bool) :
    (loadActs o v thr base rpl).map (fun a => (thr, a)) =
      (if (lateEntries v thr).isEmpty then [] else [(thr, Act.dropLate v.b.pc v.b.pos (loadAddr o base))]) ++
      (asked (lateWords o v thr (loadAddr o base)) (loadReach o v thr base) (loadReq v thr o (loadAddr o base) base.pen (if rpl || mirrored v.s v.g then 0 else o.w.toNat))
        (loadReq v thr o (loadAddr o base) true (if rpl || mirrored v.s v.g then 0 else o.w.toNat) [])).map (fun a => (thr, a)) := by
  rw [loadActs, List.map_append]
  congr 1
  cases (lateEntries v thr).isEmpty <;> rfl

theorem loadsHold : Sys2Proof.Claims.Loads := by
  intro o s bid slot b g m ready room v base ea reach late hit acts goes
  have alone : v.held = [] := by show b.held.filter _ = []; rw [ready.held]; rfl
  have asks : ∀ thr rpl, (loadActs o v thr (base thr) rpl).map (fun a => (thr, a)) = acts thr rpl := fun thr rpl => by
    rw [loadActs_for, asked_for]
    rfl
  refine ⟨fun h readable go => ?_, fun h go => ?_⟩
  · have planned : ∀ j ∈ members m, loadPlan o v (some j) (base (some j)) (threadAt g j).rpl =
        .go (servedEffs o v (some j) (base (some j))) (loadActs o v (some j) (base (some j)) (threadAt g j).rpl) := fun j hj => loadPlan_goes alone (go j hj)
    obtain ⟨t, runs, performs⟩ := each_performs (f := fun v i t => loadPlan o v (some i) (readBase v (some i) (baseSrc o.s o.a)) t.rpl) ready h (shape (.load o))
      (readable_checks readable rfl rfl rfl) planned (fun i => servedEffs_thread o v i _) (fun i => loadActs_mild o v (some i) (base (some i)) (threadAt g i).rpl)
      (overCount_room (fun r hr => by obtain ⟨j, _, rfl⟩ := List.mem_map.mp hr; exact loadActs_counts o v (some j) _ _) (by rwa [List.length_map]))
    refine ⟨t, (run_shape (i := .load o) (fun sh => eachThread sh fun v i t => loadPlan o v (some i) (readBase v (some i) (baseSrc o.s o.a)) t.rpl) ready.launch).trans runs, ?_⟩
    simp only [asks, funext (servedEffs_threads o v s.now _ _)] at performs
    exact performs
  · have one : 0 < (members m).length := List.length_pos_of_mem (headD_mem_members ready.some)
    obtain ⟨t, runs, performs⟩ := once_performs (i := .uniformLoad o)
      (plan := fun _ v => (loadPlan o v none (readBase v none (baseSrc o.s o.a)) (v.present.any fun i => (threadAt v.g i).rpl)).once v) ready h
      (by rw [loadPlan_goes alone go]; rfl) (servedEffs_scalar o v (base none)) (loadActs_mild o v none (base none) _)
      (overCount_room (by simpa using loadActs_counts o v none (base none) _) (by simp; omega))
    refine ⟨t, runs, ?_⟩
    rw [servedEffs_group, asks] at performs
    change Performs s t bid slot b g m _ _ (acts none ((members m).any fun j => (threadAt g j).rpl)) at performs
    convert performs using 1
    show _ = sreg (match hit none with
      | some ws => putScalars o.d.toNat ws false g
      | none => g)
    cases hit none <;> rfl

/-! What a prefetch plans. -/

/-- Where the line of a prefetch's address is. -/
def prefetchReach (o : OpPf) (v : View) (j : Nat) : Reach :=
  reach v (some j) 0 true 0 (effAddr o.s.toNat (readBase v (some j) (baseSrc o.s o.a)).val (litInt o.lit)) 1

/-- The actions of a prefetch (R251). -/
def prefetchActs (o : OpPf) (v : View) (j : Nat) : List Act :=
  if o.s = 0 then [.prefetch (match prefetchReach o v j with
    | .at' ps => ps.head?
    | _ => none)]
  else if o.s = 3 then [.prefetch none] else []

theorem prefetchActs_mild (o : OpPf) (v : View) (j : Nat) : MildActs (prefetchActs o v j) := by
  unfold prefetchActs
  split
  · simp [MildActs, Act.leaves, Act.onGuess]
  · split <;> simp [MildActs, Act.leaves, Act.onGuess]

theorem prefetchActs_counts (o : OpPf) (v : View) (j : Nat) : CountsOne (prefetchActs o v j) := by
  intro cls
  unfold prefetchActs
  split
  · simp [Act.counts]
  · split <;> simp [Act.counts]

/-- The plan of a prefetch in one thread. -/
def prefetchPlan (o : OpPf) (v : View) (i : Nat) : TPlan :=
  let ea := effAddr o.s.toNat (readBase v (some i) (baseSrc o.s o.a)).val (litInt o.lit)
  match o.s.toNat with
  | 0 => match reach v (some i) 0 true 0 ea 1 with
    | .at' ps => .go [] [.prefetch ps.head?]
    | .miss w => .hold .walk false [.walk w]
    | .bad w => .go [] [.useWalk w, .prefetch none]
    | .trap _ => .go [] [.prefetch none]
  | 3 => .go [] [.prefetch none]
  | _ => .go [] []

theorem execPrefetch_eq (o : OpPf) (s : State) : execPrefetch o s = run (.prefetch o) (fun sh => eachThread sh fun v i _ => prefetchPlan o v i) s := rfl

theorem prefetchPlan_goes {o : OpPf} {v : View} {j : Nat} (readable : o.s = 0 → match prefetchReach o v j with
    | .at' _ => True
    | .trap _ => True
    | _ => False) : prefetchPlan o v j = .go [] (prefetchActs o v j) := by
  unfold prefetchPlan prefetchActs
  have spaces : ∀ x : BitVec 2, x = 0 ∨ x = 3 ∨ x = 1 ∨ x = 2 := by decide
  rcases spaces o.s with h | h | h | h
  · have found := readable h
    unfold prefetchReach at found ⊢
    simp only [h] at found ⊢
    revert found
    generalize reach _ _ _ _ _ _ _ = r
    intro found
    cases r with
    | at' ps => rfl
    | trap c => rfl
    | miss w => exact found.elim
    | bad n => exact found.elim
  · simp only [h]; rfl
  · simp only [h]; rfl
  · simp only [h]; rfl

theorem prefetchesHold : Sys2Proof.Claims.Prefetches := by
  intro o s bid slot b g m ready h readable room v at' goes
  obtain ⟨t, runs, performs⟩ := each_performs (f := fun v i _ => prefetchPlan o v i) (es := fun _ => []) ready h (shape (.prefetch o))
    (readable_checks readable rfl rfl rfl) (fun j hj => prefetchPlan_goes fun zero => goes zero j hj) (fun _ _ he => absurd he (by simp))
    (fun i => prefetchActs_mild o v i)
    (overCount_room (fun r hr => by obtain ⟨j, _, rfl⟩ := List.mem_map.mp hr; exact prefetchActs_counts o v j) (by rwa [List.length_map]))
  refine ⟨t, ((execPrefetch_eq o s).trans (run_shape (i := .prefetch o) (fun sh => eachThread sh fun v i _ => prefetchPlan o v i) ready.launch)).trans runs, ?_⟩
  have still : (inMask m fun j => effsThread s.now []) = fun _ x => x := by
    funext j x
    simp only [inMask]
    split <;> rfl
  rw [still] at performs
  convert performs using 1
  unfold prefetchActs
  by_cases zero : o.s = 0
  · simp only [zero, if_true, List.map_eq_flatMap] <;> rfl
  · by_cases three : o.s = 3
    · simp only [three, List.map_eq_flatMap] <;> rfl
    · simp only [if_neg zero, if_neg three, List.map_nil]
      exact (List.flatMap_eq_nil_iff.mpr fun _ _ => rfl).symm

/-- Settles O20: loads by what their checks and late entries leave, prefetches space by space. -/
theorem loadsAndPrefetches : Obligations.LoadsAndPrefetches := ⟨loadsHold, prefetchesHold⟩

end Sys2Proof.Machine
end

section
/-! The ends of waits (R174): what each wait is for, and O32. -/

namespace Sys2Proof.Machine

/-- A group that can be given the selector. -/
def CanRun (g : Group) : Prop := g.swap = .resident ∧ g.faults = [] ∧ g.moving = false ∧ g.argsLeft = []

theorem groupReady_iff (g : Group) : groupReady g = true ↔ CanRun g := by
  simp [groupReady, CanRun, and_assoc]

theorem allGroups_iff {c : Core} {b : Bundle} {f : Group → Bool} {P : Group → Prop} (h : ∀ g, f g = true ↔ P g) :
    allGroups c b f = true ↔ ∀ p ∈ b.parts, ∀ g, groupAt c p.slot = some g → P g := by
  rw [allGroups, List.all_eq_true]
  refine forall₂_congr fun p _ => ?_
  cases groupAt c p.slot with
  | none => simp
  | some g => simp [h]

theorem allThreads_iff {c : Core} {b : Bundle} {f : Group → Nat → Bool} {P : Group → Nat → Prop} (h : ∀ g j, f g j = true ↔ P g j) :
    allThreads c b f = true ↔ ∀ p ∈ b.parts, ∀ g, groupAt c p.slot = some g → ∀ j ∈ members p.mask, P g j := by
  rw [allThreads, Bundle.threads, List.all_flatMap, List.all_eq_true]
  refine forall₂_congr fun p _ => ?_
  rw [List.all_map, List.all_eq_true]
  show (∀ j ∈ members p.mask, (match groupAt c p.slot with
    | some g => f g j
    | none => true) = true) ↔ _
  cases groupAt c p.slot with
  | none => simp
  | some g => simp [h]

/-- What a bundle waits for has come about (R174): the condition of each wait. -/
def WaitOver (s : State) (core : Nat) (b : Bundle) (w : Wait) : Prop :=
  let c := coreAt s core
  let groups := fun (f : Group → Prop) => ∀ p ∈ b.parts, ∀ g, groupAt c p.slot = some g → f g
  let threads := fun (f : Group → Nat → Prop) => ∀ p ∈ b.parts, ∀ g, groupAt c p.slot = some g → ∀ j ∈ members p.mask, f g j
  let settled := ∀ x ∈ b.wordsAt, b.pos ≤ x.1 → planHold (tryWord s core b x.1 x.2) = none
  let turned := fun (kind n : Nat) => threads fun g j => arrived (threadAt g j) kind n = false
  match w with
  | .reg rs => ∀ r ∈ rs, ∀ g, groupAt c r.slot = some g → pendingReg c g r = false
  | .certainty ts => ∀ t ∈ ts, ∀ g, groupAt c t.1 = some g → unresolved c g t.2 = false
  | .demand ls => ∀ n ∈ ls, ∀ l, loadAt c n = some l → l.came ≠ none
  | .loads => settled
  | .queue needs => ∀ q ∈ needs, if q.1 = 4 then c.copies.length + q.2.2 ≤ 16 else if q.1 = 5 then (if q.2.1 / 2 % 2 = 0 then c.ctx.mq0 else c.ctx.mq1).length + q.2.2 ≤ 4
      else ∀ g, groupAt c q.2.1 = some g → (g.ops.filter fun o => o.cls == q.1).length + q.2.2 ≤ 65535
  | .jwait _ => ∀ p ∈ b.parts, ∃ q ∈ b.done, q.slot = p.slot
  | .arrive kind n => turned kind n
  | .barrier kind n => turned kind n ∧ threads fun g j => readsPending c g j = false
  | .bobj ws => ws = []
  | .cbwait => True
  | .slp => threads fun g j => ∀ d, (threadAt g j).sleep = some d → d ≤ s.now
  | .vgrow n => groups fun g => (windowFits c g.uid n).isSome = true
  | .tqpush ws d => (∃ x ∈ ws, waitingPushes s x.1 x.2 < queueFree s x.1) ∨ (match d with
      | some d => d ≤ s.now
      | none => ws = [])
  | .owait cls n => groups fun g => (g.ops.filter fun o => o.cls == cls).length ≤ n
  | .walk => groups fun g => ∀ x ∈ c.walks, x.own = g.uid → x.fatal = false → x.failed = false → ∃ i, x.thr = some i ∧ ∀ p ∈ b.parts, i ∉ members p.mask
  | .fence _ => b.parked = false ∨ settled

theorem lfind_isSome {α : Type} (p : α → Bool) (l : List α) : (lfind p l).isSome = l.any p := by
  induction l with
  | nil => rfl
  | cons x r ih => cases h : p x <;> simp [lfind, h, ih]

/-- A try of the words of a step finds nothing to wait for exactly where no word would wait. -/
theorem retried_isEmpty (s : State) (k : Nat) (b : Bundle) :
    (retried s k b).isEmpty = true ↔ ∀ x ∈ b.wordsAt, b.pos ≤ x.1 → planHold (tryWord s k b x.1 x.2) = none := by
  unfold retried
  generalize hps : (b.wordsAt.filter fun w => decide (b.pos ≤ w.1)).map (fun w => tryWord s k b w.1 w.2) = pss
  have tries : (∀ x ∈ b.wordsAt, b.pos ≤ x.1 → planHold (tryWord s k b x.1 x.2) = none) ↔ ∀ ps ∈ pss, planHold ps = none := by
    subst hps
    simp only [List.forall_mem_map, List.mem_filter, decide_eq_true_eq, and_imp]
  rw [tries]
  cases found : lfind (fun ps => (planHold ps).isSome) pss with
  | none =>
    have quiet := lfind_isSome (fun ps => (planHold ps).isSome) pss
    rw [found] at quiet
    simpa using quiet
  | some ps =>
    obtain ⟨mem, holds⟩ := lfind_some found
    have some : ps ≠ [] := fun empty => by rw [empty] at holds; cases holds
    refine iff_of_false (by simpa using some) fun quiet => ?_
    rw [quiet ps mem] at holds
    cases holds

theorem roomFor_iff (s : State) (k : Nat) (q : Nat × Nat × Nat) : roomFor s k q = true ↔
    if q.1 = 4 then (coreAt s k).copies.length + q.2.2 ≤ 16
    else if q.1 = 5 then (if q.2.1 / 2 % 2 = 0 then (coreAt s k).ctx.mq0 else (coreAt s k).ctx.mq1).length + q.2.2 ≤ 4
    else ∀ g, groupAt (coreAt s k) q.2.1 = some g → (g.ops.filter fun o => o.cls == q.1).length + q.2.2 ≤ 65535 := by
  obtain ⟨what, slot, n⟩ := q
  by_cases copy : what = 4
  · subst copy; simp [roomFor]
  · by_cases queue : what = 5
    · subst queue; exact decide_eq_true_iff
    · simp only [roomFor, copy, queue, if_false]
      cases groupAt (coreAt s k) slot with
      | none => simp
      | some g => exact decide_eq_true_iff.trans (by simp [opCount])

theorem walksOver_iff (c : Core) (b : Bundle) : walksOver c b = true ↔ ∀ p ∈ b.parts, ∀ g, groupAt c p.slot = some g →
    ∀ x ∈ c.walks, x.own = g.uid → x.fatal = false → x.failed = false → ∃ i, x.thr = some i ∧ ∀ p ∈ b.parts, i ∉ members p.mask := by
  refine allGroups_iff fun g => ?_
  rw [Bool.not_eq_true', List.any_eq_false]
  refine forall₂_congr fun x _ => ?_
  cases x.thr with
  | none => simp
  | some i => simp [Bundle.threads]

theorem mayResume_iff {s : State} {k : Nat} {b : Bundle} {w : Wait} (waits : b.wait = some w) : mayResume s k b w = true ↔ WaitOver s k b w := by
  cases w with
  | reg rs =>
    show List.all rs _ = true ↔ _
    rw [List.all_eq_true]
    refine forall₂_congr fun r _ => ?_
    cases groupAt (coreAt s k) r.slot <;> simp
  | certainty ts =>
    show List.all ts _ = true ↔ _
    rw [List.all_eq_true]
    refine forall₂_congr fun t _ => ?_
    cases groupAt (coreAt s k) t.1 <;> simp
  | demand ls =>
    show List.all ls _ = true ↔ _
    rw [List.all_eq_true]
    refine forall₂_congr fun n _ => ?_
    cases loadAt (coreAt s k) n <;> simp [Option.isSome_iff_ne_none]
  | loads => exact retried_isEmpty s k b
  | queue needs =>
    show List.all needs _ = true ↔ _
    rw [List.all_eq_true]
    exact forall₂_congr fun q _ => roomFor_iff s k q
  | jwait n => simp [mayResume, WaitOver, allReleased, waits]
  | arrive kind n => exact allThreads_iff (f := fun g j => !arrived (threadAt g j) kind n) fun g j => by rw [Bool.not_eq_true']
  | barrier kind n =>
    refine (allThreads_iff (f := fun g j => !arrived (threadAt g j) kind n && !readsPending (coreAt s k) g j) (P := fun g j => arrived (threadAt g j) kind n = false ∧ readsPending (coreAt s k) g j = false) fun g j => by simp).trans ?_
    exact ⟨fun h => ⟨fun p hp g hg j hj => (h p hp g hg j hj).1, fun p hp g hg j hj => (h p hp g hg j hj).2⟩,
      fun h p hp g hg j hj => ⟨h.1 p hp g hg j hj, h.2 p hp g hg j hj⟩⟩
  | bobj ws => exact List.isEmpty_iff
  | cbwait => exact iff_of_true rfl trivial
  | slp =>
    refine allThreads_iff (f := fun g j => match (threadAt g j).sleep with
      | some d => decide (d ≤ s.now)
      | none => true) fun g j => ?_
    cases (threadAt g j).sleep <;> simp
  | vgrow n => exact allGroups_iff fun g => Iff.rfl
  | tqpush ws d =>
    cases d <;> simp [mayResume, WaitOver, pushOver]
  | owait cls n => exact allGroups_iff fun g => decide_eq_true_iff
  | walk => exact walksOver_iff _ b
  | fence rs =>
    show (!b.parked || (retried s k b).isEmpty) = true ↔ _
    rw [Bool.or_eq_true, retried_isEmpty, Bool.not_eq_true']
    rfl

/-! What the end of a wait does. -/

/-- Whether a bundle that waits so stays at its selector's swap point as it goes on (R178, R382). -/
def yieldsAfter (b : Bundle) : Wait → Bool
  | .fence _ => b.parked
  | _ => !b.pinned

/-- A bundle of a core as it goes on. -/
def onward (c : Core) (b : Bundle) (w : Wait) : Bundle := { b with wait := none, parked := false, yield := b.yield || (c.exch == .swap && yieldsAfter b w) }

theorem mayLeave_of_wait {b : Bundle} {w : Wait} (waits : b.wait = some w) : mayLeave b = (b.yield || yieldsAfter b w) := by
  unfold mayLeave
  rw [waits]
  cases b.yield <;> cases w <;> rfl

theorem stayPut_of_wait {c : Core} {b x : Bundle} {w : Wait} (waits : b.wait = some w) (free : x.wait = none) (same : x.yield = b.yield) :
    stayPut c b x = { x with yield := b.yield || (c.exch == .swap && yieldsAfter b w) } := by
  have kept : stayPut c b x = { x with yield := if c.exch == .swap && mayLeave b then true else x.yield } := by
    rw [stayPut, waits, show x.wait.isNone = true by rw [free]; rfl, Option.isSome_some, Bool.and_true, Bool.and_true]
    split <;> rfl
  have flag : (if c.exch == .swap && mayLeave b then true else x.yield) = (b.yield || (c.exch == .swap && yieldsAfter b w)) := by
    rw [mayLeave_of_wait waits, same]
    cases c.exch == .swap <;> cases b.yield <;> cases yieldsAfter b w <;> rfl
  rw [kept, flag]

theorem goOn_eq {c : Core} {bid : Nat} {b : Bundle} {w : Wait} (waits : b.wait = some w) : goOn bid b w c = match w with
    | .slp => setBundle (wakeParts c b) bid (onward c b w)
    | .jwait _ => setBundle (loseParts c b.parts) bid { onward c b w with done := [] }
    | _ => setBundle c bid (onward c b w) := by
  cases w with
  | jwait k => exact congrArg (setBundle _ bid) (stayPut_of_wait waits rfl rfl)
  | _ => exact congrArg (setBundle _ bid) (stayPut_of_wait waits rfl rfl)

/-- What an event does to a wait that is not over (R174, R206). -/
def stillWaits (s : State) (core bid : Nat) (b : Bundle) : Wait → State
  | .barrier kind n => if phaseDone (coreAt s core) b kind n && allGroups (coreAt s core) b groupReady
      then modCore s core fun c => setBundle c bid { b with parked := false } else s
  | .fence rs => tryAgain s core bid b (.fence rs)
  | .loads => tryAgain s core bid b .loads
  | _ => s

section
variable {s : State} {core bid : Nat} {b : Bundle} {w : Wait} (here : bundleAt (coreAt s core) bid = some b) (waits : b.wait = some w)
include here waits

theorem resume_other {e : Resume} (other : (resumedBy w == e) = false) : resume s core bid e = s := by
  simp [resume, here, waits, bne, other]

theorem resume_over {e : Resume} (mine : (resumedBy w == e) = true) (over' : WaitOver s core b w)
    (ready : ∀ p ∈ b.parts, ∀ g, groupAt (coreAt s core) p.slot = some g → CanRun g) : resume s core bid e = modCore s core (goOn bid b w) := by
  have may : mayResume s core b w = true := (mayResume_iff waits).mpr over'
  have groups : allGroups (coreAt s core) b groupReady = true := (allGroups_iff groupReady_iff).mpr ready
  simp [resume, here, waits, bne, mine, may, groups]

theorem resume_early {e : Resume} (mine : (resumedBy w == e) = true)
    (early : ¬ (WaitOver s core b w ∧ ∀ p ∈ b.parts, ∀ g, groupAt (coreAt s core) p.slot = some g → CanRun g)) : resume s core bid e = stillWaits s core bid b w := by
  have not : (mayResume s core b w && allGroups (coreAt s core) b groupReady) = false := by
    rw [Bool.eq_false_iff, ne_eq, Bool.and_eq_true, mayResume_iff waits, allGroups_iff groupReady_iff]
    exact early
  unfold resume
  rw [here]
  show (match b.wait with
    | none => s
    | some w => _) = _
  split
  · next unheld => rw [waits] at unheld; cases unheld
  · next x held =>
    obtain rfl : x = w := Option.some.inj (held.symm.trans waits)
    simp only [bne, mine, not, Bool.not_true, Bool.false_eq_true, if_false]
    cases x <;> rfl

end

/-- Settles O32: each wait's condition read off its test, and the end of a wait by the event that ends it. -/
theorem waitEnds : Obligations.WaitEnds := by
  unfold Obligations.WaitEnds
  intro ends certainty barrier push sleep poll
  have rule (e : Resume) (mk : Nat → Nat → Instr) (mine : Wait → Bool) (runs : ∀ core bid s, exec (mk core bid) s = .next (resume s core bid e))
      (own : ∀ w, mine w = (resumedBy w == e)) : ends mk mine := by
    intro core bid s b w here waits c groups threads settled turned over' ready stays on
    rw [own, runs]
    refine ⟨fun other => ?_, fun here' h r => ?_, fun here' early => ?_⟩
    · rw [resume_other here waits other]
    · rw [resume_over here waits here' ((show over' ↔ WaitOver s core b w by cases w <;> exact Iff.rfl).mp h) r]
      refine congrArg (fun x => Host.Outcome.next (setCore s core x)) ((goOn_eq waits).trans ?_)
      cases w <;> rfl
    · rw [resume_early here waits here' early]
      cases w with
      | barrier kind n =>
        have both : (phaseDone (coreAt s core) b kind n && allGroups (coreAt s core) b groupReady) = true ↔ turned kind n ∧ ready := by
          rw [Bool.and_eq_true, allGroups_iff groupReady_iff]
          exact and_congr_left fun _ => allThreads_iff (f := fun g j => !arrived (threadAt g j) kind n) fun g j => by rw [Bool.not_eq_true']
        exact ⟨fun h => congrArg Host.Outcome.next (if_pos (both.mpr h)), fun h => congrArg Host.Outcome.next (if_neg (both.not.mpr h))⟩
      | fence rs => trivial
      | loads => trivial
      | _ => rfl
  exact ⟨rule .certainty .certainty certainty (fun _ _ _ => rfl) (by rintro ⟨⟩ <;> rfl), rule .barrier .barrierRelease barrier (fun _ _ _ => rfl) (by rintro ⟨⟩ <;> rfl),
    rule .sleep .sleepExpiry sleep (fun _ _ _ => rfl) (by rintro ⟨⟩ <;> rfl), rule .poll .cbwaitPoll poll (fun _ _ _ => rfl) (by rintro ⟨⟩ <;> rfl),
    rule .push .tqpushTimeout push (fun _ _ _ => rfl) (by rintro ⟨⟩ <;> rfl), rule .step .waitingStepIssue _ (fun _ _ _ => rfl) (by rintro ⟨⟩ <;> rfl)⟩

end Sys2Proof.Machine
end

section
/-! A step of the machine (R30, R54, R87, R174): what it issues, what a fetch finds, and O50. -/

namespace Sys2Proof.Machine

/-! No outcome but a next state. -/

/-- Every instruction has a next state: a word's outcome is its issue, an event's is what it makes of the state. -/
theorem exec_next (i : Instr) (s : State) : ∃ t, exec i s = .next t := by
  cases i <;> exact ⟨_, rfl⟩

theorem registerNow_next (k number val : Nat) (s : State) : ∃ t, registerNow k number val s = .next t := by
  unfold registerNow
  split
  · exact ⟨_, rfl⟩
  · split <;> exact ⟨_, rfl⟩

theorem issueWord_next (s : State) (k bid : Nat) (b : Bundle) : ∃ t, issueWord s k bid b = .next t := by
  unfold issueWord
  split
  · next i n _ =>
    split
    · exact ⟨_, rfl⟩
    · obtain ⟨t, runs⟩ := exec_next i s
      exact ⟨_, by rw [runs]; rfl⟩
  · exact ⟨_, rfl⟩

theorem noted_next {o : Host.Outcome State Fault Refusal} (h : ∃ t, o = .next t) (k sel bid : Nat) (b : Bundle) : ∃ t, noted k sel bid b o = .next t := by
  obtain ⟨t, rfl⟩ := h
  exact ⟨_, rfl⟩

theorem issueNow_next (s : State) : ∃ t, issueNow s = .next t := by
  simp only [issueNow]
  split
  · exact ⟨_, rfl⟩
  · split
    · exact ⟨_, rfl⟩
    · refine noted_next ?_ _ _ _ _
      split
      · exact ⟨_, rfl⟩
      · split
        · exact ⟨_, rfl⟩
        · exact issueWord_next _ _ _ _

/-- An event of the model's own order is one that changes the machine, so it has a next state. -/
theorem autoEvent_next {s : State} {i : Happens} (h : autoEvent s = some i) : ∃ t, i s = .next t := by
  obtain ⟨_, due⟩ := lfind_some h
  unfold changes at due
  split at due
  · next t runs => exact ⟨t, runs⟩
  · cases due

theorem freeStep_next (s : State) : ∃ t, freeStep s = .next t := by
  simp only [freeStep]
  split
  · exact issueNow_next _
  · split
    · next due => exact autoEvent_next due
    · exact issueNow_next _
    · exact ⟨_, rfl⟩

theorem step_next (s : State) : ∃ t, step s = .next t := by
  unfold step
  split
  · exact issueNow_next s
  · split
    · exact freeStep_next s
    · exact exec_next _ _
    · exact registerNow_next _ _ _ _
    · dsimp only
      split
      · exact issueNow_next _
      · exact ⟨_, rfl⟩

/-! The packet that a fetch finds (R87). -/

theorem lget_mem {α : Type} (d : α) {l : List α} (some : l ≠ []) (n : Nat) : lget d l (n % l.length) ∈ l := by
  have inside : n % l.length < l.length := Nat.mod_lt _ (List.length_pos_iff.mpr some)
  rw [lget_getElem d l inside]
  exact List.getElem_mem inside

/-- The packets found so far of a launch at an address. -/
def foundBefore (x : Launch) (va : Nat) : List Pkt := (tfind x.code va).getD []

/-- The packets found with one more. -/
def foundNow (x : Launch) (va : Nat) (p : Pkt) : List Pkt := if (foundBefore x va).contains p then foundBefore x va else p :: foundBefore x va

theorem mem_foundNow {x : Launch} {va : Nat} {p r : Pkt} : r ∈ foundNow x va p ↔ r = p ∨ r ∈ foundBefore x va := by
  unfold foundNow
  split
  · next mem =>
    have mem : p ∈ foundBefore x va := by simpa using mem
    exact ⟨.inr, fun h => h.elim (fun e => e ▸ mem) id⟩
  · exact List.mem_cons

/-- A fetch of a launch's core, by whether the packet is the only one found so far, the first, or one of several. -/
theorem foundPacket_cases {s : State} {k l : Nat} {x : Launch} (h : launchAt s l = some x) (worker : isControl k = false) (va : Nat) (p : Pkt) :
    let s1 := modLaunch s l fun y => { y with code := tput y.code va (foundNow x va p) }
    (foundBefore x va = [p] ∧ foundPacket s k l va p = (p, s)) ∨
    ((foundNow x va p).length ≤ 1 ∧ foundPacket s k l va p = (p, s1)) ∨
    (1 < (foundNow x va p).length ∧ foundPacket s k l va p =
      (lget p (foundNow x va p) (Config.fetchChoice s.draws % (foundNow x va p).length), { s1 with draws := s1.draws + 1 })) := by
  intro s1
  by_cases same : foundBefore x va = [p]
  · refine .inl ⟨same, ?_⟩
    unfold foundBefore at same
    simp [foundPacket, h, same]
  · have differs : (foundBefore x va == [p]) = false := by simpa using same
    by_cases one : (foundNow x va p).length ≤ 1
    · refine .inr (.inl ⟨one, ?_⟩)
      unfold foundNow foundBefore at one
      unfold foundBefore at differs
      simp only [foundPacket, h, Option.map_some, worker, differs, Bool.or_false, Bool.false_eq_true, if_false, one, if_true]
      rfl
    · refine .inr (.inr ⟨by omega, ?_⟩)
      unfold foundNow foundBefore at one
      unfold foundBefore at differs
      simp only [foundPacket, h, Option.map_some, worker, differs, Bool.or_false, Bool.false_eq_true, if_false, one]
      rfl

theorem foundPacket_plain {s : State} {k l : Nat} (h : launchAt s l = none ∨ isControl k = true) (va : Nat) (p : Pkt) : foundPacket s k l va p = (p, s) := by
  unfold foundPacket
  rcases h with h | h
  · rw [h]; rfl
  · cases launchAt s l with
    | none => rfl
    | some x => simp [h]

/-- WHAT A FETCH FINDS: a packet of the present bytes where none or only it has been found, and otherwise that one or one found before; what has been found is noted. -/
theorem foundPacket_found {s : State} {k l : Nat} {x : Launch} (h : launchAt s l = some x) (va : Nat) (p : Pkt) :
    (foundBefore x va = [] ∨ foundBefore x va = [p] → (foundPacket s k l va p).1 = p) ∧
    ((foundPacket s k l va p).1 = p ∨ (foundPacket s k l va p).1 ∈ foundBefore x va) ∧
    (foundPacket s k l va p).2.mem = s.mem ∧ (foundPacket s k l va p).2.cores = s.cores ∧
    (isControl k = false → ∃ y, launchAt (foundPacket s k l va p).2 l = some y ∧ ∀ r, r ∈ foundBefore y va ↔ r = p ∨ r ∈ foundBefore x va) := by
  by_cases control : isControl k = true
  · rw [foundPacket_plain (.inr control)]
    exact ⟨fun _ => rfl, .inl rfl, rfl, rfl, fun worker => by rw [worker] at control; cases control⟩
  · have worker : isControl k = false := by simpa using control
    have listed : ∃ y, launchAt (modLaunch s l fun y => { y with code := tput y.code va (foundNow x va p) }) l = some y ∧
        ∀ r, r ∈ foundBefore y va ↔ r = p ∨ r ∈ foundBefore x va := by
      refine ⟨{ x with code := tput x.code va (foundNow x va p) }, ?_, fun r => ?_⟩
      · unfold launchAt at h
        rw [launchAt, modLaunch, tfind_tmod, if_pos rfl, h]
        rfl
      · rw [foundBefore, tfind_tput_same]
        exact mem_foundNow
    rcases foundPacket_cases h worker va p with ⟨only, found⟩ | ⟨_, found⟩ | ⟨several, found⟩ <;> rw [found]
    · exact ⟨fun _ => rfl, .inl rfl, rfl, rfl, fun _ => ⟨x, h, fun r => by simp [only]⟩⟩
    · exact ⟨fun _ => rfl, .inl rfl, rfl, rfl, fun _ => listed⟩
    · have some : foundNow x va p ≠ [] := fun empty => by rw [empty] at several; cases several
      refine ⟨fun before => ?_, mem_foundNow.mp (lget_mem p some _), rfl, rfl, fun _ => listed⟩
      refine (mem_foundNow.mp (lget_mem p some _)).elim id fun mem => ?_
      rcases before with before | before <;> rw [before] at mem
      · cases mem
      · exact List.mem_singleton.mp mem

/-! The issue of a word (R30, R174). -/

theorem notePacket_same {k sel bid : Nat} {b x : Bundle} {t : State} (h : bundleAt (coreAt t k) bid = some x) (pc : x.pc = b.pc) (step : x.stepPos = b.stepPos) :
    notePacket k sel bid b t = t := by
  simp [notePacket, h, pc, step]

theorem notePacket_moved {k sel bid : Nat} {b : Bundle} {t : State} (h : ∀ x, bundleAt (coreAt t k) bid = some x → x.pc ≠ b.pc ∨ x.stepPos ≠ b.stepPos) :
    notePacket k sel bid b t = modCore t k fun c => { c with packetAt := tput c.packetAt sel (cycOf t k) } := by
  unfold notePacket
  refine if_pos ?_
  cases here : bundleAt (coreAt t k) bid with
  | none => rfl
  | some x => simpa using h x here

theorem running_bundle {s : State} {bid : Nat} {b : Bundle} (h : running s = some (bid, b)) : bundleAt (coreAt s s.cur.1) bid = some b := by
  unfold running at h
  simp only at h
  split at h
  · cases h
  · obtain ⟨x, found, e⟩ := Option.map_eq_some_iff.mp h
    cases e
    exact found

/-- The word of a bundle that stands at an instruction is issued. -/
theorem issueWord_decoded {s : State} {k bid n : Nat} {b : Bundle} {i : Instr} (fresh : b.issued = false) (h : decodeBundle b = some (i, n)) :
    issueWord s k bid b = moveOn k bid n (exec i s) := by
  simp [issueWord, h, fresh]

/-- What issues now where the bundle, with its packet, stands at an instruction. -/
theorem issueNow_decoded {s : State} {bid n : Nat} {b x : Bundle} {i : Instr} (h : running s = some (bid, b)) (may : mayIssue s s.cur.1 s.cur.2 b = true)
    (s1 : State) (hs : (if b.pkt.isNone then fetch (modTc s (tcOf s.cur.1) (Tc.run s.now 0)) s.cur.1 bid b else modTc s (tcOf s.cur.1) (Tc.run s.now 0)) = s1)
    (here : bundleAt (coreAt s1 s.cur.1) bid = some x) (pkt : x.pkt.isNone = false) (wait : x.wait = none) (yield : x.yield = false) (fresh : x.issued = false)
    (decoded : decodeBundle x = some (i, n)) : issueNow s = noted s.cur.1 s.cur.2 bid b (moveOn s.cur.1 bid n (exec i s1)) := by
  simp only [issueNow, h, may, hs, here, pkt, wait, yield, issueWord_decoded fresh decoded, Bool.not_true, Option.isSome_none, Bool.or_false, Bool.false_eq_true, if_false]

theorem mayIssue_free {s : State} {k sel : Nat} {b : Bundle} (h : mayIssue s k sel b = true) : b.wait = none ∧ b.yield = false := by
  simp only [mayIssue, Bool.and_eq_true, Option.isNone_iff_eq_none, Bool.not_eq_true'] at h
  exact ⟨h.1.1.1, h.1.1.2⟩

/-- A bundle with its packet fetched. -/
def withPacket (b : Bundle) (p : Pkt) : Bundle := { b with pkt := some p, pinned := false, tried := false }

theorem fetchPacket_words {s : State} {k : Nat} {g : Group} {h : Hdr} {pc x y z : Nat} (hx : fetchWord (codeView s) k (coreAt s k) h (packetVa h pc) = some x)
    (hy : fetchWord (codeView s) k (coreAt s k) h (packetVa h pc + 4) = some y) (hz : fetchWord (codeView s) k (coreAt s k) h (packetVa h pc + 8) = some z) :
    fetchPacket s k g h pc = .pkt ⟨x, y, z⟩ := by
  simp only [fetchPacket, hx, hy, hz]

/-- A fetch whose words are there, at a block start with its arguments where it is the launch's first packet. -/
theorem fetch_found {s : State} {k bid : Nat} {b : Bundle} {g : Group} {h : Hdr} {now : Pkt} (hdr : bundleHdr s k b = some (g, h))
    (words : fetchPacket s k g h b.pc.toNat = .pkt now) (s1 : State)
    (hs : noteStart (modCore (fetchLines (foundPacket s k g.lseq (packetVa h b.pc.toNat) now).2 k h b.pc.toNat) k fun c =>
      setBundle c bid (withPacket b (foundPacket s k g.lseq (packetVa h b.pc.toNat) now).1)) g.lseq = s1)
    (entry : atEntry h b = true → g.argFailed = none ∧ isBlockStart s1 k h b.pc.toNat = true) : fetch s k bid b = s1 := by
  subst hs
  unfold fetch
  rw [hdr]
  simp only [words]
  cases first : atEntry h b with
  | false => rfl
  | true =>
    obtain ⟨args, start⟩ := entry first
    simp only [args]
    exact if_pos start

theorem noteStart_cores (s : State) (lseq : Nat) : (noteStart s lseq).cores = s.cores := by
  unfold noteStart
  split
  · split <;> rfl
  · rfl

/-- Settles O50: the word under a bundle runs through exec, fetched or at hand, and so does the event that the agenda names. -/
theorem stepRunsDecoded : Obligations.StepRunsDecoded := by
  refine ⟨?_, fun _ _ _ _ => rfl, ?_, ?_, ?_, ?_, step_next, ?_⟩
  · intro s bid n b i runs may fresh k s0
    obtain ⟨wait, yield⟩ := mayIssue_free may
    refine ⟨fun p pkt decoded => ?_, fun g h x y z pkt hdr => ?_⟩
    · refine issueNow_decoded runs may s0 (by rw [pkt]; rfl) (x := b) (running_bundle runs) (by rw [pkt]; rfl) wait yield fresh ?_
      rw [decodeBundle, wordsFrom, pkt]
      exact decoded
    · intro va word hx hy hz p s1 entry decoded
      have fetched : fetch s0 k bid b = s1 := fetch_found hdr (fetchPacket_words hx hy hz) s1 rfl entry
      refine issueNow_decoded runs may s1 (by rw [pkt]; exact fetched) (x := withPacket b p) ?_ rfl wait yield fresh decoded
      show bundleAt (coreAt (noteStart _ _) k) bid = _
      rw [coreAt_of_cores (noteStart_cores _ _), coreAt_modCore_same]
      exact tfind_tput_same _ _ _
  · intro k sel bid b x t here pc step
    exact congrArg Host.Outcome.next (notePacket_same here pc step)
  · intro k sel bid b t moved
    exact congrArg Host.Outcome.next (notePacket_moved moved)
  · exact fun s k l va p => ⟨fun h => foundPacket_plain h va p, fun x h => foundPacket_found h va p⟩
  · intro s mid
    simp [step, mid]
  · intro s ns tc cyc k sel i r mid
    refine ⟨fun listed => ?_, fun listed other => ?_, fun c l listed => ?_⟩
    · simp [step, mid, listed]
    · have unnamed : deadlineNamed i = none := by
        unfold deadlineNamed
        split
        · next c l => exact absurd rfl (other c l)
        · rfl
      simp [step, mid, listed, unnamed]
    · simp [step, mid, listed, deadlineNamed]

end Sys2Proof.Machine
end

section
/-! Accesses at their homes, loads installed, and releases drained (R18, R99, R219, R236, R275). -/

namespace Sys2Proof.Machine

/-! The way to a home (R219, R221). -/

theorem toHome_opened {s go : State} {k own : Nat} {ps : List Piece} (way : piecesWay s ps = .opened) (awake : ∀ p ∈ ps, asleep s p = false) :
    toHome s k own ps go = go := by
  have none : ps.any (asleep s) = false := List.any_eq_false.mpr fun p hp => by simp [awake p hp]
  simp [toHome, way, none]

theorem toHome_stays {s go : State} {k own : Nat} {ps : List Piece}
    (h : (piecesWay s ps = .opened ∧ ∃ p ∈ ps, asleep s p = true) ∨ piecesWay s ps = .waits) : toHome s k own ps go = s := by
  rcases h with ⟨way, sleeps⟩ | way
  · have some : ps.any (asleep s) = true := List.any_eq_true.mpr sleeps
    simp [toHome, way, some]
  · simp [toHome, way]

theorem toHome_lost {s go : State} {k own : Nat} {ps : List Piece} {g : Group} (way : piecesWay s ps = .lost) (h : owner (coreAt s k) own = some g) :
    toHome s k own ps go = rollback s g.lseq := by
  simp [toHome, way, h]

/-- The reply of an atomic or of a token acquire, as its peers and stacks let it take effect (R248, R333). -/
def reply (s : State) (core : Nat) (l : Load) : State := match l.kind with
  | .atomic op v => toHome s core l.own l.pieces (doAtomic s core l op v)
  | .token p => toHome s core l.own l.pieces (doToken s core l p)
  | _ => s

/-! The events of a load's data. -/

theorem reads_iff (l : Load) : l.reads = true ↔ l.kind = .load ∨ l.kind = .fill := by simp [Load.reads]

theorem guessed_early {s : State} {k lid : Nat} {l : Load} (here : loadAt (coreAt s k) lid = some l)
    (early : l.kind = .fill ∨ l.written = true ∨ l.cls = 0 ∨ ∀ d, l.deadline = some d → s.now ≤ d) : guessed s k lid = s := by
  have waits : l.overdue s.now = false := by
    unfold Load.overdue
    rcases early with kind | written | cls | deadline
    · simp [kind]
    · simp [written]
    · simp [cls]
    · cases hd : l.deadline with
      | none => simp
      | some d => simp [deadline d hd]
  simp [guessed, here, waits]

theorem guessed_late {s : State} {k lid d : Nat} {l : Load} (here : loadAt (coreAt s k) lid = some l) (kind : l.kind = .load) (written : l.written = false)
    (cls : l.cls ≠ 0) (deadline : l.deadline = some d) (past : d < s.now) : guessed s k lid = installGuess s k l := by
  have late : l.overdue s.now = true := by simp [Load.overdue, kind, written, cls, deadline, past]
  simp [guessed, here, late]

section
variable {s : State} {core lid unit : Nat} {l : Load} (here : loadAt (coreAt s core) lid = some l)
include here

theorem arrival_came (came : l.came ≠ none) : execLoadDataArrival core ⟨lid, unit⟩ s = .next s := by
  have some : l.came.isSome = true := Option.isSome_iff_ne_none.mpr came
  simp [execLoadDataArrival, here, some]

theorem arrival_unit {p : Piece} (reads : l.reads = true) (came : l.came = none) (piece : l.pieces[unit]? = some p) :
    execLoadDataArrival core ⟨lid, unit⟩ s = .next (if readDue (coreAt s core) l [p] then toHome s core l.own [p] (readUnit s core l unit) else s) := by
  simp [execLoadDataArrival, here, reads, came, piece]

theorem arrival_all (reads : l.reads = true) (came : l.came = none) (past : l.pieces.length ≤ unit)
    (early : l.kind = .fill ∨ l.written = true ∨ l.cls = 0 ∨ ∀ d, l.deadline = some d → s.now ≤ d) :
    execLoadDataArrival core ⟨lid, unit⟩ s = .next (if readDue (coreAt s core) l l.unread then toHome s core l.own l.unread (resave (performLoad s core l) core l.own) else s) := by
  have piece : l.pieces[unit]? = none := List.getElem?_eq_none past
  simp only [execLoadDataArrival, here, reads, came, piece, guessed_early here early]
  cases readDue (coreAt s core) l l.unread <;> rfl

theorem reply_eq : execAtomicResult core lid s = .next (if accessDue (coreAt s core) l.own l.num l.po false l.pieces = true ∧ (∀ p ∈ l.pieces, lineBars (coreAt s core) core l.num p = false)
    then reply s core l else s) := by
  have barred : (!accessDue (coreAt s core) l.own l.num l.po false l.pieces || l.pieces.any (lineBars (coreAt s core) core l.num)) = true ↔
      ¬ (accessDue (coreAt s core) l.own l.num l.po false l.pieces = true ∧ ∀ p ∈ l.pieces, lineBars (coreAt s core) core l.num p = false) := by
    rw [Bool.or_eq_true, Bool.not_eq_true', List.any_eq_true]
    by_cases due : accessDue (coreAt s core) l.own l.num l.po false l.pieces = true <;> simp [due]
  rw [execAtomicResult, here]
  refine congrArg Host.Outcome.next ?_
  by_cases goes : accessDue (coreAt s core) l.own l.num l.po false l.pieces = true ∧ ∀ p ∈ l.pieces, lineBars (coreAt s core) core l.num p = false
  · exact (if_neg fun h => barred.mp h goes).trans (if_pos goes).symm
  · exact (if_pos (barred.mpr goes)).trans (if_neg goes).symm

end

/-! The events of a write's units. -/

section
variable {s : State} {core wid unit : Nat} {w : Write} (here : writeAt (coreAt s core) wid = some w) (free : w.held = false)
include here free

theorem performed_unit {p : Piece} (piece : w.pieces[unit]? = some p) : execWritePerformed core ⟨wid, unit⟩ s =
    .next (if unitDue (coreAt s core) core w p then toHome s core w.own [p] (doUnit s core w unit) else s) := by
  simp [execWritePerformed, here, free, piece]

theorem performed_all (past : w.pieces.length ≤ unit) : execWritePerformed core ⟨wid, unit⟩ s =
    .next (if w.pieces.all (unitDue (coreAt s core) core w) then toHome s core w.own w.pieces (doWrite s core w) else s) := by
  have piece : w.pieces[unit]? = none := List.getElem?_eq_none past
  simp [execWritePerformed, here, free, piece]

end

/-- The first claim of O30: each event by what its home and its order allow. -/
theorem homeEvents : Sys2Proof.Claims.HomeEvents := by
  unfold Sys2Proof.Claims.HomeEvents
  intro home
  have goesHome {i : Instr} {s go : State} {core own : Nat} {ps : List Piece} (h : exec i s = .next (toHome s core own ps go)) : home i s go core own ps :=
    ⟨fun way awake => by rw [h, toHome_opened way awake], fun still => by rw [h, toHome_stays still], fun g way owned => by rw [h, toHome_lost way owned]⟩
  refine ⟨?_, ?_⟩
  · intro core lid s l here due reads
    have readsDue (ps : List Piece) : readDue (coreAt s core) l ps = reads ps := rfl
    refine ⟨fun d kind written cls deadline past => ?_, fun kind came unit => ?_, fun kind came => ⟨fun unit past early => ⟨fun go => ?_, fun bars => ?_⟩,
      fun unit p piece => ⟨fun go => ?_, fun bars => ?_⟩⟩, fun go free => ⟨fun op v kind => ?_, fun p kind => ?_⟩, fun bars => ?_⟩
    · exact congrArg Host.Outcome.next (guessed_late here kind written cls deadline past)
    · exact arrival_came here came
    · refine goesHome ((arrival_all here ((reads_iff l).mpr kind) came past early).trans ?_)
      rw [readsDue, go, if_pos rfl]
    · refine (arrival_all here ((reads_iff l).mpr kind) came past early).trans ?_
      rw [readsDue, bars, if_neg Bool.false_ne_true]
    · refine goesHome ((arrival_unit here ((reads_iff l).mpr kind) came piece).trans ?_)
      rw [readsDue, go, if_pos rfl]
    · refine (arrival_unit here ((reads_iff l).mpr kind) came piece).trans ?_
      rw [readsDue, bars, if_neg Bool.false_ne_true]
    · refine goesHome ((reply_eq here).trans ?_)
      rw [if_pos ⟨go, free⟩, reply, kind]
    · refine goesHome ((reply_eq here).trans ?_)
      rw [if_pos ⟨go, free⟩, reply, kind]
    · refine (reply_eq here).trans (congrArg Host.Outcome.next (if_neg fun ⟨go, free⟩ => ?_))
      rcases bars with bars | ⟨p, hp, bars⟩
      · exact Bool.false_ne_true (bars.symm.trans go)
      · exact Bool.false_ne_true ((free p hp).symm.trans bars)
  · intro core wid unit s w here held
    refine ⟨fun p piece => ⟨fun go => ?_, fun bars => ?_⟩, fun past => ⟨fun go => ?_, fun bars => ?_⟩⟩
    · refine goesHome ((performed_unit here held piece).trans ?_)
      rw [go, if_pos rfl]
    · refine (performed_unit here held piece).trans ?_
      rw [bars, if_neg Bool.false_ne_true]
    · exact goesHome ((performed_all here held past).trans (congrArg Host.Outcome.next (if_pos (List.all_eq_true.mpr go))))
    · refine (performed_all here held past).trans (congrArg Host.Outcome.next (if_neg fun all => ?_))
      obtain ⟨p, hp, bars⟩ := bars
      exact Bool.false_ne_true (bars.symm.trans (List.all_eq_true.mp all p hp))

/-! Releases that drain (R275, R276). -/

theorem writesTo_iff (s : State) (k num die path : Nat) : writesTo s k num die path = true ↔
    (∃ w ∈ (coreAt s k).writes, w.num < num ∧ w.held = false ∧ ∃ p ∈ w.pieces, die ∈ postedTo k [p] ∧ pathOf s k p = path) ∨
    ∃ l ∈ (coreAt s k).loads, l.num < num ∧ l.kind ≠ .load ∧ l.kind ≠ .fill ∧ ∃ p ∈ l.pieces, die ∈ postedTo k [p] ∧ pathOf s k p = path := by
  simp [writesTo, Load.reads, and_assoc]

section
variable {core rid die path : Nat} {s : State} {r : Release} (here : lfind (fun (x : Release) => x.num == rid) (coreAt s core).releases = some r)
include here

theorem markerArrival_goes (clear : writesTo s core rid die path = false) (works : die < 4 ∨ linkWorks s path = true) : execFlushMarkerArrival core rid die path s =
    .next (modCore s core fun c => { c with releases := c.releases.map fun x => if x.num = rid then
      { x with markers := x.markers.map fun m => if m.1 = die ∧ m.2 / 2 ^ path % 2 = 1 then (m.1, m.2 - 2 ^ path) else m } else x }) := by
  have shut : (decide (4 ≤ die) && !linkWorks s path) = false := by
    rcases works with near | works
    · simp [show ¬ 4 ≤ die by omega]
    · simp [works]
  simp [execFlushMarkerArrival, here, shut, clear, modRelease]

theorem markerArrival_stays (h : writesTo s core rid die path = true ∨ (4 ≤ die ∧ linkWorks s path = false)) : execFlushMarkerArrival core rid die path s = .next s := by
  have stays : (decide (4 ≤ die) && !linkWorks s path || writesTo s core rid die path) = true := by
    rcases h with behind | ⟨far, dead⟩
    · simp [behind]
    · simp [far, dead]
  simp only [execFlushMarkerArrival, here, stays, if_true]

theorem reportArrival_counts (marked : (die, 0) ∈ r.markers) (first : die ∉ r.reports) : execFlushReportArrival core rid die s =
    .next (if r.markers.all fun m => (r.reports ++ [die]).contains m.1 then
      modCore s core fun c => { modOwner c r.own (fun g => modThread g r.thr fun t => { t with posted := t.posted.filter fun d => !(r.markers.any fun m => m.1 == d) })
        with releases := c.releases.filter fun x => x.num != rid }
      else modCore s core fun c => { c with releases := c.releases.map fun x => if x.num = rid then { x with reports := r.reports ++ [die] } else x }) := by
  have arrived : (r.markers.any fun m => m.1 == die && m.2 == 0) = true := List.any_eq_true.mpr ⟨_, marked, by simp⟩
  have unheard : r.reports.contains die = false := by simpa using first
  simp only [execFlushReportArrival, here, arrived, unheard, Bool.not_true, Bool.or_false, Bool.false_eq_true, if_false, modRelease]

end

/-- The claim of O30 on releases: what the tests of the marker and of the report ask. -/
theorem flushEvents : Sys2Proof.Claims.FlushEvents := by
  intro core rid die path s r here ahead behind
  have behind_iff : writesTo s core rid die path = true ↔ behind := writesTo_iff ..
  refine ⟨fun clear works => ?_, fun stays => ?_, fun marked first more => ?_, fun marked first last => ?_⟩
  · exact markerArrival_goes here (Bool.eq_false_iff.mpr (behind_iff.not.mpr clear)) works
  · exact markerArrival_stays here (stays.imp_left behind_iff.mpr)
  · refine (reportArrival_counts here marked first).trans (congrArg Host.Outcome.next (if_neg fun all => ?_))
    obtain ⟨m, hm, other, missing⟩ := more
    simpa [other, missing] using List.all_eq_true.mp all m hm
  · refine (reportArrival_counts here marked first).trans (congrArg Host.Outcome.next (if_pos (List.all_eq_true.mpr fun m hm => ?_)))
    simpa [or_comm] using last m hm

end Sys2Proof.Machine
end

section
/-! What a prediction or the data of a load put in its registers (R18, R19, R99). -/

namespace Sys2Proof.Machine

theorem putRegs_lanes (i : Nat) (may : List Nat) (pen : Bool) : ∀ (ds : List Nat) (xs : List Word) (g : Group), (putRegs g (some i) may pen ds xs).threads.length = g.threads.length
  | [], _, _ => by rw [putRegs]; simp
  | _ :: _, [], _ => by rw [putRegs]; simp
  | d :: ds, x :: xs, g => by
    rw [putRegs, putRegs_lanes i may pen ds xs]
    by_cases named : may.contains d
    · rw [if_pos named]; exact length_lmod ..
    · rw [if_neg named]

/-- A group whose registers a request has written, alone with its number. -/
theorem writeRegs_alone {c : Core} {slot : Nat} {g : Group} (hg : groupAt c slot = some g) (only : ∀ x ∈ c.ctx.groups, x.2.uid = g.uid → x = (slot, g))
    (num : Nat) (thr : Option Nat) (may : List Nat) (pen : Bool) (ds : List Nat) (xs : List Word) :
    ∃ h, groupAt (writeRegs c g.uid num thr may pen ds xs) slot = some h ∧ h.threads = (putRegs g thr may pen ds xs).threads ∧ h.uid = g.uid ∧
      ∀ x ∈ (writeRegs c g.uid num thr may pen ds xs).ctx.groups, x.2.uid = h.uid → x = (slot, h) := by
  have same : ∀ y : Group, (if (putRegs y thr may pen ds xs).threads != y.threads || (putRegs y thr may pen ds xs).s != y.s
      then { putRegs y thr may pen ds xs with streak := 0, demoted := false } else putRegs y thr may pen ds xs).uid = y.uid := by
    intro y
    have kept : (putRegs y thr may pen ds xs).uid = y.uid := by rw [putRegs_frame]
    split <;> exact kept
  refine ⟨_, (groupAt_modOwner hg ..).trans (if_pos rfl ▸ rfl), ?_, same g, only_modOwner only same⟩
  split <;> rfl

/-- The registers of a load's thread once the words of a value are written to them. -/
theorem words_written {g h : Group} {i d : Nat} {l : Load} (lanes : g.threads.length = 32) (hi : i < 32) (dsts : l.dsts = (List.range (tyRegs l.ty)).map (d + ·))
    (pen : Bool) (v : Nat) (threads : h.threads = (putRegs g (some i) l.dsts pen l.dsts (loadWords l.ty v)).threads) : ∀ j < tyRegs l.ty, vreg (threadAt h i) (d + j) =
      ⟨if l.ty = 1 then (BitVec.ofNat 8 v).signExtend 32 else if l.ty = 3 then (BitVec.ofNat 16 v).signExtend 32 else BitVec.ofNat 32 (v / 2 ^ (32 * j)), pen, false⟩ := by
  intro j hj
  obtain ⟨len, word⟩ := loadWords_words l.ty v
  have nodup : l.dsts.Nodup := dsts ▸ List.nodup_range.map (fun a b e => Nat.add_left_cancel e)
  have inside : j < l.dsts.length := by simp [dsts, hj]
  have written := putRegs_at l.dsts pen l.dsts (loadWords l.ty v) (i := i) (g := g) (by omega) nodup j inside (by omega) (List.getElem_mem inside)
  have place : l.dsts[j] = d + j := by simp [dsts]
  have at' : threadAt h i = threadAt (putRegs g (some i) l.dsts pen l.dsts (loadWords l.ty v)) i := by rw [threadAt, threads]; rfl
  rw [place] at written
  rw [at', written, word]

/-- Settling marks no register dead, and makes none live. -/
theorem settleThread_dead (c : Core) (g : Group) (j : Nat) (t : Thread) (d : Nat) : (vreg (settleThread c g j t) d).dead = (vreg t d).dead := by
  unfold settleThread
  split
  · rfl
  · simp only [vreg, clearPens, tget, tfind_tmap]
    cases tfind t.v d <;> rfl

/-- The core of a load whose prediction is installed. -/
theorem groupAt_installGuess (s : State) (k slot : Nat) (l : Load) : groupAt (coreAt (installGuess s k l) k) slot =
    groupAt (writeRegs (coreAt s k) l.own l.num l.thr l.dsts true l.dsts (loadWords l.ty (predict s k l))) slot := by
  have draws : coreAt (if l.pred = 3 then { s with draws := s.draws + 1 } else s) k = coreAt s k := by split <;> rfl
  rw [installGuess, coreAt_modCore_same, draws]
  rfl

/-- The core that the data of a load reach that still waits. -/
theorem coreAt_deliver_waiting {l : Load} (op : l.op = none) (kind : l.kind = .load) (waits : l.written = false) (s : State) (k v : Nat) :
    coreAt (deliver s k l v) k = settle (writeRegs (learned (coreAt s k) l v) l.own l.num l.thr l.dsts l.pen l.dsts (loadWords l.ty v)) l.own := by
  rw [deliver, coreAt_modCore_same]
  simp only [kind, waits, op, finishFor, Bool.not_false, if_true, if_false, reduceCtorEq]
  rfl

/-- The claim of O30 on predictions and data: a load's words, written register by register, outlast the settling of guesses. -/
theorem loadsInstalled : Sys2Proof.Claims.LoadsInstalled := by
  intro s k slot i d x g l hg rising only lanes hi own thr op kind ty dsts words
  refine ⟨?_, fun waits => ?_⟩
  · obtain ⟨h, hh, threads⟩ := groupAt_writeRegs hg l.num (some i) l.dsts true l.dsts (loadWords l.ty (predict s k l))
    refine ⟨h, ?_, words_written lanes hi dsts true _ threads⟩
    rw [groupAt_installGuess, own, thr]
    exact hh
  · obtain ⟨g1, hg1, threads, uid, alone⟩ := writeRegs_alone (c := learned (coreAt s k) l x) hg (group_only hg rising only) l.num (some i) l.dsts l.pen l.dsts (loadWords l.ty x)
    obtain ⟨h, hh, _, settled⟩ := groupAt_settle hg1 alone
    have lanes1 : i < g1.threads.length := by
      rw [threads, putRegs_lanes]; omega
    have written := words_written lanes hi dsts l.pen x threads
    refine ⟨h, ?_, fun j hj => ?_⟩
    · rw [coreAt_deliver_waiting op kind waits, own, thr]
      rw [uid] at hh
      exact hh
    · rw [settled i lanes1, (settleThread_keeps ..).2, settleThread_dead, written j hj]
      exact ⟨rfl, rfl⟩

end Sys2Proof.Machine
end

section
/-! O30 fails at PlainAccesses; its other claims, HomeEvents, LoadsInstalled and FlushEvents, hold and are proved above. With the last unit of a store its group may end
(R167), and the model ends the group that stands first in that group's slot. PlainAccesses asks that the store's group goes on, but not that its slot lists no other group:
where one comes first that has ended, it is the one that ends, its team with it, and the team's bit is set in its completion bitmap (R334), in a byte that the store leaves
alone. A hypothesis that the slots of the core's groups rise, as LoadsInstalled has, would exclude it. -/

namespace Sys2Proof.Machine

/-- A group of team 1 whose threads have all ended. -/
def endedGroup : Group := { placedGroup with uid := 2, threads := List.replicate 32 { Thread.start with ended := true } }

/-- Two bytes at address 256. -/
def lastPiece : Piece := { loc := 256, n := 2, die := 0, key := none, kind := 0, mx := 0, sx := false, cw := false, peer := false }

/-- A store of them by group 1, which goes on. -/
def lastStore : Write :=
  { num := 3, own := 1, slot := 0, thr := some 0, po := 1, lseq := 1, pieces := [lastPiece], data := 0x1234, rmw := none, rel := false, ty := 0, op := none,
    held := false, window := 0, begun := false }

/-- A machine that lists two groups in slot 0 of core 0: one that has ended, and then group 1. The launch's tables map its first gigabyte, and its completion bitmap is at 0x1000; it has a second team yet to end. -/
def doubledSlot : State :=
  { State.reset with
    mem := [(0x4000, 1), (0x4001, 0x80), (0x8000, 0x0F)]
    cores := [(0, { Core.start with ctx := { Ctx.empty with groups := [(0, endedGroup), (0, placedGroup)] }, writes := [lastStore] })]
    teams := [(1, placedTeam)]
    launches := [(1, { placedLaunch with hdr := { placedHdr with ptroot := 0x4000, cbmap := 0x1000, gx := 2 } })] }

/-- The store has no byte at 0x1000, and with it the bit of team 1 has been set there. -/
theorem doubledSlot_bitmap : keyByte (doUnit doubledSlot 0 lastStore 0) none 0x1000 = 1 := by rfl

theorem not_plainAccesses : ¬ Sys2Proof.Claims.PlainAccesses := by
  intro ⟨stores, _⟩
  have goesOn : ∀ q ∈ (coreAt doubledSlot 0).ctx.groups, q.2.uid = lastStore.own → ∃ x ∈ q.2.threads, x.ended = false := by
    intro q hq own
    rcases List.mem_cons.mp hq with rfl | hq
    · cases own
    · obtain rfl := List.mem_singleton.mp hq
      exact ⟨Thread.start, List.mem_cons_self .., rfl⟩
  obtain ⟨_, _, others, _⟩ := stores doubledSlot 0 0 lastStore lastPiece rfl rfl rfl rfl ⟨rfl, rfl, by decide, by decide⟩ (.inl (by decide)) goesOn
  have kept := others 0x1000 (.inr (by decide))
  rw [show lastPiece.key = none from rfl, doubledSlot_bitmap] at kept
  exact absurd kept (by decide)

/-- Refutes O30: PlainAccesses admits a core whose slot lists an ended group before the store's, and there the last unit of the store also sets a bit in a completion bitmap. -/
theorem not_homeAndFlushEvents : ¬ Obligations.HomeAndFlushEvents := fun ⟨_, plain, _⟩ => not_plainAccesses plain

end Sys2Proof.Machine
end

section
/-! What the decoder reads of a word that is fixed bits and fields side by side: the word's C bit, its literal, each field, and the bits beside the fields. O53 rests on it. -/

namespace Sys2Proof

open Sys2Proof.Laws

/-! A word and its literal (R34, R37). -/

theorem literalOf_word (l : BitVec 26) (c : Bool) : literalOf (l.toNat + 31 * 2 ^ 26 + 2 ^ 31 * bit c) = some l := by
  have := l.isLt
  have := bit_lt_two c
  have major : slice (l.toNat + 31 * 2 ^ 26 + 2 ^ 31 * bit c) 30 26 = 31 := by unfold slice; omega
  have low : slice (l.toNat + 31 * 2 ^ 26 + 2 ^ 31 * bit c) 25 0 = l.toNat := by unfold slice; omega
  rw [literalOf, major, low, BitVec.ofNat_toNat, BitVec.setWidth_eq]
  rfl

theorem chainBit_word {pos w : Nat} {c : Bool} (first : pos ≠ 2) (h : slice w 31 31 = bit c) : chainBit pos w = c := by
  rw [chainBit, h]
  cases c <;> simp [first, bit]

/-- The encoding of a word without its chain bit, with its literal, decodes to an instruction and is all taken. -/
def Decodes (k : Nat) (c : Bool) (lit : Option (BitVec 26)) (i : Instr) : Prop :=
  decodeAt 0 (withLiteral k c lit) = some (i, (withLiteral k c lit).length)

theorem decodeAt_alone {w : Nat} {c : Bool} {i : Instr} (chain : chainBit 0 w = c) (h : decodeWord w c none = some i) : decodeAt 0 [w] = some (i, 1) := by
  subst chain
  rw [decodeAt]
  cases e : chainBit 0 w <;> rw [e] at h <;> simp [h]

theorem decodeAt_literal {w x : Nat} {l : BitVec 26} {c : Bool} {i : Instr} (first : chainBit 0 w = true) (second : chainBit 1 x = c) (lit : literalOf x = some l)
    (h : decodeWord w c (some l) = some i) : decodeAt 0 [w, x] = some (i, 2) := by
  simp [decodeAt, first, second, lit, h]

/-- What `withLiteral` makes of a word decodes as that word does, whatever its C bit. -/
theorem decodes_of_word {k : Nat} {c : Bool} {lit : Option (BitVec 26)} {i : Instr} (h : k < 2 ^ 31)
    (word : ∀ w, w % 2 ^ 31 = k → decodeWord w c lit = some i) : Decodes k c lit i := by
  have := bit_lt_two c
  cases lit with
  | none => exact decodeAt_alone (chainBit_word (by decide) (by unfold slice; omega)) (word _ (by omega))
  | some l =>
    have := l.isLt
    have top : slice (k + 2 ^ 31) 31 31 = 1 := by unfold slice; omega
    exact decodeAt_literal (chainBit_word (c := true) (by decide) top) (chainBit_word (by decide) (by unfold slice; omega)) (literalOf_word l c) (word _ (by omega))

/-! Fields of a word. -/

/-- A field of a word, with its value: one bit that says yes or no, or the bits from lo up (R34). -/
inductive WordField where
  | flag (p : Nat) (b : Bool)
  | bits (hi lo : Nat) {n : Nat} (x : BitVec n)

def WordField.hi : WordField → Nat
  | .flag p _ => p
  | .bits hi _ _ => hi

def WordField.lo : WordField → Nat
  | .flag p _ => p
  | .bits _ lo _ => lo

def WordField.width : WordField → Nat
  | .flag _ _ => 1
  | .bits (n := n) .. => n

def WordField.val : WordField → Nat
  | .flag _ b => bit b
  | .bits _ _ x => x.toNat

@[simp] theorem WordField.lo_flag (p : Nat) (b : Bool) : (flag p b).lo = p := rfl
@[simp] theorem WordField.lo_bits (hi lo : Nat) {n : Nat} (x : BitVec n) : (bits hi lo x).lo = lo := rfl
@[simp] theorem WordField.val_flag (p : Nat) (b : Bool) : (flag p b).val = bit b := rfl
@[simp] theorem WordField.val_bits (hi lo : Nat) {n : Nat} (x : BitVec n) : (bits hi lo x).val = x.toNat := rfl

/-- What the decoder reads a field as. -/
def WordField.Reads (w : Nat) : WordField → Prop
  | .flag p b => (slice w p p == 1) = b
  | .bits hi lo (n := n) x => BitVec.ofNat n (slice w hi lo) = x

def ReadsAll (w : Nat) : List WordField → Prop
  | [] => True
  | f :: r => f.Reads w ∧ ReadsAll w r

/-- The fields of a word in their places. -/
@[simp] def placed : List WordField → Nat
  | [] => 0
  | f :: r => f.val * 2 ^ f.lo + placed r

/-- Fields that lie one below the other in a word of 31 bits. -/
def descend : Nat → List WordField → Bool
  | _, [] => true
  | top, f :: r => decide (f.hi < top) && (f.hi + 1 == f.lo + f.width) && descend f.lo r

/-- A word of 31 bits whose bits in the places of fields, from lo to hi each, are 0. -/
def blankAt (places : List (Nat × Nat)) (k : Nat) : Bool := decide (k < 2 ^ 31) && places.all fun p => slice k p.1 p.2 == 0

def WordField.place (f : WordField) : Nat × Nat := (f.hi, f.lo)

theorem WordField.val_lt (f : WordField) : f.val < 2 ^ f.width := by
  cases f with
  | flag p b => exact bit_lt_two b
  | bits hi lo x => exact x.isLt

/-- A slice of a number in two parts. -/
theorem slice_split (w hi mid lo : Nat) (n : Nat) (h : lo ≤ mid ∧ mid < hi := by decide) :
    slice w hi lo = n ↔ slice w hi (mid + 1) = n / 2 ^ (mid + 1 - lo) ∧ slice w mid lo = n % 2 ^ (mid + 1 - lo) := by
  have parts : slice w hi lo = slice w mid lo + 2 ^ (mid + 1 - lo) * slice w hi (mid + 1) := by
    simp only [slice]
    rw [show hi + 1 - lo = (mid + 1 - lo) + (hi + 1 - (mid + 1)) by omega, pow_add, Nat.mod_mul, Nat.div_div_eq_div_mul, ← pow_add,
      show lo + (mid + 1 - lo) = mid + 1 by omega]
  have small : slice w mid lo < 2 ^ (mid + 1 - lo) := Nat.mod_lt _ (by positivity)
  rw [parts]
  constructor
  · rintro rfl
    rw [Nat.add_mul_div_left _ _ (by positivity), Nat.div_eq_of_lt small, Nat.add_mul_mod_self_left, Nat.mod_eq_of_lt small]
    exact ⟨(Nat.zero_add _).symm, rfl⟩
  · rintro ⟨quotient, rest⟩
    rw [quotient, rest]
    exact Nat.mod_add_div _ _

theorem testBit_slice (w hi lo j : Nat) : (slice w hi lo).testBit j = (decide (j < hi + 1 - lo) && w.testBit (lo + j)) := by
  rw [slice, Nat.testBit_mod_two_pow, Nat.testBit_div_two_pow, Nat.add_comm j]

theorem testBit_add_of_and {a b : Nat} (h : a &&& b = 0) (i : Nat) : (a + b).testBit i = (a.testBit i || b.testBit i) := by
  have large : ∀ x ≤ a + b, x < 2 ^ (a + b + 1) := fun x hx => Nat.lt_two_pow_self.trans_le (Nat.pow_le_pow_right (by decide) (by omega))
  have sum := BitVec.add_eq_or_of_and_eq_zero (BitVec.ofNat (a + b + 1) a) (BitVec.ofNat (a + b + 1) b) (by rw [← BitVec.ofNat_and, h])
  have sum := congrArg BitVec.toNat sum
  rw [BitVec.toNat_or, ← BitVec.ofNat_add, BitVec.toNat_ofNat, BitVec.toNat_ofNat, BitVec.toNat_ofNat, Nat.mod_eq_of_lt (large _ (by omega)),
    Nat.mod_eq_of_lt (large _ (by omega)), Nat.mod_eq_of_lt (large _ (by omega))] at sum
  rw [sum, Nat.testBit_or]

theorem and_eq_zero_of_testBit {a b : Nat} (h : ∀ i, a.testBit i = true → b.testBit i = false) : a &&& b = 0 := by
  refine Nat.eq_of_testBit_eq fun i => ?_
  rw [Nat.testBit_and, Nat.zero_testBit]
  cases ha : a.testBit i
  · rfl
  · rw [h i ha]; rfl

/-- The bits of a field in its place. -/
def WordField.bitAt (f : WordField) (i : Nat) : Bool := decide (f.lo ≤ i) && f.val.testBit (i - f.lo)

theorem WordField.bitAt_within {f : WordField} (fits : f.hi + 1 = f.lo + f.width) {i : Nat} (h : f.bitAt i = true) : f.lo ≤ i ∧ i ≤ f.hi := by
  simp only [bitAt, Bool.and_eq_true, decide_eq_true_eq] at h
  have := Nat.ge_two_pow_of_testBit h.2
  have := (Nat.pow_lt_pow_iff_right (by decide : 1 < 2)).mp (this.trans_lt f.val_lt)
  omega

theorem descend_below {fs : List WordField} : ∀ {top : Nat}, descend top fs = true → ∀ f ∈ fs, f.hi < top ∧ f.hi + 1 = f.lo + f.width := by
  induction fs with
  | nil => intro _ _ f hf; cases hf
  | cons g r ih =>
    intro top h f hf
    simp only [descend, Bool.and_eq_true, decide_eq_true_eq, beq_iff_eq] at h
    obtain ⟨⟨high, fits⟩, lower⟩ := h
    rcases List.mem_cons.mp hf with rfl | hf
    · exact ⟨high, fits⟩
    · obtain ⟨below, fits'⟩ := ih lower f hf
      exact ⟨by omega, fits'⟩

theorem testBit_placed {fs : List WordField} : ∀ {top : Nat}, descend top fs = true → ∀ i, (placed fs).testBit i = fs.any (·.bitAt i) := by
  induction fs with
  | nil => intro _ _ i; simp [placed]
  | cons f r ih =>
    intro top h i
    simp only [descend, Bool.and_eq_true, decide_eq_true_eq, beq_iff_eq] at h
    obtain ⟨⟨_, fits⟩, lower⟩ := h
    have at' : ∀ j, (f.val * 2 ^ f.lo).testBit j = f.bitAt j := fun j => Nat.testBit_mul_two_pow _ _ _
    rw [placed, testBit_add_of_and, at', ih lower, List.any_cons]
    refine and_eq_zero_of_testBit fun j hj => ?_
    rw [ih lower, List.any_eq_false]
    intro g hg higher
    obtain ⟨below, fits'⟩ := descend_below lower g hg
    have := WordField.bitAt_within fits ((at' j).symm.trans hj)
    have := WordField.bitAt_within fits' higher
    omega

theorem any_bitAt {fs : List WordField} {f : WordField} {i : Nat} (within : f.lo ≤ i ∧ i ≤ f.hi) : ∀ {top : Nat}, descend top fs = true → f ∈ fs →
    fs.any (·.bitAt i) = f.bitAt i := by
  induction fs with
  | nil => intro _ _ hf; cases hf
  | cons g r ih =>
    intro top h hf
    simp only [descend, Bool.and_eq_true, decide_eq_true_eq, beq_iff_eq] at h
    obtain ⟨⟨_, fits⟩, lower⟩ := h
    rw [List.any_cons]
    rcases List.mem_cons.mp hf with rfl | hf
    · have none : r.any (·.bitAt i) = false := List.any_eq_false.mpr fun g hg hb => by
        obtain ⟨below, fits'⟩ := descend_below lower g hg
        have := WordField.bitAt_within fits' hb
        omega
      rw [none, Bool.or_false]
    · have none : g.bitAt i = false := Bool.eq_false_iff.mpr fun hb => by
        have := WordField.bitAt_within fits hb
        have := descend_below lower f hf
        omega
      rw [none, Bool.false_or, ih lower hf]

theorem testBit_blank {fs : List WordField} {k : Nat} (blank : blankAt (fs.map WordField.place) k = true) {f : WordField} (hf : f ∈ fs) {i : Nat} (within : f.lo ≤ i ∧ i ≤ f.hi) :
    k.testBit i = false := by
  simp only [blankAt, Bool.and_eq_true, List.all_eq_true, beq_iff_eq] at blank
  have bits := testBit_slice k f.hi f.lo (i - f.lo)
  rw [show slice k f.hi f.lo = 0 from blank.2 _ (List.mem_map_of_mem hf), Nat.zero_testBit, Nat.add_sub_cancel' within.1, decide_eq_true (by omega), Bool.true_and] at bits
  exact bits.symm

theorem testBit_sum {fs : List WordField} {k : Nat} (apart : descend 26 fs = true) (blank : blankAt (fs.map WordField.place) k = true) (i : Nat) :
    (k + placed fs).testBit i = (k.testBit i || fs.any (·.bitAt i)) := by
  rw [testBit_add_of_and, testBit_placed apart]
  refine and_eq_zero_of_testBit fun j hj => ?_
  rw [testBit_placed apart, List.any_eq_false]
  intro f hf hb
  rw [testBit_blank blank hf (WordField.bitAt_within (descend_below apart f hf).2 hb)] at hj
  cases hj

theorem placed_lt {fs : List WordField} {k : Nat} (apart : descend 26 fs = true) (blank : blankAt (fs.map WordField.place) k = true) : k + placed fs < 2 ^ 31 := by
  have low : k < 2 ^ 31 := by
    simp only [blankAt, Bool.and_eq_true, decide_eq_true_eq] at blank
    exact blank.1
  refine Nat.lt_pow_two_of_testBit _ fun i high => ?_
  have none : fs.any (·.bitAt i) = false := List.any_eq_false.mpr fun f hf hb => by
    obtain ⟨below, fits⟩ := descend_below apart f hf
    have := WordField.bitAt_within fits hb
    omega
  rw [testBit_sum apart blank, none, Nat.testBit_lt_two_pow (low.trans_le (Nat.pow_le_pow_right (by decide) high))]
  rfl

/-- A word that is k but for fields, which are blank in k; its C bit may be either. -/
structure Spells (w k : Nat) (fs : List WordField) : Prop where
  word : w % 2 ^ 31 = k + placed fs
  apart : descend 26 fs = true
  blank : blankAt (fs.map WordField.place) k = true

section
variable {w k : Nat} {fs : List WordField} (h : Spells w k fs)
include h

theorem Spells.testBit_word {i : Nat} (low : i < 31) : w.testBit i = (k.testBit i || fs.any (·.bitAt i)) := by
  rw [← testBit_sum h.apart h.blank, ← h.word, Nat.testBit_mod_two_pow]
  simp [low]

/-- Beside its fields the word has the bits of k. -/
theorem Spells.rest (hi lo : Nat) (beside : (decide (hi < 31) && fs.all fun f => decide (hi < f.lo) || decide (f.hi < lo)) = true) :
    slice w hi lo = slice k hi lo := by
  simp only [Bool.and_eq_true, decide_eq_true_eq, List.all_eq_true, Bool.or_eq_true] at beside
  obtain ⟨low, beside⟩ := beside
  refine Nat.eq_of_testBit_eq fun j => ?_
  rw [testBit_slice, testBit_slice]
  by_cases short : j < hi + 1 - lo
  · have none : fs.any (·.bitAt (lo + j)) = false := List.any_eq_false.mpr fun f hf hb => by
      have := WordField.bitAt_within (descend_below h.apart f hf).2 hb
      have := beside f hf
      omega
    rw [h.testBit_word (by omega), none, Bool.or_false]
  · simp [short]

theorem Spells.slice_field {f : WordField} (hf : f ∈ fs) : slice w f.hi f.lo = f.val := by
  obtain ⟨low, fits⟩ := descend_below h.apart f hf
  refine Nat.eq_of_testBit_eq fun j => ?_
  rw [testBit_slice, show f.hi + 1 - f.lo = f.width by omega]
  by_cases short : j < f.width
  · have within : f.lo ≤ f.lo + j ∧ f.lo + j ≤ f.hi := by omega
    rw [h.testBit_word (by omega), testBit_blank h.blank hf within, any_bitAt within h.apart hf]
    simp [WordField.bitAt, short]
  · simp [short, Nat.testBit_lt_two_pow (f.val_lt.trans_le (Nat.pow_le_pow_right (by decide) (not_lt.mp short)))]

theorem Spells.reads {f : WordField} (hf : f ∈ fs) : f.Reads w := by
  have e := h.slice_field hf
  cases f with
  | flag p b =>
    show (slice w p p == 1) = b
    rw [show slice w p p = bit b from e]; cases b <;> rfl
  | bits hi lo x =>
    show BitVec.ofNat _ (slice w hi lo) = x
    rw [show slice w hi lo = x.toNat from e, BitVec.ofNat_toNat, BitVec.setWidth_eq]

/-- What the decoder reads fields as, one after another. -/
theorem Spells.readAll : ReadsAll w fs := by
  have one := fun f (hf : f ∈ fs) => h.reads hf
  clear h
  induction fs with
  | nil => trivial
  | cons f r ih => exact ⟨one f (List.mem_cons_self ..), ih fun g hg => one g (List.mem_cons_of_mem _ hg)⟩

end

/-- The words of an encoding decode to an instruction where each word with its fields spells it. -/
theorem decodes_of_fields {fs : List WordField} {k n : Nat} {c : Bool} {lit : Option (BitVec 26)} {i : Instr} (blank : blankAt (fs.map WordField.place) k = true) (apart : descend 26 fs = true)
    (sum : n = k + placed fs) (row : ∀ w, Spells w k fs → decodeWord w c lit = some i) : Decodes n c lit i :=
  decodes_of_word (sum ▸ placed_lt apart blank) fun w hw => row w ⟨hw.trans sum, apart, blank⟩

end Sys2Proof
end

section
/-! Each format of the words: its fields, and that a word with them decodes where the row of its major that its other bits pick reads them (R34). -/

namespace Sys2Proof

def OpA.fields (o : OpA) : List WordField := [.flag 25 o.u, .bits 24 18 o.d, .bits 17 11 o.a, .bits 10 4 o.b, .flag 0 o.n]

theorem OpA.decodes (o : OpA) {k : Nat} {i : OpA → Instr} (blank : blankAt [(25, 25), (24, 18), (17, 11), (10, 4), (0, 0)] k = true)
    (row : ∀ w, slice w 30 26 = k / 2 ^ 26 % 2 ^ 5 ∧ slice w 3 1 = k / 2 ^ 1 % 2 ^ 3 →
      decodeWord w o.c o.lit = some (i (readOpA w o.c o.lit))) : Decodes (k + bitsOpA o) o.c o.lit (i o) := by
  refine decodes_of_fields (fs := o.fields) blank rfl (by simp [bitsOpA, fields, Nat.add_assoc]) fun word h => ?_
  obtain ⟨u, d, a, b, n, _⟩ := h.readAll
  rw [row word ⟨h.rest 30 26 rfl, h.rest 3 1 rfl⟩, readOpA, u, d, a, b, n]

def OpU.fields (o : OpU) : List WordField := [.flag 25 o.u, .bits 24 18 o.d, .bits 17 11 o.a, .flag 0 o.n]

theorem OpU.decodes (o : OpU) {k : Nat} {i : OpU → Instr} (blank : blankAt [(25, 25), (24, 18), (17, 11), (0, 0)] k = true)
    (row : ∀ w, slice w 30 26 = k / 2 ^ 26 % 2 ^ 5 ∧ slice w 10 4 = k / 2 ^ 4 % 2 ^ 7 ∧ slice w 10 3 = k / 2 ^ 3 % 2 ^ 8 ∧ slice w 3 1 = k / 2 ^ 1 % 2 ^ 3 →
      decodeWord w o.c o.lit = some (i (readOpU w o.c o.lit))) : Decodes (k + bitsOpU o) o.c o.lit (i o) := by
  refine decodes_of_fields (fs := o.fields) blank rfl (by simp [bitsOpU, fields, Nat.add_assoc]) fun word h => ?_
  obtain ⟨u, d, a, n, _⟩ := h.readAll
  rw [row word ⟨h.rest 30 26 rfl, h.rest 10 4 rfl, h.rest 10 3 rfl, h.rest 3 1 rfl⟩, readOpU, u, d, a, n]

def OpLea.fields (o : OpLea) : List WordField := [.flag 25 o.u, .bits 24 18 o.d, .bits 17 11 o.a, .bits 10 4 o.b, .bits 2 1 o.s, .flag 0 o.n]

theorem OpLea.decodes (o : OpLea) {k : Nat} {i : OpLea → Instr} (blank : blankAt [(25, 25), (24, 18), (17, 11), (10, 4), (2, 1), (0, 0)] k = true)
    (row : ∀ w, slice w 30 26 = k / 2 ^ 26 % 2 ^ 5 ∧ slice w 3 3 = k / 2 ^ 3 % 2 ^ 1 →
      decodeWord w o.c o.lit = some (i (readOpLea w o.c o.lit))) : Decodes (k + bitsOpLea o) o.c o.lit (i o) := by
  refine decodes_of_fields (fs := o.fields) blank rfl (by simp [bitsOpLea, fields, Nat.add_assoc]) fun word h => ?_
  obtain ⟨u, d, a, b, s, n, _⟩ := h.readAll
  rw [row word ⟨h.rest 30 26 rfl, h.rest 3 3 rfl⟩, readOpLea, u, d, a, b, s, n]

def OpI.fields (o : OpI) : List WordField := [.flag 25 o.u, .bits 24 18 o.d, .bits 17 11 o.a, .bits 10 0 o.i]

theorem OpI.decodes (o : OpI) {k : Nat} {i : OpI → Instr} (blank : blankAt [(25, 25), (24, 18), (17, 11), (10, 0)] k = true)
    (row : ∀ w, slice w 30 26 = k / 2 ^ 26 % 2 ^ 5 →
      decodeWord w o.c o.lit = some (i (readOpI w o.c o.lit))) : Decodes (k + bitsOpI o) o.c o.lit (i o) := by
  refine decodes_of_fields (fs := o.fields) blank rfl (by simp [bitsOpI, fields, Nat.add_assoc]) fun word h => ?_
  obtain ⟨u, d, a, i, _⟩ := h.readAll
  rw [row word (h.rest 30 26 rfl), readOpI, u, d, a, i]

def OpCmp.fields (o : OpCmp) : List WordField := [.bits 24 22 o.k, .bits 20 18 o.p, .bits 17 11 o.a, .bits 10 4 o.b]

theorem OpCmp.decodes (o : OpCmp) {k : Nat} {i : OpCmp → Instr} (blank : blankAt [(24, 22), (20, 18), (17, 11), (10, 4)] k = true)
    (row : ∀ w, slice w 30 26 = k / 2 ^ 26 % 2 ^ 5 ∧ slice w 25 25 = k / 2 ^ 25 % 2 ^ 1 ∧ slice w 21 21 = k / 2 ^ 21 % 2 ^ 1 ∧ slice w 3 0 = k / 2 ^ 0 % 2 ^ 4 →
      decodeWord w o.c o.lit = some (i (readOpCmp w o.c o.lit))) : Decodes (k + bitsOpCmp o) o.c o.lit (i o) := by
  refine decodes_of_fields (fs := o.fields) blank rfl (by simp [bitsOpCmp, fields, Nat.add_assoc]) fun word h => ?_
  obtain ⟨k, p, a, b, _⟩ := h.readAll
  rw [row word ⟨h.rest 30 26 rfl, h.rest 25 25 rfl, h.rest 21 21 rfl, h.rest 3 0 rfl⟩, readOpCmp, k, p, a, b]

def OpPl.fields (o : OpPl) : List WordField := [.bits 20 18 o.p, .flag 14 o.j, .bits 13 11 o.q, .flag 7 o.k, .bits 6 4 o.r]

theorem OpPl.decodes (o : OpPl) {k : Nat} {i : OpPl → Instr} (blank : blankAt [(20, 18), (14, 14), (13, 11), (7, 7), (6, 4)] k = true)
    (row : ∀ w, slice w 30 26 = k / 2 ^ 26 % 2 ^ 5 ∧ slice w 25 21 = k / 2 ^ 21 % 2 ^ 5 ∧ slice w 17 15 = k / 2 ^ 15 % 2 ^ 3 ∧ slice w 10 8 = k / 2 ^ 8 % 2 ^ 3 ∧ slice w 3 0 = k / 2 ^ 0 % 2 ^ 4 →
      decodeWord w o.c o.lit = some (i (readOpPl w o.c o.lit))) : Decodes (k + bitsOpPl o) o.c o.lit (i o) := by
  refine decodes_of_fields (fs := o.fields) blank rfl (by simp [bitsOpPl, fields, Nat.add_assoc]) fun word h => ?_
  obtain ⟨p, j, q, k, r, _⟩ := h.readAll
  rw [row word ⟨h.rest 30 26 rfl, h.rest 25 21 rfl, h.rest 17 15 rfl, h.rest 10 8 rfl, h.rest 3 0 rfl⟩, readOpPl, p, j, q, k, r]

def OpSel.fields (o : OpSel) : List WordField := [.bits 24 18 o.d, .bits 17 11 o.a, .bits 10 4 o.b, .bits 3 1 o.k, .flag 0 o.n]

theorem OpSel.decodes (o : OpSel) {k : Nat} {i : OpSel → Instr} (blank : blankAt [(24, 18), (17, 11), (10, 4), (3, 1), (0, 0)] k = true)
    (row : ∀ w, slice w 30 26 = k / 2 ^ 26 % 2 ^ 5 ∧ slice w 25 25 = k / 2 ^ 25 % 2 ^ 1 →
      decodeWord w o.c o.lit = some (i (readOpSel w o.c o.lit))) : Decodes (k + bitsOpSel o) o.c o.lit (i o) := by
  refine decodes_of_fields (fs := o.fields) blank rfl (by simp [bitsOpSel, fields, Nat.add_assoc]) fun word h => ?_
  obtain ⟨d, a, b, k, n, _⟩ := h.readAll
  rw [row word ⟨h.rest 30 26 rfl, h.rest 25 25 rfl⟩, readOpSel, d, a, b, k, n]

def OpF.fields (o : OpF) : List WordField := [.bits 24 18 o.d, .bits 17 11 o.a, .bits 10 4 o.b, .flag 0 o.n]

theorem OpF.decodes (o : OpF) {k : Nat} {i : OpF → Instr} (blank : blankAt [(24, 18), (17, 11), (10, 4), (0, 0)] k = true)
    (row : ∀ w, slice w 30 26 = k / 2 ^ 26 % 2 ^ 5 ∧ slice w 25 25 = k / 2 ^ 25 % 2 ^ 1 ∧ slice w 3 1 = k / 2 ^ 1 % 2 ^ 3 →
      decodeWord w o.c o.lit = some (i (readOpF w o.c o.lit))) : Decodes (k + bitsOpF o) o.c o.lit (i o) := by
  refine decodes_of_fields (fs := o.fields) blank rfl (by simp [bitsOpF, fields, Nat.add_assoc]) fun word h => ?_
  obtain ⟨d, a, b, n, _⟩ := h.readAll
  rw [row word ⟨h.rest 30 26 rfl, h.rest 25 25 rfl, h.rest 3 1 rfl⟩, readOpF, d, a, b, n]

def OpRnd.fields (o : OpRnd) : List WordField := [.flag 25 o.u, .bits 24 18 o.d, .bits 17 11 o.a, .bits 2 1 o.r, .flag 0 o.n]

theorem OpRnd.decodes (o : OpRnd) {k : Nat} {i : OpRnd → Instr} (blank : blankAt [(25, 25), (24, 18), (17, 11), (2, 1), (0, 0)] k = true)
    (row : ∀ w, slice w 30 26 = k / 2 ^ 26 % 2 ^ 5 ∧ slice w 10 3 = k / 2 ^ 3 % 2 ^ 8 →
      decodeWord w o.c o.lit = some (i (readOpRnd w o.c o.lit))) : Decodes (k + bitsOpRnd o) o.c o.lit (i o) := by
  refine decodes_of_fields (fs := o.fields) blank rfl (by simp [bitsOpRnd, fields, Nat.add_assoc]) fun word h => ?_
  obtain ⟨u, d, a, r, n, _⟩ := h.readAll
  rw [row word ⟨h.rest 30 26 rfl, h.rest 10 3 rfl⟩, readOpRnd, u, d, a, r, n]

def OpCvt.fields (o : OpCvt) : List WordField := [.flag 25 o.u, .bits 24 18 o.d, .bits 17 11 o.a, .bits 10 4 o.b, .flag 3 o.s, .bits 2 1 o.r, .flag 0 o.n]

theorem OpCvt.decodes (o : OpCvt) {k : Nat} {i : OpCvt → Instr} (blank : blankAt [(25, 25), (24, 18), (17, 11), (10, 4), (3, 3), (2, 1), (0, 0)] k = true)
    (row : ∀ w, slice w 30 26 = k / 2 ^ 26 % 2 ^ 5 →
      decodeWord w o.c o.lit = some (i (readOpCvt w o.c o.lit))) : Decodes (k + bitsOpCvt o) o.c o.lit (i o) := by
  refine decodes_of_fields (fs := o.fields) blank rfl (by simp [bitsOpCvt, fields, Nat.add_assoc]) fun word h => ?_
  obtain ⟨u, d, a, b, s, r, n, _⟩ := h.readAll
  rw [row word (h.rest 30 26 rfl), readOpCvt, u, d, a, b, s, r, n]

def OpPm.fields (o : OpPm) : List WordField := [.flag 25 o.u, .bits 24 18 o.d, .flag 14 o.j, .bits 13 11 o.q, .flag 0 o.n]

theorem OpPm.decodes (o : OpPm) {k : Nat} {i : OpPm → Instr} (blank : blankAt [(25, 25), (24, 18), (14, 14), (13, 11), (0, 0)] k = true)
    (row : ∀ w, slice w 30 26 = k / 2 ^ 26 % 2 ^ 5 ∧ slice w 17 15 = k / 2 ^ 15 % 2 ^ 3 ∧ slice w 10 4 = k / 2 ^ 4 % 2 ^ 7 ∧ slice w 3 1 = k / 2 ^ 1 % 2 ^ 3 →
      decodeWord w o.c o.lit = some (i (readOpPm w o.c o.lit))) : Decodes (k + bitsOpPm o) o.c o.lit (i o) := by
  refine decodes_of_fields (fs := o.fields) blank rfl (by simp [bitsOpPm, fields, Nat.add_assoc]) fun word h => ?_
  obtain ⟨u, d, j, q, n, _⟩ := h.readAll
  rw [row word ⟨h.rest 30 26 rfl, h.rest 17 15 rfl, h.rest 10 4 rfl, h.rest 3 1 rfl⟩, readOpPm, u, d, j, q, n]

def OpGf.fields (o : OpGf) : List WordField := [.bits 24 18 o.d, .flag 0 o.n]

theorem OpGf.decodes (o : OpGf) {k : Nat} {i : OpGf → Instr} (blank : blankAt [(24, 18), (0, 0)] k = true)
    (row : ∀ w, slice w 30 26 = k / 2 ^ 26 % 2 ^ 5 ∧ slice w 25 25 = k / 2 ^ 25 % 2 ^ 1 ∧ slice w 17 4 = k / 2 ^ 4 % 2 ^ 14 ∧ slice w 3 1 = k / 2 ^ 1 % 2 ^ 3 →
      decodeWord w o.c o.lit = some (i (readOpGf w o.c o.lit))) : Decodes (k + bitsOpGf o) o.c o.lit (i o) := by
  refine decodes_of_fields (fs := o.fields) blank rfl (by simp [bitsOpGf, fields]) fun word h => ?_
  obtain ⟨d, n, _⟩ := h.readAll
  rw [row word ⟨h.rest 30 26 rfl, h.rest 25 25 rfl, h.rest 17 4 rfl, h.rest 3 1 rfl⟩, readOpGf, d, n]

def OpGr.fields (o : OpGr) : List WordField := [.flag 25 o.u, .bits 24 18 o.d, .bits 17 11 o.a, .flag 7 o.j, .bits 6 4 o.q, .flag 0 o.n]

theorem OpGr.decodes (o : OpGr) {k : Nat} {i : OpGr → Instr} (blank : blankAt [(25, 25), (24, 18), (17, 11), (7, 7), (6, 4), (0, 0)] k = true)
    (row : ∀ w, slice w 30 26 = k / 2 ^ 26 % 2 ^ 5 ∧ slice w 10 8 = k / 2 ^ 8 % 2 ^ 3 ∧ slice w 3 1 = k / 2 ^ 1 % 2 ^ 3 →
      decodeWord w o.c o.lit = some (i (readOpGr w o.c o.lit))) : Decodes (k + bitsOpGr o) o.c o.lit (i o) := by
  refine decodes_of_fields (fs := o.fields) blank rfl (by simp [bitsOpGr, fields, Nat.add_assoc]) fun word h => ?_
  obtain ⟨u, d, a, j, q, n, _⟩ := h.readAll
  rw [row word ⟨h.rest 30 26 rfl, h.rest 10 8 rfl, h.rest 3 1 rfl⟩, readOpGr, u, d, a, j, q, n]

def OpBr.fields (o : OpBr) : List WordField := [.bits 24 21 o.p, .bits 20 0 o.d]

theorem OpBr.decodes (o : OpBr) {k : Nat} {i : OpBr → Instr} (blank : blankAt [(24, 21), (20, 0)] k = true)
    (row : ∀ w, slice w 30 26 = k / 2 ^ 26 % 2 ^ 5 ∧ slice w 25 25 = k / 2 ^ 25 % 2 ^ 1 →
      decodeWord w o.c o.lit = some (i (readOpBr w o.c o.lit))) : Decodes (k + bitsOpBr o) o.c o.lit (i o) := by
  refine decodes_of_fields (fs := o.fields) blank rfl (by simp [bitsOpBr, fields]) fun word h => ?_
  obtain ⟨p, d, _⟩ := h.readAll
  rw [row word ⟨h.rest 30 26 rfl, h.rest 25 25 rfl⟩, readOpBr, p, d]

def OpK.fields (_ : OpK) : List WordField := []

theorem OpK.decodes (o : OpK) {k : Nat} {i : OpK → Instr} (blank : blankAt [] k = true)
    (row : ∀ w, slice w 30 26 = k / 2 ^ 26 % 2 ^ 5 ∧ slice w 25 25 = k / 2 ^ 25 % 2 ^ 1 ∧ slice w 24 18 = k / 2 ^ 18 % 2 ^ 7 ∧ slice w 17 0 = k / 2 ^ 0 % 2 ^ 18 →
      decodeWord w o.c o.lit = some (i (readOpK w o.c o.lit))) : Decodes (k + bitsOpK o) o.c o.lit (i o) := by
  refine decodes_of_fields (fs := o.fields) blank rfl rfl fun word h => ?_
  rw [row word ⟨h.rest 30 26 rfl, h.rest 25 25 rfl, h.rest 24 18 rfl, h.rest 17 0 rfl⟩, readOpK]

def OpX.fields (o : OpX) : List WordField := [.bits 17 11 o.x]

theorem OpX.decodes (o : OpX) {k : Nat} {i : OpX → Instr} (blank : blankAt [(17, 11)] k = true)
    (row : ∀ w, slice w 30 26 = k / 2 ^ 26 % 2 ^ 5 ∧ slice w 25 25 = k / 2 ^ 25 % 2 ^ 1 ∧ slice w 24 18 = k / 2 ^ 18 % 2 ^ 7 ∧ slice w 10 0 = k / 2 ^ 0 % 2 ^ 11 →
      decodeWord w o.c o.lit = some (i (readOpX w o.c o.lit))) : Decodes (k + bitsOpX o) o.c o.lit (i o) := by
  refine decodes_of_fields (fs := o.fields) blank rfl (by simp [bitsOpX, fields]) fun word h => ?_
  obtain ⟨x, _⟩ := h.readAll
  rw [row word ⟨h.rest 30 26 rfl, h.rest 25 25 rfl, h.rest 24 18 rfl, h.rest 10 0 rfl⟩, readOpX, x]

def OpLp.fields (o : OpLp) : List WordField := [.bits 17 11 o.x, .bits 10 0 o.e]

theorem OpLp.decodes (o : OpLp) {k : Nat} {i : OpLp → Instr} (blank : blankAt [(17, 11), (10, 0)] k = true)
    (row : ∀ w, slice w 30 26 = k / 2 ^ 26 % 2 ^ 5 ∧ slice w 25 25 = k / 2 ^ 25 % 2 ^ 1 ∧ slice w 24 18 = k / 2 ^ 18 % 2 ^ 7 →
      decodeWord w o.c o.lit = some (i (readOpLp w o.c o.lit))) : Decodes (k + bitsOpLp o) o.c o.lit (i o) := by
  refine decodes_of_fields (fs := o.fields) blank rfl (by simp [bitsOpLp, fields]) fun word h => ?_
  obtain ⟨x, e, _⟩ := h.readAll
  rw [row word ⟨h.rest 30 26 rfl, h.rest 25 25 rfl, h.rest 24 18 rfl⟩, readOpLp, x, e]

def OpCode.fields (o : OpCode) : List WordField := [.bits 7 0 o.k]

theorem OpCode.decodes (o : OpCode) {k : Nat} {i : OpCode → Instr} (blank : blankAt [(7, 0)] k = true)
    (row : ∀ w, slice w 30 26 = k / 2 ^ 26 % 2 ^ 5 ∧ slice w 25 25 = k / 2 ^ 25 % 2 ^ 1 ∧ slice w 24 18 = k / 2 ^ 18 % 2 ^ 7 ∧ slice w 17 8 = k / 2 ^ 8 % 2 ^ 10 →
      decodeWord w o.c o.lit = some (i (readOpCode w o.c o.lit))) : Decodes (k + bitsOpCode o) o.c o.lit (i o) := by
  refine decodes_of_fields (fs := o.fields) blank rfl (by simp [bitsOpCode, fields]) fun word h => ?_
  obtain ⟨k, _⟩ := h.readAll
  rw [row word ⟨h.rest 30 26 rfl, h.rest 25 25 rfl, h.rest 24 18 rfl, h.rest 17 8 rfl⟩, readOpCode, k]

def OpUxp.fields (o : OpUxp) : List WordField := [.flag 25 o.u, .bits 17 11 o.x, .bits 2 0 o.p]

theorem OpUxp.decodes (o : OpUxp) {k : Nat} {i : OpUxp → Instr} (blank : blankAt [(25, 25), (17, 11), (2, 0)] k = true)
    (row : ∀ w, slice w 30 26 = k / 2 ^ 26 % 2 ^ 5 ∧ slice w 24 18 = k / 2 ^ 18 % 2 ^ 7 ∧ slice w 10 3 = k / 2 ^ 3 % 2 ^ 8 →
      decodeWord w o.c o.lit = some (i (readOpUxp w o.c o.lit))) : Decodes (k + bitsOpUxp o) o.c o.lit (i o) := by
  refine decodes_of_fields (fs := o.fields) blank rfl (by simp [bitsOpUxp, fields, Nat.add_assoc]) fun word h => ?_
  obtain ⟨u, x, p, _⟩ := h.readAll
  rw [row word ⟨h.rest 30 26 rfl, h.rest 24 18 rfl, h.rest 10 3 rfl⟩, readOpUxp, u, x, p]

def OpUx.fields (o : OpUx) : List WordField := [.flag 25 o.u, .bits 17 11 o.x]

theorem OpUx.decodes (o : OpUx) {k : Nat} {i : OpUx → Instr} (blank : blankAt [(25, 25), (17, 11)] k = true)
    (row : ∀ w, slice w 30 26 = k / 2 ^ 26 % 2 ^ 5 ∧ slice w 24 21 = k / 2 ^ 21 % 2 ^ 4 ∧ slice w 24 18 = k / 2 ^ 18 % 2 ^ 7 ∧ slice w 10 0 = k / 2 ^ 0 % 2 ^ 11 →
      decodeWord w o.c o.lit = some (i (readOpUx w o.c o.lit))) : Decodes (k + bitsOpUx o) o.c o.lit (i o) := by
  refine decodes_of_fields (fs := o.fields) blank rfl (by simp [bitsOpUx, fields]) fun word h => ?_
  obtain ⟨u, x, _⟩ := h.readAll
  rw [row word ⟨h.rest 30 26 rfl, h.rest 24 21 rfl, h.rest 24 18 rfl, h.rest 10 0 rfl⟩, readOpUx, u, x]

def OpDead.fields (o : OpDead) : List WordField := [.bits 20 18 o.k, .bits 15 0 o.m]

theorem OpDead.decodes (o : OpDead) {k : Nat} {i : OpDead → Instr} (blank : blankAt [(20, 18), (15, 0)] k = true)
    (row : ∀ w, slice w 30 26 = k / 2 ^ 26 % 2 ^ 5 ∧ slice w 25 25 = k / 2 ^ 25 % 2 ^ 1 ∧ slice w 24 21 = k / 2 ^ 21 % 2 ^ 4 ∧ slice w 17 16 = k / 2 ^ 16 % 2 ^ 2 ∧ slice w 20 18 = o.k.toNat →
      decodeWord w o.c o.lit = some (i (readOpDead w o.c o.lit))) : Decodes (k + bitsOpDead o) o.c o.lit (i o) := by
  refine decodes_of_fields (fs := o.fields) blank rfl (by simp [bitsOpDead, fields]) fun word h => ?_
  obtain ⟨k, m, _⟩ := h.readAll
  rw [row word ⟨h.rest 30 26 rfl, h.rest 25 25 rfl, h.rest 24 21 rfl, h.rest 17 16 rfl, h.slice_field (List.mem_cons_self ..)⟩, readOpDead, k, m]

def OpJ.fields (o : OpJ) : List WordField := [.bits 2 0 o.j]

theorem OpJ.decodes (o : OpJ) {k : Nat} {i : OpJ → Instr} (blank : blankAt [(2, 0)] k = true)
    (row : ∀ w, slice w 30 26 = k / 2 ^ 26 % 2 ^ 5 ∧ slice w 25 25 = k / 2 ^ 25 % 2 ^ 1 ∧ slice w 24 18 = k / 2 ^ 18 % 2 ^ 7 ∧ slice w 17 3 = k / 2 ^ 3 % 2 ^ 15 →
      decodeWord w o.c o.lit = some (i (readOpJ w o.c o.lit))) : Decodes (k + bitsOpJ o) o.c o.lit (i o) := by
  refine decodes_of_fields (fs := o.fields) blank rfl (by simp [bitsOpJ, fields]) fun word h => ?_
  obtain ⟨j, _⟩ := h.readAll
  rw [row word ⟨h.rest 30 26 rfl, h.rest 25 25 rfl, h.rest 24 18 rfl, h.rest 17 3 rfl⟩, readOpJ, j]

def OpVote.fields (o : OpVote) : List WordField := [.bits 7 4 o.s, .bits 2 0 o.p]

theorem OpVote.decodes (o : OpVote) {k : Nat} {i : OpVote → Instr} (blank : blankAt [(7, 4), (2, 0)] k = true)
    (row : ∀ w, slice w 30 26 = k / 2 ^ 26 % 2 ^ 5 ∧ slice w 25 25 = k / 2 ^ 25 % 2 ^ 1 ∧ slice w 24 18 = k / 2 ^ 18 % 2 ^ 7 ∧ slice w 17 8 = k / 2 ^ 8 % 2 ^ 10 ∧ slice w 3 3 = k / 2 ^ 3 % 2 ^ 1 →
      decodeWord w o.c o.lit = some (i (readOpVote w o.c o.lit))) : Decodes (k + bitsOpVote o) o.c o.lit (i o) := by
  refine decodes_of_fields (fs := o.fields) blank rfl (by simp [bitsOpVote, fields]) fun word h => ?_
  obtain ⟨s, p, _⟩ := h.readAll
  rw [row word ⟨h.rest 30 26 rfl, h.rest 25 25 rfl, h.rest 24 18 rfl, h.rest 17 8 rfl, h.rest 3 3 rfl⟩, readOpVote, s, p]

def OpBar.fields (o : OpBar) : List WordField := [.bits 3 0 o.n]

theorem OpBar.decodes (o : OpBar) {k : Nat} {i : OpBar → Instr} (blank : blankAt [(3, 0)] k = true)
    (row : ∀ w, slice w 30 26 = k / 2 ^ 26 % 2 ^ 5 ∧ slice w 25 25 = k / 2 ^ 25 % 2 ^ 1 ∧ slice w 24 18 = k / 2 ^ 18 % 2 ^ 7 ∧ slice w 17 4 = k / 2 ^ 4 % 2 ^ 14 →
      decodeWord w o.c o.lit = some (i (readOpBar w o.c o.lit))) : Decodes (k + bitsOpBar o) o.c o.lit (i o) := by
  refine decodes_of_fields (fs := o.fields) blank rfl (by simp [bitsOpBar, fields]) fun word h => ?_
  obtain ⟨n, _⟩ := h.readAll
  rw [row word ⟨h.rest 30 26 rfl, h.rest 25 25 rfl, h.rest 24 18 rfl, h.rest 17 4 rfl⟩, readOpBar, n]

def OpSm.fields (o : OpSm) : List WordField := [.flag 25 o.u, .bits 17 11 o.x, .bits 8 0 o.i]

theorem OpSm.decodes (o : OpSm) {k : Nat} {i : OpSm → Instr} (blank : blankAt [(25, 25), (17, 11), (8, 0)] k = true)
    (row : ∀ w, slice w 30 26 = k / 2 ^ 26 % 2 ^ 5 ∧ slice w 24 18 = k / 2 ^ 18 % 2 ^ 7 ∧ slice w 10 9 = k / 2 ^ 9 % 2 ^ 2 →
      decodeWord w o.c o.lit = some (i (readOpSm w o.c o.lit))) : Decodes (k + bitsOpSm o) o.c o.lit (i o) := by
  refine decodes_of_fields (fs := o.fields) blank rfl (by simp [bitsOpSm, fields, Nat.add_assoc]) fun word h => ?_
  obtain ⟨u, x, i, _⟩ := h.readAll
  rw [row word ⟨h.rest 30 26 rfl, h.rest 24 18 rfl, h.rest 10 9 rfl⟩, readOpSm, u, x, i]

def OpSw.fields (o : OpSw) : List WordField := [.bits 17 11 o.x, .bits 8 0 o.i]

theorem OpSw.decodes (o : OpSw) {k : Nat} {i : OpSw → Instr} (blank : blankAt [(17, 11), (8, 0)] k = true)
    (row : ∀ w, slice w 30 26 = k / 2 ^ 26 % 2 ^ 5 ∧ slice w 25 25 = k / 2 ^ 25 % 2 ^ 1 ∧ slice w 24 18 = k / 2 ^ 18 % 2 ^ 7 ∧ slice w 10 9 = k / 2 ^ 9 % 2 ^ 2 →
      decodeWord w o.c o.lit = some (i (readOpSw w o.c o.lit))) : Decodes (k + bitsOpSw o) o.c o.lit (i o) := by
  refine decodes_of_fields (fs := o.fields) blank rfl (by simp [bitsOpSw, fields]) fun word h => ?_
  obtain ⟨x, i, _⟩ := h.readAll
  rw [row word ⟨h.rest 30 26 rfl, h.rest 25 25 rfl, h.rest 24 18 rfl, h.rest 10 9 rfl⟩, readOpSw, x, i]

def OpSys.fields (o : OpSys) : List WordField := [.flag 25 o.u, .bits 17 11 o.x, .bits 10 0 o.n]

theorem OpSys.decodes (o : OpSys) {k : Nat} {i : OpSys → Instr} (blank : blankAt [(25, 25), (17, 11), (10, 0)] k = true)
    (row : ∀ w, slice w 30 26 = k / 2 ^ 26 % 2 ^ 5 ∧ slice w 24 18 = k / 2 ^ 18 % 2 ^ 7 →
      decodeWord w o.c o.lit = some (i (readOpSys w o.c o.lit))) : Decodes (k + bitsOpSys o) o.c o.lit (i o) := by
  refine decodes_of_fields (fs := o.fields) blank rfl (by simp [bitsOpSys, fields, Nat.add_assoc]) fun word h => ?_
  obtain ⟨u, x, n, _⟩ := h.readAll
  rw [row word ⟨h.rest 30 26 rfl, h.rest 24 18 rfl⟩, readOpSys, u, x, n]

def OpFc.fields (o : OpFc) : List WordField := [.bits 4 0 o.f]

theorem OpFc.decodes (o : OpFc) {k : Nat} {i : OpFc → Instr} (blank : blankAt [(4, 0)] k = true)
    (row : ∀ w, slice w 30 26 = k / 2 ^ 26 % 2 ^ 5 ∧ slice w 25 25 = k / 2 ^ 25 % 2 ^ 1 ∧ slice w 24 18 = k / 2 ^ 18 % 2 ^ 7 ∧ slice w 17 5 = k / 2 ^ 5 % 2 ^ 13 →
      decodeWord w o.c o.lit = some (i (readOpFc w o.c o.lit))) : Decodes (k + bitsOpFc o) o.c o.lit (i o) := by
  refine decodes_of_fields (fs := o.fields) blank rfl (by simp [bitsOpFc, fields]) fun word h => ?_
  obtain ⟨f, _⟩ := h.readAll
  rw [row word ⟨h.rest 30 26 rfl, h.rest 25 25 rfl, h.rest 24 18 rfl, h.rest 17 5 rfl⟩, readOpFc, f]

def OpIdr.fields (o : OpIdr) : List WordField := [.flag 25 o.u, .bits 17 11 o.x, .bits 2 0 o.s]

theorem OpIdr.decodes (o : OpIdr) {k : Nat} {i : OpIdr → Instr} (blank : blankAt [(25, 25), (17, 11), (2, 0)] k = true)
    (row : ∀ w, slice w 30 26 = k / 2 ^ 26 % 2 ^ 5 ∧ slice w 24 18 = k / 2 ^ 18 % 2 ^ 7 ∧ slice w 10 3 = k / 2 ^ 3 % 2 ^ 8 →
      decodeWord w o.c o.lit = some (i (readOpIdr w o.c o.lit))) : Decodes (k + bitsOpIdr o) o.c o.lit (i o) := by
  refine decodes_of_fields (fs := o.fields) blank rfl (by simp [bitsOpIdr, fields, Nat.add_assoc]) fun word h => ?_
  obtain ⟨u, x, s, _⟩ := h.readAll
  rw [row word ⟨h.rest 30 26 rfl, h.rest 24 18 rfl, h.rest 10 3 rfl⟩, readOpIdr, u, x, s]

def OpFen.fields (o : OpFen) : List WordField := [.bits 5 4 o.k, .bits 3 0 o.s]

theorem OpFen.decodes (o : OpFen) {k : Nat} {i : OpFen → Instr} (blank : blankAt [(5, 4), (3, 0)] k = true)
    (row : ∀ w, slice w 30 26 = k / 2 ^ 26 % 2 ^ 5 ∧ slice w 25 25 = k / 2 ^ 25 % 2 ^ 1 ∧ slice w 24 18 = k / 2 ^ 18 % 2 ^ 7 ∧ slice w 17 6 = k / 2 ^ 6 % 2 ^ 12 →
      decodeWord w o.c o.lit = some (i (readOpFen w o.c o.lit))) : Decodes (k + bitsOpFen o) o.c o.lit (i o) := by
  refine decodes_of_fields (fs := o.fields) blank rfl (by simp [bitsOpFen, fields]) fun word h => ?_
  obtain ⟨k, s, _⟩ := h.readAll
  rw [row word ⟨h.rest 30 26 rfl, h.rest 25 25 rfl, h.rest 24 18 rfl, h.rest 17 6 rfl⟩, readOpFen, k, s]

def OpSpl.fields (o : OpSpl) : List WordField := [.bits 17 11 o.x, .bits 5 0 o.k]

theorem OpSpl.decodes (o : OpSpl) {k : Nat} {i : OpSpl → Instr} (blank : blankAt [(17, 11), (5, 0)] k = true)
    (row : ∀ w, slice w 30 26 = k / 2 ^ 26 % 2 ^ 5 ∧ slice w 25 25 = k / 2 ^ 25 % 2 ^ 1 ∧ slice w 24 18 = k / 2 ^ 18 % 2 ^ 7 ∧ slice w 10 6 = k / 2 ^ 6 % 2 ^ 5 →
      decodeWord w o.c o.lit = some (i (readOpSpl w o.c o.lit))) : Decodes (k + bitsOpSpl o) o.c o.lit (i o) := by
  refine decodes_of_fields (fs := o.fields) blank rfl (by simp [bitsOpSpl, fields]) fun word h => ?_
  obtain ⟨x, k, _⟩ := h.readAll
  rw [row word ⟨h.rest 30 26 rfl, h.rest 25 25 rfl, h.rest 24 18 rfl, h.rest 10 6 rfl⟩, readOpSpl, x, k]

def OpWin.fields (o : OpWin) : List WordField := [.bits 2 0 o.w]

theorem OpWin.decodes (o : OpWin) {k : Nat} {i : OpWin → Instr} (blank : blankAt [(2, 0)] k = true)
    (row : ∀ w, slice w 30 26 = k / 2 ^ 26 % 2 ^ 5 ∧ slice w 25 25 = k / 2 ^ 25 % 2 ^ 1 ∧ slice w 24 18 = k / 2 ^ 18 % 2 ^ 7 ∧ slice w 17 3 = k / 2 ^ 3 % 2 ^ 15 →
      decodeWord w o.c o.lit = some (i (readOpWin w o.c o.lit))) : Decodes (k + bitsOpWin o) o.c o.lit (i o) := by
  refine decodes_of_fields (fs := o.fields) blank rfl (by simp [bitsOpWin, fields]) fun word h => ?_
  obtain ⟨w, _⟩ := h.readAll
  rw [row word ⟨h.rest 30 26 rfl, h.rest 25 25 rfl, h.rest 24 18 rfl, h.rest 17 3 rfl⟩, readOpWin, w]

def OpLd.fields (o : OpLd) : List WordField := [.bits 24 18 o.d, .bits 17 11 o.a, .bits 10 8 o.w, .bits 7 6 o.p, .bits 5 4 o.s, .bits 3 1 o.t]

theorem OpLd.decodes (o : OpLd) {k : Nat} {i : OpLd → Instr} (blank : blankAt [(24, 18), (17, 11), (10, 8), (7, 6), (5, 4), (3, 1)] k = true)
    (row : ∀ w, slice w 30 26 = k / 2 ^ 26 % 2 ^ 5 ∧ slice w 25 25 = k / 2 ^ 25 % 2 ^ 1 ∧ slice w 0 0 = k / 2 ^ 0 % 2 ^ 1 →
      decodeWord w o.c o.lit = some (i (readOpLd w o.c o.lit))) : Decodes (k + bitsOpLd o) o.c o.lit (i o) := by
  refine decodes_of_fields (fs := o.fields) blank rfl (by simp [bitsOpLd, fields, Nat.add_assoc]) fun word h => ?_
  obtain ⟨d, a, w, p, s, t, _⟩ := h.readAll
  rw [row word ⟨h.rest 30 26 rfl, h.rest 25 25 rfl, h.rest 0 0 rfl⟩, readOpLd, d, a, w, p, s, t]

def OpPf.fields (o : OpPf) : List WordField := [.bits 17 11 o.a, .bits 10 8 o.w, .bits 5 4 o.s, .bits 3 1 o.t]

theorem OpPf.decodes (o : OpPf) {k : Nat} {i : OpPf → Instr} (blank : blankAt [(17, 11), (10, 8), (5, 4), (3, 1)] k = true)
    (row : ∀ w, slice w 30 26 = k / 2 ^ 26 % 2 ^ 5 ∧ slice w 25 18 = k / 2 ^ 18 % 2 ^ 8 ∧ slice w 7 6 = k / 2 ^ 6 % 2 ^ 2 ∧ slice w 0 0 = k / 2 ^ 0 % 2 ^ 1 →
      decodeWord w o.c o.lit = some (i (readOpPf w o.c o.lit))) : Decodes (k + bitsOpPf o) o.c o.lit (i o) := by
  refine decodes_of_fields (fs := o.fields) blank rfl (by simp [bitsOpPf, fields, Nat.add_assoc]) fun word h => ?_
  obtain ⟨a, w, s, t, _⟩ := h.readAll
  rw [row word ⟨h.rest 30 26 rfl, h.rest 25 18 rfl, h.rest 7 6 rfl, h.rest 0 0 rfl⟩, readOpPf, a, w, s, t]

def OpSt.fields (o : OpSt) : List WordField := [.bits 24 18 o.d, .bits 17 11 o.a, .bits 5 4 o.s, .bits 3 1 o.t]

theorem OpSt.decodes (o : OpSt) {k : Nat} {i : OpSt → Instr} (blank : blankAt [(24, 18), (17, 11), (5, 4), (3, 1)] k = true)
    (row : ∀ w, slice w 30 26 = k / 2 ^ 26 % 2 ^ 5 ∧ slice w 25 25 = k / 2 ^ 25 % 2 ^ 1 ∧ slice w 10 6 = k / 2 ^ 6 % 2 ^ 5 ∧ slice w 0 0 = k / 2 ^ 0 % 2 ^ 1 →
      decodeWord w o.c o.lit = some (i (readOpSt w o.c o.lit))) : Decodes (k + bitsOpSt o) o.c o.lit (i o) := by
  refine decodes_of_fields (fs := o.fields) blank rfl (by simp [bitsOpSt, fields, Nat.add_assoc]) fun word h => ?_
  obtain ⟨d, a, s, t, _⟩ := h.readAll
  rw [row word ⟨h.rest 30 26 rfl, h.rest 25 25 rfl, h.rest 10 6 rfl, h.rest 0 0 rfl⟩, readOpSt, d, a, s, t]

def OpMma.fields (o : OpMma) : List WordField := [.bits 23 21 o.f, .bits 20 18 o.t, .bits 17 11 o.a, .bits 10 4 o.b]

theorem OpMma.decodes (o : OpMma) {k : Nat} {i : OpMma → Instr} (blank : blankAt [(23, 21), (20, 18), (17, 11), (10, 4)] k = true)
    (row : ∀ w, slice w 30 26 = k / 2 ^ 26 % 2 ^ 5 ∧ slice w 25 24 = k / 2 ^ 24 % 2 ^ 2 ∧ slice w 3 0 = k / 2 ^ 0 % 2 ^ 4 →
      decodeWord w o.c o.lit = some (i (readOpMma w o.c o.lit))) : Decodes (k + bitsOpMma o) o.c o.lit (i o) := by
  refine decodes_of_fields (fs := o.fields) blank rfl (by simp [bitsOpMma, fields, Nat.add_assoc]) fun word h => ?_
  obtain ⟨f, t, a, b, _⟩ := h.readAll
  rw [row word ⟨h.rest 30 26 rfl, h.rest 25 24 rfl, h.rest 3 0 rfl⟩, readOpMma, f, t, a, b]

def OpMs.fields (o : OpMs) : List WordField := [.bits 20 18 o.t, .bits 17 11 o.a, .bits 10 4 o.b, .bits 2 1 o.s]

theorem OpMs.decodes (o : OpMs) {k : Nat} {i : OpMs → Instr} (blank : blankAt [(20, 18), (17, 11), (10, 4), (2, 1)] k = true)
    (row : ∀ w, slice w 30 26 = k / 2 ^ 26 % 2 ^ 5 ∧ slice w 25 24 = k / 2 ^ 24 % 2 ^ 2 ∧ slice w 25 21 = k / 2 ^ 21 % 2 ^ 5 ∧ slice w 3 3 = k / 2 ^ 3 % 2 ^ 1 ∧ slice w 0 0 = k / 2 ^ 0 % 2 ^ 1 →
      decodeWord w o.c o.lit = some (i (readOpMs w o.c o.lit))) : Decodes (k + bitsOpMs o) o.c o.lit (i o) := by
  refine decodes_of_fields (fs := o.fields) blank rfl (by simp [bitsOpMs, fields, Nat.add_assoc]) fun word h => ?_
  obtain ⟨t, a, b, s, _⟩ := h.readAll
  rw [row word ⟨h.rest 30 26 rfl, h.rest 25 24 rfl, h.rest 25 21 rfl, h.rest 3 3 rfl, h.rest 0 0 rfl⟩, readOpMs, t, a, b, s]

def OpFlk.fields (o : OpFlk) : List WordField := [.flag 25 o.u, .bits 20 14 o.d, .bits 12 11 o.j]

theorem OpFlk.decodes (o : OpFlk) {k : Nat} {i : OpFlk → Instr} (blank : blankAt [(25, 25), (20, 14), (12, 11)] k = true)
    (row : ∀ w, slice w 30 26 = k / 2 ^ 26 % 2 ^ 5 ∧ slice w 24 24 = k / 2 ^ 24 % 2 ^ 1 ∧ slice w 24 21 = k / 2 ^ 21 % 2 ^ 4 ∧ slice w 13 13 = k / 2 ^ 13 % 2 ^ 1 ∧ slice w 10 0 = k / 2 ^ 0 % 2 ^ 11 →
      decodeWord w o.c o.lit = some (i (readOpFlk w o.c o.lit))) : Decodes (k + bitsOpFlk o) o.c o.lit (i o) := by
  refine decodes_of_fields (fs := o.fields) blank rfl (by simp [bitsOpFlk, fields, Nat.add_assoc]) fun word h => ?_
  obtain ⟨u, d, j, _⟩ := h.readAll
  rw [row word ⟨h.rest 30 26 rfl, h.rest 24 24 rfl, h.rest 24 21 rfl, h.rest 13 13 rfl, h.rest 10 0 rfl⟩, readOpFlk, u, d, j]

def OpFid.fields (o : OpFid) : List WordField := [.flag 25 o.u, .bits 20 14 o.d, .bits 13 11 o.k]

theorem OpFid.decodes (o : OpFid) {k : Nat} {i : OpFid → Instr} (blank : blankAt [(25, 25), (20, 14), (13, 11)] k = true)
    (row : ∀ w, slice w 30 26 = k / 2 ^ 26 % 2 ^ 5 ∧ slice w 24 24 = k / 2 ^ 24 % 2 ^ 1 ∧ slice w 24 21 = k / 2 ^ 21 % 2 ^ 4 ∧ slice w 10 0 = k / 2 ^ 0 % 2 ^ 11 →
      decodeWord w o.c o.lit = some (i (readOpFid w o.c o.lit))) : Decodes (k + bitsOpFid o) o.c o.lit (i o) := by
  refine decodes_of_fields (fs := o.fields) blank rfl (by simp [bitsOpFid, fields, Nat.add_assoc]) fun word h => ?_
  obtain ⟨u, d, k, _⟩ := h.readAll
  rw [row word ⟨h.rest 30 26 rfl, h.rest 24 24 rfl, h.rest 24 21 rfl, h.rest 10 0 rfl⟩, readOpFid, u, d, k]

def OpArd.fields (o : OpArd) : List WordField := [.bits 20 18 o.t, .bits 17 11 o.d, .bits 10 8 o.g, .bits 7 6 o.v]

theorem OpArd.decodes (o : OpArd) {k : Nat} {i : OpArd → Instr} (blank : blankAt [(20, 18), (17, 11), (10, 8), (7, 6)] k = true)
    (row : ∀ w, slice w 30 26 = k / 2 ^ 26 % 2 ^ 5 ∧ slice w 25 25 = k / 2 ^ 25 % 2 ^ 1 ∧ slice w 24 21 = k / 2 ^ 21 % 2 ^ 4 ∧ slice w 5 0 = k / 2 ^ 0 % 2 ^ 6 →
      decodeWord w o.c o.lit = some (i (readOpArd w o.c o.lit))) : Decodes (k + bitsOpArd o) o.c o.lit (i o) := by
  refine decodes_of_fields (fs := o.fields) blank rfl (by simp [bitsOpArd, fields, Nat.add_assoc]) fun word h => ?_
  obtain ⟨t, d, g, v, _⟩ := h.readAll
  rw [row word ⟨h.rest 30 26 rfl, h.rest 25 25 rfl, h.rest 24 21 rfl, h.rest 5 0 rfl⟩, readOpArd, t, d, g, v]

def OpAst.fields (o : OpAst) : List WordField := [.bits 20 18 o.t, .bits 17 11 o.a, .bits 10 8 o.g, .bits 7 6 o.v, .bits 5 4 o.s]

theorem OpAst.decodes (o : OpAst) {k : Nat} {i : OpAst → Instr} (blank : blankAt [(20, 18), (17, 11), (10, 8), (7, 6), (5, 4)] k = true)
    (row : ∀ w, slice w 30 26 = k / 2 ^ 26 % 2 ^ 5 ∧ slice w 25 25 = k / 2 ^ 25 % 2 ^ 1 ∧ slice w 24 21 = k / 2 ^ 21 % 2 ^ 4 ∧ slice w 3 0 = k / 2 ^ 0 % 2 ^ 4 →
      decodeWord w o.c o.lit = some (i (readOpAst w o.c o.lit))) : Decodes (k + bitsOpAst o) o.c o.lit (i o) := by
  refine decodes_of_fields (fs := o.fields) blank rfl (by simp [bitsOpAst, fields, Nat.add_assoc]) fun word h => ?_
  obtain ⟨t, a, g, v, s, _⟩ := h.readAll
  rw [row word ⟨h.rest 30 26 rfl, h.rest 25 25 rfl, h.rest 24 21 rfl, h.rest 3 0 rfl⟩, readOpAst, t, a, g, v, s]

def OpT.fields (o : OpT) : List WordField := [.bits 20 18 o.t]

theorem OpT.decodes (o : OpT) {k : Nat} {i : OpT → Instr} (blank : blankAt [(20, 18)] k = true)
    (row : ∀ w, slice w 30 26 = k / 2 ^ 26 % 2 ^ 5 ∧ slice w 25 25 = k / 2 ^ 25 % 2 ^ 1 ∧ slice w 24 21 = k / 2 ^ 21 % 2 ^ 4 ∧ slice w 17 0 = k / 2 ^ 0 % 2 ^ 18 →
      decodeWord w o.c o.lit = some (i (readOpT w o.c o.lit))) : Decodes (k + bitsOpT o) o.c o.lit (i o) := by
  refine decodes_of_fields (fs := o.fields) blank rfl (by simp [bitsOpT, fields]) fun word h => ?_
  obtain ⟨t, _⟩ := h.readAll
  rw [row word ⟨h.rest 30 26 rfl, h.rest 25 25 rfl, h.rest 24 21 rfl, h.rest 17 0 rfl⟩, readOpT, t]

def OpXk.fields (o : OpXk) : List WordField := [.flag 25 o.u, .bits 20 14 o.x]

theorem OpXk.decodes (o : OpXk) {k : Nat} {i : OpXk → Instr} (blank : blankAt [(25, 25), (20, 14)] k = true)
    (row : ∀ w, slice w 30 26 = k / 2 ^ 26 % 2 ^ 5 ∧ slice w 24 21 = k / 2 ^ 21 % 2 ^ 4 ∧ slice w 13 0 = k / 2 ^ 0 % 2 ^ 14 →
      decodeWord w o.c o.lit = some (i (readOpXk w o.c o.lit))) : Decodes (k + bitsOpXk o) o.c o.lit (i o) := by
  refine decodes_of_fields (fs := o.fields) blank rfl (by simp [bitsOpXk, fields]) fun word h => ?_
  obtain ⟨u, x, _⟩ := h.readAll
  rw [row word ⟨h.rest 30 26 rfl, h.rest 24 21 rfl, h.rest 13 0 rfl⟩, readOpXk, u, x]

def OpOw.fields (o : OpOw) : List WordField := [.bits 20 19 o.k, .bits 10 0 o.n]

theorem OpOw.decodes (o : OpOw) {k : Nat} {i : OpOw → Instr} (blank : blankAt [(20, 19), (10, 0)] k = true)
    (row : ∀ w, slice w 30 26 = k / 2 ^ 26 % 2 ^ 5 ∧ slice w 25 25 = k / 2 ^ 25 % 2 ^ 1 ∧ slice w 24 21 = k / 2 ^ 21 % 2 ^ 4 ∧ slice w 18 11 = k / 2 ^ 11 % 2 ^ 8 →
      decodeWord w o.c o.lit = some (i (readOpOw w o.c o.lit))) : Decodes (k + bitsOpOw o) o.c o.lit (i o) := by
  refine decodes_of_fields (fs := o.fields) blank rfl (by simp [bitsOpOw, fields]) fun word h => ?_
  obtain ⟨k, n, _⟩ := h.readAll
  rw [row word ⟨h.rest 30 26 rfl, h.rest 25 25 rfl, h.rest 24 21 rfl, h.rest 18 11 rfl⟩, readOpOw, k, n]

def OpBi.fields (o : OpBi) : List WordField := [.flag 25 o.u, .bits 20 14 o.x, .bits 13 7 o.y, .bits 6 0 o.z]

theorem OpBi.decodes (o : OpBi) {k : Nat} {i : OpBi → Instr} (blank : blankAt [(25, 25), (20, 14), (13, 7), (6, 0)] k = true)
    (row : ∀ w, slice w 30 26 = k / 2 ^ 26 % 2 ^ 5 ∧ slice w 24 21 = k / 2 ^ 21 % 2 ^ 4 →
      decodeWord w o.c o.lit = some (i (readOpBi w o.c o.lit))) : Decodes (k + bitsOpBi o) o.c o.lit (i o) := by
  refine decodes_of_fields (fs := o.fields) blank rfl (by simp [bitsOpBi, fields, Nat.add_assoc]) fun word h => ?_
  obtain ⟨u, x, y, z, _⟩ := h.readAll
  rw [row word ⟨h.rest 30 26 rfl, h.rest 24 21 rfl⟩, readOpBi, u, x, y, z]

def OpBa.fields (o : OpBa) : List WordField := [.flag 25 o.u, .bits 20 14 o.d, .bits 13 7 o.x]

theorem OpBa.decodes (o : OpBa) {k : Nat} {i : OpBa → Instr} (blank : blankAt [(25, 25), (20, 14), (13, 7)] k = true)
    (row : ∀ w, slice w 30 26 = k / 2 ^ 26 % 2 ^ 5 ∧ slice w 24 21 = k / 2 ^ 21 % 2 ^ 4 ∧ slice w 6 0 = k / 2 ^ 0 % 2 ^ 7 →
      decodeWord w o.c o.lit = some (i (readOpBa w o.c o.lit))) : Decodes (k + bitsOpBa o) o.c o.lit (i o) := by
  refine decodes_of_fields (fs := o.fields) blank rfl (by simp [bitsOpBa, fields, Nat.add_assoc]) fun word h => ?_
  obtain ⟨u, d, x, _⟩ := h.readAll
  rw [row word ⟨h.rest 30 26 rfl, h.rest 24 21 rfl, h.rest 6 0 rfl⟩, readOpBa, u, d, x]

def OpXy.fields (o : OpXy) : List WordField := [.bits 20 14 o.x, .bits 13 7 o.y]

theorem OpXy.decodes (o : OpXy) {k : Nat} {i : OpXy → Instr} (blank : blankAt [(20, 14), (13, 7)] k = true)
    (row : ∀ w, slice w 30 26 = k / 2 ^ 26 % 2 ^ 5 ∧ slice w 25 25 = k / 2 ^ 25 % 2 ^ 1 ∧ slice w 24 21 = k / 2 ^ 21 % 2 ^ 4 ∧ slice w 6 0 = k / 2 ^ 0 % 2 ^ 7 →
      decodeWord w o.c o.lit = some (i (readOpXy w o.c o.lit))) : Decodes (k + bitsOpXy o) o.c o.lit (i o) := by
  refine decodes_of_fields (fs := o.fields) blank rfl (by simp [bitsOpXy, fields]) fun word h => ?_
  obtain ⟨x, y, _⟩ := h.readAll
  rw [row word ⟨h.rest 30 26 rfl, h.rest 25 25 rfl, h.rest 24 21 rfl, h.rest 6 0 rfl⟩, readOpXy, x, y]

def OpMc.fields (o : OpMc) : List WordField := [.bits 20 14 o.x]

theorem OpMc.decodes (o : OpMc) {k : Nat} {i : OpMc → Instr} (blank : blankAt [(20, 14)] k = true)
    (row : ∀ w, slice w 30 26 = k / 2 ^ 26 % 2 ^ 5 ∧ slice w 25 25 = k / 2 ^ 25 % 2 ^ 1 ∧ slice w 24 21 = k / 2 ^ 21 % 2 ^ 4 ∧ slice w 13 0 = k / 2 ^ 0 % 2 ^ 14 →
      decodeWord w o.c o.lit = some (i (readOpMc w o.c o.lit))) : Decodes (k + bitsOpMc o) o.c o.lit (i o) := by
  refine decodes_of_fields (fs := o.fields) blank rfl (by simp [bitsOpMc, fields]) fun word h => ?_
  obtain ⟨x, _⟩ := h.readAll
  rw [row word ⟨h.rest 30 26 rfl, h.rest 25 25 rfl, h.rest 24 21 rfl, h.rest 13 0 rfl⟩, readOpMc, x]

def OpTq.fields (o : OpTq) : List WordField := [.flag 25 o.u, .bits 20 18 o.p, .bits 17 11 o.x, .bits 10 4 o.y, .bits 3 1 o.w]

theorem OpTq.decodes (o : OpTq) {k : Nat} {i : OpTq → Instr} (blank : blankAt [(25, 25), (20, 18), (17, 11), (10, 4), (3, 1)] k = true)
    (row : ∀ w, slice w 30 26 = k / 2 ^ 26 % 2 ^ 5 ∧ slice w 24 21 = k / 2 ^ 21 % 2 ^ 4 ∧ slice w 0 0 = k / 2 ^ 0 % 2 ^ 1 →
      decodeWord w o.c o.lit = some (i (readOpTq w o.c o.lit))) : Decodes (k + bitsOpTq o) o.c o.lit (i o) := by
  refine decodes_of_fields (fs := o.fields) blank rfl (by simp [bitsOpTq, fields, Nat.add_assoc]) fun word h => ?_
  obtain ⟨u, p, x, y, w, _⟩ := h.readAll
  rw [row word ⟨h.rest 30 26 rfl, h.rest 24 21 rfl, h.rest 0 0 rfl⟩, readOpTq, u, p, x, y, w]

def OpTa.fields (o : OpTa) : List WordField := [.flag 25 o.u, .bits 20 18 o.p, .bits 17 11 o.x]

theorem OpTa.decodes (o : OpTa) {k : Nat} {i : OpTa → Instr} (blank : blankAt [(25, 25), (20, 18), (17, 11)] k = true)
    (row : ∀ w, slice w 30 26 = k / 2 ^ 26 % 2 ^ 5 ∧ slice w 24 21 = k / 2 ^ 21 % 2 ^ 4 ∧ slice w 10 0 = k / 2 ^ 0 % 2 ^ 11 →
      decodeWord w o.c o.lit = some (i (readOpTa w o.c o.lit))) : Decodes (k + bitsOpTa o) o.c o.lit (i o) := by
  refine decodes_of_fields (fs := o.fields) blank rfl (by simp [bitsOpTa, fields, Nat.add_assoc]) fun word h => ?_
  obtain ⟨u, p, x, _⟩ := h.readAll
  rw [row word ⟨h.rest 30 26 rfl, h.rest 24 21 rfl, h.rest 10 0 rfl⟩, readOpTa, u, p, x]

def OpCs.fields (o : OpCs) : List WordField := [.flag 25 o.u]

theorem OpCs.decodes (o : OpCs) {k : Nat} {i : OpCs → Instr} (blank : blankAt [(25, 25)] k = true)
    (row : ∀ w, slice w 30 26 = k / 2 ^ 26 % 2 ^ 5 ∧ slice w 24 21 = k / 2 ^ 21 % 2 ^ 4 ∧ slice w 20 0 = k / 2 ^ 0 % 2 ^ 21 →
      decodeWord w o.c o.lit = some (i (readOpCs w o.c o.lit))) : Decodes (k + bitsOpCs o) o.c o.lit (i o) := by
  refine decodes_of_fields (fs := o.fields) blank rfl (by simp [bitsOpCs, fields]) fun word h => ?_
  obtain ⟨u, _⟩ := h.readAll
  rw [row word ⟨h.rest 30 26 rfl, h.rest 24 21 rfl, h.rest 20 0 rfl⟩, readOpCs, u]

def OpCw.fields (o : OpCw) : List WordField := [.bits 17 11 o.x, .bits 10 4 o.y]

theorem OpCw.decodes (o : OpCw) {k : Nat} {i : OpCw → Instr} (blank : blankAt [(17, 11), (10, 4)] k = true)
    (row : ∀ w, slice w 30 26 = k / 2 ^ 26 % 2 ^ 5 ∧ slice w 25 25 = k / 2 ^ 25 % 2 ^ 1 ∧ slice w 24 21 = k / 2 ^ 21 % 2 ^ 4 ∧ slice w 20 18 = k / 2 ^ 18 % 2 ^ 3 ∧ slice w 3 0 = k / 2 ^ 0 % 2 ^ 4 →
      decodeWord w o.c o.lit = some (i (readOpCw w o.c o.lit))) : Decodes (k + bitsOpCw o) o.c o.lit (i o) := by
  refine decodes_of_fields (fs := o.fields) blank rfl (by simp [bitsOpCw, fields]) fun word h => ?_
  obtain ⟨x, y, _⟩ := h.readAll
  rw [row word ⟨h.rest 30 26 rfl, h.rest 25 25 rfl, h.rest 24 21 rfl, h.rest 20 18 rfl, h.rest 3 0 rfl⟩, readOpCw, x, y]

/-! The words with a literal of their own fields: the atomics and the MX matrix words (R51, R317). -/

/-- A literal of a register above a field of 19 bits. -/
theorem slices_literal (x : BitVec 7) (i : BitVec 19) :
    slice (BitVec.ofNat 26 (x.toNat * 2 ^ 19 + i.toNat)).toNat 25 19 = x.toNat ∧ slice (BitVec.ofNat 26 (x.toNat * 2 ^ 19 + i.toNat)).toNat 18 0 = i.toNat := by
  have := x.isLt
  have := i.isLt
  simp only [slice, BitVec.toNat_ofNat]
  omega

theorem slices_literal_pair (x y : BitVec 7) :
    slice (BitVec.ofNat 26 (x.toNat * 2 ^ 19 + y.toNat * 2 ^ 12)).toNat 25 19 = x.toNat ∧
    slice (BitVec.ofNat 26 (x.toNat * 2 ^ 19 + y.toNat * 2 ^ 12)).toNat 18 12 = y.toNat ∧
    slice (BitVec.ofNat 26 (x.toNat * 2 ^ 19 + y.toNat * 2 ^ 12)).toNat 11 0 = 0 := by
  have := x.isLt
  have := y.isLt
  simp only [slice, BitVec.toNat_ofNat]
  omega

def OpAt.fields (o : OpAt) : List WordField := [.bits 24 18 o.d, .bits 17 11 o.a, .bits 10 6 o.o, .bits 5 4 o.s, .bits 3 1 o.t]
def OpRed.fields (o : OpRed) : List WordField := [.bits 17 11 o.a, .bits 10 6 o.o, .bits 5 4 o.s, .bits 3 1 o.t]
def OpMx.fields (o : OpMx) : List WordField := [.bits 23 21 o.f, .bits 20 18 o.t, .bits 17 11 o.a, .bits 10 4 o.b]

theorem OpAt.decodes (o : OpAt) :
    Decodes (28 * 2 ^ 26 + o.d.toNat * 2 ^ 18 + o.a.toNat * 2 ^ 11 + o.o.toNat * 2 ^ 6 + o.s.toNat * 2 ^ 4 + o.t.toNat * 2) o.c
      (some (BitVec.ofNat 26 (o.x.toNat * 2 ^ 19 + o.i.toNat))) (.atomic o) := by
  have blank : blankAt [(24, 18), (17, 11), (10, 6), (5, 4), (3, 1)] (28 * 2 ^ 26) = true := rfl
  refine decodes_of_fields (fs := o.fields) blank rfl (by simp [fields, Nat.add_assoc]) fun w h => ?_
  obtain ⟨d, a, op, s, t, _⟩ := h.readAll
  obtain ⟨x, i⟩ := slices_literal o.x o.i
  generalize BitVec.ofNat 26 (o.x.toNat * 2 ^ 19 + o.i.toNat) = l at x i ⊢
  have major : slice w 30 26 = 28 * 2 ^ 26 / 2 ^ 26 % 2 ^ 5 := h.rest 30 26 rfl
  have top : slice w 25 25 = 28 * 2 ^ 26 / 2 ^ 25 % 2 ^ 1 := h.rest 25 25 rfl
  have low : slice w 0 0 = 28 * 2 ^ 26 / 2 ^ 0 % 2 ^ 1 := h.rest 0 0 rfl
  have fields : readOpAt w o.c l = o := by rw [readOpAt, d, a, op, s, t, x, i, BitVec.ofNat_toNat, BitVec.ofNat_toNat, BitVec.setWidth_eq, BitVec.setWidth_eq]
  simp [decodeWord, decodeMajor28, major, top, low, fields]

theorem OpRed.decodes (o : OpRed) :
    Decodes (28 * 2 ^ 26 + o.a.toNat * 2 ^ 11 + o.o.toNat * 2 ^ 6 + o.s.toNat * 2 ^ 4 + o.t.toNat * 2 + 1) o.c
      (some (BitVec.ofNat 26 (o.x.toNat * 2 ^ 19 + o.i.toNat))) (.reduction o) := by
  have blank : blankAt [(17, 11), (10, 6), (5, 4), (3, 1)] (28 * 2 ^ 26 + 1) = true := rfl
  refine decodes_of_fields (fs := o.fields) blank rfl (by simp [fields]; omega) fun w h => ?_
  obtain ⟨a, op, s, t, _⟩ := h.readAll
  obtain ⟨x, i⟩ := slices_literal o.x o.i
  generalize BitVec.ofNat 26 (o.x.toNat * 2 ^ 19 + o.i.toNat) = l at x i ⊢
  have major : slice w 30 26 = (28 * 2 ^ 26 + 1) / 2 ^ 26 % 2 ^ 5 := h.rest 30 26 rfl
  have top : slice w 25 25 = (28 * 2 ^ 26 + 1) / 2 ^ 25 % 2 ^ 1 := h.rest 25 25 rfl
  have d : slice w 24 18 = (28 * 2 ^ 26 + 1) / 2 ^ 18 % 2 ^ 7 := h.rest 24 18 rfl
  have low : slice w 0 0 = (28 * 2 ^ 26 + 1) / 2 ^ 0 % 2 ^ 1 := h.rest 0 0 rfl
  have fields : readOpRed w o.c l = o := by rw [readOpRed, a, op, s, t, x, i, BitVec.ofNat_toNat, BitVec.ofNat_toNat, BitVec.setWidth_eq, BitVec.setWidth_eq]
  simp [decodeWord, decodeMajor28, major, top, d, low, fields]

theorem OpMx.decodes (o : OpMx) (encodable : o.f.toNat ≤ 4) :
    Decodes (29 * 2 ^ 26 + (8 + o.f.toNat) * 2 ^ 21 + o.t.toNat * 2 ^ 18 + o.a.toNat * 2 ^ 11 + o.b.toNat * 2 ^ 4) o.c
      (some (BitVec.ofNat 26 (o.x.toNat * 2 ^ 19 + o.y.toNat * 2 ^ 12))) (.mmaMx o) := by
  have blank : blankAt [(23, 21), (20, 18), (17, 11), (10, 4)] (29 * 2 ^ 26 + 8 * 2 ^ 21) = true := rfl
  refine decodes_of_fields (fs := o.fields) blank rfl (by simp [fields]; omega) fun w h => ?_
  obtain ⟨_, t, a, b, _⟩ := h.readAll
  obtain ⟨x, y, rest⟩ := slices_literal_pair o.x o.y
  generalize BitVec.ofNat 26 (o.x.toNat * 2 ^ 19 + o.y.toNat * 2 ^ 12) = l at x y rest ⊢
  have major : slice w 30 26 = (29 * 2 ^ 26 + 8 * 2 ^ 21) / 2 ^ 26 % 2 ^ 5 := h.rest 30 26 rfl
  have top : slice w 25 25 = (29 * 2 ^ 26 + 8 * 2 ^ 21) / 2 ^ 25 % 2 ^ 1 := h.rest 25 25 rfl
  have eight : slice w 24 24 = (29 * 2 ^ 26 + 8 * 2 ^ 21) / 2 ^ 24 % 2 ^ 1 := h.rest 24 24 rfl
  have low : slice w 3 0 = (29 * 2 ^ 26 + 8 * 2 ^ 21) / 2 ^ 0 % 2 ^ 4 := h.rest 3 0 rfl
  have format : slice w 23 21 = o.f.toNat := h.slice_field (f := .bits 23 21 o.f) (List.mem_cons_self ..)
  have xop : slice w 24 21 = 8 + o.f.toNat := (slice_split w 24 23 21 _).mpr ⟨by rw [eight]; omega, by rw [format]; omega⟩
  have notMma : slice w 25 24 = 1 := (slice_split w 25 24 24 1).mpr ⟨top, eight⟩
  have notMmsr : slice w 25 21 = 8 + o.f.toNat := (slice_split w 25 24 21 _).mpr ⟨by rw [top]; omega, by rw [xop]; omega⟩
  have fields : readOpMx w o.c l = o := by
    rw [readOpMx, t, a, b, x, y, xop, Nat.add_sub_cancel_left]
    simp only [BitVec.ofNat_toNat, BitVec.setWidth_eq]
  have notRead : ∀ n, 13 ≤ n → 8 + o.f.toNat ≠ n := fun n _ => by omega
  simp [decodeWord, decodeMajor29, major, top, low, xop, notMma, notMmsr, notRead, rest, fields]
  omega

end Sys2Proof
end

section
/-! Decoding gives back what was encoded (O53), by the format of each instruction and the row that its fixed bits pick; and the words of the spec (O52). -/

namespace Sys2Proof

theorem decode_encode_integer {i : Instr} (pipe : (Machine.shape i).pipe = .i) : decodeAt 0 (encode i) = some (i, (encode i).length) := by
  cases i with
  | iaddI32 o | isubI32 o | imulI32 o | imulhI32 o | imulhN32 o | iabsdI32 o | iaddsI32 o | isubsI32 o =>
    exact o.decodes rfl fun w h => by simp [decodeWord, decodeMajor1, h]
  | iminI32 o | iminN32 o | imaxI32 o | imaxN32 o | iabsI32 o | inegI32 o | iaddsN32 o | isubsN32 o =>
    exact o.decodes rfl fun w h => by simp [decodeWord, decodeMajor2, slice_split w 10 3 1, h]
  | andB32 o | orB32 o | xorB32 o | andnB32 o | ornB32 o | xnorB32 o | notB32 o | movB32 o =>
    exact o.decodes rfl fun w h => by simp [decodeWord, decodeMajor3, slice_split w 10 3 1, h]
  | shlB32 o | shrN32 o | shrI32 o | rolB32 o | popcB32 o | clzB32 o | brevB32 o | ffsB32 o =>
    exact o.decodes rfl fun w h => by simp [decodeWord, decodeMajor4, slice_split w 10 3 1, h]
  | iaddI64 o | isubI64 o | imulI64 o | shlB64 o | shrN64 o | shrI64 o | imulwI32 o | imulwN32 o =>
    exact o.decodes rfl fun w h => by simp [decodeWord, decodeMajor5, h]
  | bfeN32 o | bfeI32 o | bfiB32 o | bswapB32 o | extI8 o | extI16 o | imadI32 o | packB16 o =>
    exact o.decodes rfl fun w h => by simp [decodeWord, decodeMajor6, slice_split w 10 3 1, h]
  | leaB32 o | leaI64 o => exact o.decodes rfl fun w h => by simp [decodeWord, decodeMajor7, h]
  | iaddiI32 o => exact o.decodes rfl fun w h => by simp [decodeWord, decodeMajor8, h]
  | icmpI32 o | icmpN32 o | icmpI64 o | icmpN64 o | pand o | por o | pxor o =>
    exact o.decodes rfl fun w h => by simp [decodeWord, decodeMajor9, h]
  | selB32 o => exact o.decodes rfl fun w h => by simp [decodeWord, decodeMajor10, h]
  | xget o | xlow o | xhigh o | xflip o | gbcast o | pmask o | eqset o | gfirst o =>
    exact o.decodes rfl fun w h => by simp [decodeWord, decodeMajor19, slice_split w 10 3 1, slice_split w 17 3 1, h]
  | gredAddI32 o | gredMinI32 o | gredMaxI32 o | gredAndB32 o | gredOrB32 o | gscanAddI32 o =>
    exact o.decodes rfl fun w h => by simp [decodeWord, decodeMajor20, h]
  | _ => cases pipe

theorem decode_encode_float {i : Instr} (pipe : (Machine.shape i).pipe = .f) : decodeAt 0 (encode i) = some (i, (encode i).length) := by
  cases i with
  | fcmpF32 o | fcmpBf16 o | fcmpF16 o =>
    exact o.decodes rfl fun w h => by simp [decodeWord, decodeMajor9, h]
  | faddF32 o | fsubF32 o | fmulF32 o | fminF32 o | fmaxF32 o | fabsF32 o | fnegF32 o | fcpysgnF32 o =>
    exact o.decodes rfl fun w h => by simp [decodeWord, decodeMajor11, slice_split w 10 3 1, h]
  | ffmaF32Cd o | ffmaF32Cb0 o | ffmaF32Cb1 o | ffmaF32Cb2 o | ffmaF32Cb3 o | ffmaX2bf16Cd o | ffmaX2f16Cd o =>
    exact o.decodes rfl fun w h => by simp [decodeWord, decodeMajor12, h]
  | faddX2bf16 o | fmulX2bf16 o | faddX2f16 o | fmulX2f16 o | fminX2bf16 o | fmaxX2bf16 o | fminX2f16 o | fmaxX2f16 o =>
    exact o.decodes rfl fun w h => by simp [decodeWord, decodeMajor13, h]
  | frcpF32 o | frsqF32 o | fsqrtF32 o | fexp2F32 o | flog2F32 o | fsinF32 o | fcosF32 o | ftanhF32 o =>
    exact o.decodes rfl fun w h => by simp [decodeWord, decodeMajor14, slice_split w 10 3 1, h]
  | frndF32 o | ffractF32 o | fclassF32 o | fsatF32 o | fexpoF32 o =>
    exact o.decodes rfl fun w h => by simp [decodeWord, decodeMajor15, slice_split w 10 3 1, h]
  | cvt o => exact o.decodes rfl fun w h => by simp [decodeWord, decodeMajor16, h]
  | cvtpX2bf16F32 o | cvtpX2f16F32 o | cvtpX4e4m3F32 o | cvtpX4e5m2F32 o | cvtpX8e2m1X4e4m3 o | mxqE4m3 o | mxqE5m2 o | mxqE2m1 o =>
    exact o.decodes rfl fun w h => by simp [decodeWord, decodeMajor17, h]
  | dp4X4i8 o | dp4X4e4m3 o | dp4X4e5m2 o | dp8X8i4 o | dp8X8e2m1 o | dp2X2bf16 o | dp2X2f16 o | fscaleF32 o =>
    exact o.decodes rfl fun w h => by simp [decodeWord, decodeMajor18, h]
  | gredAddF32 o | gscanAddF32 o =>
    exact o.decodes rfl fun w h => by simp [decodeWord, decodeMajor20, h]
  | _ => cases pipe

theorem decode_encode_control {i : Instr} (pipe : (Machine.shape i).pipe = .s) (encodable : i.encodable = true) : decodeAt 0 (encode i) = some (i, (encode i).length) := by
  cases i with
  | br o => exact o.decodes rfl fun w h => by simp [decodeWord, decodeMajor21, h]
  | call o => exact o.decodes rfl fun w h => by simp [decodeWord, decodeMajor22, h]
  | exit o | ret o | brx o | callx o | lpush o | lbrk o | trapW o | bkpt o | rti o | gmark o | gtest o | gaccept o | gdemand o =>
    exact o.decodes rfl fun w h => by
      simp [decodeWord, decodeMajor23, slice_split w 25 24 0, slice_split w 25 24 8, slice_split w 25 24 18, slice_split w 24 17 0, slice_split w 24 17 8, h]
  | dead o =>
    have block : o.k.toNat ≤ 5 := of_decide_eq_true encodable
    exact o.decodes rfl fun w h => by
      simp [decodeWord, decodeMajor23, slice_split w 25 24 0, slice_split w 25 24 8, slice_split w 25 24 18, slice_split w 25 24 21, slice_split w 24 17 0, slice_split w 24 17 8,
        slice_split w 24 20 18, h, block]
  | jmark o | jwait o | jclr o | vany o | vall o | vsame o | barTm o | barCl o | barGd o | bararrTm o | bararrCl o | barwtTm o | barwtCl o =>
    exact o.decodes rfl fun w h => by
      simp [decodeWord, decodeMajor24, slice_split w 25 24 0, slice_split w 25 24 3, slice_split w 25 24 4, slice_split w 25 24 8,
        slice_split w 24 17 0, slice_split w 24 17 3, slice_split w 24 17 4, slice_split w 24 17 8, h]
  | smovRd o | smovWr o | smovV o | sysr o | sysw o | tsr o | cyc o | fflg o | fclr o | slp o | idr o =>
    exact o.decodes rfl fun w h => by
      simp [decodeWord, decodeMajor25, slice_split w 25 24 18, slice_split w 25 24 5, slice_split w 24 17 5, h]
  | _ => cases pipe

theorem decode_encode_memory {i : Instr} (pipe : (Machine.shape i).pipe = .m) (encodable : i.encodable = true) : decodeAt 0 (encode i) = some (i, (encode i).length) := by
  cases i with
  | fence o | vspill o | vfill o | vgrow o | vshrink o =>
    exact o.decodes rfl fun w h => by
      simp [decodeWord, decodeMajor25, slice_split w 25 24 18, slice_split w 25 24 3, slice_split w 25 24 5, slice_split w 25 24 6, slice_split w 24 17 3,
        slice_split w 24 17 5, slice_split w 24 17 6, h]
  | load o | uniformLoad o | prefetch o => exact o.decodes rfl fun w h => by simp [decodeWord, decodeMajor26, h]
  | store o | uniformStore o => exact o.decodes rfl fun w h => by simp [decodeWord, decodeMajor27, h]
  | mma o | mmsrBf16 o | flkrd o | fidrd o => exact o.decodes rfl fun w h => by simp [decodeWord, decodeMajor29, slice_split w 25 24 24, slice_split w 25 24 21, h]
  | ard o | ast o | azero o | arel o | xkick o | owait o | bobjInit o | bobjArrive o | bobjWait o | mcfree o | tqpush o | tqtokRel o | tqtokAcq o | cbset o | cbwait o =>
    exact o.decodes rfl fun w h => by
      simp [decodeWord, decodeMajor30, slice_split w 25 24 21, slice_split w 25 24 18, slice_split w 24 20 18, slice_split w 24 20 0, h]
  | atomic o => exact o.decodes
  | reduction o => exact o.decodes
  | mmaMx o => exact o.decodes (of_decide_eq_true encodable)
  | _ => cases pipe

/-- Settles O53: each word's fields lie apart and are blank in its fixed bits, so that the decoder reads each back, and the rest of the word picks the instruction's row. -/
theorem decodeOfEncode : Obligations.DecodeOfEncode := by
  intro i encodable
  cases pipe : (Machine.shape i).pipe with
  | i => exact decode_encode_integer pipe
  | f => exact decode_encode_float pipe
  | s => exact decode_encode_control pipe encodable
  | m => exact decode_encode_memory pipe encodable
  | none =>
    have both : ((Machine.shape i).pipe == .none && i.encodable) = true := by rw [pipe, encodable]; rfl
    clear pipe encodable
    cases i with
    | nop o => exact o.decodes rfl fun w h => by simp [decodeWord, decodeMajor23, slice_split w 25 24 0, slice_split w 24 17 0, h]
    | _ => cases both

/-- Settles O52: the decoder evaluates each word. -/
theorem decodesSpecWords : Obligations.DecodesSpecWords :=
  ⟨rfl, rfl, rfl, rfl, rfl, rfl, rfl, rfl, rfl, rfl⟩

end Sys2Proof
end

section
/-! The conversion, packing, scaling and dot product words (O6): each is the shared computing word with its function, as `computes_of` says of every such word. -/

namespace Sys2Proof.Machine

/-- Settles O6: a rule of every computing word holds of the words of each claim, and `Computes` is such a rule. -/
theorem conversionsAndDots : Obligations.ConversionsAndDots := by
  have rule : CalcRule Computes := fun hx hd => computes_of hx hd
  exact ⟨conversions_of rule, packing_of rule, scaling_of rule, dots_of rule⟩

end Sys2Proof.Machine
end

section
/-! Steps that every present thread leaves with a trap (O58): a word whose sources cannot be read, one that is illegal where it stands, one that is system software's, and an
access whose address fails a check. -/

namespace Sys2Proof.Machine

/-! Where every present thread takes the same trap. -/

theorem firstTrap_same {α : Type} {l : List α} (h : l ≠ []) (t : Trap) : firstTrap (l.map fun _ => t) = some t := by
  induction l with
  | nil => exact absurd rfl h
  | cons _ r ih =>
    cases r with
    | nil => rfl
    | cons y r =>
      rw [List.map_cons, firstTrap, ih (List.cons_ne_nil y r)]
      simp

/-- Where a step holds no word that replays for the whole group, a trap that each thread takes is what it takes, group-wide or not. -/
theorem fates_same {rs : List Res} {slot : Nat} {m : Word} {t : Trap} (some : m ≠ 0) (joint : jointOf rs slot = none)
    (h : ∀ j ∈ members m, fateOf rs slot j = .trap t) (wide : Bool) : fates wide rs ⟨slot, m⟩ = (members m).map fun j => (j, .trap t) := by
  have each : (members m).map (fun j => (j, fateOf rs slot j)) = (members m).map fun j => (j, Fate.trap t) := List.map_congr_left fun j hj => by rw [h j hj]
  have present : members m ≠ [] := fun e => some (by rw [← maskOf_members m, e]; rfl)
  have first : firstTrap (((members m).map fun j => (j, Fate.trap t)).filterMap fun f => f.2.taken) = .some t := by
    rw [← firstTrap_same present t]
    simp [List.filterMap_map, Fate.taken]
  simp only [fates, joint, together, each, first]
  cases wide with
  | false => rfl
  | true => exact List.map_map

/-- The result of a word that traps in every present thread of its group. -/
def trapRes (slot : Nat) (t : Trap) : List Res := [⟨slot, none, [], [], some t, false⟩]

theorem fates_trapRes {slot : Nat} {m : Word} (some : m ≠ 0) (t : Trap) (wide : Bool) :
    fates wide (trapRes slot t) ⟨slot, m⟩ = (members m).map fun j => (j, .trap t) := by
  refine fates_same some (jointOf_none (by simp [trapRes]) slot) (fun j _ => ?_) wide
  simp [fateOf, trapRes, firstTrap]

/-- The results of a word that traps in each present thread. -/
theorem fates_each_trap {slot : Nat} {m : Word} (some : m ≠ 0) (t : Trap) (wide : Bool) :
    fates wide ((members m).map fun j => (TPlan.trap t).res slot j) ⟨slot, m⟩ = (members m).map fun j => (j, .trap t) := by
  refine fates_same some (jointOf_none ?_ slot) (fun j hj => ?_) wide
  · intro r hr
    obtain ⟨j, _, rfl⟩ := List.mem_map.mp hr
    rfl
  · exact fateOf_leaves (nodup_members m) hj slot (tp := fun _ => .trap t) fun _ => .inr ⟨t, rfl⟩

theorem doneMask_traps (is : List Nat) (c : Nat → Trap) : doneMask (is.map fun j => (j, Fate.trap (c j))) = 0 :=
  doneMask_leave is (tp := fun j => .trap (c j)) fun j => .inr ⟨c j, rfl⟩

/-- A WORD THAT TRAPS IN EVERY PRESENT THREAD, with its results without actions: no result takes effect, the bundle is gone, and the threads take their traps. -/
theorem issue_traps {i : Instr} {s : State} {bid slot : Nat} {b : Bundle} {g : Group} {m : Word} (r : Ready s bid slot b g m) (last : (shape i).c = false)
    {plan : View → Plan} {rs : List Res} (hp : groupPlan (shape i) plan ((shape i).term && !termOk b (shape i).len) (viewAt s b slot g m) = .go rs)
    (acts : ∀ x ∈ rs, x.acts = []) {c : Nat → Trap} (hf : fates (shape i).wide rs ⟨slot, m⟩ = (members m).map fun j => (j, .trap (c j))) :
    ∃ s1, Leaves s s1 bid slot g (fun _ x => x) ∧ issue (shape i) plan s =
      settleAt s.cur.1 slot (trapThreads s1 s.cur.1 slot b.sub ((members m).map fun j => (j, c j)) b.stepPos b.pc) := by
  have whole : doneMask ((members m).map fun j => (j, Fate.trap (c j))) = 0 := doneMask_traps _ c
  have commits : issue (shape i) plan s = commit s s.cur.1 bid { b with uni := b.uni || (shape i).once, segs := [(b.pos, rs.length)] } rs (shape i).wide := by
    unfold issue
    rw [r.runs]
    dsimp only
    rw [if_neg (by simp [r.fresh]), r.view, r.noClash, Bool.false_or, List.map_cons, List.map_nil, hp]
    simp only [planHold, planRes, r.held, r.post, r.segs, r.wide, last, List.flatMap_cons, List.flatMap_nil, List.append_nil, List.nil_append, List.map_nil,
      Bool.false_and, Bool.false_or, Bool.false_eq_true, if_false]
  have again : Machine.replays ((members m).map fun j => (j, Fate.trap (c j))) = [] := by simp [Machine.replays, List.filter_map, Function.comp_def]
  have all : trapsOf ((members m).map fun j => (j, Fate.trap (c j))) = (members m).map fun j => (j, c j) := by simp [trapsOf, List.filterMap_map, Fate.taken]
  have present : (members m).map (fun j => (j, c j)) ≠ [] := fun e => r.some (by rw [← maskOf_members m, List.map_eq_nil_iff.mp e]; rfl)
  refine ⟨_, leaves_of_none r rs, ?_⟩
  rw [commits, commit_finishes r (fun x hx => by rw [acts x hx]; rfl) _ _ _ hf (.inr whole)]
  refine (finishStep_left (b := { b with uni := b.uni || (shape i).once, segs := [(b.pos, rs.length)] }) r.trapped whole rs s s.cur.1 bid).trans ?_
  simp only [again, all, present, if_false, List.foldl_nil]

/-- A word that runs its plan traps in every present thread where its plan does. -/
theorem trapsAll_run {i : Instr} {s : State} {bid slot : Nat} {b : Bundle} {g : Group} {m : Word} (r : Ready s bid slot b g m) (last : (shape i).c = false)
    {plan : View → Plan} (hx : exec i s = .next (issue (shape i) plan s)) {rs : List Res}
    (hp : groupPlan (shape i) plan ((shape i).term && !termOk b (shape i).len) (viewAt s b slot g m) = .go rs)
    (acts : ∀ x ∈ rs, x.acts = []) {cause : Nat} (hf : fates (shape i).wide rs ⟨slot, m⟩ = (members m).map fun j => (j, .trap ⟨cause, 0, 0, b.pos⟩)) :
    TrapsAll i s bid slot b g m cause := by
  obtain ⟨s1, gone, e⟩ := issue_traps (c := fun _ => ⟨cause, 0, 0, b.pos⟩) r last hp acts hf
  exact ⟨_, s1, by rw [hx, e], gone, rfl⟩

/-- What an issuable word plans, where its results have no actions. -/
theorem groupPlan_go {i : Instr} {s : State} {bid slot : Nat} {b : Bundle} {g : Group} {m : Word} (r : Ready s bid slot b g m) (h : Issuable i s b slot g m) {plan : View → Plan}
    {rs : List Res} (hp : plan (viewAt s b slot g m) = .go rs) (acts : ∀ x ∈ rs, x.acts = []) :
    groupPlan (shape i) plan ((shape i).term && !termOk b (shape i).len) (viewAt s b slot g m) = .go rs := by
  have placed : ((shape i).term && !termOk b (shape i).len) = false := by
    cases ht : (shape i).term
    · rfl
    · simp [h.place ht]
  have alone : (viewAt s b slot g m).held = [] := by simp [View.held, viewAt, r.held]
  have counts : overCount g slot rs = [] := overCount_none fun x hx a ha => by rw [acts x hx] at ha; cases ha
  rw [placed, groupPlan_issuable h, hp]
  simp only [Plan.counted, alone, List.nil_append]
  rw [show overCount (viewAt s b slot g m).g (viewAt s b slot g m).slot rs = [] from counts]

/-! Sources that cannot be read (R40, R44). -/

/-- A word of each thread whose checks fail with one cause in every present thread. -/
theorem eachThread_traps {sh : Shape} {f : View → Nat → Thread → TPlan} {v : View} {t : Trap}
    (h : ∀ j ∈ members v.mask, (if !sh.u && sh.srcs.any (srcLost (threadAt v.g j) sh.pipe) then TPlan.trap (trapAt v cLATCH)
      else if !sh.u && deadTraps v.g && sh.srcs.any (srcDead (threadAt v.g j)) then .trap (trapAt v cDEAD)
      else f v j (threadAt v.g j)) = .trap t) :
    eachThread sh f v = .go ((members v.mask).map fun j => (TPlan.trap t).res v.slot j) := by
  have plans : v.present.map (fun j => (j, if !sh.u && sh.srcs.any (srcLost (threadAt v.g j) sh.pipe) then TPlan.trap (trapAt v cLATCH)
      else if !sh.u && deadTraps v.g && sh.srcs.any (srcDead (threadAt v.g j)) then .trap (trapAt v cDEAD)
      else f v j (threadAt v.g j))) = (members v.mask).map fun j => (j, TPlan.trap t) := List.map_congr_left fun j hj => by rw [h j hj]
  have goes : firstHold ((members v.mask).map fun j => (j, TPlan.trap t)) = none := firstHold_none fun x hx w q as e => by
    obtain ⟨j, _, rfl⟩ := List.mem_map.mp hx
    cases e
  simp only [eachThread, plans, goes, List.map_map]
  rfl

/-- A WORD OF EACH THREAD whose sources name a lost latch or a dead register in every present thread. -/
theorem readsTrap_of {i : Instr} {u : Bool} {pipe : Pipe} {srcs : List Src} {plan : Shape → View → Plan} {f : View → Nat → Thread → TPlan}
    (hx : ∀ s, exec i s = run i plan s) (hp : u = false → plan (shape i) = eachThread (shape i) f) (hu : (shape i).u = u) (hs : (shape i).srcs = srcs)
    (pipes : (shape i).pipe = pipe) : ReadsTrap i u pipe srcs := by
  subst hu hs pipes
  intro s bid slot b g m r h thread
  have traps : ∀ cause, (∀ j ∈ members m, (if !(shape i).u && (shape i).srcs.any (srcLost (threadAt g j) (shape i).pipe) then TPlan.trap ⟨6, 0, 0, b.pos⟩
      else if !(shape i).u && deadTraps g && (shape i).srcs.any (srcDead (threadAt g j)) then .trap ⟨5, 0, 0, b.pos⟩
      else f (viewAt s b slot g m) j (threadAt g j)) = .trap ⟨cause, 0, 0, b.pos⟩) → TrapsAll i s bid slot b g m cause := by
    intro cause every
    have goes : plan (shape i) (viewAt s b slot g m) = .go ((members m).map fun j => (TPlan.trap ⟨cause, 0, 0, b.pos⟩).res slot j) := by
      rw [hp thread]
      exact eachThread_traps (v := viewAt s b slot g m) every
    have acts : ∀ x ∈ (members m).map fun j => (TPlan.trap ⟨cause, 0, 0, b.pos⟩).res slot j, x.acts = [] := fun x hx => by
      obtain ⟨j, _, rfl⟩ := List.mem_map.mp hx
      rfl
    exact trapsAll_run r h.last ((hx s).trans (run_eq i plan s r.launch)) (groupPlan_go r h goes acts) acts (fates_each_trap r.some _ _)
  refine ⟨fun lost => traps 6 fun j hj => ?_, fun trapping dead => traps 5 fun j hj => ?_⟩
  · simp [thread, lost j hj]
  · obtain ⟨kept, died⟩ := dead j hj
    have on : deadTraps g = true := trapping
    simp [thread, kept, died, on]

theorem sourceTraps_rule : CalcRule SourceTraps := fun {_ _ mk _ f} hx hd o =>
  readsTrap_of (f := calcThread (shape (mk o)) (f o)) (hx o) (fun thread => by
    funext v
    simp [compute, (hd o).u, thread]) (hd o).u (hd o).srcs (hd o).pipe

theorem compareTraps_rule : CmpRule CompareTraps := fun {mk _ _ f _} hx srcs _ pipes u _ o =>
  readsTrap_of (f := compareThread (shape (mk o)) o.p.toNat (f o)) (hx o) (fun _ => rfl) (u o) (srcs o) (pipes o)

/-- R40 and R44. -/
theorem sourcesTrap : Sys2Proof.Claims.SourcesTrap :=
  ⟨integerArithmetic_of sourceTraps_rule, pairArithmetic_of sourceTraps_rule, logicWords_of sourceTraps_rule, fieldWords_of sourceTraps_rule,
    floatArithmetic_of sourceTraps_rule, floatPacked_of sourceTraps_rule, floatFunctions_of sourceTraps_rule, conversions_of sourceTraps_rule,
    packing_of sourceTraps_rule, scaling_of sourceTraps_rule, dots_of sourceTraps_rule, integerCompares_of compareTraps_rule, floatCompares_of compareTraps_rule⟩

/-! Words that are illegal where they stand, and those of system software (R54, R126). -/

/-- Each word issues with a plan of its own; an event is no word. -/
theorem exec_issues {i : Instr} (word : i.isWord = true) (s : State) : ∃ plan, exec i s = .next (issue (shapeOn s.cur.1 i) plan s) := by
  cases i with
  | _ => first | (cases word; done) | exact ⟨_, rfl⟩

/-- A WORD THAT IS ILLEGAL for its launch, or a terminator out of place: ILLEGAL comes before its waits and its plan. -/
theorem illegal_traps {i : Instr} {s : State} {bid slot : Nat} {b : Bundle} {g : Group} {m : Word} (word : i.isWord = true) (r : Ready s bid slot b g m)
    (last : (shape i).c = false)
    (illegal : (shape i).legal g.win (hdrOf s g.lseq).sregs = false ∨ ((shape i).term = true ∧ termOk b (shape i).len = false)) : TrapsAll i s bid slot b g m 1 := by
  obtain ⟨plan, hx⟩ := exec_issues word s
  rw [shapeOn_launch _ _ r.launch] at hx
  have stops : groupPlan (shape i) plan ((shape i).term && !termOk b (shape i).len) (viewAt s b slot g m) = .go (trapRes slot ⟨1, 0, 0, b.pos⟩) := by
    refine if_pos ?_
    rcases illegal with h | ⟨term, h⟩
    · simp [viewAt, h]
    · simp [term, h]
  exact trapsAll_run r last hx stops (by simp [trapRes]) (fates_trapRes r.some _ _)

/-- A WORD OF SYSTEM SOFTWARE: its plan takes PRIV in every present thread. -/
theorem priv_traps {i : Instr} {s : State} {bid slot : Nat} {b : Bundle} {g : Group} {m : Word} (r : Ready s bid slot b g m) (h : Issuable i s b slot g m)
    {plan : Shape → View → Plan} (hx : exec i s = run i plan s) (priv : plan (shape i) (viewAt s b slot g m) = privPlan (viewAt s b slot g m)) :
    TrapsAll i s bid slot b g m 2 :=
  trapsAll_run r h.last (hx.trans (run_eq i plan s r.launch)) (groupPlan_go r h (rs := trapRes slot ⟨2, 0, 0, b.pos⟩) priv (by simp [trapRes])) (by simp [trapRes])
    (fates_trapRes r.some _ _)

theorem sysScope_system {n : Nat} (h : 0x100 ≤ n) : sysScope n = 3 := by
  have past : ∀ k, k < 0x100 → ¬ n ≤ k := fun k _ => by omega
  simp [sysScope, past, h, show n ≠ 0x40 by omega]

/-- A register of system software takes PRIV on a launch's core. -/
theorem sysr_plans {o : OpSys} (system : 0x100 ≤ o.n.toNat) :
    ∃ plan, (∀ s, execSysr o s = run (.sysr o) plan s) ∧ ∀ sh v, isControl v.k = false → plan sh v = privPlan v := by
  refine ⟨_, fun _ => rfl, fun sh v launch => ?_⟩
  simp [sysScope_system system, launch]

theorem sysw_plans {o : OpSys} (system : 0x100 ≤ o.n.toNat) :
    ∃ plan, (∀ s, execSysw o s = run (.sysw o) plan s) ∧ ∀ sh v, isControl v.k = false → plan sh v = privPlan v := by
  refine ⟨_, fun _ => rfl, fun sh v launch => ?_⟩
  simp [sysScope_system system, launch]

/-- R54, R55 and R126. -/
theorem wordTraps : Sys2Proof.Claims.WordTraps := by
  refine ⟨fun i s bid slot b g m word r last illegal => illegal_traps word r last illegal, fun o s bid slot b g m r system => ?_⟩
  obtain ⟨reads, hr, readPriv⟩ := sysr_plans system
  obtain ⟨writes, hw, writePriv⟩ := sysw_plans system
  exact ⟨fun h => priv_traps r h (hr s) (readPriv _ _ r.launch), fun h => priv_traps r h (hw s) (writePriv _ _ r.launch)⟩

/-! Accesses whose address fails a check (R235). -/

/-- A load of no guess, and with no late entry, whose address fails a check. -/
theorem loadPlan_traps {o : OpLd} {v : View} {thr : Option Nat} {base : In} {rpl : Bool} {cause : Nat} (late : lateEntries v thr = []) (known : base.pen = false)
    (fails : checked v thr 0 false o.s.toNat (effAddr o.s.toNat base.val (litInt o.lit)) (tyBytes o.t.toNat) (tyAlign o.t.toNat) = .trap cause) :
    loadPlan o v thr base rpl = .trap (trapEa v cause (effAddr o.s.toNat base.val (litInt o.lit))) := by
  have none : lateValue v thr (effAddr o.s.toNat base.val (litInt o.lit)) = Option.none := by rw [lateValue, late]; rfl
  simp only [loadPlan, none, known, fails, proceed]
  rfl

theorem storePlan_traps {o : OpSt} {v : View} {thr : Option Nat} {base data : In} {cause : Nat}
    (fails : checked v thr 1 false o.s.toNat (effAddr o.s.toNat base.val (litInt o.lit)) (tyBytes o.t.toNat) (tyAlign o.t.toNat) = .trap cause) :
    storePlan o v thr base data = .trap (trapEa v cause (effAddr o.s.toNat base.val (litInt o.lit))) := by
  simp only [storePlan, fails, proceed]

/-- A certainty point with no guess unresolved or refuted lets a trap be taken. -/
theorem certainly_trap {v : View} {j : Nat} {t : Thread} (sure : unresolved v.c v.g j = false ∧ t.rf = false) (pen : Bool) (x : Trap) :
    certainly v j t pen (.trap x) = .trap x := by
  obtain ⟨resolved, kept⟩ := sure
  simp only [certainly, resolved, kept, TPlan.first, Bool.false_eq_true, if_false, ite_self]

/-- R55, R209 and R235. -/
theorem accessTraps : Sys2Proof.Claims.AccessTraps := by
  refine ⟨fun o s bid slot b g m cause r h hr fails => ?_, fun o s bid slot b g m cause r h hr calm fails => ?_⟩
  · have hx : exec (.load o) s = run (.load o) (fun sh => eachThread sh fun v i t => loadPlan o v (some i) (readBase v (some i) (baseSrc o.s o.a)) t.rpl) s := rfl
    rw [hx]
    exact each_traps (c := fun j => ⟨cause j, 0, BitVec.ofNat 64 (effAddr o.s.toNat (readBase (viewAt s b slot g m) (some j) (baseSrc o.s o.a)).val (litInt o.lit)), b.pos⟩)
      r h hr rfl rfl fun j hj => by
        obtain ⟨known, late, trap⟩ := fails j hj
        exact loadPlan_traps late known trap
  · have hx : exec (.store o) s = run (.store o) (fun sh => eachThread sh fun v i t =>
        certainly v i t ((readBase v (some i) (baseSrc o.s o.a)).pen || (readSrc v.g i t none .m (storeSrc o)).pen)
          (storePlan o v (some i) (readBase v (some i) (baseSrc o.s o.a)) (readSrc v.g i t none .m (storeSrc o)))) s := rfl
    rw [hx]
    exact each_traps (c := fun j => ⟨cause j, 0, BitVec.ofNat 64 (effAddr o.s.toNat (readBase (viewAt s b slot g m) (some j) (baseSrc o.s o.a)).val (litInt o.lit)), b.pos⟩)
      r h hr rfl rfl fun j hj => by
        rw [storePlan_traps (fails j hj)]
        exact certainly_trap (v := viewAt s b slot g m) (calm j hj) _ _

/-- Settles O58: where every present thread takes a trap no result of the step takes effect. -/
theorem traps : Obligations.Traps := ⟨sourcesTrap, wordTraps, accessTraps⟩

end Sys2Proof.Machine
end


section
/-! O10 fails at ThreadEnds. A launch whose last team ends completes unless it is to be taken again (R354, R394), and the model looks for the number that the launch itself
carries among those to be taken again; ThreadEnds asks only that the number under which it is listed is not among them. Where a launch is listed under another number than its
own, and its own is to be taken again, its last team ends and it does not complete. A hypothesis that the launch carries the number under which it is listed would exclude it. -/

namespace Sys2Proof.Machine

/-- A group of which thread 0 alone has not ended. -/
def lastThread : Group := { placedGroup with threads := Thread.start :: List.replicate 31 { Thread.start with ended := true } }

/-- A launch that is listed under number 1 and carries number 2. -/
def misnumbered : Launch := { placedLaunch with lseq := 2 }

/-- A machine in which the last thread of that launch's one team has not ended, and launch 2 is to be taken again. -/
def retaken : State :=
  { State.reset with
    cores := [(0, { Core.start with ctx := { Ctx.empty with groups := [(0, lastThread)] } })]
    teams := [(1, placedTeam)]
    launches := [(1, misnumbered)]
    retake := [2] }

/-- The launch once its last thread has ended: its team is counted, and it has neither completed nor tried to. -/
theorem retaken_waits : launchAt (doAct retaken 0 0 0 1 (some 0) 0 .exit) 1 = some { misnumbered with endedTeams := 1, flk := [(0, 0), (1, 0), (2, 0), (3, 0)] } := by decide +kernel

theorem lastThread_last : ¬((∃ j < 32, j ≠ 0 ∧ (threadAt lastThread j).ended = false) ∨ ∃ cls, (cls = 1 ∨ cls = 2 ∨ cls = 3) ∧ opCount lastThread cls ≠ 0) := by
  rintro (⟨j, low, other, goesOn⟩ | ⟨cls, _, some⟩)
  · have ended : ∀ j < 32, j ≠ 0 → (threadAt lastThread j).ended = true := by decide
    rw [ended j low other] at goesOn
    cases goesOn
  · exact some rfl

theorem not_threadEnds : ¬ Sys2Proof.Claims.ThreadEnds := by
  intro ends
  have alone : ∀ q ∈ (coreAt retaken 0).ctx.groups, q.2.team = lastThread.team → q.1 = 0 := by decide
  have rising : Rising (coreAt retaken 0).ctx.groups := List.pairwise_singleton _ _
  obtain ⟨_, _, leaves⟩ := ends retaken 0 0 0 0 1 0 lastThread rfl rfl (by decide) rising
  obtain ⟨_, last⟩ := leaves lastThread_last
  obtain ⟨_, completes⟩ := last placedTeam rfl rfl rfl
  obtain ⟨_, _, launch⟩ := completes alone (by decide)
  obtain ⟨x, listed, _, done⟩ := launch misnumbered (by decide) rfl (List.pairwise_singleton _ _)
  obtain ⟨_, completed⟩ := done rfl rfl (by decide) rfl rfl rfl rfl
  obtain rfl := Option.some.inj (listed.symm.trans retaken_waits)
  exact absurd completed (by decide)

/-- Refutes O10: a launch listed under another number than its own does not complete with its last team where its own number is to be taken again. -/
theorem not_transfers : ¬ Obligations.Transfers := fun ⟨_, _, _, ends⟩ => not_threadEnds ends

end Sys2Proof.Machine
end

section
/-! The release check of a rejoin mask (R203): what it makes of the bundles of a core and of its group. -/

namespace Sys2Proof.Machine

/-! Bundles released at one place merge into the first of them. -/

/-- Whether two bundles are released at one mask, at one packet and word. -/
def meet (slot k : Nat) (b x : Bundle) : Bool := releasedAt slot k b && releasedAt slot k x && x.pc == b.pc && x.stepPos == b.stepPos && x.sub == b.sub

/-- A bundle with the threads of another. -/
def absorb (x b : Bundle) : Bundle := { x with parts := joinParts x.parts b.parts, done := joinParts x.done b.done }

/-- One more bundle among those merged so far. -/
def mergeOne (slot k : Nat) (acc : Tab Bundle) (e : Nat × Bundle) : Tab Bundle :=
  match lfind (fun x => meet slot k e.2 x.2) acc with
  | some (a, x) => tput acc a (absorb x e.2)
  | none => acc ++ [e]

theorem mergeReleased_cons (slot k : Nat) (e : Nat × Bundle) (r acc : Tab Bundle) : mergeReleased slot k (e :: r) acc = mergeReleased slot k r (mergeOne slot k acc e) := by
  show (match lfind (fun x => meet slot k e.2 x.2) acc with
    | some (a, x) => mergeReleased slot k r (tput acc a (absorb x e.2))
    | none => mergeReleased slot k r (acc ++ [e])) = _
  unfold mergeOne
  split <;> rfl

section
variable {slot k : Nat}

theorem meet_iff {b x : Bundle} : meet slot k b x = true ↔
    releasedAt slot k b = true ∧ releasedAt slot k x = true ∧ (x.pc, x.stepPos, x.sub) = (b.pc, b.stepPos, b.sub) := by
  simp [meet, and_assoc]

theorem meet_symm {b x : Bundle} (h : meet slot k b x = true) : meet slot k x b = true := by
  obtain ⟨hb, hx, place⟩ := meet_iff.mp h
  exact meet_iff.mpr ⟨hx, hb, place.symm⟩

theorem meet_trans {b x y : Bundle} (h : meet slot k b x = true) (h' : meet slot k x y = true) : meet slot k b y = true := by
  obtain ⟨hb, _, place⟩ := meet_iff.mp h
  obtain ⟨_, hy, place'⟩ := meet_iff.mp h'
  exact meet_iff.mpr ⟨hb, hy, place'.trans place⟩

theorem any_joinPart (ps : List Part) (q : Part) (n : Nat) : (joinPart ps q).any (·.slot == n) = (ps.any (·.slot == n) || q.slot == n) := by
  induction ps with
  | nil => simp [joinPart]
  | cons p r ih =>
    simp only [joinPart]
    split
    · next same => simp [same, Bool.or_comm]
    · split
      · simp [Bool.or_comm]
      · simp [ih, Bool.or_assoc]

theorem any_joinParts (ps qs : List Part) (n : Nat) : (joinParts ps qs).any (·.slot == n) = (ps.any (·.slot == n) || qs.any (·.slot == n)) := by
  induction qs generalizing ps with
  | nil => simp [joinParts]
  | cons q r ih => rw [joinParts, List.foldl_cons, ← joinParts, ih, any_joinPart, List.any_cons, Bool.or_assoc]

theorem releasedAt_absorb {x : Bundle} (h : releasedAt slot k x = true) (b : Bundle) : releasedAt slot k (absorb x b) = true := by
  simp only [releasedAt, Bundle.has, absorb, any_joinParts, Bool.and_eq_true, Bool.or_eq_true] at h ⊢
  exact ⟨⟨h.1.1, .inl h.1.2⟩, .inl h.2⟩

/-- A bundle that takes in another stands where it stood. -/
theorem meet_absorb {x : Bundle} (h : releasedAt slot k x = true) (b y : Bundle) : meet slot k y (absorb x b) = meet slot k y x := by
  rw [Bool.eq_iff_iff, meet_iff, meet_iff, h, releasedAt_absorb h]
  rfl

theorem absorb_meet {x : Bundle} (h : releasedAt slot k x = true) (b y : Bundle) : meet slot k (absorb x b) y = meet slot k x y := by
  rw [Bool.eq_iff_iff, meet_iff, meet_iff, h, releasedAt_absorb h]
  rfl

/-! Keys of a table. -/

theorem keys_tput {α : Type} {t : Tab α} (rising : Rising t) {n : Nat} {x : α} (h : (n, x) ∈ t) (y : α) : (tput t n y).map (·.1) = t.map (·.1) := by
  induction t with
  | nil => cases h
  | cons e r ih =>
    obtain ⟨i, z⟩ := e
    simp only [Rising, List.map_cons, List.pairwise_cons] at rising
    rcases List.mem_cons.mp h with e | h
    · obtain ⟨rfl, rfl⟩ := Prod.mk.inj e
      simp [tput]
    · have below : i < n := rising.1 n (List.mem_map.mpr ⟨_, h, rfl⟩)
      simp [tput, show ¬ n < i by omega, show i ≠ n by omega, ih rising.2 h]

theorem Rising.append_left {α : Type} {t u : Tab α} (h : Rising (t ++ u)) : Rising t := by
  rw [Rising, List.map_append, List.pairwise_append] at h
  exact h.1

theorem tfind_none {α : Type} {t : Tab α} {n : Nat} (h : ∀ e ∈ t, e.1 ≠ n) : tfind t n = none := by
  cases found : tfind t n with
  | none => rfl
  | some x => exact absurd rfl (h _ (tfind_mem t n x found))

/-! What merging keeps. -/

/-- No two bundles of a table are released at one place. -/
def Apart (slot k : Nat) (t : Tab Bundle) : Prop := ∀ p ∈ t, ∀ q ∈ t, meet slot k p.2 q.2 = true → p.1 = q.1

/-- One more bundle merges into one of those so far, or stands after them. -/
theorem mergeOne_cases (acc : Tab Bundle) (e : Nat × Bundle) :
    (∃ a x, (a, x) ∈ acc ∧ meet slot k e.2 x = true ∧ mergeOne slot k acc e = tput acc a (absorb x e.2)) ∨
    (∀ p ∈ acc, meet slot k e.2 p.2 = false) ∧ mergeOne slot k acc e = acc ++ [e] := by
  unfold mergeOne
  cases found : lfind (fun x => meet slot k e.2 x.2) acc with
  | some p =>
    obtain ⟨within, same⟩ := lfind_some found
    exact .inl ⟨p.1, p.2, within, same, rfl⟩
  | none =>
    refine .inr ⟨fun p hp => Bool.eq_false_iff.mpr fun same => ?_, rfl⟩
    have some : (lfind (fun x => meet slot k e.2 x.2) acc).isSome = true := by rw [lfind_isSome]; exact List.any_eq_true.mpr ⟨p, hp, same⟩
    rw [found] at some
    cases some

theorem mergeOne_rising {acc r : Tab Bundle} {e : Nat × Bundle} (rising : Rising (acc ++ e :: r)) : Rising (mergeOne slot k acc e ++ r) := by
  rcases mergeOne_cases (slot := slot) (k := k) acc e with ⟨a, x, within, _, eq⟩ | ⟨_, eq⟩
  · rw [eq, Rising, List.map_append, keys_tput rising.append_left within, ← List.map_append]
    refine rising.sublist (List.Sublist.map _ (List.Sublist.append_left (List.sublist_cons_self e r) acc))
  · rw [eq, List.append_assoc]
    exact rising

theorem mem_mergeOne {acc : Tab Bundle} {e p : Nat × Bundle} (h : p ∈ mergeOne slot k acc e) :
    p ∈ acc ∨ p = e ∨ ∃ x, (p.1, x) ∈ acc ∧ meet slot k e.2 x = true ∧ p.2 = absorb x e.2 := by
  rcases mergeOne_cases (slot := slot) (k := k) acc e with ⟨a, x, within, same, eq⟩ | ⟨_, eq⟩
  · rw [eq] at h
    rcases mem_tput h with rfl | h
    · exact .inr (.inr ⟨x, within, same, rfl⟩)
    · exact .inl h
  · rw [eq] at h
    rcases List.mem_append.mp h with h | h
    · exact .inl h
    · exact .inr (.inl (List.mem_singleton.mp h))

/-- The places at which bundles are merged so far are those of the bundles seen. -/
theorem meet_mergeOne {acc : Tab Bundle} (rising : Rising acc) (e : Nat × Bundle) (b : Bundle) :
    (∃ p ∈ mergeOne slot k acc e, meet slot k b p.2 = true) ↔ (∃ p ∈ acc, meet slot k b p.2 = true) ∨ meet slot k b e.2 = true := by
  constructor
  · rintro ⟨p, hp, same⟩
    rcases mem_mergeOne hp with h | rfl | ⟨x, within, same', eq⟩
    · exact .inl ⟨p, h, same⟩
    · exact .inr same
    · rw [eq, meet_absorb (meet_iff.mp same').2.1] at same
      exact .inl ⟨_, within, same⟩
  · rcases mergeOne_cases (slot := slot) (k := k) acc e with ⟨a, x, within, same', eq⟩ | ⟨_, eq⟩
    · have listed : (a, absorb x e.2) ∈ mergeOne slot k acc e := eq ▸ tfind_mem _ _ _ (tfind_tput_same ..)
      have released := (meet_iff.mp same').2.1
      rintro (⟨p, hp, same⟩ | same)
      · by_cases here : p.1 = a
        · have : p.2 = x := Option.some.inj ((rising.find (n := a) (by rw [← here]; exact hp)).symm.trans (rising.find within))
          exact ⟨_, listed, by rw [meet_absorb released, ← this]; exact same⟩
        · refine ⟨p, ?_, same⟩
          rw [eq]
          exact tfind_mem _ _ _ ((tfind_tput_ne acc here _).trans (rising.find hp))
      · exact ⟨_, listed, by rw [meet_absorb released]; exact meet_trans same same'⟩
    · rw [eq]
      rintro (⟨p, hp, same⟩ | same)
      · exact ⟨p, List.mem_append_left _ hp, same⟩
      · exact ⟨e, List.mem_append_right _ (List.mem_singleton_self _), same⟩

theorem mergeOne_apart {acc : Tab Bundle} {e : Nat × Bundle} (apart : Apart slot k acc) : Apart slot k (mergeOne slot k acc e) := by
  rcases mergeOne_cases (slot := slot) (k := k) acc e with ⟨a, x, within, same', eq⟩ | ⟨free, eq⟩
  · have released := (meet_iff.mp same').2.1
    rw [eq]
    intro p hp q hq same
    rcases mem_tput hp with rfl | oldP <;> rcases mem_tput hq with rfl | oldQ
    · rfl
    · exact apart (a, x) within q oldQ (by rwa [absorb_meet released] at same)
    · exact apart p oldP (a, x) within (by rwa [meet_absorb released] at same)
    · exact apart p oldP q oldQ same
  · rw [eq]
    intro p hp q hq same
    rcases List.mem_append.mp hp with oldP | newP <;> rcases List.mem_append.mp hq with oldQ | newQ
    · exact apart p oldP q oldQ same
    · obtain rfl := List.mem_singleton.mp newQ
      have same := meet_symm same
      rw [free p oldP] at same
      cases same
    · obtain rfl := List.mem_singleton.mp newP
      rw [free q oldQ] at same
      cases same
    · rw [List.mem_singleton.mp newP, List.mem_singleton.mp newQ]

/-- A bundle that takes in those of a list that are released where it is. -/
def gatherMet (slot k : Nat) (x : Bundle) (r : Tab Bundle) : Bundle := r.foldl (fun y e => if meet slot k e.2 x then absorb y e.2 else y) x

/-- A bundle among those merged so far takes in those that follow at its place. -/
theorem tfind_merged {L : Tab Bundle} : ∀ {acc : Tab Bundle} {bid : Nat} {x y : Bundle}, Rising (acc ++ L) → Apart slot k acc → (bid, y) ∈ acc →
    (∀ b, meet slot k b y = meet slot k b x) →
    tfind (mergeReleased slot k L acc) bid = some (L.foldl (fun y e => if meet slot k e.2 x then absorb y e.2 else y) y) := by
  induction L with
  | nil => intro acc bid x y rising _ within _; exact rising.append_left.find within
  | cons e r ih =>
    intro acc bid x y rising apart within place
    rw [mergeReleased_cons, List.foldl_cons]
    refine ih (mergeOne_rising rising) (mergeOne_apart apart) ?_ ?_
    · rcases mergeOne_cases (slot := slot) (k := k) acc e with ⟨a, z, within', same', eq⟩ | ⟨free, eq⟩
      · rw [eq]
        by_cases here : bid = a
        · subst here
          obtain rfl : z = y := Option.some.inj ((rising.append_left.find within').symm.trans (rising.append_left.find within))
          rw [← place, same']
          exact tfind_mem _ _ _ (tfind_tput_same ..)
        · have other : meet slot k e.2 x = false := Bool.eq_false_iff.mpr fun same => here (apart _ within _ within' (meet_trans (meet_symm (by rw [place]; exact same)) same'))
          rw [other]
          exact tfind_mem _ _ _ ((tfind_tput_ne acc here _).trans (rising.append_left.find within))
      · rw [← place, free _ within, eq]
        exact List.mem_append_left _ within
    · intro b
      split
      · next same =>
        rw [← place] at same
        rw [meet_absorb (meet_iff.mp same).2.1, place]
      · exact place b

theorem tfind_merged_none {L : Tab Bundle} : ∀ {acc : Tab Bundle} {bid : Nat}, Rising (acc ++ L) → (∀ e ∈ acc ++ L, e.1 ≠ bid) →
    tfind (mergeReleased slot k L acc) bid = none := by
  induction L with
  | nil => intro acc bid _ other; exact tfind_none fun e he => other e (List.mem_append_left _ he)
  | cons e r ih =>
    intro acc bid rising other
    rw [mergeReleased_cons]
    refine ih (mergeOne_rising rising) fun p hp => ?_
    rcases List.mem_append.mp hp with hp | hp
    · rcases mem_mergeOne hp with h | rfl | ⟨x, within, _, _⟩
      · exact other p (List.mem_append_left _ h)
      · exact other p (List.mem_append_right _ (List.mem_cons_self ..))
      · exact other (p.1, x) (List.mem_append_left _ within)
    · exact other p (List.mem_append_right _ (List.mem_cons_of_mem _ hp))

/-- MERGING: a bundle at whose place an earlier one is released is gone, and any other takes in those that follow at its place. -/
theorem tfind_mergeReleased {L : Tab Bundle} : ∀ {acc : Tab Bundle} {bid : Nat} {b : Bundle}, Rising (acc ++ L) → Apart slot k acc → (bid, b) ∈ L →
    ((∃ p ∈ acc, meet slot k b p.2 = true) ∨ (∃ p ∈ L, p.1 < bid ∧ meet slot k b p.2 = true) → tfind (mergeReleased slot k L acc) bid = none) ∧
    ((∀ p ∈ acc, meet slot k b p.2 = false) → (∀ p ∈ L, p.1 < bid → meet slot k b p.2 = false) →
      tfind (mergeReleased slot k L acc) bid = some (gatherMet slot k b (L.filter fun p => decide (bid < p.1)))) := by
  induction L with
  | nil => intro acc bid b _ _ h; cases h
  | cons e r ih =>
    intro acc bid b rising apart within
    have split := rising
    rw [Rising, List.map_append, List.map_cons, List.pairwise_append, List.pairwise_cons] at split
    obtain ⟨_, ⟨above, _⟩, below⟩ := split
    have above' : ∀ p ∈ r, e.1 < p.1 := fun p hp => above p.1 (List.mem_map_of_mem hp)
    have below' : ∀ p ∈ acc, p.1 < e.1 := fun p hp => below p.1 (List.mem_map_of_mem hp) e.1 (List.mem_cons_self ..)
    rw [mergeReleased_cons]
    rcases List.mem_cons.mp within with rfl | within
    · have first : ¬ ∃ p ∈ (bid, b) :: r, p.1 < bid ∧ meet slot k b p.2 = true := by
        rintro ⟨p, hp, low, _⟩
        rcases List.mem_cons.mp hp with rfl | hp
        · exact lt_irrefl _ low
        · exact lt_asymm low (above' p hp)
      constructor
      · rintro (⟨p, hp, same⟩ | h)
        · refine tfind_merged_none (mergeOne_rising rising) fun q hq => ?_
          rcases List.mem_append.mp hq with hq | hq
          · rcases mergeOne_cases (slot := slot) (k := k) acc (bid, b) with ⟨a, x, within', _, eq⟩ | ⟨free, _⟩
            · rw [eq] at hq
              rcases mem_tput hq with rfl | hq
              · exact (below' _ within').ne
              · exact (below' q hq).ne
            · rw [free p hp] at same
              cases same
          · exact (above' q hq).ne'
        · exact absurd h first
      · intro free _
        have eq : mergeOne slot k acc (bid, b) = acc ++ [(bid, b)] := by
          rcases mergeOne_cases (slot := slot) (k := k) acc (bid, b) with ⟨a, x, within', same', _⟩ | ⟨_, eq⟩
          · rw [free _ within'] at same'
            cases same'
          · exact eq
        have later : ((bid, b) :: r).filter (fun p => decide (bid < p.1)) = r := by
          rw [List.filter_cons_of_neg (by simp), List.filter_eq_self]
          exact fun p hp => decide_eq_true (above' p hp)
        rw [later]
        exact tfind_merged (mergeOne_rising rising) (mergeOne_apart apart) (by rw [eq]; exact List.mem_append_right _ (List.mem_singleton_self _)) fun _ => rfl
    · have low : e.1 < bid := above' _ within
      obtain ⟨gone, stays⟩ := ih (mergeOne_rising rising) (mergeOne_apart apart) within
      have seen := meet_mergeOne (slot := slot) (k := k) rising.append_left e b
      constructor
      · rintro (h | ⟨p, hp, before, same⟩)
        · exact gone (.inl (seen.mpr (.inl h)))
        · rcases List.mem_cons.mp hp with rfl | hp
          · exact gone (.inl (seen.mpr (.inr same)))
          · exact gone (.inr ⟨p, hp, before, same⟩)
      · intro free before
        rw [List.filter_cons_of_neg (by simpa using low.le)]
        refine stays (fun p hp => Bool.eq_false_iff.mpr fun same => ?_) fun p hp => before p (List.mem_cons_of_mem _ hp)
        rcases seen.mp ⟨p, hp, same⟩ with ⟨q, hq, same⟩ | same
        · rw [free q hq] at same
          cases same
        · rw [before e (List.mem_cons_self ..) low] at same
          cases same

end
end Sys2Proof.Machine
end

section
/-! Bundles go on from a rejoin mask, and their threads lose their latches (R40, R203). -/

namespace Sys2Proof.Machine

section
variable {slot k : Nat}

/-- A bundle of one group alone that parks at a rejoin mask, once its threads are released. -/
structure ReleasedAlone (slot k : Nat) (b : Bundle) (m : Word) : Prop where
  wait : b.wait = some (.jwait k)
  parts : b.parts = [⟨slot, m⟩]
  done : b.done = [⟨slot, 0⟩]

theorem absorb_alone {x b : Bundle} {m n : Word} (hx : ReleasedAlone slot k x m) (hb : ReleasedAlone slot k b n) : absorb x b = { x with parts := [⟨slot, m ||| n⟩] } := by
  have parts : joinParts x.parts b.parts = [⟨slot, m ||| n⟩] := by rw [hx.parts, hb.parts]; simp [joinParts, joinPart]
  have done : joinParts x.done b.done = x.done := by rw [hx.done, hb.done]; simp [joinParts, joinPart]
  rw [absorb, parts, done]

theorem hasBit_or (m n : Word) (j : Nat) : hasBit (m ||| n) j = (hasBit m j || hasBit n j) := BitVec.getLsbD_or

/-- Bundles of one group alone that are released at one place go on as one, with the threads of all. -/
theorem gatherMet_alone {r : Tab Bundle} {x : Bundle} {m : Word} (alone : ReleasedAlone slot k x m)
    (others : ∀ e ∈ r, meet slot k e.2 x = true → ∃ n, ReleasedAlone slot k e.2 n) :
    ∃ n, gatherMet slot k x r = { x with parts := [⟨slot, n⟩] } ∧
      ∀ j, hasBit n j = true ↔ hasBit m j = true ∨ ∃ e ∈ r, meet slot k e.2 x = true ∧ ∃ p ∈ e.2.parts, hasBit p.mask j = true := by
  suffices gathers : ∀ (r : Tab Bundle) (y : Bundle) (m : Word), y = { x with parts := [⟨slot, m⟩] } → ReleasedAlone slot k y m →
      (∀ e ∈ r, meet slot k e.2 x = true → ∃ n, ReleasedAlone slot k e.2 n) →
      ∃ n, r.foldl (fun y e => if meet slot k e.2 x then absorb y e.2 else y) y = { x with parts := [⟨slot, n⟩] } ∧
        ∀ j, hasBit n j = true ↔ hasBit m j = true ∨ ∃ e ∈ r, meet slot k e.2 x = true ∧ ∃ p ∈ e.2.parts, hasBit p.mask j = true from
    gathers r x m (by rw [← alone.parts]) alone others
  clear alone others m r
  intro r
  induction r with
  | nil => intro y m eq _ _; exact ⟨m, eq, by simp⟩
  | cons e r ih =>
    intro y m eq alone others
    rw [List.foldl_cons]
    cases same : meet slot k e.2 x with
    | false =>
      obtain ⟨n, fold, bits⟩ := ih y m eq alone fun q hq => others q (List.mem_cons_of_mem _ hq)
      exact ⟨n, fold, fun j => by rw [bits j]; simp [same]⟩
    | true =>
      obtain ⟨n', alone'⟩ := others e (List.mem_cons_self ..) same
      have taken := absorb_alone alone alone'
      obtain ⟨n, fold, bits⟩ := ih (absorb y e.2) (m ||| n') (by rw [taken, eq]) (by rw [taken]; exact ⟨alone.wait, rfl, alone.done⟩)
        fun q hq => others q (List.mem_cons_of_mem _ hq)
      exact ⟨n, fold, fun j => by rw [bits j, hasBit_or]; simp [same, alone'.parts, or_assoc]⟩

/-! The release of a group's threads. -/

/-- Whether a bundle parks at mask k with threads of a slot. -/
def waitsAt (slot k : Nat) (b : Bundle) : Prop := b.wait = some (.jwait k) ∧ ∃ p ∈ b.parts, p.slot = slot

theorem has_iff (b : Bundle) : b.has slot = true ↔ ∃ p ∈ b.parts, p.slot = slot := by simp [Bundle.has]

theorem releaseJ_of_waits {b : Bundle} (h : waitsAt slot k b) : releaseJ slot k b = { b with done := joinPart b.done ⟨slot, 0⟩ } := by
  have has := (has_iff b).mpr h.2
  simp [releaseJ, h.1, has]

theorem releaseJ_of_not {b : Bundle} (h : ¬ waitsAt slot k b) : releaseJ slot k b = b := by
  have off : ¬ (b.wait = some (.jwait k) ∧ b.has slot = true) := fun ⟨wait, has⟩ => h ⟨wait, (has_iff b).mp has⟩
  simp only [releaseJ, Bool.and_eq_true, decide_eq_true_eq, off, if_false]

@[simp] theorem releaseJ_parts (b : Bundle) : (releaseJ slot k b).parts = b.parts := by unfold releaseJ; split <;> rfl
@[simp] theorem releaseJ_wait (b : Bundle) : (releaseJ slot k b).wait = b.wait := by unfold releaseJ; split <;> rfl
@[simp] theorem releaseJ_place (b : Bundle) : ((releaseJ slot k b).pc, (releaseJ slot k b).stepPos, (releaseJ slot k b).sub) = (b.pc, b.stepPos, b.sub) := by
  unfold releaseJ; split <;> rfl

/-- The threads of a slot are released in just the bundles that park there. -/
theorem releasedAt_releaseJ (b : Bundle) : releasedAt slot k (releaseJ slot k b) = true ↔ waitsAt slot k b := by
  constructor
  · intro h
    simp only [releasedAt, Bool.and_eq_true, beq_iff_eq, releaseJ_wait, has_iff, releaseJ_parts] at h
    exact ⟨h.1.1, h.1.2⟩
  · intro h
    have has : (releaseJ slot k b).has slot = true := (has_iff _).mpr (by rw [releaseJ_parts]; exact h.2)
    have noted : (releaseJ slot k b).done.any (·.slot == slot) = true := by rw [releaseJ_of_waits h]; simp [any_joinPart]
    rw [releasedAt, has, noted, releaseJ_wait, h.1]
    simp

theorem meet_releaseJ (b x : Bundle) : meet slot k (releaseJ slot k b) (releaseJ slot k x) = true ↔
    waitsAt slot k b ∧ waitsAt slot k x ∧ (x.pc, x.stepPos, x.sub) = (b.pc, b.stepPos, b.sub) := by
  rw [meet_iff, releasedAt_releaseJ, releasedAt_releaseJ, releaseJ_place, releaseJ_place]

/-! Bundles that go on. -/

theorem loseParts_bundles (ps : List Part) (c : Core) : (loseParts c ps).ctx.bundles = c.ctx.bundles := by
  induction ps generalizing c with
  | nil => rfl
  | cons p r ih => exact ih (losePart c p)

theorem foldl_loseParts (pss : List (List Part)) (c : Core) : pss.foldl loseParts c = loseParts c pss.flatten := by
  simp only [loseParts, List.foldl_flatten]
  rfl

/-- The group of a slot as the threads of a part lose their latches. -/
def unlatch (slot : Nat) (g : Group) (p : Part) : Group := if p.slot = slot then mapThreads g fun i t => if hasBit p.mask i then loseLatches t else t else g

/-- The same for the threads of some parts. -/
def withoutLatches (slot : Nat) (ps : List Part) (g : Group) : Group := ps.foldl (unlatch slot) g

theorem groupAt_loseParts (ps : List Part) (c : Core) : groupAt (loseParts c ps) slot = (groupAt c slot).map (withoutLatches slot ps) := by
  induction ps generalizing c with
  | nil => cases h : groupAt c slot <;> simp [loseParts, withoutLatches, h]
  | cons p r ih =>
    rw [show loseParts c (p :: r) = loseParts (losePart c p) r from rfl, ih]
    show (tfind (tmod c.ctx.groups p.slot _) slot).map _ = (tfind c.ctx.groups slot).map _
    rw [tfind_tmod]
    by_cases here : slot = p.slot
    · subst here
      rw [if_pos rfl, Option.map_map]
      refine congrArg (fun f => Option.map f _) (funext fun g => ?_)
      simp [withoutLatches, unlatch]
    · rw [if_neg here]
      refine congrArg (fun f => Option.map f _) (funext fun g => ?_)
      simp [withoutLatches, unlatch, Ne.symm here]

theorem withoutLatches_masks (ps : List Part) (g : Group) : (withoutLatches slot ps g).jm = g.jm ∧ (withoutLatches slot ps g).ja = g.ja := by
  induction ps generalizing g with
  | nil => exact ⟨rfl, rfl⟩
  | cons p r ih =>
    obtain ⟨jm, ja⟩ := ih (unlatch slot g p)
    rw [show withoutLatches slot (p :: r) g = withoutLatches slot r (unlatch slot g p) from rfl, jm, ja, unlatch]
    split <;> exact ⟨rfl, rfl⟩

/-- A thread without latches. -/
def Unlatched (t : Thread) : Prop := t.ringI = [] ∧ t.ringF = []

theorem withoutLatches_kept (ps : List Part) {g : Group} {j : Nat} (h : Unlatched (threadAt g j)) : Unlatched (threadAt (withoutLatches slot ps g) j) := by
  induction ps generalizing g with
  | nil => exact h
  | cons p r ih =>
    refine ih (g := unlatch slot g p) ?_
    rw [unlatch]
    split
    · rw [threadAt_mapThreads]
      split
      · split
        · exact ⟨rfl, rfl⟩
        · exact h
      · exact h
    · exact h

theorem withoutLatches_lost {ps : List Part} {p : Part} (hp : p ∈ ps) (here : p.slot = slot) {g : Group} {j : Nat} (lane : j < g.threads.length) (bit : hasBit p.mask j = true) :
    Unlatched (threadAt (withoutLatches slot ps g) j) := by
  induction ps generalizing g with
  | nil => cases hp
  | cons q r ih =>
    rcases List.mem_cons.mp hp with rfl | hp
    · refine withoutLatches_kept r (g := unlatch slot g p) ?_
      rw [unlatch, if_pos here, threadAt_mapThreads, if_pos lane, bit]
      exact ⟨rfl, rfl⟩
    · refine ih hp (g := unlatch slot g q) ?_
      rw [unlatch]
      split
      · rw [mapThreads, length_imap]; exact lane
      · exact lane

/-- A bundle after those that can go on have. -/
theorem bundleAt_freeBundles (c : Core) (bid : Nat) :
    bundleAt (freeBundles c) bid = (bundleAt c bid).map fun b => if goesOn c b then stayPut c b (freeJ b) else b := by
  rw [freeBundles, foldl_loseParts, bundleAt, loseParts_bundles]
  exact tfind_tmap ..

/-- A group after those bundles have gone on: the threads of each lose their latches. -/
theorem groupAt_freeBundles (c : Core) : groupAt (freeBundles c) slot =
    (groupAt c slot).map (withoutLatches slot (((c.ctx.bundles.filter fun x => goesOn c x.2).map (·.2.parts)).flatten)) := by
  rw [freeBundles, foldl_loseParts, groupAt_loseParts]
  rfl

theorem goesOn_not_parked {c : Core} {b : Bundle} (h : ∀ n, b.wait ≠ some (.jwait n)) : goesOn c b = false := by
  cases wait : b.wait with
  | none => simp [goesOn, allReleased, wait]
  | some w => cases w with
    | jwait n => exact absurd wait (h n)
    | _ => simp [goesOn, allReleased, wait]

/-- The core of a check that finds every marked thread arrived, before bundles go on. -/
def afterRelease (c : Core) (slot k : Nat) (g : Group) : Core :=
  { c with ctx := { c.ctx with
      groups := tput c.ctx.groups slot { g with ja := tput g.ja k 0 }
      bundles := mergeReleased slot k (tmap c.ctx.bundles fun _ b => releaseJ slot k b) [] } }

theorem checkJ_waits {c : Core} {g : Group} (hg : groupAt c slot = some g) (missing : tget 0 g.jm k &&& ~~~(tget 0 g.ja k) ≠ 0) : checkJ c slot k = c := by
  simp only [checkJ, hg, missing, if_false]

theorem checkJ_releases {c : Core} {g : Group} (hg : groupAt c slot = some g) (all : tget 0 g.jm k &&& ~~~(tget 0 g.ja k) = 0) :
    checkJ c slot k = tidyRun (freeBundles (afterRelease c slot k g)) := by
  simp only [checkJ, hg, all, if_true]
  rfl

end
end Sys2Proof.Machine
end

section
/-! R40 and R203: the release check of a mask. -/

namespace Sys2Proof.Machine

theorem mem_tmap {α β : Type} {t : Tab α} {f : Nat → α → β} {e : Nat × β} : e ∈ tmap t f ↔ ∃ x, (e.1, x) ∈ t ∧ e.2 = f e.1 x := by
  induction t with
  | nil => simp [tmap]
  | cons p r ih =>
    obtain ⟨k, y⟩ := p
    rw [tmap, List.mem_cons, ih]
    constructor
    · rintro (rfl | ⟨x, hx, eq⟩)
      · exact ⟨y, List.mem_cons_self .., rfl⟩
      · exact ⟨x, List.mem_cons_of_mem _ hx, eq⟩
    · rintro ⟨x, hx, eq⟩
      rcases List.mem_cons.mp hx with same | hx
      · obtain ⟨rfl, rfl⟩ := Prod.mk.inj same
        exact .inl (Prod.ext rfl eq)
      · exact .inr ⟨x, hx, eq⟩

theorem keys_tmap {α β : Type} (t : Tab α) (f : Nat → α → β) : (tmap t f).map (·.1) = t.map (·.1) := by
  induction t with
  | nil => rfl
  | cons e r ih => obtain ⟨k, y⟩ := e; simp [tmap, ih]

section
variable {c : Core} {slot k : Nat} {g : Group}

/-- The bundles of a core once a mask of a slot is released, before they merge. -/
def releasedIn (slot k : Nat) (c : Core) : Tab Bundle := tmap c.ctx.bundles fun _ b => releaseJ slot k b

theorem mem_releasedIn {e : Nat × Bundle} : e ∈ releasedIn slot k c ↔ ∃ x, (e.1, x) ∈ c.ctx.bundles ∧ e.2 = releaseJ slot k x := mem_tmap

theorem releasedIn_rising (rising : Rising c.ctx.bundles) : Rising ([] ++ releasedIn slot k c) := by
  rw [List.nil_append, Rising, releasedIn, keys_tmap]
  exact rising

theorem apart_nil : Apart slot k [] := fun _ hp => by cases hp

/-- A bundle that does not park at the mask stays as it is. -/
theorem merged_other (rising : Rising c.ctx.bundles) {bid : Nat} {x : Bundle} (hx : bundleAt c bid = some x) (off : ¬ waitsAt slot k x) :
    bundleAt (afterRelease c slot k g) bid = some x := by
  have alone : ∀ y : Bundle, meet slot k (releaseJ slot k x) y = false := fun y => Bool.eq_false_iff.mpr fun h => off ((releasedAt_releaseJ x).mp (meet_iff.mp h).1)
  have listed : (bid, releaseJ slot k x) ∈ releasedIn slot k c := mem_releasedIn.mpr ⟨x, tfind_mem _ _ _ hx, rfl⟩
  obtain ⟨_, stays⟩ := tfind_mergeReleased (releasedIn_rising rising) apart_nil listed
  have same : ∀ (r : Tab Bundle) (y : Bundle), r.foldl (fun y e => if meet slot k e.2 (releaseJ slot k x) then absorb y e.2 else y) y = y := by
    intro r
    induction r with
    | nil => exact fun _ => rfl
    | cons e r ih =>
      intro y
      have none : meet slot k e.2 (releaseJ slot k x) = false := Bool.eq_false_iff.mpr fun h => absurd (meet_symm h) (by rw [alone]; decide)
      rw [List.foldl_cons, none]
      exact ih y
  have kept := stays (fun p hp => by cases hp) fun p _ _ => alone p.2
  rw [gatherMet, same, releaseJ_of_not off] at kept
  exact kept

/-- A bundle at whose place an earlier one parks is gone. -/
theorem merged_gone (rising : Rising c.ctx.bundles) {bid : Nat} {b : Bundle} (hb : bundleAt c bid = some b) (waits : waitsAt slot k b) {q : Nat × Bundle}
    (hq : q ∈ c.ctx.bundles) (before : q.1 < bid) (waits' : waitsAt slot k q.2) (place : (q.2.pc, q.2.stepPos, q.2.sub) = (b.pc, b.stepPos, b.sub)) :
    bundleAt (afterRelease c slot k g) bid = none := by
  have listed : (bid, releaseJ slot k b) ∈ releasedIn slot k c := mem_releasedIn.mpr ⟨b, tfind_mem _ _ _ hb, rfl⟩
  obtain ⟨gone, _⟩ := tfind_mergeReleased (releasedIn_rising rising) apart_nil listed
  exact gone (.inr ⟨(q.1, releaseJ slot k q.2), mem_releasedIn.mpr ⟨q.2, hq, rfl⟩, before, (meet_releaseJ _ _).mpr ⟨waits, waits', place⟩⟩)

/-- The first bundle at its place takes in those that follow there, where each is of the group alone. -/
theorem merged_first (rising : Rising c.ctx.bundles) {bid : Nat} {b : Bundle} (hb : bundleAt c bid = some b) (waits : waitsAt slot k b)
    (alone : ∀ q ∈ c.ctx.bundles, waitsAt slot k q.2 → (q.2.pc, q.2.stepPos, q.2.sub) = (b.pc, b.stepPos, b.sub) → q.2.done = [] ∧ ∃ m, q.2.parts = [⟨slot, m⟩])
    (first : ∀ q ∈ c.ctx.bundles, q.1 < bid → waitsAt slot k q.2 → (q.2.pc, q.2.stepPos, q.2.sub) ≠ (b.pc, b.stepPos, b.sub)) :
    ∃ m, bundleAt (afterRelease c slot k g) bid = some { b with parts := [⟨slot, m⟩], done := [⟨slot, 0⟩] } ∧
      ∀ j, hasBit m j = true ↔ ∃ q ∈ c.ctx.bundles, waitsAt slot k q.2 ∧ (q.2.pc, q.2.stepPos, q.2.sub) = (b.pc, b.stepPos, b.sub) ∧ ∃ p ∈ q.2.parts, hasBit p.mask j = true := by
  have here : (bid, b) ∈ c.ctx.bundles := tfind_mem _ _ _ hb
  have listed : (bid, releaseJ slot k b) ∈ releasedIn slot k c := mem_releasedIn.mpr ⟨b, here, rfl⟩
  obtain ⟨_, stays⟩ := tfind_mergeReleased (releasedIn_rising rising) apart_nil listed
  have single : ∀ {x : Bundle} {m : Word}, waitsAt slot k x → x.done = [] → x.parts = [⟨slot, m⟩] → ReleasedAlone slot k (releaseJ slot k x) m := fun {x m} waits done parts =>
    ⟨by rw [releaseJ_wait]; exact waits.1, by rw [releaseJ_parts]; exact parts, by rw [releaseJ_of_waits waits, done]; rfl⟩
  obtain ⟨done, m, parts⟩ := alone _ here waits rfl
  obtain ⟨n, gathers, bits⟩ := gatherMet_alone (r := (releasedIn slot k c).filter fun p => decide (bid < p.1)) (single waits done parts) (by
    intro e he same
    obtain ⟨x, hx, eq⟩ := mem_releasedIn.mp (List.mem_filter.mp he).1
    rw [eq] at same ⊢
    obtain ⟨waits', _, place⟩ := (meet_releaseJ _ _).mp same
    obtain ⟨done', m', parts'⟩ := alone _ hx waits' place.symm
    exact ⟨m', single waits' done' parts'⟩)
  refine ⟨n, ?_, fun j => ?_⟩
  · refine (stays (fun p hp => by cases hp) fun p hp before => Bool.eq_false_iff.mpr fun same => ?_).trans ?_
    · obtain ⟨x, hx, eq⟩ := mem_releasedIn.mp hp
      rw [eq] at same
      obtain ⟨_, waits', place⟩ := (meet_releaseJ _ _).mp same
      exact first _ hx before waits' place
    · rw [gathers, releaseJ_of_waits waits, done]
      rfl
  · rw [bits j]
    constructor
    · rintro (bit | ⟨e, he, same, p, hp, bit⟩)
      · exact ⟨_, here, waits, rfl, ⟨slot, m⟩, by rw [parts]; exact List.mem_singleton_self _, bit⟩
      · obtain ⟨x, hx, eq⟩ := mem_releasedIn.mp (List.mem_filter.mp he).1
        rw [eq] at same hp
        obtain ⟨waits', _, place⟩ := (meet_releaseJ _ _).mp same
        exact ⟨_, hx, waits', place.symm, p, by rwa [releaseJ_parts] at hp, bit⟩
    · rintro ⟨q, hq, waits', place, p, hp, bit⟩
      rcases lt_trichotomy q.1 bid with before | same | after
      · exact absurd place (first q hq before waits')
      · have : q.2 = b := Option.some.inj ((rising.find (n := bid) (by rw [← same]; exact hq)).symm.trans hb)
        rw [this, parts] at hp
        rw [List.mem_singleton.mp hp] at bit
        exact .inl bit
      · refine .inr ⟨(q.1, releaseJ slot k q.2), List.mem_filter.mpr ⟨mem_releasedIn.mpr ⟨q.2, hq, rfl⟩, decide_eq_true after⟩, ?_, p, by rwa [releaseJ_parts], bit⟩
        exact (meet_releaseJ _ _).mpr ⟨waits', waits, place.symm⟩

theorem stayPut_no_swap {c : Core} (h : c.exch ≠ .swap) (b x : Bundle) : stayPut c b x = x := by
  have off : (c.exch == .swap) = false := by simpa using h
  rw [stayPut, off]
  rfl

/-- A bundle of one group alone whose threads are released goes on once its group can be given the selector. -/
theorem goesOn_alone {b : Bundle} {m : Word} {h : Group} (alone : ReleasedAlone slot k b m) (hg : groupAt c slot = some h) (ready : groupReady h = true) : goesOn c b = true := by
  have found : tfind c.ctx.groups slot = some h := hg
  simp [goesOn, allReleased, partsReady, alone.wait, alone.parts, alone.done, found, ready]

theorem joinReleases : Sys2Proof.Claims.JoinReleases := by
  intro c slot k g hg lanes rising exch d waits place
  refine ⟨fun missing => checkJ_waits hg missing, fun all => ?_⟩
  have after : groupAt (afterRelease c slot k g) slot = some { g with ja := tput g.ja k 0 } := tfind_tput_same ..
  have hd : d = tidyRun (freeBundles (afterRelease c slot k g)) := checkJ_releases hg all
  have bundles : ∀ bid, bundleAt d bid = (bundleAt (afterRelease c slot k g) bid).map fun b => if goesOn (afterRelease c slot k g) b then freeJ b else b := by
    intro bid
    rw [hd]
    refine (bundleAt_freeBundles _ bid).trans (congrArg (fun f => Option.map f _) (funext fun b => ?_))
    rw [stayPut_no_swap (c := afterRelease c slot k g) exch]
  obtain ⟨ps, groups, listed⟩ : ∃ ps, groupAt d slot = some (withoutLatches slot ps { g with ja := tput g.ja k 0 }) ∧
      ∀ bid b, bundleAt (afterRelease c slot k g) bid = some b → goesOn (afterRelease c slot k g) b = true → ∀ p ∈ b.parts, p ∈ ps := by
    refine ⟨_, by rw [hd]; exact (groupAt_freeBundles _).trans (by rw [after]; rfl), fun bid b hb goes p hp => ?_⟩
    exact List.mem_flatten.mpr ⟨b.parts, List.mem_map.mpr ⟨(bid, b), List.mem_filter.mpr ⟨tfind_mem _ _ _ hb, goes⟩, rfl⟩, hp⟩
  refine ⟨?_, fun bid x hx free => ?_, fun bid b hb parked alone => ⟨?_, fun ready first => ?_⟩⟩
  · obtain ⟨jm, ja⟩ := withoutLatches_masks (slot := slot) ps { g with ja := tput g.ja k 0 }
    refine ⟨_, groups, jm, fun n => ?_⟩
    rw [ja]
    simp only [tget, tfind_tput]
    split <;> rfl
  · rw [bundles, merged_other rising hx fun h => free k h.1, Option.map_some, goesOn_not_parked free]
    rfl
  · rintro ⟨q, hq, before, waits', same⟩
    rw [bundles, merged_gone rising hb parked hq before waits' same]
    rfl
  · obtain ⟨m, merged, bits⟩ := merged_first (g := g) rising hb parked alone first
    have goes : goesOn (afterRelease c slot k g) { b with parts := [⟨slot, m⟩], done := [⟨slot, 0⟩] } = true :=
      goesOn_alone ⟨parked.1, rfl, rfl⟩ after ready
    refine ⟨m, ?_, fun j low => ⟨bits j, fun bit => ⟨_, groups, ?_⟩⟩⟩
    · rw [bundles, merged, Option.map_some, goes]
      rfl
    · exact withoutLatches_lost (listed bid _ merged goes ⟨slot, m⟩ (List.mem_singleton_self _)) rfl (by simpa [lanes] using low) bit

end
end Sys2Proof.Machine
end

section
/-! The rejoin words (R202, R203): what they make of the masks and arrivals of their group. -/

namespace Sys2Proof.Machine

/-- A word that performs no action completes. -/
theorem completes_of_performs {s t : State} {bid slot : Nat} {b : Bundle} {g g' : Group} {m : Word} (r : Ready s bid slot b g m) (uid : g'.uid = g.uid)
    {th : Nat → Thread → Thread} {sr : Nat → Reg} (h : Performs s t bid slot b g' m th sr []) : Completes s t bid slot b g' m th sr := by
  obtain ⟨_, ⟨g1, ls, stepped, loads, rfl⟩, rfl⟩ := h
  have uid1 : g1.uid = g.uid := by rw [stepped.rest]; exact uid
  generalize hc : { s.core with ctx := { s.core.ctx with groups := tput s.core.ctx.groups slot g1, bundles := tput s.core.ctx.bundles bid (stayed b [⟨slot, m⟩]) }, loads := ls } = c
  have here : groupAt c slot = some g1 := by rw [← hc]; exact tfind_tput_same ..
  obtain ⟨g2, found, settled, others, m0, m1, rest⟩ := settle_group here (by rw [← hc]; exact only_tput r.rising r.only uid1) (by rw [← hc, uid1]; exact r.others)
  have core : coreAt (settleAt s.cur.1 slot (setCore s s.cur.1 c)) s.cur.1 = settle c g1.uid := by
    rw [settleAt, coreAt_modCore_same, show coreAt (setCore s s.cur.1 c) s.cur.1 = c from coreAt_modCore_same s s.cur.1 fun _ => c, settleIn, here]
  refine ⟨⟨rfl, fun j hj => ?_⟩, ?_, ?_, ?_⟩
  · exact (coreAt_modCore_ne _ hj _).trans (coreAt_modCore_ne s hj fun _ => c)
  · rw [List.foldl_nil, core]
    refine ⟨fun p hp => ?_, fun p hp => ?_, ?_, ⟨?_, ?_⟩, ?_⟩
    · rw [others p hp, ← hc]; exact tfind_tput_ne _ hp _
    · rw [bundleAt, rest, ← hc]; exact tfind_tput_ne _ hp _
    · rw [rest, ← hc]; exact loads
    · rw [m0, ← hc]
    · rw [m1, ← hc]
    · rw [rest, ← hc]
  · rw [List.foldl_nil, core, bundleAt, rest, ← hc]; exact tfind_tput_same ..
  · rw [List.foldl_nil, core]
    exact ⟨g1, g2, stepped, settled, found⟩

/-! Masks changed thread by thread. -/

/-- An entry changed once and again, at least once. -/
theorem foldl_tput (k : Nat) (f : Word → Nat → Word) {l : List Nat} (some : l ≠ []) (t : Tab Word) :
    l.foldl (fun t i => tput t k (f (tget 0 t k) i)) t = tput t k (l.foldl f (tget 0 t k)) := by
  induction l generalizing t with
  | nil => exact absurd rfl some
  | cons i r ih =>
    cases r with
    | nil => rfl
    | cons j r => rw [List.foldl_cons, ih (List.cons_ne_nil j r), tput_tput, tget_tput_same]; rfl

theorem foldl_or (l : List Nat) (w : Word) : l.foldl (fun w i => w ||| oneBit i) w = w ||| maskOf l := by
  induction l generalizing w with
  | nil => exact BitVec.or_zero.symm
  | cons i r ih => rw [List.foldl_cons, ih, maskOf, BitVec.or_assoc]

theorem foldl_clear (l : List Nat) (w : Word) : l.foldl (fun w i => w &&& ~~~(oneBit i)) w = w &&& ~~~(maskOf l) := by
  induction l generalizing w with
  | nil => exact BitVec.and_allOnes.symm
  | cons i r ih => rw [List.foldl_cons, ih, maskOf, BitVec.not_or, BitVec.and_assoc]

/-- A group with other rejoin masks and arrivals. -/
def rejoined (g : Group) (jm ja : Tab Word) : Group := { g with jm := jm, ja := ja }

/-- Threads changed one after another, each with a change of the rejoin masks and arrivals. -/
theorem foldl_marks {f : Group → Nat → Group} {T : Nat → Thread → Thread} {A B : Tab Word → Nat → Tab Word}
    (h : ∀ g i, f g i = rejoined (modThread g i (T i)) (A g.jm i) (B g.ja i)) (l : List Nat) (g : Group) :
    l.foldl f g = l.foldl (fun a i => modThread a i (T i)) (rejoined g (l.foldl A g.jm) (l.foldl B g.ja)) := by
  induction l generalizing g with
  | nil => rfl
  | cons i r ih => rw [List.foldl_cons, ih, h]; rfl

section
variable {s : State} {bid slot : Nat} {b : Bundle} {g : Group} {m : Word}

/-- A result of the group that acts and has no effect. -/
def actRes (slot : Nat) (as : List Act) : Res := ⟨slot, none, [], as, none, false⟩

/-- A REJOIN WORD: its results change each present thread, and the masks and arrivals of its group by that thread's bit; what else it does are actions of the group. -/
theorem run_marks {i : Instr} {plan : Shape → View → Plan} (r : Ready s bid slot b g m) (h : Issuable i s b slot g m) {es : Nat → List Eff} {rest : List Res}
    (hp : plan (shape i) (viewAt s b slot g m) = .go ((members m).map (fun j => ⟨slot, some j, es j, [], none, false⟩) ++ rest)) (apart : ∀ j a, Eff.joint a ∉ es j)
    {as : List Act} (hr : rest = [] ∧ as = [] ∨ rest = [actRes slot as]) (mild : as.any Act.leaves = false ∧ (∀ w q, Act.stall w q ∉ as) ∧ ∀ a ∈ as, a.onGuess = false)
    (uncounted : Uncounted as) {T : Nat → Thread → Thread} {A B : Tab Word → Nat → Tab Word}
    (he : ∀ g j, effsIn s.now g ⟨slot, some j, es j, [], none, false⟩ = rejoined (modThread g j (T j)) (A g.jm j) (B g.ja j)) :
    ∃ t, run i plan s = .next t ∧ Performs s t bid slot b (rejoined g ((members m).foldl A g.jm) ((members m).foldl B g.ja)) m (inMask m T) (sreg g)
      (as.map fun a => (none, a)) := by
  have within : ∀ x ∈ (members m).map (fun j => (⟨slot, some j, es j, [], none, false⟩ : Res)) ++ rest,
      (∃ j, x = ⟨slot, some j, es j, [], none, false⟩) ∨ x = actRes slot as := by
    intro x hx
    rcases List.mem_append.mp hx with hx | hx
    · obtain ⟨j, _, rfl⟩ := List.mem_map.mp hx
      exact .inl ⟨j, rfl⟩
    · rcases hr with ⟨rfl, _⟩ | rfl
      · cases hx
      · exact .inr (List.mem_singleton.mp hx)
  have kept : ((members m).map (fun j => (⟨slot, some j, es j, [], none, false⟩ : Res)) ++ rest).filter (fun x => x.takes slot m) =
      (members m).map (fun j => ⟨slot, some j, es j, [], none, false⟩) ++ rest := by
    rw [List.filter_append, filter_threads slot m es fun _ => []]
    rcases hr with ⟨rfl, _⟩ | rfl
    · rfl
    · have takes : (actRes slot as).takes slot m = true := takes_group slot r.some [] as
      simp [takes]
  have idle : ∀ a, rest.foldl (effsIn s.now) a = a := by
    rcases hr with ⟨rfl, _⟩ | rfl <;> exact fun _ => rfl
  have stepped : Stepped (groupAfter ((members m).map (fun j => ⟨slot, some j, es j, [], none, false⟩) ++ rest) slot m b.sub.isSome s.now g)
      (rejoined g ((members m).foldl A g.jm) ((members m).foldl B g.ja)) (inMask m T) (sreg g) := by
    rw [groupAfter, kept, List.foldl_append, idle, List.foldl_map]
    exact stepped_fold (g := rejoined g ((members m).foldl A g.jm) ((members m).foldl B g.ja)) (g0 := rejoined g ((members m).foldl A g.jm) ((members m).foldl B g.ja)) r.lanes rfl _ _ _ _ (foldl_marks he (members m) g).symm
  have stays : ∀ x ∈ (members m).map (fun j => (⟨slot, some j, es j, [], none, false⟩ : Res)) ++ rest, Stays slot x := by
    intro x hx
    rcases within x hx with ⟨j, rfl⟩ | rfl
    · exact stays_plain fun a => apart j a
    · exact ⟨rfl, rfl, rfl, mild.1, mild.2.1, (fun _ h => by cases h), mild.2.2⟩
  have room : overCount g slot ((members m).map (fun j => (⟨slot, some j, es j, [], none, false⟩ : Res)) ++ rest) = [] := overCount_none fun x hx => by
    rcases within x hx with ⟨j, rfl⟩ | rfl
    · exact fun a ha => by cases ha
    · exact uncounted
  have unsure : sureIn ((members m).map (fun j => (⟨slot, some j, es j, [], none, false⟩ : Res)) ++ rest) slot m = false := sureIn_none (fun x hx => by
    rcases within x hx with ⟨j, rfl⟩ | rfl <;> rfl) slot m
  have acts : actsOf ((members m).map (fun j => (⟨slot, some j, es j, [], none, false⟩ : Res)) ++ rest) slot m = as.map fun a => (none, a) := by
    have none : ((members m).map (fun j => (⟨slot, some j, es j, [], none, false⟩ : Res))).flatMap (fun r => r.acts.map fun a => (r.thr, a)) = [] := by
      rw [List.flatMap_map]; exact List.flatMap_eq_nil_iff.mpr fun _ _ => rfl
    rw [actsOf, kept, List.flatMap_append, none, List.nil_append]
    rcases hr with ⟨rfl, rfl⟩ | rfl
    · rfl
    · exact List.append_nil _
  have done := run_performs r h hp stays room stepped rfl
  rwa [unsure, State.sure_false, acts] at done

theorem members_some (r : Ready s bid slot b g m) : members m ≠ [] := fun e => r.some (by rw [← maskOf_members m, e]; rfl)

/-- The mask of a rejoin word set in a table of masks. -/
theorem foldl_set (r : Ready s bid slot b g m) (k : Nat) (t : Tab Word) :
    (members m).foldl (fun t i => tput t k (tget 0 t k ||| oneBit i)) t = tput t k (tget 0 t k ||| m) := by
  rw [foldl_tput k (fun w i => w ||| oneBit i) (members_some r), foldl_or, maskOf_members]

/-- The mask of a rejoin word cleared in a table of masks. -/
theorem foldl_unset (r : Ready s bid slot b g m) (k : Nat) (t : Tab Word) :
    (members m).foldl (fun t i => tput t k (tget 0 t k &&& ~~~(oneBit i))) t = tput t k (tget 0 t k &&& ~~~m) := by
  rw [foldl_tput k (fun w i => w &&& ~~~(oneBit i)) (members_some r), foldl_clear, maskOf_members]

theorem foldl_kept {α β : Type} (l : List β) (x : α) : l.foldl (fun a _ => a) x = x := by
  induction l with
  | nil => rfl
  | cons _ r ih => exact ih

end

/-- No thread changes where the present ones do not. -/
theorem inMask_self (m : Word) (j : Nat) (x : Thread) : inMask m (fun _ x => x) j x = x := by
  unfold inMask
  split <;> rfl

theorem joinMark : Sys2Proof.Claims.JoinMark := by
  intro o s bid slot b g m r h
  obtain ⟨t, ht, done⟩ := run_marks (plan := fun _ v => .go (v.present.map fun i => ⟨v.slot, some i, [.jmark o.j.toNat (oneBit i)], [], none, false⟩)) r h
    (es := fun i => [.jmark o.j.toNat (oneBit i)]) (rest := []) (as := []) (by rw [List.append_nil]; rfl) (by simp) (.inl ⟨rfl, rfl⟩) (by simp) (fun _ h => by cases h)
    (T := fun _ x => x) (A := fun t i => tput t o.j.toNat (tget 0 t o.j.toNat ||| oneBit i)) (B := fun t _ => t) fun g i => by rw [modThread_id]; rfl
  rw [foldl_set r, foldl_kept] at done
  have completes := completes_of_performs (g' := rejoined g (tput g.jm o.j.toNat (tget 0 g.jm o.j.toNat ||| m)) g.ja) r rfl done
  exact ⟨t, ht, completes.congr (fun j => inMask_self m j _) fun _ => rfl⟩

/-- The clearing of each present thread from a mask. -/
theorem jclr_performs {o : OpJ} {s : State} {bid slot : Nat} {b : Bundle} {g : Group} {m : Word} (r : Ready s bid slot b g m) (h : Issuable (.jclr o) s b slot g m) :
    ∃ t, exec (.jclr o) s = .next t ∧ Performs s t bid slot b (rejoined g (tput g.jm o.j.toNat (tget 0 g.jm o.j.toNat &&& ~~~m))
      (tput g.ja o.j.toNat (tget 0 g.ja o.j.toNat &&& ~~~m))) m (inMask m fun _ x => x) (sreg g) [(none, .joinCheck o.j.toNat)] := by
  obtain ⟨t, ht, done⟩ := run_marks (plan := fun _ v => .go ((v.present.map fun i => ⟨v.slot, some i, [.jclr o.j.toNat (oneBit i)], [], none, false⟩) ++
      [⟨v.slot, none, [], [.joinCheck o.j.toNat], none, false⟩])) r h
    (es := fun i => [.jclr o.j.toNat (oneBit i)]) rfl (by simp) (.inr rfl) (by simp [Act.leaves, Act.onGuess]) (by simp [Uncounted, Act.counts])
    (T := fun _ x => x) (A := fun t i => tput t o.j.toNat (tget 0 t o.j.toNat &&& ~~~(oneBit i))) (B := fun t i => tput t o.j.toNat (tget 0 t o.j.toNat &&& ~~~(oneBit i)))
    fun g i => by rw [modThread_id]; rfl
  rw [foldl_unset r, foldl_unset r] at done
  exact ⟨t, ht, done⟩

/-- The arrival of each present thread at a mask, where none has a guess left. -/
theorem jwait_performs {o : OpJ} {s : State} {bid slot : Nat} {b : Bundle} {g : Group} {m : Word} (r : Ready s bid slot b g m) (h : Issuable (.jwait o) s b slot g m)
    (calm : Calm s.core g m) : ∃ t, exec (.jwait o) s = .next t ∧ Performs s t bid slot b (rejoined g (tput g.jm o.j.toNat (tget 0 g.jm o.j.toNat ||| m))
      (tput g.ja o.j.toNat (tget 0 g.ja o.j.toNat ||| m))) m (inMask m fun _ x => { x with rpv := false }) (sreg g)
      [(none, .park (.jwait o.j.toNat)), (none, .joinCheck o.j.toNat)] := by
  have arrives : eachThread (shape (.jwait o)) (fun v i t => resolved v i t true (.go [.clearRpv, .jarrive o.j.toNat (oneBit i)] [])) (viewAt s b slot g m) =
      .go ((members m).map fun i => ⟨slot, some i, [.clearRpv, .jarrive o.j.toNat (oneBit i)], [], none, false⟩) :=
    eachThread_acts (v := viewAt s b slot g m) (as := fun _ => []) (unchecked g m (sh := shape (.jwait o)) rfl) fun j hj => by
      obtain ⟨sure, kept⟩ := calm j hj
      simp only [resolved, viewAt, sure, kept, Bool.false_eq_true, if_false]
  obtain ⟨t, ht, done⟩ := run_marks (plan := fun sh v => (eachThread sh (fun v i t => resolved v i t true (.go [.clearRpv, .jarrive o.j.toNat (oneBit i)] [])) v).also
      ⟨v.slot, none, [], [.park (.jwait o.j.toNat), .joinCheck o.j.toNat], none, false⟩) r h
    (es := fun i => [.clearRpv, .jarrive o.j.toNat (oneBit i)]) (by rw [arrives]; rfl) (by simp) (.inr rfl) (by simp [Act.leaves, Act.onGuess]) (by simp [Uncounted, Act.counts])
    (T := fun _ x => { x with rpv := false }) (A := fun t i => tput t o.j.toNat (tget 0 t o.j.toNat ||| oneBit i))
    (B := fun t i => tput t o.j.toNat (tget 0 t o.j.toNat ||| oneBit i)) fun g i => rfl
  rw [foldl_set r, foldl_set r] at done
  exact ⟨t, ht, done⟩

/-- R202 and R203. -/
theorem joinWaits : Sys2Proof.Claims.JoinWaits := by
  intro o s bid slot b g m r j
  refine ⟨fun h => ?_, fun h calm => jwait_performs r h calm⟩
  obtain ⟨t, ht, done⟩ := jclr_performs r h
  exact ⟨t, ht, done.congr (fun i => inMask_self m i _) (fun _ => rfl) rfl⟩

/-- Settles O14: the words change the masks thread by thread; the check merges the bundles released at one place into the first, and that one goes on. -/
theorem rejoinWords : Obligations.RejoinWords := ⟨joinMark, joinWaits, joinReleases⟩

end Sys2Proof.Machine
end

section
/-! Memory under the keys of its pages (R99, R228): what a byte reads as under a key after its line was taken over, and after a write. It settles O60. -/

namespace Sys2Proof.Machine

/-- A written byte within the write reads as its byte of the number. -/
theorem memByte_memWrite {m : List Host.Cell} (wf : Memory.wf m = true) (a n v : Nat) {i : Nat} (within : i < n) :
    memByte (memWrite m a n v) (a + i) = BitVec.ofNat 8 (v / 256 ^ i) := by
  induction n generalizing m a v i with
  | zero => omega
  | succ n ih =>
    cases i with
    | zero => rw [memWrite, memByte_memWrite_ne _ _ _ _ (.inl (by omega)), Nat.add_zero, memByte_memPut_same wf, pow_zero, Nat.div_one]
    | succ i =>
      rw [memWrite, show a + (i + 1) = a + 1 + i by omega, ih (memPut_wf wf _ _) _ _ (by omega), Nat.div_div_eq_div_mul, pow_succ, Nat.mul_comm 256]

/-- Bytes are read as a number that depends on nothing else. -/
theorem memRead_congr {m m' : List Host.Cell} {a n : Nat} (h : ∀ b, a ≤ b → b < a + n → memByte m b = memByte m' b) : memRead m a n = memRead m' a n := by
  induction n generalizing a with
  | zero => rfl
  | succ n ih => rw [memRead, memRead, h a (Nat.le_refl _) (by omega), ih fun b lo hi => h b (by omega) (by omega)]

/-- Bytes that read as those of a number read as the number. -/
theorem keyRead_of_bytes {s : State} {key : Option Nat} {a n v : Nat} (h : ∀ i < n, keyByte s key (a + i) = BitVec.ofNat 8 (v / 256 ^ i)) :
    keyRead s key a n = v % 256 ^ n := by
  induction n generalizing a v with
  | zero => rw [keyRead, pow_zero, Nat.mod_one]
  | succ n ih =>
    have first : keyByte s key a = BitVec.ofNat 8 v := by simpa using h 0 (by omega)
    have rest := ih (a := a + 1) (v := v / 256) fun i hi => by
      rw [Nat.add_assoc, Nat.add_comm 1, h (i + 1) (by omega), Nat.div_div_eq_div_mul, pow_succ, Nat.mul_comm 256]
    rw [keyRead, first, rest, pow_succ, Nat.mul_comm (256 ^ n), Nat.mod_mul, BitVec.toNat_ofNat]

/-- Bytes written back under a key are what that key read. -/
theorem memByte_rekey (s : State) (key : Option Nat) (a n : Nat) {m : List Host.Cell} (wf : Memory.wf m = true) (b : Nat) :
    memByte (rekey s key a n m) b = if a ≤ b ∧ b < a + n then keyByte s key b else memByte m b := by
  induction n generalizing m a with
  | zero => rw [if_neg (by omega)]; rfl
  | succ n ih =>
    rw [rekey, ih (a + 1) (memPut_wf wf _ _)]
    by_cases first : b = a
    · subst first
      rw [if_neg (by omega), if_pos (by omega), memByte_memPut_same wf]
    · rw [memByte_memPut_ne _ first]
      exact if_congr (by omega) rfl rfl

/-! Whether a key reads plaintext at a line. -/

/-- Whether a reader under a key finds a line as plaintext: it has no key, or the line was written under it or under none. -/
def Plain (s : State) (key : Option Nat) (line : Nat) : Prop := ∀ k k0, key = some k → tfind s.lineKey line = some k0 → k = k0

theorem keyByte_of_plain {s : State} {key : Option Nat} {a : Nat} (h : Plain s key (a / 128)) : keyByte s key a = memByte s.mem a := by
  unfold keyByte
  split
  · next k k0 tag => rw [if_pos (h k k0 rfl tag)]
  · rfl

/-- What a byte reads as depends on the tag of its line and on the bytes of its block. -/
theorem keyByte_congr {s t : State} {a : Nat} (key : Option Nat) (tag : tfind t.lineKey (a / 128) = tfind s.lineKey (a / 128))
    (bytes : ∀ b, b / 128 = a / 128 → memByte t.mem b = memByte s.mem b) : keyByte t key a = keyByte s key a := by
  have block : memRead t.mem (a / 16 * 16) 16 = memRead s.mem (a / 16 * 16) 16 := memRead_congr fun b lo hi => bytes b (by omega)
  simp only [keyByte, tag, block, bytes a rfl]

/-- A line that a key takes over is plaintext for it; every byte reads under the key as before, and the other lines keep their bytes and tags. -/
theorem claimLine_keeps {s : State} (wf : Memory.wf s.mem = true) (key : Option Nat) (line : Nat) :
    let t := claimLine s key line
    Plain t key line ∧ (∀ l, Plain s key l → Plain t key l) ∧ ∀ a, keyByte t key a = keyByte s key a := by
  cases key with
  | none => exact ⟨fun _ _ (h : none = _) => (by cases h), fun _ h => h, fun _ => rfl⟩
  | some k =>
    by_cases own : tfind s.lineKey line = some k
    · rw [claimLine, if_pos own]
      exact ⟨fun k' k0 e h => by rw [own] at h; cases e; cases h; rfl, fun _ h => h, fun _ => rfl⟩
    -- the line's tag becomes the key, and its bytes what the key reads
    have taken : ∀ m, (∀ b, memByte m b = if b / 128 = line then keyByte s (some k) b else memByte s.mem b) →
        let t : State := { s with mem := m, lineKey := tput s.lineKey line k }
        Plain t (some k) line ∧ (∀ l, Plain s (some k) l → Plain t (some k) l) ∧ ∀ a, keyByte t (some k) a = keyByte s (some k) a := by
      intro m bytes t
      have mine : Plain t (some k) line := fun k' k0 e h => by
        rw [show t.lineKey = tput s.lineKey line k from rfl, tfind_tput_same] at h; cases e; cases h; rfl
      have tag : ∀ l, l ≠ line → tfind t.lineKey l = tfind s.lineKey l := fun l ne => tfind_tput_ne _ ne _
      refine ⟨mine, fun l h => ?_, fun a => ?_⟩
      · by_cases e : l = line
        · exact e ▸ mine
        · exact fun k' k0 ek h0 => h k' k0 ek (tag l e ▸ h0)
      · by_cases e : a / 128 = line
        · rw [keyByte_of_plain (e ▸ mine), show memByte t.mem a = _ from bytes a, if_pos e]
        · exact keyByte_congr _ (tag _ e) fun b hb => by rw [show memByte t.mem b = _ from bytes b, if_neg (hb ▸ e)]
    rw [claimLine, if_neg own]
    split
    · next fresh =>
      refine taken s.mem fun b => ?_
      split
      · next e => exact (keyByte_of_plain fun k' k0 _ h => by rw [e, fresh] at h; cases h).symm
      · rfl
    · refine taken _ fun b => ?_
      rw [memByte_rekey s (some k) (line * 128) 128 wf]
      exact if_congr (by omega) rfl rfl

/-- Nothing but memory and the tags of its lines changes where a line is taken over. -/
theorem claimLine_frame (s : State) (key : Option Nat) (line : Nat) : ∃ m l, claimLine s key line = { s with mem := m, lineKey := l } := by
  cases key with
  | none => exact ⟨_, _, rfl⟩
  | some k =>
    rw [claimLine]
    split
    · exact ⟨_, _, rfl⟩
    · split <;> exact ⟨_, _, rfl⟩

/-- What a write of at most a line's bytes under a key does: they read back, every other byte reads under the key as before, and nothing else changes. -/
theorem keyWrite_reads {s : State} (wf : Memory.wf s.mem = true) (key : Option Nat) {a n : Nat} (v : Nat) (some : 0 < n) (most : n ≤ 128) :
    keyRead (keyWrite s key a n v) key a n = v % 256 ^ n ∧
    (∀ b, b < a ∨ a + n ≤ b → keyByte (keyWrite s key a n v) key b = keyByte s key b) ∧
    ∃ m l, keyWrite s key a n v = { s with mem := m, lineKey := l } := by
  obtain ⟨first, -, same1⟩ := claimLine_keeps wf key (a / 128)
  have wf1 := claimLine_wf wf key (a / 128)
  obtain ⟨m1, l1, frame1⟩ := claimLine_frame s key (a / 128)
  obtain ⟨last, still, same2⟩ := claimLine_keeps wf1 key ((a + n - 1) / 128)
  have wf2 := claimLine_wf wf1 key ((a + n - 1) / 128)
  obtain ⟨m2, l2, frame2⟩ := claimLine_frame (claimLine s key (a / 128)) key ((a + n - 1) / 128)
  rw [keyWrite, if_neg (by omega)]
  generalize claimLine (claimLine s key (a / 128)) key ((a + n - 1) / 128) = u at last still same2 wf2 frame2
  have plain : ∀ b, a ≤ b → b < a + n → Plain { u with mem := memWrite u.mem a n v } key (b / 128) := fun b lo hi => by
    rcases (show b / 128 = a / 128 ∨ b / 128 = (a + n - 1) / 128 by omega) with e | e
    · exact e ▸ still _ first
    · exact e ▸ last
  refine ⟨keyRead_of_bytes fun i hi => ?_, fun b out => ?_, memWrite u.mem a n v, l2, ?_⟩
  · rw [keyByte_of_plain (plain _ (by omega) (by omega))]
    exact memByte_memWrite wf2 a n v hi
  · rw [← same1 b, ← same2 b]
    by_cases shared : ∃ c, a ≤ c ∧ c < a + n ∧ b / 128 = c / 128
    · obtain ⟨c, lo, hi, e⟩ := shared
      rw [keyByte_of_plain (e ▸ plain c lo hi), keyByte_of_plain (s := u) (e ▸ plain c lo hi)]
      exact memByte_memWrite_ne _ _ _ _ out
    · refine keyByte_congr key rfl fun c hc => memByte_memWrite_ne _ _ _ _ ?_
      by_contra within
      exact shared ⟨c, by omega, by omega, hc.symm⟩
  · rw [frame2, frame1]

/-- Settles O60: a piece of plain bytes is written under its key, which has taken over the lines that it touches. -/
theorem memoryReadsBack : Obligations.MemoryReadsBack := by
  intro s p v wf peer mx some most
  have write : pieceWrite s p v = keyWrite s p.key p.loc p.n v := by simp only [pieceWrite, peer, mx, Bool.false_eq_true, if_false, if_true]
  have read : ∀ t, pieceRead t p = keyRead t p.key p.loc p.n := fun t => by simp only [pieceRead, peer, mx, Bool.false_eq_true, if_false, if_true]
  obtain ⟨back, others, m, l, frame⟩ := keyWrite_reads wf p.key (a := p.loc) v some most
  have kept := pieceWrite_wf wf p v
  rw [write] at kept ⊢
  exact ⟨(read _).trans back, kept, others, by rw [frame]⟩

end Sys2Proof.Machine
end

section
/-! Exact values of the number formats as real numbers (R89): what sums, differences and compares of them say of those numbers, and which values the encodings of f32 have. -/

namespace Sys2Proof.Machine

/-- The sign of a value as a factor. -/
noncomputable def signFactor (neg : Bool) : ℝ := if neg then -1 else 1

/-- The real number of a value, an infinity of f32 standing for 2^128 (R154) and a NaN for 0. -/
noncomputable def FVal.real : FVal → ℝ
  | .fin n m e => signFactor n * m * 2 ^ e
  | .inf n => signFactor n * 2 ^ 128
  | .nan _ => 0

@[simp] theorem signFactor_false : signFactor false = 1 := rfl
@[simp] theorem signFactor_true : signFactor true = -1 := rfl
@[simp] theorem abs_signFactor (n : Bool) : |signFactor n| = 1 := by cases n <;> simp
@[simp] theorem signFactor_not (n : Bool) : signFactor (!n) = -signFactor n := by cases n <;> simp

theorem FVal.real_fin (n : Bool) (m : Nat) (e : Int) : (FVal.fin n m e).real = signFactor n * m * 2 ^ e := rfl
theorem FVal.real_inf (n : Bool) : (FVal.inf n).real = signFactor n * 2 ^ 128 := rfl

theorem FVal.abs_real_fin (n : Bool) (m : Nat) (e : Int) : |(FVal.fin n m e).real| = m * 2 ^ e := by
  rw [FVal.real_fin, abs_mul, abs_mul, abs_signFactor, one_mul, Nat.abs_cast, abs_of_pos (by positivity)]

theorem FVal.real_negate (x : FVal) : x.negate.real = -x.real := by
  cases x <;> simp [FVal.negate, FVal.real]

/-- A number of units of 2^e is one of smaller units. -/
theorem shift_units (m : Nat) {e q : Int} (h : q ≤ e) : ((m * 2 ^ (e - q).toNat : Nat) : ℝ) * 2 ^ q = m * 2 ^ e := by
  have split : (2 : ℝ) ^ e = 2 ^ (e - q).toNat * 2 ^ q := by
    rw [← zpow_natCast, ← zpow_add₀ two_ne_zero, Int.toNat_of_nonneg (by omega)]; congr 1; omega
  rw [split]; push_cast; ring

theorem leScaled_iff (a : Nat) (ae : Int) (b : Nat) (be : Int) : leScaled a ae b be = true ↔ (a : ℝ) * 2 ^ ae ≤ b * 2 ^ be := by
  unfold leScaled
  split
  · next h => rw [decide_eq_true_iff, ← shift_units b h, mul_le_mul_iff_left₀ (by positivity), Nat.cast_le]
  · next h => rw [decide_eq_true_iff, ← shift_units a (e := ae) (q := be) (by omega), mul_le_mul_iff_left₀ (by positivity), Nat.cast_le]

/-! Differences and compares. -/

/-- The unit in which a difference of two values is taken. -/
def diffUnit (x y : FVal) : Int := minExp [x, y.negate] 1000000

theorem diffAt_real (n n' : Bool) (m m' : Nat) (e e' : Int) :
    (diffAt (.fin n m e) (.fin n' m' e') : ℝ) * 2 ^ diffUnit (.fin n m e) (.fin n' m' e') = (FVal.fin n m e).real - (FVal.fin n' m' e').real := by
  have low : diffUnit (.fin n m e) (.fin n' m' e') ≤ e ∧ diffUnit (.fin n m e) (.fin n' m' e') ≤ e' := by
    simp only [diffUnit, minExp, FVal.negate]; omega
  have value : diffAt (.fin n m e) (.fin n' m' e') = sumAt (diffUnit (.fin n m e) (.fin n' m' e')) [.fin n m e, .fin (!n') m' e'] := rfl
  generalize diffUnit (.fin n m e) (.fin n' m' e') = q at low value
  rw [value, FVal.real_fin, FVal.real_fin, mul_assoc, mul_assoc, ← shift_units m low.1, ← shift_units m' low.2]
  simp only [sumAt]
  cases n <;> cases n' <;> simp <;> ring

theorem ltF_fin_iff (n n' : Bool) (m m' : Nat) (e e' : Int) : ltF (.fin n m e) (.fin n' m' e') = true ↔ (FVal.fin n m e).real < (FVal.fin n' m' e').real := by
  rw [ltF_finite, decide_eq_true_iff, ← sub_neg (a := (FVal.fin n m e).real), ← diffAt_real, mul_neg_iff]
  have unit : (0 : ℝ) < 2 ^ diffUnit (.fin n m e) (.fin n' m' e') := by positivity
  simp [unit, unit.not_gt]

theorem eqF_fin_iff (n n' : Bool) (m m' : Nat) (e e' : Int) : eqF (.fin n m e) (.fin n' m' e') = true ↔ (FVal.fin n m e).real = (FVal.fin n' m' e').real := by
  rw [eqF_finite, decide_eq_true_iff, ← sub_eq_zero (a := (FVal.fin n m e).real), ← diffAt_real, mul_eq_zero, or_iff_left (by positivity), Int.cast_eq_zero]

/-- The magnitude of a difference is the distance of the two numbers. -/
theorem magnitude_difference (n n' : Bool) (m m' : Nat) (e e' : Int) : ∃ d g, (sumF [.fin n m e, (FVal.fin n' m' e').negate]).magnitude = .fin false d g ∧
    (d : ℝ) * 2 ^ g = |(FVal.fin n m e).real - (FVal.fin n' m' e').real| := by
  rw [sumF_finite, ← diffAt_real]
  split
  · next h => exact ⟨0, 0, rfl, by simp [h]⟩
  · refine ⟨_, _, rfl, ?_⟩
    rw [abs_mul, abs_of_pos (a := (2 : ℝ) ^ _) (by positivity), ← Int.cast_abs, ← Int.natCast_natAbs, Int.cast_natCast]
    rfl

/-! The encodings of f32. -/

/-- The value of an encoding by its sign, exponent and fraction fields (R90, R91). -/
theorem decode_f32 (r : Nat) : decodeF f32 r =
    if r / 2 ^ 23 % 2 ^ 8 = 255 then (if r % 2 ^ 23 = 0 then .inf (r / 2 ^ 31 % 2 == 1) else .nan (r % 2 ^ 23 / 2 ^ 22 == 0))
    else if r / 2 ^ 23 % 2 ^ 8 = 0 then .fin (r / 2 ^ 31 % 2 == 1) (r % 2 ^ 23) (-149)
    else .fin (r / 2 ^ 31 % 2 == 1) (2 ^ 23 + r % 2 ^ 23) ((r / 2 ^ 23 % 2 ^ 8 : Nat) - 150) := by
  simp only [decodeF, f32, beq_iff_eq, Bool.true_and, Bool.and_false, Bool.not_true, Bool.false_and, Bool.false_eq_true, if_false]
  refine if_congr Iff.rfl (if_congr Iff.rfl rfl rfl) (if_congr Iff.rfl rfl ?_)
  congr 1
  push_cast
  ring

/-- The range of a finite encoding: at most 24 significand bits, all of them used but at the least exponent. -/
theorem decode_f32_range {r : Nat} {n : Bool} {m : Nat} {e : Int} (h : decodeF f32 r = .fin n m e) :
    m < 2 ^ 24 ∧ -149 ≤ e ∧ e ≤ 104 ∧ (m < 2 ^ 23 → e = -149) := by
  rw [decode_f32] at h
  split at h
  · split at h <;> cases h
  · split at h <;> cases h <;> omega

/-- A finite encoding lies below the infinities. -/
theorem decode_f32_lt {r : Nat} {n : Bool} {m : Nat} {e : Int} (h : decodeF f32 r = .fin n m e) : |(FVal.fin n m e).real| < 2 ^ 128 := by
  obtain ⟨hm, -, he, -⟩ := decode_f32_range h
  have bound : (m : ℝ) < 2 ^ 24 := by exact_mod_cast hm
  calc |(FVal.fin n m e).real| = m * 2 ^ e := FVal.abs_real_fin ..
    _ < 2 ^ 24 * 2 ^ e := by gcongr
    _ ≤ 2 ^ 24 * 2 ^ (104 : ℤ) := by gcongr; norm_num
    _ = 2 ^ 128 := by norm_num

/-- Values that are no NaN and lie within f32: what its encodings decode to. -/
def FVal.Within (x : FVal) : Prop := match x with
  | .fin n m e => |(FVal.fin n m e).real| < 2 ^ 128
  | .inf _ => True
  | .nan _ => False

theorem within_of_decode {r : Nat} (h : (decodeF f32 r).isNan = false) : (decodeF f32 r).Within := by
  cases e : decodeF f32 r with
  | nan => rw [e] at h; cases h
  | inf => trivial
  | fin => exact decode_f32_lt e

/-- Values of f32 compare as their real numbers (R156). -/
theorem ltF_iff {x y : FVal} (hx : x.Within) (hy : y.Within) : ltF x y = true ↔ x.real < y.real := by
  cases x with
  | nan => cases hx
  | inf a => cases y with
    | nan => cases hy
    | inf b => cases a <;> cases b <;> simp [ltF, FVal.real_inf]
    | fin n m e =>
      have inside := abs_lt.mp (show |(FVal.fin n m e).real| < 2 ^ 128 from hy)
      cases a
      · simpa [ltF, FVal.real_inf] using inside.2.le
      · simpa [ltF, FVal.real_inf] using inside.1
  | fin n m e => cases y with
    | nan => cases hy
    | inf b =>
      have inside := abs_lt.mp (show |(FVal.fin n m e).real| < 2 ^ 128 from hx)
      cases b
      · simpa [ltF, FVal.real_inf] using inside.2
      · simpa [ltF, FVal.real_inf] using inside.1.le
    | fin => exact ltF_fin_iff ..

theorem isNan_of_within {x : FVal} (h : x.Within) : x.isNan = false := by
  cases x with
  | nan => cases h
  | inf | fin => rfl

theorem eqF_iff {x y : FVal} (hx : x.Within) (hy : y.Within) : eqF x y = true ↔ x.real = y.real := by
  cases x with
  | nan => cases hx
  | inf a => cases y with
    | nan => cases hy
    | inf b => cases a <;> cases b <;> simp [eqF, FVal.real_inf] <;> norm_num
    | fin n m e =>
      have inside := abs_lt.mp (show |(FVal.fin n m e).real| < 2 ^ 128 from hy)
      cases a
      · simpa [eqF, FVal.real_inf] using inside.2.ne'
      · simpa [eqF, FVal.real_inf] using inside.1.ne
  | fin n m e => cases y with
    | nan => cases hy
    | inf b =>
      have inside := abs_lt.mp (show |(FVal.fin n m e).real| < 2 ^ 128 from hx)
      cases b
      · simpa [eqF, FVal.real_inf] using inside.2.ne
      · simpa [eqF, FVal.real_inf] using inside.1.ne'
    | fin => exact eqF_fin_iff ..

end Sys2Proof.Machine
end

section
/-! Rounding to nearest even in f32 (R93): how far the encoding of an exact value lies from it, and when it is exact. -/

namespace Sys2Proof.Machine

/-- A magnitude rounded to nearest lies within half a unit, and is marked as changed where it is not the same. -/
theorem roundAt_near (neg : Bool) (m : Nat) (e qe : Int) :
    |((roundAt .rn neg m e qe).1 : ℝ) * 2 ^ qe - m * 2 ^ e| ≤ 2 ^ qe / 2 ∧
    ((roundAt .rn neg m e qe).2 = false ↔ ((roundAt .rn neg m e qe).1 : ℝ) * 2 ^ qe = m * 2 ^ e) := by
  unfold roundAt
  split
  · next h =>
    rw [shift_units m h, sub_self, abs_zero]
    exact ⟨by positivity, by simp⟩
  · next h =>
    have unit : (2 : ℝ) ^ qe = (2 ^ (qe - e).toNat : Nat) * 2 ^ e := by
      rw [Nat.cast_pow, Nat.cast_ofNat, ← zpow_natCast, ← zpow_add₀ two_ne_zero, Int.toNat_of_nonneg (by omega)]; congr 1; omega
    rw [unit]
    have pos : 0 < 2 ^ (qe - e).toNat := by positivity
    generalize 2 ^ (qe - e).toNat = w at pos
    have split := Nat.div_add_mod m w
    have less := Nat.mod_lt m pos
    generalize hr : m % w = r at *
    -- the kept part, rounded up or not, in smaller units
    obtain ⟨q, hq, near, same⟩ : ∃ q, (if roundsUp .rn neg (m / w) r w then m / w + 1 else m / w) = q ∧
        (2 * m ≤ 2 * (w * q) + w ∧ 2 * (w * q) ≤ 2 * m + w) ∧ (r = 0 ↔ w * q = m) := by
      refine ⟨_, rfl, ?_⟩
      cases up : roundsUp .rn neg (m / w) r w with
      | true =>
        simp only [roundsUp, Bool.or_eq_true, decide_eq_true_eq, Bool.and_eq_true, beq_iff_eq] at up
        rw [if_pos rfl, Nat.mul_add, Nat.mul_one]
        omega
      | false =>
        simp only [roundsUp, Bool.or_eq_false_iff, decide_eq_false_iff_not] at up
        rw [if_neg (by simp)]
        omega
    simp only [hr, hq]
    have near' : |(q : ℝ) * w - m| ≤ w / 2 := by
      have h1 : (2 * m : ℝ) ≤ 2 * (w * q) + w := by exact_mod_cast near.1
      have h2 : (2 * (w * q) : ℝ) ≤ 2 * m + w := by exact_mod_cast near.2
      rw [abs_le]; constructor <;> linarith
    have small : (0 : ℝ) < 2 ^ e := by positivity
    constructor
    · rw [← mul_assoc, ← sub_mul, abs_mul, abs_of_pos small, mul_div_right_comm]
      gcongr
    · rw [← mul_assoc, mul_left_inj' small.ne', bne_eq_false_iff_eq, same, mul_comm w]
      exact_mod_cast Iff.rfl

/-- The leading bit of a number in real terms. -/
theorem log2_bounds {m : Nat} (pos : m ≠ 0) (e : Int) : (2 : ℝ) ^ ((Nat.log2 m : Int) + e) ≤ m * 2 ^ e ∧ (m : ℝ) * 2 ^ e < 2 ^ ((Nat.log2 m : Int) + e + 1) := by
  have lo : ((2 ^ Nat.log2 m : Nat) : ℝ) ≤ m := Nat.cast_le.mpr (Nat.log2_self_le pos)
  have hi : (m : ℝ) < (2 ^ (Nat.log2 m + 1) : Nat) := Nat.cast_lt.mpr Nat.lt_log2_self
  push_cast at lo hi
  constructor
  · rw [zpow_add₀ two_ne_zero, zpow_natCast]; gcongr
  · rw [show (Nat.log2 m : Int) + e + 1 = ((Nat.log2 m + 1 : Nat) : Int) + e by push_cast; ring, zpow_add₀ two_ne_zero, zpow_natCast]; gcongr

/-- The spacing of f32 at a real number (R154). -/
noncomputable def spacing (x : ℝ) : ℝ := 2 ^ max (Int.log 2 |x| - 23) (-149)

theorem spacing_pos (x : ℝ) : 0 < spacing x := by unfold spacing; positivity

theorem spacing_mono {x y : ℝ} (pos : 0 < |x|) (le : |x| ≤ |y|) : spacing x ≤ spacing y := by
  have := Int.log_mono_right (b := 2) pos le
  exact zpow_le_zpow_right₀ one_le_two (by omega)

/-- The leading bit of a real number. -/
theorem intLog_eq {x : ℝ} {k : Int} (lo : (2 : ℝ) ^ k ≤ x) (hi : x < 2 ^ (k + 1)) : Int.log 2 x = k := by
  have pos : 0 < x := lt_of_lt_of_le (by positivity) lo
  have h1 := (Int.zpow_le_iff_le_log (R := ℝ) Nat.one_lt_two pos (x := k)).mp (by exact_mod_cast lo)
  have h2 := (Int.lt_zpow_iff_log_lt (R := ℝ) Nat.one_lt_two pos (x := k + 1)).mp (by exact_mod_cast hi)
  omega

theorem ulpExp_fin {n : Bool} {m : Nat} {e : Int} (pos : m ≠ 0) : ulpExp (.fin n m e) = max ((Nat.log2 m : Int) + e - 23) (-149) := by
  rw [ulpExp, if_neg (by simpa using pos)]

/-- The model's exponent of the spacing is that of the real number. -/
theorem spacing_eq {n : Bool} {m : Nat} {e : Int} (pos : m ≠ 0) : (2 : ℝ) ^ ulpExp (.fin n m e) = spacing (FVal.fin n m e).real := by
  obtain ⟨lo, hi⟩ := log2_bounds pos e
  rw [spacing, FVal.abs_real_fin, intLog_eq lo hi, ulpExp_fin pos]

/-- The encoding of f32 that has a significand q, its leading bit hidden where it has 24, in units of 2^qe (R90). -/
def fieldsF32 (n : Bool) (q : Nat) (qe : Int) : Nat :=
  if q < 2 ^ 23 then signBit f32 n + q else signBit f32 n + (qe + 150).toNat * 2 ^ 23 + (q - 2 ^ 23)

theorem decode_fieldsF32 (n : Bool) {q : Nat} {qe : Int} (low : -149 ≤ qe) (few : q < 2 ^ 24) (sub : q < 2 ^ 23 → qe = -149) (high : qe ≤ 104) :
    fieldsF32 n q qe < 2 ^ 32 ∧ decodeF f32 (fieldsF32 n q qe) = .fin n q qe := by
  have sign : signBit f32 n = 2 ^ 31 * n.toNat := by cases n <;> rfl
  have bool : n.toNat < 2 := n.toNat_lt
  have top : ∀ x, x < 2 ^ 31 → ((2 ^ 31 * n.toNat + x) / 2 ^ 31 % 2 == 1) = n := fun x hx => by
    rw [show (2 ^ 31 * n.toNat + x) / 2 ^ 31 % 2 = n.toNat by omega]; cases n <;> rfl
  generalize hr : fieldsF32 n q qe = r
  rw [fieldsF32] at hr
  by_cases h : q < 2 ^ 23
  · have e : r = 2 ^ 31 * n.toNat + q := by rw [← hr, if_pos h, sign]
    refine ⟨by omega, ?_⟩
    rw [decode_f32, if_neg (by omega), if_pos (by omega), e, top q (by omega), sub h]
    congr 1; omega
  · have e : r = 2 ^ 31 * n.toNat + ((qe + 150).toNat * 2 ^ 23 + (q - 2 ^ 23)) := by rw [← hr, if_neg h, sign, Nat.add_assoc]
    have field : r / 2 ^ 23 % 2 ^ 8 = (qe + 150).toNat := by omega
    have fraction : 2 ^ 23 + r % 2 ^ 23 = q := by omega
    have exponent : ((qe + 150).toNat : Int) - 150 = qe := by omega
    refine ⟨by omega, ?_⟩
    rw [decode_f32, field, if_neg (by omega), if_neg (by omega), fraction, exponent, e, top _ (by omega)]

/-- The encoding of a rounded significand q in units of 2^qe, with its flags: overflow to an infinity, a subnormal, or a significand with its leading bit hidden (R93, R94). -/
def placeF32 (n : Bool) (q : Nat) (qe : Int) (fl : BitVec 5) : Nat × BitVec 5 :=
  if leScaled q qe 0xFFFFFF 104 then (if q = 2 ^ 24 then fieldsF32 n (2 ^ 23) (qe + 1) else fieldsF32 n q qe, fl)
  else (signBit f32 n + 255 * 2 ^ 23, fl ||| flOF ||| flNX)

/-- Rounding to nearest even in f32; only a value below the normal range is tiny (R93). -/
theorem encRn_eq {n : Bool} {m : Nat} {e : Int} (pos : m ≠ 0) : ∃ tiny : Bool, (-126 ≤ (Nat.log2 m : Int) + e → tiny = false) ∧
    encRn f32 (.fin n m e) = placeF32 n (roundAt .rn n m e (ulpExp (.fin n m e))).1 (ulpExp (.fin n m e))
      ((if (roundAt .rn n m e (ulpExp (.fin n m e))).2 then flNX else 0) |||
        if (roundAt .rn n m e (ulpExp (.fin n m e))).2 && tiny then flUF else 0) := by
  have unit : max ((Nat.log2 m : Int) + e - 23) (-149) = ulpExp (.fin n m e) := (ulpExp_fin pos).symm
  refine ⟨decide ((Nat.log2 (roundAt .rn n m e ((Nat.log2 m : Int) + e - 23)).1 : Int) + ((Nat.log2 m : Int) + e - 23) < 1 - 127), fun normal => ?_, ?_⟩
  · -- a rounded significand keeps at least 24 bits
    obtain ⟨near, -⟩ := roundAt_near n m e ((Nat.log2 m : Int) + e - 23)
    obtain ⟨lo, -⟩ := log2_bounds pos e
    generalize (roundAt .rn n m e ((Nat.log2 m : Int) + e - 23)).1 = q at near
    have many : 2 ^ 23 ≤ q := by
      by_contra few
      have few' : (q : ℝ) ≤ 2 ^ 23 - 1 := by
        have : q + 1 ≤ 2 ^ 23 := by omega
        have : (q : ℝ) + 1 ≤ 2 ^ 23 := by exact_mod_cast this
        linarith
      have split : (2 : ℝ) ^ ((Nat.log2 m : Int) + e) = 2 ^ 23 * 2 ^ ((Nat.log2 m : Int) + e - 23) := by
        rw [← zpow_natCast, ← zpow_add₀ two_ne_zero]; congr 1; push_cast; ring
      have unit : (0 : ℝ) < 2 ^ ((Nat.log2 m : Int) + e - 23) := by positivity
      rw [split] at lo
      nlinarith [(abs_le.mp near).1]
    have := (Nat.le_log2 (by omega)).mpr many
    simp only [decide_eq_false_iff_not]
    omega
  · rw [encRn, encodeF, if_neg (by simpa using pos), ← unit]
    simp only [show f32.bias = 127 from rfl,
      show f32.mb = 23 from rfl, show (1 : Int) - 127 - 23 = -149 from rfl, Nat.cast_ofNat,  show f32.maxM = 0xFFFFFF from rfl, show f32.maxE = 104 from rfl]
    generalize roundAt .rn n m e (max ((Nat.log2 m : Int) + e - 23) (-149)) = p
    generalize roundAt .rn n m e ((Nat.log2 m : Int) + e - 23) = p'
    obtain ⟨q, nx⟩ := p
    obtain ⟨q2, -⟩ := p'
    generalize max ((Nat.log2 m : Int) + e - 23) (-149) = qe
    unfold placeF32
    cases leScaled q qe 0xFFFFFF 104 with
    | false => rfl
    | true =>
      by_cases whole : q = 2 ^ 24
      · have all : (q == 2 ^ (23 + 1)) = true := by simpa using whole
        have many : ¬ q < 2 ^ 23 := by omega
        simp only [Bool.not_true, Bool.false_eq_true, if_false, if_true, all, many, fieldsF32, Int.add_assoc]
        simp only [whole, if_true, lt_irrefl, if_false]
        rfl
      · have other : (q == 2 ^ (23 + 1)) = false := by simpa using whole
        simp only [Bool.not_true, Bool.false_eq_true, if_false, if_true, other, whole, fieldsF32, Int.add_assoc]
        split <;> rfl

/-- Of the rounded significands of values up to 2^128, only those of 2^128 itself overflow. -/
theorem overflow_value {q : Nat} {qe : Int} (few : q ≤ 2 ^ 24) (sub : q < 2 ^ 23 → qe = -149) (top : (q : ℝ) * 2 ^ qe ≤ 2 ^ 128)
    (past : ¬ leScaled q qe 0xFFFFFF 104 = true) : (q : ℝ) * 2 ^ qe = 2 ^ 128 := by
  have gt := not_le.mp (mt (leScaled_iff ..).mpr past)
  have ge : 104 ≤ qe := by
    by_contra h
    have : (q : ℝ) * 2 ^ qe ≤ 2 ^ 24 * 2 ^ (103 : ℤ) := by gcongr <;> [exact_mod_cast few; norm_num; omega]
    norm_num at this gt
    linarith
  have many : 2 ^ 23 ≤ q := not_lt.mp fun h => by have := sub h; omega
  have many' : (2 : ℝ) ^ 23 ≤ q := by exact_mod_cast many
  have le : qe ≤ 105 := by
    by_contra h
    have : (2 : ℝ) ^ 23 * 2 ^ (106 : ℤ) ≤ q * 2 ^ qe := by gcongr <;> [norm_num; omega]
    norm_num at this top
    linarith
  rcases (show qe = 104 ∨ qe = 105 by omega) with rfl | rfl
  · have whole : q = 2 ^ 24 := by
      have : 0xFFFFFF < q := by exact_mod_cast lt_of_mul_lt_mul_right gt (by positivity)
      omega
    rw [whole]; norm_num
  · norm_num at top ⊢
    have : (8388608 : ℝ) ≤ q := by exact_mod_cast many
    linarith

/-- The encoding of a rounded significand: an infinity or a number, and up to 2^128 the number that the significand stands for. -/
theorem decode_placeF32 (n : Bool) {q : Nat} {qe : Int} (fl : BitVec 5) (low : -149 ≤ qe) (few : q ≤ 2 ^ 24) (sub : q < 2 ^ 23 → qe = -149) :
    (placeF32 n q qe fl).1 < 2 ^ 32 ∧ (decodeF f32 (placeF32 n q qe fl).1).isNan = false ∧
    ((q : ℝ) * 2 ^ qe ≤ 2 ^ 128 → (decodeF f32 (placeF32 n q qe fl).1).real = signFactor n * q * 2 ^ qe) := by
  unfold placeF32
  by_cases fits : leScaled q qe 0xFFFFFF 104 = true
  · rw [if_pos fits]
    have le := (leScaled_iff ..).mp fits
    have high : qe ≤ 104 := by
      by_contra h
      have many : (2 : ℝ) ^ 23 ≤ q := by exact_mod_cast not_lt.mp fun h' => (by have := sub h'; omega : False)
      have : (2 : ℝ) ^ 23 * 2 ^ (105 : ℤ) ≤ q * 2 ^ qe := by gcongr <;> [norm_num; omega]
      norm_num at this le
      linarith
    by_cases whole : q = 2 ^ 24
    · rw [if_pos whole]
      have high' : qe + 1 ≤ 104 := by
        by_contra h
        have : qe = 104 := by omega
        rw [this, whole] at le
        norm_num at le
      obtain ⟨lt, value⟩ := decode_fieldsF32 n (q := 2 ^ 23) (qe := qe + 1) (by omega) (by norm_num) (fun h => absurd h (lt_irrefl _)) high'
      refine ⟨lt, by rw [value]; rfl, fun _ => ?_⟩
      rw [value, FVal.real_fin, whole, zpow_add_one₀ two_ne_zero]
      push_cast
      ring
    · rw [if_neg whole]
      obtain ⟨lt, value⟩ := decode_fieldsF32 n low (by omega) sub high
      exact ⟨lt, by rw [value]; rfl, fun _ => by rw [value, FVal.real_fin]⟩
  · rw [if_neg fits]
    obtain ⟨lt, inf⟩ : signBit f32 n + 255 * 2 ^ 23 < 2 ^ 32 ∧ decodeF f32 (signBit f32 n + 255 * 2 ^ 23) = .inf n := by cases n <;> decide
    refine ⟨lt, by rw [inf]; rfl, fun top => ?_⟩
    rw [inf, FVal.real_inf, mul_assoc, overflow_value few sub top fits]

/-- The rounded significand of a value: at most 24 bits or the next power, and fewer only at the least exponent. -/
theorem rounded_bits {n : Bool} {m : Nat} {e : Int} (pos : m ≠ 0) :
    -149 ≤ ulpExp (.fin n m e) ∧ (roundAt .rn n m e (ulpExp (.fin n m e))).1 ≤ 2 ^ 24 ∧
    ((roundAt .rn n m e (ulpExp (.fin n m e))).1 < 2 ^ 23 → ulpExp (.fin n m e) = -149) := by
  have unit := ulpExp_fin (n := n) (e := e) pos
  obtain ⟨lo, hi⟩ := log2_bounds pos e
  obtain ⟨near, -⟩ := roundAt_near n m e (ulpExp (.fin n m e))
  generalize ulpExp (.fin n m e) = qe at *
  generalize (roundAt .rn n m e qe).1 = q at near
  obtain ⟨below, above⟩ := abs_le.mp near
  have half : (0 : ℝ) < 2 ^ qe := by positivity
  refine ⟨by omega, ?_, fun small => ?_⟩
  · have : (m : ℝ) * 2 ^ e < 2 ^ 24 * 2 ^ qe := hi.trans_le (by
      rw [← zpow_natCast, ← zpow_add₀ two_ne_zero]; exact zpow_le_zpow_right₀ one_le_two (by push_cast; omega))
    have : (q : ℝ) < 2 ^ 24 + 1 := by nlinarith
    have : q < 2 ^ 24 + 1 := by exact_mod_cast this
    omega
  · by_contra normal
    have : (2 : ℝ) ^ 23 * 2 ^ qe ≤ m * 2 ^ e := le_trans (by
      rw [← zpow_natCast, ← zpow_add₀ two_ne_zero]; exact zpow_le_zpow_right₀ one_le_two (by push_cast; omega)) lo
    have : (2 : ℝ) ^ 23 < q + 1 := by nlinarith
    have : 2 ^ 23 < q + 1 := by exact_mod_cast this
    omega

/-- A value up to 2^128 is rounded to one up to 2^128. -/
theorem rounded_top {n : Bool} {m : Nat} {e : Int} (pos : m ≠ 0) (top : (m : ℝ) * 2 ^ e ≤ 2 ^ 128) :
    ((roundAt .rn n m e (ulpExp (.fin n m e))).1 : ℝ) * 2 ^ ulpExp (.fin n m e) ≤ 2 ^ 128 := by
  have unit := ulpExp_fin (n := n) (e := e) pos
  have lead : (Nat.log2 m : Int) + e ≤ 128 :=
    (zpow_le_zpow_iff_right₀ (one_lt_two (α := ℝ))).mp ((log2_bounds pos e).1.trans (by exact_mod_cast top))
  obtain ⟨near, -⟩ := roundAt_near n m e (ulpExp (.fin n m e))
  obtain ⟨-, few, -⟩ := rounded_bits (n := n) (e := e) pos
  generalize ulpExp (.fin n m e) = qe at *
  generalize (roundAt .rn n m e qe).1 = q at near few
  obtain ⟨below, above⟩ := abs_le.mp near
  rcases (show qe ≤ 104 ∨ qe = 105 by omega) with high | rfl
  · calc (q : ℝ) * 2 ^ qe ≤ 2 ^ 24 * 2 ^ (104 : ℤ) := by gcongr <;> [exact_mod_cast few; norm_num]
      _ = 2 ^ 128 := by norm_num
  · have : (q : ℝ) < 2 ^ 23 + 1 := by norm_num at above top; linarith
    have : q < 2 ^ 23 + 1 := by exact_mod_cast this
    have : (q : ℝ) ≤ 2 ^ 23 := by exact_mod_cast Nat.lt_succ_iff.mp this
    norm_num
    linarith

/-- What a value is rounded to is an encoding of f32. -/
theorem encRn_lt (x : FVal) : (encRn f32 x).1 < 2 ^ 32 := by
  cases x with
  | nan sig => exact (by norm_num : 0x7FC00000 < 2 ^ 32)
  | inf n => cases n <;> exact (by decide)
  | fin n m e =>
    by_cases pos : m = 0
    · subst pos
      show signBit f32 n < 2 ^ 32
      cases n <;> decide
    · obtain ⟨tiny, -, code⟩ := encRn_eq (n := n) (e := e) pos
      obtain ⟨low, few, sub⟩ := rounded_bits (n := n) (e := e) pos
      rw [code]
      exact (decode_placeF32 n _ low few sub).1

/-- What a value up to 2^128 is rounded to, as a real number. -/
theorem encRn_real {n : Bool} {m : Nat} {e : Int} (pos : m ≠ 0) (top : (m : ℝ) * 2 ^ e ≤ 2 ^ 128) :
    (decodeF f32 (encRn f32 (.fin n m e)).1).real = signFactor n * (roundAt .rn n m e (ulpExp (.fin n m e))).1 * 2 ^ ulpExp (.fin n m e) := by
  obtain ⟨tiny, -, code⟩ := encRn_eq (n := n) (e := e) pos
  obtain ⟨low, few, sub⟩ := rounded_bits (n := n) (e := e) pos
  rw [code]
  exact (decode_placeF32 n _ low few sub).2.2 (rounded_top pos top)

/-- A finite value rounded to nearest: within half the spacing of it, up to 2^128. -/
theorem encRn_near {n : Bool} {m : Nat} {e : Int} (top : (m : ℝ) * 2 ^ e ≤ 2 ^ 128) :
    (encRn f32 (.fin n m e)).1 < 2 ^ 32 ∧ (decodeF f32 (encRn f32 (.fin n m e)).1).isNan = false ∧
    |(decodeF f32 (encRn f32 (.fin n m e)).1).real - (FVal.fin n m e).real| ≤ 2 ^ ulpExp (.fin n m e) / 2 := by
  by_cases pos : m = 0
  · subst pos
    have zero : (encRn f32 (.fin n 0 e)).1 = signBit f32 n := rfl
    obtain ⟨lt, value⟩ : signBit f32 n < 2 ^ 32 ∧ decodeF f32 (signBit f32 n) = .fin n 0 (-149) := by cases n <;> decide
    rw [zero, value]
    refine ⟨lt, rfl, ?_⟩
    simp only [FVal.real_fin, Nat.cast_zero, mul_zero, zero_mul, sub_zero, abs_zero]
    positivity
  obtain ⟨tiny, -, code⟩ := encRn_eq (n := n) (e := e) pos
  obtain ⟨low, few, sub⟩ := rounded_bits (n := n) (e := e) pos
  obtain ⟨lt, nan, -⟩ := decode_placeF32 n _ low few sub
  rw [code]
  refine ⟨lt, nan, ?_⟩
  rw [← code, encRn_real pos top, FVal.real_fin, mul_assoc, mul_assoc, ← mul_sub, abs_mul, abs_signFactor, one_mul]
  exact (roundAt_near ..).1

/-- The flags of a value rounded below 2^128: NX where rounding changed it, and UF besides where it is tiny. -/
theorem encRn_flags {n : Bool} {m : Nat} {e : Int} (pos : m ≠ 0) (below : ((roundAt .rn n m e (ulpExp (.fin n m e))).1 : ℝ) * 2 ^ ulpExp (.fin n m e) < 2 ^ 128)
    (top : (m : ℝ) * 2 ^ e ≤ 2 ^ 128) : ∃ tiny : Bool, (-126 ≤ (Nat.log2 m : Int) + e → tiny = false) ∧
    (encRn f32 (.fin n m e)).2 = (if (roundAt .rn n m e (ulpExp (.fin n m e))).2 then flNX else 0) |||
      if (roundAt .rn n m e (ulpExp (.fin n m e))).2 && tiny then flUF else 0 := by
  obtain ⟨tiny, normal, code⟩ := encRn_eq (n := n) (e := e) pos
  obtain ⟨-, few, sub⟩ := rounded_bits (n := n) (e := e) pos
  refine ⟨tiny, normal, ?_⟩
  rw [code, placeF32, if_pos]
  by_contra past
  exact below.ne (overflow_value few sub (rounded_top pos top) past)

/-- A value of no finer unit than the spacing is encoded exactly and raises no flag. -/
theorem encRn_exact {n : Bool} {m : Nat} {e : Int} (pos : m ≠ 0) (unit : ulpExp (.fin n m e) ≤ e) (below : (m : ℝ) * 2 ^ e < 2 ^ 128) :
    (encRn f32 (.fin n m e)).2 = 0 ∧ (decodeF f32 (encRn f32 (.fin n m e)).1).real = (FVal.fin n m e).real := by
  have same : (roundAt .rn n m e (ulpExp (.fin n m e))).2 = false := by rw [roundAt, if_pos unit]
  have value := (roundAt_near n m e (ulpExp (.fin n m e))).2.mp same
  obtain ⟨tiny, -, flags⟩ := encRn_flags (n := n) pos (value ▸ below) below.le
  constructor
  · rw [flags, same]; simp
  · rw [encRn_real pos below.le, FVal.real_fin, mul_assoc, mul_assoc, value]

/-! The values that a special function may give (R154; log entry 7). -/

/-- An encoding that passes the check of a bound is no NaN and lies within it. -/
theorem withinBound_dist {n : Bool} {m : Nat} {e : Int} {y k : Nat} {b : Int} {strict : Bool} (h : withinBound (.fin n m e) y k b strict = true) :
    (decodeF f32 y).isNan = false ∧ |(decodeF f32 y).real - (FVal.fin n m e).real| ≤ k * 2 ^ b ∧
    (strict = true → |(decodeF f32 y).real - (FVal.fin n m e).real| < k * 2 ^ b) := by
  have bounded : ∀ n' m' e', (match (sumF [.fin n' m' e', (FVal.fin n m e).negate]).magnitude with
      | .fin _ d g => if strict then !leScaled k b d g else leScaled d g k b
      | _ => false) = true → |(FVal.fin n' m' e').real - (FVal.fin n m e).real| ≤ k * 2 ^ b ∧
        (strict = true → |(FVal.fin n' m' e').real - (FVal.fin n m e).real| < k * 2 ^ b) := by
    intro n' m' e' h
    obtain ⟨d, g, difference, dist⟩ := magnitude_difference n' n m' m e' e
    rw [difference] at h
    rw [← dist]
    cases strict with
    | false => exact ⟨(leScaled_iff ..).mp h, fun h => by cases h⟩
    | true =>
      have less : (d : ℝ) * 2 ^ g < k * 2 ^ b := not_le.mp fun le => by
        have := (leScaled_iff ..).mpr le
        simp [this] at h
      exact ⟨less.le, fun _ => less⟩
  unfold withinBound boundVal at h
  cases value : decodeF f32 y with
  | nan => rw [value] at h; cases h
  | inf n' =>
    rw [value] at h
    have same : (FVal.inf n').real = (FVal.fin n' 1 128).real := by simp [FVal.real]
    exact ⟨rfl, same ▸ bounded n' 1 128 h⟩
  | fin n' m' e' => rw [value] at h; exact ⟨rfl, bounded n' m' e' h⟩

/-- What a special function may give for a value up to 2^128, with a bound of at least the spacing. -/
theorem freeWithin_near (fn : Nat) (a : Word) {n : Bool} {m : Nat} {e : Int} (top : (m : ℝ) * 2 ^ e ≤ 2 ^ 128) {k : Nat} {b : Int}
    (unit : ulpExp (.fin n m e) ≤ b) (some : 0 < k) (strict : Bool) :
    freeWithin fn a (.fin n m e) k b strict < 2 ^ 32 ∧ (decodeF f32 (freeWithin fn a (.fin n m e) k b strict)).isNan = false ∧
    |(decodeF f32 (freeWithin fn a (.fin n m e) k b strict)).real - (FVal.fin n m e).real| ≤ k * 2 ^ b ∧
    (strict = true → |(decodeF f32 (freeWithin fn a (.fin n m e) k b strict)).real - (FVal.fin n m e).real| < k * 2 ^ b) := by
  unfold freeWithin
  dsimp only
  split
  · next h => exact ⟨Nat.mod_lt _ (by norm_num), withinBound_dist h⟩
  · obtain ⟨lt, nan, near⟩ := encRn_near (n := n) top
    have half : (2 : ℝ) ^ ulpExp (.fin n m e) / 2 < k * 2 ^ b := by
      have : (2 : ℝ) ^ ulpExp (.fin n m e) ≤ 2 ^ b := zpow_le_zpow_right₀ one_le_two unit
      have : (1 : ℝ) ≤ k := by exact_mod_cast some
      have : (0 : ℝ) < 2 ^ b := by positivity
      nlinarith
    exact ⟨lt, nan, near.trans half.le, fun _ => near.trans_lt half⟩

end Sys2Proof.Machine
end

section
/-! Updates of the cells of a tile (R108 to R110, R283 to R296): which cells an update changes, and what it computes in each. It settles O35. -/

namespace Sys2Proof.Machine

/-! The rows of a tile. -/

theorem tget_foldl_tput {α β : Type} (d : α) (key : β → Nat) (value : β → α) {n : Nat} {x : α} : ∀ (l : List β) (t : Tab α),
    (∀ k ∈ l, key k = n → value k = x) →
    tget d (l.foldl (fun t k => tput t (key k) (value k)) t) n = if ∃ k ∈ l, key k = n then x else tget d t n
  | [], t, _ => by simp
  | k :: r, t, h => by
    rw [List.foldl_cons, tget_foldl_tput d key value r _ fun j hj => h j (List.mem_cons_of_mem _ hj)]
    by_cases here : key k = n
    · have first : tget d (tput t (key k) (value k)) n = x := by rw [here, tget_tput_same, h k List.mem_cons_self here]
      rw [first, ite_self, if_pos ⟨k, List.mem_cons_self, here⟩]
    · rw [tget_tput_ne d t (Ne.symm here)]
      exact if_congr (by simp [here]) rfl rfl

/-- The cells of some rows, in the order in which an update writes them. -/
def cellsOf (rows : Word) : List (Nat × Nat) := (members rows).flatMap fun r => (List.range 64).map fun c => (r, c)

theorem mem_cellsOf (rows : Word) (x : Nat × Nat) : x ∈ cellsOf rows ↔ (x.1 < 32 ∧ hasBit rows x.1 = true) ∧ x.2 < 64 := by
  simp [cellsOf, List.mem_flatMap, mem_members, Prod.ext_iff]

/-- What an update makes of one cell (R286, R292). -/
def newCell (t : Tile) (sr : Option Nat) (ops : Nat → Nat → CellOps) (x : Nat × Nat) : Word :=
  BitVec.ofNat 32 ((ops x.1 x.2).cell (if hasBit t.fresh x.1 then srIdentity sr else (tget (0 : Word) t.cells (64 * x.1 + x.2)).toNat))

theorem updateTile_cells (t : Tile) (sr : Option Nat) (rows rg : Word) (ops : Nat → Nat → CellOps) :
    (updateTile t sr rows rg ops).cells = (cellsOf rows).foldl (fun m x => tput m (64 * x.1 + x.2) (newCell t sr ops x)) t.cells := by
  simp only [cellsOf, List.foldl_flatMap, List.foldl_map]
  rfl

/-- R281, R286, R292: cell by cell. -/
theorem tileRows : Sys2Proof.Claims.TileRows := by
  intro t sr rows rg ops u identity
  refine ⟨fun r c hr hc => ?_, fun r hr => ⟨by simp [u, updateTile, hasBit, hr], hasBit_or ..⟩, rfl⟩
  have base : srIdentity sr = identity := by
    rcases sr with _ | _ | _ | _ <;> rfl
  rw [← base, updateTile_cells, tget_foldl_tput 0 (fun x : Nat × Nat => 64 * x.1 + x.2) _ (x := newCell t sr ops (r, c)) _ _ fun x hx e => ?_]
  · refine if_congr ⟨?_, fun bit => ⟨(r, c), (mem_cellsOf ..).mpr ⟨⟨hr, bit⟩, hc⟩, rfl⟩⟩ rfl rfl
    rintro ⟨x, hx, e⟩
    obtain ⟨⟨-, bit⟩, col⟩ := (mem_cellsOf ..).mp hx
    rwa [show r = x.1 by omega]
  · obtain ⟨-, col⟩ := (mem_cellsOf ..).mp hx
    rw [show x = (r, c) from Prod.ext (by omega) (by omega)]

/-! The elements of a fragment (R283). -/

/-- Element k of a fragment whose elements have w bits. -/
def elementAt (w : Nat) (regs : List Word) (k : Nat) : Nat := (lget 0 regs (k * w / 32)).toNat / 2 ^ (k * w % 32) % 2 ^ w

theorem elemBits_cases (fmt : Nat) : elemBits fmt = 16 ∨ elemBits fmt = 4 ∨ elemBits fmt = 8 := by
  unfold elemBits; split <;> simp

theorem elemBits_pos (fmt : Nat) : 0 < elemBits fmt := by have := elemBits_cases fmt; omega

theorem elements_eq (fmt : Nat) {regs : List Word} (eight : regs.length = 8) :
    elements fmt regs = (List.range (256 / elemBits fmt)).map (elementAt (elemBits fmt) regs) := by
  match regs, eight with
  | [r0, r1, r2, r3, r4, r5, r6, r7], _ => rcases elemBits_cases fmt with w | w | w <;> rw [elements, w] <;> rfl

theorem lget_take {α : Type} (d : α) : ∀ (l : List α) {n k : Nat}, k < n → lget d (l.take n) k = lget d l k
  | [], n, k, _ => by simp
  | x :: r, 0, k, h => by omega
  | x :: r, n + 1, 0, _ => rfl
  | x :: r, n + 1, k + 1, h => lget_take d r (by omega)

theorem imap_map_range' {α β : Type} (f : Nat → α → β) (g : Nat → α) : ∀ k n, imap f k ((List.range' k n).map g) = (List.range' k n).map fun j => f j (g j)
  | _, 0 => rfl
  | k, n + 1 => by simp only [List.range'_succ, List.map_cons, imap, imap_map_range' f g (k + 1) n]

theorem imap_map_range {α β : Type} (f : Nat → α → β) (g : Nat → α) (n : Nat) : imap f 0 ((List.range n).map g) = (List.range n).map fun k => f k (g k) := by
  rw [List.range_eq_range', imap_map_range']

/-- The operands of a cell, element by element (R283, R284). -/
theorem cellOps_pairs {level fmt draw r c : Nat} {sr : Option Nat} {mx : Bool} {a b : List (List Word)} {xa xb : List Word}
    (eightA : (lget [] a r).length = 8) (sixteenB : (lget [] b (c / 2)).length = 16) :
    (cellOps level sr fmt mx a b xa xb draw r c).a.zip (cellOps level sr fmt mx a b xa xb draw r c).b =
      (List.range (256 / elemBits fmt)).map fun k => (elementAt (elemBits fmt) (lget [] a r) k, elementAt (elemBits fmt) ((lget [] b (c / 2)).drop (8 * (c % 2))) k) := by
  have half : ((if c % 2 = 0 then lget [] b (c / 2) else (lget [] b (c / 2)).drop 8).take 8) = ((lget [] b (c / 2)).drop (8 * (c % 2))).take 8 := by
    rcases Nat.mod_two_eq_zero_or_one c with h | h <;> simp [h]
  have fragment : (((lget [] b (c / 2)).drop (8 * (c % 2))).take 8).length = 8 := by
    simp [sixteenB]; omega
  simp only [cellOps, half]
  rw [elements_eq fmt eightA, elements_eq fmt fragment, List.zip_map']
  refine List.map_congr_left fun k hk => Prod.ext rfl ?_
  have within : k * elemBits fmt / 32 < 8 := by
    have less : (k + 1) * elemBits fmt ≤ 256 := (Nat.le_div_iff_mul_le (elemBits_pos fmt)).mp (List.mem_range.mp hk)
    have := elemBits_pos fmt
    rw [Nat.div_lt_iff_lt_mul (by norm_num)]
    rw [Nat.add_mul] at less
    omega
  simp only [elementAt, lget_take _ _ within]

/-- The value of an element of a floating-point format (R98). -/
theorem elemValue_eq {fmt : Nat} (float : fmt ≤ 6) (e : Nat) :
    elemValue fmt e = decodeF (lget bf16 [bf16, f16, e4m3, e5m2, e3m2, e2m3, e2m1] fmt) (if fmt = 4 ∨ fmt = 5 then e % 64 else e) := by
  interval_cases fmt <;> rfl

theorem elemBits_eq {fmt : Nat} (known : fmt ≤ 7) : elemBits fmt = lget 0 [16, 16, 8, 8, 8, 8, 4, 8] fmt := by
  interval_cases fmt <;> rfl

theorem prodBits_eq {fmt : Nat} (known : fmt ≤ 7) : prodBits fmt = lget 0 [16, 22, 8, 6, 6, 8, 4, 16] fmt := by
  interval_cases fmt <;> rfl

/-! Products (R108, R109, R295, R296). -/

/-- A value whose low significand bits are free, where it is finite and not zero. -/
def LowFree (low : Nat) (x y : FVal) : Prop := match x with
  | .fin n m e => ∃ m', y = .fin n m' e ∧ (m = 0 → m' = 0) ∧ m' / 2 ^ low = m / 2 ^ low
  | x => y = x

theorem sliced_high (level width m draw : Nat) : sliced level width m draw / 2 ^ (level * width / 4) = m / 2 ^ (level * width / 4) := by
  unfold sliced
  split
  · rfl
  · have pos : 0 < 2 ^ (level * width / 4) := by positivity
    dsimp only
    rw [Nat.mul_comm, Nat.mul_add_div pos, Nat.div_eq_of_lt (Nat.mod_lt _ pos), Nat.add_zero]

theorem slicedProduct_lowFree (level fmt draw : Nat) (x y : FVal) : LowFree (level * prodBits fmt / 4) (mulF x y) (slicedProduct level fmt draw x y) := by
  unfold slicedProduct
  cases mulF x y with
  | nan | inf => rfl
  | fin n m e =>
    by_cases zero : m = 0
    · exact ⟨m, by simp [zero], id, rfl⟩
    · exact ⟨_, by simp only [zero, if_false]; rfl, fun h => absurd h zero, sliced_high ..⟩

/-- A product of a block, times its two scales (R108). -/
def scaledBy (mx : Bool) (xa xb : Nat) (q : FVal) : FVal := if mx then scaled q xa xb else q

theorem scaled_eq (q : FVal) (xa xb : Nat) : scaled q xa xb = if xa = 255 ∨ xb = 255 then .nan false else match q with
    | .fin n m e => .fin n m (e + xa + xb - 254)
    | x => x := by
  unfold scaled scaleExp
  by_cases ha : xa = 255
  · simp [ha]
  by_cases hb : xb = 255
  · simp [ha, hb]
  simp only [ha, hb, beq_iff_eq, or_self, if_false]
  cases q with
  | nan | inf => rfl
  | fin n m e =>
    show FVal.fin n m (e + ((xa : Int) - 127 + ((xb : Int) - 127))) = .fin n m (e + xa + xb - 254)
    congr 1
    omega

/-- Product k of a cell whose elements are e and f. -/
def productAt (o : CellOps) (e f : Nat → Nat) (k : Nat) : FVal :=
  scaledBy o.mx (byteOf o.xa.toNat (k / 32)) (byteOf o.xb.toNat (2 * (k / 32) + o.odd))
    (slicedProduct o.level o.fmt (o.draw + k) (elemValue o.fmt (e k)) (elemValue o.fmt (f k)))

theorem products_eq {o : CellOps} {e f : Nat → Nat} {n : Nat} (pairs : o.a.zip o.b = (List.range n).map fun k => (e k, f k)) :
    o.products = (List.range n).map (productAt o e f) := by
  rw [CellOps.products, pairs, imap_map_range]
  rfl

/-! Plus-times (R108). -/

/-- A list of terms summed exactly and rounded once to f32 (R109). -/
def roundSum (xs : List FVal) : Nat := (encodeF f32 (sumF xs) .rn false).1

/-- The sum of group g of eight products. -/
def groupSum (p : Nat → FVal) (g : Nat) : Nat := roundSum ((List.range 8).map fun i => p (8 * g + i))

theorem cellUpdate_groups (p : Nat → FVal) (fuel j acc : Nat) (enough : j ≤ fuel) : cellUpdate fuel ((List.range (8 * j)).map p) acc =
    (List.range j).foldl (fun x g => roundSum [decodeF f32 x, decodeF f32 (groupSum p g)]) acc := by
  induction j generalizing p fuel acc with
  | zero => cases fuel <;> rfl
  | succ j ih =>
    obtain ⟨fuel, rfl⟩ : ∃ n, fuel = n + 1 := ⟨fuel - 1, by omega⟩
    have split : (List.range (8 * (j + 1))).map p = (List.range 8).map p ++ (List.range (8 * j)).map fun k => p (8 + k) := by
      rw [show 8 * (j + 1) = 8 + 8 * j by omega, List.range_add, List.map_append, List.map_map]; rfl
    have first : cellUpdate (fuel + 1) ((List.range 8).map p ++ (List.range (8 * j)).map fun k => p (8 + k)) acc =
        cellUpdate fuel ((List.range (8 * j)).map fun k => p (8 + k)) (roundSum [decodeF f32 acc, decodeF f32 (groupSum p 0)]) := rfl
    have next : ∀ g, groupSum (fun k => p (8 + k)) g = groupSum p (g + 1) := fun g =>
      congrArg roundSum (List.map_congr_left fun i _ => congrArg p (by omega))
    rw [split, first, ih _ fuel _ (by omega), List.range_succ_eq_map (n := j), List.foldl_cons, List.foldl_map]
    simp only [next]

/-! Sums of integers (R110). -/

/-- The integer that a product of two i8 elements gives: exact but for its free low bits. -/
theorem intProduct (level draw : Nat) (x y : Int) {z : Int} (hz : z = intOf (slicedProduct level 7 draw (ofIntF x) (ofIntF y))) :
    (x * y = 0 → z = 0) ∧ z.natAbs / 2 ^ (level * prodBits 7 / 4) = (x * y).natAbs / 2 ^ (level * prodBits 7 / 4) ∧ (0 < x * y → 0 ≤ z) ∧ (x * y < 0 → z ≤ 0) := by
  obtain ⟨m, product, zero, high⟩ : LowFree _ (.fin (decide (x < 0) != decide (y < 0)) (x.natAbs * y.natAbs) 0) _ :=
    slicedProduct_lowFree level 7 draw (ofIntF x) (ofIntF y)
  have value : z = if decide (x < 0) != decide (y < 0) then -(m : Int) else m := by
    rw [hz, product, intOf]; simp
  have size : z.natAbs = m := by rw [value]; split <;> simp
  rw [size, Int.natAbs_mul]
  refine ⟨fun h => ?_, high, fun h => ?_, fun h => ?_⟩
  · have : m = 0 := zero (by rw [← Int.natAbs_mul, h]; rfl)
    rw [← Int.natAbs_eq_zero, size, this]
  · rcases mul_pos_iff.mp h with ⟨hx, hy⟩ | ⟨hx, hy⟩ <;> simp [value, hx, hy, hx.le.not_gt, hy.le.not_gt]
  · rcases mul_neg_iff.mp h with ⟨hx, hy⟩ | ⟨hx, hy⟩ <;> simp [value, hx, hy, hx.le.not_gt, hy.le.not_gt]

theorem cell_integers {o : CellOps} {p : Nat → FVal} {n acc : Nat} (none : o.sr = none) (int : o.fmt = 7) (products : o.products = (List.range n).map p) (lt : acc < 2 ^ 32) :
    (o.cell acc : Int) = ((acc : Int) + ((List.range n).map fun k => intOf (p k)).sum) % 2 ^ 32 := by
  rw [CellOps.cell, none]
  simp only [int, if_true, products, List.map_map]
  rw [Int.toNat_of_nonneg (Int.emod_nonneg _ (by norm_num)), BitVec.toInt_eq_toNat_bmod, BitVec.toNat_ofNat, Nat.mod_eq_of_lt lt]
  have same : ((acc : Int).bmod (2 ^ 32)) % 2 ^ 32 = (acc : Int) % 2 ^ 32 := by exact_mod_cast Int.bmod_emod (x := acc) (m := 2 ^ 32)
  exact (Int.emod_add_cancel_right _).mpr same

/-! The order of encodings of f32 in which a semiring takes the least or the greatest (R150, R293). -/

theorem isZero_f32 (r : Nat) : (decodeF f32 r).isZero = true ↔ r % 2 ^ 31 = 0 := by
  rw [decode_f32]
  split
  · split <;> simp only [FVal.isZero, Bool.false_eq_true, false_iff] <;> omega
  · split <;> simp only [FVal.isZero, beq_iff_eq] <;> omega

theorem isNeg_f32 {r : Nat} (number : (decodeF f32 r).isNan = false) : (decodeF f32 r).isNeg = (r / 2 ^ 31 % 2 == 1) := by
  rw [decode_f32] at number ⊢
  split
  · split
    · rfl
    · next h1 h2 => rw [if_pos h1, if_neg h2] at number; cases number
  · split <;> rfl

theorem real_eq_zero_iff {x : FVal} (number : x.isNan = false) : x.real = 0 ↔ x.isZero = true := by
  cases x with
  | nan => cases number
  | inf n => cases n <;> simp [FVal.real, FVal.isZero]
  | fin n m e =>
    have unit : (2 : ℝ) ^ e ≠ 0 := by positivity
    cases n <;> simp [FVal.real, FVal.isZero, unit]

theorem real_sign (x : FVal) : (x.isNeg = true → x.real ≤ 0) ∧ (x.isNeg = false → 0 ≤ x.real) := by
  cases x with
  | nan => simp [FVal.isNeg, FVal.real]
  | inf n => cases n <;> simp [FVal.isNeg, FVal.real]
  | fin n m e =>
    have size : (0 : ℝ) ≤ m * 2 ^ e := by positivity
    cases n <;> simp [FVal.isNeg, FVal.real, size]

/-- The rank of an encoding that is no NaN: its real number, with -0 below every other encoding of 0. -/
noncomputable def rank (r : Nat) : ℝ ×ₗ ℕ := toLex ((decodeF f32 r).real, if r = 0x80000000 then 0 else 1)

/-- One encoding ranks below another where its value is less, or where it is -0 and the other +0 (R150). -/
theorem rank_lt_iff {x y : Nat} (hx : (decodeF f32 x).isNan = false) (hy : (decodeF f32 y).isNan = false) (lt : y < 2 ^ 32) :
    rank x < rank y ↔ ltF (decodeF f32 x) (decodeF f32 y) = true ∨ (x = 0x80000000 ∧ y = 0) := by
  rw [ltF_iff (within_of_decode hx) (within_of_decode hy), rank, rank, Prod.Lex.toLex_lt_toLex]
  have minus : decodeF f32 0x80000000 = .fin true 0 (-149) := by decide
  refine or_congr Iff.rfl ⟨fun ⟨same, less⟩ => ?_, ?_⟩
  · change (decodeF f32 x).real = (decodeF f32 y).real at same
    change (if x = 0x80000000 then 0 else 1) < (if y = 0x80000000 then 0 else 1) at less
    have first : x = 0x80000000 := by by_contra h; simp only [if_neg h] at less; split at less <;> simp at less
    have other : y ≠ 0x80000000 := fun h => by simp [first, h] at less
    have zero : (decodeF f32 y).real = 0 := by rw [← same, first, minus]; simp [FVal.real]
    have := (isZero_f32 y).mp ((real_eq_zero_iff hy).mp zero)
    exact ⟨first, by omega⟩
  · rintro ⟨rfl, rfl⟩
    have plus : decodeF f32 0 = .fin false 0 (-149) := by decide
    exact ⟨by rw [minus, plus]; simp [FVal.real], by simp⟩

/-- The compare of `minMaxF` is the order of ranks. -/
theorem minMaxF_less {x y : Nat} (hx : (decodeF f32 x).isNan = false) (hy : (decodeF f32 y).isNan = false) (ltx : x < 2 ^ 32) (lty : y < 2 ^ 32) :
    (ltF (decodeF f32 x) (decodeF f32 y) || (eqF (decodeF f32 x) (decodeF f32 y) && (decodeF f32 x).isNeg && !(decodeF f32 y).isNeg)) = decide (rank x < rank y) := by
  rw [Bool.eq_iff_iff, decide_eq_true_iff, rank_lt_iff hx hy lty, Bool.or_eq_true, Bool.and_eq_true, Bool.and_eq_true, Bool.not_eq_true',
    eqF_iff (within_of_decode hx) (within_of_decode hy)]
  refine or_congr Iff.rfl ⟨fun ⟨⟨same, negx⟩, posy⟩ => ?_, ?_⟩
  · have zero : (decodeF f32 x).real = 0 := le_antisymm ((real_sign _).1 negx) (same ▸ (real_sign _).2 posy)
    have zx := (isZero_f32 x).mp ((real_eq_zero_iff hx).mp zero)
    have zy := (isZero_f32 y).mp ((real_eq_zero_iff hy).mp (same ▸ zero))
    rw [isNeg_f32 hx, beq_iff_eq] at negx
    rw [isNeg_f32 hy, beq_eq_false_iff_ne] at posy
    omega
  · rintro ⟨rfl, rfl⟩
    refine ⟨⟨?_, by decide⟩, by decide⟩
    rw [(real_eq_zero_iff hx).mpr (by decide), (real_eq_zero_iff hy).mpr (by decide)]

/-! The least or the greatest of the terms of a cell (R150, R293). -/

/-- One encoding comes before another: by the greater rank where the greatest is wanted, and otherwise by the less. -/
def Before (top : Bool) (x y : Nat) : Prop := if top then rank y < rank x else rank x < rank y

theorem Before.trans_not {top : Bool} {x y z : Nat} (h1 : ¬ Before top x y) (h2 : ¬ Before top y z) : ¬ Before top x z := by
  cases top <;> simp only [Before, Bool.false_eq_true, if_true, if_false, not_lt] at *
  · exact h2.trans h1
  · exact h1.trans h2

/-- What `minMaxF` gives: the number, where one of the two is a NaN, and otherwise one that no other comes before. -/
theorem minMaxF_nan {x : Nat} (top : Bool) (y : Nat) (hx : (decodeF f32 x).isNan = true) : (minMaxF f32 top x y).1 = if (decodeF f32 y).isNan then 0x7FC00000 else y := by
  simp only [minMaxF, hx, if_true]
  rfl

theorem minMaxF_number {x : Nat} (top : Bool) {y : Nat} (hx : (decodeF f32 x).isNan = false) (hy : (decodeF f32 y).isNan = true) : (minMaxF f32 top x y).1 = x := by
  simp only [minMaxF, hx, hy, Bool.false_eq_true, if_true, if_false]

theorem minMaxF_numbers {x y : Nat} (top : Bool) (hx : (decodeF f32 x).isNan = false) (hy : (decodeF f32 y).isNan = false) (ltx : x < 2 ^ 32) (lty : y < 2 ^ 32) :
    ((minMaxF f32 top x y).1 = x ∧ ¬ Before top y x) ∨ ((minMaxF f32 top x y).1 = y ∧ ¬ Before top x y) := by
  have value : (minMaxF f32 top x y).1 = if decide (rank x < rank y) == top then y else x := by
    simp only [minMaxF, hx, hy, Bool.false_eq_true, if_false, minMaxF_less hx hy ltx lty]
  rw [value]
  by_cases less : rank x < rank y
  · cases top
    · exact .inl ⟨by simp [less], less.not_gt⟩
    · exact .inr ⟨by simp [less], less.not_gt⟩
  · cases top
    · exact .inr ⟨by simp [less], less⟩
    · exact .inl ⟨by simp [less], less⟩

/-- What `minMaxF` gives of any two encodings: the canonical NaN of two NaNs, and otherwise one of the two that is a number and that no number of the two comes before. -/
theorem minMaxF_picks {x y : Nat} (top : Bool) (ltx : x < 2 ^ 32) (lty : y < 2 ^ 32) {z : Nat} (hz : (minMaxF f32 top x y).1 = z) :
    ((decodeF f32 x).isNan = true ∧ (decodeF f32 y).isNan = true ∧ z = 0x7FC00000) ∨
    ((decodeF f32 z).isNan = false ∧ (z = x ∨ z = y) ∧ ∀ w, w = x ∨ w = y → (decodeF f32 w).isNan = false → ¬ Before top w z) := by
  have self : ∀ w, ¬ Before top w w := fun w => by cases top <;> exact lt_irrefl _
  subst hz
  cases hx : (decodeF f32 x).isNan with
  | true =>
    cases hy : (decodeF f32 y).isNan with
    | true => exact .inl ⟨rfl, rfl, by rw [minMaxF_nan top y hx, if_pos hy]⟩
    | false =>
      rw [minMaxF_nan top y hx, if_neg (by simp [hy])]
      refine .inr ⟨hy, .inr rfl, ?_⟩
      rintro w (rfl | rfl) hw
      · rw [hx] at hw; cases hw
      · exact self _
  | false =>
    cases hy : (decodeF f32 y).isNan with
    | true =>
      rw [minMaxF_number top hx hy]
      refine .inr ⟨hx, .inl rfl, ?_⟩
      rintro w (rfl | rfl) hw
      · exact self _
      · rw [hy] at hw; cases hw
    | false =>
      rcases minMaxF_numbers top hx hy ltx lty with ⟨e, first⟩ | ⟨e, first⟩ <;> rw [e]
      · exact .inr ⟨hx, .inl rfl, by rintro w (rfl | rfl) - <;> [exact self _; exact first]⟩
      · exact .inr ⟨hy, .inr rfl, by rintro w (rfl | rfl) - <;> [exact first; exact self _]⟩

/-- Encodings folded by `minMaxF`: the canonical NaN of NaNs alone, and otherwise a number among them that no other number comes before. -/
theorem foldl_minMaxF (top : Bool) : ∀ (ys : List Nat) (x : Nat), x < 2 ^ 32 → (∀ y ∈ ys, y < 2 ^ 32) → ∀ r, ys.foldl (fun a y => (minMaxF f32 top a y).1) x = r →
    (ys ≠ [] → (∀ y ∈ x :: ys, (decodeF f32 y).isNan = true) → r = 0x7FC00000) ∧
    ((∃ y ∈ x :: ys, (decodeF f32 y).isNan = false) →
      r ∈ x :: ys ∧ (decodeF f32 r).isNan = false ∧ ∀ y ∈ x :: ys, (decodeF f32 y).isNan = false → ¬ Before top y r)
  | [], x, _, _, r, hr => by
    subst hr
    refine ⟨fun h => absurd rfl h, ?_⟩
    simp only [List.mem_singleton, exists_eq_left, forall_eq, List.foldl_nil]
    exact fun hx => ⟨trivial, hx, fun _ => by cases top <;> exact lt_irrefl _⟩
  | y :: ys, x, ltx, lt, r, hr => by
    rw [List.forall_mem_cons] at lt
    have picks := minMaxF_picks top ltx lt.1 rfl
    have canon : (decodeF f32 0x7FC00000).isNan = true := by decide
    generalize hz : (minMaxF f32 top x y).1 = z at picks
    have ltz : z < 2 ^ 32 := by
      rcases picks with ⟨-, -, rfl⟩ | ⟨-, rfl | rfl, -⟩ <;> [norm_num; exact ltx; exact lt.1]
    rw [List.foldl_cons, hz] at hr
    obtain ⟨nans, best⟩ := foldl_minMaxF top ys z ltz lt.2 r hr
    rcases picks with ⟨hx, hy, rfl⟩ | ⟨number, from', first⟩
    · -- two NaNs: what counts are the terms that follow
      refine ⟨fun _ all => ?_, fun ⟨w, hw, some'⟩ => ?_⟩
      · by_cases last : ys = []
        · rw [← hr, last, List.foldl_nil]
        · exact nans last (List.forall_mem_cons.mpr ⟨canon, fun w hw => all w (by simp [hw])⟩)
      · have later : ∀ w ∈ x :: y :: ys, (decodeF f32 w).isNan = false → w ∈ ys := fun w hw some => by
          simp only [List.mem_cons] at hw
          rcases hw with rfl | rfl | hw
          · rw [hx] at some; cases some
          · rw [hy] at some; cases some
          · exact hw
        obtain ⟨mem, good, least⟩ := best ⟨w, List.mem_cons_of_mem _ (later w hw some'), some'⟩
        have mem' : r ∈ ys := (List.mem_cons.mp mem).resolve_left fun h => by rw [h, canon] at good; cases good
        exact ⟨by simp [mem'], good, fun w hw some => least w (List.mem_cons_of_mem _ (later w hw some)) some⟩
    · obtain ⟨mem, good, least⟩ := best ⟨z, List.mem_cons_self, number⟩
      refine ⟨fun _ all => ?_, fun _ => ⟨?_, good, fun w hw some => ?_⟩⟩
      · have := all z (by rcases from' with rfl | rfl <;> simp)
        rw [number] at this
        cases this
      · rcases List.mem_cons.mp mem with rfl | mem
        · rcases from' with h | h <;> simp [h]
        · simp [mem]
      · simp only [List.mem_cons] at hw
        rcases hw with rfl | rfl | hw
        · exact Before.trans_not (first w (.inl rfl) some) (least z List.mem_cons_self number)
        · exact Before.trans_not (first w (.inr rfl) some) (least z List.mem_cons_self number)
        · exact least w (List.mem_cons_of_mem _ hw) some

/-! The values of cells. -/

theorem cell_plusTimes {o : CellOps} {p : Nat → FVal} {j acc : Nat} (none : o.sr = none) (float : o.fmt ≠ 7) (products : o.products = (List.range (8 * j)).map p) (few : j ≤ 8) :
    o.cell acc = (List.range j).foldl (fun x g => roundSum [decodeF f32 x, decodeF f32 (groupSum p g)]) acc := by
  rw [← cellUpdate_groups p 8 j acc few, ← products, CellOps.cell, none]
  simp only [float, if_false]

/-- Term k of a semiring that adds or multiplies two elements of bf16 (R293). -/
def semiringTerm (top : Bool) (e f : Nat → Nat) (k : Nat) : Nat :=
  (encRn f32 (if top then mulF (decodeF bf16 (e k)) (decodeF bf16 (f k)) else sumF [decodeF bf16 (e k), decodeF bf16 (f k)])).1

theorem cell_semiring {o : CellOps} {e f : Nat → Nat} {n acc : Nat} {top : Bool} (sr : o.sr = some (bit top)) (pairs : o.a.zip o.b = (List.range n).map fun k => (e k, f k)) :
    o.cell acc = ((List.range n).map (semiringTerm top e f)).foldl (fun a y => (minMaxF f32 top a y).1) acc := by
  rw [CellOps.cell, sr, pairs]
  cases top <;> simp only [bit, Bool.false_eq_true, if_true, if_false, List.foldl_map] <;> rfl

theorem cell_truth {o : CellOps} {e f : Nat → Nat} {n acc : Nat} (sr : o.sr = some 2) (pairs : o.a.zip o.b = (List.range n).map fun k => (e k, f k)) :
    let true' := acc % 2 ^ 31 ≠ 0 ∨ ∃ k < n, (decodeF bf16 (e k)).isZero = false ∧ (decodeF bf16 (f k)).isZero = false
    (true' → o.cell acc = 0x3F800000) ∧ (¬ true' → o.cell acc = 0) := by
  intro true'
  have cond : (!(decodeF f32 acc).isZero || (o.a.zip o.b).any fun ab => !(decodeF bf16 ab.1).isZero && !(decodeF bf16 ab.2).isZero) = true ↔ true' := by
    rw [pairs, Bool.or_eq_true, Bool.not_eq_true', ← Bool.not_eq_true, isZero_f32]
    simp [true']
  have value : o.cell acc = if (!(decodeF f32 acc).isZero || (o.a.zip o.b).any fun ab => !(decodeF bf16 ab.1).isZero && !(decodeF bf16 ab.2).isZero) then 0x3F800000 else 0 := by
    rw [CellOps.cell, sr]
    rfl
  rw [value]
  exact ⟨fun h => if_pos (cond.mpr h), fun h => if_neg (mt cond.mp h)⟩

/-- R108 to R110, R283, R284, R293, R295 and R296: by kind of update. -/
theorem cellValues : Sys2Proof.Claims.CellValues := by
  intro level fmt r c draw acc sr mx a b xa xb hl known hr hc lt eightA sixteenB block semi w low count elem ea eb value scaleA scaleB isProduct round cell
  have pairs := cellOps_pairs (level := level) (fmt := fmt) (draw := draw) (sr := sr) (mx := mx) (xa := xa) (xb := xb) eightA sixteenB
  have width : elemBits fmt = w := elemBits_eq known
  have slice : level * prodBits fmt / 4 = low := by rw [prodBits_eq known]
  rw [width] at pairs
  have products := products_eq pairs
  have whole : count = 8 * (count / 8) ∧ count / 8 ≤ 8 := by
    have := elemBits_cases fmt
    rw [width] at this
    rcases this with h | h | h <;> simp only [count, h] <;> decide
  refine ⟨fun none float => ?_, fun none int => ?_, fun top some => ?_, fun some => ?_⟩
  · refine ⟨productAt (cellOps level sr fmt mx a b xa xb draw r c) ea eb, fun k hk => ?_, ?_⟩
    · have values : mulF (elemValue fmt (ea k)) (elemValue fmt (eb k)) = mulF (value (ea k)) (value (eb k)) := by
        rw [elemValue_eq (by omega), elemValue_eq (by omega)]
      have product := slicedProduct_lowFree level fmt ((cellOps level sr fmt mx a b xa xb draw r c).draw + k) (elemValue fmt (ea k)) (elemValue fmt (eb k))
      rw [slice, values] at product
      refine ⟨_, product, ?_⟩
      cases mx with
      | false => rfl
      | true => exact scaled_eq ..
    · exact cell_plusTimes none float (by rw [← whole.1]; exact products) whole.2
  · subst int
    have plain : mx = false := by
      cases mx with
      | false => rfl
      | true => have := block rfl; omega
    subst plain
    refine ⟨fun k => intOf (productAt (cellOps level sr 7 false a b xa xb draw r c) ea eb k), fun k hk => ?_, cell_integers none rfl products lt⟩
    rw [← slice]
    exact intProduct level _ _ _ rfl
  · obtain ⟨rfl, rfl, rfl⟩ := semi (by rw [some]; exact Option.some_ne_none _)
    rw [show 256 / w = 16 by rw [← width]; rfl] at pairs
    have small : ∀ y ∈ acc :: (List.range 16).map (semiringTerm top ea eb), y < 2 ^ 32 :=
      List.forall_mem_cons.mpr ⟨lt, List.forall_mem_map.mpr fun k _ => encRn_lt _⟩
    obtain ⟨nans, best⟩ := foldl_minMaxF top ((List.range 16).map (semiringTerm top ea eb)) acc lt (fun y hy => small y (List.mem_cons_of_mem _ hy))
      ((cellOps 0 sr 0 false a b xa xb draw r c).cell acc) (cell_semiring (e := ea) (f := eb) (n := 16) some pairs).symm
    refine ⟨nans (by simp), fun number => ?_⟩
    obtain ⟨mem, good, least⟩ := best number
    refine ⟨mem, good, fun x hx some' => ?_⟩
    cases top with
    | false => exact fun below => least x hx some' ((rank_lt_iff some' good (small _ mem)).mpr below)
    | true => exact fun below => least x hx some' ((rank_lt_iff good some' (small _ hx)).mpr below)
  · obtain ⟨rfl, rfl, rfl⟩ := semi (by rw [some]; exact Option.some_ne_none _)
    rw [show 256 / w = 16 by rw [← width]; rfl] at pairs
    exact cell_truth (e := ea) (f := eb) (n := 16) some pairs

/-- Settles O35. -/
theorem tileUpdates : Obligations.TileUpdates := ⟨tileRows, cellValues⟩

end Sys2Proof.Machine
end

section
/-! The reciprocal and the square roots (R154): values cut to a fixed unit stand for the exact ones, and a bound of some spacings around them is one around the exact value. -/

namespace Sys2Proof.Machine

/-- What a function gives without a flag: an encoding that is no NaN, with a property of its value. -/
def Gives (r : Nat × BitVec 5) (ok : ℝ → Prop) : Prop := r.1 < 2 ^ 32 ∧ r.2 = 0 ∧ (decodeF f32 r.1).isNan = false ∧ ok (decodeF f32 r.1).real

theorem signFactor_mul_self (n : Bool) : signFactor n * signFactor n = 1 := by cases n <;> norm_num

theorem signFactor_cases (n : Bool) : signFactor n = 1 ∨ signFactor n = -1 := by cases n <;> simp

/-- A distance to a signed value is one to its magnitude. -/
theorem abs_sub_signed (n : Bool) (r y : ℝ) : |r - signFactor n * y| = |signFactor n * r - y| := by
  rw [← one_mul |r - _|, ← abs_signFactor n, ← abs_mul, mul_sub, ← mul_assoc, signFactor_mul_self, one_mul]

theorem spacing_signed (n : Bool) (x : ℝ) : spacing (signFactor n * x) = spacing x := by
  rw [spacing, abs_mul, abs_signFactor, one_mul, spacing]

/-! Values cut to a unit. -/

/-- A multiple of the unit above the cut value lies above the value. -/
theorem multiple_above {x u : ℝ} {q : Nat} {k : Int} (unit : 0 < u) (hi : x < (q + 1) * u) (above : q * u < k * u) : x < k * u := by
  have : (q : ℝ) < k := lt_of_mul_lt_mul_right above unit.le
  have : (q : Int) + 1 ≤ k := by exact_mod_cast this
  have : (q : ℝ) + 1 ≤ k := by exact_mod_cast this
  nlinarith

/-- A value cut to a unit that it reaches has the same leading bit. -/
theorem intLog_cut {x : ℝ} {q : Nat} {g : Int} (some : 0 < q) (lo : q * (2 : ℝ) ^ g ≤ x) (hi : x < (q + 1) * (2 : ℝ) ^ g) :
    Int.log 2 (q * (2 : ℝ) ^ g) = Int.log 2 x := by
  have unit : (0 : ℝ) < 2 ^ g := by positivity
  have least : (2 : ℝ) ^ g ≤ q * 2 ^ g := le_mul_of_one_le_left unit.le (by exact_mod_cast some)
  have pos : 0 < x := unit.trans_le (least.trans lo)
  have lead := Int.zpow_log_le_self (b := 2) one_lt_two pos
  have next := Int.lt_zpow_succ_log_self (b := 2) one_lt_two x
  push_cast at lead next
  generalize Int.log 2 x = k at lead next
  have le : g ≤ k := by
    have := (zpow_lt_zpow_iff_right₀ (one_lt_two (α := ℝ))).mp ((least.trans lo).trans_lt next)
    omega
  refine intLog_eq ?_ (lo.trans_lt next)
  have whole : (2 : ℝ) ^ k = ((2 ^ (k - g).toNat : Nat) : ℝ) * 2 ^ g := by
    have := shift_units 1 le
    rw [one_mul] at this
    rw [this, Nat.cast_one, one_mul]
  rw [whole] at lead ⊢
  have : ((2 ^ (k - g).toNat : Nat) : ℝ) < q + 1 := lt_of_mul_lt_mul_right (lead.trans_lt hi) unit.le
  have : 2 ^ (k - g).toNat ≤ q := Nat.lt_succ_iff.mp (by exact_mod_cast this)
  gcongr

theorem spacing_cut {x : ℝ} {q : Nat} {g : Int} (some : 0 < q) (lo : q * (2 : ℝ) ^ g ≤ x) (hi : x < (q + 1) * (2 : ℝ) ^ g) :
    spacing (q * (2 : ℝ) ^ g) = spacing x := by
  have cut : 0 < (q : ℝ) * 2 ^ g := by positivity
  rw [spacing, spacing, abs_of_pos cut, abs_of_pos (cut.trans_le lo), intLog_cut some lo hi]

/-- A value of f32 with no bit below a unit: one of at least 2^23 units. -/
theorem f32_multiple {r : Nat} (number : (decodeF f32 r).isNan = false) {g : Int} (high : g ≤ 104) (size : (2 : ℝ) ^ (g + 23) ≤ |(decodeF f32 r).real|) :
    ∃ k : Int, (decodeF f32 r).real = k * 2 ^ g := by
  have signed : ∀ n (m : Nat), ∃ k : Int, signFactor n * m = (k : ℝ) := fun n m => by
    cases n
    · exact ⟨m, by simp⟩
    · exact ⟨-m, by simp⟩
  cases value : decodeF f32 r with
  | nan => rw [value] at number; cases number
  | inf n =>
    obtain ⟨k, hk⟩ := signed n (2 ^ (128 - g).toNat)
    refine ⟨k, ?_⟩
    have := shift_units 1 (e := 128) (q := g) (by omega)
    rw [one_mul, Nat.cast_one, one_mul] at this
    rw [← hk, mul_assoc, this, FVal.real_inf]
    norm_num
  | fin n m e =>
    have fewer := (decode_f32_range value).1
    have le : g ≤ e := by
      rw [value, FVal.abs_real_fin] at size
      have : (m : ℝ) * 2 ^ e < 2 ^ (e + 24) := by
        rw [zpow_add₀ two_ne_zero, mul_comm ((2 : ℝ) ^ e)]
        have : (m : ℝ) < 2 ^ (24 : ℤ) := by exact_mod_cast fewer
        gcongr
      have := (zpow_lt_zpow_iff_right₀ (one_lt_two (α := ℝ))).mp (size.trans_lt this)
      omega
    obtain ⟨k, hk⟩ := signed n (m * 2 ^ (e - g).toNat)
    refine ⟨k, ?_⟩
    rw [← hk, mul_assoc, shift_units m le, FVal.real_fin, mul_assoc]

/-- A value of f32 and some of a unit, in a finer unit. -/
theorem f32_sum_multiple {r : Nat} (number : (decodeF f32 r).isNan = false) {g t : Int} (high : g ≤ 104) (size : (2 : ℝ) ^ (g + 23) ≤ |(decodeF f32 r).real|)
    (finer : g ≤ t) (n : Bool) (c : Nat) : ∃ k : Int, signFactor n * (decodeF f32 r).real + c * 2 ^ t = k * 2 ^ g := by
  obtain ⟨k, hk⟩ := f32_multiple number high size
  have := shift_units c finer
  rw [hk, ← this]
  rcases signFactor_cases n with s | s
  · exact ⟨k + (c * 2 ^ (t - g).toNat : Nat), by rw [s]; push_cast; ring⟩
  · exact ⟨-k + (c * 2 ^ (t - g).toNat : Nat), by rw [s]; push_cast; ring⟩

/-- Where a value of f32 lies less than some of a unit below the cut value, it lies so below the value itself. -/
theorem cut_below {r : Nat} (number : (decodeF f32 r).isNan = false) {g t : Int} (high : g ≤ 104) (size : (2 : ℝ) ^ (g + 23) ≤ |(decodeF f32 r).real|)
    (finer : g ≤ t) {n : Bool} {c q : Nat} {x : ℝ} (hi : x < (q + 1) * 2 ^ g) (near : q * 2 ^ g < signFactor n * (decodeF f32 r).real + c * 2 ^ t) :
    x < signFactor n * (decodeF f32 r).real + c * 2 ^ t := by
  obtain ⟨k, hk⟩ := f32_sum_multiple number high size finer n c
  rw [hk] at near ⊢
  exact multiple_above (by positivity) hi near

/-- A number of f32 that is a power of two is one by its significand. -/
theorem power_of_two {m : Nat} {e k : Int} (pos : m ≠ 0) (power : (m : ℝ) * 2 ^ e = 2 ^ k) : m = 2 ^ Nat.log2 m ∧ (Nat.log2 m : Int) + e = k := by
  obtain ⟨lo, hi⟩ := log2_bounds pos e
  rw [power] at lo hi
  have h1 := (zpow_le_zpow_iff_right₀ (one_lt_two (α := ℝ))).mp lo
  have h2 := (zpow_lt_zpow_iff_right₀ (one_lt_two (α := ℝ))).mp hi
  have lead : (Nat.log2 m : Int) + e = k := by omega
  refine ⟨?_, lead⟩
  rw [← lead, zpow_add₀ two_ne_zero, zpow_natCast] at power
  exact_mod_cast mul_right_cancel₀ (by positivity) power

/-- The spacing is small beside a number that is not far below the normal range. -/
theorem spacing_le {x : ℝ} (least : (2 : ℝ) ^ (-128 : ℤ) ≤ x) : spacing x ≤ x / 2 ^ 21 := by
  have pos : 0 < x := lt_of_lt_of_le (by positivity) least
  have lead := Int.zpow_log_le_self (b := 2) one_lt_two pos
  have low := (Int.zpow_le_iff_le_log (R := ℝ) Nat.one_lt_two pos (x := -128)).mp (by exact_mod_cast least)
  push_cast at lead
  rw [spacing, abs_of_pos pos, le_div_iff₀ (by positivity), ← zpow_natCast, ← zpow_add₀ two_ne_zero]
  exact (zpow_le_zpow_right₀ one_le_two (by push_cast; omega)).trans lead

/-! frcp. -/

theorem frcpF_fin {a : Word} {n : Bool} {m : Nat} {e : Int} (value : decodeF f32 a.toNat = .fin n m e) (pos : m ≠ 0) : frcpF a =
    if m = 2 ^ Nat.log2 m then
      if (encRn f32 (.fin n 1 (-(Nat.log2 m : Int) - e))).2 = 0 then ((encRn f32 (.fin n 1 (-(Nat.log2 m : Int) - e))).1, 0)
      else (freeWithin 0 a (.fin n 1 (-(Nat.log2 m : Int) - e)) 1 (ulpExp (.fin n 1 (-(Nat.log2 m : Int) - e))) true, 0)
    else (freeWithin 0 a (.fin n (2 ^ 160 / m) (-160 - e)) 1 (ulpExp (.fin n (2 ^ 160 / m) (-160 - e))) true, 0) := by
  have zero : (m == 0) = false := by simpa using pos
  simp only [frcpF, value, zero, Bool.false_eq_true, if_false, beq_iff_eq]

/-- The reciprocal of a magnitude, cut to the unit in which the model holds it. -/
theorem reciprocal_cut {m : Nat} (e : Int) (pos : m ≠ 0) (odd : m ≠ 2 ^ Nat.log2 m) :
    ((2 ^ 160 / m : Nat) : ℝ) * 2 ^ (-160 - e) < 1 / (m * 2 ^ e) ∧ 1 / (m * (2 : ℝ) ^ e) < ((2 ^ 160 / m : Nat) + 1) * 2 ^ (-160 - e) := by
  have size : (0 : ℝ) < m := by exact_mod_cast Nat.pos_of_ne_zero pos
  have unit : (2 : ℝ) ^ (-160 - e) = 1 / (2 ^ 160 * 2 ^ e) := by
    rw [show (-160 - e : Int) = -(160 + e) by ring, zpow_neg, zpow_add₀ two_ne_zero, one_div]; norm_num
  have split := Nat.div_add_mod (2 ^ 160) m
  have less := Nat.mod_lt (2 ^ 160) (Nat.pos_of_ne_zero pos)
  have rest : 2 ^ 160 % m ≠ 0 := fun h => by
    obtain ⟨i, -, hi⟩ := (Nat.dvd_prime_pow Nat.prime_two).mp (Nat.dvd_of_mod_eq_zero h)
    exact odd (by rw [hi, Nat.log2_two_pow])
  have lo : m * (2 ^ 160 / m) < 2 ^ 160 := by omega
  have hi : 2 ^ 160 < m * (2 ^ 160 / m) + m := by omega
  have lo' : (m : ℝ) * (2 ^ 160 / m : Nat) < 2 ^ 160 := by exact_mod_cast lo
  have hi' : (2 : ℝ) ^ 160 < m * (2 ^ 160 / m : Nat) + m := by exact_mod_cast hi
  generalize ((2 ^ 160 / m : Nat) : ℝ) = q at lo' hi'
  rw [unit, mul_one_div, mul_one_div]
  constructor
  · rw [div_lt_div_iff₀ (by positivity) (by positivity)]
    nlinarith [zpow_pos (two_pos (α := ℝ)) e]
  · rw [div_lt_div_iff₀ (by positivity) (by positivity)]
    nlinarith [zpow_pos (two_pos (α := ℝ)) e]

theorem one_div_real (n : Bool) (m : Nat) (e : Int) : 1 / (FVal.fin n m e).real = signFactor n * (1 / (m * 2 ^ e)) := by
  rw [FVal.real_fin, mul_assoc]
  rcases signFactor_cases n with s | s <;> rw [s] <;> simp

/-- The reciprocal of a power of two. -/
theorem frcp_near_power {a : Word} {n : Bool} {m : Nat} {e : Int} (value : decodeF f32 a.toNat = .fin n m e) (pos : m ≠ 0)
    (top : 1 / (m * (2 : ℝ) ^ e) ≤ 2 ^ 128) (power : m = 2 ^ Nat.log2 m) :
    Gives (frcpF a) fun r => |r - 1 / (FVal.fin n m e).real| < spacing (1 / (FVal.fin n m e).real) := by
  have exact' : (FVal.fin n 1 (-(Nat.log2 m : Int) - e)).real = 1 / (FVal.fin n m e).real := by
    have : (m : ℝ) = 2 ^ (Nat.log2 m : ℤ) := by rw [zpow_natCast]; exact_mod_cast power
    rw [one_div_real, FVal.real_fin, Nat.cast_one, mul_one, this, ← zpow_add₀ two_ne_zero, one_div, ← zpow_neg]; congr 2; ring
  have top' : ((1 : Nat) : ℝ) * 2 ^ (-(Nat.log2 m : Int) - e) ≤ 2 ^ 128 := by
    rw [← FVal.abs_real_fin n, exact', one_div_real, abs_mul, abs_signFactor, one_mul, abs_of_nonneg (by positivity)]; exact top
  rw [frcpF_fin value pos, if_pos power, ← exact', ← spacing_eq one_ne_zero]
  split
  · obtain ⟨lt, number, near⟩ := encRn_near (n := n) top'
    exact ⟨lt, rfl, number, near.trans_lt (half_lt_self (by positivity))⟩
  · obtain ⟨lt, number, -, near⟩ := freeWithin_near 0 a (n := n) top' le_rfl one_pos true
    exact ⟨lt, rfl, number, by simpa using near rfl⟩

/-- The reciprocal of any other number: what lies within a spacing of the cut reciprocal lies within one of the reciprocal, for it has no bits below the cut. -/
theorem frcp_near_cut {a : Word} {n : Bool} {m : Nat} {e : Int} (value : decodeF f32 a.toNat = .fin n m e) (pos : m ≠ 0)
    (top : 1 / (m * (2 : ℝ) ^ e) ≤ 2 ^ 128) (bottom : (2 : ℝ) ^ (-128 : ℤ) ≤ 1 / (m * 2 ^ e)) (odd : m ≠ 2 ^ Nat.log2 m) :
    Gives (frcpF a) fun r => |r - 1 / (FVal.fin n m e).real| < spacing (1 / (FVal.fin n m e).real) := by
  obtain ⟨few, low, high, -⟩ := decode_f32_range value
  have size : (0 : ℝ) < m * 2 ^ e := by have := Nat.pos_of_ne_zero pos; positivity
  obtain ⟨lo, hi⟩ := reciprocal_cut e pos odd
  have some : 0 < 2 ^ 160 / m := Nat.div_pos (few.le.trans (by norm_num)) (Nat.pos_of_ne_zero pos)
  have unit := spacing_eq (n := n) (e := -160 - e) some.ne'
  obtain ⟨lt, number, -, near⟩ := freeWithin_near 0 a (n := n) (lo.le.trans top) le_rfl one_pos true
  have finer : -160 - e ≤ ulpExp (.fin n (2 ^ 160 / m) (-160 - e)) := by
    have many : 2 ^ 23 ≤ 2 ^ 160 / m := (Nat.le_div_iff_mul_le (Nat.pos_of_ne_zero pos)).mpr ((Nat.mul_le_mul_left _ few.le).trans (by norm_num))
    have := (Nat.le_log2 some.ne').mpr many
    rw [ulpExp_fin some.ne']
    omega
  have away : (2 : ℝ) ^ (-e - 24) ≤ 1 / (m * 2 ^ e) := by
    rw [le_one_div (by positivity) size, one_div, ← zpow_neg, show -(-e - 24) = 24 + e by ring, zpow_add₀ two_ne_zero]
    have : (m : ℝ) ≤ 2 ^ (24 : ℤ) := by exact_mod_cast few.le
    gcongr
  rw [frcpF_fin value pos, if_neg odd, one_div_real]
  rw [FVal.real_fin, mul_assoc, spacing_signed, spacing_cut some lo.le hi] at unit
  generalize freeWithin 0 a (.fin n (2 ^ 160 / m) (-160 - e)) 1 (ulpExp (.fin n (2 ^ 160 / m) (-160 - e))) true = r at *
  refine ⟨lt, rfl, number, ?_⟩
  change |_| < _
  have near := near rfl
  rw [unit, FVal.real_fin, mul_assoc, abs_sub_signed, Nat.cast_one, one_mul] at near
  rw [spacing_signed, abs_sub_signed]
  generalize 1 / ((m : ℝ) * 2 ^ e) = x at *
  obtain ⟨below, above⟩ := abs_lt.mp near
  have fine := spacing_le bottom
  have grain : (2 : ℝ) ^ (-160 - e) ≤ x / 2 ^ 21 := by
    rw [le_div_iff₀ (by positivity), ← zpow_natCast, ← zpow_add₀ two_ne_zero]
    exact (zpow_le_zpow_right₀ one_le_two (by push_cast; omega)).trans away
  have reach : (2 : ℝ) ^ (-160 - e + 23) ≤ |(decodeF f32 r).real| := by
    rw [← one_mul |_|, ← abs_signFactor n, ← abs_mul]
    refine le_trans ?_ (le_abs_self _)
    have : (2 : ℝ) ^ (-160 - e + 23) * 2 ≤ x := by
      rw [← zpow_add_one₀ two_ne_zero]
      exact (zpow_le_zpow_right₀ one_le_two (by omega)).trans away
    norm_num at fine grain
    linarith
  have lower := cut_below number (by omega) reach finer (n := n) (c := 1) hi (by rw [Nat.cast_one, one_mul, unit]; linarith)
  rw [Nat.cast_one, one_mul, unit] at lower
  exact abs_lt.mpr ⟨by linarith, by linarith⟩

theorem frcp_near {a : Word} {n : Bool} {m : Nat} {e : Int} (value : decodeF f32 a.toNat = .fin n m e) (pos : m ≠ 0)
    (least : (2 : ℝ) ^ (-128 : ℤ) ≤ |(FVal.fin n m e).real|) :
    Gives (frcpF a) fun r => |r - 1 / (FVal.fin n m e).real| < spacing (1 / (FVal.fin n m e).real) := by
  have below := decode_f32_lt value
  rw [FVal.abs_real_fin] at least below
  have size : (0 : ℝ) < m * 2 ^ e := by have := Nat.pos_of_ne_zero pos; positivity
  have top : 1 / (m * (2 : ℝ) ^ e) ≤ 2 ^ 128 := by
    rw [one_div_le size (by positivity)]; norm_num at least ⊢; exact least
  have bottom : (2 : ℝ) ^ (-128 : ℤ) ≤ 1 / (m * 2 ^ e) := by
    rw [le_one_div (by positivity) size]; norm_num at below ⊢; exact below.le
  by_cases power : m = 2 ^ Nat.log2 m
  · exact frcp_near_power value pos top power
  · exact frcp_near_cut value pos top bottom power

theorem frcp_exact {a : Word} {n : Bool} {m : Nat} {e : Int} (value : decodeF f32 a.toNat = .fin n m e) (pos : m ≠ 0)
    {k : Int} (least : -127 ≤ k) (power : |(FVal.fin n m e).real| = 2 ^ k) : Gives (frcpF a) fun r => r = 1 / (FVal.fin n m e).real := by
  have below := decode_f32_lt value
  rw [power] at below
  have high : k < 128 := (zpow_lt_zpow_iff_right₀ (one_lt_two (α := ℝ))).mp (by exact_mod_cast below)
  rw [FVal.abs_real_fin] at power
  obtain ⟨shape, lead⟩ := power_of_two pos power
  have unit : ulpExp (.fin n 1 (-k)) ≤ -k := by rw [ulpExp_fin one_ne_zero, show Nat.log2 1 = 0 by decide]; omega
  have top : ((1 : Nat) : ℝ) * 2 ^ (-k) < 2 ^ 128 := by
    rw [Nat.cast_one, one_mul, ← zpow_natCast]
    exact zpow_lt_zpow_right₀ one_lt_two (by push_cast; omega)
  obtain ⟨flags, same⟩ := encRn_exact (n := n) one_ne_zero unit top
  obtain ⟨lt, number, -⟩ := encRn_near (n := n) top.le
  rw [frcpF_fin value pos, if_pos shape, show -(Nat.log2 m : Int) - e = -k by omega, if_pos flags]
  refine ⟨lt, rfl, number, same.trans ?_⟩
  rw [FVal.real_fin, FVal.real_fin, mul_assoc _ (m : ℝ), power, zpow_neg]
  rcases signFactor_cases n with s | s <;> rw [s] <;> simp

end Sys2Proof.Machine
end

section
/-! The square roots (R154): frsq within two spacings, and fsqrt as near as any value of f32. -/

namespace Sys2Proof.Machine

/-! Integer square roots and even powers. -/

theorem isqrtFrom_spec (k n r : Nat) (lo : r * r ≤ n) (hi : n < (r + 2 ^ (k + 1)) * (r + 2 ^ (k + 1))) :
    isqrtFrom k n r * isqrtFrom k n r ≤ n ∧ n < (isqrtFrom k n r + 1) * (isqrtFrom k n r + 1) := by
  induction k generalizing r with
  | zero =>
    rw [isqrtFrom]
    split
    · next h => exact ⟨h, hi⟩
    · next h => exact ⟨lo, not_le.mp h⟩
  | succ k ih =>
    rw [isqrtFrom]
    split
    · next h => exact ih _ h (by rw [Nat.add_assoc, ← Nat.two_mul, ← pow_succ']; exact hi)
    · next h => exact ih _ lo (not_le.mp h)

theorem isqrt_spec (n : Nat) : isqrt n * isqrt n ≤ n ∧ n < (isqrt n + 1) * (isqrt n + 1) := by
  refine isqrtFrom_spec _ n 0 (Nat.zero_le _) ?_
  rw [Nat.zero_add, ← pow_add]
  exact Nat.lt_log2_self.trans_le (Nat.pow_le_pow_right (by norm_num) (by omega))

/-- A number of f32 as a significand and an even power. -/
theorem evenExp_spec {m : Nat} {e : Int} (pos : m ≠ 0) (few : m < 2 ^ 24) (low : -149 ≤ e) (high : e ≤ 104) :
    (evenExp m e).1 ≠ 0 ∧ (evenExp m e).1 < 2 ^ 25 ∧ -75 ≤ (evenExp m e).2 ∧ (evenExp m e).2 ≤ 52 ∧
    (m : ℝ) * 2 ^ e = (evenExp m e).1 * 2 ^ (2 * (evenExp m e).2) := by
  unfold evenExp
  split
  · next h => exact ⟨pos, by dsimp only; omega, by dsimp only; omega, by dsimp only; omega, by dsimp only; congr 2; omega⟩
  · next h =>
    refine ⟨by simpa using pos, by dsimp only; omega, by dsimp only; omega, by dsimp only; omega, ?_⟩
    have : e = 2 * ((e - 1) / 2) + 1 := by omega
    dsimp only
    conv_lhs => rw [this, zpow_add_one₀ two_ne_zero]
    push_cast
    ring

theorem sqrt_even {m : Nat} (h : Int) : √((m : ℝ) * 2 ^ (2 * h)) = √m * 2 ^ h := by
  rw [Real.sqrt_mul (Nat.cast_nonneg _), show (2 : ℝ) ^ (2 * h) = (2 ^ h) ^ 2 by rw [← zpow_natCast, ← zpow_mul]; congr 1; push_cast; ring,
    Real.sqrt_sq (by positivity)]

/-- The root of a significand of at most 25 bits. -/
theorem sqrt_significand {m : Nat} (pos : m ≠ 0) (few : m < 2 ^ 25) : 1 ≤ √(m : ℝ) ∧ √(m : ℝ) < 2 ^ 13 := by
  constructor
  · exact Real.one_le_sqrt.mpr (by exact_mod_cast Nat.one_le_iff_ne_zero.mpr pos)
  · rw [Real.sqrt_lt' (by positivity)]
    have : (m : ℝ) < 2 ^ 25 := by exact_mod_cast few
    norm_num at this ⊢
    linarith

/-! frsq. -/

theorem frsqF_fin {a : Word} {m : Nat} {e : Int} (value : decodeF f32 a.toNat = .fin false m e) (pos : m ≠ 0) : frsqF a =
    if (evenExp m e).1 = 2 ^ Nat.log2 (evenExp m e).1 ∧ Nat.log2 (evenExp m e).1 % 2 = 0 then
      ((encRn f32 (.fin false 1 (-(Nat.log2 (evenExp m e).1 / 2 : Nat) - (evenExp m e).2))).1, 0)
    else (freeWithin 1 a (.fin false (isqrt (2 ^ 320 / (evenExp m e).1)) (-160 - (evenExp m e).2)) 2
      (ulpExp (.fin false (isqrt (2 ^ 320 / (evenExp m e).1)) (-160 - (evenExp m e).2))) false, 0) := by
  have zero : (m == 0) = false := by simpa using pos
  simp only [frsqF, value, zero, Bool.false_eq_true, if_false, beq_iff_eq, Bool.and_eq_true]

/-- The reciprocal of a root, cut to the unit in which the model holds it. -/
theorem rsqrt_cut {m : Nat} (h : Int) (pos : m ≠ 0) :
    (isqrt (2 ^ 320 / m) : ℝ) * 2 ^ (-160 - h) ≤ 1 / (√m * 2 ^ h) ∧ 1 / (√(m : ℝ) * 2 ^ h) < (isqrt (2 ^ 320 / m) + 1) * 2 ^ (-160 - h) := by
  have size : 0 < m := Nat.pos_of_ne_zero pos
  have root : (0 : ℝ) < √m := Real.sqrt_pos.mpr (by exact_mod_cast size)
  obtain ⟨lo, hi⟩ := isqrt_spec (2 ^ 320 / m)
  generalize isqrt (2 ^ 320 / m) = q at *
  have lo' : (q * q) * m ≤ 2 ^ 320 := (Nat.le_div_iff_mul_le size).mp lo
  have hi' : 2 ^ 320 < ((q + 1) * (q + 1)) * m := (Nat.div_lt_iff_lt_mul size).mp hi
  have square : √(m : ℝ) ^ 2 = m := Real.sq_sqrt (Nat.cast_nonneg _)
  have unit : (2 : ℝ) ^ (-160 - h) = 1 / (2 ^ 160 * 2 ^ h) := by
    rw [show (-160 - h : Int) = -(160 + h) by ring, zpow_neg, zpow_add₀ two_ne_zero, one_div]; norm_num
  have twice : (2 : ℝ) ^ 320 = (2 ^ 160) ^ 2 := by rw [← pow_mul]
  have low : (q : ℝ) * √m ≤ 2 ^ 160 := by
    refine le_of_sq_le_sq ?_ (by positivity)
    rw [← twice, mul_pow, square, sq (q : ℝ)]
    exact_mod_cast lo'
  have high : (2 : ℝ) ^ 160 < (q + 1) * √m := by
    refine lt_of_pow_lt_pow_left₀ 2 (by positivity) ?_
    rw [← twice, mul_pow, square, sq ((q : ℝ) + 1)]
    exact_mod_cast hi'
  rw [unit, mul_one_div, mul_one_div]
  have half : (0 : ℝ) < 2 ^ h := by positivity
  constructor
  · rw [div_le_div_iff₀ (by positivity) (by positivity)]; nlinarith
  · rw [div_lt_div_iff₀ (by positivity) (by positivity)]; nlinarith

theorem frsq_exact {a : Word} {m : Nat} {e : Int} (value : decodeF f32 a.toNat = .fin false m e) (pos : m ≠ 0)
    {k : Int} (power : (FVal.fin false m e).real = 2 ^ (2 * k)) : Gives (frsqF a) fun r => r = 2 ^ (-k) := by
  obtain ⟨few, low, high, -⟩ := decode_f32_range value
  obtain ⟨pos', few', low', high', even⟩ := evenExp_spec pos few low high
  rw [FVal.real_fin, signFactor_false, one_mul, even] at power
  obtain ⟨shape, lead⟩ := power_of_two pos' power
  rw [frsqF_fin value pos, if_pos ⟨shape, by omega⟩]
  have bits : Nat.log2 (evenExp m e).1 < 25 := (Nat.log2_lt pos').mpr few'
  generalize Nat.log2 (evenExp m e).1 = l at *
  generalize (evenExp m e).2 = h at *
  rw [show -((l / 2 : Nat) : Int) - h = -k by omega]
  have top : ((1 : Nat) : ℝ) * 2 ^ (-k) < 2 ^ 128 := by
    rw [Nat.cast_one, one_mul, ← zpow_natCast]
    exact zpow_lt_zpow_right₀ one_lt_two (by push_cast; omega)
  obtain ⟨-, same⟩ := encRn_exact (n := false) one_ne_zero (by rw [ulpExp_fin one_ne_zero, show Nat.log2 1 = 0 by decide]; omega) top
  obtain ⟨lt, number, -⟩ := encRn_near (n := false) top.le
  exact ⟨lt, rfl, number, by simpa [FVal.real_fin] using same⟩

/-- No number of few bits lies just below the reciprocal of a root: the square of one, times the number, falls short of 1 by at least its last bit. -/
theorem rsqrt_gap {m K : Nat} {h s : Int} (pos : m ≠ 0) (few : m < 2 ^ 25) (some : 0 < K) (coarse : -38 - h ≤ s)
    (below : (K : ℝ) * 2 ^ s < 1 / (√m * 2 ^ h)) : (K : ℝ) * 2 ^ s + 2 ^ (-160 - h) ≤ 1 / (√m * 2 ^ h) := by
  obtain ⟨root, root'⟩ := sqrt_significand pos few
  have square : √(m : ℝ) ^ 2 = m := Real.sq_sqrt (Nat.cast_nonneg _)
  have unit : (0 : ℝ) < √m * 2 ^ h := by positivity
  rw [lt_div_iff₀ unit] at below
  rw [le_div_iff₀ unit]
  -- the square of the product, as a fraction of a power of two
  have whole : ((K : ℝ) * 2 ^ s * (√m * 2 ^ h)) ^ 2 * 2 ^ (-(2 * s + 2 * h)) = (K ^ 2 * m : Nat) := by
    have powers : ((2 : ℝ) ^ s) ^ 2 * (2 ^ h) ^ 2 * 2 ^ (-(2 * s + 2 * h)) = 1 := by
      rw [← zpow_natCast, ← zpow_natCast, ← zpow_mul, ← zpow_mul, ← zpow_add₀ two_ne_zero, ← zpow_add₀ two_ne_zero, ← zpow_zero (2 : ℝ)]
      congr 1; push_cast; ring
    push_cast
    linear_combination (K : ℝ) ^ 2 * √m ^ 2 * powers + K ^ 2 * square
  have product : (0 : ℝ) < K * 2 ^ s * (√m * 2 ^ h) := by positivity
  have less : ((K ^ 2 * m : Nat) : ℝ) < 2 ^ (-(2 * s + 2 * h)) := by
    rw [← whole]; exact mul_lt_of_lt_one_left (by positivity) (pow_lt_one₀ product.le below (by norm_num))
  have one : (1 : ℝ) ≤ (K ^ 2 * m : Nat) := by exact_mod_cast Nat.mul_pos (pow_pos some 2) (Nat.pos_of_ne_zero pos)
  have deep : 0 < -(2 * s + 2 * h) := (one_lt_zpow_iff_right₀ (one_lt_two (α := ℝ))).mp (one.trans_lt less)
  obtain ⟨d, hd⟩ := Int.eq_ofNat_of_zero_le deep.le
  have shallow : d ≤ 76 := by omega
  rw [hd, zpow_natCast] at less whole
  have less' : K ^ 2 * m < 2 ^ d := by exact_mod_cast less
  have step : ((K ^ 2 * m : Nat) : ℝ) + 1 ≤ 2 ^ d := by exact_mod_cast less'
  have cap : (2 : ℝ) ^ d ≤ 2 ^ 76 := pow_le_pow_right₀ one_le_two shallow
  have short : (K : ℝ) * 2 ^ s * (√m * 2 ^ h) ≤ 1 - 1 / 2 ^ 77 := by
    by_contra above
    rw [← whole] at step
    have : (1 - 1 / 2 ^ 77) ^ 2 < ((K : ℝ) * 2 ^ s * (√m * 2 ^ h)) ^ 2 := pow_lt_pow_left₀ (not_le.mp above) (by norm_num) (by norm_num)
    have : (0 : ℝ) < 2 ^ d := by positivity
    norm_num at *
    nlinarith
  have last : (2 : ℝ) ^ (-160 - h) * (√m * 2 ^ h) ≤ 1 / 2 ^ 147 := by
    have : (2 : ℝ) ^ (-160 - h) * 2 ^ h = 1 / 2 ^ 160 := by rw [← zpow_add₀ two_ne_zero, show -160 - h + h = -160 by ring]; norm_num
    rw [mul_left_comm, this]
    norm_num at root' ⊢
    linarith
  norm_num at short last
  linarith

/-- The reciprocal of the root of a significand of at most 25 bits keeps at least 147 bits when it is cut. -/
theorem rsqrt_bits {m : Nat} (pos : m ≠ 0) (few : m < 2 ^ 25) : 2 ^ 147 ≤ isqrt (2 ^ 320 / m) := by
  obtain ⟨root, root'⟩ := sqrt_significand pos few
  have hi := (rsqrt_cut 0 pos).2
  rw [zpow_zero, mul_one] at hi
  have least : (2 : ℝ) ^ 147 * 2 ^ (-160 - 0 : ℤ) < 1 / √m := by
    rw [lt_div_iff₀ (by positivity)]
    norm_num at root' ⊢
    linarith
  have : (2 : ℝ) ^ 147 < isqrt (2 ^ 320 / m) + 1 := lt_of_mul_lt_mul_right (least.trans hi) (by positivity)
  exact Nat.lt_succ_iff.mp (by exact_mod_cast this)

/-- A value of f32 at most two spacings below the cut reciprocal of a root is so below the reciprocal itself: otherwise it and two spacings would lie in the gap. -/
theorem rsqrt_lower {m : Nat} {h t : Int} (pos : m ≠ 0) (few : m < 2 ^ 25) {r : Nat} (number : (decodeF f32 r).isNan = false)
    (coarse : -36 - h ≤ t) (high : t ≤ 106) (reach : (2 : ℝ) ^ (t - 2 + 23) ≤ |(decodeF f32 r).real|) {c : ℝ} (some : 0 < c)
    (hi : 1 / (√m * 2 ^ h) < c + 2 ^ (-160 - h)) (near : c ≤ (decodeF f32 r).real + 2 * 2 ^ t) : 1 / (√m * 2 ^ h) ≤ (decodeF f32 r).real + 2 * 2 ^ t := by
  by_contra far
  obtain ⟨k, hk⟩ := f32_sum_multiple number (g := t - 2) (t := t) (by omega) reach (by omega) false 2
  rw [signFactor_false, one_mul, Nat.cast_ofNat] at hk
  have pos' : 0 < (k : ℝ) * 2 ^ (t - 2) := hk ▸ some.trans_le near
  have kpos : 0 < k := by exact_mod_cast (mul_pos_iff_of_pos_right (by positivity)).mp pos'
  obtain ⟨K, rfl⟩ := Int.eq_ofNat_of_zero_le kpos.le
  rw [Int.cast_natCast] at hk
  have gap := rsqrt_gap (K := K) (h := h) (s := t - 2) pos few (by exact_mod_cast kpos) (by omega) (by rw [← hk]; linarith)
  rw [← hk] at gap
  linarith

/-- An even power of two has the exact result. -/
theorem frsq_power {a : Word} {m : Nat} {e : Int} (value : decodeF f32 a.toNat = .fin false m e) (pos : m ≠ 0)
    (shape : (evenExp m e).1 = 2 ^ Nat.log2 (evenExp m e).1) (parity : Nat.log2 (evenExp m e).1 % 2 = 0) :
    Gives (frsqF a) fun r => r = 1 / √(FVal.fin false m e).real := by
  obtain ⟨few, low, high, -⟩ := decode_f32_range value
  obtain ⟨-, -, -, -, even⟩ := evenExp_spec pos few low high
  have power : (FVal.fin false m e).real = 2 ^ (2 * ((Nat.log2 (evenExp m e).1 / 2 : Nat) + (evenExp m e).2)) := by
    have : ((evenExp m e).1 : ℝ) = 2 ^ (Nat.log2 (evenExp m e).1 : ℤ) := by rw [zpow_natCast]; exact_mod_cast shape
    rw [FVal.real_fin, signFactor_false, one_mul, even, this, ← zpow_add₀ two_ne_zero]
    congr 1
    omega
  have root := sqrt_even (m := 1) ((Nat.log2 (evenExp m e).1 / 2 : Nat) + (evenExp m e).2)
  rw [Nat.cast_one, one_mul, Real.sqrt_one, one_mul] at root
  rw [power, root, one_div, ← zpow_neg]
  exact frsq_exact value pos power

theorem frsq_near {a : Word} {m : Nat} {e : Int} (value : decodeF f32 a.toNat = .fin false m e) (pos : m ≠ 0) :
    Gives (frsqF a) fun r => |r - 1 / √(FVal.fin false m e).real| ≤ 2 * spacing (1 / √(FVal.fin false m e).real) := by
  by_cases square : (evenExp m e).1 = 2 ^ Nat.log2 (evenExp m e).1 ∧ Nat.log2 (evenExp m e).1 % 2 = 0
  · obtain ⟨lt, flags, number, same⟩ := frsq_power value pos square.1 square.2
    refine ⟨lt, flags, number, ?_⟩
    dsimp only
    rw [same, sub_self, abs_zero]
    exact mul_nonneg zero_le_two (spacing_pos _).le
  obtain ⟨few, low, high, -⟩ := decode_f32_range value
  obtain ⟨pos', few', low', high', even⟩ := evenExp_spec pos few low high
  rw [frsqF_fin value pos, if_neg square, FVal.real_fin, signFactor_false, one_mul, even, sqrt_even]
  generalize (evenExp m e).1 = m' at *
  generalize (evenExp m e).2 = h at *
  obtain ⟨lo, hi⟩ := rsqrt_cut h pos'
  have many := rsqrt_bits pos' few'
  have lower := fun r t => rsqrt_lower (h := h) (t := t) pos' few' (r := r)
  have some : isqrt (2 ^ 320 / m') ≠ 0 := (lt_of_lt_of_le (by norm_num) many).ne'
  have top : 1 / (√(m' : ℝ) * 2 ^ h) ≤ 2 ^ (-h) := by
    rw [zpow_neg, one_div]
    exact inv_anti₀ (by positivity) (le_mul_of_one_le_left (by positivity) (sqrt_significand pos' few').1)
  have big : (2 : ℝ) ^ (-h) ≤ 2 ^ 128 := by rw [← zpow_natCast]; exact zpow_le_zpow_right₀ one_le_two (by push_cast; omega)
  have bits := (Nat.le_log2 some).mpr many
  have unit := ulpExp_fin (n := false) (e := -160 - h) some
  have lead := (log2_bounds some (-160 - h)).1
  have same := spacing_eq (n := false) (e := -160 - h) some
  obtain ⟨lt, number, near, -⟩ := freeWithin_near 1 a (n := false) (lo.trans (top.trans big)) le_rfl two_pos false
  rw [FVal.real_fin, signFactor_false, one_mul] at near same
  rw [spacing_cut (Nat.pos_of_ne_zero some) lo hi] at same
  have positive : (0 : ℝ) < isqrt (2 ^ 320 / m') * 2 ^ (-160 - h) := by have := Nat.pos_of_ne_zero some; positivity
  rw [add_mul, one_mul] at hi
  refine ⟨lt, rfl, number, ?_⟩
  change |_| ≤ _
  rw [← same]
  generalize freeWithin 1 a (.fin false (isqrt (2 ^ 320 / m')) (-160 - h)) 2 (ulpExp (.fin false (isqrt (2 ^ 320 / m')) (-160 - h))) false = r at *
  generalize ulpExp (.fin false (isqrt (2 ^ 320 / m')) (-160 - h)) = t at *
  rw [show (Nat.log2 (isqrt (2 ^ 320 / m')) : Int) + (-160 - h) = t + 23 by omega] at lead
  have high'' : t + 23 ≤ -h := (zpow_le_zpow_iff_right₀ (one_lt_two (α := ℝ))).mp (lead.trans (lo.trans top))
  obtain ⟨below, above⟩ := abs_le.mp near
  rw [Nat.cast_ofNat] at below above
  have reach : (2 : ℝ) ^ (t - 2 + 23) ≤ |(decodeF f32 r).real| := by
    have h1 : (2 : ℝ) ^ (t + 23) = 2 ^ 23 * 2 ^ t := by rw [zpow_add₀ two_ne_zero, mul_comm]; norm_num
    have h2 : (2 : ℝ) ^ (t - 2 + 23) = 2 ^ 21 * 2 ^ t := by rw [show t - 2 + 23 = t + 21 by ring, zpow_add₀ two_ne_zero, mul_comm]; norm_num
    have : (0 : ℝ) < 2 ^ t := by positivity
    rw [h1] at lead
    rw [h2]
    refine le_trans ?_ (le_abs_self _)
    linarith
  have := lower r t number (by omega) (by omega) reach positive hi (by linarith)
  exact abs_le.mpr ⟨by linarith, by linarith⟩

/-! fsqrt. -/

theorem fsqrtF_fin {a : Word} {m : Nat} {e : Int} (value : decodeF f32 a.toNat = .fin false m e) (pos : m ≠ 0) : fsqrtF a =
    encRn f32 (.fin false (if isqrt ((evenExp m e).1 * 2 ^ 80) * isqrt ((evenExp m e).1 * 2 ^ 80) = (evenExp m e).1 * 2 ^ 80 then 2 * isqrt ((evenExp m e).1 * 2 ^ 80)
      else 2 * isqrt ((evenExp m e).1 * 2 ^ 80) + 1) ((evenExp m e).2 - 41)) := by
  have zero : (m == 0) = false := by simpa using pos
  simp only [fsqrtF, value, zero, Bool.false_eq_true, if_false, beq_iff_eq]

/-- Twice the root of a number cut to an integer, with a last bit for what was cut off. -/
def stickyRoot (w : Nat) : Nat := if isqrt w * isqrt w = w then 2 * isqrt w else 2 * isqrt w + 1

/-- The cut root of a number of 81 to 105 bits. -/
theorem stickyRoot_bits {m : Nat} (pos : m ≠ 0) (few : m < 2 ^ 25) : 2 ^ 41 ≤ stickyRoot (m * 2 ^ 80) ∧ stickyRoot (m * 2 ^ 80) < 2 ^ 55 := by
  obtain ⟨lo, hi⟩ := isqrt_spec (m * 2 ^ 80)
  have h1 : 2 ^ 40 < isqrt (m * 2 ^ 80) + 1 := Nat.mul_self_lt_mul_self_iff.mp (lt_of_le_of_lt (by omega) hi)
  have h2 : isqrt (m * 2 ^ 80) < 2 ^ 53 := Nat.mul_self_lt_mul_self_iff.mp (lt_of_le_of_lt lo (by omega))
  unfold stickyRoot
  split <;> omega

/-- The leading bit of the cut root is one of twice the root. -/
theorem log2_stickyRoot {w : Nat} (bits : 41 ≤ Nat.log2 (stickyRoot w)) : (2 : ℝ) ^ Nat.log2 (stickyRoot w) ≤ 2 * √w := by
  have lo' : (isqrt w : ℝ) ≤ √w := Real.le_sqrt_of_sq_le (by rw [sq]; exact_mod_cast (isqrt_spec w).1)
  have some : stickyRoot w ≠ 0 := fun h => by rw [h] at bits; revert bits; decide
  have lead := Nat.log2_self_le some
  obtain ⟨l, hl⟩ : ∃ l, Nat.log2 (stickyRoot w) = l + 1 := ⟨_, (Nat.sub_add_cancel (by omega : 1 ≤ _)).symm⟩
  rw [hl, pow_succ] at lead ⊢
  have : 2 ^ l ≤ isqrt w := by unfold stickyRoot at lead; split at lead <;> omega
  have : (2 : ℝ) ^ l ≤ isqrt w := by exact_mod_cast this
  linarith

/-- Rounding the cut root to a multiple of 4 is as near to the root itself, and exact for the same numbers. -/
theorem stickyRoot_round {w p W : Nat} (near : 2 * (p * (4 * W)) ≤ 2 * stickyRoot w + 4 * W ∧ 2 * stickyRoot w ≤ 2 * (p * (4 * W)) + 4 * W) :
    |((p * (4 * W) : Nat) : ℝ) - 2 * √w| ≤ (4 * W : Nat) / 2 ∧ (p * (4 * W) = stickyRoot w ↔ ((p * (4 * W) : Nat) : ℝ) = 2 * √w) := by
  obtain ⟨lo, hi⟩ := isqrt_spec w
  have lo' : (isqrt w : ℝ) ≤ √w := Real.le_sqrt_of_sq_le (by rw [sq]; exact_mod_cast lo)
  have hi' : √w < isqrt w + 1 := (Real.sqrt_lt' (by positivity)).mpr (by rw [sq]; exact_mod_cast hi)
  have reorder : p * (4 * W) = 4 * (p * W) := by ring
  rw [reorder] at near ⊢
  unfold stickyRoot at *
  split at near
  · next square =>
    have same : √(w : ℝ) = isqrt w := by
      rw [Real.sqrt_eq_iff_mul_self_eq (Nat.cast_nonneg _) (Nat.cast_nonneg _)]; exact_mod_cast square.symm
    rw [same, if_pos square]
    have h1 : (2 * (4 * (p * W) : Nat) : ℝ) ≤ 2 * (2 * isqrt w) + 4 * W := by exact_mod_cast near.1
    have h2 : (2 * (2 * isqrt w) : ℝ) ≤ 2 * (4 * (p * W) : Nat) + 4 * W := by exact_mod_cast near.2
    refine ⟨?_, by exact_mod_cast Iff.rfl⟩
    push_cast at h1 h2 ⊢
    rw [abs_le]; constructor <;> linarith
  · next inexact =>
    rw [if_neg inexact]
    have h1 : 4 * (p * W) + 1 ≤ 2 * isqrt w + 1 + 2 * W := by omega
    have h2 : 2 * isqrt w + 1 + 1 ≤ 4 * (p * W) + 2 * W := by omega
    have h1' : (4 * (p * W) + 1 : ℝ) ≤ 2 * isqrt w + 1 + 2 * W := by exact_mod_cast h1
    have h2' : (2 * isqrt w + 1 + 1 : ℝ) ≤ 4 * (p * W) + 2 * W := by exact_mod_cast h2
    constructor
    · push_cast
      rw [abs_le]; constructor <;> linarith
    · refine ⟨fun h => by omega, fun h => absurd ?_ inexact⟩
      have root : (2 * (p * W) : ℝ) = √w := by push_cast at h; linarith
      have : ((2 * (p * W)) * (2 * (p * W)) : ℝ) = w := by rw [root]; exact Real.mul_self_sqrt (Nat.cast_nonneg _)
      have : (2 * (p * W)) * (2 * (p * W)) = w := by exact_mod_cast this
      rw [← this] at lo hi ⊢
      have h1 := Nat.mul_self_le_mul_self_iff.mp lo
      have h2 := Nat.mul_self_lt_mul_self_iff.mp hi
      rw [show isqrt (2 * (p * W) * (2 * (p * W))) = 2 * (p * W) by omega]

/-- The root rounded through its cut: within half a spacing, unchanged where the root is, and with all its bits. -/
theorem roundAt_stickyRoot {w : Nat} {g t : Int} (bits : 41 ≤ Nat.log2 (stickyRoot w)) (unit : t = (Nat.log2 (stickyRoot w) : Int) + g - 23)
    {q : Nat} {nx : Bool} (rounded : roundAt .rn false (stickyRoot w) g t = (q, nx)) :
    |q * 2 ^ t - 2 * √w * 2 ^ g| ≤ 2 ^ t / 2 ∧ (nx = false ↔ (q : ℝ) * 2 ^ t = 2 * √w * 2 ^ g) ∧ (2 : ℝ) ^ (t + 23) ≤ 2 * √w * 2 ^ g := by
  obtain ⟨near, same⟩ := roundAt_near false (stickyRoot w) g t
  rw [rounded] at near same
  dsimp only at near same
  have scale : (2 : ℝ) ^ t = ((4 * 2 ^ (Nat.log2 (stickyRoot w) - 25) : Nat) : ℝ) * 2 ^ g := by
    have : (2 : ℝ) ^ t = 2 ^ (2 : ℤ) * 2 ^ (((Nat.log2 (stickyRoot w) - 25 : Nat) : Int)) * 2 ^ g := by
      rw [← zpow_add₀ two_ne_zero, ← zpow_add₀ two_ne_zero]; congr 1; omega
    rw [this, zpow_natCast]; push_cast; norm_num
  generalize 2 ^ (Nat.log2 (stickyRoot w) - 25) = W at scale
  have small : (0 : ℝ) < 2 ^ g := by positivity
  have product : (q : ℝ) * 2 ^ t = ((q * (4 * W) : Nat) : ℝ) * 2 ^ g := by rw [scale]; push_cast; ring
  obtain ⟨dist, exact'⟩ := stickyRoot_round (w := w) (p := q) (W := W) (by
    rw [product, ← sub_mul, scale, abs_mul, abs_of_pos small, mul_div_right_comm, mul_le_mul_iff_left₀ small] at near
    obtain ⟨below, above⟩ := abs_le.mp near
    constructor
    · have : (2 * (q * (4 * W) : Nat) : ℝ) ≤ 2 * stickyRoot w + (4 * W : Nat) := by linarith
      exact_mod_cast this
    · have : (2 * stickyRoot w : ℝ) ≤ 2 * (q * (4 * W) : Nat) + (4 * W : Nat) := by linarith
      exact_mod_cast this)
  refine ⟨?_, ?_, ?_⟩
  · rw [product, ← sub_mul, scale, abs_mul, abs_of_pos small, mul_div_right_comm]
    gcongr
  · rw [same, product, mul_left_inj' small.ne', mul_left_inj' small.ne', ← exact', Nat.cast_inj]
  · have : (2 : ℝ) ^ (t + 23) = 2 ^ Nat.log2 (stickyRoot w) * 2 ^ g := by
      rw [← zpow_natCast, ← zpow_add₀ two_ne_zero]; congr 1; omega
    rw [this]
    gcongr
    exact log2_stickyRoot bits

/-- Of the values of f32 that are not negative, none is nearer to a number than its nearest multiple of the spacing. -/
theorem nearest_f32 {s : ℝ} {q : Nat} {t : Int} (high : t ≤ 104) (lead : (2 : ℝ) ^ (t + 23) ≤ s) (near : |q * 2 ^ t - s| ≤ 2 ^ t / 2)
    {z : Nat} (number : (decodeF f32 z).isNan = false) : |q * 2 ^ t - s| ≤ |(decodeF f32 z).real - s| := by
  have unit : (0 : ℝ) < 2 ^ t := by positivity
  obtain ⟨below, above⟩ := abs_le.mp near
  -- any other multiple of the spacing is at least half of it away
  have other : ∀ k : Int, |q * 2 ^ t - s| ≤ |k * 2 ^ t - s| := fun k => by
    by_cases same : k = q
    · rw [same, Int.cast_natCast]
    · refine near.trans ?_
      rcases lt_or_gt_of_ne same with less | more
      · have : (k : ℝ) + 1 ≤ q := by exact_mod_cast less
        exact le_abs.mpr (.inr (by nlinarith))
      · have : (q : ℝ) + 1 ≤ k := by exact_mod_cast more
        exact le_abs.mpr (.inl (by nlinarith))
  by_cases size : (2 : ℝ) ^ (t + 23) ≤ |(decodeF f32 z).real|
  · obtain ⟨k, hk⟩ := f32_multiple number high size
    rw [hk]
    exact other k
  · have whole : (2 : ℝ) ^ (t + 23) = (2 ^ 23 : Int) * 2 ^ t := by rw [zpow_add₀ two_ne_zero, mul_comm]; norm_num
    refine (other (2 ^ 23)).trans ?_
    rw [← whole, abs_sub_comm, abs_of_nonneg (by linarith), abs_sub_comm]
    exact le_trans (by have := le_abs_self (decodeF f32 z).real; linarith) (le_abs_self _)

/-- The root of m × 2^e through the cut root of its significand. -/
theorem sqrt_eq_cut {m : Nat} {e : Int} (even : (m : ℝ) * 2 ^ e = (evenExp m e).1 * 2 ^ (2 * (evenExp m e).2)) :
    √(FVal.fin false m e).real = 2 * √(((evenExp m e).1 * 2 ^ 80 : Nat) : ℝ) * 2 ^ ((evenExp m e).2 - 41) := by
  rw [FVal.real_fin, signFactor_false, one_mul, even]
  generalize (evenExp m e).1 = m'
  generalize (evenExp m e).2 = h
  have half := sqrt_even (m := m') 40
  rw [show (m' : ℝ) * 2 ^ (2 * 40 : ℤ) = ((m' * 2 ^ 80 : Nat) : ℝ) by push_cast; norm_num] at half
  rw [sqrt_even, half, show h = h - 41 + 41 by ring, zpow_add₀ two_ne_zero]
  norm_num
  ring

/-- What fsqrt gives: the nearest multiple q of the spacing 2^t at the root, and NX where it is not the root. -/
theorem fsqrt_rounded {a : Word} {m : Nat} {e : Int} (value : decodeF f32 a.toNat = .fin false m e) (pos : m ≠ 0) : ∃ (q : Nat) (t : Int) (nx : Bool),
    ((fsqrtF a).1 < 2 ^ 32 ∧ (decodeF f32 (fsqrtF a).1).isNan = false ∧ (decodeF f32 (fsqrtF a).1).real = q * 2 ^ t) ∧
    (fsqrtF a).2 = (if nx then flNX else 0) ∧ t ≤ 104 ∧ |q * 2 ^ t - √(FVal.fin false m e).real| ≤ 2 ^ t / 2 ∧
    (nx = false ↔ q * 2 ^ t = √(FVal.fin false m e).real) ∧ (2 : ℝ) ^ (t + 23) ≤ √(FVal.fin false m e).real := by
  obtain ⟨few, low, high, -⟩ := decode_f32_range value
  obtain ⟨pos', few', low', high', even⟩ := evenExp_spec pos few low high
  have code := fsqrtF_fin value pos
  rw [sqrt_eq_cut even]
  generalize (evenExp m e).1 = m' at *
  generalize (evenExp m e).2 = h at *
  change fsqrtF a = encRn f32 (.fin false (stickyRoot (m' * 2 ^ 80)) (h - 41)) at code
  rw [code]
  obtain ⟨many, fewer⟩ := stickyRoot_bits pos' few'
  have some : stickyRoot (m' * 2 ^ 80) ≠ 0 := (lt_of_lt_of_le (by norm_num) many).ne'
  have bits := (Nat.le_log2 some).mpr many
  have bits' := (Nat.log2_lt some).mpr fewer
  have unit := ulpExp_fin (n := false) (e := h - 41) some
  have top : (stickyRoot (m' * 2 ^ 80) : ℝ) * 2 ^ (h - 41) ≤ 2 ^ 128 := by
    calc (stickyRoot (m' * 2 ^ 80) : ℝ) * 2 ^ (h - 41) ≤ 2 ^ 55 * 2 ^ (11 : ℤ) := by
          gcongr <;> [exact_mod_cast fewer.le; norm_num; omega]
      _ ≤ 2 ^ 128 := by norm_num
  have below : ((roundAt .rn false (stickyRoot (m' * 2 ^ 80)) (h - 41) (ulpExp (.fin false (stickyRoot (m' * 2 ^ 80)) (h - 41)))).1 : ℝ) *
      2 ^ ulpExp (.fin false (stickyRoot (m' * 2 ^ 80)) (h - 41)) < 2 ^ 128 := by
    have few'' := (rounded_bits (n := false) (e := h - 41) some).2.1
    calc _ ≤ (2 : ℝ) ^ 24 * 2 ^ (42 : ℤ) := by gcongr <;> [exact_mod_cast few''; norm_num; omega]
      _ < 2 ^ 128 := by norm_num
  have real := encRn_real (n := false) some top
  obtain ⟨lt, number, -⟩ := encRn_near (n := false) top
  obtain ⟨tiny, normal, flags⟩ := encRn_flags (n := false) some below top
  rw [normal (by omega), Bool.and_false, if_neg Bool.false_ne_true] at flags
  rw [signFactor_false, one_mul] at real
  exact ⟨_, _, _, ⟨lt, number, real⟩, flags.trans BitVec.or_zero, by omega, roundAt_stickyRoot bits (by omega) rfl⟩

theorem fsqrt_nearest {a : Word} {m : Nat} {e : Int} (value : decodeF f32 a.toNat = .fin false m e) (pos : m ≠ 0) :
    (fsqrtF a).1 < 2 ^ 31 ∧ (decodeF f32 (fsqrtF a).1).isNan = false ∧
    (∀ z, (decodeF f32 z).isNan = false → |(decodeF f32 (fsqrtF a).1).real - √(FVal.fin false m e).real| ≤ |(decodeF f32 z).real - √(FVal.fin false m e).real|) ∧
    ((decodeF f32 (fsqrtF a).1).real ^ 2 = (FVal.fin false m e).real → (fsqrtF a).2 = 0) ∧
    ((decodeF f32 (fsqrtF a).1).real ^ 2 ≠ (FVal.fin false m e).real → (fsqrtF a).2 = flNX) := by
  obtain ⟨q, t, nx, ⟨lt, number, real⟩, flags, high, near, same, reach⟩ := fsqrt_rounded value pos
  have positive : 0 < (decodeF f32 (fsqrtF a).1).real := by
    have : (0 : ℝ) < 2 ^ t := by positivity
    have : (2 : ℝ) ^ (t + 23) = 2 ^ 23 * 2 ^ t := by rw [zpow_add₀ two_ne_zero, mul_comm]; norm_num
    have := (abs_le.mp near).1
    linarith
  have square : (decodeF f32 (fsqrtF a).1).real ^ 2 = (FVal.fin false m e).real ↔ nx = false := by
    have nonneg : 0 ≤ (FVal.fin false m e).real := by rw [FVal.real_fin, signFactor_false]; positivity
    rw [same, ← real, eq_comm (b := √_), Real.sqrt_eq_iff_mul_self_eq nonneg positive.le, sq, eq_comm]
  refine ⟨?_, number, fun z hz => ?_, fun h => ?_, fun h => ?_⟩
  · have sign : (decodeF f32 (fsqrtF a).1).isNeg = false := by
      by_contra neg
      have := (real_sign _).1 (by simpa using neg)
      linarith
    rw [isNeg_f32 number, beq_eq_false_iff_ne] at sign
    omega
  · rw [real]
    exact nearest_f32 high reach near hz
  · rw [flags, square.mp h, if_neg Bool.false_ne_true]
  · rw [flags, if_pos (Bool.not_eq_false _ ▸ mt square.mpr h)]

end Sys2Proof.Machine
end

section
/-! The series that the special functions are computed by (R154; log entry 7): how far sums of terms cut to integers lie from the sums of the terms, and these from the functions. -/

namespace Sys2Proof.Machine

/-- A sum of n terms from the one numbered k on, each term the one before times c, with weights w. -/
noncomputable def termSum (w c : ℕ → ℝ) : ℕ → ℕ → ℝ → ℝ
  | 0, _, _ => 0
  | n + 1, k, t => w k * t + termSum w c n (k + 1) (c k * t)

theorem termSum_mul (w c : ℕ → ℝ) (n k : ℕ) (a t : ℝ) : termSum w c n k (a * t) = a * termSum w c n k t := by
  induction n generalizing k t with
  | zero => simp [termSum]
  | succ n ih => rw [termSum, termSum, mul_left_comm (c k), ih]; ring

/-- The sum by its coefficients. -/
theorem termSum_eq {w c : ℕ → ℝ} {a : ℕ → ℕ → ℝ} (first : ∀ k, a k 0 = w k) (next : ∀ k j, a k (j + 1) = c k * a (k + 1) j) (n k : ℕ) (t : ℝ) :
    termSum w c n k t = ∑ j ∈ Finset.range n, a k j * t := by
  induction n generalizing k t with
  | zero => rfl
  | succ n ih =>
    rw [termSum, ih, Finset.sum_range_succ', first, add_comm]
    congr 1
    exact Finset.sum_congr rfl fun j _ => by rw [next]; ring

theorem abs_termSum_le {w c : ℕ → ℝ} {a : ℕ → ℕ → ℝ} (first : ∀ k, a k 0 = w k) (next : ∀ k j, a k (j + 1) = c k * a (k + 1) j) {C : ℝ} (bound : ∀ k j, |a k j| ≤ C)
    (n k : ℕ) : |termSum w c n k 1| ≤ n * C := by
  rw [termSum_eq first next]
  calc |∑ j ∈ Finset.range n, a k j * 1| ≤ ∑ j ∈ Finset.range n, |a k j * 1| := Finset.abs_sum_le_sum_abs _ _
    _ ≤ ∑ _j ∈ Finset.range n, C := Finset.sum_le_sum fun j _ => by rw [mul_one]; exact bound k j
    _ = n * C := by rw [Finset.sum_const, Finset.card_range, nsmul_eq_mul]

/-- A sum of terms cut to integers, each within δ of the ratio times the one before, lies near the sum of the terms. -/
theorem cut_sum {F : ℕ → ℕ → ℕ → ℝ} {next : ℕ → ℕ → ℕ} {w c : ℕ → ℝ} {s C δ : ℝ} (sign : |s| = 1) (zero : ∀ k t, F 0 k t = 0)
    (step : ∀ n k t, |F (n + 1) k t - (w k * t + s * F n (k + 1) (next k t))| ≤ 1) (near : ∀ k t, |s * next k t - c k * t| ≤ δ)
    (bound : ∀ n k, |termSum w c n k 1| ≤ n * C) (n k t : ℕ) : |F n k t - termSum w c n k t| ≤ n * (1 + δ * (n * C)) := by
  have hδ : 0 ≤ δ := (abs_nonneg _).trans (near 0 0)
  have hC : 0 ≤ C := by have := (abs_nonneg _).trans (bound 1 0); simpa using this
  induction n generalizing k t with
  | zero => simp [zero, termSum]
  | succ n ih =>
    have rest := ih (k + 1) (next k t)
    have moved : termSum w c n (k + 1) (c k * t) - s * termSum w c n (k + 1) (next k t) = (c k * t - s * next k t) * termSum w c n (k + 1) 1 := by
      rw [← termSum_mul, ← mul_one (c k * t), termSum_mul, ← mul_one (s * _), termSum_mul w c n (k + 1) (s * _)]; ring
    have h1 := step n k t
    have h2 : |s * (F n (k + 1) (next k t) - termSum w c n (k + 1) (next k t))| ≤ n * (1 + δ * (n * C)) := by rw [abs_mul, sign, one_mul]; exact rest
    have h3 : |(c k * t - s * next k t) * termSum w c n (k + 1) 1| ≤ δ * (n * C) := by
      rw [abs_mul, abs_sub_comm]; exact mul_le_mul (near k t) (bound n (k + 1)) (abs_nonneg _) hδ
    rw [termSum]
    have split : F (n + 1) k t - (w k * t + termSum w c n (k + 1) (c k * t)) =
        (F (n + 1) k t - (w k * t + s * F n (k + 1) (next k t))) + s * (F n (k + 1) (next k t) - termSum w c n (k + 1) (next k t)) -
        (termSum w c n (k + 1) (c k * t) - s * termSum w c n (k + 1) (next k t)) := by ring
    rw [split, moved]
    have total := (abs_sub _ _).trans (add_le_add ((abs_add_le _ _).trans (add_le_add h1 h2)) h3)
    refine total.trans ?_
    push_cast
    have : 0 ≤ δ * C := by positivity
    nlinarith [(Nat.cast_nonneg n : (0 : ℝ) ≤ n)]

/-- A quotient of integers lies within 1 of the real quotient. -/
theorem div_near (a b : ℕ) : ((a / b : ℕ) : ℝ) ≤ a / b ∧ (a : ℝ) / b ≤ (a / b : ℕ) + 1 := by
  refine ⟨Nat.cast_div_le, ?_⟩
  rcases Nat.eq_zero_or_pos b with rfl | pos
  · simp
  · rw [div_le_iff₀ (by exact_mod_cast pos)]
    have : a < (a / b + 1) * b := by rw [Nat.add_mul, Nat.one_mul]; exact Nat.lt_div_mul_add pos
    exact_mod_cast this.le

/-- A number of units of 2^-128. -/
noncomputable def unitsOf (y : ℕ) : ℝ := y / 2 ^ 128

theorem unitsOf_nonneg (y : ℕ) : 0 ≤ unitsOf y := by unfold unitsOf; positivity

/-- A product in units of 2^-128, cut to an integer. -/
theorem mul_near (t y : ℕ) : ((t * y / 2 ^ 128 : ℕ) : ℝ) ≤ t * unitsOf y ∧ t * unitsOf y ≤ (t * y / 2 ^ 128 : ℕ) + 1 := by
  have := div_near (t * y) (2 ^ 128)
  rw [Nat.cast_mul, mul_div_assoc, Nat.cast_pow, Nat.cast_ofNat] at this
  exact this

/-- A quotient of a number cut before, by a factor of at least 1. -/
theorem div_near_of {p d : ℕ} {x b : ℝ} (some : 0 < d) (lo : p ≤ x) (hi : x ≤ p + b) : ((p / d : ℕ) : ℝ) ≤ x / d ∧ x / d ≤ (p / d : ℕ) + 1 + b / d := by
  obtain ⟨h1, h2⟩ := div_near p d
  have pos : (0 : ℝ) < d := by exact_mod_cast some
  constructor
  · exact h1.trans (by gcongr)
  · calc x / d ≤ (p + b) / d := by gcongr
      _ = p / d + b / d := add_div ..
      _ ≤ (p / d : ℕ) + 1 + b / d := by gcongr

/-! The exponential series. -/

/-- The coefficient of the term j places after term k of the exponential series. -/
noncomputable def expCoeff (y : ℝ) (k j : ℕ) : ℝ := y ^ j * k.factorial / (k + j).factorial

theorem expCoeff_first (y : ℝ) (k : ℕ) : expCoeff y k 0 = 1 := by
  rw [expCoeff, pow_zero, one_mul, Nat.add_zero]; exact div_self (by positivity)

theorem expCoeff_next (y : ℝ) (k j : ℕ) : expCoeff y k (j + 1) = y / (k + 1) * expCoeff y (k + 1) j := by
  rw [expCoeff, expCoeff, show k + 1 + j = k + (j + 1) by ring, Nat.factorial_succ k]
  push_cast
  field_simp
  ring

theorem abs_expCoeff_le {y : ℝ} (nonneg : 0 ≤ y) (one : y ≤ 1) (k j : ℕ) : |expCoeff y k j| ≤ 1 := by
  have : (k.factorial : ℝ) ≤ (k + j).factorial := by exact_mod_cast Nat.factorial_le (Nat.le_add_right k j)
  rw [expCoeff, abs_of_nonneg (by positivity), div_le_one (by positivity)]
  exact mul_le_of_le_one_left (by positivity) (pow_le_one₀ nonneg one) |>.trans this

theorem expSeries_near {y : ℕ} (small : y ≤ 2 ^ 128) (n t : ℕ) :
    |(expSeries n 0 t y : ℝ) - ∑ j ∈ Finset.range n, unitsOf y ^ j / j.factorial * t| ≤ n * (1 + 2 * (n * 1)) := by
  have one : unitsOf y ≤ 1 := by
    rw [unitsOf, div_le_one (by positivity)]; exact_mod_cast small
  have near : ∀ k t : ℕ, |1 * ((t * y / 2 ^ 128 / (k + 1) : ℕ) : ℝ) - unitsOf y / (k + 1) * t| ≤ 2 := fun k t => by
    obtain ⟨lo, hi⟩ := mul_near t y
    obtain ⟨h1, h2⟩ := div_near_of (Nat.succ_pos k) lo hi
    have : (1 : ℝ) / (k + 1 : ℕ) ≤ 1 := by rw [div_le_one (by positivity)]; exact_mod_cast Nat.succ_pos k
    rw [Nat.succ_eq_add_one] at h1 h2
    push_cast at h1 h2 this ⊢
    rw [one_mul, div_mul_eq_mul_div, mul_comm (unitsOf y), abs_le]
    constructor <;> linarith
  have result := cut_sum (F := fun n k t => (expSeries n k t y : ℝ)) abs_one (fun _ _ => by simp [expSeries]) (fun n k t => by simp [expSeries]) near
    (abs_termSum_le (w := fun _ => 1) (expCoeff_first _) (expCoeff_next _) (abs_expCoeff_le (unitsOf_nonneg y) one)) n 0 t
  rw [termSum_eq (expCoeff_first _) (expCoeff_next _)] at result
  simpa [expCoeff] using result

/-- The exponential of at most 1 by 40 terms. -/
theorem expSeries_exp {y : ℕ} (small : y ≤ 2 ^ 128) : |(expSeries 40 0 (2 ^ 128) y : ℝ) / 2 ^ 128 - Real.exp (unitsOf y)| ≤ 1 / 2 ^ 114 := by
  have one : unitsOf y ≤ 1 := by
    rw [unitsOf, div_le_one (by positivity)]; exact_mod_cast small
  have nonneg := unitsOf_nonneg y
  have tail : unitsOf y ^ 40 * ((40 : ℕ) + 1) / ((40 : ℕ).factorial * (40 : ℕ)) ≤ 1 / 2 ^ 150 := by
    have : unitsOf y ^ 40 ≤ 1 := pow_le_one₀ nonneg one
    generalize unitsOf y ^ 40 = p at this
    norm_num [Nat.factorial]
    linarith
  have lower := Real.sum_le_exp_of_nonneg nonneg 40
  have upper := (Real.exp_bound' nonneg one (n := 40) (by norm_num)).trans (add_le_add_right tail _)
  have near := expSeries_near small 40 (2 ^ 128)
  rw [← Finset.sum_mul, Nat.cast_pow, Nat.cast_ofNat] at near
  generalize ∑ j ∈ Finset.range 40, unitsOf y ^ j / (j.factorial : ℝ) = S at *
  generalize (expSeries 40 0 (2 ^ 128) y : ℝ) = E at *
  obtain ⟨h1, h2⟩ := abs_le.mp near
  rw [abs_le]
  norm_num at h1 h2 upper ⊢
  constructor <;> linarith

/-! The series of the sine and the cosine. -/

/-- The coefficient of the term j places after the one of power i, of the series of the sine or the cosine. -/
noncomputable def trigCoeff (y : ℝ) (i j : ℕ) : ℝ := (-1) ^ j * (y ^ (2 * j) * i.factorial / (i + 2 * j).factorial)

theorem trigCoeff_first (y : ℝ) (i : ℕ) : trigCoeff y i 0 = 1 := by
  rw [trigCoeff, pow_zero, one_mul, Nat.mul_zero, pow_zero, one_mul, Nat.add_zero]; exact div_self (by positivity)

theorem trigCoeff_next (y : ℝ) (i j : ℕ) : trigCoeff y i (j + 1) = -(y ^ 2 / ((i + 1) * (i + 2))) * trigCoeff y (i + 2) j := by
  rw [trigCoeff, trigCoeff, show i + 2 + 2 * j = i + 2 * (j + 1) by ring, show i + 2 = (i + 1) + 1 by ring, Nat.factorial_succ (i + 1), Nat.factorial_succ i]
  push_cast
  field_simp
  ring

theorem abs_trigCoeff_le {y : ℝ} (nonneg : 0 ≤ y) (seven : y ≤ 7) (i j : ℕ) : |trigCoeff y i j| ≤ 3 ^ 7 := by
  have parts : (i.factorial : ℝ) * (2 * j).factorial ≤ (i + 2 * j).factorial := by
    exact_mod_cast Nat.le_of_dvd (Nat.factorial_pos _) (Nat.factorial_mul_factorial_dvd_factorial_add i (2 * j))
  rw [trigCoeff, abs_mul, abs_pow, abs_neg, abs_one, one_pow, one_mul, abs_of_nonneg (by positivity)]
  calc y ^ (2 * j) * i.factorial / (i + 2 * j).factorial ≤ y ^ (2 * j) * i.factorial / (i.factorial * (2 * j).factorial) := by gcongr
    _ = y ^ (2 * j) / (2 * j).factorial := by field_simp
    _ ≤ Real.exp y := Real.pow_div_factorial_le_exp y nonneg _
    _ ≤ Real.exp 1 ^ 7 := by rw [← Real.exp_nat_mul]; exact Real.exp_le_exp.mpr (by push_cast; linarith)
    _ ≤ 3 ^ 7 := by gcongr; exact Real.exp_one_lt_three.le

theorem trigSeries_near {y : ℕ} (seven : unitsOf y ≤ 7) (i n t : ℕ) :
    |(trigSeries n i t y : ℝ) - ∑ j ∈ Finset.range n, trigCoeff (unitsOf y) i j * t| ≤ n * (1 + 5 * (n * 3 ^ 7)) := by
  have nonneg := unitsOf_nonneg y
  have near : ∀ k t : ℕ, |(-1) * ((t * y / 2 ^ 128 * y / 2 ^ 128 / ((i + 2 * k + 1) * (i + 2 * k + 2)) : ℕ) : ℝ) -
      -(unitsOf y ^ 2 / (((i + 2 * k : ℕ) + 1) * ((i + 2 * k : ℕ) + 2))) * t| ≤ 5 := fun k t => by
    obtain ⟨lo, hi⟩ := mul_near t y
    obtain ⟨lo', hi'⟩ := mul_near (t * y / 2 ^ 128) y
    have below : ((t * y / 2 ^ 128 * y / 2 ^ 128 : ℕ) : ℝ) ≤ t * unitsOf y * unitsOf y := lo'.trans (by gcongr)
    have above : t * unitsOf y * unitsOf y ≤ (t * y / 2 ^ 128 * y / 2 ^ 128 : ℕ) + 8 := by nlinarith
    have two : 2 ≤ (i + 2 * k + 1) * (i + 2 * k + 2) := by nlinarith
    obtain ⟨h1, h2⟩ := div_near_of (two_pos.trans_le two) below above
    have : (8 : ℝ) / ((i + 2 * k + 1) * (i + 2 * k + 2) : ℕ) ≤ 4 := by
      rw [div_le_iff₀ (by positivity)]
      have : (2 : ℝ) ≤ ((i + 2 * k + 1) * (i + 2 * k + 2) : ℕ) := by exact_mod_cast two
      linarith
    have same : -(unitsOf y ^ 2 / (((i + 2 * k : ℕ) + 1) * ((i + 2 * k : ℕ) + 2))) * t = -(t * unitsOf y * unitsOf y / ((i + 2 * k + 1) * (i + 2 * k + 2) : ℕ)) := by
      push_cast; ring
    rw [same, abs_le]
    constructor <;> linarith
  have next : ∀ k j, trigCoeff (unitsOf y) (i + 2 * k) (j + 1) =
      -(unitsOf y ^ 2 / (((i + 2 * k : ℕ) + 1) * ((i + 2 * k : ℕ) + 2))) * trigCoeff (unitsOf y) (i + 2 * (k + 1)) j := fun k j => trigCoeff_next ..
  have result := cut_sum (F := fun n k t => (trigSeries n (i + 2 * k) t y : ℝ)) (s := -1) (by simp) (fun _ _ => by simp [trigSeries])
    (fun n k t => by rw [trigSeries, show i + 2 * (k + 1) = i + 2 * k + 2 by ring]; push_cast; ring_nf; norm_num) near
    (abs_termSum_le (w := fun _ => 1) (fun k => trigCoeff_first _ (i + 2 * k)) next fun k j => abs_trigCoeff_le nonneg seven (i + 2 * k) j) n 0 t
  rw [termSum_eq (fun k => trigCoeff_first _ (i + 2 * k)) next] at result
  simpa using result

/-- The even and the odd terms of the exponential of an imaginary number. -/
theorem imaginary_terms (y : ℝ) (n : ℕ) : ∑ m ∈ Finset.range (2 * n), ((y : ℂ) * Complex.I) ^ m / m.factorial =
    ((∑ j ∈ Finset.range n, (-1) ^ j * (y ^ (2 * j) / (2 * j).factorial) : ℝ) : ℂ) +
    ((∑ j ∈ Finset.range n, (-1) ^ j * (y ^ (2 * j + 1) / (2 * j + 1).factorial) : ℝ) : ℂ) * Complex.I := by
  induction n with
  | zero => simp
  | succ n ih =>
    rw [show 2 * (n + 1) = 2 * n + 1 + 1 by ring, Finset.sum_range_succ, Finset.sum_range_succ, ih, Finset.sum_range_succ, Finset.sum_range_succ]
    have even : ((y : ℂ) * Complex.I) ^ (2 * n) = (-1) ^ n * y ^ (2 * n) := by rw [mul_pow, pow_mul Complex.I, Complex.I_sq]; ring
    rw [pow_succ, even]
    push_cast
    ring

/-- The sine and the cosine by n terms. -/
theorem trig_taylor {y : ℝ} (nonneg : 0 ≤ y) {n : ℕ} (within : y ≤ n) :
    |Real.cos y - ∑ j ∈ Finset.range n, (-1) ^ j * (y ^ (2 * j) / (2 * j).factorial)| ≤ y ^ (2 * n) / (2 * n).factorial * 2 ∧
    |Real.sin y - ∑ j ∈ Finset.range n, (-1) ^ j * (y ^ (2 * j + 1) / (2 * j + 1).factorial)| ≤ y ^ (2 * n) / (2 * n).factorial * 2 := by
  have size : ‖(y : ℂ) * Complex.I‖ = y := by rw [norm_mul, Complex.norm_I, mul_one, Complex.norm_real, Real.norm_of_nonneg nonneg]
  have bound := Complex.exp_bound' (x := (y : ℂ) * Complex.I) (n := 2 * n) (by
    rw [size, div_le_div_iff₀ (by positivity) two_pos]; push_cast; linarith)
  rw [size, imaginary_terms, Complex.exp_mul_I, ← Complex.ofReal_cos, ← Complex.ofReal_sin] at bound
  generalize ∑ j ∈ Finset.range n, (-1 : ℝ) ^ j * (y ^ (2 * j) / (2 * j).factorial) = C at *
  generalize ∑ j ∈ Finset.range n, (-1 : ℝ) ^ j * (y ^ (2 * j + 1) / (2 * j + 1).factorial) = S at *
  generalize Real.cos y = c at *
  generalize Real.sin y = s at *
  constructor
  · refine le_trans ?_ ((Complex.abs_re_le_norm _).trans bound)
    simp
  · refine le_trans ?_ ((Complex.abs_im_le_norm _).trans bound)
    simp

theorem seven_tail {y : ℝ} (nonneg : 0 ≤ y) (seven : y ≤ 7) : y ^ (2 * 40) / (2 * 40).factorial * 2 ≤ 1 / 2 ^ 150 := by
  have : y ^ (2 * 40) ≤ 7 ^ (2 * 40) := pow_le_pow_left₀ nonneg seven _
  generalize y ^ (2 * 40) = p at this
  norm_num [Nat.factorial] at *
  linarith

theorem trigSeries_cos {y : ℕ} (seven : unitsOf y ≤ 7) : |(trigSeries 40 0 (2 ^ 128) y : ℝ) / 2 ^ 128 - Real.cos (unitsOf y)| ≤ 1 / 2 ^ 100 := by
  have nonneg := unitsOf_nonneg y
  have near := trigSeries_near seven 0 40 (2 ^ 128)
  have taylor := (trig_taylor nonneg (n := 40) (by push_cast; linarith)).1.trans (seven_tail nonneg seven)
  have terms : ∑ j ∈ Finset.range 40, trigCoeff (unitsOf y) 0 j * ((2 ^ 128 : ℕ) : ℝ) =
      (∑ j ∈ Finset.range 40, (-1) ^ j * (unitsOf y ^ (2 * j) / (2 * j).factorial)) * 2 ^ 128 := by
    rw [Finset.sum_mul, Nat.cast_pow, Nat.cast_ofNat]
    exact Finset.sum_congr rfl fun j _ => by rw [trigCoeff, Nat.zero_add, Nat.factorial_zero, Nat.cast_one, mul_one]
  rw [terms] at near
  generalize ∑ j ∈ Finset.range 40, (-1 : ℝ) ^ j * (unitsOf y ^ (2 * j) / (2 * j).factorial) = S at *
  generalize (trigSeries 40 0 (2 ^ 128) y : ℝ) = E at *
  rw [abs_le] at near taylor ⊢
  norm_num at near taylor ⊢
  constructor <;> linarith

theorem trigSeries_sin {y : ℕ} (seven : unitsOf y ≤ 7) : |(trigSeries 40 1 y y : ℝ) / 2 ^ 128 - Real.sin (unitsOf y)| ≤ 1 / 2 ^ 100 := by
  have nonneg := unitsOf_nonneg y
  have near := trigSeries_near seven 1 40 y
  have taylor := (trig_taylor nonneg (n := 40) (by push_cast; linarith)).2.trans (seven_tail nonneg seven)
  have terms : ∑ j ∈ Finset.range 40, trigCoeff (unitsOf y) 1 j * (y : ℝ) =
      (∑ j ∈ Finset.range 40, (-1) ^ j * (unitsOf y ^ (2 * j + 1) / (2 * j + 1).factorial)) * 2 ^ 128 := by
    rw [Finset.sum_mul]
    have whole : (y : ℝ) = unitsOf y * 2 ^ 128 := by rw [unitsOf, div_mul_cancel₀]; positivity
    refine Finset.sum_congr rfl fun j _ => ?_
    rw [trigCoeff, Nat.factorial_one, Nat.cast_one, mul_one, pow_succ _ (2 * j), Nat.add_comm 1]
    conv_lhs => rw [whole]
    ring
  rw [terms] at near
  generalize ∑ j ∈ Finset.range 40, (-1 : ℝ) ^ j * (unitsOf y ^ (2 * j + 1) / (2 * j + 1).factorial) = S at *
  generalize (trigSeries 40 1 y y : ℝ) = E at *
  rw [abs_le] at near taylor ⊢
  norm_num at near taylor ⊢
  constructor <;> linarith

/-! The series of the inverse hyperbolic tangent. -/

/-- The coefficient of the term j places after term k. -/
noncomputable def atanhCoeff (t : ℝ) (k j : ℕ) : ℝ := t ^ (2 * j) / (2 * (k + j) + 1)

theorem atanhSeries_near {t : ℕ} (small : t ≤ 2 ^ 128) (n p : ℕ) :
    |(atanhSeries n 0 p t : ℝ) - ∑ j ∈ Finset.range n, atanhCoeff (unitsOf t) 0 j * p| ≤ n * (1 + 2 * (n * 1)) := by
  have nonneg := unitsOf_nonneg t
  have one : unitsOf t ≤ 1 := by
    rw [unitsOf, div_le_one (by positivity)]; exact_mod_cast small
  have near : ∀ k p : ℕ, |1 * ((p * t / 2 ^ 128 * t / 2 ^ 128 : ℕ) : ℝ) - unitsOf t ^ 2 * p| ≤ 2 := fun k p => by
    obtain ⟨lo, hi⟩ := mul_near p t
    obtain ⟨lo', hi'⟩ := mul_near (p * t / 2 ^ 128) t
    rw [abs_le]
    constructor <;> nlinarith
  have next : ∀ k j, atanhCoeff (unitsOf t) k (j + 1) = unitsOf t ^ 2 * atanhCoeff (unitsOf t) (k + 1) j := fun k j => by
    rw [atanhCoeff, atanhCoeff]; push_cast; ring
  have bound : ∀ k j, |atanhCoeff (unitsOf t) k j| ≤ 1 := fun k j => by
    rw [atanhCoeff, abs_of_nonneg (by positivity), div_le_one (by positivity)]
    have : unitsOf t ^ (2 * j) ≤ 1 := pow_le_one₀ nonneg one
    have : (0 : ℝ) ≤ 2 * (k + j) := by positivity
    linarith
  have first : ∀ k : ℕ, atanhCoeff (unitsOf t) k 0 = 1 / (2 * k + 1) := fun k => by rw [atanhCoeff, Nat.mul_zero, pow_zero, Nat.cast_zero, add_zero]
  have step : ∀ n k p : ℕ, |(atanhSeries (n + 1) k p t : ℝ) - (1 / (2 * k + 1) * p + 1 * (atanhSeries n (k + 1) (p * t / 2 ^ 128 * t / 2 ^ 128) t : ℝ))| ≤ 1 := fun n k p => by
    obtain ⟨lo, hi⟩ := div_near p (2 * k + 1)
    rw [atanhSeries]
    push_cast at lo hi ⊢
    rw [abs_le]
    constructor <;> linarith [one_div_mul_eq_div (2 * (k : ℝ) + 1) (p : ℝ)]
  have result := cut_sum (F := fun n k p => (atanhSeries n k p t : ℝ)) abs_one (fun _ _ => by simp [atanhSeries]) step near (abs_termSum_le first next bound) n 0 p
  rwa [termSum_eq first next] at result

/-- The inverse hyperbolic tangent of at most 1/3 by 45 terms. -/
theorem atanhSeries_log {t : ℕ} (third : unitsOf t ≤ 1 / 3) :
    |(atanhSeries 45 0 t t : ℝ) / 2 ^ 128 - 1 / 2 * Real.log ((1 + unitsOf t) / (1 - unitsOf t))| ≤ 1 / 2 ^ 110 := by
  have nonneg := unitsOf_nonneg t
  have small : t ≤ 2 ^ 128 := by
    have : unitsOf t ≤ 1 := by linarith
    rw [unitsOf, div_le_one (by positivity)] at this
    exact_mod_cast this
  have near := atanhSeries_near small 45 t
  have series := Real.sum_range_sub_log_div_le (x := unitsOf t) (by rw [abs_of_nonneg nonneg]; linarith) 45
  have tail : |unitsOf t| ^ (2 * 45 + 1) / (1 - unitsOf t ^ 2) ≤ 1 / 2 ^ 140 := by
    rw [abs_of_nonneg nonneg, div_le_iff₀ (by nlinarith)]
    have top : unitsOf t ^ (2 * 45 + 1) ≤ (1 / 3) ^ (2 * 45 + 1) := pow_le_pow_left₀ nonneg third _
    have bottom : 8 / 9 ≤ 1 - unitsOf t ^ 2 := by nlinarith
    generalize unitsOf t ^ (2 * 45 + 1) = p at top
    norm_num at top ⊢
    linarith
  have terms : ∑ j ∈ Finset.range 45, atanhCoeff (unitsOf t) 0 j * (t : ℝ) = (∑ j ∈ Finset.range 45, unitsOf t ^ (2 * j + 1) / (2 * j + 1)) * 2 ^ 128 := by
    rw [Finset.sum_mul]
    have whole : (t : ℝ) = unitsOf t * 2 ^ 128 := by rw [unitsOf, div_mul_cancel₀]; positivity
    refine Finset.sum_congr rfl fun j _ => ?_
    rw [atanhCoeff, Nat.cast_zero, zero_add, pow_succ _ (2 * j)]
    conv_lhs => rw [whole]
    ring
  rw [terms] at near
  replace series := series.trans tail
  generalize ∑ j ∈ Finset.range 45, unitsOf t ^ (2 * j + 1) / (2 * (j : ℝ) + 1) = S at *
  generalize (atanhSeries 45 0 t t : ℝ) = E at *
  generalize Real.log ((1 + unitsOf t) / (1 - unitsOf t)) = L at *
  rw [abs_le] at near series ⊢
  norm_num at near series ⊢
  constructor <;> linarith

end Sys2Proof.Machine
end

section
/-! The sign bit of f32 (R89): what flipping it makes of an encoding and of its value. -/

namespace Sys2Proof.Machine

/-- Flipping the sign bit adds it modulo 2^32. -/
theorem flip_eq {r : ℕ} (lt : r < 2 ^ 32) : (r + 2 ^ 31) % 2 ^ 32 = r ^^^ 2 ^ 31 := by
  have plus : ∀ s < 2 ^ 31, 2 ^ 31 + s = s ^^^ 2 ^ 31 := fun s hs => by
    refine Nat.eq_of_testBit_eq fun i => ?_
    rw [Nat.testBit_xor, Nat.testBit_two_pow]
    rcases lt_trichotomy i 31 with less | rfl | more
    · rw [Nat.testBit_two_pow_add_gt less, decide_eq_false (by omega), Bool.xor_false]
    · rw [Nat.testBit_two_pow_add_eq, decide_eq_true rfl, Bool.xor_true]
    · have : 2 ^ 32 ≤ 2 ^ i := Nat.pow_le_pow_right two_pos more
      rw [Nat.testBit_lt_two_pow (by omega), Nat.testBit_lt_two_pow (by omega), decide_eq_false (by omega), Bool.xor_false]
  by_cases less : r < 2 ^ 31
  · rw [Nat.mod_eq_of_lt (by omega), Nat.add_comm, plus r less]
  · have rest := plus (r - 2 ^ 31) (by omega)
    rw [show 2 ^ 31 + (r - 2 ^ 31) = r by omega] at rest
    rw [rest, Nat.xor_assoc, Nat.xor_self, Nat.xor_zero, ← rest]
    omega

theorem flip_lt (r : ℕ) : (r + 2 ^ 31) % 2 ^ 32 < 2 ^ 32 := Nat.mod_lt _ (by norm_num)

theorem toNat_flip (a : Word) : (a ^^^ 0x80000000).toNat = (a.toNat + 2 ^ 31) % 2 ^ 32 := by
  rw [flip_eq a.isLt, BitVec.toNat_xor, show (0x80000000 : Word).toNat = 2 ^ 31 by decide]

/-- The magnitude bits of a word with its sign flipped. -/
theorem magnitude_flip (a : Word) : (a ^^^ 0x80000000) &&& 0x7FFFFFFF = a &&& 0x7FFFFFFF := by
  ext i lt
  have apart : ((0x80000000 : Word)[i] && (0x7FFFFFFF : Word)[i]) = false := by revert i; decide
  simp only [BitVec.getElem_and, BitVec.getElem_xor, Bool.and_xor_distrib_right, apart, Bool.xor_false]

/-- Flipping the sign bit negates the value. -/
theorem decode_flip (r : ℕ) : decodeF f32 ((r + 2 ^ 31) % 2 ^ 32) = (decodeF f32 r).negate := by
  have exponent : (r + 2 ^ 31) % 2 ^ 32 / 2 ^ 23 % 2 ^ 8 = r / 2 ^ 23 % 2 ^ 8 := by omega
  have fraction : (r + 2 ^ 31) % 2 ^ 32 % 2 ^ 23 = r % 2 ^ 23 := by omega
  have sign : ((r + 2 ^ 31) % 2 ^ 32 / 2 ^ 31 % 2 == 1) = !(r / 2 ^ 31 % 2 == 1) := by
    rcases Nat.mod_two_eq_zero_or_one (r / 2 ^ 31) with h | h
    · rw [h, show (r + 2 ^ 31) % 2 ^ 32 / 2 ^ 31 % 2 = 1 by omega]; rfl
    · rw [h, show (r + 2 ^ 31) % 2 ^ 32 / 2 ^ 31 % 2 = 0 by omega]; rfl
  rw [decode_f32, decode_f32 r, exponent, fraction, sign]
  repeat' split
  all_goals rfl

/-- The result for a magnitude with the sign of the operand. -/
def signedAs (n : Bool) (r : ℕ) : ℕ := if n then (r + 2 ^ 31) % 2 ^ 32 else r

theorem signedAs_false (r : ℕ) : signedAs false r = r := if_neg Bool.false_ne_true
theorem signedAs_true (r : ℕ) : signedAs true r = (r + 2 ^ 31) % 2 ^ 32 := if_pos rfl

theorem signedAs_not {r : ℕ} (lt : r < 2 ^ 32) (n : Bool) : signedAs (!n) r = signedAs n r ^^^ 2 ^ 31 := by
  cases n with
  | false => rw [Bool.not_false, signedAs_true, signedAs_false, flip_eq lt]
  | true => rw [Bool.not_true, signedAs_true, signedAs_false, ← flip_eq (flip_lt r)]; omega

theorem decode_signedAs (n : Bool) {r : ℕ} (lt : r < 2 ^ 32) (number : (decodeF f32 r).isNan = false) :
    signedAs n r < 2 ^ 32 ∧ (decodeF f32 (signedAs n r)).isNan = false ∧ (decodeF f32 (signedAs n r)).real = signFactor n * (decodeF f32 r).real := by
  cases n with
  | false => rw [signedAs_false, signFactor_false, one_mul]; exact ⟨lt, number, rfl⟩
  | true =>
    rw [signedAs_true, decode_flip, FVal.real_negate, signFactor_true, neg_one_mul]
    refine ⟨flip_lt r, ?_, rfl⟩
    cases value : decodeF f32 r with
    | nan => rw [value] at number; exact number
    | inf | fin => rfl

end Sys2Proof.Machine
end

section
/-! The sine and the cosine (R154): the model's 2π, the reduction by it, and how near the results are. -/

namespace Sys2Proof.Machine

/-- π to 168 bits: its sine, by 32 terms, is next to 0. -/
theorem pi_near : |(1175409358604344043874510131134287648884263686251049 / 2 ^ 168 : ℝ) - Real.pi| ≤ 1 / 2 ^ 162 := by
  have close : |(1175409358604344043874510131134287648884263686251049 / 2 ^ 168 : ℝ) - Real.pi| ≤ 1 / 100000 := by
    have := Real.pi_gt_d6
    have := Real.pi_lt_d6
    rw [abs_le]; norm_num at *; constructor <;> linarith
  have series : |∑ j ∈ Finset.range 32, (-1 : ℝ) ^ j * ((1175409358604344043874510131134287648884263686251049 / 2 ^ 168 : ℝ) ^ (2 * j + 1) / (2 * j + 1).factorial)| ≤ 1 / 2 ^ 164 := by
    norm_num [Finset.sum_range_succ, Nat.factorial]
  have taylor := (trig_taylor (y := 1175409358604344043874510131134287648884263686251049 / 2 ^ 168) (by norm_num) (n := 32) (by norm_num)).2
  have tail : (1175409358604344043874510131134287648884263686251049 / 2 ^ 168 : ℝ) ^ (2 * 32) / (2 * 32).factorial * 2 ≤ 1 / 2 ^ 180 := by
    norm_num [Nat.factorial]
  replace taylor := taylor.trans tail
  generalize ∑ j ∈ Finset.range 32, (-1 : ℝ) ^ j * ((1175409358604344043874510131134287648884263686251049 / 2 ^ 168 : ℝ) ^ (2 * j + 1) / (2 * j + 1).factorial) = S at *
  generalize (1175409358604344043874510131134287648884263686251049 / 2 ^ 168 : ℝ) = p at *
  have small : |Real.sin p| ≤ 1 / 2 ^ 163 := by
    rw [abs_le] at *; norm_num at *; constructor <;> linarith
  have jordan := Real.mul_abs_le_abs_sin (x := Real.pi - p) (by
    rw [abs_sub_comm]; have := Real.pi_gt_three; linarith)
  rw [Real.sin_pi_sub, abs_sub_comm] at jordan
  have wide : 1 / 2 ≤ 2 / Real.pi := by
    rw [div_le_div_iff₀ two_pos Real.pi_pos]; linarith [Real.pi_le_four]
  have : 1 / 2 * |p - Real.pi| ≤ 1 / 2 ^ 163 := (mul_le_mul_of_nonneg_right wide (abs_nonneg _)).trans (jordan.trans small)
  norm_num at this ⊢
  linarith

/-- The model's 2π. -/
theorem twoPiFix_near : |(twoPiFix : ℝ) / 2 ^ 320 - 2 * Real.pi| ≤ 1 / 2 ^ 160 := by
  have lo : 1175409358604344043874510131134287648884263686251049 * 2 ^ 153 ≤ twoPiFix := by rw [twoPiFix]; norm_num
  have hi : twoPiFix ≤ 1175409358604344043874510131134287648884263686251050 * 2 ^ 153 := by rw [twoPiFix]; norm_num
  have lo' : (1175409358604344043874510131134287648884263686251049 * 2 ^ 153 : ℝ) ≤ twoPiFix := by exact_mod_cast lo
  have hi' : (twoPiFix : ℝ) ≤ 1175409358604344043874510131134287648884263686251050 * 2 ^ 153 := by exact_mod_cast hi
  have near := pi_near
  have split : (twoPiFix : ℝ) / 2 ^ 320 = twoPiFix / 2 ^ 153 / 2 ^ 167 := by rw [div_div, ← pow_add]
  rw [split]
  rw [← le_div_iff₀ (by positivity)] at lo'
  rw [← div_le_iff₀ (by positivity)] at hi'
  generalize (twoPiFix : ℝ) / 2 ^ 153 = T at *
  rw [abs_le] at *
  norm_num at *
  constructor <;> linarith

/-- A magnitude of f32 reduced by 2π: what is left, up to a multiple of 2π, and below 7. -/
theorem reduce2Pi_near {m : ℕ} {e : ℤ} (low : -149 ≤ e) (below : (m : ℝ) * 2 ^ e < 2 ^ 128) :
    unitsOf (reduce2Pi m e) ≤ 7 ∧ ∃ q : ℕ, |unitsOf (reduce2Pi m e) - (m * 2 ^ e - q * (2 * Real.pi))| ≤ 1 / 2 ^ 30 := by
  have units := shift_units m (e := e) (q := -320) (by omega)
  rw [show e - -320 = e + 320 by ring] at units
  unfold reduce2Pi
  generalize m * 2 ^ (e + 320).toNat = N at *
  rw [zpow_neg, ← div_eq_mul_inv, show (320 : ℤ) = (320 : ℕ) from rfl, zpow_natCast] at units
  obtain ⟨lo, hi⟩ := div_near (N % twoPiFix) (2 ^ 192)
  have less : N % twoPiFix < twoPiFix := Nat.mod_lt _ (by rw [twoPiFix]; norm_num)
  have less' : ((N % twoPiFix : ℕ) : ℝ) / 2 ^ 320 ≤ twoPiFix / 2 ^ 320 := by gcongr
  have whole : ((N / twoPiFix : ℕ) : ℝ) * (twoPiFix / 2 ^ 320) + (N % twoPiFix : ℕ) / 2 ^ 320 = m * 2 ^ e := by
    rw [← units, mul_div_assoc', ← add_div]
    congr 1
    exact_mod_cast (by rw [Nat.mul_comm]; exact Nat.div_add_mod N twoPiFix)
  have cut : ((N % twoPiFix : ℕ) : ℝ) / 2 ^ 320 = (N % twoPiFix : ℕ) / 2 ^ 192 / 2 ^ 128 := by rw [div_div, ← pow_add]
  have near := twoPiFix_near
  have pi := Real.pi_gt_three
  have pi' := Real.pi_lt_d2
  have nonneg : (0 : ℝ) ≤ (N % twoPiFix : ℕ) / 2 ^ 192 := div_nonneg (Nat.cast_nonneg _) (pow_nonneg zero_le_two _)
  have nonneg' : (0 : ℝ) ≤ (N / twoPiFix : ℕ) := Nat.cast_nonneg _
  rw [Nat.cast_pow, Nat.cast_ofNat] at lo hi
  rw [unitsOf]
  rw [cut] at whole less'
  generalize ((N % twoPiFix : ℕ) : ℝ) / 2 ^ 192 = ρ at *
  generalize ((N % twoPiFix / 2 ^ 192 : ℕ) : ℝ) = y at *
  generalize (twoPiFix : ℝ) / 2 ^ 320 = T at *
  obtain ⟨near1, near2⟩ := abs_le.mp near
  constructor
  · norm_num at near1 near2 pi' lo less' ⊢
    linarith
  · refine ⟨N / twoPiFix, ?_⟩
    generalize ((N / twoPiFix : ℕ) : ℝ) = q at *
    have few : q ≤ 2 ^ 126 := by
      have : 0 ≤ ρ / 2 ^ 128 := by positivity
      have five : 5 ≤ T := by norm_num at near1; linarith
      have : q * 5 ≤ q * T := by gcongr
      norm_num at below ⊢
      linarith
    have turns : |q * (T - 2 * Real.pi)| ≤ 2 ^ 126 * (1 / 2 ^ 160) := by
      rw [abs_mul, abs_of_nonneg nonneg']; gcongr
    rw [← whole, show y / 2 ^ 128 - (q * T + ρ / 2 ^ 128 - q * (2 * Real.pi)) = (y - ρ) / 2 ^ 128 - q * (T - 2 * Real.pi) by ring]
    generalize q * (T - 2 * Real.pi) = d at *
    rw [abs_le] at turns ⊢
    norm_num at turns ⊢
    constructor <;> linarith

/-! Values in units of 2^-128. -/

/-- A value of the model in units of 2^-128, as a real number. -/
theorem fixF_real (x : ℤ) : (fixF x).real = x / 2 ^ 128 := by
  have size : (x.natAbs : ℝ) = |(x : ℝ)| := by rw [Nat.cast_natAbs, Int.cast_abs]
  rw [fixF, FVal.real_fin, size, zpow_neg, show (128 : ℤ) = (128 : ℕ) from rfl, zpow_natCast, ← div_eq_mul_inv]
  congr 1
  by_cases neg : x < 0
  · have : (x : ℝ) < 0 := by exact_mod_cast neg
    simp [neg, abs_of_neg this]
  · have : (0 : ℝ) ≤ x := by exact_mod_cast not_lt.mp neg
    simp [neg, abs_of_nonneg this]

/-- The exponent of the spacing of a value below a power of two. -/
theorem ulpExp_le {n : Bool} {m : ℕ} {e b : ℤ} (low : -149 ≤ b) (below : (m : ℝ) * 2 ^ e < 2 ^ (b + 24)) : ulpExp (.fin n m e) ≤ b := by
  by_cases zero : m = 0
  · subst zero; exact low
  · have := (zpow_lt_zpow_iff_right₀ (one_lt_two (α := ℝ))).mp ((log2_bounds zero e).1.trans_lt below)
    rw [ulpExp_fin zero]
    omega

theorem freeWithin_lt (fn : ℕ) (a : Word) (x : FVal) (k : ℕ) (b : ℤ) (strict : Bool) : freeWithin fn a x k b strict < 2 ^ 32 := by
  unfold freeWithin
  dsimp only
  split
  · exact Nat.mod_lt _ (by norm_num)
  · exact encRn_lt x

/-- A finite value. -/
def FVal.Finite : FVal → Prop
  | .fin _ _ _ => True
  | _ => False

theorem fixF_finite (x : ℤ) : (fixF x).Finite := trivial

/-- What a special function may give within a bound of 2^b around a value near the exact one: an encoding that lies almost as near to that. -/
theorem freeWithin_of_near (fn : ℕ) (a : Word) {x : FVal} (finite : x.Finite) {y d : ℝ} {b : ℤ} (low : -149 ≤ b) (high : b ≤ 104)
    (size : |x.real| < 2 ^ (b + 24)) (near : |x.real - y| ≤ d) :
    freeWithin fn a x 1 b false < 2 ^ 32 ∧ (decodeF f32 (freeWithin fn a x 1 b false)).isNan = false ∧
    |(decodeF f32 (freeWithin fn a x 1 b false)).real - y| ≤ 2 ^ b + d := by
  cases x with
  | nan => cases finite
  | inf => cases finite
  | fin n m e =>
    rw [FVal.abs_real_fin] at size
    have top : (m : ℝ) * 2 ^ e ≤ 2 ^ 128 := size.le.trans (by
      rw [← zpow_natCast]; exact zpow_le_zpow_right₀ one_le_two (by push_cast; omega))
    obtain ⟨lt, number, dist, -⟩ := freeWithin_near fn a (n := n) top (ulpExp_le low size) one_pos false
    refine ⟨lt, number, ?_⟩
    rw [Nat.cast_one, one_mul] at dist
    exact (abs_sub_le _ _ _).trans (add_le_add dist near)

/-! The sine and the cosine. -/

theorem sineVal_near {y : ℕ} (seven : unitsOf y ≤ 7) : (sineVal y).Finite ∧ |(sineVal y).real - Real.sin (unitsOf y)| ≤ 1 / 2 ^ 99 := by
  have near := trigSeries_sin seven
  rw [sineVal]
  by_cases zero : y = 0
  · rw [if_pos zero]
    refine ⟨trivial, ?_⟩
    rw [fixF_real, zero, unitsOf, Nat.cast_zero, zero_div, Real.sin_zero]
    norm_num
  rw [if_neg zero]
  generalize trigSeries 40 1 y y = x at *
  dsimp only
  split
  · next same =>
    refine ⟨trivial, ?_⟩
    have half : (FVal.fin false (2 * y - 1) (-129)).real = x / 2 ^ 128 - 1 / 2 ^ 129 := by
      have whole : ((2 * y - 1 : ℕ) : ℝ) = 2 * y - 1 := by
        have : 1 ≤ 2 * y := by omega
        push_cast [this]; ring
      rw [FVal.real_fin, signFactor_false, one_mul, whole, same, zpow_neg, show (129 : ℤ) = (129 : ℕ) from rfl, zpow_natCast]
      norm_num
      ring
    rw [half, sub_right_comm]
    refine (abs_sub _ _).trans ((add_le_add near le_rfl).trans ?_)
    norm_num
  · refine ⟨trivial, ?_⟩
    rw [fixF_real]
    exact near.trans (by norm_num)

theorem cosineVal_near {y : ℕ} (seven : unitsOf y ≤ 7) :
    |(fixF (min (2 ^ 128 - 1) (trigSeries 40 0 (2 ^ 128) y))).real - Real.cos (unitsOf y)| ≤ 1 / 2 ^ 99 := by
  have near := trigSeries_cos seven
  have one := Real.cos_le_one (unitsOf y)
  generalize trigSeries 40 0 (2 ^ 128) y = x at *
  rw [fixF_real]
  rcases min_cases (2 ^ 128 - 1) x with ⟨least, le⟩ | ⟨least, -⟩
  · have le' : (2 ^ 128 - 1 : ℝ) ≤ x := by exact_mod_cast le
    rw [least]
    rw [abs_le] at near ⊢
    norm_num at le' near ⊢
    constructor <;> linarith
  · rw [least]
    exact near.trans (by norm_num)

/-- The value of a word with its sign bit flipped. -/
theorem value_flip {a : Word} {n : Bool} {m : ℕ} {e : ℤ} (value : decodeF f32 a.toNat = .fin n m e) :
    decodeF f32 (a ^^^ 0x80000000).toNat = .fin (!n) m e := by
  rw [toNat_flip, decode_flip, value, FVal.negate]

section
variable {a : Word} {n : Bool} {m : ℕ} {e : ℤ} (value : decodeF f32 a.toNat = .fin n m e) (pos : m ≠ 0)
include value pos

theorem fsinF_fin : fsinF a = (signedAs n (freeWithin 5 (a &&& 0x7FFFFFFF) (sineVal (reduce2Pi m e)) 1 (-21) false), 0) := by
  have zero : (m == 0) = false := by simpa using pos
  simp only [fsinF, value, zero, Bool.false_eq_true, if_false, signedAs]

theorem fcosF_fin : fcosF a =
    (freeWithin 6 (a &&& 0x7FFFFFFF) (fixF (min (2 ^ 128 - 1) (trigSeries 40 0 (2 ^ 128) (reduce2Pi m e)))) 1 (-21) false, 0) := by
  have zero : (m == 0) = false := by simpa using pos
  simp only [fcosF, value, zero, Bool.false_eq_true, if_false]

omit pos in
/-- A finite magnitude reduced by 2π: the sine and the cosine of what is left. -/
theorem reduced_near : unitsOf (reduce2Pi m e) ≤ 7 ∧ |Real.sin (unitsOf (reduce2Pi m e)) - Real.sin (m * 2 ^ e)| ≤ 1 / 2 ^ 30 ∧
    |Real.cos (unitsOf (reduce2Pi m e)) - Real.cos (m * 2 ^ e)| ≤ 1 / 2 ^ 30 := by
  obtain ⟨-, low, -, -⟩ := decode_f32_range value
  have below := decode_f32_lt value
  rw [FVal.abs_real_fin] at below
  obtain ⟨seven, q, near⟩ := reduce2Pi_near low below
  refine ⟨seven, ?_, ?_⟩
  · rw [← Real.sin_sub_nat_mul_two_pi (m * 2 ^ e) q]
    exact (Real.abs_sin_sub_sin_le _ _).trans near
  · rw [← Real.cos_sub_nat_mul_two_pi (m * 2 ^ e) q]
    exact (Real.abs_cos_sub_cos_le _ _).trans near

theorem fsin_near : Gives (fsinF a) fun r => |r - Real.sin (FVal.fin n m e).real| ≤ 2 ^ (-21 : ℤ) + 2 ^ (-28 : ℤ) := by
  obtain ⟨seven, reduced, -⟩ := reduced_near value
  obtain ⟨finite, near⟩ := sineVal_near seven
  have close := (abs_sub_le _ _ _).trans (add_le_add near reduced)
  have size : |(sineVal (reduce2Pi m e)).real| < 2 ^ ((-21 : ℤ) + 24) := by
    have := abs_le.mp (Real.abs_sin_le_one (unitsOf (reduce2Pi m e)))
    rw [abs_le] at near
    rw [abs_lt]
    norm_num at near ⊢
    constructor <;> linarith
  obtain ⟨lt, number, dist⟩ := freeWithin_of_near 5 (a &&& 0x7FFFFFFF) finite (by norm_num) (by norm_num) size close
  rw [fsinF_fin value pos]
  obtain ⟨lt, number, real⟩ := decode_signedAs n lt number
  refine ⟨lt, rfl, number, ?_⟩
  have odd : Real.sin (FVal.fin n m e).real = signFactor n * Real.sin (m * 2 ^ e) := by
    rw [FVal.real_fin, mul_assoc]
    rcases signFactor_cases n with s | s <;> rw [s] <;> simp
  change |_| ≤ _
  rw [odd, real, ← mul_sub, abs_mul, abs_signFactor, one_mul]
  refine dist.trans ?_
  norm_num

theorem fcos_near : Gives (fcosF a) fun r => |r - Real.cos (FVal.fin n m e).real| ≤ 2 ^ (-21 : ℤ) + 2 ^ (-28 : ℤ) := by
  obtain ⟨seven, -, reduced⟩ := reduced_near value
  have near := cosineVal_near seven
  have close := (abs_sub_le _ _ _).trans (add_le_add near reduced)
  have size : |(fixF (min (2 ^ 128 - 1) (trigSeries 40 0 (2 ^ 128) (reduce2Pi m e)))).real| < 2 ^ ((-21 : ℤ) + 24) := by
    have := abs_le.mp (Real.abs_cos_le_one (unitsOf (reduce2Pi m e)))
    rw [abs_le] at near
    rw [abs_lt]
    norm_num at near ⊢
    constructor <;> linarith
  obtain ⟨lt, number, dist⟩ := freeWithin_of_near 6 (a &&& 0x7FFFFFFF) (fixF_finite _) (by norm_num) (by norm_num) size close
  rw [fcosF_fin value pos]
  refine ⟨lt, rfl, number, ?_⟩
  have even : Real.cos (FVal.fin n m e).real = Real.cos (m * 2 ^ e) := by
    rw [FVal.real_fin, mul_assoc]
    rcases signFactor_cases n with s | s <;> rw [s] <;> simp
  change |_| ≤ _
  rw [even]
  refine dist.trans ?_
  norm_num

theorem fsin_odd : (fsinF (a ^^^ 0x80000000)).1 = (fsinF a).1 ^^^ 2 ^ 31 := by
  rw [fsinF_fin value pos, fsinF_fin (value_flip value) pos, magnitude_flip, signedAs_not (freeWithin_lt ..)]

theorem fcos_even : fcosF (a ^^^ 0x80000000) = fcosF a := by
  rw [fcosF_fin value pos, fcosF_fin (value_flip value) pos, magnitude_flip]

end

end Sys2Proof.Machine
end

section
/-! The hyperbolic tangent (R154): e^2x by squaring, the tangent from it, and the limit of 1. -/

namespace Sys2Proof.Machine

/-! The limit of 1 in magnitude. -/

/-- An encoding whose magnitude bits lie past those of 1, brought back to 1. -/
def limitOne (r : ℕ) : ℕ := if leScaled (r % 2 ^ 31) 0 0x3F800000 0 then r else r / 2 ^ 31 * 2 ^ 31 + 0x3F800000

theorem limitOne_eq (r : ℕ) : limitOne r = if r % 2 ^ 31 ≤ 0x3F800000 then r else r / 2 ^ 31 * 2 ^ 31 + 0x3F800000 := by
  refine if_congr ?_ rfl rfl
  rw [leScaled_iff, zpow_zero, mul_one, mul_one, Nat.cast_le]

theorem limitOne_lt {r : ℕ} (lt : r < 2 ^ 32) : limitOne r < 2 ^ 32 := by rw [limitOne_eq]; split <;> omega

theorem code_upto_one {r : ℕ} (upto : r % 2 ^ 31 ≤ 0x3F800000) : |(decodeF f32 r).real| ≤ 1 := by
  rw [decode_f32, if_neg (by omega)]
  split
  · have few : ((r % 2 ^ 23 : ℕ) : ℝ) ≤ 2 ^ 149 := by exact_mod_cast (by omega : r % 2 ^ 23 ≤ 2 ^ 23).trans (by norm_num)
    rw [FVal.abs_real_fin, zpow_neg, show (149 : ℤ) = (149 : ℕ) from rfl, zpow_natCast, ← div_eq_mul_inv]
    exact (div_le_one (by positivity)).mpr few
  · rw [FVal.abs_real_fin]
    rcases (show r / 2 ^ 23 % 2 ^ 8 < 127 ∨ r / 2 ^ 23 % 2 ^ 8 = 127 ∧ r % 2 ^ 23 = 0 by omega) with below | ⟨one, none⟩
    · have few : ((2 ^ 23 + r % 2 ^ 23 : ℕ) : ℝ) ≤ 2 ^ (24 : ℤ) := by exact_mod_cast (by omega : 2 ^ 23 + r % 2 ^ 23 ≤ 2 ^ 24)
      calc ((2 ^ 23 + r % 2 ^ 23 : ℕ) : ℝ) * 2 ^ (((r / 2 ^ 23 % 2 ^ 8 : ℕ) : ℤ) - 150) ≤ 2 ^ (24 : ℤ) * 2 ^ (-24 : ℤ) := by
            gcongr
            · norm_num
            · omega
        _ = 1 := by norm_num
    · rw [one, none]; norm_num

theorem code_past_one {r : ℕ} (number : (decodeF f32 r).isNan = false) (past : 0x3F800000 < r % 2 ^ 31) :
    1 ≤ signFactor (r / 2 ^ 31 % 2 == 1) * (decodeF f32 r).real := by
  rw [decode_f32] at number ⊢
  split
  · split
    · rw [FVal.real_inf, ← mul_assoc, signFactor_mul_self]; norm_num
    · next top fraction => rw [if_pos top, if_neg fraction] at number; cases number
  · rw [if_neg (by omega), FVal.real_fin, ← mul_assoc, ← mul_assoc, signFactor_mul_self, one_mul]
    have many : (2 : ℝ) ^ (23 : ℤ) ≤ (2 ^ 23 + r % 2 ^ 23 : ℕ) := by exact_mod_cast Nat.le_add_right (2 ^ 23) (r % 2 ^ 23)
    calc (1 : ℝ) = 2 ^ (23 : ℤ) * 2 ^ (-23 : ℤ) := by norm_num
      _ ≤ (2 ^ 23 + r % 2 ^ 23 : ℕ) * 2 ^ (((r / 2 ^ 23 % 2 ^ 8 : ℕ) : ℤ) - 150) := by
        gcongr
        · norm_num
        · omega

/-- The limit brings no result further from a number that keeps to it. -/
theorem limitOne_near {r : ℕ} (number : (decodeF f32 r).isNan = false) {y : ℝ} (one : |y| ≤ 1) :
    (decodeF f32 (limitOne r)).isNan = false ∧ |(decodeF f32 (limitOne r)).real| ≤ 1 ∧
    |(decodeF f32 (limitOne r)).real - y| ≤ |(decodeF f32 r).real - y| := by
  rw [limitOne_eq]
  split
  · next upto => exact ⟨number, code_upto_one upto, le_rfl⟩
  · next past =>
    have outside := code_past_one number (not_le.mp past)
    have value : decodeF f32 (r / 2 ^ 31 * 2 ^ 31 + 0x3F800000) = .fin (r / 2 ^ 31 % 2 == 1) (2 ^ 23) (-23) := by
      have exponent : (r / 2 ^ 31 * 2 ^ 31 + 0x3F800000) / 2 ^ 23 % 2 ^ 8 = 127 := by omega
      have fraction : (r / 2 ^ 31 * 2 ^ 31 + 0x3F800000) % 2 ^ 23 = 0 := by omega
      have sign : (r / 2 ^ 31 * 2 ^ 31 + 0x3F800000) / 2 ^ 31 = r / 2 ^ 31 := by omega
      rw [decode_f32, exponent, fraction, sign, if_neg (by norm_num), if_neg (by norm_num), Nat.add_zero]
      congr 1
    have real : (decodeF f32 (r / 2 ^ 31 * 2 ^ 31 + 0x3F800000)).real = signFactor (r / 2 ^ 31 % 2 == 1) := by
      rw [value, FVal.real_fin, mul_assoc]; norm_num
    rw [real, abs_signFactor]
    refine ⟨by rw [value]; rfl, le_rfl, ?_⟩
    obtain ⟨below, above⟩ := abs_le.mp one
    rcases signFactor_cases (r / 2 ^ 31 % 2 == 1) with s | s <;> rw [s] at outside ⊢
    · rw [abs_of_nonneg (by linarith), abs_of_nonneg (by linarith)]; linarith
    · rw [abs_of_nonpos (by linarith), abs_of_nonpos (by linarith)]; linarith

/-! e^y up to e^40. -/

/-- A square in units of 2^-128: its relative error is at most four times that of the root. -/
theorem square_near {v : ℕ} {z ε : ℝ} (one : 1 ≤ z) (some : 1 / 2 ^ 128 ≤ ε) (small : ε ≤ 1) (near : |(v : ℝ) / 2 ^ 128 - z| ≤ ε * z) :
    |((v * v / 2 ^ 128 : ℕ) : ℝ) / 2 ^ 128 - z ^ 2| ≤ 4 * ε * z ^ 2 := by
  obtain ⟨lo, hi⟩ := mul_near v v
  rw [unitsOf] at lo hi
  generalize ((v * v / 2 ^ 128 : ℕ) : ℝ) = q at *
  have split : (v : ℝ) * (v / 2 ^ 128) = 2 ^ 128 * (v / 2 ^ 128) ^ 2 := by ring
  rw [split] at lo hi
  generalize (v : ℝ) / 2 ^ 128 = w at *
  have cut : |q / 2 ^ 128 - w ^ 2| ≤ 1 / 2 ^ 128 := by
    rw [abs_le]; constructor <;> norm_num at lo hi ⊢ <;> linarith
  have square : |w ^ 2 - z ^ 2| ≤ 3 * ε * z ^ 2 := by
    have sum : |w + z| ≤ 3 * z := by
      rw [abs_le] at near ⊢
      constructor <;> nlinarith
    calc |w ^ 2 - z ^ 2| = |w - z| * |w + z| := by rw [← abs_mul]; ring_nf
      _ ≤ ε * z * (3 * z) := by gcongr
      _ = 3 * ε * z ^ 2 := by ring
  have unit : 1 / 2 ^ 128 ≤ ε * z ^ 2 := some.trans (le_mul_of_one_le_right (le_trans (by positivity) some) (one_le_pow₀ one))
  calc |q / 2 ^ 128 - z ^ 2| ≤ |q / 2 ^ 128 - w ^ 2| + |w ^ 2 - z ^ 2| := abs_sub_le ..
    _ ≤ 1 / 2 ^ 128 + 3 * ε * z ^ 2 := add_le_add cut square
    _ ≤ 4 * ε * z ^ 2 := by linarith

/-- An exponential at a number cut by a little. -/
theorem exp_cut {a b d : ℝ} (le : a ≤ b) (near : b ≤ a + d) : |Real.exp a - Real.exp b| ≤ d * Real.exp b := by
  have split : Real.exp a = Real.exp b * Real.exp (a - b) := by rw [← Real.exp_add]; congr 1; ring
  have lower := Real.add_one_le_exp (a - b)
  have mono := Real.exp_le_exp.mpr le
  have pos := Real.exp_pos b
  rw [abs_of_nonpos (by linarith), split]
  nlinarith

/-- e^y below e^40, relatively to it. -/
theorem expFix_near {y : ℕ} {s : ℝ} (nonneg : 0 ≤ s) (small : s < 64) (lo : unitsOf y ≤ s) (hi : s ≤ unitsOf y + 1 / 2 ^ 128) :
    |(expFix y : ℝ) / 2 ^ 128 - Real.exp s| ≤ 1 / 2 ^ 101 * Real.exp s := by
  obtain ⟨h1, h2⟩ := div_near y 64
  have whole : y / 64 ≤ 2 ^ 128 := by
    have : (y : ℝ) < 64 * 2 ^ 128 := by
      have := lo.trans_lt small
      rw [unitsOf, div_lt_iff₀ (by positivity)] at this
      exact this
    have : y < 64 * 2 ^ 128 := by exact_mod_cast this
    omega
  have series := expSeries_exp whole
  have below : unitsOf (y / 64) ≤ s / 64 := by
    rw [unitsOf] at lo ⊢; push_cast at h1; norm_num at h1 lo ⊢; linarith
  have close : s / 64 ≤ unitsOf (y / 64) + 1 / 2 ^ 127 := by
    rw [unitsOf] at hi ⊢; push_cast at h2; norm_num at h2 hi ⊢; linarith
  have one : 1 ≤ Real.exp (s / 64) := Real.one_le_exp (by positivity)
  have first : |(expSeries 40 0 (2 ^ 128) (y / 64) : ℝ) / 2 ^ 128 - Real.exp (s / 64)| ≤ 1 / 2 ^ 113 * Real.exp (s / 64) := by
    refine (abs_sub_le _ (Real.exp (unitsOf (y / 64))) _).trans ((add_le_add series (exp_cut below close)).trans ?_)
    norm_num
    linarith
  have power : Real.exp (s / 64) ^ 2 ^ 6 = Real.exp s := by rw [← Real.exp_nat_mul]; congr 1; push_cast; ring
  unfold expFix
  dsimp only
  generalize expSeries 40 0 (2 ^ 128) (y / 64) = v at *
  generalize Real.exp (s / 64) = z at *
  have one' : ∀ k, 1 ≤ z ^ k := fun k => one_le_pow₀ one
  have round (j : ℕ) (few : j < 6) {v : ℕ} (near : |(v : ℝ) / 2 ^ 128 - z ^ 2 ^ j| ≤ 4 ^ j / 2 ^ 113 * z ^ 2 ^ j) :
      |((v * v / 2 ^ 128 : ℕ) : ℝ) / 2 ^ 128 - z ^ 2 ^ (j + 1)| ≤ 4 ^ (j + 1) / 2 ^ 113 * z ^ 2 ^ (j + 1) := by
    have := square_near (one' _) (by interval_cases j <;> norm_num) (by interval_cases j <;> norm_num) near
    rw [← pow_mul, ← pow_succ] at this
    rw [pow_succ 4, mul_comm ((4 : ℝ) ^ j), mul_div_assoc]
    exact this
  have start : |(v : ℝ) / 2 ^ 128 - z ^ 2 ^ 0| ≤ 4 ^ 0 / 2 ^ 113 * z ^ 2 ^ 0 := by simpa using first
  have last := round 5 (by omega) (round 4 (by omega) (round 3 (by omega) (round 2 (by omega) (round 1 (by omega) (round 0 (by omega) start)))))
  rw [power] at last
  refine last.trans_eq ?_
  norm_num

/-! The tangent of half the logarithm. -/

theorem tanh_eq (s : ℝ) : Real.tanh s = (Real.exp (2 * s) - 1) / (Real.exp (2 * s) + 1) := by
  have pos := Real.exp_pos s
  rw [Real.tanh_eq, show 2 * s = s + s by ring, Real.exp_add, Real.exp_neg]
  field_simp

/-- The tangent of the model, in units of 2^-128, from e^2x. -/
def tanhUnits (g : ℕ) : ℕ := max 1 ((g - 2 ^ 128) * 2 ^ 128 / (g + 2 ^ 128))

theorem tanhUnits_near {g : ℕ} {z : ℝ} (one : 1 ≤ z) (near : |(g : ℝ) / 2 ^ 128 - z| ≤ 1 / 2 ^ 101 * z) :
    unitsOf (tanhUnits g) ≤ 1 ∧ |unitsOf (tanhUnits g) - (z - 1) / (z + 1)| ≤ 1 / 2 ^ 98 := by
  obtain ⟨lo, hi⟩ := div_near ((g - 2 ^ 128) * 2 ^ 128) (g + 2 ^ 128)
  have below : (g - 2 ^ 128) * 2 ^ 128 / (g + 2 ^ 128) ≤ 2 ^ 128 := by
    refine Nat.div_le_of_le_mul ?_
    exact Nat.mul_le_mul_right _ (by omega)
  have cast : ((g + 2 ^ 128 : ℕ) : ℝ) = g + 2 ^ 128 := by push_cast; ring
  have nonneg : (0 : ℝ) ≤ g := Nat.cast_nonneg g
  -- the tangent of the g of the model
  have exact : |((tanhUnits g : ℕ) : ℝ) - ((g : ℝ) / 2 ^ 128 - 1) / (g / 2 ^ 128 + 1) * 2 ^ 128| ≤ 2 ^ 29 := by
    have form : ((g : ℝ) / 2 ^ 128 - 1) / (g / 2 ^ 128 + 1) * 2 ^ 128 = (g - 2 ^ 128) * 2 ^ 128 / (g + 2 ^ 128) := by
      rw [div_sub_one (by positivity), div_add_one (by positivity), div_div_div_cancel_right₀ (by positivity), div_mul_eq_mul_div]
    rw [form, tanhUnits]
    by_cases above : 2 ^ 128 ≤ g
    · have cast' : (((g - 2 ^ 128) * 2 ^ 128 : ℕ) : ℝ) = (g - 2 ^ 128) * 2 ^ 128 := by rw [Nat.cast_mul, Nat.cast_sub above, Nat.cast_pow, Nat.cast_ofNat]
      rw [cast, cast'] at lo hi
      generalize (g - 2 ^ 128) * 2 ^ 128 / (g + 2 ^ 128) = q at *
      have : ((max 1 q : ℕ) : ℝ) ≤ q + 1 := by exact_mod_cast (by omega : max 1 q ≤ q + 1)
      have : (q : ℝ) ≤ (max 1 q : ℕ) := by exact_mod_cast le_max_right 1 q
      rw [abs_le]
      constructor <;> linarith
    · have zero : (g - 2 ^ 128) * 2 ^ 128 / (g + 2 ^ 128) = 0 := by rw [Nat.sub_eq_zero_of_le (by omega), Nat.zero_mul, Nat.zero_div]
      have less : (g : ℝ) < 2 ^ 128 := by exact_mod_cast not_le.mp above
      have most : 2 ^ 128 - 2 ^ 28 ≤ (g : ℝ) := by
        have low : 1 - 1 / 2 ^ 101 ≤ (g : ℝ) / 2 ^ 128 := by
          have := (abs_le.mp near).1
          norm_num at this ⊢
          linarith
        rw [le_div_iff₀ (by positivity)] at low
        exact le_trans (by norm_num) low
      rw [zero, Nat.max_zero, Nat.cast_one]
      have small : -(2 ^ 28 : ℝ) ≤ (g - 2 ^ 128) * 2 ^ 128 / (g + 2 ^ 128) := by
        rw [le_div_iff₀ (by positivity)]; nlinarith
      have negative : (g - 2 ^ 128 : ℝ) * 2 ^ 128 / (g + 2 ^ 128) ≤ 0 :=
        div_nonpos_of_nonpos_of_nonneg (mul_nonpos_of_nonpos_of_nonneg (by linarith) (by positivity)) (by positivity)
      rw [abs_le]
      constructor <;> norm_num at small ⊢ <;> linarith
  have limit : tanhUnits g ≤ 2 ^ 128 := max_le Nat.one_le_two_pow below
  refine ⟨by rw [unitsOf, div_le_one (by positivity)]; exact_mod_cast limit, ?_⟩
  rw [unitsOf]
  generalize (tanhUnits g : ℝ) = t at *
  have nonneg' : 0 ≤ (g : ℝ) / 2 ^ 128 := div_nonneg nonneg (pow_nonneg zero_le_two _)
  generalize (g : ℝ) / 2 ^ 128 = G at *
  have change : |(G - 1) / (G + 1) - (z - 1) / (z + 1)| ≤ 2 * (1 / 2 ^ 101) := by
    have form : (G - 1) / (G + 1) - (z - 1) / (z + 1) = 2 * (G - z) / ((G + 1) * (z + 1)) := by
      field_simp
      ring
    rw [form, abs_div, abs_mul, abs_two, abs_of_pos (a := (G + 1) * (z + 1)) (by positivity), div_le_iff₀ (by positivity)]
    calc 2 * |G - z| ≤ 2 * (1 / 2 ^ 101 * z) := by gcongr
      _ ≤ 2 * (1 / 2 ^ 101) * (1 * (z + 1)) := by rw [mul_assoc]; gcongr; linarith
      _ ≤ 2 * (1 / 2 ^ 101) * ((G + 1) * (z + 1)) := by gcongr; linarith
  generalize (z - 1) / (z + 1) = y at *
  generalize (G - 1) / (G + 1) = x at *
  rw [abs_le] at *
  norm_num at exact change ⊢
  constructor <;> linarith

/-! ftanh. -/

/-- The magnitude m × 2^e in units of 2^-k, cut to an integer. -/
def magnitudeUnits (k : ℤ) (m : ℕ) (e : ℤ) : ℕ := if e + k ≥ 0 then m * 2 ^ (e + k).toNat else m / 2 ^ (-k - e).toNat

theorem magnitudeUnits_near (k : ℤ) (m : ℕ) (e : ℤ) : (magnitudeUnits k m e : ℝ) ≤ m * 2 ^ (e + k) ∧ (m : ℝ) * 2 ^ (e + k) < magnitudeUnits k m e + 1 ∧
    (0 ≤ e + k → (magnitudeUnits k m e : ℝ) = m * 2 ^ (e + k)) := by
  unfold magnitudeUnits
  split
  · next h =>
    have same : ((m * 2 ^ (e + k).toNat : ℕ) : ℝ) = m * 2 ^ (e + k) := by
      rw [Nat.cast_mul, Nat.cast_pow, Nat.cast_ofNat, ← zpow_natCast, Int.toNat_of_nonneg h]
    exact ⟨same.le, by rw [same]; exact lt_add_one _, fun _ => same⟩
  · next h =>
    have unit : (2 : ℝ) ^ (e + k) = 1 / (2 ^ (-k - e).toNat : ℕ) := by
      rw [Nat.cast_pow, Nat.cast_ofNat, ← zpow_natCast, Int.toNat_of_nonneg (by omega), one_div, ← zpow_neg]; congr 1; ring
    rw [unit, mul_one_div]
    have pos : 0 < 2 ^ (-k - e).toNat := by positivity
    generalize 2 ^ (-k - e).toNat = d at pos
    refine ⟨Nat.cast_div_le, ?_, fun nonneg => absurd nonneg (by omega)⟩
    rw [div_lt_iff₀ (by exact_mod_cast pos)]
    exact_mod_cast (by rw [Nat.add_mul, Nat.one_mul]; exact Nat.lt_div_mul_add pos : m < (m / d + 1) * d)

/-- The tangent of a magnitude as the model holds it, in units of 2^-128. -/
def tanhHeld (m : ℕ) (e : ℤ) : ℕ :=
  if !ltF (.fin false m e) (.fin false 20 0) then 2 ^ 128 - 1 else tanhUnits (expFix (magnitudeUnits 129 m e))

theorem tanhHeld_near (m : ℕ) (e : ℤ) : unitsOf (tanhHeld m e) ≤ 1 ∧ |unitsOf (tanhHeld m e) - Real.tanh (m * 2 ^ e)| ≤ 1 / 2 ^ 30 := by
  have order := ltF_fin_iff false false m 20 e 0
  rw [FVal.real_fin, FVal.real_fin, signFactor_false, one_mul, one_mul, zpow_zero, mul_one] at order
  have nonneg : (0 : ℝ) ≤ m * 2 ^ e := by positivity
  have one : 1 ≤ Real.exp (2 * (m * 2 ^ e)) := Real.one_le_exp (by positivity)
  rw [tanhHeld, tanh_eq]
  cases less : ltF (.fin false m e) (.fin false 20 0) with
  | true =>
    rw [Bool.not_true, if_neg Bool.false_ne_true]
    have bound := order.mp less
    push_cast at bound
    obtain ⟨lo, hi, -⟩ := magnitudeUnits_near 129 m e
    have scale : (m : ℝ) * 2 ^ (e + 129) = 2 * (m * 2 ^ e) * 2 ^ 128 := by
      rw [zpow_add₀ two_ne_zero]; norm_num; ring
    rw [scale] at lo hi
    have near := expFix_near (y := magnitudeUnits 129 m e) (s := 2 * (m * 2 ^ e)) (by positivity) (by linarith)
      ((div_le_iff₀ (by positivity)).mpr lo) (by rw [unitsOf, ← add_div, le_div_iff₀ (by positivity)]; exact hi.le)
    obtain ⟨limit, near⟩ := tanhUnits_near one near
    exact ⟨limit, near.trans (by norm_num)⟩
  | false =>
    rw [Bool.not_false, if_pos rfl]
    have bound : (20 : ℝ) ≤ m * 2 ^ e := by
      have := not_lt.mp (fun h => by rw [order.mpr h] at less; cases less)
      exact_mod_cast this
    -- e^40 lies above 2^40
    have large : (2 : ℝ) ^ 40 ≤ Real.exp (2 * (m * 2 ^ e)) := by
      have two : (2 : ℝ) ≤ Real.exp 1 := by have := Real.add_one_le_exp 1; linarith
      calc (2 : ℝ) ^ 40 ≤ Real.exp 1 ^ 40 := by gcongr
        _ = Real.exp 40 := by rw [← Real.exp_nat_mul]; norm_num
        _ ≤ Real.exp (2 * (m * 2 ^ e)) := Real.exp_le_exp.mpr (by linarith)
    generalize Real.exp (2 * (m * 2 ^ e)) = z at *
    have held : unitsOf (2 ^ 128 - 1) = 1 - 1 / 2 ^ 128 := by rw [unitsOf]; norm_num
    have form : (z - 1) / (z + 1) = 1 - 2 / (z + 1) := by
      rw [eq_sub_iff_add_eq, ← add_div]; exact (div_eq_one_iff_eq (by linarith)).mpr (by ring)
    have rest : 2 / (z + 1) ≤ 1 / 2 ^ 39 := by
      rw [div_le_div_iff₀ (by linarith) (by positivity)]; norm_num at large ⊢; linarith
    have rest' : 0 ≤ 2 / (z + 1) := div_nonneg zero_le_two (by linarith)
    rw [held, form]
    refine ⟨by norm_num, ?_⟩
    rw [abs_le]
    constructor <;> norm_num at rest ⊢ <;> linarith

section
variable {a : Word} {n : Bool} {m : ℕ} {e : ℤ} (value : decodeF f32 a.toNat = .fin n m e) (pos : m ≠ 0)
include value pos

theorem ftanhF_fin : ftanhF a = (signedAs n (limitOne (freeWithin 7 (a &&& 0x7FFFFFFF) (fixF (tanhHeld m e)) 1 (-21) false)), 0) := by
  have zero : (m == 0) = false := by simpa using pos
  rw [tanhHeld]
  simp only [ftanhF, value, zero, Bool.false_eq_true, if_false, signedAs, limitOne, tanhUnits, magnitudeUnits]
  rfl

theorem ftanh_near : Gives (ftanhF a) fun r => |r - Real.tanh (FVal.fin n m e).real| ≤ 2 ^ (-21 : ℤ) + 2 ^ (-28 : ℤ) ∧ |r| ≤ 1 := by
  obtain ⟨limit, near⟩ := tanhHeld_near m e
  have held : (fixF (tanhHeld m e)).real = unitsOf (tanhHeld m e) := by rw [fixF_real, Int.cast_natCast, unitsOf]
  rw [← held] at limit near
  have size : |(fixF (tanhHeld m e)).real| < 2 ^ ((-21 : ℤ) + 24) := by
    rw [abs_of_nonneg (held ▸ unitsOf_nonneg _)]
    exact limit.trans_lt (by norm_num)
  obtain ⟨lt, number, dist⟩ := freeWithin_of_near 7 (a &&& 0x7FFFFFFF) (fixF_finite _) (by norm_num) (by norm_num) size near
  obtain ⟨number, one, closer⟩ := limitOne_near number (Real.abs_tanh_lt_one (m * 2 ^ e)).le
  obtain ⟨lt, number, real⟩ := decode_signedAs n (limitOne_lt lt) number
  rw [ftanhF_fin value pos]
  have odd : Real.tanh (FVal.fin n m e).real = signFactor n * Real.tanh (m * 2 ^ e) := by
    rw [FVal.real_fin, mul_assoc]
    rcases signFactor_cases n with s | s <;> rw [s] <;> simp
  refine ⟨lt, rfl, number, ?_⟩
  change |_| ≤ _ ∧ |_| ≤ _
  rw [odd, real, ← mul_sub, abs_mul, abs_mul, abs_signFactor, one_mul, one_mul]
  refine ⟨(closer.trans dist).trans ?_, one⟩
  norm_num

theorem ftanh_odd : (ftanhF (a ^^^ 0x80000000)).1 = (ftanhF a).1 ^^^ 2 ^ 31 := by
  rw [ftanhF_fin value pos, ftanhF_fin (value_flip value) pos, magnitude_flip, signedAs_not (limitOne_lt (freeWithin_lt ..))]

end

end Sys2Proof.Machine
end

section
/-! The power of two (R154): the whole part of the operand, the exponential of its fraction, and how near the result is. -/

namespace Sys2Proof.Machine

/-- A value rounded down to an integer (R93). -/
theorem roundInt_down (n : Bool) (m : ℕ) (e : ℤ) :
    ((roundInt n m e .rd).1 : ℝ) ≤ (FVal.fin n m e).real ∧ (FVal.fin n m e).real < (roundInt n m e .rd).1 + 1 ∧
    ((roundInt n m e .rd).2 = false ↔ ((roundInt n m e .rd).1 : ℝ) = (FVal.fin n m e).real) := by
  have sign : ∀ q : ℕ, ((if n = true then -(q : ℤ) else (q : ℤ) : ℤ) : ℝ) = signFactor n * q := fun q => by cases n <;> simp
  simp only [roundInt, sign, FVal.real_fin, mul_assoc]
  unfold roundAt
  split
  · next whole =>
    have same := shift_units m whole
    rw [zpow_zero, mul_one] at same
    rw [same]
    exact ⟨le_rfl, lt_add_one _, by simp⟩
  · next h =>
    have unit : (2 : ℝ) ^ e = 1 / (2 ^ (0 - e).toNat : ℕ) := by
      rw [Nat.cast_pow, Nat.cast_ofNat, ← zpow_natCast, Int.toNat_of_nonneg (by omega), one_div, ← zpow_neg]; congr 1; ring
    have pos : 0 < 2 ^ (0 - e).toNat := by positivity
    rw [unit, mul_one_div]
    generalize 2 ^ (0 - e).toNat = w at pos
    have pos' : (0 : ℝ) < w := by exact_mod_cast pos
    have value : (m : ℝ) / w = (m / w : ℕ) + (m % w : ℕ) / w := by
      rw [add_div' _ _ _ pos'.ne', div_left_inj' pos'.ne']
      exact_mod_cast (Nat.div_add_mod' m w).symm
    have rest : ((m % w : ℕ) : ℝ) / w < 1 := (div_lt_one pos').mpr (by exact_mod_cast Nat.mod_lt m pos)
    have none : ((m % w : ℕ) : ℝ) / w = 0 ↔ m % w = 0 := by rw [div_eq_zero_iff, or_iff_left pos'.ne', Nat.cast_eq_zero]
    have nonneg : 0 ≤ ((m % w : ℕ) : ℝ) / w := by positivity
    dsimp only
    rw [value, bne_eq_false_iff_eq, ← none]
    have up : roundsUp .rd n (m / w) (m % w) w = (n && m % w != 0) := rfl
    rw [up]
    generalize m / w = q
    by_cases zero : m % w = 0
    · rw [zero, Nat.cast_zero, zero_div, add_zero]
      simp
    · have positive := lt_of_le_of_ne nonneg (Ne.symm (mt none.mp zero))
      have some : (m % w != 0) = true := by simpa using zero
      rw [some]
      generalize ((m % w : ℕ) : ℝ) / w = r at *
      cases n with
      | false =>
        suffices 0 ≤ r ∧ r < 1 by simpa using this
        exact ⟨nonneg, rest⟩
      | true =>
        suffices r ≤ 1 ∧ 0 < r ∧ (r = 0 ↔ 1 = r) by simpa using this
        exact ⟨rest.le, positive, iff_of_false positive.ne' rest.ne'⟩

/-! fexp2. -/

/-- The value ±m × 2^e in units of 2^-128, rounded down to an integer. -/
def floorUnits (n : Bool) (m : ℕ) (e : ℤ) : ℤ :=
  if n then -(magnitudeUnits 128 m e : ℤ) - (if e ≥ -128 then 0 else 1) else (magnitudeUnits 128 m e : ℤ)

theorem floorUnits_near (n : Bool) (m : ℕ) (e : ℤ) :
    (floorUnits n m e : ℝ) ≤ (FVal.fin n m e).real * 2 ^ 128 ∧ (FVal.fin n m e).real * 2 ^ 128 ≤ floorUnits n m e + 1 := by
  obtain ⟨lo, hi, same⟩ := magnitudeUnits_near 128 m e
  have scale : (FVal.fin n m e).real * 2 ^ 128 = signFactor n * (m * 2 ^ (e + 128)) := by
    rw [FVal.real_fin, zpow_add₀ two_ne_zero]; norm_num; ring
  rw [scale, floorUnits]
  cases n with
  | false =>
    rw [if_neg Bool.false_ne_true, signFactor_false, one_mul]
    exact ⟨lo, hi.le⟩
  | true =>
    rw [if_pos rfl, signFactor_true, neg_one_mul]
    split
    · next coarse =>
      rw [← same (by omega)]
      push_cast
      constructor <;> linarith
    · push_cast
      constructor <;> linarith

/-- The power of the fraction of ±m × 2^e as the model holds it, in units of 2^-128; i is the whole part. -/
def powerHeld (n : Bool) (m : ℕ) (e i : ℤ) : ℕ :=
  max (2 ^ 128 + 1) (min (2 ^ 129 - 1) (expSeries 40 0 (2 ^ 128) ((floorUnits n m e - i * 2 ^ 128).toNat * ln2Fix / 2 ^ 128)))

/-- The natural logarithm of 2 as the model holds it. -/
theorem ln2Fix_near : |unitsOf ln2Fix - Real.log 2| ≤ 1 / 2 ^ 32 := by
  have near := Real.log_two_near_10
  rw [unitsOf, ln2Fix]
  rw [abs_le] at near ⊢
  norm_num at near ⊢
  constructor <;> linarith

/-- Two exponentials of exponents up to 1. -/
theorem exp_near {a b d : ℝ} (ha : a ≤ 1) (hb : b ≤ 1) (near : |a - b| ≤ d) : |Real.exp a - Real.exp b| ≤ 3 * d := by
  have three : ∀ c ≤ 1, Real.exp c ≤ 3 := fun c hc => (Real.exp_le_exp.mpr hc).trans (Real.exp_one_lt_three.le)
  have nonneg := (abs_nonneg _).trans near
  obtain ⟨below, above⟩ := abs_le.mp near
  rcases le_total a b with le | le
  · exact (exp_cut le (by linarith)).trans (by rw [mul_comm]; gcongr; exact three b hb)
  · rw [abs_sub_comm]
    exact (exp_cut le (by linarith)).trans (by rw [mul_comm]; gcongr; exact three a ha)

/-- A number brought into the open range from 1 to 2, in units of 2^-128, comes no nearer than a unit to its ends. -/
theorem held_between (v : ℕ) {y d : ℝ} (one : 1 < y) (two : y < 2) (near : |unitsOf v - y| ≤ d) :
    2 ^ 128 < max (2 ^ 128 + 1) (min (2 ^ 129 - 1) v) ∧ max (2 ^ 128 + 1) (min (2 ^ 129 - 1) v) < 2 ^ 129 ∧
    |unitsOf (max (2 ^ 128 + 1) (min (2 ^ 129 - 1) v)) - y| ≤ d + 1 / 2 ^ 128 := by
  generalize hu : max (2 ^ 128 + 1) (min (2 ^ 129 - 1) v) = u
  refine ⟨by omega, by omega, ?_⟩
  have cases : u = 2 ^ 128 + 1 ∧ v ≤ u ∨ u = 2 ^ 129 - 1 ∧ u ≤ v ∨ u = v := by omega
  have nonneg := (abs_nonneg _).trans near
  rcases cases with ⟨same, le⟩ | ⟨same, le⟩ | same
  · have le' : unitsOf v ≤ unitsOf u := by unfold unitsOf; gcongr
    have held : unitsOf u = 1 + 1 / 2 ^ 128 := by rw [same, unitsOf]; norm_num
    rw [abs_le] at near ⊢
    constructor <;> linarith
  · have le' : unitsOf u ≤ unitsOf v := by unfold unitsOf; gcongr
    have held : unitsOf u = 2 - 1 / 2 ^ 128 := by rw [same, unitsOf]; norm_num
    rw [abs_le] at near ⊢
    constructor <;> linarith
  · rw [same]
    exact near.trans (le_add_of_nonneg_right (by positivity))

theorem powerHeld_near {n : Bool} {m : ℕ} {e i : ℤ} (lo : i < (FVal.fin n m e).real) (hi : (FVal.fin n m e).real < i + 1) :
    2 ^ 128 < powerHeld n m e i ∧ powerHeld n m e i < 2 ^ 129 ∧
    |unitsOf (powerHeld n m e i) - 2 ^ ((FVal.fin n m e).real - i)| ≤ 1 / 2 ^ 29 := by
  obtain ⟨low, high⟩ := floorUnits_near n m e
  unfold powerHeld
  generalize (FVal.fin n m e).real = x at *
  have whole : 0 ≤ floorUnits n m e - i * 2 ^ 128 := by
    have : (i * 2 ^ 128 : ℝ) < floorUnits n m e + 1 := lt_of_lt_of_le (by gcongr) high
    have : i * 2 ^ 128 < floorUnits n m e + 1 := by exact_mod_cast this
    omega
  have cast : (((floorUnits n m e - i * 2 ^ 128).toNat : ℕ) : ℝ) = floorUnits n m e - i * 2 ^ 128 := by
    rw [← Int.cast_natCast, Int.toNat_of_nonneg whole]; push_cast; ring
  generalize (floorUnits n m e - i * 2 ^ 128).toNat = f at *
  obtain ⟨below, above⟩ := mul_near f ln2Fix
  have ln := abs_le.mp ln2Fix_near
  have ln' := Real.log_two_lt_d9
  have ln'' := Real.log_two_gt_d9
  have fraction : 0 ≤ (f : ℝ) / 2 ^ 128 ∧ (f : ℝ) / 2 ^ 128 ≤ x - i ∧ x - i ≤ f / 2 ^ 128 + 1 / 2 ^ 128 := by
    refine ⟨by positivity, ?_, ?_⟩
    · rw [div_le_iff₀ (by positivity)]; linarith
    · rw [← add_div, le_div_iff₀ (by positivity)]; linarith
  have product : (f : ℝ) / 2 ^ 128 * unitsOf ln2Fix - 1 / 2 ^ 128 ≤ unitsOf (f * ln2Fix / 2 ^ 128) ∧ unitsOf (f * ln2Fix / 2 ^ 128) ≤ f / 2 ^ 128 * unitsOf ln2Fix := by
    generalize unitsOf ln2Fix = L at *
    rw [unitsOf, div_mul_eq_mul_div, ← sub_div]
    constructor <;> gcongr
    linarith
  obtain ⟨f0, f1, f2⟩ := fraction
  have exponent : |unitsOf (f * ln2Fix / 2 ^ 128) - Real.log 2 * (x - i)| ≤ 1 / 2 ^ 31 := by
    generalize (f : ℝ) / 2 ^ 128 = φ at *
    generalize unitsOf (f * ln2Fix / 2 ^ 128) = y at *
    generalize unitsOf ln2Fix = L at *
    generalize Real.log 2 = l at *
    have h1 : |φ * (L - l)| ≤ 1 * (1 / 2 ^ 32) := by
      rw [abs_mul]
      gcongr
      · rw [abs_of_nonneg f0]; linarith
      · exact abs_le.mpr ln
    have h2 : l * (x - i - φ) ≤ 1 * (1 / 2 ^ 128) := by
      gcongr
      · linarith
      · linarith
    have h3 : 0 ≤ l * (x - i - φ) := mul_nonneg (by linarith) (by linarith)
    rw [abs_le] at h1 ⊢
    norm_num at h1 h2 product ⊢
    constructor <;> nlinarith
  have small : unitsOf (f * ln2Fix / 2 ^ 128) ≤ 1 := by
    have : Real.log 2 * (x - i) ≤ 0.6931471808 * 1 := by gcongr; linarith
    have := (abs_le.mp exponent).2
    norm_num at *
    linarith
  have within : f * ln2Fix / 2 ^ 128 ≤ 2 ^ 128 := by
    rw [unitsOf, div_le_one (by positivity)] at small
    exact_mod_cast small
  have series := expSeries_exp within
  have power : Real.exp (Real.log 2 * (x - i)) = 2 ^ (x - i) := (Real.rpow_def_of_pos two_pos _).symm
  have near := exp_near small (b := Real.log 2 * (x - i)) (by nlinarith) exponent
  rw [power] at near
  have total := (abs_sub_le _ _ _).trans (add_le_add series near)
  have one : (1 : ℝ) < 2 ^ (x - i) := Real.one_lt_rpow one_lt_two (by linarith)
  have two : (2 : ℝ) ^ (x - i) < 2 := by
    have := Real.rpow_lt_rpow_of_exponent_lt one_lt_two (show x - i < 1 by linarith)
    rwa [Real.rpow_one] at this
  obtain ⟨h1, h2, held⟩ := held_between _ one two total
  exact ⟨h1, h2, held.trans (by norm_num)⟩

section
variable {a : Word} {n : Bool} {m : ℕ} {e : ℤ} (value : decodeF f32 a.toNat = .fin n m e)
  (low : -150 < (FVal.fin n m e).real) (high : (FVal.fin n m e).real < 128)
include value low high

theorem fexp2F_fin : fexp2F a = if (roundInt n m e .rd).2 = false then ((encRn f32 (.fin false 1 (roundInt n m e .rd).1)).1, 0) else
    (freeWithin 3 a (.fin false (powerHeld n m e (roundInt n m e .rd).1) ((roundInt n m e .rd).1 - 128)) 2
      (ulpExp (.fin false (powerHeld n m e (roundInt n m e .rd).1) ((roundInt n m e .rd).1 - 128))) false, 0) := by
  have below : ltF (.fin n m e) (.fin false 128 0) = true := (ltF_fin_iff ..).mpr (by
    rw [FVal.real_fin false]; norm_num; exact high)
  have above : ltF (.fin true 150 0) (.fin n m e) = true := (ltF_fin_iff ..).mpr (by
    rw [FVal.real_fin true]; norm_num; exact low)
  unfold fexp2F
  rw [value]
  dsimp only
  rw [below, above, show (if e ≥ -128 then m * 2 ^ (e + 128).toNat else m / 2 ^ (-128 - e).toNat) = magnitudeUnits 128 m e from
    if_congr (by omega) rfl rfl]
  cases (roundInt n m e .rd).2 with
  | false | true => rfl

/-- Two to the power of a whole operand, exactly. -/
theorem fexp2_exact {i : ℤ} (whole : (FVal.fin n m e).real = i) : Gives (fexp2F a) fun r => r = 2 ^ i := by
  obtain ⟨lo, hi, same⟩ := roundInt_down n m e
  rw [whole] at lo hi same low high
  have part : (roundInt n m e .rd).1 = i := by
    have h1 : (roundInt n m e .rd).1 ≤ i := by exact_mod_cast lo
    have h2 : i < (roundInt n m e .rd).1 + 1 := by exact_mod_cast hi
    omega
  rw [← whole] at low high
  rw [fexp2F_fin value low high, if_pos (same.mpr (by rw [part])), part]
  rw [whole] at low high
  have low' : -150 < i := by exact_mod_cast low
  have high' : i < 128 := by exact_mod_cast high
  have unit : ulpExp (.fin false 1 i) ≤ i := by rw [ulpExp_fin one_ne_zero, show Nat.log2 1 = 0 by decide]; omega
  have top : ((1 : ℕ) : ℝ) * 2 ^ i < 2 ^ 128 := by
    rw [Nat.cast_one, one_mul, ← zpow_natCast]
    exact zpow_lt_zpow_right₀ one_lt_two (by push_cast; omega)
  obtain ⟨-, real⟩ := encRn_exact (n := false) one_ne_zero unit top
  obtain ⟨lt, number, -⟩ := encRn_near (n := false) top.le
  refine ⟨lt, rfl, number, real.trans ?_⟩
  rw [FVal.real_fin, signFactor_false, Nat.cast_one, one_mul, one_mul]

theorem fexp2_near : Gives (fexp2F a) fun r =>
    |r - 2 ^ (FVal.fin n m e).real| ≤ (2 + 2 ^ (-6 : ℤ)) * spacing (2 ^ (FVal.fin n m e).real) := by
  obtain ⟨lo, hi, same⟩ := roundInt_down n m e
  by_cases whole : ((roundInt n m e .rd).1 : ℝ) = (FVal.fin n m e).real
  · obtain ⟨lt, flags, number, real⟩ := fexp2_exact value low high whole.symm
    refine ⟨lt, flags, number, ?_⟩
    change |_| ≤ _
    rw [real, ← whole, Real.rpow_intCast, sub_self, abs_zero]
    exact mul_nonneg (by positivity) (spacing_pos _).le
  rw [fexp2F_fin value low high, if_neg (mt same.mp whole)]
  obtain ⟨more, less, near⟩ := powerHeld_near (lo.lt_of_ne whole) hi
  generalize (roundInt n m e .rd).1 = i at *
  generalize powerHeld n m e i = t at *
  generalize (FVal.fin n m e).real = x at *
  have high' : i ≤ 127 := by
    have : (i : ℝ) < 128 := lo.trans_lt high
    have : i < 128 := by exact_mod_cast this
    omega
  have split : (2 : ℝ) ^ x = 2 ^ (x - i) * 2 ^ i := by
    rw [← Real.rpow_intCast, ← Real.rpow_add two_pos, sub_add_cancel]
  have scale : (t : ℝ) * 2 ^ (i - 128) = unitsOf t * 2 ^ i := by
    rw [zpow_sub₀ two_ne_zero, unitsOf]; norm_num; ring
  have two : unitsOf t < 2 := by
    rw [unitsOf, div_lt_iff₀ (by positivity)]; exact_mod_cast less
  have top : (t : ℝ) * 2 ^ (i - 128) ≤ 2 ^ 128 := by
    rw [scale]
    calc unitsOf t * 2 ^ i ≤ 2 * 2 ^ (127 : ℤ) := by gcongr; norm_num
      _ = 2 ^ 128 := by norm_num
  have lead : Nat.log2 t = 128 := (Nat.log2_eq_iff (by omega)).mpr ⟨more.le, less⟩
  have unit : (2 : ℝ) ^ ulpExp (.fin false t (i - 128)) = spacing (2 ^ x) := by
    have exponent : Int.log 2 ((2 : ℝ) ^ x) = i := intLog_eq
      (by rw [← Real.rpow_intCast]; exact Real.rpow_le_rpow_of_exponent_le one_le_two lo)
      (by rw [← Real.rpow_intCast]; exact Real.rpow_lt_rpow_of_exponent_lt one_lt_two (by push_cast; exact hi))
    rw [ulpExp_fin (by omega), lead, spacing, abs_of_pos (by positivity), exponent]
    congr 2
    push_cast
    ring
  obtain ⟨lt, number, dist, -⟩ := freeWithin_near 3 a (n := false) top le_rfl two_pos false
  refine ⟨lt, rfl, number, ?_⟩
  change |_| ≤ _
  rw [unit, FVal.real_fin, signFactor_false, one_mul, scale, Nat.cast_ofNat] at dist
  have close : |unitsOf t * 2 ^ i - 2 ^ x| ≤ 2 ^ (-6 : ℤ) * spacing (2 ^ x) := by
    have least : (2 : ℝ) ^ (i - 23) ≤ spacing (2 ^ x) := by
      rw [← unit, ulpExp_fin (by omega), lead]
      exact zpow_le_zpow_right₀ one_le_two (by push_cast; omega)
    rw [split, ← sub_mul, abs_mul, abs_of_pos (a := (2 : ℝ) ^ i) (by positivity), ← split]
    calc |unitsOf t - 2 ^ (x - i)| * 2 ^ i ≤ 1 / 2 ^ 29 * 2 ^ i := by gcongr
      _ = 2 ^ (-6 : ℤ) * 2 ^ (i - 23) := by rw [zpow_sub₀ two_ne_zero]; norm_num; ring
      _ ≤ 2 ^ (-6 : ℤ) * spacing (2 ^ x) := by gcongr
  refine (abs_sub_le _ _ _).trans ((add_le_add dist close).trans_eq ?_)
  ring

end

end Sys2Proof.Machine
end

section
/-! The logarithm to base 2 (R154): whole results, the logarithm of the significand, and how near the result is near 1 and away from it. -/

namespace Sys2Proof.Machine

/-- An integer of few bits is encoded exactly. -/
theorem encRn_int {k : ℤ} (few : k.natAbs < 2 ^ 23) :
    (encRn f32 (ofIntF k)).1 < 2 ^ 32 ∧ (decodeF f32 (encRn f32 (ofIntF k)).1).isNan = false ∧ (decodeF f32 (encRn f32 (ofIntF k)).1).real = k := by
  by_cases zero : k = 0
  · subst zero
    have value : decodeF f32 (encRn f32 (ofIntF 0)).1 = .fin false 0 (-149) := by decide
    rw [value]
    exact ⟨encRn_lt _, rfl, by simp [FVal.real_fin]⟩
  · have pos : k.natAbs ≠ 0 := Int.natAbs_ne_zero.mpr zero
    have size : ((k.natAbs : ℕ) : ℝ) < 2 ^ 23 := by exact_mod_cast few
    have below : ((k.natAbs : ℕ) : ℝ) * 2 ^ (0 : ℤ) < 2 ^ 128 := by
      rw [zpow_zero, mul_one]; exact size.trans (by norm_num)
    have unit : ulpExp (ofIntF k) ≤ 0 := by
      rw [ofIntF, ulpExp_fin pos]
      have := (Nat.log2_lt pos).mpr few
      omega
    obtain ⟨lt, number, -⟩ := encRn_near (n := decide (k < 0)) below.le
    refine ⟨lt, number, (encRn_exact pos unit below).2.trans ?_⟩
    rw [FVal.real_fin, zpow_zero, mul_one, Nat.cast_natAbs, Int.cast_abs]
    by_cases neg : k < 0
    · have : (k : ℝ) < 0 := by exact_mod_cast neg
      simp [neg, abs_of_neg this]
    · have : (0 : ℝ) ≤ k := by exact_mod_cast not_lt.mp neg
      simp [neg, abs_of_nonneg this]

/-! The logarithm of a significand. -/

/-- The significand with its leading bit as the unit. -/
noncomputable def significand (m : ℕ) : ℝ := m / 2 ^ Nat.log2 m

/-- The argument of the series for a significand, in units of 2^-128. -/
def seriesArg (m : ℕ) : ℕ := (m - 2 ^ Nat.log2 m) * 2 ^ 128 / (m + 2 ^ Nat.log2 m)

/-- The logarithm of the significand as the model holds it, in units of 2^-128. -/
def logHeld (m : ℕ) : ℕ := 2 * atanhSeries 45 0 (seriesArg m) (seriesArg m) * 2 ^ 128 / ln2Fix

theorem significand_one_two {m : ℕ} (pos : m ≠ 0) : 1 ≤ significand m ∧ significand m < 2 := by
  obtain ⟨lo, hi⟩ := log2_bounds pos 0
  rw [add_zero, zpow_zero, mul_one] at lo hi
  rw [zpow_add_one₀ two_ne_zero] at hi
  rw [zpow_natCast] at lo hi
  rw [significand, le_div_iff₀ (by positivity), div_lt_iff₀ (by positivity)]
  constructor <;> linarith

/-- A significand of f32 that is no power of two keeps away from 1 and from 2. -/
theorem significand_range {m : ℕ} (pos : m ≠ 0) (few : m < 2 ^ 24) (odd : m ≠ 2 ^ Nat.log2 m) :
    1 + 1 / 2 ^ 23 ≤ significand m ∧ significand m ≤ 2 - 1 / 2 ^ 23 := by
  have lo : 2 ^ Nat.log2 m + 1 ≤ m := by have := Nat.log2_self_le pos; omega
  have hi : m + 1 ≤ 2 * 2 ^ Nat.log2 m := by have := Nat.lt_log2_self (n := m); rw [pow_succ] at this; omega
  have lead : 2 ^ Nat.log2 m ≤ 2 ^ 23 := Nat.pow_le_pow_right two_pos (by have := (Nat.log2_lt pos).mpr few; omega)
  have lo' : (2 ^ Nat.log2 m + 1 : ℝ) ≤ m := by exact_mod_cast lo
  have hi' : (m + 1 : ℝ) ≤ 2 * 2 ^ Nat.log2 m := by exact_mod_cast hi
  have lead' : (2 ^ Nat.log2 m : ℝ) ≤ 2 ^ 23 := by exact_mod_cast lead
  rw [significand]
  have pos' : (0 : ℝ) < 2 ^ Nat.log2 m := by positivity
  generalize (2 ^ Nat.log2 m : ℝ) = p at *
  rw [le_div_iff₀ pos', div_le_iff₀ pos']
  norm_num at lead' ⊢
  constructor <;> nlinarith

/-- The argument of the series is (ρ - 1) / (ρ + 1) for a significand ρ, cut to a unit. -/
theorem seriesArg_near {m : ℕ} (pos : m ≠ 0) : unitsOf (seriesArg m) ≤ (significand m - 1) / (significand m + 1) ∧
    (significand m - 1) / (significand m + 1) ≤ unitsOf (seriesArg m) + 1 / 2 ^ 128 := by
  obtain ⟨lo, hi⟩ := div_near ((m - 2 ^ Nat.log2 m) * 2 ^ 128) (m + 2 ^ Nat.log2 m)
  have pos' : (0 : ℝ) < 2 ^ Nat.log2 m := by positivity
  have form : (((m - 2 ^ Nat.log2 m) * 2 ^ 128 : ℕ) : ℝ) / (m + 2 ^ Nat.log2 m : ℕ) = (significand m - 1) / (significand m + 1) * 2 ^ 128 := by
    rw [Nat.cast_mul, Nat.cast_sub (Nat.log2_self_le pos), Nat.cast_add, Nat.cast_pow, Nat.cast_pow, Nat.cast_ofNat, significand,
      div_sub_one pos'.ne', div_add_one pos'.ne', div_div_div_cancel_right₀ pos'.ne', div_mul_eq_mul_div]
  rw [form] at lo hi
  rw [unitsOf, ← add_div, div_le_iff₀ (by positivity), le_div_iff₀ (by positivity)]
  exact ⟨lo, hi⟩

/-- The logarithm of (1 + t) / (1 - t) at an argument cut by a little. -/
theorem log_ratio_cut {t u d : ℝ} (nonneg : 0 ≤ t) (le : t ≤ u) (third : u ≤ 1 / 3) (near : u ≤ t + d) :
    |Real.log ((1 + t) / (1 - t)) - Real.log ((1 + u) / (1 - u))| ≤ 3 * d := by
  have h1 : 0 < 1 - u := by linarith
  have h2 : 0 < 1 - t := by linarith
  have mono : Real.log ((1 + t) / (1 - t)) ≤ Real.log ((1 + u) / (1 - u)) :=
    Real.log_le_log (div_pos (by linarith) h2) (div_le_div₀ (by linarith) (by linarith) h1 (by linarith))
  have split : Real.log ((1 + u) / (1 - u)) - Real.log ((1 + t) / (1 - t)) = Real.log ((1 + u) / (1 + t)) + Real.log ((1 - t) / (1 - u)) := by
    rw [Real.log_div (by linarith) h1.ne', Real.log_div (by linarith) h2.ne', Real.log_div (by linarith) (by linarith), Real.log_div h2.ne' h1.ne']
    ring
  have num : Real.log ((1 + u) / (1 + t)) ≤ d := by
    refine (Real.log_le_sub_one_of_pos (div_pos (by linarith) (by linarith))).trans ?_
    rw [div_sub_one (by linarith), div_le_iff₀ (by linarith)]
    nlinarith
  have den : Real.log ((1 - t) / (1 - u)) ≤ 2 * d := by
    refine (Real.log_le_sub_one_of_pos (div_pos h2 h1)).trans ?_
    rw [div_sub_one h1.ne', div_le_iff₀ h1]
    nlinarith
  rw [abs_of_nonpos (by linarith)]
  linarith

theorem logHeld_near {m : ℕ} (pos : m ≠ 0) : |unitsOf (logHeld m) - Real.logb 2 (significand m)| ≤ 1 / 2 ^ 31 := by
  have lead := significand_one_two pos
  obtain ⟨lo, hi⟩ := seriesArg_near pos
  have third : (significand m - 1) / (significand m + 1) ≤ 1 / 3 := by
    rw [div_le_div_iff₀ (by linarith) (by norm_num)]; linarith
  have series := atanhSeries_log (lo.trans third)
  have cut := log_ratio_cut (unitsOf_nonneg _) lo third hi
  have ratio : (1 + (significand m - 1) / (significand m + 1)) / (1 - (significand m - 1) / (significand m + 1)) = significand m := by
    have : significand m + 1 ≠ 0 := by linarith
    field_simp
    ring
  rw [ratio] at cut
  unfold logHeld
  generalize seriesArg m = t at *
  generalize atanhSeries 45 0 t t = s at *
  generalize hA : (s : ℝ) / 2 ^ 128 = A at *
  have double : |2 * A - Real.log (significand m)| ≤ 1 / 2 ^ 100 := by
    generalize Real.log ((1 + unitsOf t) / (1 - unitsOf t)) = x at *
    rw [abs_le] at *
    norm_num at series cut ⊢
    constructor <;> linarith
  have quotient : 2 * A / unitsOf ln2Fix - 1 / 2 ^ 128 ≤ unitsOf (2 * s * 2 ^ 128 / ln2Fix) ∧
      unitsOf (2 * s * 2 ^ 128 / ln2Fix) ≤ 2 * A / unitsOf ln2Fix := by
    obtain ⟨h1, h2⟩ := div_near (2 * s * 2 ^ 128) ln2Fix
    have form : ((2 * s * 2 ^ 128 : ℕ) : ℝ) / ln2Fix = 2 * A / unitsOf ln2Fix * 2 ^ 128 := by
      rw [← hA, unitsOf, Nat.cast_mul, Nat.cast_mul, Nat.cast_pow, Nat.cast_ofNat]
      generalize (ln2Fix : ℝ) = c
      field_simp
    rw [form] at h1 h2
    generalize 2 * A / unitsOf ln2Fix = z at *
    rw [unitsOf, sub_le_iff_le_add, ← add_div, le_div_iff₀ (by positivity), div_le_iff₀ (by positivity)]
    exact ⟨h2, h1⟩
  have ln := abs_le.mp ln2Fix_near
  have ln' := Real.log_two_lt_d9
  have ln'' := Real.log_two_gt_d9
  have less : Real.log (significand m) ≤ Real.log 2 := Real.log_le_log (by linarith) lead.2.le
  have nonneg : 0 ≤ Real.log (significand m) := Real.log_nonneg lead.1
  rw [Real.logb]
  generalize Real.log (significand m) = g at *
  generalize unitsOf (2 * s * 2 ^ 128 / ln2Fix) = y at *
  generalize unitsOf ln2Fix = L at *
  generalize Real.log 2 = l at *
  have change : |2 * A / L - g / l| ≤ 1 / 2 ^ 31 - 1 / 2 ^ 100 := by
    have pos : 0 < L := by norm_num at ln; linarith
    have pos' : 0 < l := by linarith
    have split : 2 * A / L - g / l = ((2 * A - g) - g / l * (L - l)) / L := by field_simp; ring
    have unit : |g / l| ≤ 1 := by rw [abs_of_nonneg (by positivity)]; exact (div_le_one pos').mpr less
    have part : |g / l * (L - l)| ≤ 1 * (1 / 2 ^ 32) := by
      rw [abs_mul]; exact mul_le_mul unit (abs_le.mpr ln) (abs_nonneg _) zero_le_one
    rw [split, abs_div, abs_of_pos pos, div_le_iff₀ pos]
    refine (abs_sub _ _).trans ((add_le_add double part).trans ?_)
    norm_num at ln ⊢
    linarith
  rw [abs_le] at change ⊢
  norm_num at change quotient ⊢
  constructor <;> linarith

/-! flog2. -/

/-- The logarithm of m × 2^e as the model holds it, in units of 2^-128. -/
def log2Held (m : ℕ) (e : ℤ) : ℤ := ((Nat.log2 m : ℤ) + e) * 2 ^ 128 + (logHeld m : ℤ)

theorem log2Held_real (m : ℕ) (e : ℤ) : (fixF (log2Held m e)).real = ((Nat.log2 m : ℤ) + e : ℤ) + unitsOf (logHeld m) := by
  rw [fixF_real, log2Held, Int.cast_add, Int.cast_mul, Int.cast_natCast (logHeld m), add_div, unitsOf, Int.cast_pow, Int.cast_ofNat,
    mul_div_cancel_right₀ _ (by positivity)]

theorem logb_two_zpow (k : ℤ) : Real.logb 2 (2 ^ k) = k := by
  rw [← Real.rpow_intCast, Real.logb_rpow two_pos one_lt_two.ne']

theorem logb_eq {m : ℕ} (pos : m ≠ 0) (e : ℤ) : Real.logb 2 (m * 2 ^ e) = ((Nat.log2 m : ℤ) + e : ℤ) + Real.logb 2 (significand m) := by
  have size : (0 : ℝ) < m := by exact_mod_cast Nat.pos_of_ne_zero pos
  have split : (m : ℝ) * 2 ^ e = 2 ^ ((Nat.log2 m : ℤ) + e) * significand m := by
    rw [significand, zpow_add₀ two_ne_zero, zpow_natCast]
    field_simp
  rw [split, Real.logb_mul (by positivity) (by rw [significand]; positivity), logb_two_zpow]

theorem log2Held_near {m : ℕ} (pos : m ≠ 0) (e : ℤ) : |(fixF (log2Held m e)).real - Real.logb 2 (m * 2 ^ e)| ≤ 1 / 2 ^ 31 := by
  rw [log2Held_real, logb_eq pos, add_sub_add_left_eq_sub]
  exact logHeld_near pos

/-- The logarithm of a number of f32 lies far below the greatest number of f32. -/
theorem log2Held_size {m : ℕ} (pos : m ≠ 0) (few : m < 2 ^ 24) {e : ℤ} (low : -149 ≤ e) (high : e ≤ 104) : |(fixF (log2Held m e)).real| ≤ 2 ^ 128 := by
  have bits := (Nat.log2_lt pos).mpr few
  obtain ⟨lo, hi⟩ := significand_one_two pos
  have g0 : 0 ≤ Real.logb 2 (significand m) := Real.logb_nonneg one_lt_two lo
  have g1 : Real.logb 2 (significand m) ≤ 1 := by
    have := Real.logb_le_logb_of_le one_lt_two (by linarith) hi.le
    rwa [Real.logb_self_eq_one one_lt_two] at this
  have near := abs_le.mp (logHeld_near pos)
  have h1 : (-149 : ℝ) ≤ ((Nat.log2 m : ℤ) + e : ℤ) := by exact_mod_cast (by omega : -149 ≤ (Nat.log2 m : ℤ) + e)
  have h2 : (((Nat.log2 m : ℤ) + e : ℤ) : ℝ) ≤ 127 := by exact_mod_cast (by omega : (Nat.log2 m : ℤ) + e ≤ 127)
  rw [log2Held_real, abs_le]
  norm_num at near h1 h2 ⊢
  constructor <;> linarith

/-- The logarithm of a significand of f32 that is no power of two keeps away from 0 and from 1. -/
theorem logb_significand {m : ℕ} (pos : m ≠ 0) (few : m < 2 ^ 24) (odd : m ≠ 2 ^ Nat.log2 m) :
    1 / 2 ^ 24 ≤ Real.logb 2 (significand m) ∧ Real.logb 2 (significand m) ≤ 1 - 1 / 2 ^ 24 := by
  obtain ⟨lo, hi⟩ := significand_range pos few odd
  generalize significand m = ρ at *
  have one : 1 ≤ ρ := le_trans (by norm_num) lo
  have two := Real.log_two_lt_d9
  have two' := Real.log_two_gt_d9
  have low : 1 / 2 ^ 24 ≤ Real.log ρ := by
    refine le_trans ?_ (Real.one_sub_inv_le_log_of_pos (by linarith))
    have : ρ⁻¹ ≤ (1 + 1 / 2 ^ 23)⁻¹ := by gcongr
    norm_num at this ⊢
    linarith
  have high : Real.log ρ ≤ Real.log 2 - 1 / 2 ^ 24 := by
    have := Real.one_sub_inv_le_log_of_pos (x := 2 / ρ) (by positivity)
    rw [Real.log_div two_ne_zero (by linarith), inv_div] at this
    norm_num at hi this ⊢
    linarith
  rw [Real.logb]
  constructor
  · rw [le_div_iff₀ (by linarith)]
    norm_num at low ⊢
    linarith
  · rw [div_le_iff₀ (by linarith)]
    norm_num at high ⊢
    linarith

/-- Two numbers between the same integers have the same spacing. -/
theorem spacing_between {j : ℕ} (one : 1 ≤ j) {x y : ℝ} (hx : j ≤ |x| ∧ |x| < j + 1) (hy : j ≤ |y| ∧ |y| < j + 1) : spacing x = spacing y := by
  have one' : (1 : ℝ) ≤ j := by exact_mod_cast one
  have floor : ∀ z : ℝ, j ≤ |z| ∧ |z| < j + 1 → Int.log 2 |z| = Nat.log 2 j := fun z hz => by
    rw [Int.log_of_one_le_right 2 (one'.trans hz.1), (Nat.floor_eq_iff (abs_nonneg z)).mpr hz]
  rw [spacing, spacing, floor x hx, floor y hy]

theorem spacing_of_one {x : ℝ} (one : 1 ≤ |x|) : 1 / 2 ^ 23 ≤ spacing x := by
  have := spacing_mono (x := 1) (y := x) (by norm_num) (by simpa using one)
  refine le_trans (le_of_eq ?_) this
  rw [spacing, abs_one, Int.log_one_right]
  norm_num

/-- Away from 1 the logarithm that the model holds has the spacing of the exact one, which is at least that of 1. -/
theorem log2Held_spacing {m : ℕ} (pos : m ≠ 0) (few : m < 2 ^ 24) (odd : m ≠ 2 ^ Nat.log2 m) {e : ℤ} (far : 1 ≤ (Nat.log2 m : ℤ) + e ∨ (Nat.log2 m : ℤ) + e ≤ -2) :
    spacing (fixF (log2Held m e)).real = spacing (Real.logb 2 (m * 2 ^ e)) ∧ 1 ≤ |(fixF (log2Held m e)).real| ∧ 1 ≤ |Real.logb 2 (m * 2 ^ e)| := by
  obtain ⟨lo, hi⟩ := logb_significand pos few odd
  obtain ⟨below, above⟩ := abs_le.mp (logHeld_near pos)
  rw [log2Held_real, logb_eq pos]
  generalize (Nat.log2 m : ℤ) + e = k at *
  generalize unitsOf (logHeld m) = f at *
  generalize Real.logb 2 (significand m) = g at *
  have f0 : 0 < f := by norm_num at lo below; linarith
  have f1 : f < 1 := by norm_num at hi above; linarith
  have g0 : 0 < g := by norm_num at lo; linarith
  have g1 : g < 1 := by norm_num at hi; linarith
  obtain ⟨j, one, range⟩ : ∃ j : ℕ, 1 ≤ j ∧ ∀ h : ℝ, 0 < h → h < 1 → j ≤ |(k : ℝ) + h| ∧ |(k : ℝ) + h| < j + 1 := by
    rcases far with positive | negative
    · refine ⟨k.toNat, by omega, fun h h0 h1 => ?_⟩
      have : ((k.toNat : ℕ) : ℝ) = k := by rw [← Int.cast_natCast, Int.toNat_of_nonneg (by omega)]
      have : (1 : ℝ) ≤ k := by exact_mod_cast positive
      rw [abs_of_nonneg (by linarith)]
      constructor <;> linarith
    · refine ⟨(-k - 1).toNat, by omega, fun h h0 h1 => ?_⟩
      have : (((-k - 1).toNat : ℕ) : ℝ) = -k - 1 := by rw [← Int.cast_natCast, Int.toNat_of_nonneg (by omega)]; push_cast; ring
      have : (k : ℝ) ≤ -2 := by exact_mod_cast negative
      rw [abs_of_nonpos (by linarith)]
      constructor <;> linarith
  have one' : (1 : ℝ) ≤ j := by exact_mod_cast one
  exact ⟨spacing_between one (range f f0 f1) (range g g0 g1), one'.trans (range f f0 f1).1, one'.trans (range g g0 g1).1⟩

/-- Whether the operand lies from 1/2 to 2, as the model decides it. -/
theorem near_one_iff (m : ℕ) (e : ℤ) : (!ltF (.fin false m e) (.fin false 1 (-1)) && !ltF (.fin false 1 1) (.fin false m e)) = true ↔
    1 / 2 ≤ (FVal.fin false m e).real ∧ (FVal.fin false m e).real ≤ 2 := by
  have half : (FVal.fin false 1 (-1)).real = 1 / 2 := by rw [FVal.real_fin]; norm_num
  have two : (FVal.fin false 1 1).real = 2 := by rw [FVal.real_fin]; norm_num
  rw [Bool.and_eq_true, Bool.not_eq_true', Bool.not_eq_true', ← Bool.not_eq_true, ← Bool.not_eq_true, ltF_fin_iff, ltF_fin_iff, half, two, not_lt, not_lt]

section
variable {a : Word} {m : ℕ} {e : ℤ} (value : decodeF f32 a.toNat = .fin false m e) (pos : m ≠ 0)
include value pos

theorem flog2F_fin : flog2F a = if m = 2 ^ Nat.log2 m then ((encRn f32 (ofIntF ((Nat.log2 m : ℤ) + e))).1, 0) else
    (if !ltF (.fin false m e) (.fin false 1 (-1)) && !ltF (.fin false 1 1) (.fin false m e) then freeWithin 4 a (fixF (log2Held m e)) 1 (-22) false
      else freeWithin 4 a (fixF (log2Held m e)) 2 (ulpExp (fixF (log2Held m e))) false, 0) := by
  have zero : (m == 0) = false := by simpa using pos
  unfold flog2F
  rw [value]
  dsimp only
  rw [zero, if_neg Bool.false_ne_true, if_neg Bool.false_ne_true]
  exact if_congr beq_iff_eq rfl rfl

theorem flog2_exact {k : ℤ} (power : (FVal.fin false m e).real = 2 ^ k) : Gives (flog2F a) fun r => r = k := by
  obtain ⟨few, low, high, -⟩ := decode_f32_range value
  rw [FVal.real_fin, signFactor_false, one_mul] at power
  obtain ⟨shape, lead⟩ := power_of_two pos power
  have bits := (Nat.log2_lt pos).mpr few
  obtain ⟨lt, number, real⟩ := encRn_int (k := k) (by omega)
  rw [flog2F_fin value pos, if_pos shape, lead]
  exact ⟨lt, rfl, number, real⟩

/-- A power of two has the exact logarithm. -/
theorem flog2_power (shape : m = 2 ^ Nat.log2 m) : Gives (flog2F a) fun r => r = Real.logb 2 (FVal.fin false m e).real := by
  have power : (FVal.fin false m e).real = 2 ^ ((Nat.log2 m : ℤ) + e) := by
    have : (m : ℝ) = 2 ^ (Nat.log2 m : ℤ) := by rw [zpow_natCast]; exact_mod_cast shape
    rw [FVal.real_fin, signFactor_false, one_mul, this, ← zpow_add₀ two_ne_zero]
  obtain ⟨lt, flags, number, real⟩ := flog2_exact value pos power
  refine ⟨lt, flags, number, real.trans ?_⟩
  rw [power, logb_two_zpow]

theorem flog2_near (half : 1 / 2 ≤ (FVal.fin false m e).real) (two : (FVal.fin false m e).real ≤ 2) :
    Gives (flog2F a) fun r => |r - Real.logb 2 (FVal.fin false m e).real| ≤ 2 ^ (-22 : ℤ) + 2 ^ (-28 : ℤ) := by
  by_cases shape : m = 2 ^ Nat.log2 m
  · obtain ⟨lt, flags, number, real⟩ := flog2_power value pos shape
    refine ⟨lt, flags, number, ?_⟩
    change |_| ≤ _
    rw [real, sub_self, abs_zero]
    positivity
  rw [flog2F_fin value pos, if_neg shape, if_pos ((near_one_iff m e).mpr ⟨half, two⟩)]
  rw [FVal.real_fin, signFactor_false, one_mul] at half two ⊢
  have near := log2Held_near pos e
  have size : |(fixF (log2Held m e)).real| < 2 ^ ((-22 : ℤ) + 24) := by
    have h1 := Real.logb_le_logb_of_le one_lt_two (by positivity) half
    have h2 := Real.logb_le_logb_of_le one_lt_two (lt_of_lt_of_le (by positivity) half) two
    rw [Real.logb_self_eq_one one_lt_two] at h2
    rw [one_div, Real.logb_inv, Real.logb_self_eq_one one_lt_two] at h1
    rw [abs_le] at near
    rw [abs_lt]
    norm_num at near ⊢
    constructor <;> linarith
  obtain ⟨lt, number, dist⟩ := freeWithin_of_near 4 a (fixF_finite _) (by norm_num) (by norm_num) size near
  refine ⟨lt, rfl, number, dist.trans ?_⟩
  norm_num

theorem flog2_far (far : (FVal.fin false m e).real < 1 / 2 ∨ 2 < (FVal.fin false m e).real) :
    Gives (flog2F a) fun r => |r - Real.logb 2 (FVal.fin false m e).real| ≤ (2 + 2 ^ (-6 : ℤ)) * spacing (Real.logb 2 (FVal.fin false m e).real) := by
  by_cases shape : m = 2 ^ Nat.log2 m
  · obtain ⟨lt, flags, number, real⟩ := flog2_power value pos shape
    refine ⟨lt, flags, number, ?_⟩
    change |_| ≤ _
    rw [real, sub_self, abs_zero]
    exact mul_nonneg (by positivity) (spacing_pos _).le
  have away : ¬ (1 / 2 ≤ (FVal.fin false m e).real ∧ (FVal.fin false m e).real ≤ 2) := fun ⟨h1, h2⟩ =>
    far.elim (fun h => (h.trans_le h1).false) (fun h => (h.trans_le h2).false)
  rw [flog2F_fin value pos, if_neg shape, if_neg (mt (near_one_iff m e).mp away)]
  rw [FVal.real_fin, signFactor_false, one_mul] at far ⊢
  obtain ⟨few, low, high, -⟩ := decode_f32_range value
  obtain ⟨lead, next⟩ := log2_bounds pos e
  have exponent : 1 ≤ (Nat.log2 m : ℤ) + e ∨ (Nat.log2 m : ℤ) + e ≤ -2 := by
    rcases far with small | large
    · right
      have := (zpow_lt_zpow_iff_right₀ (one_lt_two (α := ℝ))).mp (lead.trans_lt (small.trans_eq (by norm_num : (1 / 2 : ℝ) = 2 ^ (-1 : ℤ))))
      omega
    · left
      have := (zpow_lt_zpow_iff_right₀ (one_lt_two (α := ℝ))).mp ((zpow_one (2 : ℝ)).trans_lt (large.trans next))
      omega
  obtain ⟨same, one, one'⟩ := log2Held_spacing pos few shape exponent
  have near := log2Held_near pos e
  have grain := spacing_of_one one'
  have some : (log2Held m e).natAbs ≠ 0 := fun zero => by
    rw [Int.natAbs_eq_zero.mp zero, fixF_real, Int.cast_zero, zero_div, abs_zero] at one
    norm_num at one
  have unit : (2 : ℝ) ^ ulpExp (fixF (log2Held m e)) = spacing (Real.logb 2 (m * 2 ^ e)) := (spacing_eq some).trans same
  have top : ((log2Held m e).natAbs : ℝ) * 2 ^ (-128 : ℤ) ≤ 2 ^ 128 := by
    rw [← FVal.abs_real_fin (decide (log2Held m e < 0))]
    exact log2Held_size pos few low high
  obtain ⟨lt, number, dist, -⟩ := freeWithin_near 4 a (n := decide (log2Held m e < 0)) top le_rfl two_pos false
  refine ⟨lt, rfl, number, ?_⟩
  change |_| ≤ _
  change _ ≤ _ * (2 : ℝ) ^ ulpExp (fixF (log2Held m e)) at dist
  rw [unit, Nat.cast_ofNat] at dist
  refine (abs_sub_le _ _ _).trans ((add_le_add dist near).trans ?_)
  norm_num at grain ⊢
  linarith

end

end Sys2Proof.Machine
end

section
/-! How near the special functions come to their exact results (R154): the bounds of each, for a finite operand that is not zero. -/

namespace Sys2Proof.Machine

/-- A finite value that is not zero. -/
theorem finite_value {v : FVal} (number : v.isNan = false) (finite : v.isInf = false) (nonzero : v.isZero = false) :
    ∃ n m e, v = .fin n m e ∧ m ≠ 0 := by
  cases v with
  | nan => cases number
  | inf => cases finite
  | fin n m e => exact ⟨n, m, e, rfl, by simpa [FVal.isZero] using nonzero⟩

/-- A positive value has the positive sign. -/
theorem sign_of_pos {n : Bool} {m : ℕ} {e : ℤ} (pos : 0 < (FVal.fin n m e).real) : n = false := by
  cases n with
  | false => rfl
  | true =>
    rw [FVal.real_fin, signFactor_true, mul_assoc, neg_one_mul] at pos
    exact absurd pos (not_lt.mpr (neg_nonpos.mpr (by positivity)))

section
variable {a : Word} {m : ℕ} {e : ℤ} (value : decodeF f32 a.toNat = .fin false m e) (pos : m ≠ 0)
include value pos

/-- The functions of a positive operand: both square roots and the logarithm. -/
theorem positive_bounds :
    Gives (frsqF a) (fun r => |r - 1 / √(FVal.fin false m e).real| ≤ 2 * spacing (1 / √(FVal.fin false m e).real)) ∧
    (∀ n : ℤ, (FVal.fin false m e).real = 2 ^ (2 * n) → Gives (frsqF a) fun r => r = 2 ^ (-n)) ∧
    (fsqrtF a).1 < 2 ^ 31 ∧ (decodeF f32 (fsqrtF a).1).isNan = false ∧
    (∀ z < 2 ^ 31, (decodeF f32 z).isNan = false → |(decodeF f32 (fsqrtF a).1).real - √(FVal.fin false m e).real| ≤ |(decodeF f32 z).real - √(FVal.fin false m e).real|) ∧
    ((decodeF f32 (fsqrtF a).1).real ^ 2 = (FVal.fin false m e).real → (fsqrtF a).2 = 0) ∧
    ((decodeF f32 (fsqrtF a).1).real ^ 2 ≠ (FVal.fin false m e).real → (fsqrtF a).2 = flNX) ∧
    (∀ n : ℤ, (FVal.fin false m e).real = 2 ^ n → Gives (flog2F a) fun r => r = n) ∧
    (1 / 2 ≤ (FVal.fin false m e).real ∧ (FVal.fin false m e).real ≤ 2 →
      Gives (flog2F a) fun r => |r - Real.logb 2 (FVal.fin false m e).real| ≤ 2 ^ (-22 : ℤ) + 2 ^ (-28 : ℤ)) ∧
    ((FVal.fin false m e).real < 1 / 2 ∨ 2 < (FVal.fin false m e).real →
      Gives (flog2F a) fun r => |r - Real.logb 2 (FVal.fin false m e).real| ≤ (2 + 2 ^ (-6 : ℤ)) * spacing (Real.logb 2 (FVal.fin false m e).real)) := by
  obtain ⟨lt, number, nearest, exact', inexact⟩ := fsqrt_nearest value pos
  exact ⟨frsq_near value pos, fun _ => frsq_exact value pos, lt, number, fun z _ => nearest z, exact', inexact,
    fun _ => flog2_exact value pos, fun ⟨half, two⟩ => flog2_near value pos half two, flog2_far value pos⟩

end

/-- Settles O2: each value that the model holds for an exact result is that result cut or summed to a known error, and what it gives lies within the bound of that value. -/
theorem specialBounds : Obligations.SpecialBounds := by
  unfold Obligations.SpecialBounds
  intro val at' ulp a number finite nonzero x gives within flipped
  have real : val = FVal.real := by funext v; cases v <;> rfl
  obtain ⟨n, m, e, value, pos⟩ := finite_value number finite nonzero
  have operand : x = (FVal.fin n m e).real := by rw [← value, ← real]
  clear_value val
  subst real
  clear_value x
  subst operand
  refine ⟨frcp_near value pos, fun _ => frcp_exact value pos, fun positive => ?_, fexp2_near value, fun i least most whole => ?_,
    fsin_near value pos, fsin_odd value pos, fcos_near value pos, fcos_even value pos, ftanh_near value pos, ftanh_odd value pos⟩
  · obtain rfl := sign_of_pos positive
    exact positive_bounds value pos
  · refine fexp2_exact value ?_ ?_ whole
    · rw [whole]; exact_mod_cast (by omega : -150 < i)
    · rw [whole]; exact_mod_cast (by omega : i < 128)

end Sys2Proof.Machine
end
